-- ==== Sys2Proof/Word.lean ====
section
/-! DEFINITION. The word types of the Pyrod and their plainest arithmetic (spec/01, spec/02 R35). -/

namespace Sys2Proof

/-- One byte of memory. -/
abbrev Byte := BitVec 8

/-- A 64-bit register value (R35). -/
abbrev Word := BitVec 64

/-- A 32-bit instruction word (R19). -/
abbrev IWord := BitVec 32

/-- A set of threads of a group: bit t stands for thread t (R216). -/
abbrev Mask := BitVec 32

/-- The threads of a mask in ascending order, the issue order of R6. -/
def Mask.threads (m : Mask) : List Nat := (List.range 32).filter fun t => m.getLsbD t

/-- The mask of one thread. -/
def Mask.one (t : Nat) : Mask := 1#32 <<< t

/-- The lowest thread of a mask, 0 for the empty mask. -/
def Mask.lowest (m : Mask) : Nat := m.threads.headD 0

end Sys2Proof
end

