-- ==== Sys2Proof/Syntax.lean ====
section
/-! DEFINITION. The instructions of the Pyrod: one constructor for each row of spec/opcode_table.json, 195 instruction
words and 79 machine events (spec/95). Operand fields carry the names of the formats of R41, R211 and R341. -/

namespace Sys2Proof

/-- C and S of R19: c chains the word to the next one, s ends the run after it. -/
structure Hd where
  c : Bool
  s : Bool
deriving DecidableEq, Repr

/-- An operand specifier (R35). `k i` is the i-th of the constants 1, 2, 3, 4, 8, 16, 32, −1; `rsv` a reserved code. -/
inductive Opnd where
  | v (n : Fin 64)
  | g (n : Fin 32)
  | o (n : Fin 8)
  | y0
  | y1
  | z
  | tid
  | rsv (n : Fin 4)
  | p (n : Fin 8)
  | k (n : Fin 8)
deriving DecidableEq, Repr

/-- Packed integer types of R70, in the order of the minor codes. -/
inductive PTy where
  | s8 | z8 | s16 | z16 | s32 | z32
deriving DecidableEq, Repr

/-- Floating-point types, in the order of the type codes of R87. -/
inductive FTy where
  | f64 | f32 | f16 | bf16 | e4m3 | e5m2
deriving DecidableEq, Repr

/-- Rounding modes of R79, in the order of the codes. -/
inductive Rnd where
  | rne | rz | ru | rd | dr
deriving DecidableEq, Repr

/-- Conditions of CMP (R66); CMPI has the first four. -/
inductive Cmp where
  | eq | ne | lt | ge | ltu | geu | tst
deriving DecidableEq, Repr

/-- Conditions of FCMP (R92). -/
inductive FCmp where
  | eq | lt | le | un
deriving DecidableEq, Repr

/-- Conditions of WAITM, PRED and WAITMEM (R176, R182), in the order of the codes. -/
inductive WCond where
  | eq | ne | ltu | geu | lt | ge | tst | ntst
deriving DecidableEq, Repr

/-- Integer types of a CVT between integer and float (R93). -/
inductive ITy where
  | s32 | s64 | z32 | z64
deriving DecidableEq, Repr

/-- Access sizes of the MEM format (R42): 1, 2, 4 or 8 bytes. -/
inductive Sz where
  | b8 | b16 | b32 | b64
deriving DecidableEq, Repr

/-- Element widths of the cross-lane words SHUF and BCAST (R115), in the order of the minor codes. -/
inductive LaneW where
  | b64 | b32 | b16 | b8
deriving DecidableEq, Repr

/-- Widths of SUBPERM (R121). -/
inductive PermW where
  | b4 | b8 | b16 | b32
deriving DecidableEq, Repr

/-- Widths of PACK and UNPACK (R102). -/
inductive PackW where
  | b8 | b16 | b32
deriving DecidableEq, Repr

/-- Reduction operations (R119), in the order of the minor codes. -/
inductive RedOp where
  | add | min | max | and | or | xor
deriving DecidableEq, Repr

/-- Types of GRED, GSCAN and REDL (R118), in the order of the codes. -/
inductive RTy where
  | s64 | z64 | s32 | z32 | f64 | f32 | bf16
deriving DecidableEq, Repr

/-- Types of the special functions and of SAMPLE (R106). -/
inductive STy where
  | f32 | bf16
deriving DecidableEq, Repr

/-- Scopes (R14). The words that name a scope admit the subsets of R176 and R211. -/
inductive Scope where
  | lane | core | quad | die | pkg | pod | sys | eng
deriving DecidableEq, Repr

/-- Selectors of RDMAP (R204), in the order of the codes. -/
inductive MapSel where
  | w0 | w1 | kind | par | seq | ext | bufsz | glob | tscr
deriving DecidableEq, Repr

/-- Units of the array (R245); a PSTAT, which belongs to none of them (R279), stands under `status`. -/
inductive AUnit where
  | loader | stream | port | sequencer | status
deriving DecidableEq, Repr

/-- How Jalov resolves a reported page fault (R138, R139): it writes page-table words at physical addresses, or it
resumes with PROT. -/
inductive FaultFix where
  | entries (ws : List (Nat × Word))
  | prot
deriving DecidableEq, Repr

/-- How a stopped group is resumed (R349). -/
inductive Resume where
  | replay | skip
deriving DecidableEq, Repr

/-- A register that Jalov or the debugger changes before it resumes a group (R349). -/
inductive RegEdit where
  | thread (t : Nat) (r : Opnd) (x : Word)
  | group (n : Fin 32) (x : Word)
  | fstat (x : Word)
  | gdbg (x : Word)
  | trreg (n : Fin 8) (w0 w1 : Word)
deriving DecidableEq, Repr

/-- A packet on a Thedel link (R305): the port and virtual lane it arrives on, its words and its truncation mark, and
whether Jalov has opened to pod traffic the partition that its queue is mapped to. -/
structure PodPacket where
  port  : Nat
  vl    : Nat
  words : List Word
  trunc : Bool
  opn   : Bool
deriving DecidableEq, Repr

/-- A register outside the instruction stream that the host, Jalov or the debugger writes (R343, R344, R367, R373). -/
inductive RegName where
  | sys (part n : Nat)
  | group (core slot n : Nat)
  | vmarg (die : Nat)
  | lmarg (port lane : Nat)
deriving DecidableEq, Repr

/-- The images that live maintenance replaces (R376). -/
inductive LiveImage where
  | firmware | microcode | phy
deriving DecidableEq, Repr

/-- The units that an error is found in (R372). -/
inductive ErrUnit where
  | line (pa : Nat)
  | channel (stack pc : Nat)
  | slice (die n : Nat)
  | link (port lane : Nat)
  | quad (die q : Nat)
deriving DecidableEq, Repr

/-- A frame that Jalov migrates (R372): its `size` bytes at physical address `src` go to another frame, page-table words at
physical addresses remap its page, and a shoot-down covers `len` bytes from `base` of the partition. -/
structure FrameMove where
  src     : Nat
  dst     : Nat
  size    : Nat
  entries : List (Nat × Word)
  part    : Nat
  base    : Word
  len     : Word
deriving DecidableEq, Repr

/-- What the retry of an error shows (R372): transient; lasting but corrected, with the frames that Jalov migrates off the unit;
or uncorrectable. -/
inductive ErrOutcome where
  | transient
  | lasting (moves : List FrameMove)
  | uncorrectable
deriving DecidableEq, Repr

/-- A request in the DOE mailbox (R365): the data object type in its header, and its payload. -/
structure DoeReq where
  type  : Nat
  bytes : List Byte
deriving DecidableEq, Repr

/-- The fields of a LAUNCH packet (R316, R323). -/
structure LaunchPkt where
  ser : Bool
  irq : Bool
  w1  : Word
  w2  : Word
  w3  : Word
  w4  : Word
  w5  : Word
  w6  : Word
  w7  : Word
deriving DecidableEq, Repr

/-- A launch stream: its partition and number (R311). -/
structure StreamId where
  part : Nat
  num  : Nat
deriving DecidableEq, Repr

/-- The steps of the Pyrod: instruction words (each with its C and S bits) and machine events. -/
inductive Instr where
  -- integer, address and uniform words (R57)
  | add (h : Hd) (d a b : Opnd)
  | sub (h : Hd) (d a b : Opnd)
  | and (h : Hd) (d a b : Opnd)
  | or (h : Hd) (d a b : Opnd)
  | xor (h : Hd) (d a b : Opnd)
  | andn (h : Hd) (d a b : Opnd)
  | min (h : Hd) (d a b : Opnd)
  | max (h : Hd) (d a b : Opnd)
  | addi (h : Hd) (d a : Opnd) (imm : BitVec 8)
  | shli (h : Hd) (d a : Opnd) (imm : BitVec 6)
  | shri (h : Hd) (d a : Opnd) (imm : BitVec 6)
  | sari (h : Hd) (d a : Opnd) (imm : BitVec 6)
  | li (h : Hd) (d : Opnd) (imm : BitVec 17)
  | lis (h : Hd) (d : Opnd) (imm : BitVec 16)
  | addS32 (h : Hd) (d a b : Opnd)
  | subS32 (h : Hd) (d a b : Opnd)
  | mulS32 (h : Hd) (d a b : Opnd)
  | shlS32 (h : Hd) (d a b : Opnd)
  | shrS32 (h : Hd) (d a b : Opnd)
  | sarS32 (h : Hd) (d a b : Opnd)
  | bfi (h : Hd) (d a b : Opnd)
  | padd (h : Hd) (ty : PTy) (d a b : Opnd)
  | shl (h : Hd) (d a b : Opnd)
  | shr (h : Hd) (d a b : Opnd)
  | sar (h : Hd) (d a b : Opnd)
  | rol (h : Hd) (d a b : Opnd)
  | minu (h : Hd) (d a b : Opnd)
  | maxu (h : Hd) (d a b : Opnd)
  | mul (h : Hd) (d a b : Opnd)
  | mulh (h : Hd) (d a b : Opnd)
  | mulhu (h : Hd) (d a b : Opnd)
  | div (h : Hd) (d a b : Opnd)
  | divu (h : Hd) (d a b : Opnd)
  | rem (h : Hd) (d a b : Opnd)
  | remu (h : Hd) (d a b : Opnd)
  | mad (h : Hd) (d a b : Opnd)
  | bfxZ (h : Hd) (d a b : Opnd)
  | bfxS (h : Hd) (d a b : Opnd)
  | clz (h : Hd) (d a : Opnd)
  | ctz (h : Hd) (d a : Opnd)
  | popc (h : Hd) (d a : Opnd)
  | brev (h : Hd) (d a : Opnd)
  | abs (h : Hd) (d a : Opnd)
  | mov (h : Hd) (d a : Opnd)
  | sext (h : Hd) (w : PackW) (d a : Opnd)
  | zext (h : Hd) (w : PackW) (d a : Opnd)
  | psub (h : Hd) (ty : PTy) (d a b : Opnd)
  | sel (h : Hd) (n : Fin 8) (d a b : Opnd)
  | cmp (h : Hd) (cond : Cmp) (d a b : Opnd)
  | cmpi (h : Hd) (cond : Cmp) (d a : Opnd) (imm : BitVec 8)
  | pmin (h : Hd) (ty : PTy) (d a b : Opnd)
  | lea (h : Hd) (scale : BitVec 2) (d a b : Opnd)
  | leaS32 (h : Hd) (scale : BitVec 2) (d a b : Opnd)
  | pmax (h : Hd) (ty : PTy) (d a b : Opnd)
  -- float words (R86)
  | fadd (h : Hd) (ty : FTy) (d a b : Opnd)
  | fsub (h : Hd) (ty : FTy) (d a b : Opnd)
  | fmul (h : Hd) (ty : FTy) (d a b : Opnd)
  | ffma (h : Hd) (ty : FTy) (d a b : Opnd)
  | ffms (h : Hd) (ty : FTy) (d a b : Opnd)
  | fnma (h : Hd) (ty : FTy) (d a b : Opnd)
  | fmin (h : Hd) (ty : FTy) (d a b : Opnd)
  | fmax (h : Hd) (ty : FTy) (d a b : Opnd)
  | faddRz (h : Hd) (ty : FTy) (d a b : Opnd)
  | faddRu (h : Hd) (ty : FTy) (d a b : Opnd)
  | faddRd (h : Hd) (ty : FTy) (d a b : Opnd)
  | fmulRz (h : Hd) (ty : FTy) (d a b : Opnd)
  | fmulRu (h : Hd) (ty : FTy) (d a b : Opnd)
  | fmulRd (h : Hd) (ty : FTy) (d a b : Opnd)
  | fabs (h : Hd) (ty : FTy) (d a : Opnd)
  | fneg (h : Hd) (ty : FTy) (d a : Opnd)
  | fclass (h : Hd) (ty : FTy) (d a : Opnd)
  | frnd (h : Hd) (ty : FTy) (rm : Rnd) (d a : Opnd)
  | fcpys (h : Hd) (ty : FTy) (d a b : Opnd)
  | fscalb (h : Hd) (ty : FTy) (d a b : Opnd)
  | fcmp (h : Hd) (cond : FCmp) (ty : FTy) (d a b : Opnd)
  | cvtFloatFloat (h : Hd) (dst src : FTy) (rm : Rnd) (sat : Bool) (d a : Opnd)
  | cvtIntegerFloat (h : Hd) (ity : ITy) (fty : FTy) (toInt : Bool) (rm : Rnd) (d a : Opnd)
  | qnq4 (h : Hd) (dr : Bool) (d a b : Opnd)
  | dqnq4 (h : Hd) (d a b : Opnd)
  | qe8 (h : Hd) (fmt : FTy) (dr : Bool) (d a b : Opnd)
  | dot (h : Hd) (ty : FTy) (d a b : Opnd)
  | fsum (h : Hd) (ty : FTy) (d a b : Opnd)
  | pack (h : Hd) (w : PackW) (d a b : Opnd)
  | unpack (h : Hd) (w : PackW) (d a b : Opnd)
  | dqe8 (h : Hd) (fmt : FTy) (d a b : Opnd)
  -- special functions, sampling and cross-lane words (R106)
  | rcp (h : Hd) (ty : STy) (d a : Opnd)
  | rsq (h : Hd) (ty : STy) (d a : Opnd)
  | sqrt (h : Hd) (ty : STy) (d a : Opnd)
  | exp2 (h : Hd) (ty : STy) (d a : Opnd)
  | log2 (h : Hd) (ty : STy) (d a : Opnd)
  | sin (h : Hd) (ty : STy) (d a : Opnd)
  | cos (h : Hd) (ty : STy) (d a : Opnd)
  | tanh (h : Hd) (ty : STy) (d a : Opnd)
  | lse2 (h : Hd) (d a b : Opnd)
  | rngB64 (h : Hd) (d a b : Opnd)
  | rngF32 (h : Hd) (d a b : Opnd)
  | rngBf16 (h : Hd) (d a b : Opnd)
  | sample (h : Hd) (ty : STy) (d a b : Opnd)
  | shuf (h : Hd) (w : LaneW) (d a b : Opnd)
  | bcast (h : Hd) (w : LaneW) (d a b : Opnd)
  | rdlane (h : Hd) (d a b : Opnd)
  | wrlane (h : Hd) (d a b : Opnd)
  | voteAny (h : Hd) (d a : Opnd)
  | voteAll (h : Hd) (d a : Opnd)
  | voteBallot (h : Hd) (d a : Opnd)
  | voteEq (h : Hd) (d a : Opnd)
  | compressCnt (h : Hd) (wide : Bool) (d a : Opnd)
  | gred (h : Hd) (op : RedOp) (ty : RTy) (d a : Opnd)
  | gscan (h : Hd) (op : RedOp) (ty : RTy) (excl : Bool) (d a : Opnd)
  | compress (h : Hd) (wide : Bool) (d a b : Opnd)
  | expand (h : Hd) (wide : Bool) (d a b : Opnd)
  | subperm (h : Hd) (w : PermW) (d a b : Opnd)
  -- memory words (R143)
  | ld (h : Hd) (sz : Sz) (t : Opnd) (b : Fin 8) (x : Opnd) (scale : BitVec 2) (disp : BitVec 3)
  | st (h : Hd) (sz : Sz) (t : Opnd) (b : Fin 8) (x : Opnd) (scale : BitVec 2) (disp : BitVec 3)
  | lds (h : Hd) (sz : Sz) (t : Opnd) (b : Fin 8) (x : Opnd) (scale : BitVec 2) (disp : BitVec 3)
  | pref (h : Hd) (l2 : Bool) (sz : Sz) (b : Fin 8) (x : Opnd) (scale : BitVec 2) (disp : BitVec 3)
  | aadd (h : Hd) (wide : Bool) (t : Opnd) (b : Fin 8) (x : Opnd) (scale : BitVec 2)
  | aand (h : Hd) (wide : Bool) (t : Opnd) (b : Fin 8) (x : Opnd) (scale : BitVec 2)
  | aor (h : Hd) (wide : Bool) (t : Opnd) (b : Fin 8) (x : Opnd) (scale : BitVec 2)
  | axor (h : Hd) (wide : Bool) (t : Opnd) (b : Fin 8) (x : Opnd) (scale : BitVec 2)
  | axch (h : Hd) (wide : Bool) (t : Opnd) (b : Fin 8) (x : Opnd) (scale : BitVec 2)
  | aminS (h : Hd) (wide : Bool) (t : Opnd) (b : Fin 8) (x : Opnd) (scale : BitVec 2)
  | amaxS (h : Hd) (wide : Bool) (t : Opnd) (b : Fin 8) (x : Opnd) (scale : BitVec 2)
  | acas (h : Hd) (wide : Bool) (t : Opnd) (b : Fin 8) (x : Opnd) (scale : BitVec 2)
  | aminZ (h : Hd) (wide : Bool) (t : Opnd) (b : Fin 8) (x : Opnd) (scale : BitVec 2)
  | amaxZ (h : Hd) (wide : Bool) (t : Opnd) (b : Fin 8) (x : Opnd) (scale : BitVec 2)
  | afadd (h : Hd) (wide : Bool) (t : Opnd) (b : Fin 8) (x : Opnd) (scale : BitVec 2)
  | abinc (h : Hd) (t : Opnd) (b : Fin 8) (x : Opnd) (scale : BitVec 2)
  | apmax (h : Hd) (t : Opnd) (b : Fin 8) (x : Opnd) (scale : BitVec 2)
  | frd (h : Hd) (t : Opnd) (b : Fin 8) (x : Opnd) (scale : BitVec 2)
  | fwr (h : Hd) (t : Opnd) (b : Fin 8) (x : Opnd) (scale : BitVec 2)
  | fclr (h : Hd) (b : Fin 8) (x : Opnd) (scale : BitVec 2)
  | trb (h : Hd) (n : Fin 8) (a : Opnd)
  -- fences, barriers and waits (R176)
  | fence (h : Hd) (sc : Scope)
  | bar (h : Hd) (sc : Scope) (a b : Opnd)
  | bara (h : Hd) (sc : Scope) (a b : Opnd)
  | barw (h : Hd) (sc : Scope) (a : Opnd)
  | evwait (h : Hd) (a : Opnd)
  | evpop (h : Hd) (d : Opnd)
  | waitm (h : Hd) (cond : WCond) (wide : Bool) (t : Opnd) (b : Fin 8) (x : Opnd) (scale : BitVec 2)
  -- level words (R202)
  | rdmap (h : Hd) (sel : MapSel) (d : Opnd) (lv : Fin 8)
  | lvidx (h : Hd) (d : Opnd) (lv : Fin 8)
  | lvext (h : Hd) (d : Opnd) (lv : Fin 8)
  | lvfirst (h : Hd) (d : Opnd) (lv : Fin 8)
  | lvbuf (h : Hd) (d : Opnd) (lv : Fin 8)
  | lvfor (h : Hd) (lv : Fin 8)
  | lvnext (h : Hd) (d : Opnd) (lv : Fin 8)
  | redl (h : Hd) (op : RedOp) (ty : RTy) (d a : Opnd) (lv : Fin 8)
  | barl (h : Hd) (lv : Fin 8)
  -- control words (R210, R211)
  | bra (h : Hd) (neg : Bool) (p : Fin 8) (disp : BitVec 20)
  | brp (h : Hd) (neg : Bool) (p : Fin 8) (disp : BitVec 20)
  | call (h : Hd) (disp : BitVec 16)
  | fcall (h : Hd) (nm1 : BitVec 6) (disp : BitVec 16)
  | fcallForce (h : Hd) (nm1 : BitVec 6) (disp : BitVec 16)
  | ftrainSeed (h : Hd) (k : BitVec 4) (disp : BitVec 16)
  | ftrainForce (h : Hd) (k : BitVec 4) (disp : BitVec 16)
  | ftrainClear (h : Hd) (disp : BitVec 16)
  | nop (h : Hd)
  | jmpr (h : Hd) (a : Opnd)
  | callr (h : Hd) (a : Opnd)
  | ret (h : Hd)
  | join (h : Hd)
  | exit (h : Hd) (sc : Scope)
  | yield (h : Hd)
  -- matrix words (R255)
  | fmtb (h : Hd) (a : Opnd)
  | wld (h : Hd) (a b : Opnd)
  | wswp (h : Hd)
  | accz (h : Hd) (mask : BitVec 4)
  | mma (h : Hd) (a b c : Opnd)
  | accout (h : Hd) (a b c : Opnd)
  | accin (h : Hd) (a b c : Opnd)
  | mmt (h : Hd) (a : Opnd)
  | mstat (h : Hd) (d : Opnd)
  -- plan words (R277)
  | pld (h : Hd) (a : Opnd)
  | pcost (h : Hd) (a b : Opnd)
  | pmarg (h : Hd) (out col : Bool) (a : Opnd)
  | pscl (h : Hd) (out col : Bool) (a : Opnd)
  | balance (h : Hd) (a b : Opnd)
  | ppart (h : Hd) (row : Bool) (a : Opnd)
  | pout (h : Hd) (a b c : Opnd)
  | pdist (h : Hd) (a b : Opnd)
  | pstat (h : Hd) (d : Opnd)
  -- copy words (R293)
  | cpy (h : Hd) (a b c : Opnd)
  | cpy2d (h : Hd) (a : Opnd)
  | gth (h : Hd) (a : Opnd)
  | sct (h : Hd) (a : Opnd)
  | cpyr (h : Hd) (a b c : Opnd)
  -- system words (R341)
  | rdsr (h : Hd) (d : Opnd) (n : BitVec 14)
  | wrsr (h : Hd) (a : Opnd) (n : BitVec 14)
  | rdctr (h : Hd) (d : Opnd) (sync : Bool) (sel : BitVec 13)
  | rdclk (h : Hd) (d : Opnd) (sync : Bool)
  | trap (h : Hd) (code : BitVec 14)
  | syscall (h : Hd) (code : BitVec 14)
  | bkpt (h : Hd)
  | selftest (h : Hd) (d : Opnd) (pattern : BitVec 14)
  -- events that the package's own order schedules (spec/95, Machine/Sched.lean)
  | groupRunSelect (core pipe : Nat)
  | variableResultWrite (core slot idx : Nat)
  | dividerResult (core pipe idx : Nat)
  | pageWalk (core idx : Nat)
  | trbComplete (core slot idx : Nat)
  | logicalTimeTick
  | rebase
  | rebaseRelease
  | shootDownAck (part : Nat)
  | tenderValidation (core slot : Nat)
  | phaseBoundary (launch team : Nat)
  | starve (part : Nat)
  | completionRecordPost (core : Nat)
  | arrayOperationStart (core : Nat) (u : AUnit)
  | mmtStep (core : Nat)
  | slewGovernorStep (quad : Nat)
  | accumulatorRowWrite (core : Nat)
  | arrayOperationDrain (core : Nat) (u : AUnit)
  | copyOperationStart (core : Nat)
  | copyOperationEnd (core idx : Nat)
  | packetFetch (q : StreamId)
  | nopk (q : StreamId)
  | launch (q : StreamId) (pkt : LaunchPkt)
  | ib (q : StreamId) (addr : Word) (count : BitVec 24)
  | pred (q : StreamId) (n : BitVec 8) (cond : WCond) (wide : Bool) (addr cmp : Word)
  | loop (q : StreamId) (n : BitVec 8) (k : BitVec 16)
  | ffence (q : StreamId)
  | write (q : StreamId) (wide : Bool) (addr x : Word)
  | waitmem (q : StreamId) (cond : WCond) (wide : Bool) (addr cmp : Word)
  | signal (q : StreamId) (irq wide : Bool) (addr x : Word)
  | teamPlacement (die : Nat)
  | groupStart (core slot : Nat)
  | launchEnd (launch : Nat)
  | sliceExpiry (launch : Nat)
  | budgetPeriod
  | launchTokenTick
  | hostReadBufferExpiry (idx : Nat)
  | lifecycleWipeDone
  | selftestDone (core slot : Nat) (first : BitVec 16) (count : BitVec 32)
  | quadRetire (die quad : Nat)
  | accessPerformed (core slot : Nat)
  | instructionFetch (core block : Nat)
  -- events that Jalov, the debugger, the host or other packages choose, and outcomes of tests and trainings
  | pageFaultResume (core slot split : Nat) (fix : FaultFix)
  | shootDown (part : Nat)
  | teamSpill (launch team : Nat)
  | groupResume (core slot : Nat) (how : Resume) (edits : List RegEdit)
  | ended (launch : Nat)
  | debuggerStop (core slot : Nat)
  | mmtForcedStop (core : Nat)
  | copyAccessRetry (core idx : Nat) (fix : FaultFix)
  | thedelPacketDelivery (pkt : PodPacket)
  | stop (port vl : Nat)
  | go (port vl : Nat)
  | linkReplay (port lane : Nat) (out : ErrOutcome)
  | hostWrite (fn off : Nat) (bytes : List Byte)
  | hostRead (fn off n : Nat) (keep : Bool)
  | sqctlWrite (q : StreamId) (x : Word)
  | sqtailWrite (q : StreamId) (x : Word)
  | lnkstWrite (port : Nat) (x : Word)
  | marginRun (port lane : Nat) (x : Word)
  | marginRunComplete (port lane : Nat) (err : BitVec 32)
  | registerWrite (r : RegName) (x : Word)
  | doeDiscovery (idx : Nat)
  | attest (payload : DoeReq)
  | provision (payload : DoeReq)
  | deploy (payload : DoeReq)
  | rma (payload : DoeReq)
  | deviceReset
  | mregExtend (i : Nat) (image : List Byte)
  | liveUpdate (what : LiveImage) (image : List Byte)
  | memoryErrorRetry (u : ErrUnit) (out : ErrOutcome)
  | quadReassign (die quad : Nat) (part : Option Nat)
  | thermalThrottle
  | thermalRecover
  | thermalReset
  | housekeepingStore (pa : Nat) (bytes : List Byte) (future : Option (Nat × Nat))
  | packetAcknowledgement (port : Nat)
  | frontEndFaultResume (q : StreamId) (fix : FaultFix)
  | recordAreaFaultResume (launch : Nat) (fix : FaultFix)
deriving DecidableEq, Repr

end Sys2Proof
end

