-- ==== Sys2Proof/Config.lean ====
section
/-! DEFINITION. What the machine fixes once: its sizes, and the free values that the spec leaves open. A free value is an
opaque constant, so that nothing can be proved of the value it takes. -/

namespace Sys2Proof.Config

/-- Cores of a die (R9). -/
def coresPerDie : Nat := 128
/-- Compute dies (R8). -/
def dies : Nat := 8
/-- Group slots of a core (R10). -/
def slots : Nat := 64
/-- Lane pipes of a core (R10). -/
def pipes : Nat := 16
/-- Partitions (R15). -/
def parts : Nat := 48
/-- First byte of the scratchpad aperture (R124). -/
def aperture : BitVec 64 := 0xFFFFFFFFFFC00000#64
/-- The key of the first scratchpad byte of core 0 in `State.mem`. -/
def scratchKey : Nat := 2 ^ 52

/-- For a read of a register that is outstanding in production mode, which of the values that R31 allows thread t reads,
modulo their number: counter, operand specifier, thread (DESIGN CHOICE, log 6, 53). -/
opaque outstanding : Nat → BitVec 7 → Nat → Nat

/-- HBM tokens that a partition uses in the cycles that pass (R334): counter, clock, partition (DESIGN CHOICE, log 6). -/
opaque hbmTokens : Nat → BitVec 64 → Nat → Nat

/-- Whether a partition has no request waiting at an HBM controller (R336): counter, clock, partition (DESIGN CHOICE, log 6). -/
opaque hbmIdle : Nat → BitVec 64 → Nat → Bool

/-- Evictions, in the cycles that pass, of lines of a partition by its own fills from the L2 of a die (R351): counter,
clock, partition, die (DESIGN CHOICE, log 6). -/
opaque l2Evictions : Nat → BitVec 64 → Nat → Nat → BitVec 64

/-- The same by the fills of others (R354) (DESIGN CHOICE, log 6). -/
opaque l2Taken : Nat → BitVec 64 → Nat → Nat → BitVec 64

/-- The candidate FP32 result of an approximate function on an FP32 code, taken where it lies inside the bound of
R108: the function's number (1 RSQ, 4 LOG2, 5 SIN, 6 COS, 7 TANH), the code (DESIGN CHOICE, log 7). -/
opaque approx : Nat → BitVec 32 → BitVec 32

/-- Whether a copy operation that ends on a cause has performed its i-th unit (R300): counter, i (DESIGN CHOICE, log 12). -/
opaque copyDone : Nat → Nat → Bool

/-- The choice of an event's free order: counter, number of choices (DESIGN CHOICE, log 3). -/
opaque choose : Nat → Nat → Nat

/-- The public key of the SLH-DSA-SHA2-128s key pair that the ROM generates (R364): counter (DESIGN CHOICE, log 16). -/
opaque slhKeyGen : Nat → List Byte

/-- The package's signature over a message under a public key (R364) (DESIGN CHOICE, log 16). -/
opaque slhSign : List Byte → List Byte → List Byte

/-- Whether a signature over a message verifies under the key with the given SHA-256 digest (R363, R365) (DESIGN CHOICE, log 16). -/
opaque slhVerify : List Byte → List Byte → List Byte → Bool

/-- The firmware images of R363: 0 boot ROM identity, 1 housekeeping firmware, 2 Jalov kernel, 3 front-end microcode,
4 PHY calibration tables (DEDUCED, log 22). -/
opaque image : Nat → List Byte

/-- Whether the signature of a firmware image verifies against the fused key (R363, R376) (DESIGN CHOICE, log 16). -/
opaque imageSigned : List Byte → Bool

/-- The part of die d's 96 GiB that Jalov gives to its local pool at boot, in bytes (R123) (DESIGN CHOICE, log 21). -/
opaque localPool : Nat → Nat

/-- The pod number that Jalov sets at boot, if any (R370) (DESIGN CHOICE, log 21). -/
opaque podNumber : Option (Fin 512)

/-- The pod job into which Jalov has joined a launch (R179): the model's number of the launch (DESIGN CHOICE, log 15). -/
opaque podJob : Nat → Nat

/-- The physical address of an uncorrectable error that is found in a pseudo-channel or an L2 slice (R372): counter (DESIGN CHOICE, log 50). -/
opaque badLine : Nat → Nat

/-- TSCR of a team without scratchpad granules (R204, R206): counter (DESIGN CHOICE, log 46). -/
opaque noTscr : Nat → BitVec 64

/-- Whether Jalov has opened an on-chip queue to pod traffic, for packets of the package to itself (R305) (DESIGN CHOICE, log 14). -/
opaque podOpen : Nat → Bool

/-- The memory behind CXL port p that its decoder covers, in bytes (R13, R368) (DESIGN CHOICE, log 2). -/
opaque cxlBytes : Nat → Nat

/-- Word i of the phase record that a save writes (R332): counter, i (DESIGN CHOICE, log 23). -/
opaque recordWord : Nat → Nat → BitVec 64

/-- Whether Jalov's training of Thedel port p succeeds at boot (R370) (DESIGN CHOICE, log 21). -/
opaque trained : Nat → Bool

/-- The Vendor ID of the physical function's configuration header (R365) (PRESUMED, log 31). -/
opaque vendorId : BitVec 16

/-- Whether a bit pattern test of a core's structure finds failing bits (R362): counter; FIRST and COUNT (DEDUCED, log 49). -/
opaque selftest : Nat → BitVec 16 × BitVec 32

end Sys2Proof.Config
end

