-- ==== Sys2Proof/WellFormed.lean ====
section
/-! DEFINITION. Which terms of `Instr` the spec's encodings admit: one named check for each field that holds fewer
values in a word than its type holds (R44, R57, R86, R106, R143, R176, R202, R211, R255, R341). -/

namespace Sys2Proof

/-- Why a term is no instruction of the Pyrod. -/
inductive Ill where
  /-- A float type that the word does not list (R86, R90, R93). -/
  | floatType
  /-- A rounding mode that the word does not take (R90, R93). -/
  | rounding
  /-- A condition that the word does not list (R66). -/
  | condition
  /-- An access size that the word does not list (R143). -/
  | size
  /-- .and, .or or .xor of a float type (R118). -/
  | logicalOfFloat
  /-- A scope that the word does not list (R176, R211). -/
  | scope
  /-- Fields that must be zero at the .lane scope (R176). -/
  | laneFields
  /-- A level number that must be 0 (R204). -/
  | level
  /-- An empty tile mask (R255). -/
  | tileMask
  /-- A pattern of SELFTEST above 5 (R362). -/
  | pattern
deriving DecidableEq, Repr

namespace Instr

/-- `none` if `b`, else the reason `e`. -/
def orIll (b : Bool) (e : Ill) : Option Ill := if b then none else some e

/-- .f64, .f32, .f16 or .bf16 (R89, R90). -/
def wide4 : FTy → Bool
  | .f64 | .f32 | .f16 | .bf16 => true
  | .e4m3 | .e5m2 => false

/-- .f64 or .f32, the types of the directed forms (R86). -/
def wide2 : FTy → Bool
  | .f64 | .f32 => true
  | _ => false

/-- .e4m3 or .e5m2 (R98). -/
def fp8 : FTy → Bool
  | .e4m3 | .e5m2 => true
  | _ => false

/-- A float type of R118. -/
def isFloatR : RTy → Bool
  | .f64 | .f32 | .bf16 => true
  | _ => false

/-- .and, .or and .xor (R118). -/
def isLogical : RedOp → Bool
  | .and | .or | .xor => true
  | _ => false

/-- A reduction whose type has the operation (R118). -/
def redOk (op : RedOp) (ty : RTy) : Bool := !(isLogical op && isFloatR ty)

/-- The scopes that FENCE lists (R176). -/
def fenceScope : Scope → Bool
  | .lane => false
  | _ => true

/-- The scopes of BARA and BARW (R176). -/
def barScope : Scope → Bool
  | .core | .quad | .die | .pkg | .pod => true
  | _ => false

/-- The scopes of EXIT (R211). -/
def exitScope : Scope → Bool
  | .core | .quad | .die | .pkg | .pod | .sys => true
  | _ => false

/-- The check of BAR: at the .lane scope its operand fields are zero (R176). -/
def barCheck (sc : Scope) (a b : Opnd) : Option Ill :=
  match sc with
  | .lane => orIll (a == .v 0 && b == .v 0) .laneFields
  | sc => orIll (barScope sc) .scope

/-- The check of RDMAP: .glob and .tscr take level 0 only (R204). -/
def rdmapCheck (q : MapSel) (lv : Fin 8) : Option Ill :=
  match q with
  | .glob | .tscr => orIll (lv == 0) .level
  | _ => none

/-- The check of CVT between float types (R93). -/
def cvtCheck (dst : FTy) (rm : Rnd) : Option Ill :=
  match rm with
  | .dr => match dst with
    | .f16 | .bf16 | .e4m3 | .e5m2 => none
    | _ => some .rounding
  | _ => none

/-- The check of a rounding mode that may not be .dr (R90, R93). -/
def notDr : Rnd → Option Ill
  | .dr => some .rounding
  | _ => none

/-- The first reason why a term is no instruction, `none` for a well-formed one. -/
def check : Instr → Option Ill
  | .cmpi _ c _ _ _ => match c with
    | .eq | .ne | .lt | .ge => none
    | _ => some .condition
  | .fadd _ t .. | .fsub _ t .. | .fmul _ t .. | .ffma _ t .. | .ffms _ t .. | .fnma _ t .. | .fmin _ t ..
  | .fmax _ t .. | .fabs _ t .. | .fneg _ t .. | .fclass _ t .. | .fcpys _ t .. | .fscalb _ t .. | .fcmp _ _ t .. =>
    orIll (wide4 t) .floatType
  | .faddRz _ t .. | .faddRu _ t .. | .faddRd _ t .. | .fmulRz _ t .. | .fmulRu _ t .. | .fmulRd _ t .. =>
    orIll (wide2 t) .floatType
  | .frnd _ t rm .. => if wide4 t then notDr rm else some .floatType
  | .cvtFloatFloat _ dst _ rm .. => cvtCheck dst rm
  | .cvtIntegerFloat _ _ fty _ rm .. => if wide4 fty then notDr rm else some .floatType
  | .qe8 _ f .. | .dqe8 _ f .. => orIll (fp8 f) .floatType
  | .dot _ t .. => match t with
    | .bf16 | .f16 | .e4m3 | .e5m2 => none
    | _ => some .floatType
  | .fsum _ t .. => match t with
    | .f32 | .bf16 | .f16 => none
    | _ => some .floatType
  | .gred _ op ty .. | .gscan _ op ty .. | .redl _ op ty .. => orIll (redOk op ty) .logicalOfFloat
  | .lds _ sz .. => match sz with
    | .b64 => some .size
    | _ => none
  | .fence _ sc => orIll (fenceScope sc) .scope
  | .bar _ sc a b => barCheck sc a b
  | .bara _ sc .. | .barw _ sc .. => orIll (barScope sc) .scope
  | .rdmap _ q _ lv => rdmapCheck q lv
  | .exit _ sc => orIll (exitScope sc) .scope
  | .accz _ m => orIll (m != 0) .tileMask
  | .selftest _ _ p => orIll (p.toNat < 6) .pattern
  | .add .. | .sub .. | .and .. | .or .. | .xor .. | .andn .. | .min .. | .max .. | .addi .. | .shli .. | .shri ..
  | .sari .. | .li .. | .lis .. | .addS32 .. | .subS32 .. | .mulS32 .. | .shlS32 .. | .shrS32 .. | .sarS32 ..
  | .bfi .. | .padd .. | .shl .. | .shr .. | .sar .. | .rol .. | .minu .. | .maxu .. | .mul .. | .mulh .. | .mulhu ..
  | .div .. | .divu .. | .rem .. | .remu .. | .mad .. | .bfxZ .. | .bfxS .. | .clz .. | .ctz .. | .popc .. | .brev ..
  | .abs .. | .mov .. | .sext .. | .zext .. | .psub .. | .sel .. | .cmp .. | .pmin .. | .lea .. | .leaS32 ..
  | .pmax .. => none
  | .qnq4 .. | .dqnq4 .. | .pack .. | .unpack .. => none
  | .rcp .. | .rsq .. | .sqrt .. | .exp2 .. | .log2 .. | .sin .. | .cos .. | .tanh .. | .lse2 .. | .rngB64 ..
  | .rngF32 .. | .rngBf16 .. | .sample .. | .shuf .. | .bcast .. | .rdlane .. | .wrlane .. | .voteAny .. | .voteAll ..
  | .voteBallot .. | .voteEq .. | .compressCnt .. | .compress .. | .expand .. | .subperm .. => none
  | .ld .. | .st .. | .pref .. | .aadd .. | .aand .. | .aor .. | .axor .. | .axch .. | .aminS .. | .amaxS .. | .acas ..
  | .aminZ .. | .amaxZ .. | .afadd .. | .abinc .. | .apmax .. | .frd .. | .fwr .. | .fclr .. | .trb .. => none
  | .evwait .. | .evpop .. | .waitm .. | .lvidx .. | .lvext .. | .lvfirst .. | .lvbuf .. | .lvfor .. | .lvnext ..
  | .barl .. => none
  | .bra .. | .brp .. | .call .. | .fcall .. | .fcallForce .. | .ftrainSeed .. | .ftrainForce .. | .ftrainClear ..
  | .nop .. | .jmpr .. | .callr .. | .ret .. | .join .. | .yield .. => none
  | .fmtb .. | .wld .. | .wswp .. | .mma .. | .accout .. | .accin .. | .mmt .. | .mstat .. | .pld .. | .pcost ..
  | .pmarg .. | .pscl .. | .balance .. | .ppart .. | .pout .. | .pdist .. | .pstat .. => none
  | .cpy .. | .cpy2d .. | .gth .. | .sct .. | .cpyr .. => none
  | .rdsr .. | .wrsr .. | .rdctr .. | .rdclk .. | .trap .. | .syscall .. | .bkpt .. => none
  | .groupRunSelect .. | .variableResultWrite .. | .dividerResult .. | .pageWalk .. | .trbComplete ..
  | .pageFaultResume .. | .logicalTimeTick | .rebase | .rebaseRelease | .shootDown .. | .shootDownAck ..
  | .tenderValidation .. | .phaseBoundary .. | .starve .. | .teamSpill .. | .groupResume .. | .ended ..
  | .debuggerStop .. | .completionRecordPost .. | .arrayOperationStart .. | .mmtStep .. | .slewGovernorStep ..
  | .accumulatorRowWrite .. | .arrayOperationDrain .. | .mmtForcedStop .. | .copyOperationStart ..
  | .copyAccessRetry .. | .copyOperationEnd .. => none
  | .thedelPacketDelivery .. | .stop .. | .go .. | .linkReplay .. | .hostWrite .. | .hostRead ..
  | .hostReadBufferExpiry .. => none
  | .sqctlWrite .. | .sqtailWrite .. | .packetFetch .. | .nopk .. | .launch .. | .ib .. | .pred .. | .loop ..
  | .ffence .. | .write .. | .waitmem .. | .signal .. | .teamPlacement .. | .groupStart .. | .launchEnd ..
  | .sliceExpiry .. | .budgetPeriod | .launchTokenTick => none
  | .lnkstWrite .. | .marginRun .. | .marginRunComplete .. | .registerWrite .. | .doeDiscovery .. | .attest ..
  | .provision .. | .deploy .. | .rma .. | .lifecycleWipeDone | .deviceReset | .mregExtend .. | .liveUpdate ..
  | .selftestDone .. | .memoryErrorRetry .. | .quadRetire .. | .quadReassign .. | .thermalThrottle
  | .thermalRecover | .thermalReset | .housekeepingStore .. | .accessPerformed .. | .instructionFetch ..
  | .packetAcknowledgement .. | .frontEndFaultResume .. | .recordAreaFaultResume .. => none

/-- The spec's encodings admit the term. -/
def wellFormed (i : Instr) : Bool := (check i).isNone

end Instr

end Sys2Proof
end

