-- ==== Sys2Proof/Decode.lean ====
section
/-! DEFINITION. The words of the Pyrod: fields (R19, R41, R211, R341), the decoder, total on any bytes, and the encoder
written from the same tables (R57, R86, R106, R143, R176, R202, R210, R211, R255, R277, R293, R341). -/

namespace Sys2Proof

/-- Why bytes are no instruction. All but the first are the ILLOP cases of R44. -/
inductive DecodeError where
  /-- Fewer than four bytes are left. -/
  | truncated
  /-- A major that no class chapter lists. -/
  | reservedMajor
  /-- A minor or operation code that the major does not list. -/
  | reservedMinor
  /-- A reserved field that is not zero. -/
  | reservedField
  /-- A type, size or element code that is reserved for the word. -/
  | reservedType
  /-- A rounding code that is reserved for the word (R90, R93). -/
  | reservedRounding
  /-- A condition code that is reserved (R57). -/
  | reservedCondition
  /-- A scope code that is reserved for the word (R176, R211). -/
  | reservedScope
  /-- A selector, tile mask or pattern that is reserved for the word (R204, R255, R362). -/
  | reservedSelector
deriving DecidableEq, Repr

/-! ### Codes -/

/-- The operand specifier of a 7-bit code (R35). -/
def Opnd.ofCode (c : BitVec 7) : Opnd :=
  let n := c.toNat
  if h : n < 64 then .v ⟨n, h⟩
  else if h : n < 96 then .g ⟨n - 64, by omega⟩
  else if h : n < 104 then .o ⟨n - 96, by omega⟩
  else if n = 104 then .y0
  else if n = 105 then .y1
  else if n = 106 then .z
  else if n = 107 then .tid
  else if h : n < 112 then .rsv ⟨n - 108, by omega⟩
  else if h : n < 120 then .p ⟨n - 112, by omega⟩
  else .k ⟨n - 120, by have := c.isLt; omega⟩

/-- The code of an operand specifier (R35). -/
def Opnd.code : Opnd → BitVec 7
  | .v n => BitVec.ofNat 7 n.val
  | .g n => BitVec.ofNat 7 (64 + n.val)
  | .o n => BitVec.ofNat 7 (96 + n.val)
  | .y0 => 104#7
  | .y1 => 105#7
  | .z => 106#7
  | .tid => 107#7
  | .rsv n => BitVec.ofNat 7 (108 + n.val)
  | .p n => BitVec.ofNat 7 (112 + n.val)
  | .k n => BitVec.ofNat 7 (120 + n.val)

/-- A 3-bit register or level number. -/
def fin8 (b : BitVec 3) : Fin 8 := b.toFin

/-- The code of a 3-bit register or level number. -/
def code8 (n : Fin 8) : BitVec 3 := BitVec.ofFin n

/-- Minor codes of the packed types (R57). -/
def PTy.code : PTy → BitVec 3
  | .s8 => 0#3
  | .z8 => 1#3
  | .s16 => 2#3
  | .z16 => 3#3
  | .s32 => 4#3
  | .z32 => 5#3

/-- The reading of a code of `PTy.code`; `none` if it is reserved. -/
def PTy.ofCode (b : BitVec 3) : Option PTy :=
  match b.toNat with
  | 0 => some .s8
  | 1 => some .z8
  | 2 => some .s16
  | 3 => some .z16
  | 4 => some .s32
  | 5 => some .z32
  | _ => none

/-- The 3-bit type code (R87). -/
def FTy.code : FTy → BitVec 3
  | .f64 => 0#3
  | .f32 => 1#3
  | .f16 => 2#3
  | .bf16 => 3#3
  | .e4m3 => 4#3
  | .e5m2 => 5#3

/-- The reading of a code of `FTy.code`; `none` if it is reserved. -/
def FTy.ofCode (b : BitVec 3) : Option FTy :=
  match b.toNat with
  | 0 => some .f64
  | 1 => some .f32
  | 2 => some .f16
  | 3 => some .bf16
  | 4 => some .e4m3
  | 5 => some .e5m2
  | _ => none

/-- Rounding codes (R79). -/
def Rnd.code : Rnd → BitVec 3
  | .rne => 0#3
  | .rz => 1#3
  | .ru => 2#3
  | .rd => 3#3
  | .dr => 4#3

/-- The reading of a code of `Rnd.code`; `none` if it is reserved. -/
def Rnd.ofCode (b : BitVec 3) : Option Rnd :=
  match b.toNat with
  | 0 => some .rne
  | 1 => some .rz
  | 2 => some .ru
  | 3 => some .rd
  | 4 => some .dr
  | _ => none

/-- Minor codes of CMP and CMPI (R57). -/
def Cmp.code : Cmp → BitVec 3
  | .eq => 0#3
  | .ne => 1#3
  | .lt => 2#3
  | .ge => 3#3
  | .ltu => 4#3
  | .geu => 5#3
  | .tst => 6#3

/-- The reading of a code of `Cmp.code`; `none` if it is reserved. -/
def Cmp.ofCode (b : BitVec 3) : Option Cmp :=
  match b.toNat with
  | 0 => some .eq
  | 1 => some .ne
  | 2 => some .lt
  | 3 => some .ge
  | 4 => some .ltu
  | 5 => some .geu
  | 6 => some .tst
  | _ => none

/-- Condition codes of FCMP (R86): the low bit of the major and minor [2]. -/
def FCmp.code : FCmp → BitVec 2
  | .eq => 0#2
  | .lt => 1#2
  | .le => 2#2
  | .un => 3#2

/-- The reading of a code of `FCmp.code`; `none` if it is reserved. -/
def FCmp.ofCode (b : BitVec 2) : Option FCmp :=
  match b.toNat with
  | 0 => some .eq
  | 1 => some .lt
  | 2 => some .le
  | 3 => some .un
  | _ => none

/-- Condition codes of WAITM (R176). -/
def WCond.code : WCond → BitVec 3
  | .eq => 0#3
  | .ne => 1#3
  | .ltu => 2#3
  | .geu => 3#3
  | .lt => 4#3
  | .ge => 5#3
  | .tst => 6#3
  | .ntst => 7#3

/-- The reading of a code of `WCond.code`; `none` if it is reserved. -/
def WCond.ofCode (b : BitVec 3) : Option WCond :=
  match b.toNat with
  | 0 => some .eq
  | 1 => some .ne
  | 2 => some .ltu
  | 3 => some .geu
  | 4 => some .lt
  | 5 => some .ge
  | 6 => some .tst
  | 7 => some .ntst
  | _ => none

/-- Integer type codes of CVT (R93). -/
def ITy.code : ITy → BitVec 2
  | .s32 => 0#2
  | .s64 => 1#2
  | .z32 => 2#2
  | .z64 => 3#2

/-- The reading of a code of `ITy.code`; `none` if it is reserved. -/
def ITy.ofCode (b : BitVec 2) : Option ITy :=
  match b.toNat with
  | 0 => some .s32
  | 1 => some .s64
  | 2 => some .z32
  | 3 => some .z64
  | _ => none

/-- Size codes of the MEM format (R42). -/
def Sz.code : Sz → BitVec 2
  | .b8 => 0#2
  | .b16 => 1#2
  | .b32 => 2#2
  | .b64 => 3#2

/-- The reading of a code of `Sz.code`; `none` if it is reserved. -/
def Sz.ofCode (b : BitVec 2) : Option Sz :=
  match b.toNat with
  | 0 => some .b8
  | 1 => some .b16
  | 2 => some .b32
  | 3 => some .b64
  | _ => none

/-- Minor codes of SHUF and BCAST (R106). -/
def LaneW.code : LaneW → BitVec 2
  | .b64 => 0#2
  | .b32 => 1#2
  | .b16 => 2#2
  | .b8 => 3#2

/-- The reading of a code of `LaneW.code`; `none` if it is reserved. -/
def LaneW.ofCode (b : BitVec 2) : Option LaneW :=
  match b.toNat with
  | 0 => some .b64
  | 1 => some .b32
  | 2 => some .b16
  | 3 => some .b8
  | _ => none

/-- Minor codes of SUBPERM (R106). -/
def PermW.code : PermW → BitVec 2
  | .b4 => 0#2
  | .b8 => 1#2
  | .b16 => 2#2
  | .b32 => 3#2

/-- The reading of a code of `PermW.code`; `none` if it is reserved. -/
def PermW.ofCode (b : BitVec 2) : Option PermW :=
  match b.toNat with
  | 0 => some .b4
  | 1 => some .b8
  | 2 => some .b16
  | 3 => some .b32
  | _ => none

/-- Minor codes of PACK and UNPACK (R86); width codes of SEXT and ZEXT (R65). -/
def PackW.code : PackW → BitVec 2
  | .b8 => 0#2
  | .b16 => 1#2
  | .b32 => 2#2

/-- The reading of a code of `PackW.code`; `none` if it is reserved. -/
def PackW.ofCode (b : BitVec 2) : Option PackW :=
  match b.toNat with
  | 0 => some .b8
  | 1 => some .b16
  | 2 => some .b32
  | _ => none

/-- Minor codes of GRED, GSCAN and REDL (R106, R202). -/
def RedOp.code : RedOp → BitVec 3
  | .add => 0#3
  | .min => 1#3
  | .max => 2#3
  | .and => 3#3
  | .or => 4#3
  | .xor => 5#3

/-- The reading of a code of `RedOp.code`; `none` if it is reserved. -/
def RedOp.ofCode (b : BitVec 3) : Option RedOp :=
  match b.toNat with
  | 0 => some .add
  | 1 => some .min
  | 2 => some .max
  | 3 => some .and
  | 4 => some .or
  | 5 => some .xor
  | _ => none

/-- Type codes of GRED, GSCAN and REDL (R118). -/
def RTy.code : RTy → BitVec 3
  | .s64 => 0#3
  | .z64 => 1#3
  | .s32 => 2#3
  | .z32 => 3#3
  | .f64 => 4#3
  | .f32 => 5#3
  | .bf16 => 6#3

/-- The reading of a code of `RTy.code`; `none` if it is reserved. -/
def RTy.ofCode (b : BitVec 3) : Option RTy :=
  match b.toNat with
  | 0 => some .s64
  | 1 => some .z64
  | 2 => some .s32
  | 3 => some .z32
  | 4 => some .f64
  | 5 => some .f32
  | 6 => some .bf16
  | _ => none

/-- The type bit of the special functions and of SAMPLE (R106). -/
def STy.code : STy → BitVec 1
  | .f32 => 0#1
  | .bf16 => 1#1

/-- The reading of a code of `STy.code`; `none` if it is reserved. -/
def STy.ofCode (b : BitVec 1) : Option STy :=
  match b.toNat with
  | 0 => some .f32
  | 1 => some .bf16
  | _ => none

/-- Selectors of RDMAP (R204). -/
def MapSel.code : MapSel → BitVec 4
  | .w0 => 0#4
  | .w1 => 1#4
  | .kind => 2#4
  | .par => 3#4
  | .seq => 4#4
  | .ext => 5#4
  | .bufsz => 6#4
  | .glob => 7#4
  | .tscr => 8#4

/-- The reading of a code of `MapSel.code`; `none` if it is reserved. -/
def MapSel.ofCode (b : BitVec 4) : Option MapSel :=
  match b.toNat with
  | 0 => some .w0
  | 1 => some .w1
  | 2 => some .kind
  | 3 => some .par
  | 4 => some .seq
  | 5 => some .ext
  | 6 => some .bufsz
  | 7 => some .glob
  | 8 => some .tscr
  | _ => none

/-- The type field of majors 0x10 to 0x13 (R86); the directed forms of 0x14 and 0x15 use its low bit. -/
def FTy.major : FTy → BitVec 2
  | .f32 => 0#2
  | .f64 => 1#2
  | .f16 => 2#2
  | _ => 3#2

/-- The type of majors 0x10 to 0x13 (R86). -/
def FTy.ofMajor (b : BitVec 2) : FTy :=
  match b.toNat with
  | 0 => .f32
  | 1 => .f64
  | 2 => .f16
  | _ => .bf16

/-- The low two bits of the type code of .f64, .f32, .f16 or .bf16 (R87). -/
def FTy.low : FTy → BitVec 2
  | .f64 => 0#2
  | .f32 => 1#2
  | .f16 => 2#2
  | _ => 3#2

/-- The type whose low two code bits are given (R87). -/
def FTy.ofLow (b : BitVec 2) : FTy :=
  match b.toNat with
  | 0 => .f64
  | 1 => .f32
  | 2 => .f16
  | _ => .bf16

/-- The type bit of QE8 and DQE8 (R86). -/
def FTy.fp8Bit : FTy → BitVec 1
  | .e4m3 => 0#1
  | _ => 1#1

/-- The type of QE8 and DQE8 (R86). -/
def FTy.ofFp8Bit (b : BitVec 1) : FTy := if b = 0#1 then .e4m3 else .e5m2

/-- The minor codes of DOT (R86). -/
def FTy.dotCode : FTy → BitVec 2
  | .bf16 => 0#2
  | .f16 => 1#2
  | .e4m3 => 2#2
  | _ => 3#2

/-- The type of DOT (R86). -/
def FTy.ofDotCode (b : BitVec 2) : FTy :=
  match b.toNat with
  | 0 => .bf16
  | 1 => .f16
  | 2 => .e4m3
  | _ => .e5m2

/-- The minor codes [1:0] of FSUM (R86). -/
def FTy.sumCode : FTy → BitVec 2
  | .f32 => 0#2
  | .bf16 => 1#2
  | _ => 2#2

/-- The type of FSUM; code 0b11 is reserved (R86). -/
def FTy.ofSumCode (b : BitVec 2) : Option FTy :=
  match b.toNat with
  | 0 => some .f32
  | 1 => some .bf16
  | 2 => some .f16
  | _ => none

/-- Scope codes of FENCE (R176). -/
def Scope.fenceCode : Scope → BitVec 3
  | .core => 0#3
  | .quad => 1#3
  | .die => 2#3
  | .pkg => 3#3
  | .pod => 4#3
  | .sys => 5#3
  | .eng => 6#3
  | .lane => 7#3

/-- The scope of FENCE; code 0b111 is reserved (R176). -/
def Scope.ofFenceCode (b : BitVec 3) : Option Scope :=
  match b.toNat with
  | 0 => some .core
  | 1 => some .quad
  | 2 => some .die
  | 3 => some .pkg
  | 4 => some .pod
  | 5 => some .sys
  | 6 => some .eng
  | _ => none

/-- Scope codes of the barrier words (R176). -/
def Scope.barCode : Scope → BitVec 3
  | .core => 0#3
  | .quad => 1#3
  | .die => 2#3
  | .pkg => 3#3
  | .pod => 4#3
  | .lane => 5#3
  | .sys => 6#3
  | .eng => 7#3

/-- The scope of a barrier word; codes 0b110 and 0b111 are reserved (R176). -/
def Scope.ofBarCode (b : BitVec 3) : Option Scope :=
  match b.toNat with
  | 0 => some .core
  | 1 => some .quad
  | 2 => some .die
  | 3 => some .pkg
  | 4 => some .pod
  | 5 => some .lane
  | _ => none

/-- The scope of EXIT; codes 0b110 and 0b111 are reserved (R211). Its codes are those of FENCE. -/
def Scope.ofExitCode (b : BitVec 3) : Option Scope :=
  match b.toNat with
  | 0 => some .core
  | 1 => some .quad
  | 2 => some .die
  | 3 => some .pkg
  | 4 => some .pod
  | 5 => some .sys
  | _ => none

/-! ### Fields of a word -/

/-- C and S (R19). -/
def fHd (w : IWord) : Hd := ⟨w.getLsbD 31, w.getLsbD 30⟩
/-- The major opcode, [29:24] (R19). -/
def fMajor (w : IWord) : BitVec 6 := w.extractLsb' 24 6
/-- [23:17], the first operand field of every format but BR and CF (R41). -/
def fD (w : IWord) : BitVec 7 := w.extractLsb' 17 7
/-- [16:10], the second operand field (R41). -/
def fA (w : IWord) : BitVec 7 := w.extractLsb' 10 7
/-- [9:3], the third operand field (R41). -/
def fB (w : IWord) : BitVec 7 := w.extractLsb' 3 7
/-- [2:0], the minor (R41). -/
def fM (w : IWord) : BitVec 3 := w.extractLsb' 0 3
/-- [9:8], the minor of RRI (R41). -/
def fM2 (w : IWord) : BitVec 2 := w.extractLsb' 8 2
/-- [7:0], imm8 (R41). -/
def fImm8 (w : IWord) : BitVec 8 := w.extractLsb' 0 8
/-- [16:0], imm17 (R41). -/
def fImm17 (w : IWord) : BitVec 17 := w.extractLsb' 0 17
/-- [16:14], the b field of MEM (R41). -/
def fMb (w : IWord) : BitVec 3 := w.extractLsb' 14 3
/-- [13:7], the x field of MEM (R41). -/
def fMx (w : IWord) : BitVec 7 := w.extractLsb' 7 7
/-- [6:5], the scale of MEM (R41). -/
def fScale (w : IWord) : BitVec 2 := w.extractLsb' 5 2
/-- [4:3], the size of MEM (R41). -/
def fSize (w : IWord) : BitVec 2 := w.extractLsb' 3 2
/-- [23], neg of BR (R41). -/
def fNeg (w : IWord) : Bool := w.getLsbD 23
/-- [22:20], p of BR (R41). -/
def fP (w : IWord) : BitVec 3 := w.extractLsb' 20 3
/-- [19:0], disp20 of BR (R41). -/
def fDisp20 (w : IWord) : BitVec 20 := w.extractLsb' 0 20
/-- [23:22], the kind of CF (R211). -/
def fKind (w : IWord) : BitVec 2 := w.extractLsb' 22 2
/-- [21:16], the count field of CF (R211). -/
def fCount (w : IWord) : BitVec 6 := w.extractLsb' 16 6
/-- [15:0], disp16 of CF (R211). -/
def fDisp16 (w : IWord) : BitVec 16 := w.extractLsb' 0 16
/-- [16:14], the operation of SYS (R341). -/
def fSysOp (w : IWord) : BitVec 3 := w.extractLsb' 14 3
/-- [13:0], the number of SYS (R341). -/
def fSysNum (w : IWord) : BitVec 14 := w.extractLsb' 0 14

/-! ### The decoder -/

/-- The instruction `i` if the condition holds, else the rejection `e`. -/
def need (c : Bool) (e : DecodeError) (i : Instr) : Except DecodeError Instr := if c then .ok i else .error e

/-- The instruction that `f` makes of a field's reading, else the rejection `e`. -/
def withCode {α : Type} (o : Option α) (e : DecodeError) (f : α → Except DecodeError Instr) :
    Except DecodeError Instr :=
  match o with
  | some a => f a
  | none => .error e

/-- The first two operand specifiers and the third (R41). -/
def oD (w : IWord) : Opnd := Opnd.ofCode (fD w)
/-- The operand in [16:10]. -/
def oA (w : IWord) : Opnd := Opnd.ofCode (fA w)
/-- The operand in [9:3]. -/
def oB (w : IWord) : Opnd := Opnd.ofCode (fB w)
/-- The operand in [13:7]. -/
def oX (w : IWord) : Opnd := Opnd.ofCode (fMx w)

/-- Major 0x00 (R57). -/
def decode00 (w : IWord) : Except DecodeError Instr :=
  match (fM w).toNat with
  | 0 => .ok (.add (fHd w) (oD w) (oA w) (oB w))
  | 1 => .ok (.sub (fHd w) (oD w) (oA w) (oB w))
  | 2 => .ok (.and (fHd w) (oD w) (oA w) (oB w))
  | 3 => .ok (.or (fHd w) (oD w) (oA w) (oB w))
  | 4 => .ok (.xor (fHd w) (oD w) (oA w) (oB w))
  | 5 => .ok (.andn (fHd w) (oD w) (oA w) (oB w))
  | 6 => .ok (.min (fHd w) (oD w) (oA w) (oB w))
  | _ => .ok (.max (fHd w) (oD w) (oA w) (oB w))

/-- Major 0x01 (R57); the shifts have imm8 [7:6] zero (R63). -/
def decode01 (w : IWord) : Except DecodeError Instr :=
  match (fM2 w).toNat with
  | 0 => .ok (.addi (fHd w) (oD w) (oA w) (fImm8 w))
  | 1 => need (w.extractLsb' 6 2 = 0) .reservedField (.shli (fHd w) (oD w) (oA w) (w.extractLsb' 0 6))
  | 2 => need (w.extractLsb' 6 2 = 0) .reservedField (.shri (fHd w) (oD w) (oA w) (w.extractLsb' 0 6))
  | _ => need (w.extractLsb' 6 2 = 0) .reservedField (.sari (fHd w) (oD w) (oA w) (w.extractLsb' 0 6))

/-- Major 0x03 (R57): LIS has imm17 [16] zero (R64). -/
def decode03 (w : IWord) : Except DecodeError Instr :=
  need (w.extractLsb' 16 1 = 0) .reservedField (.lis (fHd w) (oD w) (w.extractLsb' 0 16))

/-- Major 0x04 (R57). -/
def decode04 (w : IWord) : Except DecodeError Instr :=
  match (fM w).toNat with
  | 0 => .ok (.addS32 (fHd w) (oD w) (oA w) (oB w))
  | 1 => .ok (.subS32 (fHd w) (oD w) (oA w) (oB w))
  | 2 => .ok (.mulS32 (fHd w) (oD w) (oA w) (oB w))
  | 3 => .ok (.shlS32 (fHd w) (oD w) (oA w) (oB w))
  | 4 => .ok (.shrS32 (fHd w) (oD w) (oA w) (oB w))
  | 5 => .ok (.sarS32 (fHd w) (oD w) (oA w) (oB w))
  | 6 => .ok (.bfi (fHd w) (oD w) (oA w) (oB w))
  | _ => .error .reservedMinor

/-- Major 0x06 (R57). -/
def decode06 (w : IWord) : Except DecodeError Instr :=
  match (fM w).toNat with
  | 0 => .ok (.shl (fHd w) (oD w) (oA w) (oB w))
  | 1 => .ok (.shr (fHd w) (oD w) (oA w) (oB w))
  | 2 => .ok (.sar (fHd w) (oD w) (oA w) (oB w))
  | 3 => .ok (.rol (fHd w) (oD w) (oA w) (oB w))
  | 4 => .ok (.minu (fHd w) (oD w) (oA w) (oB w))
  | 5 => .ok (.maxu (fHd w) (oD w) (oA w) (oB w))
  | 6 => .ok (.mul (fHd w) (oD w) (oA w) (oB w))
  | _ => .ok (.mulh (fHd w) (oD w) (oA w) (oB w))

/-- Major 0x07 (R57). -/
def decode07 (w : IWord) : Except DecodeError Instr :=
  match (fM w).toNat with
  | 0 => .ok (.mulhu (fHd w) (oD w) (oA w) (oB w))
  | 1 => .ok (.div (fHd w) (oD w) (oA w) (oB w))
  | 2 => .ok (.divu (fHd w) (oD w) (oA w) (oB w))
  | 3 => .ok (.rem (fHd w) (oD w) (oA w) (oB w))
  | 4 => .ok (.remu (fHd w) (oD w) (oA w) (oB w))
  | 5 => .ok (.mad (fHd w) (oD w) (oA w) (oB w))
  | 6 => .ok (.bfxZ (fHd w) (oD w) (oA w) (oB w))
  | _ => .ok (.bfxS (fHd w) (oD w) (oA w) (oB w))

/-- Major 0x08 (R57): b is zero, but for the width code of SEXT and ZEXT (R65). -/
def decode08 (w : IWord) : Except DecodeError Instr :=
  match (fM w).toNat with
  | 0 => need (fB w = 0) .reservedField (.clz (fHd w) (oD w) (oA w))
  | 1 => need (fB w = 0) .reservedField (.ctz (fHd w) (oD w) (oA w))
  | 2 => need (fB w = 0) .reservedField (.popc (fHd w) (oD w) (oA w))
  | 3 => need (fB w = 0) .reservedField (.brev (fHd w) (oD w) (oA w))
  | 4 => need (fB w = 0) .reservedField (.abs (fHd w) (oD w) (oA w))
  | 5 => need (fB w = 0) .reservedField (.mov (fHd w) (oD w) (oA w))
  | 6 => if w.extractLsb' 5 5 = 0 then withCode (PackW.ofCode (w.extractLsb' 3 2)) .reservedType
      (fun n => .ok (.sext (fHd w) n (oD w) (oA w))) else .error .reservedField
  | _ => if w.extractLsb' 5 5 = 0 then withCode (PackW.ofCode (w.extractLsb' 3 2)) .reservedType
      (fun n => .ok (.zext (fHd w) n (oD w) (oA w))) else .error .reservedField

/-- Major 0x0B (R57). -/
def decode0B (w : IWord) : Except DecodeError Instr :=
  withCode (Cmp.ofCode (fM w)) .reservedCondition (fun c => .ok (.cmp (fHd w) c (oD w) (oA w) (oB w)))

/-- Major 0x0C (R57): the condition stands in [9:8]. -/
def decode0C (w : IWord) : Except DecodeError Instr :=
  .ok (.cmpi (fHd w) (match (fM2 w).toNat with
    | 0 => .eq
    | 1 => .ne
    | 2 => .lt
    | _ => .ge) (oD w) (oA w) (fImm8 w))

/-- Major 0x0E (R57). -/
def decode0E (w : IWord) : Except DecodeError Instr :=
  if w.getLsbD 2 then .ok (.leaS32 (fHd w) (w.extractLsb' 0 2) (oD w) (oA w) (oB w))
  else .ok (.lea (fHd w) (w.extractLsb' 0 2) (oD w) (oA w) (oB w))

/-- Majors 0x10 to 0x13 (R86): the major names the type. -/
def decode10 (w : IWord) : Except DecodeError Instr :=
  let t := FTy.ofMajor (w.extractLsb' 24 2)
  match (fM w).toNat with
  | 0 => .ok (.fadd (fHd w) t (oD w) (oA w) (oB w))
  | 1 => .ok (.fsub (fHd w) t (oD w) (oA w) (oB w))
  | 2 => .ok (.fmul (fHd w) t (oD w) (oA w) (oB w))
  | 3 => .ok (.ffma (fHd w) t (oD w) (oA w) (oB w))
  | 4 => .ok (.ffms (fHd w) t (oD w) (oA w) (oB w))
  | 5 => .ok (.fnma (fHd w) t (oD w) (oA w) (oB w))
  | 6 => .ok (.fmin (fHd w) t (oD w) (oA w) (oB w))
  | _ => .ok (.fmax (fHd w) t (oD w) (oA w) (oB w))

/-- Majors 0x14 and 0x15 (R86). -/
def decode14 (w : IWord) : Except DecodeError Instr :=
  let t := if w.getLsbD 24 then FTy.f64 else FTy.f32
  match (fM w).toNat with
  | 0 => .ok (.faddRz (fHd w) t (oD w) (oA w) (oB w))
  | 1 => .ok (.faddRu (fHd w) t (oD w) (oA w) (oB w))
  | 2 => .ok (.faddRd (fHd w) t (oD w) (oA w) (oB w))
  | 3 => .ok (.fmulRz (fHd w) t (oD w) (oA w) (oB w))
  | 4 => .ok (.fmulRu (fHd w) t (oD w) (oA w) (oB w))
  | 5 => .ok (.fmulRd (fHd w) t (oD w) (oA w) (oB w))
  | _ => .error .reservedMinor

/-- Major 0x16 (R86, R90): b holds the rounding code and the type code. -/
def decode16 (w : IWord) : Except DecodeError Instr :=
  if w.getLsbD 9 || w.getLsbD 5 then .error .reservedField
  else
    let t := FTy.ofLow (w.extractLsb' 3 2)
    match (fM w).toNat with
    | 0 => need (w.extractLsb' 6 3 = 0) .reservedRounding (.fabs (fHd w) t (oD w) (oA w))
    | 1 => need (w.extractLsb' 6 3 = 0) .reservedRounding (.fneg (fHd w) t (oD w) (oA w))
    | 2 => need (w.extractLsb' 6 3 = 0) .reservedRounding (.fclass (fHd w) t (oD w) (oA w))
    | 3 => withCode (Rnd.ofCode (w.extractLsb' 6 3)) .reservedRounding
        (fun r => need (r != .dr) .reservedRounding (.frnd (fHd w) t r (oD w) (oA w)))
    | _ => .error .reservedMinor

/-- Major 0x17 (R86). -/
def decode17 (w : IWord) : Except DecodeError Instr :=
  let t := FTy.ofLow (w.extractLsb' 0 2)
  if w.getLsbD 2 then .ok (.fscalb (fHd w) t (oD w) (oA w) (oB w)) else .ok (.fcpys (fHd w) t (oD w) (oA w) (oB w))

/-- Majors 0x18 and 0x19 (R86). -/
def decode18 (w : IWord) : Except DecodeError Instr :=
  withCode (FCmp.ofCode (w.extractLsb' 24 1 ++ w.extractLsb' 2 1)) .reservedCondition
    (fun c => .ok (.fcmp (fHd w) c (FTy.ofLow (w.extractLsb' 0 2)) (oD w) (oA w) (oB w)))

/-- Major 0x1A, CVT between float types (R93). -/
def decode1A (w : IWord) : Except DecodeError Instr :=
  withCode (FTy.ofCode (w.extractLsb' 7 3)) .reservedType fun src =>
  withCode (FTy.ofCode (w.extractLsb' 4 3)) .reservedType fun dst =>
  withCode (Rnd.ofCode (fM w)) .reservedRounding fun r =>
    need ((Instr.cvtCheck dst r).isNone) .reservedRounding
      (.cvtFloatFloat (fHd w) dst src r (w.getLsbD 3) (oD w) (oA w))

/-- Major 0x1B, CVT between integer and float (R93). -/
def decode1B (w : IWord) : Except DecodeError Instr :=
  if w.getLsbD 9 then .error .reservedType
  else if w.getLsbD 3 then .error .reservedField
  else
    withCode (ITy.ofCode (w.extractLsb' 5 2)) .reservedType fun ity =>
    withCode (Rnd.ofCode (fM w)) .reservedRounding fun r =>
      need (r != .dr) .reservedRounding
        (.cvtIntegerFloat (fHd w) ity (FTy.ofLow (w.extractLsb' 7 2)) (w.getLsbD 4) r (oD w) (oA w))

/-- Major 0x1C (R86). -/
def decode1C (w : IWord) : Except DecodeError Instr :=
  if w.getLsbD 2 then .ok (.qe8 (fHd w) (FTy.ofFp8Bit (w.extractLsb' 1 1)) (w.getLsbD 0) (oD w) (oA w) (oB w))
  else if w.getLsbD 1 then need (!w.getLsbD 0) .reservedMinor (.dqnq4 (fHd w) (oD w) (oA w) (oB w))
  else .ok (.qnq4 (fHd w) (w.getLsbD 0) (oD w) (oA w) (oB w))

/-- Major 0x1D (R86). -/
def decode1D (w : IWord) : Except DecodeError Instr :=
  if w.getLsbD 2 then withCode (FTy.ofSumCode (w.extractLsb' 0 2)) .reservedMinor
    (fun t => .ok (.fsum (fHd w) t (oD w) (oA w) (oB w)))
  else .ok (.dot (fHd w) (FTy.ofDotCode (w.extractLsb' 0 2)) (oD w) (oA w) (oB w))

/-- Major 0x1E (R86). -/
def decode1E (w : IWord) : Except DecodeError Instr :=
  withCode (PackW.ofCode (w.extractLsb' 0 2)) .reservedMinor fun n =>
    if w.getLsbD 2 then .ok (.unpack (fHd w) n (oD w) (oA w) (oB w)) else .ok (.pack (fHd w) n (oD w) (oA w) (oB w))

/-- Major 0x1F (R86). -/
def decode1F (w : IWord) : Except DecodeError Instr :=
  need (w.extractLsb' 1 2 = 0) .reservedMinor
    (.dqe8 (fHd w) (FTy.ofFp8Bit (w.extractLsb' 0 1)) (oD w) (oA w) (oB w))

/-- Majors 0x20 and 0x21 (R106). -/
def decode20 (w : IWord) : Except DecodeError Instr :=
  if fB w = 0 then
    let t := if w.getLsbD 24 then STy.bf16 else STy.f32
    match (fM w).toNat with
    | 0 => .ok (.rcp (fHd w) t (oD w) (oA w))
    | 1 => .ok (.rsq (fHd w) t (oD w) (oA w))
    | 2 => .ok (.sqrt (fHd w) t (oD w) (oA w))
    | 3 => .ok (.exp2 (fHd w) t (oD w) (oA w))
    | 4 => .ok (.log2 (fHd w) t (oD w) (oA w))
    | 5 => .ok (.sin (fHd w) t (oD w) (oA w))
    | 6 => .ok (.cos (fHd w) t (oD w) (oA w))
    | _ => .ok (.tanh (fHd w) t (oD w) (oA w))
  else .error .reservedField

/-- Major 0x22 (R106). -/
def decode22 (w : IWord) : Except DecodeError Instr :=
  match (fM w).toNat with
  | 0 => .ok (.lse2 (fHd w) (oD w) (oA w) (oB w))
  | 1 => .ok (.rngB64 (fHd w) (oD w) (oA w) (oB w))
  | 2 => .ok (.rngF32 (fHd w) (oD w) (oA w) (oB w))
  | 3 => .ok (.rngBf16 (fHd w) (oD w) (oA w) (oB w))
  | 4 => .ok (.sample (fHd w) .f32 (oD w) (oA w) (oB w))
  | 5 => .ok (.sample (fHd w) .bf16 (oD w) (oA w) (oB w))
  | _ => .error .reservedMinor

/-- Major 0x23 (R106). -/
def decode23 (w : IWord) : Except DecodeError Instr :=
  withCode (LaneW.ofCode (w.extractLsb' 0 2)) .reservedType fun n =>
    if w.getLsbD 2 then .ok (.bcast (fHd w) n (oD w) (oA w) (oB w)) else .ok (.shuf (fHd w) n (oD w) (oA w) (oB w))

/-- Major 0x24 (R106); bit 0 of COMPRESS.cnt is 0 for .b64. -/
def decode24 (w : IWord) : Except DecodeError Instr :=
  match (fM w).toNat with
  | 0 => .ok (.rdlane (fHd w) (oD w) (oA w) (oB w))
  | 1 => .ok (.wrlane (fHd w) (oD w) (oA w) (oB w))
  | 2 => need (fB w = 0) .reservedField (.voteAny (fHd w) (oD w) (oA w))
  | 3 => need (fB w = 0) .reservedField (.voteAll (fHd w) (oD w) (oA w))
  | 4 => need (fB w = 0) .reservedField (.voteBallot (fHd w) (oD w) (oA w))
  | 5 => need (fB w = 0) .reservedField (.voteEq (fHd w) (oD w) (oA w))
  | 6 => need (fB w = 0) .reservedField (.compressCnt (fHd w) true (oD w) (oA w))
  | _ => need (fB w = 0) .reservedField (.compressCnt (fHd w) false (oD w) (oA w))

/-- Major 0x25, GRED (R106, R118). -/
def decode25 (w : IWord) : Except DecodeError Instr :=
  if w.extractLsb' 6 4 = 0 then
    withCode (RedOp.ofCode (fM w)) .reservedMinor fun op =>
    withCode (RTy.ofCode (w.extractLsb' 3 3)) .reservedType fun ty =>
      need (Instr.redOk op ty) .reservedType (.gred (fHd w) op ty (oD w) (oA w))
  else .error .reservedField

/-- Major 0x26, GSCAN (R106, R118). -/
def decode26 (w : IWord) : Except DecodeError Instr :=
  if w.extractLsb' 6 3 = 0 then
    withCode (RedOp.ofCode (fM w)) .reservedMinor fun op =>
    withCode (RTy.ofCode (w.extractLsb' 3 3)) .reservedType fun ty =>
      need (Instr.redOk op ty) .reservedType (.gscan (fHd w) op ty (w.getLsbD 9) (oD w) (oA w))
  else .error .reservedField

/-- Major 0x27 (R106); bit 0 of COMPRESS and EXPAND is 0 for .b64. -/
def decode27 (w : IWord) : Except DecodeError Instr :=
  if w.getLsbD 2 then withCode (PermW.ofCode (w.extractLsb' 0 2)) .reservedType
    (fun n => .ok (.subperm (fHd w) n (oD w) (oA w) (oB w)))
  else if w.getLsbD 1 then .ok (.expand (fHd w) (!w.getLsbD 0) (oD w) (oA w) (oB w))
  else .ok (.compress (fHd w) (!w.getLsbD 0) (oD w) (oA w) (oB w))

/-- Majors 0x28 to 0x2B (R143). -/
def decode28 (w : IWord) : Except DecodeError Instr :=
  withCode (Sz.ofCode (fSize w)) .reservedType fun sz =>
    match (w.extractLsb' 24 2).toNat with
    | 0 => .ok (.ld (fHd w) sz (oD w) (fin8 (fMb w)) (oX w) (fScale w) (fM w))
    | 1 => .ok (.st (fHd w) sz (oD w) (fin8 (fMb w)) (oX w) (fScale w) (fM w))
    | 2 => need (sz != .b64) .reservedType (.lds (fHd w) sz (oD w) (fin8 (fMb w)) (oX w) (fScale w) (fM w))
    | _ => need (w.extractLsb' 18 6 = 0) .reservedField
        (.pref (fHd w) (w.getLsbD 17) sz (fin8 (fMb w)) (oX w) (fScale w) (fM w))

/-- Major 0x2C (R143): sizes 10 and 11 only. -/
def decode2C (w : IWord) : Except DecodeError Instr :=
  if w.getLsbD 4 then
    match (fM w).toNat with
    | 0 => .ok (.aadd (fHd w) (w.getLsbD 3) (oD w) (fin8 (fMb w)) (oX w) (fScale w))
    | 1 => .ok (.aand (fHd w) (w.getLsbD 3) (oD w) (fin8 (fMb w)) (oX w) (fScale w))
    | 2 => .ok (.aor (fHd w) (w.getLsbD 3) (oD w) (fin8 (fMb w)) (oX w) (fScale w))
    | 3 => .ok (.axor (fHd w) (w.getLsbD 3) (oD w) (fin8 (fMb w)) (oX w) (fScale w))
    | 4 => .ok (.axch (fHd w) (w.getLsbD 3) (oD w) (fin8 (fMb w)) (oX w) (fScale w))
    | 5 => .ok (.aminS (fHd w) (w.getLsbD 3) (oD w) (fin8 (fMb w)) (oX w) (fScale w))
    | 6 => .ok (.amaxS (fHd w) (w.getLsbD 3) (oD w) (fin8 (fMb w)) (oX w) (fScale w))
    | _ => .ok (.acas (fHd w) (w.getLsbD 3) (oD w) (fin8 (fMb w)) (oX w) (fScale w))
  else .error .reservedType

/-- Major 0x2D (R143): ABINC has size 10 only, APMAX 11 only. -/
def decode2D (w : IWord) : Except DecodeError Instr :=
  if w.getLsbD 4 then
    match (fM w).toNat with
    | 0 => .ok (.aminZ (fHd w) (w.getLsbD 3) (oD w) (fin8 (fMb w)) (oX w) (fScale w))
    | 1 => .ok (.amaxZ (fHd w) (w.getLsbD 3) (oD w) (fin8 (fMb w)) (oX w) (fScale w))
    | 2 => .ok (.afadd (fHd w) (w.getLsbD 3) (oD w) (fin8 (fMb w)) (oX w) (fScale w))
    | 3 => need (!w.getLsbD 3) .reservedType (.abinc (fHd w) (oD w) (fin8 (fMb w)) (oX w) (fScale w))
    | 4 => need (w.getLsbD 3) .reservedType (.apmax (fHd w) (oD w) (fin8 (fMb w)) (oX w) (fScale w))
    | _ => .error .reservedMinor
  else .error .reservedType

/-- Major 0x2E (R143): size 11 only; FCLR has no t. -/
def decode2E (w : IWord) : Except DecodeError Instr :=
  if fSize w = 3 then
    match (fM w).toNat with
    | 0 => .ok (.frd (fHd w) (oD w) (fin8 (fMb w)) (oX w) (fScale w))
    | 1 => .ok (.fwr (fHd w) (oD w) (fin8 (fMb w)) (oX w) (fScale w))
    | 2 => need (fD w = 0) .reservedField (.fclr (fHd w) (fin8 (fMb w)) (oX w) (fScale w))
    | _ => .error .reservedMinor
  else .error .reservedType

/-- Major 0x2F, TRB (R130, R143). -/
def decode2F (w : IWord) : Except DecodeError Instr :=
  if fM w = 0 then
    need (w.extractLsb' 20 4 = 0 && fB w = 0) .reservedField (.trb (fHd w) (fin8 (w.extractLsb' 17 3)) (oA w))
  else .error .reservedMinor

/-- Major 0x30, FENCE (R176). -/
def decode30 (w : IWord) : Except DecodeError Instr :=
  if fD w = 0 && fA w = 0 && fB w = 0 then
    withCode (Scope.ofFenceCode (fM w)) .reservedScope (fun sc => .ok (.fence (fHd w) sc))
  else .error .reservedField

/-- Major 0x31, BAR, BARA and BARW (R176). -/
def decode31 (w : IWord) : Except DecodeError Instr :=
  if w.extractLsb' 19 5 = 0 then
    withCode (Scope.ofBarCode (fM w)) .reservedScope fun sc =>
      match (w.extractLsb' 17 2).toNat with
      | 0 => need (sc != .lane || (fA w = 0 && fB w = 0)) .reservedField (.bar (fHd w) sc (oA w) (oB w))
      | 1 => need (sc != .lane) .reservedScope (.bara (fHd w) sc (oA w) (oB w))
      | 2 => if fB w = 0 then need (sc != .lane) .reservedScope (.barw (fHd w) sc (oA w)) else .error .reservedField
      | _ => .error .reservedMinor
  else .error .reservedField

/-- Major 0x32, EVWAIT and EVPOP (R176). -/
def decode32 (w : IWord) : Except DecodeError Instr :=
  match (fM w).toNat with
  | 0 => need (fD w = 0 && fB w = 0) .reservedField (.evwait (fHd w) (oA w))
  | 1 => need (fA w = 0 && fB w = 0) .reservedField (.evpop (fHd w) (oD w))
  | _ => .error .reservedMinor

/-- Major 0x33, WAITM (R176). -/
def decode33 (w : IWord) : Except DecodeError Instr :=
  if w.getLsbD 4 then
    withCode (WCond.ofCode (fM w)) .reservedCondition
      (fun c => .ok (.waitm (fHd w) c (w.getLsbD 3) (oD w) (fin8 (fMb w)) (oX w) (fScale w)))
  else .error .reservedType

/-- Major 0x34 (R202). -/
def decode34 (w : IWord) : Except DecodeError Instr :=
  let lv := fin8 (w.extractLsb' 3 3)
  match (fM w).toNat with
  | 0 => if fA w = 0 then withCode (MapSel.ofCode (w.extractLsb' 6 4)) .reservedSelector
      (fun q => need ((Instr.rdmapCheck q lv).isNone) .reservedSelector (.rdmap (fHd w) q (oD w) lv))
      else .error .reservedField
  | 1 => need (fA w = 0 && w.extractLsb' 6 4 = 0) .reservedField (.lvidx (fHd w) (oD w) lv)
  | 2 => need (fA w = 0 && w.extractLsb' 6 4 = 0) .reservedField (.lvext (fHd w) (oD w) lv)
  | 3 => need (fA w = 0 && w.extractLsb' 6 4 = 0) .reservedField (.lvfirst (fHd w) (oD w) lv)
  | 4 => need (fA w = 0 && w.extractLsb' 6 4 = 0) .reservedField (.lvbuf (fHd w) (oD w) lv)
  | 5 => need (fD w = 0 && fA w = 0 && w.extractLsb' 6 4 = 0) .reservedField (.lvfor (fHd w) lv)
  | 6 => need (fA w = 0 && w.extractLsb' 6 4 = 0) .reservedField (.lvnext (fHd w) (oD w) lv)
  | _ => .error .reservedMinor

/-- Major 0x35, REDL (R202). -/
def decode35 (w : IWord) : Except DecodeError Instr :=
  if w.getLsbD 6 then .error .reservedField
  else
    withCode (RedOp.ofCode (fM w)) .reservedMinor fun op =>
    withCode (RTy.ofCode (w.extractLsb' 3 3)) .reservedType fun ty =>
      need (Instr.redOk op ty) .reservedType (.redl (fHd w) op ty (oD w) (oA w) (fin8 (w.extractLsb' 7 3)))

/-- Major 0x36, BARL (R202). -/
def decode36 (w : IWord) : Except DecodeError Instr :=
  if fM w = 0 then
    need (fD w = 0 && fA w = 0 && w.extractLsb' 6 4 = 0) .reservedField (.barl (fHd w) (fin8 (w.extractLsb' 3 3)))
  else .error .reservedMinor

/-- Major 0x3A, the CF format (R211). -/
def decode3A (w : IWord) : Except DecodeError Instr :=
  match (fKind w).toNat with
  | 0 => need (fCount w = 0) .reservedField (.call (fHd w) (fDisp16 w))
  | 1 => .ok (.fcall (fHd w) (fCount w) (fDisp16 w))
  | 2 => .ok (.fcallForce (fHd w) (fCount w) (fDisp16 w))
  | _ =>
    match (w.extractLsb' 20 2).toNat with
    | 0 => .ok (.ftrainSeed (fHd w) (w.extractLsb' 16 4) (fDisp16 w))
    | 1 => .ok (.ftrainForce (fHd w) (w.extractLsb' 16 4) (fDisp16 w))
    | 2 => need (w.extractLsb' 16 4 = 0) .reservedField (.ftrainClear (fHd w) (fDisp16 w))
    | _ => .error .reservedMinor

/-- Major 0x3B (R210, R211). -/
def decode3B (w : IWord) : Except DecodeError Instr :=
  match (fM w).toNat with
  | 0 => need (fD w = 0 && fA w = 0 && fB w = 0) .reservedField (.nop (fHd w))
  | 1 => need (fD w = 0 && fB w = 0) .reservedField (.jmpr (fHd w) (oA w))
  | 2 => need (fD w = 0 && fB w = 0) .reservedField (.callr (fHd w) (oA w))
  | 3 => need (fD w = 0 && fA w = 0 && fB w = 0) .reservedField (.ret (fHd w))
  | 4 => need (fD w = 0 && fA w = 0 && fB w = 0) .reservedField (.join (fHd w))
  | 5 => if fD w = 0 && fA w = 0 && w.extractLsb' 6 4 = 0 then
      withCode (Scope.ofExitCode (w.extractLsb' 3 3)) .reservedScope (fun sc => .ok (.exit (fHd w) sc))
      else .error .reservedField
  | 6 => need (fD w = 0 && fA w = 0 && fB w = 0) .reservedField (.yield (fHd w))
  | _ => .error .reservedMinor

/-- Major 0x3C (R255). -/
def decode3C (w : IWord) : Except DecodeError Instr :=
  match (fM w).toNat with
  | 0 => need (fA w = 0 && fB w = 0) .reservedField (.fmtb (fHd w) (oD w))
  | 1 => need (fB w = 0) .reservedField (.wld (fHd w) (oD w) (oA w))
  | 2 =>
    if fD w = 0 && fA w = 0 && w.getLsbD 3 = false then
      match (w.extractLsb' 8 2).toNat with
      | 0 => need (w.extractLsb' 4 4 = 0) .reservedSelector (.wswp (fHd w))
      | 1 => need (w.extractLsb' 4 4 != 0) .reservedSelector (.accz (fHd w) (w.extractLsb' 4 4))
      | _ => .error .reservedMinor
    else .error .reservedField
  | 3 => .ok (.mma (fHd w) (oD w) (oA w) (oB w))
  | 4 => .ok (.accout (fHd w) (oD w) (oA w) (oB w))
  | 5 => .ok (.accin (fHd w) (oD w) (oA w) (oB w))
  | 6 => need (fA w = 0 && fB w = 0) .reservedField (.mmt (fHd w) (oD w))
  | _ => need (fA w = 0 && fB w = 0) .reservedField (.mstat (fHd w) (oD w))

/-- Major 0x3D (R277). -/
def decode3D (w : IWord) : Except DecodeError Instr :=
  match (fM w).toNat with
  | 0 => need (fA w = 0 && fB w = 0) .reservedField (.pld (fHd w) (oD w))
  | 1 => need (fB w = 0) .reservedField (.pcost (fHd w) (oD w) (oA w))
  | 2 => if fA w = 0 && w.extractLsb' 3 4 = 0 then
      if w.getLsbD 7 then .ok (.pscl (fHd w) (w.getLsbD 9) (w.getLsbD 8) (oD w))
      else .ok (.pmarg (fHd w) (w.getLsbD 9) (w.getLsbD 8) (oD w))
    else .error .reservedField
  | 3 => need (fB w = 0) .reservedField (.balance (fHd w) (oD w) (oA w))
  | 4 => need (fA w = 0 && w.extractLsb' 4 6 = 0) .reservedField (.ppart (fHd w) (w.getLsbD 3) (oD w))
  | 5 => .ok (.pout (fHd w) (oD w) (oA w) (oB w))
  | 6 => need (fB w = 0) .reservedField (.pdist (fHd w) (oD w) (oA w))
  | _ => need (fA w = 0 && fB w = 0) .reservedField (.pstat (fHd w) (oD w))

/-- Major 0x3E (R293). -/
def decode3E (w : IWord) : Except DecodeError Instr :=
  match (fM w).toNat with
  | 0 => .ok (.cpy (fHd w) (oD w) (oA w) (oB w))
  | 1 => need (fA w = 0 && fB w = 0) .reservedField (.cpy2d (fHd w) (oD w))
  | 2 => need (fA w = 0 && fB w = 0) .reservedField (.gth (fHd w) (oD w))
  | 3 => need (fA w = 0 && fB w = 0) .reservedField (.sct (fHd w) (oD w))
  | 4 => .ok (.cpyr (fHd w) (oD w) (oA w) (oB w))
  | _ => .error .reservedMinor

/-- Major 0x3F, the SYS format (R341). -/
def decode3F (w : IWord) : Except DecodeError Instr :=
  match (fSysOp w).toNat with
  | 0 => .ok (.rdsr (fHd w) (oD w) (fSysNum w))
  | 1 => .ok (.wrsr (fHd w) (oD w) (fSysNum w))
  | 2 => .ok (.rdctr (fHd w) (oD w) (w.getLsbD 13) (w.extractLsb' 0 13))
  | 3 => need (w.extractLsb' 0 13 = 0) .reservedField (.rdclk (fHd w) (oD w) (w.getLsbD 13))
  | 4 => need (fD w = 0) .reservedField (.trap (fHd w) (fSysNum w))
  | 5 => need (fD w = 0) .reservedField (.syscall (fHd w) (fSysNum w))
  | 6 => need (fD w = 0 && fSysNum w = 0) .reservedField (.bkpt (fHd w))
  | _ => need ((fSysNum w).toNat < 6) .reservedSelector (.selftest (fHd w) (oD w) (fSysNum w))

/-- Decodes one word (R43, R44). -/
def decodeWord (w : IWord) : Except DecodeError Instr :=
  match (fMajor w).toNat with
  | 0 => decode00 w
  | 1 => decode01 w
  | 2 => .ok (.li (fHd w) (oD w) (fImm17 w))
  | 3 => decode03 w
  | 4 => decode04 w
  | 5 => withCode (PTy.ofCode (fM w)) .reservedMinor (fun t => .ok (.padd (fHd w) t (oD w) (oA w) (oB w)))
  | 6 => decode06 w
  | 7 => decode07 w
  | 8 => decode08 w
  | 9 => withCode (PTy.ofCode (fM w)) .reservedMinor (fun t => .ok (.psub (fHd w) t (oD w) (oA w) (oB w)))
  | 10 => .ok (.sel (fHd w) (fin8 (fM w)) (oD w) (oA w) (oB w))
  | 11 => decode0B w
  | 12 => decode0C w
  | 13 => withCode (PTy.ofCode (fM w)) .reservedMinor (fun t => .ok (.pmin (fHd w) t (oD w) (oA w) (oB w)))
  | 14 => decode0E w
  | 15 => withCode (PTy.ofCode (fM w)) .reservedMinor (fun t => .ok (.pmax (fHd w) t (oD w) (oA w) (oB w)))
  | 16 => decode10 w
  | 17 => decode10 w
  | 18 => decode10 w
  | 19 => decode10 w
  | 20 => decode14 w
  | 21 => decode14 w
  | 22 => decode16 w
  | 23 => decode17 w
  | 24 => decode18 w
  | 25 => decode18 w
  | 26 => decode1A w
  | 27 => decode1B w
  | 28 => decode1C w
  | 29 => decode1D w
  | 30 => decode1E w
  | 31 => decode1F w
  | 32 => decode20 w
  | 33 => decode20 w
  | 34 => decode22 w
  | 35 => decode23 w
  | 36 => decode24 w
  | 37 => decode25 w
  | 38 => decode26 w
  | 39 => decode27 w
  | 40 => decode28 w
  | 41 => decode28 w
  | 42 => decode28 w
  | 43 => decode28 w
  | 44 => decode2C w
  | 45 => decode2D w
  | 46 => decode2E w
  | 47 => decode2F w
  | 48 => decode30 w
  | 49 => decode31 w
  | 50 => decode32 w
  | 51 => decode33 w
  | 52 => decode34 w
  | 53 => decode35 w
  | 54 => decode36 w
  | 56 => .ok (.bra (fHd w) (fNeg w) (fin8 (fP w)) (fDisp20 w))
  | 57 => .ok (.brp (fHd w) (fNeg w) (fin8 (fP w)) (fDisp20 w))
  | 58 => decode3A w
  | 59 => decode3B w
  | 60 => decode3C w
  | 61 => decode3D w
  | 62 => decode3E w
  | 63 => decode3F w
  | _ => .error .reservedMajor

/-- Four bytes, the lowest address first, as one little-endian word (R4). -/
def wordOfBytes (b0 b1 b2 b3 : Byte) : IWord := b3 ++ b2 ++ b1 ++ b0

/-- The bytes of a word in address order (R4). -/
def bytesOfWord (w : IWord) : List Byte :=
  [w.extractLsb' 0 8, w.extractLsb' 8 8, w.extractLsb' 16 8, w.extractLsb' 24 8]

/-- Decodes the instruction at the head of a list of bytes; total on any bytes. -/
def decode : List Byte → Except DecodeError (Instr × List Byte)
  | b0 :: b1 :: b2 :: b3 :: rest =>
    match decodeWord (wordOfBytes b0 b1 b2 b3) with
    | .ok i => .ok (i, rest)
    | .error e => .error e
  | _ => .error .truncated

/-- The instruction that the decoder reads from the bits `w`, numbered from the least significant bit of the first
word; every word of the Pyrod has 32 bits, and an event has none. -/
def decodeTableWord (nbits w : Nat) : Option Instr :=
  if nbits = 0 then none
  else
    match decode (bytesOfWord (BitVec.ofNat 32 (w % 2 ^ nbits))) with
    | .ok (i, _) => some i
    | .error _ => none

/-! ### The encoder -/

/-- A word of its C and S, its major and its bits 23:0 (R19). -/
def eWord (h : Hd) (maj : BitVec 6) (body : BitVec 24) : IWord :=
  BitVec.ofBool h.c ++ BitVec.ofBool h.s ++ maj ++ body
/-- Bits 23:0 of RRR and ENG (R41). -/
def eRrr (d a b : BitVec 7) (m : BitVec 3) : BitVec 24 := d ++ a ++ b ++ m
/-- Bits 23:0 of RRI (R41). -/
def eRri (d a : BitVec 7) (m : BitVec 2) (imm : BitVec 8) : BitVec 24 := d ++ a ++ m ++ imm
/-- Bits 23:0 of RI (R41). -/
def eRi (d : BitVec 7) (imm : BitVec 17) : BitVec 24 := d ++ imm
/-- Bits 23:0 of MEM (R41). -/
def eMem (t : BitVec 7) (b : BitVec 3) (x : BitVec 7) (s z : BitVec 2) (p : BitVec 3) : BitVec 24 :=
  t ++ b ++ x ++ s ++ z ++ p
/-- Bits 23:0 of BR (R41). -/
def eBr (neg : Bool) (p : BitVec 3) (disp : BitVec 20) : BitVec 24 := BitVec.ofBool neg ++ p ++ disp
/-- Bits 23:0 of CF (R211). -/
def eCf (k : BitVec 2) (n : BitVec 6) (disp : BitVec 16) : BitVec 24 := k ++ n ++ disp
/-- Bits 23:0 of SYS (R341). -/
def eSys (d : BitVec 7) (op : BitVec 3) (n : BitVec 14) : BitVec 24 := d ++ op ++ n
/-- A size field of an atomic or WAITM: 11 for 64 bits, 10 for 32 (R143). -/
def eWide (wide : Bool) : BitVec 2 := if wide then 3#2 else 2#2

/-- The word of an instruction; `none` for an event, which has no encoding. Defined for well-formed instructions. -/
def encodeWord : Instr → Option IWord
  | .add h d a b => some (eWord h 0 (eRrr d.code a.code b.code 0))
  | .sub h d a b => some (eWord h 0 (eRrr d.code a.code b.code 1))
  | .and h d a b => some (eWord h 0 (eRrr d.code a.code b.code 2))
  | .or h d a b => some (eWord h 0 (eRrr d.code a.code b.code 3))
  | .xor h d a b => some (eWord h 0 (eRrr d.code a.code b.code 4))
  | .andn h d a b => some (eWord h 0 (eRrr d.code a.code b.code 5))
  | .min h d a b => some (eWord h 0 (eRrr d.code a.code b.code 6))
  | .max h d a b => some (eWord h 0 (eRrr d.code a.code b.code 7))
  | .addi h d a i => some (eWord h 1 (eRri d.code a.code 0 i))
  | .shli h d a i => some (eWord h 1 (eRri d.code a.code 1 (0#2 ++ i)))
  | .shri h d a i => some (eWord h 1 (eRri d.code a.code 2 (0#2 ++ i)))
  | .sari h d a i => some (eWord h 1 (eRri d.code a.code 3 (0#2 ++ i)))
  | .li h d i => some (eWord h 2 (eRi d.code i))
  | .lis h d i => some (eWord h 3 (eRi d.code (0#1 ++ i)))
  | .addS32 h d a b => some (eWord h 4 (eRrr d.code a.code b.code 0))
  | .subS32 h d a b => some (eWord h 4 (eRrr d.code a.code b.code 1))
  | .mulS32 h d a b => some (eWord h 4 (eRrr d.code a.code b.code 2))
  | .shlS32 h d a b => some (eWord h 4 (eRrr d.code a.code b.code 3))
  | .shrS32 h d a b => some (eWord h 4 (eRrr d.code a.code b.code 4))
  | .sarS32 h d a b => some (eWord h 4 (eRrr d.code a.code b.code 5))
  | .bfi h d a b => some (eWord h 4 (eRrr d.code a.code b.code 6))
  | .padd h t d a b => some (eWord h 5 (eRrr d.code a.code b.code t.code))
  | .psub h t d a b => some (eWord h 9 (eRrr d.code a.code b.code t.code))
  | .pmin h t d a b => some (eWord h 13 (eRrr d.code a.code b.code t.code))
  | .pmax h t d a b => some (eWord h 15 (eRrr d.code a.code b.code t.code))
  | .shl h d a b => some (eWord h 6 (eRrr d.code a.code b.code 0))
  | .shr h d a b => some (eWord h 6 (eRrr d.code a.code b.code 1))
  | .sar h d a b => some (eWord h 6 (eRrr d.code a.code b.code 2))
  | .rol h d a b => some (eWord h 6 (eRrr d.code a.code b.code 3))
  | .minu h d a b => some (eWord h 6 (eRrr d.code a.code b.code 4))
  | .maxu h d a b => some (eWord h 6 (eRrr d.code a.code b.code 5))
  | .mul h d a b => some (eWord h 6 (eRrr d.code a.code b.code 6))
  | .mulh h d a b => some (eWord h 6 (eRrr d.code a.code b.code 7))
  | .mulhu h d a b => some (eWord h 7 (eRrr d.code a.code b.code 0))
  | .div h d a b => some (eWord h 7 (eRrr d.code a.code b.code 1))
  | .divu h d a b => some (eWord h 7 (eRrr d.code a.code b.code 2))
  | .rem h d a b => some (eWord h 7 (eRrr d.code a.code b.code 3))
  | .remu h d a b => some (eWord h 7 (eRrr d.code a.code b.code 4))
  | .mad h d a b => some (eWord h 7 (eRrr d.code a.code b.code 5))
  | .bfxZ h d a b => some (eWord h 7 (eRrr d.code a.code b.code 6))
  | .bfxS h d a b => some (eWord h 7 (eRrr d.code a.code b.code 7))
  | .clz h d a => some (eWord h 8 (eRrr d.code a.code 0 0))
  | .ctz h d a => some (eWord h 8 (eRrr d.code a.code 0 1))
  | .popc h d a => some (eWord h 8 (eRrr d.code a.code 0 2))
  | .brev h d a => some (eWord h 8 (eRrr d.code a.code 0 3))
  | .abs h d a => some (eWord h 8 (eRrr d.code a.code 0 4))
  | .mov h d a => some (eWord h 8 (eRrr d.code a.code 0 5))
  | .sext h n d a => some (eWord h 8 (eRrr d.code a.code (0#5 ++ n.code) 6))
  | .zext h n d a => some (eWord h 8 (eRrr d.code a.code (0#5 ++ n.code) 7))
  | .sel h n d a b => some (eWord h 10 (eRrr d.code a.code b.code (code8 n)))
  | .cmp h c d a b => some (eWord h 11 (eRrr d.code a.code b.code c.code))
  | .cmpi h c d a i => some (eWord h 12 (eRri d.code a.code (c.code.extractLsb' 0 2) i))
  | .lea h s d a b => some (eWord h 14 (eRrr d.code a.code b.code (0#1 ++ s)))
  | .leaS32 h s d a b => some (eWord h 14 (eRrr d.code a.code b.code (1#1 ++ s)))
  | .fadd h t d a b => some (eWord h (4#4 ++ t.major) (eRrr d.code a.code b.code 0))
  | .fsub h t d a b => some (eWord h (4#4 ++ t.major) (eRrr d.code a.code b.code 1))
  | .fmul h t d a b => some (eWord h (4#4 ++ t.major) (eRrr d.code a.code b.code 2))
  | .ffma h t d a b => some (eWord h (4#4 ++ t.major) (eRrr d.code a.code b.code 3))
  | .ffms h t d a b => some (eWord h (4#4 ++ t.major) (eRrr d.code a.code b.code 4))
  | .fnma h t d a b => some (eWord h (4#4 ++ t.major) (eRrr d.code a.code b.code 5))
  | .fmin h t d a b => some (eWord h (4#4 ++ t.major) (eRrr d.code a.code b.code 6))
  | .fmax h t d a b => some (eWord h (4#4 ++ t.major) (eRrr d.code a.code b.code 7))
  | .faddRz h t d a b => some (eWord h (10#5 ++ t.major.extractLsb' 0 1) (eRrr d.code a.code b.code 0))
  | .faddRu h t d a b => some (eWord h (10#5 ++ t.major.extractLsb' 0 1) (eRrr d.code a.code b.code 1))
  | .faddRd h t d a b => some (eWord h (10#5 ++ t.major.extractLsb' 0 1) (eRrr d.code a.code b.code 2))
  | .fmulRz h t d a b => some (eWord h (10#5 ++ t.major.extractLsb' 0 1) (eRrr d.code a.code b.code 3))
  | .fmulRu h t d a b => some (eWord h (10#5 ++ t.major.extractLsb' 0 1) (eRrr d.code a.code b.code 4))
  | .fmulRd h t d a b => some (eWord h (10#5 ++ t.major.extractLsb' 0 1) (eRrr d.code a.code b.code 5))
  | .fabs h t d a => some (eWord h 22 (eRrr d.code a.code (0#5 ++ t.low) 0))
  | .fneg h t d a => some (eWord h 22 (eRrr d.code a.code (0#5 ++ t.low) 1))
  | .fclass h t d a => some (eWord h 22 (eRrr d.code a.code (0#5 ++ t.low) 2))
  | .frnd h t r d a => some (eWord h 22 (eRrr d.code a.code (0#1 ++ r.code ++ 0#1 ++ t.low) 3))
  | .fcpys h t d a b => some (eWord h 23 (eRrr d.code a.code b.code (0#1 ++ t.low)))
  | .fscalb h t d a b => some (eWord h 23 (eRrr d.code a.code b.code (1#1 ++ t.low)))
  | .fcmp h c t d a b => some (eWord h (12#5 ++ c.code.extractLsb' 1 1) (eRrr d.code a.code b.code (c.code.extractLsb' 0 1 ++ t.low)))
  | .cvtFloatFloat h dst src r sat d a => some (eWord h 26 (eRrr d.code a.code (src.code ++ dst.code ++ BitVec.ofBool sat) r.code))
  | .cvtIntegerFloat h ity fty toInt r d a => some (eWord h 27 (eRrr d.code a.code (0#1 ++ fty.low ++ ity.code ++ BitVec.ofBool toInt ++ 0#1) r.code))
  | .qnq4 h dr d a b => some (eWord h 28 (eRrr d.code a.code b.code (0#2 ++ BitVec.ofBool dr)))
  | .dqnq4 h d a b => some (eWord h 28 (eRrr d.code a.code b.code 2))
  | .qe8 h f dr d a b => some (eWord h 28 (eRrr d.code a.code b.code (1#1 ++ f.fp8Bit ++ BitVec.ofBool dr)))
  | .dot h t d a b => some (eWord h 29 (eRrr d.code a.code b.code (0#1 ++ t.dotCode)))
  | .fsum h t d a b => some (eWord h 29 (eRrr d.code a.code b.code (1#1 ++ t.sumCode)))
  | .pack h n d a b => some (eWord h 30 (eRrr d.code a.code b.code (0#1 ++ n.code)))
  | .unpack h n d a b => some (eWord h 30 (eRrr d.code a.code b.code (1#1 ++ n.code)))
  | .dqe8 h f d a b => some (eWord h 31 (eRrr d.code a.code b.code (0#2 ++ f.fp8Bit)))
  | .rcp h t d a => some (eWord h (16#5 ++ t.code) (eRrr d.code a.code 0 0))
  | .rsq h t d a => some (eWord h (16#5 ++ t.code) (eRrr d.code a.code 0 1))
  | .sqrt h t d a => some (eWord h (16#5 ++ t.code) (eRrr d.code a.code 0 2))
  | .exp2 h t d a => some (eWord h (16#5 ++ t.code) (eRrr d.code a.code 0 3))
  | .log2 h t d a => some (eWord h (16#5 ++ t.code) (eRrr d.code a.code 0 4))
  | .sin h t d a => some (eWord h (16#5 ++ t.code) (eRrr d.code a.code 0 5))
  | .cos h t d a => some (eWord h (16#5 ++ t.code) (eRrr d.code a.code 0 6))
  | .tanh h t d a => some (eWord h (16#5 ++ t.code) (eRrr d.code a.code 0 7))
  | .lse2 h d a b => some (eWord h 34 (eRrr d.code a.code b.code 0))
  | .rngB64 h d a b => some (eWord h 34 (eRrr d.code a.code b.code 1))
  | .rngF32 h d a b => some (eWord h 34 (eRrr d.code a.code b.code 2))
  | .rngBf16 h d a b => some (eWord h 34 (eRrr d.code a.code b.code 3))
  | .sample h t d a b => some (eWord h 34 (eRrr d.code a.code b.code (2#2 ++ t.code)))
  | .shuf h n d a b => some (eWord h 35 (eRrr d.code a.code b.code (0#1 ++ n.code)))
  | .bcast h n d a b => some (eWord h 35 (eRrr d.code a.code b.code (1#1 ++ n.code)))
  | .rdlane h d a b => some (eWord h 36 (eRrr d.code a.code b.code 0))
  | .wrlane h d a b => some (eWord h 36 (eRrr d.code a.code b.code 1))
  | .voteAny h d a => some (eWord h 36 (eRrr d.code a.code 0 2))
  | .voteAll h d a => some (eWord h 36 (eRrr d.code a.code 0 3))
  | .voteBallot h d a => some (eWord h 36 (eRrr d.code a.code 0 4))
  | .voteEq h d a => some (eWord h 36 (eRrr d.code a.code 0 5))
  | .compressCnt h wide d a => some (eWord h 36 (eRrr d.code a.code 0 (3#2 ++ BitVec.ofBool (!wide))))
  | .gred h op ty d a => some (eWord h 37 (eRrr d.code a.code (0#4 ++ ty.code) op.code))
  | .gscan h op ty ex d a => some (eWord h 38 (eRrr d.code a.code (BitVec.ofBool ex ++ 0#3 ++ ty.code) op.code))
  | .compress h wide d a b => some (eWord h 39 (eRrr d.code a.code b.code (0#2 ++ BitVec.ofBool (!wide))))
  | .expand h wide d a b => some (eWord h 39 (eRrr d.code a.code b.code (1#2 ++ BitVec.ofBool (!wide))))
  | .subperm h n d a b => some (eWord h 39 (eRrr d.code a.code b.code (1#1 ++ n.code)))
  | .ld h sz t b x s p => some (eWord h 40 (eMem t.code (code8 b) x.code s sz.code p))
  | .st h sz t b x s p => some (eWord h 41 (eMem t.code (code8 b) x.code s sz.code p))
  | .lds h sz t b x s p => some (eWord h 42 (eMem t.code (code8 b) x.code s sz.code p))
  | .pref h l2 sz b x s p => some (eWord h 43 (eMem (0#6 ++ BitVec.ofBool l2) (code8 b) x.code s sz.code p))
  | .aadd h wide t b x s => some (eWord h 44 (eMem t.code (code8 b) x.code s (eWide wide) 0))
  | .aand h wide t b x s => some (eWord h 44 (eMem t.code (code8 b) x.code s (eWide wide) 1))
  | .aor h wide t b x s => some (eWord h 44 (eMem t.code (code8 b) x.code s (eWide wide) 2))
  | .axor h wide t b x s => some (eWord h 44 (eMem t.code (code8 b) x.code s (eWide wide) 3))
  | .axch h wide t b x s => some (eWord h 44 (eMem t.code (code8 b) x.code s (eWide wide) 4))
  | .aminS h wide t b x s => some (eWord h 44 (eMem t.code (code8 b) x.code s (eWide wide) 5))
  | .amaxS h wide t b x s => some (eWord h 44 (eMem t.code (code8 b) x.code s (eWide wide) 6))
  | .acas h wide t b x s => some (eWord h 44 (eMem t.code (code8 b) x.code s (eWide wide) 7))
  | .aminZ h wide t b x s => some (eWord h 45 (eMem t.code (code8 b) x.code s (eWide wide) 0))
  | .amaxZ h wide t b x s => some (eWord h 45 (eMem t.code (code8 b) x.code s (eWide wide) 1))
  | .afadd h wide t b x s => some (eWord h 45 (eMem t.code (code8 b) x.code s (eWide wide) 2))
  | .abinc h t b x s => some (eWord h 45 (eMem t.code (code8 b) x.code s 2 3))
  | .apmax h t b x s => some (eWord h 45 (eMem t.code (code8 b) x.code s 3 4))
  | .frd h t b x s => some (eWord h 46 (eMem t.code (code8 b) x.code s 3 0))
  | .fwr h t b x s => some (eWord h 46 (eMem t.code (code8 b) x.code s 3 1))
  | .fclr h b x s => some (eWord h 46 (eMem 0 (code8 b) x.code s 3 2))
  | .trb h n a => some (eWord h 47 (eRrr (0#4 ++ code8 n) a.code 0 0))
  | .fence h sc => some (eWord h 48 (eRrr 0 0 0 sc.fenceCode))
  | .bar h sc a b => some (eWord h 49 (eRrr 0 a.code b.code sc.barCode))
  | .bara h sc a b => some (eWord h 49 (eRrr 1 a.code b.code sc.barCode))
  | .barw h sc a => some (eWord h 49 (eRrr 2 a.code 0 sc.barCode))
  | .evwait h a => some (eWord h 50 (eRrr 0 a.code 0 0))
  | .evpop h d => some (eWord h 50 (eRrr d.code 0 0 1))
  | .waitm h c wide t b x s => some (eWord h 51 (eMem t.code (code8 b) x.code s (eWide wide) c.code))
  | .rdmap h q d lv => some (eWord h 52 (eRrr d.code 0 (q.code ++ code8 lv) 0))
  | .lvidx h d lv => some (eWord h 52 (eRrr d.code 0 (0#4 ++ code8 lv) 1))
  | .lvext h d lv => some (eWord h 52 (eRrr d.code 0 (0#4 ++ code8 lv) 2))
  | .lvfirst h d lv => some (eWord h 52 (eRrr d.code 0 (0#4 ++ code8 lv) 3))
  | .lvbuf h d lv => some (eWord h 52 (eRrr d.code 0 (0#4 ++ code8 lv) 4))
  | .lvfor h lv => some (eWord h 52 (eRrr 0 0 (0#4 ++ code8 lv) 5))
  | .lvnext h d lv => some (eWord h 52 (eRrr d.code 0 (0#4 ++ code8 lv) 6))
  | .redl h op ty d a lv => some (eWord h 53 (eRrr d.code a.code (code8 lv ++ 0#1 ++ ty.code) op.code))
  | .barl h lv => some (eWord h 54 (eRrr 0 0 (0#4 ++ code8 lv) 0))
  | .bra h neg p disp => some (eWord h 56 (eBr neg (code8 p) disp))
  | .brp h neg p disp => some (eWord h 57 (eBr neg (code8 p) disp))
  | .call h disp => some (eWord h 58 (eCf 0 0 disp))
  | .fcall h n disp => some (eWord h 58 (eCf 1 n disp))
  | .fcallForce h n disp => some (eWord h 58 (eCf 2 n disp))
  | .ftrainSeed h k disp => some (eWord h 58 (eCf 3 (0#2 ++ k) disp))
  | .ftrainForce h k disp => some (eWord h 58 (eCf 3 (1#2 ++ k) disp))
  | .ftrainClear h disp => some (eWord h 58 (eCf 3 (2#2 ++ 0#4) disp))
  | .nop h => some (eWord h 59 (eRrr 0 0 0 0))
  | .ret h => some (eWord h 59 (eRrr 0 0 0 3))
  | .join h => some (eWord h 59 (eRrr 0 0 0 4))
  | .yield h => some (eWord h 59 (eRrr 0 0 0 6))
  | .jmpr h a => some (eWord h 59 (eRrr 0 a.code 0 1))
  | .callr h a => some (eWord h 59 (eRrr 0 a.code 0 2))
  | .exit h sc => some (eWord h 59 (eRrr 0 0 (0#4 ++ sc.fenceCode) 5))
  | .fmtb h a => some (eWord h 60 (eRrr a.code 0 0 0))
  | .wld h a b => some (eWord h 60 (eRrr a.code b.code 0 1))
  | .wswp h => some (eWord h 60 (eRrr 0 0 0 2))
  | .accz h m => some (eWord h 60 (eRrr 0 0 (1#2 ++ m ++ 0#1) 2))
  | .mma h a b c => some (eWord h 60 (eRrr a.code b.code c.code 3))
  | .accout h a b c => some (eWord h 60 (eRrr a.code b.code c.code 4))
  | .accin h a b c => some (eWord h 60 (eRrr a.code b.code c.code 5))
  | .mmt h a => some (eWord h 60 (eRrr a.code 0 0 6))
  | .mstat h d => some (eWord h 60 (eRrr d.code 0 0 7))
  | .pld h a => some (eWord h 61 (eRrr a.code 0 0 0))
  | .pcost h a b => some (eWord h 61 (eRrr a.code b.code 0 1))
  | .pmarg h out col a => some (eWord h 61 (eRrr a.code 0 (BitVec.ofBool out ++ BitVec.ofBool col ++ 0#1 ++ 0#4) 2))
  | .pscl h out col a => some (eWord h 61 (eRrr a.code 0 (BitVec.ofBool out ++ BitVec.ofBool col ++ 1#1 ++ 0#4) 2))
  | .balance h a b => some (eWord h 61 (eRrr a.code b.code 0 3))
  | .ppart h row a => some (eWord h 61 (eRrr a.code 0 (0#6 ++ BitVec.ofBool row) 4))
  | .pout h a b c => some (eWord h 61 (eRrr a.code b.code c.code 5))
  | .pdist h a b => some (eWord h 61 (eRrr a.code b.code 0 6))
  | .pstat h d => some (eWord h 61 (eRrr d.code 0 0 7))
  | .cpy h a b c => some (eWord h 62 (eRrr a.code b.code c.code 0))
  | .cpy2d h a => some (eWord h 62 (eRrr a.code 0 0 1))
  | .gth h a => some (eWord h 62 (eRrr a.code 0 0 2))
  | .sct h a => some (eWord h 62 (eRrr a.code 0 0 3))
  | .cpyr h a b c => some (eWord h 62 (eRrr a.code b.code c.code 4))
  | .rdsr h d n => some (eWord h 63 (eSys d.code 0 n))
  | .wrsr h a n => some (eWord h 63 (eSys a.code 1 n))
  | .rdctr h d sync q => some (eWord h 63 (eSys d.code 2 (BitVec.ofBool sync ++ q)))
  | .rdclk h d sync => some (eWord h 63 (eSys d.code 3 (BitVec.ofBool sync ++ 0#13)))
  | .trap h n => some (eWord h 63 (eSys 0 4 n))
  | .syscall h n => some (eWord h 63 (eSys 0 5 n))
  | .bkpt h => some (eWord h 63 (eSys 0 6 0))
  | .selftest h d p => some (eWord h 63 (eSys d.code 7 p))
  | .groupRunSelect .. => none
  | .variableResultWrite .. => none
  | .dividerResult .. => none
  | .pageWalk .. => none
  | .trbComplete .. => none
  | .pageFaultResume .. => none
  | .logicalTimeTick => none
  | .rebase => none
  | .rebaseRelease => none
  | .shootDown .. => none
  | .shootDownAck .. => none
  | .tenderValidation .. => none
  | .phaseBoundary .. => none
  | .starve .. => none
  | .teamSpill .. => none
  | .groupResume .. => none
  | .ended .. => none
  | .debuggerStop .. => none
  | .completionRecordPost .. => none
  | .arrayOperationStart .. => none
  | .mmtStep .. => none
  | .slewGovernorStep .. => none
  | .accumulatorRowWrite .. => none
  | .arrayOperationDrain .. => none
  | .mmtForcedStop .. => none
  | .copyOperationStart .. => none
  | .copyAccessRetry .. => none
  | .copyOperationEnd .. => none
  | .thedelPacketDelivery .. => none
  | .stop .. => none
  | .go .. => none
  | .linkReplay .. => none
  | .hostWrite .. => none
  | .hostRead .. => none
  | .hostReadBufferExpiry .. => none
  | .sqctlWrite .. => none
  | .sqtailWrite .. => none
  | .packetFetch .. => none
  | .nopk .. => none
  | .launch .. => none
  | .ib .. => none
  | .pred .. => none
  | .loop .. => none
  | .ffence .. => none
  | .write .. => none
  | .waitmem .. => none
  | .signal .. => none
  | .teamPlacement .. => none
  | .groupStart .. => none
  | .launchEnd .. => none
  | .sliceExpiry .. => none
  | .budgetPeriod => none
  | .launchTokenTick => none
  | .lnkstWrite .. => none
  | .marginRun .. => none
  | .marginRunComplete .. => none
  | .registerWrite .. => none
  | .doeDiscovery .. => none
  | .attest .. => none
  | .provision .. => none
  | .deploy .. => none
  | .rma .. => none
  | .lifecycleWipeDone => none
  | .deviceReset => none
  | .mregExtend .. => none
  | .liveUpdate .. => none
  | .selftestDone .. => none
  | .memoryErrorRetry .. => none
  | .quadRetire .. => none
  | .quadReassign .. => none
  | .thermalThrottle => none
  | .thermalRecover => none
  | .thermalReset => none
  | .housekeepingStore .. => none
  | .accessPerformed .. => none
  | .instructionFetch .. => none
  | .packetAcknowledgement .. => none
  | .frontEndFaultResume .. => none
  | .recordAreaFaultResume .. => none

/-- The words of a well-formed instruction: one for an instruction word, none for an event. -/
def encode (i : Instr) : List IWord := (encodeWord i).toList

/-- C and S of an instruction word (R19); events have none. -/
def Instr.hd : Instr → Option Hd
  | .add h .. => some h
  | .sub h .. => some h
  | .and h .. => some h
  | .or h .. => some h
  | .xor h .. => some h
  | .andn h .. => some h
  | .min h .. => some h
  | .max h .. => some h
  | .addi h .. => some h
  | .shli h .. => some h
  | .shri h .. => some h
  | .sari h .. => some h
  | .li h .. => some h
  | .lis h .. => some h
  | .addS32 h .. => some h
  | .subS32 h .. => some h
  | .mulS32 h .. => some h
  | .shlS32 h .. => some h
  | .shrS32 h .. => some h
  | .sarS32 h .. => some h
  | .bfi h .. => some h
  | .padd h .. => some h
  | .shl h .. => some h
  | .shr h .. => some h
  | .sar h .. => some h
  | .rol h .. => some h
  | .minu h .. => some h
  | .maxu h .. => some h
  | .mul h .. => some h
  | .mulh h .. => some h
  | .mulhu h .. => some h
  | .div h .. => some h
  | .divu h .. => some h
  | .rem h .. => some h
  | .remu h .. => some h
  | .mad h .. => some h
  | .bfxZ h .. => some h
  | .bfxS h .. => some h
  | .clz h .. => some h
  | .ctz h .. => some h
  | .popc h .. => some h
  | .brev h .. => some h
  | .abs h .. => some h
  | .mov h .. => some h
  | .sext h .. => some h
  | .zext h .. => some h
  | .psub h .. => some h
  | .sel h .. => some h
  | .cmp h .. => some h
  | .cmpi h .. => some h
  | .pmin h .. => some h
  | .lea h .. => some h
  | .leaS32 h .. => some h
  | .pmax h .. => some h
  | .fadd h .. => some h
  | .fsub h .. => some h
  | .fmul h .. => some h
  | .ffma h .. => some h
  | .ffms h .. => some h
  | .fnma h .. => some h
  | .fmin h .. => some h
  | .fmax h .. => some h
  | .faddRz h .. => some h
  | .faddRu h .. => some h
  | .faddRd h .. => some h
  | .fmulRz h .. => some h
  | .fmulRu h .. => some h
  | .fmulRd h .. => some h
  | .fabs h .. => some h
  | .fneg h .. => some h
  | .fclass h .. => some h
  | .frnd h .. => some h
  | .fcpys h .. => some h
  | .fscalb h .. => some h
  | .fcmp h .. => some h
  | .cvtFloatFloat h .. => some h
  | .cvtIntegerFloat h .. => some h
  | .qnq4 h .. => some h
  | .dqnq4 h .. => some h
  | .qe8 h .. => some h
  | .dot h .. => some h
  | .fsum h .. => some h
  | .pack h .. => some h
  | .unpack h .. => some h
  | .dqe8 h .. => some h
  | .rcp h .. => some h
  | .rsq h .. => some h
  | .sqrt h .. => some h
  | .exp2 h .. => some h
  | .log2 h .. => some h
  | .sin h .. => some h
  | .cos h .. => some h
  | .tanh h .. => some h
  | .lse2 h .. => some h
  | .rngB64 h .. => some h
  | .rngF32 h .. => some h
  | .rngBf16 h .. => some h
  | .sample h .. => some h
  | .shuf h .. => some h
  | .bcast h .. => some h
  | .rdlane h .. => some h
  | .wrlane h .. => some h
  | .voteAny h .. => some h
  | .voteAll h .. => some h
  | .voteBallot h .. => some h
  | .voteEq h .. => some h
  | .compressCnt h .. => some h
  | .gred h .. => some h
  | .gscan h .. => some h
  | .compress h .. => some h
  | .expand h .. => some h
  | .subperm h .. => some h
  | .ld h .. => some h
  | .st h .. => some h
  | .lds h .. => some h
  | .pref h .. => some h
  | .aadd h .. => some h
  | .aand h .. => some h
  | .aor h .. => some h
  | .axor h .. => some h
  | .axch h .. => some h
  | .aminS h .. => some h
  | .amaxS h .. => some h
  | .acas h .. => some h
  | .aminZ h .. => some h
  | .amaxZ h .. => some h
  | .afadd h .. => some h
  | .abinc h .. => some h
  | .apmax h .. => some h
  | .frd h .. => some h
  | .fwr h .. => some h
  | .fclr h .. => some h
  | .trb h .. => some h
  | .fence h .. => some h
  | .bar h .. => some h
  | .bara h .. => some h
  | .barw h .. => some h
  | .evwait h .. => some h
  | .evpop h .. => some h
  | .waitm h .. => some h
  | .rdmap h .. => some h
  | .lvidx h .. => some h
  | .lvext h .. => some h
  | .lvfirst h .. => some h
  | .lvbuf h .. => some h
  | .lvfor h .. => some h
  | .lvnext h .. => some h
  | .redl h .. => some h
  | .barl h .. => some h
  | .bra h .. => some h
  | .brp h .. => some h
  | .call h .. => some h
  | .fcall h .. => some h
  | .fcallForce h .. => some h
  | .ftrainSeed h .. => some h
  | .ftrainForce h .. => some h
  | .ftrainClear h .. => some h
  | .nop h .. => some h
  | .jmpr h .. => some h
  | .callr h .. => some h
  | .ret h .. => some h
  | .join h .. => some h
  | .exit h .. => some h
  | .yield h .. => some h
  | .fmtb h .. => some h
  | .wld h .. => some h
  | .wswp h .. => some h
  | .accz h .. => some h
  | .mma h .. => some h
  | .accout h .. => some h
  | .accin h .. => some h
  | .mmt h .. => some h
  | .mstat h .. => some h
  | .pld h .. => some h
  | .pcost h .. => some h
  | .pmarg h .. => some h
  | .pscl h .. => some h
  | .balance h .. => some h
  | .ppart h .. => some h
  | .pout h .. => some h
  | .pdist h .. => some h
  | .pstat h .. => some h
  | .cpy h .. => some h
  | .cpy2d h .. => some h
  | .gth h .. => some h
  | .sct h .. => some h
  | .cpyr h .. => some h
  | .rdsr h .. => some h
  | .wrsr h .. => some h
  | .rdctr h .. => some h
  | .rdclk h .. => some h
  | .trap h .. => some h
  | .syscall h .. => some h
  | .bkpt h .. => some h
  | .selftest h .. => some h
  | .groupRunSelect .. => none
  | .variableResultWrite .. => none
  | .dividerResult .. => none
  | .pageWalk .. => none
  | .trbComplete .. => none
  | .pageFaultResume .. => none
  | .logicalTimeTick => none
  | .rebase => none
  | .rebaseRelease => none
  | .shootDown .. => none
  | .shootDownAck .. => none
  | .tenderValidation .. => none
  | .phaseBoundary .. => none
  | .starve .. => none
  | .teamSpill .. => none
  | .groupResume .. => none
  | .ended .. => none
  | .debuggerStop .. => none
  | .completionRecordPost .. => none
  | .arrayOperationStart .. => none
  | .mmtStep .. => none
  | .slewGovernorStep .. => none
  | .accumulatorRowWrite .. => none
  | .arrayOperationDrain .. => none
  | .mmtForcedStop .. => none
  | .copyOperationStart .. => none
  | .copyAccessRetry .. => none
  | .copyOperationEnd .. => none
  | .thedelPacketDelivery .. => none
  | .stop .. => none
  | .go .. => none
  | .linkReplay .. => none
  | .hostWrite .. => none
  | .hostRead .. => none
  | .hostReadBufferExpiry .. => none
  | .sqctlWrite .. => none
  | .sqtailWrite .. => none
  | .packetFetch .. => none
  | .nopk .. => none
  | .launch .. => none
  | .ib .. => none
  | .pred .. => none
  | .loop .. => none
  | .ffence .. => none
  | .write .. => none
  | .waitmem .. => none
  | .signal .. => none
  | .teamPlacement .. => none
  | .groupStart .. => none
  | .launchEnd .. => none
  | .sliceExpiry .. => none
  | .budgetPeriod => none
  | .launchTokenTick => none
  | .lnkstWrite .. => none
  | .marginRun .. => none
  | .marginRunComplete .. => none
  | .registerWrite .. => none
  | .doeDiscovery .. => none
  | .attest .. => none
  | .provision .. => none
  | .deploy .. => none
  | .rma .. => none
  | .lifecycleWipeDone => none
  | .deviceReset => none
  | .mregExtend .. => none
  | .liveUpdate .. => none
  | .selftestDone .. => none
  | .memoryErrorRetry .. => none
  | .quadRetire .. => none
  | .quadReassign .. => none
  | .thermalThrottle => none
  | .thermalRecover => none
  | .thermalReset => none
  | .housekeepingStore .. => none
  | .accessPerformed .. => none
  | .instructionFetch .. => none
  | .packetAcknowledgement .. => none
  | .frontEndFaultResume .. => none
  | .recordAreaFaultResume .. => none

end Sys2Proof
end

