-- ==== Sys2Proof/Machine/Fp.lean ====
section
/-! DEFINITION. Number formats and exact arithmetic (R72–R80): every operation forms its exact result from integers and
powers of two and rounds it once. -/

namespace Sys2Proof.Machine

/-- The five flags of FSTAT[4:0] (R81). -/
abbrev Flags := BitVec 5

/-- Invalid operation. -/
def fIV : Flags := 1#5
/-- Division by zero. -/
def fDZ : Flags := 2#5
/-- Overflow. -/
def fOF : Flags := 4#5
/-- Underflow. -/
def fUF : Flags := 8#5
/-- Inexact. -/
def fIX : Flags := 16#5

/-- A flag if a condition holds. -/
def flagIf (b : Bool) (f : Flags) : Flags := if b then f else 0

/-- What a float code stands for: a NaN (signalling or quiet), an infinity, or (−1)^neg × m × 2^e. -/
inductive FVal where
  | nan (sig : Bool)
  | inf (neg : Bool)
  | fin (neg : Bool) (m : Nat) (e : Int)
deriving DecidableEq, Repr

/-! ### Formats (R73) -/

/-- Bits of a sub-element (R72). -/
def fWidth : FTy → Nat
  | .f64 => 64
  | .f32 => 32
  | .f16 | .bf16 => 16
  | .e4m3 | .e5m2 => 8

/-- Bits of the fraction. -/
def fFrac : FTy → Nat
  | .f64 => 52
  | .f32 => 23
  | .f16 => 10
  | .bf16 => 7
  | .e4m3 => 3
  | .e5m2 => 2

/-- Bits of the exponent. -/
def fExp (t : FTy) : Nat := fWidth t - 1 - fFrac t

/-- The bias. -/
def fBias : FTy → Nat
  | .f64 => 1023
  | .f32 | .bf16 => 127
  | .f16 | .e5m2 => 15
  | .e4m3 => 7

/-- Sub-elements of a register, E (R72). -/
def fLanes (t : FTy) : Nat := 64 / fWidth t

/-- The exponent of the last fraction bit of a subnormal. -/
def fQmin (t : FTy) : Int := 1 - (fBias t : Int) - (fFrac t : Int)

/-- The largest exponent field of a finite number: E4M3 has finite numbers at 0b1111. -/
def fTopExp (t : FTy) : Nat := if t = .e4m3 then 15 else 2 ^ fExp t - 2

/-- The significand of the largest finite number. -/
def fTopSig (t : FTy) : Nat := if t = .e4m3 then 14 else 2 ^ (fFrac t + 1) - 1

/-- The exponent that goes with `fTopSig`. -/
def fTopQ (t : FTy) : Int := (fTopExp t : Int) - (fBias t : Int) - (fFrac t : Int)

/-- The sign bit of a code. -/
def fSign (t : FTy) (neg : Bool) : Nat := if neg then 2 ^ (fWidth t - 1) else 0

/-- The canonical NaN (R74). -/
def fNan : FTy → Nat
  | .f64 => 0x7FF8000000000000
  | .f32 => 0x7FC00000
  | .f16 => 0x7E00
  | .bf16 => 0x7FC0
  | .e5m2 => 0x7E
  | .e4m3 => 0x7F

/-- The code of the largest finite number (R73). -/
def fMax (t : FTy) (neg : Bool) : Nat := fSign t neg + fTopExp t * 2 ^ fFrac t + (fTopSig t - 2 ^ fFrac t)

/-- The code of an infinity; E4M3 has none and gives its NaN (R73). -/
def fInf (t : FTy) (neg : Bool) : Nat :=
  if t = .e4m3 then fNan t else fSign t neg + (2 ^ fExp t - 1) * 2 ^ fFrac t

/-- The value of a code (R73). -/
def fDecode (t : FTy) (code : Nat) : FVal :=
  let n := code % 2 ^ fWidth t
  let neg := n / 2 ^ (fWidth t - 1) = 1
  let ex := n / 2 ^ fFrac t % 2 ^ fExp t
  let fr := n % 2 ^ fFrac t
  if t = .e4m3 && ex = 15 && fr = 7 then .nan false
  else if t ≠ .e4m3 ∧ ex = 2 ^ fExp t - 1 then
    if fr = 0 then .inf neg else .nan (fr / 2 ^ (fFrac t - 1) = 0)
  else if ex = 0 then .fin neg fr (fQmin t)
  else .fin neg (2 ^ fFrac t + fr) ((ex : Int) - (fBias t : Int) - (fFrac t : Int))

/-- The code of a finite number whose significand fits the format at exponent q. -/
def fCode (t : FTy) (neg : Bool) (sig : Nat) (q : Int) : Nat :=
  if sig < 2 ^ fFrac t then fSign t neg + sig
  else fSign t neg + (q + (fBias t : Int) + (fFrac t : Int)).toNat * 2 ^ fFrac t + (sig - 2 ^ fFrac t)

/-! ### Rounding (R79, R80) -/

/-- The number of bits of n. -/
def bitLen (n : Nat) : Nat := if n = 0 then 0 else Nat.log2 n + 1

/-- Whether a magnitude between two neighbours goes to the upper one: `odd` is the parity of the lower one, `rem` out
of `unit` what is left. `thr` is the dither threshold numerator of .dr, out of 128. -/
def roundsUp (rm : Rnd) (thr : Nat) (neg odd : Bool) (rem unit : Nat) : Bool :=
  match rm with
  | .rne => decide (unit < 2 * rem) || (decide (2 * rem = unit) && odd)
  | .rz => false
  | .ru => decide (rem ≠ 0) && !neg
  | .rd => decide (rem ≠ 0) && neg
  | .dr => decide (thr * unit < 128 * rem)

/-- m × 2^e rounded to a multiple of 2^q: the multiple and whether it is inexact. -/
def roundAt (rm : Rnd) (thr : Nat) (neg : Bool) (m : Nat) (e q : Int) : Nat × Bool :=
  if q ≤ e then (m * 2 ^ (e - q).toNat, false)
  else
    let unit := 2 ^ (q - e).toNat
    let lo := m / unit
    let rem := m % unit
    (if roundsUp rm thr neg (lo % 2 = 1) rem unit then lo + 1 else lo, rem ≠ 0)

/-- The rounding of a non-zero magnitude m × 2^e to a format: significand, exponent, inexact, and whether the result
is tiny, judged after rounding with an unbounded exponent (R79). -/
structure Rounding where
  sig     : Nat
  q       : Int
  inexact : Bool
  tiny    : Bool
deriving DecidableEq, Repr

/-- Rounds to the precision of a format. -/
def roundMag (t : FTy) (rm : Rnd) (thr : Nat) (neg : Bool) (m : Nat) (e : Int) : Rounding :=
  let p := fFrac t + 1
  let qu := e + (bitLen m : Int) - (p : Int)
  let q := max qu (fQmin t)
  let (sg, ix) := roundAt rm thr neg m e q
  let (su, _) := roundAt rm thr neg m e qu
  let tiny := decide (qu < fQmin t) && !(decide (qu = fQmin t - 1) && decide (su = 2 ^ p))
  if sg = 2 ^ p then { sig := 2 ^ fFrac t, q := q + 1, inexact := ix, tiny := tiny }
  else { sig := sg, q := q, inexact := ix, tiny := tiny }

/-- A rounded magnitude is above the largest finite number. -/
def overMax (t : FTy) (r : Rounding) : Bool :=
  decide (fTopQ t < r.q) || (decide (r.q = fTopQ t) && decide (fTopSig t < r.sig))

/-- Whether an overflow gives an infinity (R79). -/
def overToInf (rm : Rnd) (neg : Bool) : Bool :=
  match rm with
  | .rne | .dr => true
  | .rz => false
  | .ru => !neg
  | .rd => neg

/-- The magnitude m × 2^e is above the largest finite number of the format. -/
def aboveMax (t : FTy) (m : Nat) (e : Int) : Bool :=
  let b := min e (fTopQ t)
  decide (fTopSig t * 2 ^ (fTopQ t - b).toNat < m * 2 ^ (e - b).toNat)

/-- Rounds (−1)^neg × m × 2^e to a code, with OF, UF and IX (R79); under .dr an overflow is as under .rne (R80). -/
def roundTo (t : FTy) (rm : Rnd) (thr : Nat) (neg : Bool) (m : Nat) (e : Int) : Nat × Flags :=
  if m = 0 then (fSign t neg, 0)
  else
    let rm := if rm = .dr && aboveMax t m e then .rne else rm
    let r := roundMag t rm thr neg m e
    if overMax t r then (if overToInf rm neg then fInf t neg else fMax t neg, fOF ||| fIX)
    else (fCode t neg r.sig r.q, flagIf (r.tiny && r.inexact) fUF ||| flagIf r.inexact fIX)

/-- round_rne (R79). -/
def roundRne (t : FTy) (neg : Bool) (m : Nat) (e : Int) : Nat × Flags := roundTo t .rne 0 neg m e

/-- The dither matrix D (R80). -/
def ditherD : List Nat :=
  [0, 32, 8, 40, 2, 34, 10, 42] ++ [48, 16, 56, 24, 50, 18, 58, 26] ++ [12, 44, 4, 36, 14, 46, 6, 38]
  ++ [60, 28, 52, 20, 62, 30, 54, 22] ++ [3, 35, 11, 43, 1, 33, 9, 41] ++ [51, 19, 59, 27, 49, 17, 57, 25]
  ++ [15, 47, 7, 39, 13, 45, 5, 37] ++ [63, 31, 55, 23, 61, 29, 53, 21]

/-- The threshold of index i and phase φ, in 128ths (R80). -/
def ditherThr (i phi : Nat) : Nat := 2 * ditherD.getD ((i + phi) % 64) 0 + 1

/-! ### Exact sums and products -/

/-- The value with its sign changed. -/
def fvNeg : FVal → FVal
  | .nan s => .nan s
  | .inf n => .inf (!n)
  | .fin n m e => .fin (!n) m e

/-- The value is a NaN. -/
def fvIsNan : FVal → Bool
  | .nan _ => true
  | _ => false

/-- The value is a signalling NaN. -/
def fvIsSnan : FVal → Bool
  | .nan s => s
  | _ => false

/-- The exact product and IV for 0 × ∞ (R89); NaNs pass through. -/
def fvMul : FVal → FVal → FVal × Flags
  | .nan a, .nan b => (.nan (a || b), 0)
  | .nan a, _ => (.nan a, 0)
  | _, .nan b => (.nan b, 0)
  | .inf a, .inf b => (.inf (a != b), 0)
  | .inf a, .fin b m _ => if m = 0 then (.nan false, fIV) else (.inf (a != b), 0)
  | .fin a m _, .inf b => if m = 0 then (.nan false, fIV) else (.inf (a != b), 0)
  | .fin a m e, .fin b n f => (.fin (a != b) (m * n) (e + f), 0)

/-- The least exponent of the finite members of a list. -/
def minExp : List FVal → Int → Int
  | [], e => e
  | .fin _ _ f :: r, e => minExp r (min e f)
  | _ :: r, e => minExp r e

/-- The sum of the finite members, in units of 2^e; e is at most every exponent. -/
def sumInt (e : Int) : List FVal → Int
  | [] => 0
  | .fin n m f :: r => (if n then -((m * 2 ^ (f - e).toNat : Nat) : Int) else ((m * 2 ^ (f - e).toNat : Nat) : Int)) + sumInt e r
  | _ :: r => sumInt e r

/-- Some member is the infinity of the given sign. -/
def anyInf (neg : Bool) (l : List FVal) : Bool := l.any fun v => v == .inf neg

/-- Every member is a zero of the given sign. -/
def allZero (neg : Bool) (l : List FVal) : Bool := l.all fun v =>
  match v with
  | .fin n m _ => m == 0 && n == neg
  | _ => false

/-- An exact sum rounded once, with its special values, the sign of an exact zero, and flags (R79, R89, R100). -/
def sumTo (t : FTy) (rm : Rnd) (l : List FVal) : Nat × Flags :=
  let iv := flagIf (l.any fvIsSnan) fIV
  if anyInf true l && anyInf false l then (fNan t, fIV)
  else if l.any fvIsNan then (fNan t, iv)
  else if anyInf true l then (fInf t true, 0)
  else if anyInf false l then (fInf t false, 0)
  else
    let e := minExp l 0
    let x := sumInt e l
    if x = 0 then
      if allZero true l && !l.isEmpty then (fSign t true, 0)
      else if allZero false l then (fSign t false, 0)
      else (fSign t (rm = .rd), 0)
    else roundTo t rm 0 (x < 0) x.natAbs e

/-- x × y + w, rounded once (R89; DEDUCED, log 28). -/
def fmaTo (t : FTy) (rm : Rnd) (x y w : FVal) (negProd : Bool) : Nat × Flags :=
  let (p, f) := fvMul x y
  let p := if negProd then fvNeg p else p
  let snan := flagIf (fvIsSnan x || fvIsSnan y) fIV
  let (r, g) := sumTo t rm [p, w]
  (r, f ||| snan ||| g)

/-- x × y, rounded once (R89). -/
def mulTo (t : FTy) (rm : Rnd) (x y : FVal) : Nat × Flags :=
  let (p, f) := fvMul x y
  match p with
  | .nan s => (fNan t, f ||| flagIf s fIV)
  | .inf n => (fInf t n, f)
  | .fin n m e => let (r, g) := roundTo t rm 0 n m e; (r, f ||| g)

/-- m × 2^e as an integer number of units 2^b, b at most e. -/
def scaleTo (b : Int) (m : Nat) (e : Int) : Nat := m * 2 ^ (e - b).toNat

/-- Comparison of two finite values or infinities: −1, 0 or 1. A NaN compares as 0; its callers test for it first. -/
def fvCmp (x y : FVal) : Int :=
  match x, y with
  | .nan _, _ => 0
  | _, .nan _ => 0
  | .inf a, .inf b => if a = b then 0 else if a then -1 else 1
  | .inf a, .fin _ _ _ => if a then -1 else 1
  | .fin _ _ _, .inf b => if b then 1 else -1
  | .fin a m e, .fin b n f =>
    let c := min e f
    let s : Int := if a then -(scaleTo c m e : Int) else (scaleTo c m e : Int)
    let u : Int := if b then -(scaleTo c n f : Int) else (scaleTo c n f : Int)
    if s < u then -1 else if u < s then 1 else 0

/-- The value is a zero. -/
def fvIsZero : FVal → Bool
  | .fin _ m _ => m == 0
  | _ => false

/-- The sign of a value; a NaN counts as positive. -/
def fvSign : FVal → Bool
  | .nan _ => false
  | .inf n => n
  | .fin n _ _ => n

/-- x is below y in the order of minimumNumber, with −0 below +0 (R89). -/
def fvLess (x y : FVal) : Bool :=
  if fvIsZero x && fvIsZero y then fvSign x && !fvSign y else fvCmp x y < 0

/-- FMIN and FMAX of two codes (R89): the other source of a NaN, the canonical NaN of two. -/
def minMaxTo (t : FTy) (wantMax : Bool) (a b : Nat) : Nat × Flags :=
  let x := fDecode t a
  let y := fDecode t b
  let iv := flagIf (fvIsSnan x || fvIsSnan y) fIV
  if fvIsNan x && fvIsNan y then (fNan t, iv)
  else if fvIsNan x then (b % 2 ^ fWidth t, iv)
  else if fvIsNan y then (a % 2 ^ fWidth t, iv)
  else if fvLess x y != wantMax then (a % 2 ^ fWidth t, iv)
  else if fvLess y x != wantMax then (b % 2 ^ fWidth t, iv)
  else (a % 2 ^ fWidth t, iv)

/-! ### Quotients and roots, with a sticky last bit -/

/-- A quotient m ÷ n × 2^e as a significand of at least `bits` bits and an exponent; an inexact quotient has its last
bit set, so that every rounding to fewer bits comes out as of the exact value. -/
def quot (bits : Nat) (m n : Nat) (e : Int) : Nat × Int :=
  let k := bits + bitLen n
  let q := m * 2 ^ k / n
  let r := m * 2 ^ k % n
  if r = 0 then (q, e - (k : Int)) else (2 * q + 1, e - (k : Int) - 1)

/-- The integer square root of x, bit by bit below 2^i. -/
def isqrtGo (x : Nat) : Nat → Nat → Nat
  | 0, r => r
  | i + 1, r => if (r + 2 ^ i) * (r + 2 ^ i) ≤ x then isqrtGo x i (r + 2 ^ i) else isqrtGo x i r

/-- The integer square root of x. -/
def isqrt (x : Nat) : Nat := isqrtGo x (bitLen x / 2 + 1) 0

/-- The square root of m × 2^e in the same form, for at least `bits` bits. -/
def root (bits : Nat) (m : Nat) (e : Int) : Nat × Int :=
  let k := 2 * bits + (if (e - 2 * (bits : Int)) % 2 = 0 then 0 else 1)
  let x := m * 2 ^ k
  let r := isqrt x
  let h := (e - (k : Int)) / 2
  if r * r = x then (r, h) else (2 * r + 1, h - 1)

/-! ### Conversions -/

/-- m × 2^e rounded to an integer magnitude, and whether it is inexact. -/
def toIntMag (rm : Rnd) (neg : Bool) (m : Nat) (e : Int) : Nat × Bool := roundAt rm 0 neg m e 0

/-- FRND: rounds to an integral value in the same format; IV for a signalling NaN, never IX (R90). -/
def frndTo (t : FTy) (rm : Rnd) (code : Nat) : Nat × Flags :=
  match fDecode t code with
  | .nan s => (fNan t, flagIf s fIV)
  | .inf n => (fInf t n, 0)
  | .fin n m e =>
    let (k, _) := toIntMag rm n m e
    if k = 0 then (fSign t n, 0) else ((roundRne t n k 0).1, 0)

/-- CVT between float types (R94); `thr` is the dither threshold of .dr. -/
def cvtFF (dst src : FTy) (rm : Rnd) (sat : Bool) (thr : Nat) (code : Nat) : Nat × Flags :=
  match fDecode src code with
  | .nan s => (fNan dst, flagIf s fIV)
  | .inf n => if sat then (fMax dst n, 0) else if dst = .e4m3 then (fNan dst, fIV) else (fInf dst n, 0)
  | .fin n m e =>
    if m = 0 then (fSign dst n, 0)
    else
      let mode := if rm = .dr && aboveMax dst m e then .rne else rm
      let r := roundMag dst mode thr n m e
      if overMax dst r then
        if sat then (fMax dst n, fOF ||| fIX)
        else if dst = .e4m3 && overToInf mode n then (fNan dst, fIV)
        else (if overToInf mode n then fInf dst n else fMax dst n, fOF ||| fIX)
      else (fCode dst n r.sig r.q, flagIf (r.tiny && r.inexact) fUF ||| flagIf r.inexact fIX)

/-- Bits of an integer type of CVT. -/
def iWidth : ITy → Nat
  | .s32 | .z32 => 32
  | .s64 | .z64 => 64

/-- An integer type is signed. -/
def iSigned : ITy → Bool
  | .s32 | .s64 => true
  | _ => false

/-- The least value of an integer type. -/
def iMin (t : ITy) : Int := if iSigned t then -(2 ^ (iWidth t - 1) : Nat) else 0

/-- The largest value of an integer type. -/
def iMax (t : ITy) : Int := if iSigned t then (2 ^ (iWidth t - 1) : Nat) - 1 else (2 ^ iWidth t : Nat) - 1

/-- The bits of an integer at a width of w bits. -/
def intBits (w : Nat) (x : Int) : Nat := (x % (2 ^ w : Nat)).toNat

/-- The integer that w bits stand for. -/
def intOf (w : Nat) (signed : Bool) (n : Nat) : Int :=
  let n := n % 2 ^ w
  if signed && decide (2 ^ (w - 1) ≤ n) then (n : Int) - (2 ^ w : Nat) else (n : Int)

/-- CVT from float to integer (R94). -/
def cvtFI (src : FTy) (dst : ITy) (rm : Rnd) (code : Nat) : Nat × Flags :=
  match fDecode src code with
  | .nan _ => (0, fIV)
  | .inf n => (intBits (iWidth dst) (if n then iMin dst else iMax dst), fIV)
  | .fin n m e =>
    let (k, ix) := toIntMag rm n m e
    let v : Int := if n then -(k : Int) else (k : Int)
    if v < iMin dst then (intBits (iWidth dst) (iMin dst), fIV)
    else if iMax dst < v then (intBits (iWidth dst) (iMax dst), fIV)
    else (intBits (iWidth dst) v, flagIf ix fIX)

/-- CVT from integer to float (R94). -/
def cvtIF (src : ITy) (dst : FTy) (rm : Rnd) (n : Nat) : Nat × Flags :=
  let x := intOf (iWidth src) (iSigned src) n
  if x = 0 then (0, 0) else roundTo dst rm 0 (x < 0) x.natAbs 0

/-! ### Sub-elements (R72) -/

/-- Sub-element k of n bits. -/
def subEl (n : Nat) (x : Word) (k : Nat) : Nat := x.toNat / 2 ^ (n * k) % 2 ^ n

/-- Gathers sub-elements of n bits, the lowest first. -/
def packEls (n : Nat) : List Nat → Nat
  | [] => 0
  | x :: r => x % 2 ^ n + 2 ^ n * packEls n r

/-- Maps each sub-element position to a result and flags, and gathers them. -/
def mapEls (n : Nat) (f : Nat → Nat × Flags) : Word × Flags :=
  let rs := (List.range (64 / n)).map f
  (BitVec.ofNat 64 (packEls n (rs.map (·.1))), rs.foldl (fun a r => a ||| r.2) 0)

end Sys2Proof.Machine
end

