-- ==== Sys2Proof/Machine/Tab.lean ====
section
/-! DEFINITION. Sorted tables with natural-number keys: the form in which the state holds registers, lines and memory.
A key that is absent stands for a default that the reader names. -/

namespace Sys2Proof.Machine

/-- A table: pairs of key and value. Its canonical form has strictly rising keys. -/
abbrev Tab (α : Type) := List (Nat × α)

/-- The value at a key, if the table lists it. -/
def tabFind {α : Type} (k : Nat) : Tab α → Option α
  | [] => none
  | (j, x) :: r => if j = k then some x else tabFind k r

/-- The value at a key, or `d` if the table does not list it. -/
def tabGet {α : Type} (d : α) (t : Tab α) (k : Nat) : α := (tabFind k t).getD d

/-- Lists `x` at key `k`, keeping the keys sorted. -/
def tabPut {α : Type} (k : Nat) (x : α) : Tab α → Tab α
  | [] => [(k, x)]
  | (j, y) :: r => if k < j then (k, x) :: (j, y) :: r else if j = k then (k, x) :: r else (j, y) :: tabPut k x r

/-- Removes every entry at key `k`. -/
def tabErase {α : Type} (k : Nat) : Tab α → Tab α
  | [] => []
  | (j, y) :: r => if j = k then tabErase k r else (j, y) :: tabErase k r

/-- Writes `x` at key `k` of a table whose absent keys read `d`: the value `d` is not listed. -/
def tabSet {α : Type} [DecidableEq α] (d : α) (t : Tab α) (k : Nat) (x : α) : Tab α :=
  if x = d then tabErase k t else tabPut k x t

/-- The lowest number below `n` that a table does not list. -/
def tabFree {α : Type} (n : Nat) (t : Tab α) : Option Nat := (List.range n).find? fun k => (tabFind k t).isNone

/-- The table's keys rise strictly. -/
def tabSorted {α : Type} : Tab α → Bool
  | [] => true
  | [_] => true
  | (j, _) :: (k, y) :: r => decide (j < k) && tabSorted ((k, y) :: r)

end Sys2Proof.Machine
end

