-- ==== Sys2Proof/Machine/State.lean ====
section
/-! DEFINITION. The state of a Pyrod package, as plain data: everything that the spec gives the machine (INVENTORY.md,
'## State'), and the state right after reset. Tables list what differs from the default that their reader names. -/

namespace Sys2Proof.Machine

/-! ### The lane pipe: runs, splits, waits -/

/-- The pipes of a lane pipe (R11). -/
inductive Pipe where
  | a | f | m
deriving DecidableEq, Repr

/-- A register result that a word of the current run computed: for the latencies of R29, for y0 and y1 (R33), and for
the old value that a reader in the same bundle sees (R22). Values are by thread; key 32 holds a uniform value. `held`
is the number of the operation that has still to produce the values. -/
structure Producer where
  pipe   : Pipe
  bundle : Nat
  lat    : Option Nat
  dst    : Opnd
  old    : Tab Word
  new    : Tab Word
  held   : Option Nat
deriving DecidableEq, Repr

/-- The run of a split (R25, R34): words issued, the number of the bundle in progress, whether that bundle has
passed the checks of R45, its longest occupancy so far, o0–o7 (key 32 n + t) and the run's results, latest first. -/
structure Run where
  words  : Nat
  bundle : Nat
  checked : Bool
  occ    : Nat
  oregs  : Tab Word
  prods  : List Producer
deriving DecidableEq, Repr

/-- The kind of a call stack entry (R223). A forked entry keeps the base and the stride of the prediction that its FCALL
computed (R240). -/
inductive CallKind where
  | plain
  | trained
  | forked (fork : Nat) (base stride : Word)
deriving DecidableEq, Repr

/-- A call stack entry (R223). -/
structure CallEntry where
  ret  : Word
  kind : CallKind
deriving DecidableEq, Repr

/-- The kind of an access, for faults and permissions (R127, R138). -/
inductive AccKind where
  | load | store | atomic | frd | fwr | fclr | waitm | fetch | pref
deriving DecidableEq, Repr

/-- Where a barrier instance stands (R179, R208): a scope instance of a launch or team, or a level barrier of a team. -/
inductive BarKey where
  | core (launch team id : Nat)
  | quad (launch quad id : Nat)
  | die (launch die id : Nat)
  | pkg (launch id : Nat)
  | pod (job id : Nat)
  | level (launch team lv : Nat)
deriving DecidableEq, Repr

/-- The word of a level barrier generation (R208). -/
inductive BarWhat where
  | barl
  | redl (op : RedOp) (ty : RTy)
deriving DecidableEq, Repr

/-- The barrier that a split waits at with its group (R180, R208): a scope and id, or a level with its word. -/
inductive BarAt where
  | scope (sc : Scope) (id : Nat)
  | level (lv : Nat) (what : BarWhat)
deriving DecidableEq, Repr

/-- Why a split that has begun a word cannot go on. The word repeats its checks when the wait is over. -/
inductive Wait where
  /-- Parked on an untranslated address that was reported to Jalov (R138); `prot` once Jalov resumes it with PROT. -/
  | fault (va : Word) (kind : AccKind) (prot : Bool)
  /-- In the reading room on future words or WAITM checks (R155, R182). -/
  | reading
  /-- On a full send queue or an empty receive queue (R160). -/
  | endpoint (window : Nat)
  /-- For a pending TRB of the named register (R130). -/
  | trb (n : Nat)
  /-- For the group's issued memory words to be performed (R178, R180, R224, R225), counted under a reason. -/
  | performed (reason : Nat)
  /-- For the conflicting call slips of the numbered operations (R172). -/
  | conflict (ops : List Nat)
  /-- For free call slips (R173). -/
  | room (need : Nat)
  /-- For every call slip of the group to drain (R178, R225). -/
  | drain
  /-- For the array claim (R244). -/
  | claim
  /-- For an engine unit or queue (R245, R292). -/
  | engine
  /-- For the group's other splits at a barrier word (R180, R208). -/
  | gather (b : BarAt)
  /-- For a barrier generation (R181). -/
  | barrier (k : BarKey) (gen : Nat)
  /-- At BAR.lane (R181). -/
  | lane
  /-- At a JOIN (R220). -/
  | join
  /-- At a forked RET, for the other splits or for validation (R224). -/
  | ret
  /-- For k completion records (R185). -/
  | events (k : Nat)
  /-- A tender, until validation (R231). -/
  | tender
  /-- For packets closed on a Thedel window to be acknowledged (R178). -/
  | ack
  /-- For the group's outstanding register results, at a .sync word (R351). -/
  | results
  /-- For an absent page of the record area (R378). -/
  | record
  /-- For a fetch block (R215). -/
  | fetch (key : Nat)
  /-- For a rebase to end (R168). -/
  | rebase
  /-- At a phase boundary (R330). -/
  | phase
deriving DecidableEq, Repr

/-- One split of a group (R216). `word` is the word within the packet; `running` says that a run is in progress, and
not running that the split waits to start a run at `pc`. `unfin` is the unfinished mask U of a parked word (R134). Of a
word that waits in several steps, `stage` says how far it is, `await` names the splits whose parked words it waits for,
`vals` holds what it read at issue, and `paid` says that its cycles have passed (R177, R270). -/
structure Split where
  pc      : Word
  word    : Nat
  mask    : Mask
  lc      : Tab Word
  stack   : List CallEntry
  run     : Run
  running : Bool
  wait    : Option Wait
  unfin   : Option Mask
  stage   : Nat
  await   : List Nat
  vals    : Tab Word
  paid    : Bool
deriving DecidableEq, Repr

/-- An entry of the deferral list (R216). -/
structure Deferral where
  pc    : Word
  mask  : Mask
  owner : Nat
  j     : Bool
deriving DecidableEq, Repr

/-! ### Groups -/

/-- A translation register b0–b7 (R128); `base` is the whole value that a TRB wrote (R130; DEDUCED, log 52). -/
structure TReg where
  v    : Bool
  mt   : BitVec 2
  rd   : Bool
  wr   : Bool
  base : Word
  psz  : BitVec 2
  pa   : BitVec 52
deriving DecidableEq, Repr

/-- What an issued, not yet performed access writes (R134, R148). -/
inductive StoreOp where
  | plain (x : Word)
  | rmw (op : Nat) (v w : Word)
  | fwr (x : Word)
  | fclr
deriving DecidableEq, Repr

/-- An access that a group issued and that is not yet performed (R165); `loc` is a key of `State.mem`. -/
structure PendAcc where
  va  : Word
  loc : Nat
  n   : Nat
  op  : StoreOp
deriving DecidableEq, Repr

/-- Where an outstanding result comes from: it may be written at any time; the lane pipe's divider writes it (R56); or
its unit has not produced it yet (R282, R362). -/
inductive ResSrc where
  | var
  | div
  | held (op : Nat)
deriving DecidableEq, Repr

/-- An outstanding variable-latency result (R28, R379): its split, destination, values by thread, and whether a later word of the
run wrote the destination, so that the result is discarded (R32). Those of `redl` outlast a phase boundary (R331). -/
structure Result where
  split : Nat
  dst   : Opnd
  vals  : Tab Word
  dead  : Bool
  src   : ResSrc
  redl  : Bool
deriving DecidableEq, Repr

/-- A TRB that is not yet complete (R130): the register and the value written. -/
structure TrbPend where
  n : Fin 8
  a : Word
  g : BitVec 32
deriving DecidableEq, Repr

/-- A tracked line or row of a tender (R230): the virtual unit, the key of the line or row, its W, and after how many of the
held stores its first and its last load come (R175). -/
structure Tracked where
  va    : Nat
  loc   : Nat
  w     : Nat
  first : Nat
  last  : Nat
deriving DecidableEq, Repr

/-- What a group that runs as a tender holds (R229, R230): its fork slot, the caller's slot, the number of the core's next
operation at the fork, the register count n, the v registers written since the fork (key 32 r + t), the tracked lines and
rows and the hold, whose entries keep program order. -/
structure Tender where
  fork    : Nat
  caller  : Nat
  nextOp  : Nat
  n       : Nat
  mask    : Mask
  base    : Word
  stride  : Word
  written : Tab Bool
  tracked : List Tracked
  hold    : List PendAcc
deriving DecidableEq, Repr

/-- A trap record (R347). -/
structure TrapRec where
  cause : BitVec 8
  kind  : BitVec 2
  split : BitVec 2
  word  : BitVec 2
  code  : BitVec 14
  pc    : Word
  addr  : Word
deriving DecidableEq, Repr

/-- The words F0 and F1 of a format block (R253). -/
structure FmtRec where
  f0 : Word
  f1 : Word
deriving DecidableEq, Repr

/-- Where a group that is placed comes from: its team starts, resumes at a phase boundary (R331), or was saved whole
(R333). -/
inductive Origin where
  | fresh | phase | whole
deriving DecidableEq, Repr

/-- A resident group or a tender (R10, R199). `saveAt` is the cycle in which the saving of its team at a phase boundary ends, 0
while none is under way (R331); `wrote` lists, by fork slot, the keys of the lines and rows that the group has written since the
fork of a tender of its own (R233); `stepDue` says that the bundle which ended with a WATCH is still to be followed by
its STEP (R361). -/
structure Group where
  launch   : Nat
  part     : Nat
  stream   : Nat
  lseq     : Nat
  team     : Nat
  gnum     : Nat
  pipe     : Nat
  valloc   : Nat
  debug    : Bool
  isTender : Option Tender
  -- registers (R35): v at key 32 n + t, g at key n, p as masks
  vregs    : Tab Word
  gregs    : Tab Word
  pregs    : Tab Mask
  tregs    : Tab TReg
  fstat    : BitVec 13
  trrec    : TrapRec
  gdbg     : BitVec 2
  -- control
  splits   : Tab Split
  defers   : List Deferral
  last     : Nat
  stopped  : Bool
  origin   : Origin
  started  : Bool
  hold     : Nat
  saveAt   : Nat
  -- outstanding work
  results  : List Result
  pend     : List PendAcc
  trbs     : List TrbPend
  fmt      : Option (Fin 32)
  engFlags : BitVec 5
  infeas   : Bool
  copyErr  : Option (BitVec 8 × Word)
  arrived  : List (BarKey × Nat)
  acks     : List (Nat × Word)
  watch    : Option Word
  stepDue  : Bool
  redl     : Option (Tab Word)
  wrote    : List (Nat × Nat)
  -- counters (R351, R355)
  stalls   : Tab Word
  gissue   : Word
  gwords   : Word
  tstart   : Word
deriving DecidableEq, Repr

/-! ### The core -/

/-- A line in an L1 (R165): its bytes at the time of the copy (keys are physical addresses), W and the lease end E. -/
structure L1Line where
  data : Tab Byte
  w    : Nat
  e    : Nat
deriving DecidableEq, Repr

/-- A TLB entry (R132): partition, page size code, virtual and physical page base and attributes. -/
structure TlbEntry where
  part : Nat
  psz  : BitVec 2
  va   : Nat
  pa   : Nat
  mt   : BitVec 2
  r    : Bool
  w    : Bool
  x    : Bool
deriving DecidableEq, Repr

/-- A page walk whose fill is still to come (R133): the generation G it recorded and the entry it read. -/
structure Walk where
  part  : Nat
  g     : BitVec 32
  entry : TlbEntry
deriving DecidableEq, Repr

/-- A reading-room entry (R155, R160): slot, split, 8-byte word or window (a key of `State.mem`), waiting threads. -/
structure Waiter where
  slot  : Nat
  split : Nat
  loc   : Nat
  mask  : Mask
  futur : Bool
deriving DecidableEq, Repr

/-- A 64-bit completion record and its group (R184). -/
structure EvRec where
  slot : Nat
  word : Word
deriving DecidableEq, Repr

/-- The range of a call slip (R172): bytes [lo, hi); accumulator tiles; planes (bit 0 front, 1 back); plan registers
(bits: mrow, mcol, srow, scol); PLANST. -/
inductive Range where
  | mem (lo hi : Nat)
  | scr (lo hi : Nat)
  | acc (mask : BitVec 4)
  | plane (mask : BitVec 2)
  | preg (mask : BitVec 4)
  | planst
deriving DecidableEq, Repr

/-- A call slip (R172): its group, the number of its operation, its range and whether it is written. -/
structure Slip where
  slot  : Nat
  op    : Nat
  range : Range
  wr    : Bool
deriving DecidableEq, Repr

/-- An entry of the return predictor (R238). -/
structure PredEntry where
  tag    : Option Word
  base   : Word
  stride : Word
  conf   : Nat
deriving DecidableEq, Repr

/-- An operation of the matrix array (R245, R255, R277) with the operands that its word read at issue. -/
inductive ArrOp where
  | wld (img scale : Word)
  | wswp
  | accz (mask : BitVec 4)
  | mma (a b c : Word) (f : FmtRec)
  | accout (a b c : Word) (f : FmtRec)
  | accin (a b c : Word)
  | mmt (ds : List Word) (f : FmtRec)
  | pld (a : Word)
  | pcost (a b : Word)
  | pregIn (scl col : Bool) (vals : Tab Word)
  | pregOut (scl col : Bool)
  | balance (a b : Word)
  | ppart (row : Bool) (a : Word)
  | pout (a b c : Word)
  | pdist (a b : Word)
  | pstat
deriving DecidableEq, Repr

/-- A queued or running array operation: its number, group, unit, start and the cycle of the start, of an MMA the rows
admitted and done, and whether it is a step of an MMT. -/
structure ArrJob where
  op      : Nat
  slot    : Nat
  unit    : AUnit
  what    : ArrOp
  running : Bool
  since   : Word
  granted : Nat
  rows    : Nat
  mmt     : Bool
deriving DecidableEq, Repr

/-- The MMT that the sequencer runs (R264): its number, group, descriptor and format block, the steps fed into their
units and completed, and the STATUS of its record. -/
structure MmtRun where
  op     : Nat
  slot   : Nat
  ds     : List Word
  f      : FmtRec
  fed    : Nat
  done   : Nat
  status : BitVec 8
deriving DecidableEq, Repr

/-- The matrix array of a core (R243, R244, R272). Planes hold 16-bit cells (key 64 r + c), scale stores bytes,
accumulators FP32 words (key 4096 tile + 64 r + c), plan registers FP32 words. `steps` counts the completed steps of the
running or most recent MMT. -/
structure MArray where
  claim  : Option (Nat × Nat)
  front  : Tab (BitVec 16)
  back   : Tab (BitVec 16)
  fscale : Tab Byte
  bscale : Tab Byte
  acc    : Tab (BitVec 32)
  dph    : BitVec 6
  mrow   : Tab (BitVec 32)
  mcol   : Tab (BitVec 32)
  srow   : Tab (BitVec 32)
  scol   : Tab (BitVec 32)
  planst : Word
  fmtb   : FmtRec
  jobs   : List ArrJob
  mmt    : Option MmtRun
  steps  : Nat
  -- the slew governor's view of this array (R266, R269)
  rate   : Nat
  down   : Bool
  wait   : Word
  short  : Word
  fill   : Word
deriving DecidableEq, Repr

/-- What a copy operation does (R294–R299). -/
inductive CopyOp where
  | cpy (src dst ctl : Word)
  | cpy2d (ds : List Word)
  | gth (ds : List Word)
  | sct (ds : List Word)
  | cpyr (src dst ctl : Word)
deriving DecidableEq, Repr

/-- A queued or running copy operation (R292); `fault` is the absent address it waits on (R300). Of a copy at an endpoint
(R304): the base of the send window into which it has begun to enqueue, the words read and not yet enqueued, and the number
of words moved. -/
structure CopyJob where
  op      : Nat
  slot    : Nat
  what    : CopyOp
  running : Bool
  fault   : Option Word
  win     : Option Nat
  words   : List Word
  moved   : Nat
deriving DecidableEq, Repr

/-- A running SELFTEST (R362): its group, the number of its result, its pattern. -/
structure SelfRun where
  slot    : Nat
  op      : Nat
  pattern : Nat
deriving DecidableEq, Repr

/-- What a retired team has freed and no team may use before a cycle (R329): group slots, register granules, scratchpad
granules. -/
structure Freed where
  until' : Nat
  slots  : List Nat
  vgran  : Nat
  grans  : List Nat
deriving DecidableEq, Repr

/-- A compute core (R10). -/
structure Core where
  tc       : Nat
  slots    : Tab Group
  -- lane pipes (R28): group and split that run, last group
  running  : Tab (Nat × Nat)
  lastGrp  : Tab Nat
  yielded  : Tab (List Nat)
  l1       : Tab L1Line
  tlb      : List TlbEntry
  walks    : List Walk
  icache   : Tab Bool
  icmiss   : List Nat
  granules : Tab (Nat × Nat)
  vgran    : Nat
  freed    : List Freed
  slips    : List Slip
  nextOp   : Nat
  events   : List EvRec
  waiting  : List EvRec
  room     : List Waiter
  pred     : Tab PredEntry
  forks    : Tab Nat
  array    : MArray
  copies   : List CopyJob
  cwords   : Tab Word
  l1miss   : Word
  self     : List SelfRun
deriving DecidableEq, Repr

/-- A quad (R9, R15): its owner partition, its TLB, and the cycle of its slew governor's next step (R266). -/
structure Quad where
  owner : Option Nat
  tlb   : List TlbEntry
  govAt : Nat
deriving DecidableEq, Repr

/-! ### Streams, launches, partitions -/

/-- A fetched packet of a launch stream (R318): its address, its words, none where the fetch met a cause of R313, and the
number of buffers around it. -/
structure Fetched where
  va    : Word
  words : List Word
  depth : Nat
deriving DecidableEq, Repr

/-- A place in an indirect buffer (R319): the address of its next packet, the packets left, this one included, and the
depth of its packets. -/
structure BufAt where
  va    : Word
  left  : Nat
  depth : Nat
deriving DecidableEq, Repr

/-- Waiting teams of a launch: n of them from number `first` on (R329). -/
structure TeamRange where
  launch : Nat
  first  : Nat
  n      : Nat
deriving DecidableEq, Repr

/-- A launch stream (R311): its registers; the window of fetched packets, the one in execution first; the fetch position
(ring index and open buffers, innermost first); the buffers open in execution; a LOOP's body packet and repetitions left
(R321); packets still to be skipped (R320); the absent address that its front end waits for, and whether a fetch met it;
the launch number (R345); the queue of waiting teams (R329); and the streams that are still to be served before this one,
whose launch was pre-empted, is served again (R338). -/
structure Stream where
  base    : Word
  en      : Bool
  die     : Nat
  log2n   : Nat
  head    : BitVec 32
  tail    : BitVec 32
  errCode : BitVec 4
  errVa   : Word
  sqpid   : Word
  window  : List Fetched
  fring   : BitVec 32
  fbufs   : List BufAt
  xbufs   : List BufAt
  loop    : Option (Nat × Nat)
  skip    : Nat
  wait    : Option (Word × Bool)
  launchNo : BitVec 14
  teams   : List TeamRange
  held    : List StreamId
deriving DecidableEq, Repr

/-- What the phase record of a group holds (R331, R333), the completion records of a team that was saved whole, and the
cycle in which the group was saved. -/
structure GroupRec where
  gnum : Nat
  grp  : Group
  recs : List Word
  at'  : Word
deriving DecidableEq, Repr

/-- A write to the record area that the Pyrod makes on a launch's behalf (R324, R378): bytes at an offset, an
appended item, n completions, a pre-emption with its NEXT. -/
inductive RecOp where
  | put (off : Nat) (bytes : List Byte)
  | append (bytes : List Byte)
  | done (n : Nat)
  | preempt (next : Nat)
deriving DecidableEq, Repr

/-- A team's record: whether it was saved whole (R333), its logical time, its groups, the array state of a forced MMT
stop (R265), the scratchpad bytes of a team saved whole by offset in its allocation, the lowest granule that it was saved
from, and the bytes of the record's memory after the save (R332). -/
structure TeamRec where
  team   : Nat
  whole  : Bool
  time   : Nat
  groups : List GroupRec
  array  : Option MArray
  scr    : Tab Byte
  base   : Nat
  image  : Tab Byte
deriving DecidableEq, Repr

/-- A launch (R191–R201, R323–R326, R338): header, mapping, record area, slice and progress. `retiredAt` is the cycle of
the last retirement; `msi` says that step 5 of R326 is still to come; `recProt` lists the 64 KiB blocks of the record area whose
faults Jalov has resumed with PROT (R378). -/
structure Launch where
  part    : Nat
  stream  : Nat
  lseq    : Nat
  irq     : Bool
  text    : Word
  data    : Word
  recArea : Word
  rsize   : Nat
  phaseA  : Word
  slice   : Nat
  debug   : Bool
  pid     : Word
  mapl    : List (Word × Word)
  mapg    : Word
  nlev    : Nat
  valloc  : Nat
  scrg    : Nat
  phased  : Bool
  carry   : Word
  entry   : Word
  teams   : Nat
  groups  : Nat
  lanes   : Nat
  retired : Nat
  retiredAt : Word
  status  : Nat
  sliceT  : Option Nat
  preempted : Bool
  msi     : Bool
  records : List TeamRec
  recPend : List RecOp
  recProt : List Nat
deriving DecidableEq, Repr

/-- Budget registers of one resource (R335). -/
structure Budget where
  cfg  : Word
  bal  : BitVec 32
  debt : BitVec 32
deriving DecidableEq, Repr

/-- A partition (R15, R346): its system registers, L2EVICT by die (R351), the cycle up to which it was not starved
(R189), and whether STARVE has been raised since its last wake (R190). -/
structure Part where
  ptroot  : Word
  sdbase  : Word
  sdlen   : Word
  gen     : BitVec 32
  ack     : Bool
  lease   : BitVec 8
  starvint : BitVec 32
  pcfg    : BitVec 2
  dbgctl  : BitVec 2
  hwbase  : Word
  ibp     : Tab Word
  wpa     : Tab Word
  wpc     : Tab Word
  budgets : Tab Budget
  streams : Tab Stream
  l2evict : Tab Word
  starveAt : Word
  starving : Bool
deriving DecidableEq, Repr

/-! ### Queues, links, host, platform -/

/-- A packet of an endpoint queue (R158, R159): its words and its truncation mark. -/
structure Packet where
  words : List Word
  trunc : Bool
deriving DecidableEq, Repr

/-- An on-chip endpoint queue (R303): closed packets, oldest first, and the packet being built. -/
structure Queue where
  closed : List Packet
  opened : List Word
deriving DecidableEq, Repr

/-- A packet closed on a Thedel window and not yet acknowledged (R178, R307): its number on the port, the partition that
sent it, its lane. -/
structure Sent where
  id  : Nat
  part : Nat
  vl  : Nat
  pkt : Packet
deriving DecidableEq, Repr

/-- A Thedel port (R305–R309): LNKST fields, the lanes retired, the partition served last (R337), and per virtual lane the packet being built, the words of
the send buffer while the lane is stopped, the stopped mark, the receive buffer and whether this receiver has sent STOP. -/
structure Port where
  up     : Bool
  lanes  : BitVec 4
  drop   : Nat
  retry  : Nat
  stops  : Tab Bool
  opened : Tab (List Word)
  buf    : Tab Nat
  sent   : List Sent
  next   : Nat
  rx     : Tab (List Packet)
  rxStop : Tab Bool
  retired : BitVec 4
  failed : Bool
  last   : Nat
deriving DecidableEq, Repr

/-- A buffered line of the host read buffer and the cycle of its load (R187). -/
structure HostLine where
  fn   : Nat
  line : Nat
  data : Tab Byte
  at'  : Word
deriving DecidableEq, Repr

/-- The life-cycle states (R366), with their codes 0 to 3. -/
inductive Life where
  | manufacture | provisioned | deployed | rma
deriving DecidableEq, Repr

/-- What the Pyrod reports to Jalov (R138, R190, R347, R372, R378). -/
inductive Report where
  | fault (part : Nat) (cgid va : Word) (kind : AccKind)
  | trap (part : Nat) (pid cgid : Word) (cause kind : Nat)
  | starve (part : Nat)
  | stream (part stream : Nat)
  | frontEnd (part stream : Nat) (va : Word)
  | recFault (launch : Nat) (va : Word)
  | recDrop (launch : Nat) (cause : Nat)
  | copyFault (cgid : Word) (core op : Nat) (va : Word)
  | error (u : ErrUnit)
deriving DecidableEq, Repr

/-- What the host sees of its accesses (R363, R367). -/
inductive HostAnswer where
  | data (bytes : List Byte)
  | abort
  | unsupported
  | retry
deriving DecidableEq, Repr

/-- A compute die (R9, R375): physical quad of each logical quad, none on a disabled die; spares; the partition and, for
each partition, the stream that its dispatcher served last, and the cycle from which it may place again (R329); the
logical quads that run to retirement. -/
structure Die where
  quads   : Tab Nat
  spares  : List Nat
  lastPart : Nat
  lastStream : Tab Nat
  nextAt  : Nat
  retired : List Nat
deriving DecidableEq, Repr

/-- A margining register of a lane (R373). -/
structure Lmarg where
  err  : BitVec 32
  busy : Bool
  toff : Byte
  voff : Byte
deriving DecidableEq, Repr

/-- An arrival at a barrier instance (R180): its group, the core and its Tc, and the values of a REDL by thread (R207). -/
structure Arrival where
  launch : Nat
  team   : Nat
  gnum   : Nat
  core   : Nat
  tc     : Nat
  vals   : Tab Word
deriving DecidableEq, Repr

/-- A barrier instance (R179): generation, expected count (0 at .core and at levels: the live groups), the word of a
level generation (R208), and the arrivals. -/
structure Barrier where
  gen      : Nat
  expected : Nat
  what     : Option BarWhat
  arrivals : List Arrival
deriving DecidableEq, Repr

/-- The place of a split: core, slot and split number. -/
structure Place where
  core  : Nat
  slot  : Nat
  split : Nat
deriving DecidableEq, Repr

end Sys2Proof.Machine

namespace Sys2Proof.Machine

/-- Why the model stops: a state that no run of the machine reaches. -/
inductive Fault where
  /-- Raised by the meanings of instruction words when `turn` names a split that is not resident; `step` never calls them
  so. Safe: the spec's machine has no such state. -/
  | noSplit
deriving DecidableEq, Repr

/-- What the model refuses to give a meaning. -/
inductive Refusal where
  /-- Raised by the dispatcher's arms of instructions without a meaning yet. Safe: nothing is claimed of them. -/
  | notModelled (mnemonic : String)
  /-- Raised by the meanings of instruction words when no split has the turn to issue; `step` never calls them so.
  Safe: a word has an effect only for the split that issues it. -/
  | noTurn
deriving DecidableEq, Repr

/-- The package. `mem` holds physical bytes below 2^52 and the scratchpads at 2^52 + 2^20 core + offset; an unlisted
byte reads 0. `full` lists the full future words, `poison` the lines with uncorrectable data, `lines` W and L of the
128-byte lines (key: address / 128) and of the 16-byte scratchpad rows (key 2^52 + row). `budAt` and `tokAt` are the last budget
period boundary and launch token tick. `free`, `agenda` and `turn`
are the model's own: a counter for free values, the events to come, and the split that issues next. -/
structure State where
  clock     : Word
  tick      : Nat
  hostTime  : Nat
  hkTime    : Nat
  feTime    : Tab Nat
  held      : Bool
  mem       : List Host.Cell
  full      : Tab Bool
  poison    : Tab Bool
  lines     : Tab (Nat × Nat)
  pools     : Tab Nat
  decoders  : Tab Nat
  deadDies  : List Nat
  lostUnits : List ErrUnit
  withheld  : List (Nat × Nat)
  phyLane   : Option Nat
  cores     : Tab Core
  quads     : Tab Quad
  parts     : Tab Part
  launches  : Tab Launch
  barriers  : List (BarKey × Barrier)
  queues    : Tab Queue
  ports     : Tab Port
  podNum    : Option Nat
  hostBuf   : List HostLine
  msix      : List (Nat × Nat)
  reports   : List Report
  budper    : BitVec 32
  budAt     : Word
  tokAt     : Word
  life      : Life
  entering  : Option Life
  attestKey : Option (List Byte)
  ownerKey  : Option (List Byte)
  vendorKey : List Byte
  serial    : List Byte
  mreg      : Tab (BitVec 256)
  defect    : Tab Byte
  dies      : Tab Die
  ready     : Bool
  vmarg     : Tab (BitVec 8)
  lmarg     : Tab Lmarg
  hot       : Bool
  doeOut    : List (List Byte)
  hostOut   : List HostAnswer
  free      : Nat
  agenda    : List Instr
  turn      : Option Place
deriving DecidableEq, Repr

/-! ### The state after reset -/

/-- A run at its start (R25, R33). -/
def Run.start : Run := { words := 0, bundle := 1, checked := false, occ := 0, oregs := [], prods := [] }

/-- A translation register at group start (R131). -/
def TReg.reset : TReg := { v := false, mt := 0, rd := false, wr := false, base := 0, psz := 0, pa := 0 }

/-- An empty trap record. -/
def TrapRec.reset : TrapRec := { cause := 0, kind := 0, split := 0, word := 0, code := 0, pc := 0, addr := 0 }

/-- The format block of a fresh claim (R253). -/
def FmtRec.reset : FmtRec := { f0 := 0, f1 := 0x3F800000 }

/-- The array at device reset (R244, R272). -/
def MArray.reset : MArray :=
  { claim := none, front := [], back := [], fscale := [], bscale := [], acc := [], dph := 0, mrow := [], mcol := [],
    srow := [], scol := [], planst := 0, fmtb := FmtRec.reset, jobs := [], mmt := none, steps := 0, rate := 0,
    down := false, wait := 0, short := 0, fill := 0 }

/-- A core after the wipe of R366. -/
def Core.reset : Core :=
  { tc := 0, slots := [], running := [], lastGrp := [], yielded := [], l1 := [], tlb := [], walks := [], icache := [],
    icmiss := [], granules := [], vgran := 0, freed := [], slips := [], nextOp := 0, events := [], waiting := [], room := [],
    pred := [], forks := [], array := MArray.reset, copies := [], cwords := [], l1miss := 0, self := [] }

/-- A quad after the wipe of R366. -/
def Quad.reset : Quad := { owner := none, tlb := [], govAt := 0 }

/-- A launch stream at reset (R311). -/
def Stream.reset : Stream :=
  { base := 0, en := false, die := 0, log2n := 0, head := 0, tail := 0, errCode := 0, errVa := 0, sqpid := 0,
    window := [], fring := 0, fbufs := [], xbufs := [], loop := none, skip := 0, wait := none, launchNo := 0, teams := []
    held := [] }

/-- A budget at reset (R335). -/
def Budget.reset : Budget := { cfg := 0, bal := 0, debt := 0 }

/-- A partition's registers at reset (R346, R335, R344, R358–R360). -/
def Part.reset : Part :=
  { ptroot := 0, sdbase := 0, sdlen := 0, gen := 0, ack := true, lease := 16, starvint := 1500000, pcfg := 0,
    dbgctl := 0, hwbase := 0, ibp := [], wpa := [], wpc := [], budgets := [], streams := [], l2evict := [], starveAt := 0
    starving := false }

/-- A queue at reset. -/
def Queue.reset : Queue := { closed := [], opened := [] }

/-- A Thedel port at reset (R309). -/
def Port.reset : Port :=
  { up := false, lanes := 15, drop := 0, retry := 0, stops := [], opened := [], buf := [], sent := [], next := 0, rx := [],
    rxStop := [], retired := 0, failed := false, last := 47 }

/-- A die before the boot ROM has enabled its quads (R363, R375; DESIGN CHOICE, log 24). -/
def Die.reset : Die := { quads := [], spares := [], lastPart := 47, lastStream := [], nextAt := 0, retired := [] }

/-- A margining register at reset (R373). -/
def Lmarg.reset : Lmarg := { err := 0, busy := false, toff := 0, voff := 0 }

/-- A barrier instance when its launch or team begins (R179). -/
def Barrier.reset : Barrier := { gen := 0, expected := 0, what := none, arrivals := [] }

/-- The fused defect map of a package without defects (R374): the CRC-32 of each die's 56 zero bytes is 0xD3C8A549,
of each I/O die's 8 zero bytes 0x6522DF69. DESIGN CHOICE (log 21): the fuses' contents. -/
def defectFree : Tab Byte :=
  [(56, 73#8), (57, 165#8), (58, 200#8), (59, 211#8), (120, 73#8), (121, 165#8), (122, 200#8), (123, 211#8)]
  ++ [(184, 73#8), (185, 165#8), (186, 200#8), (187, 211#8), (248, 73#8), (249, 165#8), (250, 200#8), (251, 211#8)]
  ++ [(312, 73#8), (313, 165#8), (314, 200#8), (315, 211#8), (376, 73#8), (377, 165#8), (378, 200#8), (379, 211#8)]
  ++ [(440, 73#8), (441, 165#8), (442, 200#8), (443, 211#8), (504, 73#8), (505, 165#8), (506, 200#8), (507, 211#8)]
  ++ [(520, 105#8), (521, 223#8), (522, 34#8), (523, 101#8), (536, 105#8), (537, 223#8), (538, 34#8), (539, 101#8)]

/-- The machine right after reset: every byte and register zero (R363, R366) but for the reset values that the register
maps give. Nothing is enabled before the boot ROM has run (DEDUCED, log 1). -/
def State.reset : State :=
  { clock := 0, tick := 0, hostTime := 0, hkTime := 0, feTime := [], held := false, mem := [], full := [],
    poison := [], lines := [], pools := [], decoders := [], deadDies := [], lostUnits := [], withheld := [], phyLane := none, cores := [], quads := [],
    parts := [], launches := [], barriers := [], queues := [], ports := [], podNum := none, hostBuf := [], msix := [], reports := [],
    budper := 15000, budAt := 0, tokAt := 0, life := .manufacture, entering := none, attestKey := none, ownerKey := none,
    vendorKey := List.replicate 32 0, serial := List.replicate 16 0, mreg := [], defect := defectFree, dies := [],
    ready := false, vmarg := [], lmarg := [], hot := false, doeOut := [], hostOut := [], free := 0, agenda := [],
    turn := none }

end Sys2Proof.Machine
end

