-- ==== Sys2Proof/Machine/Operands.lean ====
section
/-! DEFINITION. Operand specifiers (R35–R39): constants, reads of registers with the latency rules of R29–R33, writes of
destinations, and the way in which a word issues. -/

namespace Sys2Proof.Machine

/-- The type to which a word converts a constant operand (R37): integers of n bits, or floats; replicated. -/
inductive Conv where
  | int (n : Nat)
  | flt (t : FTy)
deriving DecidableEq, Repr

/-- The constants of R35 (DEDUCED, log 27). -/
def constVal (i : Fin 8) : Int := [1, 2, 3, 4, 8, 16, 32, -1].getD i.val 0

/-- A constant specifier's value under a conversion (R37). -/
def constWord (c : Conv) (i : Fin 8) : Word :=
  let x := constVal i
  match c with
  | .int n => BitVec.ofNat 64 (packEls n (List.replicate (64 / n) (intBits n x)))
  | .flt t => BitVec.ofNat 64 (packEls (fWidth t) (List.replicate (fLanes t) (roundRne t (x < 0) x.natAbs 0).1))

/-- A uniform source (R39). -/
def isUniform : Opnd → Bool
  | .g _ | .z | .k _ => true
  | .p n => n == 0
  | _ => false

/-- A register whose reads may be outstanding (R31). -/
def isTracked : Opnd → Bool
  | .v _ | .g _ | .o _ => true
  | .p n => n != 0
  | _ => false

/-- The value of thread t in a table by thread; key 32 holds a uniform value. -/
def threadVal (vals : Tab Word) (t : Nat) : Option Word :=
  match tabFind t vals with
  | some x => some x
  | none => tabFind 32 vals

/-- A result of pipe A is far enough behind bundle n for y0 (R33). -/
def y0Ready (n : Nat) (p : Producer) : Bool := p.pipe == .a && p.lat.isSome && decide (p.bundle + 4 ≤ n)

/-- A result of pipe F is far enough behind bundle n for y1 (R33). -/
def y1Ready (n : Nat) (p : Producer) : Bool :=
  p.pipe == .f && (match p.lat with
    | some l => decide (p.bundle + l ≤ n)
    | none => false)

/-- The value that thread t reads from y0 or y1: that of the latest ready result, or 0 (R33). -/
def yVal (ready : Producer → Bool) (r : Run) (t : Nat) : Word :=
  match r.prods.find? ready with
  | some p => (threadVal p.new t).getD 0
  | none => 0

/-- The content of a register, as the words issued so far have written it. -/
def regNow (g : Group) (sp : Split) (c : Conv) (t : Nat) : Opnd → Word
  | .v n => tabGet 0 g.vregs (32 * n.val + t)
  | .g n => tabGet 0 g.gregs n.val
  | .o n => tabGet 0 sp.run.oregs (32 * n.val + t)
  | .y0 => yVal (y0Ready sp.run.bundle) sp.run t
  | .y1 => yVal (y1Ready sp.run.bundle) sp.run t
  | .z => 0
  | .tid => BitVec.ofNat 64 t
  | .rsv _ => 0
  | .p n => if n == 0 then 1 else if (tabGet 0 g.pregs n.val).getLsbD t then 1 else 0
  | .k i => constWord c i

/-- The result is not yet due in bundle n (R29, R31). -/
def isLate (n : Nat) (p : Producer) : Bool :=
  match p.lat with
  | some l => decide (n < p.bundle + l)
  | none => true

/-- A read of the register in the present bundle is outstanding: some producer of an earlier bundle is not yet due
(R31). -/
def isOutstanding (sp : Split) (o : Opnd) : Bool :=
  isTracked o && sp.run.prods.any fun p => p.dst == o && decide (p.bundle < sp.run.bundle) && isLate sp.run.bundle p

/-- The results of earlier bundles that thread t received in a register, latest first. -/
def prodsOf (r : Run) (t : Nat) (o : Opnd) : List Producer :=
  r.prods.filter fun p => p.dst == o && decide (p.bundle < r.bundle) && (threadVal p.old t).isSome

/-- Of results, latest first, those from the earliest one on that is not yet due. -/
def lateProds (n : Nat) (ps : List Producer) : List Producer := (ps.reverse.dropWhile fun p => !isLate n p).reverse

/-- The values that an outstanding read of thread t may return: what the register held before the earliest outstanding
producer, and what that producer and each later one gave. A value that its unit has not produced yet is none of them
(R31; with two producers, and before a value exists: DESIGN CHOICE, log 53). -/
def lateVals (t : Nat) (ps : List Producer) : List Word :=
  (match ps.getLast? with
    | some p => [(threadVal p.old t).getD 0]
    | none => []) ++ ps.filterMap fun p => threadVal p.new t

/-- The content of a register before the present bundle (R22). -/
def regBefore (g : Group) (sp : Split) (c : Conv) (t : Nat) (o : Opnd) : Word :=
  match sp.run.prods.find? fun p => p.dst == o && p.bundle == sp.run.bundle && (threadVal p.old t).isSome with
  | some p => if isTracked o then (threadVal p.old t).getD 0 else regNow g sp c t o
  | none => regNow g sp c t o

/-- What thread t reads from a source operand: the register as it stood before the bundle (R22), or, of an outstanding
read in production mode, the value before the producer or the producer's value (R31; the choice is free, log 6). -/
def readOp (g : Group) (sp : Split) (free : Nat) (c : Conv) (t : Nat) (o : Opnd) : Word :=
  match (if isTracked o then lateVals t (lateProds sp.run.bundle (prodsOf sp.run t o)) else []) with
  | [] => regBefore g sp c t o
  | v :: vs => (v :: vs).getD (Config.outstanding free o.code t % (vs.length + 1)) v

/-- A register that may not be named: a reserved code, or a v register at or above the allocation (R36, R38). -/
def badName (valloc : Nat) : Opnd → Bool
  | .rsv _ => true
  | .v n => decide (valloc ≤ n.val)
  | _ => false

/-- A destination that traps with OPSPEC whatever the issue (R36). -/
def badDst : Opnd → Bool
  | .y0 | .y1 | .tid | .rsv _ | .k _ => true
  | _ => false

/-- How a word issues (R39). -/
inductive IssueMode where
  | uniform
  | perThread
  | opspec
deriving DecidableEq, Repr

/-- The table of R39 for given sources and destination. -/
def issueMode (srcs : List Opnd) (d : Opnd) : IssueMode :=
  if badDst d then .opspec
  else
    let u := srcs.all isUniform
    match d with
    | .g _ => if u then .uniform else .opspec
    | .z => if u then .uniform else .perThread
    | _ => .perThread

/-- Cycles of a word that issues per thread (R39). -/
def perThreadOcc (m : Mask) : Nat := Nat.max 1 m.threads.length

/-- A tender notes which v registers it has written since the fork (R229, R234). -/
def markWritten (g : Group) (key : Nat) : Group :=
  match g.isTender with
  | none => g
  | some td => { g with isTender := some { td with written := tabPut key true td.written } }

/-- Writes one thread's destination: a predicate takes whether the value is non-zero, z and p0 discard (R35). -/
def writeThread (o : Opnd) (x : Word) (t : Nat) (g : Group) (sp : Split) : Group × Split :=
  match o with
  | .v n => (markWritten { g with vregs := tabSet 0 g.vregs (32 * n.val + t) x } (32 * n.val + t), sp)
  | .g n => ({ g with gregs := tabSet 0 g.gregs n.val x }, sp)
  | .o n => (g, { sp with run := { sp.run with oregs := tabSet 0 sp.run.oregs (32 * n.val + t) x } })
  | .p n =>
    if n == 0 then (g, sp)
    else
      let m := tabGet 0 g.pregs n.val
      ({ g with pregs := tabSet 0 g.pregs n.val (if x == 0 then m &&& ~~~(Mask.one t) else m ||| Mask.one t) }, sp)
  | _ => (g, sp)

/-- Writes the destination in every listed thread. -/
def writeAll (o : Opnd) (vals : List (Nat × Word)) (g : Group) (sp : Split) : Group × Split :=
  vals.foldl (fun a p => writeThread o p.2 p.1 a.1 a.2) (g, sp)

/-- The value that a destination holds once `x` is written to it. -/
def dstVal (o : Opnd) (x : Word) : Word :=
  match o with
  | .p _ => if x == 0 then 0 else 1
  | _ => x

/-- The unit's operation that a result without values waits for. -/
def ResSrc.heldOp : ResSrc → Option Nat
  | .held op => some op
  | _ => none

/-- A result without its values for the written keys; it is dead once none is left. -/
def Result.without (r : Result) (keys : List Nat) : Result :=
  let left := if keys.contains 32 then [] else r.vals.filter fun p => !keys.contains p.1
  { r with vals := left, dead := r.dead || left.isEmpty }

/-- A split's earlier results in the register are discarded, for the threads that a later word writes, when they come
(R32). -/
def killResults (split : Nat) (o : Opnd) (keys : List Nat) (rs : List Result) : List Result :=
  rs.map fun r => if r.split == split && r.dst == o then r.without keys else r

/-- A later write of the register finds a variable-latency result of this split outstanding (R32). -/
def writeHazard (split : Nat) (o : Opnd) (rs : List Result) : Bool :=
  isTracked o && rs.any fun r => r.split == split && r.dst == o && !r.dead

end Sys2Proof.Machine
end

