-- ==== Sys2Proof/Machine/Flags.lean ====
section
/-! DEFINITION. FSTAT: sticky flags, their enables, and the FPE check (R81–R83). -/

namespace Sys2Proof.Machine

/-- ORs raised flags into FSTAT[4:0] (R82). A tender's flags stay in its own FSTAT until its commit. -/
def raiseFlags (g : Group) (f : Flags) : Group := { g with fstat := g.fstat ||| f.setWidth 13 }

/-- FSTAT[4:0], the sticky flags. -/
def stickyOf (x : BitVec 13) : Flags := x.extractLsb' 0 5

/-- FSTAT[12:8], the enables. -/
def enablesOf (x : BitVec 13) : BitVec 5 := x.extractLsb' 8 5

/-- (FSTAT[4:0] AND FSTAT[12:8]) ≠ 0: a word that applies the FPE check traps (R83). -/
def fpePending (g : Group) : Bool := (stickyOf g.fstat &&& enablesOf g.fstat) != 0

/-- A write of FSTAT: the enables take the value, a 1 clears its flag, bits 7:5 stay 0 (R81). -/
def writeFstat (old : BitVec 13) (x : Word) : BitVec 13 :=
  x.extractLsb' 8 5 ++ 0#3 ++ (stickyOf old &&& ~~~(x.extractLsb' 0 5))

/-- Flags of integer words: none is raised (R58). -/
def noFlags : Flags := 0

end Sys2Proof.Machine
end

