-- ==== Sys2Proof/Machine/Access.lean ====
section
/-! DEFINITION. The parts of the package in the state: cores, groups, splits, partitions, launches, quads, dies, streams and
budgets, and the reports to Jalov. -/

namespace Sys2Proof.Machine

/-- Core c. -/
def coreOf (s : State) (c : Nat) : Core := tabGet Core.reset s.cores c

/-- Writes core c. -/
def setCore (s : State) (c : Nat) (k : Core) : State := { s with cores := tabPut c k s.cores }

/-- The group in a slot, if one is resident. -/
def groupAt (s : State) (c slot : Nat) : Option Group := tabFind slot (coreOf s c).slots

/-- Writes the group in a slot. -/
def setGroup (s : State) (c slot : Nat) (g : Group) : State :=
  let k := coreOf s c
  setCore s c { k with slots := tabPut slot g k.slots }

/-- Split n of a group. -/
def splitAt (g : Group) (n : Nat) : Option Split := tabFind n g.splits

/-- Writes split n of a group. -/
def setSplit (g : Group) (n : Nat) (sp : Split) : Group := { g with splits := tabPut n sp g.splits }

/-- Writes a split and its group. -/
def store (s : State) (pl : Place) (g : Group) (sp : Split) : State := setGroup s pl.core pl.slot (setSplit g pl.split sp)

/-- Partition p. -/
def partOf (s : State) (p : Nat) : Part := tabGet Part.reset s.parts p

/-- Writes partition p. -/
def setPart (s : State) (p : Nat) (x : Part) : State := { s with parts := tabPut p x s.parts }

/-- The launch a group belongs to. -/
def launchOf (s : State) (n : Nat) : Option Launch := tabFind n s.launches

/-- Writes a launch. -/
def setLaunch (s : State) (n : Nat) (l : Launch) : State := { s with launches := tabPut n l s.launches }

/-- A quad by its number die × 32 + logical quad. -/
def quadOf (s : State) (q : Nat) : Quad := tabGet Quad.reset s.quads q

/-- Writes a quad. -/
def setQuad (s : State) (q : Nat) (x : Quad) : State := { s with quads := tabPut q x s.quads }

/-- Stream q. -/
def streamOf (s : State) (q : StreamId) : Stream := tabGet Stream.reset (partOf s q.part).streams q.num

/-- Writes stream q. -/
def setStream (s : State) (q : StreamId) (x : Stream) : State :=
  let p := partOf s q.part
  setPart s q.part { p with streams := tabPut q.num x p.streams }

/-- Adds a report to Jalov. -/
def report (s : State) (r : Report) : State := { s with reports := s.reports ++ [r] }

/-- The compute group identifier (R345). -/
def cgid (g : Group) : Word :=
  (BitVec.ofNat 6 g.part ++ BitVec.ofNat 4 g.stream ++ BitVec.ofNat 14 g.lseq ++ BitVec.ofNat 24 g.team ++ 0#11
    ++ BitVec.ofNat 5 g.gnum : BitVec 64)

/-- Threads of a group that have not exited (R216, R221). -/
def liveMask (g : Group) : Mask :=
  g.defers.foldl (fun m d => m ||| d.mask) (g.splits.foldl (fun m p => m ||| p.2.mask) 0)

/-- Die d. -/
def dieOf (s : State) (d : Nat) : Die := tabGet Die.reset s.dies d

/-- Writes die d. -/
def setDie (s : State) (d : Nat) (x : Die) : State := { s with dies := tabPut d x s.dies }

/-- Budget registers of a resource: 0 launch, 1 HBM, 2 link. -/
def budgetOf (p : Part) (r : Nat) : Budget := tabGet Budget.reset p.budgets r

end Sys2Proof.Machine
end

