-- ==== Sys2Proof/Machine/Fit.lean ====
section
/-! DEFINITION. Where a waiting team fits, and which team a dispatcher takes next (R327–R329, R337, R338), from the mapping
registers of its launch (R201, R206). -/

namespace Sys2Proof.Machine

/-! ### The mapping registers (R201) -/

/-- MAPL of level n. -/
def maplOf (l : Launch) (n : Nat) : Word × Word := l.mapl.getD n (0, 0)

/-- EXT. -/
def mExt (m : Word × Word) : Nat := (m.1.extractLsb' 32 32).toNat
/-- PAR. -/
def mPar (m : Word × Word) : Nat := (m.1.extractLsb' 8 24).toNat
/-- SHARE. -/
def mShare (m : Word × Word) : Bool := m.1.getLsbD 6
/-- SYNC. -/
def mSync (m : Word × Word) : Bool := m.1.getLsbD 5
/-- KIND: 0 NONE, 1 LANE, 2 GROUP, 3 TEAM. -/
def mKind (m : Word × Word) : Nat := (m.1.extractLsb' 0 2).toNat
/-- SEQ. -/
def mSeq (m : Word × Word) : Nat := (m.2.extractLsb' 32 32).toNat
/-- BUFSZ. -/
def mBuf (m : Word × Word) : Nat := (m.2.extractLsb' 0 32).toNat

/-- The level of a kind from MAPG: 15 if none (R201). -/
def gLaneLv (l : Launch) : Nat := (l.mapg.extractLsb' 4 4).toNat
/-- The GROUP level. -/
def gGroupLv (l : Launch) : Nat := (l.mapg.extractLsb' 8 4).toNat

/-- n(L): instances of the enclosing levels that run at once, for g groups. -/
def bufCount (l : Launch) (groups lv : Nat) : Nat :=
  (if gGroupLv l < lv then groups else 1) * (if gLaneLv l < lv then l.lanes else 1)

/-! ### Where a team fits (R327, R328) -/

/-- Groups bound to a lane pipe. -/
def pipeGroups (k : Core) (p : Nat) : Nat := (k.slots.filter fun x => x.2.pipe == p).length

/-- SG: scratchpad granules of a team of the launch (R206). -/
def launchGranules (l : Launch) : Nat :=
  let shared := (List.range l.nlev).filter fun i => mShare (maplOf l i)
  if shared.isEmpty then l.scrg else l.scrg * (shared.map fun i => bufCount l l.groups i).sum

/-- What retired teams have freed and no team may use yet in a cycle (R329). -/
def cooling (now : Nat) (k : Core) : List Freed := k.freed.filter fun f => decide (now < f.until')

/-- A group slot that a team may take in a cycle. -/
def slotOpen (now : Nat) (k : Core) (i : Nat) : Bool :=
  (tabFind i k.slots).isNone && (cooling now k).all fun f => !f.slots.contains i

/-- A granule that a team may take in a cycle. -/
def granuleOpen (now : Nat) (k : Core) (i : Nat) : Bool :=
  (tabFind i k.granules).isNone && (cooling now k).all fun f => !f.grans.contains i

/-- The lowest run of n granules of a core that a team may take in a cycle. -/
def freeRun (now : Nat) (k : Core) (n : Nat) : Option Nat :=
  (List.range (257 - n)).find? fun i => (List.range n).all fun j => granuleOpen now k (i + j)

/-- The record of a team, if it has one. -/
def recordOf (l : Launch) (team : Nat) : Option TeamRec := l.records.find? fun r => r.team == team

/-- The team's record holds array state (R265). -/
def needsArray (l : Launch) (team : Nat) : Bool :=
  match recordOf l team with
  | some r => r.array.isSome
  | none => false

/-- The core can hold the team in a cycle (R327, R329). -/
def coreFits (now : Nat) (k : Core) (l : Launch) (team : Nat) : Bool :=
  decide (l.groups ≤ ((List.range Config.slots).filter (slotOpen now k)).length)
    && decide (k.vgran + ((cooling now k).map (·.vgran)).sum + l.groups * (l.valloc / 8) ≤ 256)
    && (freeRun now k (launchGranules l)).isSome && (!needsArray l team || k.array.claim.isNone)

/-- The cores of a partition on a die that take teams: those of quads that run to retirement take none (R375). -/
def partCores (s : State) (part d : Nat) : List Nat :=
  (List.range 32).flatMap fun q =>
    if (quadOf s (32 * d + q)).owner = some part ∧ !(dieOf s d).retired.contains q then (List.range 4).map fun i => 4 * (32 * d + q) + i else []

/-- Resident teams of a core. -/
def residentTeams (k : Core) : Nat := ((k.slots.map fun x => (x.2.launch, x.2.team)).eraseDups).length

/-- The core that a die's dispatcher chooses for a team (R328). -/
def chooseCore (s : State) (l : Launch) (team d : Nat) : Option Nat :=
  ((partCores s l.part d).filter fun c => coreFits s.clock.toNat (coreOf s c) l team).foldl
    (fun b c =>
      match b with
      | none => some c
      | some x => if residentTeams (coreOf s c) < residentTeams (coreOf s x) then some c else some x) none

/-! ### Which team goes (R329, R337, R338) -/

/-- The head team of a stream. -/
def headTeam (x : Stream) : Option (Nat × Nat) :=
  match x.teams with
  | t :: _ => some (t.launch, t.first)
  | [] => none

/-- The queue without its head team. -/
def popTeam : List TeamRange → List TeamRange
  | [] => []
  | t :: r => if t.n ≤ 1 then r else { t with first := t.first + 1, n := t.n - 1 } :: r

/-- The head of a stream that may be placed: the stream is not passed over (R338). -/
def openHead (s : State) (q : StreamId) : Option (Nat × Nat × Launch) :=
  let x := streamOf s q
  if !x.held.isEmpty then none
  else
    match headTeam x with
    | none => none
    | some (n, team) => (launchOf s n).map fun l => (n, team, l)

/-- A stream without the stream q among those that are still to be served. -/
def Stream.served (q : StreamId) (x : Stream) : Stream := { x with held := x.held.filter (· != q) }

/-- The stream q has placed a team or emptied its queue: no stream is passed over for it any longer (R338). -/
def serveHeld (s : State) (q : StreamId) : State :=
  let s : State := { s with parts := s.parts.map fun p =>
      (p.1, { p.2 with streams := p.2.streams.map fun x => (x.1, x.2.served q) }) }
  { s with launches := s.launches.map fun x =>
      (x.1, { x.2 with preempted := x.2.preempted && !(streamOf s ⟨x.2.part, x.2.stream⟩).held.isEmpty }) }

/-- A place for the head of a stream on a die: core, launch number, team and launch. -/
def placeOn (s : State) (d : Nat) (q : StreamId) : Option (Nat × Nat × Nat × Launch) :=
  match openHead s q with
  | none => none
  | some (n, team, l) => (chooseCore s l team d).map fun c => (c, n, team, l)

/-- The numbers below n in round-robin order after `last`. -/
def robin (n last : Nat) : List Nat := (List.range n).map fun i => (last + 1 + i) % n

/-- BAL of a partition for launch tokens, signed. -/
def launchBal (s : State) (p : Nat) : Int := (budgetOf (partOf s p) 0).bal.toInt

/-- Tenants in the order of R337. -/
def tenantOrder (s : State) (last : Nat) : List Nat :=
  let ps := robin Config.parts last
  ps.filter (fun p => decide (0 < launchBal s p)) ++ ps.filter fun p => decide (launchBal s p ≤ 0)

/-- What the dispatcher of a die would place next (R329). -/
def wouldPlace (s : State) (d : Nat) : Option (StreamId × Nat × Nat × Nat × Launch) :=
  let x := dieOf s d
  if s.hot || decide (s.clock.toNat < x.nextAt) then none
  else
    (tenantOrder s x.lastPart).findSome? fun p =>
      (robin 16 (tabGet 15 x.lastStream p)).findSome? fun i =>
        (placeOn s d ⟨p, i⟩).map fun r => (⟨p, i⟩, r)

/-- What the dispatcher of a die places next: where the dispatcher of a lower die chooses the same head in this cycle, the
lower die places it first (R329). -/
def nextPlacement (s : State) (d : Nat) : Option (StreamId × Nat × Nat × Nat × Launch) :=
  match wouldPlace s d with
  | none => none
  | some x => if (List.range d).any fun e => ((wouldPlace s e).map (·.1)) == some x.1 then none else some x

/-- The head team of the stream fits on no die (R338). -/
def headStuck (s : State) (q : StreamId) : Bool :=
  match headTeam (streamOf s q) with
  | none => false
  | some (n, team) =>
    match launchOf s n with
    | none => false
    | some l => (List.range Config.dies).all fun d => (chooseCore s l team d).isNone

/-- Every stream that has been written to. -/
def allStreams (s : State) : List StreamId := s.parts.flatMap fun p => p.2.streams.map fun x => ⟨p.1, x.1⟩

/-- The streams of a partition. -/
def partStreams (s : State) (p : Nat) : List StreamId := (partOf s p).streams.map fun x => ⟨p, x.1⟩

/-- A waiting team of the partition can be placed on some die. -/
def canPlace (s : State) (p : Nat) : Bool :=
  (partStreams s p).any fun q => (List.range Config.dies).any fun d => (placeOn s d q).isSome

/-- A page fault of the partition's front ends or record areas is being serviced. -/
def servicing (s : State) (p : Nat) : Bool :=
  (partStreams s p).any (fun q => (streamOf s q).wait.isSome)
    || s.launches.any fun l => l.2.part == p && !l.2.recPend.isEmpty

end Sys2Proof.Machine
end

