-- ==== Sys2Proof/Machine/Budgets.lean ====
section
/-! DEFINITION. Token budgets (R334–R336) and what the passing of time does to a partition's registers. -/

namespace Sys2Proof.Machine

/-! ### One budget (R335, R336) -/

/-- BUDGET. -/
def Budget.amount (b : Budget) : Nat := (b.cfg.extractLsb' 32 32).toNat
/-- REPAY. -/
def Budget.repay (b : Budget) : Nat := (b.cfg.extractLsb' 16 16).toNat
/-- BORROW. -/
def Budget.borrows (b : Budget) : Bool := b.cfg.getLsbD 15
/-- LEND. -/
def Budget.lends (b : Budget) : Bool := b.cfg.getLsbD 14
/-- A lot. -/
def Budget.lot (b : Budget) : Nat := (b.amount + 7) / 8
/-- Charges n tokens. -/
def Budget.charged (b : Budget) (n : Nat) : Budget := { b with bal := b.bal - BitVec.ofNat 32 n }

/-- The refill of a period boundary. -/
def refill (b : Budget) : Budget :=
  let r := Nat.min b.debt.toNat b.repay
  { b with bal := BitVec.ofNat 32 b.amount - BitVec.ofNat 32 r, debt := b.debt - BitVec.ofNat 32 r }

/-! ### Borrowing (R336) -/

/-- The budgets of one resource, by partition. -/
def budgetsOf (s : State) (r : Nat) : Tab Budget := s.parts.map fun p => (p.1, budgetOf p.2 r)

/-- A tenant is idle: for launch tokens it has no waiting team; for link tokens no packet of it waits at a port; whether a
request of it waits at an HBM controller is a free value (log 6). -/
def idleTenant (s : State) (r p : Nat) : Bool :=
  match r with
  | 0 => (partOf s p).streams.all fun x => x.2.teams.isEmpty
  | 1 => Config.hbmIdle s.free s.clock p
  | _ => s.ports.all fun x => x.2.sent.all fun e => e.part != p

/-- The lender of a lot: the lowest idle partition with LEND = 1 and BAL at least one lot. -/
def lender (idle : Nat → Bool) (p lot : Nat) (t : Tab Budget) : Option (Nat × Budget) :=
  t.find? fun x => x.1 != p && x.2.lends && idle x.1 && decide ((lot : Int) ≤ x.2.bal.toInt)

/-- Borrows lots until BAL is above 0 or no tenant lends; `fuel` bounds the lots. -/
def borrow (idle : Nat → Bool) (p : Nat) : Nat → Tab Budget → Tab Budget
  | 0, t => t
  | fuel + 1, t =>
    let b := tabGet Budget.reset t p
    if 0 < b.bal.toInt ∨ !b.borrows ∨ b.lot = 0 then t
    else
      match lender idle p b.lot t with
      | none => t
      | some (x, y) =>
        let n := BitVec.ofNat 32 b.lot
        borrow idle p fuel (tabPut p { b with bal := b.bal + n, debt := b.debt + n } (tabPut x { y with bal := y.bal - n } t))

/-- Borrowing of every tenant: each lot raises its balance by at least 1. Of several borrowers the lowest partition comes first:
R336 orders the lenders alone (DESIGN CHOICE, log 6). -/
def borrowAll (idle : Nat → Bool) (t : Tab Budget) : Tab Budget :=
  t.foldl (fun t p => borrow idle p.1 ((tabGet Budget.reset t p.1).bal.toInt.natAbs + 1) t) t

/-- The budgets of a resource once every tenant that may borrow has borrowed. -/
def settled (s : State) (r : Nat) (t : Tab Budget) : Tab Budget := borrowAll (idleTenant s r) t

/-- Writes the budgets of one resource. -/
def setBudgets (s : State) (r : Nat) (t : Tab Budget) : State :=
  { s with parts := s.parts.map fun p => (p.1, { p.2 with budgets := tabPut r (tabGet Budget.reset t p.1) p.2.budgets }) }

/-- Charges each partition tokens of a resource; then tenants borrow (R336). -/
def chargeAll (s : State) (r : Nat) (n : Nat → Nat) : State :=
  setBudgets s r (settled s r ((budgetsOf s r).map fun b => (b.1, b.2.charged (n b.1))))

/-- Charges one partition. -/
def charge (s : State) (p r n : Nat) : State := if n = 0 then s else chargeAll s r fun x => if x = p then n else 0

/-- PER; 0 acts as 1 (R335). -/
def budgetPer (s : State) : Nat := Nat.max 1 s.budper.toNat

/-- Cycles since a point of the clock. -/
def since (s : State) (t : Word) : Nat := (s.clock - t).toNat

/-! ### Time (R189, R334, R351, R354) -/

/-- The budgets of a resource after some cycles: what the partitions read or wrote at HBM4E meanwhile is charged (R334; a
free value, log 6), and tenants that may borrow do so as soon as a lender has a lot (R336). -/
def budgetsAfter (s : State) (r : Nat) : Tab Budget :=
  settled s r ((budgetsOf s r).map fun b => (b.1, if r = 1 then b.2.charged (Config.hbmTokens s.free s.clock b.1) else b.2))

/-- L2EVICT of a partition on a die after some cycles: its own evictions, and with PCFG.STRICT = 0 those that the fills of
others cause (R351, R354; both numbers are free, log 6). -/
def evictsAfter (s : State) (p : Nat) (x : Part) (d : Nat) : Word :=
  tabGet 0 x.l2evict d + Config.l2Evictions s.free s.clock p d
    + (if x.pcfg.getLsbD 0 then 0 else Config.l2Taken s.free s.clock p d)

/-- A partition's registers after some cycles, `starved` saying that it was starved in them, at the new clock. -/
def partAfter (s : State) (starved : Bool) (clock : Word) (p : Nat) (x : Part) : Part :=
  { x with
    budgets := [(0, tabGet Budget.reset (budgetsAfter s 0) p), (1, tabGet Budget.reset (budgetsAfter s 1) p),
      (2, tabGet Budget.reset (budgetsAfter s 2) p)]
    l2evict := (List.range Config.dies).map fun d => (d, evictsAfter s p x d)
    starveAt := if starved then x.starveAt else clock
    starving := starved && x.starving }

end Sys2Proof.Machine
end

