-- ==== Sys2Proof/Machine/Ops.lean ====
section
/-! DEFINITION. The named operations of the machine: cores, groups and splits in the state, the clock and the counters
(R166, R352, R353), the issue of a word and its end (R24–R28), taking a trap (R347), and the one shape of all words that
compute a register from registers (R59). -/

namespace Sys2Proof.Machine

/-- The three outcomes of a step of this machine. -/
abbrev Out := Host.Outcome State Fault Refusal

/-! ### Waits and counters (R189, R352, R353) -/

/-- The stall-reason counter of a wait (R352). -/
def waitReason : Wait → Nat
  | .fault _ _ _ => 6
  | .reading => 5
  | .endpoint _ => 11
  | .trb _ => 13
  | .performed r => r
  | .conflict _ | .room _ | .drain | .claim | .engine | .events _ => 3
  | .gather _ | .barrier _ _ => 4
  | .lane => 4
  | .join | .ret => 9
  | .tender => 7
  | .ack => 15
  | .results => 0
  | .record => 6
  | .fetch _ => 8
  | .rebase => 15
  | .phase => 12

/-- A wait that leaves its group stalled in the sense of R189. -/
def isStarvedWait : Wait → Bool
  | .reading | .endpoint _ | .gather _ | .lane | .barrier _ _ | .events _ | .claim => true
  | _ => false

/-- Every non-exited split of the group waits as R189 lists. -/
def groupStalled (g : Group) : Bool :=
  !g.stopped && g.splits.all fun p =>
    match p.2.wait with
    | some w => isStarvedWait w
    | none => false

/-- A split is not waiting, or Jalov has resumed it to take PROT at its word (R139). -/
def isFree (sp : Split) : Bool :=
  match sp.wait with
  | none | some (.fault _ _ true) => true
  | _ => false

/-- The group is parked for the split: a result is outstanding, unless the split is in the middle of its run and so is the
split of every outstanding result (R28, R34). -/
def isParked (g : Group) (sp : Split) : Bool :=
  if sp.running then
    g.results.any fun r =>
      match splitAt g r.split with
      | some x => !x.running
      | none => true
  else !g.results.isEmpty

/-- A split may issue: it is not waiting, its group is started, not stopped, and, at a run start, without outstanding
results (R28, R218). -/
def splitReady (clock : Word) (g : Group) (sp : Split) : Bool :=
  isFree sp && !g.stopped && g.started && decide (g.hold ≤ clock.toNat) && !isParked g sp

/-- Split numbers in round-robin order after the one that ran last (R218). -/
def splitOrder (g : Group) : List Nat := (List.range 4).map fun i => (g.last + 1 + i) % 4

/-- The split that R218 would take next. -/
def nextSplit (clock : Word) (g : Group) : Option Nat :=
  (splitOrder g).find? fun n =>
    match splitAt g n with
    | some sp => splitReady clock g sp
    | none => false

/-- A wait for the slips of one of these operations. -/
def waitsFor (ops : List Nat) : Wait → Bool
  | .conflict xs => xs.any fun op => ops.contains op
  | _ => false

/-- The reason that a cycle of a resident group counts for (R353); `busy` says that another group holds its pipe, `grants`
lists the MMAs whose rows wait for a grant of the governor (R267; DESIGN CHOICE, log 19). A group that is placed again counts its
restore (R331, R333). -/
def stallReason (clock : Word) (busy : Bool) (grants : List Nat) (g : Group) : Nat :=
  if !g.started then 12
  else if g.stopped then 15
  else
    match (nextSplit clock g).orElse fun _ => (splitOrder g).find? fun n => (splitAt g n).isSome with
    | some n =>
      match splitAt g n with
      | some sp =>
        match sp.wait with
        | some w => if waitsFor grants w then 10 else waitReason w
        | none => if isParked g sp then 0 else if busy then 1 else 15
      | none => 15
    | none => 15

/-- Adds n cycles to a stall-reason counter. -/
def addStall (g : Group) (r n : Nat) : Group :=
  { g with stalls := tabSet 0 g.stalls r (tabGet 0 g.stalls r + BitVec.ofNat 64 n) }

/-- Rows of an operation that enter the stream: those of an MMA (R257). -/
def opRows : ArrOp → Nat
  | .mma _ b _ _ => (b.extractLsb' 0 6).toNat + 1
  | _ => 0

/-- The operation has started, and rows of it have still to enter. -/
def rowsWait (j : ArrJob) : Bool := j.running && decide (j.granted < opRows j.what)

/-- The operations with rows that wait for a grant of the slew governor: those that have started and whose last row has not
entered, while the array's rate is 0 (R266, R267). -/
def grantWaits (k : Core) : List Nat :=
  if k.array.rate = 0 then (k.array.jobs.filter rowsWait).map (·.op) else []

/-- The cycle from which an array waits for a grant: since then rows have been ready while its rate is 0 (R267). -/
def MArray.req (m : MArray) : Option Word := if m.rate = 0 then (m.jobs.find? rowsWait).map (·.since) else none

/-- Of the next n cycles, those before the group's team has been saved at a phase boundary (R331). -/
def savingIn (clock : Word) (n : Nat) (g : Group) : Nat := if g.saveAt = 0 then n else Nat.min n (g.saveAt - clock.toNat)

/-- Adds n cycles to every resident group of a core from its first start on: to GISSUE of the group that issues, to one
stall-reason counter of every other (R353). -/
def countCycles (clock : Word) (n : Nat) (issuing : Option Nat) (k : Core) : Core :=
  { k with slots := k.slots.map fun p =>
      if !p.2.started && p.2.origin == .fresh then p
      else if issuing == some p.1 then (p.1, { p.2 with gissue := p.2.gissue + BitVec.ofNat 64 n })
      else
        let busy := match tabFind p.2.pipe k.running with
          | some r => r.1 != p.1
          | none => false
        let m := savingIn clock n p.2
        (p.1, addStall (addStall p.2 (stallReason clock busy (grantWaits k) p.2) m) 15 (n - m)) }

/-- The partition holds a resident group, all of its groups are stalled, and no slip of its groups is undrained (R189); a
tender is no resident group (R362). -/
def partStarved (s : State) (p : Nat) : Bool :=
  let mine := fun k : Core => k.slots.filter fun x => x.2.part == p && x.2.isTender.isNone
  (s.cores.any fun c => !(mine c.2).isEmpty)
    && s.cores.all fun c => (mine c.2).all fun x =>
      groupStalled x.2 && !(c.2.slips.any fun y => y.slot == x.1)

/-- Every condition of R189 holds now: no page fault of the partition is being serviced, and no waiting team of it can be
placed. -/
def isStarving (s : State) (p : Nat) : Bool := partStarved s p && !canPlace s p && !servicing s p

/-- Lets n cycles pass: the device clock, the logical times, which advance at each multiple of 16 (R166), the counters,
and the registers of the partitions (R189, R334, R351; DESIGN CHOICE, log 5). -/
def advance (s : State) (n : Nat) (who : Option Place) : State :=
  let clock := s.clock + BitVec.ofNat 64 n
  let ticks := (s.clock.toNat + n) / 16 - s.clock.toNat / 16
  { s with
    clock := clock
    tick := s.tick + ticks
    cores := s.cores.map fun c =>
      (c.1, countCycles s.clock n (match who with
        | some pl => if pl.core == c.1 then some pl.slot else none
        | none => none) c.2)
    parts := s.parts.map fun p => (p.1, partAfter s (isStarving s p.1) clock p.1 p.2) }

/-- Any wake, barrier completion or record post restarts the starvation interval (R189). -/
def restartStarve (s : State) (p : Nat) : State :=
  match tabFind p s.parts with
  | some x => setPart s p { x with starveAt := s.clock, starving := false }
  | none => s

/-- The logical time Tc of a core (R164; DEDUCED, log 46). -/
def coreTime (s : State) (c : Nat) : Nat := s.tick + (coreOf s c).tc

/-- Sets the logical time of a core; it never falls below the common count of ticks (R165, R166). -/
def setCoreTime (s : State) (c t : Nat) : State := setCore s c { coreOf s c with tc := t - s.tick }

/-! ### Releasing the lane pipe, traps -/

/-- The group no longer holds its lane pipe. -/
def releasePipe (k : Core) (slot : Nat) : Core := { k with running := k.running.filter fun r => r.2.1 != slot }

/-- The split gives up its turn and its lane pipe. -/
def release (s : State) (pl : Place) : State :=
  { setCore s pl.core (releasePipe (coreOf s pl.core) pl.slot) with turn := none }

/-- The split waits at its word, which repeats its checks when the wait is over; the lane pipe is released (R177)
(DEDUCED, log 40). -/
def waitAt (s : State) (pl : Place) (g : Group) (sp : Split) (w : Wait) : State :=
  release (store s pl g { sp with wait := some w }) pl

/-- The tenders of the group in a slot (R229). -/
def tendersOf (k : Core) (slot : Nat) : List Nat :=
  (k.slots.filter fun x =>
    match x.2.isTender with
    | some t => t.caller == slot
    | none => false).map (·.1)

/-- Discards the tender in a slot: its slots, register granules and fork slot are freed (R234). -/
def dropTender (k : Core) (slot : Nat) : Core :=
  match tabFind slot k.slots with
  | some x =>
    { releasePipe k slot with
      slots := tabErase slot k.slots
      vgran := k.vgran - x.valloc / 8
      forks := match x.isTender with
        | some t => tabErase t.fork k.forks
        | none => k.forks
      room := k.room.filter fun w => w.slot != slot }
  | none => k

/-- Squashes every tender of a group (R222, R236). -/
def squashTenders (s : State) (c slot : Nat) : State :=
  let k := coreOf s c
  let ts := tendersOf k slot
  let s := setCore s c (ts.foldl dropTender k)
  { s with turn := match s.turn with
      | some pl => if pl.core == c && ts.contains pl.slot then none else some pl
      | none => none }

/-- Stops a group with a trap record: its tenders are squashed, it gives up its lane pipe, and Jalov is told the
partition, the identity of R357, the cause and the kind (R347). Its splits keep their run states (R34, R222). -/
def stopGroup (s : State) (c slot : Nat) (r : TrapRec) : State :=
  let s := squashTenders s c slot
  match groupAt s c slot with
  | none => s
  | some g =>
    let s := setGroup s c slot { g with stopped := true, trrec := r }
    let s := setCore s c (releasePipe (coreOf s c) slot)
    let s := { s with turn := match s.turn with
        | some pl => if pl.core == c && pl.slot == slot then none else some pl
        | none => none }
    let pid := match launchOf s g.launch with
      | some l => l.pid
      | none => 0
    report s (.trap g.part pid (cgid g) r.cause.toNat r.kind.toNat)

/-- TAKING A TRAP at the word where the split stands (R347): a tender stalls until validation and takes none itself
(R231); any other group stops with TRREC0–2 written. The unfinished threads stay as they are, so that a replay runs only
those (R136; DEDUCED, log 54). -/
def trapWith (s : State) (pl : Place) (cause : BitVec 8) (kind : BitVec 2) (code : BitVec 14) (addr : Word) : State :=
  match groupAt s pl.core pl.slot with
  | none => s
  | some g =>
    match splitAt g pl.split with
    | none => s
    | some sp =>
      if g.isTender.isSome then waitAt s pl g sp .tender
      else stopGroup (store s pl g { sp with stage := 0, await := [], paid := false }) pl.core pl.slot
        { cause := cause, kind := kind, split := BitVec.ofNat 2 pl.split, word := BitVec.ofNat 2 sp.word, code := code,
          pc := sp.pc, addr := addr }

/-- The trap causes of R348. -/
inductive Cause where
  | illop | runlen | chain | opspec | partialmask | hazard | priv | align | pagefault | prot | attrsplit | future
  | footprint | fpe | infeas | bkpt | step | watch | starve | deadlock | memerr | linkerr
deriving DecidableEq, Repr

/-- The code of a trap cause (R348). -/
def causeCode : Cause → BitVec 8
  | .illop => 0x01
  | .runlen => 0x02
  | .chain => 0x03
  | .opspec => 0x04
  | .partialmask => 0x05
  | .hazard => 0x06
  | .priv => 0x07
  | .align => 0x10
  | .pagefault => 0x11
  | .prot => 0x12
  | .attrsplit => 0x14
  | .future => 0x15
  | .footprint => 0x18
  | .fpe => 0x20
  | .infeas => 0x22
  | .bkpt => 0x30
  | .step => 0x31
  | .watch => 0x32
  | .starve => 0x40
  | .deadlock => 0x41
  | .memerr => 0x50
  | .linkerr => 0x51

/-- Takes a trap of R348 whose ADDR is `a`. -/
def trapAddr (s : State) (pl : Place) (c : Cause) (a : Word) : State := trapWith s pl (causeCode c) 0 0 a

/-- Takes a trap of R348 without an ADDR. -/
def trap (s : State) (pl : Place) (c : Cause) : State := trapAddr s pl c 0

/-! ### The end of a word -/

/-- The place of the next word: the next word of the packet, or word 0 of the next packet (R26). -/
def nextPos (pc : Word) (word : Nat) : Word × Nat := if word < 2 then (pc, word + 1) else (pc + 1, 0)

/-- Counts one issued word of a partition's group on a core (R351). -/
def countWord (s : State) (c part : Nat) : State :=
  let k := coreOf s c
  setCore s c { k with cwords := tabSet 0 k.cwords part (tabGet 0 k.cwords part + 1) }

/-- The group steps: GDBG.STEP is 1, and it is no tender (R361). -/
def steps (g : Group) : Bool := g.gdbg.getLsbD 0 && g.isTender.isNone

/-- A WATCH that a performed access of the word has matched is taken now (R360); after a whole bundle, STEP (R361), which
after a WATCH is still due when the group resumes. -/
def afterWord (s : State) (pl : Place) (bundleDone : Bool) : State :=
  match groupAt s pl.core pl.slot with
  | none => s
  | some g =>
    match g.watch with
    | some a =>
      trapAddr (setGroup s pl.core pl.slot { g with watch := none, stepDue := bundleDone && steps g }) pl .watch a
    | none => if bundleDone && steps g then trap s pl .step else s

/-- The run's record of an issued word. -/
def bump (r : Run) (occ : Nat) : Run := { r with words := r.words + 1, occ := Nat.max r.occ occ }

/-- The split is done with its word: no wait, no unfinished threads, nothing held from its issue. -/
def Split.done (sp : Split) : Split :=
  { sp with wait := none, unfin := none, stage := 0, await := [], vals := [], paid := false }

/-- The cycles that a barrier word still has to occupy at its end: none if they have passed (R177, R270). -/
def Split.owes (sp : Split) (occ : Nat) : Nat := if sp.paid then 0 else occ

/-- Ends a word that is no control transfer: with C = 1 the bundle goes on (R22); otherwise the bundle occupies the
pipe for its longest occupancy (R24), and with S = 1 the run ends and the group releases the pipe (R25, R28). -/
def finish (s : State) (pl : Place) (g : Group) (sp : Split) (h : Hd) (occ : Nat) : State :=
  let g := { g with gwords := g.gwords + 1 }
  let r := bump sp.run occ
  let (pc, w) := nextPos sp.pc sp.word
  let sp := sp.done
  if h.c then
    afterWord (countWord (store s pl g { sp with pc := pc, word := w, run := { r with checked := true } }) pl.core g.part)
      pl false
  else
    let sp :=
      if h.s then { sp with pc := pc, word := w, run := Run.start, running := false }
      else { sp with pc := pc, word := w, run := { r with bundle := r.bundle + 1, checked := false, occ := 0 } }
    let s := countWord (store s pl g sp) pl.core g.part
    let s := advance s r.occ (some pl)
    afterWord (if h.s then release s pl else s) pl true

/-- A barrier word begins to wait: its cycles pass as it issues, and when the wait ends the next word follows at once (R177,
R270). -/
def waitIssued (s : State) (pl : Place) (g : Group) (sp : Split) (occ : Nat) (w : Wait) : State :=
  if sp.paid then waitAt s pl g sp w
  else
    let sp' := { sp with wait := some w, run := { sp.run with occ := 0 }, paid := true }
    release (advance (store s pl g sp') (Nat.max sp.run.occ occ) (some pl)) pl

/-- Ends a control-transfer word: the split stands at a run start at `pc` (R25, R26). -/
def finishAt (s : State) (pl : Place) (g : Group) (sp : Split) (occ : Nat) (pc : Word) : State :=
  let g := { g with gwords := g.gwords + 1 }
  let r := bump sp.run occ
  let sp := { sp.done with pc := pc, word := 0, run := Run.start, running := false }
  let s := countWord (store s pl g sp) pl.core g.part
  afterWord (release (advance s r.occ (some pl)) pl) pl true

/-! ### Issuing a word -/

/-- Runs a meaning for the split that has the turn. -/
def issue (s : State) (k : Place → Group → Split → Out) : Out :=
  match s.turn with
  | none => .refused .noTurn
  | some pl =>
    match groupAt s pl.core pl.slot with
    | none => .fault .noSplit
    | some g =>
      match splitAt g pl.split with
      | none => .fault .noSplit
      | some sp => k pl g sp

/-- The register operands of a word: sources with the types to which constants convert, and the destination. A word
without a third source names z. `div` says that the lane pipe's divider computes the result
(R56). -/
structure RegWord where
  pipe : Pipe
  lat  : Option Nat
  d    : Opnd
  a    : Opnd × Conv
  b    : Opnd × Conv
  w    : Opnd × Conv
  div  : Bool
deriving DecidableEq, Repr

/-- The sources of a word. -/
def RegWord.srcs (r : RegWord) : List Opnd := [r.a.1, r.b.1, r.w.1]

/-- OPSPEC for the names of a word: R36 and R38. -/
def namesBad (g : Group) (os : List Opnd) : Bool := os.any (badName g.valloc)

/-- HAZARD: in debug mode a source is outstanding, or a destination has a variable-latency result outstanding
(R31, R32). -/
def hazard (g : Group) (sp : Split) (split : Nat) (srcs dsts : List Opnd) : Bool :=
  g.debug && (srcs.any (isOutstanding sp) || dsts.any fun o => writeHazard split o g.results)

/-- A tender reads a v register at or above its register count that it has not written since the fork (R229). -/
def tenderNeeds (g : Group) (sp : Split) (srcs : List Opnd) : Bool :=
  match g.isTender with
  | none => false
  | some td => srcs.any fun o =>
      match o with
      | .v n => decide (td.n ≤ n.val) && sp.mask.threads.any fun t => !(tabGet false td.written (32 * n.val + t))
      | _ => false

/-- The values of a word by thread: one entry at key 32 under uniform issue, else one for each active thread. -/
def threadKeys (mode : IssueMode) (m : Mask) : List Nat := if mode = .uniform then [32] else m.threads

/-- Records a result for y0, y1 and the latencies (R29–R33). -/
def addProd (sp : Split) (p : Producer) : Split := { sp with run := { sp.run with prods := p :: sp.run.prods } }

/-- Delivers register values: a fixed-latency result is written at once and recorded with the old values; a result of
variable latency becomes outstanding (R28, R379) unless the destination discards it. -/
def deliver (g : Group) (sp : Split) (split : Nat) (pipe : Pipe) (lat : Option Nat) (src : ResSrc) (d : Opnd)
    (vals : List (Nat × Word)) : Group × Split :=
  let old : Tab Word := vals.map fun p => (p.1, regNow g sp (.int 64) p.1 d)
  let new : Tab Word :=
    match src with
    | .held _ => []
    | _ => vals.map fun p => (p.1, dstVal d p.2)
  let g := { g with results := killResults split d (vals.map (·.1)) g.results }
  let sp' := addProd sp { pipe := pipe, bundle := sp.run.bundle, lat := lat, dst := d, old := old, new := new, held := src.heldOp }
  match lat with
  | some _ => writeAll d vals g sp'
  | none =>
    if isTracked d then
      ({ g with results := g.results ++ [{ split := split, dst := d, vals := vals, dead := false, src := src, redl := false }] }, sp')
    else (g, sp)

/-- THE SHAPE OF EVERY WORD THAT COMPUTES A REGISTER FROM REGISTERS (R59): the traps of R45, one computation under
uniform issue or one for each active thread, flags, the result, and the end of the word. `f` takes the thread number and
the three sources. -/
def regWord (s : State) (h : Hd) (r : RegWord) (f : Nat → Word → Word → Word → Word × Flags) : Out :=
  issue s fun pl g sp =>
    let mode := issueMode r.srcs r.d
    if mode = .opspec || namesBad g (r.d :: r.srcs) then .next (trap s pl .opspec)
    else if hazard g sp pl.split r.srcs [r.d] then .next (trap s pl .hazard)
    else if tenderNeeds g sp r.srcs then .next (waitAt s pl g sp .tender)
    else
      let free := s.free
      let outs := (threadKeys mode sp.mask).map fun t =>
        let th := if t = 32 then 0 else t
        (t, f th (readOp g sp free r.a.2 t r.a.1) (readOp g sp free r.b.2 t r.b.1) (readOp g sp free r.w.2 t r.w.1))
      let g := raiseFlags g (outs.foldl (fun a o => a ||| o.2.2) 0)
      let (g, sp) := deliver g sp pl.split r.pipe r.lat (if r.div then .div else .var) r.d (outs.map fun o => (o.1, o.2.1))
      .next (finish { s with free := s.free + 1 } pl g sp h (if mode = .uniform then 1 else perThreadOcc sp.mask))

end Sys2Proof.Machine
end

