-- ==== Sys2Proof/Machine/Int.lean ====
section
/-! DEFINITION. Integer, address and uniform words, majors 0x00 to 0x0F (R55–R71). Each f is the table's, modulo 2^64; none
raises a flag. -/

namespace Sys2Proof.Machine

/-- An A-pipe word of latency 4 with 64-bit sources a and b and no third source (R55, R59). -/
def intWord (d a b : Opnd) : RegWord :=
  { pipe := .a, lat := some 4, d := d, a := (a, .int 64), b := (b, .int 64), w := (.z, .int 64), div := false }

/-- Lifts an integer f to a result without flags. -/
def pure2 (f : Word → Word → Word) : Nat → Word → Word → Word → Word × Flags := fun _ x y _ => (f x y, noFlags)

/-- A two-operand integer word (R60). -/
def int2 (s : State) (h : Hd) (d a b : Opnd) (f : Word → Word → Word) : Out := regWord s h (intWord d a b) (pure2 f)

/-- A word that also reads d (R59). -/
def int3 (s : State) (h : Hd) (d a b : Opnd) (f : Word → Word → Word → Word) : Out :=
  regWord s h { intWord d a b with w := (d, .int 64) } (fun _ x y w => (f x y w, noFlags))

/-- A one-operand integer word (R65). -/
def int1 (s : State) (h : Hd) (d a : Opnd) (f : Word → Word) : Out := int2 s h d a .z (fun x _ => f x)

/-- The amount y[5:0] of a shift or rotate (R60). -/
def amount (y : Word) : Nat := (y.extractLsb' 0 6).toNat

/-- The smaller or larger of two values in a given order. -/
def pick (lt : Bool) (x y : Word) : Word := if lt then x else y

/-- The low 32 bits. -/
def lo32 (x : Word) : BitVec 32 := x.setWidth 32

/-- sext(result, 32) (R62). -/
def sx32 (x : BitVec 32) : Word := x.signExtend 64

/-- Leading zeros (R65). -/
def clz64 (x : Word) : Nat := 64 - bitLen x.toNat

/-- Trailing zeros, counted from bit i on for n bits (R65). -/
def ctzFrom (x : Word) : Nat → Nat → Nat
  | 0, _ => 0
  | n + 1, i => if x.getLsbD i then 0 else 1 + ctzFrom x n (i + 1)

/-- Bits that are 1 (R65). -/
def popc64 (x : Word) : Nat := ((List.range 64).filter fun i => x.getLsbD i).length

/-- MULH: bits 127:64 of the signed product (R60). -/
def mulhs (x y : Word) : Word := ((x.signExtend 128 * y.signExtend 128).extractLsb' 64 64)

/-- MULHU: bits 127:64 of the unsigned product (R60). -/
def mulhuW (x y : Word) : Word := ((x.setWidth 128 * y.setWidth 128).extractLsb' 64 64)

/-- DIV, rounded towards zero, with the fixed results of R61. -/
def divS (x y : Word) : Word := if y = 0 then BitVec.allOnes 64 else x.sdiv y

/-- REM: the sign of the dividend, with the fixed results of R61. -/
def remS (x y : Word) : Word := if y = 0 then x else x.srem y

/-- DIVU (R61). -/
def divU (x y : Word) : Word := if y = 0 then BitVec.allOnes 64 else x / y

/-- REMU (R61). -/
def remU (x y : Word) : Word := if y = 0 then x else x % y

/-- pos, the low bit of a field (R68). -/
def fieldPos (y : Word) : Nat := (y.extractLsb' 0 6).toNat

/-- wd = min(len, 64 − pos) (R68). -/
def fieldWd (y : Word) : Nat := Nat.min (y.extractLsb' 8 7).toNat (64 - fieldPos y)

/-- A mask of the low n bits. -/
def lowMask (n : Nat) : Word := BitVec.ofNat 64 (2 ^ n - 1)

/-- BFX.z (R68). -/
def bfxz (x y : Word) : Word := (x >>> fieldPos y) &&& lowMask (fieldWd y)

/-- BFX.s: sign-extended from the field's top bit (R68). -/
def bfxs (x y : Word) : Word :=
  let n := fieldWd y
  let f := bfxz x y
  if n ≠ 0 && f.getLsbD (n - 1) then f ||| ~~~(lowMask n) else f

/-- BFI (R68). -/
def bfiW (x y w : Word) : Word :=
  let m := lowMask (fieldWd y) <<< fieldPos y
  (w &&& ~~~m) ||| ((x <<< fieldPos y) &&& m)

/-- The factor s of LEA (R69). -/
def scaleOf (sc : BitVec 2) (y : Word) : Word := y <<< sc.toNat

/-- Bits of a packed type (R70). -/
def pBits : PTy → Nat
  | .s8 | .z8 => 8
  | .s16 | .z16 => 16
  | .s32 | .z32 => 32

/-- A packed type is signed (R70). -/
def pSigned : PTy → Bool
  | .s8 | .s16 | .s32 => true
  | _ => false

/-- sat(v, lo, hi) for a packed type (R70). -/
def pSat (t : PTy) (v : Int) : Int :=
  let n := pBits t
  let lo : Int := if pSigned t then -(2 ^ (n - 1) : Nat) else 0
  let hi : Int := if pSigned t then (2 ^ (n - 1) : Nat) - 1 else (2 ^ n : Nat) - 1
  max lo (min hi v)

/-- A packed operation on every pair of sub-elements (R70). -/
def packed (t : PTy) (f : Int → Int → Int) (x y : Word) : Word :=
  let n := pBits t
  BitVec.ofNat 64 (packEls n ((List.range (64 / n)).map fun k =>
    intBits n (f (intOf n (pSigned t) (subEl n x k)) (intOf n (pSigned t) (subEl n y k)))))

/-- A packed word: constants are replicated at the element width (R37, R70). -/
def packedWord (s : State) (h : Hd) (t : PTy) (d a b : Opnd) (f : Int → Int → Int) : Out :=
  regWord s h { intWord d a b with a := (a, .int (pBits t)), b := (b, .int (pBits t)) } (pure2 (packed t f))

/-- ADD (R60). -/
def execAdd (h : Hd) (d a b : Opnd) (s : State) : Out := int2 s h d a b (fun x y => x + y)
/-- SUB (R60). -/
def execSub (h : Hd) (d a b : Opnd) (s : State) : Out := int2 s h d a b (fun x y => x - y)
/-- AND (R60). -/
def execAnd (h : Hd) (d a b : Opnd) (s : State) : Out := int2 s h d a b (fun x y => x &&& y)
/-- OR (R60). -/
def execOr (h : Hd) (d a b : Opnd) (s : State) : Out := int2 s h d a b (fun x y => x ||| y)
/-- XOR (R60). -/
def execXor (h : Hd) (d a b : Opnd) (s : State) : Out := int2 s h d a b (fun x y => x ^^^ y)
/-- ANDN (R60). -/
def execAndn (h : Hd) (d a b : Opnd) (s : State) : Out := int2 s h d a b (fun x y => x &&& ~~~y)
/-- MIN, signed (R60). -/
def execMin (h : Hd) (d a b : Opnd) (s : State) : Out := int2 s h d a b (fun x y => pick (x.slt y) x y)
/-- MAX, signed (R60). -/
def execMax (h : Hd) (d a b : Opnd) (s : State) : Out := int2 s h d a b (fun x y => pick (y.slt x) x y)
/-- ADDI: imm8 sign-extended (R63). -/
def execAddi (h : Hd) (d a : Opnd) (imm : BitVec 8) (s : State) : Out := int1 s h d a (fun x => x + imm.signExtend 64)
/-- SHLI (R63). -/
def execShli (h : Hd) (d a : Opnd) (imm : BitVec 6) (s : State) : Out := int1 s h d a (fun x => x <<< imm.toNat)
/-- SHRI (R63). -/
def execShri (h : Hd) (d a : Opnd) (imm : BitVec 6) (s : State) : Out := int1 s h d a (fun x => x >>> imm.toNat)
/-- SARI (R63). -/
def execSari (h : Hd) (d a : Opnd) (imm : BitVec 6) (s : State) : Out := int1 s h d a (fun x => x.sshiftRight imm.toNat)
/-- LI: imm17 sign-extended (R64). -/
def execLi (h : Hd) (d : Opnd) (imm : BitVec 17) (s : State) : Out := int1 s h d .z (fun _ => imm.signExtend 64)
/-- LIS: d shifted left by 16 with imm in its low bits (R64). -/
def execLis (h : Hd) (d : Opnd) (imm : BitVec 16) (s : State) : Out :=
  int3 s h d .z .z (fun _ _ w => (w <<< 16) ||| imm.setWidth 64)
/-- ADD.s32 (R62). -/
def execAddS32 (h : Hd) (d a b : Opnd) (s : State) : Out := int2 s h d a b (fun x y => sx32 (lo32 x + lo32 y))
/-- SUB.s32 (R62). -/
def execSubS32 (h : Hd) (d a b : Opnd) (s : State) : Out := int2 s h d a b (fun x y => sx32 (lo32 x - lo32 y))
/-- MUL.s32 (R62). -/
def execMulS32 (h : Hd) (d a b : Opnd) (s : State) : Out := int2 s h d a b (fun x y => sx32 (lo32 x * lo32 y))
/-- SHL.s32: the amount is y[4:0] (R62). -/
def execShlS32 (h : Hd) (d a b : Opnd) (s : State) : Out :=
  int2 s h d a b (fun x y => sx32 (lo32 x <<< (y.extractLsb' 0 5).toNat))
/-- SHR.s32: zeros in, then bit 31 of the shifted value extended (R62). -/
def execShrS32 (h : Hd) (d a b : Opnd) (s : State) : Out :=
  int2 s h d a b (fun x y => sx32 (lo32 x >>> (y.extractLsb' 0 5).toNat))
/-- SAR.s32 (R62). -/
def execSarS32 (h : Hd) (d a b : Opnd) (s : State) : Out :=
  int2 s h d a b (fun x y => sx32 ((lo32 x).sshiftRight (y.extractLsb' 0 5).toNat))
/-- BFI (R68). -/
def execBfi (h : Hd) (d a b : Opnd) (s : State) : Out := int3 s h d a b bfiW
/-- PADD: saturates (R70). -/
def execPadd (h : Hd) (ty : PTy) (d a b : Opnd) (s : State) : Out :=
  packedWord s h ty d a b (fun x y => pSat ty (x + y))
/-- SHL by y[5:0] (R60). -/
def execShl (h : Hd) (d a b : Opnd) (s : State) : Out := int2 s h d a b (fun x y => x <<< amount y)
/-- SHR by y[5:0] (R60). -/
def execShr (h : Hd) (d a b : Opnd) (s : State) : Out := int2 s h d a b (fun x y => x >>> amount y)
/-- SAR by y[5:0] (R60). -/
def execSar (h : Hd) (d a b : Opnd) (s : State) : Out := int2 s h d a b (fun x y => x.sshiftRight (amount y))
/-- ROL by y[5:0] (R60). -/
def execRol (h : Hd) (d a b : Opnd) (s : State) : Out := int2 s h d a b (fun x y => x.rotateLeft (amount y))
/-- MINU (R60). -/
def execMinu (h : Hd) (d a b : Opnd) (s : State) : Out := int2 s h d a b (fun x y => pick (x.ult y) x y)
/-- MAXU (R60). -/
def execMaxu (h : Hd) (d a b : Opnd) (s : State) : Out := int2 s h d a b (fun x y => pick (y.ult x) x y)
/-- MUL (R60). -/
def execMul (h : Hd) (d a b : Opnd) (s : State) : Out := int2 s h d a b (fun x y => x * y)
/-- MULH (R60). -/
def execMulh (h : Hd) (d a b : Opnd) (s : State) : Out := int2 s h d a b mulhs
/-- MULHU (R60). -/
def execMulhu (h : Hd) (d a b : Opnd) (s : State) : Out := int2 s h d a b mulhuW

/-- A division word: its results come from the divider, with variable latency (R56). -/
def divWord (s : State) (h : Hd) (d a b : Opnd) (f : Word → Word → Word) : Out :=
  regWord s h { intWord d a b with lat := none, div := true } (pure2 f)

/-- DIV (R61). -/
def execDiv (h : Hd) (d a b : Opnd) (s : State) : Out := divWord s h d a b divS
/-- DIVU (R61). -/
def execDivu (h : Hd) (d a b : Opnd) (s : State) : Out := divWord s h d a b divU
/-- REM (R61). -/
def execRem (h : Hd) (d a b : Opnd) (s : State) : Out := divWord s h d a b remS
/-- REMU (R61). -/
def execRemu (h : Hd) (d a b : Opnd) (s : State) : Out := divWord s h d a b remU
/-- MAD: w + x × y (R60). -/
def execMad (h : Hd) (d a b : Opnd) (s : State) : Out := int3 s h d a b (fun x y w => w + x * y)
/-- BFX.z (R68). -/
def execBfxZ (h : Hd) (d a b : Opnd) (s : State) : Out := int2 s h d a b bfxz
/-- BFX.s (R68). -/
def execBfxS (h : Hd) (d a b : Opnd) (s : State) : Out := int2 s h d a b bfxs
/-- CLZ (R65). -/
def execClz (h : Hd) (d a : Opnd) (s : State) : Out := int1 s h d a (fun x => BitVec.ofNat 64 (clz64 x))
/-- CTZ (R65). -/
def execCtz (h : Hd) (d a : Opnd) (s : State) : Out := int1 s h d a (fun x => BitVec.ofNat 64 (ctzFrom x 64 0))
/-- POPC (R65). -/
def execPopc (h : Hd) (d a : Opnd) (s : State) : Out := int1 s h d a (fun x => BitVec.ofNat 64 (popc64 x))
/-- BREV (R65). -/
def execBrev (h : Hd) (d a : Opnd) (s : State) : Out := int1 s h d a (fun x => x.reverse)
/-- ABS; −2^63 gives itself (R65). -/
def execAbs (h : Hd) (d a : Opnd) (s : State) : Out := int1 s h d a (fun x => if x.msb then -x else x)
/-- MOV (R65). -/
def execMov (h : Hd) (d a : Opnd) (s : State) : Out := int1 s h d a (fun x => x)

/-- Bits of a width code of SEXT, ZEXT, PACK and UNPACK. -/
def packBits : PackW → Nat
  | .b8 => 8
  | .b16 => 16
  | .b32 => 32

/-- SEXT (R65). -/
def execSext (h : Hd) (w : PackW) (d a : Opnd) (s : State) : Out :=
  int1 s h d a (fun x => (x.setWidth (packBits w)).signExtend 64)
/-- ZEXT (R65). -/
def execZext (h : Hd) (w : PackW) (d a : Opnd) (s : State) : Out :=
  int1 s h d a (fun x => (x.setWidth (packBits w)).setWidth 64)
/-- PSUB: saturates (R70). -/
def execPsub (h : Hd) (ty : PTy) (d a b : Opnd) (s : State) : Out :=
  packedWord s h ty d a b (fun x y => pSat ty (x - y))
/-- SEL: pN is a third source (R67). -/
def execSel (h : Hd) (n : Fin 8) (d a b : Opnd) (s : State) : Out :=
  regWord s h { intWord d a b with w := (.p n, .int 64) } (fun _ x y w => (if w = 0 then y else x, noFlags))

/-- The condition of CMP and CMPI (R66). -/
def cmpHolds (c : Cmp) (x y : Word) : Bool :=
  match c with
  | .eq => x == y
  | .ne => x != y
  | .lt => x.slt y
  | .ge => !(x.slt y)
  | .ltu => x.ult y
  | .geu => !(x.ult y)
  | .tst => (x &&& y) != 0

/-- 1 or 0. -/
def boolWord (b : Bool) : Word := if b then 1 else 0

/-- CMP (R66). -/
def execCmp (h : Hd) (cond : Cmp) (d a b : Opnd) (s : State) : Out :=
  int2 s h d a b (fun x y => boolWord (cmpHolds cond x y))
/-- CMPI: imm8 sign-extended (R66). -/
def execCmpi (h : Hd) (cond : Cmp) (d a : Opnd) (imm : BitVec 8) (s : State) : Out :=
  int1 s h d a (fun x => boolWord (cmpHolds cond x (imm.signExtend 64)))
/-- PMIN (R70). -/
def execPmin (h : Hd) (ty : PTy) (d a b : Opnd) (s : State) : Out := packedWord s h ty d a b (fun x y => min x y)
/-- LEA (R69). -/
def execLea (h : Hd) (scale : BitVec 2) (d a b : Opnd) (s : State) : Out :=
  int2 s h d a b (fun x y => x + scaleOf scale y)
/-- LEA.s32: y is sext(y, 32) (R69). -/
def execLeaS32 (h : Hd) (scale : BitVec 2) (d a b : Opnd) (s : State) : Out :=
  int2 s h d a b (fun x y => x + scaleOf scale (sx32 (lo32 y)))
/-- PMAX (R70). -/
def execPmax (h : Hd) (ty : PTy) (d a b : Opnd) (s : State) : Out := packedWord s h ty d a b (fun x y => max x y)

end Sys2Proof.Machine
end

