-- ==== Sys2Proof/Machine/Float.lean ====
section
/-! DEFINITION. Float words, majors 0x10 to 0x1F (R72–R102): every result sub-element from the exact value, rounded once,
with the flags of each sub-element (R82). -/

namespace Sys2Proof.Machine

/-- The latency of an F-pipe word (R29, R85): 8 if one of its types is .f64. -/
def fLat (wide : Bool) : Option Nat := some (if wide then 8 else 6)

/-- An F-pipe word of one type with sources a and b and no third source. -/
def fltWord (t : FTy) (d a b : Opnd) : RegWord :=
  { pipe := .f, lat := fLat (t == .f64), d := d, a := (a, .flt t), b := (b, .flt t), w := (.z, .flt t), div := false }

/-- A float operation on every sub-element of one type (R72). -/
def fltEls (t : FTy) (f : Nat → Nat → Nat → Nat → Nat × Flags) : Nat → Word → Word → Word → Word × Flags :=
  fun _ x y w => mapEls (fWidth t) fun k =>
    f k (subEl (fWidth t) x k) (subEl (fWidth t) y k) (subEl (fWidth t) w k)

/-- A two-source float word. -/
def flt2 (s : State) (h : Hd) (t : FTy) (d a b : Opnd) (f : Nat → Nat → Nat × Flags) : Out :=
  regWord s h (fltWord t d a b) (fltEls t fun _ x y _ => f x y)

/-- A fused word, which reads d (R88). -/
def flt3 (s : State) (h : Hd) (t : FTy) (d a b : Opnd) (f : Nat → Nat → Nat → Nat × Flags) : Out :=
  regWord s h { fltWord t d a b with w := (d, .flt t) } (fltEls t fun _ x y w => f x y w)

/-- A one-source float word. -/
def flt1 (s : State) (h : Hd) (t : FTy) (d a : Opnd) (f : Nat → Nat × Flags) : Out :=
  regWord s h (fltWord t d a .z) (fltEls t fun _ x _ _ => f x)

/-- x + y, rounded once (R89). -/
def addTo (t : FTy) (rm : Rnd) (a b : Nat) : Nat × Flags := sumTo t rm [fDecode t a, fDecode t b]

/-- x − y, rounded once (R89). -/
def subTo (t : FTy) (rm : Rnd) (a b : Nat) : Nat × Flags := sumTo t rm [fDecode t a, fvNeg (fDecode t b)]

/-- x × y of two codes (R89). -/
def mulCodes (t : FTy) (rm : Rnd) (a b : Nat) : Nat × Flags := mulTo t rm (fDecode t a) (fDecode t b)

/-- FADD (R89). -/
def execFadd (h : Hd) (ty : FTy) (d a b : Opnd) (s : State) : Out := flt2 s h ty d a b (addTo ty .rne)
/-- FSUB (R89). -/
def execFsub (h : Hd) (ty : FTy) (d a b : Opnd) (s : State) : Out := flt2 s h ty d a b (subTo ty .rne)
/-- FMUL (R89). -/
def execFmul (h : Hd) (ty : FTy) (d a b : Opnd) (s : State) : Out := flt2 s h ty d a b (mulCodes ty .rne)
/-- FFMA: x × y + w (R89). -/
def execFfma (h : Hd) (ty : FTy) (d a b : Opnd) (s : State) : Out :=
  flt3 s h ty d a b (fun x y w => fmaTo ty .rne (fDecode ty x) (fDecode ty y) (fDecode ty w) false)
/-- FFMS: x × y − w (R89). -/
def execFfms (h : Hd) (ty : FTy) (d a b : Opnd) (s : State) : Out :=
  flt3 s h ty d a b (fun x y w => fmaTo ty .rne (fDecode ty x) (fDecode ty y) (fvNeg (fDecode ty w)) false)
/-- FNMA: w − x × y (R89). -/
def execFnma (h : Hd) (ty : FTy) (d a b : Opnd) (s : State) : Out :=
  flt3 s h ty d a b (fun x y w => fmaTo ty .rne (fDecode ty x) (fDecode ty y) (fDecode ty w) true)
/-- FMIN (R89). -/
def execFmin (h : Hd) (ty : FTy) (d a b : Opnd) (s : State) : Out := flt2 s h ty d a b (minMaxTo ty false)
/-- FMAX (R89). -/
def execFmax (h : Hd) (ty : FTy) (d a b : Opnd) (s : State) : Out := flt2 s h ty d a b (minMaxTo ty true)
/-- FADD.rz (R89). -/
def execFaddRz (h : Hd) (ty : FTy) (d a b : Opnd) (s : State) : Out := flt2 s h ty d a b (addTo ty .rz)
/-- FADD.ru (R89). -/
def execFaddRu (h : Hd) (ty : FTy) (d a b : Opnd) (s : State) : Out := flt2 s h ty d a b (addTo ty .ru)
/-- FADD.rd (R89). -/
def execFaddRd (h : Hd) (ty : FTy) (d a b : Opnd) (s : State) : Out := flt2 s h ty d a b (addTo ty .rd)
/-- FMUL.rz (R89). -/
def execFmulRz (h : Hd) (ty : FTy) (d a b : Opnd) (s : State) : Out := flt2 s h ty d a b (mulCodes ty .rz)
/-- FMUL.ru (R89). -/
def execFmulRu (h : Hd) (ty : FTy) (d a b : Opnd) (s : State) : Out := flt2 s h ty d a b (mulCodes ty .ru)
/-- FMUL.rd (R89). -/
def execFmulRd (h : Hd) (ty : FTy) (d a b : Opnd) (s : State) : Out := flt2 s h ty d a b (mulCodes ty .rd)

/-- The value of the sign bit of a type. -/
def signBit (t : FTy) : Nat := 2 ^ (fWidth t - 1)

/-- FABS: the sign bit cleared (R90). -/
def execFabs (h : Hd) (ty : FTy) (d a : Opnd) (s : State) : Out := flt1 s h ty d a (fun x => (x % signBit ty, 0))
/-- FNEG: the sign bit inverted (R90). -/
def execFneg (h : Hd) (ty : FTy) (d a : Opnd) (s : State) : Out := flt1 s h ty d a (fun x => (x ^^^ signBit ty, 0))

/-- The class bit of a code (R90). -/
def classOf (t : FTy) (code : Nat) : Nat :=
  match fDecode t code with
  | .nan sig => if sig then 256 else 512
  | .inf n => if n then 1 else 128
  | .fin n m _ =>
    if m = 0 then (if n then 8 else 16)
    else if m < 2 ^ fFrac t then (if n then 4 else 32)
    else (if n then 2 else 64)

/-- FCLASS (R90). -/
def execFclass (h : Hd) (ty : FTy) (d a : Opnd) (s : State) : Out := flt1 s h ty d a (fun x => (classOf ty x, 0))
/-- FRND (R90). -/
def execFrnd (h : Hd) (ty : FTy) (rm : Rnd) (d a : Opnd) (s : State) : Out := flt1 s h ty d a (frndTo ty rm)
/-- FCPYS: a with the sign bit of b (R91). -/
def execFcpys (h : Hd) (ty : FTy) (d a b : Opnd) (s : State) : Out :=
  flt2 s h ty d a b (fun x y => (x % signBit ty + y / signBit ty % 2 * signBit ty, 0))

/-- x × 2^n, rounded once (R91). -/
def scalbTo (t : FTy) (code : Nat) (n : Int) : Nat × Flags :=
  match fDecode t code with
  | .nan sig => (fNan t, flagIf sig fIV)
  | .inf neg => (fInf t neg, 0)
  | .fin neg m e =>
    -- beyond ±20000 every non-zero result overflows or is below half the smallest subnormal, in every format
    roundRne t neg m (e + max (-20000) (min 20000 n))

/-- FSCALB: n is the sub-element of b, a signed integer of the same width; a constant in b is one (R37, R91). -/
def execFscalb (h : Hd) (ty : FTy) (d a b : Opnd) (s : State) : Out :=
  regWord s h { fltWord ty d a b with b := (b, .int (fWidth ty)) }
    (fltEls ty fun _ x y _ => scalbTo ty x (intOf (fWidth ty) true y))

/-- Whether an FCMP condition holds, and IV (R92). -/
def fcmpOf (c : FCmp) (x y : FVal) : Bool × Flags :=
  let nan := fvIsNan x || fvIsNan y
  let snan := fvIsSnan x || fvIsSnan y
  match c with
  | .eq => (!nan && fvCmp x y == 0, flagIf snan fIV)
  | .lt => (!nan && decide (fvCmp x y < 0), flagIf nan fIV)
  | .le => (!nan && decide (fvCmp x y ≤ 0), flagIf nan fIV)
  | .un => (nan, flagIf snan fIV)

/-- FCMP: bit k is the condition on sub-element k (R92). -/
def execFcmp (h : Hd) (cond : FCmp) (ty : FTy) (d a b : Opnd) (s : State) : Out :=
  regWord s h (fltWord ty d a b) fun _ x y _ =>
    let rs := (List.range (fLanes ty)).map fun k =>
      fcmpOf cond (fDecode ty (subEl (fWidth ty) x k)) (fDecode ty (subEl (fWidth ty) y k))
    (BitVec.ofNat 64 (packEls 1 (rs.map fun r => if r.1 then 1 else 0)), rs.foldl (fun f r => f ||| r.2) 0)

/-- Gathers n results of w bits; higher bits are 0 (R94). -/
def gather (w : Nat) (rs : List (Nat × Flags)) : Word × Flags :=
  (BitVec.ofNat 64 (packEls w (rs.map (·.1))), rs.foldl (fun f r => f ||| r.2) 0)

/-- CVT between float types: min(E_src, E_dst) elements; .dr takes index (E × t + k) mod 64 and phase 0 (R94). -/
def execCvtFloatFloat (h : Hd) (dst src : FTy) (rm : Rnd) (sat : Bool) (d a : Opnd) (s : State) : Out :=
  let n := Nat.min (fLanes src) (fLanes dst)
  regWord s h { fltWord src d a .z with lat := fLat (src == .f64 || dst == .f64) } fun t x _ _ =>
    gather (fWidth dst) ((List.range n).map fun k =>
      cvtFF dst src rm sat (ditherThr ((n * t + k) % 64) 0) (subEl (fWidth src) x k))

/-- CVT between integer and float (R94). -/
def execCvtIntegerFloat (h : Hd) (ity : ITy) (fty : FTy) (toInt : Bool) (rm : Rnd) (d a : Opnd) (s : State) : Out :=
  let n := Nat.min (fLanes fty) (64 / iWidth ity)
  let conv := if toInt then Conv.flt fty else Conv.int (iWidth ity)
  regWord s h { fltWord fty d a .z with a := (a, conv) } fun _ x _ _ =>
    if toInt then gather (iWidth ity) ((List.range n).map fun k => cvtFI fty ity rm (subEl (fWidth fty) x k))
    else gather (fWidth fty) ((List.range n).map fun k => cvtIF ity fty rm (subEl (iWidth ity) x k))

/-! ### Quantisation (R75, R95–R99) -/

/-- The magnitudes m_j of NQ4 in 256ths (R75). -/
def nq4Mag (j : Nat) : Nat := [0, 22, 46, 73, 102, 136, 182, 256].getD j 0

/-- The control value of b (R95): slot, φ, i0 and the block scale. -/
def ctlSlot (y : Word) : Nat := (y.extractLsb' 48 2).toNat
/-- φ (R95). -/
def ctlPhi (y : Word) : Nat := (y.extractLsb' 40 6).toNat
/-- i0 (R95). -/
def ctlI0 (y : Word) : Nat := (y.extractLsb' 32 6).toNat
/-- The block scale's code (R95). -/
def ctlBs (y : Word) : Nat := (y.extractLsb' 0 32).toNat

/-- A valid scale: finite and greater than zero (R95); its significand and exponent. -/
def validScale (code : Nat) : Option (Nat × Int) :=
  match fDecode .f32 code with
  | .fin false m e => if m = 0 then none else some (m, e)
  | _ => none

/-- The index j of NQ4 for the magnitude m × 2^e over the scale n × 2^f (R96); `thr` is the dither threshold in
128ths, or none for nearest. -/
def nq4Index (m : Nat) (e : Int) (n : Nat) (f : Int) (thr : Option Nat) : Nat :=
  let b := min e f
  let x := 256 * scaleTo b m e          -- y = x / u, in 256ths of the scale
  let u := scaleTo b n f
  if 256 * u ≤ x then 7
  else
    let j := ((List.range 7).filter fun j => nq4Mag j * u ≤ x).length - 1
    let lo := nq4Mag j * u
    let hi := nq4Mag (j + 1) * u
    match thr with
    | some t => if t * (hi - lo) < 128 * (x - lo) then j + 1 else j
    | none => if hi - x < x - lo ∨ (x - lo = hi - x ∧ j % 2 = 1) then j + 1 else j

/-- The code of one element of QNQ4 (R96). -/
def nq4Code (x : FVal) (scale : Option (Nat × Int)) (thr : Option Nat) : Nat × Flags :=
  match scale with
  | none => (0, fIV)
  | some (n, f) =>
    match x with
    | .nan _ => (0, fIV)
    | .inf neg => ((if neg then 8 else 0) + 7, 0)
    | .fin neg m e =>
      let j := nq4Index m e n f thr
      (if j = 0 then 0 else (if neg then 8 else 0) + j, 0)

/-- Replaces the field of `w` bits at bit `at` of a register. -/
def putField (x : Word) (pos w n : Nat) : Word :=
  let m := lowMask w <<< pos
  (x &&& ~~~m) ||| ((BitVec.ofNat 64 n <<< pos) &&& m)

/-- A quantisation word: a is float or raw, b is the control value, d is read where it is replaced in part. -/
def quantWord (d a b w : Opnd) (ca : Conv) : RegWord :=
  { pipe := .f, lat := fLat false, d := d, a := (a, ca), b := (b, .int 64), w := (w, .int 64), div := false }

/-- QNQ4: four codes into the slot of d (R96). -/
def execQnq4 (h : Hd) (dr : Bool) (d a b : Opnd) (s : State) : Out :=
  regWord s h (quantWord d a b d (.flt .bf16)) fun _ x y w =>
    let rs := (List.range 4).map fun k =>
      nq4Code (fDecode .bf16 (subEl 16 x k)) (validScale (ctlBs y))
        (if dr then some (ditherThr (ctlI0 y + k) (ctlPhi y)) else none)
    (putField w (16 * ctlSlot y) 16 (packEls 4 (rs.map (·.1))), rs.foldl (fun f r => f ||| r.2) 0)

/-- m_j × bs of a code, rounded to BF16 (R97). -/
def nq4Value (code : Nat) (scale : Option (Nat × Int)) : Nat × Flags :=
  match scale with
  | none => (fNan .bf16, fIV)
  | some (n, f) =>
    let m := nq4Mag (code % 8)
    if m = 0 then (0, 0) else roundRne .bf16 (code / 8 % 2 = 1) (m * n) (f - 8)

/-- DQNQ4 (R97). -/
def execDqnq4 (h : Hd) (d a b : Opnd) (s : State) : Out :=
  regWord s h (quantWord d a b .z (.int 64)) fun _ x y _ =>
    gather 16 ((List.range 4).map fun k => nq4Value (subEl 4 x (4 * ctlSlot y + k)) (validScale (ctlBs y)))

/-- x ÷ bs to an FP8 format, saturated (R98); IV alone is raised. -/
def e8Code (t : FTy) (x : FVal) (scale : Option (Nat × Int)) (rm : Rnd) (thr : Nat) : Nat × Flags :=
  match x, scale with
  | .nan _, _ => (fNan t, fIV)
  | _, none => (fNan t, fIV)
  | .inf neg, some _ => (fMax t neg, 0)
  | .fin neg m e, some (n, f) =>
    if m = 0 then (fSign t neg, 0)
    else
      let (q, g) := quot 24 m n (e - f)
      let mode := if rm = .dr && aboveMax t q g then .rne else rm
      let r := roundMag t mode thr neg q g
      (if overMax t r then fMax t neg else fCode t neg r.sig r.q, 0)

/-- QE8: four FP8 codes into slot[0] of d (R98). -/
def execQe8 (h : Hd) (fmt : FTy) (dr : Bool) (d a b : Opnd) (s : State) : Out :=
  regWord s h (quantWord d a b d (.flt .bf16)) fun _ x y w =>
    let rs := (List.range 4).map fun k =>
      e8Code fmt (fDecode .bf16 (subEl 16 x k)) (validScale (ctlBs y)) (if dr then .dr else .rne)
        (ditherThr (ctlI0 y + k) (ctlPhi y))
    (putField w (32 * (ctlSlot y % 2)) 32 (packEls 8 (rs.map (·.1))), rs.foldl (fun f r => f ||| r.2) 0)

/-- value × bs of an FP8 code, rounded to BF16 (R99). -/
def e8Value (t : FTy) (code : Nat) (scale : Option (Nat × Int)) : Nat × Flags :=
  match scale with
  | none => (fNan .bf16, fIV)
  | some (n, f) =>
    match fDecode t code with
    | .nan _ => (fNan .bf16, 0)
    | .inf neg => (fInf .bf16 neg, 0)
    | .fin neg m e => roundRne .bf16 neg (m * n) (e + f)

/-- DQE8 (R99). -/
def execDqe8 (h : Hd) (fmt : FTy) (d a b : Opnd) (s : State) : Out :=
  regWord s h (quantWord d a b .z (.int 64)) fun _ x y _ =>
    gather 16 ((List.range 4).map fun k => e8Value fmt (subEl 8 x (4 * (ctlSlot y % 2) + k)) (validScale (ctlBs y)))

/-! ### Dot products, sums, packing (R100–R102) -/

/-- The exact products of elements i to i + n − 1 (R100) and IV of 0 × ∞ and of signalling NaNs. -/
def products (t : FTy) (x y : Word) (i n : Nat) : List FVal × Flags :=
  let ps := (List.range n).map fun k => fvMul (fDecode t (subEl (fWidth t) x (i + k))) (fDecode t (subEl (fWidth t) y (i + k)))
  (ps.map (·.1), ps.foldl (fun f p => f ||| p.2) 0)

/-- DOT: two FP32 sums of products onto the halves of d, each rounded once (R100). -/
def execDot (h : Hd) (ty : FTy) (d a b : Opnd) (s : State) : Out :=
  regWord s h { fltWord ty d a b with w := (d, .flt .f32) } fun _ x y w =>
    let n := fLanes ty / 2
    gather 32 ((List.range 2).map fun j =>
      let (ps, f) := products ty x y (n * j) n
      let (r, g) := sumTo .f32 .rne (fDecode .f32 (subEl 32 w j) :: ps)
      (r, f ||| g))

/-- FSUM: y.f32[0] plus every element of a, rounded once; the upper half is 0 (R101). -/
def execFsum (h : Hd) (ty : FTy) (d a b : Opnd) (s : State) : Out :=
  regWord s h { fltWord ty d a b with b := (b, .flt .f32) } fun _ x y _ =>
    gather 32 [sumTo .f32 .rne
      (fDecode .f32 (subEl 32 y 0) :: (List.range (fLanes ty)).map fun k => fDecode ty (subEl (fWidth ty) x k))]

/-- PACK (R102). -/
def execPack (h : Hd) (w : PackW) (d a b : Opnd) (s : State) : Out :=
  let n := packBits w
  regWord s h (quantWord d a b .z (.int 64)) fun _ x y _ => (BitVec.ofNat 64 (packEls n [subEl n x 0, subEl n y 0]), 0)

/-- UNPACK (R102). -/
def execUnpack (h : Hd) (w : PackW) (d a b : Opnd) (s : State) : Out :=
  let n := packBits w
  regWord s h (quantWord d a b .z (.int 64)) fun _ x y _ => (BitVec.ofNat 64 (subEl n x (y.toNat % (64 / n))), 0)

end Sys2Proof.Machine
end

