-- ==== Sys2Proof/Machine/Special.lean ====
section
/-! DEFINITION. Special functions, log-sum-exp, random numbers and sampling, majors 0x20 to 0x22 (R103–R113). -/

namespace Sys2Proof.Machine

/-! ### EXP2, bit for bit (R109, R110) -/

/-- T[j] = round_rne(2^(j ÷ 64), FP32) (R109). -/
def exp2T : List Nat :=
  [0x3F800000, 0x3F8164D2, 0x3F82CD87, 0x3F843A29, 0x3F85AAC3, 0x3F871F62, 0x3F88980F, 0x3F8A14D5]
  ++ [0x3F8B95C2, 0x3F8D1ADF, 0x3F8EA43A, 0x3F9031DC, 0x3F91C3D3, 0x3F935A2B, 0x3F94F4F0, 0x3F96942D]
  ++ [0x3F9837F0, 0x3F99E046, 0x3F9B8D3A, 0x3F9D3EDA, 0x3F9EF532, 0x3FA0B051, 0x3FA27043, 0x3FA43516]
  ++ [0x3FA5FED7, 0x3FA7CD94, 0x3FA9A15B, 0x3FAB7A3A, 0x3FAD583F, 0x3FAF3B79, 0x3FB123F6, 0x3FB311C4]
  ++ [0x3FB504F3, 0x3FB6FD92, 0x3FB8FBAF, 0x3FBAFF5B, 0x3FBD08A4, 0x3FBF179A, 0x3FC12C4D, 0x3FC346CD]
  ++ [0x3FC5672A, 0x3FC78D75, 0x3FC9B9BE, 0x3FCBEC15, 0x3FCE248C, 0x3FD06334, 0x3FD2A81E, 0x3FD4F35B]
  ++ [0x3FD744FD, 0x3FD99D16, 0x3FDBFBB8, 0x3FDE60F5, 0x3FE0CCDF, 0x3FE33F89, 0x3FE5B907, 0x3FE8396A]
  ++ [0x3FEAC0C7, 0x3FED4F30, 0x3FEFE4BA, 0x3FF28177, 0x3FF5257D, 0x3FF7D0DF, 0x3FFA83B3, 0x3FFD3E0C]

/-- C1 (R109). -/
def exp2C1 : Nat := 0x3F317218
/-- C2 (R109). -/
def exp2C2 : Nat := 0x3E75FDF0

/-- x + y of FP32 codes, rounded once. -/
def f32add (a b : Nat) : Nat := (addTo .f32 .rne a b).1
/-- x × y of FP32 codes, rounded once. -/
def f32mul (a b : Nat) : Nat := (mulCodes .f32 .rne a b).1

/-- m × 2^e as an integer, rounded down, of a signed value. -/
def floorOf (neg : Bool) (m : Nat) (e : Int) : Int :=
  let x : Int := if neg then -(m : Int) else (m : Int)
  if 0 ≤ e then x * 2 ^ e.toNat else x.fdiv (2 ^ (-e).toNat)

/-- EXP2 of an FP32 code (R110). -/
def exp2Of (code : Nat) : Nat × Flags :=
  match fDecode .f32 code with
  | .nan sig => (fNan .f32, flagIf sig fIV)
  | .inf neg => (if neg then 0 else fInf .f32 false, 0)
  | .fin neg m e =>
    let n := floorOf neg m (e + 6)
    let i := n.fdiv 64
    let j := (n - 64 * i).toNat
    -- x − n ÷ 64, exact: both are multiples of 2^b
    let b := min e (-6)
    let x : Int := if neg then -(scaleTo b m e : Int) else (scaleTo b m e : Int)
    let u : Int := n * 2 ^ (-6 - b).toNat
    let r := (roundRne .f32 (x < u) (x - u).natAbs b).1
    let q := f32mul (f32add (f32mul exp2C2 r) exp2C1) r
    let t := exp2T.getD j 0
    let (y, f) := scalbTo .f32 (f32add t (f32mul t q)) (max (-1000) (min 1000 i))
    (y, f ||| flagIf (r % 2 ^ 31 ≠ 0) fIX)

/-! ### Correctly rounded functions (R108) -/

/-- 1 ÷ x, rounded once (R108). -/
def rcpOf (code : Nat) : Nat × Flags :=
  match fDecode .f32 code with
  | .nan sig => (fNan .f32, flagIf sig fIV)
  | .inf neg => (fSign .f32 neg, 0)
  | .fin neg m e =>
    if m = 0 then (fInf .f32 neg, fDZ)
    else let (q, g) := quot 30 1 m (-e); roundRne .f32 neg q g

/-- The square root, rounded once (R108). -/
def sqrtOf (code : Nat) : Nat × Flags :=
  match fDecode .f32 code with
  | .nan sig => (fNan .f32, flagIf sig fIV)
  | .inf neg => if neg then (fNan .f32, fIV) else (fInf .f32 false, 0)
  | .fin neg m e =>
    if m = 0 then (fSign .f32 neg, 0)
    else if neg then (fNan .f32, fIV)
    else let (q, g) := root 30 m e; roundRne .f32 false q g

/-! ### Functions within a bound (R108)

The spec gives a bound and no value: the result is a free candidate where that lies inside the bound for every value that a
close approximation of the function admits, and otherwise the nearest number to that approximation (log 7). -/

/-- |c − v| ≤ bound, of a code c, a value v = ±m × 2^e and a bound n × 2^f. -/
def within (code : Nat) (neg : Bool) (m : Nat) (e : Int) (n : Nat) (f : Int) : Bool :=
  match fDecode .f32 code with
  | .fin cn cm ce =>
    let b := min ce (min e f)
    let c : Int := if cn then -(scaleTo b cm ce : Int) else (scaleTo b cm ce : Int)
    let v : Int := if neg then -(scaleTo b m e : Int) else (scaleTo b m e : Int)
    decide ((c - v).natAbs ≤ scaleTo b n f)
  | _ => false

/-- The exponent of one ulp of FP32 at ±m × 2^e: that of the binade of the exact value, not of the result (R108; DESIGN CHOICE,
log 7). -/
def ulpExp (m : Nat) (e : Int) : Int := max (e + (bitLen m : Int) - 24) (-149)

/-- IX, and UF for a result below the smallest normal number: the flags of a rounding of a value that no FP32 number
equals (R108). -/
def inexactFlags (code : Nat) : Flags := fIX ||| flagIf (code % 2 ^ 31 < 2 ^ 23) fUF

/-- The result of function `fn` at a code whose value is close to ±m × 2^e, within n × 2^f of it. -/
def approxAt (fn code : Nat) (neg : Bool) (m : Nat) (e : Int) (n : Nat) (f : Int) : Nat × Flags :=
  let c := (Config.approx fn (BitVec.ofNat 32 code)).toNat
  let r := if within c neg m e n f then c else (roundRne .f32 neg m e).1
  (r, inexactFlags r)

/-- The same for a bound of k ulp, less the error of the approximation, which is below 2^−u ulp. -/
def approxUlp (fn code k : Nat) (neg : Bool) (m : Nat) (e : Int) (u : Nat) : Nat × Flags :=
  approxAt fn code neg m e (k * 2 ^ u - 1) (ulpExp m e - u)

/-- RSQ: exact for even powers of 2, else within 1 ulp (R108). -/
def rsqOf (code : Nat) : Nat × Flags :=
  match fDecode .f32 code with
  | .nan sig => (fNan .f32, flagIf sig fIV)
  | .inf neg => if neg then (fNan .f32, fIV) else (0, 0)
  | .fin neg m e =>
    if m = 0 then (fInf .f32 neg, fDZ)
    else if neg then (fNan .f32, fIV)
    else
      let k := bitLen m - 1
      if m = 2 ^ k && (e + (k : Int)) % 2 == 0 then roundRne .f32 false 1 (-((e + (k : Int)) / 2))
      else
        let (r, g) := root 100 m e
        let (q, h) := quot 100 1 r (-g)
        approxUlp 1 code 1 false q h 52

/-- The fraction bits of log2 of y ÷ 2^191 in [1, 2), by repeated squaring. -/
def log2Bits : Nat → Nat → Nat → Nat
  | 0, _, acc => acc
  | n + 1, y, acc =>
    let z := y * y / 2 ^ 191
    if 2 ^ 192 ≤ z then log2Bits n (z / 2) (2 * acc + 1) else log2Bits n z (2 * acc)

/-- LOG2: exact for powers of 2, else within 2 ulp (R108). -/
def log2Of (code : Nat) : Nat × Flags :=
  match fDecode .f32 code with
  | .nan sig => (fNan .f32, flagIf sig fIV)
  | .inf neg => if neg then (fNan .f32, fIV) else (fInf .f32 false, 0)
  | .fin neg m e =>
    if m = 0 then (fInf .f32 true, fDZ)
    else if neg then (fNan .f32, fIV)
    else
      let k := bitLen m - 1
      let i : Int := e + (k : Int)
      if m = 2 ^ k then roundRne .f32 (i < 0) i.natAbs 0
      else
        let v : Int := i * 2 ^ 128 + (log2Bits 128 (m * 2 ^ (191 - k)) 0 : Int)
        approxUlp 4 code 2 (v < 0) v.natAbs (-128) 52

/-- π × 2^256. -/
def piFixed : Int := 0x3243f6a8885a308d313198a2e03707344a4093822299f31d0082efa98ec4e6c89

/-- n terms of the Taylor series of sine or cosine at x ÷ 2^96, from the term `t` with index k on. -/
def trigSeries (x : Int) : Nat → Nat → Int → Int → Int
  | 0, _, _, acc => acc
  | n + 1, k, t, acc =>
    let t' := (-(t * x / 2 ^ 96 * x / 2 ^ 96)) / (((k + 1) * (k + 2) : Nat) : Int)
    trigSeries x n (k + 2) t' (acc + t')

/-- The argument reduced to [−π, π) by π × odd, times 2^96 (R108: full range reduction). -/
def reduceArg (neg : Bool) (m : Nat) (e : Int) : Int :=
  let x : Int := floorOf neg m (e + 256)
  (x.fmod (2 * piFixed) - piFixed) / 2 ^ 160

/-- sin x × 2^96. -/
def sinFixed (neg : Bool) (m : Nat) (e : Int) : Int :=
  let r := reduceArg neg m e
  0 - trigSeries r 24 1 r r

/-- cos x × 2^96. -/
def cosFixed (neg : Bool) (m : Nat) (e : Int) : Int := -(trigSeries (reduceArg neg m e) 24 0 (2 ^ 96) (2 ^ 96))

/-- Within 2^−22 of ±m × 2^e, less the error of the approximation, which is below 2^f. -/
def approxFixed (fn code : Nat) (neg : Bool) (m : Nat) (e f : Int) : Nat × Flags :=
  approxAt fn code neg m e (2 ^ (-22 - f).toNat - 1) f

/-- x − 2^b of a magnitude x = m × 2^e, as a number of units 2^b. -/
def lessUnit (m : Nat) (e b : Int) : Nat := scaleTo b m e - 1

/-- SIN and COS: NaN with IV for infinities; ±0 and 1 for ±0; else within 2^−22 (R108). For |x| < 2^−25 the sine lies within
2^(3n − 3) of x − 2^(3n − 3) and the cosine within 2^(2n − 2) of 1 − 2^(2n − 2), where |x| < 2^n. -/
def trigOf (cos : Bool) (code : Nat) : Nat × Flags :=
  match fDecode .f32 code with
  | .nan sig => (fNan .f32, flagIf sig fIV)
  | .inf _ => (fNan .f32, fIV)
  | .fin neg m e =>
    if m = 0 then (if cos then 0x3F800000 else fSign .f32 neg, 0)
    else
      let n := e + (bitLen m : Int)
      if n ≤ -25 then
        if cos then approxFixed 6 code false (lessUnit 1 0 (2 * n - 2)) (2 * n - 2) (2 * n - 2)
        else approxFixed 5 code neg (lessUnit m e (3 * n - 3)) (3 * n - 3) (3 * n - 3)
      else
        let v := if cos then cosFixed neg m e else sinFixed neg m e
        approxFixed (if cos then 6 else 5) code (v < 0) v.natAbs (-96) (-80)

/-- n terms of the series of e^(y ÷ 2^160), times 2^160. -/
def expSeries (y : Nat) : Nat → Nat → Nat → Nat → Nat
  | 0, _, _, acc => acc
  | n + 1, k, t, acc =>
    let t' := t * y / 2 ^ 160 / (k + 1)
    expSeries y n (k + 1) t' (acc + t')

/-- tanh of the magnitude m × 2^e, as a significand and exponent: for small arguments x (315 − 105x² + 42x⁴ − 17x⁶) ÷ 315,
else (E − 1) ÷ (E + 1) with E = e^2x. -/
def tanhMag (m : Nat) (e : Int) : Nat × Int :=
  if e + (bitLen m : Int) ≤ -12 then
    let q : Int := scaleTo (-200) (m * m) (2 * e)
    let u : Int := 2 ^ 200
    let p : Int := 315 * u - 105 * q + 42 * (q * q / u) - 17 * (q * q / u * q / u)
    quot 80 (m * p.toNat) 315 (e - 200)
  else
    let y := (floorOf false m (e + 161)).toNat
    let x := expSeries y 120 0 (2 ^ 160) (2 ^ 160)
    quot 80 (x - 2 ^ 160) (x + 2 ^ 160) 0

/-- TANH: exactly ±1 from 9.5 on, else within 2 ulp (R108). For |x| < 2^−36 it lies within 2^(3n − 2) of x − 2^(3n − 2), where
|x| < 2^n. -/
def tanhOf (code : Nat) : Nat × Flags :=
  match fDecode .f32 code with
  | .nan sig => (fNan .f32, flagIf sig fIV)
  | .inf neg => (fSign .f32 neg + 0x3F800000, 0)
  | .fin neg m e =>
    if m = 0 then (fSign .f32 neg, 0)
    else if fvCmp (.fin false m e) (.fin false 19 (-1)) ≥ 0 then (fSign .f32 neg + 0x3F800000, fIX)
    else
      let n := e + (bitLen m : Int)
      if n ≤ -36 then
        let b := 3 * n - 2
        let v := lessUnit m e b
        approxUlp 7 code 2 neg v b (ulpExp v b - b).toNat
      else let (q, g) := tanhMag m e; approxUlp 7 code 2 neg q g 52

/-! ### The words -/

/-- Applies an FP32 function to a sub-element; .bf16 widens, applies it and rounds, with the flags of both (R107). -/
def specEl (t : STy) (f : Nat → Nat × Flags) (code : Nat) : Nat × Flags :=
  match t with
  | .f32 => f code
  | .bf16 =>
    let (y, g) := f (code * 2 ^ 16)
    let (z, k) := cvtFF .bf16 .f32 .rne false 0 y
    (z, g ||| k)

/-- The format of a special function's type. -/
def sFmt : STy → FTy
  | .f32 => .f32
  | .bf16 => .bf16

/-- A special-function word: M pipe, latency 12, each sub-element on its own (R103, R107). -/
def specWord (s : State) (h : Hd) (t : STy) (d a : Opnd) (f : Nat → Nat × Flags) : Out :=
  regWord s h { fltWord (sFmt t) d a .z with pipe := .m, lat := some 12 }
    (fltEls (sFmt t) fun _ x _ _ => specEl t f x)

/-- RCP (R108). -/
def execRcp (h : Hd) (ty : STy) (d a : Opnd) (s : State) : Out := specWord s h ty d a rcpOf
/-- RSQ (R108). -/
def execRsq (h : Hd) (ty : STy) (d a : Opnd) (s : State) : Out := specWord s h ty d a rsqOf
/-- SQRT (R108). -/
def execSqrt (h : Hd) (ty : STy) (d a : Opnd) (s : State) : Out := specWord s h ty d a sqrtOf
/-- EXP2 (R110). -/
def execExp2 (h : Hd) (ty : STy) (d a : Opnd) (s : State) : Out := specWord s h ty d a exp2Of
/-- LOG2 (R108). -/
def execLog2 (h : Hd) (ty : STy) (d a : Opnd) (s : State) : Out := specWord s h ty d a log2Of
/-- SIN (R108). -/
def execSin (h : Hd) (ty : STy) (d a : Opnd) (s : State) : Out := specWord s h ty d a (trigOf false)
/-- COS (R108). -/
def execCos (h : Hd) (ty : STy) (d a : Opnd) (s : State) : Out := specWord s h ty d a (trigOf true)
/-- TANH (R108). -/
def execTanh (h : Hd) (ty : STy) (d a : Opnd) (s : State) : Out := specWord s h ty d a tanhOf

/-- EXP2(f32(a − m)), or +0 for a maximum of −∞ (R111), with its flags. -/
def lsePart (a m : Nat) : Nat × Flags :=
  if fDecode .f32 a = .inf true then (0, 0)
  else
    let (t, f) := subTo .f32 .rne a m
    let (y, g) := exp2Of t
    (y, f ||| g)

/-- The term of a partial: its sum times the power. An infinite sum of a partial with maximum −∞ contributes nothing and
raises nothing (R111). -/
def lseTerm (m x e : Nat) : Nat × Flags :=
  match fDecode .f32 m, fDecode .f32 x with
  | .inf true, .inf _ => (0, 0)
  | _, _ => mulCodes .f32 .rne x e

/-- The merge of two log-sum-exp partials (R111); the flags of its FP32 steps are raised (DEDUCED, log 29). -/
def lse2Of (ma sa mb sb : Nat) : Nat × Nat × Flags :=
  let vs := [fDecode .f32 ma, fDecode .f32 sa, fDecode .f32 mb, fDecode .f32 sb]
  if vs.any fvIsNan then (fNan .f32, fNan .f32, flagIf (vs.any fvIsSnan) fIV)
  else if fDecode .f32 ma = .inf false ∨ fDecode .f32 mb = .inf false then (fInf .f32 false, fNan .f32, fIV)
  else if fDecode .f32 ma = .inf true ∧ fDecode .f32 mb = .inf true then (fInf .f32 true, 0, 0)
  else
    let m := if fvLess (fDecode .f32 ma) (fDecode .f32 mb) then mb else ma
    let (ea, f) := lsePart ma m
    let (eb, g) := lsePart mb m
    let (pa, i) := lseTerm ma sa ea
    let (pb, j) := lseTerm mb sb eb
    let (r, k) := addTo .f32 .rne pa pb
    (m, r, f ||| g ||| i ||| j ||| k)

/-- LSE2 (R111). -/
def execLse2 (h : Hd) (d a b : Opnd) (s : State) : Out :=
  regWord s h { fltWord .f32 d a b with pipe := .m, lat := some 12 } fun _ x y _ =>
    let (m, r, f) := lse2Of (subEl 32 x 0) (subEl 32 x 1) (subEl 32 y 0) (subEl 32 y 1)
    (BitVec.ofNat 64 (packEls 32 [m, r]), f)

/-- The mixing function of RNG (R112). -/
def rngMix (a b : Word) : Word :=
  let z := (a ^^^ b.rotateLeft 32) + b
  let z := (z ^^^ (z >>> 30)) * 0xBF58476D1CE4E5B9
  let z := (z ^^^ (z >>> 27)) * 0x94D049BB133111EB
  z ^^^ (z >>> 31)

/-- A word of RNG: 64-bit integer sources, latency 12 (R103, R112). -/
def rngWord (s : State) (h : Hd) (d a b : Opnd) (f : Word → Word) : Out :=
  regWord s h { intWord d a b with pipe := .m, lat := some 12 } fun _ x y _ => (f (rngMix x y), 0)

/-- RNG.b64 (R112). -/
def execRngB64 (h : Hd) (d a b : Opnd) (s : State) : Out := rngWord s h d a b (fun z => z)
/-- RNG.f32: z[32k + 31 : 32k + 8] × 2^−24 (R112). -/
def execRngF32 (h : Hd) (d a b : Opnd) (s : State) : Out :=
  rngWord s h d a b fun z =>
    BitVec.ofNat 64 (packEls 32 ((List.range 2).map fun k => (roundRne .f32 false (subEl 32 z k / 2 ^ 8) (-24)).1))
/-- RNG.bf16: z[16k + 15 : 16k + 8] × 2^−8 (R112). -/
def execRngBf16 (h : Hd) (d a b : Opnd) (s : State) : Out :=
  rngWord s h d a b fun z =>
    BitVec.ofNat 64 (packEls 16 ((List.range 4).map fun k => (roundRne .bf16 false (subEl 16 z k / 2 ^ 8) (-8)).1))

end Sys2Proof.Machine
end

