-- ==== Sys2Proof/Machine/ArrayMath.lean ====
section
/-! DEFINITION. The arithmetic of the matrix array: formats and scales, passes, drains (R246–R254), and plan mode
(R275, R276, R281, R284–R291). Codes are natural numbers; every function answers the flags that it raises. -/

namespace Sys2Proof.Machine

/-- fl: a subnormal code becomes a zero of its sign (R249). -/
def flushC (t : FTy) (code : Nat) : Nat :=
  if code % 2 ^ (fWidth t - 1) < 2 ^ fFrac t then code % 2 ^ fWidth t / 2 ^ (fWidth t - 1) * 2 ^ (fWidth t - 1)
  else code % 2 ^ fWidth t

/-- Keeps the flags that the array raises (R249, R251). -/
def arrFlags (f : Flags) : Flags := f &&& (fIV ||| fOF)

/-- A signalling NaN in FP32 as the canonical NaN: the array raises nothing for it where a pass reads it (R249). -/
def quietC (code : Nat) : Nat := if fvIsSnan (fDecode .f32 code) then fNan .f32 else code

/-! ### The format block (R246, R253, R254) -/

/-- WFMT: 0 BF16, 1 E4M3, 2 E5M2, 3 NQ4. -/
def FmtRec.wfmt (f : FmtRec) : Nat := (f.f0.extractLsb' 0 4).toNat
/-- AFMT. -/
def FmtRec.afmt (f : FmtRec) : Nat := (f.f0.extractLsb' 4 4).toNat
/-- WBLK: 0 none, 1 32, 2 64. -/
def FmtRec.wblk (f : FmtRec) : Nat := (f.f0.extractLsb' 8 2).toNat
/-- ABLK. -/
def FmtRec.ablk (f : FmtRec) : Nat := (f.f0.extractLsb' 10 2).toNat
/-- OFMT: 0 FP32, 1 BF16, 2 FP16, 3 E4M3, 4 E5M2. -/
def FmtRec.ofmt (f : FmtRec) : Nat := (f.f0.extractLsb' 12 4).toNat
/-- ORND, a code of R79. -/
def FmtRec.ornd (f : FmtRec) : Nat := (f.f0.extractLsb' 16 3).toNat
/-- SAT. -/
def FmtRec.sat (f : FmtRec) : Bool := f.f0.getLsbD 19
/-- ASCL. -/
def FmtRec.ascl (f : FmtRec) : Nat := (f.f0.extractLsb' 20 20).toNat
/-- OSCL. -/
def FmtRec.oscl (f : FmtRec) : Nat := (f.f1.extractLsb' 0 32).toNat

/-- The rows of R246. -/
def FmtRec.pairOk (f : FmtRec) : Bool :=
  match f.wfmt, f.afmt with
  | 0, 0 => f.wblk == 0 && f.ablk == 0
  | 1, 1 | 1, 2 | 2, 1 | 2, 2 => f.wblk == 0 || f.ablk == 0 || f.wblk == f.ablk
  | 3, 1 | 3, 2 => f.wblk == 2 && f.ablk != 1
  | 3, 3 => f.wblk == 2 && f.ablk == 2
  | _, _ => false

/-- The block that an MMA or MMT may make current (R254). -/
def FmtRec.valid (f : FmtRec) : Bool :=
  f.f0.extractLsb' 40 24 == 0 && f.f1.extractLsb' 32 32 == 0 && decide (f.wblk < 3) && decide (f.ablk < 3)
    && decide (f.ofmt < 5) && decide (f.ornd < 5) && !(f.ornd == 4 && f.ofmt == 0) && f.pairOk

/-- The packing factor P. -/
def FmtRec.pack (f : FmtRec) : Nat := if f.wfmt = 0 then 1 else if f.afmt = 3 then 4 else 2

/-- The depth K of a pass. -/
def FmtRec.depth (f : FmtRec) : Nat := 64 * f.pack

/-- Blocks of a row or column, 1 without scaling. -/
def FmtRec.blocks (f : FmtRec) : Nat :=
  match Nat.max f.wblk f.ablk with
  | 0 => 1
  | 1 => f.depth / 32
  | _ => f.depth / 64

/-- Bytes of the activation scales of n rows (R248). -/
def FmtRec.scaleBytes (f : FmtRec) (n : Nat) : Nat :=
  if f.ablk = 0 then 0 else (if f.afmt = 3 then 4 else 0) + n * f.blocks

/-- Bytes of a drained element (R260). -/
def FmtRec.width (f : FmtRec) : Nat :=
  match f.ofmt with
  | 0 => 4
  | 1 | 2 => 2
  | _ => 1

/-- The type of a drained element. -/
def FmtRec.outTy (f : FmtRec) : FTy :=
  match f.ofmt with
  | 0 => .f32
  | 1 => .bf16
  | 2 => .f16
  | 3 => .e4m3
  | _ => .e5m2

/-- The mode of a drain. -/
def FmtRec.mode (f : FmtRec) : Rnd :=
  match f.ornd with
  | 0 => .rne
  | 1 => .rz
  | 2 => .ru
  | 3 => .rd
  | _ => .dr

/-! ### Operands (R246–R248) -/

/-- The value of an NQ4 code, unscaled (R75). -/
def nq4Val (code : Nat) : FVal :=
  let m := nq4Mag (code % 8)
  .fin (decide (8 ≤ code % 16) && decide (m ≠ 0)) m (-8)

/-- The flushed value of a code of an element format. -/
def elemVal (fmt code : Nat) : FVal :=
  match fmt with
  | 0 => fDecode .bf16 (flushC .bf16 code)
  | 1 => fDecode .e4m3 (flushC .e4m3 code)
  | 2 => fDecode .e5m2 (flushC .e5m2 code)
  | _ => nq4Val code

/-- Weight p of a cell. -/
def weightVal (f : FmtRec) (cell p : Nat) : FVal :=
  match f.wfmt with
  | 0 => elemVal 0 cell
  | 3 => elemVal 3 (cell / 2 ^ (4 * p) % 16)
  | t => elemVal t (cell / 2 ^ (8 * p) % 256)

/-- Activation i of a row of 128 bytes. -/
def actVal (f : FmtRec) (row : List Byte) (i : Nat) : FVal :=
  let b := fun k => (row.getD k 0).toNat
  match f.afmt with
  | 0 => elemVal 0 (b (2 * i) + 256 * b (2 * i + 1))
  | 3 => elemVal 3 (b (i / 2) / 2 ^ (4 * (i % 2)) % 16)
  | t => elemVal t (b i)

/-- An E8 scale as an FP32 code, flushed (R250). -/
def e8Scale (code : Nat) : Nat := if code = 255 then fNan .f32 else code * 2 ^ 23

/-- An NQ4 scale from S and q (R250). -/
def nq4Scale (sc q : Nat) : Nat × Flags :=
  let (r, f) := mulTo .f32 .rne (fDecode .f32 (quietC sc)) (.fin false (q + 1) (-8))
  (flushC .f32 r, arrFlags f)

/-- The FP32 number in four bytes. -/
def word32 (b : Nat → Nat) (i : Nat) : Nat := b i + 256 * b (i + 1) + 65536 * b (i + 2) + 2 ^ 24 * b (i + 3)

/-- 1.0. -/
def one32 : Nat := 0x3F800000

/-- A scale of block number i within its array of codes; `nq4` says that S stands before the codes. -/
def scaleAt (scaled nq4 : Bool) (b : Nat → Nat) (i : Nat) : Nat × Flags :=
  if !scaled then (one32, 0) else if nq4 then nq4Scale (word32 b 0) (b (4 + i)) else (e8Scale (b i), 0)

/-! ### A pass (R249, R250) -/

/-- fl(round_rne(x + exact sum, FP32)). A sum with a NaN or an infinity is formed by itself first. -/
def partAdd (part : Nat) (ts : List FVal) : Nat × Flags :=
  let special := ts.any fun v =>
    match v with
    | .fin _ _ _ => false
    | _ => true
  let (r, f) :=
    if special then
      let (x, g) := sumTo .f32 .rne ts
      let (r, h) := sumTo .f32 .rne [fDecode .f32 part, fDecode .f32 x]
      (r, g ||| h)
    else sumTo .f32 .rne (fDecode .f32 part :: ts)
  (flushC .f32 r, arrFlags f)

/-- fl(round_rne(x × y, FP32)). -/
def arrMul (x y : Nat) : Nat × Flags :=
  let (r, f) := mulCodes .f32 .rne x y
  (flushC .f32 r, arrFlags f)

/-- fl(round_rne(x + y, FP32)). -/
def arrAdd (x y : Nat) : Nat × Flags :=
  let (r, f) := addTo .f32 .rne x y
  (flushC .f32 r, arrFlags f)

/-- The products of one cell. -/
def cellTerms (f : FmtRec) (row : List Byte) (k cell : Nat) : List FVal × Flags :=
  let ps := (List.range f.pack).map fun p => fvMul (actVal f row (f.pack * k + p)) (weightVal f cell p)
  (ps.map (·.1), ps.foldl (fun g p => g ||| p.2) 0)

/-- The chain of one block: cell rows from `k` on, top to bottom. -/
def blockPart (f : FmtRec) (row : List Byte) (cell : Nat → Nat) (k n : Nat) : Nat × Flags :=
  (List.range n).foldl
    (fun a i =>
      let (ts, g) := cellTerms f row (k + i) (cell (k + i))
      let (r, h) := partAdd a.1 ts
      (r, a.2 ||| g ||| h))
    (0, 0)

/-- One column of one row: the accumulator element after the pass. -/
def passCol (f : FmtRec) (row : List Byte) (cell : Nat → Nat) (sa sw : Nat → Nat × Flags) (acc : Nat) : Nat × Flags :=
  let nb := f.blocks
  (List.range nb).foldl
    (fun a b =>
      let (p, f1) := blockPart f row cell (64 * b / nb) (64 / nb)
      let (t, f2) := arrMul p (sa b).1
      let (t, f3) := arrMul t (sw b).1
      let (r, f4) := arrAdd (quietC a.1) t
      (r, a.2 ||| f1 ||| f2 ||| f3 ||| f4 ||| (sa b).2 ||| (sw b).2))
    (acc, 0)

/-- The 64 accumulator elements of one row after an MMA (R249, R250): `cells` by key 64 k + n, `wsc` the plane's scale
store, `asc` the activation scale array, r the row of the MMA. -/
def passRow (f : FmtRec) (row : List Byte) (cells : Nat → Nat) (wsc asc : Nat → Nat) (r : Nat) (acc : Nat → Nat) :
    List (Nat × Flags) :=
  (List.range 64).map fun n =>
    passCol f row (fun k => cells (64 * k + n)) (fun b => scaleAt (f.ablk ≠ 0) (f.afmt = 3) asc (r * f.blocks + b))
      (fun b => scaleAt (f.wblk ≠ 0) (f.wfmt = 3) wsc (64 * b + n)) (acc n)

/-! ### A drain (R251) -/

/-- Accumulator element j as it is drained. -/
def drainEl (f : FmtRec) (dph j x : Nat) : Nat × Flags :=
  let iv := flagIf (fvIsSnan (fDecode .f32 x)) fIV
  if f.ofmt = 0 then
    let (v, g) := mulCodes .f32 f.mode x f.oscl
    (flushC .f32 v, iv ||| (g &&& fOF))
  else
    let (v, g) := mulCodes .f32 .rne x f.oscl
    let (w, h) := cvtFF f.outTy .f32 f.mode f.sat (ditherThr j dph) (flushC .f32 v)
    (flushC f.outTy w, iv ||| (g &&& fOF) ||| arrFlags h)

/-! ### Plan arithmetic (R275, R276) -/

/-- −∞ in FP32. -/
def ninf32 : Nat := 0xFF800000
/-- −∞ in BF16. -/
def ninf16 : Nat := 0xFF80
/-- The canonical NaN in FP32. -/
def nan32 : Nat := 0x7FC00000

/-- The code is a NaN or +∞ (R285). -/
def planBad (t : FTy) (code : Nat) : Bool :=
  match fDecode t code with
  | .nan _ => true
  | .inf neg => !neg
  | _ => false

/-- f32(x + y) of codes, with OF where finite values round to an infinity. -/
def planAdd (x y : Nat) : Nat × Flags :=
  let (r, f) := addTo .f32 .rne (flushC .f32 x) (flushC .f32 y)
  (flushC .f32 r, f &&& fOF)

/-- f32(x − y). -/
def planSub (x y : Nat) : Nat × Flags :=
  let (r, f) := subTo .f32 .rne (flushC .f32 x) (flushC .f32 y)
  (flushC .f32 r, f &&& fOF)

/-- f32(fl(cell) + fl(s)) of a BF16 cell and an FP32 scaling. -/
def planCell (cell s : Nat) : Nat × Flags := planAdd (flushC .bf16 cell * 2 ^ 16) s

/-- D1 of LG2A. -/
def lgD1 : Nat := 0x3FB8AA3B
/-- D2 of LG2A. -/
def lgD2 : Nat := 0xBF38AA3B

/-- LG2A of an FP32 code in [1, 128) (R275). -/
def lg2a (s : Nat) : Nat :=
  let e := s / 2 ^ 23 - 127
  let m := one32 + s % 2 ^ 23
  let j := (exp2T.filter fun t => decide (t ≤ m)).length - 1
  let t := exp2T.getD j one32
  let num := m - t
  let r := if num = 0 then 0
    else let (q, g) := quot 30 num (2 ^ 23 + t % 2 ^ 23) 0; (roundRne .f32 false q g).1
  let q := (arrMul (arrAdd (arrMul lgD2 r).1 lgD1).1 r).1
  flushC .f32 (sumTo .f32 .rne [.fin false (64 * e + j) (-6), fDecode .f32 q]).1

/-- What a line reduces to (R276): dead; M and the sum; or a step that overflows. -/
inductive LineOut where
  | dead
  | live (m sum : Nat)
  | over
deriving DecidableEq, Repr

/-- The larger of two FP32 codes that are no NaN. -/
def max32 (x y : Nat) : Nat := (minMaxTo .f32 true x y).1

/-- The terms t_k that are not −∞; `none` where a step overflows. With `neg`, a step to −∞ overflows too (R285, R289). -/
def lineTerms (neg : Bool) : List (Nat × Nat) → Option (List Nat)
  | [] => some []
  | (c, s) :: r =>
    if c = ninf16 ∨ s = ninf32 then lineTerms neg r
    else
      let (t, f) := planCell c s
      if f ≠ 0 ∧ (neg ∨ t ≠ ninf32) then none
      else if t = ninf32 then lineTerms neg r
      else (lineTerms neg r).map fun ts => t :: ts

/-- The sum of R276 over the terms, top to bottom. -/
def lineSum (neg : Bool) (m : Nat) : List Nat → Nat → Option Nat
  | [], sum => some sum
  | t :: r, sum =>
    let (d, f) := planSub t m
    if f ≠ 0 ∧ neg then none
    else lineSum neg m r (planAdd sum (flushC .f32 (exp2Of d).1)).1

/-- LSUM before the logarithm. -/
def lsum (neg : Bool) (line s : List Nat) : LineOut :=
  match lineTerms neg (line.zip s) with
  | none => .over
  | some [] => .dead
  | some (t :: ts) =>
    let m := ts.foldl max32 t
    match lineSum neg m (t :: ts) 0 with
    | none => .over
    | some sum => .live m sum

/-- LSUM of a BALANCE: `none` on overflow, else the log2 sum of a live line. -/
def lineLog (line s : List Nat) : Option (Option Nat) :=
  match lsum true line s with
  | .over => none
  | .dead => some none
  | .live m sum =>
    let (r, f) := planAdd m (lg2a sum)
    if f ≠ 0 then none else some (some r)

/-! ### BALANCE (R284, R285) -/

/-- The planes' lines and the registers that a BALANCE works on. -/
structure BalIn where
  front : List (List Nat)
  back  : List (List Nat)
  mrow  : List Nat
  mcol  : List Nat
  limit : Nat
  tol   : Nat

/-- What a BALANCE leaves. -/
structure BalOut where
  srow   : List Nat
  scol   : List Nat
  planst : Word
  flags  : Flags

/-- The fields of PLANST (R288). -/
def planstOf (sweeps : Nat) (num inval infeas : Bool) (resid : Nat) : Word :=
  BitVec.ofNat 12 sweeps ++ 0#17 ++ BitVec.ofBool num ++ BitVec.ofBool inval ++ BitVec.ofBool infeas
    ++ BitVec.ofNat 32 resid

/-- UPD over the lines: the new register and inf; `none` on overflow. -/
def balUpd (inf : Bool) : List (Nat × Option Nat) → Option (List Nat × Bool)
  | [] => some ([], inf)
  | (m, c) :: r =>
    if m = ninf32 then (balUpd inf r).map fun x => (ninf32 :: x.1, x.2)
    else
      match c with
      | none => (balUpd true r).map fun x => (ninf32 :: x.1, x.2)
      | some c =>
        let (v, f) := planSub m c
        if f ≠ 0 then none else (balUpd inf r).map fun x => (v :: x.1, x.2)

/-- The residual over the columns; `none` on overflow. -/
def balResid : List (Option Nat × Nat × Nat) → Nat → Option Nat
  | [], r => some r
  | (c, s, m) :: rest, r =>
    match c with
    | none => balResid rest r
    | some c =>
      if m = ninf32 then balResid rest r
      else
        let (d, f) := planAdd c s
        let (d, g) := planSub d m
        if f ||| g ≠ 0 then none else balResid rest (max32 r (d % 2 ^ 31))

/-- The sweeps of R284; `left` bounds those still allowed. -/
def balGo (b : BalIn) : Nat → Nat → Bool → List Nat → List Nat → BalOut
  | left, n, inf, srow, scol =>
    let stop : BalOut := { srow := srow, scol := scol, planst := planstOf n true false false nan32, flags := fOF }
    match b.front.mapM fun l => lineLog l srow with
    | none => stop
    | some cs =>
      match balResid (cs.zip (scol.zip b.mcol)) 0 with
      | none => stop
      | some r =>
        match left with
        | 0 => { srow := srow, scol := scol, planst := planstOf n false false inf r, flags := 0 }
        | left + 1 =>
          if fvCmp (fDecode .f32 r) (fDecode .f32 b.tol) ≤ 0 then
            { srow := srow, scol := scol, planst := planstOf n false false inf r, flags := 0 }
          else
            match balUpd inf (b.mcol.zip cs) with
            | none => stop
            | some (scol', inf) =>
              match b.back.mapM fun l => lineLog l scol' with
              | none => { stop with scol := scol' }
              | some rs =>
                match balUpd inf (b.mrow.zip rs) with
                | none => { stop with scol := scol' }
                | some (srow', inf) => balGo b left (n + 1) inf srow' scol'

/-- The input is invalid (R285). -/
def balInvalid (b : BalIn) (srow scol : List Nat) : Bool :=
  b.front.any (fun l => l.any (planBad .bf16)) || b.back.any (fun l => l.any (planBad .bf16))
    || b.mrow.any (planBad .f32) || b.mcol.any (planBad .f32) || srow.any (planBad .f32) || scol.any (planBad .f32)
    || (match fDecode .f32 b.tol with
      | .nan _ => true
      | .inf neg => neg
      | .fin neg m _ => neg && m != 0)

/-- BALANCE. -/
def balance (b : BalIn) (srow scol : List Nat) : BalOut :=
  let b := { b with tol := flushC .f32 b.tol }
  if balInvalid b srow scol then
    { srow := srow, scol := scol, planst := planstOf 0 false true false nan32, flags := fIV }
  else balGo b b.limit 0 false srow scol

/-! ### Partials, plans and costs (R281, R289–R291) -/

/-- One element of the plan in FP32 (R290). -/
def planEl (cell si sj : Nat) : Nat × Flags :=
  if planBad .bf16 cell || planBad .f32 si || planBad .f32 sj then (nan32, fIV)
  else if cell = ninf16 ∨ si = ninf32 ∨ sj = ninf32 then (0, 0)
  else
    let (u, f) := planCell cell si
    let (x, g) := planAdd u sj
    let (p, h) := exp2Of x
    (flushC .f32 p, f ||| g ||| (h &&& fOF))

/-- The pair of one line of PPART, and its flags. -/
def ppartLine (bad : Bool) (line s : List Nat) : Nat × Nat × Flags :=
  if bad then (nan32, nan32, fIV)
  else
    match lsum false line s with
    | .dead => (ninf32, 0, 0)
    | .live m sum => (m, sum, 0)
    | .over => (0x7F800000, nan32, fOF)

/-- 2^256 ÷ ln 2, rounded down. -/
def invLn2 : Nat := 0x171547652b82fe1777d0ffda0d23a7d11d6aef551bad2b4b1164a2cd9a342648f

/-- κ of PCOST; `none` for an ε that R281 refuses. -/
def kappaOf (eps : Nat) : Option Nat :=
  match fDecode .f32 (flushC .f32 eps) with
  | .fin false m e =>
    if m = 0 then none
    else
      let (q, g) := quot 64 (2 * invLn2 + 1) m (-257 - e)
      let k := flushC .f32 (roundRne .f32 true q g).1
      match fDecode .f32 k with
      | .fin _ m _ => if m = 0 then none else some k
      | _ => none
  | _ => none

/-- One entry of PCOST from a cost. -/
def costEntry (k c : Nat) : Nat × Flags :=
  let (r, f) := mulTo .bf16 .rne (fDecode .f32 (flushC .f32 c)) (fDecode .f32 k)
  (flushC .bf16 r, arrFlags f)

/-- PDIST over (P, C) pairs (R291). A term with P = +0 is left out (DEDUCED, log 34). -/
def pdistOf (l : List (Nat × Nat)) : Nat × Flags :=
  let ps := (l.filter fun p => p.1 != 0).map fun p => fvMul (fDecode .f32 p.1) (fDecode .f32 (flushC .f32 p.2))
  let (r, f) := sumTo .f32 .rne (ps.map (·.1))
  (flushC .f32 r, arrFlags (f ||| ps.foldl (fun g p => g ||| p.2) 0))

end Sys2Proof.Machine
end

