-- ==== Sys2Proof/Machine/Mem.lean ====
section
/-! DEFINITION. Memory: bytes by location, the physical map (R123), the scratchpad aperture (R124), page tables and TLBs
(R125–R133), and the performance of one access in logical time (R164–R166). A location is a physical address below 2^52,
or a scratchpad byte at `Config.scratchKey` + 2^20 × core + offset. -/

namespace Sys2Proof.Machine

/-! ### Bytes -/

/-- The byte at a location; an unlisted byte reads 0 (R366; the second tier: log 2). -/
def memByte (s : State) (loc : Nat) : Byte := tabGet 0 s.mem loc

/-- Writes a byte; the value 0 is not listed. -/
def putByte (s : State) (loc : Nat) (b : Byte) : State := { s with mem := tabSet 0 s.mem loc b }

/-- n bytes of a table of bytes from `loc` on, little-endian (R4). -/
def tabRead (t : Tab Byte) (loc : Nat) : Nat → Nat
  | 0 => 0
  | n + 1 => (tabGet 0 t loc).toNat + 256 * tabRead t (loc + 1) n

/-- Reads n bytes, little-endian. -/
def memRead (s : State) (loc n : Nat) : Nat := tabRead s.mem loc n

/-- Writes the low n bytes of x, little-endian. -/
def memWrite (s : State) (loc : Nat) : Nat → Nat → State
  | 0, _ => s
  | n + 1, x => memWrite (putByte s loc (BitVec.ofNat 8 x)) (loc + 1) n (x / 256)

/-- Writes a list of bytes. -/
def memWriteBytes (s : State) (loc : Nat) : List Byte → State
  | [] => s
  | b :: r => memWriteBytes (putByte s loc b) (loc + 1) r

/-- Reads n bytes as a list. -/
def memBytes (s : State) (loc : Nat) : Nat → List Byte
  | 0 => []
  | n + 1 => memByte s loc :: memBytes s (loc + 1) n

/-- The canonical form of memory: locations rise strictly and no listed byte is 0. -/
def Memory.wf (m : List Host.Cell) : Bool := tabSorted m && m.all fun c => c.2 != 0

/-! ### The physical map (R123) -/

/-- What a physical address reaches. -/
inductive Target where
  | pool
  | localPool (die : Nat)
  | cxl (port : Nat)
  | endpoint
  | reserved
deriving DecidableEq, Repr

/-- 96 GiB. -/
def dieBytes : Nat := 96 * 2 ^ 30

/-- The map of R123 (DEDUCED, log 18). How much of a CXL window has memory behind it is no matter of the map but of the port's
decoder (R13, R368; DESIGN CHOICE, log 2). -/
def targetOf (pa : Nat) : Target :=
  if pa < 8 * dieBytes then .pool
  else if 2 ^ 48 ≤ pa ∧ pa < 2 ^ 48 + 8 * 2 ^ 37 then
    if (pa - 2 ^ 48) % 2 ^ 37 < dieBytes then .localPool ((pa - 2 ^ 48) / 2 ^ 37) else .reserved
  else if 2 ^ 50 ≤ pa ∧ pa < 2 ^ 50 + 4 * 2 ^ 42 then .cxl ((pa - 2 ^ 50) / 2 ^ 42)
  else if 2 ^ 51 ≤ pa ∧ pa < 2 ^ 51 + 2 ^ 48 then .endpoint
  else .reserved

/-- Bytes of the dies' local pools that Jalov has set, all dies together. -/
def localBytes (s : State) : Nat := ((List.range 8).map fun d => tabGet 0 s.pools d).sum

/-- Bytes of HBM4E that belong to no pool, since their die is disabled (R374). -/
def lostBytes (s : State) : Nat := ((List.range 8).map fun d => if s.deadDies.contains d then dieBytes else 0).sum

/-- The address lies in a frame that Jalov withholds since it has migrated it (R372). -/
def isWithheld (s : State) (pa : Nat) : Bool := s.withheld.any fun w => decide (w.1 ≤ pa) && decide (pa < w.1 + w.2)

/-- The address lies in a frame within the part of its pool that Jalov has set (R123), or of a CXL window within what the
port's decoder covers (R368; DEDUCED, log 2), and the frame is not withheld (R372; DEDUCED, log 50). -/
def frameSet (s : State) (pa : Nat) : Bool :=
  !isWithheld s pa &&
  match targetOf pa with
  | .pool => decide (pa < 8 * dieBytes - localBytes s - lostBytes s)
  | .localPool d => decide ((pa - 2 ^ 48) % 2 ^ 37 < tabGet 0 s.pools d)
  | .cxl n => decide ((pa - 2 ^ 50) % 2 ^ 42 < tabGet 0 s.decoders n)
  | .endpoint => true
  | .reserved => false

/-! ### Addresses (R122, R124) -/

/-- Bits [63:57] all equal bit [56] (R122). -/
def isCanonical (va : Word) : Bool := (va.extractLsb' 0 57).signExtend 64 == va

/-- The address lies in the scratchpad aperture (R124). -/
def inAperture (va : Word) : Bool := decide (Config.aperture.toNat ≤ va.toNat)

/-- The offset within the aperture. -/
def apOffset (va : Word) : Nat := va.toNat - Config.aperture.toNat

/-- The core of an aperture offset: core o[21:20] of the issuing core's quad (R124). -/
def apCore (c o : Nat) : Nat := c / 4 * 4 + o / 2 ^ 20 % 4

/-- The location of an aperture offset for an access of core c. -/
def scratchLoc (c o : Nat) : Nat := Config.scratchKey + 2 ^ 20 * apCore c o + o % 2 ^ 20

/-- The granule of an aperture offset is allocated to a team of the launch (R124). -/
def granuleOk (s : State) (c o launch : Nat) : Bool :=
  match tabFind (o % 2 ^ 20 / 4096) (coreOf s (apCore c o)).granules with
  | some own => own.1 == launch
  | none => false

/-! ### Page tables (R125, R126) -/

/-- Attributes and place of a translated address. -/
structure Leaf where
  loc : Nat
  mt  : BitVec 2
  r   : Bool
  w   : Bool
  x   : Bool
deriving DecidableEq, Repr

/-- The outcome of a translation. `bad` covers malformed entries, and, with the page's attributes, reserved physical
addresses, frames that are not set, and granules that are not the launch's own. -/
inductive Trans where
  | ok (l : Leaf)
  | absent
  | bad (attrs : Option Leaf)
deriving DecidableEq, Repr

/-- The attributes of the page, if the walk has found a well-formed leaf (R126). -/
def Trans.attrs : Trans → Option Leaf
  | .ok l => some l
  | .absent => none
  | .bad a => a

/-- The pages of two addresses are known to differ in attributes (R126, R141). -/
def Trans.differ (a b : Trans) : Bool :=
  match a.attrs, b.attrs with
  | some x, some y => x.mt != y.mt || x.r != y.r || x.w != y.w || x.x != y.x
  | _, _ => false

/-- Bytes of a page by its size code (R128). -/
def pageBytes (psz : BitVec 2) : Nat :=
  match psz.toNat with
  | 0 => 2 ^ 16
  | 1 => 2 ^ 21
  | 2 => 2 ^ 30
  | _ => 2 ^ 22

/-- The outcome of a walk. -/
inductive WalkOut where
  | leaf (e : TlbEntry)
  | absent
  | malformed
deriving DecidableEq, Repr

/-- Bits of an entry that must be zero in every valid entry (R126). -/
def pteReserved (e : Word) : Bool := e.extractLsb' 52 10 != 0 || e.extractLsb' 6 6 != 0 || e.getLsbD 1

/-- ADDR, the physical address that an entry names. -/
def pteAddr (e : Word) : Nat := (e.extractLsb' 12 40).toNat * 4096

/-- A valid table entry is malformed (R126). -/
def tableBad (s : State) (e : Word) : Bool :=
  e.extractLsb' 62 2 != 0 || e.extractLsb' 3 3 != 0 || targetOf (pteAddr e) == .endpoint || !frameSet s (pteAddr e)

/-- One walk through the levels left, each with its shift, its number of index bits and the size code of a leaf at
that level, if one may stand there (R125). -/
def walkLevels (s : State) (part : Nat) (va table : Nat) : List (Nat × Nat × Option (BitVec 2)) → WalkOut
  | [] => .malformed
  | (sh, bits, psz) :: rest =>
    let e : Word := BitVec.ofNat 64 (memRead s (table + 8 * (va / 2 ^ sh % 2 ^ bits)) 8)
    if !e.getLsbD 0 then .absent
    else if pteReserved e || e.extractLsb' 62 2 == 3 then .malformed
    else if e.getLsbD 2 then
      match psz with
      | none => .malformed
      | some z =>
        if pteAddr e % pageBytes z ≠ 0 then .malformed
        else .leaf { part := part, psz := z, va := va / pageBytes z * pageBytes z, pa := pteAddr e,
                     mt := e.extractLsb' 62 2, r := e.getLsbD 3, w := e.getLsbD 4, x := e.getLsbD 5 }
    else if tableBad s e then .malformed
    else walkLevels s part va (pteAddr e) rest

/-- The five levels of R125. -/
def walkPlan : List (Nat × Nat × Option (BitVec 2)) :=
  [(48, 9, none), (39, 9, none), (30, 9, some 2), (21, 9, some 1), (16, 5, some 0)]

/-- A page walk from the root of a partition (R125, R346). -/
def walk (s : State) (part : Nat) (va : Word) : WalkOut :=
  walkLevels s part (va.toNat % 2 ^ 57) (pteAddr (partOf s part).ptroot) walkPlan

/-! ### TLBs and translation registers (R128–R132) -/

/-- The entry translates the address for the partition. -/
def tlbMatches (part : Nat) (va : Nat) (e : TlbEntry) : Bool :=
  e.part == part && decide (e.va ≤ va) && decide (va < e.va + pageBytes e.psz)

/-- The entry of the core's TLB or of its quad's that translates the address (R132). -/
def tlbFind (s : State) (c part : Nat) (va : Word) : Option TlbEntry :=
  let v := va.toNat % 2 ^ 57
  ((coreOf s c).tlb.find? (tlbMatches part v)).orElse fun _ => (quadOf s (c / 4)).tlb.find? (tlbMatches part v)

/-- The place of an address in a page, or PROT for a frame that is reserved or not set (R123). -/
def leafOf (s : State) (e : TlbEntry) (va : Word) : Trans :=
  let pa := e.pa + (va.toNat % 2 ^ 57 - e.va)
  let l : Leaf := { loc := pa, mt := e.mt, r := e.r, w := e.w, x := e.x }
  if frameSet s pa then .ok l else .bad (some l)

/-- The outcome of the TLBs, then of a walk, for an address outside the aperture (R132). -/
def entryOut (s : State) (c part : Nat) (va : Word) : WalkOut :=
  match tlbFind s c part va with
  | some e => .leaf e
  | none => walk s part va

/-- Translates a canonical address outside the aperture (R132). -/
def transPage (s : State) (c part : Nat) (va : Word) : Trans :=
  match entryOut s c part va with
  | .leaf e => leafOf s e va
  | .absent => .absent
  | .malformed => .bad none

/-- Translates an aperture address for a launch (R124). -/
def transAperture (s : State) (c launch o : Nat) : Trans :=
  let l : Leaf := { loc := scratchLoc c o, mt := 0, r := true, w := true, x := false }
  if granuleOk s c o launch then .ok l else .bad (some l)

/-- Translates a canonical address for a group on core c. -/
def transVa (s : State) (c : Nat) (g : Group) (va : Word) : Trans :=
  if inAperture va then transAperture s c g.launch (apOffset va) else transPage s c g.part va

/-- bN of a group. -/
def tregOf (g : Group) (n : Nat) : TReg := tabGet TReg.reset g.tregs n

/-- base(bN) as a 64-bit address: what the TRB wrote, whether canonical or not (R130; DEDUCED, log 52). -/
def tregBase (t : TReg) : Word := t.base

/-- Bytes from BASE to the end of its page or of the aperture (R129). -/
def tregLimit (t : TReg) : Nat :=
  if t.psz = 3 then 2 ^ 22 - t.pa.toNat else pageBytes t.psz - t.base.toNat % pageBytes t.psz

/-- The execute permission of an address's page, which a translation register does not hold (R126, R128). -/
def pageExec (s : State) (c part : Nat) (va : Word) : Bool :=
  match entryOut s c part va with
  | .leaf e => e.x
  | _ => false

/-- Translates an effective address through bN (R129): the fast path and the TLBs give the same result. -/
def transVia (s : State) (c : Nat) (g : Group) (n : Nat) (ea : Word) : Trans :=
  let t := tregOf g n
  let o := (ea - tregBase t).toNat
  if t.v && decide (o < tregLimit t) then
    if t.psz = 3 then transAperture s c g.launch (t.pa.toNat + o)
    else
      let l : Leaf := { loc := t.pa.toNat + o, mt := t.mt, r := t.rd, w := t.wr, x := pageExec s c g.part ea }
      if frameSet s l.loc then .ok l else .bad (some l)
  else transVa s c g ea

/-- A translation that misses the TLBs starts a walk whose fill comes later (R132, R133). -/
def noteWalk (s : State) (c part : Nat) (va : Word) : State :=
  if inAperture va || (tlbFind s c part va).isSome then s
  else
    match walk s part va with
    | .leaf e =>
      let k := coreOf s c
      let w : Walk := { part := part, g := (partOf s part).gen, entry := e }
      if k.walks.contains w then s else setCore s c { k with walks := k.walks ++ [w] }
    | _ => s

/-- Adds an entry to a TLB of n places; a full TLB drops its oldest entry (log 11). -/
def tlbAdd (n : Nat) (e : TlbEntry) (t : List TlbEntry) : List TlbEntry :=
  (t.filter (fun x => x != e)).drop (t.length + 1 - n) ++ [e]

/-! ### Logical time (R164–R166) -/

/-- The key of the 128-byte line, or of the 16-byte scratchpad row, that holds a location (R165). -/
def lineKey (loc : Nat) : Nat :=
  if loc < Config.scratchKey then loc / 128 else Config.scratchKey + (loc - Config.scratchKey) / 16

/-- A location in each line or row that n bytes touch: one for bytes within a 128-byte line (R165). -/
def rowsOf (loc n : Nat) : List Nat :=
  if loc < Config.scratchKey then [loc] else (List.range ((loc % 16 + n + 15) / 16)).map fun i => loc / 16 * 16 + 16 * i

/-- W and L of a line or row. -/
def lineOf (s : State) (loc : Nat) : Nat × Nat := tabGet (0, 0) s.lines (lineKey loc)

/-- Writes W and L. -/
def setLine (s : State) (loc w l : Nat) : State := { s with lines := tabSet (0, 0) s.lines (lineKey loc) (w, l) }

/-- Writes W and L of every line or row of n bytes, from the values before. -/
def setRows (s : State) (loc n : Nat) (f : Nat × Nat → Nat × Nat) : State :=
  (rowsOf loc n).foldl (fun s r => setLine s r (f (lineOf s r)).1 (f (lineOf s r)).2) s

/-- The largest of what the lines or rows of n bytes give, and of `t`. -/
def maxRows (s : State) (loc n t : Nat) (f : Nat × Nat → Nat) : Nat :=
  (rowsOf loc n).foldl (fun t r => Nat.max t (f (lineOf s r))) t

/-- Λ of a partition: 0 acts as 1 (R166). -/
def leaseLen (s : State) (part : Nat) : Nat := Nat.max 1 (partOf s part).lease.toNat

/-- Writes zero to a range of memory. -/
def zeroRange (s : State) (lo n : Nat) : State :=
  { s with mem := s.mem.filter fun x => !(decide (lo ≤ x.1) && decide (x.1 < lo + n)) }

/-- The bytes of a 128-byte line, as an L1 copies them. -/
def lineData (s : State) (line : Nat) : Tab Byte :=
  s.mem.filter fun c => decide (128 * line ≤ c.1) && decide (c.1 < 128 * line + 128)

/-- The line holds data with an uncorrectable error (R137). -/
def isPoisoned (s : State) (loc : Nat) : Bool := tabGet false s.poison (lineKey loc)

/-- Some line or row of n bytes holds such data. -/
def anyPoisoned (s : State) (loc n : Nat) : Bool := (rowsOf loc n).any (isPoisoned s)

/-- Puts a line into an L1 of 2048 lines; a full L1 drops a line (log 9). -/
def l1Put (k : Core) (line : Nat) (x : L1Line) : Core :=
  let t := if (tabFind line k.l1).isSome || k.l1.length < 2048 then k.l1 else k.l1.drop 1
  { k with l1 := tabPut line x t }

/-- A load or WAITM check served at the home slice: the line's lease is extended and the L1 keeps a copy (R165). It counts as an
L1 miss also where it renews a lease, and so does every FRD and repeat of a WAITM there (R351; DESIGN CHOICE, log 19). -/
def loadHome (s : State) (c part loc n : Nat) : Nat × State :=
  let (w, l) := lineOf s loc
  let ts := Nat.max (coreTime s c) w
  let l' := Nat.max l (ts + leaseLen s part)
  let s := setLine s loc w l'
  let k := l1Put (coreOf s c) (loc / 128)
    { data := lineData s (loc / 128), w := w, e := Nat.min l' (ts + leaseLen s part) }
  (memRead s loc n, setCoreTime (setCore s c { k with l1miss := k.l1miss + 1 }) c ts)

/-- The core's L1 serves a load of the line: it holds it with a lease to Tc (R165). -/
def servedByL1 (s : State) (c loc : Nat) : Bool :=
  decide (loc < Config.scratchKey) &&
    (match tabFind (loc / 128) (coreOf s c).l1 with
    | some x => decide (coreTime s c ≤ x.e)
    | none => false)

/-- A load or WAITM check of n bytes within one line by core c (R165): the value and the state after. -/
def loadAt (s : State) (c part loc n : Nat) : Nat × State :=
  let tc := coreTime s c
  if Config.scratchKey ≤ loc then
    let ts := maxRows s loc n tc (·.1)
    (memRead s loc n, setCoreTime (setRows s loc n fun x => (x.1, Nat.max x.2 ts)) c ts)
  else
    let line := loc / 128
    match tabFind line (coreOf s c).l1 with
    | some x =>
      if tc ≤ x.e then (tabRead x.data loc n, setCoreTime s c (Nat.max tc x.w)) else loadHome s c part loc n
    | none => loadHome s c part loc n

/-- W of the version that a load of n bytes within one line or row reads: of the core's L1 copy while its lease lasts, else
of the line at home (R165). -/
def versionW (s : State) (c loc : Nat) : Nat :=
  match (if loc < Config.scratchKey then tabFind (loc / 128) (coreOf s c).l1 else none) with
  | some x => if coreTime s c ≤ x.e then x.w else (lineOf s loc).1
  | none => (lineOf s loc).1

/-- The core's L1 copy, if any, takes the line's data at the home with lease end ts (R165). -/
def refreshL1 (s : State) (c loc w ts : Nat) : State :=
  let line := loc / 128
  match tabFind line (coreOf s c).l1 with
  | some _ => setCore s c { coreOf s c with l1 := tabPut line { data := lineData s line, w := w, e := ts } (coreOf s c).l1 }
  | none => s

/-- The timestamp of a store, atomic, FWR, FCLR, endpoint access or engine write of n bytes by core c (R165). -/
def storeTs (s : State) (c loc n : Nat) : Nat := maxRows s loc n (coreTime s c) (·.2 + 1)

/-- Performs the time side of a write whose bytes are already in memory: W, L, the L1 copy and Tc (R165). -/
def stampStore (s : State) (c loc n : Nat) : State :=
  let ts := storeTs s c loc n
  setCoreTime (refreshL1 (setRows s loc n fun _ => (ts, ts)) c loc ts ts) c ts

/-- The time side of a failed ACAS or an ABINC at its bound: W stays, L and Tc move (R165; DEDUCED, log 26). -/
def stampFailed (s : State) (c loc : Nat) : State :=
  let ts := storeTs s c loc 1
  let w := (lineOf s loc).1
  setCoreTime (refreshL1 (setLine s loc w ts) c loc w ts) c ts

/-! ### Wakes (R156, R183) -/

/-- The threads of a split that have an entry in the reading room. -/
def roomMask (k : Core) (slot split : Nat) : Mask :=
  k.room.foldl (fun m w => if w.slot == slot && w.split == split then m ||| w.mask else m) 0

/-- The split waits in the reading room. -/
def inRoom (sp : Split) : Bool :=
  match sp.wait with
  | some .reading | some (.endpoint _) => true
  | _ => false

/-- Clears the wait of a split that is in the reading room, and its entries: it repeats its word. -/
def leaveRoom (s : State) (c slot split : Nat) : State :=
  let k := coreOf s c
  let s := setCore s c { k with room := k.room.filter fun x => !(x.slot == slot && x.split == split) }
  match groupAt s c slot with
  | none => s
  | some g =>
    match splitAt g split with
    | none => s
    | some sp => if inRoom sp then setGroup s c slot (setSplit g split { sp with wait := none }) else s

/-- Splits of a core that wait in the reading room with a thread that found no free entry (R155). -/
def roomShort (k : Core) : List (Nat × Nat) :=
  k.slots.flatMap fun x => (x.2.splits.filter fun p =>
    inRoom p.2 && roomMask k x.1 p.1 != p.2.unfin.getD p.2.mask).map fun p => (x.1, p.1)

/-- Threads without an entry retry as entries free up (R155). -/
def retryRoom (s : State) (c : Nat) : State :=
  (roomShort (coreOf s c)).foldl (fun s p => leaveRoom s c p.1 p.2) s

/-- Wakes the split of a reading-room entry. -/
def wakeOne (s : State) (c : Nat) (w : Waiter) : State :=
  let s := leaveRoom s c w.slot w.split
  let s := match groupAt s c w.slot with
    | some g => restartStarve s g.part
    | none => s
  retryRoom s c

/-- Wakes every waiter of the package that a predicate selects. -/
def wakeAll (s : State) (p : Waiter → Bool) : State :=
  s.cores.foldl (fun s c => (c.2.room.filter p).foldl (fun s w => wakeOne s c.1 w) s) s

/-- A performed write of [loc, loc + n) wakes WAITM threads on its 8-byte words (R183). -/
def wakeWaitm (s : State) (loc n : Nat) : State :=
  wakeAll s fun w => !w.futur && decide (w.loc < loc + n) && decide (loc < w.loc + 8)

/-- A performed FWR wakes every waiter on its word (R156, R183). -/
def wakeFuture (s : State) (loc : Nat) : State := wakeAll s fun w => w.loc == loc

/-! ### Performing writes -/

/-- A store of n bytes within one line by core c, performed (R165), with its wakes. -/
def storeAt (s : State) (c loc n x : Nat) : State := wakeWaitm (stampStore (memWrite s loc n x) c loc n) loc n

/-- The pieces of an access of n bytes: within 128-byte lines, low then high (R140). -/
def pieces (loc n : Nat) : List (Nat × Nat) :=
  let k := 128 - loc % 128
  if n ≤ k then [(loc, n)] else [(loc, k), (loc + k, n - k)]

/-- Word w of a future page is full (R153). -/
def isFull (s : State) (loc : Nat) : Bool := tabGet false s.full loc

/-- Sets or clears a full/empty bit. -/
def setFull (s : State) (loc : Nat) (b : Bool) : State := { s with full := tabSet false s.full loc b }

/-- The new memory value and whether memory is written, of an atomic operation numbered as major 0x2C 0–7 and 0x2D
8–12, on n bytes (R148–R152). -/
def atomicNew (op n : Nat) (old v w : Nat) : Nat × Bool :=
  let b := 8 * n
  let m := 2 ^ b
  match op with
  | 0 => ((old + v) % m, true)
  | 1 => (old &&& (v % m), true)
  | 2 => (old ||| (v % m), true)
  | 3 => (old ^^^ (v % m), true)
  | 4 => (v % m, true)
  | 5 => (if intOf b true v < intOf b true old then v % m else old, true)
  | 6 => (if intOf b true old < intOf b true v then v % m else old, true)
  | 7 => if old = v % m then (w % m, true) else (old, false)
  | 8 => (Nat.min old (v % m), true)
  | 9 => (Nat.max old (v % m), true)
  | 10 =>
    let t := if n = 8 then FTy.f64 else FTy.f32
    ((sumTo t .rne [fDecode t old, fDecode t (v % m)]).1, true)
  | 11 => if old < v % 2 ^ 32 then (old + 1, true) else (old, false)
  | _ => (Nat.max old (v % m), true)

/-- What t receives from an atomic (R148–R150). -/
def atomicOld (op n old v : Nat) : Word :=
  if op = 5 ∨ op = 6 then BitVec.ofNat 64 (intBits 64 (intOf (8 * n) true old))
  else if op = 11 then (if old < v % 2 ^ 32 then BitVec.ofNat 64 old else 0xFFFFFFFF)
  else BitVec.ofNat 64 old

/-- An atomic read and write by core c, one event (R147, R165): what t receives and the state after. -/
def atomicAt (s : State) (c loc op n v w : Nat) : Word × State :=
  let old := memRead s loc n
  let (x, wr) := atomicNew op n old v w
  (atomicOld op n old v, if wr then storeAt s c loc n x else stampFailed s c loc)

/-- Stores the low bytes of x in the first piece, the next ones in the second (R140). -/
def storePieces (s : State) (c x : Nat) : List (Nat × Nat) → State
  | [] => s
  | (l, k) :: r => storePieces (storeAt s c l k (x % 2 ^ (8 * k))) c (x / 2 ^ (8 * k)) r

/-- Performs an access that a group issued earlier (R165; DEDUCED, log 8). -/
def performPend (s : State) (c : Nat) (a : PendAcc) : State :=
  match a.op with
  | .plain x => storePieces s c x.toNat (pieces a.loc a.n)
  | .rmw op v w => (atomicAt s c a.loc op a.n v.toNat w.toNat).2
  | .fwr x => wakeFuture (setFull (storeAt s c a.loc 8 x.toNat) a.loc true) a.loc
  | .fclr => setFull (stampStore s c a.loc 8) a.loc false

/-- Ends the waits of a group's splits that a predicate selects: they repeat their words. -/
def wakeSplits (s : State) (c slot : Nat) (p : Wait → Bool) : State :=
  match groupAt s c slot with
  | none => s
  | some g =>
    setGroup s c slot { g with splits := g.splits.map fun x =>
      match x.2.wait with
      | some w => if p w then (x.1, { x.2 with wait := none }) else x
      | none => x }

/-- A waiting record enters the queue, which ends an EVWAIT and restarts the starvation interval (R184, R185, R189). -/
def postRecord (s : State) (c : Nat) : State :=
  let k := coreOf s c
  match k.waiting with
  | [] => s
  | e :: rest =>
    if 64 ≤ k.events.length then s
    else
      let s := setCore s c { k with events := k.events ++ [e], waiting := rest }
      let s := wakeSplits s c e.slot fun w =>
        match w with
        | .events _ => true
        | _ => false
      match groupAt s c e.slot with
      | some g => restartStarve s g.part
      | none => s

/-- Waiting records enter as places are free: a freed place is taken in the cycle in which it frees (R184). -/
def postRecords (s : State) (c : Nat) : Nat → State
  | 0 => s
  | n + 1 => if (coreOf s c).waiting.isEmpty then s else postRecords (postRecord s c) c n

/-- Ends such waits of every group of a core. -/
def wakeCore (s : State) (c : Nat) (p : Wait → Bool) : State :=
  (coreOf s c).slots.foldl (fun s x => wakeSplits s c x.1 p) s

/-- Performs the accesses that a group has issued, in order (R135, R165), and ends its waits for them. -/
def drainPend (s : State) (c slot : Nat) : State :=
  match groupAt s c slot with
  | none => s
  | some g =>
    let s := g.pend.foldl (fun s a => performPend s c a) (setGroup s c slot { g with pend := [] })
    wakeSplits s c slot fun w => match w with
      | .performed _ => true
      | _ => false

/-- The same where the group has issued any. -/
def settlePend (s : State) (c slot : Nat) : State :=
  match groupAt s c slot with
  | none => s
  | some g => if g.pend.isEmpty then s else drainPend s c slot

end Sys2Proof.Machine
end

