-- ==== Sys2Proof/Machine/Endpoint.lean ====
section
/-! DEFINITION. Endpoint windows, on-chip queues and the sending side of the Thedel ports (R157–R160, R303–R309). -/

namespace Sys2Proof.Machine

/-- What an endpoint address reaches (R303). -/
inductive Window where
  | send (q : Nat)
  | recv (q : Nat)
  | thedel (port vl : Nat)
  | reserved
deriving DecidableEq, Repr

/-- The layout of R303. -/
def windowOf (pa : Nat) : Window :=
  let o := pa - 2 ^ 51
  if pa < 2 ^ 51 then .reserved
  else if o < 512 * 0x4000 then (if o % 0x4000 < 0x2000 then .send (o / 0x4000) else .recv (o / 0x4000))
  else if 0x100000000 ≤ o ∧ o < 0x100000000 + 144 * 0x2000 then
    .thedel ((o - 0x100000000) / 0x2000 / 8) ((o - 0x100000000) / 0x2000 % 8)
  else .reserved

/-- The first address of the window that holds an endpoint address. -/
def windowBase (pa : Nat) : Nat := pa / 0x2000 * 0x2000

/-- The addresses of the windows of queue q, and of a port's lane. -/
def sendBase (q : Nat) : Nat := 2 ^ 51 + q * 0x4000
/-- The receive window of queue q. -/
def recvBase (q : Nat) : Nat := 2 ^ 51 + q * 0x4000 + 0x2000
/-- The send window of a port's virtual lane. -/
def thedelBase (port vl : Nat) : Nat := 2 ^ 51 + 0x100000000 + (8 * port + vl) * 0x2000

/-- Bit 12 of an address: the closing half of a send window, the status half of a receive window. -/
def bit12 (pa : Nat) : Bool := pa.testBit 12

/-- Queue q. -/
def queueOf (s : State) (q : Nat) : Queue := tabGet Queue.reset s.queues q

/-- Writes queue q. -/
def setQueue (s : State) (q : Nat) (x : Queue) : State := { s with queues := tabPut q x s.queues }

/-- Words that can be dequeued (R304). -/
def closedWords (x : Queue) : Nat := (x.closed.map fun p => p.words.length).sum

/-- Words of the queue, open and closed (R304). -/
def queueWords (x : Queue) : Nat := closedWords x + x.opened.length

/-- Words of an on-chip queue (R303). -/
def queueSize : Nat := 512

/-- Adds a word to a packet being built: the words that stay open, and the packet if it closes, truncated where its
64th word comes without the closing bit (R158). -/
def addWord (opened : List Word) (x : Word) (close : Bool) : List Word × Option Packet :=
  let ws := opened ++ [x]
  if close then ([], some { words := ws, trunc := false })
  else if ws.length = 64 then ([], some { words := ws, trunc := true })
  else (ws, none)

/-- Wakes what waits on a window (R160). -/
def wakeWindow (s : State) (base : Nat) : State := wakeAll s fun w => w.loc == base

/-- Enqueues a word (R158). -/
def enqueue (s : State) (q : Nat) (x : Word) (close : Bool) : State :=
  let y := queueOf s q
  let (op, pk) := addWord y.opened x close
  match pk with
  | none => setQueue s q { y with opened := op }
  | some p => wakeWindow (setQueue s q { closed := y.closed ++ [p], opened := op }) (recvBase q)

/-- Puts a whole packet into a queue. -/
def enqueuePacket (s : State) (q : Nat) (p : Packet) : State :=
  let y := queueOf s q
  wakeWindow (setQueue s q { y with closed := y.closed ++ [p] }) (recvBase q)

/-- Thedel port p. -/
def portOf (s : State) (p : Nat) : Port := tabGet Port.reset s.ports p

/-- Writes port p. -/
def setPort (s : State) (p : Nat) (x : Port) : State := { s with ports := tabPut p x s.ports }

/-- Adds n to a counter that saturates at 0xFFFF (R309). -/
def sat16 (n k : Nat) : Nat := Nat.min (n + k) 0xFFFF

/-- The queue that word 0 of a packet names (R305). -/
def pktQueue (p : Packet) : Nat := ((p.words.headD 0).extractLsb' 46 9).toNat

/-- The package that word 0 of a packet names (R305). -/
def pktDest (p : Packet) : Nat := ((p.words.headD 0).extractLsb' 55 9).toNat

/-- Flits of a packet: up to 7 words each (R306). -/
def flits (p : Packet) : Nat := (p.words.length + 6) / 7

/-- Flits in a lane's receive buffer. -/
def rxFlits (x : Port) (vl : Nat) : Nat := ((tabGet [] x.rx vl).map flits).sum

/-- The receiver sends STOP at 48 flits and GO at 16 (R306). -/
def watermark (x : Port) (vl : Nat) : Port :=
  if 48 ≤ rxFlits x vl then { x with rxStop := tabSet false x.rxStop vl true }
  else if rxFlits x vl ≤ 16 then { x with rxStop := tabSet false x.rxStop vl false }
  else x

/-- Moves packets of one receive buffer into their queues while the first has room (R306); `fuel` bounds the number. -/
def pumpLane (s : State) (p vl : Nat) : Nat → State
  | 0 => s
  | fuel + 1 =>
    match tabGet [] (portOf s p).rx vl with
    | [] => s
    | pk :: rest =>
      if queueWords (queueOf s (pktQueue pk)) + pk.words.length ≤ queueSize then
        let x := portOf s p
        pumpLane (enqueuePacket (setPort s p (watermark { x with rx := tabSet [] x.rx vl rest } vl)) (pktQueue pk) pk) p vl fuel
      else s

/-- Moves what can be moved from every receive buffer (R306). -/
def pump (s : State) : State :=
  s.ports.foldl (fun s p => p.2.rx.foldl (fun s l => pumpLane s p.1 l.1 l.2.length) s) s

/-- Dequeues the head word of a queue that holds one (R159), and lets waiting packets and stores follow. -/
def dequeue (s : State) (q : Nat) : Option (Word × State) :=
  let y := queueOf s q
  match y.closed with
  | [] => none
  | p :: rest =>
    match p.words with
    | [] => none
    | x :: ws =>
      let closed := if ws.isEmpty then rest else { p with words := ws } :: rest
      some (x, wakeWindow (pump (setQueue s q { y with closed := closed })) (sendBase q))

/-- The status word of a receive window (R159). -/
def queueStatus (x : Queue) : Word :=
  match x.closed with
  | [] => 1#64 <<< 63
  | p :: _ =>
    (if p.words.length = 1 then 1#64 <<< 62 else 0) ||| (if p.trunc then 1#64 <<< 61 else 0)
      ||| BitVec.ofNat 64 (closedWords x)

/-- The address by which the accesses of an endpoint are ordered: the two windows of a queue share one (R157, R165). -/
def windowLine (pa : Nat) : Nat :=
  match windowOf pa with
  | .send q | .recv q => sendBase q
  | _ => windowBase pa

/-- An endpoint access is an event of core c (R157, R165). -/
def stampWindow (s : State) (c pa : Nat) : State := stampStore s c (windowLine pa) 8

/-- The outcome of an endpoint access. -/
inductive WinOut where
  | done (x : Word) (s : State)
  /-- The queue is full or empty (R160). -/
  | wait (base : Nat)
  /-- The port has lost its last lane (R307). -/
  | dead

/-- A store to a Thedel window by the group in a slot of core c (R158, R305–R307); 32 words fit while the lane is
stopped (R306). A port that is not trained takes stores as another does (DESIGN CHOICE, log 14). -/
def storeThedel (s : State) (c slot pa port vl : Nat) (ea x : Word) : WinOut :=
  let p := portOf s port
  let stopped := tabGet false p.stops vl
  if p.failed then .dead
  else if stopped && decide (32 ≤ tabGet 0 p.buf vl) then .wait (windowBase pa)
  else
    let (op, pk) := addWord (tabGet [] p.opened vl) x (bit12 pa)
    let p := { p with
      opened := tabSet [] p.opened vl op
      buf := if stopped then tabSet 0 p.buf vl (tabGet 0 p.buf vl + 1) else p.buf }
    match pk with
    | none => .done 0 (stampWindow (setPort s port p) c pa)
    | some q =>
      let part := match groupAt s c slot with
        | some g => g.part
        | none => 0
      let s := setPort s port
        { p with sent := p.sent ++ [{ id := p.next, part := part, vl := vl, pkt := q }], next := p.next + 1 }
      let s := match groupAt s c slot with
        | some g => setGroup s c slot { g with acks := g.acks ++ [(port + 18 * p.next, ea &&& ~~~0x1FFF#64)] }
        | none => s
      .done 0 (stampWindow s c pa)

/-- A word enters a send window (R158). -/
def putWindow (s : State) (c slot pa : Nat) (ea x : Word) : WinOut :=
  match windowOf pa with
  | .send q =>
    if queueSize ≤ queueWords (queueOf s q) then .wait (windowBase pa)
    else .done 0 (stampWindow (enqueue s q x (bit12 pa)) c pa)
  | .thedel port vl => storeThedel s c slot pa port vl ea x
  | _ => .dead

/-- The port of a window has lost its last lane (R307). -/
def windowDead (s : State) (pa : Nat) : Bool :=
  match windowOf pa with
  | .thedel p _ => (portOf s p).failed
  | _ => false

/-- A copy engine is enqueuing a packet on the window (R304). -/
def engineOn (s : State) (base : Nat) : Bool := s.cores.any fun k => k.2.copies.any fun j => j.win == some base

/-- A store to an endpoint window: it fails on a dead port (R307), and waits while a copy engine enqueues there (R158, R160,
R304). -/
def storeWindow (s : State) (c slot pa : Nat) (ea x : Word) : WinOut :=
  if windowDead s pa then .dead else if engineOn s (windowBase pa) then .wait (windowBase pa) else putWindow s c slot pa ea x

/-- A load from a receive window (R159, R160). -/
def loadWindow (s : State) (c pa : Nat) : WinOut :=
  match windowOf pa with
  | .recv q =>
    if bit12 pa then .done (queueStatus (queueOf s q)) (stampWindow s c pa)
    else
      match dequeue s q with
      | some (x, s) => .done x (stampWindow s c pa)
      | none => .wait (windowBase pa)
  | _ => .dead

end Sys2Proof.Machine
end

