-- ==== Sys2Proof/Machine/Agents.lean ====
section
/-! DEFINITION. Accesses that no compute group makes: their logical times (R164, R165), their translation (R313, R378), and
the record area of a launch (R324, R355, R356, R378). -/

namespace Sys2Proof.Machine

/-! ### Logical times (R164, R165) -/

/-- Who performs an event: a core, the host endpoint, the housekeeping path, the front end of a die. -/
inductive Agent where
  | core (c : Nat)
  | host
  | house
  | front (d : Nat)
deriving DecidableEq, Repr

/-- The logical time of an agent; each is kept as an offset to the common count of ticks (R166). -/
def agentTime (s : State) : Agent → Nat
  | .core c => coreTime s c
  | .host => s.tick + s.hostTime
  | .house => s.tick + s.hkTime
  | .front d => s.tick + tabGet 0 s.feTime d

/-- Sets it. -/
def setAgentTime (s : State) (t : Nat) : Agent → State
  | .core c => setCoreTime s c t
  | .host => { s with hostTime := t - s.tick }
  | .house => { s with hkTime := t - s.tick }
  | .front d => { s with feTime := tabSet 0 s.feTime d (t - s.tick) }

/-- Λ of an agent: 0 for all but cores (R165). -/
def agentLease (s : State) (part : Nat) : Agent → Nat
  | .core _ => leaseLen s part
  | _ => 0

/-- A read of n bytes within one line at its home, by an agent that keeps no copy (R165). -/
def agentLoad (s : State) (a : Agent) (part loc n : Nat) : Nat × State :=
  let ts := maxRows s loc n (agentTime s a) (·.1)
  let lease := if loc < Config.scratchKey then agentLease s part a else 0
  (memRead s loc n, setAgentTime (setRows s loc n fun x => (x.1, Nat.max x.2 (ts + lease))) ts a)

/-- The time side of a write of an agent; a core's L1 copy takes the data (R165). -/
def agentStamp (s : State) (a : Agent) (loc n : Nat) : State :=
  match a with
  | .core c => stampStore s c loc n
  | _ =>
    let ts := maxRows s loc n (agentTime s a) (·.2 + 1)
    setAgentTime (setRows s loc n fun _ => (ts, ts)) ts a

/-- A write of n bytes within one line by an agent, with its wakes (R165, R183). -/
def agentStore (s : State) (a : Agent) (loc n x : Nat) : State :=
  wakeWaitm (agentStamp (memWrite s loc n x) a loc n) loc n

/-! ### Translation without a TLB (R313, R378) -/

/-- The outcome of an agent's translation: a location with its memory type, an absent page, any other cause. -/
inductive VaOut where
  | ok (loc : Nat) (mt : BitVec 2)
  | absent
  | bad
deriving DecidableEq, Repr

/-- Translates one address of a partition for a read or a write; an aperture address is refused (R313, R378). -/
def vaTrans (s : State) (part : Nat) (va : Word) (wr : Bool) : VaOut :=
  if !isCanonical va || inAperture va then .bad
  else
    match walk s part va with
    | .absent => .absent
    | .malformed => .bad
    | .leaf e =>
      let pa := e.pa + (va.toNat % 2 ^ 57 - e.va)
      if !frameSet s pa || !(if wr then e.w else e.r) then .bad else .ok pa e.mt

/-- The same for ordinary data: an endpoint page, or a write of a future page, is refused (R153, R157). -/
def vaPlain (s : State) (part : Nat) (va : Word) (wr : Bool) : VaOut :=
  match vaTrans s part va wr with
  | .ok loc mt => if mt = 2 || (wr && mt = 1) || targetOf loc == .endpoint then .bad else .ok loc mt
  | o => o

/-- A read of n aligned bytes at a virtual address. -/
inductive VaRead where
  | ok (x : Nat) (s : State)
  | absent
  | bad

/-- Reads n bytes within one line; data with an uncorrectable error is refused (R313). -/
def vaRead (s : State) (a : Agent) (part : Nat) (va : Word) (n : Nat) : VaRead :=
  match vaPlain s part va false with
  | .absent => .absent
  | .bad => .bad
  | .ok loc _ =>
    if isPoisoned s loc then .bad
    else
      let (x, s) := agentLoad s a part loc n
      .ok x s

/-- Reads k words of 8 bytes each. -/
def vaReadWords (s : State) (a : Agent) (part : Nat) (va : Word) : Nat → Option (Except Word (List Word × State))
  | 0 => some (.ok ([], s))
  | k + 1 =>
    match vaRead s a part va 8 with
    | .absent => some (.error va)
    | .bad => none
    | .ok x s =>
      match vaReadWords s a part (va + 8) k with
      | some (.ok (xs, s)) => some (.ok (BitVec.ofNat 64 x :: xs, s))
      | o => o

/-- The outcome of a write. -/
inductive VaWrite where
  | ok (s : State)
  | absent (va : Word)
  | bad

/-- Writes n bytes within one line. -/
def vaWrite (s : State) (a : Agent) (part : Nat) (va : Word) (n x : Nat) : VaWrite :=
  match vaPlain s part va true with
  | .absent => .absent va
  | .bad => .bad
  | .ok loc _ => .ok (agentStore s a loc n x)

/-! ### The record area (R324) -/

/-- Every one of the given addresses can be written: `none`, or what the first other one meets. -/
def pagesOk (s : State) (part : Nat) : List Word → Option VaWrite
  | [] => none
  | va :: r =>
    match vaPlain s part va true with
    | .ok _ _ => pagesOk s part r
    | .absent => some (.absent va)
    | .bad => some .bad

/-- Little-endian bytes of n bytes. -/
def leBytes (n x : Nat) : List Byte := (List.range n).map fun i => BitVec.ofNat 8 (x / 2 ^ (8 * i))

/-- The number that little-endian bytes give. -/
def leNat : List Byte → Nat
  | [] => 0
  | b :: r => b.toNat + 256 * leNat r

/-- Writes bytes in pieces of at most 8 that end at 8-byte boundaries, each one event. -/
def vaWriteBytes (s : State) (a : Agent) (part : Nat) (va : Word) (bs : List Byte) : Nat → VaWrite
  | 0 => .ok s
  | fuel + 1 =>
    if bs.isEmpty then .ok s
    else
      let k := Nat.min bs.length (8 - va.toNat % 8)
      match vaWrite s a part va k (leNat (bs.take k)) with
      | .ok s => vaWriteBytes s a part (va + BitVec.ofNat 64 k) (bs.drop k) fuel
      | o => o

/-- The addresses that a write of `len` bytes touches, one in each 64 KiB block. -/
def spanAddrs (va : Word) (len : Nat) : List Word :=
  if len = 0 then []
  else va :: (if va >>> 16 = (va + BitVec.ofNat 64 (len - 1)) >>> 16 then [] else [va + BitVec.ofNat 64 (len - 1)])

/-- Reads a header word at home without an event of its own: the write that follows is one atomic event. -/
def recWord (s : State) (l : Launch) (off : Nat) : Nat :=
  match vaPlain s l.part (l.recArea + BitVec.ofNat 64 off) true with
  | .ok loc _ => memRead s loc 8
  | _ => 0

/-- The offset of the next free byte, RECNEXT (R324). -/
def recNext (s : State) (l : Launch) : Nat := recWord s l 40

/-- The ranges of the record area that a record operation writes: offset and bytes. -/
def recRanges (s : State) (l : Launch) : RecOp → List (Nat × Nat)
  | .put off bs => [(off, bs.length)]
  | .append bs => (40, 8) :: (if recNext s l + bs.length ≤ l.rsize then [(recNext s l, bs.length)] else [(8, 8)])
  | .done _ => [(0, 8)]
  | .preempt _ => [(32, 8)]

/-- The addresses that a record operation writes, one in each 64 KiB block of a range. -/
def recAddrs (s : State) (l : Launch) (op : RecOp) : List Word :=
  (recRanges s l op).flatMap fun r => spanAddrs (l.recArea + BitVec.ofNat 64 r.1) r.2

/-- A line that a record operation writes holds data with an uncorrectable error (R378). -/
def recPoisoned (s : State) (l : Launch) (op : RecOp) : Bool :=
  (recRanges s l op).any fun r => (List.range (r.2 / 128 + 2)).any fun i =>
    match vaPlain s l.part (l.recArea + BitVec.ofNat 64 (r.1 + Nat.min (128 * i) (r.2 - 1))) true with
    | .ok loc _ => isPoisoned s loc
    | _ => false

/-- Adds 1 to DONEW n times, each one event (R225). -/
def addDone (s : State) (a : Agent) (part : Nat) (va : Word) : Nat → VaWrite
  | 0 => .ok s
  | n + 1 =>
    match vaPlain s part va true with
    | .ok loc _ => addDone (agentStore s a loc 8 (memRead s loc 8 + 1)) a part va n
    | .absent => .absent va
    | .bad => .bad

/-- Performs a record operation whose pages are all present. -/
def recPerform (s : State) (a : Agent) (l : Launch) : RecOp → VaWrite
  | .put off bs => vaWriteBytes s a l.part (l.recArea + BitVec.ofNat 64 off) bs (bs.length + 1)
  | .append bs =>
    let k := recNext s l
    if k + bs.length ≤ l.rsize then
      match vaWriteBytes s a l.part (l.recArea + BitVec.ofNat 64 k) bs (bs.length + 1) with
      | .ok s => vaWrite s a l.part (l.recArea + 40) 8 (k + bs.length)
      | o => o
    else vaWrite s a l.part (l.recArea + 8) 8 (recWord s l 8 % 2 ^ 63 + 2 ^ 63)
  | .done n => addDone s a l.part l.recArea n
  | .preempt next => vaWrite s a l.part (l.recArea + 32) 8 ((recWord s l 32 + 1) % 2 ^ 32 + 2 ^ 32 * next)

/-- The outcome of a record operation (R378): performed, an absent page, or dropped for a cause. -/
inductive RecOut where
  | ok (s : State)
  | absent (va : Word)
  | drop (c : Cause)

/-- The 64 KiB block of an address. -/
def recBlock (va : Word) : Nat := va.toNat / 65536

/-- The first absent address that a record operation meets. -/
def firstAbsent (s : State) (l : Launch) (op : RecOp) : Option Word :=
  match pagesOk s l.part (recAddrs s l op) with
  | some (.absent va) => some va
  | _ => none

/-- Checks the pages and the lines, then performs (R378). -/
def recTry (s : State) (a : Agent) (l : Launch) (op : RecOp) : RecOut :=
  match pagesOk s l.part (recAddrs s l op) with
  | some (.absent va) => if l.recProt.contains (recBlock va) then .drop .prot else .absent va
  | some _ => .drop .prot
  | none =>
    if recPoisoned s l op then .drop .memerr
    else
      match recPerform s a l op with
      | .ok s => .ok s
      | .absent va => .absent va
      | .bad => .drop .prot

/-- Adds a write to those that wait for Jalov's service of a page. -/
def recQueue (s : State) (n : Nat) (op : RecOp) : State :=
  match launchOf s n with
  | some l => setLaunch s n { l with recPend := l.recPend ++ [op] }
  | none => s

/-- A write made on a launch's behalf (R378): performed; queued, and the fault reported, where a page is absent or an
earlier write waits; dropped and reported on any other cause. -/
def recWrite (s : State) (a : Agent) (n : Nat) (op : RecOp) : State :=
  match launchOf s n with
  | none => s
  | some l =>
    if !l.recPend.isEmpty then recQueue s n op
    else
      match recTry s a l op with
      | .ok s => s
      | .absent va => report (recQueue s n op) (.recFault n va)
      | .drop c => report s (.recDrop n (causeCode c).toNat)

/-- Performs the writes that wait, in order, as far as their pages are present (R378). -/
def recFlush (s : State) (a : Agent) (n : Nat) : List RecOp → State
  | [] =>
    match launchOf s n with
    | some l => setLaunch s n { l with recPend := [] }
    | none => s
  | op :: r =>
    match launchOf s n with
    | none => s
    | some l =>
      match recTry s a l op with
      | .ok s => recFlush s a n r
      | .absent va => report (setLaunch s n { l with recPend := op :: r }) (.recFault n va)
      | .drop c => recFlush (report s (.recDrop n (causeCode c).toNat)) a n r

/-- The front end that runs a launch's stream. -/
def launchAgent (s : State) (l : Launch) : Agent := .front (streamOf s ⟨l.part, l.stream⟩).die

/-- A list of 64-bit words as bytes. -/
def wordBytes (ws : List Nat) : List Byte := ws.flatMap (leBytes 8)

/-- The colophon of a group (R355); `fin` is 0 at the exit of its last thread and 1 where Jalov removed its threads. -/
def colophon (s : State) (g : Group) (fin : Nat) : List Byte :=
  wordBytes ([1 + 256 * fin + 2 ^ 16 * g.fstat.toNat, (cgid g).toNat, g.tstart.toNat, s.clock.toNat, g.gissue.toNat,
    g.gwords.toNat, 0, 0] ++ (List.range 16).map fun i => (tabGet 0 g.stalls i).toNat)

end Sys2Proof.Machine
end

