-- ==== Sys2Proof/Machine/Lanes.lean ====
section
/-! DEFINITION. Cross-lane words and SAMPLE, majors 0x22 to 0x27 (R103, R104, R113–R121): a word sees the active threads of
its split, and an element of any other thread reads as 0. -/

namespace Sys2Proof.Machine

/-- What the active threads read: thread, a, b and d. -/
abbrev LaneIn := List (Nat × Word × Word × Word)

/-- A cross-lane word: destination, sources, whether b must be uniform, whether a g destination is written once, and
the latency. -/
structure LaneWord where
  d    : Opnd
  a    : Opnd × Conv
  b    : Opnd × Conv
  uniB : Bool
  gOk  : Bool
  lat  : Nat
deriving DecidableEq, Repr

/-- OPSPEC of a cross-lane word: R36 for its names and destination, and a per-thread source where a uniform one is
asked for (R115, R116). -/
def laneOpspec (g : Group) (r : LaneWord) : Bool :=
  namesBad g [r.d, r.a.1, r.b.1] || badDst r.d || (r.uniB && !isUniform r.b.1) ||
    (match r.d with
    | .g _ => !r.gOk
    | _ => false)

/-- THE SHAPE OF EVERY CROSS-LANE WORD: it issues per thread in every case (R103); `f` takes what the active threads
read and gives the values to write by thread (key 32 for a g register) and the flags. -/
def laneWord (s : State) (h : Hd) (r : LaneWord) (f : LaneIn → List (Nat × Word) × Flags) : Out :=
  issue s fun pl g sp =>
    if laneOpspec g r then .next (trap s pl .opspec)
    else if hazard g sp pl.split [r.a.1, r.b.1] [r.d] then .next (trap s pl .hazard)
    else if tenderNeeds g sp [r.a.1, r.b.1] then .next (waitAt s pl g sp .tender)
    else
      let free := s.free
      let ins : LaneIn := sp.mask.threads.map fun t =>
        (t, readOp g sp free r.a.2 t r.a.1, readOp g sp free r.b.2 t r.b.1, regBefore g sp (.int 64) t r.d)
      let (vals, fl) := f ins
      let (g, sp) := deliver (raiseFlags g fl) sp pl.split .m (some r.lat) .var r.d vals
      .next (finish { s with free := s.free + 1 } pl g sp h (perThreadOcc sp.mask))

/-- A cross-lane word of latency 10 with two sources. -/
def lane2 (d a b : Opnd) (ca cb : Conv) : LaneWord :=
  { d := d, a := (a, ca), b := (b, cb), uniB := false, gOk := false, lat := 10 }

/-- The value of a source in a thread, 0 if the thread is not active (R104). -/
def laneVal (ins : LaneIn) (t : Nat) : Word :=
  match ins.find? fun p => p.1 == t with
  | some p => p.2.1
  | none => 0

/-- Element e of a as a vector of n-bit elements (R114). -/
def laneEl (ins : LaneIn) (n e : Nat) : Nat := subEl n (laneVal ins (e / (64 / n))) (e % (64 / n))

/-- Bits of an element width. -/
def laneBits : LaneW → Nat
  | .b64 => 64
  | .b32 => 32
  | .b16 => 16
  | .b8 => 8

/-- A register gathered from n-bit sub-elements. -/
def ofEls (n : Nat) (f : Nat → Nat) : Word := BitVec.ofNat 64 (packEls n ((List.range (64 / n)).map f))

/-- SHUF (R115). -/
def execShuf (h : Hd) (w : LaneW) (d a b : Opnd) (s : State) : Out :=
  let n := laneBits w
  laneWord s h (lane2 d a b (.int 64) (.int n)) fun ins =>
    (ins.map fun p => (p.1, ofEls n fun k => laneEl ins n (subEl n p.2.2.1 k % (32 * (64 / n)))), 0)

/-- BCAST: b is uniform (R115). -/
def execBcast (h : Hd) (w : LaneW) (d a b : Opnd) (s : State) : Out :=
  let n := laneBits w
  laneWord s h { lane2 d a b (.int 64) (.int 64) with uniB := true } fun ins =>
    (ins.map fun p => (p.1, ofEls n fun _ => laneEl ins n (p.2.2.1.toNat % (32 * (64 / n)))), 0)

/-- The thread that u(b) names (R116). -/
def laneNum (ins : LaneIn) : Nat := (ins.headD (0, 0, 0, 0)).2.2.1.toNat % 32

/-- The value of every active thread's destination, or of a g register once. -/
def everywhere (d : Opnd) (ins : LaneIn) (x : Word) : List (Nat × Word) :=
  match d with
  | .g _ => [(32, x)]
  | _ => ins.map fun p => (p.1, x)

/-- RDLANE: a g destination is written once (R116). -/
def execRdlane (h : Hd) (d a b : Opnd) (s : State) : Out :=
  laneWord s h { lane2 d a b (.int 64) (.int 64) with uniB := true, gOk := true } fun ins =>
    (everywhere d ins (laneVal ins (laneNum ins)), 0)

/-- WRLANE: writes d of thread s alone, if it is active (R116). -/
def execWrlane (h : Hd) (d a b : Opnd) (s : State) : Out :=
  laneWord s h { lane2 d a b (.int 64) (.int 64) with uniB := true } fun ins =>
    ((ins.filter fun p => p.1 == laneNum ins).map fun p => (p.1, p.2.1), 0)

/-- A word that writes one value to every active thread; a g destination traps (R117). -/
def voteWord (s : State) (h : Hd) (d a : Opnd) (f : LaneIn → Word) : Out :=
  laneWord s h (lane2 d a .z (.int 64) (.int 64)) fun ins => (ins.map fun p => (p.1, f ins), 0)

/-- VOTE.any (R117). -/
def execVoteAny (h : Hd) (d a : Opnd) (s : State) : Out :=
  voteWord s h d a fun ins => boolWord (ins.any fun p => p.2.1 != 0)
/-- VOTE.all (R117). -/
def execVoteAll (h : Hd) (d a : Opnd) (s : State) : Out :=
  voteWord s h d a fun ins => boolWord (ins.all fun p => p.2.1 != 0)
/-- VOTE.ballot (R117). -/
def execVoteBallot (h : Hd) (d a : Opnd) (s : State) : Out :=
  voteWord s h d a fun ins => ins.foldl (fun (x : Word) p => x ||| (if p.2.1 = 0#64 then 0#64 else (1#64 <<< p.1))) 0
/-- VOTE.eq (R117). -/
def execVoteEq (h : Hd) (d a : Opnd) (s : State) : Out :=
  voteWord s h d a fun ins => boolWord (ins.all fun p => p.2.1 == (ins.headD (0, 0, 0, 0)).2.1)

/-! ### COMPRESS and EXPAND (R120) -/

/-- The elements of the active threads in ascending order: value of a, and whether the selection source is non-zero. -/
def laneList (ins : LaneIn) (n : Nat) (sel : Word × Word × Word → Word) : List (Nat × Bool) :=
  ins.flatMap fun p => (List.range (64 / n)).map fun k => (subEl n p.2.1 k, subEl n (sel p.2) k != 0)

/-- Writes a list of elements back over the positions of the active threads. -/
def unlist (n : Nat) : LaneIn → List Nat → List (Nat × Word)
  | [], _ => []
  | p :: r, es => (p.1, BitVec.ofNat 64 (packEls n (es.take (64 / n)))) :: unlist n r (es.drop (64 / n))

/-- COMPRESS: the selected values, then zeros (R120). -/
def compressEls (l : List (Nat × Bool)) : List Nat :=
  let c := (l.filter (·.2)).map (·.1)
  c ++ List.replicate (l.length - c.length) 0

/-- EXPAND: the j-th selected position receives the j-th value (R120). -/
def expandEls : List (Nat × Bool) → List Nat → List Nat
  | [], _ => []
  | (_, true) :: r, v :: vs => v :: expandEls r vs
  | (_, true) :: r, [] => 0 :: expandEls r []
  | (_, false) :: r, vs => 0 :: expandEls r vs

/-- Bits of COMPRESS and EXPAND. -/
def wideBits (wide : Bool) : Nat := if wide then 64 else 32

/-- COMPRESS.cnt: the selection source is a (R120). -/
def execCompressCnt (h : Hd) (wide : Bool) (d a : Opnd) (s : State) : Out :=
  let n := wideBits wide
  laneWord s h (lane2 d a .z (.int n) (.int 64)) fun ins =>
    (ins.map fun p => (p.1, BitVec.ofNat 64 ((laneList ins n (·.1)).filter (·.2)).length), 0)

/-- COMPRESS (R120). -/
def execCompress (h : Hd) (wide : Bool) (d a b : Opnd) (s : State) : Out :=
  let n := wideBits wide
  laneWord s h (lane2 d a b (.int 64) (.int n)) fun ins =>
    (unlist n ins (compressEls (laneList ins n (·.2.1))), 0)

/-- EXPAND (R120). -/
def execExpand (h : Hd) (wide : Bool) (d a b : Opnd) (s : State) : Out :=
  let n := wideBits wide
  laneWord s h (lane2 d a b (.int 64) (.int n)) fun ins =>
    let l := laneList ins n (·.2.1)
    (unlist n ins (expandEls l (l.map (·.1))), 0)

/-- Bits of SUBPERM. -/
def permBits : PermW → Nat
  | .b4 => 4
  | .b8 => 8
  | .b16 => 16
  | .b32 => 32

/-- SUBPERM: sub-element k is element u(b[4k + 3 : 4k]) mod E of the thread's own a (R121). -/
def execSubperm (h : Hd) (w : PermW) (d a b : Opnd) (s : State) : Out :=
  let n := permBits w
  laneWord s h (lane2 d a b (.int 64) (.int 64)) fun ins =>
    (ins.map fun p => (p.1, ofEls n fun k => subEl n p.2.1 (subEl 4 p.2.2.1 k % (64 / n))), 0)

/-! ### Reductions and scans (R118, R119) -/

/-- Bits of a reduction type. -/
def rBits : RTy → Nat
  | .s64 | .z64 | .f64 => 64
  | .s32 | .z32 | .f32 => 32
  | .bf16 => 16

/-- The float format of a reduction type, if it is one. -/
def rFloat : RTy → Option FTy
  | .f64 => some .f64
  | .f32 => some .f32
  | .bf16 => some .bf16
  | _ => none

/-- A reduction type is signed. -/
def rSigned : RTy → Bool
  | .s64 | .s32 => true
  | _ => false

/-- The conversion of a constant source. -/
def rConv (ty : RTy) : Conv :=
  match rFloat ty with
  | some t => .flt t
  | none => .int (rBits ty)

/-- The identity of an operation (R119). -/
def redIdent (op : RedOp) (ty : RTy) : Nat :=
  match rFloat ty with
  | some t => match op with
    | .min => fInf t false
    | .max => fInf t true
    | _ => 0
  | none =>
    let n := rBits ty
    match op with
    | .min => if rSigned ty then 2 ^ (n - 1) - 1 else 2 ^ n - 1
    | .max => if rSigned ty then 2 ^ (n - 1) else 0
    | .and => 2 ^ n - 1
    | _ => 0

/-- One integer step of a reduction (R119). -/
def redInt (op : RedOp) (ty : RTy) (x y : Nat) : Nat :=
  let n := rBits ty
  match op with
  | .add => (x + y) % 2 ^ n
  | .min => if intOf n (rSigned ty) y < intOf n (rSigned ty) x then y else x
  | .max => if intOf n (rSigned ty) x < intOf n (rSigned ty) y then y else x
  | .and => x &&& y
  | .or => x ||| y
  | .xor => x ^^^ y

/-- The members folded pairwise by FMIN or FMAX, the flags gathered (R119). A single member that is a NaN gives the
canonical NaN. -/
def redMinMax (t : FTy) (wantMax : Bool) : List Nat → Nat × Flags
  | [] => (fInf t wantMax, 0)
  | x :: r =>
    let start := minMaxTo t wantMax x x
    r.foldl (fun a y => let (z, f) := minMaxTo t wantMax a.1 y; (z, a.2 ||| f)) start

/-- The reduction of a list of members (R119). -/
def redList (op : RedOp) (ty : RTy) (l : List Nat) : Nat × Flags :=
  match rFloat ty with
  | some t => match op with
    | .add => if l.isEmpty then (0, 0) else sumTo t .rne (l.map (fDecode t))
    | .min => redMinMax t false l
    | .max => redMinMax t true l
    | _ => (0, 0)
  | none => (l.foldl (redInt op ty) (redIdent op ty), 0)

/-- The members at a sub-element position, in ascending thread order. -/
def redMembers (ty : RTy) (ins : LaneIn) (k : Nat) : List Nat := ins.map fun p => subEl (rBits ty) p.2.1 k

/-- GRED: the results at each position, gathered; a g destination is written once (R119). -/
def execGred (h : Hd) (op : RedOp) (ty : RTy) (d a : Opnd) (s : State) : Out :=
  laneWord s h { lane2 d a .z (rConv ty) (.int 64) with gOk := true } fun ins =>
    let (x, f) := mapEls (rBits ty) fun k => redList op ty (redMembers ty ins k)
    (everywhere d ins x, f)

/-- What thread number i of the active threads receives from a scan at a position: the members up to and including it,
or before it under .excl (R119; DEDUCED, log 32). -/
def scanAt (op : RedOp) (ty : RTy) (excl : Bool) (ms : List Nat) (i : Nat) : Nat × Flags :=
  if excl && i == 0 then (redIdent op ty, 0) else redList op ty (ms.take (if excl then i else i + 1))

/-- GSCAN (R119). -/
def execGscan (h : Hd) (op : RedOp) (ty : RTy) (excl : Bool) (d a : Opnd) (s : State) : Out :=
  laneWord s h (lane2 d a .z (rConv ty) (.int 64)) fun ins =>
    let rs := (List.range ins.length).map fun i => mapEls (rBits ty) fun k => scanAt op ty excl (redMembers ty ins k) i
    ((ins.map (·.1)).zip (rs.map (·.1)), rs.foldl (fun f r => f ||| r.2) 0)

/-! ### SAMPLE (R113) -/

/-- The weight of a category as significand and exponent, 0 unless it is finite and positive; and IV. -/
def weightOf (v : FVal) : Nat × Int × Flags :=
  match v with
  | .nan _ => (0, 0, fIV)
  | .inf _ => (0, 0, fIV)
  | .fin neg m e => if neg then (0, 0, flagIf (m != 0) fIV) else (m, e, 0)

/-- u' = sat(u, 0, 1 − 2^−24) as significand and exponent. -/
def satU (v : FVal) : Nat × Int :=
  match v with
  | .nan _ => (0, 0)
  | .inf neg => if neg then (0, 0) else (2 ^ 24 - 1, -24)
  | .fin neg m e =>
    if neg then (0, 0)
    else if 0 ≤ fvCmp (.fin false m e) (.fin false (2 ^ 24 - 1) (-24)) then (2 ^ 24 - 1, -24)
    else (m, e)

/-- The smallest index whose prefix sum, in units, is above the bound. -/
def firstAbove (bound : Int) : List (Nat × Int) → Int → Option Nat
  | [], _ => none
  | (c, w) :: r, acc => if bound < acc + w then some c else firstAbove bound r (acc + w)

/-- The category that SAMPLE draws and its flags (R113). -/
def sampleOf (t : FTy) (ins : LaneIn) (u : FVal) : Word × Flags :=
  let n := fLanes t
  let cs := ins.flatMap fun p => (List.range n).map fun k => (n * p.1 + k, weightOf (fDecode t (subEl (fWidth t) p.2.1 k)))
  let fl := cs.foldl (fun f c => f ||| c.2.2.2) 0 ||| flagIf (fvIsNan u) fIV
  let b := cs.foldl (fun b c => min b c.2.2.1) 0
  let ws : List (Nat × Int) := cs.map fun c => (c.1, (scaleTo b c.2.1 c.2.2.1 : Int))
  let total : Int := ws.foldl (fun a c => a + c.2) 0
  if total = 0 || fvIsNan u then (BitVec.allOnes 64, fl)
  else
    let (m, e) := satU u
    -- all in units of 2^b × 2^min(e, 0)
    let k := (-(min e 0)).toNat
    let unit : Int := 2 ^ k
    let bound := total * (m * 2 ^ (e + k).toNat : Nat)
    match firstAbove bound (ws.map fun c => (c.1, c.2 * unit)) 0 with
    | some c => (BitVec.ofNat 64 c, fl)
    | none => (BitVec.allOnes 64, fl)

/-- SAMPLE: latency 12, always per thread, b uniform (R103, R113). -/
def execSample (h : Hd) (ty : STy) (d a b : Opnd) (s : State) : Out :=
  laneWord s h { lane2 d a b (.flt (sFmt ty)) (.flt .f32) with uniB := true, lat := 12 } fun ins =>
    let u := fDecode .f32 (subEl 32 (ins.headD (0, 0, 0, 0)).2.2.1 0)
    let (x, f) := sampleOf (sFmt ty) ins u
    (ins.map fun p => (p.1, x), f)

end Sys2Proof.Machine
end

