-- ==== Sys2Proof/Machine/Fetch.lean ====
section
/-! DEFINITION. Fetching an instruction's bytes and the checks of a bundle before any of its words issues
(R20–R27, R45 kinds 1 to 4, R214, R215, R359). -/

namespace Sys2Proof.Machine

/-- The virtual address of word w of the packet whose PC is n, modulo 2^64: the spec does not say what a packet whose address
does not fit does (R20; DESIGN CHOICE, log 55). -/
def wordVa (pc : Word) (w : Nat) : Word := pc * 12 + BitVec.ofNat 64 (4 * w)

/-- The key of the fetch block of a packet in the instruction cache: 16 packets, per partition (R20). -/
def blockKey (part : Nat) (pc : Word) : Nat := part * 2 ^ 64 + pc.toNat / 16

/-- Byte 0 of the packet, and its first byte in the second 64 KiB block that it touches, if it touches two (R21). The
product is taken modulo 2^64 before R214's canonical test (DESIGN CHOICE, log 55). -/
def packetEnds (pc : Word) : Word × Word :=
  let lo := pc * 12
  let hi := lo + 11
  if lo >>> 16 = hi >>> 16 then (lo, lo) else (lo, (hi >>> 16) <<< 16)

/-- The outcome of the fetch checks of R21 and R214. -/
inductive FetchOut where
  | ok
  | fault (va : Word)
  | trap (c : Cause) (va : Word)
deriving DecidableEq, Repr

/-- The translation of a code address; the aperture is never executable (R124). -/
def transCode (s : State) (c : Nat) (g : Group) (va : Word) : Trans :=
  if isCanonical va && !inAperture va then transPage s c g.part va else .bad none

/-- Instructions may be fetched from a page: it has execute permission and is no endpoint's (R127, R157). -/
def codeOk (l : Leaf) : Bool := l.x && l.mt != 2 && !(decide (l.loc < Config.scratchKey) && targetOf l.loc == .endpoint)

/-- The fetch checks of a packet (R21, R214): ATTRSPLIT where its two pages differ in attributes; a replayable PAGEFAULT
for an absent page, before what the other page would trap with (DESIGN CHOICE, log 55); PROT for a non-canonical address,
a refused page, an endpoint's page, or one without execute permission. -/
def packetCheck (s : State) (c : Nat) (g : Group) (pc : Word) : FetchOut :=
  let (lo, hi) := packetEnds pc
  let a := transCode s c g lo
  let b := transCode s c g hi
  if a.differ b then .trap .attrsplit lo
  else
    match a, b with
    | .absent, _ => .fault lo
    | _, .absent => .fault hi
    | .ok l, .ok m => if !codeOk l then .trap .prot lo else if !codeOk m then .trap .prot hi else .ok
    | .bad _, _ => .trap .prot lo
    | .ok _, .bad _ => .trap .prot hi

/-- The word at a place of the code, as memory holds it (R4, R20). -/
def codeWord (s : State) (c : Nat) (g : Group) (pc : Word) (w : Nat) : IWord :=
  match transCode s c g (wordVa pc w) with
  | .ok a => BitVec.ofNat 32 (memRead s a.loc 4)
  | _ => 0

/-- C of a word (R19). -/
def wC (w : IWord) : Bool := w.getLsbD 31
/-- S of a word (R19). -/
def wS (w : IWord) : Bool := w.getLsbD 30

/-- The words of the bundle that begins at word i of a packet, at most `n` of them (R22). -/
def bundleFrom (s : State) (c : Nat) (g : Group) (pc : Word) : Nat → Nat → List (Nat × IWord)
  | _, 0 => []
  | i, n + 1 =>
    let w := codeWord s c g pc i
    (i, w) :: (if wC w && decide (i < 2) then bundleFrom s c g pc (i + 1) n else [])

/-- The pipe of a word by its major (R43). -/
def pipeOf (w : IWord) : Pipe :=
  let m := (fMajor w).toNat
  if m < 16 then .a else if m < 32 then .f else if m < 52 then .m else if m < 60 then .a else if m < 63 then .m else .a

/-- A listed word, by its class chapter (R44). -/
def isListed (w : IWord) : Bool :=
  match decodeWord w with
  | .ok _ => true
  | .error _ => false

/-- The word writes the register in [23:17]: the destinations of the class chapters' tables. -/
def hasDest (w : IWord) : Bool :=
  let m := (fMajor w).toNat
  let k := (fM w).toNat
  if m < 0x29 then true
  else match m with
  | 0x2A => true
  | 0x2C => true
  | 0x2D => true
  | 0x2E => k == 0
  | 0x32 => k == 1
  | 0x34 => k != 5
  | 0x35 => true
  | 0x3C => k == 7
  | 0x3D => k == 7 || (k == 2 && w.getLsbD 9)
  | 0x3F => let o := (fSysOp w).toNat; o == 0 || o == 2 || o == 3 || o == 7
  | _ => false

/-- The register destination of a word, unless it is z or p0, whose writes R23 lets several words make. -/
def chainDest (w : IWord) : Option Opnd :=
  if isListed w && hasDest w then
    match oD w with
    | .z => none
    | .p n => if n == 0 then none else some (.p n)
    | o => some o
  else none

/-- The control-transfer words (R26). A word with a reserved field that is not zero, which traps with ILLOP (R44), counts for CHAIN
neither as one nor as a writer of a register (R23; DESIGN CHOICE, log 55). -/
def isControl (w : IWord) : Bool :=
  let m := (fMajor w).toNat
  isListed w && (m == 0x38 || m == 0x39 || (m == 0x3A && (fKind w).toNat != 3) || (m == 0x3B && (fM w).toNat != 0)
    || (m == 0x3F && ((fSysOp w).toNat == 4 || (fSysOp w).toNat == 5)))

/-- Two words of a bundle may not share a pipe or a destination (R23). -/
def chainClash (a b : IWord) : Bool :=
  pipeOf a == pipeOf b ||
    (match chainDest a with
    | some o => chainDest b == some o
    | none => false)

/-- A word of a list clashes with a later one. -/
def anyClash : List IWord → Bool
  | [] => false
  | a :: r => r.any (chainClash a) || anyClash r

/-- The bundle breaks R23. -/
def chainBad (ws : List (Nat × IWord)) : Bool :=
  ws.any (fun p => (decide (2 ≤ p.1) && wC p.2) || (wC p.2 && wS p.2) || (isControl p.2 && (wC p.2 || !wS p.2)))
    || anyClash (ws.map (·.2))

/-- The bundle holds the 24th word of the run, and that word has S = 0 (R27). -/
def runTooLong (words : Nat) : List (Nat × IWord) → Bool
  | [] => false
  | (_, w) :: r => (decide (24 ≤ words + 1) && !wS w) || runTooLong (words + 1) r

/-- An enabled instruction breakpoint holds the packet (R359). -/
def breakpointAt (s : State) (part : Nat) (pc : Word) : Bool :=
  (List.range 4).any fun n =>
    let b := tabGet 0 (partOf s part).ibp n
    b.getLsbD 63 && b &&& 0x7FFFFFFFFFFFFFFF == pc

/-- What the checks before a bundle give (R45, kinds 1 to 4). -/
inductive BundleOut where
  | go (s : State)
  | stop (s : State)

/-- Parks a split on an absent address and reports it to Jalov (R138); a tender stalls instead (R231). -/
def parkFault (s : State) (pl : Place) (g : Group) (sp : Split) (va : Word) (k : AccKind) : State :=
  if g.isTender.isSome then waitAt s pl g sp .tender
  else report (waitAt s pl g sp (.fault va k false)) (.fault g.part (cgid g) va k)

/-- The checks of a bundle that begins at the split's place, in the order of R45. -/
def bundleChecks (s : State) (pl : Place) (g : Group) (sp : Split) : BundleOut :=
  match packetCheck s pl.core g sp.pc with
  | .fault va => .stop (parkFault s pl g sp va .fetch)
  | .trap c va => .stop (trapAddr s pl c va)
  | .ok =>
    let s := noteWalk (noteWalk s pl.core g.part (packetEnds sp.pc).1) pl.core g.part (packetEnds sp.pc).2
    if (tabFind (blockKey g.part sp.pc) (coreOf s pl.core).icache).isNone then
      let k := coreOf s pl.core
      .stop (waitAt (setCore s pl.core { k with icmiss := k.icmiss ++ [blockKey g.part sp.pc] }) pl g
        { sp with running := sp.run.words != 0 } (.fetch (blockKey g.part sp.pc)))
    else
      let atStart := sp.word == 0
      let skip := g.gdbg.getLsbD 1
      let g := if atStart && skip then { g with gdbg := g.gdbg &&& 1#2 } else g
      let ws := bundleFrom s pl.core g sp.pc sp.word 3
      let s := store s pl g sp
      if atStart && !skip && breakpointAt s g.part sp.pc then .stop (trap s pl .bkpt)
      else if runTooLong sp.run.words ws then .stop (trap s pl .runlen)
      else if chainBad ws then .stop (trap s pl .chain)
      else .go (store s pl g { sp with run := { sp.run with checked := true } })

/-- The word that the split issues next (DEDUCED, log 10). -/
def fetchWord (s : State) (pl : Place) (g : Group) (sp : Split) : IWord := codeWord s pl.core g sp.pc sp.word

end Sys2Proof.Machine
end

