-- ==== Sys2Proof/Machine/MemWords.lean ====
section
/-! DEFINITION. Memory words, majors 0x28 to 0x2F, and WAITM (R134–R160, R182, R183, R230): one shape for every word that
accesses memory by thread. -/

namespace Sys2Proof.Machine

/-! ### What a memory word is -/

/-- The access of a word: a load, zero- or sign-extended; a store; an atomic by the number of `atomicNew`; the future
words; a WAITM check. -/
inductive MemOp where
  | ld (signed : Bool)
  | st
  | rmw (op : Nat)
  | frd
  | fwr
  | fclr
  | waitm (cond : WCond)
deriving DecidableEq, Repr

/-- A memory word (R42): its operation, bytes, t with the conversion of a constant in it, and the memory operand. -/
structure MemWord where
  op    : MemOp
  n     : Nat
  t     : Opnd
  conv  : Conv
  b     : Fin 8
  x     : Opnd
  scale : BitVec 2
  disp  : Nat
deriving DecidableEq, Repr

/-- The word reads t. -/
def MemOp.readsT : MemOp → Bool
  | .st | .rmw _ | .fwr | .waitm _ => true
  | _ => false

/-- The word writes t. -/
def MemOp.writesT : MemOp → Bool
  | .ld _ | .rmw _ | .frd => true
  | _ => false

/-- A future word (R154). -/
def MemOp.isFuture : MemOp → Bool
  | .frd | .fwr | .fclr => true
  | _ => false

/-- An aligned word: atomics, future words, WAITM (R134, R183). -/
def MemOp.aligned : MemOp → Bool
  | .ld _ | .st => false
  | _ => true

/-- The kind reported for a page fault (R138). -/
def MemOp.kind : MemOp → AccKind
  | .ld _ => .load
  | .st => .store
  | .rmw _ => .atomic
  | .frd => .frd
  | .fwr => .fwr
  | .fclr => .fclr
  | .waitm _ => .waitm

/-- The access reads or writes memory, for the permissions of R127 and the watchpoints of R360. -/
def MemOp.reads : MemOp → Bool
  | .ld _ | .rmw _ | .frd | .waitm _ => true
  | _ => false

/-- The access writes memory. -/
def MemOp.writes : MemOp → Bool
  | .st | .rmw _ | .fwr | .fclr => true
  | _ => false

/-- The specifier t + 1 of ACAS, for the registers that R149 allows. -/
def succOpnd : Opnd → Option Opnd
  | .v n => if h : n.val + 1 < 64 then some (.v ⟨n.val + 1, h⟩) else none
  | .g n => if h : n.val + 1 < 32 then some (.g ⟨n.val + 1, h⟩) else none
  | .o n => if h : n.val + 1 < 8 then some (.o ⟨n.val + 1, h⟩) else none
  | _ => none

/-- The second operand of ACAS; z for every other word. -/
def MemWord.second (w : MemWord) : Opnd :=
  match w.op with
  | .rmw 7 => (succOpnd w.t).getD .z
  | _ => .z

/-- ACAS on a t that R149 does not allow. -/
def MemWord.casBad (w : MemWord) : Bool :=
  match w.op with
  | .rmw 7 => (succOpnd w.t).isNone
  | _ => false

/-- t as a source. -/
def MemWord.data (w : MemWord) : Opnd := if w.op.readsT then w.t else .z

/-- t as a destination. -/
def MemWord.dst (w : MemWord) : Opnd := if w.op.writesT then w.t else .z

/-- The register sources. -/
def MemWord.srcs (w : MemWord) : List Opnd := [w.x, w.data, w.second]

/-- The effective address for an index (R42). -/
def MemWord.ea (w : MemWord) (g : Group) (x : Word) : Word :=
  tregBase (tregOf g w.b.val) + (x <<< w.scale.toNat) + BitVec.ofNat 64 (w.disp * w.n)

/-! ### What stops a thread (R134, R141) -/

/-- What a thread's access reaches: pieces of memory in the order of R140, or an endpoint address. -/
inductive Reach where
  | mem (ps : List (Nat × Nat))
  | win (pa : Nat)
deriving DecidableEq, Repr

/-- The outcome of a thread's checks: performable, untranslated at an address, or a trap cause with its address. -/
inductive Check where
  | ok (r : Reach)
  | absent (va : Word)
  | bad (c : Cause) (va : Word)
deriving DecidableEq, Repr

/-- The access reaches an endpoint. -/
def Check.isWin : Check → Bool
  | .ok (.win _) => true
  | _ => false

/-- The permissions of R127. -/
def permOk (op : MemOp) (l : Leaf) : Bool := (!op.reads || l.r) && (!op.writes || l.w)

/-- An endpoint access that is allowed (R157–R159): aligned, 64 bits, a plain load of a receive window or a store to a
send window. -/
def windowOk (op : MemOp) (n : Nat) (ea : Word) (pa : Nat) : Bool :=
  n == 8 && ea.toNat % 8 == 0 &&
    (match op, windowOf pa with
    | .ld false, .recv _ => true
    | .st, .send _ => true
    | .st, .thedel _ _ => true
    | _, _ => false)

/-- The cause of one page, FUTURE before PROT (R134): permissions, and the misuses of R147, R153, R154, R157, R183. -/
def leafCause (op : MemOp) (n : Nat) (ea : Word) (l : Leaf) : Option Cause :=
  if op.isFuture && l.mt ≠ 1 then some .future
  else if !permOk op l then some .prot
  else if l.mt = 2 then (if windowOk op n ea l.loc then none else some .prot)
  else if decide (l.loc < Config.scratchKey) && targetOf l.loc == .endpoint then some .prot
  else
    match op with
    | .st | .rmw _ => if l.mt = 1 then some .prot else none
    | _ => none

/-- The reach of an access within one page. -/
def reachOf (l : Leaf) (n : Nat) : Reach := if l.mt = 2 then .win l.loc else .mem (pieces l.loc n)

/-- The cause of a refused translation: a future word on a page or granule that is not future has FUTURE too, which ranks
first (R134). -/
def badCause (op : MemOp) (attrs : Option Leaf) : Cause :=
  match attrs with
  | some l => if op.isFuture && l.mt ≠ 1 then .future else .prot
  | none => .prot

/-- The checks of an access within one 4 KiB block. -/
def checkOne (s : State) (c : Nat) (g : Group) (op : MemOp) (b n : Nat) (ea : Word) : Check :=
  match transVia s c g b ea with
  | .absent => .absent ea
  | .bad a => .bad (badCause op a) ea
  | .ok l =>
    match leafCause op n ea l with
    | some e => .bad e ea
    | none => .ok (reachOf l n)

/-- The two parts lie in the aperture and outside it, or in the scratchpads of two cores (R141). -/
def partsSplit (c : Nat) (lo hi : Word) : Bool :=
  inAperture lo != inAperture hi || (inAperture lo && apCore c (apOffset lo) != apCore c (apOffset hi))

/-- The translation of the second part: no page holds a non-canonical address. -/
def transSecond (s : State) (c : Nat) (g : Group) (b : Nat) (va : Word) : Trans :=
  if isCanonical va then transVia s c g b va else .bad none

/-- The cause of one part of an access in two parts: no access to an endpoint page crosses a block (R157). -/
def partCause (op : MemOp) (n : Nat) (va : Word) : Trans → Option Cause
  | .ok l => if l.mt = 2 then some .prot else leafCause op n va l
  | .bad a => some (badCause op a)
  | .absent => none

/-- The checks of an access of n bytes of which k lie in the lower block (R129, R134, R141). -/
def checkTwo (s : State) (c : Nat) (g : Group) (op : MemOp) (b n k : Nat) (ea : Word) : Check :=
  let hi := ea + BitVec.ofNat 64 k
  let x := transVia s c g b ea
  let y := transSecond s c g b hi
  if partsSplit c ea hi || x.differ y then .bad .attrsplit ea
  else
    match partCause op n ea x, partCause op n hi y with
    | some e, _ => .bad e ea
    | none, some e => .bad e hi
    | none, none =>
      match x, y with
      | .ok l, .ok m => .ok (.mem (pieces l.loc k ++ pieces m.loc (n - k)))
      | .absent, _ => .absent ea
      | _, _ => .absent hi

/-- The checks of a thread's access (R134). -/
def checkAcc (s : State) (c : Nat) (g : Group) (op : MemOp) (b n : Nat) (ea : Word) : Check :=
  let k := 4096 - ea.toNat % 4096
  if n ≤ k then checkOne s c g op b n ea else checkTwo s c g op b n k ea

/-! ### The footprint scoreboard and watchpoints -/

/-- Two byte ranges share a unit of `u` bytes. -/
def sharesUnit (u lo hi lo' hi' : Nat) : Bool := decide (lo / u ≤ (hi' - 1) / u) && decide (lo' / u ≤ (hi - 1) / u)

/-- The access [ea, ea + n) conflicts with a slip (R172). -/
def slipHits (wr : Bool) (ea : Word) (n : Nat) (y : Slip) : Bool :=
  (wr || y.wr) &&
    (match y.range with
    | .mem lo hi => !inAperture ea && sharesUnit 128 ea.toNat (ea.toNat + n) lo hi
    | .scr lo hi => inAperture ea && sharesUnit 64 ea.toNat (ea.toNat + n) lo hi
    | _ => false)

/-- The slot whose slips order a group's accesses: a tender's caller's, its own otherwise. -/
def slipSlot (slot : Nat) (g : Group) : Nat :=
  match g.isTender with
  | some td => td.caller
  | none => slot

/-- The engine operations of the group that the access must wait for (R172). -/
def accConflict (s : State) (pl : Place) (g : Group) (op : MemOp) (ea : Word) (n : Nat) : List Nat :=
  ((coreOf s pl.core).slips.filter fun y => y.slot == slipSlot pl.slot g && slipHits op.writes ea n y).map (·.op)

/-- The lowest address at which an enabled watchpoint of the partition matches an access (R360; DEDUCED, log 45). -/
def watchHit (s : State) (part : Nat) (op : MemOp) (ea : Word) (n : Nat) : Option Word :=
  let p := partOf s part
  (List.range 4).foldl (fun best i =>
    let c := tabGet 0 p.wpc i
    let lo := (tabGet 0 p.wpa i).toNat
    let len := (c.extractLsb' 0 32).toNat
    if c.getLsbD 63 && ((c.getLsbD 62 && (op.reads || op == .fclr)) || (c.getLsbD 61 && op.writes))
        && decide (len ≠ 0) && decide (lo < ea.toNat + n) && decide (ea.toNat < lo + len) then
      let a := BitVec.ofNat 64 (Nat.max ea.toNat lo)
      match best with
      | some x => if a.toNat < x.toNat then some a else some x
      | none => some a
    else best) none

/-- The lower of two addresses. -/
def lowerAddr (a b : Option Word) : Option Word :=
  match a, b with
  | some x, some y => if y.toNat < x.toNat then some y else some x
  | some x, none => some x
  | none, y => y

/-! ### One thread's access -/

/-- The outcome of one thread's access: performed, with what t receives; skipped, because it waits on a location
(FRD, WAITM); or a stop at this thread. -/
inductive Perf where
  | done (s : State) (x : Option Word)
  | skip (s : State) (loc : Nat)
  | endpoint (base : Nat)
  | tender
  | memerr
  | linkerr

/-- A load of the piece would read data with an uncorrectable error: it is not served by the L1 (R137, R165). -/
def readsPoison (s : State) (c : Nat) (p : Nat × Nat) : Bool :=
  anyPoisoned s p.1 p.2 &&
    (match tabFind (p.1 / 128) (coreOf s c).l1 with
    | some x => decide (x.e < coreTime s c)
    | none => true)

/-- Loads the pieces in order and joins their bytes, low then high (R140). -/
def loadPieces (s : State) (c part : Nat) : List (Nat × Nat) → Nat × State
  | [] => (0, s)
  | (l, k) :: r =>
    let (x, s) := loadAt s c part l k
    let (y, s) := loadPieces s c part r
    (x + 2 ^ (8 * k) * y, s)

/-- The value of a load, extended (R144). -/
def extendLoad (signed : Bool) (n x : Nat) : Word := BitVec.ofNat 64 (intBits 64 (intOf (8 * n) signed x))

/-- The condition of WAITM on an n-byte word v and the operand c (R182). -/
def condHolds (k : WCond) (n v c : Nat) : Bool :=
  let b := 8 * n
  let c := c % 2 ^ b
  match k with
  | .eq => v == c
  | .ne => v != c
  | .ltu => decide (v < c)
  | .geu => decide (c ≤ v)
  | .lt => decide (intOf b true v < intOf b true c)
  | .ge => decide (intOf b true c ≤ intOf b true v)
  | .tst => v &&& c != 0
  | .ntst => v &&& c == 0

/-- Adds issued accesses to the group's list (R165). -/
def addPend (s : State) (c slot : Nat) (as : List PendAcc) : State :=
  match groupAt s c slot with
  | some g => setGroup s c slot { g with pend := g.pend ++ as }
  | none => s

/-- The accesses of a store in its pieces, low bytes first (R140). -/
def storeAccs (va : Word) (x : Nat) : List (Nat × Nat) → List PendAcc
  | [] => []
  | (l, k) :: r =>
    { va := va, loc := l, n := k, op := .plain (BitVec.ofNat 64 (x % 2 ^ (8 * k))) }
      :: storeAccs (va + BitVec.ofNat 64 k) (x / 2 ^ (8 * k)) r

/-! ### A tender's loads and stores (R230) -/

/-- The byte at a location as a tender's hold has it. -/
def heldByte (hold : List PendAcc) (loc : Nat) : Option Byte :=
  hold.foldl (fun b a =>
    if a.loc ≤ loc ∧ loc < a.loc + a.n then
      match a.op with
      | .plain x => some (BitVec.ofNat 8 (x.toNat / 2 ^ (8 * (loc - a.loc))))
      | _ => b
    else b) none

/-- Overlays held bytes on n bytes read from memory. -/
def overlay (hold : List PendAcc) (loc : Nat) : Nat → Nat → Nat
  | 0, _ => 0
  | n + 1, x =>
    (match heldByte hold loc with
    | some b => b.toNat
    | none => x % 256) + 256 * overlay hold (loc + 1) n (x / 256)

/-- Every byte of a piece is held. -/
def allHeld (hold : List PendAcc) (p : Nat × Nat) : Bool :=
  (List.range p.2).all fun i => (heldByte hold (p.1 + i)).isSome

/-- Lists a line in a tracked-load table of 32 lines, or notes a further load of it; `none` where there is no room. -/
def track (ts : List Tracked) (t : Tracked) : Option (List Tracked) :=
  let same := fun x : Tracked => x.loc == t.loc && x.va == t.va
  if ts.any same then some (ts.map fun x => if same x then { x with last := t.last } else x)
  else if ts.length < 32 then some (ts ++ [t]) else none

/-- Tracks the lines or rows of a piece at a virtual address, with the W of the version that core c reads and the number of
stores that are held by then. -/
def trackRows (s : State) (c va held : Nat) : List Nat → List Tracked → Option (List Tracked)
  | [], ts => some ts
  | l :: r, ts =>
    let u := if l < Config.scratchKey then va / 128 else va / 16
    match track ts { va := u, loc := lineKey l, w := versionW s c l, first := held, last := held } with
    | some ts => trackRows s c (va / 16 * 16 + 16) held r ts
    | none => none

/-- A tender's load in its pieces: bytes of its hold, else of memory, whose lines and rows it tracks; `none` where the
table has no room. -/
def tenderRead (s : State) (c part : Nat) (hold : List PendAcc) (va : Nat) :
    List (Nat × Nat) → List Tracked → Option (Nat × List Tracked × State)
  | [], ts => some (0, ts, s)
  | (l, k) :: r, ts =>
    if allHeld hold (l, k) then
      (tenderRead s c part hold (va + k) r ts).map fun y => (overlay hold l k 0 + 2 ^ (8 * k) * y.1, y.2)
    else
      match trackRows s c va hold.length (rowsOf l k) ts with
      | none => none
      | some ts =>
        let (x, s) := loadAt s c part l k
        (tenderRead s c part hold (va + k) r ts).map fun y => (overlay hold l k x + 2 ^ (8 * k) * y.1, y.2)

/-- A load of a tender. -/
def tenderLoad (s : State) (pl : Place) (g : Group) (td : Tender) (ea : Word) (ps : List (Nat × Nat)) :
    Option (Nat × State) :=
  match tenderRead s pl.core g.part td.hold ea.toNat ps td.tracked with
  | none => none
  | some (x, ts, s) =>
    match groupAt s pl.core pl.slot with
    | some g => some (x, setGroup s pl.core pl.slot { g with isTender := some { td with tracked := ts } })
    | none => none

/-- Distinct 128-byte lines of a hold. -/
def holdLines (hold : List PendAcc) : List Nat := (hold.map fun a => a.loc / 128).eraseDups

/-- A store of a tender goes to its hold, which has room for 32 lines. -/
def tenderStore (s : State) (pl : Place) (g : Group) (td : Tender) (as : List PendAcc) : Option State :=
  let hold := td.hold ++ as
  if (holdLines hold).length ≤ 32 then
    some (setGroup s pl.core pl.slot { g with isTender := some { td with hold := hold } })
  else none

/-- One thread's load or store in a tender. -/
def performTender (s : State) (pl : Place) (g : Group) (td : Tender) (w : MemWord) (ea : Word) (ps : List (Nat × Nat))
    (v : Word) : Perf :=
  match w.op with
  | .ld sg =>
    if ps.any (readsPoison s pl.core) then .tender
    else
      match tenderLoad s pl g td ea ps with
      | some (x, s) => .done s (some (extendLoad sg w.n x))
      | none => .tender
  | .st =>
    match tenderStore s pl g td (storeAccs ea v.toNat ps) with
    | some s => .done s none
    | none => .tender
  | _ => .tender

/-- One thread's access to memory by a group that is no tender. -/
def performMem (s : State) (pl : Place) (g : Group) (w : MemWord) (ea : Word) (ps : List (Nat × Nat)) (v v2 : Word) :
    Perf :=
  let c := pl.core
  let loc := (ps.headD (0, 0)).1
  match w.op with
  | .ld sg =>
    if ps.any (readsPoison s c) then .memerr
    else
      let (x, s) := loadPieces s c g.part ps
      .done s (some (extendLoad sg w.n x))
  | .st => .done (addPend s c pl.slot (storeAccs ea v.toNat ps)) none
  | .rmw op =>
    if isPoisoned s loc then .memerr
    else if w.t = .z then
      .done (addPend s c pl.slot [{ va := ea, loc := loc, n := w.n, op := .rmw op v v2 }]) none
    else
      let (x, s) := atomicAt s c loc op w.n v.toNat v2.toNat
      .done s (some x)
  | .frd =>
    if !isFull s loc then .skip s loc
    else if isPoisoned s loc then .memerr
    else
      let (x, s) := loadHome s c g.part loc 8
      .done s (some (BitVec.ofNat 64 x))
  | .fwr => .done (addPend s c pl.slot [{ va := ea, loc := loc, n := 8, op := .fwr v }]) none
  | .fclr => .done (addPend s c pl.slot [{ va := ea, loc := loc, n := 8, op := .fclr }]) none
  | .waitm k =>
    if readsPoison s c (loc, w.n) then .memerr
    else
      let copy := servedByL1 s c loc
      let (x, s) := loadAt s c g.part loc w.n
      if condHolds k w.n x v.toNat then .done s none
      else if isPoisoned s loc then .memerr
      else
        let (x, s) := if copy then loadHome s c g.part loc w.n else (x, s)
        if condHolds k w.n x v.toNat then .done s none else .skip s (loc / 8 * 8)

/-- One thread's endpoint access (R158, R159). -/
def performWin (s : State) (pl : Place) (w : MemWord) (ea : Word) (pa : Nat) (v : Word) : Perf :=
  match (if w.op == .st then storeWindow s pl.core pl.slot pa ea v else loadWindow s pl.core pa) with
  | .done x s => .done s (if w.op == .st then none else some x)
  | .wait base => .endpoint base
  | .dead => .linkerr

/-- One thread's access. An endpoint access follows the stores of lower threads (R135). -/
def performOne (s : State) (pl : Place) (w : MemWord) (ea : Word) (r : Reach) (v v2 : Word) : Perf :=
  match groupAt s pl.core pl.slot with
  | none => .tender
  | some g =>
    match g.isTender, r with
    | some td, .mem ps => performTender s pl g td w ea ps v
    | some _, .win _ => .tender
    | none, .mem ps => performMem s pl g w ea ps v v2
    | none, .win pa => performWin (settlePend s pl.core pl.slot) pl w ea pa v

/-! ### All threads of a word -/

/-- What a thread brings: its number (32 under uniform issue), address, checks and operands. -/
structure ThreadAcc where
  t   : Nat
  ea  : Word
  chk : Check
  v   : Word
  v2  : Word

/-- Why the threads of a word stop. -/
inductive MemStop where
  | fault (va : Word)
  | conflict (ops : List Nat)
  | endpoint (base : Nat)
  | tender
  | memerr (va : Word)
  | linkerr (va : Word)

/-- The progress of a word: the state, the results, the waiting threads with their locations, the lowest watched
address, the keys of the lines and rows written, the threads left over, and the stop. -/
structure MemRun where
  s     : State
  vals  : List (Nat × Word)
  waits : List (Nat × Nat)
  left  : List Nat
  watch : Option Word
  wrote : List Nat
  stop  : Option MemStop

/-- The lines and rows that an access writes, for validation (R233): none where an atomic is seen to have written nothing
(R165). -/
def writtenKeys (op : MemOp) (s : State) (n : Nat) (v : Word) : Reach → List Nat
  | .win _ => []
  | .mem ps =>
    let fails := match op with
      | .rmw k => !(atomicNew k n (memRead s (ps.headD (0, 0)).1 n) v.toNat 0).2
      | _ => false
    if op.writes && !fails then ps.flatMap fun p => (rowsOf p.1 p.2).map lineKey else []

/-- One thread of R134's loop. A WAITM check that fails parks its thread and is no access that a watchpoint matches (R183, R360;
DESIGN CHOICE, log 45). -/
def memThread (pl : Place) (w : MemWord) (r : MemRun) (a : ThreadAcc) : MemRun :=
  match r.stop with
  | some _ => { r with left := r.left ++ [a.t] }
  | none =>
    let halt := fun m => { r with left := r.left ++ [a.t], stop := some m }
    match a.chk, groupAt r.s pl.core pl.slot with
    | .absent va, _ => halt (.fault va)
    | .bad _ va, _ => halt (.fault va)
    | .ok _, none => halt .tender
    | .ok reach, some g =>
      let hit := watchHit r.s g.part w.op a.ea w.n
      match accConflict r.s pl g w.op a.ea w.n with
      | op :: ops => halt (.conflict (op :: ops))
      | [] =>
        if g.isTender.isSome && hit.isSome then halt .tender
        else
          match performOne r.s pl w a.ea reach a.v a.v2 with
          | .done s x =>
            { r with
              s := if hit.isSome then drainPend s pl.core pl.slot else s
              vals := match x with
                | some x => r.vals ++ [(a.t, x)]
                | none => r.vals
              watch := lowerAddr r.watch hit
              wrote := r.wrote ++ writtenKeys w.op r.s w.n a.v reach }
          | .skip s loc => { r with s := s, left := r.left ++ [a.t], waits := r.waits ++ [(a.t, loc)] }
          | .endpoint base => halt (.endpoint base)
          | .tender => halt .tender
          | .memerr => halt (.memerr a.ea)
          | .linkerr => halt (.linkerr (a.ea &&& ~~~0x1FFF#64))

/-- The mask of a list of threads; key 32 stands for the whole split. -/
def maskOf (whole : Mask) (ts : List Nat) : Mask :=
  ts.foldl (fun m t => m ||| (if t = 32 then whole else Mask.one t)) 0

/-- Adds reading-room entries of a split, one for each distinct location, as far as the 128 entries go (R155). -/
def addRoom (k : Core) (slot split : Nat) (whole : Mask) (fut : Bool) (ws : List (Nat × Nat)) : Core :=
  let locs := (ws.map (·.2)).eraseDups.take (128 - k.room.length)
  { k with room := k.room ++ locs.map fun l =>
      { slot := slot, split := split, loc := l, mask := maskOf whole ((ws.filter fun w => w.2 == l).map (·.1)),
        futur := fut } }

/-- The lowest address of the threads that p selects (R348). -/
def lowestAddr (p : ThreadAcc → Bool) (as : List ThreadAcc) : Option Word :=
  as.foldl (fun b a => if p a then lowerAddr b (some a.ea) else b) none

/-- The first trap of R134's checks: the lowest non-canonical address, the lowest misaligned one (R348), or the first cause
of the lowest thread that has one (DEDUCED, log 39). -/
def memTrap (w : MemWord) (as : List ThreadAcc) : Option (Cause × Word) :=
  match lowestAddr (fun a => !isCanonical a.ea) as with
  | some va => some (.prot, va)
  | none =>
    match lowestAddr (fun a => w.op.aligned && a.ea.toNat % w.n != 0) as with
    | some va => some (.align, va)
    | none => as.findSome? fun a =>
        match a.chk with
        | .bad c va => some (c, va)
        | _ => none

/-- The lowest untranslated address (R138). -/
def lowestAbsent (as : List ThreadAcc) : Option Word :=
  as.foldl (fun b a =>
    match a.chk with
    | .absent va => lowerAddr b (some va)
    | _ => b) none

/-- Starts the walks of the addresses that no fast path and no TLB translates (R132). -/
def noteWalks (s : State) (c part : Nat) (as : List ThreadAcc) : State := as.foldl (fun s a => noteWalk s c part a.ea) s

/-- Makes a word's results outstanding (R28, R379) in place of earlier words' results for the same threads (R32). On a replay the
word's own earlier results, which are other threads', stay (R136). -/
def deliverMem (g : Group) (sp : Split) (split : Nat) (d : Opnd) (vals : List (Nat × Word)) : Group × Split :=
  let g := { g with results := killResults split d (vals.map (·.1)) g.results }
  if isTracked d && !vals.isEmpty then
    let old : Tab Word := vals.map fun p => (p.1, regNow g sp (.int 64) p.1 d)
    let new : Tab Word := vals.map fun p => (p.1, dstVal d p.2)
    ({ g with results := g.results ++ [{ split := split, dst := d, vals := vals, dead := false, src := .var, redl := false }] },
      addProd sp { pipe := .m, bundle := sp.run.bundle, lat := none, dst := d, old := old, new := new, held := none })
  else (g, sp)

/-- A parked word of split n is done: no word of the group waits for it any more (R178). -/
def awaited (n : Nat) (g : Group) : Group :=
  { g with splits := g.splits.map fun x =>
      let sp := { x.2 with await := x.2.await.filter (· != n) }
      match sp.wait with
      | some (.performed _) => (x.1, { sp with wait := none })
      | _ => (x.1, sp) }

/-- The group has written lines and rows: those count for the validation of each of its tenders (R233). -/
def noteWrites (k : Core) (slot : Nat) (keys : List Nat) (g : Group) : Group :=
  let forks := (tendersOf k slot).filterMap fun n =>
    match tabFind n k.slots with
    | some t => t.isTender.map (·.fork)
    | none => none
  { g with wrote := g.wrote ++ forks.flatMap fun f => keys.map fun x => (f, x) }

/-- Parks or ends a word after its threads have run. Before a trap the threads below are performed (R137). -/
def memEnd (h : Hd) (pl : Place) (w : MemWord) (first : Bool) (occ : Nat) (lowest : Option Word)
    (sp : Split) (r : MemRun) : State :=
  match groupAt r.s pl.core pl.slot with
  | none => r.s
  | some g =>
    let (g, sp) := deliverMem g sp pl.split w.dst r.vals
    let g := noteWrites (coreOf r.s pl.core) pl.slot r.wrote { g with watch := lowerAddr g.watch r.watch }
    if r.left.isEmpty then
      if first then finish r.s pl g sp h occ else finish r.s pl (awaited pl.split g) sp h occ
    else
      let left := maskOf sp.mask r.left
      let sp := { sp with unfin := some left }
      let room := fun (s : State) (ws : List (Nat × Nat)) (x : Wait) =>
        waitAt (setCore s pl.core (addRoom (coreOf s pl.core) pl.slot pl.split sp.mask (w.op == .frd) ws)) pl g sp x
      let s := match r.stop with
        | some (.fault va) => parkFault r.s pl g sp (lowest.getD va) w.op.kind
        | some (.conflict ops) => waitAt r.s pl g sp (.conflict ops)
        | some (.endpoint base) => room r.s (r.left.map fun t => (t, base)) (.endpoint base)
        | some .tender => waitAt r.s pl g sp .tender
        | some (.memerr va) => trapAddr (settlePend (store r.s pl g sp) pl.core pl.slot) pl .memerr va
        | some (.linkerr va) => trapAddr (settlePend (store r.s pl g sp) pl.core pl.slot) pl .linkerr va
        | none => room r.s r.waits .reading
      match r.watch, r.stop with
      | some _, some (.memerr _) => s
      | some _, some (.linkerr _) => s
      | some _, _ => afterWord s pl false
      | none, _ => s

/-- A pending TRB writes the named register (R130). -/
def trbPending (g : Group) (n : Nat) : Bool := g.trbs.any fun t => t.n.val == n

/-- The word's OPSPEC (R36, R38, R149). -/
def memOpspec (g : Group) (w : MemWord) : Bool :=
  issueMode w.srcs w.dst = .opspec || w.casBad || namesBad g (w.dst :: w.srcs)

/-- The threads of a word with their addresses, checks and operands. -/
def memThreads (s : State) (pl : Place) (g : Group) (sp : Split) (w : MemWord) (keys : List Nat) : List ThreadAcc :=
  keys.map fun t =>
    let ea := w.ea g (readOp g sp s.free (.int 64) t w.x)
    { t := t, ea := ea, chk := checkAcc s pl.core g w.op w.b.val w.n ea, v := readOp g sp s.free w.conv t w.data,
      v2 := readOp g sp s.free w.conv t w.second }

/-- The threads that the word still has to perform; key 32 under uniform issue. -/
def memKeys (sp : Split) (w : MemWord) : List Nat :=
  if issueMode w.srcs w.dst = .uniform then [32] else (sp.unfin.getD sp.mask).threads

/-- THE SHAPE OF EVERY MEMORY WORD (R134, R145): operand checks, the tender's stalls, waits for a rebase (R168) and for
a TRB (R130), the traps of R134, the threads in ascending order, then the end or the park of the word. -/
def memWord (s : State) (h : Hd) (w : MemWord) : Out :=
  issue s fun pl g sp =>
    let first := sp.unfin.isNone
    if memOpspec g w then .next (trap s pl .opspec)
    else if hazard g sp pl.split w.srcs (if first then [w.dst] else []) then .next (trap s pl .hazard)
    else if g.isTender.isSome && w.op.aligned then .next (waitAt s pl g sp .tender)
    else if tenderNeeds g sp w.srcs then .next (waitAt s pl g sp .tender)
    else if s.held then .next (waitAt s pl g sp .rebase)
    else if trbPending g w.b.val then .next (waitAt s pl g sp (.trb w.b.val))
    else
      let uni : Bool := issueMode w.srcs w.dst = .uniform
      let keys := memKeys sp w
      let as := memThreads s pl g sp w keys
      match memTrap w as with
      | some (c, va) => .next (trapAddr s pl c va)
      | none =>
        let s' := { noteWalks s pl.core g.part as with free := s.free + 1 }
        let queued := w.op == .st && as.all fun a => !a.chk.isWin
        let s' := if queued || g.isTender.isSome then s' else drainPend s' pl.core pl.slot
        let r := as.foldl (memThread pl w) { s := s', vals := [], waits := [], left := [], watch := none, wrote := [], stop := none }
        .next (memEnd h pl w first (if uni then 1 else Nat.max 1 keys.length) (lowestAbsent as) sp r)

/-! ### The words -/

/-- Bytes of an access size. -/
def szBytes : Sz → Nat
  | .b8 => 1
  | .b16 => 2
  | .b32 => 4
  | .b64 => 8

/-- Bytes of an atomic: 4, or 8 in the wide forms. -/
def wideBytes (wide : Bool) : Nat := if wide then 8 else 4

/-- LD (R144). -/
def execLd (h : Hd) (sz : Sz) (t : Opnd) (b : Fin 8) (x : Opnd) (scale : BitVec 2) (disp : BitVec 3) (s : State) : Out :=
  memWord s h { op := .ld false, n := szBytes sz, t := t, conv := .int 64, b := b, x := x, scale := scale,
                disp := disp.toNat }
/-- ST (R144). -/
def execSt (h : Hd) (sz : Sz) (t : Opnd) (b : Fin 8) (x : Opnd) (scale : BitVec 2) (disp : BitVec 3) (s : State) : Out :=
  memWord s h { op := .st, n := szBytes sz, t := t, conv := .int (8 * szBytes sz), b := b, x := x, scale := scale,
                disp := disp.toNat }
/-- LDS (R144). -/
def execLds (h : Hd) (sz : Sz) (t : Opnd) (b : Fin 8) (x : Opnd) (scale : BitVec 2) (disp : BitVec 3) (s : State) : Out :=
  memWord s h { op := .ld true, n := szBytes sz, t := t, conv := .int 64, b := b, x := x, scale := scale,
                disp := disp.toNat }

/-- PREF: no effect visible to programs; it may bring lines closer, and here it brings none (R146). -/
def execPref (h : Hd) (_l2 : Bool) (_sz : Sz) (b : Fin 8) (x : Opnd) (_scale : BitVec 2) (_disp : BitVec 3) (s : State) :
    Out :=
  issue s fun pl g sp =>
    if namesBad g [x] then .next (trap s pl .opspec)
    else if tenderNeeds g sp [x] then .next (waitAt s pl g sp .tender)
    else if trbPending g b.val then .next (waitAt s pl g sp (.trb b.val))
    else .next (finish s pl g sp h (if isUniform x then 1 else perThreadOcc sp.mask))

/-- An atomic on n bytes (R147). -/
def atomicWord (s : State) (h : Hd) (op n : Nat) (conv : Conv) (t : Opnd) (b : Fin 8) (x : Opnd) (scale : BitVec 2) : Out :=
  memWord s h { op := .rmw op, n := n, t := t, conv := conv, b := b, x := x, scale := scale, disp := 0 }

/-- An integer atomic of 32 or 64 bits. -/
def atomicInt (s : State) (h : Hd) (op : Nat) (wide : Bool) (t : Opnd) (b : Fin 8) (x : Opnd) (scale : BitVec 2) : Out :=
  atomicWord s h op (wideBytes wide) (.int (8 * wideBytes wide)) t b x scale

/-- AADD (R148). -/
def execAadd (h : Hd) (wide : Bool) (t : Opnd) (b : Fin 8) (x : Opnd) (scale : BitVec 2) (s : State) : Out :=
  atomicInt s h 0 wide t b x scale
/-- AAND (R148). -/
def execAand (h : Hd) (wide : Bool) (t : Opnd) (b : Fin 8) (x : Opnd) (scale : BitVec 2) (s : State) : Out :=
  atomicInt s h 1 wide t b x scale
/-- AOR (R148). -/
def execAor (h : Hd) (wide : Bool) (t : Opnd) (b : Fin 8) (x : Opnd) (scale : BitVec 2) (s : State) : Out :=
  atomicInt s h 2 wide t b x scale
/-- AXOR (R148). -/
def execAxor (h : Hd) (wide : Bool) (t : Opnd) (b : Fin 8) (x : Opnd) (scale : BitVec 2) (s : State) : Out :=
  atomicInt s h 3 wide t b x scale
/-- AXCH (R148). -/
def execAxch (h : Hd) (wide : Bool) (t : Opnd) (b : Fin 8) (x : Opnd) (scale : BitVec 2) (s : State) : Out :=
  atomicInt s h 4 wide t b x scale
/-- AMIN.s (R148). -/
def execAminS (h : Hd) (wide : Bool) (t : Opnd) (b : Fin 8) (x : Opnd) (scale : BitVec 2) (s : State) : Out :=
  atomicInt s h 5 wide t b x scale
/-- AMAX.s (R148). -/
def execAmaxS (h : Hd) (wide : Bool) (t : Opnd) (b : Fin 8) (x : Opnd) (scale : BitVec 2) (s : State) : Out :=
  atomicInt s h 6 wide t b x scale
/-- ACAS (R149). -/
def execAcas (h : Hd) (wide : Bool) (t : Opnd) (b : Fin 8) (x : Opnd) (scale : BitVec 2) (s : State) : Out :=
  atomicInt s h 7 wide t b x scale
/-- AMIN.z (R148). -/
def execAminZ (h : Hd) (wide : Bool) (t : Opnd) (b : Fin 8) (x : Opnd) (scale : BitVec 2) (s : State) : Out :=
  atomicInt s h 8 wide t b x scale
/-- AMAX.z (R148). -/
def execAmaxZ (h : Hd) (wide : Bool) (t : Opnd) (b : Fin 8) (x : Opnd) (scale : BitVec 2) (s : State) : Out :=
  atomicInt s h 9 wide t b x scale
/-- AFADD (R151). -/
def execAfadd (h : Hd) (wide : Bool) (t : Opnd) (b : Fin 8) (x : Opnd) (scale : BitVec 2) (s : State) : Out :=
  atomicWord s h 10 (wideBytes wide) (.flt (if wide then .f64 else .f32)) t b x scale
/-- ABINC (R150). -/
def execAbinc (h : Hd) (t : Opnd) (b : Fin 8) (x : Opnd) (scale : BitVec 2) (s : State) : Out :=
  atomicWord s h 11 4 (.int 32) t b x scale
/-- APMAX (R152). -/
def execApmax (h : Hd) (t : Opnd) (b : Fin 8) (x : Opnd) (scale : BitVec 2) (s : State) : Out :=
  atomicWord s h 12 8 (.int 64) t b x scale
/-- FRD (R154, R155). -/
def execFrd (h : Hd) (t : Opnd) (b : Fin 8) (x : Opnd) (scale : BitVec 2) (s : State) : Out :=
  memWord s h { op := .frd, n := 8, t := t, conv := .int 64, b := b, x := x, scale := scale, disp := 0 }
/-- FWR (R154). -/
def execFwr (h : Hd) (t : Opnd) (b : Fin 8) (x : Opnd) (scale : BitVec 2) (s : State) : Out :=
  memWord s h { op := .fwr, n := 8, t := t, conv := .int 64, b := b, x := x, scale := scale, disp := 0 }
/-- FCLR (R154). -/
def execFclr (h : Hd) (b : Fin 8) (x : Opnd) (scale : BitVec 2) (s : State) : Out :=
  memWord s h { op := .fclr, n := 8, t := .z, conv := .int 64, b := b, x := x, scale := scale, disp := 0 }
/-- WAITM (R182, R183). -/
def execWaitm (h : Hd) (cond : WCond) (wide : Bool) (t : Opnd) (b : Fin 8) (x : Opnd) (scale : BitVec 2) (s : State) : Out :=
  memWord s h { op := .waitm cond, n := wideBytes wide, t := t, conv := .int (8 * wideBytes wide), b := b, x := x,
                scale := scale, disp := 0 }

/-! ### TRB (R130) -/

/-- The entry that translates an address outside the aperture, if its translation succeeds. -/
def transEntry (s : State) (c part : Nat) (va : Word) : Option TlbEntry :=
  match entryOut s c part va with
  | .leaf e => if frameSet s (e.pa + (va.toNat % 2 ^ 57 - e.va)) then some e else none
  | _ => none

/-- bN while a TRB with the address a is not complete, and after it where a is not translated: BASE and V = 0, and the other
fields as they were (R130). -/
def trbBase (g : Group) (n : Nat) (a : Word) : TReg := { tregOf g n with base := a, v := false }

/-- What TRB leaves in bN once complete (R130): all 64 bits of the address (DEDUCED, log 52). -/
def trbResult (s : State) (c : Nat) (g : Group) (n : Nat) (a : Word) : TReg :=
  let base := trbBase g n a
  if !isCanonical a then base
  else if inAperture a then
    { base with v := true, mt := 0, psz := 3, rd := true, wr := true, pa := BitVec.ofNat 52 (apOffset a) }
  else
    match transEntry s c g.part a with
    | none => base
    | some e =>
      { base with v := true, mt := e.mt, rd := e.r, wr := e.w, psz := e.psz,
                  pa := BitVec.ofNat 52 (e.pa + (a.toNat % 2 ^ 57 - e.va)) }

/-- TRB: BASE and V = 0 at once, the rest when the TRB is complete (R130). -/
def execTrb (h : Hd) (n : Fin 8) (a : Opnd) (s : State) : Out :=
  issue s fun pl g sp =>
    if !isUniform a || namesBad g [a] then .next (trap s pl .opspec)
    else if hazard g sp pl.split [a] [] then .next (trap s pl .hazard)
    else
      let x := readOp g sp s.free (.int 64) 32 a
      let g := { g with
        tregs := tabPut n.val (trbBase g n.val x) g.tregs
        trbs := g.trbs.filter (fun t => t.n != n) ++ [{ n := n, a := x, g := (partOf s g.part).gen }] }
      .next (finish { s with free := s.free + 1 } pl g sp h 1)

end Sys2Proof.Machine
end

