-- ==== Sys2Proof/Machine/Sync.lean ====
section
/-! DEFINITION. Fences, barriers and the event queue, majors 0x30 to 0x32 (R176–R186), and the waits that they share with the
level words, EXIT and RET. -/

namespace Sys2Proof.Machine

/-! ### Words that wait in several steps -/

/-- The other splits of a group. -/
def otherSplits (g : Group) (n : Nat) : List (Nat × Split) := g.splits.filter fun p => p.1 != n

/-- The word is issued: its FPE check is behind it, and it waits for the words that other splits have parked. -/
def begun (g : Group) (n : Nat) (sp : Split) : Split :=
  if sp.stage = 0 then
    { sp with stage := 1, await := ((otherSplits g n).filter fun p => p.2.unfin.isSome).map (·.1) }
  else sp

/-- Every memory word that the group issued before is performed in all its threads (R178). -/
def memDone (g : Group) (sp : Split) : Bool := g.pend.isEmpty && sp.await.isEmpty

/-- A word at which tenders stall (R231). -/
def syncIssue (s : State) (k : Place → Group → Split → Out) : Out :=
  issue s fun pl g sp => if g.isTender.isSome then .next (waitAt s pl g sp .tender) else k pl g sp

/-- The same with the FPE check of R83 when the word is first issued. -/
def fpeIssue (s : State) (k : Place → Group → Split → Out) : Out :=
  syncIssue s fun pl g sp =>
    if sp.stage = 0 && fpePending g then .next (trap s pl .fpe) else k pl g (begun g pl.split sp)

/-! ### Fences (R178) -/

/-- Freshness: later loads renew their leases. -/
def freshTime (s : State) (c : Nat) : State :=
  setCoreTime s c (1 + (coreOf s c).l1.foldl (fun t x => Nat.max t x.2.e) (coreTime s c))

/-- The packets that FENCE.pod waits for: those that the group had closed when the fence issued, which the split keeps, and
that are not acknowledged (R178). -/
def packetsDue (g : Group) (sp : Split) : List (Nat × Word) :=
  if sp.stage = 2 then g.acks.filter fun a => sp.vals.any fun x => x.1 == a.1 else g.acks

/-- A packet among them that was discarded with its port: the window address (R307). -/
def lostPacket (s : State) (ps : List (Nat × Word)) : Option Word :=
  (ps.find? fun a => (portOf s (a.1 % 18)).failed).map (·.2)

/-- Drops the lines of a partition's function from the host read buffer (R178, R187). -/
def dropHostLines (s : State) (part : Nat) : State := { s with hostBuf := s.hostBuf.filter fun l => l.fn != part }

/-- A group's undrained call slips on its core. -/
def groupSlips (s : State) (pl : Place) : List Slip := (coreOf s pl.core).slips.filter fun y => y.slot == pl.slot

/-- The last step of FENCE.eng: a pending copy error (R301), a pending infeasibility (R287), the flags (R262), FPE. -/
def fenceEng (s : State) (pl : Place) (g : Group) (sp : Split) (h : Hd) : State :=
  if !(groupSlips s pl).isEmpty then waitAt s pl g sp .drain
  else
    match g.copyErr with
    | some (c, a) => trapWith (store s pl { g with copyErr := none } sp) pl c 0 0 a
    | none =>
      if g.infeas then trap (store s pl { g with infeas := false } sp) pl .infeas
      else
        let g := { raiseFlags g g.engFlags with engFlags := 0 }
        if fpePending g then trap (store s pl g sp) pl .fpe else finish s pl g sp h 1

/-- The steps of a fence after its wait for memory words. -/
def fenceTail (s : State) (pl : Place) (g : Group) (sp : Split) (h : Hd) (sc : Scope) : State :=
  match sc with
  | .eng => fenceEng s pl g sp h
  | .pod =>
    let s := if sp.stage = 2 then s else freshTime s pl.core
    let due := packetsDue g sp
    match lostPacket s due with
    | some a => trapAddr s pl .linkerr a
    | none => if due.isEmpty then finish s pl g sp h 1 else waitAt s pl g { sp with stage := 2, vals := due } .ack
  | .sys => finish (dropHostLines (freshTime s pl.core) g.part) pl g sp h 1
  | .quad | .die | .pkg => finish (freshTime s pl.core) pl g sp h 1
  | .core | .lane => finish s pl g sp h 1

/-- FENCE (R178); at stage 2 a FENCE.pod waits for acknowledgements. -/
def execFence (h : Hd) (sc : Scope) (s : State) : Out :=
  fpeIssue s fun pl g sp =>
    if sp.stage = 2 || memDone g sp then .next (fenceTail s pl g sp h sc) else .next (waitAt s pl g sp (.performed 15))

/-! ### Barrier instances (R179–R181) -/

/-- The instance at a key. -/
def barOf (s : State) (k : BarKey) : Barrier :=
  match s.barriers.find? fun p => p.1 == k with
  | some p => p.2
  | none => Barrier.reset

/-- Writes an instance. -/
def setBar (s : State) (k : BarKey) (b : Barrier) : State :=
  { s with barriers := s.barriers.filter (fun p => p.1 != k) ++ [(k, b)] }

/-- The launch takes part in the instances of a key; which launches Jalov has joined into one pod job is fixed in Config
(R179; DESIGN CHOICE, log 15). -/
def barMember (n : Nat) : BarKey → Bool
  | .core l _ _ | .quad l _ _ | .die l _ _ | .pkg l _ | .level l _ _ => l == n
  | .pod j _ => Config.podJob n == j

/-- The instances that are left once launch n is forgotten. -/
def barsWithout (s : State) (n : Nat) : List (BarKey × Barrier) :=
  s.barriers.filter fun p => !barMember n p.1 || s.launches.any fun l => l.1 != n && barMember l.1 p.1

/-- The instance that a group on core c names (R179). -/
def barKey (c : Nat) (g : Group) : BarAt → BarKey
  | .level lv _ => .level g.launch g.team lv
  | .scope .quad id => .quad g.launch (c / 4) (id % 8)
  | .scope .die id => .die g.launch (c / Config.coresPerDie) (id % 8)
  | .scope .pkg id => .pkg g.launch (id % 8)
  | .scope .pod id => .pod (Config.podJob g.launch) (id % 4)
  | .scope _ id => .core g.launch g.team (id % 16)

/-- An instance among the groups of one team, whose count 0 means the live groups (R180, R208). -/
def isTeamBar : BarKey → Bool
  | .core .. | .level .. => true
  | _ => false

/-- The team's groups with threads that have not exited. -/
def liveGroups (s : State) (c launch team : Nat) : List (Nat × Group) :=
  (coreOf s c).slots.filter fun x =>
    x.2.launch == launch && x.2.team == team && x.2.isTender.isNone && liveMask x.2 != 0

/-- The launch of a group is phased (R191). -/
def isPhased (s : State) (g : Group) : Bool :=
  match launchOf s g.launch with
  | some l => l.phased
  | none => false

/-- The generation with these arrivals is complete (R180). -/
def barComplete (s : State) (c launch team : Nat) (k : BarKey) (b : Barrier) : Bool :=
  if b.expected ≠ 0 then decide (b.expected ≤ b.arrivals.length)
  else !isTeamBar k || decide ((liveGroups s c launch team).length ≤ b.arrivals.length)

/-- The arriving group, on whichever core it is now. -/
def isArriving (a : Arrival) (g : Group) : Bool :=
  g.launch == a.launch && g.team == a.team && g.gnum == a.gnum && g.isTender.isNone

/-- The result of a REDL for thread t over the arrivals in ascending group number (R207). -/
def redlOf (op : RedOp) (ty : RTy) (as : List Arrival) (t : Nat) : Word × Flags :=
  let ms := (as.mergeSort fun a b => decide (a.gnum ≤ b.gnum)).filterMap fun a => tabFind t a.vals
  mapEls (rBits ty) fun k => redList op ty (ms.map fun x => subEl (rBits ty) x k)

/-- A group with the results and flags of its REDL, by thread. -/
def withRedl (rs : List (Nat × Word × Flags)) (g : Group) : Group :=
  { raiseFlags g (rs.foldl (fun f r => f ||| r.2.2) 0) with redl := some (rs.map fun r => (r.1, r.2.1)) }

/-- Gives an arriving group its results and flags: where it is resident now, or in the record of its team if that has been
saved since (R331, R333). -/
def giveRedl (op : RedOp) (ty : RTy) (as : List Arrival) (s : State) (a : Arrival) : State :=
  let rs := a.vals.map fun p => (p.1, redlOf op ty as p.1)
  let give := fun g : Group => if isArriving a g then withRedl rs g else g
  { s with
    cores := s.cores.map fun c => (c.1, { c.2 with slots := c.2.slots.map fun x => (x.1, give x.2) })
    launches := s.launches.map fun l =>
      (l.1, { l.2 with records := l.2.records.map fun r =>
        { r with groups := r.groups.map fun x => { x with grp := give x.grp } } }) }

/-- Raises the Tc of the core that arrived, and the time of the team's record if the team has been saved since. -/
def raiseTime (top : Nat) (s : State) (a : Arrival) : State :=
  let s := setCoreTime s a.core (Nat.max (coreTime s a.core) top)
  match launchOf s a.launch with
  | none => s
  | some l =>
    if l.records.any fun r => r.team == a.team then
      setLaunch s a.launch { l with records := l.records.map fun r =>
        if r.team = a.team then { r with time := Nat.max r.time top } else r }
    else s

/-- Completes a generation (R180): Tc of the arriving cores, except for REDL, which adds no edge to lt (R207); the
results of a REDL; the next generation; the waiting splits of the package. -/
def completeBar (s : State) (k : BarKey) : State :=
  let b := barOf s k
  let top := b.arrivals.foldl (fun t a => Nat.max t a.tc) 0
  let s := match b.what with
    | some (.redl op ty) => b.arrivals.foldl (giveRedl op ty b.arrivals) s
    | _ => b.arrivals.foldl (raiseTime top) s
  let s := setBar s k { gen := b.gen + 1, expected := 0, what := none, arrivals := [] }
  let s := s.cores.foldl (fun s c => wakeCore s c.1 fun w =>
    match w with
    | .barrier k' _ => k' == k
    | _ => false) s
  (s.launches.filter fun l => barMember l.1 k).foldl (fun s l => restartStarve s l.2.part) s

/-- At a phase boundary every group of the team has one split and no deferral entry (R330). -/
def phaseReady (s : State) (c launch team : Nat) : Bool :=
  (liveGroups s c launch team).all fun x => x.2.splits.length == 1 && x.2.defers.isEmpty

/-- A group's arrival (R180); `none` where it traps with ILLOP (R208, R330). -/
def arriveBar (s : State) (pl : Place) (g : Group) (k : BarKey) (what : Option BarWhat) (n : Nat) (vals : Tab Word) :
    Option State :=
  let b := barOf s k
  let fresh := b.arrivals.isEmpty
  if !fresh && b.what != what then none
  else
    let a : Arrival :=
      { launch := g.launch, team := g.team, gnum := g.gnum, core := pl.core, tc := coreTime s pl.core, vals := vals }
    let b := { b with what := what, expected := if fresh then n else b.expected, arrivals := b.arrivals ++ [a] }
    let whole := barComplete s pl.core g.launch g.team k b
    if whole && isTeamBar k && isPhased s g && !phaseReady s pl.core g.launch g.team then none
    else
      let g := { g with arrived := g.arrived.filter (fun x => x.1 != k) ++ [(k, b.gen)] }
      let s := setBar (setGroup s pl.core pl.slot g) k b
      some (if whole then completeBar s k else s)

/-- After a group's exit: generations that wait for the live groups may be complete (R180, R208). A generation of a phased team
that an exit completes is a boundary whatever splits its groups hold, since R330's check stands at the last arrival (DEDUCED,
log 51). -/
def exitBars (s : State) (c launch team : Nat) : State :=
  (s.barriers.filter fun p =>
    match p.1 with
    | .core l t _ => l == launch && t == team
    | .level l t _ => l == launch && t == team
    | _ => false).foldl
    (fun s p =>
      let b := barOf s p.1
      if !b.arrivals.isEmpty && barComplete s c launch team p.1 b then completeBar s p.1 else s) s

/-! ### Splits at barrier words and merge points -/

/-- A wait at a barrier word or a merge point (R180, R181, R220). -/
def isMeeting : Wait → Bool
  | .gather _ | .barrier _ _ | .lane | .join | .ret => true
  | _ => false

/-- The other splits wait here; or elsewhere, each at some barrier word or merge point; or not all of them wait. -/
inductive Meeting where
  | here
  | elsewhere
  | notYet
deriving DecidableEq, Repr

/-- Where the other splits of a group stand against a wait. -/
def meeting (g : Group) (n : Nat) (w : Wait) : Meeting :=
  let os := otherSplits g n
  if os.all fun p => p.2.wait == some w then .here
  else if os.all fun p =>
      match p.2.wait with
      | some x => isMeeting x
      | none => false then .elsewhere
  else .notYet

/-- The other splits repeat their words at stage 2. -/
def passOthers (s : State) (pl : Place) : State :=
  match groupAt s pl.core pl.slot with
  | none => s
  | some g =>
    setGroup s pl.core pl.slot { g with splits := g.splits.map fun p =>
      if p.1 == pl.split then p else (p.1, { p.2 with wait := none, stage := 2 }) }

/-- A split that has passed a phase boundary waits there (R331). -/
def holdPhase (s : State) (pl : Place) : State :=
  match groupAt s pl.core pl.slot with
  | none => s
  | some g =>
    match splitAt g pl.split with
    | none => s
    | some sp => waitAt s pl g sp .phase

/-- The end of BAR, BARL and of a REDL over groups: BARW on the instance (R181). `fin` ends the word, which occupies `occ` cycles. -/
def barwTail (s : State) (pl : Place) (g : Group) (sp : Split) (occ : Nat) (k : BarKey) (fin : Group → State) : State :=
  match g.arrived.find? fun x => x.1 == k with
  | none => fin g
  | some x =>
    if x.2 < (barOf s k).gen then fin { g with arrived := g.arrived.filter fun y => y.1 != k }
    else waitIssued s pl g sp occ (.barrier k x.2)

/-- A team barrier of a phased team is a phase boundary (R330). -/
def finBar (s : State) (pl : Place) (sp : Split) (h : Hd) (k : BarKey) (g : Group) : State :=
  let phase := isTeamBar k && isPhased s g
  let s := finish s pl g sp h (sp.owes 1)
  if phase then holdPhase s pl else s

/-- The arrival of a group that has gathered its splits, and what follows it; `after` continues the word at stage 2. -/
def arriveHere (s : State) (pl : Place) (g : Group) (sp : Split) (b : BarAt) (n occ : Nat) (vals : Tab Word)
    (after : State → Group → Split → State) : State :=
  let k := barKey pl.core g b
  let early := match g.arrived.find? fun x => x.1 == k with
    | some x => if (barOf s k).gen ≤ x.2 then some x.2 else none
    | none => none
  match early with
  | some gen => waitIssued s pl g sp occ (.barrier k gen)
  | none =>
    if !memDone g sp then waitIssued s pl g sp occ (.performed 4)
    else
      let what := match b with
        | .level _ w => some w
        | .scope _ _ => none
      match arriveBar s pl g k what n vals with
      | none => trap s pl .illop
      | some s' =>
        let s' := passOthers s' pl
        match groupAt s' pl.core pl.slot with
        | some g => after s' g { sp with stage := 2 }
        | none => s'

/-- A barrier word at stage 1 or 2 (R180, R181, R208). -/
def barWord (s : State) (pl : Place) (g : Group) (sp : Split) (b : BarAt) (n occ : Nat) (vals : Tab Word)
    (after : State → Group → Split → State) : State :=
  if sp.stage = 2 then after s g sp
  else
    match meeting g pl.split (.gather b) with
    | .here => arriveHere s pl g sp b n occ vals after
    | .elsewhere => trap s pl .illop
    | .notYet => waitIssued s pl g sp occ (.gather b)

/-- BAR.lane, and BARL on the lane network (R181, R208). -/
def laneBar (s : State) (pl : Place) (g : Group) (sp : Split) (h : Hd) : State :=
  if sp.stage = 2 then finish s pl g sp h (sp.owes 1)
  else
    match meeting g pl.split .lane with
    | .here =>
      let s := passOthers s pl
      match groupAt s pl.core pl.slot with
      | some g => finish s pl g sp h (sp.owes 1)
      | none => s
    | .elsewhere => trap s pl .illop
    | .notYet => waitIssued s pl g sp 1 .lane

/-- The operands of a barrier word: OPSPEC for a per-thread or reserved source (R179). -/
def barOpspec (g : Group) (os : List Opnd) : Bool := os.any (fun o => !isUniform o) || namesBad g os

/-- An id or count operand. -/
def uniVal (s : State) (g : Group) (sp : Split) (o : Opnd) : Nat := (readOp g sp s.free (.int 64) 32 o).toNat

/-- Bits of an id that a scope uses (R179). -/
def barId (sc : Scope) (x : Nat) : Nat :=
  match sc with
  | .core => x % 16
  | .pod => x % 4
  | _ => x % 8

/-- The shape of BAR and BARA at a scope other than .lane. In a phased team BARA.core traps with ILLOP, after the FPE check (R83,
R330; DEDUCED, log 55). -/
def barArrive (s : State) (h : Hd) (sc : Scope) (a b : Opnd) (bara : Bool) : Out :=
  issue s fun pl g sp =>
    if barOpspec g [a, b] then .next (trap s pl .opspec)
    else if hazard g sp pl.split [a, b] [] then .next (trap s pl .hazard)
    else fpeIssue s fun pl g sp =>
      if bara && sc == .core && isPhased s g then .next (trap s pl .illop)
      else
      let at' := BarAt.scope sc (barId sc (uniVal s g sp a))
      .next (barWord s pl g sp at' (uniVal s g sp b % 2 ^ 16) 1 [] fun s g sp =>
        let k := barKey pl.core g at'
        if bara then finish s pl g sp h (sp.owes 1) else barwTail s pl g sp 1 k (finBar s pl sp h k))

/-- BAR (R181). -/
def execBar (h : Hd) (sc : Scope) (a b : Opnd) (s : State) : Out :=
  match sc with
  | .lane => fpeIssue s fun pl g sp => .next (laneBar s pl g sp h)
  | _ => barArrive s h sc a b false

/-- BARA (R180). -/
def execBara (h : Hd) (sc : Scope) (a b : Opnd) (s : State) : Out := barArrive s h sc a b true

/-- Every other split waits at a barrier word or a merge point, and some of them wait there for all splits of the group: the
last split to arrive traps with ILLOP (R180, R181, R220). -/
def lateMeeting (g : Group) (n : Nat) : Bool :=
  let os := otherSplits g n
  os.all (fun p =>
    match p.2.wait with
    | some x => isMeeting x
    | none => false)
  && os.any fun p =>
    match p.2.wait with
    | some (.barrier _ _) | none => false
    | some _ => true

/-- BARW (R181); the FPE check comes before ILLOP in a phased team (R83, R330; DEDUCED, log 55). -/
def execBarw (h : Hd) (sc : Scope) (a : Opnd) (s : State) : Out :=
  issue s fun pl g sp =>
    if barOpspec g [a] then .next (trap s pl .opspec)
    else if hazard g sp pl.split [a] [] then .next (trap s pl .hazard)
    else fpeIssue s fun pl g sp =>
      if sc == .core && isPhased s g then .next (trap s pl .illop)
      else
      let k := barKey pl.core g (.scope sc (barId sc (uniVal s g sp a)))
      match g.arrived.find? fun x => x.1 == k with
      | some x =>
        if (barOf s k).gen ≤ x.2 && lateMeeting g pl.split then .next (trap s pl .illop)
        else .next (barwTail s pl g sp 1 k fun g => finish s pl g sp h (sp.owes 1))
      | none => .next (finish s pl g sp h 1)

/-! ### The event queue (R184–R186) -/

/-- Records of a group in the queue. -/
def recordsOf (k : Core) (slot : Nat) : List EvRec := k.events.filter fun e => e.slot == slot

/-- EVWAIT (R185). -/
def execEvwait (h : Hd) (a : Opnd) (s : State) : Out :=
  issue s fun pl g sp =>
    if barOpspec g [a] then .next (trap s pl .opspec)
    else if hazard g sp pl.split [a] [] then .next (trap s pl .hazard)
    else syncIssue s fun pl g sp =>
      let k := Nat.min (uniVal s g sp a) 64
      if k ≤ (recordsOf (coreOf s pl.core) pl.slot).length then .next (finish s pl g sp h 1)
      else .next (waitAt s pl g sp (.events k))

/-- The queue without its oldest record of a group. -/
def dropRecord (slot : Nat) : List EvRec → List EvRec
  | [] => []
  | e :: r => if e.slot == slot then r else e :: dropRecord slot r

/-- The destination keys of a word that issues once: key 32 for g and z, else every active thread (R186, R342). -/
def onceKeys (d : Opnd) (m : Mask) : List Nat :=
  match d with
  | .g _ | .z => [32]
  | _ => m.threads

/-- EVPOP (R186); a record that waited for the freed place takes it (R184). -/
def execEvpop (h : Hd) (d : Opnd) (s : State) : Out :=
  issue s fun pl g sp =>
    if badDst d || namesBad g [d] then .next (trap s pl .opspec)
    else if hazard g sp pl.split [] [d] then .next (trap s pl .hazard)
    else syncIssue s fun pl g sp =>
      let k := coreOf s pl.core
      let x := match recordsOf k pl.slot with
        | e :: _ => e.word
        | [] => 0
      let (g, sp) := deliver g sp pl.split .m none .var d ((onceKeys d sp.mask).map fun t => (t, x))
      let full := decide (64 ≤ k.events.length)
      let s := finish (setCore s pl.core { k with events := dropRecord pl.slot k.events }) pl g sp h 1
      .next (if full then postRecord s pl.core else s)

end Sys2Proof.Machine
end

