-- ==== Sys2Proof/Machine/Teams.lean ====
section
/-! DEFINITION. What becomes of teams and launches: the retirement of a team (R174), and the end of a launch before its
threads have exited (R222, R325, R326). -/

namespace Sys2Proof.Machine

/-- The group belongs to a team. -/
def inTeam (launch team : Nat) (g : Group) : Bool := g.launch == launch && g.team == team

/-- The slots of a team on a core, its tenders included. -/
def teamSlots (k : Core) (launch team : Nat) : List (Nat × Group) := k.slots.filter fun x => inTeam launch team x.2

/-- Frees a team's scratchpad, registers, group slots, fork slots and array claim (R174, R244, R331). -/
def freeTeam (s : State) (c launch team : Nat) : State :=
  let k := coreOf s c
  let mine := teamSlots k launch team
  let gone := mine.map (·.1)
  let claimed := k.array.claim == some (launch, team)
  let s := setCore s c
    { k with
      slots := k.slots.filter fun x => !gone.contains x.1
      running := k.running.filter fun r => !gone.contains r.2.1
      vgran := k.vgran - (mine.map fun x => x.2.valloc / 8).sum
      granules := k.granules.filter fun x => x.2 != (launch, team)
      forks := k.forks.filter fun f => !gone.contains f.2
      events := k.events.filter fun e => !gone.contains e.slot
      waiting := k.waiting.filter fun e => !gone.contains e.slot
      room := k.room.filter fun w => !gone.contains w.slot
      array := if claimed then { k.array with claim := none } else k.array }
  let s := { s with turn := match s.turn with
    | some pl => if pl.core == c && gone.contains pl.slot then none else some pl
    | none => none }
  let s := retryRoom s c
  wakeCore (postRecords s c 64) c fun w => w == .claim

/-- Every group of the team has no thread left and no undrained slip (R174). -/
def teamDone (k : Core) (launch team : Nat) : Bool :=
  let mine := teamSlots k launch team
  !mine.isEmpty && mine.all fun x => liveMask x.2 == 0 && !(k.slips.any fun y => y.slot == x.1)

/-- The barrier instance belongs to a team. -/
def barOfTeam (launch team : Nat) : BarKey → Bool
  | .core l t _ | .level l t _ => l == launch && t == team
  | _ => false

/-- Forgets a launch that has ended and has no group, no waiting write and no waiting team left. -/
def dropLaunch (s : State) (n : Nat) : State :=
  match launchOf s n with
  | none => s
  | some l =>
    if l.status ≠ 0 && l.recPend.isEmpty && s.cores.all fun c => c.2.slots.all fun x => x.2.launch != n then
      { s with launches := tabErase n s.launches, barriers := barsWithout s n }
    else s

/-- The team's places are used by no other team for 8 cycles from now on (R329). -/
def coolTeam (s : State) (c launch team : Nat) : State :=
  let k := coreOf s c
  let mine := teamSlots k launch team
  setCore s c { k with freed := k.freed ++
    [{ until' := s.clock.toNat + 8, slots := mine.map (·.1), vgran := (mine.map fun x => x.2.valloc / 8).sum
       grans := (k.granules.filter fun x => x.2 == (launch, team)).map (·.1) }] }

/-- Retires a team once it is done (R174). -/
def retireTeam (s : State) (c launch team : Nat) : State :=
  if teamDone (coreOf s c) launch team then
    let s := freeTeam (coolTeam s c launch team) c launch team
    let s := { s with barriers := s.barriers.filter fun p => !barOfTeam launch team p.1 }
    match launchOf s launch with
    | none => s
    | some l => dropLaunch (setLaunch s launch { l with retired := l.retired + 1, retiredAt := s.clock }) launch
  else s

/-- Retires every team of a core that is done: after slips have drained (R174). -/
def retireDone (s : State) (c : Nat) : State :=
  (coreOf s c).slots.foldl (fun s x => retireTeam s c x.2.launch x.2.team) s

/-- The keys of the lines and rows that written call slips of a group cover: memory by its present translation (R172). -/
def slipKeys (s : State) (c part : Nat) (y : Slip) : List Nat :=
  match y.range with
  | .mem lo hi => (List.range ((hi - 1) / 128 - lo / 128 + 1)).filterMap fun i =>
      match vaPlain s part (BitVec.ofNat 64 (128 * (lo / 128 + i))) false with
      | .ok loc _ => some (lineKey loc)
      | _ => none
  | .scr lo hi => (List.range ((hi - 1) / 16 - lo / 16 + 1)).map fun i =>
      lineKey (scratchLoc c (apOffset (BitVec.ofNat 64 (16 * (lo / 16 + i)))))
  | _ => []

/-- The forks of a group's tenders before which operation op had not been issued. -/
def forksBefore (k : Core) (slot op : Nat) : List Nat :=
  (tendersOf k slot).filterMap fun n =>
    match tabFind n k.slots with
    | some t =>
      match t.isTender with
      | some td => if td.nextOp ≤ op then some td.fork else none
      | none => none
    | none => none

/-- An operation's slips drain (R173); what its written ranges cover counts as written by the callee of the forks that it was
issued after (R233; DEDUCED, log 42). -/
def removeSlips (s : State) (c slot op : Nat) : State :=
  let k := coreOf s c
  let s' := setCore s c { k with slips := k.slips.filter fun y => y.op != op }
  match forksBefore k slot op, groupAt s c slot with
  | f :: fs, some g =>
    let keys := (k.slips.filter fun y => y.op == op && y.wr).flatMap (slipKeys s c g.part)
    setGroup s' c slot { g with wrote := g.wrote ++ (f :: fs).flatMap fun f => keys.map fun x => (f, x) }
  | _, _ => s'

/-- A slip has drained: waits for slips repeat their checks, and teams may retire (R172–R174). -/
def slipsDrained (s : State) (c : Nat) : State :=
  retireDone (wakeCore s c fun w =>
    match w with
    | .conflict _ | .room _ | .drain | .engine | .claim => true
    | _ => false) c

/-- Removes every thread of a group without an EXIT (R222): its accesses are performed, its tenders squashed, its
colophon appended with END = 1 (R355). -/
def removeGroup (s : State) (c slot : Nat) : State :=
  let s := squashTenders (drainPend s c slot) c slot
  match groupAt s c slot with
  | none => s
  | some g =>
    let s := setCore s c (releasePipe (coreOf s c) slot)
    let s := { s with turn := match s.turn with
      | some pl => if pl.core == c && pl.slot == slot then none else some pl
      | none => none }
    let k := coreOf s c
    let s := setCore s c { k with room := k.room.filter fun w => w.slot != slot }
    let s := recWrite s (.core c) g.launch (.append (colophon s g 1))
    retryRoom (setGroup s c slot { g with splits := [], defers := [], trbs := [], results := [], stopped := false }) c

/-- Sends an MSI-X vector of a function (R322, R326). -/
def sendMsix (s : State) (fn vec : Nat) : State := { s with msix := s.msix ++ [(fn, vec)] }

/-- The front end's logical time passes that of every core: what follows comes after every event of the launch (R326). -/
def catchUp (s : State) (a : Agent) : State :=
  setAgentTime s (s.cores.foldl (fun t c => Nat.max t (coreTime s c.1)) (agentTime s a)) a

/-- Step 5 of R326, once T1 and STATUS are written (R378). -/
def sendDone (s : State) (n : Nat) : State :=
  match launchOf s n with
  | some l =>
    if l.msi && l.recPend.isEmpty then sendMsix (setLaunch s n { l with msi := false }) l.part l.stream else s
  | none => s

/-- Steps 3 to 5 of R326: T1, STATUS and the interrupt; a write whose page is absent waits, and what follows it waits with
it (R378). -/
def closeLaunch (s : State) (n status : Nat) : State :=
  match launchOf s n with
  | none => s
  | some l =>
    let a := launchAgent s l
    let s := catchUp s a
    let s := recWrite s a n (.put 56 (leBytes 8 s.clock.toNat))
    let s := recWrite s a n (.put 8 [BitVec.ofNat 8 status])
    match launchOf s n with
    | some l => sendDone (setLaunch s n { l with status := status, sliceT := none, records := [], msi := l.irq }) n
    | none => s

/-- Takes a launch's waiting teams out of its stream's queue; a queue that this empties is waited for no longer (R338). -/
def dropTeams (s : State) (l : Launch) (n : Nat) : State :=
  let q : StreamId := ⟨l.part, l.stream⟩
  let x := streamOf s q
  let left := x.teams.filter fun t => t.launch != n
  let s := setStream s q { x with teams := left }
  if left.isEmpty then serveHeld s q else s

/-- Carried registers of a launch. -/
def carried (l : Launch) : Nat := ((List.range 64).filter fun i => l.carry.getLsbD i).length

/-- The group of a record with the cycles since its save counted in counter 15 (R353; DESIGN CHOICE, log 19). -/
def waitedGroup (clock : Word) (r : GroupRec) : Group :=
  match r.grp.origin with
  | .fresh => r.grp
  | .phase | .whole => addStall r.grp 15 (clock - r.at').toNat

/-- The groups of a launch that teams' records hold. -/
def savedGroups (s : State) (l : Launch) : List Group :=
  l.records.flatMap fun r => r.groups.map (waitedGroup s.clock)

/-- Removes the threads of the groups that records hold: their colophons are appended with END = 1 (R355). -/
def removeSaved (s : State) (n : Nat) (l : Launch) : State :=
  ((savedGroups s l).filter fun g => liveMask g != 0).foldl
    (fun s g => recWrite s (launchAgent s l) n (.append (colophon s g 1))) s

/-- The resident groups of a launch that are no tenders. -/
def launchGroups (s : State) (n : Nat) : List (Nat × Nat × Group) :=
  s.cores.flatMap fun c => (c.2.slots.filter fun x => x.2.launch == n && x.2.isTender.isNone).map fun x => (c.1, x.1, x.2)

/-- Ends a launch before its threads have exited: DEADLOCK, ENDED or BADPHASE (R190, R222, R325, R332). -/
def endLaunch (s : State) (n status : Nat) : State :=
  match launchOf s n with
  | none => s
  | some l =>
    if l.status ≠ 0 then s
    else
      let gs := launchGroups s n
      let s := (gs.filter fun x => liveMask x.2.2 != 0).foldl (fun s x => removeGroup s x.1 x.2.1) (dropTeams s l n)
      let s := removeSaved s n l
      let s := closeLaunch s n status
      let s := gs.foldl (fun s x => retireTeam s x.1 x.2.2.launch x.2.2.team) s
      dropLaunch s n

end Sys2Proof.Machine
end

