-- ==== Sys2Proof/Machine/Array.lean ====
section
/-! DEFINITION. The matrix array as a unit: its claim (R244), the footprints of its operations (R256, R257, R264, R279), the
shape of an engine word, and what an operation does when it runs (R258–R261, R280–R291). -/

namespace Sys2Proof.Machine

/-! ### The claim (R244) -/

/-- The array with the state of a fresh claim. DPH, STEP and the governor belong to the core. -/
def MArray.cleared (m : MArray) : MArray :=
  { m with front := [], back := [], fscale := [], bscale := [], acc := [], mrow := [], mcol := [], srow := [], scol := [],
           planst := 0, fmtb := FmtRec.reset }

/-- The array as a matrix or plan word of the group finds it: its team's, or claimed by the word if it is free. -/
def claimFor (m : MArray) (g : Group) : Option MArray :=
  match m.claim with
  | none => some { m.cleared with claim := some (g.launch, g.team) }
  | some t => if t = (g.launch, g.team) then some m else none

/-! ### Addresses (R256) -/

/-- The aperture address of the first byte of a core's own scratchpad. -/
def ownBase (c : Nat) : Word := Config.aperture + BitVec.ofNat 64 (2 ^ 20 * (c % 4))

/-- The bytes [a, a + n) are aligned and lie in the team's granules of the core's own scratchpad. -/
def ownRange (k : Core) (c : Nat) (g : Group) (a : Word) (n : Nat) : Bool :=
  let o := a.toNat - (ownBase c).toNat
  a.toNat % 16 == 0 && decide ((ownBase c).toNat ≤ a.toNat) && decide (o + n ≤ 2 ^ 20)
    && (List.range 256).all fun i =>
      !(decide (4096 * i < o + n) && decide (o < 4096 * i + 4096)) || tabFind i k.granules == some (g.launch, g.team)

/-- The location of an aperture address in the scratchpads of the core's quad. -/
def apLoc (c : Nat) (a : Word) : Nat := scratchLoc c (apOffset a)

/-- n of a control value (R257). -/
def ctlRows (b : Word) : Nat := (b.extractLsb' 0 6).toNat + 1
/-- ROW0. -/
def ctlRow0 (b : Word) : Nat := (b.extractLsb' 6 6).toNat
/-- TILE. -/
def ctlTile (b : Word) : Nat := (b.extractLsb' 12 2).toNat
/-- Z. -/
def ctlZ (b : Word) : Bool := b.getLsbD 14

/-- The pitch and the rows of a control value obey R256. -/
def rowsOk (b c : Word) : Bool := c.toNat % 16 == 0 && decide (c.toNat < 2 ^ 20) && decide (ctlRow0 b + ctlRows b ≤ 64)

/-- Bytes from the first to the last of n rows of w bytes. -/
def rowSpan (n pitch w : Nat) : Nat := (n - 1) * pitch + w

/-- The address of the activation scales. -/
def ascAddr (c : Nat) (f : FmtRec) : Word := ownBase c + BitVec.ofNat 64 f.ascl

/-! ### MMT (R263, R264) -/

/-- The descriptor of an MMT. -/
structure MmtDesc where
  mt      : Nat
  ooff    : Nat
  apitch  : Nat
  aoff    : Nat
  opitch  : Nat
  wstride : Nat
  woff    : Nat
  kt      : Nat
  nt      : Nat
deriving DecidableEq, Repr

/-- Reads D0 to D2. -/
def mmtDesc (ds : List Word) : MmtDesc :=
  let d := fun i => ds.getD i 0
  { mt := ((d 0).extractLsb' 60 2).toNat + 1, ooff := ((d 0).extractLsb' 40 20).toNat,
    apitch := ((d 0).extractLsb' 20 20).toNat, aoff := ((d 0).extractLsb' 0 20).toNat,
    opitch := ((d 1).extractLsb' 40 20).toNat, wstride := ((d 1).extractLsb' 20 20).toNat,
    woff := ((d 1).extractLsb' 0 20).toNat, kt := ((d 2).extractLsb' 16 16).toNat, nt := ((d 2).extractLsb' 0 16).toNat }

/-- TAG. -/
def mmtTag (ds : List Word) : Word := (ds.getD 2 0) >>> 32

/-- A reserved bit of the descriptor is 1. -/
def mmtReserved (ds : List Word) : Bool := (ds.getD 0 0).extractLsb' 62 2 != 0 || (ds.getD 1 0).extractLsb' 60 4 != 0

/-- ss: activation scale bytes of a 64-row MMA, rounded up to 16. -/
def mmtScale (f : FmtRec) : Nat := (f.scaleBytes 64 + 15) / 16 * 16

/-- Steps of an MMT. -/
def mmtSteps (d : MmtDesc) : Nat := d.nt * (d.kt * (d.mt + 2) + d.mt)

/-- A control value. -/
def ctlOf (z : Bool) (tile row0 n : Nat) : Word :=
  BitVec.ofNat 64 ((if z then 2 ^ 14 else 0) + 2 ^ 12 * tile + 2 ^ 6 * row0 + (n - 1))

/-- Step s of an MMT as the operation that it names (R264). -/
def mmtStepOp (c : Nat) (ds : List Word) (f : FmtRec) (s : Nat) : ArrOp :=
  let d := mmtDesc ds
  let per := d.kt * (d.mt + 2) + d.mt
  let j := s / per
  let r := s % per
  let at' := fun o : Nat => ownBase c + BitVec.ofNat 64 o
  if r < d.kt * (d.mt + 2) then
    let k := r / (d.mt + 2)
    match r % (d.mt + 2) with
    | 0 =>
      let a := at' (d.woff + (j * d.kt + k) * d.wstride)
      .wld a (if f.wblk = 0 then 0 else a + 8192)
    | 1 => .wswp
    | q + 2 =>
      let asc := f.ascl + (q * d.kt + k) * mmtScale f
      let f0 := (f.f0 &&& ~~~(0xFFFFF#64 <<< 20)) ||| (BitVec.ofNat 64 (asc % 2 ^ 20) <<< 20)
      .mma (at' (d.aoff + 64 * q * d.apitch + 128 * k)) (ctlOf (k == 0) q 0 64) (BitVec.ofNat 64 d.apitch) { f with f0 := f0 }
  else
    let i := r - d.kt * (d.mt + 2)
    .accout (at' (d.ooff + 64 * i * d.opitch + 64 * j * f.width)) (ctlOf false i 0 64) (BitVec.ofNat 64 d.opitch) f

/-! ### Footprints (R257, R264, R279) -/

/-- Bytes of the scratchpad from an address on. -/
def scrRange (a : Word) (n : Nat) : Range := .scr a.toNat (a.toNat + n)

/-- The bit of a plan register: mrow, mcol, srow, scol. -/
def pregBit (scl col : Bool) : BitVec 4 := 1#4 <<< ((if scl then 2 else 0) + (if col then 1 else 0))

/-- The byte ranges of an MMT: A, weights, scales, output, each with its length. -/
def mmtRanges (c : Nat) (ds : List Word) (f : FmtRec) : List (Word × Nat × Bool) :=
  let d := mmtDesc ds
  let at' := fun o : Nat => ownBase c + BitVec.ofNat 64 o
  [(at' d.aoff, rowSpan (64 * d.mt) d.apitch 128 + 128 * (d.kt - 1), false),
   (at' d.woff, (d.nt * d.kt - 1) * d.wstride + (if f.wblk = 0 then 8192 else 8452), false)]
  ++ (if f.ablk = 0 then [] else [(ascAddr c f, d.mt * d.kt * mmtScale f, false)])
  ++ [(at' d.ooff, rowSpan (64 * d.mt) d.opitch (64 * f.width) + 64 * f.width * (d.nt - 1), true)]

/-- The byte ranges that an operation of core c names: address, length, written. -/
def opBytes (c : Nat) : ArrOp → List (Word × Nat × Bool)
  | .wld a b => (a, 8192, false) :: (if b = 0 then [] else [(b, 260, false)])
  | .mma a b p f =>
    (a, rowSpan (ctlRows b) p.toNat 128, false)
      :: (if f.ablk = 0 then [] else [(ascAddr c f, f.scaleBytes (ctlRows b), false)])
  | .accout a b p f => [(a, rowSpan (ctlRows b) p.toNat (64 * f.width), true)]
  | .accin a b p => [(a, rowSpan (ctlRows b) p.toNat 256, false)]
  | .mmt ds f => mmtRanges c ds f
  | .pld a => [(a, 8192, false)]
  | .pcost a _ => [(a, 16384, false)]
  | .ppart _ a => [(a, 512, true)]
  | .pout a b p => [(a, rowSpan (ctlRows b) p.toNat (if b.getLsbD 12 then 128 else 256), true)]
  | .pdist a b => [(a, 16384, false), (b, 4, true)]
  | .wswp | .accz _ | .pregIn .. | .pregOut .. | .balance .. | .pstat => []

/-- The units of the array that an operation names: tiles or planes join in one range (R256), each plan register is a range of
its own (DEDUCED, log 43). -/
def opUnits : ArrOp → List (Range × Bool)
  | .wld .. => [(.plane 2, true)]
  | .wswp => [(.plane 3, true)]
  | .accz m => [(.acc m, true)]
  | .mma _ b _ _ => [(.plane 1, false), (.acc (1#4 <<< ctlTile b), true)]
  | .accout _ b _ _ => [(.acc (1#4 <<< ctlTile b), false)]
  | .accin _ b _ => [(.acc (1#4 <<< ctlTile b), true)]
  | .mmt ds _ => [(.acc (BitVec.ofNat 4 (2 ^ (mmtDesc ds).mt - 1)), true), (.plane 3, true)]
  | .pld _ | .pcost .. => [(.plane 3, true)]
  | .pregIn scl col _ => [(.preg (pregBit scl col), true)]
  | .pregOut scl col => [(.preg (pregBit scl col), false)]
  | .balance .. =>
    [(.plane 3, false), (.preg 1, false), (.preg 2, false), (.preg 4, true), (.preg 8, true), (.planst, true)]
  | .ppart row _ => if row then [(.plane 2, false), (.preg 8, false)] else [(.plane 1, false), (.preg 4, false)]
  | .pout .. | .pdist .. => [(.plane 1, false), (.preg 4, false), (.preg 8, false)]
  | .pstat => [(.planst, false)]

/-- The footprint of an operation, one entry for each call slip. -/
def opRanges (c : Nat) (o : ArrOp) : List (Range × Bool) :=
  ((opBytes c o).map fun r => (scrRange r.1 r.2.1, r.2.2)) ++ opUnits o

/-- Every byte range is the team's own and aligned, and the other conditions of R256 and R264 hold. -/
def footprintOk (k : Core) (c : Nat) (g : Group) (o : ArrOp) : Bool :=
  (match o with
  | .mma _ b p _ | .accout _ b p _ | .accin _ b p | .pout _ b p => rowsOk b p
  | .mmt ds f =>
    let d := mmtDesc ds
    let w := mmtRanges c ds f
    decide (d.nt ≠ 0) && decide (d.kt ≠ 0) && decide ((if f.wblk = 0 then 8192 else 8464) ≤ d.wstride)
      && d.wstride % 16 == 0 && d.apitch % 16 == 0 && d.opitch % 16 == 0
      && w.all fun x => x.2.2 || w.all fun y =>
        !y.2.2 || decide (x.1.toNat + x.2.1 ≤ y.1.toNat) || decide (y.1.toNat + y.2.1 ≤ x.1.toNat)
  | _ => true) && (opBytes c o).all fun r => ownRange k c g r.1 r.2.1

/-- Two ranges share a unit (R172). -/
def rangesMeet : Range → Range → Bool
  | .mem a b, .mem c d => sharesUnit 128 a b c d
  | .scr a b, .scr c d => sharesUnit 64 a b c d
  | .acc a, .acc b => a &&& b != 0
  | .plane a, .plane b => a &&& b != 0
  | .preg a, .preg b => a &&& b != 0
  | .planst, .planst => true
  | _, _ => false

/-- Two footprints conflict. -/
def rangesClash (xs ys : List (Range × Bool)) : Bool :=
  xs.any fun x => ys.any fun y => (x.2 || y.2) && rangesMeet x.1 y.1

/-- The unit of an operation (R257, R279). -/
def opUnit : ArrOp → AUnit
  | .wld .. | .pld _ | .pcost .. => .loader
  | .mma .. | .wswp | .balance .. | .ppart .. => .stream
  | .mmt .. => .sequencer
  | .accout .. | .accin .. | .accz _ | .pregIn .. | .pregOut .. | .pout .. | .pdist .. => .port
  | .pstat => .status

/-! ### Entering an operation (R172, R173, R245) -/

/-- An MMT whose last step has not entered its unit. -/
def mmtUnfed (m : MArray) : Bool :=
  (m.jobs.any fun j => j.unit == .sequencer) ||
    (match m.mmt with
    | some r => decide (r.fed < mmtSteps (mmtDesc r.ds))
    | none => false)

/-- Operations queued or running in a unit. -/
def unitLoad (m : MArray) (u : AUnit) : Nat := (m.jobs.filter fun j => j.unit == u).length

/-- Adds the call slips of an operation. -/
def addSlips (k : Core) (slot op : Nat) (rs : List (Range × Bool)) : Core :=
  { k with slips := k.slips ++ rs.map fun r => { slot := slot, op := op, range := r.1, wr := r.2 } }

/-- The operation goes into its unit's queue. -/
def enterOp (k : Core) (c slot : Nat) (m : MArray) (o : ArrOp) : Core :=
  let j : ArrJob := { op := k.nextOp, slot := slot, unit := opUnit o, what := o, running := false, since := 0, granted := 0, rows := 0,
                      mmt := false }
  let k := addSlips k slot k.nextOp (opRanges c o)
  { k with nextOp := k.nextOp + 1, array := { m with jobs := m.jobs ++ [j] } }

/-! ### Data in the scratchpad -/

/-- Reads n bytes of a scratchpad in pieces of at most 16 aligned bytes, each one event of core c (R164, R245). -/
def scrRead (s : State) (c part loc : Nat) : Nat → Nat → List Byte × State
  | 0, _ => ([], s)
  | fuel + 1, n =>
    if n = 0 then ([], s)
    else
      let k := Nat.min n (16 - loc % 16)
      let (x, s) := loadAt s c part loc k
      let (r, s) := scrRead s c part (loc + k) fuel (n - k)
      (leBytes k x ++ r, s)

/-- Reads n bytes at an aperture address. -/
def apRead (s : State) (c part : Nat) (a : Word) (n : Nat) : List Byte × State := scrRead s c part (apLoc c a) n n

/-- Writes bytes in pieces in the same way. -/
def scrWrite (s : State) (c loc : Nat) : Nat → List Byte → State
  | 0, _ => s
  | fuel + 1, bs =>
    if bs.isEmpty then s
    else
      let k := Nat.min bs.length (16 - loc % 16)
      scrWrite (storeAt s c loc k (leNat (bs.take k))) c (loc + k) fuel (bs.drop k)

/-- Writes bytes at an aperture address. -/
def apWrite (s : State) (c : Nat) (a : Word) (bs : List Byte) : State := scrWrite s c (apLoc c a) bs.length bs

/-- Little-endian numbers of w bytes each. -/
def numsOf (w : Nat) : Nat → List Byte → List Nat
  | 0, _ => []
  | n + 1, bs => leNat (bs.take w) :: numsOf w n (bs.drop w)

/-- A table of the non-zero numbers of a list, from key `off` on. -/
def tabNums (w : Nat) (off : Nat) (l : List Nat) : Tab (BitVec w) :=
  ((List.range l.length).zip l).filterMap fun p => if p.2 = 0 then none else some (off + p.1, BitVec.ofNat w p.2)

/-! ### What an operation does (R258–R261, R280–R291) -/

/-- Writes core c's array. -/
def setArray (s : State) (c : Nat) (m : MArray) : State := setCore s c { coreOf s c with array := m }

/-- Raises flags into a group's pending array flags (R262). -/
def raiseEng (s : State) (c slot : Nat) (f : Flags) : State :=
  match groupAt s c slot with
  | some g => setGroup s c slot { g with engFlags := g.engFlags ||| arrFlags f }
  | none => s

/-- The codes of a plan register. -/
def pregList (t : Tab (BitVec 32)) : List Nat := (List.range 64).map fun i => (tabGet 0 t i).toNat

/-- Column j of a plane. -/
def planeCol (p : Tab (BitVec 16)) (j : Nat) : List Nat := (List.range 64).map fun k => (tabGet 0 p (64 * k + j)).toNat

/-- The plan register that scl and col name. -/
def pregOf (m : MArray) (scl col : Bool) : Tab (BitVec 32) :=
  if scl then (if col then m.scol else m.srow) else if col then m.mcol else m.mrow

/-- Writes it. -/
def setPreg (m : MArray) (scl col : Bool) (t : Tab (BitVec 32)) : MArray :=
  if scl then (if col then { m with scol := t } else { m with srow := t })
  else if col then { m with mcol := t } else { m with mrow := t }

/-- Writes entry (i, j) of a 64 × 64 list to both planes and clears both scale stores (R273, R280). -/
def setKernel (m : MArray) (l : List Nat) : MArray :=
  { m with
    front := tabNums 16 0 l
    back := tabNums 16 0 ((List.range 4096).map fun x => l.getD (64 * (x % 64) + x / 64) 0)
    fscale := [], bscale := [] }

/-- WLD (R258). -/
def runWld (s : State) (c part : Nat) (a b : Word) : State :=
  let (img, s) := apRead s c part a 8192
  let (sc, s) := if b = 0 then ([], s) else apRead s c part b 260
  let m := (coreOf s c).array
  setArray s c { m with back := tabNums 16 0 (numsOf 2 4096 img), bscale := tabNums 8 0 (sc.map (·.toNat)) }

/-- WSWP (R258). -/
def runWswp (m : MArray) : MArray := { m with front := m.back, back := m.front, fscale := m.bscale, bscale := m.fscale }

/-- ACCZ (R261). -/
def runAccz (m : MArray) (mask : BitVec 4) : MArray :=
  { m with acc := m.acc.filter fun x => !mask.getLsbD (x.1 / 4096) }

/-- Writes numbers to an accumulator row. -/
def accRow (m : MArray) (tile row : Nat) (l : List Nat) : MArray :=
  let put := fun (t : Tab (BitVec 32)) (x : Nat × Nat) => tabSet 0 t (4096 * tile + 64 * row + x.1) (BitVec.ofNat 32 x.2)
  { m with acc := ((List.range 64).zip l).foldl put m.acc }

/-- Row r of an MMA: its accumulator row is read, summed and written (R249, R250, R259). -/
def runMmaRow (s : State) (c part slot : Nat) (a b p : Word) (f : FmtRec) (r : Nat) : State :=
  let (row, s) := apRead s c part (a + BitVec.ofNat 64 (r * p.toNat)) 128
  let (asc, s) := if f.ablk = 0 then ([], s) else apRead s c part (ascAddr c f) (f.scaleBytes (ctlRows b))
  let m := (coreOf s c).array
  let key := 4096 * ctlTile b + 64 * (ctlRow0 b + r)
  let out := passRow f row (fun k => (tabGet 0 m.front k).toNat) (fun k => (tabGet 0 m.fscale k).toNat)
    (fun k => (asc.getD k 0).toNat) r (fun n => if ctlZ b then 0 else (tabGet 0 m.acc (key + n)).toNat)
  let s := setArray s c (accRow m (ctlTile b) (ctlRow0 b + r) (out.map (·.1)))
  raiseEng s c slot (out.foldl (fun g x => g ||| x.2) 0)

/-- ACCOUT: rows in ascending order; DPH advances (R251, R260; DEDUCED, log 13). -/
def runAccout (s : State) (c slot : Nat) (a b p : Word) (f : FmtRec) : State :=
  let m := (coreOf s c).array
  let rows := (List.range (ctlRows b)).map fun r => (r, (List.range 64).map fun j =>
    drainEl f m.dph.toNat j (tabGet 0 m.acc (4096 * ctlTile b + 64 * (ctlRow0 b + r) + j)).toNat)
  let s := rows.foldl (fun s x => apWrite s c (a + BitVec.ofNat 64 (x.1 * p.toNat)) (x.2.flatMap fun e => leBytes f.width e.1)) s
  let s := raiseEng s c slot (rows.foldl (fun g x => x.2.foldl (fun g e => g ||| e.2) g) 0)
  let m := (coreOf s c).array
  setArray s c { m with dph := m.dph + 1 }

/-- ACCIN (R260). -/
def runAccin (s : State) (c part : Nat) (a b p : Word) : State :=
  (List.range (ctlRows b)).foldl
    (fun s r =>
      let (bs, s) := apRead s c part (a + BitVec.ofNat 64 (r * p.toNat)) 256
      setArray s c (accRow (coreOf s c).array (ctlTile b) (ctlRow0 b + r) ((numsOf 4 64 bs).map (flushC .f32)))) s

/-- PLD (R280). -/
def runPld (s : State) (c part : Nat) (a : Word) : State :=
  let (bs, s) := apRead s c part a 8192
  setArray s c (setKernel (coreOf s c).array (numsOf 2 4096 bs))

/-- PCOST (R281). -/
def runPcost (s : State) (c part slot : Nat) (a b : Word) : State :=
  let (bs, s) := apRead s c part a 16384
  let es := match kappaOf (b.toNat % 2 ^ 32) with
    | none => List.replicate 4096 (0x7FC0, fIV)
    | some k => (numsOf 4 4096 bs).map (costEntry k)
  let s := setArray s c (setKernel (coreOf s c).array (es.map (·.1)))
  raiseEng s c slot (es.foldl (fun g x => g ||| x.2) 0)

/-- PMARG and PSCL into a plan register (R282). -/
def runPregIn (m : MArray) (scl col : Bool) (vals : Tab Word) : MArray :=
  setPreg m scl col (tabNums 32 0 ((List.range 64).map fun e =>
    match tabFind (e / 2) vals with
    | some x => subEl 32 x (e % 2)
    | none => ninf32))

/-- The run's record of a result that its unit has produced: a read may return it from now on (R31). -/
def fillProd (op : Nat) (f : Nat → Word) (p : Producer) : Producer :=
  if p.held == some op then { p with new := p.old.map fun x => (x.1, dstVal p.dst (f x.1)), held := none } else p

/-- Gives an outstanding result its values (R282, R362). -/
def fillResult (g : Group) (op : Nat) (f : Nat → Word) : Group :=
  { g with
    results := g.results.map fun r =>
      if r.src == .held op then { r with src := .var, vals := r.vals.map fun p => (p.1, f p.1) } else r
    splits := g.splits.map fun x =>
      (x.1, { x.2 with run := { x.2.run with prods := x.2.run.prods.map (fillProd op f) } }) }

/-- An operation of the group in a slot gives its outstanding result. -/
def giveResult (s : State) (c slot op : Nat) (f : Nat → Word) : State :=
  match groupAt s c slot with
  | none => s
  | some g => setGroup s c slot (fillResult g op f)

/-- PMARG and PSCL out of a plan register (R282). -/
def runPregOut (s : State) (c slot op : Nat) (scl col : Bool) : State :=
  let l := pregOf (coreOf s c).array scl col
  giveResult s c slot op fun t => (tabGet 0 l (2 * t + 1)) ++ (tabGet 0 l (2 * t))

/-- PSTAT: PLANST, once every earlier BALANCE has drained (R279, R288). -/
def runPstat (s : State) (c slot op : Nat) : State := giveResult s c slot op fun _ => (coreOf s c).array.planst

/-- A finished operation posts its record, which waits in the engine while the queue is full (R184)
(DEDUCED, log 44). -/
def queueRecord (s : State) (c slot : Nat) (kind status : Nat) (tag : Word) : State :=
  let w : Word := BitVec.ofNat 64 (2 ^ 63 + kind * 2 ^ 60 + status * 2 ^ 48) ||| (tag &&& 0xFFFFFFFF)
  let k := coreOf s c
  postRecord (setCore s c { k with waiting := k.waiting ++ [{ slot := slot, word := w }] }) c

/-- A BALANCE that found an infeasible line under INFT (R287). -/
def balTraps (a : Word) (planst : Word) : Bool := a.getLsbD 17 && planst.getLsbD 32

/-- BALANCE (R283–R287); its record follows when its slips have drained. -/
def runBalance (s : State) (c slot : Nat) (a b : Word) : State :=
  let m := (coreOf s c).array
  let o := balance
    { front := (List.range 64).map (planeCol m.front), back := (List.range 64).map (planeCol m.back),
      mrow := pregList m.mrow, mcol := pregList m.mcol, limit := (a.extractLsb' 0 12).toNat, tol := b.toNat % 2 ^ 32 }
    (pregList m.srow) (pregList m.scol)
  let s := setArray s c { m with srow := tabNums 32 0 o.srow, scol := tabNums 32 0 o.scol, planst := o.planst }
  let s := raiseEng s c slot o.flags
  match groupAt s c slot with
  | some g => if balTraps a o.planst then setGroup s c slot { g with infeas := true } else s
  | none => s

/-- PPART (R289). -/
def runPpart (s : State) (c slot : Nat) (row : Bool) (a : Word) : State :=
  let m := (coreOf s c).array
  let p := if row then m.back else m.front
  let l := pregList (if row then m.scol else m.srow)
  let bad := (List.range 64).any (fun j => (planeCol p j).any (planBad .bf16)) || l.any (planBad .f32)
  let out := (List.range 64).map fun j => ppartLine bad (planeCol p j) l
  let s := apWrite s c a (out.flatMap fun x => leBytes 4 x.1 ++ leBytes 4 x.2.1)
  raiseEng s c slot (out.foldl (fun g x => g ||| x.2.2) 0)

/-- Element (i, j) of the plan. -/
def planAt (m : MArray) (i j : Nat) : Nat × Flags :=
  planEl (tabGet 0 m.front (64 * i + j)).toNat (tabGet 0 m.srow i).toNat (tabGet 0 m.scol j).toNat

/-- An element of the plan as BF16, with OF where the rounding overflows. -/
def planBf16 (x : Nat × Flags) : Nat × Flags :=
  let (r, f) := cvtFF .bf16 .f32 .rne false 0 x.1
  (flushC .bf16 r, x.2 ||| (f &&& fOF))

/-- POUT (R290). -/
def runPout (s : State) (c slot : Nat) (a b p : Word) : State :=
  let m := (coreOf s c).array
  let half := b.getLsbD 12
  let rows := (List.range (ctlRows b)).map fun r => (r, (List.range 64).map fun j =>
    let x := planAt m (ctlRow0 b + r) j
    if half then planBf16 x else x)
  let s := rows.foldl (fun s x =>
    apWrite s c (a + BitVec.ofNat 64 (x.1 * p.toNat)) (x.2.flatMap fun e => leBytes (if half then 2 else 4) e.1)) s
  raiseEng s c slot (rows.foldl (fun g x => x.2.foldl (fun g e => g ||| e.2) g) 0)

/-- PDIST (R291). -/
def runPdist (s : State) (c part slot : Nat) (a b : Word) : State :=
  let m := (coreOf s c).array
  let (bs, s) := apRead s c part a 16384
  let ps := (List.range 4096).map fun x => planAt m (x / 64) (x % 64)
  let (d, f) := pdistOf ((ps.map (·.1)).zip (numsOf 4 4096 bs))
  raiseEng (apWrite s c b (leBytes 4 d)) c slot (ps.foldl (fun g x => g ||| x.2) f)

/-- The whole effect of an operation; an MMA's rows are written by events of their own, and an MMT works by its steps. -/
def runOp (s : State) (c part : Nat) (j : ArrJob) : State :=
  match j.what with
  | .wld a b => runWld s c part a b
  | .wswp => setArray s c (runWswp (coreOf s c).array)
  | .accz m => setArray s c (runAccz (coreOf s c).array m)
  | .mma .. | .mmt .. => s
  | .accout a b p f => runAccout s c j.slot a b p f
  | .accin a b p => runAccin s c part a b p
  | .pld a => runPld s c part a
  | .pcost a b => runPcost s c part j.slot a b
  | .pregIn scl col vals => setArray s c (runPregIn (coreOf s c).array scl col vals)
  | .pregOut scl col => runPregOut s c j.slot j.op scl col
  | .balance a b => runBalance s c j.slot a b
  | .ppart row a => runPpart s c j.slot row a
  | .pout a b p => runPout s c j.slot a b p
  | .pdist a b => runPdist s c part j.slot a b
  | .pstat => runPstat s c j.slot j.op

end Sys2Proof.Machine
end

