-- ==== Sys2Proof/Machine/ArrayEvents.lean ====
section
/-! DEFINITION. Events of the matrix array (R245, R257, R264, R266): an operation starts, rows are admitted and written, an
operation drains. An event that is not enabled changes nothing (log 20). -/

namespace Sys2Proof.Machine

/-- Both operations are MMAs: their rows enter one after the other. -/
def bothMma (a b : ArrOp) : Bool :=
  match a, b with
  | .mma .., .mma .. => true
  | _, _ => false

/-- An earlier operation of the unit lets the next one start: an MMA whose last row has entered. -/
def passes (j : ArrJob) : Bool := j.running && decide (0 < opRows j.what) && decide (opRows j.what ≤ j.granted)

/-- A call slip of a copy operation that the job's group issued before it conflicts with the job (R172). -/
def copyClash (k : Core) (c : Nat) (j : ArrJob) : Bool :=
  k.slips.any fun y =>
    y.slot == j.slot && decide (y.op < j.op) && !(k.array.jobs.any fun x => x.op == y.op)
      && !(match k.array.mmt with
        | some r => r.op == y.op
        | none => false)
      && rangesClash (opRanges c j.what) [(y.range, y.wr)]

/-- The job may start behind the jobs before it in the list (R245). -/
def mayStart (k : Core) (c : Nat) (before : List ArrJob) (j : ArrJob) : Bool :=
  before.all (fun x =>
    (x.unit != j.unit || passes x)
      && (x.unit == .sequencer || j.unit == .sequencer || bothMma x.what j.what
        || !rangesClash (opRanges c x.what) (opRanges c j.what)))
    && !copyClash k c j && (j.unit != .sequencer || k.array.mmt.isNone)

/-- The list with the first waiting job of a unit started in a cycle; `none` if there is none or it may not start. -/
def startIn (k : Core) (c : Nat) (u : AUnit) (now : Word) (before : List ArrJob) : List ArrJob → Option (ArrJob × List ArrJob)
  | [] => none
  | j :: r =>
    if j.unit == u && !j.running then
      if mayStart k c before j then some (j, before ++ { j with running := true, since := now } :: r) else none
    else startIn k c u now (before ++ [j]) r

/-- Q at a step that begins in cycle `now`: real rows that are ready to enter by then (R266, R271). -/
def readyRows (now : Nat) (m : MArray) : Nat :=
  (m.jobs.map fun j => if j.running && decide (j.since.toNat ≤ now) then opRows j.what - j.granted else 0).sum

/-- The array takes part in the governor's steps: it has a rate, or rows that have become ready. -/
def govActive (m : MArray) : Bool := m.rate != 0 || m.down || m.jobs.any rowsWait

/-- Some array of a quad takes part. -/
def quadActive (s : State) (quad : Nat) : Bool := (List.range 4).any fun i => govActive (coreOf s (4 * quad + i)).array

/-- Where no array of a quad takes part yet, the governor's next step begins at the next multiple of 4 (R266, R271). -/
def govWake (s : State) (quad : Nat) : State :=
  if quadActive s quad then s
  else setQuad s quad { quadOf s quad with govAt := (s.clock.toNat + 3) / 4 * 4 }

/-- Starts the first waiting operation of a unit, if it may start (R245): an MMA's rows are ready from now on; an MMT passes to
the sequencer. -/
def startUnit (s : State) (c : Nat) (u : AUnit) : State :=
  let k := coreOf s c
  match startIn k c u s.clock [] k.array.jobs with
  | none => s
  | some (j, jobs) =>
    let m := { k.array with jobs := jobs }
    match j.what with
    | .mmt ds f =>
      setArray s c { m with
        jobs := m.jobs.filter fun x => x.op != j.op
        mmt := some { op := j.op, slot := j.slot, ds := ds, f := f, fed := 0, done := 0, status := 0 }
        steps := 0 }
    | .mma .. => setArray (govWake s (c / 4)) c m
    | _ => setArray s c m

/-- ARRAY_OPERATION_START (R245). -/
def execArrayOperationStart (c : Nat) (u : AUnit) (s : State) : Out := .next (startUnit s c u)

/-- Words that wait for a place in a unit look again. -/
def wakeUnits (s : State) (c : Nat) : State := wakeCore s c fun w => w == .engine

/-- MMT_STEP (R264): the sequencer feeds its next step into the step's unit. -/
def execMmtStep (c : Nat) (s : State) : Out :=
  let m := (coreOf s c).array
  match m.mmt with
  | none => .next s
  | some r =>
    let o := mmtStepOp c r.ds r.f r.fed
    if mmtSteps (mmtDesc r.ds) ≤ r.fed ∨ 8 ≤ unitLoad m (opUnit o) then .next s
    else
      let j : ArrJob := { op := r.op, slot := r.slot, unit := opUnit o, what := o, running := false, since := 0, granted := 0, rows := 0,
                          mmt := true }
      .next (wakeUnits (setArray s c { m with jobs := m.jobs ++ [j], mmt := some { r with fed := r.fed + 1 } }) c)

/-! ### The slew governor (R266–R269) -/

/-- The rate moves. -/
def govMove (now : Nat) (m : MArray) : MArray :=
  if m.rate = 0 then m
  else if 0 < readyRows now m then { m with rate := Nat.min (m.rate + 1) 4 }
  else { m with rate := m.rate - 1 }

/-- The array waits for a grant. -/
def govWants (now : Nat) (m : MArray) : Bool := m.rate == 0 && decide (0 < readyRows now m)

/-- Among the cores of a quad that wait, the one that has waited longest, then the lowest (R267). -/
def govPick (s : State) (now : Nat) (cs : List Nat) : Option Nat :=
  cs.foldl
    (fun best c =>
      let m := (coreOf s c).array
      if !govWants now m then best
      else
        match best with
        | none => some c
        | some b => if (m.req.getD s.clock).toNat < ((coreOf s b).array.req.getD s.clock).toNat then some c else some b) none

/-- Admits n rows to the operations that are ready, in order. -/
def admitRows (now : Nat) : Nat → List ArrJob → List ArrJob
  | _, [] => []
  | n, j :: r =>
    if j.running && decide (j.since.toNat ≤ now) then
      let k := Nat.min n (opRows j.what - j.granted)
      { j with granted := j.granted + k } :: admitRows now (n - k) r
    else j :: admitRows now n r

/-- The rows of a step, and the counters (R266, R269). -/
def govAdmit (now : Nat) (m : MArray) : MArray :=
  let q := readyRows now m
  if m.rate = 0 then
    { m with down := false, wait := if 0 < q then m.wait + 4 else m.wait }
  else
    let real := Nat.min q m.rate
    { m with
      jobs := admitRows now real m.jobs
      down := decide (real < m.rate)
      short := m.short + BitVec.ofNat 64 (Nat.min q 4 - m.rate)
      fill := m.fill + BitVec.ofNat 64 (m.rate - real) }

/-- One step of a quad's governor, which begins in cycle `now` (R266, R267). -/
def govStep (s : State) (quad now : Nat) : State :=
  let cs := (List.range 4).map fun i => 4 * quad + i
  let s := cs.foldl (fun s c => setArray s c (govMove now (coreOf s c).array)) s
  let s := match govPick s now cs with
    | some c => setArray s c { (coreOf s c).array with rate := 1 }
    | none => s
  cs.foldl (fun s c => setArray s c (govAdmit now (coreOf s c).array)) s

/-- SLEW_GOVERNOR_STEP of a quad: the step of cycle t, once for each multiple of 4 (R266), taken when every word of cycle t has
issued, so that an MMA which issues in cycle t counts in it (R271). -/
def execSlewGovernorStep (quad : Nat) (s : State) : Out :=
  let at' := (quadOf s quad).govAt
  if !quadActive s quad || decide (s.clock.toNat ≤ at') then .next s
  else .next (setQuad (govStep s quad at') quad { quadOf s quad with govAt := at' + 4 })

/-! ### Rows and drains (R257, R264) -/

/-- The partition of the group in a slot. -/
def slotPart (s : State) (c slot : Nat) : Nat :=
  match groupAt s c slot with
  | some g => g.part
  | none => 0

/-- A scratchpad row that an operation reads holds data with an uncorrectable error. -/
def readsBad (s : State) (c : Nat) (o : ArrOp) : Bool :=
  (opBytes c o).any fun r => !r.2.2 && s.poison.any fun p =>
    decide (lineKey (apLoc c r.1) ≤ p.1) && decide (p.1 ≤ lineKey (apLoc c r.1 + (r.2.1 - 1)))

/-- An MMT ends early (R264): a step has read data with an uncorrectable error, and no step of it that is still in a unit goes
on, that step itself included (DESIGN CHOICE, log 34: the spec says only that the remaining steps do not run). -/
def abortMmt (m : MArray) : MArray :=
  { m with
    jobs := m.jobs.filter fun j => !j.mmt
    mmt := m.mmt.map fun r => { r with status := causeCode .memerr, fed := mmtSteps (mmtDesc r.ds) } }

/-- The list with the first job that a predicate selects replaced, or removed. -/
def editFirst (p : ArrJob → Bool) (f : ArrJob → Option ArrJob) : List ArrJob → List ArrJob
  | [] => []
  | j :: r => if p j then (match f j with
      | some x => x :: r
      | none => r) else j :: editFirst p f r

/-- A running MMA with an admitted row that is not written. -/
def rowDue (j : ArrJob) : Bool := j.running && decide (j.rows < j.granted)

/-- ACCUMULATOR_ROW_WRITE (R257). -/
def execAccumulatorRowWrite (c : Nat) (s : State) : Out :=
  match (coreOf s c).array.jobs.find? rowDue with
  | none => .next s
  | some j =>
    match j.what with
    | .mma a b p f =>
      if j.mmt && readsBad s c j.what then .next (setArray s c (abortMmt (coreOf s c).array))
      else
        let s := runMmaRow s c (slotPart s c j.slot) j.slot a b p f j.rows
        let m := (coreOf s c).array
        .next (setArray s c { m with jobs := editFirst rowDue (fun x => some { x with rows := x.rows + 1 }) m.jobs })
    | _ => .next s

/-- An operation has performed its last access: its call slips drain (R173), its record follows (R184, R287). -/
def drainOp (s : State) (c : Nat) (j : ArrJob) : State :=
  let s := removeSlips s c j.slot j.op
  let s := match j.what with
    | .balance a _ =>
      if a.getLsbD 16 then
        queueRecord s c j.slot 2 (if balTraps a (coreOf s c).array.planst then 0x22 else 0) (a >>> 32)
      else s
    | _ => s
  slipsDrained s c

/-- The running operation of a unit that has nothing left but to drain. -/
def drainable (u : AUnit) (j : ArrJob) : Bool := j.unit == u && j.running && j.rows == opRows j.what

/-- The end of an MMT: its slips drain and its record follows (R264). -/
def endMmt (s : State) (c : Nat) : State :=
  let k := coreOf s c
  match k.array.mmt with
  | none => s
  | some r =>
    if r.fed < mmtSteps (mmtDesc r.ds) || k.array.jobs.any (·.mmt) then s
    else
      let s := removeSlips (setCore s c { k with array := { k.array with mmt := none } }) c r.slot r.op
      slipsDrained (queueRecord s c r.slot 1 r.status.toNat (mmtTag r.ds)) c

/-- ARRAY_OPERATION_DRAIN of a unit (R245, R257): the operation's effect, then its slips. -/
def execArrayOperationDrain (c : Nat) (u : AUnit) (s : State) : Out :=
  match u with
  | .sequencer => .next (endMmt s c)
  | u =>
    match (coreOf s c).array.jobs.find? fun j => j.unit == u && j.running with
    | none => .next s
    | some j =>
      if !drainable u j then .next s
      else if j.mmt && readsBad s c j.what then .next (setArray s c (abortMmt (coreOf s c).array))
      else
        let s := runOp s c (slotPart s c j.slot) j
        let m := (coreOf s c).array
        let m := { m with jobs := editFirst (drainable u) (fun _ => none) m.jobs }
        if j.mmt then
          let m := { m with mmt := m.mmt.map fun r => { r with done := r.done + 1 }, steps := m.steps + 1 }
          .next (wakeUnits (setArray s c m) c)
        else .next (drainOp (setArray s c m) c j)

end Sys2Proof.Machine
end

