-- ==== Sys2Proof/Machine/Control.lean ====
section
/-! DEFINITION. Control words, majors 0x38 to 0x3B (R210–R242): branches, splits, calls, returns, exits and forkable
calls. -/

namespace Sys2Proof.Machine

/-! ### Targets -/

/-- PC + sext(disp) of a branch (R42). -/
def branchTo (pc : Word) (disp : BitVec 20) : Word := pc + disp.signExtend 64

/-- PC + sext(disp16) of a CF word (R211). -/
def callTo (pc : Word) (disp : BitVec 16) : Word := pc + disp.signExtend 64

/-- p XOR neg in a thread (R212). -/
def takes (s : State) (g : Group) (sp : Split) (neg : Bool) (p : Fin 8) (t : Nat) : Bool :=
  (readOp g sp s.free (.int 64) t (.p p) != 0) != neg

/-- BRA: uniform, by the lowest active thread (R212). -/
def execBra (_h : Hd) (neg : Bool) (p : Fin 8) (disp : BitVec 20) (s : State) : Out :=
  issue s fun pl g sp =>
    if hazard g sp pl.split [.p p] [] then .next (trap s pl .hazard)
    else
      let pc := if takes s g sp neg p sp.mask.lowest then branchTo sp.pc disp else sp.pc + 1
      .next (finishAt { s with free := s.free + 1 } pl g sp 1 pc)

/-- A split that has just begun to wait for a run start at `pc`. -/
def freshSplit (parent : Split) (pc : Word) (m : Mask) : Split :=
  { parent.done with pc := pc, word := 0, mask := m, run := Run.start, running := false }

/-- Divides a split: the branching threads form a new split, or a deferral entry where no number is free (R217). -/
def divide (g : Group) (n : Nat) (sp : Split) (target : Word) (m : Mask) : Group :=
  match tabFree 4 g.splits with
  | some k => setSplit g k (freshSplit sp target m)
  | none => { g with defers := { pc := target, mask := m, owner := n, j := false } :: g.defers }

/-- BRP: per thread (R212). -/
def execBrp (_h : Hd) (neg : Bool) (p : Fin 8) (disp : BitVec 20) (s : State) : Out :=
  issue s fun pl g sp =>
    if hazard g sp pl.split [.p p] [] then .next (trap s pl .hazard)
    else
      let m := sp.mask.threads.foldl (fun (m : Mask) t => if takes s g sp neg p t then m ||| Mask.one t else m) 0
      let s := { s with free := s.free + 1 }
      let occ := perThreadOcc sp.mask
      if m = 0 then .next (finishAt s pl g sp occ (sp.pc + 1))
      else if m = sp.mask then .next (finishAt s pl g sp occ (branchTo sp.pc disp))
      else
        let g := divide g pl.split sp (branchTo sp.pc disp) m
        .next (finishAt s pl g { sp with mask := sp.mask &&& ~~~m } occ (sp.pc + 1))

/-- JMPR (R213). -/
def execJmpr (_h : Hd) (a : Opnd) (s : State) : Out :=
  issue s fun pl g sp =>
    if barOpspec g [a] then .next (trap s pl .opspec)
    else if hazard g sp pl.split [a] [] then .next (trap s pl .hazard)
    else
      .next (finishAt { s with free := s.free + 1 } pl g sp 1 (readOp g sp s.free (.int 64) 32 a))

/-! ### Calls (R223) -/

/-- Entries of a call stack. -/
def stackSize : Nat := 16

/-- Pushes an entry whose return PC is the next packet. -/
def pushCall (sp : Split) (k : CallKind) : Split := { sp with stack := { ret := sp.pc + 1, kind := k } :: sp.stack }

/-- CALL. -/
def execCall (_h : Hd) (disp : BitVec 16) (s : State) : Out :=
  issue s fun pl g sp =>
    if stackSize ≤ sp.stack.length then .next (trap s pl .illop)
    else .next (finishAt s pl g (pushCall sp .plain) 1 (callTo sp.pc disp))

/-- CALLR (R213). -/
def execCallr (_h : Hd) (a : Opnd) (s : State) : Out :=
  issue s fun pl g sp =>
    if barOpspec g [a] then .next (trap s pl .opspec)
    else if hazard g sp pl.split [a] [] then .next (trap s pl .hazard)
    else if stackSize ≤ sp.stack.length then .next (trap s pl .illop)
    else
      .next (finishAt { s with free := s.free + 1 } pl g (pushCall sp .plain) 1 (readOp g sp s.free (.int 64) 32 a))

/-! ### The return predictor (R238–R242) -/

/-- The key of a site's entry. -/
def predKey (site : Word) : Nat := site.toNat % 32

/-- An entry that has never been trained (R238). -/
def PredEntry.reset : PredEntry := { tag := none, base := 0, stride := 0, conf := 0 }

/-- The entry of a site, if it hits. -/
def predFind (k : Core) (site : Word) : Option PredEntry :=
  let e := tabGet PredEntry.reset k.pred (predKey site)
  if e.tag == some site then some e else none

/-- The prediction for a thread (R240). -/
def predVal (base stride : Word) (t : Nat) : Word := base + BitVec.ofNat 64 t * stride

/-- The stride of two values, if the thread distance divides their difference (R241). -/
def strideOf (t0 t1 : Nat) (a0 a1 : Word) : Option Word :=
  let d := (a1 - a0).toInt
  let n : Int := (t1 : Int) - t0
  if d % n = 0 then some (BitVec.ofInt 64 (d / n)) else none

/-- Training (R241): the actual v0 by active thread, in ascending order; `guess` is the prediction of a forked entry, as
base and stride, computed at its FCALL (R240). -/
def trained (e : PredEntry) (site : Word) (guess : Option (Word × Word)) (vals : List (Nat × Word)) : PredEntry :=
  let hit := e.tag == some site
  let (base, stride) := guess.getD (e.base, e.stride)
  let m := hit && vals.all fun p => p.2 == predVal base stride p.1
  let e := if hit then e else { tag := some site, base := e.base, stride := 0, conf := 0 }
  match vals with
  | [] => e
  | (t0, a0) :: rest =>
    let (stride, m) := match rest with
      | [] => (e.stride, m)
      | (t1, a1) :: _ =>
        match strideOf t0 t1 a0 a1 with
        | some x => (x, m)
        | none => (0, false)
    { e with
      stride := stride
      base := a0 - BitVec.ofNat 64 t0 * stride
      conf := if m then Nat.min (e.conf + 1) 3 else e.conf - 1 }

/-- Trains the entry of a site on a core. -/
def trainAt (s : State) (c : Nat) (site : Word) (guess : Option (Word × Word)) (vals : List (Nat × Word)) : State :=
  let k := coreOf s c
  let e := trained (tabGet PredEntry.reset k.pred (predKey site)) site guess vals
  setCore s c { k with pred := tabPut (predKey site) e k.pred }

/-- The actual v0 of a split's active threads. -/
def actualV0 (s : State) (g : Group) (sp : Split) : List (Nat × Word) :=
  sp.mask.threads.map fun t => (t, readOp g sp s.free (.int 64) t (.v 0))

/-- The shape of FTRAIN (R242). -/
def ftrainWord (s : State) (h : Hd) (disp : BitVec 16) (srcs : List Opnd)
    (f : PredEntry → Word → (Opnd → Word) → PredEntry) : Out :=
  issue s fun pl g sp =>
    if hazard g sp pl.split srcs [] then .next (trap s pl .hazard)
    else
      let site := callTo sp.pc disp
      let k := coreOf s pl.core
      let e := f (tabGet PredEntry.reset k.pred (predKey site)) site (readOp g sp s.free (.int 64) 32)
      let s := { setCore s pl.core { k with pred := tabPut (predKey site) e k.pred } with free := s.free + 1 }
      .next (finish s pl g sp h 1)

/-- g(2k), and g(2k + 1) with `odd`. -/
def trainReg (k : BitVec 4) (odd : Bool) : Opnd := .g (Fin.ofNat 32 (2 * k.toNat + (if odd then 1 else 0)))

/-- The effect of .seed and .force. -/
def seedEntry (k : BitVec 4) (conf : Nat) (_ : PredEntry) (site : Word) (rd : Opnd → Word) : PredEntry :=
  { tag := some site, base := rd (trainReg k false), stride := rd (trainReg k true), conf := conf }

/-- FTRAIN.seed (R242). -/
def execFtrainSeed (h : Hd) (k : BitVec 4) (disp : BitVec 16) (s : State) : Out :=
  ftrainWord s h disp [trainReg k false, trainReg k true] (seedEntry k 2)
/-- FTRAIN.force (R242). -/
def execFtrainForce (h : Hd) (k : BitVec 4) (disp : BitVec 16) (s : State) : Out :=
  ftrainWord s h disp [trainReg k false, trainReg k true] (seedEntry k 3)
/-- FTRAIN.clear (R242). -/
def execFtrainClear (h : Hd) (disp : BitVec 16) (s : State) : Out :=
  ftrainWord s h disp [] fun e site _ => if e.tag == some site then { e with tag := none, conf := 0 } else e

/-! ### Forkable calls (R228, R229) -/

/-- Forked entries of a stack. -/
def forkedCount (st : List CallEntry) : Nat :=
  (st.filter fun e =>
    match e.kind with
    | .forked .. => true
    | _ => false).length

/-- The first lane pipe after the caller's with room for a group (R228, condition 6). -/
def forkPipe (k : Core) (p : Nat) : Option Nat :=
  ((List.range (Config.pipes - 1)).map fun i => (p + 1 + i) % Config.pipes).find? fun q => pipeGroups k q < 4

/-- Where a fork goes: its lane pipe, group slot and fork slot. -/
structure ForkPlace where
  pipe : Nat
  slot : Nat
  fork : Nat
deriving DecidableEq, Repr

/-- Conditions 2 to 6 of R228. -/
def forkPlace (k : Core) (g : Group) (sp : Split) : Option ForkPlace :=
  if 2 ≤ forkedCount sp.stack || g.splits.length ≠ 1 || !g.defers.isEmpty || g.isTender.isSome
      || 256 < k.vgran + g.valloc / 8 then none
  else
    match forkPipe k g.pipe, tabFree Config.slots k.slots, tabFree 8 k.forks with
    | some p, some n, some f => some { pipe := p, slot := n, fork := f }
    | _, _, _ => none

/-- The tender of a fork (R229). A result that is outstanding when FCALL issues is not given to it: its registers hold what
has been written (DESIGN CHOICE, log 55). -/
def makeTender (clock : Word) (nextOp caller : Nat) (g : Group) (sp : Split) (p : ForkPlace) (n : Nat) (base stride : Word) :
    Group :=
  let keep := g.vregs.filter fun x => decide (x.1 < 32 * n)
  let vregs := sp.mask.threads.foldl (fun v t => tabSet 0 v t (predVal base stride t)) keep
  let split := freshSplit sp (sp.pc + 1) sp.mask
  { g with
    pipe := p.pipe, vregs := vregs, fstat := g.fstat &&& 0x1F00#13
    isTender := some { fork := p.fork, caller := caller, nextOp := nextOp, n := n, mask := sp.mask, base := base, stride := stride,
                       written := [], tracked := [], hold := [] }
    splits := [(0, split)], defers := [], last := 0, stopped := false, results := [], pend := [], fmt := none
    engFlags := 0, infeas := false, copyErr := none, arrived := [], acks := [], watch := none
    stepDue := false, redl := none, wrote := [], stalls := [], gissue := 0, gwords := 0, hold := clock.toNat + 4 + n }

/-- Forks: the tender takes its slots and granules, and the callee goes on in the original group (R229). -/
def fork (s : State) (pl : Place) (g : Group) (sp : Split) (p : ForkPlace) (n : Nat) (base stride : Word) (target : Word) :
    State :=
  let k := coreOf s pl.core
  let td := makeTender s.clock k.nextOp pl.slot g sp p n base stride
  let g := { g with wrote := g.wrote.filter fun w => w.1 != p.fork }
  let s := setCore s pl.core
    { k with slots := tabPut p.slot td k.slots, forks := tabPut p.fork p.slot k.forks, vgran := k.vgran + g.valloc / 8 }
  finishAt s pl g (pushCall sp (.forked p.fork base stride)) 1 target

/-- FCALL and FCALL.force (R228). -/
def fcallWord (s : State) (nm1 : BitVec 6) (disp : BitVec 16) (force : Bool) : Out :=
  issue s fun pl g sp =>
    let n := nm1.toNat + 1
    if g.valloc < n then .next (trap s pl .opspec)
    else if stackSize ≤ sp.stack.length then .next (trap s pl .illop)
    else
      let target := callTo sp.pc disp
      let k := coreOf s pl.core
      let e := (predFind k sp.pc).getD PredEntry.reset
      match (if force || decide (2 ≤ e.conf) then forkPlace k g sp else none) with
      | some p => .next (fork s pl g sp p n e.base e.stride target)
      | none => .next (finishAt s pl g (pushCall sp .trained) 1 target)

/-- FCALL. -/
def execFcall (_h : Hd) (nm1 : BitVec 6) (disp : BitVec 16) (s : State) : Out := fcallWord s nm1 disp false
/-- FCALL.force. -/
def execFcallForce (_h : Hd) (nm1 : BitVec 6) (disp : BitVec 16) (s : State) : Out := fcallWord s nm1 disp true

/-- The entry that a forked RET names is the top entry of a split (R224). -/
def atFork (f : Nat) (sp : Split) : Bool :=
  match sp.stack with
  | { ret := _, kind := .forked f' _ _ } :: _ => f' == f
  | _ => false

/-- RET of a forked entry: it waits for the group's other splits, and then for validation, which is an event of its own
(R224); splits that wait elsewhere make it trap (R181). -/
def retForked (s : State) (pl : Place) (g : Group) (sp : Split) (f : Nat) : State :=
  if g.isTender.isSome then waitAt s pl g sp .tender
  else if (otherSplits g pl.split).all fun p => p.2.wait == some .ret && atFork f p.2 then
    waitAt s pl g (begun g pl.split sp) .ret
  else
    match meeting g pl.split .ret with
    | .notYet => waitAt s pl g (begun g pl.split sp) .ret
    | _ => trap s pl .illop

/-- RET (R224). -/
def execRet (_h : Hd) (s : State) : Out :=
  issue s fun pl g sp =>
    match sp.stack with
    | [] => .next (trap s pl .illop)
    | e :: rest =>
      match e.kind with
      | .plain => .next (finishAt s pl g { sp with stack := rest } 1 e.ret)
      | .trained =>
        let s := trainAt { s with free := s.free + 1 } pl.core (e.ret - 1) none (actualV0 s g sp)
        .next (finishAt s pl g { sp with stack := rest } 1 e.ret)
      | .forked f _ _ => .next (retForked s pl g sp f)

/-! ### JOIN and YIELD (R220, R226) -/

/-- The topmost deferral entry of a split. -/
def topDefer (g : Group) (n : Nat) : Option Deferral := g.defers.find? fun d => d.owner == n

/-- The list without the topmost entry of a split. -/
def popDefer (n : Nat) : List Deferral → List Deferral
  | [] => []
  | d :: r => if d.owner == n then r else d :: popDefer n r

/-- The list with the topmost entry of a split replaced. -/
def swapDefer (n : Nat) (e : Deferral) : List Deferral → List Deferral
  | [] => []
  | d :: r => if d.owner == n then e :: r else d :: swapDefer n e r

/-- The larger counter of each level (R198). -/
def maxLc (a b : Tab Word) : Tab Word :=
  (List.range 8).foldl (fun t n =>
    tabSet 0 t n (if (tabGet 0 a n).toNat < (tabGet 0 b n).toNat then tabGet 0 b n else tabGet 0 a n)) []

/-- The results of split n once it has ended: its o registers are gone, and the rest is still written (R28, R56). -/
def orphan (n : Nat) (rs : List Result) : List Result :=
  rs.map fun r =>
    match r.dst with
    | .o _ => if r.split = n then { r with dead := true } else r
    | _ => r

/-- Merges split `hi` into split `lo` (R219). -/
def mergeSplits (g : Group) (lo hi : Nat) : Group :=
  match splitAt g lo, splitAt g hi with
  | some a, some b =>
    let g := setSplit g lo { a with mask := a.mask ||| b.mask, lc := maxLc a.lc b.lc }
    { g with
      splits := tabErase hi g.splits
      results := orphan hi g.results
      defers := g.defers.map fun d => if d.owner == hi then { d with owner := lo } else d }
  | _, _ => g

/-- Merges every split of the group into the lowest-numbered one, whose number is returned. -/
def mergeAll (g : Group) : Group × Nat :=
  match g.splits with
  | [] => (g, 0)
  | (lo, _) :: rest => (rest.foldl (fun g p => mergeSplits g lo p.1) g, lo)

/-- Counts the issue of one more word by each other split (R351). -/
def countOthers (s : State) (c : Nat) (g : Group) (n : Nat) : State × Group :=
  ((List.range n).foldl (fun s _ => countWord s c g.part) s, { g with gwords := g.gwords + BitVec.ofNat 64 n })

/-- Cycles of the bundles that end with the waiting words of every split of a group (R24). -/
def waitedOcc (g : Group) : Nat := (g.splits.map fun p => (bump p.2.run 1).occ).sum

/-- Every split of the group is at a JOIN of this packet: they merge and go on (R220). Results that are outstanding for a
split that ends here are written all the same (R28). -/
def joinAll (s : State) (pl : Place) (g : Group) (sp : Split) : State :=
  let g := setSplit g pl.split sp
  if g.splits.any fun p => p.2.stack != sp.stack then trap s pl .illop
  else
    let n := g.splits.length - 1
    let occ := waitedOcc g
    let (g, lo) := mergeAll g
    let (s, g) := countOthers s pl.core g n
    match splitAt g lo with
    | none => s
    | some x =>
      let pl' := { pl with split := lo }
      finishAt (setGroup s pl.core pl.slot g) pl' g x occ (sp.pc + 1)

/-- JOIN (R220). -/
def execJoin (_h : Hd) (s : State) : Out :=
  issue s fun pl g sp =>
    match topDefer g pl.split with
    | some e =>
      if e.j && e.pc ≠ sp.pc then .next (trap s pl .illop)
      else
        let g := { g with defers := swapDefer pl.split { pc := sp.pc, mask := sp.mask, owner := pl.split, j := true } g.defers }
        .next (finishAt s pl g { sp with mask := e.mask } 1 e.pc)
    | none =>
      if (otherSplits g pl.split).all fun p => p.2.wait == some .join && p.2.pc == sp.pc then .next (joinAll s pl g sp)
      else
        match meeting g pl.split .join with
        | .notYet => .next (waitAt s pl g sp .join)
        | _ => .next (trap s pl .illop)

/-- The groups that a yielding group lets run first: the other groups of its lane pipe that are eligible when YIELD issues
(R226; when the set is taken: DESIGN CHOICE, log 55). -/
def yieldTo (s : State) (c slot : Nat) (g : Group) : List Nat :=
  ((coreOf s c).slots.filter fun x => x.1 != slot && x.2.pipe == g.pipe && (nextSplit s.clock x.2).isSome).map (·.1)

/-- YIELD (R226). -/
def execYield (_h : Hd) (s : State) : Out :=
  issue s fun pl g sp =>
    let k := coreOf s pl.core
    let s := setCore s pl.core { k with yielded := tabPut pl.slot (yieldTo s pl.core pl.slot g) k.yielded }
    .next (finishAt s pl g sp 1 (sp.pc + 1))

/-- NOP (R227). -/
def execNop (h : Hd) (s : State) : Out := issue s fun pl g sp => .next (finish s pl g sp h 1)

/-! ### EXIT (R221, R225) -/

/-- The absent page that holds a record write; a refused one drops it (R378). -/
def opBlocked (s : State) (l : Launch) (op : RecOp) : Option Word :=
  (firstAbsent s l op).filter fun va => !l.recProt.contains (recBlock va)

/-- The record writes that an exit makes; an absent page among them holds the exit (R378). -/
def exitBlocked (s : State) (l : Launch) (n : Nat) (last : Bool) (bs : List Byte) : Option Word :=
  (opBlocked s l (.done n)).orElse fun _ => if last then opBlocked s l (.append bs) else none

/-- The split goes on at its topmost deferral entry, or ends (R221). -/
def afterExit (g : Group) (n : Nat) (sp : Split) : Group :=
  match topDefer g n with
  | some e => setSplit { g with defers := popDefer n g.defers } n (freshSplit sp e.pc e.mask)
  | none => { g with splits := tabErase n g.splits, results := orphan n g.results }

/-- Waits that a split's end may complete repeat their words (R221). -/
def wakeMeetings (g : Group) : Group :=
  { g with splits := g.splits.map fun p =>
      match p.2.wait with
      | some .join | some .lane | some .ret | some (.gather _) => (p.1, { p.2 with wait := none })
      | _ => p }

/-- The STEP trap of a word that may have ended its split (R361): it names the word that has been issued, where the split
is gone (DESIGN CHOICE, log 55). -/
def stepEnded (s : State) (pl : Place) (sp : Split) : State :=
  match groupAt s pl.core pl.slot with
  | none => s
  | some g =>
    if !g.gdbg.getLsbD 0 then s
    else
      match splitAt g pl.split with
      | some _ => trap s pl .step
      | none =>
        stopGroup s pl.core pl.slot
          { cause := causeCode .step, kind := 0, split := BitVec.ofNat 2 pl.split, word := BitVec.ofNat 2 sp.word, code := 0,
            pc := sp.pc, addr := 0 }

/-- The exit of a split's threads: DONEW, the masks, the colophon and the team's retirement (R174, R221, R225, R355). -/
def doExit (s : State) (pl : Place) (g : Group) (sp : Split) (last : Bool) : State :=
  let s := recWrite s (.core pl.core) g.launch (.done sp.mask.threads.length)
  let g := (groupAt s pl.core pl.slot).getD g
  let g := { g with gwords := g.gwords + 1 }
  let s := countWord s pl.core g.part
  let s := setGroup s pl.core pl.slot (wakeMeetings (afterExit (setSplit g pl.split sp) pl.split sp))
  let s := release (advance s (bump sp.run 1).occ (some pl)) pl
  if last then
    let s := match groupAt s pl.core pl.slot with
      | some g => recWrite s (.core pl.core) g.launch (.append (colophon s g 0))
      | none => s
    let s := squashTenders s pl.core pl.slot
    let s := exitBars s pl.core g.launch g.team
    retireTeam s pl.core g.launch g.team
  else stepEnded s pl sp

/-- The waits of EXIT after its memory words (R225, R174, R378), then the exit. An EXIT.pod of a group whose packet was
discarded traps as FENCE.pod does, whose wait it applies (R307; DEDUCED, log 55). -/
def exitTail (s : State) (pl : Place) (g : Group) (sp : Split) (sc : Scope) : State :=
  let last := liveMask g &&& ~~~sp.mask == 0
  let due := packetsDue g sp
  if sc == .pod && (lostPacket s due).isSome then trapAddr s pl .linkerr ((lostPacket s due).getD 0)
  else if sc == .pod && !due.isEmpty then waitAt s pl g { sp with stage := 2, vals := due } .ack
  else if last && !(groupSlips s pl).isEmpty then waitAt s pl g sp .drain
  else
    let s := if sc == .sys then dropHostLines s g.part else s
    match launchOf s g.launch with
    | none => doExit s pl g sp last
    | some l =>
      match exitBlocked s l sp.mask.threads.length last (colophon s g 0) with
      | some va => report (waitAt s pl g sp .record) (.recFault g.launch va)
      | none => doExit s pl g sp last

/-- EXIT (R225). -/
def execExit (_h : Hd) (sc : Scope) (s : State) : Out :=
  fpeIssue s fun pl g sp =>
    if sp.stage = 2 || memDone g sp then .next (exitTail s pl g sp sc) else .next (waitAt s pl g sp (.performed 15))

end Sys2Proof.Machine
end

