-- ==== Sys2Proof/Machine/System.lean ====
section
/-! DEFINITION. System words, major 0x3F (R341–R362): system registers, counters and the clock, TRAP, SYSCALL, BKPT and
SELFTEST. -/

namespace Sys2Proof.Machine

/-! ### System registers (R343–R346) -/

/-- CGID and the trap record as registers (R345, R347). -/
def trrec0 (r : TrapRec) : Word := 0#34 ++ r.code ++ r.word ++ r.split ++ r.kind ++ 0#2 ++ r.cause

/-- A group's registers, 0x0000 to 0x0005. -/
def groupReg (g : Group) (n : Nat) : Option Word :=
  match n with
  | 0 => some (g.fstat.setWidth 64)
  | 1 => some (cgid g)
  | 2 => some (trrec0 g.trrec)
  | 3 => some g.trrec.pc
  | 4 => some g.trrec.addr
  | 5 => some (g.gdbg.setWidth 64)
  | _ => none

/-- SLEWST of an array (R269). -/
def slewSt (m : MArray) : Word :=
  BitVec.ofNat 64 ((if m.req.isSome then 128 else 0) + (if m.down then 8 else 0) + m.rate % 8)

/-- A core's registers, 0x0400 to 0x0404. -/
def coreReg (s : State) (c n : Nat) : Option Word :=
  let m := (coreOf s c).array
  match n with
  | 0x400 => some (slewSt m)
  | 0x401 => some m.wait
  | 0x402 => some m.short
  | 0x403 => some m.fill
  | 0x404 => some (BitVec.ofNat 64 (c % 1024))
  | _ => none

/-- GOVTAB (R269). -/
def govtab : Word := 0x0000000141234321

/-- BUDBAL (R335). -/
def budbal (b : Budget) : Word := b.bal ++ b.debt

/-- A stream's registers: SQBASE, SQCTL, SQHEAD, SQTAIL, SQERR, SQPID (R311, R357). -/
def streamReg (q : Stream) (k : Nat) : Option Word :=
  match k with
  | 0 => some q.base
  | 1 => some (BitVec.ofNat 64 ((if q.en then 2 ^ 15 else 0) + 2 ^ 12 * (q.die % 8) + q.log2n % 32))
  | 2 => some (q.head.setWidth 64)
  | 3 => some (q.tail.setWidth 64)
  | 4 => some (q.errCode ++ 0#3 ++ q.errVa.setWidth 57)
  | 5 => some q.sqpid
  | _ => none

/-- SDCTL (R346). -/
def sdctl (p : Part) : Word := p.gen ++ 0#30 ++ BitVec.ofBool p.ack ++ 0#1

/-- A partition's registers, 0x0C00 to 0x0CBD. -/
def partReg (s : State) (part n : Nat) : Option Word :=
  let p := partOf s part
  match n with
  | 0xC00 => some p.ptroot
  | 0xC01 => some p.sdbase
  | 0xC02 => some p.sdlen
  | 0xC03 => some (sdctl p)
  | 0xC04 => some (p.lease.setWidth 64)
  | 0xC05 => some (p.starvint.setWidth 64)
  | 0xC06 => some (p.pcfg.setWidth 64)
  | 0xC07 => some (p.dbgctl.setWidth 64)
  | 0xC08 => some p.hwbase
  | n =>
    if 0xC10 ≤ n ∧ n ≤ 0xC13 then some (tabGet 0 p.ibp (n - 0xC10))
    else if 0xC18 ≤ n ∧ n ≤ 0xC1B then some (tabGet 0 p.wpa (n - 0xC18))
    else if 0xC1C ≤ n ∧ n ≤ 0xC1F then some (tabGet 0 p.wpc (n - 0xC1C))
    else if 0xC20 ≤ n ∧ n ≤ 0xC22 then some (budgetOf p (n - 0xC20)).cfg
    else if 0xC24 ≤ n ∧ n ≤ 0xC26 then some (budbal (budgetOf p (n - 0xC24)))
    else if 0xC40 ≤ n ∧ n < 0xCC0 then streamReg (tabGet Stream.reset p.streams ((n - 0xC40) / 8)) ((n - 0xC40) % 8)
    else none

/-- LNKST (R309). -/
def lnkst (p : Port) : Word :=
  let stop := (List.range 8).foldl (fun n vl => if tabGet false p.stops vl then n + 2 ^ vl else n) 0
  BitVec.ofNat 16 p.drop ++ BitVec.ofNat 16 p.retry ++ 0#8 ++ BitVec.ofNat 8 stop ++ 0#8 ++ p.lanes ++ 0#3
    ++ BitVec.ofBool p.up

/-- The package's registers. -/
def packageReg (s : State) (n : Nat) : Option Word :=
  if n = 0x1000 then some (s.budper.setWidth 64)
  else if 0x1010 ≤ n ∧ n < 0x1022 then some (lnkst (portOf s (n - 0x1010)))
  else none

/-- The value of a listed register for the group in the turn (R344). -/
def sysReg (s : State) (c : Nat) (g : Group) (n : Nat) : Option Word :=
  if n < 0x400 then groupReg g n
  else if n < 0x800 then coreReg s c n
  else if n < 0xC00 then (if n = 0x800 then some govtab else none)
  else if n < 0x1000 then partReg s g.part n
  else packageReg s n

/-- Registers whose program access is R or RW (R344). -/
def progReads (n : Nat) : Bool :=
  n < 2 || (0x400 ≤ n && n < 0x405) || n == 0x800 || n == 0xC04 || n == 0xC06 || (0xC20 ≤ n && n ≤ 0xC22)
    || (0xC24 ≤ n && n ≤ 0xC26) || 0x1000 ≤ n

/-- A group or core register, which RDSR delivers with latency 4 (R342). -/
def isNearReg (n : Nat) : Bool := n < 0x800

/-! ### The words -/

/-- OPSPEC of a destination. -/
def dstOpspec (g : Group) (d : Opnd) : Bool := badDst d || namesBad g [d]

/-- Delivers one value to the destination of a system word and ends the word (R342). -/
def sysResult (s : State) (pl : Place) (g : Group) (sp : Split) (h : Hd) (d : Opnd) (lat : Option Nat) (src : ResSrc)
    (x : Word) : State :=
  let (g, sp) := deliver g sp pl.split .a lat src d ((onceKeys d sp.mask).map fun t => (t, x))
  finish { s with free := s.free + 1 } pl g sp h 1

/-- RDSR (R343, R344; DEDUCED, log 41). -/
def execRdsr (h : Hd) (d : Opnd) (n : BitVec 14) (s : State) : Out :=
  syncIssue s fun pl g sp =>
    match sysReg s pl.core g n.toNat with
    | none => .next (trap s pl .illop)
    | some x =>
      if dstOpspec g d then .next (trap s pl .opspec)
      else if !progReads n.toNat then .next (trap s pl .priv)
      else if hazard g sp pl.split [] [d] then .next (trap s pl .hazard)
      else .next (sysResult s pl g sp h d (if isNearReg n.toNat then some 4 else none) .var x)

/-- WRSR: FSTAT is the one register that programs may write (R81, R343, R344). -/
def execWrsr (h : Hd) (a : Opnd) (n : BitVec 14) (s : State) : Out :=
  syncIssue s fun pl g sp =>
    match sysReg s pl.core g n.toNat with
    | none => .next (trap s pl .illop)
    | some _ =>
      if barOpspec g [a] then .next (trap s pl .opspec)
      else if n ≠ 0 then .next (trap s pl .priv)
      else if hazard g sp pl.split [a] [] then .next (trap s pl .hazard)
      else
        let g := { g with fstat := writeFstat g.fstat (readOp g sp s.free (.int 64) 32 a) }
        .next (finish { s with free := s.free + 1 } pl g sp h 1)

/-- The counter that a selector names (R351). -/
def counterOf (s : State) (c : Nat) (g : Group) (sel : Nat) : Option Word :=
  if sel < 16 then some (tabGet 0 g.stalls sel)
  else
    match sel with
    | 0x10 => some g.gissue
    | 0x11 => some g.gwords
    | 0x100 => some (tabGet 0 (coreOf s c).cwords g.part)
    | 0x101 => some (coreOf s c).l1miss
    | 0x102 => some (tabGet 0 (partOf s g.part).l2evict (c / Config.coresPerDie))
    | _ => none

/-- The shape of RDCTR and RDCLK: a .sync word parks until the group has no outstanding result (R351). -/
def readClock (s : State) (h : Hd) (d : Opnd) (sync : Bool) (f : Nat → Group → Option Word) : Out :=
  syncIssue s fun pl g sp =>
    match f pl.core g with
    | none => .next (trap s pl .illop)
    | some x =>
      if dstOpspec g d then .next (trap s pl .opspec)
      else if hazard g sp pl.split [] [d] then .next (trap s pl .hazard)
      else if sync && !g.results.isEmpty then .next (waitAt s pl g sp .results)
      else .next (sysResult s pl g sp h d (some 4) .var x)

/-- RDCTR (R351; DEDUCED, log 36). -/
def execRdctr (h : Hd) (d : Opnd) (sync : Bool) (sel : BitVec 13) (s : State) : Out :=
  readClock s h d sync fun c g => counterOf s c g sel.toNat

/-- RDCLK (R351). -/
def execRdclk (h : Hd) (d : Opnd) (sync : Bool) (s : State) : Out := readClock s h d sync fun _ _ => some s.clock

/-- A word that stops its group has issued: it counts, and its bundle's cycles pass (R342, R351). -/
def stopIssued (s : State) (pl : Place) (g : Group) (sp : Split) : State :=
  let sp' := { sp with run := { sp.run with occ := 0 } }
  let s := countWord (store s pl { g with gwords := g.gwords + 1 } sp') pl.core g.part
  advance s (bump sp.run 1).occ (some pl)

/-- The shape of TRAP and SYSCALL: the waits of EXIT, then the stop (R342, R350). -/
def stopWord (s : State) (kind : BitVec 2) (code : BitVec 14) : Out :=
  fpeIssue s fun pl g sp =>
    if memDone g sp then .next (trapWith (stopIssued s pl g sp) pl 0 kind code 0) else .next (waitAt s pl g sp (.performed 15))

/-- TRAP (R350). -/
def execTrap (_h : Hd) (code : BitVec 14) (s : State) : Out := stopWord s 1 code
/-- SYSCALL (R350). -/
def execSyscall (_h : Hd) (code : BitVec 14) (s : State) : Out := stopWord s 2 code
/-- BKPT (R350). -/
def execBkpt (_h : Hd) (s : State) : Out := syncIssue s fun pl _ _ => .next (trap s pl .bkpt)

/-- SELFTEST finds the core busy (R362). -/
def selfBusy (k : Core) (slot : Nat) (g : Group) : Bool :=
  k.slots.any (fun x => x.1 != slot) ||
    (match k.array.claim with
    | some t => t != (g.launch, g.team)
    | none => false)

/-- DONE and BUSY. -/
def selfBusyWord : Word := 0xC000000000000000

/-- SELFTEST (R362): its result comes with the end of the test (DEDUCED, log 49). -/
def execSelftest (h : Hd) (d : Opnd) (pattern : BitVec 14) (s : State) : Out :=
  syncIssue s fun pl g sp =>
    if dstOpspec g d then .next (trap s pl .opspec)
    else if !(partOf s g.part).pcfg.getLsbD 1 then .next (trap s pl .priv)
    else if hazard g sp pl.split [] [d] then .next (trap s pl .hazard)
    else
      let sp := begun g pl.split sp
      let k := coreOf s pl.core
      if !memDone g sp then .next (waitAt s pl g sp (.performed 15))
      else if !(groupSlips s pl).isEmpty then .next (waitAt s pl g sp .drain)
      else if selfBusy k pl.slot g then .next (sysResult s pl g sp h d none .var selfBusyWord)
      else
        let s := setCore s pl.core
          { k with nextOp := k.nextOp + 1
                   self := k.self ++ [{ slot := pl.slot, op := k.nextOp, pattern := pattern.toNat }] }
        .next (sysResult s pl g sp h d none (.held k.nextOp) 0)

end Sys2Proof.Machine
end

