-- ==== Sys2Proof/Machine/Matrix.lean ====
section
/-! DEFINITION. Matrix words, major 0x3C (R252–R264), and plan words, major 0x3D (R277–R291): their checks at issue and the
operations that they hand to the array. -/

namespace Sys2Proof.Machine

/-! ### The shape of an engine word (R173, R256) -/

/-- An engine word: its uniform sources, OPSPEC of its own fields, per-thread sources, destinations, and the cycles that
it occupies. -/
structure EngWord where
  srcs : Group → List Opnd
  bad  : Bool
  thr  : List Opnd
  dsts : List Opnd
  occ  : Nat

/-- A word whose only operands are uniform sources. -/
def engSrcs (os : List Opnd) : EngWord := { srcs := fun _ => os, bad := false, thr := [], dsts := [], occ := 1 }

/-- The split does not hold every thread of its group, or the group has a deferral entry (R256). -/
def partialMask (g : Group) (sp : Split) : Bool := liveMask g != sp.mask || !g.defers.isEmpty

/-- The value of a uniform source at issue. -/
def engVal (s : State) (g : Group) (sp : Split) (o : Opnd) : Word := readOp g sp s.free (.int 64) 32 o

/-- The operand checks of an engine word (R45, R256), then `k` (DEDUCED, log 43). -/
def engChecks (s : State) (w : EngWord) (full : Bool) (k : Place → Group → Split → Out) : Out :=
  syncIssue s fun pl g sp =>
    if w.bad || barOpspec g (w.srcs g) || namesBad g w.thr || w.dsts.any badDst || namesBad g w.dsts then
      .next (trap s pl .opspec)
    else if hazard g sp pl.split (w.srcs g ++ w.thr) w.dsts then .next (trap s pl .hazard)
    else if full && partialMask g sp then .next (trap s pl .partialmask)
    else k pl g sp

/-- An MMA whose unit holds no earlier operation that is in its way has its rows ready in the cycle of its issue (R271). -/
def enterStart (s : State) (c : Nat) (o : ArrOp) : State :=
  match o with
  | .mma .. => startUnit s c .stream
  | _ => s

/-- Issues an operation of the array: the claim (R244), the traps of the word, the waits for a place in its unit and for
call slips (R173, R245), the group's earlier accesses (R172), and the entry. `fin` is what else the word does to its
group, given the operation's number. -/
def arrayWord (s : State) (h : Hd) (w : EngWord) (mk : Group → Split → MArray → Except Cause (ArrOp × MArray))
    (fin : Place → Nat → Group → Split → Group × Split) : Out :=
  engChecks s w true fun pl g sp =>
    let k := coreOf s pl.core
    match claimFor k.array g with
    | none => .next (waitAt s pl g sp .claim)
    | some m =>
      match mk g sp m with
      | .error c => .next (trap s pl c)
      | .ok (o, m) =>
        let need := (opRanges pl.core o).length
        if !footprintOk k pl.core g o then .next (trap s pl .footprint)
        else if mmtUnfed m || decide (8 ≤ unitLoad m (opUnit o)) then .next (waitAt s pl g sp .engine)
        else if 128 < k.slips.length + need then .next (waitAt s pl g sp (.room need))
        else
          let s := drainPend { s with free := s.free + 1 } pl.core pl.slot
          match groupAt s pl.core pl.slot with
          | none => .next s
          | some g =>
            let k := coreOf s pl.core
            let (g, sp) := fin pl k.nextOp g sp
            .next (finish (enterStart (setCore s pl.core (enterOp k pl.core pl.slot m o)) pl.core o) pl g sp h w.occ)

/-- A word that does nothing else to its group. -/
def noFin (_ : Place) (_ : Nat) (g : Group) (sp : Split) : Group × Split := (g, sp)

/-- An operation whose operands are its words' values alone. -/
def plainOp (s : State) (h : Hd) (os : List Opnd) (f : (Opnd → Word) → ArrOp) : Out :=
  arrayWord s h (engSrcs os) (fun g sp m => .ok (f (engVal s g sp), m)) noFin

/-! ### Matrix words -/

/-- The even g register that FMTB may name (R252). -/
def fmtbReg : Opnd → Option (Fin 32)
  | .g n => if n.val % 2 = 0 then some n else none
  | _ => none

/-- FMTB (R252). -/
def execFmtb (h : Hd) (a : Opnd) (s : State) : Out :=
  engChecks s { engSrcs [] with bad := (fmtbReg a).isNone } true fun pl g sp =>
    match claimFor (coreOf s pl.core).array g with
    | none => .next (waitAt s pl g sp .claim)
    | some m => .next (finish (setArray s pl.core m) pl { g with fmt := fmtbReg a } sp h 1)

/-- gK + i. -/
def gPlus (k : Fin 32) (i : Nat) : Opnd := .g (Fin.ofNat 32 (k.val + i))

/-- The registers that the group's FMTB record names. -/
def fmtRegs (g : Group) : List Opnd :=
  match g.fmt with
  | some k => [gPlus k 0, gPlus k 1]
  | none => []

/-- The format block of an MMA or MMT (R252, R254): `none` if the group's record holds no valid one. -/
def fmtFor (s : State) (g : Group) (sp : Split) (m : MArray) : Option FmtRec :=
  match g.fmt with
  | none => some m.fmtb
  | some k =>
    let f : FmtRec := { f0 := engVal s g sp (gPlus k 0), f1 := engVal s g sp (gPlus k 1) }
    if f.valid then some f else none

/-- The record is used up (R252). -/
def clearFmt (_ : Place) (_ : Nat) (g : Group) (sp : Split) : Group × Split := ({ g with fmt := none }, sp)

/-- WLD (R258). -/
def execWld (h : Hd) (a b : Opnd) (s : State) : Out := plainOp s h [a, b] fun rd => .wld (rd a) (rd b)

/-- WSWP (R258). -/
def execWswp (h : Hd) (s : State) : Out := plainOp s h [] fun _ => .wswp

/-- ACCZ (R261). -/
def execAccz (h : Hd) (mask : BitVec 4) (s : State) : Out := plainOp s h [] fun _ => .accz mask

/-- MMA (R259). -/
def execMma (h : Hd) (a b c : Opnd) (s : State) : Out :=
  arrayWord s h { engSrcs [] with srcs := fun g => [a, b, c] ++ fmtRegs g }
    (fun g sp m =>
      match fmtFor s g sp m with
      | none => .error .illop
      | some f => .ok (.mma (engVal s g sp a) (engVal s g sp b) (engVal s g sp c) f, { m with fmtb := f }))
    clearFmt

/-- ACCOUT (R260), with the format block in effect at its issue (R251). -/
def execAccout (h : Hd) (a b c : Opnd) (s : State) : Out :=
  arrayWord s h (engSrcs [a, b, c])
    (fun g sp m => .ok (.accout (engVal s g sp a) (engVal s g sp b) (engVal s g sp c) m.fmtb, m)) noFin

/-- ACCIN (R260). -/
def execAccin (h : Hd) (a b c : Opnd) (s : State) : Out := plainOp s h [a, b, c] fun rd => .accin (rd a) (rd b) (rd c)

/-- The three registers of an MMT (R263). -/
def mmtRegs : Opnd → List Opnd
  | .g k => if k.val ≤ 29 then [gPlus k 0, gPlus k 1, gPlus k 2] else []
  | _ => []

/-- MMT (R263, R264). -/
def execMmt (h : Hd) (a : Opnd) (s : State) : Out :=
  arrayWord s h { engSrcs [] with srcs := fun g => mmtRegs a ++ fmtRegs g, bad := (mmtRegs a).isEmpty }
    (fun g sp m =>
      let ds := (mmtRegs a).map (engVal s g sp)
      if mmtReserved ds then .error .illop
      else
        match fmtFor s g sp m with
        | none => .error .illop
        | some f => .ok (.mmt ds f, { m with fmtb := f }))
    clearFmt

/-- The claim of a word that reads a status of the array and needs no full mask (R244, R256, R278). -/
def statusWord (s : State) (d : Opnd) (k : Place → Group → Split → MArray → Out) : Out :=
  engChecks s { engSrcs [] with dsts := [d] } false fun pl g sp =>
    match claimFor (coreOf s pl.core).array g with
    | none => .next (waitAt s pl g sp .claim)
    | some m => k pl g sp m

/-- MSTAT's snapshot (R261). -/
def mstatOf (m : MArray) (g : Group) : Word :=
  BitVec.ofNat 32 m.steps ++ m.dph ++ BitVec.ofNat 3 m.rate ++ BitVec.ofBool m.mmt.isSome
    ++ BitVec.ofNat 6 (m.jobs.filter fun j => j.unit != .sequencer && j.unit != .status && !j.mmt).length ++ 0#11 ++ g.engFlags

/-- MSTAT (R261). -/
def execMstat (h : Hd) (d : Opnd) (s : State) : Out :=
  statusWord s d fun pl g sp m =>
    let (g', sp) := deliver g sp pl.split .m none .var d ((onceKeys d sp.mask).map fun t => (t, mstatOf m g))
    .next (finish (setArray s pl.core m) pl g' sp h 1)

/-! ### Plan words -/

/-- PLD (R280). -/
def execPld (h : Hd) (a : Opnd) (s : State) : Out := plainOp s h [a] fun rd => .pld (rd a)

/-- PCOST (R281). -/
def execPcost (h : Hd) (a b : Opnd) (s : State) : Out := plainOp s h [a, b] fun rd => .pcost (rd a) (rd b)

/-- A v or o register (R278). -/
def isVO : Opnd → Bool
  | .v _ | .o _ => true
  | _ => false

/-- The shape of PMARG and PSCL (R278, R282). -/
def pregWord (s : State) (h : Hd) (scl out col : Bool) (a : Opnd) : Out :=
  if out then
    arrayWord s h { engSrcs [] with bad := !isVO a, dsts := [a], occ := 32 } (fun _ _ m => .ok (.pregOut scl col, m))
      fun pl op g sp => deliver g sp pl.split .m none (.held op) a (sp.mask.threads.map fun t => (t, 0))
  else
    arrayWord s h { engSrcs [] with bad := !isVO a, thr := [a], occ := 32 }
      (fun g sp m => .ok (.pregIn scl col (sp.mask.threads.map fun t => (t, readOp g sp s.free (.int 64) t a)), m)) noFin

/-- PMARG (R282). -/
def execPmarg (h : Hd) (out col : Bool) (a : Opnd) (s : State) : Out := pregWord s h false out col a
/-- PSCL (R282). -/
def execPscl (h : Hd) (out col : Bool) (a : Opnd) (s : State) : Out := pregWord s h true out col a

/-- BALANCE (R283, R284). -/
def execBalance (h : Hd) (a b : Opnd) (s : State) : Out := plainOp s h [a, b] fun rd => .balance (rd a) (rd b)

/-- PPART (R289). -/
def execPpart (h : Hd) (row : Bool) (a : Opnd) (s : State) : Out := plainOp s h [a] fun rd => .ppart row (rd a)

/-- POUT (R290). -/
def execPout (h : Hd) (a b c : Opnd) (s : State) : Out := plainOp s h [a, b, c] fun rd => .pout (rd a) (rd b) (rd c)

/-- PDIST (R291). -/
def execPdist (h : Hd) (a b : Opnd) (s : State) : Out := plainOp s h [a, b] fun rd => .pdist (rd a) (rd b)

/-- PSTAT (R288): its footprint enters as a slip (R173), and it gives its result after every earlier BALANCE (R245, R279). -/
def execPstat (h : Hd) (d : Opnd) (s : State) : Out :=
  statusWord s d fun pl g sp m =>
    let k := coreOf s pl.core
    if 128 ≤ k.slips.length then .next (waitAt s pl g sp (.room 1))
    else
      let (g, sp) := deliver g sp pl.split .m none (.held k.nextOp) d ((onceKeys d sp.mask).map fun t => (t, 0))
      .next (finish (setCore s pl.core (enterOp k pl.core pl.slot m .pstat)) pl g sp h 1)

end Sys2Proof.Machine
end

