-- ==== Sys2Proof/Machine/Copy.lean ====
section
/-! DEFINITION. Copy words, major 0x3E, the copy engine and its events (R292–R304). An operation has its whole effect when
it ends (log 12). -/

namespace Sys2Proof.Machine

/-! ### Descriptors (R296–R299) -/

/-- LEN of CPY. -/
def cpyLen (c : Word) : Nat := (c.extractLsb' 0 28).toNat
/-- NROWS of CPY2D. -/
def d3Rows (d : Word) : Nat := (d.extractLsb' 16 15).toNat
/-- ROWLEN. -/
def d3Len (d : Word) : Nat := (d.extractLsb' 0 16).toNat
/-- The upper half of a word: SPITCH, IDXLIM, TAG. -/
def hi32 (d : Word) : Nat := (d.extractLsb' 32 32).toNat
/-- The lower half: DPITCH, N. -/
def loHalf (d : Word) : Nat := (d.extractLsb' 0 32).toNat
/-- ESZ of GTH and SCT. -/
def d4Esz (d : Word) : Nat := (d.extractLsb' 16 4).toNat
/-- OP of CPYR. -/
def rOp (c : Word) : Nat := (c.extractLsb' 28 3).toNat
/-- TYPE of CPYR. -/
def rType (c : Word) : Nat := (c.extractLsb' 25 3).toNat
/-- N of CPYR. -/
def rCount (c : Word) : Nat := (c.extractLsb' 0 24).toNat

/-- Bytes of an element of CPYR. -/
def rBytes (ty : Nat) : Nat :=
  match ty with
  | 2 => 2
  | 0 | 3 | 5 => 4
  | _ => 8

/-- The word that holds TAG and REC. -/
def copyCtl : CopyOp → Word
  | .cpy _ _ c | .cpyr _ _ c => c
  | .cpy2d ds => ds.getD 3 0
  | .gth ds | .sct ds => ds.getD 4 0

/-- A listed field holds a reserved code (R294). -/
def copyReserved : CopyOp → Bool
  | .cpyr _ _ c => decide (2 < rOp c) || decide (6 < rType c)
  | .gth ds | .sct ds => decide (12 < d4Esz (ds.getD 4 0))
  | _ => false

/-- The ranges of an operation (R295): address, bytes, written. Both ranges of a CPY2D of no rows are empty (DESIGN CHOICE,
log 35). -/
def copyRanges : CopyOp → List (Word × Nat × Bool)
  | .cpy a b c => [(a, cpyLen c, false), (b, cpyLen c, true)]
  | .cpy2d ds =>
    let d := fun i => ds.getD i 0
    let n := d3Rows (d 3)
    let w := d3Len (d 3)
    let len := fun p => if n = 0 then 0 else rowSpan n p w
    [(d 0, len (hi32 (d 2)), false), (d 1, len (loHalf (d 2)), true)]
  | .gth ds =>
    let d := fun i => ds.getD i 0
    let e := 2 ^ d4Esz (d 4)
    let n := loHalf (d 3)
    [(d 0, hi32 (d 3) * e, false), (d 2, 4 * n, false), (d 1, n * e, true)]
  | .sct ds =>
    let d := fun i => ds.getD i 0
    let e := 2 ^ d4Esz (d 4)
    let n := loHalf (d 3)
    [(d 1, n * e, false), (d 2, 4 * n, false), (d 0, hi32 (d 3) * e, true)]
  | .cpyr a b c =>
    let n := rCount c * rBytes (rType c)
    [(a, n, false), (b, n, true)]

/-- The alignment that a word's description requires (R298, R299). -/
def copyAligned : CopyOp → Bool
  | .cpy .. | .cpy2d _ => true
  | .gth ds | .sct ds =>
    let e := Nat.min (2 ^ d4Esz (ds.getD 4 0)) 128
    (ds.getD 0 0).toNat % e == 0 && (ds.getD 1 0).toNat % e == 0 && (ds.getD 2 0).toNat % 4 == 0
  | .cpyr a b c => a.toNat % rBytes (rType c) == 0 && b.toNat % rBytes (rType c) == 0

/-- A range lies in one region (R294) and, in the aperture, in granules of the launch. -/
def copyRangeOk (s : State) (c launch : Nat) (a : Word) (n : Nat) : Bool :=
  isCanonical a &&
    (decide (n = 0) ||
      (let lo := a.toNat
       let hi := lo + n
       if inAperture a then
         decide (hi ≤ 2 ^ 64)
           && (List.range 1024).all fun i =>
             let o := 4096 * i
             !(decide (o < hi - Config.aperture.toNat) && decide (lo - Config.aperture.toNat < o + 4096))
               || granuleOk s c o launch
       else if lo < 2 ^ 56 then decide (hi ≤ 2 ^ 56)
       else decide (hi ≤ Config.aperture.toNat)))

/-- A read range overlaps a written one. -/
def copyOverlap (rs : List (Word × Nat × Bool)) : Bool :=
  rs.any fun x => rs.any fun y =>
    !x.2.2 && y.2.2 && decide (x.1.toNat < y.1.toNat + y.2.1) && decide (y.1.toNat < x.1.toNat + x.2.1)
      && decide (0 < x.2.1) && decide (0 < y.2.1)

/-- The footprint obeys R294 (DEDUCED, log 35). -/
def copyFootprintOk (s : State) (c launch : Nat) (o : CopyOp) : Bool :=
  (copyRanges o).all (fun r => copyRangeOk s c launch r.1 r.2.1) && !copyOverlap (copyRanges o) && copyAligned o

/-- The call slips of an operation: one for each range that is not empty. -/
def copySlips (o : CopyOp) : List (Range × Bool) :=
  ((copyRanges o).filter fun r => r.2.1 != 0).map fun r =>
    (if inAperture r.1 then .scr r.1.toNat (r.1.toNat + r.2.1) else .mem r.1.toNat (r.1.toNat + r.2.1), r.2.2)

/-! ### The words -/

/-- REC. -/
def copyRec (o : CopyOp) : Bool := (copyCtl o).getLsbD 31

/-- TAG. -/
def copyTag (o : CopyOp) : Word := copyCtl o >>> 32

/-- The shape of a copy word (R292–R295); a per-thread source traps with OPSPEC (DEDUCED, log 57). -/
def copyWord (s : State) (h : Hd) (srcs : List Opnd) (bad : Bool) (f : (Opnd → Word) → CopyOp) : Out :=
  engChecks s { engSrcs srcs with bad := bad } true fun pl g sp =>
    let o := f (engVal s g sp)
    let k := coreOf s pl.core
    let slips := copySlips o
    if copyReserved o then .next (trap s pl .illop)
    else if !copyFootprintOk s pl.core g.launch o then .next (trap s pl .footprint)
    else if slips.isEmpty then
      let s := finish { s with free := s.free + 1 } pl g sp h 1
      .next (if copyRec o then queueRecord s pl.core pl.slot 0 0 (copyTag o) else s)
    else if 16 ≤ k.copies.length then .next (waitAt s pl g sp .engine)
    else if 128 < k.slips.length + slips.length then .next (waitAt s pl g sp (.room slips.length))
    else
      let s := drainPend { s with free := s.free + 1 } pl.core pl.slot
      match groupAt s pl.core pl.slot with
      | none => .next s
      | some g =>
        let k := coreOf s pl.core
        let j : CopyJob := { op := k.nextOp, slot := pl.slot, what := o, running := false, fault := none, win := none, words := [], moved := 0 }
        let k := addSlips k pl.slot k.nextOp slips
        .next (finish (setCore s pl.core { k with nextOp := k.nextOp + 1, copies := k.copies ++ [j] }) pl g sp h 1)

/-- gK to gK + n of a descriptor, if K allows it (R293). -/
def descRegs (n : Nat) : Opnd → List Opnd
  | .g k => if k.val + n < 32 then (List.range (n + 1)).map (gPlus k) else []
  | _ => []

/-- CPY (R296). -/
def execCpy (h : Hd) (a b c : Opnd) (s : State) : Out := copyWord s h [a, b, c] false fun rd => .cpy (rd a) (rd b) (rd c)

/-- CPY2D (R297). -/
def execCpy2d (h : Hd) (a : Opnd) (s : State) : Out :=
  copyWord s h (descRegs 3 a) (descRegs 3 a).isEmpty fun rd => .cpy2d ((descRegs 3 a).map rd)

/-- GTH (R298). -/
def execGth (h : Hd) (a : Opnd) (s : State) : Out :=
  copyWord s h (descRegs 4 a) (descRegs 4 a).isEmpty fun rd => .gth ((descRegs 4 a).map rd)

/-- SCT (R298). -/
def execSct (h : Hd) (a : Opnd) (s : State) : Out :=
  copyWord s h (descRegs 4 a) (descRegs 4 a).isEmpty fun rd => .sct ((descRegs 4 a).map rd)

/-- CPYR (R299). -/
def execCpyr (h : Hd) (a b c : Opnd) (s : State) : Out := copyWord s h [a, b, c] false fun rd => .cpyr (rd a) (rd b) (rd c)

/-! ### Units of an operation -/

/-- One access or pair of accesses of an operation: a move of n bytes within one 16-byte row on both sides; an atomic
update of an element; the read of an index; the end on an index at or above IDXLIM (R298). -/
inductive CUnit where
  | move (src dst : Word) (n : Nat)
  | upd (op ty : Nat) (src dst : Word)
  | look (va : Word)
  | stop (va : Word)
deriving DecidableEq, Repr

/-- The pieces of a copy of n bytes; `fuel` bounds their number. -/
def moveUnits (src dst : Word) : Nat → Nat → List CUnit
  | 0, _ => []
  | fuel + 1, n =>
    if n = 0 then []
    else
      let k := Nat.min n (Nat.min (16 - src.toNat % 16) (16 - dst.toNat % 16))
      .move src dst k :: moveUnits (src + BitVec.ofNat 64 k) (dst + BitVec.ofNat 64 k) fuel (n - k)

/-- What an address of a group's launch reaches for the engine (R292). -/
def engTrans (s : State) (c part launch : Nat) (va : Word) : Trans :=
  if !isCanonical va then .bad none
  else if inAperture va then transAperture s c launch (apOffset va)
  else transPage s c part va

/-- The outcome of an access's checks (R300): a location, an absent page, a cause with its address. -/
inductive EngAcc where
  | ok (loc : Nat)
  | absent (va : Word)
  | cause (code : BitVec 8) (va : Word)
deriving DecidableEq, Repr

/-- The checks of an engine access to memory (R127, R137, R153, R300, R304). -/
def engCheck (s : State) (c part launch : Nat) (va : Word) (rd wr : Bool) : EngAcc :=
  match engTrans s c part launch va with
  | .absent => .absent va
  | .bad _ => .cause (causeCode .prot) va
  | .ok l =>
    if (rd && !l.r) || (wr && !l.w) || l.mt = 2 || (wr && l.mt = 1)
        || (decide (l.loc < Config.scratchKey) && targetOf l.loc == .endpoint) then .cause (causeCode .prot) va
    else if rd && isPoisoned s l.loc then .cause (causeCode .memerr) va
    else .ok l.loc

/-- The first problem of a unit. -/
def unitCheck (s : State) (c part launch : Nat) : CUnit → Option EngAcc
  | .move src dst _ => bad2 (engCheck s c part launch src true false) (engCheck s c part launch dst false true)
  | .upd _ _ src dst => bad2 (engCheck s c part launch src true false) (engCheck s c part launch dst true true)
  | .look va => bad2 (engCheck s c part launch va true false) (.ok 0)
  | .stop _ => some (.cause (causeCode .footprint) 0)
where
  bad2 (a b : EngAcc) : Option EngAcc :=
    match a, b with
    | .ok _, .ok _ => none
    | .ok _, x => some x
    | x, _ => some x

/-- The float type of a CPYR type code. -/
def rFloatTy : Nat → Option FTy
  | 0 => some .f32
  | 1 => some .f64
  | 2 => some .bf16
  | _ => none

/-- The new value of an element of n bytes (R299). -/
def rCombine (op ty n old v : Nat) : Nat :=
  match rFloatTy ty with
  | some t => (if op = 0 then addTo t .rne old v else minMaxTo t (op == 2) old v).1
  | none =>
    let sg := ty = 3 ∨ ty = 4
    match op with
    | 0 => (old + v) % 2 ^ (8 * n)
    | 1 => if intOf (8 * n) sg v < intOf (8 * n) sg old then v else old
    | _ => if intOf (8 * n) sg old < intOf (8 * n) sg v then v else old

/-- The location of a checked address. -/
def engLoc (s : State) (c part launch : Nat) (va : Word) : Nat :=
  match engTrans s c part launch va with
  | .ok l => l.loc
  | _ => 0

/-- Performs a unit whose checks have passed. -/
def runUnit (s : State) (c part launch : Nat) : CUnit → State
  | .move src dst n =>
    let (x, s) := loadAt s c part (engLoc s c part launch src) n
    storeAt s c (engLoc s c part launch dst) n x
  | .upd op ty src dst =>
    let n := rBytes ty
    let (v, s) := loadAt s c part (engLoc s c part launch src) n
    let loc := engLoc s c part launch dst
    storeAt s c loc n (rCombine op ty n (memRead s loc n) v)
  | .look va => (loadAt s c part (engLoc s c part launch va) 4).2
  | .stop _ => s

/-- The units of a gather or scatter; an index that cannot be read gives no unit but its own read (R300). -/
def indexUnits (s : State) (c part launch : Nat) (sct : Bool) (base pack idx : Word) (lim e : Nat) : Nat → Nat → List CUnit
  | _, 0 => []
  | i, n + 1 =>
    let va := idx + BitVec.ofNat 64 (4 * i)
    .look va ::
      ((match engCheck s c part launch va true false with
        | .ok loc =>
          let x := (loadAt s c part loc 4).1
          let p := pack + BitVec.ofNat 64 (i * e)
          let b := base + BitVec.ofNat 64 (x * e)
          if lim ≤ x then [.stop va] else if sct then moveUnits p b e e else moveUnits b p e e
        | _ => []) ++ indexUnits s c part launch sct base pack idx lim e (i + 1) n)

/-- The units of an operation, in order. -/
def copyUnits (s : State) (c part launch : Nat) : CopyOp → List CUnit
  | .cpy a b x => moveUnits a b (cpyLen x) (cpyLen x)
  | .cpy2d ds =>
    let d := fun i => ds.getD i 0
    (List.range (d3Rows (d 3))).flatMap fun r =>
      moveUnits (d 0 + BitVec.ofNat 64 (r * hi32 (d 2))) (d 1 + BitVec.ofNat 64 (r * loHalf (d 2))) (d3Len (d 3))
        (d3Len (d 3))
  | .gth ds =>
    indexUnits s c part launch false (ds.getD 0 0) (ds.getD 1 0) (ds.getD 2 0) (hi32 (ds.getD 3 0))
      (2 ^ d4Esz (ds.getD 4 0)) 0 (loHalf (ds.getD 3 0))
  | .sct ds =>
    indexUnits s c part launch true (ds.getD 0 0) (ds.getD 1 0) (ds.getD 2 0) (hi32 (ds.getD 3 0))
      (2 ^ d4Esz (ds.getD 4 0)) 0 (loHalf (ds.getD 3 0))
  | .cpyr a b x =>
    (List.range (rCount x)).map fun i =>
      .upd (rOp x) (rType x) (a + BitVec.ofNat 64 (i * rBytes (rType x))) (b + BitVec.ofNat 64 (i * rBytes (rType x)))

/-- The outcome of a running operation's turn: it ends with a STATUS and the address of its cause, it meets an absent
page, or it waits on an endpoint queue; the last two with the job as it now stands. -/
inductive CopyOut where
  | done (s : State) (status : BitVec 8) (va : Word)
  | absent (s : State) (j : CopyJob) (va : Word)
  | wait (s : State) (j : CopyJob)

/-- The first unit with a problem. -/
def firstBad (s : State) (c part launch : Nat) (us : List CUnit) : Option EngAcc :=
  us.findSome? (unitCheck s c part launch)

/-- Performs the units that a predicate on their numbers selects and whose checks pass. -/
def runUnits (s : State) (c part launch : Nat) (p : Nat → Bool) : Nat → List CUnit → State
  | _, [] => s
  | i, u :: r =>
    runUnits (if p i && (unitCheck s c part launch u).isNone then runUnit s c part launch u else s) c part launch p (i + 1) r

/-- A copy between pages that are no endpoints: all of its units, or, on a cause, the units that the machine happens to
have performed (R300; a free choice). -/
def runMemCopy (s : State) (c part launch : Nat) (j : CopyJob) : CopyOut :=
  let us := copyUnits s c part launch j.what
  match firstBad s c part launch us with
  | none => .done (runUnits s c part launch (fun _ => true) 0 us) 0 0
  | some (.absent va) => .absent s j va
  | some (.cause code va) =>
    .done (runUnits { s with free := s.free + 1 } c part launch (Config.copyDone s.free) 0 us) code va
  | some (.ok _) => .wait s j

/-! ### Copies through endpoint windows (R304) -/

/-- The endpoint address that a virtual address reaches, if its page is an endpoint page. -/
def endpointAt (s : State) (c part launch : Nat) (va : Word) : Option Leaf :=
  match engTrans s c part launch va with
  | .ok l => if l.mt = 2 then some l else none
  | _ => none

/-- Alignment and length of a copy at an endpoint, whose range stays in one window. -/
def endpointOk (a b : Word) (n : Nat) (va : Word) : Bool :=
  a.toNat % 8 == 0 && b.toNat % 8 == 0 && n % 8 == 0 && decide (8 ≤ n) && decide (n ≤ 512)
    && decide (va.toNat % 0x2000 + n ≤ 0x2000)

/-- No packet is open on a send window, so that a copy may begin one (R304). -/
def windowFree (s : State) (pa : Nat) : Bool :=
  !engineOn s (windowBase pa) &&
    match windowOf pa with
    | .send q => (queueOf s q).opened.isEmpty
    | .thedel p vl => (tabGet [] (portOf s p).opened vl).isEmpty
    | _ => false

/-- The window may be read or written. -/
def windowUse (rd : Bool) (l : Leaf) : Bool :=
  match windowOf l.loc with
  | .recv _ => rd && l.r
  | .send _ | .thedel _ _ => !rd && l.w
  | .reserved => false

/-- The words of a memory range, read as events of core c. -/
def readWords (s : State) (c part launch : Nat) (a : Word) : Nat → List Word × State
  | 0 => ([], s)
  | n + 1 =>
    let (x, s) := loadAt s c part (engLoc s c part launch a) 8
    let (xs, s) := readWords s c part launch (a + 8) n
    (BitVec.ofNat 64 x :: xs, s)

/-- The problem of the memory side of an endpoint copy. -/
def sideBad (s : State) (c part launch : Nat) (a : Word) (n : Nat) (wr : Bool) : Option EngAcc :=
  (List.range n).findSome? fun i =>
    match engCheck s c part launch (a + BitVec.ofNat 64 (8 * i)) (!wr) wr with
    | .ok _ => none
    | x => some x

/-- A problem as an outcome. -/
def outOf (s : State) (j : CopyJob) : EngAcc → CopyOut
  | .absent va => .absent s j va
  | .cause code va => .done s code va
  | .ok _ => .wait s j

/-- Takes the next word of a copy: from its receive window, or from the words read. -/
def takeWord (s : State) (c : Nat) (src : Option Leaf) (j : CopyJob) : Option (Word × State × CopyJob) :=
  match src with
  | some l =>
    match loadWindow s c (windowBase l.loc) with
    | .done x s => some (x, s, j)
    | _ => none
  | none =>
    match j.words with
    | [] => none
    | x :: r => some (x, s, { j with words := r })

/-- A send window can take a word now (R304, R306). -/
def windowRoom (s : State) (pa : Nat) : Bool :=
  match windowOf pa with
  | .send q => decide (queueWords (queueOf s q) < queueSize)
  | .thedel p vl => !tabGet false (portOf s p).stops vl || decide (tabGet 0 (portOf s p).buf vl < 32)
  | _ => false

/-- Moves the words of a copy at an endpoint, in ascending address order, until it waits or ends; the count is of the
words left, and the last one closes the packet (R304). -/
def moveWords (s : State) (c part launch slot : Nat) (b : Word) (src dst : Option Leaf) (j : CopyJob) : Nat → CopyOut
  | 0 =>
    .done (match dst with
      | some l => wakeWindow s (windowBase l.loc)
      | none => s) 0 0
  | left + 1 =>
    match dst with
    | some l =>
      if windowDead s l.loc then .done s (causeCode .linkerr) b
      else if !windowRoom s l.loc then .wait s j
      else
        match takeWord s c src j with
        | none => .wait s j
        | some (x, s, j) =>
          let base := windowBase l.loc
          match putWindow s c slot (if left = 0 then base + 4096 else base) (b &&& ~~~0x1FFF#64) x with
          | .done _ s => moveWords s c part launch slot b src dst { j with moved := j.moved + 1 } left
          | _ => .wait s j
    | none =>
      match engCheck s c part launch (b + BitVec.ofNat 64 (8 * j.moved)) false true with
      | .ok loc =>
        match takeWord s c src j with
        | none => .wait s j
        | some (x, s, j) =>
          moveWords (storeAt s c loc 8 x.toNat) c part launch slot b src dst { j with moved := j.moved + 1 } left
      | x => outOf s j x

/-- A CPY with a window on one side or on both. It begins when the checks of both sides pass and no packet is open on its
send window; a source in memory is read when it begins (R304; DEDUCED, log 43). -/
def runWinCopy (s : State) (c part launch slot : Nat) (a b : Word) (n : Nat) (src dst : Option Leaf) (j : CopyJob) :
    CopyOut :=
  let w := n / 8
  let badSrc := match src with
    | some l => if endpointOk a b n a && windowUse true l then none else some (EngAcc.cause (causeCode .prot) a)
    | none => if endpointOk a b n b then sideBad s c part launch a w false else some (.cause (causeCode .prot) b)
  let badDst := match dst with
    | some l => if endpointOk a b n b && windowUse false l then none else some (EngAcc.cause (causeCode .prot) b)
    | none => if endpointOk a b n a then sideBad s c part launch b w true else some (.cause (causeCode .prot) a)
  if j.win.isSome then moveWords s c part launch slot b src dst j (w - j.moved)
  else
    match badSrc.orElse fun _ => badDst with
    | some x => outOf s j x
    | none =>
      match dst with
      | none => moveWords s c part launch slot b src dst j (w - j.moved)
      | some l =>
        if windowDead s l.loc then .done s (causeCode .linkerr) b
        else if !windowFree s l.loc then .wait s j
        else
          let (xs, s) := if src.isSome then ([], s) else readWords s c part launch a w
          moveWords s c part launch slot b src dst { j with win := some (windowBase l.loc), words := xs } w

/-- An operation's turn. -/
def runCopy (s : State) (c part launch slot : Nat) (j : CopyJob) : CopyOut :=
  match j.what with
  | .cpy a b x =>
    match endpointAt s c part launch a, endpointAt s c part launch b with
    | none, none => runMemCopy s c part launch j
    | src, dst => runWinCopy s c part launch slot a b (cpyLen x) src dst j
  | _ => runMemCopy s c part launch j

/-! ### Events of the engine (R292, R300, R301) -/

/-- The first operation that has not started starts. -/
def startCopy : List CopyJob → List CopyJob
  | [] => []
  | j :: r => if j.running then j :: startCopy r else { j with running := true } :: r

/-- COPY_OPERATION_START: in issue order, at most four at once (R292). -/
def execCopyOperationStart (c : Nat) (s : State) : Out :=
  let k := coreOf s c
  if 4 ≤ (k.copies.filter (·.running)).length then .next s
  else .next (setCore s c { k with copies := startCopy k.copies })

/-- Every earlier operation that conflicts with the job has finished: of the engine (R292), and of the job's group on the
array (R172). -/
def copyClear (k : Core) (before : List CopyJob) (j : CopyJob) : Bool :=
  let rs := copySlips j.what
  !(before.any fun x => rangesClash (copySlips x.what) rs)
    && !(k.slips.any fun y => y.slot == j.slot && decide (y.op < j.op) && rangesClash [(y.range, y.wr)] rs)

/-- The end of an operation: its slips drain, stores that waited for the window it held go on, and its STATUS goes into its record or into the group's pending copy error,
which keeps the first cause (R300, R301). -/
def endCopy (s : State) (c : Nat) (j : CopyJob) (status : BitVec 8) (va : Word) : State :=
  let k := coreOf s c
  let s := removeSlips (setCore s c { k with copies := k.copies.filter fun x => x.op != j.op }) c j.slot j.op
  let s := match j.win with
    | some b => wakeWindow s b
    | none => s
  let s :=
    if copyRec j.what then queueRecord s c j.slot 0 status.toNat (copyTag j.what)
    else if status = 0 then s
    else
      match groupAt s c j.slot with
      | some g => if g.copyErr.isNone then setGroup s c j.slot { g with copyErr := some (status, va) } else s
      | none => s
  slipsDrained s c

/-- Writes a job of the engine. -/
def setJob (s : State) (c : Nat) (j : CopyJob) : State :=
  let k := coreOf s c
  setCore s c { k with copies := k.copies.map fun x => if x.op = j.op then j else x }

/-- COPY_OPERATION_END: operation idx performs its accesses and ends, or reports an absent page and waits (R300). -/
def execCopyOperationEnd (c idx : Nat) (s : State) : Out :=
  let k := coreOf s c
  match k.copies[idx]? with
  | none => .next s
  | some j =>
    if !j.running || j.fault.isSome || !copyClear k (k.copies.take idx) j then .next s
    else
      match groupAt s c j.slot with
      | none => .next s
      | some g =>
        match runCopy s c g.part g.launch j.slot j with
        | .done s status va => .next (endCopy s c j status va)
        | .absent s j va => .next (report (setJob s c { j with fault := some va }) (.copyFault (cgid g) c j.op va))
        | .wait s j => .next (setJob s c j)

/-- Jalov writes page-table words at physical addresses, as events of the housekeeping path (R138, R162). -/
def writeEntries (s : State) (ws : List (Nat × Word)) : State :=
  ws.foldl (fun s w => agentStore s .house (w.1 / 8 * 8) 8 w.2.toNat) s

/-- Every word of a range that receives the future attribute is empty with data 0 (R153). -/
def emptyFutures (s : State) (lo n : Nat) : State :=
  { zeroRange s lo n with full := s.full.filter fun x => !(decide (lo ≤ x.1) && decide (x.1 < lo + n)) }

/-- The page of an address that has the future attribute: its bytes. -/
def futurePage (s : State) (part : Nat) (va : Nat) : Option (Nat × Nat) :=
  match walk s part (BitVec.ofNat 64 va) with
  | .leaf e => if e.mt = 1 then some (e.pa, pageBytes e.psz) else none
  | _ => none

/-- The entries of a table of 2^bits that are not all zero. -/
def tableEntries (s : State) (table bits : Nat) : List Nat :=
  ((s.mem.filter fun x => decide (table ≤ x.1) && decide (x.1 < table + 8 * 2 ^ bits)).map fun x =>
    (x.1 - table) / 8).eraseDups

/-- The lowest address of every page that the entries below a table map. -/
def mappedPages (s : State) (table va : Nat) : List (Nat × Nat × Option (BitVec 2)) → List Nat
  | [] => []
  | (sh, bits, _) :: rest => (tableEntries s table bits).flatMap fun i =>
      let e : Word := BitVec.ofNat 64 (memRead s (table + 8 * i) 8)
      if !e.getLsbD 0 then []
      else if e.getLsbD 2 then [va + i * 2 ^ sh]
      else mappedPages s (pteAddr e) (va + i * 2 ^ sh) rest

/-- Every page that has the future attribute in some partition. -/
def futurePages (s : State) : List (Nat × Nat) :=
  s.parts.flatMap fun p => (mappedPages s (pteAddr p.2.ptroot) 0 walkPlan).filterMap (futurePage s p.1)

/-- The pages of t with the future attribute that no future page of s covers. -/
def newFutures (s t : State) : List (Nat × Nat) :=
  (futurePages t).filter fun r => !((futurePages s).any fun o => decide (o.1 ≤ r.1) && decide (r.1 + r.2 ≤ o.1 + o.2))

/-- Jalov's stores have led from s to t: every page to which they give the future attribute is emptied (R153). -/
def emptyNew (s t : State) : State := (newFutures s t).foldl (fun t r => emptyFutures t r.1 r.2) t

/-- Jalov services a fault by writing entries (R138, R153). -/
def servicePage (s : State) (ws : List (Nat × Word)) : State := emptyNew s (writeEntries s ws)

/-- COPY_ACCESS_RETRY: the engine tries again, or the operation ends with PROT (R139, R300). -/
def execCopyAccessRetry (c idx : Nat) (fix : FaultFix) (s : State) : Out :=
  match (coreOf s c).copies[idx]? with
  | none => .next s
  | some j =>
    match j.fault with
    | none => .next s
    | some va =>
      match fix with
      | .entries ws => .next (setJob (servicePage s ws) c { j with fault := none })
      | .prot => .next (endCopy s c j (causeCode .prot) va)

end Sys2Proof.Machine
end

