-- ==== Sys2Proof/Machine/Runs.lean ====
section
/-! DEFINITION. Events of the cores that runs and memory words give rise to: the choice of a run (R28, R218, R219), results
(R56, R379), walks and shoot-downs (R130–R133), page faults (R138, R139), performed accesses (R165), logical time (R166,
R168), instruction fetches (R215) and completion records (R184). An event that is not enabled changes nothing (log 20). -/

namespace Sys2Proof.Machine

/-! ### GROUP_RUN_SELECT (R28, R218, R219) -/

/-- The group has a split that may issue. -/
def groupReady (s : State) (g : Group) : Bool := (nextSplit s.clock g).isSome

/-- After YIELD the group lets every other eligible group of its pipe run once (R226). -/
def yields (s : State) (k : Core) (slot : Nat) : Bool :=
  (tabGet [] k.yielded slot).any fun x =>
    match tabFind x k.slots with
    | some g => groupReady s g
    | none => false

/-- The group that lane pipe p takes next, in round-robin order after the one that ran last (R28). -/
def pickGroup (s : State) (k : Core) (p : Nat) : Option Nat :=
  let last := tabGet (Config.slots - 1) k.lastGrp p
  ((List.range Config.slots).map fun i => (last + 1 + i) % Config.slots).find? fun n =>
    match tabFind n k.slots with
    | some g => g.pipe == p && groupReady s g && !yields s k n
    | none => false

/-- Takes back the deferral entries of split n that stand at its place, topmost first; `fuel` bounds their number
(DEDUCED, log 33). -/
def absorb (n : Nat) : Nat → Group → Group
  | 0, g => g
  | fuel + 1, g =>
    match splitAt g n, topDefer g n with
    | some sp, some d =>
      if d.pc = sp.pc ∧ sp.word = 0 then
        absorb n fuel (setSplit { g with defers := popDefer n g.defers } n { sp with mask := sp.mask ||| d.mask })
      else g
    | _, _ => g

/-- The split waits to start a run (R219). -/
def atRunStart (sp : Split) : Bool :=
  !sp.running &&
    (match sp.wait with
    | none | some (.fetch _) => true
    | _ => false)

/-- Another split waits to start a run at the same place with an equal call stack. -/
def sameStart (g : Group) (n : Nat) (sp : Split) : Option Nat :=
  (g.splits.find? fun p => p.1 != n && atRunStart p.2 && p.2.pc == sp.pc && p.2.word == sp.word && p.2.stack == sp.stack).map
    (·.1)

/-- Merges into split n, or into a lower number, every split that waits to start the same run (R219). -/
def mergeStarts : Nat → Nat → Group → Group × Nat
  | 0, n, g => (g, n)
  | fuel + 1, n, g =>
    match splitAt g n with
    | none => (g, n)
    | some sp =>
      match sameStart g n sp with
      | none => (g, n)
      | some m => mergeStarts fuel (Nat.min n m) (mergeSplits g (Nat.min n m) (Nat.max n m))

/-- The start of a run (R25, R219): the merges, then an empty run. -/
def beginRun (g : Group) (n : Nat) : Group × Nat :=
  let g := absorb n g.defers.length g
  let (g, n) := mergeStarts 3 n g
  let g := absorb n g.defers.length g
  match splitAt g n with
  | some sp => (setSplit g n { sp with running := true, run := Run.start, wait := none }, n)
  | none => (g, n)

/-- The split goes on with its run, or starts one. -/
def takeRun (g : Group) (n : Nat) : Group × Nat :=
  match splitAt g n with
  | some sp => if sp.running then (g, n) else beginRun g n
  | none => (g, n)

/-- The group in a slot takes lane pipe p with its split n. -/
def takePipe (s : State) (c p slot n : Nat) : State :=
  match groupAt s c slot with
  | none => s
  | some g =>
    let (g, n) := takeRun g n
    let k := coreOf s c
    let ys := (tabErase slot k.yielded).map fun y => (y.1, y.2.filter (· != slot))
    let s := setCore s c
      { k with slots := tabPut slot { g with last := n } k.slots, running := tabPut p (slot, n) k.running,
               lastGrp := tabPut p slot k.lastGrp, yielded := ys }
    { s with turn := some ⟨c, slot, n⟩ }

/-- GROUP_RUN_SELECT. -/
def execGroupRunSelect (c p : Nat) (s : State) : Out :=
  let k := coreOf s c
  if s.turn.isSome || (tabFind p k.running).isSome then .next s
  else
    match pickGroup s k p with
    | none => .next s
    | some slot =>
      match tabFind slot k.slots with
      | none => .next s
      | some g =>
        match nextSplit s.clock g with
        | none => .next s
        | some n => .next (takePipe s c p slot n)

/-! ### Results (R28, R32, R56, R379) -/

/-- Writes the values of an outstanding result, unless a later write of the register has discarded it (R32); a v, g or p
register is written also where the split has been merged away or has ended (R28, R56). -/
def landResult (g : Group) (r : Result) : Group :=
  if r.dead then g
  else
    match splitAt g r.split with
    | some sp =>
      let (g, sp) := writeAll r.dst r.vals g sp
      setSplit g r.split sp
    | none =>
      match g.splits with
      | (_, sp) :: _ => (writeAll r.dst r.vals g sp).1
      | [] => g

/-- Words that wait for the group's results repeat their checks once none is outstanding (R351). -/
def resultsDone (s : State) (c slot : Nat) : State :=
  match groupAt s c slot with
  | some g => if g.results.isEmpty then wakeSplits s c slot fun w => w == .results else s
  | none => s

/-- VARIABLE_RESULT_WRITE of the group's result idx: also the late end of a division whose every thread a later word has
overwritten (R32). -/
def execVariableResultWrite (c slot idx : Nat) (s : State) : Out :=
  match groupAt s c slot with
  | none => .next s
  | some g =>
    match g.results[idx]? with
    | none => .next s
    | some r =>
      if r.src = .var || (r.src == .div && r.vals.isEmpty) then
        .next (resultsDone (setGroup s c slot (landResult { g with results := g.results.eraseIdx idx } r)) c slot)
      else .next s

/-- The divider's results of a lane pipe: slot, index among the group's results, thread. -/
def dividing (k : Core) (p : Nat) : List (Nat × Nat × Nat) :=
  (k.slots.filter fun x => x.2.pipe == p).flatMap fun x =>
    (List.range x.2.results.length).flatMap fun i =>
      match x.2.results[i]? with
      | some r => if r.src = .div then r.vals.map fun v => (x.1, i, v.1) else []
      | none => []

/-- Takes one thread's value out of a result. -/
def takeThread (g : Group) (i t : Nat) : Group :=
  match g.results[i]? with
  | none => g
  | some r =>
    let now := { r with vals := r.vals.filter fun v => v.1 == t }
    let rest := { r with vals := r.vals.filter fun v => v.1 != t }
    let rs := if rest.vals.isEmpty then g.results.eraseIdx i else g.results.set i rest
    landResult { g with results := rs } now

/-- DIVIDER_RESULT: the idx-th of the values that the lane pipe's divider holds (R56); their order is not fixed. -/
def execDividerResult (c p idx : Nat) (s : State) : Out :=
  match (dividing (coreOf s c) p)[idx]? with
  | none => .next s
  | some (slot, i, t) =>
    match groupAt s c slot with
    | none => .next s
    | some g => .next (resultsDone (setGroup s c slot (takeThread g i t)) c slot)

/-! ### Walks, TRB, shoot-downs (R130–R133) -/

/-- PAGE_WALK: walk idx of a core fills its TLB and its quad's; where G has advanced, the fill is discarded and the walk
begins again (R133). -/
def execPageWalk (c idx : Nat) (s : State) : Out :=
  let k := coreOf s c
  match k.walks[idx]? with
  | none => .next s
  | some w =>
    let s := setCore s c { k with walks := k.walks.eraseIdx idx }
    if w.g = (partOf s w.part).gen then
      let k := coreOf s c
      let q := quadOf s (c / 4)
      let s := setCore s c { k with tlb := tlbAdd 256 w.entry k.tlb }
      .next (setQuad s (c / 4) { q with tlb := tlbAdd 4096 w.entry q.tlb })
    else .next (noteWalk s c w.part ((BitVec.ofNat 57 w.entry.va).signExtend 64))

/-- TRB_COMPLETE: pending TRB idx of a group; where G has advanced, it translates again (R130, R133). -/
def execTrbComplete (c slot idx : Nat) (s : State) : Out :=
  match groupAt s c slot with
  | none => .next s
  | some g =>
    match g.trbs[idx]? with
    | none => .next s
    | some t =>
      let gen := (partOf s g.part).gen
      if t.g = gen then
        let g' := { g with trbs := g.trbs.eraseIdx idx, tregs := tabPut t.n.val (trbResult s c g t.n.val t.a) g.tregs }
        .next (wakeSplits (setGroup s c slot g') c slot fun w => w == .trb t.n.val)
      else .next (setGroup s c slot { g with trbs := g.trbs.set idx { t with g := gen } })

/-- A range of n bytes at a 57-bit address overlaps the shoot-down range of a partition (R346). -/
def shotDown (p : Part) (va n : Nat) : Bool :=
  let a := ((BitVec.ofNat 57 va).signExtend 64).toNat
  p.sdlen == 0 || (decide (a < p.sdbase.toNat + p.sdlen.toNat) && decide (p.sdbase.toNat < a + n))

/-- A TLB without the entries of a partition that overlap its shoot-down range. -/
def shootTlb (p : Part) (n : Nat) (t : List TlbEntry) : List TlbEntry :=
  t.filter fun e => !(e.part == n && shotDown p e.va (pageBytes e.psz))

/-- A translation register loses V if its base page overlaps the range; it keeps its other fields. -/
def shootReg (p : Part) (t : TReg) : TReg :=
  let size := pageBytes t.psz
  if t.v && t.psz != 3 && shotDown p (t.base.toNat / size * size) size then { t with v := false } else t

/-- A group without such registers. -/
def shootGroup (p : Part) (g : Group) : Group := { g with tregs := g.tregs.map fun t => (t.1, shootReg p t.2) }

/-- The groups of a partition on a core lose such registers. -/
def shootGroups (p : Part) (n : Nat) (k : Core) : Core :=
  { k with
    tlb := shootTlb p n k.tlb
    slots := k.slots.map fun x => if x.2.part = n then (x.1, shootGroup p x.2) else x }

/-- So do the groups of a launch whose teams are saved (R128, R333). -/
def shootSaved (p : Part) (n : Nat) (l : Launch) : Launch :=
  if l.part = n then
    { l with records := l.records.map fun r =>
        { r with groups := r.groups.map fun x => { x with grp := shootGroup p x.grp } } }
  else l

/-- A shoot-down of the partition's range (R133, steps 1 and 3); ignored while another is in progress (R346). -/
def shootPart (s : State) (n : Nat) : State :=
  let p := partOf s n
  if !p.ack then s
  else
    { setPart s n { p with gen := p.gen + 1, ack := false } with
      cores := s.cores.map fun c => (c.1, shootGroups p n c.2)
      launches := s.launches.map fun l => (l.1, shootSaved p n l.2)
      quads := s.quads.map fun q => (q.1, { q.2 with tlb := shootTlb p n q.2.tlb }) }

/-- SHOOT_DOWN: a write of SDCTL.GO (R133, R346). -/
def execShootDown (n : Nat) (s : State) : Out := .next (shootPart s n)

/-- A group of the partition has an access of the old translations to perform: its own, or a tender's held store. -/
def oldAccess (g : Group) : Bool :=
  !g.pend.isEmpty ||
    (match g.isTender with
    | some td => !td.hold.isEmpty
    | none => false)

/-- What the acknowledgement of a core waits for (R133, step 4). -/
def shotClear (gen : BitVec 32) (n : Nat) (k : Core) : Bool :=
  k.walks.all (fun w => w.part != n || w.g == gen)
    && k.slots.all fun x => x.2.part != n || (x.2.trbs.all (fun t => t.g == gen) && !oldAccess x.2)

/-- SHOOT_DOWN_ACK (R133, step 4). -/
def execShootDownAck (n : Nat) (s : State) : Out :=
  let p := partOf s n
  if p.ack || !(s.cores.all fun c => shotClear p.gen n c.2) then .next s
  else .next (setPart s n { p with ack := true })

/-! ### Faults, accesses, fetches, records -/

/-- PAGE_FAULT_RESUME (R138, R139): the split replays its word, or takes PROT at it. -/
def execPageFaultResume (c slot split : Nat) (fix : FaultFix) (s : State) : Out :=
  match groupAt s c slot with
  | none => .next s
  | some g =>
    match splitAt g split with
    | none => .next s
    | some sp =>
      match sp.wait, fix with
      | some (.fault _ _ false), .entries ws =>
        .next (servicePage (setGroup s c slot (setSplit g split { sp with wait := none })) ws)
      | some (.fault va k false), .prot =>
        .next (setGroup s c slot (setSplit g split { sp with wait := some (.fault va k true) }))
      | _, _ => .next s

/-- ACCESS_PERFORMED: the oldest access that the group has issued is performed (R165). -/
def execAccessPerformed (c slot : Nat) (s : State) : Out :=
  match groupAt s c slot with
  | none => .next s
  | some g =>
    match g.pend with
    | [] => .next s
    | a :: r =>
      let s := performPend (setGroup s c slot { g with pend := r }) c a
      .next (if r.isEmpty then wakeSplits s c slot (fun w =>
          match w with
          | .performed _ => true
          | _ => false) else s)

/-- A block enters the instruction cache of 682 blocks; a full one drops the block that entered first (R10; DESIGN CHOICE,
log 10). -/
def icacheAdd (block : Nat) (t : Tab Bool) : Tab Bool :=
  let left := t.filter fun x => x.1 != block
  left.drop (left.length - 681) ++ [(block, true)]

/-- INSTRUCTION_FETCH of a fetch block that a core waits for (R215). -/
def execInstructionFetch (c block : Nat) (s : State) : Out :=
  let k := coreOf s c
  if k.icmiss.contains block then
    let s := setCore s c { k with icmiss := k.icmiss.filter (· != block), icache := icacheAdd block k.icache }
    .next (wakeCore s c fun w => w == .fetch block)
  else .next s

/-- COMPLETION_RECORD_POST (R184). -/
def execCompletionRecordPost (c : Nat) (s : State) : Out := .next (postRecord s c)

/-! ### Logical time (R166, R168) -/

/-- LOGICAL_TIME_TICK: the clock runs on to the next multiple of 16 (R166). -/
def execLogicalTimeTick (s : State) : Out := .next (advance s (16 - s.clock.toNat % 16) none)

/-- Some logical time of the package has reached 2^47. -/
def timeHigh (s : State) : Bool :=
  let top := s.cores.foldl (fun t c => Nat.max t c.2.tc) (Nat.max s.hostTime s.hkTime)
  decide (2 ^ 47 ≤ s.tick + s.feTime.foldl (fun t f => Nat.max t f.2) top)

/-- REBASE: new accesses are held at every core (R168, step 1). -/
def execRebase (s : State) : Out := if timeHigh s && !s.held then .next { s with held := true } else .next s

/-- Every access in flight is performed. -/
def nothingPending (s : State) : Bool := s.cores.all fun c => c.2.slots.all fun x => x.2.pend.isEmpty

/-- Ends the waits for a rebase of every core. -/
def wakeRebase (s : State) : State := s.cores.foldl (fun s c => wakeCore s c.1 fun w => w == .rebase) s

/-- A tracked line or row after the rebase: its version is the line's own, now 0, if no write has come since the load. -/
def rebaseTracked (s : State) (t : Tracked) : Tracked :=
  { t with w := if (tabGet (0, 0) s.lines t.loc).1 = t.w then 0 else 2 ^ 64 }

/-- A group whose tender's table follows the rebase (R175, R233). -/
def rebaseGroup (s : State) (g : Group) : Group :=
  { g with isTender := g.isTender.map fun td => { td with tracked := td.tracked.map (rebaseTracked s) } }

/-- REBASE_RELEASE (R168, steps 2 to 5): every recorded logical time is 0 too, that of arrivals of open barrier generations and of
saved teams (DEDUCED, log 46). -/
def execRebaseRelease (s : State) : Out :=
  if !s.held || !nothingPending s then .next s
  else
    .next (wakeRebase { s with
      held := false, tick := 0, hostTime := 0, hkTime := 0, feTime := [], lines := []
      cores := s.cores.map fun c =>
        (c.1, { c.2 with tc := 0, l1 := [], slots := c.2.slots.map fun x => (x.1, rebaseGroup s x.2) })
      barriers := s.barriers.map fun b => (b.1, { b.2 with arrivals := b.2.arrivals.map fun a => { a with tc := 0 } })
      launches := s.launches.map fun l =>
        (l.1, { l.2 with records := l.2.records.map fun r => { r with time := 0 } }) })

end Sys2Proof.Machine
end

