-- ==== Sys2Proof/Machine/Tenders.lean ====
section
/-! DEFINITION. The validation of a tender at a forked RET (R175, R224, R233, R234, R237). -/

namespace Sys2Proof.Machine

/-- Every split of the group waits at the RET of one forked entry, whose fork slot and return PC are given, and every
memory word and result of the group is done (R224). The prediction that FCALL computed comes with them. -/
def retMeeting (g : Group) : Option (Nat × Word × Word × Word) :=
  match g.splits with
  | [] => none
  | (_, sp) :: _ =>
    match sp.stack with
    | { ret := ret, kind := .forked f base stride } :: _ =>
      if !g.stopped && g.isTender.isNone && g.pend.isEmpty && g.results.isEmpty
          && g.splits.all (fun p => p.2.wait == some .ret && p.2.await.isEmpty && atFork f p.2) then some (f, ret, base, stride)
      else none
    | _ => none

/-- The active threads of all splits. -/
def splitMask (g : Group) : Mask := g.splits.foldl (fun m p => m ||| p.2.mask) 0

/-- v0 of a thread, as the group's words have left it. -/
def v0Of (g : Group) (t : Nat) : Word := tabGet 0 g.vregs t

/-- An undrained written slip of the callee overlaps the tracked line or row (R172, R233, condition 3). -/
def slipOnTracked (t : Tracked) (y : Slip) : Bool :=
  y.wr &&
    (match y.range with
    | .mem lo hi => decide (t.loc < Config.scratchKey) && sharesUnit 128 (128 * t.va) (128 * t.va + 128) lo hi
    | .scr lo hi => decide (Config.scratchKey ≤ t.loc) && sharesUnit 64 (16 * t.va) (16 * t.va + 16) lo hi
    | _ => false)

/-- The callee has written the tracked line or row since the fork (condition 3; DEDUCED, log 42). -/
def writtenSince (g : Group) (td : Tender) (t : Tracked) : Bool := g.wrote.contains (td.fork, t.loc)

/-- A tracked line is still held at its version with a lease to the commit time; a tracked row has its W (conditions 4
and 5). -/
def trackedOk (s : State) (k : Core) (now : Nat) (t : Tracked) : Bool :=
  if t.loc < Config.scratchKey then
    match tabFind t.loc k.l1 with
    | some x => x.w == t.w && decide (now ≤ x.e)
    | none => false
  else (tabGet (0, 0) s.lines t.loc).1 == t.w

/-- The conditions of R233. -/
def tenderHolds (s : State) (c slot : Nat) (g : Group) (td : Tender) : Bool :=
  let k := coreOf s c
  let u := splitMask g
  td.mask &&& ~~~u == 0
    && (u.threads.all fun t => v0Of g t == predVal td.base td.stride t)
    && !(td.tracked.any (writtenSince g td))
    && !(k.slips.any fun y => y.slot == slot && td.tracked.any fun t => slipOnTracked t y)
    && td.tracked.all (trackedOk s k (coreTime s c))

/-! ### The commit's accesses in program order (R175, R234) -/

/-- W of a line or row by its key. -/
def keyW (s : State) (key : Nat) : Nat := (tabGet (0, 0) s.lines key).1

/-- The loads of scratchpad rows that come after j held stores take their place (R165, R234, step 1); those of memory lines have
theirs within their leases. -/
def placeLoads (s : State) (now j : Nat) (ts : List Tracked) : State :=
  ts.foldl (fun s t =>
    if t.loc < Config.scratchKey ∨ t.first ≠ j then s
    else
      let x := tabGet (0, 0) s.lines t.loc
      { s with lines := tabSet (0, 0) s.lines t.loc (x.1, Nat.max x.2 now) }) s

/-- A number that is no W. -/
def noVersion : Nat := 2 ^ 64

/-- The tracked lines and rows after a held store: one that the store wrote has its W, if no other write has come between
(R165). -/
def restamp (s s' : State) (a : PendAcc) (ts : List Tracked) : List Tracked :=
  let keys := (pieces a.loc a.n).flatMap fun p => (rowsOf p.1 p.2).map lineKey
  ts.map fun t =>
    if keys.contains t.loc then { t with w := if keyW s t.loc = t.w then keyW s' t.loc else noVersion } else t

/-- The last load of a line or row after j held stores still reads the version that the tender read (R170, R175): from the core's
L1, or renewed at the home. -/
def reload (s : State) (c part : Nat) (t : Tracked) : Option State :=
  let now := coreTime s c
  if Config.scratchKey ≤ t.loc then
    if keyW s t.loc = t.w then
      let x := tabGet (0, 0) s.lines t.loc
      some { s with lines := tabSet (0, 0) s.lines t.loc (x.1, Nat.max x.2 now) }
    else none
  else
    match tabFind t.loc (coreOf s c).l1 with
    | some x =>
      if x.w = t.w ∧ now ≤ x.e then some s
      else if keyW s t.loc = t.w then some (loadHome s c part (128 * t.loc) 1).2 else none
    | none => if keyW s t.loc = t.w then some (loadHome s c part (128 * t.loc) 1).2 else none

/-- The last loads that come after j held stores. -/
def reloads (s : State) (c part j : Nat) : List Tracked → Option State
  | [] => some s
  | t :: r =>
    if t.last = j then
      match reload s c part t with
      | some s => reloads s c part j r
      | none => none
    else reloads s c part j r

/-- Performs the held stores in program order from the commit time on, each followed by the loads between it and the next one;
`none` where such a load would no longer return what the tender read (R170, R175, R234). -/
def commitHold (s : State) (c part j : Nat) (ts : List Tracked) : List PendAcc → Option State
  | [] => some s
  | a :: r =>
    let s' := performPend s c a
    let ts := restamp s s' a ts
    match reloads (placeLoads s' (coreTime s' c) (j + 1) ts) c part (j + 1) ts with
    | some s'' => commitHold s'' c part (j + 1) ts r
    | none => none

/-- The commit's accesses: its loads at the commit time, then its stores with the loads among them (R234, steps 1 and 2). -/
def commitAccesses (s : State) (c part : Nat) (td : Tender) : Option State :=
  commitHold (placeLoads s (coreTime s c) 0 td.tracked) c part 0 td.tracked td.hold

/-- The v registers after a commit: the tender's, and the callee's at or above n where the tender has not written
(R234, step 3). -/
def commitRegs (td : Tender) (tender callee : Tab Word) : Tab Word :=
  let high := fun k : Nat => decide (32 * td.n ≤ k) && !(tabGet false td.written k)
  (callee.filter fun x => high x.1).foldl (fun v x => tabPut x.1 x.2 v) (tender.filter fun x => !high x.1)

/-- Adds two counter banks. -/
def addBanks (a b : Tab Word) : Tab Word := b.foldl (fun t x => tabSet 0 t x.1 (tabGet 0 t x.1 + x.2)) a

/-- Ends the waits of a tender's splits: they issue the words at which they stalled (R232). -/
def unstall (sps : Tab Split) : Tab Split :=
  sps.map fun p => if p.2.wait == some .tender then (p.1, { p.2 with wait := none }) else p

/-- What the group has written since the forks that are left, its held stores among it (R233, R237). -/
def writtenBy (k : Core) (slot : Nat) (g : Group) (td : Tender) : List (Nat × Nat) :=
  let keys := td.hold.flatMap fun a => (pieces a.loc a.n).flatMap fun p => (rowsOf p.1 p.2).map lineKey
  (noteWrites k slot keys g).wrote.filter fun w => w.1 != td.fork

/-- The group that goes on as the tender (R234, steps 3 to 5). -/
def committed (clock : Word) (wrote : List (Nat × Nat)) (g t : Group) (td : Tender) : Group :=
  { t with
    isTender := none, gnum := g.gnum, vregs := commitRegs td t.vregs g.vregs, fstat := g.fstat ||| (t.fstat &&& 0x1F#13)
    trrec := g.trrec, gdbg := g.gdbg, splits := unstall t.splits, hold := clock.toNat + 8 + (g.valloc - td.n)
    fmt := g.fmt, engFlags := g.engFlags, infeas := g.infeas, copyErr := g.copyErr, arrived := g.arrived, acks := g.acks
    redl := g.redl, wrote := wrote, stalls := addBanks g.stalls t.stalls, gissue := g.gissue + t.gissue, gwords := g.gwords + t.gwords
    tstart := g.tstart }

/-- Everything of a core that names group slot a names slot b instead. -/
def renameSlot (k : Core) (a b : Nat) : Core :=
  let ren := fun n : Nat => if n = a then b else n
  { k with
    slots := k.slots.map fun x =>
      match x.2.isTender with
      | some td => (x.1, { x.2 with isTender := some { td with caller := ren td.caller } })
      | none => x
    slips := k.slips.map fun y => { y with slot := ren y.slot }
    events := k.events.map fun e => { e with slot := ren e.slot }
    waiting := k.waiting.map fun e => { e with slot := ren e.slot }
    copies := k.copies.map fun j => { j with slot := ren j.slot }
    self := k.self.map fun j => { j with slot := ren j.slot }
    array := { k.array with
      jobs := k.array.jobs.map fun j => { j with slot := ren j.slot }
      mmt := k.array.mmt.map fun j => { j with slot := ren j.slot } } }

/-- TENDER_COMMIT (R234), after its accesses: the callee's slot `slot` is freed, and the group goes on in slot `ts`. -/
def commitTender (s : State) (c slot ts : Nat) (td : Tender) : State :=
  match groupAt s c slot, groupAt s c ts with
  | some g, some t =>
    let wrote := writtenBy (coreOf s c) slot g td
    let k := releasePipe (renameSlot (coreOf s c) slot ts) ts
    let s := setCore s c
      { k with slots := tabPut ts (committed s.clock wrote g t td) (tabErase slot k.slots), forks := tabErase td.fork k.forks
               vgran := k.vgran - g.valloc / 8 }
    { s with turn := match s.turn with
        | some pl => if pl.core == c && (pl.slot == ts || pl.slot == slot) then none else some pl
        | none => none }
  | _, _ => s

/-- The group goes on at the return PC (R234). -/
def squashTo (s : State) (c slot : Nat) (ret : Word) : State :=
  match groupAt s c slot with
  | none => s
  | some g =>
    setGroup s c slot { g with
      hold := s.clock.toNat + 8
      splits := g.splits.map fun p => (p.1, freshSplit { p.2 with stack := p.2.stack.drop 1 } ret p.2.mask) }

/-- The tender of a fork slot that belongs to the group in a slot. -/
def tenderOf (k : Core) (slot f : Nat) : Option (Nat × Tender) :=
  match tabFind f k.forks with
  | none => none
  | some ts =>
    match tabFind ts k.slots with
    | none => none
    | some t =>
      match t.isTender with
      | some td => if td.caller = slot then some (ts, td) else none
      | none => none

/-- The RETs of a group issue: its words and cycles, and the training of the predictor on the prediction that FCALL
computed (R240, R241, R351). -/
def retIssued (s : State) (c slot : Nat) (g : Group) (ret base stride : Word) : State :=
  let n := g.splits.length
  let s := (List.range n).foldl (fun s _ => countWord s c g.part) s
  let s := setGroup s c slot { g with gwords := g.gwords + BitVec.ofNat 64 n }
  let s := advance s (waitedOcc g) (some ⟨c, slot, 0⟩)
  trainAt s c (ret - 1) (some (base, stride)) ((splitMask g).threads.map fun t => (t, v0Of g t))

/-- The STEP trap of a group whose forked RET is complete (R361). -/
def stepRet (s : State) (c slot : Nat) : State :=
  match groupAt s c slot with
  | some g =>
    match g.splits with
    | (n, _) :: _ => if g.gdbg.getLsbD 0 then trap s ⟨c, slot, n⟩ .step else s
    | [] => s
  | none => s

/-- TENDER_VALIDATION of the group in a slot: commit, or squash, where no tender is left (R222) too
(DEDUCED, log 42). -/
def execTenderValidation (c slot : Nat) (s : State) : Out :=
  match groupAt s c slot with
  | none => .next s
  | some g =>
    match retMeeting g with
    | none => .next s
    | some (f, ret, base, stride) =>
      let s := retIssued s c slot g ret base stride
      match tenderOf (coreOf s c) slot f with
      | none => .next (stepRet (squashTo s c slot ret) c slot)
      | some (ts, td) =>
        match (if tenderHolds s c slot g td then commitAccesses s c g.part td else none) with
        | some s => .next (stepRet (commitTender s c slot ts td) c ts)
        | none =>
          let s := { setCore s c (dropTender (coreOf s c) ts) with
            turn := match s.turn with
              | some pl => if pl.core == c && pl.slot == ts then none else some pl
              | none => none }
          .next (stepRet (squashTo s c slot ret) c slot)

end Sys2Proof.Machine
end

