-- ==== Sys2Proof/Machine/Phases.lean ====
section
/-! DEFINITION. The saving of teams: phase boundaries (R331, R332), spills (R333) and the forced stop of an MMT (R265). -/

namespace Sys2Proof.Machine

/-- The core that a team is resident on. -/
def teamCore (s : State) (launch team : Nat) : Option Nat :=
  (s.cores.find? fun c => !(teamSlots c.2 launch team).isEmpty).map (·.1)

/-- The groups of a team that are no tenders, with their slots. -/
def teamGroups (k : Core) (launch team : Nat) : List (Nat × Group) :=
  (teamSlots k launch team).filter fun x => x.2.isTender.isNone

/-- A slip of the team has not drained. -/
def teamSlipped (k : Core) (launch team : Nat) : Bool :=
  (teamSlots k launch team).any fun x => k.slips.any fun y => y.slot == x.1

/-! ### The memory of a phase record (R332) -/

/-- SP for c carried registers. -/
def recSpan (l : Launch) : Nat := 4096 + l.groups * (2048 + 256 * carried l)

/-- The address of a team's record. -/
def recBase (l : Launch) (team : Nat) : Word := l.phaseA + BitVec.ofNat 64 (team * recSpan l)

/-- The pieces of n bytes from an address on, as far as they are mapped: location and length, none across a 4 KiB boundary;
`fuel` bounds their number. -/
def recPieces (s : State) (part : Nat) : Nat → Word → Nat → List (Nat × Nat)
  | 0, _, _ => []
  | fuel + 1, a, n =>
    if n = 0 then []
    else
      let k := Nat.min n (4096 - a.toNat % 4096)
      (match vaPlain s part a false with
        | .ok loc _ => [(loc, k)]
        | _ => []) ++ recPieces s part fuel (a + BitVec.ofNat 64 k) (n - k)

/-- The pieces of a team's record. -/
def recOf (s : State) (l : Launch) (team : Nat) : List (Nat × Nat) :=
  if l.phaseA = 0 then [] else recPieces s l.part (recSpan l) (recBase l team) (recSpan l)

/-- The bytes of the pieces. -/
def recImage (s : State) (ps : List (Nat × Nat)) : Tab Byte :=
  ps.flatMap fun p => s.mem.filter fun c => decide (p.1 ≤ c.1) && decide (c.1 < p.1 + p.2)

/-- The Pyrod writes a record of its own layout: its words are free values (R332, log 23). -/
def recFill (s : State) (c : Nat) (l : Launch) (team : Nat) : State :=
  if l.phaseA = 0 then s
  else
    (List.range (recSpan l / 8)).foldl (fun t i =>
      match vaWrite t (.core c) l.part (recBase l team + BitVec.ofNat 64 (8 * i)) 8 (Config.recordWord s.free i).toNat with
      | .ok t => t
      | _ => t) { s with free := s.free + 1 }

/-- The CRC of a team's record fails (R332): its memory has been written since the save, or holds data with an
uncorrectable error. -/
def recBroken (s : State) (l : Launch) (r : TeamRec) : Bool :=
  let ps := recOf s l r.team
  recImage s ps != r.image || ps.any fun p => (List.range (p.2 / 128 + 2)).any fun i =>
    isPoisoned s (p.1 + Nat.min (128 * i) (p.2 - 1))

/-! ### Saving -/

/-- A split at a phase boundary: its place and its run word count (R331). -/
def phaseSplit (sp : Split) : Split := { sp.done with run := { Run.start with words := sp.run.words } }

/-- The results that are not a REDL's are written before the save. -/
def landAll (keep : Result → Bool) (g : Group) : Group :=
  let g' := (g.results.filter fun r => !keep r).foldl landResult g
  { g' with results := g.results.filter keep }

/-- What a phase boundary keeps of a group (R331, R244, R272). -/
def phaseGroup (carry : Word) (g : Group) : Group :=
  let g := landAll (·.redl) g
  let m := liveMask g
  { g with
    vregs := g.vregs.filter fun x => carry.getLsbD (x.1 / 32) && m.getLsbD (x.1 % 32)
    tregs := [], trbs := [], fmt := none, engFlags := 0, infeas := false, origin := .phase, started := false, hold := 0, saveAt := 0
    splits := g.splits.map fun p => (p.1, phaseSplit p.2) }

/-- The split repeats its word's checks when the team is placed again; one that has passed a phase boundary waits on. -/
def wholeSplit (sp : Split) : Split := if sp.wait == some .phase then sp else { sp with wait := none }

/-- The group's pending TRBs complete (R130). -/
def endTrbs (s : State) (c : Nat) (g : Group) : Group :=
  { g with trbs := [], tregs := g.trbs.foldl (fun t x => tabPut x.n.val (trbResult s c g x.n.val x.a) t) g.tregs }

/-- What a whole save keeps of a group: everything (R128, R333). -/
def wholeGroup (s : State) (c : Nat) (g : Group) : Group :=
  let g := landAll (fun _ => false) (endTrbs s c g)
  { g with origin := if g.started then .whole else g.origin, started := false, hold := 0, splits := g.splits.map fun p => (p.1, wholeSplit p.2) }

/-- The completion records of a group, in the order of their posts. -/
def wordsOf (k : Core) (slot : Nat) : List Word :=
  ((k.events ++ k.waiting).filter fun e => e.slot == slot).map (·.word)

/-- The groups of a team as a record holds them, in ascending order (R328). -/
def saveGroups (s : State) (c : Nat) (l : Launch) (launch team : Nat) (whole : Bool) : List GroupRec :=
  let gs := teamGroups (coreOf s c) launch team
  ((List.range l.groups).filterMap fun n => gs.find? fun x => x.2.gnum == n).map fun x =>
    { gnum := x.2.gnum, grp := if whole then wholeGroup s c x.2 else phaseGroup l.carry x.2
      recs := if whole then wordsOf (coreOf s c) x.1 else [], at' := s.clock }

/-- The lowest granule of a team. -/
def firstGranule (k : Core) (launch team : Nat) : Nat :=
  match k.granules.find? fun x => x.2 == (launch, team) with
  | some x => x.1
  | none => 0

/-- The scratchpad bytes of a team, by offset in its allocation. -/
def saveScratch (s : State) (c launch team : Nat) : Tab Byte :=
  let k := coreOf s c
  let lo := Config.scratchKey + 2 ^ 20 * c + 4096 * firstGranule k launch team
  let n := 4096 * (k.granules.filter fun x => x.2 == (launch, team)).length
  (s.mem.filter fun x => decide (lo ≤ x.1) && decide (x.1 < lo + n)).map fun x => (x.1 - lo, x.2)

/-- The record of a team on core c. -/
def saveTeam (s : State) (c launch team : Nat) (l : Launch) (whole : Bool) (array : Option MArray) : TeamRec :=
  { team := team, whole := whole, time := coreTime s c, groups := saveGroups s c l launch team whole
    array := array, scr := if whole then saveScratch s c launch team else []
    base := firstGranule (coreOf s c) launch team, image := recImage s (recOf s l team) }

/-- Puts a team into its stream's queue, at the front or at the back (R331, R333). -/
def queueTeam (s : State) (l : Launch) (launch team : Nat) (front : Bool) : State :=
  let q : StreamId := ⟨l.part, l.stream⟩
  let x := streamOf s q
  setStream s q { x with teams := if front then { launch := launch, first := team, n := 1 } :: x.teams
                             else x.teams ++ [{ launch := launch, first := team, n := 1 }] }

/-- Saves a team, frees its resources and queues it (DEDUCED, log 51). -/
def parkTeam (s : State) (c launch team : Nat) (l : Launch) (whole front : Bool) (array : Option MArray) : State :=
  let s := recFill s c l team
  let r := saveTeam s c launch team l whole array
  let s := setLaunch s launch { l with records := l.records.filter (fun x => x.team != team) ++ [r] }
  queueTeam (freeTeam s c launch team) l launch team front

/-! ### The events -/

/-- Every split of the group waits at a phase boundary, or the group has no thread left. -/
def atPhase (g : Group) : Bool := g.splits.all fun p => p.2.wait == some .phase

/-- The saving of a team begins (R331): it takes 64 + 32 c cycles. -/
def beginSave (s : State) (c : Nat) (l : Launch) (gs : List (Nat × Group)) : State :=
  gs.foldl (fun s x => setGroup s c x.1 { x.2 with saveAt := s.clock.toNat + 64 + 32 * carried l }) s

/-- PHASE_BOUNDARY (R331): every live group of the team has passed the barrier, and every slip of it has drained. The first
such event begins the saving, and one at its end frees and queues the team. -/
def execPhaseBoundary (launch team : Nat) (s : State) : Out :=
  match launchOf s launch, teamCore s launch team with
  | some l, some c =>
    let k := coreOf s c
    let gs := teamGroups k launch team
    if gs.any (fun x => liveMask x.2 != 0) && gs.all (fun x => atPhase x.2 && !x.2.stopped && x.2.pend.isEmpty)
        && !teamSlipped k launch team then
      if gs.all fun x => x.2.saveAt == 0 then .next (beginSave s c l gs)
      else if gs.all fun x => decide (x.2.saveAt ≤ s.clock.toNat) then .next (parkTeam s c launch team l false true none)
      else .next s
    else .next s
  | _, _ => .next s

/-- The team holds the array claim. -/
def teamClaims (k : Core) (launch team : Nat) : Bool := k.array.claim == some (launch, team)

/-- TEAM_SPILL (R190, R333): once STARVE has been raised, a phased team whose groups are all stalled and that holds no array claim. -/
def execTeamSpill (launch team : Nat) (s : State) : Out :=
  match launchOf s launch, teamCore s launch team with
  | some l, some c =>
    if l.phased && (partOf s l.part).starving && partStarved s l.part && !teamClaims (coreOf s c) launch team then
      .next (parkTeam s c launch team l true false none)
    else .next s
  | _, _ => .next s

/-- No split of the team stands inside a bundle, and nothing of the team is in flight but its MMT's slips. -/
def stoppable (k : Core) (turn : Option Place) (c launch team op : Nat) : Bool :=
  let mine := teamSlots k launch team
  (match turn with
    | some pl => pl.core != c || !(mine.any fun x => x.1 == pl.slot)
    | none => true)
    && mine.all fun x => x.2.pend.isEmpty && !(k.slips.any fun y => y.slot == x.1 && y.op != op)

/-- MMT_FORCED_STOP at a step boundary (R265): the array holds no operation, and the steps fed are complete. -/
def execMmtForcedStop (c : Nat) (s : State) : Out :=
  let k := coreOf s c
  match k.array.mmt with
  | none => .next s
  | some r =>
    match groupAt s c r.slot with
    | none => .next s
    | some g =>
      match launchOf s g.launch with
      | none => .next s
      | some l =>
        if k.array.jobs.isEmpty && r.fed < mmtSteps (mmtDesc r.ds) && stoppable k s.turn c g.launch g.team r.op then
          let s := (teamGroups k g.launch g.team).foldl (fun s x => squashTenders s c x.1) s
          let m := { k.array with mmt := some { r with slot := g.gnum } }
          let k := coreOf s c
          let s := setCore s c
            { k with slips := k.slips.filter fun y => y.op != r.op, array := { k.array with mmt := none } }
          .next (parkTeam s c g.launch g.team l true true (some m))
        else .next s

end Sys2Proof.Machine
end

