-- ==== Sys2Proof/Machine/Streams.lean ====
section
/-! DEFINITION. Launch streams (R311–R322, R340): the registers' writes, the window of fetched packets, and every packet but
LAUNCH. An event whose packet is not the one that its stream executes next changes nothing (log 20). -/

namespace Sys2Proof.Machine

/-! ### Stopping and starting a stream (R312, R314) -/

/-- The stop codes of SQERR (R311). -/
inductive StopCode where
  | badpkt | fault | overrun | badcfg
deriving DecidableEq, Repr

/-- Their numbers. -/
def StopCode.num : StopCode → BitVec 4
  | .badpkt => 1
  | .fault => 2
  | .overrun => 3
  | .badcfg => 4

/-- Stops a stream with a code and an address; HEAD stays (R314). Jalov is told. -/
def stopStream (s : State) (q : StreamId) (c : StopCode) (va : Word) : State :=
  let x := streamOf s q
  report (setStream s q { x with en := false, errCode := c.num, errVa := va, wait := none }) (.stream q.part q.num)

/-- N. -/
def Stream.size (x : Stream) : Nat := 2 ^ x.log2n

/-- The address of ring packet i. -/
def Stream.at (x : Stream) (i : BitVec 32) : Word := x.base + BitVec.ofNat 64 (64 * (i.toNat % x.size))

/-- Packets between two indices, modulo 2^32. -/
def ringDist (a b : BitVec 32) : Nat := (b - a).toNat

/-- OVERRUN stops an enabled stream whose TAIL is more than N ahead of HEAD (R312). -/
def checkOverrun (s : State) (q : StreamId) : State :=
  let x := streamOf s q
  if x.en && decide (x.size < ringDist x.head x.tail) then stopStream s q .overrun (x.at x.head) else s

/-- A quad of the partition lies on the die. -/
def hasQuad (s : State) (part d : Nat) : Bool := s.quads.any fun x => x.1 / 32 == d && x.2.owner == some part

/-- The stream goes on as `x`; where HEAD has moved past TAIL it stops (R312). -/
def moveOn (s : State) (q : StreamId) (x : Stream) : State := checkOverrun (setStream s q x) q

/-- The configuration passes the checks of R312. -/
def configOk (s : State) (part : Nat) (x : Stream) : Bool :=
  decide (4 ≤ x.log2n) && decide (x.log2n ≤ 20) && x.base.toNat % (64 * x.size) == 0 && hasQuad s part x.die

/-- A stream that starts at HEAD without a fetched copy (R314). -/
def Stream.restart (x : Stream) : Stream :=
  { x with en := true, errCode := 0, errVa := 0, window := [], fring := x.head, fbufs := [], xbufs := [], loop := none
           skip := 0, wait := none }

/-- A write of SQCTL (R312, R314). -/
def writeSqctl (s : State) (q : StreamId) (x : Word) : State :=
  let st := { streamOf s q with die := (x.extractLsb' 12 3).toNat, log2n := (x.extractLsb' 0 5).toNat }
  if !x.getLsbD 15 then setStream s q { st with en := false, wait := none }
  else if configOk s q.part st then checkOverrun (setStream s q st.restart) q
  else stopStream (setStream s q st) q .badcfg 0

/-- The stream exists (R311). -/
def isStream (q : StreamId) : Bool := decide (q.part < Config.parts) && decide (q.num < 16)

/-- SQCTL_WRITE; nothing but DOE requests is answered before the package is ready (R363). -/
def execSqctlWrite (q : StreamId) (x : Word) (s : State) : Out := .next (if isStream q && s.ready then writeSqctl s q x else s)

/-- A write of SQTAIL (R312). -/
def writeSqtail (s : State) (q : StreamId) (x : Word) : State :=
  checkOverrun (setStream s q { streamOf s q with tail := x.setWidth 32 }) q

/-- SQTAIL_WRITE (R363). -/
def execSqtailWrite (q : StreamId) (x : Word) (s : State) : Out := .next (if isStream q && s.ready then writeSqtail s q x else s)

/-! ### Packets (R315, R316) -/

/-- The condition of a code (R176). -/
def wcondOf (n : Nat) : WCond := [WCond.eq, .ne, .ltu, .geu, .lt, .ge, .tst, .ntst].getD n .eq

/-- The bits of W0 to W7 that a packet may set; `none` for a reserved code. -/
def packetMask (op : Nat) : Option (List Word) :=
  let all : Word := 0xFFFFFFFFFFFFFFFF
  match op with
  | 1 => some [0xFF00C00000000000, all, all, all, all, all, all, all]
  | 2 => some [0xFF00000000000000, all, 0xFFFFFF, 0, 0, 0, 0, 0]
  | 3 => some [0xFFFFF00000000000, all, all, 0, 0, 0, 0, 0]
  | 4 => some [0xFFFF00000000FFFF, 0, 0, 0, 0, 0, 0, 0]
  | 5 => some [0xFF00000000000000, 0, 0, 0, 0, 0, 0, 0]
  | 6 => some [0xFF00100000000000, all, all, 0, 0, 0, 0, 0]
  | 7 => some [0xFF00F00000000000, all, all, 0, 0, 0, 0, 0]
  | 8 => some [0xFF00500000000000, all, all, 0, 0, 0, 0, 0]
  | _ => none

/-- Every reserved field of a packet is zero. -/
def packetClean (ms ws : List Word) : Bool := ws.length == 8 && (ms.zip ws).all fun p => p.2 &&& ~~~p.1 == 0

/-- The address is aligned to the size. -/
def sizeAligned (wide : Bool) (a : Word) : Bool := a.toNat % (wideBytes wide) == 0

/-- W0[63:56]. -/
def pktOp (ws : List Word) : Nat := ((ws.headD 0).extractLsb' 56 8).toNat

/-- The event that executes a packet; `none` for BADPKT (R315, R316). -/
def packetInstr (q : StreamId) (ws : List Word) : Option Instr :=
  let w := fun i => ws.getD i 0
  let n8 := (w 0).extractLsb' 48 8
  let cond := wcondOf ((w 0).extractLsb' 45 3).toNat
  let wide := (w 0).getLsbD 44
  let op := pktOp ws
  if op = 0 ∧ ws.length = 8 then some (.nopk q)
  else
    match packetMask op with
    | none => none
    | some ms =>
      if !packetClean ms ws then none
      else
        match op with
        | 1 =>
          some (.launch q { ser := (w 0).getLsbD 47, irq := (w 0).getLsbD 46, w1 := w 1, w2 := w 2, w3 := w 3, w4 := w 4
                            w5 := w 5, w6 := w 6, w7 := w 7 })
        | 2 =>
          if (w 1).toNat % 64 = 0 ∧ w 2 ≠ 0 then some (.ib q (w 1) ((w 2).setWidth 24)) else none
        | 3 => if n8 ≠ 0 ∧ sizeAligned wide (w 1) then some (.pred q n8 cond wide (w 1) (w 2)) else none
        | 4 => if 1 ≤ n8.toNat ∧ n8.toNat ≤ 8 then some (.loop q n8 ((w 0).setWidth 16)) else none
        | 5 => some (.ffence q)
        | 6 => if sizeAligned wide (w 1) then some (.write q wide (w 1) (w 2)) else none
        | 7 => if sizeAligned wide (w 1) then some (.waitmem q cond wide (w 1) (w 2)) else none
        | _ => if sizeAligned wide (w 1) then some (.signal q ((w 0).getLsbD 46) wide (w 1) (w 2)) else none

/-! ### The window (R318, R340) -/

/-- The place in the window of the packet in execution: a LOOP's body packet while it repeats. -/
def Stream.cur (x : Stream) : Nat :=
  match x.loop with
  | none => 0
  | some p => 1 + p.1

/-- W0 of the first packet of the window. -/
def Stream.firstW0 (x : Stream) : Word := (x.window.headD { va := 0, words := [], depth := 0 }).words.headD 0

/-- n of the LOOP in execution. -/
def Stream.loopLen (x : Stream) : Nat := (x.firstW0.extractLsb' 48 8).toNat

/-- The place in the window after which packets count towards it: the packet in execution, or, as the repeats of a LOOP do not
count, the last of its body (R318, R340). -/
def Stream.from (x : Stream) : Nat :=
  match x.loop with
  | some (pos, reps) => if reps < (x.firstW0.extractLsb' 0 16).toNat then x.loopLen else 1 + pos
  | none => 0

/-- The packet in execution is a WRITE or a WAITMEM, during whose wait fetching goes on (R340). -/
def Stream.fetchesOn (x : Stream) : Bool :=
  match x.wait, x.window[x.cur]? with
  | none, _ => true
  | some (_, false), some f => [6, 7].contains (pktOp f.words)
  | _, _ => false

/-- A ring packet is left below TAIL for the next fetch (R312). -/
def Stream.belowTail (x : Stream) : Bool := decide (ringDist x.head x.fring < ringDist x.head x.tail)

/-- A packet is available that the window still takes (R318, R340). -/
def Stream.mayFetch (x : Stream) : Bool :=
  x.en && x.fetchesOn && decide (x.window.length < 9 + x.from) && (!x.fbufs.isEmpty || x.belowTail)

/-- The stream may begin or go on with its next packet, which it holds only where HEAD is below TAIL (R312, R340). -/
def Stream.mayRun (x : Stream) : Bool := x.en && x.wait.isNone && !x.mayFetch && x.skip == 0 && x.head != x.tail

/-- The packet that the stream executes next. -/
def Stream.packet (x : Stream) : Option Fetched := if x.mayRun then x.window[x.cur]? else none

/-- The address of the next fetch. -/
def Stream.fetchVa (x : Stream) : Word :=
  match x.fbufs with
  | b :: _ => b.va
  | [] => x.at x.fring

/-- The place after a packet of a buffer. -/
def BufAt.next (b : BufAt) : BufAt := { b with va := b.va + 64, left := b.left - 1 }

/-- One packet of the innermost open buffer, or of the ring, has completed; a buffer's last packet completes its IB
(R317). -/
def completeIn : List BufAt → BitVec 32 → List BufAt × BitVec 32
  | [], head => ([], head + 1)
  | b :: r, head => if b.left ≤ 1 then completeIn r head else (b.next :: r, head)

/-- The packet completes: it leaves the window, and HEAD or the buffer moves on (R312, R317). -/
def Stream.complete (x : Stream) : Stream :=
  let (xb, head) := completeIn x.xbufs x.head
  { x with window := x.window.drop 1, xbufs := xb, head := head }

/-- Passes over the first packet of the window: a skipped IB takes the packets of its buffer with it (R320). -/
def Stream.passOver (x : Stream) : Stream :=
  let d := x.xbufs.length
  let y := x.complete
  let rest := y.window.dropWhile fun f => decide (d < f.depth)
  { y with window := rest, fbufs := if rest.isEmpty then y.fbufs.dropWhile fun b => decide (d < b.depth) else y.fbufs
           skip := y.skip - 1 }

/-- Passes over what is to be skipped, as far as it is fetched. -/
def passSkips : Nat → Stream → Stream
  | 0, x => x
  | n + 1, x => if x.skip = 0 ∨ x.window.isEmpty ∨ x.head = x.tail then x else passSkips n x.passOver

/-- The depth of the next packet to be fetched: 0 in the ring. -/
def Stream.fetchDepth (x : Stream) : Nat :=
  match x.fbufs with
  | b :: _ => b.depth
  | [] => 0

/-- The fetch position after a packet; a well-formed IB opens its buffer at its fetch (R318). -/
def Stream.fetched (x : Stream) (q : StreamId) (ws : List Word) : Stream :=
  let f : Fetched := { va := x.fetchVa, words := ws, depth := x.fetchDepth }
  let x := match x.fbufs with
    | b :: r => { x with fbufs := if b.left ≤ 1 then r else b.next :: r }
    | [] => { x with fring := x.fring + 1 }
  let x := match packetInstr q ws with
    | some (.ib _ a n) =>
      if f.depth < 2 then { x with fbufs := { va := a, left := n.toNat, depth := f.depth + 1 } :: x.fbufs } else x
    | _ => x
  passSkips (x.window.length + 1) { x with window := x.window ++ [f] }

/-- The 64 bytes of a packet as words. -/
def packetWords (n : Nat) : List Word := (List.range 8).map fun i => BitVec.ofNat 64 (n / 2 ^ (64 * i))

/-- PACKET_FETCH (R313, R318): one packet enters the window; where its page is absent while the packet in execution waits,
it is tried again after that wait. With a full window it stops the stream at a packet in turn
that is malformed or whose fetch has failed (DEDUCED, log 47). -/
def execPacketFetch (q : StreamId) (s : State) : Out :=
  let x := streamOf s q
  if x.mayFetch then
    match vaRead s (.front x.die) q.part x.fetchVa 64 with
    | .absent =>
      if x.wait.isSome then .next s
      else .next (report (setStream s q { x with wait := some (x.fetchVa, true) }) (.frontEnd q.part q.num x.fetchVa))
    | .bad => .next (setStream s q (x.fetched q []))
    | .ok n s => .next (setStream s q (x.fetched q (packetWords n)))
  else
    match x.packet with
    | none => .next s
    | some f =>
      if f.words.isEmpty then .next (stopStream s q .fault f.va)
      else if (packetInstr q f.words).isNone then .next (stopStream s q .badpkt f.va)
      else .next s

/-! ### Executing packets (R317–R322) -/

/-- A LOOP of n packets has ended: it leaves the window with its body (R317, R321). -/
def Stream.endLoop (x : Stream) (n : Nat) : Stream :=
  (List.range (n + 1)).foldl (fun y _ => y.complete) { x with loop := none }

/-- The packet in execution has completed, and the stream goes on `n` packets further. In a LOOP's body the next
repetition follows the last packet. -/
def Stream.next (x : Stream) (n : Nat) : Stream :=
  match x.loop with
  | none =>
    let left := match x.xbufs with
      | b :: _ => Nat.min n (b.left - 1)
      | [] => n
    let y := { x.complete with skip := left }
    passSkips (y.window.length + 1) y
  | some (pos, reps) =>
    if pos + 1 + n < x.loopLen then { x with loop := some (pos + 1 + n, reps) }
    else if reps ≤ 1 then x.endLoop x.loopLen
    else { x with loop := some (0, reps - 1) }

/-- Runs the meaning of a packet that is the stream's next. -/
def runPacket (s : State) (q : StreamId) (i : Instr) (k : Stream → Fetched → State) : Out :=
  let x := streamOf s q
  match x.packet with
  | none => .next s
  | some f => if packetInstr q f.words = some i then .next (k x f) else .next s

/-- The front end waits for an absent page (R313). -/
def frontWait (s : State) (q : StreamId) (va : Word) : State :=
  report (setStream s q { streamOf s q with wait := some (va, false) }) (.frontEnd q.part q.num va)

/-- NOPK. -/
def execNopk (q : StreamId) (s : State) : Out := runPacket s q (.nopk q) fun x _ => moveOn s q (x.next 0)

/-- IB (R319). -/
def execIb (q : StreamId) (a : Word) (n : BitVec 24) (s : State) : Out :=
  runPacket s q (.ib q a n) fun x f =>
    if 2 ≤ f.depth || x.loop.isSome then stopStream s q .badpkt f.va
    else setStream s q { x with window := x.window.drop 1, xbufs := { va := a, left := n.toNat, depth := f.depth + 1 } :: x.xbufs }

/-- LOOP, IB and FFENCE may not stand in a LOOP's body (R321). -/
def noLoopBody (f : Fetched) : Bool := [2, 4, 5].contains (pktOp f.words)

/-- LOOP (R321). -/
def execLoop (q : StreamId) (n : BitVec 8) (k : BitVec 16) (s : State) : Out :=
  runPacket s q (.loop q n k) fun x f =>
    let body := (x.window.drop 1).take n.toNat
    let short := match x.xbufs with
      | b :: _ => decide (b.left < n.toNat + 1)
      | [] => false
    if short || x.loop.isSome || body.any noLoopBody then stopStream s q .badpkt f.va
    else if body.length < n.toNat then s
    else if k = 0 then moveOn s q (x.endLoop n.toNat)
    else setStream s q { x with loop := some (0, k.toNat) }

/-- Where fetching begins again with the buffers open in execution: an outer buffer goes on after the IB in execution. -/
def refetchAt : List BufAt → List BufAt
  | [] => []
  | b :: r => b :: (r.filter fun x => decide (1 < x.left)).map BufAt.next

/-- FFENCE: the stream's writes are performed by then; the fetched copies are discarded, and fetching begins again after
it (R318). -/
def execFfence (q : StreamId) (s : State) : Out :=
  runPacket s q (.ffence q) fun x _ =>
    let y := x.complete
    setStream s q { y with window := [], fbufs := refetchAt y.xbufs, fring := if y.xbufs.isEmpty then y.head else y.head + 1 }

/-- The access of a packet. -/
def packetAcc (s : State) (q : StreamId) (f : Fetched) (o : VaRead) (k : Nat → State → State) : State :=
  match o with
  | .absent => frontWait s q ((f.words.getD 1 0))
  | .bad => stopStream s q .fault f.va
  | .ok n s => k n s

/-- PRED (R320). -/
def execPred (q : StreamId) (n : BitVec 8) (cond : WCond) (wide : Bool) (a cmp : Word) (s : State) : Out :=
  runPacket s q (.pred q n cond wide a cmp) fun x f =>
    packetAcc s q f (vaRead s (.front x.die) q.part a (wideBytes wide)) fun v s =>
      if condHolds cond (wideBytes wide) v cmp.toNat then moveOn s q (x.next 0)
      else
        match x.loop with
        | some p =>
          if x.loopLen < p.1 + 1 + n.toNat then stopStream s q .badpkt f.va else moveOn s q (x.next n.toNat)
        | none => moveOn s q (x.next n.toNat)

/-- WAITMEM: one check; where it fails the stream waits at the packet (R322). -/
def execWaitmem (q : StreamId) (cond : WCond) (wide : Bool) (a cmp : Word) (s : State) : Out :=
  runPacket s q (.waitmem q cond wide a cmp) fun x f =>
    packetAcc s q f (vaRead s (.front x.die) q.part a (wideBytes wide)) fun v s =>
      if condHolds cond (wideBytes wide) v cmp.toNat then moveOn s q (x.next 0) else s

/-- A write of a packet. -/
def packetWrite (s : State) (q : StreamId) (f : Fetched) (o : VaWrite) (k : State → State) : State :=
  match o with
  | .absent va => frontWait s q va
  | .bad => stopStream s q .fault f.va
  | .ok s => k s

/-- WRITE (R322). -/
def execWrite (q : StreamId) (wide : Bool) (a x : Word) (s : State) : Out :=
  runPacket s q (.write q wide a x) fun st f =>
    let n := wideBytes wide
    packetWrite s q f (vaWrite s (.front st.die) q.part a n (x.toNat % 2 ^ (8 * n))) fun s => moveOn s q (st.next 0)

/-- The atomic of a SIGNAL: it needs both permissions and sound data (R127, R147, R313). -/
def signalAcc (s : State) (q : StreamId) (die : Nat) (a x : Word) (n : Nat) : VaWrite :=
  match vaPlain s q.part a false, vaPlain s q.part a true with
  | .absent, _ => .absent a
  | .ok loc _, .ok _ _ =>
    if isPoisoned s loc then .bad
    else .ok (agentStore s (.front die) loc n ((memRead s loc n + x.toNat) % 2 ^ (8 * n)))
  | _, _ => .bad

/-- SIGNAL (R322). -/
def execSignal (q : StreamId) (irq wide : Bool) (a x : Word) (s : State) : Out :=
  runPacket s q (.signal q irq wide a x) fun st f =>
    packetWrite s q f (signalAcc s q st.die a x (wideBytes wide)) fun s =>
      let s := moveOn s q (st.next 0)
      if irq then sendMsix s q.part q.num else s

/-- FRONT_END_FAULT_RESUME (R139, R313). -/
def execFrontEndFaultResume (q : StreamId) (fix : FaultFix) (s : State) : Out :=
  let x := streamOf s q
  match x.wait, fix with
  | none, _ => .next s
  | some _, .entries ws => .next (servicePage (setStream s q { x with wait := none }) ws)
  | some (_, true), .prot => .next (setStream s q ({ x with wait := none }.fetched q []))
  | some (va, false), .prot =>
    let f := (x.window[x.cur]?).map (·.va)
    .next (stopStream s q .fault (f.getD va))

end Sys2Proof.Machine
end

