-- ==== Sys2Proof/Machine/Mapper.lean ====
section
/-! DEFINITION. Nest headers, the mapper (R191–R197, R201, R206) and the LAUNCH packet (R323–R326, R345). -/

namespace Sys2Proof.Machine

/-! ### The nest header (R191–R194) -/

/-- A nest header: H0 to H2, the eight level entries. -/
structure Nest where
  h0 : Word
  h1 : Word
  h2 : Word
  lv : List Word
deriving DecidableEq, Repr

/-- NLEV. -/
def Nest.nlev (h : Nest) : Nat := (h.h0.extractLsb' 24 4).toNat
/-- VALLOC. -/
def Nest.valloc (h : Nest) : Nat := (h.h0.extractLsb' 16 8).toNat
/-- PHASED. -/
def Nest.phased (h : Nest) : Bool := h.h0.getLsbD 8
/-- SCRG. -/
def Nest.scrg (h : Nest) : Nat := (h.h1.extractLsb' 0 9).toNat
/-- ENTRY. -/
def Nest.entry (h : Nest) : Nat := (h.h0.extractLsb' 32 32).toNat
/-- The entry of a level. -/
def Nest.level (h : Nest) (i : Nat) : Word := h.lv.getD i 0

/-- ORDER. -/
def eOrder (e : Word) : Bool := e.getLsbD 63
/-- SHARE. -/
def eShare (e : Word) : Bool := e.getLsbD 62
/-- SYNC. -/
def eSync (e : Word) : Bool := e.getLsbD 61
/-- VEC. -/
def eVec (e : Word) : Bool := e.getLsbD 60
/-- FORM. -/
def eForm (e : Word) : Nat := (e.extractLsb' 53 3).toNat
/-- ARG. -/
def eArg (e : Word) : Nat := (e.extractLsb' 49 4).toNat
/-- K. -/
def eK (e : Word) : Nat := (e.extractLsb' 0 32).toNat

/-- A level entry that BADNEST refuses (R194). -/
def entryBad (e : Word) : Bool :=
  e.extractLsb' 56 4 != 0 || e.extractLsb' 32 17 != 0
    || (eForm e == 0 && eArg e != 0) || (eForm e == 1 && eK e != 0)
    || decide (6 ≤ eForm e) || (eForm e == 3 && eK e == 0)

/-- The header checks of R194. -/
def nestBad (h : Nest) : Bool :=
  h.h0.extractLsb' 28 4 != 0 || h.h0.extractLsb' 9 7 != 0 || h.h0.extractLsb' 0 8 != 0 || h.h1.extractLsb' 9 55 != 0
    || h.nlev == 0 || decide (8 < h.nlev) || (List.range 8).any (fun i => decide (h.nlev ≤ i) && h.level i != 0)
    || h.valloc == 0 || h.valloc % 8 != 0 || decide (64 < h.valloc) || decide (256 < h.scrg)
    || (!h.phased && h.h2 != 0) || (List.range h.nlev).any fun i => entryBad (h.level i)

/-- The extent of a level for the launch arguments (R193). -/
def extentOf (args : List Nat) (e : Word) : Nat :=
  let a := args.getD (eArg e) 0
  let k := eK e
  Nat.min 0xFFFFFFFF (match eForm e with
    | 0 => k
    | 1 => a
    | 2 => a * k
    | 3 => (a + k - 1) / k
    | 4 => a + k
    | _ => a - k)

/-! ### The mapper (R195–R197) -/

/-- The outermost level with SYNC or SHARE; every level from it inwards is team-bound (R195). -/
def firstBound (h : Nest) : Nat :=
  ((List.range h.nlev).find? fun i => eSync (h.level i) || eShare (h.level i)).getD h.nlev

/-- The LANE level of rule 2. -/
def laneLevel (ext : Nat → Nat) (vec : List Nat) : Option Nat :=
  match vec.reverse.find? fun i => decide (8 ≤ ext i) with
  | some i => some i
  | none => vec.foldl (fun b i =>
      match b with
      | none => some i
      | some j => if ext j ≤ ext i then some i else some j) none

/-- A mapping: the levels of each kind and the groups that run at once. -/
structure Mapping where
  lane   : Option Nat
  team   : Option Nat
  group  : Option Nat
  groups : Nat
  lanes  : Nat
  teams  : Nat
deriving DecidableEq, Repr

/-- The level encloses level i. -/
def encloses (o : Option Nat) (i : Nat) : Bool :=
  match o with
  | some j => decide (j < i)
  | none => false

/-- Scratchpad granules of a team of g groups (R206). -/
def teamGranules (h : Nest) (group lane : Option Nat) (g lanes : Nat) : Nat :=
  let shared := (List.range h.nlev).filter fun i => eShare (h.level i)
  if shared.isEmpty then h.scrg
  else h.scrg * (shared.map fun i =>
    (if encloses group i then g else 1) * (if encloses lane i then lanes else 1)).sum

/-- fit(g) for a GROUP level (R197). -/
def fits (h : Nest) (group lane : Option Nat) (lanes g : Nat) : Bool :=
  decide (g * (h.valloc / 8) ≤ 256) && decide (teamGranules h group lane g lanes ≤ 256)

/-- The largest g in 2 to n that fits. -/
def largestFit (h : Nest) (group lane : Option Nat) (lanes : Nat) : Nat → Option Nat
  | 0 => none
  | n + 1 => if 2 ≤ n + 1 && fits h group lane lanes (n + 1) then some (n + 1) else largestFit h group lane lanes n

/-- The mapper (R196); `none` is MAPSIZE. -/
def mapNest (h : Nest) (ext : Nat → Nat) : Option Mapping :=
  let cand := (List.range h.nlev).filter fun i => !eOrder (h.level i)
  let lane := laneLevel ext (cand.filter fun i => eVec (h.level i))
  let lanes := match lane with
    | some i => Nat.min (ext i) 32
    | none => 1
  let rem := match lane with
    | some i => cand.filter fun j => decide (j < i)
    | none => cand
  let team := match rem with
    | t :: _ => if t < firstBound h then some t else none
    | [] => none
  let gc := match team with
    | some _ => rem[1]?
    | none => rem[0]?
  let group := match gc with
    | some i => if 2 ≤ ext i then (largestFit h (some i) lane lanes (Nat.min (ext i) 32)).map fun g => (i, g) else none
    | none => none
  let m : Mapping :=
    { lane := lane, team := team, group := group.map (·.1), groups := (group.map (·.2)).getD 1, lanes := lanes
      teams := match team with
        | some i => Nat.min (ext i) 0xFFFFFF
        | none => 1 }
  if fits h m.group lane lanes m.groups then some m else none

/-- KIND of a level (R201). -/
def kindOf (m : Mapping) (i : Nat) : Nat :=
  if m.lane = some i then 1 else if m.group = some i then 2 else if m.team = some i then 3 else 0

/-- PAR of a level. -/
def parOf (m : Mapping) (i : Nat) : Nat :=
  match kindOf m i with
  | 1 => m.lanes
  | 2 => m.groups
  | 3 => m.teams
  | _ => 1

/-- MAPL of a level (R201). -/
def mapLevel (h : Nest) (ext : Nat → Nat) (m : Mapping) (i : Nat) : Word × Word :=
  let e := h.level i
  let par := parOf m i
  (BitVec.ofNat 32 (ext i) ++ BitVec.ofNat 24 par ++ BitVec.ofBool (eOrder e) ++ BitVec.ofBool (eShare e)
      ++ BitVec.ofBool (eSync e) ++ BitVec.ofBool (eVec e) ++ 0#2 ++ BitVec.ofNat 2 (kindOf m i),
    BitVec.ofNat 32 ((ext i + par - 1) / par) ++ BitVec.ofNat 32 (if eShare e then h.scrg * 4096 else 0))

/-- A level number, 0xF if there is none. -/
def lvNum (o : Option Nat) : BitVec 4 := BitVec.ofNat 4 (o.getD 15)

/-- MAPG (R201). -/
def mapGlobal (h : Nest) (m : Mapping) : Word :=
  0#8 ++ BitVec.ofNat 24 m.teams ++ BitVec.ofNat 6 m.groups ++ BitVec.ofNat 6 m.lanes ++ BitVec.ofNat 4 h.nlev
    ++ lvNum m.team ++ lvNum m.group ++ lvNum m.lane ++ 0#4

/-! ### LAUNCH (R323–R326) -/

/-- The address is canonical and aligned. -/
def goodAddr (a : Word) (n : Nat) : Bool := isCanonical a && a.toNat % n == 0

/-- The record area of the packet can be named: W5 and RSIZE. -/
def recordOk (p : LaunchPkt) : Bool := goodAddr p.w5 64 && decide (64 ≤ (p.w6.extractLsb' 0 32).toNat)

/-- The packet passes the first checks of R323. -/
def launchOk (p : LaunchPkt) : Bool :=
  goodAddr p.w1 8 && goodAddr p.w2 192 && goodAddr p.w3 65536 && goodAddr p.w4 8 && goodAddr p.w7 4096 && recordOk p

/-- A launch before its header is read: it has no team. -/
def newLaunch (s : State) (q : StreamId) (p : LaunchPkt) : Launch :=
  let x := streamOf s q
  { part := q.part, stream := q.num, lseq := x.launchNo.toNat, irq := p.irq, text := p.w2, data := p.w3, recArea := p.w5
    rsize := (p.w6.extractLsb' 0 32).toNat, phaseA := p.w7, slice := (p.w6.extractLsb' 32 32).toNat
    debug := (partOf s q.part).dbgctl.getLsbD 0, pid := x.sqpid, mapl := [], mapg := 0, nlev := 0, valloc := 0, scrg := 0
    phased := false, carry := 0, entry := 0, teams := 0, groups := 0, lanes := 0, retired := 0, retiredAt := 0, status := 0
    sliceT := none, preempted := false, msi := false, records := [], recPend := [], recProt := [] }

/-- The launch of a mapped nest. -/
def mappedLaunch (l : Launch) (h : Nest) (ext : Nat → Nat) (m : Mapping) : Launch :=
  { l with
    mapl := (List.range h.nlev).map (mapLevel h ext m), mapg := mapGlobal h m, nlev := h.nlev, valloc := h.valloc
    scrg := h.scrg, phased := h.phased, carry := h.h2, entry := BitVec.ofNat 64 (l.text.toNat / 12 + h.entry)
    teams := m.teams, groups := m.groups, lanes := m.lanes }

/-- The LAUNCH completes; with a record it has taken a launch number (R317, R345). -/
def launchDone (s : State) (q : StreamId) : State :=
  let x := streamOf s q
  moveOn s q { x.next 0 with launchNo := x.launchNo + 1 }

/-- Registers a launch under a free number (DESIGN CHOICE, log 38). -/
def addLaunch (s : State) (l : Launch) : State × Nat :=
  let n := (tabFree (s.launches.length + 1) s.launches).getD s.launches.length
  (setLaunch s n l, n)

/-- Ends a launch that places no team: refused with a status, or empty (R194, R325, R326). -/
def endAtOnce (s : State) (q : StreamId) (l : Launch) (status : Nat) : State :=
  let (s, n) := addLaunch (launchDone s q) l
  dropLaunch (closeLaunch s n status) n

/-- Writes fields of the record header that are on present pages, each one event. -/
def putFields (s : State) (a : Agent) (l : Launch) (fs : List (Nat × Nat × Nat)) : State :=
  fs.foldl (fun s f =>
    match vaWrite s a l.part (l.recArea + BitVec.ofNat 64 f.1) f.2.1 f.2.2 with
    | .ok s => s
    | _ => s) s

/-- The rest of a LAUNCH after its header, arguments and record area have been reached. -/
def launchNest (s : State) (q : StreamId) (l : Launch) (h : Nest) (args : List Nat) : State :=
  let a := launchAgent s l
  let s := putFields s a l
    [(0, 8, 0), (8, 8, 0), (16, 8, 0), (24, 8, 0), (32, 8, 0), (40, 8, 64), (48, 8, s.clock.toNat), (56, 8, 0)]
  let ext := fun i => extentOf args (h.level i)
  if nestBad h then endAtOnce s q l 2
  else if h.phased && l.phaseA == 0 then endAtOnce s q l 4
  else if (List.range h.nlev).any fun i => ext i == 0 then
    endAtOnce (dropHostLines s q.part) q l 1
  else
    match mapNest h ext with
    | none => endAtOnce s q l 3
    | some m =>
      let l := mappedLaunch l h ext m
      let s := putFields s a l [(16, 8, m.teams * m.groups * m.lanes), (24, 8, l.mapg.toNat)]
      let (s, n) := addLaunch (launchDone s q) l
      let x := streamOf s q
      setStream s q { x with teams := x.teams ++ [{ launch := n, first := 0, n := m.teams }] }

/-- An earlier launch of the stream has not ended: its STATUS is not written (R325). -/
def streamBusy (s : State) (q : StreamId) : Bool :=
  s.launches.any fun l => l.2.part == q.part && l.2.stream == q.num && (l.2.status == 0 || !l.2.recPend.isEmpty)

/-- Writes to the record area by the front end: an absent page is waited for, any other cause stops the stream (R378). -/
def onRecord (s : State) (q : StreamId) (l : Launch) (f : Fetched) (k : State → State) : State :=
  match pagesOk s l.part [l.recArea] with
  | some (.absent va) => frontWait s q va
  | some _ => stopStream s q .fault f.va
  | none => k s

/-- Reads k words of a LAUNCH's argument block or nest header. -/
def launchRead (s : State) (q : StreamId) (f : Fetched) (a : Word) (n : Nat) (k : List Word → State → State) : State :=
  match vaReadWords s (.front (streamOf s q).die) q.part a n with
  | none => stopStream s q .fault f.va
  | some (.error va) => frontWait s q va
  | some (.ok (ws, s)) => k ws s

/-- LAUNCH (R323). -/
def execLaunch (q : StreamId) (p : LaunchPkt) (s : State) : Out :=
  runPacket s q (.launch q p) fun _ f =>
    let l := newLaunch s q p
    if !recordOk p then stopStream s q .badpkt f.va
    else if !launchOk p then onRecord s q l f fun s => endAtOnce s q l 4
    else if p.ser && streamBusy s q then s
    else
      launchRead s q f p.w4 8 fun as s =>
        launchRead s q f p.w1 11 fun hs s =>
          onRecord s q l f fun s =>
            launchNest s q l { h0 := hs.getD 0 0, h1 := hs.getD 1 0, h2 := hs.getD 2 0, lv := hs.drop 3 }
              (as.flatMap fun w => [(w.extractLsb' 0 32).toNat, (w.extractLsb' 32 32).toNat])

end Sys2Proof.Machine
end

