-- ==== Sys2Proof/Machine/Nest.lean ====
section
/-! DEFINITION. Level words, majors 0x34 to 0x36 (R198–R208): the mapping registers, the level counters, level-shared
buffers, REDL and BARL. -/

namespace Sys2Proof.Machine

/-! ### The mapping registers (R201) -/

/-- The launch of a group, or one without levels. -/
def nestOf (s : State) (g : Group) : Option Launch := launchOf s g.launch

/-- NLEV of a group's launch. -/
def nlevOf (s : State) (g : Group) : Nat :=
  match nestOf s g with
  | some l => l.nlev
  | none => 0

/-- The parallel index of thread t at a level of the given kind (R198). -/
def pidx (kind : Nat) (g : Group) (t : Nat) : Nat :=
  match kind with
  | 1 => t
  | 2 => g.gnum
  | 3 => g.team
  | _ => 0

/-- lc of a level (R198). -/
def lcOf (sp : Split) (lv : Nat) : Nat := (tabGet 0 sp.lc lv).toNat

/-- Writes lc. -/
def setLc (sp : Split) (lv x : Nat) : Split := { sp with lc := tabSet 0 sp.lc lv (BitVec.ofNat 64 x) }

/-! ### The shapes of the class (R203) -/

/-- OPSPEC of a destination that may or may not be a g register. -/
def lvOpspec (g : Group) (gOk : Bool) (d : Opnd) : Bool :=
  badDst d || namesBad g [d] ||
    (match d with
    | .g _ => !gOk
    | _ => false)

/-- A level word with a result of latency 4 from nothing but the mapping and the counters. `f` gives the value of a
thread; `upd` is the split after the word. -/
def lvWord (s : State) (h : Hd) (d : Opnd) (lv : Fin 8) (once : Bool) (f : Launch → Group → Split → Nat → Option Word)
    (upd : Launch → Split → Split) : Out :=
  issue s fun pl g sp =>
    match nestOf s g with
    | none => .next (trap s pl .illop)
    | some l =>
      if l.nlev ≤ lv.val then .next (trap s pl .illop)
      else if lvOpspec g once d then .next (trap s pl .opspec)
      else if hazard g sp pl.split [] [d] then .next (trap s pl .hazard)
      else
        let uni := once && issueMode [] d == .uniform
        let ts := if uni then [32] else sp.mask.threads
        match ts.mapM fun t => (f l g sp t).map fun x => (t, x) with
        | none => .next (trap s pl .illop)
        | some vals =>
          let (g, sp) := deliver g (upd l sp) pl.split .a (some 4) .var d vals
          .next (finish s pl g sp h (if uni then 1 else perThreadOcc sp.mask))

/-- TSCR: the aperture address of the team's scratchpad allocation (R206): its lowest granule on the core. The spec gives no
address where the team has none (SG = 0): a free value (DESIGN CHOICE, log 46). -/
def tscrOf (s : State) (c : Nat) (g : Group) : Word :=
  match (coreOf s c).granules.find? fun x => x.2.1 == g.launch && x.2.2 == g.team with
  | some x => Config.aperture + BitVec.ofNat 64 (2 ^ 20 * (c % 4) + 4096 * x.1)
  | none => Config.noTscr s.free

/-- The field that a selector reads (R204). -/
def mapField (s : State) (c : Nat) (l : Launch) (g : Group) (lv : Nat) : MapSel → Word
  | .w0 => (maplOf l lv).1
  | .w1 => (maplOf l lv).2
  | .kind => BitVec.ofNat 64 (mKind (maplOf l lv))
  | .par => BitVec.ofNat 64 (mPar (maplOf l lv))
  | .seq => BitVec.ofNat 64 (mSeq (maplOf l lv))
  | .ext => BitVec.ofNat 64 (mExt (maplOf l lv))
  | .bufsz => BitVec.ofNat 64 (mBuf (maplOf l lv))
  | .glob => l.mapg
  | .tscr => tscrOf s c g

/-- RDMAP (R204). -/
def execRdmap (h : Hd) (sel : MapSel) (d : Opnd) (lv : Fin 8) (s : State) : Out :=
  let c := match s.turn with
    | some pl => pl.core
    | none => 0
  lvWord s h d lv true (fun l g _ _ => some (mapField s c l g lv.val sel)) fun _ sp => sp

/-- LVEXT (R205). -/
def execLvext (h : Hd) (d : Opnd) (lv : Fin 8) (s : State) : Out :=
  lvWord s h d lv true (fun l _ _ _ => some (BitVec.ofNat 64 (mExt (maplOf l lv.val)))) fun _ sp => sp

/-- The logical index of thread t (R200). -/
def lvIndex (l : Launch) (g : Group) (sp : Split) (lv t : Nat) : Nat :=
  lcOf sp lv * mPar (maplOf l lv) + pidx (mKind (maplOf l lv)) g t

/-- LVIDX (R205). -/
def execLvidx (h : Hd) (d : Opnd) (lv : Fin 8) (s : State) : Out :=
  lvWord s h d lv false (fun l g sp t => some (BitVec.ofNat 64 (lvIndex l g sp lv.val t))) fun _ sp => sp

/-- LVFIRST (R205). -/
def execLvfirst (h : Hd) (d : Opnd) (lv : Fin 8) (s : State) : Out :=
  lvWord s h d lv false (fun l g _ t => some (if pidx (mKind (maplOf l lv.val)) g t = 0 then 1 else 0)) fun _ sp => sp

/-- LVFOR (R205). -/
def execLvfor (h : Hd) (lv : Fin 8) (s : State) : Out :=
  issue s fun pl g sp =>
    if nlevOf s g ≤ lv.val then .next (trap s pl .illop) else .next (finish s pl g (setLc sp lv.val 0) h 1)

/-- lc after LVNEXT (R205). -/
def nextLc (l : Launch) (sp : Split) (lv : Nat) : Nat := Nat.min (lcOf sp lv + 1) (mSeq (maplOf l lv) - 1)

/-- LVNEXT (R205). -/
def execLvnext (h : Hd) (d : Opnd) (lv : Fin 8) (s : State) : Out :=
  lvWord s h d lv false
    (fun l g sp t =>
      let more := lcOf sp lv.val + 1 < mSeq (maplOf l lv.val)
      let sp' := setLc sp lv.val (nextLc l sp lv.val)
      some (if more ∧ lvIndex l g sp' lv.val t < mExt (maplOf l lv.val) then 1 else 0))
    fun l sp => setLc sp lv.val (nextLc l sp lv.val)

/-! ### Level-shared buffers (R206) -/

/-- off(lv) in bytes. -/
def bufOff (l : Launch) (lv : Nat) : Nat :=
  (((List.range lv).filter fun i => mShare (maplOf l i)).map fun i => bufCount l l.groups i * mBuf (maplOf l i)).sum

/-- inst(t). -/
def bufInst (l : Launch) (g : Group) (lv t : Nat) : Nat :=
  (if gGroupLv l < lv then g.gnum else 0) * (if gLaneLv l < lv then l.lanes else 1) + (if gLaneLv l < lv then t else 0)

/-- LVBUF; a level without SHARE traps with ILLOP (R206). -/
def execLvbuf (h : Hd) (d : Opnd) (lv : Fin 8) (s : State) : Out :=
  let c := match s.turn with
    | some pl => pl.core
    | none => 0
  issue s fun pl g _ =>
    match nestOf s g with
    | some l =>
      if lv.val < l.nlev && !mShare (maplOf l lv.val) then .next (trap s pl .illop)
      else lvWord s h d lv false
        (fun l g _ t => some (tscrOf s c g + BitVec.ofNat 64
          (bufOff l lv.val + bufInst l g lv.val t * mBuf (maplOf l lv.val)))) fun _ sp => sp
    | none => .next (trap s pl .illop)

/-! ### REDL and BARL (R207, R208) -/

/-- The network of a level's barrier (R208). -/
inductive Network where
  | groups
  | lanes
  | alone
deriving DecidableEq, Repr

/-- The network that the mapping gives BARL at a level. -/
def networkOf (l : Launch) (lv : Nat) : Network :=
  if gGroupLv l ≠ 15 ∧ lv ≤ gGroupLv l then .groups
  else if gLaneLv l ≠ 15 ∧ lv ≤ gLaneLv l then .lanes
  else .alone

/-- A level word that asks for SYNC: ILLOP at a level at or above NLEV or without SYNC (R203, R207, R208). -/
def syncLevel (s : State) (lv : Fin 8) (k : Place → Group → Split → Launch → Out) : Out :=
  issue s fun pl g sp =>
    match nestOf s g with
    | none => .next (trap s pl .illop)
    | some l =>
      if l.nlev ≤ lv.val || !mSync (maplOf l lv.val) then .next (trap s pl .illop) else k pl g sp l

/-- BARL (R208). -/
def execBarl (h : Hd) (lv : Fin 8) (s : State) : Out :=
  syncLevel s lv fun _ _ _ l =>
    fpeIssue s fun pl g sp =>
      match networkOf l lv.val with
      | .groups =>
        let b := BarAt.level lv.val .barl
        .next (barWord s pl g sp b 0 1 [] fun s g sp =>
          barwTail s pl g sp 1 (barKey pl.core g b) (finBar s pl sp h (barKey pl.core g b)))
      | .lanes => .next (laneBar s pl g sp h)
      | .alone => if memDone g sp then .next (finish s pl g sp h (sp.owes 1)) else .next (waitIssued s pl g sp 1 (.performed 4))

/-- Ends a REDL with the results of its threads. -/
def redlFinish (s : State) (pl : Place) (g : Group) (sp : Split) (h : Hd) (d : Opnd) (vals : List (Nat × Word)) : State :=
  let (g, sp) := deliver g sp pl.split .a none .var d vals
  finish { s with free := s.free + 1 } pl g sp h (sp.owes (perThreadOcc sp.mask))

/-- Marks the results of a REDL that outlast a phase boundary (R331). -/
def markRedl (split : Nat) (d : Opnd) (g : Group) : Group :=
  { g with results := g.results.map fun r =>
      if r.split == split && r.dst == d && !r.dead then { r with redl := true } else r }

/-- The end of a REDL over groups. -/
def redlGroupEnd (s : State) (pl : Place) (sp : Split) (h : Hd) (d : Opnd) (k : BarKey) (g : Group) : State :=
  let vals := match g.redl with
    | some rs => rs.filter fun p => sp.mask.getLsbD p.1
    | none => []
  let phase := isPhased s g
  let s := redlFinish s pl { g with redl := g.redl.map fun rs => rs.filter fun p => !sp.mask.getLsbD p.1 } sp h d vals
  if phase && isTeamBar k then
    match groupAt s pl.core pl.slot with
    | some g => holdPhase (setGroup s pl.core pl.slot (markRedl pl.split d g)) pl
    | none => s
  else s

/-- What every split of the group read at its REDL (R207). -/
def redlVals (g : Group) (n : Nat) (sp : Split) : Tab Word :=
  (sp.vals ++ (otherSplits g n).flatMap fun p => p.2.vals).mergeSort fun a b => decide (a.1 ≤ b.1)

/-- REDL (R207). -/
def execRedl (h : Hd) (op : RedOp) (ty : RTy) (d a : Opnd) (lv : Fin 8) (s : State) : Out :=
  syncLevel s lv fun pl g sp l =>
    if lvOpspec g false d || namesBad g [a] then .next (trap s pl .opspec)
    else if hazard g sp pl.split [a] (if sp.stage = 0 then [d] else []) then .next (trap s pl .hazard)
    else fpeIssue s fun pl g sp =>
      let rd := fun t => readOp g sp s.free (rConv ty) t a
      match mKind (maplOf l lv.val) with
      | 1 =>
        let rs := mapEls (rBits ty) fun k => redList op ty (sp.mask.threads.map fun t => subEl (rBits ty) (rd t) k)
        .next (redlFinish s pl (raiseFlags g rs.2) sp h d (sp.mask.threads.map fun t => (t, rs.1)))
      | 2 =>
        let b := BarAt.level lv.val (.redl op ty)
        let k := barKey pl.core g b
        let sp := if sp.vals.isEmpty && sp.stage = 1 then { sp with vals := sp.mask.threads.map fun t => (t, rd t) } else sp
        .next (barWord s pl g sp b 0 (perThreadOcc sp.mask) (redlVals g pl.split sp) fun s g sp =>
          barwTail s pl g sp (perThreadOcc sp.mask) k (redlGroupEnd s pl sp h d k))
      | _ =>
        let rs := sp.mask.threads.map fun t => (t, mapEls (rBits ty) fun k => redList op ty [subEl (rBits ty) (rd t) k])
        .next (redlFinish s pl (raiseFlags g (rs.foldl (fun f r => f ||| r.2.2) 0)) sp h d
          (rs.map fun r => (r.1, r.2.1)))

end Sys2Proof.Machine
end

