-- ==== Sys2Proof/Machine/Placement.lean ====
section
/-! DEFINITION. Placement of teams, starts of groups, ends of launches, slices and token budgets (R199, R265, R326–R339). -/

namespace Sys2Proof.Machine

/-! ### Placing (R265, R327, R328, R331, R333) -/

/-- The lane pipe with the fewest bound groups. -/
def leastPipe (k : Core) : Nat :=
  (List.range Config.pipes).foldl (fun b p => if pipeGroups k p < pipeGroups k b then p else b) 0

/-- A group as it will start (R131, R198, R199). -/
def freshGroup (n : Nat) (l : Launch) (team gnum : Nat) : Group :=
  let lanes : Mask := BitVec.ofNat 32 (2 ^ l.lanes - 1)
  { launch := n, part := l.part, stream := l.stream, lseq := l.lseq, team := team, gnum := gnum, pipe := 0
    valloc := l.valloc, debug := l.debug, isTender := none, vregs := [], gregs := [], pregs := [], tregs := [], fstat := 0
    trrec := TrapRec.reset, gdbg := 0
    splits := [(0, { pc := l.entry, word := 0, mask := lanes, lc := [], stack := [], run := Run.start, running := false
                     wait := none, unfin := none, stage := 0, await := [], vals := []
                     paid := false })]
    defers := [], last := 3, stopped := false, origin := .fresh, started := false, hold := 0, saveAt := 0
    results := [], pend := [], trbs := []
    fmt := none, engFlags := 0, infeas := false, copyErr := none, arrived := [], acks := [], watch := none
    stepDue := false, redl := none, wrote := [], stalls := [], gissue := 0, gwords := 0, tstart := 0 }

/-- The groups of a team: from its record, or fresh. -/
def teamStart (l : Launch) (n team : Nat) : List GroupRec :=
  match recordOf l team with
  | some r => r.groups
  | none => (List.range l.groups).map fun g => { gnum := g, grp := freshGroup n l team g, recs := [], at' := 0 }

/-- Binds a group to a slot and a lane pipe; it starts at the given cycle (R328). -/
def bindGroup (clock : Word) (start : Nat) (k : Core) (r : GroupRec) : Core :=
  let slot := ((List.range Config.slots).find? (slotOpen clock.toNat k)).getD 0
  let g := { waitedGroup clock r with pipe := leastPipe k, started := false, hold := start }
  { k with
    slots := tabPut slot g k.slots, vgran := k.vgran + g.valloc / 8
    waiting := k.waiting ++ r.recs.map fun w => { slot := slot, word := w } }

/-- Gives a team the granules from `base` on. -/
def giveGranules (k : Core) (n team base count : Nat) : Core :=
  (List.range count).foldl (fun k i => { k with granules := tabPut (base + i) (n, team) k.granules }) k

/-- The slot of group `gnum` of a team on a core. -/
def slotOf (k : Core) (n team gnum : Nat) : Nat :=
  match (teamGroups k n team).find? fun x => x.2.gnum == gnum with
  | some x => x.1
  | none => 0

/-- Adds to a 20-bit scratchpad offset in a word. -/
def moveOffset (d : BitVec 20) (lo : Nat) (w : Word) : Word :=
  (w &&& ~~~(0xFFFFF#64 <<< lo)) ||| (((w.extractLsb' lo 20 + d).zeroExtend 64) <<< lo)

/-- The operands of a stopped MMT for a team whose granules have moved by d bytes, so that its steps address the same
bytes of the team's scratchpad (R265; DESIGN CHOICE, log 56). -/
def moveMmt (d : BitVec 20) (r : MmtRun) : MmtRun :=
  { r with
    ds := [moveOffset d 40 (moveOffset d 0 (r.ds.getD 0 0)), moveOffset d 0 (r.ds.getD 1 0), r.ds.getD 2 0]
    f := { r.f with f0 := moveOffset d 20 r.f.f0 } }

/-- The array of a team stopped under R265: its claim and state come back but for the plan registers and PLANST (R272),
and the MMT goes on with its slips. -/
def restoreArray (k : Core) (c n team : Nat) (d : BitVec 20) (a : MArray) : Core :=
  match a.mmt with
  | none => k
  | some r =>
    let slot := slotOf k n team r.slot
    let r := moveMmt d { r with op := k.nextOp, slot := slot }
    let m := { a with
      dph := k.array.dph, rate := k.array.rate, down := k.array.down, wait := k.array.wait
      short := k.array.short, fill := k.array.fill, claim := some (n, team), mrow := [], mcol := [], srow := [], scol := []
      planst := 0, mmt := some r }
    let k := addSlips k slot k.nextOp (opRanges c (.mmt r.ds r.f))
    { k with array := m, nextOp := k.nextOp + 1 }

/-- Brings back what only a record holds: scratchpad, array, logical time. -/
def restoreTeam (s : State) (c n base : Nat) (r : TeamRec) : State :=
  let s := r.scr.foldl (fun s x => putByte s (Config.scratchKey + 2 ^ 20 * c + 4096 * base + x.1) x.2) s
  let s := match r.array with
    | some a => setCore s c (restoreArray (coreOf s c) c n r.team (BitVec.ofNat 20 (4096 * base) - BitVec.ofNat 20 (4096 * r.base)) a)
    | none => s
  setCoreTime s c (Nat.max (coreTime s c) r.time)

/-- Cycles from placement to the start of the groups (R328, R331). -/
def startDelay (l : Launch) (team : Nat) : Nat :=
  16 + 8 * launchGranules l +
    (match recordOf l team with
    | some r => if r.whole then 0 else 64 + 32 * carried l
    | none => 0)

/-- Places a team on a core. -/
def placeTeam (s : State) (d : Nat) (q : StreamId) (c n team : Nat) (l : Launch) : State :=
  let sg := launchGranules l
  let base := (freeRun s.clock.toNat (coreOf s c) sg).getD 0
  let s := zeroRange s (Config.scratchKey + 2 ^ 20 * c + 4096 * base) (4096 * sg)
  let k := giveGranules { coreOf s c with freed := cooling s.clock.toNat (coreOf s c) } n team base sg
  let s := setCore s c ((teamStart l n team).foldl (bindGroup s.clock (s.clock.toNat + startDelay l team)) k)
  let s := match recordOf l team with
    | some r => restoreTeam s c n base r
    | none => s
  let s := setLaunch s n
    { l with records := l.records.filter (fun r => r.team != team)
             sliceT := if l.slice ≠ 0 && l.sliceT.isNone then some s.clock.toNat else l.sliceT }
  let x := streamOf s q
  let s := setStream s q { x with teams := popTeam x.teams }
  let y := dieOf s d
  let s := setDie s d
    { y with lastPart := q.part, lastStream := tabPut q.part q.num y.lastStream, nextAt := s.clock.toNat + 8 }
  serveHeld (restartStarve s q.part) q

/-- A team's phase record fails its CRC: the launch ends with BADPHASE (R332). -/
def badRecord (s : State) (l : Launch) (team : Nat) : Bool :=
  match recordOf l team with
  | some r => recBroken s l r
  | none => false

/-- TEAM_PLACEMENT by the dispatcher of a die (R327–R329). -/
def execTeamPlacement (d : Nat) (s : State) : Out :=
  match nextPlacement s d with
  | none => .next s
  | some (q, c, n, team, l) =>
    if badRecord s l team then .next (endLaunch s n 7) else .next (placeTeam s d q c n team l)

/-- GROUP_START (R199, R328): b0 is resolved but for a group that was saved whole (R128, R333), and a group that starts
for the first time takes its start time. -/
def execGroupStart (c slot : Nat) (s : State) : Out :=
  match groupAt s c slot with
  | none => .next s
  | some g =>
    if g.started || decide (s.clock.toNat < g.hold) then .next s
    else
      match launchOf s g.launch with
      | none => .next s
      | some l =>
        .next (setGroup s c slot { g with
          started := true
          tregs := if g.origin = .whole then g.tregs else tabPut 0 (trbResult s c g 0 l.data) g.tregs
          tstart := if g.origin = .fresh then s.clock else g.tstart })

/-! ### Ends and slices (R326, R338, R339) -/

/-- No team of the launch waits in its stream's queue. -/
def noneQueued (s : State) (n : Nat) (l : Launch) : Bool :=
  (streamOf s ⟨l.part, l.stream⟩).teams.all fun t => t.launch != n

/-- The launch's last team has retired, and no phase of it is queued. -/
def launchOver (s : State) (n : Nat) (l : Launch) : Bool :=
  l.status == 0 && decide (l.teams ≤ l.retired) && noneQueued s n l && l.recPend.isEmpty

/-- LAUNCH_END (R326). -/
def execLaunchEnd (n : Nat) (s : State) : Out :=
  match launchOf s n with
  | none => .next s
  | some l => if launchOver s n l then .next (dropLaunch (closeLaunch (dropHostLines s l.part) n 1) n) else .next s

/-- The lowest team of the launch that no core has held: NEXT (R324). -/
def lowestUnplaced (s : State) (n : Nat) (l : Launch) : Nat :=
  ((streamOf s ⟨l.part, l.stream⟩).teams.filter fun t => t.launch == n && (recordOf l t.first).isNone).foldl
    (fun b t => Nat.min b t.first) l.teams

/-- Pre-empts a launch: the streams with a waiting head come first (R338). -/
def preemptLaunch (s : State) (n : Nat) (l : Launch) : State :=
  let q : StreamId := ⟨l.part, l.stream⟩
  let held := (allStreams s).filter fun x => x != q && (headTeam (streamOf s x)).isSome
  let s := recWrite s (launchAgent s l) n (.preempt (lowestUnplaced s n l))
  match launchOf s n with
  | some l => setStream (setLaunch s n { l with preempted := !held.isEmpty, sliceT := none }) q { streamOf s q with held := held }
  | none => s

/-- Some other stream has a head team that fits nowhere. -/
def otherStuck (s : State) (q : StreamId) : Bool := (allStreams s).any fun x => x != q && headStuck s x

/-- The last cycle of a launch's slice. -/
def sliceEnd (l : Launch) (t : Nat) : Nat := t + 1500 * l.slice

/-- The launch's last team retired no later than its slice expired (R339). -/
def sliceDone (s : State) (n : Nat) (l : Launch) (t : Nat) : Bool :=
  l.status != 0 || (launchOver s n l && decide (l.retiredAt.toNat ≤ sliceEnd l t))

/-- SLICE_EXPIRY, taken when every exit of the cycle of the expiry has been made (R338, R339): what a team frees after that
cycle still holds the head of another stream back (DEDUCED, log 51). While the package is hot every launch is pre-empted
(R377). -/
def execSliceExpiry (n : Nat) (s : State) : Out :=
  match launchOf s n with
  | none => .next s
  | some l =>
    match l.sliceT with
    | none => .next s
    | some t =>
      if s.clock.toNat ≤ sliceEnd l t || sliceDone s n l t then .next s
      else if s.hot || otherStuck { s with clock := BitVec.ofNat 64 (sliceEnd l t) } ⟨l.part, l.stream⟩ then
        .next (preemptLaunch s n l)
      else .next (setLaunch s n { l with sliceT := some (sliceEnd l t) })

/-! ### Token budgets (R334–R336) -/

/-- BUDGET_PERIOD: at a period boundary every balance is refilled; then tenants borrow (R336). -/
def execBudgetPeriod (s : State) : Out :=
  if since s s.budAt < budgetPer s then .next s
  else
    .next ([0, 1, 2].foldl (fun s r => setBudgets s r (settled s r ((budgetsOf s r).map fun b => (b.1, refill b.2))))
      { s with budAt := s.budAt + BitVec.ofNat 64 (budgetPer s) })

/-- Group slots that a partition holds. -/
def slotsHeld (s : State) (p : Nat) : Nat := (s.cores.map fun c => (c.2.slots.filter fun x => x.2.part == p).length).sum

/-- LAUNCH_TOKEN_TICK: every 1,500 cycles each partition is charged one token for each group slot that it holds
(R334). -/
def execLaunchTokenTick (s : State) : Out :=
  if since s s.tokAt < 1500 then .next s
  else .next (chargeAll { s with tokAt := s.tokAt + 1500 } 0 (slotsHeld s))

end Sys2Proof.Machine
end

