-- ==== Sys2Proof/Machine/Stops.lean ====
section
/-! DEFINITION. What Jalov and the debugger do with groups that do not run: starvation and DEADLOCK (R189, R190), stops,
resumptions and ends (R34, R222, R349, R350, R356, R357), and the end of a SELFTEST (R362). -/

namespace Sys2Proof.Machine

/-! ### STARVE and DEADLOCK (R189, R190, R356) -/

/-- The partition has been starved for its starvation interval (R189). -/
def starved (s : State) (p : Nat) : Bool :=
  isStarving s p && decide ((partOf s p).starvint.toNat ≤ since s (partOf s p).starveAt)

/-- Some resident team of the partition can be spilled (R333). -/
def canSpill (s : State) (p : Nat) : Bool :=
  s.cores.any fun c => c.2.slots.any fun x =>
    x.2.part == p && isPhased s x.2 && !teamClaims c.2 x.2.launch x.2.team

/-- The memory operand of a word on which a group can wait in a reading room. -/
def roomWord : Instr → Option MemWord
  | .ld _ sz t b x sc d | .lds _ sz t b x sc d =>
    some { op := .ld false, n := szBytes sz, t := t, conv := .int 64, b := b, x := x, scale := sc, disp := d.toNat }
  | .st _ sz t b x sc d =>
    some { op := .st, n := szBytes sz, t := t, conv := .int 64, b := b, x := x, scale := sc, disp := d.toNat }
  | .frd _ t b x sc =>
    some { op := .frd, n := 8, t := t, conv := .int 64, b := b, x := x, scale := sc, disp := 0 }
  | .waitm _ cond w t b x sc =>
    some { op := .waitm cond, n := wideBytes w, t := t, conv := .int 64, b := b, x := x, scale := sc, disp := 0 }
  | _ => none

/-- The word at which a split stands. -/
def roomWordOf (s : State) (c : Nat) (g : Group) (sp : Split) : Option MemWord :=
  match decodeWord (codeWord s c g sp.pc sp.word) with
  | .ok i => roomWord i
  | .error _ => none

/-- The address that the lowest waiting thread of a split awaits. -/
def roomAddr (s : State) (c : Nat) (g : Group) (sp : Split) : Word :=
  match roomWordOf s c g sp with
  | none => 0
  | some w =>
    match memKeys sp w with
    | t :: _ => w.ea g (readOp g sp s.free (.int 64) t w.x)
    | [] => 0

/-- The scope codes of R176. -/
def scopeCode : Scope → Nat
  | .core => 0
  | .quad => 1
  | .die => 2
  | .pkg => 3
  | .pod => 4
  | .lane => 5
  | .sys => 6
  | .eng => 7

/-- The awaited field for a barrier: scope and id. -/
def barField (sc : Scope) (id : Nat) : Word := BitVec.ofNat 64 (scopeCode sc + 8 * (id % 16))

/-- Code of R356 and awaited field of the barrier at a key. -/
def keyWait : BarKey → Nat × Word
  | .core _ _ id => (3, barField .core id)
  | .quad _ _ id => (3, barField .quad id)
  | .die _ _ id => (3, barField .die id)
  | .pkg _ id => (3, barField .pkg id)
  | .pod _ id => (3, barField .pod id)
  | .level _ _ lv => (6, BitVec.ofNat 64 (lv % 8))

/-- The split waits on a future word. -/
def onFuture (s : State) (c : Nat) (g : Group) (sp : Split) : Bool :=
  match roomWordOf s c g sp with
  | some w => w.op == .frd
  | none => false

/-- The wait code and the awaited field of R356. -/
def stallWait (s : State) (c : Nat) (g : Group) (sp : Split) : Nat × Word :=
  match sp.wait with
  | some .reading => (if onFuture s c g sp then 0 else 1, roomAddr s c g sp)
  | some (.endpoint _) => (2, roomAddr s c g sp)
  | some (.gather (.scope sc id)) => (3, barField sc id)
  | some (.gather (.level lv _)) => (6, BitVec.ofNat 64 (lv % 8))
  | some (.barrier k _) => keyWait k
  | some .lane => (3, barField .lane 0)
  | some (.events _) => (4, 0)
  | some .claim => (5, 0)
  | _ => (0, 0)

/-- The DEADLOCK entry of a group (R356); its lowest split stands for it (DEDUCED, log 30). -/
def deadlockEntry (s : State) (c : Nat) (g : Group) : List Byte :=
  match g.splits with
  | [] => []
  | (_, sp) :: _ =>
    let (k, a) := stallWait s c g sp
    wordBytes [2 + 2 ^ 8 * k + 2 ^ 12 * sp.word, (cgid g).toNat, sp.pc.toNat, a.toNat]

/-- Lists a launch's live groups in its record area and ends it with DEADLOCK (R190; DEDUCED, log 37). -/
def deadlock (s : State) (n : Nat) : State :=
  match launchOf s n with
  | none => s
  | some l =>
    let gs := (launchGroups s n).filter fun x => liveMask x.2.2 != 0
    endLaunch (gs.foldl (fun s x => recWrite s (launchAgent s l) n (.append (deadlockEntry s x.1 x.2.2))) s) n 5

/-- The launches of a partition with resident groups. -/
def stalledLaunches (s : State) (p : Nat) : List Nat :=
  (s.launches.filter fun l => l.2.part == p && l.2.status == 0 && !(launchGroups s l.1).isEmpty).map (·.1)

/-- STARVE is raised to Jalov (R190); a further interval begins. -/
def raiseStarve (s : State) (p : Nat) : State :=
  report (setPart s p { partOf s p with starveAt := s.clock, starving := true }) (.starve p)

/-- STARVE (R190): raised to Jalov; where no spill is possible Jalov ends the stalled launches. -/
def execStarve (p : Nat) (s : State) : Out :=
  if !starved s p then .next s
  else
    .next (if canSpill s p then raiseStarve s p else (stalledLaunches s p).foldl deadlock (raiseStarve s p))

/-! ### Resumption and end (R34, R222, R349, R350) -/

/-- The split of a thread: that in which it is active, or that whose deferral entry holds it (R216). -/
def splitOf (g : Group) (t : Nat) : Option (Nat × Split) :=
  g.splits.find? fun p => p.2.mask.getLsbD t || g.defers.any fun d => d.owner == p.1 && d.mask.getLsbD t

/-- Writes a register of a thread that has not exited; v registers lie below the allocation (R38). -/
def editThread (g : Group) (t : Nat) (o : Opnd) (x : Word) : Group :=
  match splitOf g t with
  | none => g
  | some p =>
    match o with
    | .v _ | .o _ | .p _ =>
      if badName g.valloc o then g
      else
        let (g, sp) := writeThread o x t g p.2
        setSplit g p.1 sp
    | _ => g

/-- A translation register from its two words (R128). -/
def tregOfWords (a b : Word) : TReg :=
  { v := a.getLsbD 63, mt := a.extractLsb' 61 2, rd := a.getLsbD 60, wr := a.getLsbD 59
    base := (a.extractLsb' 0 57).signExtend 64, psz := b.extractLsb' 62 2, pa := b.extractLsb' 0 52 }

/-- A change of a register before the resumption, under the access codes of its map (R81, R343, R349). -/
def editGroup (g : Group) : RegEdit → Group
  | .thread t o x => editThread g t o x
  | .group n x => { g with gregs := tabSet 0 g.gregs n.val x }
  | .fstat x => { g with fstat := writeFstat g.fstat x }
  | .gdbg x => { g with gdbg := x.extractLsb' 0 2 }
  | .trreg n a b => { g with tregs := tabPut n.val (tregOfWords a b) g.tregs }

/-- The split passes its word without effect; after TRAP and SYSCALL it stands at the next packet (R349), and so after every
control-transfer word, whose later words in the packet never issue (R26). At another packet it starts a run (R25, R34). -/
def skipWord (w : IWord) (call : Bool) (sp : Split) : Split :=
  let (pc, word) := if call || isControl w then (sp.pc + 1, 0) else nextPos sp.pc sp.word
  let r := { sp.run with words := sp.run.words + 1 }
  if wS w || word == 0 then { sp.done with pc := pc, word := word, run := Run.start, running := false }
  else if wC w then { sp.done with pc := pc, word := word, run := r }
  else { sp.done with pc := pc, word := word, run := { r with bundle := r.bundle + 1, checked := false, occ := 0 } }

/-- The cycles of the bundle's words that did issue, where the skipped word ends the bundle (R24). -/
def skipCycles (w : IWord) (call : Bool) (sp : Split) : Nat :=
  if wC w && !wS w && decide (sp.word < 2) && !call && !isControl w then 0 else sp.run.occ

/-- The split that stopped takes its word again; it meets a page again that Jalov had resumed with PROT. -/
def replayWord (sp : Split) : Split :=
  match sp.wait with
  | some (.fault _ _ true) => { sp with wait := none }
  | _ => sp

/-- The word at which the group stopped is TRAP or SYSCALL. -/
def isCall (g : Group) : Bool := g.trrec.kind == 1 || g.trrec.kind == 2

/-- The group as it goes on. -/
def resumed (s : State) (c : Nat) (g : Group) (how : Resume) : Group :=
  let g := { g with stopped := false }
  let n := g.trrec.split.toNat
  match splitAt g n with
  | none => g
  | some sp =>
    match how with
    | .replay => setSplit g n (replayWord sp)
    | .skip =>
      setSplit g n (skipWord (codeWord s c g sp.pc sp.word) (isCall g) sp)

/-- A stop for the debugger: BKPT, STEP, WATCH or KIND 11 (R349). -/
def isDebugStop (r : TrapRec) : Bool :=
  r.kind == 3 || (r.kind == 0 && [causeCode .bkpt, causeCode .step, causeCode .watch].contains r.cause)

/-- The debugger chooses how the group goes on (DBGCTL.HOLD, R349). -/
def isHeld (s : State) (g : Group) : Bool := (partOf s g.part).dbgctl.getLsbD 1 && isDebugStop g.trrec

/-- A stop with FPE, which Jalov may replay with the flags cleared; with flags left the word traps again (R83, R349). -/
def isFpeStop (r : TrapRec) : Bool := r.kind == 0 && r.cause == causeCode .fpe

/-- The group may go on in this way: one that waits for the debugger in any; Jalov skips a SYSCALL and replays an FPE (R83, R349;
DEDUCED, log 17). -/
def mayResume (s : State) (g : Group) (how : Resume) : Bool :=
  g.stopped
    && (isHeld s g || (g.trrec.kind == 2 && how == .skip) || (isFpeStop g.trrec && how == .replay))

/-- The record of a stop for the debugger where a split stands. -/
def stopHere (c : Cause) (n : BitVec 2) (sp : Split) (a : Word) : TrapRec :=
  { cause := causeCode c, kind := 0, split := n, word := BitVec.ofNat 2 sp.word, code := 0, pc := sp.pc, addr := a }

/-- What is due as a group goes on, before any later word issues: a WATCH that a performed access of a skipped word has matched
(R360), or the STEP of the bundle after which a WATCH was taken (R361). -/
def dueStop (s : State) (c slot : Nat) (how : Resume) : State :=
  match groupAt s c slot with
  | none => s
  | some g =>
    let n := g.trrec.split
    match splitAt g n.toNat with
    | none => s
    | some sp =>
      match g.watch, how with
      | some a, .skip => stopGroup (setGroup s c slot { g with watch := none }) c slot (stopHere .watch n sp a)
      | _, _ =>
        let s := setGroup s c slot { g with stepDue := false }
        if g.stepDue && steps g then stopGroup s c slot (stopHere .step n sp 0) else s

/-- The cycles of the bundle that a skip ends pass (R24, R351). -/
def paySkip (s : State) (c slot : Nat) (g : Group) (how : Resume) : State :=
  let n := g.trrec.split.toNat
  match how, splitAt g n with
  | .skip, some sp =>
    let k := skipCycles (codeWord s c g sp.pc sp.word) (isCall g) sp
    if k = 0 then s else advance s k (some ⟨c, slot, n⟩)
  | _, _ => s

/-- GROUP_RESUME (R34, R349). -/
def execGroupResume (c slot : Nat) (how : Resume) (edits : List RegEdit) (s : State) : Out :=
  match groupAt s c slot with
  | none => .next s
  | some g =>
    if mayResume s g how then
      let s := paySkip s c slot g how
      match groupAt s c slot with
      | none => .next s
      | some g => .next (dueStop (setGroup s c slot (resumed s c (edits.foldl editGroup g) how)) c slot how)
    else .next s

/-- The trap entry of a stopped group (R356). -/
def trapEntry (g : Group) : List Byte :=
  let r := g.trrec
  wordBytes [3 + 2 ^ 8 * r.cause.toNat + 2 ^ 16 * r.code.toNat + 2 ^ 30 * r.word.toNat, (cgid g).toNat, r.pc.toNat,
    r.addr.toNat]

/-- A write to the launch's record area was dropped (R378). -/
def recordLost (s : State) (n : Nat) : Bool :=
  s.reports.any fun r =>
    match r with
    | .recDrop m _ => m == n
    | _ => false

/-- ENDED: a group has stopped on anything but a SYSCALL, or a write to the record area was dropped (R222, R349, R378). -/
def execEnded (n : Nat) (s : State) : Out :=
  match launchOf s n with
  | none => .next s
  | some l =>
    let gs := (launchGroups s n).filter fun x => x.2.2.stopped && x.2.2.trrec.kind != 2
    if l.status ≠ 0 || (gs.isEmpty && !recordLost s n) then .next s
    else .next (endLaunch (gs.foldl (fun s x => recWrite s (launchAgent s l) n (.append (trapEntry x.2.2))) s) n 6)

/-- The split at which the debugger stops a group. -/
def stopSplit (g : Group) : Option (Nat × Split) :=
  match splitAt g g.last with
  | some sp => some (g.last, sp)
  | none => g.splits.head?

/-- The group is inside a bundle, which ends before a stop takes effect (R357). -/
def inBundle (s : State) (c slot : Nat) (g : Group) : Bool :=
  match s.turn with
  | some pl =>
    pl.core == c && pl.slot == slot &&
      (match splitAt g pl.split with
      | some sp => sp.run.checked
      | none => false)
  | none => false

/-- DEBUGGER_STOP (R357): KIND 11 at the next bundle boundary. -/
def execDebuggerStop (c slot : Nat) (s : State) : Out :=
  match groupAt s c slot with
  | none => .next s
  | some g =>
    match stopSplit g with
    | none => .next s
    | some (n, sp) =>
      if g.stopped || g.isTender.isSome || inBundle s c slot g then .next s
      else
        .next (stopGroup s c slot
          { cause := 0, kind := 3, split := BitVec.ofNat 2 n, word := BitVec.ofNat 2 sp.word, code := 0, pc := sp.pc
            addr := 0 })

/-! ### SELFTEST_DONE (R362) -/

/-- DONE, FAIL, FIRST and COUNT. -/
def selfWord (first : BitVec 16) (count : BitVec 32) : Word :=
  BitVec.ofBool true ++ 0#1 ++ BitVec.ofBool (count != 0) ++ 0#13 ++ (if count = 0 then 0 else first) ++ count

/-- What a pattern leaves in its structure. -/
def selfClear (s : State) (c pattern : Nat) : State :=
  let k := coreOf s c
  match pattern with
  | 0 => zeroRange s (Config.scratchKey + 2 ^ 20 * c) (2 ^ 20)
  | 2 => setCore s c { k with l1 := [] }
  | 3 => setCore s c { k with icache := [] }
  | 4 => setCore s c { k with array := { k.array.cleared with claim := k.array.claim } }
  | 5 => postRecords (setCore s c { k with room := [], forks := [], pred := [], events := [] }) c 64
  | _ => s

/-- SELFTEST_DONE. -/
def execSelftestDone (c slot : Nat) (first : BitVec 16) (count : BitVec 32) (s : State) : Out :=
  let k := coreOf s c
  match k.self.find? fun x => x.slot == slot with
  | none => .next s
  | some x =>
    let s := selfClear (setCore s c { k with self := k.self.filter (· != x) }) c x.pattern
    match groupAt s c slot with
    | none => .next s
    | some g => .next (setGroup s c slot (fillResult g x.op fun _ => selfWord first count))

end Sys2Proof.Machine
end

