-- ==== Sys2Proof/Machine/Registers.lean ====
section
/-! DEFINITION. Writes of registers from outside the instruction stream (R343): what the host, Jalov and the debugger write
(R269, R311, R335, R344, R346, R358–R360, R367, R373), and the margin runs of a link lane (R373). -/

namespace Sys2Proof.Machine

/-! ### Partitions, streams, package -/

/-- Writes one of a partition's own registers, 0x0C00 to 0x0C1F, by the access codes of its map; read-only bits keep
reading 0. -/
def writePart (p : Part) (n : Nat) (x : Word) : Part :=
  match n with
  | 0xC00 => { p with ptroot := x &&& 0x000FFFFFFFFFF000 }
  | 0xC01 => { p with sdbase := x }
  | 0xC02 => { p with sdlen := x }
  | 0xC04 => { p with lease := x.setWidth 8 }
  | 0xC05 => { p with starvint := x.setWidth 32 }
  | 0xC06 => { p with pcfg := x.setWidth 2 }
  | 0xC07 => { p with dbgctl := x.setWidth 2 }
  | 0xC08 => { p with hwbase := x &&& 0xFFFFFFFFFFFF0000 }
  | n =>
    if 0xC10 ≤ n ∧ n ≤ 0xC13 then { p with ibp := tabPut (n - 0xC10) x p.ibp }
    else if 0xC18 ≤ n ∧ n ≤ 0xC1B then { p with wpa := tabPut (n - 0xC18) x p.wpa }
    else if 0xC1C ≤ n ∧ n ≤ 0xC1F then { p with wpc := tabPut (n - 0xC1C) (x &&& 0xE0000000FFFFFFFF) p.wpc }
    else if 0xC20 ≤ n ∧ n ≤ 0xC22 then
      let b := budgetOf p (n - 0xC20)
      { p with budgets := tabPut (n - 0xC20) { b with cfg := x &&& 0xFFFFFFFFFFFFC000 } p.budgets }
    else p

/-- Writes register k of a stream: SQHEAD and SQERR are read-only (R311). -/
def writeStream (s : State) (q : StreamId) (k : Nat) (x : Word) : State :=
  match k with
  | 0 => setStream s q { streamOf s q with base := x }
  | 1 => writeSqctl s q x
  | 3 => writeSqtail s q x
  | 5 => setStream s q { streamOf s q with sqpid := x }
  | _ => s

/-- LNKST: a write clears DROP and RETRY (R309). -/
def writeLnkst (s : State) (port : Nat) : State := setPort s port { portOf s port with drop := 0, retry := 0 }

/-- Writes a system register of a partition or of the package (R344); other numbers are read-only or not listed. -/
def writeSys (s : State) (part n : Nat) (x : Word) : State :=
  if n = 0x1000 then { s with budper := x.setWidth 32 }
  else if 0x1010 ≤ n ∧ n < 0x1022 then writeLnkst s (n - 0x1010)
  else if Config.parts ≤ part then s
  else if n = 0xC03 then (if x.getLsbD 0 then shootPart s part else s)
  else if 0xC40 ≤ n ∧ n < 0xCC0 then writeStream s ⟨part, (n - 0xC40) / 8⟩ ((n - 0xC40) % 8) x
  else if 0xC00 ≤ n ∧ n < 0xC40 then setPart s part (writePart (partOf s part) n x)
  else s

/-- Writes a register of a group: FSTAT and GDBG (R81, R358). -/
def writeGroup (s : State) (c slot n : Nat) (x : Word) : State :=
  match groupAt s c slot with
  | none => s
  | some g =>
    match n with
    | 0 => setGroup s c slot { g with fstat := writeFstat g.fstat x }
    | 5 => setGroup s c slot { g with gdbg := x.setWidth 2 }
    | _ => s

/-! ### Margining (R373) -/

/-- Margining is available in MANUFACTURE and RMA (R366). -/
def mayMargin (s : State) : Bool := s.life == .manufacture || s.life == .rma

/-- OFFS is clamped to −20 to +20. -/
def clampOffs (x : BitVec 8) : BitVec 8 := if x.toInt < -20 then -20 else if 20 < x.toInt then 20 else x

/-- Writes VMARG of a die. -/
def writeVmarg (s : State) (d : Nat) (x : Word) : State :=
  if mayMargin s && decide (d < Config.dies) then { s with vmarg := tabPut d (clampOffs (x.setWidth 8)) s.vmarg } else s

/-- The number of a lane among all the ports' lanes. -/
def laneKey (port lane : Nat) : Nat := 4 * port + lane

/-- LMARG of a lane. -/
def lmargOf (s : State) (port lane : Nat) : Lmarg := tabGet Lmarg.reset s.lmarg (laneKey port lane)

/-- Writes it. -/
def setLmarg (s : State) (port lane : Nat) (m : Lmarg) : State := { s with lmarg := tabPut (laneKey port lane) m s.lmarg }

/-- Bit `lane` of a lane mask. -/
def laneBit (lane : Nat) : BitVec 4 := 1#4 <<< lane

/-- The lanes in service: those not retired, not in a margin run and not in calibration (R307, R373, R376). -/
def lanesNow (s : State) (port : Nat) (x : Port) : BitVec 4 :=
  (List.range 4).foldl (fun m l => if x.retired.getLsbD l || (lmargOf s port l).busy || s.phyLane == some (laneKey port l) then m else m ||| laneBit l) 0

/-- Recomputes LANES of a port. -/
def setLanes (s : State) (port : Nat) : State :=
  let x := portOf s port
  setPort s port { x with lanes := lanesNow s port x }

/-- Writes LMARG of a lane: TOFF and VOFF; RUN starts a margin run unless one is in progress, and takes the lane out of
service. -/
def writeLmarg (s : State) (port lane : Nat) (x : Word) : State :=
  if mayMargin s && decide (port < 18) && decide (lane < 4) then
    let m := lmargOf s port lane
    setLanes (setLmarg s port lane
      { m with toff := x.extractLsb' 8 8, voff := x.extractLsb' 0 8, busy := m.busy || x.getLsbD 31 }) port
  else s

/-- LMARG as it reads. -/
def lmargWord (m : Lmarg) : Word := m.err ++ 0#1 ++ BitVec.ofBool m.busy ++ 0#14 ++ m.toff ++ m.voff

/-- MARGIN_RUN (R373). -/
def execMarginRun (port lane : Nat) (x : Word) (s : State) : Out := .next (if s.ready then writeLmarg s port lane (x ||| 0x80000000) else s)

/-- PHY calibration goes on with the next lane, or ends after the last one (R376). -/
def nextPhy (s : State) (lane : Option Nat) : State :=
  let t : State := { s with phyLane := lane.bind fun n => if n < 72 then some n else none }
  let t := match s.phyLane with
    | some n => setLanes t (n / 4)
    | none => t
  match t.phyLane with
  | some n => setLanes t (n / 4)
  | none => t

/-- MARGIN_RUN_COMPLETE (R373): ERR takes the bit errors, and the lane returns to service. The calibration of a lane ends
in the same way (R376; DESIGN CHOICE, log 22). -/
def execMarginRunComplete (port lane : Nat) (err : BitVec 32) (s : State) : Out :=
  let m := lmargOf s port lane
  if m.busy then .next (setLanes (setLmarg s port lane { m with busy := false, err := err }) port)
  else if s.phyLane = some (laneKey port lane) then .next (nextPhy s (some (laneKey port lane + 1)))
  else .next s

/-! ### The events -/

/-- REGISTER_WRITE (R343); none is answered before the package is ready (R363). -/
def execRegisterWrite (r : RegName) (x : Word) (s : State) : Out :=
  if !s.ready then .next s
  else match r with
  | .sys part n => .next (writeSys s part n x)
  | .group c slot n => .next (writeGroup s c slot n x)
  | .vmarg d => .next (writeVmarg s d x)
  | .lmarg port lane => .next (writeLmarg s port lane x)

/-- LNKST_WRITE (R309). -/
def execLnkstWrite (port : Nat) (_x : Word) (s : State) : Out := .next (if s.ready then writeLnkst s port else s)

end Sys2Proof.Machine
end

