-- ==== Sys2Proof/Machine/Links.lean ====
section
/-! DEFINITION. What reaches the package from outside its cores: Thedel packets, flow control, replay and acknowledgements
(R178, R305–R309, R370), host accesses (R187, R367), stores of the housekeeping cluster (R138, R153, R162) and the service of
record-area faults (R378). -/

namespace Sys2Proof.Machine

/-! ### Thedel links -/

/-- Thedel ports of the package (R8). -/
def ports : Nat := 18

/-- The port is trained, in service, and has a lane. -/
def portLive (x : Port) : Bool := x.up && !x.failed

/-- A packet that travels on a link: 1 to 64 words (R158). -/
def isPacket (p : PodPacket) : Bool :=
  decide (p.port < ports) && decide (p.vl < 8) && decide (1 ≤ p.words.length) && decide (p.words.length ≤ 64)

/-- The packet is for this package and for a queue that is open to pod traffic (R305, R370). -/
def isMine (s : State) (p : PodPacket) (k : Packet) : Bool := p.opn && s.podNum == some (pktDest k)

/-- THEDEL_PACKET_DELIVERY (R305, R306): into the receive buffer of its lane, and on into its queue while that has room;
or dropped and counted. A packet for which the lane's buffer of 64 flits has no room does not arrive
(DESIGN CHOICE, log 14). -/
def execThedelPacketDelivery (p : PodPacket) (s : State) : Out :=
  let k : Packet := { words := p.words, trunc := p.trunc }
  let x := portOf s p.port
  if !isPacket p || !portLive x then .next s
  else if !isMine s p k then .next (setPort s p.port { x with drop := sat16 x.drop 1 })
  else if 64 < rxFlits x p.vl + flits k then .next s
  else
    let x := watermark { x with rx := tabSet [] x.rx p.vl (tabGet [] x.rx p.vl ++ [k]) } p.vl
    .next (pumpLane (setPort s p.port x) p.port p.vl (tabGet [] x.rx p.vl).length)

/-- STOP (R306): the peer's receiver stops this port's sender on a lane. -/
def execStop (port vl : Nat) (s : State) : Out :=
  let x := portOf s port
  if port < ports ∧ vl < 8 ∧ portLive x then .next (setPort s port { x with stops := tabSet false x.stops vl true })
  else .next s

/-- GO (R306): the sender goes on, its buffer empties, and stores that waited for room go on. -/
def execGo (port vl : Nat) (s : State) : Out :=
  let x := portOf s port
  if tabGet false x.stops vl then
    .next (wakeWindow (setPort s port { x with stops := tabSet false x.stops vl false, buf := tabSet 0 x.buf vl 0 })
      (thedelBase port vl))
  else .next s

/-- Words closed or stored on a lane after the packet at index i of the sent list. -/
def wordsAfter (x : Port) (i vl : Nat) : Nat :=
  (((x.sent.drop (i + 1)).filter fun e => e.vl == vl).map fun e => e.pkt.words.length).sum
    + (tabGet [] x.opened vl).length

/-- A packet for the sending package itself (R305). -/
def isLoop (s : State) (k : Packet) : Bool := s.podNum == some (pktDest k)

/-- The packet at index i of the sent list may be delivered: it is the oldest of its lane, it has left the send buffer
whole, and, of a packet for this package, its queue has room for all of it (R306). -/
def maySend (s : State) (x : Port) (i : Nat) (e : Sent) : Bool :=
  ((x.sent.take i).all fun y => y.vl != e.vl) && decide (tabGet 0 x.buf e.vl ≤ wordsAfter x i e.vl)
    && (!isLoop s e.pkt || !Config.podOpen (pktQueue e.pkt)
      || decide (queueWords (queueOf s (pktQueue e.pkt)) + e.pkt.words.length ≤ queueSize))

/-- The packets of a port that may be delivered now, by index. -/
def sendable (s : State) (x : Port) : List (Nat × Sent) :=
  (List.range x.sent.length).filterMap fun i =>
    match x.sent[i]? with
    | some e => if maySend s x i e then some (i, e) else none
    | none => none

/-- BAL of a partition for link tokens, signed. -/
def linkBal (s : State) (p : Nat) : Int := (budgetOf (partOf s p) 2).bal.toInt

/-- Partitions in the order in which a port serves them (R337). -/
def linkOrder (s : State) (x : Port) : List Nat :=
  let ps := robin Config.parts x.last
  ps.filter (fun p => decide (0 < linkBal s p)) ++ ps.filter fun p => decide (linkBal s p ≤ 0)

/-- The packet that a port serves next (R337). -/
def firstSent (s : State) (x : Port) : Option (Nat × Sent) :=
  (linkOrder s x).findSome? fun p => (sendable s x).find? fun r => r.2.part == p

/-- A packet for the sending package itself enters its queue, or is discarded and counted (R305). -/
def loopBack (s : State) (port : Nat) (k : Packet) : State :=
  if !isLoop s k then s
  else if Config.podOpen (pktQueue k) then enqueuePacket s (pktQueue k) k
  else setPort s port { portOf s port with drop := sat16 (portOf s port).drop 1 }

/-- Ends the waits of every group that a predicate selects. -/
def wakeEvery (s : State) (p : Wait → Bool) : State := s.cores.foldl (fun s c => wakeCore s c.1 p) s

/-- A group that waits for an acknowledgement no longer. -/
def Group.acked (id : Nat) (g : Group) : Group := { g with acks := g.acks.filter fun a => a.1 != id }

/-- No group waits for an acknowledgement any longer: none that is resident, none in the record of a saved team (R331,
R333). -/
def clearAck (s : State) (id : Nat) : State :=
  { s with
    cores := s.cores.map fun c => (c.1, { c.2 with slots := c.2.slots.map fun x => (x.1, x.2.acked id) })
    launches := s.launches.map fun l =>
      (l.1, { l.2 with records := l.2.records.map fun r =>
        { r with groups := r.groups.map fun x => { x with grp := x.grp.acked id } } }) }

/-- PACKET_ACKNOWLEDGEMENT (R178): the packet that a port serves next has entered its receive queue. Its partition is
charged a link token for each flit (R334). -/
def execPacketAcknowledgement (port : Nat) (s : State) : Out :=
  let x := portOf s port
  match firstSent s x with
  | none => .next s
  | some (i, e) =>
    let s := charge (setPort s port { x with sent := x.sent.eraseIdx i, last := e.part }) e.part 2 (flits e.pkt)
    .next (wakeEvery (clearAck (loopBack s port e.pkt) (port + 18 * e.id)) (· == .ack))

/-- A port that loses its last lane discards what is not acknowledged; what waits for it finds it dead (R307). -/
def failPort (s : State) (port : Nat) : State :=
  let x := portOf s port
  let s := setPort s port { x with failed := true, up := false, sent := [], opened := [], buf := [], stops := [] }
  (List.range 8).foldl (fun s vl => wakeWindow s (thedelBase port vl)) (wakeEvery s (· == .ack))

/-- Retires a lane (R307). -/
def retireLane (s : State) (port lane : Nat) : State :=
  let x := portOf s port
  let s := setLanes (setPort s port { x with retired := x.retired ||| laneBit lane }) port
  if (portOf s port).retired = 15 then failPort s port else s

/-- A link error on a lane (R307, R372): corrected by replay, counted and logged, or lasting. -/
def linkError (s : State) (port lane : Nat) (out : ErrOutcome) : State :=
  let x := portOf s port
  if port < ports ∧ lane < 4 ∧ portLive x ∧ x.lanes.getLsbD lane = true then
    match out with
    | .transient => report (setPort s port { x with retry := sat16 x.retry 1 }) (.error (.link port lane))
    | _ => report (retireLane s port lane) (.error (.link port lane))
  else s

/-- LINK_REPLAY (R307). -/
def execLinkReplay (port lane : Nat) (out : ErrOutcome) (s : State) : Out := .next (linkError s port lane out)

/-! ### The host (R187, R367, R373)

A host access names a function: the virtual function of partition 0 to 47, or 48 for the physical function. Offsets below
2^36 lie in BAR2; the model lays BAR0 behind it, at 2^36. -/

/-- The size of BAR2. -/
def bar2Bytes : Nat := 2 ^ 36

/-- Registers of a virtual function's BAR0 by offset. -/
def bar0Read (s : State) (fn o : Nat) : Word :=
  if o = 0x400 then (partOf s fn).hwbase
  else if o / 0x40 < 16 ∧ o % 0x40 / 8 < 5 then (streamReg (streamOf s ⟨fn, o / 0x40⟩) (o % 0x40 / 8)).getD 0
  else 0

/-- A write of a virtual function's BAR0. -/
def bar0Write (s : State) (fn o : Nat) (x : Word) : State :=
  if o / 0x40 < 16 ∧ o % 0x40 / 8 < 5 then writeStream s ⟨fn, o / 0x40⟩ (o % 0x40 / 8) x else s

/-- The margining register at an offset of the physical function's BAR0: a die, or a port and a lane. -/
def marginAt (o : Nat) : Option (Nat ⊕ (Nat × Nat)) :=
  if 0x10000 ≤ o ∧ o < 0x10000 + 8 * Config.dies then some (.inl ((o - 0x10000) / 8))
  else if 0x11000 ≤ o ∧ o < 0x11000 + 0x20 * ports then some (.inr ((o - 0x11000) / 0x20, (o - 0x11000) % 0x20 / 8))
  else none

/-- Reads it. -/
def pfRead (s : State) (o : Nat) : Word :=
  match marginAt o with
  | some (.inl d) => (tabGet 0 s.vmarg d).setWidth 64
  | some (.inr (p, l)) => lmargWord (lmargOf s p l)
  | none => 0

/-- Writes it. -/
def pfWrite (s : State) (o : Nat) (x : Word) : State :=
  match marginAt o with
  | some (.inl d) => writeVmarg s d x
  | some (.inr (p, l)) => writeLmarg s p l x
  | none => s

/-- Drops the line that a location lies in from the function's buffered lines (R187). -/
def dropBuffered (s : State) (fn loc : Nat) : State :=
  { s with hostBuf := s.hostBuf.filter fun l => !(l.fn == fn && l.line == loc / 128) }

/-- Writes bytes through BAR2 in pieces of at most 8 that end at 8-byte boundaries; a piece whose page is absent or does
not permit the write is dropped (R367). `fuel` bounds the pieces. -/
def bar2Write (s : State) (fn : Nat) (va : Word) (bs : List Byte) : Nat → State
  | 0 => s
  | fuel + 1 =>
    if bs.isEmpty then s
    else
      let k := Nat.min bs.length (8 - va.toNat % 8)
      let s := match vaPlain s fn va true with
        | .ok loc _ => agentStore (dropBuffered s fn loc) .host loc k (leNat (bs.take k))
        | _ => s
      bar2Write s fn (va + BitVec.ofNat 64 k) (bs.drop k) fuel

/-- The address that a BAR2 offset reaches. -/
def bar2Va (s : State) (fn off : Nat) : Word := (partOf s fn).hwbase + BitVec.ofNat 64 off

/-- HOST_WRITE (R187, R367); before the package is ready no host access reaches it (R363; DESIGN CHOICE, log 48). -/
def execHostWrite (fn off : Nat) (bytes : List Byte) (s : State) : Out :=
  if !s.ready then .next s
  else if off < bar2Bytes then
    if fn < Config.parts ∧ off + bytes.length ≤ bar2Bytes then
      .next (bar2Write s fn (bar2Va s fn off) bytes (bytes.length + 1))
    else .next s
  else if off % 8 = 0 ∧ bytes.length = 8 then
    let x : Word := BitVec.ofNat 64 (leNat bytes)
    if fn < Config.parts then .next (bar0Write s fn (off - bar2Bytes) x)
    else if fn = Config.parts then .next (pfWrite s (off - bar2Bytes) x)
    else .next s
  else .next s

/-- 20 µs in cycles: a line stays buffered no longer (R187). -/
def hostHold : Nat := 30000

/-- A buffered line of the function (R187). -/
def bufferedLine (s : State) (fn loc : Nat) : Option HostLine :=
  s.hostBuf.find? fun l => l.fn == fn && l.line == loc / 128 && decide (since s l.at' ≤ hostHold)

/-- Keeps a line that a read has loaded; a full buffer drops its oldest line. -/
def keepLine (s : State) (fn loc : Nat) : State :=
  let buf := s.hostBuf.drop (s.hostBuf.length + 1 - 256)
  { s with hostBuf := buf ++ [{ fn := fn, line := loc / 128, data := lineData s (loc / 128), at' := s.clock }] }

/-- A read of k bytes within one line: from the function's buffered line if there is one, else at the home. -/
def lineRead (s : State) (fn loc k : Nat) (keep : Bool) : Nat × State :=
  match bufferedLine s fn loc with
  | some l => (tabRead l.data loc k, s)
  | none =>
    let (x, s) := agentLoad s .host fn loc k
    (x, if keep then keepLine s fn loc else s)

/-- Reads n bytes through BAR2, line by line; none where a page is absent, does not permit the read, or the data has an
uncorrectable error. -/
def bar2Read (s : State) (fn : Nat) (va : Word) (n : Nat) (keep : Bool) : Nat → Option (List Byte × State)
  | 0 => some ([], s)
  | fuel + 1 =>
    if n = 0 then some ([], s)
    else
      let k := Nat.min n (128 - va.toNat % 128)
      match vaPlain s fn va false with
      | .ok loc _ =>
        if isPoisoned s loc then none
        else
          let (x, s) := lineRead s fn loc k keep
          (bar2Read s fn (va + BitVec.ofNat 64 k) (n - k) keep fuel).map fun r => (leBytes k x ++ r.1, r.2)
      | _ => none

/-- Adds an answer to the host's reads. -/
def answer (s : State) (a : HostAnswer) : State := { s with hostOut := s.hostOut ++ [a] }

/-- HOST_READ (R187, R367); `keep` is the endpoint's choice to keep the lines. Before the package is ready the host is asked
to retry (R363; DESIGN CHOICE, log 48). -/
def execHostRead (fn off n : Nat) (keep : Bool) (s : State) : Out :=
  if !s.ready then .next (answer s .retry)
  else if off < bar2Bytes then
    if fn < Config.parts ∧ off + n ≤ bar2Bytes then
      match bar2Read s fn (bar2Va s fn off) n keep (n + 1) with
      | some (bs, s) => .next (answer s (.data bs))
      | none => .next (answer s .abort)
    else .next (answer s .unsupported)
  else if off % 8 = 0 ∧ n = 8 ∧ fn ≤ Config.parts then
    let x := if fn < Config.parts then bar0Read s fn (off - bar2Bytes) else pfRead s (off - bar2Bytes)
    .next (answer s (.data (leBytes 8 x.toNat)))
  else .next (answer s .unsupported)

/-- HOST_READ_BUFFER_EXPIRY (R187). -/
def execHostReadBufferExpiry (idx : Nat) (s : State) : Out := .next { s with hostBuf := s.hostBuf.eraseIdx idx }

/-! ### The housekeeping cluster (R138, R153, R162) -/

/-- Stores bytes at a physical address in pieces that end at 8-byte boundaries, each an event at the L2. -/
def houseStore (s : State) (pa : Nat) (bs : List Byte) : Nat → State
  | 0 => s
  | fuel + 1 =>
    if bs.isEmpty then s
    else
      let k := Nat.min bs.length (8 - pa % 8)
      houseStore (agentStore s .house pa k (leNat (bs.take k))) (pa + k) (bs.drop k) fuel

/-- The bytes lie at addresses with memory behind them (R123). -/
def houseReach (s : State) (pa n : Nat) : Bool :=
  n == 0 || (frameSet s pa && frameSet s (pa + n - 1) && targetOf pa != .endpoint && targetOf (pa + n - 1) != .endpoint)

/-- HOUSEKEEPING_STORE: Jalov stores bytes. A page to which a page-table entry among them gives the future attribute is emptied;
so is a page that `future` names, to which Jalov gives it otherwise (R153). -/
def execHousekeepingStore (pa : Nat) (bytes : List Byte) (future : Option (Nat × Nat)) (s : State) : Out :=
  if !houseReach s pa bytes.length then .next s
  else
    let s := emptyNew s (houseStore s pa bytes (bytes.length + 1))
    match future with
    | some (lo, n) => .next (emptyFutures s lo n)
    | none => .next s

/-! ### RECORD_AREA_FAULT_RESUME (R378) -/

/-- Exiting groups of a launch that wait for the record area repeat their EXIT. -/
def wakeExits (s : State) (n : Nat) : State :=
  (launchGroups s n).foldl (fun s x => wakeSplits s x.1 x.2.1 (· == .record)) s

/-- The absent page of the record area that is waited for: that of the oldest waiting write, else of the first exiting group
(R378). -/
def awaitedPage (s : State) (l : Launch) (n : Nat) : Option Word :=
  match l.recPend with
  | op :: _ => firstAbsent s l op
  | [] => (launchGroups s n).findSome? fun x => x.2.2.splits.findSome? fun p =>
      if p.2.wait == some .record then
        exitBlocked s l p.2.mask.threads.length (liveMask x.2.2 &&& ~~~p.2.mask == 0) (colophon s x.2.2 0)
      else none

/-- Jalov has written the page's entries, or refuses the page: then the writes that meet it, now and later, are dropped. -/
def execRecordAreaFaultResume (n : Nat) (fix : FaultFix) (s : State) : Out :=
  match launchOf s n with
  | none => .next s
  | some l =>
    let waits := !l.recPend.isEmpty || (launchGroups s n).any fun x => x.2.2.splits.any fun p => p.2.wait == some .record
    if !waits then .next s
    else
      let s := match fix with
        | .entries ws => servicePage s ws
        | .prot => setLaunch s n { l with recProt := l.recProt ++ ((awaitedPage s l n).map recBlock).toList }
      .next (dropLaunch (sendDone (wakeExits (recFlush s (launchAgent s l) n l.recPend) n) n) n)

end Sys2Proof.Machine
end

