-- ==== Sys2Proof/Machine/Sha.lean ====
section
/-! DEFINITION. SHA-256 (FIPS 180-4), which R364 names, and the CRC-32 of IEEE 802.3, which R374 names, over byte lists. -/

namespace Sys2Proof.Machine

/-- The round constants. -/
def shaK : List (BitVec 32) :=
  [0x428a2f98, 0x71374491, 0xb5c0fbcf, 0xe9b5dba5, 0x3956c25b, 0x59f111f1, 0x923f82a4, 0xab1c5ed5]
  ++ [0xd807aa98, 0x12835b01, 0x243185be, 0x550c7dc3, 0x72be5d74, 0x80deb1fe, 0x9bdc06a7, 0xc19bf174]
  ++ [0xe49b69c1, 0xefbe4786, 0x0fc19dc6, 0x240ca1cc, 0x2de92c6f, 0x4a7484aa, 0x5cb0a9dc, 0x76f988da]
  ++ [0x983e5152, 0xa831c66d, 0xb00327c8, 0xbf597fc7, 0xc6e00bf3, 0xd5a79147, 0x06ca6351, 0x14292967]
  ++ [0x27b70a85, 0x2e1b2138, 0x4d2c6dfc, 0x53380d13, 0x650a7354, 0x766a0abb, 0x81c2c92e, 0x92722c85]
  ++ [0xa2bfe8a1, 0xa81a664b, 0xc24b8b70, 0xc76c51a3, 0xd192e819, 0xd6990624, 0xf40e3585, 0x106aa070]
  ++ [0x19a4c116, 0x1e376c08, 0x2748774c, 0x34b0bcb5, 0x391c0cb3, 0x4ed8aa4a, 0x5b9cca4f, 0x682e6ff3]
  ++ [0x748f82ee, 0x78a5636f, 0x84c87814, 0x8cc70208, 0x90befffa, 0xa4506ceb, 0xbef9a3f7, 0xc67178f2]

/-- The initial hash value. -/
def shaInit : List (BitVec 32) :=
  [0x6a09e667, 0xbb67ae85, 0x3c6ef372, 0xa54ff53a, 0x510e527f, 0x9b05688c, 0x1f83d9ab, 0x5be0cd19]

/-- Word i of a list. -/
def wd (l : List (BitVec 32)) (i : Nat) : BitVec 32 := l.getD i 0

/-- The small sigma functions: two rotations and a shift. -/
def sigma (a b c : Nat) (x : BitVec 32) : BitVec 32 := x.rotateRight a ^^^ x.rotateRight b ^^^ (x >>> c)

/-- The large sigma functions: three rotations. -/
def bigSigma (a b c : Nat) (x : BitVec 32) : BitVec 32 := x.rotateRight a ^^^ x.rotateRight b ^^^ x.rotateRight c

/-- The next n words of the message schedule; `w` holds the last sixteen. -/
def schedule : Nat → List (BitVec 32) → List (BitVec 32)
  | 0, _ => []
  | n + 1, w =>
    let x := sigma 17 19 10 (wd w 14) + wd w 9 + sigma 7 18 3 (wd w 1) + wd w 0
    x :: schedule n (w.drop 1 ++ [x])

/-- One round on the eight working variables. -/
def shaRound (v : List (BitVec 32)) (kw : BitVec 32) : List (BitVec 32) :=
  let a := wd v 0; let b := wd v 1; let c := wd v 2; let e := wd v 4; let f := wd v 5; let g := wd v 6
  let t1 := wd v 7 + bigSigma 6 11 25 e + ((e &&& f) ^^^ (~~~e &&& g)) + kw
  let t2 := bigSigma 2 13 22 a + ((a &&& b) ^^^ (a &&& c) ^^^ (b &&& c))
  [t1 + t2, a, b, c, wd v 3 + t1, e, f, g]

/-- The compression of one block of sixteen words. -/
def shaBlock (h : List (BitVec 32)) (m : List (BitVec 32)) : List (BitVec 32) :=
  let w := m ++ schedule 48 m
  let v := ((shaK.zip w).map fun p => p.1 + p.2).foldl shaRound h
  (h.zip v).map fun p => p.1 + p.2

/-- Four bytes as a big-endian word. -/
def beWord (b : List Byte) : BitVec 32 := b.getD 0 0 ++ b.getD 1 0 ++ b.getD 2 0 ++ b.getD 3 0

/-- The n words of a block. -/
def beWords : Nat → List Byte → List (BitVec 32)
  | 0, _ => []
  | n + 1, b => beWord (b.take 4) :: beWords n (b.drop 4)

/-- Hashes n blocks. -/
def shaBlocks : Nat → List Byte → List (BitVec 32) → List (BitVec 32)
  | 0, _, h => h
  | n + 1, b, h => shaBlocks n (b.drop 64) (shaBlock h (beWords 16 (b.take 64)))

/-- The n bytes of a number, most significant first. -/
def beBytes (n x : Nat) : List Byte := ((List.range n).map fun i => BitVec.ofNat 8 (x / 2 ^ (8 * i))).reverse

/-- The padded message: a 1 bit, zeros, and the length in bits. -/
def shaPad (m : List Byte) : List Byte :=
  m ++ [0x80#8] ++ List.replicate ((119 - m.length % 64) % 64) 0#8 ++ beBytes 8 (8 * m.length)

/-- SHA-256; the digest's first byte is the most significant. -/
def sha256 (m : List Byte) : BitVec 256 :=
  let p := shaPad m
  BitVec.ofNat 256 ((shaBlocks (p.length / 64) p shaInit).foldl (fun n w => n * 2 ^ 32 + w.toNat) 0)

/-- Eight steps of the reflected CRC-32 on a register. -/
def crcBits : Nat → BitVec 32 → BitVec 32
  | 0, c => c
  | n + 1, c => crcBits n (if c.getLsbD 0 then (c >>> 1) ^^^ 0xEDB88320 else c >>> 1)

/-- CRC-32 (IEEE 802.3). -/
def crc32 (m : List Byte) : BitVec 32 := ~~~(m.foldl (fun c b => crcBits 8 (c ^^^ b.setWidth 32)) 0xFFFFFFFF)

end Sys2Proof.Machine
end

