-- ==== Sys2Proof/Machine/Platform.lean ====
section
/-! DEFINITION. The platform (chapter 21): boot and measurement (R363, R364), the DOE mailbox (R365), the life cycle (R366),
errors, retirement and partitions (R371–R375), live maintenance and temperature (R376, R377). -/

namespace Sys2Proof.Machine

/-! ### Wipe, defect map, measurement (R363, R364, R366, R374, R375) -/

/-- The state after the wipe: the fuses stay, everything else is at its reset value. What has been sent to the host stays
sent, and the model's own counter and agenda go on. -/
def wiped (s : State) (life : Life) (key : Option (List Byte)) : State :=
  { State.reset with
    life := life, attestKey := key, ownerKey := s.ownerKey, vendorKey := s.vendorKey, serial := s.serial
    defect := s.defect, msix := s.msix, doeOut := s.doeOut, hostOut := s.hostOut, free := s.free, agenda := s.agenda }

/-- n bytes of the defect map. -/
def defectBytes (s : State) (o n : Nat) : List Byte := (List.range n).map fun i => tabGet 0 s.defect (o + i)

/-- The CRC of n bytes at `o` stands at `c` (R374). -/
def crcGood (s : State) (o n c : Nat) : Bool := (crc32 (defectBytes s o n)).toNat == leNat (defectBytes s c 4)

/-- Compute die d's record is good. -/
def dieGood (s : State) (d : Nat) : Bool := crcGood s (64 * d) 56 (64 * d + 56)

/-- The good physical quads of a die. -/
def goodQuads (s : State) (d : Nat) : List Nat :=
  (List.range 34).filter fun q => !(leNat (defectBytes s (64 * d) 8)).testBit q

/-- The boot ROM enables the die: its record is good, and so are enough of its quads (R374, R375). -/
def dieEnabled (s : State) (d : Nat) : Bool := dieGood s d && decide (32 ≤ (goodQuads s d).length)

/-- A die as the boot ROM enables it (R374, R375). -/
def bootDie (s : State) (d : Nat) : Die :=
  let g := goodQuads s d
  if dieEnabled s d then { Die.reset with quads := (List.range 32).zip (g.take 32), spares := g.drop 32 } else Die.reset

/-- The L2 slices and pseudo-channels of a die that its record marks as defective (R374). -/
def badUnits (s : State) (d : Nat) : List ErrUnit :=
  ((List.range 160).filter fun i => (leNat (defectBytes s (64 * d + 8) 24)).testBit i).map (.slice d)
  ++ ((List.range 128).filter fun i => (leNat (defectBytes s (64 * d + 32) 16)).testBit i).map fun i =>
    .channel (2 * d + i / 64) (i % 64)

/-- I/O die i's record is good. -/
def ioGood (s : State) (i : Nat) : Bool := crcGood s (512 + 16 * i) 8 (520 + 16 * i)

/-- The defective lanes of a Thedel port (R374); an I/O die with a bad record has no good lane. -/
def badLanes (s : State) (p : Nat) : BitVec 4 :=
  let o := 512 + 16 * (p / 9)
  if ioGood s (p / 9) then BitVec.ofNat 4 (leNat (defectBytes s o 8) / 2 ^ (4 * (p % 9))) else 15

/-- A Thedel port after Jalov has trained it (R370). -/
def bootPort (s : State) (p : Nat) : Port :=
  let bad := badLanes s p
  { Port.reset with up := Config.trained p && bad != 15, retired := bad, lanes := ~~~bad, failed := bad == 15 }

/-- Extends a measurement register by an image (R364). -/
def extend (s : State) (i : Nat) (img : List Byte) : State :=
  let old := tabGet 0 s.mreg i
  { s with mreg := tabPut i (sha256 (beBytes 32 old.toNat ++ beBytes 32 (sha256 img).toNat)) s.mreg }

/-- The code of a life-cycle state (R366). -/
def lifeCode : Life → Nat
  | .manufacture => 0
  | .provisioned => 1
  | .deployed => 2
  | .rma => 3

/-- Loads the firmware images 1 to 4 in order, each measured and then verified, up to the first whose signature fails
(R363). -/
def loadImages : List Nat → State → State × Bool
  | [], s => (s, true)
  | i :: r, s =>
    let s := extend s i (Config.image i)
    if Config.imageSigned (Config.image i) then loadImages r s else (s, false)

/-- What the decoder of CXL port n covers: at most its window, and nothing on a disabled I/O die (R368, R374). -/
def bootDecoder (s : State) (n : Nat) : Nat := if ioGood s (n / 2) then Nat.min (Config.cxlBytes n) (2 ^ 42) else 0

/-- What Jalov sets at boot: pools, decoders, ports, pod number (R123, R368, R370). -/
def jalovBoot (s : State) : State :=
  { s with
    pools := (List.range Config.dies).map fun d =>
      (d, if s.deadDies.contains d then 0 else Nat.min (Config.localPool d) dieBytes)
    decoders := (List.range 4).map fun n => (n, bootDecoder s n)
    ports := (List.range ports).map fun p => (p, bootPort s p)
    podNum := Config.podNumber.map (·.val), ready := true }

/-- The boot ROM after the wipe (R363): dies, measurements, firmware. -/
def boot (s : State) : State :=
  let s := { s with
    dies := (List.range Config.dies).map fun d => (d, bootDie s d)
    deadDies := (List.range Config.dies).filter fun d => !dieEnabled s d
    lostUnits := (List.range Config.dies).flatMap fun d => if dieEnabled s d then badUnits s d else [] }
  let s := extend (extend (extend s 0 (Config.image 0)) 5 (defectBytes s 0 544)) 6 (leBytes 4 (lifeCode s.life))
  match loadImages [1, 2, 3, 4] s with
  | (s, true) => jalovBoot s
  | (s, false) => s

/-- The attestation key that a life-cycle state keeps: RMA destroys it (R366). -/
def keyIn (s : State) : Life → Option (List Byte)
  | .rma => none
  | _ => s.attestKey

/-- A reset: the wipe, a transition that was under way, the boot (R363, R366). -/
def resetDevice (s : State) : State :=
  let life := s.entering.getD s.life
  boot (wiped s life (keyIn s life))

/-- DEVICE_RESET. -/
def execDeviceReset (s : State) : Out := .next (resetDevice s)

/-- LIFECYCLE_WIPE_DONE (R366): the wipe of a transition is done, the new state is written, and the images run again. -/
def execLifecycleWipeDone (s : State) : Out := if s.entering.isSome then .next (resetDevice s) else .next s

/-- MREG_EXTEND: MREG7 to MREG23 are Jalov's (R364). -/
def execMregExtend (i : Nat) (image : List Byte) (s : State) : Out :=
  if 7 ≤ i ∧ i ≤ 23 then .next (extend s i image) else .next s

/-- The register of an image that live maintenance replaces (R363, R376). -/
def liveReg : LiveImage → Nat
  | .firmware => 1
  | .microcode => 3
  | .phy => 4

/-- LIVE_UPDATE (R376): the image is verified and extended into its register before it runs; fetched packets stay. A PHY
calibration begins with the first lane. -/
def execLiveUpdate (what : LiveImage) (image : List Byte) (s : State) : Out :=
  if s.ready && Config.imageSigned image then
    let s := extend s (liveReg what) image
    .next (match what with
      | .phy => nextPhy s (some 0)
      | _ => s)
  else .next s

/-! ### The DOE mailbox (R364, R365) -/

/-- The status codes of R365. -/
inductive DoeStatus where
  | done | badState | badSig | badLen | busy
deriving DecidableEq, Repr

/-- Their numbers. -/
def DoeStatus.num : DoeStatus → Nat
  | .done => 0
  | .badState => 1
  | .badSig => 2
  | .badLen => 3
  | .busy => 4

/-- Bytes o to o + n − 1 of a list. -/
def slice (o n : Nat) (bs : List Byte) : List Byte := (bs.drop o).take n

/-- A response: the preamble, then the object's bytes. -/
def respond (s : State) (c : DoeStatus) (bs : List Byte) : State :=
  { s with doeOut := s.doeOut ++ [leBytes 4 c.num ++ leBytes 4 0 ++ s.serial ++ bs] }

/-- A request of the given length, of version 1, with reserved bytes 0. -/
def formOk (n : Nat) (p : List Byte) : Bool := p.length == n && leNat (slice 0 4 p) == 1 && leNat (slice 4 4 p) == 0

/-- Bytes of a signature. -/
def sigBytes : Nat := 7856

/-- Exactly n bytes of a list, filled up with zeros. -/
def fit (n : Nat) (bs : List Byte) : List Byte := (bs ++ List.replicate (n - bs.length) 0).take n

/-- Bytes 0 to 1351 of the report of R364. -/
def reportBody (s : State) (nonce : List Byte) : List Byte :=
  leBytes 4 1 ++ leBytes 4 (lifeCode s.life) ++ nonce
    ++ (List.range 24).flatMap (fun i => beBytes 32 (tabGet 0 s.mreg i).toNat) ++ defectBytes s 0 544

/-- The report with its signature: zeros without a key. -/
def attestReport (s : State) (nonce : List Byte) : List Byte :=
  let b := reportBody s nonce
  b ++ (match s.attestKey with
    | some k => fit sigBytes (Config.slhSign k b)
    | none => List.replicate sigBytes 0)

/-- Every object answers BUSY during a transition, then BADLEN to a malformed request, then BADSTATE. -/
def doeObject (s : State) (form state : Bool) (f : State) : State :=
  if s.entering.isSome then respond s .busy []
  else if !form then respond s .badLen []
  else if !state then respond s .badState []
  else f

/-- ATTEST's service. -/
def doeAttest (s : State) (p : List Byte) : State :=
  doeObject s (formOk 40 p) true (respond s .done (attestReport s (slice 8 32 p)))

/-- PROVISION's service: the ROM generates the key, answers, and enters PROVISIONED. -/
def doeProvision (s : State) (p : List Byte) : State :=
  let key := fit 32 (Config.slhKeyGen s.free)
  doeObject s (formOk 8 p) (s.life == .manufacture)
    { respond s .done key with attestKey := some key, entering := some .provisioned, free := s.free + 1 }

/-- DEPLOY's service: fuses the owner digest and enters DEPLOYED. -/
def doeDeploy (s : State) (p : List Byte) : State :=
  doeObject s (formOk 40 p) (s.life == .provisioned)
    { respond s .done [] with ownerKey := some (slice 8 32 p), entering := some .deployed }

/-- The form of an RMA request: the target state is 3. -/
def rmaForm (p : List Byte) : Bool :=
  formOk (32 + sigBytes) p && leNat (slice 24 4 p) == 3 && leNat (slice 28 4 p) == 0

/-- RMA's service: a request for this package under the vendor's signature enters RMA; the key goes with the transition. -/
def doeRma (s : State) (p : List Byte) : State :=
  let good := slice 8 16 p == s.serial && Config.slhVerify s.vendorKey (slice 0 32 p) (slice 32 sigBytes p)
  doeObject s (rmaForm p) true
    (if good then { respond s .done [] with entering := some .rma } else respond s .badSig [])

/-- A request under the function's Vendor ID whose DOE header names a data object type; a wrong type answers BADLEN
(R365). -/
def doeRequest (s : State) (r : DoeReq) : State :=
  match r.type with
  | 1 => doeAttest s r.bytes
  | 2 => doeProvision s r.bytes
  | 3 => doeDeploy s r.bytes
  | 4 => doeRma s r.bytes
  | _ => doeObject s false true s

/-- ATTEST: its type is 1; a request with another type in its header is served as that type says. -/
def execAttest (p : DoeReq) (s : State) : Out := .next (doeRequest s p)
/-- PROVISION: its type is 2; a request with another type in its header is served as that type says. -/
def execProvision (p : DoeReq) (s : State) : Out := .next (doeRequest s p)
/-- DEPLOY: its type is 3; a request with another type in its header is served as that type says. -/
def execDeploy (p : DoeReq) (s : State) : Out := .next (doeRequest s p)
/-- RMA: its type is 4; a request with another type in its header is served as that type says. -/
def execRma (p : DoeReq) (s : State) : Out := .next (doeRequest s p)

/-- DOE_DISCOVERY: object `idx` of the mailbox. The form of the answer is that of the PCIe specification (PRESUMED, log
31): Vendor ID, type, next index; the Discovery object itself is the PCI-SIG's. It has no status, and is answered so during a
transition too (DESIGN CHOICE, log 31). -/
def execDoeDiscovery (idx : Nat) (s : State) : Out :=
  let vid := if idx = 0 then 1 else if idx ≤ 4 then Config.vendorId.toNat else 0xFFFF
  let ty := if idx ≤ 4 then idx else 0
  let next := if idx < 4 then idx + 1 else 0
  .next { s with doeOut := s.doeOut ++ [leBytes 2 vid ++ leBytes 1 ty ++ leBytes 1 next] }

/-! ### Errors, retirement, partitions (R371, R372, R375) -/

/-- Logical quad q of die d. -/
def quadNum (d q : Nat) : Nat := 32 * d + q

/-- Its cores. -/
def quadCores (d q : Nat) : List Nat := (List.range 4).map fun i => 4 * quadNum d q + i

/-- No core of the quad holds a team. -/
def quadIdle (s : State) (d q : Nat) : Bool := (quadCores d q).all fun c => (coreOf s c).slots.isEmpty

/-- The die has logical quad q. -/
def hasLogical (s : State) (d q : Nat) : Bool := (tabFind q (dieOf s d).quads).isSome

/-- A core of a quad that is written to zero; what belongs to the device's clock and the array's dither phase stays
(R166, R244). -/
def zeroCore (k : Core) : Core :=
  { Core.reset with
    tc := k.tc, nextOp := k.nextOp
    array := { MArray.reset with
      dph := k.array.dph, steps := k.array.steps, rate := k.array.rate, down := k.array.down
      wait := k.array.wait, short := k.array.short, fill := k.array.fill } }

/-- Writes a quad's scratchpads, register files and caches to zero (R371). -/
def zeroQuad (s : State) (d q : Nat) : State :=
  let s := (quadCores d q).foldl
    (fun s c => setCore (zeroRange s (Config.scratchKey + 2 ^ 20 * c) (2 ^ 20)) c (zeroCore (coreOf s c))) s
  setQuad s (quadNum d q) { quadOf s (quadNum d q) with tlb := [] }

/-- The lowest spare takes the number of a quad that has run to retirement, or the quad leaves its partition (R375). -/
def replaceQuad (s : State) (d q : Nat) : State :=
  let x := dieOf s d
  let x := { x with retired := x.retired.filter (· != q) }
  let s := (quadCores d q).foldl
    (fun s c => setCore (zeroRange s (Config.scratchKey + 2 ^ 20 * c) (2 ^ 20)) c
      { Core.reset with tc := (coreOf s c).tc, nextOp := (coreOf s c).nextOp }) s
  let s := setQuad s (quadNum d q) { quadOf s (quadNum d q) with tlb := [] }
  match x.spares with
  | p :: r => setDie s d { x with quads := tabPut q p x.quads, spares := r }
  | [] => setQuad (setDie s d { x with quads := tabErase q x.quads }) (quadNum d q) Quad.reset

/-- Retires a quad: it takes no more teams, and is replaced once it holds none (R375). -/
def retireQuad (s : State) (d q : Nat) : State :=
  let x := dieOf s d
  if !hasLogical s d q then s
  else
    let s := if x.retired.contains q then s else setDie s d { x with retired := x.retired ++ [q] }
    if quadIdle s d q then replaceQuad s d q else s

/-- QUAD_RETIRE: the error is found, or the quad's last team has left it. -/
def execQuadRetire (d q : Nat) (s : State) : Out := .next (retireQuad s d q)

/-- QUAD_REASSIGN (R371): an idle quad joins another partition, or none (DEDUCED, log 25). -/
def execQuadReassign (d q : Nat) (part : Option Nat) (s : State) : Out :=
  let ok := match part with
    | some p => decide (p < Config.parts)
    | none => true
  if ok && hasLogical s d q && quadIdle s d q then
    .next (setQuad (zeroQuad s d q) (quadNum d q) { quadOf s (quadNum d q) with owner := part, tlb := [] })
  else .next s

/-- Data with an uncorrectable error in the line of a location. -/
def poisonLine (s : State) (loc : Nat) : State := { s with poison := tabPut (lineKey loc) true s.poison }

/-- A unit of memory that Jalov takes out of use (R372). -/
def loseUnit (s : State) (u : ErrUnit) : State :=
  if s.lostUnits.contains u then s else { s with lostUnits := s.lostUnits ++ [u] }

/-- An issued access that has not been performed, or a tender's held store, lies in a range of memory. -/
def inFlight (s : State) (lo n : Nat) : Bool :=
  s.cores.any fun c => c.2.slots.any fun x =>
    (x.2.pend ++ (match x.2.isTender with
      | some t => t.hold
      | none => [])).any fun a => decide (lo < a.loc + a.n) && decide (a.loc < lo + n)

/-- Jalov can migrate the frame now: both frames exist, nothing is in flight to the old one, and the partition has no shoot-down
in progress (R346, R372). -/
def canMove (s : State) (m : FrameMove) : Bool :=
  m.src % 128 == 0 && m.dst % 128 == 0 && m.size % 128 == 0 && houseReach s m.src m.size && houseReach s m.dst m.size
    && (decide (m.src + m.size ≤ m.dst) || decide (m.dst + m.size ≤ m.src)) && !inFlight s m.src m.size
    && (partOf s m.part).ack

/-- A table with the entries of n keys from `src` on also at `dst` on, in place of those that stood there. -/
def moveKeys (src dst n : Nat) (t : Tab Bool) : Tab Bool :=
  (t.filter fun x => decide (src ≤ x.1) && decide (x.1 < src + n)).foldl (fun u x => tabPut (dst + (x.1 - src)) x.2 u)
    (t.filter fun x => !(decide (dst ≤ x.1) && decide (x.1 < dst + n)))

/-- A frame is migrated (R372): Jalov copies its bytes, and with them what is full and what is unreadable, remaps its page by a
shoot-down (R133) and withholds the frame (DESIGN CHOICE, log 50). -/
def moveFrame (s : State) (m : FrameMove) : State :=
  if !canMove s m then s
  else
    let t := houseStore s m.dst (memBytes s m.src m.size) (m.size + 1)
    let t := { t with full := moveKeys m.src m.dst m.size t.full, poison := moveKeys (m.src / 128) (m.dst / 128) (m.size / 128) t.poison }
    let t := writeEntries t m.entries
    let t := shootPart (setPart t m.part { partOf t m.part with sdbase := m.base, sdlen := m.len }) m.part
    { t with withheld := t.withheld ++ [(m.src, m.size)] }

/-- An error in a unit of memory: a transient one is logged; a lasting one loses the unit, and the frames on it that Jalov names
are migrated; an uncorrectable one also leaves its line unreadable, and reaches the reader before any retirement (R372;
DESIGN CHOICE, log 50). -/
def memoryError (s : State) (u : ErrUnit) (loc : Nat) (out : ErrOutcome) : State :=
  let s := report s (.error u)
  match out with
  | .transient => s
  | .lasting moves => moves.foldl moveFrame (loseUnit s u)
  | .uncorrectable => poisonLine (loseUnit s u) loc

/-- MEMORY_ERROR_RETRY (R372). Which line an uncorrectable error of a pseudo-channel or an L2 slice lies in is a free
value. -/
def execMemoryErrorRetry (u : ErrUnit) (out : ErrOutcome) (s : State) : Out :=
  match u with
  | .link port lane => .next (linkError s port lane out)
  | .quad d q =>
    let s := report s (.error u)
    .next (match out with
      | .transient => s
      | _ => retireQuad s d q)
  | .line pa => .next (memoryError s u pa out)
  | u => .next (memoryError { s with free := s.free + 1 } u (Config.badLine s.free) out)

/-! ### Temperature (R377) -/

/-- THERMAL_THROTTLE: launches are pre-empted at their next slice expiry, and no team is placed. -/
def execThermalThrottle (s : State) : Out := .next { s with hot := true }
/-- THERMAL_RECOVER. -/
def execThermalRecover (s : State) : Out := .next { s with hot := false }
/-- THERMAL_RESET. -/
def execThermalReset (s : State) : Out := .next (resetDevice s)

end Sys2Proof.Machine
end

