-- ==== Sys2Proof/Machine/Dispatch.lean ====
section
/-! DEFINITION. What each instruction does: one arm per constructor, each a direct call of its meaning. -/

namespace Sys2Proof.Machine

/-- One step of the machine for the given instruction word or event. -/
def exec (i : Instr) (s : State) : Host.Outcome State Fault Refusal :=
  match i with
  | .add h d a b => Sys2Proof.Machine.execAdd h d a b s
  | .sub h d a b => Sys2Proof.Machine.execSub h d a b s
  | .and h d a b => Sys2Proof.Machine.execAnd h d a b s
  | .or h d a b => Sys2Proof.Machine.execOr h d a b s
  | .xor h d a b => Sys2Proof.Machine.execXor h d a b s
  | .andn h d a b => Sys2Proof.Machine.execAndn h d a b s
  | .min h d a b => Sys2Proof.Machine.execMin h d a b s
  | .max h d a b => Sys2Proof.Machine.execMax h d a b s
  | .addi h d a imm => Sys2Proof.Machine.execAddi h d a imm s
  | .shli h d a imm => Sys2Proof.Machine.execShli h d a imm s
  | .shri h d a imm => Sys2Proof.Machine.execShri h d a imm s
  | .sari h d a imm => Sys2Proof.Machine.execSari h d a imm s
  | .li h d imm => Sys2Proof.Machine.execLi h d imm s
  | .lis h d imm => Sys2Proof.Machine.execLis h d imm s
  | .addS32 h d a b => Sys2Proof.Machine.execAddS32 h d a b s
  | .subS32 h d a b => Sys2Proof.Machine.execSubS32 h d a b s
  | .mulS32 h d a b => Sys2Proof.Machine.execMulS32 h d a b s
  | .shlS32 h d a b => Sys2Proof.Machine.execShlS32 h d a b s
  | .shrS32 h d a b => Sys2Proof.Machine.execShrS32 h d a b s
  | .sarS32 h d a b => Sys2Proof.Machine.execSarS32 h d a b s
  | .bfi h d a b => Sys2Proof.Machine.execBfi h d a b s
  | .padd h ty d a b => Sys2Proof.Machine.execPadd h ty d a b s
  | .shl h d a b => Sys2Proof.Machine.execShl h d a b s
  | .shr h d a b => Sys2Proof.Machine.execShr h d a b s
  | .sar h d a b => Sys2Proof.Machine.execSar h d a b s
  | .rol h d a b => Sys2Proof.Machine.execRol h d a b s
  | .minu h d a b => Sys2Proof.Machine.execMinu h d a b s
  | .maxu h d a b => Sys2Proof.Machine.execMaxu h d a b s
  | .mul h d a b => Sys2Proof.Machine.execMul h d a b s
  | .mulh h d a b => Sys2Proof.Machine.execMulh h d a b s
  | .mulhu h d a b => Sys2Proof.Machine.execMulhu h d a b s
  | .div h d a b => Sys2Proof.Machine.execDiv h d a b s
  | .divu h d a b => Sys2Proof.Machine.execDivu h d a b s
  | .rem h d a b => Sys2Proof.Machine.execRem h d a b s
  | .remu h d a b => Sys2Proof.Machine.execRemu h d a b s
  | .mad h d a b => Sys2Proof.Machine.execMad h d a b s
  | .bfxZ h d a b => Sys2Proof.Machine.execBfxZ h d a b s
  | .bfxS h d a b => Sys2Proof.Machine.execBfxS h d a b s
  | .clz h d a => Sys2Proof.Machine.execClz h d a s
  | .ctz h d a => Sys2Proof.Machine.execCtz h d a s
  | .popc h d a => Sys2Proof.Machine.execPopc h d a s
  | .brev h d a => Sys2Proof.Machine.execBrev h d a s
  | .abs h d a => Sys2Proof.Machine.execAbs h d a s
  | .mov h d a => Sys2Proof.Machine.execMov h d a s
  | .sext h w d a => Sys2Proof.Machine.execSext h w d a s
  | .zext h w d a => Sys2Proof.Machine.execZext h w d a s
  | .psub h ty d a b => Sys2Proof.Machine.execPsub h ty d a b s
  | .sel h n d a b => Sys2Proof.Machine.execSel h n d a b s
  | .cmp h cond d a b => Sys2Proof.Machine.execCmp h cond d a b s
  | .cmpi h cond d a imm => Sys2Proof.Machine.execCmpi h cond d a imm s
  | .pmin h ty d a b => Sys2Proof.Machine.execPmin h ty d a b s
  | .lea h scale d a b => Sys2Proof.Machine.execLea h scale d a b s
  | .leaS32 h scale d a b => Sys2Proof.Machine.execLeaS32 h scale d a b s
  | .pmax h ty d a b => Sys2Proof.Machine.execPmax h ty d a b s
  | .fadd h ty d a b => Sys2Proof.Machine.execFadd h ty d a b s
  | .fsub h ty d a b => Sys2Proof.Machine.execFsub h ty d a b s
  | .fmul h ty d a b => Sys2Proof.Machine.execFmul h ty d a b s
  | .ffma h ty d a b => Sys2Proof.Machine.execFfma h ty d a b s
  | .ffms h ty d a b => Sys2Proof.Machine.execFfms h ty d a b s
  | .fnma h ty d a b => Sys2Proof.Machine.execFnma h ty d a b s
  | .fmin h ty d a b => Sys2Proof.Machine.execFmin h ty d a b s
  | .fmax h ty d a b => Sys2Proof.Machine.execFmax h ty d a b s
  | .faddRz h ty d a b => Sys2Proof.Machine.execFaddRz h ty d a b s
  | .faddRu h ty d a b => Sys2Proof.Machine.execFaddRu h ty d a b s
  | .faddRd h ty d a b => Sys2Proof.Machine.execFaddRd h ty d a b s
  | .fmulRz h ty d a b => Sys2Proof.Machine.execFmulRz h ty d a b s
  | .fmulRu h ty d a b => Sys2Proof.Machine.execFmulRu h ty d a b s
  | .fmulRd h ty d a b => Sys2Proof.Machine.execFmulRd h ty d a b s
  | .fabs h ty d a => Sys2Proof.Machine.execFabs h ty d a s
  | .fneg h ty d a => Sys2Proof.Machine.execFneg h ty d a s
  | .fclass h ty d a => Sys2Proof.Machine.execFclass h ty d a s
  | .frnd h ty rm d a => Sys2Proof.Machine.execFrnd h ty rm d a s
  | .fcpys h ty d a b => Sys2Proof.Machine.execFcpys h ty d a b s
  | .fscalb h ty d a b => Sys2Proof.Machine.execFscalb h ty d a b s
  | .fcmp h cond ty d a b => Sys2Proof.Machine.execFcmp h cond ty d a b s
  | .cvtFloatFloat h dst src rm sat d a => Sys2Proof.Machine.execCvtFloatFloat h dst src rm sat d a s
  | .cvtIntegerFloat h ity fty toInt rm d a => Sys2Proof.Machine.execCvtIntegerFloat h ity fty toInt rm d a s
  | .qnq4 h dr d a b => Sys2Proof.Machine.execQnq4 h dr d a b s
  | .dqnq4 h d a b => Sys2Proof.Machine.execDqnq4 h d a b s
  | .qe8 h fmt dr d a b => Sys2Proof.Machine.execQe8 h fmt dr d a b s
  | .dot h ty d a b => Sys2Proof.Machine.execDot h ty d a b s
  | .fsum h ty d a b => Sys2Proof.Machine.execFsum h ty d a b s
  | .pack h w d a b => Sys2Proof.Machine.execPack h w d a b s
  | .unpack h w d a b => Sys2Proof.Machine.execUnpack h w d a b s
  | .dqe8 h fmt d a b => Sys2Proof.Machine.execDqe8 h fmt d a b s
  | .rcp h ty d a => Sys2Proof.Machine.execRcp h ty d a s
  | .rsq h ty d a => Sys2Proof.Machine.execRsq h ty d a s
  | .sqrt h ty d a => Sys2Proof.Machine.execSqrt h ty d a s
  | .exp2 h ty d a => Sys2Proof.Machine.execExp2 h ty d a s
  | .log2 h ty d a => Sys2Proof.Machine.execLog2 h ty d a s
  | .sin h ty d a => Sys2Proof.Machine.execSin h ty d a s
  | .cos h ty d a => Sys2Proof.Machine.execCos h ty d a s
  | .tanh h ty d a => Sys2Proof.Machine.execTanh h ty d a s
  | .lse2 h d a b => Sys2Proof.Machine.execLse2 h d a b s
  | .rngB64 h d a b => Sys2Proof.Machine.execRngB64 h d a b s
  | .rngF32 h d a b => Sys2Proof.Machine.execRngF32 h d a b s
  | .rngBf16 h d a b => Sys2Proof.Machine.execRngBf16 h d a b s
  | .sample h ty d a b => Sys2Proof.Machine.execSample h ty d a b s
  | .shuf h w d a b => Sys2Proof.Machine.execShuf h w d a b s
  | .bcast h w d a b => Sys2Proof.Machine.execBcast h w d a b s
  | .rdlane h d a b => Sys2Proof.Machine.execRdlane h d a b s
  | .wrlane h d a b => Sys2Proof.Machine.execWrlane h d a b s
  | .voteAny h d a => Sys2Proof.Machine.execVoteAny h d a s
  | .voteAll h d a => Sys2Proof.Machine.execVoteAll h d a s
  | .voteBallot h d a => Sys2Proof.Machine.execVoteBallot h d a s
  | .voteEq h d a => Sys2Proof.Machine.execVoteEq h d a s
  | .compressCnt h wide d a => Sys2Proof.Machine.execCompressCnt h wide d a s
  | .gred h op ty d a => Sys2Proof.Machine.execGred h op ty d a s
  | .gscan h op ty excl d a => Sys2Proof.Machine.execGscan h op ty excl d a s
  | .compress h wide d a b => Sys2Proof.Machine.execCompress h wide d a b s
  | .expand h wide d a b => Sys2Proof.Machine.execExpand h wide d a b s
  | .subperm h w d a b => Sys2Proof.Machine.execSubperm h w d a b s
  | .ld h sz t b x scale disp => Sys2Proof.Machine.execLd h sz t b x scale disp s
  | .st h sz t b x scale disp => Sys2Proof.Machine.execSt h sz t b x scale disp s
  | .lds h sz t b x scale disp => Sys2Proof.Machine.execLds h sz t b x scale disp s
  | .pref h l2 sz b x scale disp => Sys2Proof.Machine.execPref h l2 sz b x scale disp s
  | .aadd h wide t b x scale => Sys2Proof.Machine.execAadd h wide t b x scale s
  | .aand h wide t b x scale => Sys2Proof.Machine.execAand h wide t b x scale s
  | .aor h wide t b x scale => Sys2Proof.Machine.execAor h wide t b x scale s
  | .axor h wide t b x scale => Sys2Proof.Machine.execAxor h wide t b x scale s
  | .axch h wide t b x scale => Sys2Proof.Machine.execAxch h wide t b x scale s
  | .aminS h wide t b x scale => Sys2Proof.Machine.execAminS h wide t b x scale s
  | .amaxS h wide t b x scale => Sys2Proof.Machine.execAmaxS h wide t b x scale s
  | .acas h wide t b x scale => Sys2Proof.Machine.execAcas h wide t b x scale s
  | .aminZ h wide t b x scale => Sys2Proof.Machine.execAminZ h wide t b x scale s
  | .amaxZ h wide t b x scale => Sys2Proof.Machine.execAmaxZ h wide t b x scale s
  | .afadd h wide t b x scale => Sys2Proof.Machine.execAfadd h wide t b x scale s
  | .abinc h t b x scale => Sys2Proof.Machine.execAbinc h t b x scale s
  | .apmax h t b x scale => Sys2Proof.Machine.execApmax h t b x scale s
  | .frd h t b x scale => Sys2Proof.Machine.execFrd h t b x scale s
  | .fwr h t b x scale => Sys2Proof.Machine.execFwr h t b x scale s
  | .fclr h b x scale => Sys2Proof.Machine.execFclr h b x scale s
  | .trb h n a => Sys2Proof.Machine.execTrb h n a s
  | .fence h sc => Sys2Proof.Machine.execFence h sc s
  | .bar h sc a b => Sys2Proof.Machine.execBar h sc a b s
  | .bara h sc a b => Sys2Proof.Machine.execBara h sc a b s
  | .barw h sc a => Sys2Proof.Machine.execBarw h sc a s
  | .evwait h a => Sys2Proof.Machine.execEvwait h a s
  | .evpop h d => Sys2Proof.Machine.execEvpop h d s
  | .waitm h cond wide t b x scale => Sys2Proof.Machine.execWaitm h cond wide t b x scale s
  | .rdmap h sel d lv => Sys2Proof.Machine.execRdmap h sel d lv s
  | .lvidx h d lv => Sys2Proof.Machine.execLvidx h d lv s
  | .lvext h d lv => Sys2Proof.Machine.execLvext h d lv s
  | .lvfirst h d lv => Sys2Proof.Machine.execLvfirst h d lv s
  | .lvbuf h d lv => Sys2Proof.Machine.execLvbuf h d lv s
  | .lvfor h lv => Sys2Proof.Machine.execLvfor h lv s
  | .lvnext h d lv => Sys2Proof.Machine.execLvnext h d lv s
  | .redl h op ty d a lv => Sys2Proof.Machine.execRedl h op ty d a lv s
  | .barl h lv => Sys2Proof.Machine.execBarl h lv s
  | .bra h neg p disp => Sys2Proof.Machine.execBra h neg p disp s
  | .brp h neg p disp => Sys2Proof.Machine.execBrp h neg p disp s
  | .call h disp => Sys2Proof.Machine.execCall h disp s
  | .fcall h nm1 disp => Sys2Proof.Machine.execFcall h nm1 disp s
  | .fcallForce h nm1 disp => Sys2Proof.Machine.execFcallForce h nm1 disp s
  | .ftrainSeed h k disp => Sys2Proof.Machine.execFtrainSeed h k disp s
  | .ftrainForce h k disp => Sys2Proof.Machine.execFtrainForce h k disp s
  | .ftrainClear h disp => Sys2Proof.Machine.execFtrainClear h disp s
  | .nop h => Sys2Proof.Machine.execNop h s
  | .jmpr h a => Sys2Proof.Machine.execJmpr h a s
  | .callr h a => Sys2Proof.Machine.execCallr h a s
  | .ret h => Sys2Proof.Machine.execRet h s
  | .join h => Sys2Proof.Machine.execJoin h s
  | .exit h sc => Sys2Proof.Machine.execExit h sc s
  | .yield h => Sys2Proof.Machine.execYield h s
  | .fmtb h a => Sys2Proof.Machine.execFmtb h a s
  | .wld h a b => Sys2Proof.Machine.execWld h a b s
  | .wswp h => Sys2Proof.Machine.execWswp h s
  | .accz h mask => Sys2Proof.Machine.execAccz h mask s
  | .mma h a b c => Sys2Proof.Machine.execMma h a b c s
  | .accout h a b c => Sys2Proof.Machine.execAccout h a b c s
  | .accin h a b c => Sys2Proof.Machine.execAccin h a b c s
  | .mmt h a => Sys2Proof.Machine.execMmt h a s
  | .mstat h d => Sys2Proof.Machine.execMstat h d s
  | .pld h a => Sys2Proof.Machine.execPld h a s
  | .pcost h a b => Sys2Proof.Machine.execPcost h a b s
  | .pmarg h out col a => Sys2Proof.Machine.execPmarg h out col a s
  | .pscl h out col a => Sys2Proof.Machine.execPscl h out col a s
  | .balance h a b => Sys2Proof.Machine.execBalance h a b s
  | .ppart h row a => Sys2Proof.Machine.execPpart h row a s
  | .pout h a b c => Sys2Proof.Machine.execPout h a b c s
  | .pdist h a b => Sys2Proof.Machine.execPdist h a b s
  | .pstat h d => Sys2Proof.Machine.execPstat h d s
  | .cpy h a b c => Sys2Proof.Machine.execCpy h a b c s
  | .cpy2d h a => Sys2Proof.Machine.execCpy2d h a s
  | .gth h a => Sys2Proof.Machine.execGth h a s
  | .sct h a => Sys2Proof.Machine.execSct h a s
  | .cpyr h a b c => Sys2Proof.Machine.execCpyr h a b c s
  | .rdsr h d n => Sys2Proof.Machine.execRdsr h d n s
  | .wrsr h a n => Sys2Proof.Machine.execWrsr h a n s
  | .rdctr h d sync sel => Sys2Proof.Machine.execRdctr h d sync sel s
  | .rdclk h d sync => Sys2Proof.Machine.execRdclk h d sync s
  | .trap h code => Sys2Proof.Machine.execTrap h code s
  | .syscall h code => Sys2Proof.Machine.execSyscall h code s
  | .bkpt h => Sys2Proof.Machine.execBkpt h s
  | .selftest h d pattern => Sys2Proof.Machine.execSelftest h d pattern s
  | .groupRunSelect core pipe => Sys2Proof.Machine.execGroupRunSelect core pipe s
  | .variableResultWrite core slot idx => Sys2Proof.Machine.execVariableResultWrite core slot idx s
  | .dividerResult core pipe idx => Sys2Proof.Machine.execDividerResult core pipe idx s
  | .pageWalk core idx => Sys2Proof.Machine.execPageWalk core idx s
  | .trbComplete core slot idx => Sys2Proof.Machine.execTrbComplete core slot idx s
  | .logicalTimeTick => Sys2Proof.Machine.execLogicalTimeTick s
  | .rebase => Sys2Proof.Machine.execRebase s
  | .rebaseRelease => Sys2Proof.Machine.execRebaseRelease s
  | .shootDownAck part => Sys2Proof.Machine.execShootDownAck part s
  | .tenderValidation core slot => Sys2Proof.Machine.execTenderValidation core slot s
  | .phaseBoundary launch team => Sys2Proof.Machine.execPhaseBoundary launch team s
  | .starve part => Sys2Proof.Machine.execStarve part s
  | .completionRecordPost core => Sys2Proof.Machine.execCompletionRecordPost core s
  | .arrayOperationStart core u => Sys2Proof.Machine.execArrayOperationStart core u s
  | .mmtStep core => Sys2Proof.Machine.execMmtStep core s
  | .slewGovernorStep quad => Sys2Proof.Machine.execSlewGovernorStep quad s
  | .accumulatorRowWrite core => Sys2Proof.Machine.execAccumulatorRowWrite core s
  | .arrayOperationDrain core u => Sys2Proof.Machine.execArrayOperationDrain core u s
  | .copyOperationStart core => Sys2Proof.Machine.execCopyOperationStart core s
  | .copyOperationEnd core idx => Sys2Proof.Machine.execCopyOperationEnd core idx s
  | .packetFetch q => Sys2Proof.Machine.execPacketFetch q s
  | .nopk q => Sys2Proof.Machine.execNopk q s
  | .launch q pkt => Sys2Proof.Machine.execLaunch q pkt s
  | .ib q addr count => Sys2Proof.Machine.execIb q addr count s
  | .pred q n cond wide addr cmp => Sys2Proof.Machine.execPred q n cond wide addr cmp s
  | .loop q n k => Sys2Proof.Machine.execLoop q n k s
  | .ffence q => Sys2Proof.Machine.execFfence q s
  | .write q wide addr x => Sys2Proof.Machine.execWrite q wide addr x s
  | .waitmem q cond wide addr cmp => Sys2Proof.Machine.execWaitmem q cond wide addr cmp s
  | .signal q irq wide addr x => Sys2Proof.Machine.execSignal q irq wide addr x s
  | .teamPlacement die => Sys2Proof.Machine.execTeamPlacement die s
  | .groupStart core slot => Sys2Proof.Machine.execGroupStart core slot s
  | .launchEnd launch => Sys2Proof.Machine.execLaunchEnd launch s
  | .sliceExpiry launch => Sys2Proof.Machine.execSliceExpiry launch s
  | .budgetPeriod => Sys2Proof.Machine.execBudgetPeriod s
  | .launchTokenTick => Sys2Proof.Machine.execLaunchTokenTick s
  | .hostReadBufferExpiry idx => Sys2Proof.Machine.execHostReadBufferExpiry idx s
  | .lifecycleWipeDone => Sys2Proof.Machine.execLifecycleWipeDone s
  | .selftestDone core slot first count => Sys2Proof.Machine.execSelftestDone core slot first count s
  | .quadRetire die quad => Sys2Proof.Machine.execQuadRetire die quad s
  | .accessPerformed core slot => Sys2Proof.Machine.execAccessPerformed core slot s
  | .instructionFetch core block => Sys2Proof.Machine.execInstructionFetch core block s
  | .pageFaultResume core slot split fix => Sys2Proof.Machine.execPageFaultResume core slot split fix s
  | .shootDown part => Sys2Proof.Machine.execShootDown part s
  | .teamSpill launch team => Sys2Proof.Machine.execTeamSpill launch team s
  | .groupResume core slot how edits => Sys2Proof.Machine.execGroupResume core slot how edits s
  | .ended launch => Sys2Proof.Machine.execEnded launch s
  | .debuggerStop core slot => Sys2Proof.Machine.execDebuggerStop core slot s
  | .mmtForcedStop core => Sys2Proof.Machine.execMmtForcedStop core s
  | .copyAccessRetry core idx fix => Sys2Proof.Machine.execCopyAccessRetry core idx fix s
  | .thedelPacketDelivery pkt => Sys2Proof.Machine.execThedelPacketDelivery pkt s
  | .stop port vl => Sys2Proof.Machine.execStop port vl s
  | .go port vl => Sys2Proof.Machine.execGo port vl s
  | .linkReplay port lane out => Sys2Proof.Machine.execLinkReplay port lane out s
  | .hostWrite fn off bytes => Sys2Proof.Machine.execHostWrite fn off bytes s
  | .hostRead fn off n keep => Sys2Proof.Machine.execHostRead fn off n keep s
  | .sqctlWrite q x => Sys2Proof.Machine.execSqctlWrite q x s
  | .sqtailWrite q x => Sys2Proof.Machine.execSqtailWrite q x s
  | .lnkstWrite port x => Sys2Proof.Machine.execLnkstWrite port x s
  | .marginRun port lane x => Sys2Proof.Machine.execMarginRun port lane x s
  | .marginRunComplete port lane err => Sys2Proof.Machine.execMarginRunComplete port lane err s
  | .registerWrite r x => Sys2Proof.Machine.execRegisterWrite r x s
  | .doeDiscovery idx => Sys2Proof.Machine.execDoeDiscovery idx s
  | .attest payload => Sys2Proof.Machine.execAttest payload s
  | .provision payload => Sys2Proof.Machine.execProvision payload s
  | .deploy payload => Sys2Proof.Machine.execDeploy payload s
  | .rma payload => Sys2Proof.Machine.execRma payload s
  | .deviceReset => Sys2Proof.Machine.execDeviceReset s
  | .mregExtend n image => Sys2Proof.Machine.execMregExtend n image s
  | .liveUpdate what image => Sys2Proof.Machine.execLiveUpdate what image s
  | .memoryErrorRetry u out => Sys2Proof.Machine.execMemoryErrorRetry u out s
  | .quadReassign die quad part => Sys2Proof.Machine.execQuadReassign die quad part s
  | .thermalThrottle => Sys2Proof.Machine.execThermalThrottle s
  | .thermalRecover => Sys2Proof.Machine.execThermalRecover s
  | .thermalReset => Sys2Proof.Machine.execThermalReset s
  | .housekeepingStore pa bytes future => Sys2Proof.Machine.execHousekeepingStore pa bytes future s
  | .packetAcknowledgement port => Sys2Proof.Machine.execPacketAcknowledgement port s
  | .frontEndFaultResume q fix => Sys2Proof.Machine.execFrontEndFaultResume q fix s
  | .recordAreaFaultResume launch fix => Sys2Proof.Machine.execRecordAreaFaultResume launch fix s

end Sys2Proof.Machine
end

