-- ==== Sys2Proof/Machine/Sched.lean ====
section
/-! DEFINITION. The order of the package's own events (log 3): of those that can happen, one that is due by the clock comes
first; else a free choice among the others and the passing of time. What the host, other packages and Jalov choose to do
comes from the agenda instead. -/

namespace Sys2Proof.Machine

/-- The event has an effect now. -/
def hasEffect (s : State) (i : Instr) : Bool :=
  match exec i s with
  | .next t => decide (t ≠ s)
  | _ => false

/-- Events of a group in a slot. -/
def groupEvents (c slot : Nat) (g : Group) : List Instr :=
  [.groupStart c slot, .accessPerformed c slot, .tenderValidation c slot]
  ++ (List.range g.results.length).map (fun i => .variableResultWrite c slot i)
  ++ (List.range g.trbs.length).map (fun i => .trbComplete c slot i)

/-- Events of the array and the copy engine of a core. -/
def engineEvents (c : Nat) (k : Core) : List Instr :=
  [.mmtStep c, .accumulatorRowWrite c]
  ++ [AUnit.loader, .stream, .port, .sequencer, .status].flatMap (fun u => [.arrayOperationStart c u, .arrayOperationDrain c u])
  ++ [.copyOperationStart c] ++ (List.range k.copies.length).map (fun i => .copyOperationEnd c i)

/-- Events of a core. -/
def coreEvents (s : State) (c : Nat) (k : Core) : List Instr :=
  (List.range Config.pipes).flatMap (fun p =>
    .groupRunSelect c p :: (List.range (dividing k p).length).map fun i => .dividerResult c p i)
  ++ k.slots.flatMap (fun x => groupEvents c x.1 x.2)
  ++ (List.range k.walks.length).map (fun i => .pageWalk c i)
  ++ k.icmiss.map (fun b => .instructionFetch c b)
  ++ [.completionRecordPost c] ++ engineEvents c k
  ++ k.self.map (fun x => .selftestDone c x.slot (Config.selftest s.free).1 (Config.selftest s.free).2)

/-- Events of a stream: a fetch, and the packet that it executes next. -/
def streamEvents (s : State) (q : StreamId) : List Instr :=
  .packetFetch q ::
    (match (streamOf s q).packet with
    | some f => (packetInstr q f.words).toList
    | none => [])

/-- Events of dies, launches, partitions, ports and the host endpoint. -/
def packageEvents (s : State) : List Instr :=
  s.dies.flatMap (fun d => .teamPlacement d.1 :: d.2.retired.map fun q => .quadRetire d.1 q)
  ++ s.launches.map (fun l => .launchEnd l.1)
  ++ s.parts.map (fun p => .shootDownAck p.1)
  ++ (allStreams s).flatMap (streamEvents s)
  ++ (List.range s.hostBuf.length).map (fun i => .hostReadBufferExpiry i)
  ++ [.rebaseRelease, .lifecycleWipeDone]

/-- The slew governor of the quad has still to take the step of a cycle that is over (R266, R271). -/
def govBehind (s : State) (quad : Nat) : Bool := quadActive s quad && decide ((quadOf s quad).govAt < s.clock.toNat)

/-- The first such quad. -/
def govDue (s : State) : Option Nat := (s.quads.map (·.1)).find? (govBehind s)

/-- Events that are due by the clock. -/
def dueEvents (s : State) : List Instr :=
  [.rebase, .budgetPeriod, .launchTokenTick] ++ s.launches.map (fun l => .sliceExpiry l.1)
  ++ s.parts.map (fun p => .starve p.1)
  ++ (s.cores.flatMap fun c => c.2.slots.map fun x => (x.2.launch, x.2.team)).eraseDups.map (fun t => .phaseBoundary t.1 t.2)
  ++ ((List.range s.hostBuf.length).filter fun i =>
      match s.hostBuf[i]? with
      | some l => decide (hostHold ≤ since s l.at')
      | none => false).map .hostReadBufferExpiry

/-- What can happen otherwise. -/
def freeEvents (s : State) : List Instr :=
  (s.cores.flatMap fun c => coreEvents s c.1 c.2) ++ packageEvents s

/-- The internal event that happens next when no event is scheduled and no split has the turn. -/
def nextEvent (s : State) : Instr :=
  match (dueEvents s).find? (hasEffect s) with
  | some i => i
  | none =>
    match (freeEvents s).filter (hasEffect s) with
    | [] => .logicalTimeTick
    | es => (Instr.logicalTimeTick :: es).getD (Config.choose s.free (es.length + 1) % (es.length + 1)) .logicalTimeTick

end Sys2Proof.Machine
end

