-- ==== Sys2Proof/Machine/Step.lean ====
section
/-! DEFINITION. One step of the package (log 3): the next scheduled event; else a step of a slew governor whose cycle is over;
else the next word of the split that has the turn; else the next internal event. -/

namespace Sys2Proof.Machine

/-- Issues the next word of a split: the checks of its bundle (R45), then the decoded word, or ILLOP (R44). A split that
Jalov resumed with PROT takes that trap at its word (R139). -/
def stepWord (s : State) (pl : Place) (g : Group) (sp : Split) : Host.Outcome State Fault Refusal :=
  match sp.wait with
  | some (.fault va _ true) => .next (trapAddr s pl .prot va)
  | _ =>
    match (if sp.run.checked then BundleOut.go s else bundleChecks s pl g sp) with
    | .stop s => .next s
    | .go s =>
      match decodeWord (fetchWord s pl g sp) with
      | .ok i => exec i s
      | .error _ => .next (trap s pl .illop)

/-- The split that has the turn, with its group; a turn whose split is gone is void. -/
def turnSplit (s : State) : Option (Place × Group × Split) :=
  match s.turn with
  | none => none
  | some pl =>
    match groupAt s pl.core pl.slot with
    | none => none
    | some g => (splitAt g pl.split).map fun sp => (pl, g, sp)

/-- The next internal event, which nothing has scheduled. -/
def stepEvent (s : State) : Host.Outcome State Fault Refusal := exec (nextEvent s) { s with free := s.free + 1 }

/-- One step. An event on the agenda that is an instruction word is no event, and is dropped. -/
def step (s : State) : Host.Outcome State Fault Refusal :=
  match s.agenda with
  | i :: rest => if i.hd.isSome then .next { s with agenda := rest } else exec i { s with agenda := rest }
  | [] =>
    match govDue s with
    | some q => exec (.slewGovernorStep q) s
    | none =>
      match turnSplit s with
      | none => stepEvent { s with turn := none }
      | some (pl, g, sp) => stepWord s pl g sp

/-- A split with every thread active that runs at packet 0. -/
def probeSplit : Split :=
  { pc := 0, word := 0, mask := 0xFFFFFFFF, lc := [], stack := [], run := Run.start, running := true, wait := none,
    unfin := none, stage := 0, await := [], vals := [], paid := false }

/-- Launch 0, whose nest has eight levels and whose one team has one group. -/
def probeLaunch : Launch :=
  { part := 0, stream := 0, lseq := 0, irq := false, text := 0, data := 0, recArea := 0, rsize := 64, phaseA := 0, slice := 0
    debug := false, pid := 0, mapl := [], mapg := 0, nlev := 8, valloc := 64, scrg := 0, phased := false, carry := 0
    entry := 0, teams := 1, groups := 1, lanes := 32, retired := 0, retiredAt := 0, status := 0, sliceT := none
    preempted := false, msi := false, records := [], recPend := [], recProt := [] }

/-- A group of launch 0 of partition 0 that holds `probeSplit`. -/
def probeGroup : Group :=
  { launch := 0, part := 0, stream := 0, lseq := 0, team := 0, gnum := 0, pipe := 0, valloc := 64, debug := false,
    isTender := none, vregs := [], gregs := [], pregs := [], tregs := [], fstat := 0, trrec := TrapRec.reset, gdbg := 0,
    splits := [(0, probeSplit)], defers := [], last := 0, stopped := false, origin := .fresh, started := true, hold := 0, saveAt := 0,
    results := [], pend := [], trbs := [], fmt := none, engFlags := 0, infeas := false, copyErr := none, arrived := [],
    acks := [], watch := none, stepDue := false, redl := none, wrote := [], stalls := [], gissue := 0, gwords := 0, tstart := 0 }

/-- The TLB entry of the page at virtual address 0, mapped at physical address 0 with every permission. -/
def probePage : TlbEntry := { part := 0, psz := 0, va := 0, pa := 0, mt := 0, r := true, w := true, x := true }

/-- The state with the instruction of bits w placed where `step` fetches next: the word at packet 0 of a page of
partition 0, a launch with one group on core 0 whose split has the turn there, and its fetch block (log 4). -/
def State.withFetchWord (s : State) (nbits w : Nat) : State :=
  let k := coreOf s 0
  let s := setCore s 0 { k with
    slots := tabPut 0 probeGroup k.slots, running := tabPut 0 (0, 0) k.running, tlb := [probePage],
    icache := tabPut 0 true k.icache }
  let s := setLaunch s 0 probeLaunch
  { memWriteBytes s 0 (bytesOfWord (BitVec.ofNat 32 (w % 2 ^ nbits))) with agenda := [], turn := some ⟨0, 0, 0⟩ }

end Sys2Proof.Machine
end

