-- ==== Sys2Proof/Safety.lean ====
section
/-! DEFINITION. What a safe run is: steps that answer a next state, and states that keep the canonical forms. -/

namespace Sys2Proof

open Machine

/-- n steps, as far as each answers a next state. -/
def run : Nat → State → Option State
  | 0, s => some s
  | n + 1, s =>
    match step s with
    | .next t => run n t
    | _ => none

/-- A run of n steps is safe: no step faults or refuses. -/
def SafeFor (n : Nat) (s : State) : Prop := (run n s).isSome = true

end Sys2Proof
end

