-- ==== Sys2Proof/Safety/Words.lean ====
section
/-! DEFINITION. The terms in which claims speak of one instruction word: the split that issues it, what a word leaves as it
was, and what it writes. -/

namespace Sys2Proof.Claims

open Machine

/-! ### The split that issues -/

/-- The split at `pl` of the resident group `g` has the turn and issues its next word. -/
structure Issues (s : State) (pl : Place) (g : Group) (sp : Split) : Prop where
  turn  : s.turn = some pl
  group : groupAt s pl.core pl.slot = some g
  split : splitAt g pl.split = some sp

/-- Nothing stops the group after a word: no watchpoint has matched (R360), and GDBG.STEP is 0 (R361). -/
structure Calm (g : Group) : Prop where
  watch : g.watch = none
  step  : g.gdbg.getLsbD 0 = false

/-- The word ends its run (R25). -/
def endsRun (h : Hd) : Bool := !h.c && h.s

/-! ### What stays -/

/-- A package without its time, its cores, its partitions and the model's own fields. -/
def quiet (s : State) : State := { s with clock := 0, tick := 0, cores := [], parts := [], turn := none, free := 0 }

/-- A partition without what time changes: its starvation interval (R189), its budgets (R334, R336) and its counts of evictions
(R351). -/
def quietPart (p : Part) : Part := { p with starveAt := 0, starving := false, budgets := [], l2evict := [] }

/-- A core without its groups, its lane pipes' holders and its word counters (R351). -/
def quietCore (k : Core) : Core := { k with slots := [], running := [], cwords := [] }

/-- A group without its cycle counters (R353). -/
def quietGroup (g : Group) : Group := { g with stalls := [], gissue := 0 }

/-- Everything outside the group at `pl` is as before, but for time and its counters. -/
structure Rest (s t : State) (pl : Place) : Prop where
  bytes  : ∀ loc, memByte t loc = memByte s loc
  rest   : quiet t = quiet s
  parts  : ∀ p, quietPart (partOf t p) = quietPart (partOf s p)
  cores  : ∀ c, quietCore (coreOf t c) = quietCore (coreOf s c)
  groups : ∀ c n, (c, n) ≠ (pl.core, pl.slot) → (groupAt t c n).map quietGroup = (groupAt s c n).map quietGroup

/-- A tender without its list of written registers. -/
def quietTender (td : Tender) : Tender := { td with written := [] }

/-- A group without its registers, flags, results, splits and counters. -/
def frameGroup (g : Group) : Group :=
  { g with vregs := [], gregs := [], pregs := [], fstat := 0, results := [], splits := [], isTender := g.isTender.map quietTender
           stalls := [], gissue := 0, gwords := 0 }

/-- A split without its place, its run and what it keeps while it waits. -/
def frameSplit (sp : Split) : Split :=
  { sp with pc := 0, word := 0, run := Run.start, running := false, wait := none, unfin := none, stage := 0, await := []
            vals := [], paid := false }

/-! ### What a word does to its group -/

/-- The group and the split of a word that has gone by after `occ` cycles of its own: the split stands at `dest`, and its
run goes on unless the word ends it (R25); the bundle takes its longest occupancy (R24); the group has issued one more
word (R351). -/
structure Went (s t : State) (pl : Place) (g g' : Group) (sp sp' : Split) (h : Hd) (occ : Nat) (dest : Word × Nat) :
    Prop where
  group  : groupAt t pl.core pl.slot = some g'
  split  : splitAt g' pl.split = some sp'
  others : ∀ n, n ≠ pl.split → splitAt g' n = splitAt g n
  place  : (sp'.pc, sp'.word) = dest
  waits  : sp'.wait = none ∧ sp'.unfin = none
  runs   : sp'.running = (sp.running && !endsRun h)
  run    : if endsRun h then sp'.run = Run.start
           else sp'.run.words = sp.run.words + 1 ∧ sp'.run.bundle = sp.run.bundle + (if h.c then 0 else 1)
  turn   : t.turn = if endsRun h then none else some pl
  time   : t.clock = s.clock + BitVec.ofNat 64 (if h.c then 0 else Nat.max sp.run.occ occ)
  words  : g'.gwords = g.gwords + 1
  frame  : frameGroup g' = frameGroup g
  stays  : sp'.mask = sp.mask ∧ sp'.stack = sp.stack

/-- A register that a word may write: v, g, o or p. -/
def isReg : Opnd → Bool
  | .v _ | .g _ | .o _ | .p _ => true
  | _ => false

/-- An o register, which lasts as long as its run (R34). -/
def isRunReg : Opnd → Bool
  | .o _ => true
  | _ => false

/-- Registers after a word: register `d` of thread t holds `new t` where that is given (a predicate: whether it is not 0),
and every other register what it held; p0 stays (R35). An o register is asked for only while the run goes on. -/
def Writes (g g' : Group) (sp sp' : Split) (h : Hd) (d : Opnd) (new : Nat → Option Word) : Prop :=
  ∀ o t, t < 32 → isReg o = true → (endsRun h = true → isRunReg o = false) →
    regNow g' sp' (.int 64) t o =
      if o = d ∧ o ≠ .p 0 then
        (match new t with
        | some x => dstVal d x
        | none => regNow g sp (.int 64) t o)
      else regNow g sp (.int 64) t o

/-- What a word did: destination d takes `new` at once, the results `owed` become outstanding after the group's earlier
ones (R28), which lose their values in d for the threads `keys` that the word writes (R32), and the flags `fl` are raised (R82). -/
structure Wrote (s t : State) (pl : Place) (g : Group) (sp : Split) (h : Hd) (occ : Nat) (d : Opnd)
    (keys : List Nat) (new : Nat → Option Word) (fl : Flags) (owed : List Result) : Prop where
  rest : Rest s t pl
  went : ∃ g' sp', Went s t pl g g' sp sp' h occ (nextPos sp.pc sp.word) ∧ Writes g g' sp sp' h d new ∧ g'.fstat = g.fstat ||| fl.setWidth 13
    ∧ g'.results = killResults pl.split d keys g.results ++ owed ∧ sp'.lc = sp.lc

/-- A word that writes no register has gone by: from s, in which its effect has happened, time passes and the split of g
moves to `dest`. -/
structure Passed (s t : State) (pl : Place) (g : Group) (sp : Split) (h : Hd) (occ : Nat) (dest : Word × Nat) : Prop where
  rest : Rest s t pl
  went : ∃ g' sp', Went s t pl g g' sp sp' h occ dest ∧ g'.vregs = g.vregs ∧ g'.gregs = g.gregs ∧ g'.pregs = g.pregs
    ∧ g'.fstat = g.fstat ∧ g'.results = g.results ∧ g'.isTender = g.isTender ∧ sp'.lc = sp.lc
    ∧ (endsRun h = false → sp'.run.oregs = sp.run.oregs ∧ sp'.run.prods = sp.run.prods)

/-- A control-transfer word has gone by: its run ends, and the split waits to start a run at packet `pc` (R25, R26). -/
abbrev Jumped (s t : State) (pl : Place) (g : Group) (sp : Split) (occ : Nat) (pc : Word) : Prop :=
  Passed s t pl g sp ⟨false, true⟩ occ (pc, 0)

/-- The split waits at its word, which repeats its checks when the wait is over; the lane pipe is free, no time passes
and nothing else changes (R177). -/
structure Waits (s t : State) (pl : Place) (g : Group) (sp : Split) (w : Wait) : Prop where
  turn  : t.turn = none
  time  : t.clock = s.clock
  rest  : Rest s t pl
  group : groupAt t pl.core pl.slot = some (setSplit g pl.split { sp with wait := some w })
  pipe  : ∀ x ∈ (coreOf t pl.core).running, x.2.1 ≠ pl.slot

/-! ### Words that compute a register from registers (R59, R72) -/

/-- The word may issue: its operands are allowed (R36, R38, R39), in debug mode none is outstanding (R31, R32), and a
tender has what it reads (R229). -/
structure Legal (g : Group) (sp : Split) (split : Nat) (srcs : List Opnd) (d : Opnd) : Prop where
  form   : issueMode srcs d ≠ .opspec
  names  : namesBad g (d :: srcs) = false
  hazard : hazard g sp split srcs [d] = false
  ready  : tenderNeeds g sp srcs = false

/-- What a word computes: its head, destination, sources with the types of constants, pipe and latency (none: variable),
and f, which takes the thread's number and the three sources and gives the result with its flags. A word with fewer
sources names z. -/
structure Calc where
  h    : Hd
  d    : Opnd
  a    : Opnd × Conv
  b    : Opnd × Conv
  w    : Opnd × Conv
  pipe : Pipe
  lat  : Option Nat
  f    : Nat → Word → Word → Word → Word × Flags

/-- The sources. -/
def Calc.srcs (c : Calc) : List Opnd := [c.a.1, c.b.1, c.w.1]

/-- The keys at which the word computes: every active thread, or key 32 once (R39). -/
def Calc.keys (c : Calc) (m : Mask) : List Nat := threadKeys (issueMode c.srcs c.d) m

/-- What the word computes at a key, with the sources as the key's thread reads them. -/
def Calc.out (c : Calc) (s : State) (g : Group) (sp : Split) (k : Nat) : Word × Flags :=
  c.f (if k = 32 then 0 else k) (readOp g sp s.free c.a.2 k c.a.1) (readOp g sp s.free c.b.2 k c.b.1)
    (readOp g sp s.free c.w.2 k c.w.1)

/-- The values by key. -/
def Calc.vals (c : Calc) (s : State) (g : Group) (sp : Split) : List (Nat × Word) :=
  (c.keys sp.mask).map fun k => (k, (c.out s g sp k).1)

/-- The flags that the word raises, of all its computations. -/
def Calc.flags (c : Calc) (s : State) (g : Group) (sp : Split) : Flags :=
  (c.keys sp.mask).foldl (fun a k => a ||| (c.out s g sp k).2) 0

/-- The value that thread t's destination takes: its own under per-thread issue, if it is active; the one value under
uniform issue. -/
def Calc.new (c : Calc) (s : State) (g : Group) (sp : Split) (t : Nat) : Option Word :=
  if issueMode c.srcs c.d = .uniform then some (c.out s g sp 32).1
  else if sp.mask.getLsbD t then some (c.out s g sp t).1 else none

/-- Cycles of the word (R39). -/
def Calc.occ (c : Calc) (m : Mask) : Nat := if issueMode c.srcs c.d = .uniform then 1 else perThreadOcc m

/-- The run's record of the word's result, for the distances of R29. -/
def Notes (sp' : Split) (h : Hd) (pipe : Pipe) (bundle : Nat) (lat : Option Nat) (d : Opnd) : Prop :=
  endsRun h = false → ∃ p, sp'.run.prods.head? = some p ∧ p.pipe = pipe ∧ p.lat = lat ∧ p.bundle = bundle ∧ p.dst = d

/-- The instruction computes `c`: where the word may issue it answers a next state in which the destination holds what f
gives, or, with a variable latency, the results are outstanding from `src`. -/
def Computes (i : Instr) (c : Calc) (src : ResSrc) : Prop :=
  ∀ s pl g sp, Issues s pl g sp → Calm g → Legal g sp pl.split c.srcs c.d →
    ∃ t, exec i s = .next t ∧
      (match c.lat with
      | some _ => Wrote s t pl g sp c.h (c.occ sp.mask) c.d (c.keys sp.mask) (c.new s g sp) (c.flags s g sp) []
      | none => Wrote s t pl g sp c.h (c.occ sp.mask) c.d (c.keys sp.mask) (fun _ => none) (c.flags s g sp)
          (if isTracked c.d then
            [{ split := pl.split, dst := c.d, vals := c.vals s g sp, dead := false, src := src, redl := false }] else []))
      ∧ (c.lat.isSome = true ∨ isTracked c.d = true →
          ∃ g' sp', groupAt t pl.core pl.slot = some g' ∧ splitAt g' pl.split = some sp'
            ∧ Notes sp' c.h c.pipe sp.run.bundle c.lat c.d)

/-- An integer word of pipe A with latency 4 and two sources (R55); f raises no flag (R59). -/
def intCalc (h : Hd) (d a b : Opnd) (f : Word → Word → Word) : Calc :=
  { h := h, d := d, a := (a, .int 64), b := (b, .int 64), w := (.z, .int 64), pipe := .a, lat := some 4
    f := fun _ x y _ => (f x y, 0) }

/-- An integer word that also reads d (R59). -/
def intCalc3 (h : Hd) (d a b : Opnd) (f : Word → Word → Word → Word) : Calc :=
  { intCalc h d a b (fun _ _ => 0) with w := (d, .int 64), f := fun _ x y w => (f x y w, 0) }

end Sys2Proof.Claims
end

