-- ==== Sys2Proof/Safety/Arith.lean ====
section
/-! DEFINITION. What the integer words compute (R60–R70), said with integers where the rules say it so. -/

namespace Sys2Proof.Claims

open Machine

/-- The smaller and the larger of two signed values (R60). -/
def sMin (x y : Word) : Word := if x.toInt ≤ y.toInt then x else y
/-- The larger signed value. -/
def sMax (x y : Word) : Word := if x.toInt ≤ y.toInt then y else x
/-- The smaller unsigned value. -/
def uMin (x y : Word) : Word := if x.toNat ≤ y.toNat then x else y
/-- The larger unsigned value. -/
def uMax (x y : Word) : Word := if x.toNat ≤ y.toNat then y else x

/-- y[5:0]. -/
def low6 (y : Word) : Nat := y.toNat % 64
/-- y[4:0]. -/
def low5 (y : Word) : Nat := y.toNat % 32
/-- x[31:0]. -/
def half (x : Word) : BitVec 32 := x.setWidth 32

/-- x rotated left by n < 64 bits. -/
def rotLeft (x : Word) (n : Nat) : Word := (x <<< n) ||| (x >>> (64 - n))

/-- The quotient rounded towards zero, with the fixed results of R61: −2^63 ÷ −1 wraps to −2^63. -/
def quotS (x y : Word) : Word := if y = 0 then -1 else BitVec.ofInt 64 (x.toInt.tdiv y.toInt)
/-- The remainder, with the sign of the dividend. -/
def remainS (x y : Word) : Word := if y = 0 then x else BitVec.ofInt 64 (x.toInt.tmod y.toInt)
/-- The unsigned quotient. -/
def quotU (x y : Word) : Word := if y = 0 then -1 else BitVec.ofNat 64 (x.toNat / y.toNat)
/-- The unsigned remainder. -/
def remainU (x y : Word) : Word := if y = 0 then x else BitVec.ofNat 64 (x.toNat % y.toNat)

/-- Leading zero bits of x (R65). -/
def leadZeros (x : Word) : Nat := ((List.range 64).takeWhile fun i => !x.getLsbD (63 - i)).length
/-- Trailing zero bits. -/
def trailZeros (x : Word) : Nat := ((List.range 64).takeWhile fun i => !x.getLsbD i).length
/-- Bits that are 1. -/
def countOnes (x : Word) : Nat := ((List.range 64).map fun i => (x.getLsbD i).toNat).sum

/-- 1 if the condition holds, else 0 (R66). -/
def truth (b : Bool) : Word := if b then 1 else 0

/-- The conditions of R66. -/
def holds (c : Cmp) (x y : Word) : Bool :=
  match c with
  | .eq => decide (x = y)
  | .ne => decide (x ≠ y)
  | .lt => decide (x.toInt < y.toInt)
  | .ge => decide (y.toInt ≤ x.toInt)
  | .ltu => decide (x.toNat < y.toNat)
  | .geu => decide (y.toNat ≤ x.toNat)
  | .tst => decide (x &&& y ≠ 0)

/-- pos of a control operand (R68). -/
def ctlPos (y : Word) : Nat := y.toNat % 64
/-- wd of a control operand. -/
def ctlWd (y : Word) : Nat := Nat.min (y.toNat / 256 % 128) (64 - ctlPos y)

/-- x[pos + wd − 1 : pos], zero-extended (R68). -/
def fieldZ (x y : Word) : Word := (x.extractLsb' (ctlPos y) (ctlWd y)).setWidth 64
/-- The same, sign-extended from its top bit. -/
def fieldS (x y : Word) : Word := (x.extractLsb' (ctlPos y) (ctlWd y)).signExtend 64
/-- Bit i of w with bits [pos + wd − 1 : pos] replaced by x[wd − 1 : 0]. -/
def insertBit (x y w : Word) (i : Nat) : Bool :=
  if ctlPos y ≤ i ∧ i < ctlPos y + ctlWd y then x.getLsbD (i - ctlPos y) else w.getLsbD i

/-- A word by its bits. -/
def ofBits (f : Nat → Bool) : Word := BitVec.ofNat 64 ((List.range 64).map fun i => (f i).toNat * 2 ^ i).sum

/-- Bits of a packed type (R70). -/
def elBits : PTy → Nat
  | .s8 | .z8 => 8
  | .s16 | .z16 => 16
  | .s32 | .z32 => 32

/-- lo of a packed type. -/
def elLo : PTy → Int
  | .s8 => -128
  | .s16 => -32768
  | .s32 => -2147483648
  | .z8 | .z16 | .z32 => 0

/-- hi of a packed type. -/
def elHi : PTy → Int
  | .s8 => 127
  | .s16 => 32767
  | .s32 => 2147483647
  | .z8 => 255
  | .z16 => 65535
  | .z32 => 4294967295

/-- Sub-element k of x, signed or unsigned by its type. -/
def elOf (t : PTy) (x : Word) (k : Nat) : Int :=
  let e := x.extractLsb' (elBits t * k) (elBits t)
  if elLo t < 0 then e.toInt else (e.toNat : Int)

/-- sat(v, lo, hi). -/
def satEl (t : PTy) (v : Int) : Int := if v < elLo t then elLo t else if elHi t < v then elHi t else v

/-- The word whose sub-element k is r k mod 2^n (R70). -/
def packOf (t : PTy) (r : Nat → Int) : Word :=
  BitVec.ofInt 64 ((List.range (64 / elBits t)).map fun k => (r k % 2 ^ elBits t) * 2 ^ (elBits t * k)).sum

/-- A packed word (R70): constants are replicated into every sub-element (R37). -/
def packCalc (h : Hd) (t : PTy) (d a b : Opnd) (f : Int → Int → Int) : Calc :=
  { intCalc h d a b (fun x y => packOf t fun k => f (elOf t x k) (elOf t y k)) with
    a := (a, .int (elBits t)), b := (b, .int (elBits t)) }

/-- A division word: its results come later (R56). -/
def divCalc (h : Hd) (d a b : Opnd) (f : Word → Word → Word) : Calc := { intCalc h d a b f with lat := none }

/-- Bits of a width of SEXT, ZEXT, PACK and UNPACK. -/
def widthOf : PackW → Nat
  | .b8 => 8
  | .b16 => 16
  | .b32 => 32

end Sys2Proof.Claims
end

