-- ==== Sys2Proof/Safety/Traps.lean ====
section
/-! DEFINITION. The terms in which claims speak of a trap (R347). -/

namespace Sys2Proof.Claims

open Machine

/-- A group without what a stop changes. -/
def frameStopped (g : Group) : Group := { g with stopped := false, trrec := TrapRec.reset, splits := [] }

/-- A core without its groups and what a squash of tenders frees (R222, R234). -/
def frameCore (k : Core) : Core := { k with slots := [], running := [], vgran := 0, forks := [], room := [] }

/-- The trap record of a stop at the word where a split stands (R347). -/
def recordAt (pl : Place) (sp : Split) (cause : BitVec 8) (kind : BitVec 2) (code : BitVec 14) (addr : Word) : TrapRec :=
  { cause := cause, kind := kind, split := BitVec.ofNat 2 pl.split, word := BitVec.ofNat 2 sp.word, code := code
    pc := sp.pc, addr := addr }

/-- The group at `pl` has stopped with a trap record: its registers, its splits and memory are as before the word, its
tenders are gone, its lane pipe is free, no time has passed, and Jalov has been told (R222, R347). -/
structure Trapped (s t : State) (pl : Place) (g : Group) (sp : Split) (cause : BitVec 8) (kind : BitVec 2)
    (code : BitVec 14) (addr : Word) : Prop where
  group   : ∃ g', groupAt t pl.core pl.slot = some g' ∧ g'.stopped = true
    ∧ g'.trrec = recordAt pl sp cause kind code addr ∧ frameStopped g' = frameStopped g
    ∧ splitAt g' pl.split = some { sp with stage := 0, await := [], paid := false } ∧ ∀ n, n ≠ pl.split → splitAt g' n = splitAt g n
  others  : ∀ c n, (c, n) ≠ (pl.core, pl.slot) → groupAt t c n =
    if c = pl.core ∧ n ∈ tendersOf (coreOf s pl.core) pl.slot then none else groupAt s c n
  pipe    : ∀ x ∈ (coreOf t pl.core).running, x.2.1 ≠ pl.slot
  turn    : t.turn = none
  reports : ∃ pid, t.reports = s.reports ++ [.trap g.part pid (cgid g) cause.toNat kind.toNat]
  bytes   : ∀ loc, memByte t loc = memByte s loc
  cores   : ∀ c, frameCore (coreOf t c) = frameCore (coreOf s c)
  rest    : { quiet t with reports := [] } = { quiet s with reports := [] } ∧ t.clock = s.clock ∧ t.parts = s.parts

/-- TRAP or SYSCALL has issued: it stands where it stood, its bundle's cycles have passed, and it counts as a word (R342, R351). -/
structure CallIssued (s t : State) (pl : Place) (g g1 : Group) (sp sp1 : Split) : Prop where
  rest   : Rest s t pl
  turn   : t.turn = s.turn
  time   : t.clock = s.clock + BitVec.ofNat 64 (Nat.max sp.run.occ 1)
  group  : groupAt t pl.core pl.slot = some g1
  split  : splitAt g1 pl.split = some sp1
  others : ∀ n, n ≠ pl.split → splitAt g1 n = splitAt g n
  words  : g1.gwords = g.gwords + 1
  frame  : { quietGroup g1 with gwords := 0, splits := [] } = { quietGroup g with gwords := 0, splits := [] }
  stays  : (sp1.pc, sp1.word) = (sp.pc, sp.word) ∧ frameSplit sp1 = frameSplit sp ∧ sp1.run = { sp.run with occ := 0 }

/-- The group may stop: it is no tender, which would stall until its validation (R231), nor listed as its own. -/
structure MayTrap (s : State) (pl : Place) (g : Group) : Prop where
  tender : g.isTender = none
  slots  : pl.slot ∉ tendersOf (coreOf s pl.core) pl.slot

end Sys2Proof.Claims
end

