-- ==== Sys2Proof/Safety/Lanes.lean ====
section
/-! DEFINITION. What the cross-lane words compute (R103, R104, R113–R121), said of the active threads of a split. -/

namespace Sys2Proof.Claims

open Machine

/-- What a cross-lane word sees: the active threads, and sources a and b as each thread reads them. -/
structure Lanes where
  act : Mask
  a   : Nat → Word
  b   : Nat → Word

/-- The lowest active thread, whose read of a uniform b counts. -/
def Lanes.first (l : Lanes) : Nat := l.act.lowest

/-- Bits [n k + n − 1 : n k] of a register (R72). -/
def sub (n : Nat) (x : Word) (k : Nat) : Nat := x.toNat / 2 ^ (n * k) % 2 ^ n

/-- The register whose sub-element k of n bits is f k. -/
def ofSub (n : Nat) (f : Nat → Nat) : Word :=
  BitVec.ofNat 64 ((List.range (64 / n)).map fun k => f k % 2 ^ n * 2 ^ (n * k)).sum

/-- Bits of a float type (R73). -/
def floatBits : FTy → Nat
  | .f64 => 64
  | .f32 => 32
  | .f16 | .bf16 => 16
  | .e4m3 | .e5m2 => 8

/-- The codes of 1, 2, 3, 4, 8, 16, 32 and −1 in a float type (R37, R73). -/
def floatConsts : FTy → List Nat
  | .f64 => [0x3FF0000000000000, 0x4000000000000000, 0x4008000000000000, 0x4010000000000000]
      ++ [0x4020000000000000, 0x4030000000000000, 0x4040000000000000, 0xBFF0000000000000]
  | .f32 => [0x3F800000, 0x40000000, 0x40400000, 0x40800000, 0x41000000, 0x41800000, 0x42000000, 0xBF800000]
  | .f16 => [0x3C00, 0x4000, 0x4200, 0x4400, 0x4800, 0x4C00, 0x5000, 0xBC00]
  | .bf16 => [0x3F80, 0x4000, 0x4040, 0x4080, 0x4100, 0x4180, 0x4200, 0xBF80]
  | .e4m3 => [0x38, 0x40, 0x44, 0x48, 0x50, 0x58, 0x60, 0xB8]
  | .e5m2 => [0x3C, 0x40, 0x42, 0x44, 0x48, 0x4C, 0x50, 0xBC]

/-- Element e of a over the threads, which counts the sub-elements of thread 0 first; 0 in a thread that is not active
(R104, R114). -/
def Lanes.el (l : Lanes) (n e : Nat) : Nat :=
  let t := e / (64 / n)
  if l.act.getLsbD t then sub n (l.a t) (e % (64 / n)) else 0

/-- Threads of the split below t. -/
def Lanes.rank (l : Lanes) (t : Nat) : Nat := (l.act.threads.filter fun i => decide (i < t)).length

/-- A value for every active thread. -/
def Lanes.each (l : Lanes) (f : Nat → Word) (t : Nat) : Option Word := if l.act.getLsbD t then some (f t) else none

/-- One value for every active thread, or once for a g register (R116, R119). -/
def Lanes.all (l : Lanes) (d : Opnd) (x : Word) (t : Nat) : Option Word :=
  match d with
  | .g _ => some x
  | _ => l.each (fun _ => x) t

/-- The elements of the active threads in ascending order, each with whether its selecting sub-element is not 0 (R120). -/
def Lanes.list (l : Lanes) (n : Nat) (sel : Nat → Word) : List (Nat × Bool) :=
  l.act.threads.flatMap fun t => (List.range (64 / n)).map fun k => (sub n (l.a t) k, sub n (sel t) k != 0)

/-- Element k of thread t among them. -/
def Lanes.place (l : Lanes) (n t k : Nat) : Nat := 64 / n * l.rank t + k

/-- A cross-lane word: its head, destination, sources with the types of constants, whether b must be uniform and whether a
g destination is allowed, its latency, the value that each thread's destination takes, and its flags. -/
structure LaneCalc where
  h     : Hd
  d     : Opnd
  a     : Opnd × Conv
  b     : Opnd × Conv
  uniB  : Bool
  gOk   : Bool
  lat   : Nat
  new   : Lanes → Nat → Option Word
  flags : Lanes → Flags

/-- What the word sees. -/
def LaneCalc.sees (c : LaneCalc) (s : State) (g : Group) (sp : Split) : Lanes :=
  { act := sp.mask, a := fun t => readOp g sp s.free c.a.2 t c.a.1, b := fun t => readOp g sp s.free c.b.2 t c.b.1 }

/-- The word may issue (R36, R38, R115, R116, R229); a split always has an active thread (R216). -/
structure LaneCalc.Legal (c : LaneCalc) (g : Group) (sp : Split) (split : Nat) : Prop where
  names  : namesBad g [c.d, c.a.1, c.b.1] = false
  dest   : badDst c.d = false ∧ ((∃ n, c.d = .g n) → c.gOk = true)
  uni    : c.uniB = true → isUniform c.b.1 = true
  hazard : hazard g sp split [c.a.1, c.b.1] [c.d] = false
  ready  : tenderNeeds g sp [c.a.1, c.b.1] = false
  active : sp.mask ≠ 0

/-- The keys that the word writes: 32 once for a g register, else every thread that receives a value (R32, R116). -/
def LaneCalc.keys (c : LaneCalc) (l : Lanes) : List Nat :=
  match c.d with
  | .g _ => [32]
  | _ => (List.range 32).filter fun t => (c.new l t).isSome

/-- The instruction computes `c`: where it may issue it answers a next state in which the threads' destinations hold what
`c` gives; it issues per thread in every case (R103). -/
def LaneComputes (i : Instr) (c : LaneCalc) : Prop :=
  ∀ s pl g sp, Issues s pl g sp → Calm g → c.Legal g sp pl.split →
    ∃ t, exec i s = .next t
      ∧ Wrote s t pl g sp c.h (perThreadOcc sp.mask) c.d (c.keys (c.sees s g sp)) (c.new (c.sees s g sp)) (c.flags (c.sees s g sp)) []
      ∧ ∃ g' sp', groupAt t pl.core pl.slot = some g' ∧ splitAt g' pl.split = some sp'
          ∧ Notes sp' c.h .m sp.run.bundle (some c.lat) c.d

/-- A cross-lane word of latency 10 without flags. -/
def laneCalc (h : Hd) (d a b : Opnd) (ca cb : Conv) (new : Lanes → Nat → Option Word) : LaneCalc :=
  { h := h, d := d, a := (a, ca), b := (b, cb), uniB := false, gOk := false, lat := 10, new := new, flags := fun _ => 0 }

/-- Bits of an element of SHUF and BCAST (R115). -/
def shufBits : LaneW → Nat
  | .b64 => 64
  | .b32 => 32
  | .b16 => 16
  | .b8 => 8

/-- Bits of an element of SUBPERM (R121). -/
def permWidth : PermW → Nat
  | .b4 => 4
  | .b8 => 8
  | .b16 => 16
  | .b32 => 32

/-- The thread that a uniform b names (R116). -/
def Lanes.named (l : Lanes) : Nat := (l.b l.first).toNat % 32

/-- A condition of VOTE as a word (R117). -/
def voteCalc (h : Hd) (d a : Opnd) (f : Lanes → Word) : LaneCalc :=
  laneCalc h d a .z (.int 64) (.int 64) fun l => l.each fun _ => f l

/-- The ballot: bit t is 1 if thread t is active and its a is not 0. -/
def ballot (l : Lanes) : Word := ofBits fun t => l.act.getLsbD t && decide (l.a t ≠ 0)

/-- Element p of COMPRESS: the selected values in order, then zeros (R120). -/
def compressAt (es : List (Nat × Bool)) (p : Nat) : Nat := ((es.filter (·.2)).map (·.1)).getD p 0

/-- Element p of EXPAND: the j-th selected position takes the j-th value, the others 0 (R120). -/
def expandAt (es : List (Nat × Bool)) (p : Nat) : Nat :=
  if (es.getD p (0, false)).2 then (es.getD ((es.take p).filter (·.2)).length (0, false)).1 else 0

/-- The members of a reduction at sub-element position k: those of the given threads, in ascending order (R119). -/
def Lanes.members (l : Lanes) (n k : Nat) (ts : List Nat) : List Nat := ts.map fun t => sub n (l.a t) k

/-- An integer reduction of n-bit members: the sum modulo 2^n, the least or largest member, or the bits combined (R119). -/
def foldInts (op : RedOp) (n : Nat) (signed : Bool) (ms : List Nat) : Nat :=
  let v := fun x : Nat => if signed && decide (2 ^ (n - 1) ≤ x) then (x : Int) - 2 ^ n else (x : Int)
  match op with
  | .add => ms.sum % 2 ^ n
  | .min => ms.foldl (fun m x => if v x < v m then x else m) (if signed then 2 ^ (n - 1) - 1 else 2 ^ n - 1)
  | .max => ms.foldl (fun m x => if v m < v x then x else m) (if signed then 2 ^ (n - 1) else 0)
  | .and => ms.foldl (· &&& ·) (2 ^ n - 1)
  | .or => ms.foldl (· ||| ·) 0
  | .xor => ms.foldl (· ^^^ ·) 0

/-- Bits of an integer type of a reduction, and whether it is signed; none for a float type. -/
def intType : RTy → Option (Nat × Bool)
  | .s64 => some (64, true)
  | .z64 => some (64, false)
  | .s32 => some (32, true)
  | .z32 => some (32, false)
  | _ => none

/-- The results at every sub-element position, gathered, with their flags. -/
def gatherEls (n : Nat) (f : Nat → Nat × Flags) : Word × Flags :=
  (ofSub n fun k => (f k).1, (List.range (64 / n)).foldl (fun a k => a ||| (f k).2) 0)

end Sys2Proof.Claims
end

