-- ==== Sys2Proof/Safety/Floats.lean ====
section
/-! DEFINITION. What the float words compute (R72–R102, R107–R112), said with rational numbers: the exact result, rounded
once. -/

namespace Sys2Proof.Claims

open Machine

/-! ### Values and rounding -/

/-- The value is a number. -/
def isNum : FVal → Bool
  | .fin _ _ _ => true
  | _ => false

/-- The rational number of a finite value. -/
def ratOf : FVal → ℚ
  | .fin n m e => (if n then -1 else 1) * m * 2 ^ e
  | _ => 0

/-- Fraction bits (R73). -/
def fracBits : FTy → Nat
  | .f64 => 52
  | .f32 => 23
  | .f16 => 10
  | .bf16 => 7
  | .e5m2 => 2
  | .e4m3 => 3

/-- The exponent of the smallest normal number. -/
def minExp2 : FTy → Int
  | .f64 => -1022
  | .f32 | .bf16 => -126
  | .f16 | .e5m2 => -14
  | .e4m3 => -6

/-- The largest finite number. -/
def maxFinite : FTy → ℚ
  | .f64 => (2 - 2 ^ (-52 : Int)) * 2 ^ (1023 : Int)
  | .f32 => (2 - 2 ^ (-23 : Int)) * 2 ^ (127 : Int)
  | .f16 => 65504
  | .bf16 => (2 - 2 ^ (-7 : Int)) * 2 ^ (127 : Int)
  | .e5m2 => 57344
  | .e4m3 => 448

/-- The canonical NaNs (R74). -/
def nanCode : FTy → Nat
  | .f64 => 0x7FF8000000000000
  | .f32 => 0x7FC00000
  | .f16 => 0x7E00
  | .bf16 => 0x7FC0
  | .e5m2 => 0x7E
  | .e4m3 => 0x7F

/-- The code of +∞; E4M3 has none. -/
def infCode : FTy → Nat
  | .f64 => 0x7FF0000000000000
  | .f32 => 0x7F800000
  | .f16 => 0x7C00
  | .bf16 => 0x7F80
  | .e5m2 => 0x7C
  | .e4m3 => 0x7F

/-- The code of the largest finite number. -/
def maxCode : FTy → Nat
  | .f64 => 0x7FEFFFFFFFFFFFFF
  | .f32 => 0x7F7FFFFF
  | .f16 => 0x7BFF
  | .bf16 => 0x7F7F
  | .e5m2 => 0x7B
  | .e4m3 => 0x7E

/-- A code with a sign. -/
def withSign (t : FTy) (neg : Bool) (code : Nat) : Nat := if neg then 2 ^ (floatBits t - 1) + code else code

/-- An infinity of either sign; the NaN of E4M3. -/
def infOf (t : FTy) (neg : Bool) : Nat := if t = .e4m3 then nanCode t else withSign t neg (infCode t)

/-- A magnitude k in units of the last place, rounded to an integer by a mode; `thr` is a threshold out of 128 (R79, R80). -/
def roundUnits (rm : Rnd) (thr : Nat) (neg : Bool) (k : ℚ) : Nat :=
  let lo := ⌊k⌋.toNat
  let r := k - lo
  let up := match rm with
    | .rne => decide (1 / 2 < r) || (decide (r = 1 / 2) && decide (lo % 2 = 1))
    | .rz => false
    | .ru => decide (0 < r) && !neg
    | .rd => decide (0 < r) && neg
    | .dr => decide ((thr : ℚ) / 128 < r)
  if up then lo + 1 else lo

/-- Whether a rounding that overflows gives an infinity (R79). -/
def toInfinity (rm : Rnd) (neg : Bool) : Bool :=
  match rm with
  | .rne | .dr => true
  | .rz => false
  | .ru => !neg
  | .rd => neg

/-- A rational number other than 0 rounded once to a format, with OF, UF and IX; tininess is judged after rounding (R79).
Under .dr a number above the largest finite one is rounded to nearest (R80). -/
def roundRat (t : FTy) (rm : Rnd) (thr : Nat) (x : ℚ) : Nat × Flags :=
  let neg := decide (x < 0)
  let rm := if rm = .dr && decide (maxFinite t < |x|) then .rne else rm
  let lg := Int.log 2 |x| - (fracBits t : Int)
  let least := minExp2 t - (fracBits t : Int)
  let q := max lg least
  let n := roundUnits rm thr neg (|x| / 2 ^ q)
  let y : ℚ := n * 2 ^ q
  if maxFinite t < y then
    (if toInfinity rm neg then infOf t neg else withSign t neg (maxCode t), fOF ||| fIX)
  else
    let tiny := decide ((roundUnits rm thr neg (|x| / 2 ^ lg) : ℚ) * 2 ^ lg < 2 ^ minExp2 t)
    (withSign t neg ((q - least).toNat * 2 ^ fracBits t + n),
      flagIf (decide (y ≠ |x|) && tiny) fUF ||| flagIf (decide (y ≠ |x|)) fIX)

/-- A member is the infinity of a sign. -/
def hasInf (neg : Bool) (l : List FVal) : Bool := l.any fun v => decide (v = .inf neg)

/-- An exact sum, rounded once (R79, R89, R100): infinities of both signs give NaN and IV; a NaN gives NaN, with IV if one is
signalling; a sum of zeros of one sign is that zero, any other zero sum +0, or −0 under .rd. -/
def sumOf (t : FTy) (rm : Rnd) (l : List FVal) : Nat × Flags :=
  let x := (l.map ratOf).sum
  if hasInf true l && hasInf false l then (nanCode t, fIV)
  else if l.any fvIsNan then (nanCode t, flagIf (l.any fvIsSnan) fIV)
  else if hasInf true l then (infOf t true, 0)
  else if hasInf false l then (infOf t false, 0)
  else if x ≠ 0 then roundRat t rm 0 x
  else if l ≠ [] && l.all fun v => fvIsZero v && fvSign v then (withSign t true 0, 0)
  else if l.all fun v => fvIsZero v && !fvSign v then (0, 0)
  else (withSign t (decide (rm = .rd)) 0, 0)

/-- An exact product, rounded once (R89): 0 × ∞ gives NaN and IV; the sign of a zero or an infinity is that of the
product. -/
def mulOf (t : FTy) (rm : Rnd) (x y : FVal) : Nat × Flags :=
  if fvIsNan x || fvIsNan y then (nanCode t, flagIf (fvIsSnan x || fvIsSnan y) fIV)
  else if (fvIsZero x && !isNum y) || (fvIsZero y && !isNum x) then (nanCode t, fIV)
  else if !isNum x || !isNum y then (infOf t (fvSign x != fvSign y), 0)
  else if ratOf x * ratOf y = 0 then (withSign t (fvSign x != fvSign y) 0, 0)
  else roundRat t rm 0 (ratOf x * ratOf y)

/-- x × y + w, or w − x × y, with one rounding (R89). -/
def fmaOf (t : FTy) (rm : Rnd) (x y w : FVal) (negProd : Bool) : Nat × Flags :=
  let (p, f) := fvMul x y
  let (c, g) := sumOf t rm [if negProd then fvNeg p else p, w]
  (c, g ||| f ||| flagIf (fvIsSnan x || fvIsSnan y) fIV)

/-! ### Float words -/

/-- A float word on sub-elements of one type: pipe F, latency 8 for .f64 and 6 otherwise (R29, R72). -/
def fltCalc (h : Hd) (t : FTy) (d a b : Opnd) (f : Nat → Nat → Nat → Nat × Flags) : Calc :=
  { h := h, d := d, a := (a, .flt t), b := (b, .flt t), w := (.z, .flt t), pipe := .f
    lat := some (if t = .f64 then 8 else 6)
    f := fun _ x y w => gatherEls (floatBits t) fun k =>
      f (sub (floatBits t) x k) (sub (floatBits t) y k) (sub (floatBits t) w k) }

/-- A float word that also reads d (R88). -/
def fltCalc3 (h : Hd) (t : FTy) (d a b : Opnd) (f : Nat → Nat → Nat → Nat × Flags) : Calc :=
  { fltCalc h t d a b f with w := (d, .flt t) }

/-- A float word of one source. -/
def fltCalc1 (h : Hd) (t : FTy) (d a : Opnd) (f : Nat → Nat × Flags) : Calc := fltCalc h t d a .z fun x _ _ => f x

/-- FMIN and FMAX (R89): minimumNumber and maximumNumber, with −0 below +0. -/
def extremeOf (t : FTy) (wantMax : Bool) (a b : Nat) : Nat × Flags :=
  let x := fDecode t a
  let y := fDecode t b
  let iv := flagIf (fvIsSnan x || fvIsSnan y) fIV
  let below := fun u v : FVal => decide (u = .inf true) || decide (v = .inf false)
    || (isNum u && isNum v && (decide (ratOf u < ratOf v) || (decide (ratOf u = ratOf v) && fvSign u)))
  if fvIsNan x && fvIsNan y then (nanCode t, iv)
  else if fvIsNan x then (b, iv)
  else if fvIsNan y then (a, iv)
  else (if below x y != wantMax then a else b, iv)

/-- The class of a code by its fields (R90). -/
def classBit (t : FTy) (code : Nat) : Nat :=
  let f := fracBits t
  let neg := decide (2 ^ (floatBits t - 1) ≤ code)
  let ex := code / 2 ^ f % 2 ^ (floatBits t - 1 - f)
  let fr := code % 2 ^ f
  if ex = 2 ^ (floatBits t - 1 - f) - 1 then
    if fr = 0 then (if neg then 2 ^ 0 else 2 ^ 7) else if fr < 2 ^ (f - 1) then 2 ^ 8 else 2 ^ 9
  else if ex = 0 then
    if fr = 0 then (if neg then 2 ^ 3 else 2 ^ 4) else (if neg then 2 ^ 2 else 2 ^ 5)
  else (if neg then 2 ^ 1 else 2 ^ 6)

/-- A rational number rounded to an integer by a mode. -/
def roundInt (rm : Rnd) (x : ℚ) : Int :=
  let k := roundUnits rm 0 (decide (x < 0)) |x|
  if x < 0 then -(k : Int) else (k : Int)

/-- FRND (R90). -/
def integralOf (t : FTy) (rm : Rnd) (code : Nat) : Nat × Flags :=
  let v := fDecode t code
  if fvIsNan v then (nanCode t, flagIf (fvIsSnan v) fIV)
  else if !isNum v then (code, 0)
  else if roundInt rm (ratOf v) = 0 then (withSign t (fvSign v) 0, 0)
  else ((roundRat t .rne 0 (roundInt rm (ratOf v))).1, 0)

/-- FSCALB: x × 2^n, rounded once (R91). -/
def scaledOf (t : FTy) (code : Nat) (n : Int) : Nat × Flags :=
  let v := fDecode t code
  if fvIsNan v then (nanCode t, flagIf (fvIsSnan v) fIV)
  else if !isNum v || fvIsZero v then (code, 0)
  else roundRat t .rne 0 (ratOf v * 2 ^ n)

/-- x is less than y. -/
def lessThan (x y : FVal) : Bool :=
  match x, y with
  | .inf a, .inf b => a && !b
  | .inf a, .fin _ _ _ => a
  | .fin _ _ _, .inf b => !b
  | .fin _ _ _, .fin _ _ _ => decide (ratOf x < ratOf y)
  | _, _ => false

/-- x equals y; +0 equals −0. -/
def equals (x y : FVal) : Bool :=
  match x, y with
  | .inf a, .inf b => a == b
  | .fin _ _ _, .fin _ _ _ => decide (ratOf x = ratOf y)
  | _, _ => false

/-- FCMP: whether the condition holds, and IV (R92). -/
def comparedBy (c : FCmp) (x y : FVal) : Bool × Flags :=
  let nan := fvIsNan x || fvIsNan y
  let snan := fvIsSnan x || fvIsSnan y
  match c with
  | .eq => (equals x y, flagIf snan fIV)
  | .lt => (lessThan x y, flagIf nan fIV)
  | .le => (lessThan x y || equals x y, flagIf nan fIV)
  | .un => (nan, flagIf snan fIV)

/-- Gathers n results of w bits each; higher bits are 0. -/
def gatherN (w n : Nat) (f : Nat → Nat × Flags) : Word × Flags :=
  (BitVec.ofNat 64 ((List.range n).map fun k => (f k).1 % 2 ^ w * 2 ^ (w * k)).sum,
    (List.range n).foldl (fun a k => a ||| (f k).2) 0)

/-- CVT of one element between float types (R94). -/
def convFloat (dst src : FTy) (rm : Rnd) (sat : Bool) (thr : Nat) (code : Nat) : Nat × Flags :=
  let v := fDecode src code
  let neg := fvSign v
  if fvIsNan v then (nanCode dst, flagIf (fvIsSnan v) fIV)
  else if !isNum v then
    if sat then (withSign dst neg (maxCode dst), 0) else if dst = .e4m3 then (nanCode dst, fIV) else (infOf dst neg, 0)
  else if fvIsZero v then (withSign dst neg 0, 0)
  else
    let (c, f) := roundRat dst rm thr (ratOf v)
    if f &&& fOF = 0 then (c, f)
    else if sat then (withSign dst neg (maxCode dst), fOF ||| fIX)
    else if dst = .e4m3 && decide (c = nanCode dst) then (c, fIV) else (c, f)

/-- The least and the largest value of an integer type. -/
def intRange : ITy → Int × Int
  | .s32 => (-2147483648, 2147483647)
  | .z32 => (0, 4294967295)
  | .s64 => (-9223372036854775808, 9223372036854775807)
  | .z64 => (0, 18446744073709551615)

/-- Bits of an integer type. -/
def intSize : ITy → Nat
  | .s32 | .z32 => 32
  | .s64 | .z64 => 64

/-- CVT of one float to an integer (R94). -/
def convToInt (src : FTy) (dst : ITy) (rm : Rnd) (code : Nat) : Nat × Flags :=
  let v := fDecode src code
  let put := fun x : Int => (x % 2 ^ intSize dst).toNat
  if fvIsNan v then (0, fIV)
  else if !isNum v then (put (if fvSign v then (intRange dst).1 else (intRange dst).2), fIV)
  else
    let x := roundInt rm (ratOf v)
    if x < (intRange dst).1 then (put (intRange dst).1, fIV)
    else if (intRange dst).2 < x then (put (intRange dst).2, fIV)
    else (put x, flagIf (decide ((x : ℚ) ≠ ratOf v)) fIX)

/-- CVT of one integer to a float (R94). -/
def convFromInt (src : ITy) (dst : FTy) (rm : Rnd) (n : Nat) : Nat × Flags :=
  let x : Int := if (intRange src).1 < 0 ∧ 2 ^ (intSize src - 1) ≤ n then (n : Int) - 2 ^ intSize src else (n : Int)
  if x = 0 then (0, 0) else roundRat dst rm 0 x

/-! ### Quantisation -/

/-- The magnitudes of NQ4 (R75). -/
def magnitudes : List ℚ := [0, 11 / 128, 23 / 128, 73 / 256, 51 / 128, 17 / 32, 91 / 128, 1]

/-- m_j. -/
def magnitude (j : Nat) : ℚ := magnitudes.getD j 0

/-- A field of the control value (R95). -/
def ctlField (y : Word) (lo n : Nat) : Nat := y.toNat / 2 ^ lo % 2 ^ n

/-- The block scale, if it is valid: finite and greater than zero. -/
def scaleIn (y : Word) : Option ℚ :=
  let v := fDecode .f32 (ctlField y 0 32)
  if isNum v && decide (0 < ratOf v) then some (ratOf v) else none

/-- The threshold (D[i mod 64] + 0.5) ÷ 64 of R80. -/
def ditherAt (i : Nat) : ℚ := (ditherD.getD (i % 64) 0 + 1 / 2) / 64

/-- The index that QNQ4 gives to a magnitude y; `thr` is the threshold of .dr (R96). -/
def indexOf (y : ℚ) (thr : Option ℚ) : Nat :=
  if 1 ≤ y then 7
  else
    let j := ((List.range 7).filter fun i => decide (magnitude i ≤ y)).length - 1
    let lo := magnitude j
    let hi := magnitude (j + 1)
    match thr with
    | some t => if t < (y - lo) / (hi - lo) then j + 1 else j
    | none => if hi - y < y - lo ∨ (y - lo = hi - y ∧ j % 2 = 1) then j + 1 else j

/-- The code that QNQ4 gives to an element (R96). -/
def quantNq4 (v : FVal) (bs : Option ℚ) (thr : Option ℚ) : Nat × Flags :=
  match bs with
  | none => (0, fIV)
  | some b =>
    if fvIsNan v then (0, fIV)
    else
      let j := if isNum v then indexOf (|ratOf v| / b) thr else 7
      (if j = 0 then 0 else (if fvSign v then 8 else 0) + j, 0)

/-- w with the n-bit field at bit `pos` replaced. -/
def replaceField (w : Word) (pos n x : Nat) : Word :=
  ofBits fun i => if pos ≤ i ∧ i < pos + n then x.testBit (i - pos) else w.getLsbD i

/-- The BF16 value of a code of DQNQ4 (R97). -/
def dequantNq4 (code : Nat) (bs : Option ℚ) : Nat × Flags :=
  match bs with
  | none => (nanCode .bf16, fIV)
  | some b =>
    if code % 8 = 0 then (0, 0)
    else roundRat .bf16 .rne 0 ((if 8 ≤ code then -1 else 1) * magnitude (code % 8) * b)

/-- The code that QE8 gives to an element (R98): always saturated, with IV alone. -/
def quantE8 (t : FTy) (v : FVal) (bs : Option ℚ) (rm : Rnd) (thr : Nat) : Nat × Flags :=
  match bs with
  | none => (nanCode t, fIV)
  | some b =>
    if fvIsNan v then (nanCode t, fIV)
    else if !isNum v then (withSign t (fvSign v) (maxCode t), 0)
    else if fvIsZero v then (withSign t (fvSign v) 0, 0)
    else
      let (c, f) := roundRat t rm thr (ratOf v / b)
      (if f &&& fOF = 0 then c else withSign t (fvSign v) (maxCode t), 0)

/-- The BF16 value of a code of DQE8 (R99). -/
def dequantE8 (t : FTy) (code : Nat) (bs : Option ℚ) : Nat × Flags :=
  let v := fDecode t code
  match bs with
  | none => (nanCode .bf16, fIV)
  | some b =>
    if fvIsNan v then (nanCode .bf16, 0)
    else if !isNum v then (infOf .bf16 (fvSign v), 0)
    else if fvIsZero v then (withSign .bf16 (fvSign v) 0, 0)
    else roundRat .bf16 .rne 0 (ratOf v * b)

/-- A quantisation word: b is a control value (R95). -/
def quantCalc (h : Hd) (d a b w : Opnd) (ca : Conv) (f : Word → Word → Word → Word × Flags) : Calc :=
  { h := h, d := d, a := (a, ca), b := (b, .int 64), w := (w, .int 64), pipe := .f, lat := some 6
    f := fun _ x y z => f x y z }

/-! ### Special functions -/

/-- The value of a rational number rounded to FP32. -/
def f32 (x : ℚ) : ℚ := if x = 0 then 0 else ratOf (fDecode .f32 (roundRat .f32 .rne 0 x).1)

/-- EXP2, step by step (R110). -/
def expTwo (code : Nat) : Nat × Flags :=
  let v := fDecode .f32 code
  if fvIsNan v then (nanCode .f32, flagIf (fvIsSnan v) fIV)
  else if !isNum v then (if fvSign v then 0 else infCode .f32, 0)
  else
    let x := ratOf v
    let n := ⌊64 * x⌋
    let i := ⌊(n : ℚ) / 64⌋
    let j := (n - 64 * i).toNat
    let r := f32 (x - n / 64)
    let t := ratOf (fDecode .f32 (exp2T.getD j 0))
    let q := f32 (f32 (f32 (ratOf (fDecode .f32 0x3E75FDF0) * r) + ratOf (fDecode .f32 0x3F317218)) * r)
    let m := f32 (t + f32 (t * q))
    let (c, f) := roundRat .f32 .rne 0 (m * 2 ^ i)
    (c, f ||| flagIf (decide (r ≠ 0)) fIX)

/-- The power of a maximum in a merge (R111): +0 for −∞, else EXP2 of its distance from the greater one. -/
def lsePower (x m : FVal) : Nat × Flags :=
  if x = .inf true then (0, 0)
  else
    let (d, f) := sumOf .f32 .rne [x, fvNeg m]
    let (e, g) := expTwo d
    (e, f ||| g)

/-- What a partial (x, s) contributes to a merge with the greater maximum m: its sum times the power; nothing where x is −∞
and the sum is infinite. -/
def lseShare (x s m : FVal) : Nat × Flags :=
  if x = .inf true ∧ !isNum s then (0, 0)
  else
    let (e, f) := lsePower x m
    let (y, g) := mulOf .f32 .rne s (fDecode .f32 e)
    (y, f ||| g)

/-- LSE2 of the partials (ma, sa) and (mb, sb) (R111): the merged maximum, the merged sum and the flags of the steps. -/
def mergeOf (ma sa mb sb : Nat) : Nat × Nat × Flags :=
  let v := fDecode .f32
  let all := [v ma, v sa, v mb, v sb]
  if all.any fvIsNan then (nanCode .f32, nanCode .f32, flagIf (all.any fvIsSnan) fIV)
  else if v ma = .inf false ∨ v mb = .inf false then (infCode .f32, nanCode .f32, fIV)
  else if v ma = .inf true ∧ v mb = .inf true then (withSign .f32 true (infCode .f32), 0, 0)
  else
    let m := (extremeOf .f32 true ma mb).1
    let (pa, f) := lseShare (v ma) (v sa) (v m)
    let (pb, g) := lseShare (v mb) (v sb) (v m)
    let (r, k) := sumOf .f32 .rne [v pa, v pb]
    (m, r, f ||| g ||| k)

/-- RCP (R108). -/
def inverseOf (code : Nat) : Nat × Flags :=
  let v := fDecode .f32 code
  if fvIsNan v then (nanCode .f32, flagIf (fvIsSnan v) fIV)
  else if !isNum v then (withSign .f32 (fvSign v) 0, 0)
  else if fvIsZero v then (infOf .f32 (fvSign v), fDZ)
  else roundRat .f32 .rne 0 (1 / ratOf v)

/-- The FP32 number of a code lies within k ulp of the real number v (R108), where an ulp is that of v's binade (DESIGN CHOICE,
log 7). -/
def NearUlps (code : Nat) (v : ℝ) (k : ℝ) : Prop :=
  isNum (fDecode .f32 code) = true
    ∧ |(ratOf (fDecode .f32 code) : ℝ) - v| ≤ k * 2 ^ max (Int.log 2 |v| - 23) (-149)

/-- The FP32 number of a code lies within 2^−22 of the real number v (R108). -/
def NearFixed (code : Nat) (v : ℝ) : Prop :=
  isNum (fDecode .f32 code) = true ∧ |(ratOf (fDecode .f32 code) : ℝ) - v| ≤ 2 ^ (-22 : Int)

/-- The FP32 function on a sub-element; of BF16, widened exactly and its result rounded, with the flags of both (R107). -/
def widened (t : STy) (f : Nat → Nat × Flags) (code : Nat) : Nat × Flags :=
  match t with
  | .f32 => f code
  | .bf16 => ((convFloat .bf16 .f32 .rne false 0 (f (code * 65536)).1).1,
      (f (code * 65536)).2 ||| (convFloat .bf16 .f32 .rne false 0 (f (code * 65536)).1).2)

/-- The format of a special-function type. -/
def specType : STy → FTy
  | .f32 => .f32
  | .bf16 => .bf16

/-- A special-function word: pipe M, latency 12 (R29, R103). -/
def specCalc (h : Hd) (t : STy) (d a : Opnd) (f : Nat → Nat × Flags) : Calc :=
  { fltCalc1 h (specType t) d a (widened t f) with pipe := .m, lat := some 12 }

/-- The mixing of RNG (R112). -/
def mixed (a b : Word) : Word :=
  let z := (a ^^^ rotLeft b 32) + b
  let z := (z ^^^ (z >>> 30)) * 0xBF58476D1CE4E5B9
  let z := (z ^^^ (z >>> 27)) * 0x94D049BB133111EB
  z ^^^ (z >>> 31)

/-- A word of RNG. -/
def rngCalc (h : Hd) (d a b : Opnd) (f : Word → Word) : Calc :=
  { intCalc h d a b (fun x y => f (mixed x y)) with pipe := .m, lat := some 12 }

/-- The category that SAMPLE draws, and its flags (R113): the first whose prefix sum of weights is above u' × W. -/
def drawn (t : FTy) (l : Lanes) : Word × Flags :=
  let u := fDecode .f32 (sub 32 (l.b l.first) 0)
  let e := 64 / floatBits t
  let cs := l.act.threads.flatMap fun i => (List.range e).map fun k => (e * i + k, fDecode t (sub (floatBits t) (l.a i) k))
  let weight := fun v : FVal => if isNum v && decide (0 < ratOf v) then ratOf v else 0
  let fl := flagIf (fvIsNan u || cs.any fun c => !isNum c.2 || decide (ratOf c.2 < 0)) fIV
  let total := (cs.map fun c => weight c.2).sum
  let bound := total * (if u = .inf false then 1 - 2 ^ (-24 : Int) else min (max (ratOf u) 0) (1 - 2 ^ (-24 : Int)))
  if total = 0 ∨ fvIsNan u then (-1, fl)
  else
    match (List.range cs.length).find? fun i => decide (bound < ((cs.take (i + 1)).map fun c => weight c.2).sum) with
    | some i => (BitVec.ofNat 64 (cs.getD i (0, .inf true)).1, fl)
    | none => (-1, fl)

/-! ### Reductions -/

/-- The float format of a type of a reduction; .f64 where it is none. -/
def floatType : RTy → FTy
  | .f32 => .f32
  | .bf16 => .bf16
  | _ => .f64

/-- A float reduction of members (R119): one rounding of the exact sum, or FMIN or FMAX pairwise in their order. -/
def foldFloats (op : RedOp) (t : FTy) (ms : List Nat) : Nat × Flags :=
  match op, ms with
  | .add, [] => (0, 0)
  | .add, ms => sumOf t .rne (ms.map (fDecode t))
  | .min, [] => (withSign t false (infCode t), 0)
  | .max, [] => (withSign t true (infCode t), 0)
  | .min, x :: r => r.foldl (fun a y => ((extremeOf t false a.1 y).1, a.2 ||| (extremeOf t false a.1 y).2)) (extremeOf t false x x)
  | .max, x :: r => r.foldl (fun a y => ((extremeOf t true a.1 y).1, a.2 ||| (extremeOf t true a.1 y).2)) (extremeOf t true x x)
  | _, _ => (0, 0)

/-- Reduces members. -/
def reduce (op : RedOp) (ty : RTy) (ms : List Nat) : Nat × Flags :=
  match intType ty with
  | some (n, sg) => (foldInts op n sg ms, 0)
  | none => foldFloats op (floatType ty) ms

/-- What thread t receives from GSCAN: the reduction of the active threads up to t, or below t; of none the identity
(R119). -/
def scanOf (op : RedOp) (ty : RTy) (excl : Bool) (l : Lanes) (t : Nat) : Word × Flags :=
  let ts := l.act.threads.filter fun i => if excl then decide (i < t) else decide (i ≤ t)
  gatherEls (rBits ty) fun k =>
    reduce op ty (l.members (rBits ty) k ts)

/-- A word of reductions. -/
def redCalc (h : Hd) (ty : RTy) (d a : Opnd) (gOk : Bool) (new : Lanes → Nat → Option Word) (flags : Lanes → Flags) :
    LaneCalc :=
  { laneCalc h d a .z (rConv ty) (.int 64) new with gOk := gOk, flags := flags }

end Sys2Proof.Claims
end

