-- ==== Sys2Proof/Safety/Memory.lean ====
section
/-! DEFINITION. The terms in which claims speak of memory words (R134–R152): what must hold for a word to access memory, and
what it leaves. -/

namespace Sys2Proof.Claims

open Machine

/-- The address of a thread's access (R42); key 32 stands for the one access of a uniform word. -/
def addrOf (s : State) (g : Group) (sp : Split) (w : MemWord) (k : Nat) : Word :=
  w.ea g (readOp g sp s.free (.int 64) k w.x)

/-- What a thread stores, or combines with memory (R148). -/
def dataOf (s : State) (g : Group) (sp : Split) (w : MemWord) (k : Nat) : Word := readOp g sp s.free w.conv k w.data

/-- The second operand of ACAS (R149). -/
def nextOf (s : State) (g : Group) (sp : Split) (w : MemWord) (k : Nat) : Word := readOp g sp s.free w.conv k w.second

/-- The state in which the threads of a word access memory: page walks have begun (R132), and the group's earlier accesses
are performed, unless the word is a store (R135). -/
def accessState (s : State) (pl : Place) (g : Group) (sp : Split) (w : MemWord) : State :=
  let s := { noteWalks s pl.core g.part (memThreads s pl g sp w (memKeys sp w)) with free := s.free + 1 }
  if w.op = .st then s else drainPend s pl.core pl.slot

/-- The word may begin: the group is no tender, no rebase and no TRB holds it, it is not half done, and its operands are
allowed (R130, R134, R145, R149, R168). -/
structure MemReady (s : State) (pl : Place) (g : Group) (sp : Split) (w : MemWord) : Prop where
  tender : g.isTender = none
  held   : s.held = false
  trb    : trbPending g w.b.val = false
  fresh  : sp.unfin = none
  form   : memOpspec g w = false
  hazard : hazard g sp pl.split w.srcs [w.dst] = false

/-- A thread may access memory at the pieces `ps`: its address is canonical, aligned where the word asks for it,
translated with the permissions that it needs (R127, R134); no engine operation of its group conflicts (R172) and no
watchpoint matches (R360). -/
structure MemOk (s : State) (pl : Place) (g : Group) (sp : Split) (w : MemWord) (k : Nat) (ps : List (Nat × Nat)) : Prop where
  canon : isCanonical (addrOf s g sp w k) = true
  align : w.op.aligned = true → (addrOf s g sp w k).toNat % w.n = 0
  check : checkAcc s pl.core g w.op w.b.val w.n (addrOf s g sp w k) = .ok (.mem ps)
  slips : ∀ g0, groupAt (accessState s pl g sp w) pl.core pl.slot = some g0 →
    accConflict (accessState s pl g sp w) pl g0 w.op (addrOf s g sp w k) w.n = []
      ∧ watchHit (accessState s pl g sp w) g0.part w.op (addrOf s g sp w k) w.n = none

/-- A core without its logical time, its L1 and its pending walks. -/
def quietCache (k : Core) : Core := { k with tc := 0, l1 := [], walks := [], l1miss := 0 }

/-- A package without its bytes and the times of its lines. -/
def quietMem (s : State) : State := { s with mem := [], lines := [], cores := [], free := 0 }

/-- The package after accesses that only move logical time and copies of lines (R165). -/
structure Served (s t : State) : Prop where
  bytes : ∀ loc, memByte t loc = memByte s loc
  rest  : quietMem t = quietMem s
  cores : ∀ c, quietCache (coreOf t c) = quietCache (coreOf s c)

/-- Every copy of a line in the core's L1 holds what memory holds (R165: no other agent has written since). -/
def Coherent (s : State) (c : Nat) : Prop :=
  ∀ p ∈ (coreOf s c).l1, ∀ a, a / 128 = p.1 → tabGet 0 p.2.data a = memByte s a

/-- The number that n bytes of memory hold, little-endian (R4). -/
def bytesAt (m : Nat → Byte) (loc : Nat) : Nat → Nat
  | 0 => 0
  | n + 1 => (m loc).toNat + 256 * bytesAt m (loc + 1) n

/-- The number that the pieces of an access hold, the first one lowest (R140). -/
def piecesAt (m : Nat → Byte) : List (Nat × Nat) → Nat
  | [] => 0
  | (l, k) :: r => bytesAt m l k + 2 ^ (8 * k) * piecesAt m r

/-- n bytes zero-extended, or sign-extended from their top bit (R144). -/
def extended (signed : Bool) (n x : Nat) : Word :=
  if signed then ((BitVec.ofNat (8 * n) x).signExtend 64) else ((BitVec.ofNat (8 * n) x).setWidth 64)

/-- The outstanding result of a memory word: the values by key for its destination, unless it discards them (R28). -/
def owedBy (pl : Place) (d : Opnd) (vals : List (Nat × Word)) : List Result :=
  if isTracked d && !vals.isEmpty then
    [{ split := pl.split, dst := d, vals := vals, dead := false, src := .var, redl := false }]
  else []

/-- Cycles of a memory word (R39). -/
def memOcc (sp : Split) (w : MemWord) : Nat :=
  if issueMode w.srcs w.dst = .uniform then 1 else perThreadOcc sp.mask

/-- Every thread of a word that still has to may access memory, at `P k`. -/
def AllOk (s : State) (pl : Place) (g : Group) (sp : Split) (w : MemWord) (P : Nat → List (Nat × Nat)) : Prop :=
  ∀ k ∈ memKeys sp w, MemOk s pl g sp w k (P k)

/-- No piece touches a line or row with an uncorrectable error (R137). -/
def NoPoison (s : State) (sp : Split) (w : MemWord) (P : Nat → List (Nat × Nat)) : Prop :=
  ∀ k ∈ memKeys sp w, ∀ p ∈ P k, isPoisoned s p.1 = false ∧ anyPoisoned s p.1 p.2 = false

/-- The group in the access state: no tender, with nothing that stops it after the word. -/
structure AccessGroup (s : State) (pl : Place) (g0 : Group) : Prop where
  group  : groupAt s pl.core pl.slot = some g0
  tender : g0.isTender = none
  calm   : Calm g0

/-- The values that threads read from memory. -/
def readVals (m : Nat → Byte) (sp : Split) (w : MemWord) (signed : Bool) (P : Nat → List (Nat × Nat)) : List (Nat × Word) :=
  (memKeys sp w).map fun k => (k, extended signed w.n (piecesAt m (P k)))

/-- The instruction loads (R144): where it may access memory it answers a next state in which every thread is owed the
bytes of memory at its address, extended; the group is otherwise as before, memory too. -/
def Loads (i : Instr) (h : Hd) (w : MemWord) (signed : Bool) : Prop :=
  ∀ s pl g sp g0 P, Issues s pl g sp → MemReady s pl g sp w → AllOk s pl g sp w P →
    AccessGroup (accessState s pl g sp w) pl g0 → Coherent (accessState s pl g sp w) pl.core →
    NoPoison (accessState s pl g sp w) sp w P →
    ∃ s1 t, exec i s = .next t ∧ Served (accessState s pl g sp w) s1
      ∧ Wrote s1 t pl g0 sp h (memOcc sp w) w.t (memKeys sp w) (fun _ => none) 0
          (owedBy pl w.t (readVals (memByte (accessState s pl g sp w)) sp w signed P))

/-- The instruction issues accesses that are performed later (R165): it answers a next state in which the group has the
accesses `acc s g sp P k` of every thread to come, after its earlier ones; registers and memory are as before. What the word
writes is noted for the group's tenders alone (R233). -/
def Queues (i : Instr) (h : Hd) (w : MemWord)
    (acc : State → Group → Split → (Nat → List (Nat × Nat)) → Nat → List PendAcc) : Prop :=
  ∀ s pl g sp g0 P, Issues s pl g sp → MemReady s pl g sp w → AllOk s pl g sp w P →
    AccessGroup (accessState s pl g sp w) pl g0 → NoPoison (accessState s pl g sp w) sp w P →
    ∃ t ks, exec i s = .next t
      ∧ Wrote (accessState s pl g sp w) t pl
          (noteWrites (coreOf (accessState s pl g sp w) pl.core) pl.slot ks
            { g0 with pend := g0.pend ++ (memKeys sp w).flatMap (acc s g sp P) })
          sp h (memOcc sp w) .z [] (fun _ => none) 0 []

/-- The word that a future word or a WAITM check names: the first piece of its access. -/
def placeOf (P : Nat → List (Nat × Nat)) (k : Nat) : Nat := ((P k).headD (0, 0)).1

/-- The instruction reads full words (R154): where every thread's word is full it answers a next state in which the threads
are owed the words' data, as memory holds them. -/
def ReadsFull (i : Instr) (h : Hd) (w : MemWord) : Prop :=
  ∀ s pl g sp g0 P, Issues s pl g sp → MemReady s pl g sp w → AllOk s pl g sp w P →
    AccessGroup (accessState s pl g sp w) pl g0 → NoPoison (accessState s pl g sp w) sp w P →
    (∀ k ∈ memKeys sp w, isFull (accessState s pl g sp w) (placeOf P k) = true) →
    ∃ s1 t, exec i s = .next t ∧ Served (accessState s pl g sp w) s1
      ∧ Wrote s1 t pl g0 sp h (memOcc sp w) w.t (memKeys sp w) (fun _ => none) 0 (owedBy pl w.t
          ((memKeys sp w).map fun k =>
            (k, BitVec.ofNat 64 (bytesAt (memByte (accessState s pl g sp w)) (placeOf P k) 8))))

/-- A condition of WAITM between a word of n bytes and an operand (R182). -/
def waitHolds (c : WCond) (n x : Nat) (v : Word) : Bool :=
  let a := BitVec.ofNat (8 * n) x
  let b := v.setWidth (8 * n)
  match c with
  | .eq => decide (a = b)
  | .ne => decide (a ≠ b)
  | .ltu => decide (a.toNat < b.toNat)
  | .geu => decide (b.toNat ≤ a.toNat)
  | .lt => decide (a.toInt < b.toInt)
  | .ge => decide (b.toInt ≤ a.toInt)
  | .tst => decide (a &&& b ≠ 0)
  | .ntst => decide (a &&& b = 0)

/-- The instruction goes by where its condition holds of memory in every thread (R182); an aligned word is one piece. -/
def PassesWhen (i : Instr) (h : Hd) (w : MemWord) (c : WCond) : Prop :=
  ∀ s pl g sp g0 P, Issues s pl g sp → MemReady s pl g sp w → AllOk s pl g sp w P →
    (∀ k ∈ memKeys sp w, P k = [(placeOf P k, w.n)]) →
    AccessGroup (accessState s pl g sp w) pl g0 → Coherent (accessState s pl g sp w) pl.core →
    NoPoison (accessState s pl g sp w) sp w P →
    (∀ k ∈ memKeys sp w,
      waitHolds c w.n (bytesAt (memByte (accessState s pl g sp w)) (placeOf P k) w.n) (dataOf s g sp w k) = true) →
    ∃ s1 t, exec i s = .next t ∧ Served (accessState s pl g sp w) s1
      ∧ Wrote s1 t pl g0 sp h (memOcc sp w) .z [] (fun _ => none) 0 []

/-- The access of a thread at its first piece: an atomic, FWR or FCLR lies in one line (R147, R154). -/
def oneAcc (s : State) (g : Group) (sp : Split) (w : MemWord) (op : Word → Word → StoreOp) (P : Nat → List (Nat × Nat))
    (k : Nat) : List PendAcc :=
  [{ va := addrOf s g sp w k, loc := ((P k).headD (0, 0)).1, n := w.n, op := op (dataOf s g sp w k) (nextOf s g sp w k) }]

/-- The bytes after n bytes at `loc` take the number x, little-endian (R4). -/
def writeBytes (m : Nat → Byte) (loc n x : Nat) (a : Nat) : Byte :=
  if loc ≤ a ∧ a < loc + n then BitVec.ofNat 8 (x / 256 ^ (a - loc)) else m a

/-- Atomics of several threads in ascending order (R134): each reads n bytes at its place, gives `get old v w` to its thread
and stores `put old v w`, if any. -/
def atomics (n : Nat) (get : Nat → Word → Word → Word) (put : Nat → Word → Word → Option Nat) :
    List (Nat × Nat × Word × Word) → (Nat → Byte) → List (Nat × Word) × (Nat → Byte)
  | [], m => ([], m)
  | (k, loc, v, w) :: r, m =>
    let old := bytesAt m loc n
    let m' := match put old v w with
      | some x => writeBytes m loc n x
      | none => m
    let (vs, m'') := atomics n get put r m'
    ((k, get old v w) :: vs, m'')

/-- The threads of an atomic word with their places and operands. -/
def atomicThreads (s : State) (g : Group) (sp : Split) (w : MemWord) (P : Nat → List (Nat × Nat)) :
    List (Nat × Nat × Word × Word) :=
  (memKeys sp w).map fun k => (k, ((P k).headD (0, 0)).1, dataOf s g sp w k, nextOf s g sp w k)

/-- The package after accesses that also wrote bytes. -/
structure Updated (s t : State) (m : Nat → Byte) : Prop where
  bytes : ∀ loc, memByte t loc = m loc
  rest  : quietMem t = quietMem s
  cores : ∀ c, quietCache (coreOf t c) = quietCache (coreOf s c)

/-- No thread of the package waits in a reading room, so that a write wakes none (R156, R183). -/
def NoWaiters (s : State) : Prop := ∀ p ∈ s.cores, p.2.room = []

/-- The instruction is an atomic whose destination is a register (R148–R152): the threads read and write memory in
ascending order, at once, and each is owed what `get` gives; no other byte changes. What it writes is noted for the group's tenders alone (R233). -/
def Atomics (i : Instr) (h : Hd) (w : MemWord) (get : Nat → Word → Word → Word) (put : Nat → Word → Word → Option Nat) :
    Prop :=
  ∀ s pl g sp g0 P, w.t ≠ .z → Issues s pl g sp → MemReady s pl g sp w → AllOk s pl g sp w P →
    AccessGroup (accessState s pl g sp w) pl g0 → NoPoison (accessState s pl g sp w) sp w P →
    NoWaiters (accessState s pl g sp w) →
    ∃ s1 t ks, exec i s = .next t
      ∧ Updated (accessState s pl g sp w) s1
          (atomics w.n get put (atomicThreads s g sp w P) (memByte (accessState s pl g sp w))).2
      ∧ Wrote s1 t pl (noteWrites (coreOf s1 pl.core) pl.slot ks g0) sp h (memOcc sp w) w.t (memKeys sp w) (fun _ => none) 0
          (owedBy pl w.t (atomics w.n get put (atomicThreads s g sp w P) (memByte (accessState s pl g sp w))).1)

end Sys2Proof.Claims
end

