-- ==== Sys2Proof/Safety/Steps.lean ====
section
/-! DEFINITION. The terms in which claims speak of a step: when the next word of a split issues (R19–R27, R45), and the state
in which it does. -/

namespace Sys2Proof.Claims

open Machine

/-- Quad q is active, and the cycle of its governor's next step is over (R266, R271). -/
def GovLate (s : State) (q : Nat) : Prop := q ∈ s.quads.map (·.1) ∧ quadActive s q = true ∧ (quadOf s q).govAt < s.clock.toNat

/-- Every active quad has taken the steps of the cycles that are over. -/
def Governed (s : State) : Prop := ∀ q, ¬ GovLate s q

/-- The instruction at the split's place: its bytes, least significant first, decode to it (R4, R19, R20). -/
def CodeIs (s : State) (pl : Place) (g : Group) (sp : Split) (r : Except DecodeError Instr) : Prop :=
  ∃ a, transCode s pl.core g (wordVa sp.pc sp.word) = .ok a
    ∧ decodeWord (BitVec.ofNat 32 (bytesAt (memByte s) a.loc 4)) = r

/-- The checks of R45 before a bundle pass: its packet is translated, executable and fetched, no breakpoint holds it, the
run is not too long and the chain is allowed. -/
structure BundleOk (s : State) (pl : Place) (g : Group) (sp : Split) : Prop where
  packet : packetCheck s pl.core g sp.pc = .ok
  fetched : (tabFind (blockKey g.part sp.pc) (coreOf s pl.core).icache).isSome = true
  bkpt   : sp.word = 0 → g.gdbg.getLsbD 1 = false → breakpointAt s g.part sp.pc = false
  length : runTooLong sp.run.words (bundleFrom s pl.core g sp.pc sp.word 3) = false
  chain  : chainBad (bundleFrom s pl.core g sp.pc sp.word 3) = false

/-- The word at the split's place issues in this step: no event and no governor's step is due, and the checks of its bundle have
passed or pass now. -/
structure MayIssue (s : State) (pl : Place) (g : Group) (sp : Split) : Prop where
  agenda : s.agenda = []
  govs   : Governed s
  issues : Issues s pl g sp
  wait   : ∀ va k, sp.wait ≠ some (.fault va k true)
  bundle : sp.run.checked = true ∨ BundleOk s pl g sp

/-- The state in which the word issues: after the checks of its bundle, which leave the word's split as it was but for their
mark, end a skipped breakpoint (R359) and may begin page walks (R133). -/
structure Entered (s t : State) (pl : Place) (g : Group) (sp : Split) : Prop where
  same   : sp.run.checked = true → t = s
  rest   : { t with cores := [] } = { s with cores := [] }
  cores  : ∀ c, { coreOf t c with slots := [], walks := [] } = { coreOf s c with slots := [], walks := [] }
  others : ∀ c n, (c, n) ≠ (pl.core, pl.slot) → groupAt t c n = groupAt s c n
  group  : sp.run.checked = false → groupAt t pl.core pl.slot =
    some (setSplit { g with gdbg := if sp.word = 0 then g.gdbg &&& 1 else g.gdbg } pl.split
      { sp with run := { sp.run with checked := true } })

/-! ### The checks of a bundle -/

/-- The split begins a bundle in this step: no event and no governor's step is due, and its packet is translated, executable and
fetched (R20, R21). -/
structure AtBundle (s : State) (pl : Place) (g : Group) (sp : Split) : Prop where
  agenda  : s.agenda = []
  govs    : Governed s
  issues  : Issues s pl g sp
  wait    : ∀ va k, sp.wait ≠ some (.fault va k true)
  start   : sp.run.checked = false
  packet  : packetCheck s pl.core g sp.pc = .ok
  fetched : (tabFind (blockKey g.part sp.pc) (coreOf s pl.core).icache).isSome = true

/-- A state that differs from one only in page walks that have begun (R133), and in a group that skips its breakpoint no
longer (R359). -/
structure Looked (s t : State) (pl : Place) (g : Group) (sp : Split) : Prop where
  rest   : { t with cores := [] } = { s with cores := [] }
  cores  : ∀ c, { coreOf t c with slots := [], walks := [] } = { coreOf s c with slots := [], walks := [] }
  others : ∀ c n, (c, n) ≠ (pl.core, pl.slot) → groupAt t c n = groupAt s c n
  group  : groupAt t pl.core pl.slot =
    some (setSplit { g with gdbg := if sp.word = 0 then g.gdbg &&& 1 else g.gdbg } pl.split sp)

/-- A control-transfer word (R26). -/
def Steers : Instr → Prop
  | .bra .. | .brp .. | .jmpr .. | .call .. | .callr .. | .ret .. | .fcall .. | .fcallForce .. | .join .. | .exit .. | .yield ..
  | .trap .. | .syscall .. => True
  | _ => False

/-- The lane pipe of a major: 0 A, 1 F, 2 M (R43). -/
def pipeNo (w : IWord) : Nat :=
  let m := (w.extractLsb' 24 6).toNat
  if m < 0x10 then 0 else if m < 0x20 then 1 else if m < 0x34 ∨ m = 0x3C ∨ m = 0x3D ∨ m = 0x3E then 2 else 0

/-- C and S of a word (R19). -/
def chains (w : IWord) : Bool := w.getLsbD 31
/-- S of a word. -/
def switches (w : IWord) : Bool := w.getLsbD 30

/-- What R23 forbids in a bundle, given its words with their places in the packet. -/
def Unchainable (ws : List (Nat × IWord)) : Prop :=
  (∃ p ∈ ws, p.1 = 2 ∧ chains p.2 = true)
  ∨ (∃ p ∈ ws, chains p.2 = true ∧ switches p.2 = true)
  ∨ (∃ p ∈ ws, ∃ i, decodeWord p.2 = .ok i ∧ Steers i ∧ (chains p.2 = true ∨ switches p.2 = false))
  ∨ ∃ (j k : Nat) (x y : Nat × IWord), j < k ∧ ws[j]? = some x ∧ ws[k]? = some y
      ∧ (pipeNo x.2 = pipeNo y.2 ∨ ∃ d, chainDest x.2 = some d ∧ chainDest y.2 = some d)

/-- The 24th word of the run is in the bundle and has S = 0 (R27). -/
def TooLong (sp : Split) (ws : List (Nat × IWord)) : Prop :=
  ∃ (i : Nat) (x : Nat × IWord), ws[i]? = some x ∧ 24 ≤ sp.run.words + i + 1 ∧ switches x.2 = false

/-- A breakpoint of the partition holds the packet at the split's place (R359). -/
def Held (s : State) (g : Group) (sp : Split) : Prop :=
  sp.word = 0 ∧ g.gdbg.getLsbD 1 = false
    ∧ ∃ n < 4, (tabGet 0 (partOf s g.part).ibp n).getLsbD 63 = true
        ∧ (tabGet 0 (partOf s g.part).ibp n).extractLsb' 0 63 = sp.pc.extractLsb' 0 63 ∧ sp.pc.getLsbD 63 = false

/-- Of the partition's watchpoints one matches the access of n bytes at `ea`, a write or a read (R360). -/
structure OneWatch (s : State) (part : Nat) (write : Bool) (ea lo : Word) (n : Nat) : Prop where
  on      : (tabGet 0 (partOf s part).wpc 0).getLsbD 63 = true
  kind    : (tabGet 0 (partOf s part).wpc 0).getLsbD (if write then 61 else 62) = true
  others  : ∀ i < 4, i ≠ 0 → (tabGet 0 (partOf s part).wpc i).getLsbD 63 = false
  base    : tabGet 0 (partOf s part).wpa 0 = lo
  some'   : (tabGet 0 (partOf s part).wpc 0).extractLsb' 0 32 ≠ 0
  overlap : lo.toNat < ea.toNat + n ∧ ea.toNat < lo.toNat + ((tabGet 0 (partOf s part).wpc 0).extractLsb' 0 32).toNat

end Sys2Proof.Claims
end

