-- ==== Sys2Proof/Safety/Nest.lean ====
section
/-! DEFINITION. The terms in which claims speak of level words (R198–R208), of fences and barriers (R177–R186) and of
control words (R212–R229). -/

namespace Sys2Proof.Claims

open Machine

/-! ### Levels -/

/-- MAPL words 0 and 1 of a level (R201). -/
def levelOf (l : Launch) (lv : Nat) : Word × Word := l.mapl.getD lv (0, 0)

/-- EXT of a level. -/
def lvExt (l : Launch) (lv : Nat) : Word := (levelOf l lv).1 >>> 32
/-- PAR. -/
def lvPar (l : Launch) (lv : Nat) : Word := (levelOf l lv).1 >>> 8 &&& 0xFFFFFF
/-- KIND. -/
def lvKind (l : Launch) (lv : Nat) : Word := (levelOf l lv).1 &&& 3
/-- SHARE. -/
def shares (l : Launch) (lv : Nat) : Bool := (levelOf l lv).1.getLsbD 6
/-- SEQ. -/
def lvSeq (l : Launch) (lv : Nat) : Word := (levelOf l lv).2 >>> 32
/-- BUFSZ. -/
def lvBuf (l : Launch) (lv : Nat) : Word := (levelOf l lv).2 &&& 0xFFFFFFFF

/-- The parallel index of thread t (R198). -/
def parallel (l : Launch) (g : Group) (lv t : Nat) : Nat :=
  if lvKind l lv = 1 then t else if lvKind l lv = 2 then g.gnum else if lvKind l lv = 3 then g.team else 0

/-- The level counter (R198). -/
def loopCount (sp : Split) (lv : Nat) : Nat := (tabGet 0 sp.lc lv).toNat

/-- A split with another level counter. -/
def withCounter (sp : Split) (lv x : Nat) : Split := { sp with lc := tabSet 0 sp.lc lv (BitVec.ofNat 64 x) }

/-- The logical index of thread t (R200). -/
def logicalIndex (l : Launch) (g : Group) (sp : Split) (lv t : Nat) : Nat :=
  loopCount sp lv * (lvPar l lv).toNat + parallel l g lv t

/-- MAPG's GROUP level lies outside lv. -/
def groupAbove (l : Launch) (lv : Nat) : Bool := decide ((l.mapg >>> 8 &&& 15).toNat < lv)
/-- MAPG's LANE level lies outside lv. -/
def laneAbove (l : Launch) (lv : Nat) : Bool := decide ((l.mapg >>> 4 &&& 15).toNat < lv)

/-- off(lv) (R206): the buffers of the levels outside lv that share. -/
def bufferBase (l : Launch) (lv : Nat) : Nat :=
  ((List.range lv).map fun i =>
    if shares l i then (if groupAbove l i then l.groups else 1) * (if laneAbove l i then l.lanes else 1) * (lvBuf l i).toNat
    else 0).sum

/-- inst(t) (R206). -/
def instanceOf (l : Launch) (g : Group) (lv t : Nat) : Nat :=
  (if groupAbove l lv then g.gnum else 0) * (if laneAbove l lv then l.lanes else 1) + (if laneAbove l lv then t else 0)

/-- What RDMAP reads (R204); TSCR is the model's place of the team's allocation (R206). -/
def mapValue (s : State) (pl : Place) (l : Launch) (g : Group) (lv : Nat) : MapSel → Word
  | .w0 => (levelOf l lv).1
  | .w1 => (levelOf l lv).2
  | .kind => lvKind l lv
  | .par => lvPar l lv
  | .seq => lvSeq l lv
  | .ext => lvExt l lv
  | .bufsz => lvBuf l lv
  | .glob => l.mapg
  | .tscr => tscrOf s pl.core g

/-- A level word may issue (R203). -/
structure LevelReady (s : State) (pl : Place) (g : Group) (sp : Split) (l : Launch) (lv : Fin 8) (once : Bool) (d : Opnd) :
    Prop where
  launch : launchOf s g.launch = some l
  inside : lv.val < l.nlev
  dest   : badDst d = false ∧ namesBad g [d] = false ∧ (once = false → ∀ n, d ≠ .g n)
  hazard : hazard g sp pl.split [] [d] = false

/-- The level word gives its destination the value f, by thread or once (R203), and leaves the split's counters as `lc`
says. -/
def Levels (i : Instr) (h : Hd) (d : Opnd) (lv : Fin 8) (once : Bool)
    (f : State → Place → Launch → Group → Split → Nat → Word) (lc : Launch → Split → Split) (ok : Launch → Bool) : Prop :=
  ∀ s pl g sp l, Issues s pl g sp → Calm g → LevelReady s pl g sp l lv once d → ok l = true →
    ∃ t, exec i s = .next t
      ∧ Wrote s t pl g (lc l sp) h (if once ∧ issueMode [] d = .uniform then 1 else perThreadOcc sp.mask) d
          (if once ∧ issueMode [] d = .uniform then [32] else sp.mask.threads)
          (fun k =>
            if once ∧ issueMode [] d = .uniform then some (f s pl l g sp 32)
            else if sp.mask.getLsbD k then some (f s pl l g sp k) else none) 0 []

/-! ### Fences, barriers and waits -/

/-- Every memory word that the group issued before is performed in all its threads (R178). -/
def MemDone (pl : Place) (g : Group) (sp : Split) : Prop :=
  g.pend = [] ∧ if sp.stage = 0 then ∀ p ∈ g.splits, p.1 ≠ pl.split → p.2.unfin = none else sp.await = []

/-- The words of these classes go past their first checks: no tender, no pending FPE at the first issue (R83), and every
memory word that the group issued before is performed (R178, R180). -/
structure Settled (pl : Place) (g : Group) (sp : Split) : Prop where
  tender : g.isTender = none
  fpe    : sp.stage = 0 → g.fstat.extractLsb' 0 5 &&& g.fstat.extractLsb' 8 5 = 0
  mem    : MemDone pl g sp

/-- A group whose other splits go on after a meeting (R181). -/
def passed (g : Group) (n : Nat) : Group :=
  { g with splits := g.splits.map fun p => if p.1 == n then p else (p.1, { p.2 with wait := none, stage := 2 }) }

/-- Every other split of the group waits as `w` says. -/
def OthersWait (g : Group) (n : Nat) (w : Wait) : Prop := ∀ p ∈ g.splits, p.1 ≠ n → p.2.wait = some w

/-- The split is the group's only one. -/
def Alone (g : Group) (n : Nat) : Prop := ∀ p ∈ g.splits, p.1 = n

/-- The operands of a barrier word are allowed (R36, R179, R185). -/
structure UniformSrcs (g : Group) (sp : Split) (split : Nat) (os : List Opnd) : Prop where
  uniform : ∀ o ∈ os, isUniform o = true
  names   : namesBad g os = false
  hazard  : hazard g sp split os [] = false

/-- What a uniform operand gives. -/
def once (s : State) (g : Group) (sp : Split) (o : Opnd) : Word := readOp g sp s.free (.int 64) 32 o

/-- The instance of a scope that a group on core c names with id a (R179). -/
def instanceKey (c : Nat) (g : Group) (sc : Scope) (a : Word) : BarKey :=
  match sc with
  | .quad => .quad g.launch (c / 4) (a.toNat % 8)
  | .die => .die g.launch (c / Config.coresPerDie) (a.toNat % 8)
  | .pkg => .pkg g.launch (a.toNat % 8)
  | .pod => .pod (Config.podJob g.launch) (a.toNat % 4)
  | _ => .core g.launch g.team (a.toNat % 16)

/-- The group has an arrival of generation n at the instance that no BARW has matched. -/
def Unmatched (g : Group) (k : BarKey) (n : Nat) : Prop := g.arrived.find? (fun x => x.1 == k) = some (k, n)

/-- The arrival that a group on core c makes now (R180). -/
def arrivalOf (s : State) (c : Nat) (g : Group) : Arrival :=
  { launch := g.launch, team := g.team, gnum := g.gnum, core := c, tc := coreTime s c, vals := [] }

/-- The count that the arrivals of a generation must reach (R180). -/
def expectedOf (b : Barrier) (n : Word) : Nat := if b.arrivals.isEmpty then n.toNat % 2 ^ 16 else b.expected

/-- A group that has arrived and not yet matched its arrival. -/
def arrivedAt (g : Group) (k : BarKey) (gen : Nat) : Group :=
  { g with arrived := g.arrived.filter (fun x => x.1 != k) ++ [(k, gen)] }

/-- A group that has matched its arrival. -/
def matched (g : Group) (k : BarKey) : Group := { g with arrived := g.arrived.filter fun y => y.1 != k }

/-- The group's launch is not phased (R191). -/
def NotPhased (s : State) (g : Group) : Prop := ∀ l, launchOf s g.launch = some l → l.phased = false

/-- The live groups of a group's team on core c (R180). -/
def liveCount (s : State) (c : Nat) (g : Group) : Nat :=
  ((coreOf s c).slots.filter fun x =>
    decide (x.2.launch = g.launch ∧ x.2.team = g.team ∧ x.2.isTender = none ∧ liveMask x.2 ≠ 0)).length

/-- The arrivals that a generation needs: its count, and the team's live groups where that is 0 among the groups of one team
(R180, R208). -/
def neededOf (s : State) (c : Nat) (g : Group) (team : Bool) (n : Nat) : Nat :=
  if n = 0 ∧ team = true then liveCount s c g else n

/-- The instance at k has completed its generation, with the arrivals `as` (R180). -/
structure CompletedBar (s s1 : State) (k : BarKey) (bar : Barrier) (as : List Arrival) : Prop where
  next  : barOf s1 k = { gen := bar.gen + 1, expected := 0, what := none, arrivals := [] }
  times : bar.what = none ∨ bar.what = some .barl → ∀ x ∈ as, ∀ y ∈ as, x.tc ≤ coreTime s1 y.core
  bytes : ∀ loc, memByte s1 loc = memByte s loc

/-- The split has gone by its word and waits at its phase boundary (R330, R331). -/
def AtPhase (t : State) (pl : Place) (dest : Word × Nat) : Prop :=
  t.turn = none ∧ ∃ g sp, groupAt t pl.core pl.slot = some g ∧ splitAt g pl.split = some sp ∧ sp.wait = some .phase
    ∧ (sp.pc, sp.word) = dest

/-- Every group of the team is ready for a phase boundary (R330). -/
def PhaseReady (s : State) (c : Nat) (g : Group) : Prop :=
  ∀ x ∈ (coreOf s c).slots, x.2.launch = g.launch → x.2.team = g.team → x.2.isTender = none → liveMask x.2 ≠ 0 →
    x.2.splits.length = 1 ∧ x.2.defers = []

/-- The split has issued a barrier word of `occ` cycles and waits at it: the cycles, with its bundle's, pass now, unless they have
passed when it waited before, and none pass when it goes on (R24, R177, R270). -/
structure Halts (s t : State) (pl : Place) (g : Group) (sp : Split) (occ : Nat) (w : Wait) : Prop where
  turn  : t.turn = none
  time  : t.clock = s.clock + BitVec.ofNat 64 (if sp.paid then 0 else Nat.max sp.run.occ occ)
  rest  : Rest s t pl
  group : (groupAt t pl.core pl.slot).map quietGroup = some (quietGroup (setSplit g pl.split
    { sp with wait := some w, paid := true, run := { sp.run with occ := if sp.paid then sp.run.occ else 0 } }))
  pipe  : ∀ x ∈ (coreOf t pl.core).running, x.2.1 ≠ pl.slot

/-- The split waits for the instance's generation, at the last stage of its word. -/
def WaitsForBar (s t : State) (pl : Place) (g : Group) (sp : Split) (occ : Nat) (k : BarKey) (gen : Nat) : Prop :=
  ∃ sp1 : Split, Halts s t pl g { sp1 with stage := 2 } occ (.barrier k gen)
    ∧ { sp1 with stage := 0, await := [], vals := [] } = { sp with stage := 0, await := [], vals := [] }

/-- Every other split waits at a barrier word or a merge point, but not every one as `w` says (R180, R181, R220). -/
def MeetsElsewhere (g : Group) (n : Nat) (w : Wait) : Prop :=
  (∀ p ∈ g.splits, p.1 ≠ n → ∃ x, p.2.wait = some x ∧ isMeeting x = true) ∧ ¬ OthersWait g n w

/-- The translation of an address of a partition does not depend on the n bytes at `loc` to which it leads, so that a write of
them leaves it as it is (R126, R378). -/
def Steady (s : State) (part : Nat) (va : Word) (loc n : Nat) (mt : BitVec 2) : Prop :=
  ∀ u : State, { quietMem u with parts := [] } = { quietMem s with parts := [] } →
    (∀ p, quietPart (partOf u p) = quietPart (partOf s p)) → (∀ a, a < loc ∨ loc + n ≤ a → memByte u a = memByte s a) →
    vaPlain u part va true = .ok loc mt

/-! ### Control words -/

/-- Threads of a split that a branch takes (R212): those in which the predicate reads 1, or 0 with `neg`. -/
def Takes (s : State) (g : Group) (sp : Split) (neg : Bool) (p : Fin 8) (m : Mask) : Prop :=
  ∀ t < 32, m.getLsbD t = (sp.mask.getLsbD t && ((readOp g sp s.free (.int 64) t (.p p) != 0) != neg))

/-- A split at a run start. -/
def startAt (sp : Split) (pc : Word) (m : Mask) : Split :=
  { sp with pc := pc, word := 0, mask := m, run := Run.start, running := false, wait := none, unfin := none, stage := 0
            await := [], vals := [], paid := false }

/-- A group whose branching threads have gone their way (R217). -/
def Divided (g g' : Group) (n : Nat) (sp : Split) (target : Word) (m : Mask) : Prop :=
  match (List.range 4).find? fun k => (splitAt g k).isNone with
  | some k => g' = setSplit g k (startAt sp target m)
  | none => g' = { g with defers := { pc := target, mask := m, owner := n, j := false } :: g.defers }

/-- The results of a group once split n has ended: its o registers are gone, every other result is still written (R28, R34). -/
def ownerless (n : Nat) (rs : List Result) : List Result :=
  rs.map fun r => if r.split = n ∧ isRunReg r.dst = true then { r with dead := true } else r

/-- Every split of the group has merged into the lowest-numbered one, which goes on at packet `pc` (R219, R220). -/
structure Joined (s t : State) (pl : Place) (g : Group) (sp : Split) (pc : Word) : Prop where
  turn  : t.turn = none
  bytes : ∀ loc, memByte t loc = memByte s loc
  group : ∃ g' sp' lo, groupAt t pl.core pl.slot = some g' ∧ g'.splits = [(lo, sp')] ∧ lo ∈ g.splits.map (·.1)
    ∧ (∀ p ∈ g.splits, lo ≤ p.1) ∧ (sp'.pc, sp'.word) = (pc, 0) ∧ sp'.wait = none ∧ sp'.running = false
    ∧ sp'.stack = sp.stack ∧ (∀ j < 32, sp'.mask.getLsbD j = g.splits.any fun p => p.2.mask.getLsbD j)
    ∧ (∀ n < 8, (∀ p ∈ g.splits, (tabGet 0 p.2.lc n).toNat ≤ (tabGet 0 sp'.lc n).toNat)
        ∧ ∃ p ∈ g.splits, tabGet 0 p.2.lc n = tabGet 0 sp'.lc n)
    ∧ g'.defers = g.defers.map (fun d => if d.owner ∈ g.splits.map (·.1) then { d with owner := lo } else d)
    ∧ g'.vregs = g.vregs ∧ g'.gregs = g.gregs ∧ g'.pregs = g.pregs ∧ g'.tregs = g.tregs ∧ g'.fstat = g.fstat
    ∧ g'.results = (g.splits.map (·.1)).foldl (fun rs n => if n = lo then rs else ownerless n rs) g.results

/-- A split whose stack has one entry more (R223). -/
def called (sp : Split) (k : CallKind) : Split := { sp with stack := { ret := sp.pc + 1, kind := k } :: sp.stack }

end Sys2Proof.Claims
end

