-- ==== Sys2Proof/Safety/Units.lean ====
section
/-! DEFINITION. The terms in which claims speak of atomics (R148–R152), of the words of the array and of the copy engine
(R244, R256, R278, R293), and of system words (R342). -/

namespace Sys2Proof.Claims

open Machine

/-! ### Atomics -/

/-- What an atomic on n bytes that hold `old` stores, if it stores (R148–R152); operations are numbered as in majors 0x2C
and 0x2D. -/
def newValue (op n old : Nat) (v y : Word) : Option Nat :=
  let m := 2 ^ (8 * n)
  let x := v.toNat % m
  let s := fun z : Nat => (BitVec.ofNat (8 * n) z).toInt
  match op with
  | 0 => some ((old + x) % m)
  | 1 => some (old &&& x)
  | 2 => some (old ||| x)
  | 3 => some (old ^^^ x)
  | 4 => some x
  | 5 => some (if s x < s old then x else old)
  | 6 => some (if s old < s x then x else old)
  | 7 => if old = x then some (y.toNat % m) else none
  | 8 => some (Nat.min old x)
  | 9 => some (Nat.max old x)
  | 10 =>
    let f := if n = 8 then FTy.f64 else FTy.f32
    some (sumOf f .rne [fDecode f old, fDecode f x]).1
  | 11 => if old < v.toNat % 2 ^ 32 then some (old + 1) else none
  | _ => some (Nat.max old x)

/-- What its destination receives. -/
def receives (op n old : Nat) (v : Word) : Word :=
  match op with
  | 5 | 6 => extended true n old
  | 11 => if old < v.toNat % 2 ^ 32 then BitVec.ofNat 64 old else 0xFFFFFFFF
  | _ => BitVec.ofNat 64 old

/-- The bytes of memory after a performed access (R144, R148, R154). -/
def accessBytes (m : Nat → Byte) (a : PendAcc) : Nat → Byte :=
  match a.op with
  | .plain x => writeBytes m a.loc a.n x.toNat
  | .rmw op v y =>
    match newValue op a.n (bytesAt m a.loc a.n) v y with
    | some x => writeBytes m a.loc a.n x
    | none => m
  | .fwr x => writeBytes m a.loc 8 x.toNat
  | .fclr => m

/-- The full/empty bits after it (R154). -/
def accessFull (f : Nat → Bool) (a : PendAcc) (loc : Nat) : Bool :=
  match a.op with
  | .fwr _ => if loc = a.loc then true else f loc
  | .fclr => if loc = a.loc then false else f loc
  | _ => f loc

/-- The memory word that an instruction is (R143, R182), if it is one. -/
def memWordOf : Instr → Option (Hd × MemWord)
  | .ld h sz t b x sc d => some (h, ⟨.ld false, szBytes sz, t, .int 64, b, x, sc, d.toNat⟩)
  | .lds h sz t b x sc d => some (h, ⟨.ld true, szBytes sz, t, .int 64, b, x, sc, d.toNat⟩)
  | .st h sz t b x sc d => some (h, ⟨.st, szBytes sz, t, .int (8 * szBytes sz), b, x, sc, d.toNat⟩)
  | .aadd h w t b x sc => some (h, int 0 w t b x sc)
  | .aand h w t b x sc => some (h, int 1 w t b x sc)
  | .aor h w t b x sc => some (h, int 2 w t b x sc)
  | .axor h w t b x sc => some (h, int 3 w t b x sc)
  | .axch h w t b x sc => some (h, int 4 w t b x sc)
  | .aminS h w t b x sc => some (h, int 5 w t b x sc)
  | .amaxS h w t b x sc => some (h, int 6 w t b x sc)
  | .acas h w t b x sc => some (h, int 7 w t b x sc)
  | .aminZ h w t b x sc => some (h, int 8 w t b x sc)
  | .amaxZ h w t b x sc => some (h, int 9 w t b x sc)
  | .afadd h w t b x sc => some (h, ⟨.rmw 10, if w then 8 else 4, t, .flt (if w then .f64 else .f32), b, x, sc, 0⟩)
  | .abinc h t b x sc => some (h, ⟨.rmw 11, 4, t, .int 32, b, x, sc, 0⟩)
  | .apmax h t b x sc => some (h, ⟨.rmw 12, 8, t, .int 64, b, x, sc, 0⟩)
  | .frd h t b x sc => some (h, ⟨.frd, 8, t, .int 64, b, x, sc, 0⟩)
  | .fwr h t b x sc => some (h, ⟨.fwr, 8, t, .int 64, b, x, sc, 0⟩)
  | .fclr h b x sc => some (h, ⟨.fclr, 8, .z, .int 64, b, x, sc, 0⟩)
  | .waitm h c w t b x sc =>
    some (h, ⟨.waitm c, if w then 8 else 4, t, .int (8 * if w then 8 else 4), b, x, sc, 0⟩)
  | _ => none
where
  int (op : Nat) (w : Bool) (t : Opnd) (b : Fin 8) (x : Opnd) (sc : BitVec 2) : MemWord :=
    ⟨.rmw op, if w then 8 else 4, t, .int (8 * if w then 8 else 4), b, x, sc, 0⟩

/-! ### Words of the array and of the copy engine -/

/-- An engine word may issue (R45, R256, R278, R293): uniform sources, per-thread sources, destinations. -/
structure EngReady (pl : Place) (g : Group) (sp : Split) (uni thr dsts : List Opnd) : Prop where
  tender  : g.isTender = none
  uniform : ∀ o ∈ uni, isUniform o = true
  names   : namesBad g (uni ++ thr ++ dsts) = false
  dests   : ∀ o ∈ dsts, badDst o = false
  hazard  : hazard g sp pl.split (uni ++ thr) dsts = false

/-- The split holds every thread of its group, which has no deferral entry (R256). -/
structure WholeGroup (g : Group) (sp : Split) : Prop where
  mask   : liveMask g = sp.mask
  defers : g.defers = []

/-- The array as a matrix or plan word of the group finds it: its team's, or claimed and cleared by the word (R244). -/
def Claimed (m : MArray) (g : Group) (m' : MArray) : Prop :=
  (m.claim = some (g.launch, g.team) ∧ m' = m) ∨
  (m.claim = none ∧ m' = { m with claim := some (g.launch, g.team), front := [], back := [], fscale := [], bscale := []
                                  acc := [], mrow := [], mcol := [], srow := [], scol := [], planst := 0
                                  fmtb := FmtRec.reset })

/-- The state once the word's group has performed its earlier accesses (R172). -/
def drained (s : State) (pl : Place) : State := drainPend { s with free := s.free + 1 } pl.core pl.slot

/-- The core once an operation with the given footprint has entered: a call slip for each of its ranges (R173). -/
def slipped (k : Core) (slot : Nat) (rs : List (Range × Bool)) : Core :=
  { k with nextOp := k.nextOp + 1
           slips := k.slips ++ rs.map fun r => { slot := slot, op := k.nextOp, range := r.1, wr := r.2 } }

/-- The state once an operation of the array has entered its unit's queue behind the earlier ones (R245). -/
def entered (s : State) (pl : Place) (m : MArray) (o : ArrOp) : State :=
  let k := coreOf s pl.core
  setCore s pl.core { slipped k pl.slot (opRanges pl.core o) with
    array := { m with jobs := m.jobs ++ [{ op := k.nextOp, slot := pl.slot, unit := opUnit o, what := o, running := false
                                           since := 0, granted := 0, rows := 0, mmt := false }] } }

/-- An MMA may begin in the cycle of its issue (R271): the package is as before but that one operation of the array's unit has
started, so that the array may wait for a grant from now on (R266). An MMA that no earlier operation is in the way of has
started. -/
structure MmaBegun (s t : State) (c : Nat) : Prop where
  rest   : { t with cores := [], quads := [] } = { s with cores := [], quads := [] }
  quads  : ∀ q, { quadOf t q with govAt := 0 } = { quadOf s q with govAt := 0 }
  others : ∀ d, d ≠ c → coreOf t d = coreOf s d
  core   : { coreOf t c with array := MArray.reset } = { coreOf s c with array := MArray.reset }
  array  : (∀ j ∈ (coreOf s c).array.jobs, ∀ ds f, j.what ≠ .mmt ds f) →
    { (coreOf t c).array with jobs := [] } = { (coreOf s c).array with jobs := [] }
    ∧ ((coreOf t c).array.jobs.map fun j => { j with running := false, since := 0 }) =
        ((coreOf s c).array.jobs.map fun j => { j with running := false, since := 0 })
    ∧ ∀ j, (coreOf s c).array.jobs = [j] → j.running = false → copyClash (coreOf s c) c j = false → j.unit = .stream →
        (coreOf t c).array.jobs = [{ j with running := true, since := s.clock }]
        ∧ ∀ a b p f, j.what = .mma a b p f → j.granted = 0 → (coreOf s c).array.rate = 0 →
            (coreOf t c).array.req = some s.clock

/-- What an array word asks for at its issue: its group is whole, its footprint allowed, and there is room in its unit and
among the call slips (R173, R245, R256). -/
structure MayEnter (s : State) (pl : Place) (g : Group) (sp : Split) (m : MArray) (o : ArrOp) : Prop where
  whole  : WholeGroup g sp
  ranges : footprintOk (coreOf s pl.core) pl.core g o = true
  unfed  : mmtUnfed m = false
  room   : unitLoad m (opUnit o) < 8
  slips  : (coreOf s pl.core).slips.length + (opRanges pl.core o).length ≤ 128

/-- The group after its earlier accesses: nothing stops it after the word. -/
structure DrainedGroup (s : State) (pl : Place) (g0 : Group) : Prop where
  group : groupAt (drained s pl) pl.core pl.slot = some g0
  calm  : Calm g0

/-- The instruction hands the operation that `op` gives to the array and goes by (R245, R256); `begun` says what else happens
as it enters. -/
def Enters (i : Instr) (h : Hd) (occ : Nat) (uni : Group → List Opnd) (thr : List Opnd)
    (op : State → Group → Split → MArray → Option (ArrOp × MArray)) (upd : Group → Group)
    (begun : State → State → Nat → Prop := fun s t _ => t = s) : Prop :=
  ∀ s pl g sp m o m' g0, Issues s pl g sp → EngReady pl g sp (uni g) thr [] → Claimed (coreOf s pl.core).array g m →
    op s g sp m = some (o, m') → MayEnter s pl g sp m' o → DrainedGroup s pl g0 →
    ∃ u t, exec i s = .next t ∧ begun (entered (drained s pl) pl m' o) u pl.core
      ∧ Passed u t pl (upd g0) sp h occ (nextPos sp.pc sp.word)

/-- The values of a list of uniform registers. -/
def onceAll (s : State) (g : Group) (sp : Split) (os : List Opnd) : List Word := os.map (once s g sp)

/-- The instruction is a copy word that hands `op` to the copy engine and goes by (R292–R295); an operation whose ranges are
empty ends at once. -/
def Copies (i : Instr) (h : Hd) (uni : List Opnd) (op : List Word → CopyOp) : Prop :=
  ∀ s pl g sp, Issues s pl g sp → Calm g → EngReady pl g sp uni [] [] → WholeGroup g sp →
    let o := op (onceAll s g sp uni)
    let k := coreOf s pl.core
    copyReserved o = false → copyFootprintOk s pl.core g.launch o = true →
    (copySlips o = [] → ∃ t u, exec i s = .next u ∧ Passed s t pl g sp h 1 (nextPos sp.pc sp.word)
      ∧ u = if copyRec o then queueRecord t pl.core pl.slot 0 0 (copyTag o) else t)
    ∧ (copySlips o ≠ [] → k.copies.length < 16 → k.slips.length + (copySlips o).length ≤ 128 →
        ∀ g0, DrainedGroup s pl g0 →
          let s0 := drained s pl
          let k0 := coreOf s0 pl.core
          let j : CopyJob :=
            { op := k0.nextOp, slot := pl.slot, what := o, running := false, fault := none, win := none, words := [], moved := 0 }
          ∃ t, exec i s = .next t
            ∧ Passed (setCore s0 pl.core { slipped k0 pl.slot (copySlips o) with copies := k0.copies ++ [j] })
            t pl g0 sp h 1 (nextPos sp.pc sp.word))

/-! ### Words that read a register of the machine (R342) -/

/-- The values of a word that issues once for its destination (R186, R342): one for a g register, else one for each active
thread. -/
def onceVals (d : Opnd) (m : Mask) (x : Word) : List (Nat × Word) :=
  match d with
  | .g _ | .z => [(32, x)]
  | _ => m.threads.map fun t => (t, x)

/-- The value that thread t's destination takes from such a word. -/
def onceNew (d : Opnd) (m : Mask) (x : Word) (t : Nat) : Option Word :=
  match d with
  | .g _ | .z => some x
  | _ => if m.getLsbD t then some x else none

/-- The results of such a word that stay outstanding. -/
def onceOwed (pl : Place) (d : Opnd) (m : Mask) (x : Word) (src : ResSrc) : List Result :=
  if isTracked d then [{ split := pl.split, dst := d, vals := onceVals d m x, dead := false, src := src, redl := false }]
  else []

/-- A word with a destination and no source may issue. -/
structure DestReady (pl : Place) (g : Group) (sp : Split) (d : Opnd) : Prop where
  tender : g.isTender = none
  dest   : badDst d = false
  names  : namesBad g [d] = false
  hazard : hazard g sp pl.split [] [d] = false

/-- The word reads x, with latency 4 or a variable one (R342). -/
def Delivers (s t : State) (pl : Place) (g : Group) (sp : Split) (h : Hd) (d : Opnd) (near : Bool) (x : Word) : Prop :=
  if near then Wrote s t pl g sp h 1 d (onceKeys d sp.mask) (onceNew d sp.mask x) 0 []
  else Wrote s t pl g sp h 1 d (onceKeys d sp.mask) (fun _ => none) 0 (onceOwed pl d sp.mask x .var)

end Sys2Proof.Claims
end

