-- ==== Sys2Proof/Safety/Access.lean ====
section
/-! DEFINITION. The terms in which claims speak of what an access reaches: the physical map and the page table (R123, R125,
R126), the checks of a thread's access (R127, R134, R141), the reading room (R155, R182) and the endpoint windows
(R157–R160). -/

namespace Sys2Proof.Claims

open Machine

/-! ### The physical map and the page table -/

/-- A physical address names a frame (R123, R368): in the interleaved pool below what the local pools and disabled dies take,
in the set part of a die's local pool, in what a CXL port's decoder covers (log 2), or in the endpoint range; and Jalov does not withhold it since its memory failed (R372, log 50). -/
def Frame (s : State) (pa : Nat) : Prop :=
  let lost := ((List.range 8).map fun d => tabGet 0 s.pools d + if d ∈ s.deadDies then 96 * 2 ^ 30 else 0).sum
  (∀ w ∈ s.withheld, ¬ (w.1 ≤ pa ∧ pa < w.1 + w.2))
  ∧ (pa + lost < 8 * 96 * 2 ^ 30
    ∨ (∃ d < 8, ∃ n < 96 * 2 ^ 30, n < tabGet 0 s.pools d ∧ pa = 0x1000000000000 + d * 0x2000000000 + n)
    ∨ (∃ p < 4, ∃ n < 2 ^ 42, n < tabGet 0 s.decoders p ∧ pa = 0x4000000000000 + p * 0x40000000000 + n)
    ∨ 0x8000000000000 ≤ pa ∧ pa ≤ 0x8FFFFFFFFFFFF)

/-- A field of a page-table entry (R126). -/
def pteField (e lo n : Nat) : Nat := e / 2 ^ lo % 2 ^ n

/-- The place that an entry names. -/
def pteFrame (e : Nat) : Nat := pteField e 12 40 * 4096

/-- The VA bits that index a level, as shift and number (R125). -/
def levelBits : Nat → Nat × Nat
  | 0 => (48, 9)
  | 1 => (39, 9)
  | 2 => (30, 9)
  | 3 => (21, 9)
  | _ => (16, 5)

/-- The size code of a leaf at a level, and the bytes of its page (R125, R128). -/
def leafSize : Nat → Option (BitVec 2 × Nat)
  | 2 => some (2, 2 ^ 30)
  | 3 => some (1, 2 ^ 21)
  | 4 => some (0, 2 ^ 16)
  | _ => none

/-- The entry that an address selects in a level's table, little-endian (R4, R125). -/
def pteAt (s : State) (table level va : Nat) : Nat :=
  bytesAt (memByte s) (table + 8 * (va / 2 ^ (levelBits level).1 % 2 ^ (levelBits level).2)) 8

/-- A valid entry is malformed (R126). -/
def Malformed (s : State) (level e : Nat) : Prop :=
  pteField e 52 10 ≠ 0 ∨ pteField e 6 6 ≠ 0 ∨ pteField e 1 1 ≠ 0 ∨ pteField e 62 2 = 3
  ∨ (pteField e 2 1 = 1 ∧ (level < 2 ∨ ∃ z, leafSize level = some z ∧ pteFrame e % z.2 ≠ 0))
  ∨ (pteField e 2 1 = 0 ∧ (level = 4 ∨ pteField e 62 2 ≠ 0 ∨ pteField e 3 3 ≠ 0 ∨ 0x8000000000000 ≤ pteFrame e
      ∨ ¬ Frame s (pteFrame e)))

/-- The page that a leaf of the size `z` names to an address (R126, R128). -/
def leafPage (part va e : Nat) (z : BitVec 2 × Nat) : TlbEntry :=
  { part := part, psz := z.1, va := va - va % z.2, pa := pteFrame e, mt := BitVec.ofNat 2 (pteField e 62 2)
    r := pteField e 3 1 == 1, w := pteField e 4 1 == 1, x := pteField e 5 1 == 1 }

/-- What a walk of the address va ends in, from a level's table on (R125, R126). -/
inductive WalksTo (s : State) (part va : Nat) : Nat → Nat → WalkOut → Prop
  | absent (table level : Nat) : pteField (pteAt s table level va) 0 1 = 0 → WalksTo s part va table level .absent
  | malformed (table level : Nat) : pteField (pteAt s table level va) 0 1 = 1 → Malformed s level (pteAt s table level va) →
      WalksTo s part va table level .malformed
  | leaf (table level : Nat) (z : BitVec 2 × Nat) : pteField (pteAt s table level va) 0 1 = 1 →
      ¬ Malformed s level (pteAt s table level va) → pteField (pteAt s table level va) 2 1 = 1 → leafSize level = some z →
      WalksTo s part va table level (.leaf (leafPage part va (pteAt s table level va) z))
  | table (table level : Nat) (out : WalkOut) : pteField (pteAt s table level va) 0 1 = 1 →
      ¬ Malformed s level (pteAt s table level va) → pteField (pteAt s table level va) 2 1 = 0 →
      WalksTo s part va (pteFrame (pteAt s table level va)) (level + 1) out → WalksTo s part va table level out

/-- Address va[56:0] lies in the page of a TLB entry of the partition. -/
def Covers (e : TlbEntry) (part va : Nat) : Prop := e.part = part ∧ e.va ≤ va ∧ va < e.va + pageBytes e.psz

/-- The page that translates an address is known: the outcome is that of an entry of the core's TLB or of its quad's, else of a
walk from the partition's root (R125, R132). -/
def Resolved (s : State) (c part : Nat) (va : Word) (out : WalkOut) : Prop :=
  let v := va.toNat % 2 ^ 57
  let all := (coreOf s c).tlb ++ (quadOf s (c / 4)).tlb
  (∃ e, all.find? (fun e => e.part == part && decide (e.va ≤ v) && decide (v < e.va + pageBytes e.psz)) = some e ∧ out = .leaf e)
  ∨ (∀ e ∈ all, ¬ Covers e part v)
    ∧ WalksTo s part v (((partOf s part).ptroot.toNat / 4096 % 2 ^ 40) * 4096) 0 out

/-- What a page gives at an address. -/
def placed (e : TlbEntry) (va : Word) : Leaf :=
  { loc := e.pa + (va.toNat % 2 ^ 57 - e.va), mt := e.mt, r := e.r, w := e.w, x := e.x }

/-- What an aperture address gives (R124): the byte of core o[21:20] of the quad, readable, writable and never executable. -/
def scratchLeaf (c o : Nat) : Leaf :=
  { loc := Config.scratchKey + 2 ^ 20 * (c / 4 * 4 + o / 2 ^ 20 % 4) + o % 2 ^ 20, mt := 0, r := true, w := true, x := false }

/-- The granule of an aperture offset belongs to a team of the launch (R124). -/
def GranuleOf (s : State) (c o launch : Nat) : Prop :=
  ∃ team, tabFind (o % 2 ^ 20 / 4096) (coreOf s (c / 4 * 4 + o / 2 ^ 20 % 4)).granules = some (launch, team)

/-! ### The checks of one access -/

/-- An endpoint access that R157–R159 allow: a naturally aligned LD.b64 of a receive window or ST.b64 of a send window. -/
def endpointOk (op : MemOp) (n : Nat) (va : Word) (pa : Nat) : Bool :=
  n == 8 && va.toNat % 8 == 0 && (match op, windowOf pa with
    | .ld false, .recv _ => true
    | .st, .send _ => true
    | .st, .thedel _ _ => true
    | _, _ => false)

/-- Why a page refuses a part of an access at an address (R127, R134, R147, R153, R154, R157, R183): FUTURE before PROT. That an
endpoint's physical address on a page of another type refuses it is the model's reading (log 39). -/
def refusal (op : MemOp) (n : Nat) (va : Word) (l : Leaf) : Option Cause :=
  let reads := match op with
    | .ld _ | .rmw _ | .frd | .waitm _ => true
    | _ => false
  let writes := match op with
    | .st | .rmw _ | .fwr | .fclr => true
    | _ => false
  let future := match op with
    | .frd | .fwr | .fclr => true
    | _ => false
  let plain := match op with
    | .st | .rmw _ => true
    | _ => false
  if future && l.mt != 1 then some .future
  else if (reads && !l.r) || (writes && !l.w) then some .prot
  else if l.mt = 2 then (if endpointOk op n va l.loc then none else some .prot)
  else if 2 ^ 51 ≤ l.loc ∧ l.loc < 2 ^ 51 + 2 ^ 48 then some .prot
  else if plain && l.mt == 1 then some .prot
  else none

/-- Why a translation that is no frame refuses an access: FUTURE where its page is known and not a future page (log 39). -/
def refusedBy (op : MemOp) (a : Option Leaf) : Cause :=
  if (op = .frd ∨ op = .fwr ∨ op = .fclr) ∧ (a.any fun l => l.mt != 1) = true then .future else .prot

/-- Two pages are known to differ in their attributes (R126, R141). -/
def Differ (x y : Trans) : Prop :=
  ∃ l m, (x = .ok l ∨ x = .bad (some l)) ∧ (y = .ok m ∨ y = .bad (some m)) ∧ (l.mt, l.r, l.w, l.x) ≠ (m.mt, m.r, m.w, m.x)

/-- Why one of the two parts of an access is refused; no access to an endpoint page has two parts (R157). -/
def partRefusal (op : MemOp) (n : Nat) (va : Word) : Trans → Option Cause
  | .ok l => if l.mt = 2 then some .prot else refusal op n va l
  | .bad a => some (refusedBy op a)
  | .absent => none

/-- The pieces of n bytes within 128-byte lines, low then high (R140). -/
def linesOf (loc n : Nat) : List (Nat × Nat) :=
  if loc % 128 + n ≤ 128 then [(loc, n)] else [(loc, 128 - loc % 128), (loc + (128 - loc % 128), n - (128 - loc % 128))]

/-! ### The reading room -/

/-- The state in which the threads of any word access memory or a window once the group's earlier accesses are performed
(R132, R135). -/
def settledState (s : State) (pl : Place) (g : Group) (sp : Split) (w : MemWord) : State :=
  drainPend { noteWalks s pl.core g.part (memThreads s pl g sp w (memKeys sp w)) with free := s.free + 1 } pl.core pl.slot

/-- The threads that a list of keys stands for: key 32 for the whole split. -/
def Threads (sp : Split) (ks : List Nat) (m : Mask) : Prop :=
  ∀ j < 32, m.getLsbD j = (if 32 ∈ ks then sp.mask.getLsbD j else decide (j ∈ ks))

/-- The split waits in its core's reading room for the threads `ks`: their registers take nothing, they stay in U, and there is one
entry for each distinct place (R155, R160, R182). -/
structure Reading (s t : State) (pl : Place) (g : Group) (sp : Split) (wait : Wait) (fut : Bool) (ks : List Nat)
    (place : Nat → Nat) (owed : Group → List Result) : Prop where
  turn  : t.turn = none
  time  : t.clock = s.clock
  bytes : ∀ loc, memByte t loc = memByte s loc
  group : ∃ g' sp', groupAt t pl.core pl.slot = some g' ∧ splitAt g' pl.split = some sp' ∧ sp'.wait = some wait
    ∧ (sp'.pc, sp'.word, sp'.mask) = (sp.pc, sp.word, sp.mask) ∧ (∃ m, sp'.unfin = some m ∧ Threads sp ks m)
    ∧ frameGroup g' = frameGroup g ∧ g'.vregs = g.vregs ∧ g'.gregs = g.gregs ∧ g'.pregs = g.pregs
    ∧ g'.results = owed g ∧ ∀ n, n ≠ pl.split → splitAt g' n = splitAt g n
  room  : ∃ new, (coreOf t pl.core).room = (coreOf s pl.core).room ++ new ∧ (new.map (·.loc)).Nodup
    ∧ (∀ x ∈ new, x.slot = pl.slot ∧ x.split = pl.split ∧ x.futur = fut
        ∧ x.loc ∈ ks.map place ∧ Threads sp (ks.filter fun k => place k == x.loc) x.mask)
    ∧ ∀ k ∈ ks, ∃ x ∈ new, x.loc = place k

/-- The room has a place for each thread that may have to wait, and none of this split waits there yet. -/
def RoomFor (s : State) (pl : Place) (n : Nat) : Prop :=
  (coreOf s pl.core).room.length + n ≤ 128 ∧ ∀ x ∈ (coreOf s pl.core).room, ¬ (x.slot = pl.slot ∧ x.split = pl.split)

/-- The group's results after a word that waits: those of its threads that have been performed are owed (R28, R155). -/
def owedAfter (pl : Place) (d : Opnd) (vals : List (Nat × Word)) (g : Group) : List Result :=
  killResults pl.split d (vals.map (·.1)) g.results ++ owedBy pl d vals

/-! ### Endpoint windows -/

/-- A thread of a word may access an endpoint window at `pa` (R157). -/
structure WinOk (s : State) (pl : Place) (g : Group) (sp : Split) (w : MemWord) (k pa : Nat) : Prop where
  canon : isCanonical (addrOf s g sp w k) = true
  check : checkAcc s pl.core g w.op w.b.val w.n (addrOf s g sp w k) = .ok (.win pa)
  slips : ∀ g0, groupAt (settledState s pl g sp w) pl.core pl.slot = some g0 →
    accConflict (settledState s pl g sp w) pl g0 w.op (addrOf s g sp w k) w.n = []
      ∧ watchHit (settledState s pl g sp w) g0.part w.op (addrOf s g sp w k) w.n = none

/-- Words stored to a send window in order, each with bit 12 of its address (R158): a packet closes at that bit, or truncated at
its 64th word. -/
def putWords : Queue → List (Word × Bool) → Queue
  | q, [] => q
  | q, (x, close) :: r =>
    let ws := q.opened ++ [x]
    let shut := fun t => { q with closed := q.closed ++ [{ words := ws, trunc := t }], opened := [] }
    putWords (if close then shut false else if ws.length = 64 then shut true else { q with opened := ws }) r

/-- The status word of a receive window (R159). -/
def statusOf (q : Queue) : Word :=
  BitVec.ofNat 64 ((match q.closed with
    | [] => 2 ^ 63
    | p :: _ => (if p.words.length = 1 then 2 ^ 62 else 0) + if p.trunc then 2 ^ 61 else 0)
    + (q.closed.flatMap (·.words)).length)

/-- The words that can be dequeued, in order (R159, R304). -/
def wordsIn (q : Queue) : List Word := q.closed.flatMap (·.words)

/-- Only a queue and the logical time of the core differ (R157). -/
structure QueueMoved (s t : State) (q : Nat) : Prop where
  bytes  : ∀ loc, memByte t loc = memByte s loc
  queues : ∀ p, p ≠ q → queueOf t p = queueOf s p
  rest   : { quietMem t with queues := [] } = { quietMem s with queues := [] }
  cores  : ∀ c, quietCache (coreOf t c) = quietCache (coreOf s c)

/-- No port holds a received packet (R306). -/
def NoReceived (s : State) : Prop := ∀ p ∈ s.ports, ∀ l ∈ p.2.rx, l.2 = []

end Sys2Proof.Claims
end

