-- ==== Sys2Proof/Safety/Events.lean ====
section
/-! DEFINITION. The terms in which claims speak of machine events: what an event leaves as it was, and the places at which
events of streams and teams take effect. -/

namespace Sys2Proof.Claims

open Machine

/-- Only core c differs. -/
structure OnCore (s t : State) (c : Nat) : Prop where
  rest  : { t with cores := [] } = { s with cores := [] }
  cores : ∀ d, d ≠ c → coreOf t d = coreOf s d

/-- Only the group in a slot differs. -/
structure OnGroup (s t : State) (c slot : Nat) : Prop where
  core   : OnCore s t c
  rest   : { coreOf t c with slots := [] } = { coreOf s c with slots := [] }
  others : ∀ n, n ≠ slot → groupAt t c n = groupAt s c n

/-- The group has a split that may issue (R28, R218). -/
def MayRun (s : State) (g : Group) : Prop :=
  g.stopped = false ∧ g.started = true ∧ g.hold ≤ s.clock.toNat
    ∧ ∃ k < 4, ∃ sp, splitAt g k = some sp ∧ sp.wait = none
        ∧ if sp.running then ∀ r ∈ g.results, ∃ x, splitAt g r.split = some x ∧ x.running = true else g.results = []

/-- The values of a result by thread, of those that `p` selects, have been written, unless a later write of the register has
discarded them (R32); they are written also where the split that issued the word has been merged away or has ended (R28, R56). -/
def Landed (g g' : Group) (r : Result) (p : Nat → Prop) : Prop :=
  (r.dead = true → g'.vregs = g.vregs ∧ g'.gregs = g.gregs ∧ g'.pregs = g.pregs)
  ∧ (r.dead = false → g.splits ≠ [] → (r.vals.map (·.1)).Nodup → ∀ k x, (k, x) ∈ r.vals → p k →
      (∀ n, r.dst = .v n → tabGet 0 g'.vregs (32 * n.val + k) = x)
      ∧ ∀ n, r.dst = .g n → r.vals.length = 1 → tabGet 0 g'.gregs n.val = x)

/-- A group after a shoot-down of its partition's range, which `mine` says is the one shot down: a translation register whose
base page overlaps the range loses V and keeps the rest (R133, R346). -/
def Shot (p : Part) (mine : Prop) (g g' : Group) : Prop :=
  { g' with tregs := [] } = { g with tregs := [] }
    ∧ ∀ k, let y := tabGet TReg.reset g.tregs k
        let size := pageBytes y.psz
        let hit := y.v = true ∧ y.psz ≠ 3 ∧ shotDown p (y.base.toNat / size * size) size = true
        (mine ∧ hit → tabGet TReg.reset g'.tregs k = { y with v := false })
        ∧ (¬ (mine ∧ hit) → tabGet TReg.reset g'.tregs k = y)

/-- Jalov has serviced a fault by one page-table word: it stands in memory, and a page to which it has just given the future
attribute, in whatever partition, holds 0 (R138, R153). -/
def Serviced (s t : State) (pa : Nat) (x : Word) : Prop :=
  ∀ a, memByte t a = if ∃ r ∈ newFutures s (writeEntries s [(pa, x)]), r.1 ≤ a ∧ a < r.1 + r.2 then 0
    else writeBytes (memByte s) (pa / 8 * 8) 8 x.toNat a

/-- A partition's budget of a resource: 0 launch, 1 HBM, 2 link. -/
def budget (s : State) (p r : Nat) : Budget := tabGet Budget.reset (partOf s p).budgets r

/-- The partition neither borrows nor lends tokens of the resource (R335). -/
def NoCredit (b : Budget) : Prop := b.cfg.getLsbD 15 = false ∧ b.cfg.getLsbD 14 = false

/-! ### Streams -/

/-- The packet that the stream executes next is the given event's. -/
structure Turn (s : State) (q : StreamId) (x : Stream) (f : Fetched) (i : Instr) : Prop where
  stream : streamOf s q = x
  packet : x.packet = some f
  form   : packetInstr q f.words = some i

/-- The stream executes its ring, outside a buffer and outside a loop. -/
def InRing (x : Stream) : Prop := x.loop = none ∧ x.xbufs = []

/-- The stream after n packets of its ring (R317). -/
def afterPackets (x : Stream) (n : Nat) : Stream :=
  { x with head := x.head + BitVec.ofNat 32 n, window := x.window.drop n }

/-- A stream that has stopped with a code (R311, R314). -/
def stoppedWith (x : Stream) (code : BitVec 4) (va : Word) : Stream :=
  { x with en := false, errCode := code, errVa := va, wait := none }

/-- TAIL of the stream is more than N packets ahead of HEAD (R312). -/
def isOver (x : Stream) : Bool := x.en && decide (2 ^ x.log2n < (x.tail - x.head).toNat)

/-- The ring address of the packet at HEAD (R312). -/
def ringHead (x : Stream) : Word := x.base + BitVec.ofNat 64 (64 * (x.head.toNat % 2 ^ x.log2n))

/-- The stream as it goes on: where TAIL is too far ahead it stops with OVERRUN (R312, R314). -/
def onward (x : Stream) : Stream := if isOver x then stoppedWith x 3 (ringHead x) else x

/-- Stream q goes on as x, and Jalov is told of its stop. -/
def movedOn (s : State) (q : StreamId) (x : Stream) : State :=
  { setStream s q (onward x) with reports := s.reports ++ if isOver x then [.stream q.part q.num] else [] }

/-- A front end may read n bytes at `loc` for the address (R313). -/
def Readable (s : State) (part : Nat) (va : Word) (loc : Nat) : Prop :=
  (∃ mt, vaPlain s part va false = .ok loc mt) ∧ isPoisoned s loc = false

/-- The words of a packet in memory (R315). -/
def wordsAt (s : State) (loc : Nat) : List Word :=
  (List.range 8).map fun i => BitVec.ofNat 64 (bytesAt (memByte s) (loc + 8 * i) 8)

/-- Bytes of an access of a packet. -/
def accSize (wide : Bool) : Nat := if wide then 8 else 4

/-! ### The record area (R324, R355, R356) -/

/-- Page tables lie at the same roots, and the same frames are set. -/
def SameMaps (s u : State) : Prop :=
  (∀ p, (partOf u p).ptroot = (partOf s p).ptroot) ∧ ∀ pa, frameSet u pa = frameSet s pa

/-- A launch's record area lies in memory from `loc` on, whatever it holds (R126, R324), and no line of it is lost. -/
structure RecHere (s : State) (l : Launch) (loc : Nat) (mt : BitVec 2) : Prop where
  size  : 64 ≤ l.rsize
  place : ∀ u, SameMaps s u → (∀ a, a < loc ∨ loc + l.rsize ≤ a → memByte u a = memByte s a) →
    ∀ off < l.rsize, vaPlain u l.part (l.recArea + BitVec.ofNat 64 off) true = .ok (loc + off) mt
  sound : ∀ off < l.rsize, isPoisoned s (loc + off) = false

/-- Memory once an item of 64-bit words is appended to the record area at `loc`: its bytes at RECNEXT, and RECNEXT; or OVF,
where it does not fit (R324). -/
def appended (size loc : Nat) (ws : List Nat) (m : Nat → Byte) : Nat → Byte :=
  let k := bytesAt m (loc + 40) 8
  let n := 8 * ws.length
  if k + n ≤ size then
    writeBytes ((List.range ws.length).foldl (fun m i => writeBytes m (loc + k + 8 * i) 8 (ws.getD i 0)) m) (loc + 40) 8 (k + n)
  else writeBytes m (loc + 8) 8 (bytesAt m (loc + 8) 8 % 2 ^ 63 + 2 ^ 63)

/-- Memory once a launch has ended: T1 and STATUS (R324, R326). -/
def closedBy (loc : Nat) (clock : Word) (status : Nat) (m : Nat → Byte) : Nat → Byte :=
  writeBytes (writeBytes m (loc + 56) 8 clock.toNat) (loc + 8) 1 status

/-- A colophon (R355): END, the group, TEXIT, and its counters GISSUE, GWORDS and STALL. -/
def colophonWords (fin : Nat) (g : Group) (texit gissue gwords : Word) (stalls : Nat → Word) : List Nat :=
  [1 + 2 ^ 8 * fin + 2 ^ 16 * g.fstat.toNat, (cgid g).toNat, g.tstart.toNat, texit.toNat, gissue.toNat, gwords.toNat, 0, 0]
    ++ (List.range 16).map fun i => (stalls i).toNat

/-- The trap entry of a stopped group (R356). -/
def trapWords (g : Group) : List Nat :=
  [3 + 2 ^ 8 * g.trrec.cause.toNat + 2 ^ 16 * g.trrec.code.toNat + 2 ^ 30 * g.trrec.word.toNat, (cgid g).toNat,
    g.trrec.pc.toNat, g.trrec.addr.toNat]

/-- The wait code and the awaited field of waits that no address names (R356): BAR.lane, barriers, EVWAIT, a claim, level
barriers. -/
def awaits : Wait → Option (Nat × Nat)
  | .lane => some (3, 5)
  | .barrier (.core _ _ id) _ => some (3, 0 + 8 * (id % 16))
  | .barrier (.quad _ _ id) _ => some (3, 1 + 8 * (id % 16))
  | .barrier (.die _ _ id) _ => some (3, 2 + 8 * (id % 16))
  | .barrier (.pkg _ id) _ => some (3, 3 + 8 * (id % 16))
  | .barrier (.pod _ id) _ => some (3, 4 + 8 * (id % 16))
  | .barrier (.level _ _ lv) _ => some (6, lv % 8)
  | .events _ => some (4, 0)
  | .claim => some (5, 0)
  | _ => none

/-- The DEADLOCK entry of a group whose split stands at `sp` (R356; DEDUCED, log 30). -/
def deadlockWords (g : Group) (sp : Split) (w : Nat × Nat) : List Nat :=
  [2 + 2 ^ 8 * w.1 + 2 ^ 12 * sp.word, (cgid g).toNat, sp.pc.toNat, w.2]

/-- A launch has one resident group and no saved one, and its record area lies at `loc`. -/
structure OneGroup (s : State) (n : Nat) (l : Launch) (c slot : Nat) (g : Group) (loc : Nat) (mt : BitVec 2) : Prop where
  launch  : launchOf s n = some l
  open'   : l.status = 0
  group   : launchGroups s n = [(c, slot, g)]
  live    : liveMask g ≠ 0
  settled : g.pend = [] ∧ l.recPend = [] ∧ l.records = []
  area    : RecHere s l loc mt

/-- Memory once its launch has ended: the item of the group that Jalov lists, its colophon, T1 and STATUS. -/
def endedBy (s : State) (l : Launch) (g : Group) (loc : Nat) (entry : List Nat) (status : Nat) : Nat → Byte :=
  closedBy loc s.clock status (appended l.rsize loc (colophonWords 1 g s.clock g.gissue g.gwords (tabGet 0 g.stalls))
    (appended l.rsize loc entry (memByte s)))

/-! ### Teams -/

/-- A byte of a team's phase record, as far as the record is mapped for writing (R332). -/
def RecordByte (s : State) (l : Launch) (team a : Nat) : Prop :=
  l.phaseA ≠ 0 ∧ ∃ i < recSpan l / 8, ∃ loc mt,
    vaPlain s l.part (recBase l team + BitVec.ofNat 64 (8 * i)) true = .ok loc mt ∧ loc ≤ a ∧ a < loc + 8

/-- The translations of a team's record do not depend on the record's own bytes (R126, R332). -/
def RecordSteady (s : State) (l : Launch) (team : Nat) : Prop :=
  ∀ u : State, { quietMem u with parts := [] } = { quietMem s with parts := [] } →
    (∀ p, quietPart (partOf u p) = quietPart (partOf s p)) →
    (∀ a, ¬ RecordByte s l team a → memByte u a = memByte s a) →
    ∀ i < recSpan l / 8, vaPlain u l.part (recBase l team + BitVec.ofNat 64 (8 * i)) true =
      vaPlain s l.part (recBase l team + BitVec.ofNat 64 (8 * i)) true

/-- Nothing that teams of core c have freed less than 8 cycles ago is concerned (R329). -/
def Cool (s : State) (c : Nat) (p : Freed → Prop) : Prop := ∀ f ∈ (coreOf s c).freed, s.clock.toNat < f.until' → p f

/-- A team has left core c for its record, and waits in its stream's queue (R331, R333); no byte outside its record has changed. -/
def Parked (s t : State) (c launch team : Nat) (l : Launch) (whole front : Bool) : Prop :=
  (∀ x ∈ (coreOf t c).slots, ¬ (x.2.launch = launch ∧ x.2.team = team))
  ∧ (let old := (streamOf s ⟨l.part, l.stream⟩).teams
    let me : TeamRange := { launch := launch, first := team, n := 1 }
    (streamOf t ⟨l.part, l.stream⟩).teams = if front then me :: old else old ++ [me])
  ∧ (RecordSteady s l team → ∀ a, ¬ RecordByte s l team a → memByte t a = memByte s a)
  ∧ ∃ l' r, launchOf t launch = some l' ∧ r ∈ l'.records ∧ r.team = team ∧ r.whole = whole
      ∧ ∀ r' ∈ l'.records, r'.team = team → r' = r

/-- A group at its start (R131, R198, R199): all its lanes at the entry point, every register 0. -/
def StartsAt (g : Group) (n team gnum : Nat) (l : Launch) (clock : Nat) : Prop :=
  g.launch = n ∧ g.team = team ∧ g.gnum = gnum ∧ g.part = l.part ∧ g.valloc = l.valloc ∧ g.vregs = [] ∧ g.gregs = []
    ∧ g.pregs = [] ∧ g.tregs = [] ∧ g.fstat = 0 ∧ g.started = false ∧ g.hold = clock
    ∧ ∃ sp, g.splits = [(0, sp)] ∧ sp.pc = l.entry ∧ sp.word = 0 ∧ sp.mask = BitVec.ofNat 32 (2 ^ l.lanes - 1) ∧ sp.stack = []
      ∧ sp.lc = [] ∧ sp.wait = none

end Sys2Proof.Claims
end

