-- ==== Sys2Proof/Safety/Engines.lean ====
section
/-! DEFINITION. What the operations of the array and of the copy engine do (R246–R251, R258–R261, R273–R276, R280–R291,
R296–R300), said with the rational arithmetic of the float words. -/

namespace Sys2Proof.Claims

open Machine

/-! ### Bytes -/

/-- n bytes from `loc` on. -/
def spanAt (m : Nat → Byte) (loc n : Nat) : List Byte := (List.range n).map fun i => m (loc + i)

/-- Memory once the bytes `bs` stand from `loc` on. -/
def putSpan (m : Nat → Byte) (loc : Nat) (bs : List Byte) (a : Nat) : Byte :=
  if loc ≤ a ∧ a < loc + bs.length then bs.getD (a - loc) 0 else m a

/-- A number in w bytes, little-endian (R4). -/
def bytesOf (w x : Nat) : List Byte := (List.range w).map fun i => BitVec.ofNat 8 (x / 256 ^ i)

/-- Row r of an operation of core c with a pitch (R256). -/
def rowLoc (c : Nat) (a p : Word) (r : Nat) : Nat := apLoc c (a + BitVec.ofNat 64 (r * p.toNat))

/-- Memory once n rows of bytes stand at their places, the higher row's bytes over the lower one's (R260). -/
def putRows (m : Nat → Byte) (c : Nat) (a p : Word) (n : Nat) (bs : Nat → List Byte) : Nat → Byte :=
  (List.range n).foldl (fun m r => putSpan m (rowLoc c a p r) (bs r)) m

/-! ### The array's arithmetic (R249) -/

/-- The flush fl: a subnormal number becomes the zero of its sign. -/
def flushed (t : FTy) (code : Nat) : Nat :=
  let v := fDecode t code
  if isNum v && decide (|ratOf v| < 2 ^ minExp2 t) then withSign t (fvSign v) 0 else code

/-- The value of an FP32 code as the array reads it. -/
def reads32 (code : Nat) : FVal := fDecode .f32 (flushed .f32 code)

/-- A result as the array keeps it, with the flags IV and OF alone. -/
def kept (r : Nat × Flags) : Nat × Flags := (flushed .f32 r.1, r.2 &&& (fIV ||| fOF))

/-- A signalling NaN raises nothing where the array reads FP32 (R249). -/
def silent : FVal → FVal
  | .nan _ => .nan false
  | v => v

/-- The factor P, and nb, the blocks of a row (R246, R248). -/
def packsOf (f : FmtRec) : Nat := if f.wfmt = 0 then 1 else if f.wfmt = 3 ∧ f.afmt = 3 then 4 else 2

/-- The blocks of a row or column; 1 where nothing is scaled. -/
def blocksOf (f : FmtRec) : Nat :=
  if f.wblk = 0 ∧ f.ablk = 0 then 1 else if f.wblk = 1 ∨ f.ablk = 1 then 64 * packsOf f / 32 else 64 * packsOf f / 64

/-- The value of an element of a format, flushed (R247, R249): 0 BF16, 1 E4M3, 2 E5M2, 3 NQ4. -/
def elementOf (fmt code : Nat) : FVal :=
  match fmt with
  | 0 => fDecode .bf16 (flushed .bf16 code)
  | 1 => fDecode .e4m3 (flushed .e4m3 code)
  | 2 => fDecode .e5m2 (flushed .e5m2 code)
  | _ => .fin (decide (9 ≤ code)) (magnitude (code % 8) * 256).num.toNat (-8)

/-- Weight p of a cell (R246). -/
def weightOf (f : FmtRec) (cell p : Nat) : FVal :=
  elementOf f.wfmt (if f.wfmt = 0 then cell else if f.wfmt = 3 then cell / 16 ^ p % 16 else cell / 256 ^ p % 256)

/-- Activation i of the row at `loc` (R247). -/
def activationOf (f : FmtRec) (m : Nat → Byte) (loc i : Nat) : FVal :=
  elementOf f.afmt
    (if f.afmt = 0 then bytesAt m (loc + 2 * i) 2
    else if f.afmt = 3 then (m (loc + i / 2)).toNat / 16 ^ (i % 2) % 16
    else (m (loc + i)).toNat)

/-- Scale number i of an array of scale bytes (R248, R250): 1.0 without scales; E8 codes; or NQ4 codes behind their S. -/
def scaleOf (scaled nq4 : Bool) (b : Nat → Nat) (i : Nat) : FVal :=
  if !scaled then .fin false 1 0
  else if nq4 then
    let sc := silent (fDecode .f32 (b 0 + 256 * b 1 + 256 ^ 2 * b 2 + 256 ^ 3 * b 3))
    fDecode .f32 (kept (mulOf .f32 .rne sc (.fin false (b (4 + i) + 1) (-8)))).1
  else if b i = 255 then .nan false
  else if b i = 0 then .fin false 0 0
  else .fin false 1 ((b i : Int) - 127)

/-- fl(round_rne(part + s)), s the exact sum of a cell's products: where one of them is no number, s is formed first. -/
def addCell (part : Nat) (ts : List (FVal × Flags)) : Nat × Flags :=
  let vs := ts.map (·.1)
  let iv := ts.foldl (fun g t => g ||| t.2) 0
  let (c, f) :=
    if vs.all isNum then sumOf .f32 .rne (fDecode .f32 part :: vs)
    else
      let (x, f) := sumOf .f32 .rne vs
      let (c, g) := sumOf .f32 .rne [fDecode .f32 part, fDecode .f32 x]
      (c, f ||| g)
  let (c, f) := kept (c, f)
  (c, iv ||| f)

/-- The chain of block b of a column: its cell rows, top to bottom (R249, R250). -/
def chainOf (f : FmtRec) (act : Nat → FVal) (cell : Nat → Nat) (b : Nat) : Nat × Flags :=
  let n := 64 / blocksOf f
  (List.range n).foldl (fun a i =>
    let k := b * n + i
    let (c, g) := addCell a.1 ((List.range (packsOf f)).map fun p => fvMul (act (packsOf f * k + p)) (weightOf f (cell k) p))
    (c, a.2 ||| g)) (0, 0)

/-- What an accumulator element becomes by a pass, and the flags (R249, R250; an operand without scales has scale 1.0). -/
def passOf (f : FmtRec) (act : Nat → FVal) (cell : Nat → Nat) (sa sw : Nat → FVal) (acc : Nat) : Nat × Flags :=
  (List.range (blocksOf f)).foldl (fun a b =>
    let (p, f1) := chainOf f act cell b
    let (t, f2) := kept (mulOf .f32 .rne (fDecode .f32 p) (sa b))
    let (t, f3) := kept (mulOf .f32 .rne (fDecode .f32 t) (sw b))
    let (c, f4) := kept (sumOf .f32 .rne [silent (fDecode .f32 a.1), fDecode .f32 t])
    (c, a.2 ||| f1 ||| f2 ||| f3 ||| f4)) (acc, 0)

/-- Row r of an MMA at its accumulator row (R247, R248, R259): element n, and its flags. -/
def mmaOf (s : State) (c : Nat) (a b p : Word) (f : FmtRec) (r n : Nat) : Nat × Flags :=
  let m := (coreOf s c).array
  let row := rowLoc c a p r
  let acc := (tabGet 0 m.acc (4096 * (b.extractLsb' 12 2).toNat + 64 * ((b.extractLsb' 6 6).toNat + r) + n)).toNat
  passOf f (activationOf f (memByte s) row) (fun k => (tabGet 0 m.front (64 * k + n)).toNat)
    (fun x => scaleOf (f.ablk ≠ 0) (f.afmt = 3) (fun i => (memByte s (apLoc c (ascAddr c f) + i)).toNat) (r * blocksOf f + x))
    (fun x => scaleOf (f.wblk ≠ 0) (f.wfmt = 3) (fun i => (tabGet 0 m.fscale i).toNat) (64 * x + n))
    (if b.getLsbD 14 then 0 else acc)

/-- A drained accumulator element, and its flags (R251). -/
def drainOf (f : FmtRec) (dph j x : Nat) : Nat × Flags :=
  let iv := flagIf (fvIsSnan (fDecode .f32 x)) fIV
  let rm := if f.ofmt = 0 then f.mode else .rne
  let (v, g) := mulOf .f32 rm (fDecode .f32 x) (fDecode .f32 f.oscl)
  if f.ofmt = 0 then (flushed .f32 v, iv ||| (g &&& fOF))
  else
    let (w, h) := convFloat f.outTy .f32 f.mode f.sat (2 * ditherD.getD ((j + dph) % 64) 0 + 1) (flushed .f32 v)
    (flushed f.outTy w, iv ||| (g &&& fOF) ||| (h &&& (fIV ||| fOF)))

/-! ### Plan arithmetic (R275, R276) -/

/-- −∞ in FP32 and in BF16. -/
def negInf (t : FTy) : Nat := withSign t true (infCode t)

/-- A code that plan words refuse: a NaN or +∞ (R285). -/
def refuses (t : FTy) (code : Nat) : Bool := fvIsNan (fDecode t code) || decide (fDecode t code = .inf false)

/-- A rounded sum or difference, and whether finite values went to an infinity. -/
def planStep (x y : FVal) : Nat × Bool :=
  let (c, f) := sumOf .f32 .rne [x, y]
  (flushed .f32 c, f &&& fOF != 0)

/-- A rational number rounded to FP32 and flushed. -/
def flat (x : ℚ) : ℚ := if x = 0 then 0 else ratOf (reads32 (roundRat .f32 .rne 0 x).1)

/-- LG2A of a number from 1 to 128 (R275). -/
def logOf (s : ℚ) : Nat :=
  let e := Int.log 2 s
  let m := s / 2 ^ e
  let tab := fun i : Nat => ratOf (fDecode .f32 (exp2T.getD i 0))
  let j := (List.range 64).foldl (fun b i => if tab i ≤ m then i else b) 0
  let r := f32 ((m - tab j) / tab j)
  let q := flat (ratOf (fDecode .f32 0xBF38AA3B) * r)
  let q := flat (q + ratOf (fDecode .f32 0x3FB8AA3B))
  let q := flat (q * r)
  let x := e + j / 64 + q
  if x = 0 then 0 else flushed .f32 (roundRat .f32 .rne 0 x).1

/-- The terms of a line that are not −∞, top to bottom; none where a step overflows: to +∞, or, with `both`, to either
infinity (R276, R285, R289). -/
def termsOf (both : Bool) (line scal : Nat → Nat) : Nat → Option (List Nat)
  | 0 => some []
  | k + 1 =>
    match termsOf both line scal k with
    | none => none
    | some ts =>
      if line k = negInf .bf16 ∨ scal k = negInf .f32 then some ts
      else
        let (t, ovf) := planStep (fDecode .f32 (flushed .bf16 (line k) * 65536)) (reads32 (scal k))
        if ovf && (both || decide (t ≠ negInf .f32)) then none
        else if t = negInf .f32 then some ts
        else some (ts ++ [t])

/-- The largest of FP32 codes; +0 above −0. -/
def largest : List Nat → Nat
  | [] => negInf .f32
  | t :: ts => ts.foldl (fun m x => (extremeOf .f32 true m x).1) t

/-- M and the sum of a live line (R276); `some none` for a dead one; none where a step overflows. -/
def lineOf (both : Bool) (line scal : Nat → Nat) : Option (Option (Nat × Nat)) :=
  match termsOf both line scal 64 with
  | none => none
  | some [] => some none
  | some ts =>
    let m := largest ts
    let step := fun (a : Option Nat) (t : Nat) =>
      a.bind fun sum =>
        let (d, ovf) := planStep (fDecode .f32 t) (fvNeg (fDecode .f32 m))
        if ovf && both then none
        else some (planStep (fDecode .f32 sum) (fDecode .f32 (flushed .f32 (expTwo d).1))).1
    (ts.foldl step (some 0)).map fun sum => some (m, sum)

/-- LSUM (R276): none where a step overflows, `some none` for a dead line. -/
def lsumOf (line scal : Nat → Nat) : Option (Option Nat) :=
  match lineOf true line scal with
  | none => none
  | some none => some none
  | some (some (m, sum)) =>
    let (r, ovf) := planStep (fDecode .f32 m) (fDecode .f32 (logOf (ratOf (fDecode .f32 sum))))
    if ovf then none else some (some r)

/-- UPD of R284 over the 64 lines: the new register, and whether a line was infeasible; none on overflow. -/
def updated (marg : Nat → Nat) (cs : Nat → Option Nat) : Nat → Option (List Nat × Bool)
  | 0 => some ([], false)
  | k + 1 =>
    match updated marg cs k with
    | none => none
    | some (l, inf) =>
      if marg k = negInf .f32 then some (l ++ [negInf .f32], inf)
      else
        match cs k with
        | none => some (l ++ [negInf .f32], true)
        | some c =>
          let (v, ovf) := planStep (reads32 (marg k)) (fvNeg (fDecode .f32 c))
          if ovf then none else some (l ++ [v], inf)

/-- R of R284 over the first n columns; none on overflow. -/
def residualOf (marg scal : Nat → Nat) (cs : Nat → Option Nat) : Nat → Option Nat
  | 0 => some 0
  | k + 1 =>
    match residualOf marg scal cs k, cs k with
    | none, _ => none
    | some r, none => some r
    | some r, some c =>
      if marg k = negInf .f32 then some r
      else
        let (d, ovf) := planStep (fDecode .f32 c) (reads32 (scal k))
        let (d, ovf') := planStep (fDecode .f32 d) (fvNeg (reads32 (marg k)))
        if ovf || ovf' then none else some (extremeOf .f32 true r (d % 2 ^ 31)).1

/-- All 64 lines of a pass; none where a line overflows. -/
def passLines (line : Nat → Nat → Nat) (scal : Nat → Nat) : Option (List (Option Nat)) :=
  (List.range 64).mapM fun j => lsumOf (line j) scal

/-- PLANST (R288). -/
def statusOfPlan (sweeps : Nat) (num inval infeas : Bool) (resid : Nat) : Word :=
  BitVec.ofNat 64 (2 ^ 52 * sweeps + 2 ^ 34 * num.toNat + 2 ^ 33 * inval.toNat + 2 ^ 32 * infeas.toNat + resid)

/-- The outcome of a BALANCE: srow, scol, PLANST, flags. -/
structure Balanced where
  srow   : List Nat
  scol   : List Nat
  planst : Word
  flags  : Flags

/-- The sweeps of a BALANCE (R284, R285), `left` of them still allowed after n. -/
def sweeps (front back : Nat → Nat → Nat) (mrow mcol : Nat → Nat) (tol : Nat) :
    Nat → Nat → Bool → List Nat → List Nat → Balanced
  | left, n, inf, srow, scol =>
    let at' := fun (l : List Nat) (k : Nat) => l.getD k 0
    let stop := fun scol => Balanced.mk srow scol (statusOfPlan n true false false (nanCode .f32)) fOF
    match passLines front (at' srow) with
    | none => stop scol
    | some cs =>
      match residualOf mcol (at' scol) (fun k => cs.getD k none) 64 with
      | none => stop scol
      | some r =>
        let fin := Balanced.mk srow scol (statusOfPlan n false false inf r) 0
        match left with
        | 0 => fin
        | left + 1 =>
          if lessThan (fDecode .f32 r) (reads32 tol) || equals (fDecode .f32 r) (reads32 tol) then fin
          else
            match updated mcol (fun k => cs.getD k none) 64 with
            | none => stop scol
            | some (scol', i1) =>
              match passLines back (at' scol') with
              | none => stop scol'
              | some rs =>
                match updated mrow (fun k => rs.getD k none) 64 with
                | none => stop scol'
                | some (srow', i2) => sweeps front back mrow mcol tol left (n + 1) (inf || i1 || i2) srow' scol'

/-- Column j of a plane, by cell row (R273). -/
def columnOf (t : Tab (BitVec 16)) (j k : Nat) : Nat := (tabGet 0 t (64 * k + j)).toNat

/-- An element of a plan register (R274). -/
def elementAt (t : Tab (BitVec 32)) (e : Nat) : Nat := (tabGet 0 t e).toNat

/-- BALANCE on an array (R284, R285). -/
def balanceOf (m : MArray) (limit tol : Nat) : Balanced :=
  let regs := [m.mrow, m.mcol, m.srow, m.scol]
  let t := reads32 tol
  let srow := (List.range 64).map (elementAt m.srow)
  let scol := (List.range 64).map (elementAt m.scol)
  if ((List.range 4096).any fun k => refuses .bf16 (tabGet 0 m.front k).toNat || refuses .bf16 (tabGet 0 m.back k).toNat)
      || (regs.any fun r => (List.range 64).any fun e => refuses .f32 (elementAt r e))
      || fvIsNan t || lessThan t (.fin false 0 0) then
    ⟨srow, scol, statusOfPlan 0 false true false (nanCode .f32), fIV⟩
  else sweeps (columnOf m.front) (columnOf m.back) (elementAt m.mrow) (elementAt m.mcol) tol limit 0 false srow scol

/-- The pair that PPART writes for line j, and its flags (R289). -/
def partialOf (m : MArray) (row : Bool) (j : Nat) : Nat × Nat × Flags :=
  let plane := if row then m.back else m.front
  let scal := if row then m.scol else m.srow
  if ((List.range 4096).any fun k => refuses .bf16 (tabGet 0 plane k).toNat)
      || (List.range 64).any fun e => refuses .f32 (elementAt scal e) then
    (nanCode .f32, nanCode .f32, fIV)
  else
    match lineOf false (columnOf plane j) (elementAt scal) with
    | none => (infCode .f32, nanCode .f32, fOF)
    | some none => (negInf .f32, 0, 0)
    | some (some (x, sum)) => (x, sum, 0)

/-- Element (i, j) of the plan in FP32, and its flags (R290; DEDUCED, log 34). -/
def planOf (m : MArray) (i j : Nat) : Nat × Flags :=
  let l := (tabGet 0 m.front (64 * i + j)).toNat
  let a := elementAt m.srow i
  let b := elementAt m.scol j
  if refuses .bf16 l || refuses .f32 a || refuses .f32 b then (nanCode .f32, fIV)
  else if l = negInf .bf16 ∨ a = negInf .f32 ∨ b = negInf .f32 then (0, 0)
  else
    let (u, o1) := planStep (fDecode .f32 (flushed .bf16 l * 65536)) (reads32 a)
    let (x, o2) := planStep (fDecode .f32 u) (reads32 b)
    let (p, f) := expTwo x
    (flushed .f32 p, flagIf (o1 || o2) fOF ||| (f &&& fOF))

/-- What POUT writes of it: FP32, or BF16 with OF where its rounding overflows (R290). -/
def planWritten (half : Bool) (x : Nat × Flags) : Nat × Flags :=
  if half then
    let (c, f) := convFloat .bf16 .f32 .rne false 0 x.1
    (flushed .bf16 c, x.2 ||| (f &&& fOF))
  else x

/-- D of PDIST, from the plan and the costs, and its flags (R291; DEDUCED, log 34). -/
def distanceOf (m : MArray) (cost : Nat → Nat) : Nat × Flags :=
  let ps := (List.range 4096).map fun k => ((planOf m (k / 64) (k % 64)).1, cost k)
  let ts := (ps.filter fun p => p.1 != 0).map fun p => fvMul (fDecode .f32 p.1) (reads32 p.2)
  let (c, f) := kept (sumOf .f32 .rne (ts.map (·.1)))
  (c, (List.range 4096).foldl (fun g k => g ||| (planOf m (k / 64) (k % 64)).2) 0
    ||| f ||| (ts.foldl (fun g t => g ||| t.2) 0))

/-- What PCOST makes of a cost with κ, and its flags (R281). -/
def costOf (kappa cost : Nat) : Nat × Flags :=
  let (c, f) := mulOf .bf16 .rne (reads32 cost) (fDecode .f32 kappa)
  (flushed .bf16 c, f &&& (fIV ||| fOF))

/-- κ of an ε is −1 ÷ (ε × ln 2) rounded to nearest, but for 2^−8 of an ulp (R281; log 7). -/
def KappaOf (eps kappa : Nat) : Prop :=
  let v : ℝ := -1 / ((ratOf (fDecode .f32 eps) : ℝ) * Real.log 2)
  |(ratOf (fDecode .f32 kappa) : ℝ) - v| ≤ (1 / 2 + 2 ^ (-8 : Int)) * 2 ^ (Int.log 2 |v| - 23)

/-! ### An operation ends -/

/-- The first operation of the array runs in a unit, is no step of an MMT, and has written all its rows. -/
structure Ending (s : State) (c : Nat) (u : AUnit) (j : ArrJob) (rest : List ArrJob) : Prop where
  first : (coreOf s c).array.jobs = j :: rest
  unit  : j.unit = u
  runs  : j.running = true
  plain : j.mmt = false
  rows  : j.rows = opRows j.what

/-- An operation has ended (R173, R245): it has left its unit, its slips have drained, its flags are among those that its
group has pending (R262), memory is as given, and the array differs only in what `blank` hides. -/
structure Ended (s t : State) (c : Nat) (j : ArrJob) (rest : List ArrJob) (mem : Nat → Byte) (blank : MArray → MArray)
    (f : Flags) : Prop where
  bytes : ∀ x, memByte t x = mem x
  array : blank { (coreOf t c).array with claim := none } = blank { (coreOf s c).array with jobs := rest, claim := none }
  slips : (coreOf t c).slips = (coreOf s c).slips.filter fun y => y.op != j.op
  flags : ∀ g g', groupAt s c j.slot = some g → groupAt t c j.slot = some g' → g'.engFlags = g.engFlags ||| f

/-- The codes of a table from key `lo` on. -/
def codesAt {w : Nat} (t : Tab (BitVec w)) (lo n : Nat) : List Nat := (List.range n).map fun k => (tabGet 0 t (lo + k)).toNat

/-- The flags of n results. -/
def flagsOf (n : Nat) (f : Nat → Flags) : Flags := (List.range n).foldl (fun g k => g ||| f k) 0

/-! ### Copies (R296–R300) -/

/-- The bytes that a copy moves, as pairs of their destination and their source address, in the order of co. Index i of a
gather or scatter is `x i`. -/
def copyPairs (x : Nat → Nat) : CopyOp → List (Word × Word)
  | .cpy a b ctl => (List.range (ctl.toNat % 2 ^ 28)).map fun i => (b + BitVec.ofNat 64 i, a + BitVec.ofNat 64 i)
  | .cpy2d ds =>
    let d := fun i => ds.getD i 0
    (List.range ((d 3).toNat / 2 ^ 16 % 2 ^ 15)).flatMap fun r => (List.range ((d 3).toNat % 2 ^ 16)).map fun i =>
      (d 1 + BitVec.ofNat 64 (r * ((d 2).toNat % 2 ^ 32) + i), d 0 + BitVec.ofNat 64 (r * ((d 2).toNat / 2 ^ 32) + i))
  | .gth ds =>
    let e := 2 ^ ((ds.getD 4 0).toNat / 2 ^ 16 % 16)
    (List.range ((ds.getD 3 0).toNat % 2 ^ 32)).flatMap fun i => (List.range e).map fun k =>
      (ds.getD 1 0 + BitVec.ofNat 64 (i * e + k), ds.getD 0 0 + BitVec.ofNat 64 (x i * e + k))
  | .sct ds =>
    let e := 2 ^ ((ds.getD 4 0).toNat / 2 ^ 16 % 16)
    (List.range ((ds.getD 3 0).toNat % 2 ^ 32)).flatMap fun i => (List.range e).map fun k =>
      (ds.getD 0 0 + BitVec.ofNat 64 (x i * e + k), ds.getD 1 0 + BitVec.ofNat 64 (i * e + k))
  | .cpyr .. => []

/-- Addresses of the indices of a gather or scatter. -/
def indexAddrs : CopyOp → List Word
  | .gth ds | .sct ds =>
    (List.range ((ds.getD 3 0).toNat % 2 ^ 32)).map fun i => ds.getD 2 0 + BitVec.ofNat 64 (4 * i)
  | _ => []

/-- What CPYR puts in place of an element (R299): OP 0 sum, 1 least, 2 greatest; TYPE 0 to 6. -/
def combined (op ty old v : Nat) : Nat :=
  let ints := fun (n : Nat) (sg : Bool) =>
    let val := fun x : Nat => if sg then (BitVec.ofNat n x).toInt else (x : Int)
    match op with
    | 0 => (old + v) % 2 ^ n
    | 1 => if val v < val old then v else old
    | _ => if val old < val v then v else old
  let flts := fun t : FTy =>
    if op = 0 then (sumOf t .rne [fDecode t old, fDecode t v]).1 else (extremeOf t (op == 2) old v).1
  match ty with
  | 0 => flts .f32
  | 1 => flts .f64
  | 2 => flts .bf16
  | 3 => ints 32 true
  | 4 => ints 64 true
  | 5 => ints 32 false
  | _ => ints 64 false

/-- Bytes of an element of CPYR. -/
def elementBytes (ty : Nat) : Nat := if ty = 2 then 2 else if ty = 0 ∨ ty = 3 ∨ ty = 5 then 4 else 8

/-- The copy is next to end: it runs, waits for no page, and nothing earlier conflicts (R292). -/
structure CopyRuns (s : State) (c idx : Nat) (j : CopyJob) (g : Group) : Prop where
  job   : (coreOf s c).copies[idx]? = some j
  runs  : j.running = true
  fault : j.fault = none
  clear : copyClear (coreOf s c) ((coreOf s c).copies.take idx) j = true
  group : groupAt s c j.slot = some g

/-- The engine's accesses to the addresses pass their checks, and still pass them, at the same places, whatever stands at the
locations `written` (R126, R300). -/
def EngSteady (s : State) (c : Nat) (g : Group) (vas : List (Word × Bool × Bool)) (written : Nat → Prop) : Prop :=
  ∀ u : State, { quietMem u with parts := [] } = { quietMem s with parts := [] } →
    (∀ p, quietPart (partOf u p) = quietPart (partOf s p)) →
    (∀ d, (coreOf u d).tlb = (coreOf s d).tlb ∧ (coreOf u d).granules = (coreOf s d).granules) →
    (∀ a, ¬ written a → memByte u a = memByte s a) →
    ∀ v ∈ vas, ∃ loc, engCheck s c g.part g.launch v.1 v.2.1 v.2.2 = .ok loc
      ∧ engCheck u c g.part g.launch v.1 v.2.1 v.2.2 = .ok loc

/-- The pages that the TLBs of core c hold begin at multiples of their size (R132). -/
def TlbAligned (s : State) (c : Nat) : Prop :=
  ∀ e ∈ (coreOf s c).tlb ++ (quadOf s (c / 4)).tlb, e.va % pageBytes e.psz = 0 ∧ e.pa % pageBytes e.psz = 0

/-- The operation has left the engine and its slips have drained (R300). -/
structure CopyDone (s t : State) (c : Nat) (j : CopyJob) : Prop where
  copies : (coreOf t c).copies = (coreOf s c).copies.filter fun x => x.op != j.op
  slips  : (coreOf t c).slips = (coreOf s c).slips.filter fun y => y.op != j.op

end Sys2Proof.Claims
end

