-- ==== Sys2Proof/Certificates/Slice0/Obligations.lean ====
section
/-! DEFINITION. The statements for the provers. -/

open Sys2Proof Sys2Proof.Machine Sys2Proof.Claims

/-! ### Encoding and steps -/

/-- Every well-formed instruction word has an encoding, which decodes to it (R19, R41, R43). -/
def Obligations.EncodeDecode : Prop :=
  ∀ i : Instr, i.wellFormed = true → i.hd.isSome = true → ∃ w, encodeWord i = some w ∧ decodeWord w = .ok i

/-- A word that decodes to an instruction is that instruction's one encoding, and the instruction is well formed: no word
with a reserved field decodes (R41, R44). -/
def Obligations.DecodeEncode : Prop :=
  ∀ (w : IWord) (i : Instr), decodeWord w = .ok i → i.wellFormed = true ∧ encodeWord i = some w

/-- Words written out from the encodings of the spec decode to the instructions that they stand for. -/
def Obligations.SampleWords : Prop :=
  decodeWord 0x00060410 = .ok (.add ⟨false, false⟩ (.v 3) (.v 1) (.v 2))
  ∧ decodeWord 0x0203FFFB = .ok (.li ⟨false, false⟩ (.v 1) (-5))
  ∧ decodeWord 0x1310183B = .ok (.ffma ⟨false, false⟩ .bf16 (.v 8) (.v 6) (.v 7))
  ∧ decodeWord 0x280E82FA = .ok (.ld ⟨false, false⟩ .b64 (.v 7) 2 (.v 5) 3 2)
  ∧ decodeWord 0x70000005 = .ok (.fence ⟨false, true⟩ .sys)
  ∧ decodeWord 0x79BFFFFE = .ok (.brp ⟨false, true⟩ true 3 (-2))
  ∧ decodeWord 0x3C8B1A3B = .ok (.mma ⟨false, false⟩ (.g 5) (.g 6) (.g 7))
  ∧ decodeWord 0x7F014012 = .ok (.syscall ⟨false, true⟩ 18)

/-- When the bytes at the place of the split that has the turn decode to an instruction and the checks of its bundle pass,
a step is that instruction's, in the state that the checks leave. A step takes the first event of the agenda; with none
there it takes a governor's step that is late (R266, R271), and with no split that has the turn the next event of the package's own
order (the model's agenda and order: log 3, DESIGN CHOICE). The word is what memory holds as it issues, whenever its block was
fetched (log 10, DEDUCED). -/
def Obligations.StepRunsDecoded : Prop :=
  (∀ (s : State) (pl : Place) (g : Group) (sp : Split) (i : Instr),
    MayIssue s pl g sp → CodeIs s pl g sp (.ok i) → ∃ t, Entered s t pl g sp ∧ step s = exec i t)
  ∧ ((∀ (s : State) (i : Instr) (r : List Instr), s.agenda = i :: r → i.hd = none → step s = exec i { s with agenda := r })
  ∧ (∀ s : State, s.agenda = [] → (∃ q, GovLate s q) → ∃ q, GovLate s q ∧ step s = exec (.slewGovernorStep q) s)
  ∧ (∀ s : State, s.agenda = [] → Governed s → s.turn = none → step s = exec (nextEvent s) { s with free := s.free + 1 })
  ∧ ∀ s : State, (nextEvent s).hd = none)

/-- From every state a step answers a next state: the machine never faults and never refuses. A turn whose split is gone ends
without a word (the turn and the agenda are the model's own: log 3). -/
def Obligations.StepAnswers : Prop := ∀ s : State, ∃ t, step s = .next t

/-- Memory keeps its one canonical form in every step. -/
def Obligations.MemoryKept : Prop :=
  ∀ s t : State, Memory.wf s.mem = true → step s = .next t → Memory.wf t.mem = true

/-- What the register maps give for reset (R309, R311, R335, R344, R346); and memory lists nothing and reads 0 (the model's
choice, from the wipe: log 1). The life cycle of a package whose fuses are blank is the model's choice (log 21). -/
def Obligations.ResetValues : Prop :=
  (State.reset.clock = 0 ∧ State.reset.budper = 15000 ∧ State.reset.life = .manufacture
  ∧ (∀ p, (partOf State.reset p).lease = 16 ∧ (partOf State.reset p).starvint = 1500000 ∧ (partOf State.reset p).gen = 0
      ∧ (partOf State.reset p).ack = true ∧ (partOf State.reset p).ptroot = 0 ∧ (partOf State.reset p).pcfg = 0)
  ∧ (∀ q, (streamOf State.reset q).en = false ∧ (streamOf State.reset q).head = 0 ∧ (streamOf State.reset q).errCode = 0)
  ∧ (∀ p, (portOf State.reset p).up = false ∧ (portOf State.reset p).lanes = 15 ∧ (portOf State.reset p).drop = 0)
  ∧ ∀ c, (coreOf State.reset c).slots = [] ∧ (coreOf State.reset c).array.claim = none)
  ∧ (Memory.wf State.reset.mem = true ∧ ∀ a, memByte State.reset a = 0)

/-! ### Operands -/

/-- What a word reads (R35): a register holds a value of 64 bits, a predicate reads 0 or 1, z reads 0, tid the thread's number,
p0 1, and y0 and y1 the result of the run that R33 names. The constants of R35 in each type (R37): 1, 2, 3, 4, 8, 16, 32 and −1. -/
def Obligations.OperandValues : Prop :=
  (∀ (g : Group) (sp : Split) (f : Nat) (c : Conv) (t : Nat),
    (∀ o, sp.run.prods = [] → isTracked o = true → readOp g sp f c t o = regNow g sp c t o)
    ∧ (∀ n : Fin 64, regNow g sp c t (.v n) = tabGet 0 g.vregs (32 * n.val + t))
    ∧ (∀ n : Fin 32, regNow g sp c t (.g n) = tabGet 0 g.gregs n.val)
    ∧ (∀ n : Fin 8, regNow g sp c t (.o n) = tabGet 0 sp.run.oregs (32 * n.val + t))
    ∧ (∀ n : Fin 8, n ≠ 0 → regNow g sp c t (.p n) = if (tabGet 0 g.pregs n.val).getLsbD t then 1 else 0)
    ∧ readOp g sp f c t .z = 0 ∧ readOp g sp f c t .tid = BitVec.ofNat 64 t ∧ readOp g sp f c t (.p 0) = 1
    ∧ readOp g sp f c t .y0 = yVal (fun p => p.pipe == .a && p.lat.isSome && decide (p.bundle + 4 ≤ sp.run.bundle)) sp.run t
    ∧ readOp g sp f c t .y1 = yVal (fun p => p.pipe == .f && (p.lat.any fun l => decide (p.bundle + l ≤ sp.run.bundle))) sp.run t)
  ∧ ((∀ (g : Group) (sp : Split) (f : Nat) (c : Conv) (t : Nat) (i : Fin 8), readOp g sp f c t (.k i) = constWord c i)
  ∧ (∀ i : Fin 8, constWord (.int 64) i = [1, 2, 3, 4, 8, 16, 32, -1].getD i.val 0)
  ∧ (∀ n ∈ [8, 16, 32], ∀ i : Fin 8, constWord (.int n) i = ofSub n fun _ => [1, 2, 3, 4, 8, 16, 32, 2 ^ n - 1].getD i.val 0)
  ∧ ∀ (ty : FTy) (i : Fin 8), constWord (.flt ty) i = ofSub (floatBits ty) fun _ => (floatConsts ty).getD i.val 0)

/-- A word reads its sources as they stood before its bundle (R22), and an outstanding read yields the value before the
producer or the producer's (R31), here for the one producer of the register in the run; of several outstanding ones the
model offers the value before the first and each producer's (log 53, DESIGN CHOICE). -/
def Obligations.ReadsOfTheRun : Prop :=
  ∀ (g : Group) (sp : Split) (f : Nat) (c : Conv) (t : Nat) (o : Opnd) (p : Producer) (r : List Producer) (x y : Word),
    isTracked o = true → sp.run.prods = p :: r → p.dst = o → (∀ q ∈ r, q.dst ≠ o) → threadVal p.old t = some x →
    threadVal p.new t = some y →
    (p.bundle = sp.run.bundle → readOp g sp f c t o = x)
    ∧ (p.bundle < sp.run.bundle → (∀ l, p.lat = some l → sp.run.bundle < p.bundle + l) →
        readOp g sp f c t o = x ∨ readOp g sp f c t o = y)
    ∧ (∀ l, p.lat = some l → p.bundle < sp.run.bundle → p.bundle + l ≤ sp.run.bundle →
        readOp g sp f c t o = regNow g sp c t o)

/-! ### Integer words -/

/-- The two-operand words of R60. -/
def Obligations.TwoOperandWords : Prop :=
  ∀ (h : Hd) (d a b : Opnd),
    Computes (.add h d a b) (intCalc h d a b (· + ·)) .var
    ∧ Computes (.sub h d a b) (intCalc h d a b (· - ·)) .var
    ∧ Computes (.and h d a b) (intCalc h d a b (· &&& ·)) .var
    ∧ Computes (.or h d a b) (intCalc h d a b (· ||| ·)) .var
    ∧ Computes (.xor h d a b) (intCalc h d a b (· ^^^ ·)) .var
    ∧ Computes (.andn h d a b) (intCalc h d a b fun x y => x &&& ~~~y) .var
    ∧ Computes (.min h d a b) (intCalc h d a b sMin) .var
    ∧ Computes (.max h d a b) (intCalc h d a b sMax) .var
    ∧ Computes (.minu h d a b) (intCalc h d a b uMin) .var
    ∧ Computes (.maxu h d a b) (intCalc h d a b uMax) .var
    ∧ Computes (.shl h d a b) (intCalc h d a b fun x y => x <<< low6 y) .var
    ∧ Computes (.shr h d a b) (intCalc h d a b fun x y => x >>> low6 y) .var
    ∧ Computes (.sar h d a b) (intCalc h d a b fun x y => x.sshiftRight (low6 y)) .var
    ∧ Computes (.rol h d a b) (intCalc h d a b fun x y => rotLeft x (low6 y)) .var
    ∧ Computes (.mul h d a b) (intCalc h d a b (· * ·)) .var
    ∧ Computes (.mulh h d a b) (intCalc h d a b fun x y => BitVec.ofInt 64 (x.toInt * y.toInt / 2 ^ 64)) .var
    ∧ Computes (.mulhu h d a b) (intCalc h d a b fun x y => BitVec.ofNat 64 (x.toNat * y.toNat / 2 ^ 64)) .var
    ∧ Computes (.mad h d a b) (intCalc3 h d a b fun x y w => w + x * y) .var

/-- The division words, with the fixed results of a divisor 0 and of −2^63 ÷ −1 (R61); their results are outstanding in the
divider (R56). -/
def Obligations.DivisionWords : Prop :=
  (∀ (h : Hd) (d a b : Opnd),
    Computes (.div h d a b) (divCalc h d a b quotS) .div ∧ Computes (.rem h d a b) (divCalc h d a b remainS) .div
    ∧ Computes (.divu h d a b) (divCalc h d a b quotU) .div ∧ Computes (.remu h d a b) (divCalc h d a b remainU) .div)
  ∧ (∀ x, quotS x 0 = 0xFFFFFFFFFFFFFFFF ∧ remainS x 0 = x ∧ quotU x 0 = 0xFFFFFFFFFFFFFFFF ∧ remainU x 0 = x)
  ∧ quotS 0x8000000000000000 (-1) = 0x8000000000000000 ∧ remainS 0x8000000000000000 (-1) = 0
  ∧ (∀ x y : Word, y ≠ 0 → ¬ (x = 0x8000000000000000 ∧ y = -1) →
      x.toInt = (quotS x y).toInt * y.toInt + (remainS x y).toInt ∧ (remainS x y).toInt.natAbs < y.toInt.natAbs
      ∧ (0 ≤ x.toInt → 0 ≤ (remainS x y).toInt) ∧ (x.toInt ≤ 0 → (remainS x y).toInt ≤ 0))
  ∧ ∀ x y : Word, y ≠ 0 → x.toNat = (quotU x y).toNat * y.toNat + (remainU x y).toNat ∧ (remainU x y).toNat < y.toNat

/-- The 32-bit forms: the low halves, and a sign-extended result (R62). The immediate forms: a sign-extended addend, shift
amounts, and constants built from the top down (R63, R64). -/
def Obligations.NarrowWords : Prop :=
  (∀ (h : Hd) (d a b : Opnd),
    Computes (.addS32 h d a b) (intCalc h d a b fun x y => (half x + half y).signExtend 64) .var
    ∧ Computes (.subS32 h d a b) (intCalc h d a b fun x y => (half x - half y).signExtend 64) .var
    ∧ Computes (.mulS32 h d a b) (intCalc h d a b fun x y => (half x * half y).signExtend 64) .var
    ∧ Computes (.shlS32 h d a b) (intCalc h d a b fun x y => (half x <<< low5 y).signExtend 64) .var
    ∧ Computes (.shrS32 h d a b) (intCalc h d a b fun x y => (half x >>> low5 y).signExtend 64) .var
    ∧ Computes (.sarS32 h d a b) (intCalc h d a b fun x y => ((half x).sshiftRight (low5 y)).signExtend 64) .var)
  ∧ (∀ (h : Hd) (d a : Opnd),
    (∀ imm, Computes (.addi h d a imm) (intCalc h d a .z fun x _ => x + imm.signExtend 64) .var)
    ∧ (∀ imm, Computes (.shli h d a imm) (intCalc h d a .z fun x _ => x <<< imm.toNat) .var
        ∧ Computes (.shri h d a imm) (intCalc h d a .z fun x _ => x >>> imm.toNat) .var
        ∧ Computes (.sari h d a imm) (intCalc h d a .z fun x _ => x.sshiftRight imm.toNat) .var)
    ∧ (∀ imm, Computes (.li h d imm) (intCalc h d .z .z fun _ _ => imm.signExtend 64) .var)
    ∧ ∀ imm, Computes (.lis h d imm) (intCalc3 h d .z .z fun _ _ w => (w <<< 16) ||| imm.setWidth 64) .var)

/-- The unary words (R65). The bit-field words (R68). Scaled address sums (R69). -/
def Obligations.UnaryWords : Prop :=
  (∀ (h : Hd) (d a : Opnd),
    Computes (.clz h d a) (intCalc h d a .z fun x _ => BitVec.ofNat 64 (leadZeros x)) .var
    ∧ Computes (.ctz h d a) (intCalc h d a .z fun x _ => BitVec.ofNat 64 (trailZeros x)) .var
    ∧ Computes (.popc h d a) (intCalc h d a .z fun x _ => BitVec.ofNat 64 (countOnes x)) .var
    ∧ Computes (.brev h d a) (intCalc h d a .z fun x _ => ofBits fun i => x.getLsbD (63 - i)) .var
    ∧ Computes (.abs h d a) (intCalc h d a .z fun x _ => BitVec.ofNat 64 x.toInt.natAbs) .var
    ∧ Computes (.mov h d a) (intCalc h d a .z fun x _ => x) .var
    ∧ ∀ w, Computes (.sext h w d a) (intCalc h d a .z fun x _ => (x.setWidth (widthOf w)).signExtend 64) .var
        ∧ Computes (.zext h w d a) (intCalc h d a .z fun x _ => BitVec.ofNat 64 (x.toNat % 2 ^ widthOf w)) .var)
  ∧ (∀ (h : Hd) (d a b : Opnd),
    Computes (.bfxZ h d a b) (intCalc h d a b fieldZ) .var ∧ Computes (.bfxS h d a b) (intCalc h d a b fieldS) .var
    ∧ Computes (.bfi h d a b) (intCalc3 h d a b fun x y w => ofBits (insertBit x y w)) .var)
  ∧ (∀ (h : Hd) (sc : BitVec 2) (d a b : Opnd),
    Computes (.lea h sc d a b) (intCalc h d a b fun x y => x + y * BitVec.ofNat 64 ([1, 2, 4, 8].getD sc.toNat 0)) .var
    ∧ Computes (.leaS32 h sc d a b)
        (intCalc h d a b fun x y => x + (half y).signExtend 64 * BitVec.ofNat 64 ([1, 2, 4, 8].getD sc.toNat 0)) .var)

/-- Compares give 1 where the condition holds and 0 where it does not (R66). -/
def Obligations.CompareWords : Prop :=
  ∀ (h : Hd) (c : Cmp) (d a : Opnd),
    (∀ b, Computes (.cmp h c d a b) (intCalc h d a b fun x y => truth (holds c x y)) .var)
    ∧ ∀ imm, Computes (.cmpi h c d a imm) (intCalc h d a .z fun x _ => truth (holds c x (imm.signExtend 64))) .var

/-- SEL takes x where pN reads 1 and y where it reads 0, with N in the minor field; pN is a source, so that a word with N ≠ 0
issues per thread, and p0 reads 1 (R67). -/
def Obligations.SelectWord : Prop :=
  (∀ (h : Hd) (n : Fin 8) (d a b : Opnd),
    Computes (.sel h n d a b) { intCalc3 h d a b (fun x y w => if w = 1 then x else y) with w := (.p n, .int 64) } .var)
  ∧ (∀ (n : Fin 8) (m : Fin 32) (a b d : Opnd), n ≠ 0 → issueMode [a, b, .p n] (.g m) = .opspec
      ∧ issueMode [a, b, .p n] d ≠ .uniform)
  ∧ (∀ (g : Group) (sp : Split) (f : Nat) (c : Conv) (t : Nat), readOp g sp f c t (.p 0) = 1)
  ∧ ∀ (w : IWord) (h : Hd) (n : Fin 8) (d a b : Opnd), decodeWord w = .ok (.sel h n d a b) → n.val = w.toNat % 8

/-- The packed words, which saturate; a constant stands in every sub-element (R37, R70). -/
def Obligations.PackedWords : Prop :=
  ∀ (h : Hd) (ty : PTy) (d a b : Opnd),
    Computes (.padd h ty d a b) (packCalc h ty d a b fun x y => satEl ty (x + y)) .var
    ∧ Computes (.psub h ty d a b) (packCalc h ty d a b fun x y => satEl ty (x - y)) .var
    ∧ Computes (.pmin h ty d a b) (packCalc h ty d a b fun x y => if x ≤ y then x else y) .var
    ∧ Computes (.pmax h ty d a b) (packCalc h ty d a b fun x y => if x ≤ y then y else x) .var

/-! ### Float words -/

/-- The model's one rounding of a magnitude m × 2^e is the rounding of the rational number (R79, R80). -/
def Obligations.RoundsOnce : Prop :=
  ∀ (t : FTy) (rm : Rnd) (thr : Nat) (neg : Bool) (m : Nat) (e : Int), m ≠ 0 →
    roundTo t rm thr neg m e = roundRat t rm thr ((if neg then -1 else 1) * m * 2 ^ e)

/-- Rounding to nearest, ties to even (R79): no finite number of the format is nearer to the exact result than the one that
the model gives, and of two equally near ones it gives the even one; beyond the largest finite number plus half its last
place it gives an infinity. -/
def Obligations.RoundsToNearest : Prop :=
  ∀ (t : FTy) (neg : Bool) (m : Nat) (e : Int), t ≠ .e4m3 → m ≠ 0 →
    let x : ℚ := (if neg then -1 else 1) * m * 2 ^ e
    let c := (roundTo t .rne 0 neg m e).1
    let edge := maxFinite t * (1 + 1 / (2 ^ (fracBits t + 2) - 2))
    (edge ≤ |x| → fDecode t c = .inf neg)
    ∧ (|x| < edge → isNum (fDecode t c) = true ∧
        ∀ k < 2 ^ floatBits t, isNum (fDecode t k) = true →
          |x - ratOf (fDecode t c)| ≤ |x - ratOf (fDecode t k)|
          ∧ (|x - ratOf (fDecode t c)| = |x - ratOf (fDecode t k)| → ratOf (fDecode t k) = ratOf (fDecode t c) ∨ c % 2 = 0))

/-- The directed modes (R79): between the exact result and the number that the model gives lies no other number of the
format, on the mode's side. -/
def Obligations.RoundsDirected : Prop :=
  ∀ (t : FTy) (neg : Bool) (m : Nat) (e : Int), m ≠ 0 →
    let x : ℚ := (if neg then -1 else 1) * m * 2 ^ e
    |x| ≤ maxFinite t →
    ∀ rm ∈ [Rnd.rz, .ru, .rd],
      let y := ratOf (fDecode t (roundTo t rm 0 neg m e).1)
      (rm = .rz → |y| ≤ |x| ∧ 0 ≤ x * y) ∧ (rm = .ru → x ≤ y) ∧ (rm = .rd → y ≤ x)
      ∧ ∀ k < 2 ^ floatBits t, isNum (fDecode t k) = true →
          (rm = .rz → |ratOf (fDecode t k)| ≤ |x| → |ratOf (fDecode t k)| ≤ |y|)
          ∧ (rm = .ru → x ≤ ratOf (fDecode t k) → y ≤ ratOf (fDecode t k))
          ∧ (rm = .rd → ratOf (fDecode t k) ≤ x → ratOf (fDecode t k) ≤ y)

/-- The formats (R73, R74): the codes of the largest finite number, of +∞ and of the canonical NaN, and the value of every
code with a sign, an exponent field and a fraction. -/
def Obligations.FloatFormats : Prop :=
  ∀ t : FTy,
    ratOf (fDecode t (maxCode t)) = maxFinite t ∧ isNum (fDecode t (maxCode t)) = true
    ∧ fDecode t (nanCode t) = .nan false ∧ (t ≠ .e4m3 → fDecode t (infCode t) = .inf false)
    ∧ ∀ (neg : Bool) (ex fr : Nat), fr < 2 ^ fracBits t → ex * 2 ^ fracBits t + fr ≤ maxCode t →
        let v := fDecode t (withSign t neg (ex * 2 ^ fracBits t + fr))
        isNum v = true ∧ fvSign v = neg
        ∧ |ratOf v| = if ex = 0 then (fr : ℚ) * 2 ^ (minExp2 t - fracBits t)
            else (1 + (fr : ℚ) / 2 ^ fracBits t) * 2 ^ (minExp2 t + ex - 1)

/-- The arithmetic of R89: the exact result of every sub-element, rounded once by the mode, with its flags. FFMA, FFMS and FNMA raise
IV for zero times infinity also beside a quiet NaN addend (log 28, DEDUCED). -/
def Obligations.FloatArithmetic : Prop :=
  ∀ (h : Hd) (t : FTy) (d a b : Opnd),
    let sum := fun (rm : Rnd) (x y _w : Nat) => sumOf t rm [fDecode t x, fDecode t y]
    let mul := fun (rm : Rnd) (x y _w : Nat) => mulOf t rm (fDecode t x) (fDecode t y)
    let fma := fun (neg sub : Bool) (x y w : Nat) =>
      fmaOf t .rne (fDecode t x) (fDecode t y) (if sub then fvNeg (fDecode t w) else fDecode t w) neg
    Computes (.fadd h t d a b) (fltCalc h t d a b (sum .rne)) .var
    ∧ Computes (.faddRz h t d a b) (fltCalc h t d a b (sum .rz)) .var
    ∧ Computes (.faddRu h t d a b) (fltCalc h t d a b (sum .ru)) .var
    ∧ Computes (.faddRd h t d a b) (fltCalc h t d a b (sum .rd)) .var
    ∧ Computes (.fsub h t d a b) (fltCalc h t d a b fun x y _ => sumOf t .rne [fDecode t x, fvNeg (fDecode t y)]) .var
    ∧ Computes (.fmul h t d a b) (fltCalc h t d a b (mul .rne)) .var
    ∧ Computes (.fmulRz h t d a b) (fltCalc h t d a b (mul .rz)) .var
    ∧ Computes (.fmulRu h t d a b) (fltCalc h t d a b (mul .ru)) .var
    ∧ Computes (.fmulRd h t d a b) (fltCalc h t d a b (mul .rd)) .var
    ∧ Computes (.ffma h t d a b) (fltCalc3 h t d a b (fma false false)) .var
    ∧ Computes (.ffms h t d a b) (fltCalc3 h t d a b (fma false true)) .var
    ∧ Computes (.fnma h t d a b) (fltCalc3 h t d a b (fma true false)) .var

/-- Minimum, maximum, signs, classes, integral values and scaling (R89–R91), of every sub-element. Comparisons: bit k of the
result is the condition on sub-elements k (R92). -/
def Obligations.FloatOtherWords : Prop :=
  (∀ (h : Hd) (t : FTy) (d a b : Opnd), t ∈ [FTy.f64, .f32, .f16, .bf16] →
    let top := 2 ^ (floatBits t - 1)
    Computes (.fmin h t d a b) (fltCalc h t d a b fun x y _ => extremeOf t false x y) .var
    ∧ Computes (.fmax h t d a b) (fltCalc h t d a b fun x y _ => extremeOf t true x y) .var
    ∧ Computes (.fabs h t d a) (fltCalc1 h t d a fun x => (x % top, 0)) .var
    ∧ Computes (.fneg h t d a) (fltCalc1 h t d a fun x => (if x < top then x + top else x - top, 0)) .var
    ∧ Computes (.fcpys h t d a b) (fltCalc h t d a b fun x y _ => (x % top + y / top * top, 0)) .var
    ∧ Computes (.fclass h t d a) (fltCalc1 h t d a fun x => (classBit t x, 0)) .var
    ∧ (∀ rm, rm ≠ .dr → Computes (.frnd h t rm d a) (fltCalc1 h t d a (integralOf t rm)) .var)
    ∧ Computes (.fscalb h t d a b)
        { fltCalc h t d a b (fun x y _ => scaledOf t x (if y < top then (y : Int) else (y : Int) - 2 ^ floatBits t)) with
          b := (b, .int (floatBits t)) } .var)
  ∧ (∀ (h : Hd) (c : FCmp) (t : FTy) (d a b : Opnd),
    let n := floatBits t
    Computes (.fcmp h c t d a b)
      { fltCalc h t d a b (fun _ _ _ => (0, 0)) with
        f := fun _ x y _ => gatherN 1 (64 / n) fun k =>
          let r := comparedBy c (fDecode t (sub n x k)) (fDecode t (sub n y k))
          (if r.1 then 1 else 0, r.2) } .var)

/-- Conversions of as many elements as both types have, gathered at the bottom of d (R94). -/
def Obligations.ConversionWords : Prop :=
  ∀ (h : Hd) (rm : Rnd) (d a : Opnd),
    (∀ (dst src : FTy) (sat : Bool),
      let n := Nat.min (64 / floatBits src) (64 / floatBits dst)
      Computes (.cvtFloatFloat h dst src rm sat d a)
        { fltCalc1 h src d a (fun _ => (0, 0)) with
          lat := some (if src = .f64 ∨ dst = .f64 then 8 else 6)
          f := fun t x _ _ => gatherN (floatBits dst) n fun k =>
            convFloat dst src rm sat (2 * ditherD.getD ((n * t + k) % 64) 0 + 1) (sub (floatBits src) x k) } .var)
    ∧ (rm ≠ .dr → ∀ (it : ITy) (ft : FTy),
      let n := Nat.min (64 / floatBits ft) (64 / intSize it)
      Computes (.cvtIntegerFloat h it ft true rm d a)
        { fltCalc1 h ft d a (fun _ => (0, 0)) with
          f := fun _ x _ _ => gatherN (intSize it) n fun k => convToInt ft it rm (sub (floatBits ft) x k) } .var
      ∧ Computes (.cvtIntegerFloat h it ft false rm d a)
        { fltCalc1 h ft d a (fun _ => (0, 0)) with
          a := (a, .int (intSize it))
          f := fun _ x _ _ => gatherN (floatBits ft) n fun k => convFromInt it ft rm (sub (intSize it) x k) } .var)

/-- The quantisers and their inverses (R95–R99). -/
def Obligations.QuantisationWords : Prop :=
  ∀ (h : Hd) (d a b : Opnd),
    (∀ dr : Bool, Computes (.qnq4 h dr d a b) (quantCalc h d a b d (.flt .bf16) fun x y w =>
      let i := fun k => ctlField y 32 6 + k + ctlField y 40 6
      let r := gatherN 4 4 fun k =>
        quantNq4 (fDecode .bf16 (sub 16 x k)) (scaleIn y) (if dr then some (ditherAt (i k)) else none)
      (replaceField w (16 * ctlField y 48 2) 16 r.1.toNat, r.2)) .var)
    ∧ Computes (.dqnq4 h d a b) (quantCalc h d a b .z (.int 64) fun x y _ =>
        gatherN 16 4 fun k => dequantNq4 (sub 4 x (4 * ctlField y 48 2 + k)) (scaleIn y)) .var
    ∧ ∀ t ∈ [FTy.e4m3, .e5m2],
      (∀ dr : Bool, Computes (.qe8 h t dr d a b) (quantCalc h d a b d (.flt .bf16) fun x y w =>
        let i := fun k => ctlField y 32 6 + k + ctlField y 40 6
        let r := gatherN 8 4 fun k => quantE8 t (fDecode .bf16 (sub 16 x k)) (scaleIn y) (if dr then .dr else .rne)
          (2 * ditherD.getD (i k % 64) 0 + 1)
        (replaceField w (32 * ctlField y 48 1) 32 r.1.toNat, r.2)) .var)
      ∧ Computes (.dqe8 h t d a b) (quantCalc h d a b .z (.int 64) fun x y _ =>
          gatherN 16 4 fun k => dequantE8 t (sub 8 x (4 * ctlField y 48 1 + k)) (scaleIn y)) .var

/-- Dot products and sums, each an exact sum rounded once, and the packing words (R100–R102). Infinities of both signs raise IV also
beside a quiet NaN (log 28, DEDUCED), and a constant source of UNPACK is a raw word (log 27, DEDUCED). -/
def Obligations.SumWords : Prop :=
  ∀ (h : Hd) (d a b : Opnd),
    (∀ t ∈ [FTy.bf16, .f16, .e4m3, .e5m2],
      let n := 32 / floatBits t
      Computes (.dot h t d a b)
        { fltCalc h t d a b (fun _ _ _ => (0, 0)) with
          w := (d, .flt .f32)
          f := fun _ x y w => gatherN 32 2 fun j =>
            let ps := (List.range n).map fun k =>
              fvMul (fDecode t (sub (floatBits t) x (n * j + k))) (fDecode t (sub (floatBits t) y (n * j + k)))
            let r := sumOf .f32 .rne (fDecode .f32 (sub 32 w j) :: ps.map (·.1))
            (r.1, ps.foldl (fun f p => f ||| p.2) r.2) } .var)
    ∧ (∀ t ∈ [FTy.f32, .bf16, .f16],
      let n := floatBits t
      Computes (.fsum h t d a b)
        { fltCalc h t d a b (fun _ _ _ => (0, 0)) with
          b := (b, .flt .f32)
          f := fun _ x y _ => gatherN 32 1 fun _ =>
            sumOf .f32 .rne (fDecode .f32 (sub 32 y 0) :: (List.range (64 / n)).map fun k => fDecode t (sub n x k)) } .var)
    ∧ ∀ w : PackW,
      Computes (.pack h w d a b) (quantCalc h d a b .z (.int 64) fun x y _ =>
        (BitVec.ofNat 64 (x.toNat % 2 ^ widthOf w + y.toNat % 2 ^ widthOf w * 2 ^ widthOf w), 0)) .var
      ∧ Computes (.unpack h w d a b) (quantCalc h d a b .z (.int 64) fun x y _ =>
        (BitVec.ofNat 64 (sub (widthOf w) x (y.toNat % (64 / widthOf w))), 0)) .var

/-! ### Special functions and random numbers -/

/-- RCP, correctly rounded, EXP2, step by step, the merge of LSE2 and the numbers of RNG (R107–R112). LSE2 of a and b equals
LSE2 of b and a, bit for bit (R111); the flags of the merge are those of its FP32 steps, its maximum takes −0 below +0, and a
partial of maximum −∞ whose sum is infinite contributes +0 (log 29, DEDUCED). -/
def Obligations.ExactFunctions : Prop :=
  (∀ (h : Hd) (d a b : Opnd),
    (∀ t : STy, Computes (.rcp h t d a) (specCalc h t d a inverseOf) .var
      ∧ Computes (.exp2 h t d a) (specCalc h t d a expTwo) .var)
    ∧ Computes (.lse2 h d a b)
        { fltCalc h .f32 d a b (fun _ _ _ => (0, 0)) with
          pipe := .m
          lat := some 12
          f := fun _ x y _ =>
            let r := mergeOf (sub 32 x 0) (sub 32 x 1) (sub 32 y 0) (sub 32 y 1)
            (BitVec.ofNat 64 (r.1 + r.2.1 * 2 ^ 32), r.2.2) } .var
    ∧ Computes (.rngB64 h d a b) (rngCalc h d a b fun z => z) .var
    ∧ Computes (.rngF32 h d a b) (rngCalc h d a b fun z => (gatherN 32 2 fun k =>
        (if sub 32 z k < 256 then 0 else (roundRat .f32 .rne 0 ((sub 32 z k / 256 : Nat) / 2 ^ 24)).1, 0)).1) .var
    ∧ Computes (.rngBf16 h d a b) (rngCalc h d a b fun z => (gatherN 16 4 fun k =>
        (if sub 16 z k < 256 then 0 else (roundRat .bf16 .rne 0 ((sub 16 z k / 256 : Nat) / 2 ^ 8)).1, 0)).1) .var)
  ∧ ∀ ma sa mb sb : Nat, ma < 2 ^ 32 → sa < 2 ^ 32 → mb < 2 ^ 32 → sb < 2 ^ 32 → lse2Of ma sa mb sb = lse2Of mb sb ma sa
      ∧ mergeOf ma sa mb sb = mergeOf mb sb ma sa

/-- The other special functions: where they may issue they complete, and the special values and exact cases of R108 hold for
every NaN, every negative number, every infinity and every large argument. Elsewhere a result is a free value inside the bound of
R108 (log 7): the next statements give the bounds. -/
def Obligations.BoundedFunctions : Prop :=
  (∀ (h : Hd) (t : STy) (d a : Opnd),
    Computes (.sqrt h t d a) (specCalc h t d a sqrtOf) .var ∧ Computes (.rsq h t d a) (specCalc h t d a rsqOf) .var
    ∧ Computes (.log2 h t d a) (specCalc h t d a log2Of) .var ∧ Computes (.sin h t d a) (specCalc h t d a (trigOf false)) .var
    ∧ Computes (.cos h t d a) (specCalc h t d a (trigOf true)) .var
    ∧ Computes (.tanh h t d a) (specCalc h t d a tanhOf) .var)
  ∧ ∀ c < 2 ^ 32,
    let v := fDecode .f32 c
    let x := ratOf v
    let nan := ((nanCode .f32, fIV) : Nat × Flags)
    let minusZero := withSign .f32 true 0
    (∀ sig, v = .nan sig → ∀ f ∈ [sqrtOf, rsqOf, log2Of, trigOf false, trigOf true, tanhOf],
      f c = (nanCode .f32, if sig then fIV else 0))
    ∧ (v = .inf true ∨ isNum v = true ∧ x < 0 → ∀ f ∈ [sqrtOf, rsqOf, log2Of], f c = nan)
    ∧ (∀ neg, v = .inf neg → trigOf false c = nan ∧ trigOf true c = nan
        ∧ tanhOf c = (withSign .f32 neg 0x3F800000, 0))
    ∧ (v = .inf false → sqrtOf c = (infCode .f32, 0) ∧ rsqOf c = (0, 0) ∧ log2Of c = (infCode .f32, 0))
    ∧ (c = 0 → sqrtOf c = (0, 0) ∧ rsqOf c = (infCode .f32, fDZ) ∧ trigOf false c = (0, 0) ∧ tanhOf c = (0, 0))
    ∧ (c = minusZero → sqrtOf c = (c, 0) ∧ rsqOf c = (withSign .f32 true (infCode .f32), fDZ) ∧ trigOf false c = (c, 0)
        ∧ tanhOf c = (c, 0))
    ∧ (c = 0 ∨ c = minusZero → log2Of c = (withSign .f32 true (infCode .f32), fDZ) ∧ trigOf true c = (0x3F800000, 0))
    ∧ (isNum v = true → 19 / 2 ≤ |x| → tanhOf c = (withSign .f32 (decide (x < 0)) 0x3F800000, fIX))
    ∧ (∀ i : Int, isNum v = true → x = 2 ^ i → ratOf (fDecode .f32 (log2Of c).1) = i ∧ (log2Of c).2 = 0)
    ∧ (isNum v = true → x = 1 → log2Of c = (0, 0))
    ∧ ∀ i : Int, isNum v = true → x = 2 ^ (2 * i) → ratOf (fDecode .f32 (rsqOf c).1) = 2 ^ (-i) ∧ (rsqOf c).2 = 0

/-- The bounds of R108, against the real functions: RSQ within 1 ulp, LOG2 and TANH within 2 ulp, SIN and COS within 2^−22 of
every finite argument. Inside a bound the result is a free value, and an ulp is that of the exact value's binade (log 7, DESIGN
CHOICE). -/
def Obligations.FunctionBounds : Prop :=
  ∀ c < 2 ^ 32, isNum (fDecode .f32 c) = true →
    let x : ℝ := (ratOf (fDecode .f32 c) : ℝ)
    (0 < x → NearUlps (rsqOf c).1 (1 / Real.sqrt x) 1 ∧ NearUlps (log2Of c).1 (Real.logb 2 x) 2)
    ∧ NearUlps (tanhOf c).1 (Real.tanh x) 2
    ∧ NearFixed (trigOf false c).1 (Real.sin x) ∧ NearFixed (trigOf true c).1 (Real.cos x)

/-- SQRT is correctly rounded (R108): no number of the format lies nearer to the root than the result, and IX is raised exactly
where the result is not the root. -/
def Obligations.RootIsRounded : Prop :=
  ∀ c < 2 ^ 31, isNum (fDecode .f32 c) = true → ratOf (fDecode .f32 c) ≠ 0 →
    let x := ratOf (fDecode .f32 c)
    let y := ratOf (fDecode .f32 (sqrtOf c).1)
    isNum (fDecode .f32 (sqrtOf c).1) = true ∧ 0 < y ∧ ((sqrtOf c).2 = if y ^ 2 = x then 0 else fIX)
    ∧ ∀ k < 2 ^ 31, isNum (fDecode .f32 k) = true →
        let z := ratOf (fDecode .f32 k)
        (y < z → x < ((y + z) / 2) ^ 2) ∧ (z < y → ((y + z) / 2) ^ 2 < x)

/-! ### Cross-lane words -/

/-- The words that move elements and registers between threads (R115, R116, R120, R121), and SAMPLE (R113). Votes of the
active threads (R117). A constant index of SHUF or selection of COMPRESS and EXPAND is replicated into every sub-element, and a
constant of BCAST is a raw word (log 27, DEDUCED). -/
def Obligations.LaneWords : Prop :=
  (∀ (h : Hd) (d a b : Opnd),
    (∀ w : LaneW,
      let n := shufBits w
      LaneComputes (.shuf h w d a b) (laneCalc h d a b (.int 64) (.int n) fun l => l.each fun t =>
        ofSub n fun k => l.el n (sub n (l.b t) k % (32 * (64 / n))))
      ∧ LaneComputes (.bcast h w d a b) { laneCalc h d a b (.int 64) (.int 64) (fun l => l.each fun _ =>
          ofSub n fun _ => l.el n ((l.b l.first).toNat % (32 * (64 / n)))) with uniB := true })
    ∧ LaneComputes (.rdlane h d a b)
        { laneCalc h d a b (.int 64) (.int 64) (fun l => l.all d (l.el 64 l.named)) with uniB := true, gOk := true }
    ∧ LaneComputes (.wrlane h d a b)
        { laneCalc h d a b (.int 64) (.int 64) (fun l t => if t = l.named then l.each l.a t else none) with uniB := true }
    ∧ (∀ wide : Bool,
      let n := if wide then 64 else 32
      LaneComputes (.compressCnt h wide d a) (laneCalc h d a .z (.int n) (.int 64) fun l => l.each fun _ =>
        BitVec.ofNat 64 ((l.list n l.a).filter (·.2)).length)
      ∧ LaneComputes (.compress h wide d a b) (laneCalc h d a b (.int 64) (.int n) fun l => l.each fun t =>
          ofSub n fun k => compressAt (l.list n l.b) (l.place n t k))
      ∧ LaneComputes (.expand h wide d a b) (laneCalc h d a b (.int 64) (.int n) fun l => l.each fun t =>
          ofSub n fun k => expandAt (l.list n l.b) (l.place n t k)))
    ∧ (∀ w : PermW,
      let n := permWidth w
      LaneComputes (.subperm h w d a b) (laneCalc h d a b (.int 64) (.int 64) fun l => l.each fun t =>
        ofSub n fun k => sub n (l.a t) (sub 4 (l.b t) k % (64 / n))))
    ∧ ∀ ty : STy, LaneComputes (.sample h ty d a b)
        { laneCalc h d a b (.flt (specType ty)) (.flt .f32) (fun l => l.each fun _ => (drawn (specType ty) l).1) with
          uniB := true, lat := 12, flags := fun l => (drawn (specType ty) l).2 })
  ∧ (∀ (h : Hd) (d a : Opnd),
    LaneComputes (.voteAny h d a) (voteCalc h d a fun l => truth (l.act.threads.any fun t => l.a t ≠ 0))
    ∧ LaneComputes (.voteAll h d a) (voteCalc h d a fun l => truth (l.act.threads.all fun t => l.a t ≠ 0))
    ∧ LaneComputes (.voteBallot h d a) (voteCalc h d a ballot)
    ∧ LaneComputes (.voteEq h d a) (voteCalc h d a fun l => truth (l.act.threads.all fun t => l.a t = l.a l.first)))

/-- Reductions and scans over the active threads in ascending order (R118, R119). Infinities of both signs raise IV also beside a
quiet NaN (log 28, DEDUCED), and a signalling NaN outside every prefix of GSCAN.excl raises none (log 32, DEDUCED). -/
def Obligations.ReductionWords : Prop :=
  ∀ (h : Hd) (op : RedOp) (ty : RTy) (d a : Opnd), (Instr.gred h op ty d a).wellFormed = true →
    let all := fun l : Lanes => gatherEls (rBits ty) fun k => reduce op ty (l.members (rBits ty) k l.act.threads)
    LaneComputes (.gred h op ty d a) (redCalc h ty d a true (fun l => l.all d (all l).1) fun l => (all l).2)
    ∧ ∀ excl : Bool, LaneComputes (.gscan h op ty excl d a)
        (redCalc h ty d a false (fun l => l.each fun t => (scanOf op ty excl l t).1) fun l =>
          l.act.threads.foldl (fun f t => f ||| (scanOf op ty excl l t).2) 0)

/-! ### Level words -/

/-- The level words read the mapping and the split's counters, and LVNEXT counts (R203–R206). -/
def Obligations.LevelWords : Prop :=
  ∀ (h : Hd) (d : Opnd) (lv : Fin 8),
    let same := fun (_ : Launch) (sp : Split) => sp
    let any := fun _ : Launch => true
    (∀ sel, Levels (.rdmap h sel d lv) h d lv true (fun s pl l g _ _ => mapValue s pl l g lv.val sel) same any)
    ∧ Levels (.lvext h d lv) h d lv true (fun _ _ l _ _ _ => lvExt l lv.val) same any
    ∧ Levels (.lvidx h d lv) h d lv false (fun _ _ l g sp t => BitVec.ofNat 64 (logicalIndex l g sp lv.val t)) same any
    ∧ Levels (.lvfirst h d lv) h d lv false (fun _ _ l g _ t => truth (parallel l g lv.val t = 0)) same any
    ∧ Levels (.lvbuf h d lv) h d lv false (fun s pl l g _ t => tscrOf s pl.core g
        + BitVec.ofNat 64 (bufferBase l lv.val + instanceOf l g lv.val t * (lvBuf l lv.val).toNat)) same
        (fun l => shares l lv.val)
    ∧ Levels (.lvnext h d lv) h d lv false
        (fun _ _ l g sp t => truth (loopCount sp lv.val + 1 < (lvSeq l lv.val).toNat
          ∧ (loopCount sp lv.val + 1) * (lvPar l lv.val).toNat + parallel l g lv.val t < (lvExt l lv.val).toNat))
        (fun l sp => withCounter sp lv.val
          (if loopCount sp lv.val + 1 < (lvSeq l lv.val).toNat then loopCount sp lv.val + 1 else (lvSeq l lv.val).toNat - 1)) any
    ∧ ∀ s pl g sp l, Issues s pl g sp → Calm g → launchOf s g.launch = some l → lv.val < l.nlev →
        ∃ t, exec (.lvfor h lv) s = .next t
          ∧ Passed s t pl g (withCounter sp lv.val 0) h 1 (nextPos sp.pc sp.word)

/-! ### Memory words -/

/-- Loads, and the reads of full words (R144, R154). That the load is performed when its word issues is log 8 (DEDUCED, unsafe).
Tenders, endpoint windows (O36) and an FRD that waits (O36) are left out here. -/
def Obligations.LoadWords : Prop :=
  ∀ (h : Hd) (t : Opnd) (b : Fin 8) (x : Opnd) (scale : BitVec 2),
    (∀ sz (disp : BitVec 3),
      let w := fun op : MemOp => MemWord.mk op (szBytes sz) t (.int 64) b x scale disp.toNat
      Loads (.ld h sz t b x scale disp) h (w (.ld false)) false ∧ Loads (.lds h sz t b x scale disp) h (w (.ld true)) true)
    ∧ ReadsFull (.frd h t b x scale) h ⟨.frd, 8, t, .int 64, b, x, scale, 0⟩

/-- Words whose accesses are performed later: stores, FWR, FCLR, and atomics that discard the old value (R135, R144, R147,
R154). That they join the group's pending accesses and change memory later is log 8 (DEDUCED, unsafe). -/
def Obligations.StoreWords : Prop :=
  ∀ (h : Hd) (t : Opnd) (b : Fin 8) (x : Opnd) (scale : BitVec 2),
    (∀ sz (disp : BitVec 3),
      let w : MemWord := ⟨.st, szBytes sz, t, .int (8 * szBytes sz), b, x, scale, disp.toNat⟩
      Queues (.st h sz t b x scale disp) h w fun s g sp P k =>
        storeAccs (addrOf s g sp w k) (dataOf s g sp w k).toNat (P k))
    ∧ (let w : MemWord := ⟨.fwr, 8, t, .int 64, b, x, scale, 0⟩
      Queues (.fwr h t b x scale) h w fun s g sp => oneAcc s g sp w fun v _ => .fwr v)
    ∧ (let w : MemWord := ⟨.fclr, 8, .z, .int 64, b, x, scale, 0⟩
      Queues (.fclr h b x scale) h w fun s g sp => oneAcc s g sp w fun _ _ => .fclr)
    ∧ ∀ wide : Bool,
      let n := if wide then 8 else 4
      let q := fun (i : Instr) (op n : Nat) (c : Conv) =>
        let w : MemWord := ⟨.rmw op, n, .z, c, b, x, scale, 0⟩
        Queues i h w fun s g sp => oneAcc s g sp w fun v y => .rmw op v y
      q (.aadd h wide .z b x scale) 0 n (.int (8 * n)) ∧ q (.aand h wide .z b x scale) 1 n (.int (8 * n))
      ∧ q (.aor h wide .z b x scale) 2 n (.int (8 * n)) ∧ q (.axor h wide .z b x scale) 3 n (.int (8 * n))
      ∧ q (.axch h wide .z b x scale) 4 n (.int (8 * n)) ∧ q (.aminS h wide .z b x scale) 5 n (.int (8 * n))
      ∧ q (.amaxS h wide .z b x scale) 6 n (.int (8 * n)) ∧ q (.aminZ h wide .z b x scale) 8 n (.int (8 * n))
      ∧ q (.amaxZ h wide .z b x scale) 9 n (.int (8 * n))
      ∧ q (.afadd h wide .z b x scale) 10 n (.flt (if wide then .f64 else .f32))
      ∧ q (.abinc h .z b x scale) 11 4 (.int 32) ∧ q (.apmax h .z b x scale) 12 8 (.int 64)

/-- Atomics with a destination: the new memory value, and what t receives (R148–R152). That the atomic is performed when its word
issues, after the group's pending accesses, is log 8 (DEDUCED, unsafe); destination z is O33's. -/
def Obligations.AtomicWords : Prop :=
  ∀ (i : Instr) (h : Hd) (w : MemWord) (op : Nat), memWordOf i = some (h, w) → w.op = .rmw op →
    Atomics i h w (fun old v _ => receives op w.n old v) (newValue op w.n)

/-- The oldest access that a group has issued is performed, and touches only its bytes and its full/empty bit; FWR wakes every
waiter on its word (R144, R154, R156, R165), whose split repeats its word. That it is performed after its word has gone by, in
the group's order, is the model's reading (log 8, DEDUCED). -/
def Obligations.AccessIsPerformed : Prop :=
  ∀ (s : State) (c slot : Nat) (g : Group) (a : PendAcc) (r : List PendAcc), groupAt s c slot = some g → g.pend = a :: r →
    ∃ t, exec (.accessPerformed c slot) s = .next t
      ∧ (∀ x, a.op = .fwr x → (∀ d, ∀ w ∈ (coreOf t d).room, w.loc ≠ a.loc)
          ∧ ∀ d, ∀ w ∈ (coreOf s d).room, w.loc = a.loc → ∀ y z, groupAt s d w.slot = some y → splitAt y w.split = some z →
              z.wait = some .reading → ∃ y' z', groupAt t d w.slot = some y' ∧ splitAt y' w.split = some z' ∧ z'.wait = none)
      ∧ (NoWaiters s →
          (∀ loc, memByte t loc = accessBytes (memByte s) a loc)
          ∧ (∀ loc, isFull t loc = accessFull (isFull s) a loc)
          ∧ { t with mem := [], lines := [], full := [], cores := [] } = { s with mem := [], lines := [], full := [], cores := [] }
          ∧ (∀ d, { quietCache (coreOf t d) with slots := [] } = { quietCache (coreOf s d) with slots := [] })
          ∧ (∀ d n, (d, n) ≠ (c, slot) → groupAt t d n = groupAt s d n)
          ∧ ∃ g', groupAt t c slot = some g' ∧ g'.pend = r ∧ { g' with pend := [], splits := [] } = { g with pend := [], splits := [] }
              ∧ (r ≠ [] → g'.splits = g.splits))

/-- WAITM goes by where its condition holds and waits in the reading room where it does not, as FRD does at an empty word
(R155, R182, R183); the words of endpoint windows (R157–R160); PREF has no effect (R146); TRB writes BASE and clears V, and the
rest of the register when its translation is there (R130). That a load is performed as its word issues is log 8, that PREF
brings no line log 39, and that BASE keeps all 64 bits log 52 (each DEDUCED). -/
def Obligations.OtherMemoryWords : Prop :=
  ∀ (h : Hd) (t : Opnd) (b : Fin 8) (x : Opnd) (scale : BitVec 2),
    (∀ cond wide, let n := if wide then 8 else 4
      let i := Instr.waitm h cond wide t b x scale
      let w : MemWord := ⟨.waitm cond, n, t, .int (8 * n), b, x, scale, 0⟩
      PassesWhen i h w cond
      ∧ ∀ s pl g sp g0 P, Issues s pl g sp → MemReady s pl g sp w → AllOk s pl g sp w P →
          (∀ k ∈ memKeys sp w, P k = [(placeOf P k, n)]) →
          let s0 := settledState s pl g sp w
          AccessGroup s0 pl g0 → Coherent s0 pl.core → NoPoison s0 sp w P →
          let fails := (memKeys sp w).filter fun k => !waitHolds cond n (bytesAt (memByte s0) (placeOf P k) n) (dataOf s g sp w k)
          fails ≠ [] → RoomFor s0 pl fails.length →
          ∃ s1 u, exec i s = .next u ∧ Served s0 s1
            ∧ Reading s1 u pl g0 sp .reading false fails (fun k => placeOf P k / 8 * 8) (owedAfter pl .z []))
    ∧ (let w : MemWord := ⟨.frd, 8, t, .int 64, b, x, scale, 0⟩
      ∀ s pl g sp g0 P, Issues s pl g sp → MemReady s pl g sp w → AllOk s pl g sp w P →
        let s0 := settledState s pl g sp w
        AccessGroup s0 pl g0 → NoPoison s0 sp w P →
        let ready := (memKeys sp w).filter fun k => isFull s0 (placeOf P k)
        let empty := (memKeys sp w).filter fun k => !isFull s0 (placeOf P k)
        empty ≠ [] → RoomFor s0 pl empty.length →
        ∃ s1 u, exec (.frd h t b x scale) s = .next u ∧ Served s0 s1
          ∧ Reading s1 u pl g0 sp .reading true empty (placeOf P)
              (owedAfter pl t (ready.map fun k => (k, BitVec.ofNat 64 (bytesAt (memByte s0) (placeOf P k) 8)))))
    ∧ (∀ disp : BitVec 3,
      let w : MemWord := ⟨.st, 8, t, .int 64, b, x, scale, disp.toNat⟩
      let i := Instr.st h .b64 t b x scale disp
      ∀ s pl g sp g0 q (pa : Nat → Nat), Issues s pl g sp → MemReady s pl g sp w →
        (∀ k ∈ memKeys sp w, WinOk s pl g sp w k (pa k) ∧ windowOf (pa k) = .send q) →
        let s0 := settledState s pl g sp w
        let words := (memKeys sp w).map fun k => (dataOf s g sp w k, (pa k).testBit 12)
        AccessGroup s0 pl g0 → memKeys sp w ≠ [] →
        (NoWaiters s0 → (∀ k ∈ s0.cores, ∀ j ∈ k.2.copies, j.win ≠ some (sendBase q)) →
          (wordsIn (queueOf s0 q)).length + (queueOf s0 q).opened.length + words.length ≤ 512 →
          ∃ s1 u, exec i s = .next u ∧ QueueMoved s0 s1 q ∧ queueOf s1 q = putWords (queueOf s0 q) words
            ∧ Wrote s1 u pl g0 sp h (memOcc sp w) .z [] (fun _ => none) 0 [])
        ∧ (512 ≤ (wordsIn (queueOf s0 q)).length + (queueOf s0 q).opened.length → RoomFor s0 pl 1 →
          ∃ u, exec i s = .next u
            ∧ Reading s0 u pl g0 sp (.endpoint (sendBase q)) false (memKeys sp w) (fun _ => sendBase q) (owedAfter pl .z [])))
    ∧ (∀ disp : BitVec 3,
      let w : MemWord := ⟨.ld false, 8, t, .int 64, b, x, scale, disp.toNat⟩
      let i := Instr.ld h .b64 t b x scale disp
      ∀ s pl g sp g0 q (pa : Nat → Nat), Issues s pl g sp → MemReady s pl g sp w →
        (∀ k ∈ memKeys sp w, WinOk s pl g sp w k (pa k) ∧ windowOf (pa k) = .recv q) →
        let s0 := settledState s pl g sp w
        let old := queueOf s0 q
        AccessGroup s0 pl g0 → memKeys sp w ≠ [] →
        ((∀ k ∈ memKeys sp w, (pa k).testBit 12 = false) →
          (NoWaiters s0 → NoReceived s0 → (∀ p ∈ old.closed, p.words ≠ []) → (memKeys sp w).length ≤ (wordsIn old).length →
            ∃ s1 u, exec i s = .next u ∧ QueueMoved s0 s1 q
              ∧ wordsIn (queueOf s1 q) = (wordsIn old).drop (memKeys sp w).length ∧ (queueOf s1 q).opened = old.opened
              ∧ Wrote s1 u pl g0 sp h (memOcc sp w) t (memKeys sp w) (fun _ => none) 0
                  (owedBy pl t ((memKeys sp w).zip (wordsIn old))))
          ∧ (old.closed = [] → RoomFor s0 pl 1 →
            ∃ u, exec i s = .next u
              ∧ Reading s0 u pl g0 sp (.endpoint (recvBase q)) false (memKeys sp w) (fun _ => recvBase q) (owedAfter pl t [])))
        ∧ ((∀ k ∈ memKeys sp w, (pa k).testBit 12 = true) → (wordsIn old).length < 2 ^ 16 →
          ∃ s1 u, exec i s = .next u ∧ QueueMoved s0 s1 q ∧ queueOf s1 q = old
            ∧ Wrote s1 u pl g0 sp h (memOcc sp w) t (memKeys sp w) (fun _ => none) 0
                (owedBy pl t ((memKeys sp w).map fun k => (k, statusOf old)))))
    ∧ (∀ l2 sz disp s pl g sp, Issues s pl g sp → Calm g → namesBad g [x] = false → tenderNeeds g sp [x] = false →
        (trbPending g b.val = false → ∃ u, exec (.pref h l2 sz b x scale disp) s = .next u
          ∧ Passed s u pl g sp h (if isUniform x then 1 else perThreadOcc sp.mask) (nextPos sp.pc sp.word))
        ∧ (trbPending g b.val = true → ∃ u, exec (.pref h l2 sz b x scale disp) s = .next u ∧ Waits s u pl g sp (.trb b.val)))
    ∧ (∀ s pl g sp, Issues s pl g sp → Calm g → UniformSrcs g sp pl.split [x] →
        ∃ u, exec (.trb h b x) s = .next u
          ∧ Passed s u pl { g with
              tregs := tabPut b.val { tabGet TReg.reset g.tregs b.val with base := once s g sp x, v := false } g.tregs
              trbs := g.trbs.filter (fun y => y.n != b) ++ [{ n := b, a := once s g sp x, g := (partOf s g.part).gen }] }
            sp h 1 (nextPos sp.pc sp.word))
    ∧ ∀ s c slot g k p, groupAt s c slot = some g → g.trbs[k]? = some p → p.g = (partOf s g.part).gen →
        ∃ u g' y, exec (.trbComplete c slot k) s = .next u ∧ groupAt u c slot = some g' ∧ g'.trbs = g.trbs.eraseIdx k
          ∧ tabGet TReg.reset g'.tregs p.n.val = y ∧ y.base = p.a
          ∧ (∀ n, n ≠ p.n.val → tabGet TReg.reset g'.tregs n = tabGet TReg.reset g.tregs n)
          ∧ (y.v = false → { tabGet TReg.reset g.tregs p.n.val with base := p.a, v := false } = y)
          ∧ (isCanonical p.a = false → y.v = false)
          ∧ (isCanonical p.a = true → inAperture p.a = true →
              y.v = true ∧ y.psz = 3 ∧ y.rd = true ∧ y.wr = true ∧ y.mt = 0 ∧ y.pa = BitVec.ofNat 52 (p.a - 0xFFFFFFFFFFC00000).toNat)
          ∧ (isCanonical p.a = true → inAperture p.a = false →
              match transPage s c g.part p.a with
              | .ok l => y.v = true ∧ y.pa = BitVec.ofNat 52 l.loc ∧ y.mt = l.mt ∧ y.rd = l.r ∧ y.wr = l.w
              | _ => y.v = false)

/-- Where a memory word stops (R130, R134, R138, R155, R168, R348): PROT at the lowest non-canonical address, then ALIGN at
the lowest misaligned one, then the first cause of the lowest thread that has one, with that thread's address; a page fault
parks the split and is reported to Jalov; a rebase or a TRB of its register holds it. What an access reaches and its causes, from
the physical map, the page table, the aperture and the translation registers on (R122–R129, R134, R141): a second part that is
not canonical, an endpoint's address on a page of another type and the rank of FUTURE are readings of log 39, and the frames of
the second tier of log 2 (DEDUCED, DESIGN CHOICE). -/
def Obligations.MemoryStops : Prop :=
  (∀ (i : Instr) (h : Hd) (w : MemWord) (s : State) (pl : Place) (g : Group) (sp : Split),
    memWordOf i = some (h, w) → Issues s pl g sp →
    (MemReady s pl g sp w →
      let va := fun k => (addrOf s g sp w k).toNat
      let canon := fun k => isCanonical (addrOf s g sp w k) = true
      let fine := fun k => canon k ∧ (w.op.aligned = true → (addrOf s g sp w k).toNat % w.n = 0)
      let chk := fun k => checkAcc s pl.core g w.op w.b.val w.n (addrOf s g sp w k)
      ∀ pre k post, memKeys sp w = pre ++ k :: post →
        (MayTrap s pl g →
          (¬ canon k → (∀ j ∈ memKeys sp w, ¬ canon j → va k ≤ va j) →
            ∃ t, exec i s = .next t ∧ Trapped s t pl g sp 0x12 0 0 (addrOf s g sp w k))
          ∧ ((∀ j ∈ memKeys sp w, canon j) → ¬ fine k → (∀ j ∈ memKeys sp w, ¬ fine j → va k ≤ va j) →
            ∃ t, exec i s = .next t ∧ Trapped s t pl g sp 0x10 0 0 (addrOf s g sp w k))
          ∧ ∀ c a, (∀ j ∈ memKeys sp w, fine j) → (∀ j ∈ pre, ∀ e x, chk j ≠ .bad e x) → chk k = .bad c a →
            ∃ t, exec i s = .next t ∧ Trapped s t pl g sp (causeCode c) 0 0 a)
        ∧ ∀ a0 g0, (∀ j ∈ memKeys sp w, fine j ∧ ∀ e x, chk j ≠ .bad e x) → pre = [] → chk k = .absent a0 →
            AccessGroup (accessState s pl g sp w) pl g0 →
            ∃ t g' sp' a, exec i s = .next t ∧ groupAt t pl.core pl.slot = some g' ∧ splitAt g' pl.split = some sp'
              ∧ sp'.wait = some (.fault a w.op.kind false) ∧ t.reports = (accessState s pl g sp w).reports
                  ++ [.fault g0.part (cgid g0) a w.op.kind]
              ∧ (∃ j ∈ memKeys sp w, chk j = .absent a) ∧ (∀ j ∈ memKeys sp w, ∀ b, chk j = .absent b → a.toNat ≤ b.toNat)
              ∧ (sp'.pc, sp'.word) = (sp.pc, sp.word) ∧ t.turn = none)
    ∧ (g.isTender = none → memOpspec g w = false → hazard g sp pl.split w.srcs (if sp.unfin.isNone then [w.dst] else []) = false →
        (s.held = true → ∃ t, exec i s = .next t ∧ Waits s t pl g sp .rebase)
        ∧ (s.held = false → trbPending g w.b.val = true → ∃ t, exec i s = .next t ∧ Waits s t pl g sp (.trb w.b.val))))
  ∧ ∀ (s : State) (c : Nat) (g : Group),
    (∀ va : Word, isCanonical va = true →
      (inAperture va = true ↔ 0xFFFFFFFFFFC00000 ≤ va.toNat)
      ∧ (inAperture va = false → transVa s c g va = transPage s c g.part va)
      ∧ (inAperture va = true →
          let o := va.toNat - 0xFFFFFFFFFFC00000
          (GranuleOf s c o g.launch → transVa s c g va = .ok (scratchLeaf c o))
          ∧ (¬ GranuleOf s c o g.launch → transVa s c g va = .bad (some (scratchLeaf c o))))
      ∧ ∀ part, (∃ out, Resolved s c part va out) ∧ ∀ out, Resolved s c part va out →
          (∀ e, out = .leaf e → (Frame s (placed e va).loc → transPage s c part va = .ok (placed e va))
            ∧ (¬ Frame s (placed e va).loc → transPage s c part va = .bad (some (placed e va))))
          ∧ (out = .absent → transPage s c part va = .absent) ∧ (out = .malformed → transPage s c part va = .bad none))
    ∧ ∀ (n : Fin 8) (ea : Word), let t := tabGet TReg.reset g.tregs n.val
      let o := (ea - t.base).toNat
      let size := [2 ^ 16, 2 ^ 21, 2 ^ 30].getD t.psz.toNat 0
      let inside := t.v = true ∧ o < (if t.psz = 3 then 2 ^ 22 - t.pa.toNat else size - t.base.toNat % size)
      (¬ inside → transVia s c g n.val ea = transVa s c g ea)
      ∧ (inside → t.psz ≠ 3 → ∃ x,
          let l : Leaf := { loc := t.pa.toNat + o, mt := t.mt, r := t.rd, w := t.wr, x := x }
          (Frame s l.loc → transVia s c g n.val ea = .ok l) ∧ (¬ Frame s l.loc → transVia s c g n.val ea = .bad (some l)))
      ∧ (inside → t.psz = 3 →
          (GranuleOf s c (t.pa.toNat + o) g.launch → transVia s c g n.val ea = .ok (scratchLeaf c (t.pa.toNat + o)))
          ∧ (¬ GranuleOf s c (t.pa.toNat + o) g.launch → transVia s c g n.val ea = .bad (some (scratchLeaf c (t.pa.toNat + o)))))
      ∧ ∀ (op : MemOp) (size : Nat), let k := 4096 - ea.toNat % 4096
        let chk := checkAcc s c g op n.val size ea
        let x := transVia s c g n.val ea
        (size ≤ k →
          (x = .absent → chk = .absent ea) ∧ (∀ a, x = .bad a → chk = .bad (refusedBy op a) ea)
          ∧ ∀ l, x = .ok l → (∀ e, refusal op size ea l = some e → chk = .bad e ea)
              ∧ (refusal op size ea l = none → chk = .ok (if l.mt = 2 then .win l.loc else .mem (linesOf l.loc size))))
        ∧ (k < size →
          let hi := ea + BitVec.ofNat 64 k
          let y := if isCanonical hi = true then transVia s c g n.val hi else .bad none
          let apart := inAperture ea ≠ inAperture hi ∨ (inAperture ea = true
            ∧ (ea.toNat - 0xFFFFFFFFFFC00000) / 2 ^ 20 ≠ (hi.toNat - 0xFFFFFFFFFFC00000) / 2 ^ 20)
          (apart ∨ Differ x y → chk = .bad .attrsplit ea)
          ∧ (¬ apart → ¬ Differ x y →
            (∀ e, partRefusal op size ea x = some e → chk = .bad e ea)
            ∧ (partRefusal op size ea x = none → (∀ e, partRefusal op size hi y = some e → chk = .bad e hi)
              ∧ (partRefusal op size hi y = none → (x = .absent → chk = .absent ea)
                ∧ (∀ l, x = .ok l → y = .absent → chk = .absent hi)
                ∧ ∀ l m, x = .ok l → y = .ok m → chk = .ok (.mem (linesOf l.loc k ++ linesOf m.loc (size - k)))))))

/-! ### Fences, barriers and the event queue -/

/-- The fences (R178): each goes by once the group's earlier memory words are performed; the wider ones renew the core's
logical time, FENCE.pod waits for the acknowledgements of the packets that the group had closed by then, FENCE.sys drops the partition's lines from the host read buffer, and
FENCE.eng waits for the call slips and moves the engine flags to FSTAT. -/
def Obligations.FenceWords : Prop :=
  ∀ (h : Hd) (s : State) (pl : Place) (g : Group) (sp : Split), Issues s pl g sp → Calm g →
    (Settled pl g sp →
      let goes := fun (sc : Scope) (s1 : State) (g1 : Group) =>
        ∃ t, exec (.fence h sc) s = .next t ∧ Passed s1 t pl g1 sp h 1 (nextPos sp.pc sp.word)
      let fresh := fun n : Nat => n = 1 + (coreOf s pl.core).l1.foldl (fun t x => Nat.max t x.2.e) (coreTime s pl.core)
      goes .core s g ∧ goes .lane s g
      ∧ (∀ n, fresh n → ∀ sc ∈ [Scope.quad, .die, .pkg], goes sc (setCoreTime s pl.core n) g)
      ∧ (∀ n, fresh n → goes .sys { setCoreTime s pl.core n with hostBuf := s.hostBuf.filter fun l => l.fn != g.part } g)
      ∧ (sp.stage ≠ 2 → ∀ n, fresh n → (g.acks = [] → goes .pod (setCoreTime s pl.core n) g)
          ∧ (g.acks ≠ [] → (∀ a ∈ g.acks, (portOf s (a.1 % 18)).failed = false) → ∃ t, exec (.fence h .pod) s = .next t
              ∧ Waits (setCoreTime s pl.core n) t pl g { begun g pl.split sp with stage := 2, vals := g.acks } .ack))
      ∧ (sp.stage = 2 → (∀ a ∈ g.acks, ∀ x ∈ sp.vals, x.1 ≠ a.1) → goes .pod s g)
      ∧ ((∀ y ∈ (coreOf s pl.core).slips, y.slot ≠ pl.slot) → g.copyErr = none → g.infeas = false →
          let f := g.fstat ||| g.engFlags.setWidth 13
          f.extractLsb' 0 5 &&& f.extractLsb' 8 5 = 0 → goes .eng s { g with fstat := f, engFlags := 0 }))
    ∧ (∀ sc, g.isTender = none → sp.stage ≠ 2 → (sp.stage = 0 → g.fstat.extractLsb' 0 5 &&& g.fstat.extractLsb' 8 5 = 0) → g.pend ≠ [] →
        ∃ t, exec (.fence h sc) s = .next t ∧ Waits s t pl g (begun g pl.split sp) (.performed 15))

/-- Barriers of every scope (R179–R181), for a group of one split: it arrives; the last arrival completes the generation, raises the
logical time of every core that arrived and lets the group go on, an earlier one waits, its cycles behind it (R177, R270); BARW
matches an arrival. At .core a count of 0 means the team's live groups, and in a phased team BAR is a phase boundary while BARA and
BARW trap with ILLOP (R330). Which launches form one pod job is fixed in Config (log 15, DESIGN CHOICE). A last split that meets
others elsewhere traps with ILLOP. -/
def Obligations.BarrierWords : Prop :=
  ∀ (h : Hd) (s : State) (pl : Place) (g : Group) (sp : Split), Issues s pl g sp → Calm g → Settled pl g sp →
    sp.stage ≠ 2 →
    let next := nextPos sp.pc sp.word
    (∀ a b, (OthersWait g pl.split .lane → ∃ t, exec (.bar h .lane a b) s = .next t
        ∧ Passed s t pl (passed g pl.split) sp h (sp.owes 1) next)
      ∧ (MeetsElsewhere g pl.split .lane → MayTrap s pl g →
        ∃ t, exec (.bar h .lane a b) s = .next t ∧ Trapped s t pl g sp 0x01 0 0 0))
    ∧ ∀ sc ∈ [Scope.core, .quad, .die, .pkg, .pod], ∀ a b : Opnd,
      let k := instanceKey pl.core g sc (once s g sp a)
      let bar := barOf s k
      let arr := arrivalOf s pl.core g
      let n := expectedOf bar (once s g sp b)
      let need := neededOf s pl.core g (sc == .core) n
      let b1 : Barrier := { bar with what := none, expected := n, arrivals := bar.arrivals ++ [arr] }
      (Alone g pl.split → UniformSrcs g sp pl.split [a, b] → (∀ x ∈ g.arrived, x.1 ≠ k) →
        bar.arrivals = [] ∨ bar.what = none →
        (bar.arrivals.length + 1 < need →
          (sc ≠ .core ∨ NotPhased s g →
            ∃ t, exec (.bara h sc a b) s = .next t ∧ Passed (setBar s k b1) t pl (arrivedAt g k bar.gen) sp h (sp.owes 1) next)
          ∧ ∃ t, exec (.bar h sc a b) s = .next t ∧ WaitsForBar (setBar s k b1) t pl (arrivedAt g k bar.gen) sp 1 k bar.gen)
        ∧ (need ≤ bar.arrivals.length + 1 →
          (sc ≠ .core ∨ NotPhased s g → ∃ s1 : State, CompletedBar s s1 k b1 b1.arrivals
            ∧ (∃ t, exec (.bara h sc a b) s = .next t ∧ Passed s1 t pl (arrivedAt g k bar.gen) sp h (sp.owes 1) next)
            ∧ ∃ t, exec (.bar h sc a b) s = .next t ∧ Passed s1 t pl (matched (arrivedAt g k bar.gen) k) sp h (sp.owes 1) next)
          ∧ (sc = .core → ¬ NotPhased s g → PhaseReady s pl.core g →
            ∃ t, exec (.bar h sc a b) s = .next t ∧ CompletedBar s t k b1 b1.arrivals ∧ AtPhase t pl next)))
      ∧ (UniformSrcs g sp pl.split [a] → sc ≠ .core ∨ NotPhased s g →
          ((∀ x ∈ g.arrived, x.1 ≠ k) → ∃ t, exec (.barw h sc a) s = .next t ∧ Passed s t pl g sp h 1 next)
          ∧ ∀ gen, Unmatched g k gen →
              (gen < bar.gen → ∃ t, exec (.barw h sc a) s = .next t ∧ Passed s t pl (matched g k) sp h (sp.owes 1) next)
              ∧ (bar.gen ≤ gen → Alone g pl.split → ∃ t, exec (.barw h sc a) s = .next t
                  ∧ Halts s t pl g (begun g pl.split sp) 1 (.barrier k gen))
              ∧ (bar.gen ≤ gen → MayTrap s pl g → (∃ w, MeetsElsewhere g pl.split w) →
                  (∃ p ∈ g.splits, p.1 ≠ pl.split ∧ ∀ k' n', p.2.wait ≠ some (.barrier k' n')) →
                  ∃ t, exec (.barw h sc a) s = .next t ∧ Trapped s t pl g sp 0x01 0 0 0))
      ∧ (sc = .core → ¬ NotPhased s g → MayTrap s pl g →
          (UniformSrcs g sp pl.split [a, b] → ∃ t, exec (.bara h sc a b) s = .next t ∧ Trapped s t pl g sp 0x01 0 0 0)
          ∧ (UniformSrcs g sp pl.split [a] → ∃ t, exec (.barw h sc a) s = .next t ∧ Trapped s t pl g sp 0x01 0 0 0))

/-- BARL and REDL (R207, R208): where no GROUP or LANE level lies at or inside the level BARL goes by; where the level is on
the lanes it waits for the group's other splits; where it is on the groups it arrives at the level's instance, as REDL does on a
GROUP level, whose last arrival gives every thread of every group the combined value of its number. REDL combines the active
threads on a LANE level and gives each its own value, combined with nothing, on a NONE level. Another word at a generation that
has begun traps with ILLOP. -/
def Obligations.LevelSync : Prop :=
  ∀ (h : Hd) (lv : Fin 8) (s : State) (pl : Place) (g : Group) (sp : Split) (l : Launch),
    Issues s pl g sp → Calm g → Settled pl g sp → launchOf s g.launch = some l → lv.val < l.nlev →
    (levelOf l lv.val).1.getLsbD 5 = true →
    let inside := fun n : Word => n ≠ 15 ∧ lv.val ≤ n.toNat
    let group := l.mapg >>> 8 &&& 15
    let lane := l.mapg >>> 4 &&& 15
    let next := nextPos sp.pc sp.word
    let k := BarKey.level g.launch g.team lv.val
    let bar := barOf s k
    let n := expectedOf bar 0
    let need := neededOf s pl.core g true n
    (¬ inside group → ¬ inside lane → ∃ t, exec (.barl h lv) s = .next t ∧ Passed s t pl g sp h (sp.owes 1) next)
    ∧ (¬ inside group → inside lane → sp.stage ≠ 2 → OthersWait g pl.split .lane →
        ∃ t, exec (.barl h lv) s = .next t ∧ Passed s t pl (passed g pl.split) sp h (sp.owes 1) next)
    ∧ (inside group → sp.stage ≠ 2 → Alone g pl.split → (∀ x ∈ g.arrived, x.1 ≠ k) →
        let b1 : Barrier := { bar with what := some .barl, expected := n, arrivals := bar.arrivals ++ [arrivalOf s pl.core g] }
        (bar.arrivals = [] ∨ bar.what = some .barl →
          (bar.arrivals.length + 1 < need →
            ∃ t, exec (.barl h lv) s = .next t ∧ WaitsForBar (setBar s k b1) t pl (arrivedAt g k bar.gen) sp 1 k bar.gen)
          ∧ (need ≤ bar.arrivals.length + 1 →
            (NotPhased s g → ∃ s1 t, exec (.barl h lv) s = .next t ∧ CompletedBar s s1 k b1 b1.arrivals
              ∧ Passed s1 t pl (matched (arrivedAt g k bar.gen) k) sp h (sp.owes 1) next)
            ∧ (¬ NotPhased s g → PhaseReady s pl.core g →
              ∃ t, exec (.barl h lv) s = .next t ∧ CompletedBar s t k b1 b1.arrivals ∧ AtPhase t pl next)))
        ∧ (bar.arrivals ≠ [] → bar.what ≠ some .barl → MayTrap s pl g →
          ∃ t, exec (.barl h lv) s = .next t ∧ Trapped s t pl g sp 0x01 0 0 0))
    ∧ ∀ (op : RedOp) (ty : RTy) (d a : Opnd), (Instr.redl h op ty d a lv).wellFormed = true → badDst d = false →
        namesBad g [d, a] = false → (∀ n, d ≠ .g n) → hazard g sp pl.split [a] (if sp.stage = 0 then [d] else []) = false →
        sp.mask ≠ 0 →
        let ts := sp.mask.threads
        let val := fun t => readOp g sp s.free (rConv ty) t a
        let see : Lanes := ⟨sp.mask, val, fun _ => 0⟩
        let res := fun ts : List Nat => gatherEls (rBits ty) fun k => reduce op ty (see.members (rBits ty) k ts)
        (lvKind l lv.val = 1 → ∃ t, exec (.redl h op ty d a lv) s = .next t
          ∧ Wrote s t pl g sp h (sp.owes (perThreadOcc sp.mask)) d ts (fun _ => none) (res ts).2
              (owedBy pl d (ts.map fun t => (t, (res ts).1))))
        ∧ (lvKind l lv.val = 0 → ∃ t, exec (.redl h op ty d a lv) s = .next t
          ∧ Wrote s t pl g sp h (sp.owes (perThreadOcc sp.mask)) d ts (fun _ => none)
              (ts.foldl (fun f t => f ||| (res [t]).2) 0)
              (owedBy pl d (ts.map fun t => (t, (res [t]).1))))
        ∧ (lvKind l lv.val = 2 → sp.stage = 0 → sp.vals = [] → Alone g pl.split → (∀ x ∈ g.arrived, x.1 ≠ k) →
          let what := some (BarWhat.redl op ty)
          let mine : Arrival := { arrivalOf s pl.core g with vals := ts.map fun t => (t, val t) }
          let b1 : Barrier := { bar with what := what, expected := n, arrivals := bar.arrivals ++ [mine] }
          (bar.arrivals = [] ∨ bar.what = what →
            (bar.arrivals.length + 1 < need → ∃ t, exec (.redl h op ty d a lv) s = .next t
              ∧ WaitsForBar (setBar s k b1) t pl (arrivedAt g k bar.gen) sp (perThreadOcc sp.mask) k bar.gen)
            ∧ (need ≤ bar.arrivals.length + 1 → NotPhased s g → ∀ as : List Arrival, as.Perm b1.arrivals →
              as.Pairwise (fun x y => x.gnum < y.gnum) → groupAt s pl.core pl.slot = some g →
              (∀ x ∈ (coreOf s pl.core).slots, x.2.launch = g.launch → x.2.team = g.team → x.2.gnum = g.gnum → x.1 = pl.slot) →
              let all := fun t => gatherEls (rBits ty) fun k => reduce op ty
                ((as.filterMap fun x => tabFind t x.vals).map fun w => sub (rBits ty) w k)
              ∃ s1 t, exec (.redl h op ty d a lv) s = .next t ∧ CompletedBar s s1 k b1 []
                ∧ (∀ x ∈ bar.arrivals, ∀ c m y, groupAt s c m = some y → y.launch = x.launch → y.team = x.team →
                    y.gnum = x.gnum → y.isTender = none → (c, m) ≠ (pl.core, pl.slot) → ∃ y', groupAt s1 c m = some y'
                      ∧ y'.redl = some (x.vals.map fun p => (p.1, (all p.1).1)))
                ∧ Wrote s1 t pl { g with redl := some [] } sp h (sp.owes (perThreadOcc sp.mask)) d ts (fun _ => none)
                    (ts.foldl (fun f t => f ||| (all t).2) 0) (owedBy pl d (ts.map fun t => (t, (all t).1)))))
          ∧ (bar.arrivals ≠ [] → bar.what ≠ what → MayTrap s pl g →
            ∃ t, exec (.redl h op ty d a lv) s = .next t ∧ Trapped s t pl g sp 0x01 0 0 0))

/-- The event queue (R184–R186): EVWAIT goes by once the group has its records, EVPOP takes the oldest, and a finished
operation's record enters while there is a place, by an event of its own where it has waited for one (log 44, DEDUCED). -/
def Obligations.EventQueue : Prop :=
  (∀ (h : Hd) (s : State) (pl : Place) (g : Group) (sp : Split), Issues s pl g sp → Calm g → g.isTender = none →
    let k := coreOf s pl.core
    let mine := k.events.filter fun e => e.slot == pl.slot
    (∀ a, UniformSrcs g sp pl.split [a] →
      let n := Nat.min (once s g sp a).toNat 64
      (n ≤ mine.length → ∃ t, exec (.evwait h a) s = .next t ∧ Passed s t pl g sp h 1 (nextPos sp.pc sp.word))
      ∧ (mine.length < n → ∃ t, exec (.evwait h a) s = .next t ∧ Waits s t pl g sp (.events n)))
    ∧ ∀ d, DestReady pl g sp d → k.events.length < 64 →
        ∃ t ev, exec (.evpop h d) s = .next t
          ∧ Wrote (setCore s pl.core { k with events := ev }) t pl g sp h 1 d (onceKeys d sp.mask) (fun _ => none) 0
              (onceOwed pl d sp.mask ((mine.map (·.word)).headD 0) .var)
          ∧ ev.filter (fun e => e.slot == pl.slot) = mine.tail
          ∧ ev.filter (fun e => e.slot != pl.slot) = k.events.filter fun e => e.slot != pl.slot)
  ∧ ∀ (s : State) (c : Nat) (e : EvRec) (r : List EvRec), (coreOf s c).waiting = e :: r → (coreOf s c).events.length < 64 →
      ∃ t, exec (.completionRecordPost c) s = .next t ∧ (coreOf t c).events = (coreOf s c).events ++ [e]
        ∧ (coreOf t c).waiting = r ∧ ∀ loc, memByte t loc = memByte s loc

/-! ### Control words -/

/-- Branches and calls (R212, R213, R217, R223, R228): BRA goes by its lowest thread, BRP divides a split whose threads go both
ways, and a call pushes the packet after its own. -/
def Obligations.BranchWords : Prop :=
  ∀ (h : Hd) (s : State) (pl : Place) (g : Group) (sp : Split), Issues s pl g sp → Calm g →
    (∀ neg p (disp : BitVec 20), hazard g sp pl.split [.p p] [] = false →
      let there := sp.pc + disp.signExtend 64
      let here := sp.pc + 1
      (sp.mask ≠ 0 → ∀ m, Takes s g sp neg p m → ∃ t, exec (.bra h neg p disp) s = .next t
        ∧ Jumped s t pl g sp 1 (if m.getLsbD sp.mask.lowest then there else here))
      ∧ ∀ m, Takes s g sp neg p m →
          (m = 0 → ∃ t, exec (.brp h neg p disp) s = .next t ∧ Jumped s t pl g sp (perThreadOcc sp.mask) here)
          ∧ (m ≠ 0 → m = sp.mask → ∃ t, exec (.brp h neg p disp) s = .next t
              ∧ Jumped s t pl g sp (perThreadOcc sp.mask) there)
          ∧ (m ≠ 0 → m ≠ sp.mask → ∃ t g1, exec (.brp h neg p disp) s = .next t ∧ Divided g g1 pl.split sp there m
              ∧ Jumped s t pl g1 { sp with mask := sp.mask &&& ~~~m } (perThreadOcc sp.mask) here))
    ∧ (∀ a, UniformSrcs g sp pl.split [a] →
        (∃ t, exec (.jmpr h a) s = .next t ∧ Jumped s t pl g sp 1 (once s g sp a))
        ∧ (sp.stack.length < 16 → ∃ t, exec (.callr h a) s = .next t ∧ Jumped s t pl g (called sp .plain) 1 (once s g sp a)))
    ∧ (∀ disp : BitVec 16, sp.stack.length < 16 → ∃ t, exec (.call h disp) s = .next t
        ∧ Jumped s t pl g (called sp .plain) 1 (sp.pc + disp.signExtend 64))
    ∧ (∀ (n : BitVec 6) (disp : BitVec 16), sp.stack.length < 16 → n.toNat + 1 ≤ g.valloc →
        let plain := fun i : Instr => ∃ t, exec i s = .next t ∧ Jumped s t pl g (called sp .trained) 1 (sp.pc + disp.signExtend 64)
        let e := tabGet { tag := none, base := 0, stride := 0, conf := 0 } (coreOf s pl.core).pred (sp.pc.toNat % 32)
        ((e.tag = some sp.pc → e.conf < 2) → plain (.fcall h n disp))
        ∧ (g.splits.length ≠ 1 ∨ g.defers ≠ [] ∨ g.isTender.isSome = true →
            plain (.fcall h n disp) ∧ plain (.fcallForce h n disp)))
    ∧ (∀ (n : BitVec 6) (disp : BitVec 16) p, sp.stack.length < 16 → n.toNat + 1 ≤ g.valloc →
        forkPlace (coreOf s pl.core) g sp = some p →
        let e := tabGet { tag := none, base := 0, stride := 0, conf := 0 } (coreOf s pl.core).pred (sp.pc.toNat % 32)
        e.tag = some sp.pc → 2 ≤ e.conf →
        ∃ t s1 td, exec (.fcall h n disp) s = .next t
          ∧ Jumped s1 t pl g (called sp (.forked p.fork e.base e.stride)) 1 (sp.pc + disp.signExtend 64)
          ∧ groupAt s1 pl.core p.slot = some td ∧ td.splits = [(0, startAt sp (sp.pc + 1) sp.mask)] ∧ td.isTender.isSome = true
          ∧ td.gregs = g.gregs ∧ td.pregs = g.pregs ∧ td.tregs = g.tregs ∧ td.pipe = p.pipe
          ∧ (∀ k < 32, sp.mask.getLsbD k = true → tabGet 0 td.vregs k = e.base + BitVec.ofNat 64 k * e.stride)
          ∧ td.hold = s.clock.toNat + 4 + (n.toNat + 1) ∧ td.fstat.extractLsb' 0 5 = 0
          ∧ ∀ loc, memByte s1 loc = memByte s loc)
    ∧ (16 ≤ sp.stack.length → MayTrap s pl g → ∀ disp, ∃ t, exec (.call h disp) s = .next t ∧ Trapped s t pl g sp 0x01 0 0 0)

/-- Returns, merges and the words that change nothing (R219, R220, R224, R226, R227, R241, R242): RET of a forked entry waits for
the group's other splits; JOIN swaps to a deferral entry, waits, or merges every split into the lowest-numbered one; YIELD lets
every other eligible group of the lane pipe run first, of those that are eligible when it issues (log 55, DESIGN CHOICE). -/
def Obligations.ReturnWords : Prop :=
  ∀ (h : Hd) (s : State) (pl : Place) (g : Group) (sp : Split), Issues s pl g sp → Calm g →
    (∀ e rest, sp.stack = e :: rest →
      (e.kind = .plain → ∃ t, exec (.ret h) s = .next t ∧ Jumped s t pl g { sp with stack := rest } 1 e.ret)
      ∧ (e.kind = .trained → ∃ t p, exec (.ret h) s = .next t
          ∧ Jumped (setCore s pl.core { coreOf s pl.core with pred := p }) t pl g { sp with stack := rest } 1 e.ret
          ∧ ∀ n, n ≠ (e.ret - 1).toNat % 32 → tabFind n p = tabFind n (coreOf s pl.core).pred)
      ∧ ∀ f base stride, e.kind = .forked f base stride →
          let there := ∀ p ∈ g.splits, p.1 ≠ pl.split → p.2.wait = some .ret ∧ atFork f p.2 = true
          let meets := ∀ p ∈ g.splits, p.1 ≠ pl.split → ∃ w, p.2.wait = some w ∧ isMeeting w = true
          (g.isTender = none → there ∨ ¬ meets → ∃ t, exec (.ret h) s = .next t ∧ Waits s t pl g (begun g pl.split sp) .ret)
          ∧ (meets → ¬ there → MayTrap s pl g → ∃ t, exec (.ret h) s = .next t ∧ Trapped s t pl g sp 0x01 0 0 0)
          ∧ (g.isTender.isSome = true → ∃ t, exec (.ret h) s = .next t ∧ Waits s t pl g sp .tender))
    ∧ (sp.stack = [] → MayTrap s pl g → ∃ t, exec (.ret h) s = .next t ∧ Trapped s t pl g sp 0x01 0 0 0)
    ∧ (∀ e, g.defers.find? (fun d => d.owner == pl.split) = some e → (e.j = true → e.pc = sp.pc) →
        ∃ t g1, exec (.join h) s = .next t ∧ Jumped s t pl g1 { sp with mask := e.mask } 1 e.pc
          ∧ { g1 with defers := [] } = { g with defers := [] }
          ∧ g1.defers.find? (fun d => d.owner == pl.split) = some { pc := sp.pc, mask := sp.mask, owner := pl.split, j := true }
          ∧ ∀ n, n ≠ pl.split → g1.defers.filter (fun d => d.owner == n) = g.defers.filter fun d => d.owner == n)
    ∧ (∀ e, g.defers.find? (fun d => d.owner == pl.split) = some e → e.j = true → e.pc ≠ sp.pc → MayTrap s pl g →
        ∃ t, exec (.join h) s = .next t ∧ Trapped s t pl g sp 0x01 0 0 0)
    ∧ (g.defers = [] → g.splits = [(pl.split, sp)] → ∃ t, exec (.join h) s = .next t ∧ Jumped s t pl g sp 1 (sp.pc + 1))
    ∧ ((∀ d ∈ g.defers, d.owner ≠ pl.split) →
        let here := ∀ p ∈ g.splits, p.1 ≠ pl.split → p.2.wait = some .join ∧ p.2.pc = sp.pc
        let meets := ∀ p ∈ g.splits, p.1 ≠ pl.split → ∃ w, p.2.wait = some w ∧ isMeeting w = true
        (here → (g.splits.map (·.1)).Pairwise (· < ·) →
          ((∀ p ∈ g.splits, p.2.stack = sp.stack) → ∃ t, exec (.join h) s = .next t ∧ Joined s t pl g sp (sp.pc + 1))
          ∧ ((∃ p ∈ g.splits, p.2.stack ≠ sp.stack) → MayTrap s pl g →
            ∃ t, exec (.join h) s = .next t ∧ Trapped s t pl g sp 0x01 0 0 0))
        ∧ (¬ meets → ∃ t, exec (.join h) s = .next t ∧ Waits s t pl g sp .join)
        ∧ (meets → ¬ here → MayTrap s pl g →
          ∃ t, exec (.join h) s = .next t ∧ Trapped s t pl g sp 0x01 0 0 0))
    ∧ (∃ t ys, exec (.yield h) s = .next t
        ∧ Jumped (setCore s pl.core { coreOf s pl.core with yielded := tabPut pl.slot ys (coreOf s pl.core).yielded }) t pl g sp 1
            (sp.pc + 1)
        ∧ ∀ n, n ∈ ys ↔ n ≠ pl.slot ∧ ∃ x ∈ (coreOf s pl.core).slots, x.1 = n ∧ x.2.pipe = g.pipe ∧ MayRun s x.2)
    ∧ (∃ t, exec (.nop h) s = .next t ∧ Passed s t pl g sp h 1 (nextPos sp.pc sp.word))
    ∧ ∀ (k : BitVec 4) (disp : BitVec 16),
        let site := sp.pc + disp.signExtend 64
        let goes := fun (i : Instr) (e : PredEntry) => ∃ t, exec i s = .next t
          ∧ Passed (setCore s pl.core { coreOf s pl.core with pred := tabPut (site.toNat % 32) e (coreOf s pl.core).pred }) t pl g
              sp h 1 (nextPos sp.pc sp.word)
        let reg := fun i : Nat => once s g sp (.g (Fin.ofNat 32 (2 * k.toNat + i)))
        let old := tabGet { tag := none, base := 0, stride := 0, conf := 0 } (coreOf s pl.core).pred (site.toNat % 32)
        (hazard g sp pl.split [.g (Fin.ofNat 32 (2 * k.toNat)), .g (Fin.ofNat 32 (2 * k.toNat + 1))] [] = false →
          goes (.ftrainSeed h k disp) { tag := some site, base := reg 0, stride := reg 1, conf := 2 }
          ∧ goes (.ftrainForce h k disp) { tag := some site, base := reg 0, stride := reg 1, conf := 3 })
        ∧ goes (.ftrainClear h disp) (if old.tag = some site then { old with tag := none, conf := 0 } else old)

/-- EXIT (R221, R225): DONEW rises by one for each thread; a split whose group goes on ends or goes on at its topmost deferral
entry; the exit of a group's last thread appends its colophon (R324, R355). -/
def Obligations.ExitWord : Prop :=
  (∀ (h : Hd) (s : State) (pl : Place) (g : Group) (sp : Split) (l : Launch) (loc : Nat) (mt : BitVec 2),
    Issues s pl g sp → Settled pl g sp → MayTrap s pl g → launchOf s g.launch = some l → l.recPend = [] →
    Steady s l.part l.recArea loc 8 mt → liveMask g &&& ~~~sp.mask ≠ 0 →
    let top := g.defers.find? fun d => d.owner == pl.split
    ∀ sc ∈ [Scope.core, .quad, .die, .pkg], ∃ t g', exec (.exit h sc) s = .next t
      ∧ (∀ a, memByte t a = writeBytes (memByte s) loc 8 (bytesAt (memByte s) loc 8 + sp.mask.threads.length) a)
      ∧ t.turn = none ∧ t.clock = s.clock + BitVec.ofNat 64 (Nat.max sp.run.occ 1) ∧ groupAt t pl.core pl.slot = some g'
      ∧ splitAt g' pl.split = top.map (fun e => startAt sp e.pc e.mask)
      ∧ (∀ n, n ≠ pl.split → (splitAt g' n).map (·.mask) = (splitAt g n).map (·.mask))
      ∧ (∀ n, n ≠ pl.split → g'.defers.filter (fun d => d.owner == n) = g.defers.filter fun d => d.owner == n)
      ∧ g'.defers.length = g.defers.length - (if top.isSome then 1 else 0))
  ∧ ∀ (h : Hd) (s : State) (pl : Place) (g : Group) (sp : Split) (l : Launch) (loc : Nat) (mt : BitVec 2),
    Issues s pl g sp → Settled pl g sp → launchOf s g.launch = some l → l.recPend = [] → RecHere s l loc mt →
    liveMask g &&& ~~~sp.mask = 0 → (∀ y ∈ (coreOf s pl.core).slips, y.slot ≠ pl.slot) →
    ∀ sc ∈ [Scope.core, .quad, .die, .pkg], ∃ t gissue stalls, exec (.exit h sc) s = .next t
      ∧ ∀ a, memByte t a = appended l.rsize loc (colophonWords 0 g t.clock gissue (g.gwords + 1) stalls)
          (writeBytes (memByte s) loc 8 (bytesAt (memByte s) loc 8 + sp.mask.threads.length)) a

/-! ### Traps and system words -/

/-- Words that stop their group (R347, R348, R350): TRAP and SYSCALL, which take their cycle and count (R342, R351), and BKPT; and at
a register word a name that may not be used
gives OPSPEC, and in debug mode a read of an outstanding register HAZARD (R31, R36, R38). -/
def Obligations.TrapWords : Prop :=
  ∀ (h : Hd) (s : State) (pl : Place) (g : Group) (sp : Split), Issues s pl g sp → MayTrap s pl g →
    (Settled pl g sp → ∀ code,
      let stops := fun (i : Instr) (kind : BitVec 2) => ∃ s1 t g1 sp1, exec i s = .next t ∧ CallIssued s s1 pl g g1 sp sp1
        ∧ Trapped s1 t pl g1 sp1 0 kind code 0
      stops (.trap h code) 1 ∧ stops (.syscall h code) 2)
    ∧ (∃ t, exec (.bkpt h) s = .next t ∧ Trapped s t pl g sp 0x30 0 0 0)
    ∧ ∀ d a b : Opnd, ∀ ty : FTy,
        ∀ i ∈ [Instr.add h d a b, .mul h d a b, .div h d a b, .fadd h ty d a b, .fmin h ty d a b, .rcp h .f32 d a],
          let srcs := if i = .rcp h .f32 d a then [a] else [a, b]
          (issueMode srcs d = .opspec ∨ namesBad g (d :: srcs) = true →
            ∃ t, exec i s = .next t ∧ Trapped s t pl g sp 0x04 0 0 0)
          ∧ (issueMode srcs d ≠ .opspec → namesBad g (d :: srcs) = false → hazard g sp pl.split srcs [d] = true →
            ∃ t, exec i s = .next t ∧ Trapped s t pl g sp 0x06 0 0 0)

/-- The FPE check (R83): each of its words traps with FPE (cause 0x20) where an enabled flag is set when it is first issued,
and leaves the flags set. That in a phased team BARA.core and BARW.core take it before ILLOP (R330) is the model's reading (log 55,
DEDUCED). A tender waits for its validation at the words of R231. -/
def Obligations.FirstChecks : Prop :=
  (∀ (h : Hd) (s : State) (pl : Place) (g : Group) (sp : Split), Issues s pl g sp → MayTrap s pl g → sp.stage = 0 →
    g.fstat.extractLsb' 0 5 &&& g.fstat.extractLsb' 8 5 ≠ 0 →
    let stops := fun i : Instr => ∃ t, exec i s = .next t ∧ Trapped s t pl g sp 0x20 0 0 0
    (∀ sc, stops (.fence h sc) ∧ stops (.exit h sc)) ∧ (∀ code, stops (.trap h code) ∧ stops (.syscall h code))
    ∧ (∀ a b, stops (.bar h .lane a b))
    ∧ (∀ sc ∈ [Scope.core, .quad, .die, .pkg, .pod], ∀ a b : Opnd,
        (UniformSrcs g sp pl.split [a, b] → stops (.bar h sc a b) ∧ stops (.bara h sc a b))
        ∧ (UniformSrcs g sp pl.split [a] → stops (.barw h sc a)))
    ∧ ∀ l (lv : Fin 8), launchOf s g.launch = some l → lv.val < l.nlev → (levelOf l lv.val).1.getLsbD 5 = true →
        stops (.barl h lv)
        ∧ ∀ op ty d a, badDst d = false → namesBad g [d, a] = false → (∀ n, d ≠ .g n) →
            hazard g sp pl.split [a] [d] = false → stops (.redl h op ty d a lv))
  ∧ (∀ (h : Hd) (s : State) (pl : Place) (g : Group) (sp : Split), Issues s pl g sp → g.isTender.isSome = true →
    ∀ i ∈ [Instr.fence h .core, .fence h .eng, .bar h .lane .z .z, .exit h .pkg, .trap h 0, .syscall h 0, .bkpt h, .wswp h,
        .mma h (.g 0) (.g 1) (.g 2), .pld h (.g 0), .cpy h (.g 0) (.g 1) (.g 2), .rdsr h (.g 0) 0, .wrsr h .z 0,
        .rdctr h (.g 0) false 0, .rdclk h (.g 0) false, .selftest h (.g 0) 0],
      ∃ t, exec i s = .next t ∧ Waits s t pl g sp .tender)

/-- Traps of levels, system registers and engine words (R23, R27, R203, R206, R256, R257, R343, R348, R359–R361): ILLOP at a level that the
nest does not have, without SHARE or without SYNC, and at an unlisted register; PRIV at a register that programs may not use;
PARTIALMASK at a split that is not its whole group (their order at one word: log 41, DEDUCED). A word that no class chapter lists
traps with ILLOP (R44): cause 0x01. Before any word of a bundle issues the checks of R45 trap: a breakpoint of the partition
(R359), then RUNLEN where the 24th word of the run has S = 0 (R27), then CHAIN (R23). A group in single step traps with STEP after
a bundle (R361), and one whose store a watchpoint matches with WATCH once the store is performed, which is at once (R360; log
45, DEDUCED). -/
def Obligations.OtherTraps : Prop :=
  (∀ (h : Hd) (s : State) (pl : Place) (g : Group) (sp : Split), Issues s pl g sp → MayTrap s pl g →
    let stops := fun (i : Instr) (cause : BitVec 8) => ∃ t, exec i s = .next t ∧ Trapped s t pl g sp cause 0 0 0
    (∀ l (lv : Fin 8) d, launchOf s g.launch = some l → l.nlev ≤ lv.val →
      (∀ sel, stops (.rdmap h sel d lv) 0x01) ∧ stops (.lvidx h d lv) 0x01 ∧ stops (.lvext h d lv) 0x01
      ∧ stops (.lvfirst h d lv) 0x01 ∧ stops (.lvbuf h d lv) 0x01 ∧ stops (.lvfor h lv) 0x01 ∧ stops (.lvnext h d lv) 0x01
      ∧ stops (.barl h lv) 0x01)
    ∧ (∀ l (lv : Fin 8) d, launchOf s g.launch = some l → lv.val < l.nlev →
        (shares l lv.val = false → stops (.lvbuf h d lv) 0x01)
        ∧ ((levelOf l lv.val).1.getLsbD 5 = false → stops (.barl h lv) 0x01))
    ∧ (∀ d, DestReady pl g sp d → ∀ n ∈ [0x002, 0x003, 0x004, 0x005, 0xC00, 0xC01, 0xC02, 0xC03, 0xC05, 0xC07, 0xC08, 0xC10,
          0xC18, 0xC1F, 0xC40, 0xCBD], stops (.rdsr h d n) 0x07)
    ∧ (∀ d, ∀ n ∈ [0x006, 0x3FF, 0x405, 0x801, 0xC09, 0xC14, 0xC23, 0xC27, 0xC46, 0xCC0, 0x1001, 0x1022],
        stops (.rdsr h d n) 0x01 ∧ ∀ a, stops (.wrsr h a n) 0x01)
    ∧ (∀ a, UniformSrcs g sp pl.split [a] → ∀ n ∈ [0x001, 0x002, 0x404, 0x800, 0xC00, 0xC04, 0xC06, 0xC20, 0x1000, 0x1010],
        stops (.wrsr h a n) 0x07)
    ∧ (liveMask g ≠ sp.mask ∨ g.defers ≠ [] → stops (.wswp h) 0x05 ∧ ∀ m, stops (.accz h m) 0x05))
  ∧ (∀ (s : State) (pl : Place) (g : Group) (sp : Split) (e : DecodeError),
    MayIssue s pl g sp → MayTrap s pl g → CodeIs s pl g sp (.error e) →
    ∃ t g1 sp1 u, Entered s t pl g sp ∧ Issues t pl g1 sp1 ∧ step s = .next u ∧ Trapped t u pl g1 sp1 0x01 0 0 0)
  ∧ (∀ (s : State) (pl : Place) (g : Group) (sp : Split), AtBundle s pl g sp → MayTrap s pl g →
    let ws := bundleFrom s pl.core g sp.pc sp.word 3
    let stops := fun cause : BitVec 8 => ∃ t g1 u, Looked s t pl g sp ∧ Issues t pl g1 sp ∧ step s = .next u
      ∧ Trapped t u pl g1 sp cause 0 0 0
    (Held s g sp → stops 0x30)
    ∧ (¬ Held s g sp → TooLong sp ws → stops 0x02)
    ∧ (¬ Held s g sp → ¬ TooLong sp ws → Unchainable ws → stops 0x03))
  ∧ (∀ (h : Hd) (s : State) (pl : Place) (g : Group) (sp : Split), Issues s pl g sp → MayTrap s pl g → g.watch = none →
    g.gdbg.getLsbD 0 = true →
    ∃ t u, exec (.nop h) s = .next u ∧ Passed s t pl g sp h 1 (nextPos sp.pc sp.word)
      ∧ (h.c = true → u = t)
      ∧ (h.c = false → ∃ g1 sp1, groupAt t pl.core pl.slot = some g1 ∧ splitAt g1 pl.split = some sp1
          ∧ Trapped t u pl g1 sp1 0x31 0 0 0))
  ∧ ∀ (h : Hd) sz (a : Opnd) (b : Fin 8) (x : Opnd) (scale : BitVec 2) (disp : BitVec 3) (s : State) (pl : Place) (g : Group)
      (sp : Split) (loc : Nat) (lo : Word),
    let n := szBytes sz
    let w : MemWord := ⟨.st, n, a, .int (8 * n), b, x, scale, disp.toNat⟩
    let ea := addrOf s g sp w 32
    isUniform a = true → isUniform x = true → Issues s pl g sp → MayTrap s pl g → MemReady s pl g sp w → g.watch = none →
    g.pend = [] → NoWaiters s → isCanonical ea = true → checkAcc s pl.core g w.op b.val n ea = .ok (.mem [(loc, n)]) →
    (∀ y ∈ (coreOf s pl.core).slips, y.slot ≠ pl.slot) → OneWatch s g.part true ea lo n →
    ∃ t u g1 sp1, exec (.st h sz a b x scale disp) s = .next u ∧ groupAt t pl.core pl.slot = some g1
      ∧ splitAt g1 pl.split = some sp1 ∧ (sp1.pc, sp1.word) = nextPos sp.pc sp.word ∧ g1.vregs = g.vregs ∧ g1.gregs = g.gregs
      ∧ Trapped t u pl g1 sp1 0x32 0 0 (if ea.toNat < lo.toNat then lo else ea)
      ∧ ∀ y, memByte u y = writeBytes (memByte s) loc n (dataOf s g sp w 32).toNat y

/-- RDSR, WRSR, RDCTR, RDCLK and SELFTEST (R81, R335, R342–R346, R351, R362). How many lines the L2 evicts and how many HBM tokens
are charged are free values (log 6), which the registers count. RDCTR reads the words before it (log 36); the order of several
traps of one word is log 41's, and SELFTEST's result log 49's. -/
def Obligations.SystemWords : Prop :=
  ∀ (h : Hd) (s : State) (pl : Place) (g : Group) (sp : Split), Issues s pl g sp → Calm g →
    (∀ d, DestReady pl g sp d →
      let p := partOf s g.part
      let gets := fun (i : Instr) (near : Bool) (x : Word) => ∃ t, exec i s = .next t ∧ Delivers s t pl g sp h d near x
      gets (.rdsr h d 0x000) true (g.fstat.setWidth 64) ∧ gets (.rdsr h d 0x001) true (cgid g)
      ∧ gets (.rdsr h d 0x401) true (coreOf s pl.core).array.wait ∧ gets (.rdsr h d 0x402) true (coreOf s pl.core).array.short
      ∧ gets (.rdsr h d 0x403) true (coreOf s pl.core).array.fill
      ∧ (pl.core < 1024 → gets (.rdsr h d 0x404) true (BitVec.ofNat 64 pl.core))
      ∧ gets (.rdsr h d 0x800) false 0x0000000141234321 ∧ gets (.rdsr h d 0xC04) false (p.lease.setWidth 64)
      ∧ gets (.rdsr h d 0xC06) false (p.pcfg.setWidth 64) ∧ gets (.rdsr h d 0x1000) false (s.budper.setWidth 64)
      ∧ (∀ r : Fin 3, gets (.rdsr h d (0xC20 + BitVec.ofNat 14 r.val)) false (tabGet Budget.reset p.budgets r.val).cfg)
      ∧ (∀ r : Fin 3, let b := tabGet Budget.reset p.budgets r.val
          gets (.rdsr h d (0xC24 + BitVec.ofNat 14 r.val)) false (b.bal ++ b.debt))
      ∧ (∀ n : BitVec 13, n.toNat < 16 → gets (.rdctr h d false n) true (tabGet 0 g.stalls n.toNat))
      ∧ gets (.rdctr h d false 0x10) true g.gissue ∧ gets (.rdctr h d false 0x11) true g.gwords
      ∧ gets (.rdctr h d false 0x100) true (tabGet 0 (coreOf s pl.core).cwords g.part)
      ∧ gets (.rdctr h d false 0x101) true (coreOf s pl.core).l1miss
      ∧ gets (.rdctr h d false 0x102) true (tabGet 0 p.l2evict (pl.core / 128))
      ∧ gets (.rdclk h d false) true s.clock
      ∧ (g.results = [] → gets (.rdclk h d true) true s.clock)
      ∧ (g.results ≠ [] → ∃ t, exec (.rdclk h d true) s = .next t ∧ Waits s t pl g sp .results)
      ∧ ∀ pattern, p.pcfg.getLsbD 1 = true → MemDone pl g sp → (∀ y ∈ (coreOf s pl.core).slips, y.slot ≠ pl.slot) →
          let k := coreOf s pl.core
          ((∃ x ∈ k.slots, x.1 ≠ pl.slot) → gets (.selftest h d pattern) false 0xC000000000000000)
          ∧ ((∀ x ∈ k.slots, x.1 = pl.slot) → k.array.claim = none →
              ∃ t, exec (.selftest h d pattern) s = .next t
                ∧ Wrote (setCore s pl.core { k with
                    nextOp := k.nextOp + 1, self := k.self ++ [{ slot := pl.slot, op := k.nextOp, pattern := pattern.toNat }] })
                  t pl g sp h 1 d (onceKeys d sp.mask) (fun _ => none) 0 (onceOwed pl d sp.mask 0 (.held k.nextOp))))
    ∧ ∀ a, g.isTender = none → UniformSrcs g sp pl.split [a] →
        let x := once s g sp a
        ∃ t f, exec (.wrsr h a 0) s = .next t ∧ Passed s t pl { g with fstat := f } sp h 1 (nextPos sp.pc sp.word)
          ∧ f.extractLsb' 0 5 = g.fstat.extractLsb' 0 5 &&& ~~~x.extractLsb' 0 5 ∧ f.extractLsb' 5 3 = 0
          ∧ f.extractLsb' 8 5 = x.extractLsb' 8 5

/-! ### Words of the array and of the copy engine -/

/-- The matrix words hand their operations to the array (R252–R264); FMTB records its register, and MSTAT reads a snapshot. A
team waits at a matrix or plan word while another team claims the array (R244), and at a unit that holds 8 operations (R245);
a word whose ranges are not its team's own traps with FOOTPRINT, cause 0x18 (R256). WLD, ACCZ, ACCIN and ACCOUT have their
whole effect when they drain (log 12), an MMA with each of its rows (R247–R251, R258–R262); dithered drains follow log 13, and the
order of the checks of an engine word log 43. -/
def Obligations.MatrixWords : Prop :=
  (∀ (h : Hd) (a b c : Opnd),
    let one := fun (o : ArrOp) (m : MArray) => some (o, m)
    let noFmt := fun g : Group => { g with fmt := none }
    Enters (.wld h a b) h 1 (fun _ => [a, b]) [] (fun s g sp => one (.wld (once s g sp a) (once s g sp b))) id
    ∧ Enters (.wswp h) h 1 (fun _ => []) [] (fun _ _ _ => one .wswp) id
    ∧ (∀ mask, Enters (.accz h mask) h 1 (fun _ => []) [] (fun _ _ _ => one (.accz mask)) id)
    ∧ Enters (.mma h a b c) h 1 (fun g => [a, b, c] ++ fmtRegs g) []
        (fun s g sp m => (fmtFor s g sp m).map fun f =>
          (.mma (once s g sp a) (once s g sp b) (once s g sp c) f, { m with fmtb := f })) noFmt (begun := MmaBegun)
    ∧ Enters (.accout h a b c) h 1 (fun _ => [a, b, c]) []
        (fun s g sp m => one (.accout (once s g sp a) (once s g sp b) (once s g sp c) m.fmtb) m) id
    ∧ Enters (.accin h a b c) h 1 (fun _ => [a, b, c]) []
        (fun s g sp => one (.accin (once s g sp a) (once s g sp b) (once s g sp c))) id
    ∧ (∀ k : Fin 32, k.val ≤ 29 →
        let ds := fun (s : State) (g : Group) (sp : Split) => onceAll s g sp (mmtRegs (.g k))
        Enters (.mmt h (.g k)) h 1 (fun g => mmtRegs (.g k) ++ fmtRegs g) []
          (fun s g sp m => if mmtReserved (ds s g sp) then none
            else (fmtFor s g sp m).map fun f => (.mmt (ds s g sp) f, { m with fmtb := f })) noFmt)
    ∧ (∀ s pl g sp m (k : Fin 32), Issues s pl g sp → Calm g → EngReady pl g sp [] [] [] → WholeGroup g sp → k.val % 2 = 0 →
        Claimed (coreOf s pl.core).array g m → ∃ t, exec (.fmtb h (.g k)) s = .next t
          ∧ Passed (setCore s pl.core { coreOf s pl.core with array := m }) t pl { g with fmt := some k } sp h 1
              (nextPos sp.pc sp.word))
    ∧ ∀ s pl g sp m d, Issues s pl g sp → Calm g → DestReady pl g sp d → Claimed (coreOf s pl.core).array g m →
        ∃ t x, exec (.mstat h d) s = .next t
          ∧ Wrote (setCore s pl.core { coreOf s pl.core with array := m }) t pl g sp h 1 d (onceKeys d sp.mask) (fun _ => none) 0
              (onceOwed pl d sp.mask x .var)
          ∧ x.extractLsb' 32 32 = BitVec.ofNat 32 m.steps ∧ x.extractLsb' 26 6 = m.dph
          ∧ x.extractLsb' 23 3 = BitVec.ofNat 3 m.rate ∧ x.getLsbD 22 = m.mmt.isSome
          ∧ x.extractLsb' 16 6 = BitVec.ofNat 6 (m.jobs.filter fun j => j.unit != .sequencer && j.unit != .status && !j.mmt).length
          ∧ x.extractLsb' 5 11 = 0 ∧ x.extractLsb' 0 5 = g.engFlags)
  ∧ (∀ (h : Hd) (a b : Opnd) (s : State) (pl : Place) (g : Group) (sp : Split), Issues s pl g sp → WholeGroup g sp →
    EngReady pl g sp [a, b] [] [] →
    let m := (coreOf s pl.core).array
    (∀ w, m.claim = some w → w ≠ (g.launch, g.team) →
      (∃ t, exec (.wld h a b) s = .next t ∧ Waits s t pl g sp .claim) ∧ ∃ t, exec (.wswp h) s = .next t ∧ Waits s t pl g sp .claim)
    ∧ (m.claim = some (g.launch, g.team) →
        (8 ≤ unitLoad m .stream → ∃ t, exec (.wswp h) s = .next t ∧ Waits s t pl g sp .engine)
        ∧ ((once s g sp a).toNat % 16 ≠ 0 → MayTrap s pl g → ∃ t, exec (.wld h a b) s = .next t ∧ Trapped s t pl g sp 0x18 0 0 0)))
  ∧ ∀ (s : State) (c : Nat) (j : ArrJob) (rest : List ArrJob),
    let m := (coreOf s c).array
    let mem := memByte s
    let rows := fun b : Word => (b.extractLsb' 0 6).toNat + 1
    let key := fun (b : Word) (r : Nat) => 4096 * (b.extractLsb' 12 2).toNat + 64 * ((b.extractLsb' 6 6).toNat + r)
    (∀ a b, Ending s c .loader j rest → j.what = .wld a b → ∃ t, exec (.arrayOperationDrain c .loader) s = .next t
      ∧ Ended s t c j rest mem (fun m => { m with back := [], bscale := [] }) 0
      ∧ (∀ k < 4096, tabGet 0 (coreOf t c).array.back k = BitVec.ofNat 16 (bytesAt mem (apLoc c a + 2 * k) 2))
      ∧ ∀ k < 260, tabGet 0 (coreOf t c).array.bscale k = if b = 0 then 0 else mem (apLoc c b + k))
    ∧ (∀ mask, Ending s c .port j rest → j.what = .accz mask → ∃ t, exec (.arrayOperationDrain c .port) s = .next t
      ∧ Ended s t c j rest mem (fun m => { m with acc := [] }) 0
      ∧ ∀ k < 16384, tabGet 0 (coreOf t c).array.acc k = if mask.getLsbD (k / 4096) then 0 else tabGet 0 m.acc k)
    ∧ (∀ a b p, Ending s c .port j rest → j.what = .accin a b p → ∃ t, exec (.arrayOperationDrain c .port) s = .next t
      ∧ Ended s t c j rest mem (fun m => { m with acc := [] }) 0
      ∧ (∀ r < rows b, ∀ n < 64, tabGet 0 (coreOf t c).array.acc (key b r + n)
          = BitVec.ofNat 32 (flushed .f32 (bytesAt mem (rowLoc c a p r + 4 * n) 4)))
      ∧ ∀ k, k < key b 0 ∨ key b (rows b) ≤ k → tabGet 0 (coreOf t c).array.acc k = tabGet 0 m.acc k)
    ∧ (∀ a b p f, Ending s c .port j rest → j.what = .accout a b p f → f.valid = true →
      let out := fun r n => drainOf f m.dph.toNat n (tabGet 0 m.acc (key b r + n)).toNat
      ∃ t, exec (.arrayOperationDrain c .port) s = .next t
        ∧ Ended s t c j rest
          (putRows mem c a p (rows b) fun r => (List.range 64).flatMap fun n => bytesOf f.width (out r n).1)
          (fun m => { m with dph := 0 }) (flagsOf (64 * rows b) fun k => (out (k / 64) (k % 64)).2)
        ∧ (coreOf t c).array.dph = m.dph + 1)
    ∧ ∀ a b p f, m.jobs = j :: rest → j.what = .mma a b p f → f.valid = true → j.mmt = false → j.running = true →
      j.rows < j.granted → j.rows < rows b → ∃ t, exec (.accumulatorRowWrite c) s = .next t
        ∧ (∀ n < 64, tabGet 0 (coreOf t c).array.acc (key b j.rows + n) = BitVec.ofNat 32 (mmaOf s c a b p f j.rows n).1)
        ∧ ∀ g g', groupAt s c j.slot = some g → groupAt t c j.slot = some g' →
          g'.engFlags = g.engFlags ||| flagsOf 64 fun n => (mmaOf s c a b p f j.rows n).2

/-- The plan words hand their operations to the array (R277–R291); PSTAT enters too, and gives the status of the latest BALANCE
when it drains; it waits at issue where the call slips are full (R173). Each has its whole
effect when it drains (log 12): PLD and PCOST write the planes, PMARG and PSCL move plan registers, BALANCE runs its sweeps
(R284, R285), and PPART, POUT and PDIST write the scratchpad (R275, R276, R289–R291). κ of PCOST is R281's but for 2^−8 of an ulp
(log 7); POUT's flags and PDIST's D follow log 34, and the largest term of a line takes −0 below +0 (log 29). -/
def Obligations.PlanWords : Prop :=
  (∀ (h : Hd) (a b c : Opnd),
    let one := fun (o : ArrOp) (m : MArray) => some (o, m)
    Enters (.pld h a) h 1 (fun _ => [a]) [] (fun s g sp => one (.pld (once s g sp a))) id
    ∧ Enters (.pcost h a b) h 1 (fun _ => [a, b]) [] (fun s g sp => one (.pcost (once s g sp a) (once s g sp b))) id
    ∧ Enters (.balance h a b) h 1 (fun _ => [a, b]) [] (fun s g sp => one (.balance (once s g sp a) (once s g sp b))) id
    ∧ (∀ row, Enters (.ppart h row a) h 1 (fun _ => [a]) [] (fun s g sp => one (.ppart row (once s g sp a))) id)
    ∧ Enters (.pout h a b c) h 1 (fun _ => [a, b, c]) []
        (fun s g sp => one (.pout (once s g sp a) (once s g sp b) (once s g sp c))) id
    ∧ Enters (.pdist h a b) h 1 (fun _ => [a, b]) [] (fun s g sp => one (.pdist (once s g sp a) (once s g sp b))) id
    ∧ ((∃ n, a = .v n) ∨ (∃ n, a = .o n) → ∀ col : Bool,
        let vals := fun (s : State) (g : Group) (sp : Split) =>
          sp.mask.threads.map fun t => (t, readOp g sp s.free (.int 64) t a)
        Enters (.pmarg h false col a) h 32 (fun _ => []) [a] (fun s g sp => one (.pregIn false col (vals s g sp))) id
        ∧ Enters (.pscl h false col a) h 32 (fun _ => []) [a] (fun s g sp => one (.pregIn true col (vals s g sp))) id
        ∧ ∀ scl : Bool, ∀ s pl g sp m g0, Issues s pl g sp → EngReady pl g sp [] [] [a] → Claimed (coreOf s pl.core).array g m →
            MayEnter s pl g sp m (.pregOut scl col) → DrainedGroup s pl g0 →
            ∃ t, exec (if scl then .pscl h true col a else .pmarg h true col a) s = .next t
              ∧ Wrote (entered (drained s pl) pl m (.pregOut scl col)) t pl g0 sp h 32 a sp.mask.threads (fun _ => none) 0
                  [{ split := pl.split, dst := a, vals := sp.mask.threads.map (fun t => (t, 0)), dead := false
                     src := .held (coreOf (drained s pl) pl.core).nextOp, redl := false }])
    ∧ ∀ s pl g sp m d, Issues s pl g sp → Calm g → DestReady pl g sp d → Claimed (coreOf s pl.core).array g m →
        ((coreOf s pl.core).slips.length < 128 → ∃ t, exec (.pstat h d) s = .next t
          ∧ Wrote (entered s pl m .pstat) t pl g sp h 1 d (onceKeys d sp.mask) (fun _ => none) 0
              (onceOwed pl d sp.mask 0 (.held (coreOf s pl.core).nextOp)))
        ∧ (128 ≤ (coreOf s pl.core).slips.length → ∃ t, exec (.pstat h d) s = .next t ∧ Waits s t pl g sp (.room 1)))
  ∧ ∀ (s : State) (c : Nat) (u : AUnit) (j : ArrJob) (rest : List ArrJob), Ending s c u j rest →
    let m := (coreOf s c).array
    let mem := memByte s
    let ends := fun (mem : Nat → Byte) (blank : MArray → MArray) (f : Flags) (more : State → Prop) =>
      ∃ t, exec (.arrayOperationDrain c u) s = .next t ∧ Ended s t c j rest mem blank f ∧ more t
    let planes := fun m : MArray => { m with front := [], back := [], fscale := [], bscale := [] }
    let kernel := fun (cell : Nat → Nat) (t : State) =>
      (∀ i < 64, ∀ k < 64, tabGet 0 (coreOf t c).array.front (64 * i + k) = BitVec.ofNat 16 (cell (64 * i + k))
        ∧ tabGet 0 (coreOf t c).array.back (64 * k + i) = BitVec.ofNat 16 (cell (64 * i + k)))
      ∧ ∀ k, tabGet 0 (coreOf t c).array.fscale k = 0 ∧ tabGet 0 (coreOf t c).array.bscale k = 0
    let reg := fun (scl col : Bool) (m : MArray) =>
      if scl then (if col then m.scol else m.srow) else if col then m.mcol else m.mrow
    let bare := fun (scl col : Bool) (m : MArray) =>
      if scl then (if col then { m with scol := [] } else { m with srow := [] })
      else if col then { m with mcol := [] } else { m with mrow := [] }
    (∀ a, u = .loader → j.what = .pld a → ends mem planes 0 (kernel fun k => bytesAt mem (apLoc c a + 2 * k) 2))
    ∧ (∀ a b, u = .loader → j.what = .pcost a b →
        let eps := flushed .f32 (b.toNat % 2 ^ 32)
        let v := fDecode .f32 eps
        let k : ℝ := 1 / ((ratOf v : ℝ) * Real.log 2)
        let cost := fun n => bytesAt mem (apLoc c a + 4 * n) 4
        (isNum v = false ∨ ratOf v ≤ 0 ∨ k < 2 ^ (-126 : Int) - 2 ^ (-149 : Int) → ends mem planes fIV (kernel fun _ => 0x7FC0))
        ∧ (isNum v = true → 0 < ratOf v → 2 ^ (-126 : Int) ≤ k → ∃ kappa, KappaOf eps kappa
            ∧ ends mem planes (flagsOf 4096 fun n => (costOf kappa (cost n)).2) (kernel fun n => (costOf kappa (cost n)).1)))
    ∧ (∀ scl col vals, u = .port → j.what = .pregIn scl col vals → ends mem (bare scl col) 0 fun t =>
        ∀ e < 64, tabGet 0 (reg scl col (coreOf t c).array) e = match tabFind (e / 2) vals with
          | some x => x.extractLsb' (32 * (e % 2)) 32
          | none => BitVec.ofNat 32 (negInf .f32))
    ∧ (∀ scl col g, u = .port → j.what = .pregOut scl col → groupAt s c j.slot = some g → ends mem id 0 fun t =>
        ∀ g', groupAt t c j.slot = some g' → ∀ r ∈ g.results, r.src = .held j.op →
          let pair := fun k => tabGet 0 (reg scl col m) (2 * k + 1) ++ tabGet 0 (reg scl col m) (2 * k)
          { r with src := .var, vals := r.vals.map fun p => (p.1, pair p.1) } ∈ g'.results)
    ∧ (∀ g, u = .status → j.what = .pstat → groupAt s c j.slot = some g → ends mem id 0 fun t =>
        ∀ g', groupAt t c j.slot = some g' → ∀ r ∈ g.results, r.src = .held j.op →
          { r with src := .var, vals := r.vals.map fun p => (p.1, m.planst) } ∈ g'.results)
    ∧ (∀ a b, u = .stream → j.what = .balance a b →
        let o := balanceOf m (a.extractLsb' 0 12).toNat (b.toNat % 2 ^ 32)
        ends mem (fun m => { m with srow := [], scol := [], planst := 0 }) o.flags fun t =>
          (∀ e < 64, tabGet 0 (coreOf t c).array.srow e = BitVec.ofNat 32 (o.srow.getD e 0)
            ∧ tabGet 0 (coreOf t c).array.scol e = BitVec.ofNat 32 (o.scol.getD e 0))
          ∧ (coreOf t c).array.planst = o.planst
          ∧ ∀ g g', groupAt s c j.slot = some g → groupAt t c j.slot = some g' →
              g'.infeas = (g.infeas || (a.getLsbD 17 && o.planst.getLsbD 32)))
    ∧ (∀ row a, u = .stream → j.what = .ppart row a →
        ends (putSpan mem (apLoc c a) ((List.range 64).flatMap fun k => bytesOf 4 (partialOf m row k).1 ++ bytesOf 4 (partialOf m row k).2.1))
          id (flagsOf 64 fun k => (partialOf m row k).2.2) fun _ => True)
    ∧ (∀ a b p, u = .port → j.what = .pout a b p →
        let rows := (b.extractLsb' 0 6).toNat + 1
        let half := b.getLsbD 12
        let out := fun r n => planWritten half (planOf m ((b.extractLsb' 6 6).toNat + r) n)
        ends (putRows mem c a p rows fun r => (List.range 64).flatMap fun n => bytesOf (if half then 2 else 4) (out r n).1)
          id (flagsOf (64 * rows) fun k => (out (k / 64) (k % 64)).2) fun _ => True)
    ∧ ∀ a b, u = .port → j.what = .pdist a b →
        let d := distanceOf m fun k => bytesAt mem (apLoc c a + 4 * k) 4
        ends (putSpan mem (apLoc c b) (bytesOf 4 d.1)) id d.2 fun _ => True

/-- The copy words hand their operations to the copy engine (R292–R299), which performs each when its turn comes (log 12): CPY and
CPY2D move bytes, GTH and SCT move elements by their indices, CPYR combines elements; an index at or above IDXLIM ends its
operation with FOOTPRINT (R298, R300). Ranges of zero bytes follow log 35; copies at endpoint windows (log 43) are left out here. -/
def Obligations.CopyWords : Prop :=
  (∀ (h : Hd) (a b c : Opnd),
    (∀ o ∈ [(Instr.cpy h a b c, CopyOp.cpy), (.cpyr h a b c, .cpyr)],
      Copies o.1 h [a, b, c] fun ds => o.2 (ds.getD 0 0) (ds.getD 1 0) (ds.getD 2 0))
    ∧ (∀ k : Fin 32, k.val + 3 < 32 → Copies (.cpy2d h (.g k)) h (descRegs 3 (.g k)) .cpy2d)
    ∧ ∀ k : Fin 32, k.val + 4 < 32 →
        Copies (.gth h (.g k)) h (descRegs 4 (.g k)) .gth ∧ Copies (.sct h (.g k)) h (descRegs 4 (.g k)) .sct)
  ∧ ∀ (s : State) (c idx : Nat) (j : CopyJob) (g : Group), CopyRuns s c idx j g → Coherent s c → TlbAligned s c →
    let mem := memByte s
    let loc := engLoc s c g.part g.launch
    let ends := fun m : Nat → Byte =>
      ∃ t, exec (.copyOperationEnd c idx) s = .next t ∧ CopyDone s t c j ∧ ∀ a, memByte t a = m a
    (∀ x : Nat → Nat, let ps := copyPairs x j.what
        let is := indexAddrs j.what
        (∀ a b z, j.what ≠ .cpyr a b z) → ps ≠ [] →
        (∀ ds, j.what = .gth ds ∨ j.what = .sct ds → (ds.getD 2 0).toNat % 4 = 0
          ∧ ∀ i < is.length, x i = bytesAt mem (loc (is.getD i 0)) 4 ∧ x i < (ds.getD 3 0).toNat / 2 ^ 32) →
        (∀ p ∈ ps, (∀ q ∈ ps, loc p.1 ≠ loc q.2) ∧ ∀ i ∈ is, loc p.1 < loc i ∨ loc i + 4 ≤ loc p.1) →
        EngSteady s c g ((ps.map fun p => (p.1, false, true)) ++ (ps.map fun p => (p.2, true, false)) ++ is.map fun i => (i, true, false))
          (fun a => ∃ p ∈ ps, a = loc p.1) →
        ends (ps.foldl (fun m p => putSpan m (loc p.1) [mem (loc p.2)]) mem))
    ∧ (∀ a b z, j.what = .cpyr a b z →
        let ty := (z.extractLsb' 25 3).toNat
        let e := elementBytes ty
        let at' := fun (a : Word) (i : Nat) => a + BitVec.ofNat 64 (i * e)
        let is := List.range (z.extractLsb' 0 24).toNat
        z.extractLsb' 28 3 < 3 → ty < 7 → a.toNat % e = 0 → b.toNat % e = 0 → is ≠ [] →
        (∀ i ∈ is, ∀ k ∈ is, loc (at' b i) + e ≤ loc (at' a k) ∨ loc (at' a k) + e ≤ loc (at' b i)) →
        EngSteady s c g ((is.map fun i => (at' b i, true, true)) ++ is.map fun i => (at' a i, true, false))
          (fun y => ∃ i ∈ is, loc (at' b i) ≤ y ∧ y < loc (at' b i) + e) →
        ends (is.foldl (fun m i => putSpan m (loc (at' b i))
          (bytesOf e (combined (z.extractLsb' 28 3).toNat ty (bytesAt m (loc (at' b i)) e) (bytesAt mem (loc (at' a i)) e)))) mem))
    ∧ ∀ ds va l, j.what = .gth ds ∨ j.what = .sct ds → 0 < (ds.getD 3 0).toNat % 2 ^ 32 → va = ds.getD 2 0 → va.toNat % 4 = 0 →
        engCheck s c g.part g.launch va true false = .ok l → (ds.getD 3 0).toNat / 2 ^ 32 ≤ bytesAt mem l 4 →
        (ds.getD 4 0).getLsbD 31 = false → g.copyErr = none →
        ∃ t, exec (.copyOperationEnd c idx) s = .next t ∧ CopyDone s t c j
          ∧ ∀ g', groupAt t c j.slot = some g' → ∃ a, g'.copyErr = some (0x18, a)

/-! ### Machine events -/

/-- Runs, results, walks, fetches and starts (R28, R32, R56, R133, R139, R199, R215, R218): a lane pipe takes a group that may
run; a result is written, of the divider thread by thread; a walk fills the TLBs or is discarded; a fetched block ends the
waits for it; Jalov's service ends a fault, and empties a page that it makes a future page (R153), or makes the fault PROT; a
group starts with b0 resolved, or with the registers that a whole save kept (R128, R333). Log 10 marks what the instruction
cache drops, log 17 the form of Jalov's service and log 23 the records. -/
def Obligations.RunEvents : Prop :=
  ∀ (s : State) (c : Nat),
    (∀ p n g, s.turn = none → tabFind p (coreOf s c).running = none → n < 64 → groupAt s c n = some g → g.pipe = p →
      MayRun s g → tabGet [] (coreOf s c).yielded n = [] →
      ∃ t pl g' sp, exec (.groupRunSelect c p) s = .next t ∧ t.turn = some pl ∧ pl.core = c
        ∧ groupAt t c pl.slot = some g' ∧ splitAt g' pl.split = some sp ∧ sp.running = true ∧ g'.pipe = p ∧ g'.last = pl.split
        ∧ tabFind p (coreOf t c).running = some (pl.slot, pl.split)
        ∧ { t with cores := [], turn := none } = { s with cores := [], turn := none }
        ∧ (∀ d, d ≠ c → coreOf t d = coreOf s d) ∧ ∀ m, m ≠ pl.slot → groupAt t c m = groupAt s c m)
    ∧ (∀ slot idx g r, groupAt s c slot = some g → g.results[idx]? = some r → r.src = .var →
        ∃ t g', exec (.variableResultWrite c slot idx) s = .next t ∧ OnGroup s t c slot ∧ groupAt t c slot = some g'
          ∧ g'.results = g.results.eraseIdx idx ∧ Landed g g' r fun _ => True)
    ∧ (∀ p idx slot i k g r, (dividing (coreOf s c) p)[idx]? = some (slot, i, k) → groupAt s c slot = some g →
        g.results[i]? = some r →
        let left := r.vals.filter fun v => v.1 != k
        ∃ t g', exec (.dividerResult c p idx) s = .next t ∧ OnGroup s t c slot ∧ groupAt t c slot = some g'
          ∧ g'.results = (if left = [] then g.results.eraseIdx i else g.results.set i { r with vals := left })
          ∧ Landed g g' r fun j => j = k)
    ∧ (∀ idx w, (coreOf s c).walks[idx]? = some w →
        ∃ t, exec (.pageWalk c idx) s = .next t ∧ { t with cores := [], quads := [] } = { s with cores := [], quads := [] }
          ∧ (∀ d n, groupAt t d n = groupAt s d n)
          ∧ (w.g = (partOf s w.part).gen → (coreOf t c).walks = (coreOf s c).walks.eraseIdx idx ∧ w.entry ∈ (coreOf t c).tlb
              ∧ w.entry ∈ (quadOf t (c / 4)).tlb)
          ∧ (w.g ≠ (partOf s w.part).gen → (coreOf t c).tlb = (coreOf s c).tlb ∧ t.quads = s.quads))
    ∧ (∀ b ∈ (coreOf s c).icmiss, ∃ t, exec (.instructionFetch c b) s = .next t ∧ OnCore s t c
        ∧ tabFind b (coreOf t c).icache = some true ∧ b ∉ (coreOf t c).icmiss
        ∧ ∀ slot g n sp, groupAt t c slot = some g → splitAt g n = some sp → sp.wait ≠ some (.fetch b))
    ∧ (∀ slot split g sp va k, groupAt s c slot = some g → splitAt g split = some sp → sp.wait = some (.fault va k false) →
        (∃ t g', exec (.pageFaultResume c slot split .prot) s = .next t ∧ OnGroup s t c slot ∧ groupAt t c slot = some g'
          ∧ splitAt g' split = some { sp with wait := some (.fault va k true) }
          ∧ ∀ n, n ≠ split → splitAt g' n = splitAt g n)
        ∧ ∀ pa x, ∃ t g' sp', exec (.pageFaultResume c slot split (.entries [(pa, x)])) s = .next t
            ∧ groupAt t c slot = some g' ∧ splitAt g' split = some sp' ∧ sp'.wait = none
            ∧ Serviced s t pa x)
    ∧ ∀ slot g l, groupAt s c slot = some g → g.started = false → g.hold ≤ s.clock.toNat → launchOf s g.launch = some l →
        ∃ t g', exec (.groupStart c slot) s = .next t ∧ OnGroup s t c slot ∧ groupAt t c slot = some g' ∧ g'.started = true
          ∧ (g.origin = .whole → g'.tregs = g.tregs)
          ∧ (g.origin ≠ .whole → (tabGet TReg.reset g'.tregs 0).base = l.data)
          ∧ (∀ n, n ≠ 0 → tabGet TReg.reset g'.tregs n = tabGet TReg.reset g.tregs n)
          ∧ g'.tstart = (if g.origin = .fresh then s.clock else g.tstart)
          ∧ { g' with started := false, tregs := [], tstart := 0 } = { g with tregs := [], tstart := 0 }

/-- Time, shoot-downs, budgets and slices (R133, R166, R168, R187, R334, R336, R338, R339). The clock stands for cycles only as log 5
says, a rebase takes no cycles and zeroes the times of open barriers (log 46, DEDUCED), HBM tokens and L2 evictions are free values (log 6), an event out of its time
changes nothing (log 20), and what a slice's end leaves is read as log 51 says (DEDUCED). -/
def Obligations.TimeEvents : Prop :=
  ∀ s : State,
    (∃ t, exec .logicalTimeTick s = .next t ∧ t.clock = s.clock + BitVec.ofNat 64 (16 - s.clock.toNat % 16)
      ∧ t.tick = s.tick + 1 ∧ t.turn = s.turn ∧ quiet t = quiet s
      ∧ (∀ p, quietPart (partOf t p) = quietPart (partOf s p)) ∧ (∀ c, quietCore (coreOf t c) = quietCore (coreOf s c))
      ∧ ∀ c n, (groupAt t c n).map quietGroup = (groupAt s c n).map quietGroup)
    ∧ ((∃ c, 2 ^ 47 ≤ coreTime s c) → s.held = false → exec .rebase s = .next { s with held := true })
    ∧ (s.held = true → (∀ k ∈ s.cores, ∀ x ∈ k.2.slots, x.2.pend = []) →
        ∃ t, exec .rebaseRelease s = .next t ∧ t.held = false ∧ t.tick = 0 ∧ t.hostTime = 0 ∧ t.hkTime = 0 ∧ t.feTime = []
          ∧ t.lines = [] ∧ (∀ c, coreTime t c = 0 ∧ (coreOf t c).l1 = []) ∧ (∀ a, memByte t a = memByte s a)
          ∧ (∀ b ∈ t.barriers, ∀ x ∈ b.2.arrivals, x.tc = 0)
          ∧ ∀ c slot g n sp, groupAt t c slot = some g → splitAt g n = some sp → sp.wait ≠ some .rebase)
    ∧ (Nat.max 1 s.budper.toNat ≤ (s.clock - s.budAt).toNat →
        ∃ t, exec .budgetPeriod s = .next t ∧ t.budAt = s.budAt + BitVec.ofNat 64 (Nat.max 1 s.budper.toNat)
          ∧ { t with parts := [], budAt := 0 } = { s with parts := [], budAt := 0 }
          ∧ (∀ p, { partOf t p with budgets := [] } = { partOf s p with budgets := [] })
          ∧ ∀ p, ∀ r < 3, let b := budget s p r
              let back := Nat.min b.debt.toNat (b.cfg.extractLsb' 16 16).toNat
              NoCredit b → budget t p r = { b with
                bal := BitVec.ofNat 32 (b.cfg.extractLsb' 32 32).toNat - BitVec.ofNat 32 back,
                debt := b.debt - BitVec.ofNat 32 back })
    ∧ (1500 ≤ (s.clock - s.tokAt).toNat → (s.parts.map (·.1)).Nodup →
        ∃ t, exec .launchTokenTick s = .next t ∧ t.tokAt = s.tokAt + 1500
          ∧ { t with parts := [], tokAt := 0 } = { s with parts := [], tokAt := 0 }
          ∧ ∀ p ∈ s.parts.map (·.1), let b := budget s p 0
              let held := (s.cores.map fun c => (c.2.slots.filter fun x => x.2.part == p).length).sum
              NoCredit b → budget t p 0 = { b with bal := b.bal - BitVec.ofNat 32 held })
    ∧ (∀ n, let p := partOf s n
        (p.ack = false → exec (.shootDown n) s = .next s)
        ∧ (p.ack = true → ∃ t, exec (.shootDown n) s = .next t
            ∧ { t with parts := [], cores := [], quads := [], launches := [] }
              = { s with parts := [], cores := [], quads := [], launches := [] }
            ∧ partOf t n = { p with gen := p.gen + 1, ack := false }
            ∧ (∀ c, ∀ e ∈ (coreOf t c).tlb, e ∈ (coreOf s c).tlb ∧ (e.part = n → shotDown p e.va (pageBytes e.psz) = false))
            ∧ (∀ q, ∀ e ∈ (quadOf t q).tlb, e ∈ (quadOf s q).tlb ∧ (e.part = n → shotDown p e.va (pageBytes e.psz) = false))
            ∧ (∀ c slot g, groupAt s c slot = some g → ∃ g', groupAt t c slot = some g' ∧ Shot p (g.part = n) g g')
            ∧ ∀ x l, launchOf s x = some l → ∃ l', launchOf t x = some l'
                ∧ { l' with records := [] } = { l with records := [] } ∧ l'.records.length = l.records.length
                ∧ ∀ (i : Nat) r r', l.records[i]? = some r → l'.records[i]? = some r' →
                    { r' with groups := [] } = { r with groups := [] } ∧ r'.groups.length = r.groups.length
                    ∧ ∀ (j : Nat) y y', r.groups[j]? = some y → r'.groups[j]? = some y' →
                        { y' with grp := y.grp } = y ∧ Shot p (l.part = n) y.grp y'.grp)
        ∧ (p.ack = false → (∀ k ∈ s.cores, (∀ w ∈ k.2.walks, w.part = n → w.g = p.gen) ∧ ∀ x ∈ k.2.slots, x.2.part = n →
              (∀ y ∈ x.2.trbs, y.g = p.gen) ∧ x.2.pend = [] ∧ ∀ td, x.2.isTender = some td → td.hold = []) →
            exec (.shootDownAck n) s = .next (setPart s n { p with ack := true })))
    ∧ (∀ n l t0, launchOf s n = some l → l.sliceT = some t0 → l.status = 0 →
        let q : StreamId := ⟨l.part, l.stream⟩
        let ends := t0 + 1500 * l.slice
        let stuck := ∃ x ∈ allStreams s, x ≠ q ∧ headStuck { s with clock := BitVec.ofNat 64 ends } x = true
        (s.clock.toNat ≤ ends → exec (.sliceExpiry n) s = .next s)
        ∧ (l.teams ≤ l.retired → (∀ x ∈ (streamOf s q).teams, x.launch ≠ n) → l.recPend = [] → l.retiredAt.toNat ≤ ends →
            exec (.sliceExpiry n) s = .next s)
        ∧ (ends < s.clock.toNat → l.retired < l.teams →
            (s.hot = false → ¬ stuck → exec (.sliceExpiry n) s = .next (setLaunch s n { l with sliceT := some ends }))
            ∧ (s.hot = true ∨ stuck → ∃ t l', exec (.sliceExpiry n) s = .next t ∧ launchOf t n = some l' ∧ l'.sliceT = none
                ∧ l'.preempted = !(streamOf t q).held.isEmpty
                ∧ ∀ x, x ∈ (streamOf t q).held ↔ x ∈ allStreams s ∧ x ≠ q ∧ (streamOf s x).teams ≠ [])))
    ∧ (∀ n, exec (.hostReadBufferExpiry n) s = .next { s with hostBuf := s.hostBuf.eraseIdx n })
    ∧ exec .thermalThrottle s = .next { s with hot := true } ∧ exec .thermalRecover s = .next { s with hot := false }

/-- The array's and the copy engine's events (R245, R257, R258, R264–R267, R292, R300): operations start in order, an MMT feeds
its next step, rows enter at the governor's rate, a row is written, an operation drains with its slips; a copy moves its bytes,
or waits for Jalov's service of an absent page. The units in which an operation takes effect are log 12's, what waits for what
log 43's (DEDUCED), the form of Jalov's service log 17's, and events out of their time change nothing (log 20). -/
def Obligations.EngineEvents : Prop :=
  ∀ (s : State) (c : Nat),
    let k := coreOf s c
    let m := k.array
    let put := fun a : MArray => setCore s c { k with array := a }
    (∀ u j r, m.jobs = j :: r → j.unit = u → j.running = false → (∀ y ∈ k.slips, y.slot = j.slot → j.op ≤ y.op) →
      let on := { j with running := true, since := s.clock } :: r
      (u ≠ .sequencer → (∀ ds f, j.what ≠ .mmt ds f) →
        ((∀ a b p f, j.what ≠ .mma a b p f) → exec (.arrayOperationStart c u) s = .next (put { m with jobs := on }))
        ∧ (∀ a b p f, j.what = .mma a b p f → ∃ t, exec (.arrayOperationStart c u) s = .next t
            ∧ { t with cores := [], quads := [] } = { s with cores := [], quads := [] } ∧ (∀ d, d ≠ c → coreOf t d = coreOf s d)
            ∧ coreOf t c = { k with array := { m with jobs := on } }
            ∧ (j.granted = 0 → m.rate = 0 → (coreOf t c).array.req = some s.clock)
            ∧ ∀ q, quadOf t q = if q = c / 4 ∧ quadActive s q = false then
                { quadOf s q with govAt := (s.clock.toNat + 3) / 4 * 4 } else quadOf s q))
      ∧ ∀ ds f, j.what = .mmt ds f → u = .sequencer → m.mmt = none →
          exec (.arrayOperationStart c u) s = .next (put { m with
            jobs := r.filter fun x => x.op != j.op
            mmt := some { op := j.op, slot := j.slot, ds := ds, f := f, fed := 0, done := 0, status := 0 }, steps := 0 }))
    ∧ (∀ r, m.mmt = some r → r.fed < mmtSteps (mmtDesc r.ds) →
        let o := mmtStepOp c r.ds r.f r.fed
        let j : ArrJob :=
          { op := r.op, slot := r.slot, unit := opUnit o, what := o, running := false, since := 0, granted := 0, rows := 0
            mmt := true }
        unitLoad m (opUnit o) < 8 → ∃ t, exec (.mmtStep c) s = .next t ∧ OnCore s t c
          ∧ (coreOf t c).array = { m with jobs := m.jobs ++ [j], mmt := some { r with fed := r.fed + 1 } })
    ∧ (∀ quad, let now := (quadOf s quad).govAt
        (quadActive s quad = false ∨ s.clock.toNat ≤ now → exec (.slewGovernorStep quad) s = .next s)
        ∧ (quadActive s quad = true → now < s.clock.toNat → ∃ t, exec (.slewGovernorStep quad) s = .next t
        ∧ { t with cores := [], quads := [] } = { s with cores := [], quads := [] }
        ∧ (∀ q, quadOf t q = if q = quad then { quadOf s q with govAt := now + 4 } else quadOf s q)
        ∧ (∀ d, d / 4 ≠ quad → coreOf t d = coreOf s d)
        ∧ let old := fun i => (coreOf s (4 * quad + i)).array
          let new := fun i => (coreOf t (4 * quad + i)).array
          (∀ i < 4, (old i).rate ≠ 0 →
              (new i).rate = if 0 < readyRows now (old i) then Nat.min ((old i).rate + 1) 4 else (old i).rate - 1)
          ∧ (∀ i < 4, (old i).rate = 0 → (new i).rate = 0 ∨ (new i).rate = 1 ∧ 0 < readyRows now (old i) ∧ (new i).req = none)
          ∧ (∀ i < 4, let q := readyRows now (old i)
              let rate := (new i).rate
              readyRows now (new i) = q - rate
              ∧ (new i).wait = (old i).wait + (if rate = 0 ∧ 0 < q then 4 else 0)
              ∧ (new i).short = (old i).short + BitVec.ofNat 64 (if rate = 0 then 0 else Nat.min q 4 - rate)
              ∧ (new i).fill = (old i).fill + BitVec.ofNat 64 (rate - q))
          ∧ ((∃ i < 4, (old i).rate = 0 ∧ 0 < readyRows now (old i)) → ∃ i < 4, (old i).rate = 0 ∧ (new i).rate = 1)
          ∧ ∀ i < 4, ∀ j < 4, (old i).rate = 0 → (new i).rate = 1 → (old j).rate = 0 → (new j).rate = 1 → i = j))
    ∧ (∀ j r a b p f, m.jobs = j :: r → j.running = true → j.rows < j.granted → j.what = .mma a b p f → j.mmt = false →
        let base := 4096 * (b.extractLsb' 12 2).toNat + 64 * ((b.extractLsb' 6 6).toNat + j.rows)
        ∃ t, exec (.accumulatorRowWrite c) s = .next t ∧ (coreOf t c).array.jobs = { j with rows := j.rows + 1 } :: r
          ∧ (∀ x, memByte t x = memByte s x)
          ∧ ∀ n, n < base ∨ base + 64 ≤ n → tabGet 0 (coreOf t c).array.acc n = tabGet 0 m.acc n)
    ∧ (∀ j r, m.jobs = j :: r → j.unit = .stream → j.running = true → j.rows = 0 → j.what = .wswp → j.mmt = false →
        ∃ t, exec (.arrayOperationDrain c .stream) s = .next t ∧ (∀ x, memByte t x = memByte s x)
          ∧ (coreOf t c).array.front = m.back ∧ (coreOf t c).array.back = m.front ∧ (coreOf t c).array.fscale = m.bscale
          ∧ (coreOf t c).array.bscale = m.fscale ∧ (coreOf t c).array.jobs = r
          ∧ (coreOf t c).slips = k.slips.filter fun y => y.op != j.op)
    ∧ (∀ r, m.mmt = some r → mmtSteps (mmtDesc r.ds) ≤ r.fed → (∀ j ∈ m.jobs, j.mmt = false) →
        ∃ t, exec (.arrayOperationDrain c .sequencer) s = .next t ∧ (coreOf t c).array.mmt = none
          ∧ (coreOf t c).slips = k.slips.filter fun y => y.op != r.op)
    ∧ (∀ run j rest, k.copies = run ++ j :: rest → (∀ x ∈ run, x.running = true) → j.running = false →
        (∀ x ∈ rest, x.running = false) → run.length < 4 →
        exec (.copyOperationStart c) s = .next (setCore s c { k with copies := run ++ { j with running := true } :: rest }))
    ∧ (∀ idx j g a b x, k.copies[idx]? = some j → j.running = true → j.fault = none → copyClear k (k.copies.take idx) j = true →
        groupAt s c j.slot = some g → j.what = .cpy a b x → endpointAt s c g.part g.launch a = none →
        endpointAt s c g.part g.launch b = none →
        let n := cpyLen x
        0 < n → a.toNat % 16 + n ≤ 16 → b.toNat % 16 + n ≤ 16 →
        (Coherent s c → engLoc s c g.part g.launch a % 128 + n ≤ 128 → unitCheck s c g.part g.launch (.move a b n) = none →
          ∃ t, exec (.copyOperationEnd c idx) s = .next t
            ∧ (∀ y, memByte t y = writeBytes (memByte s) (engLoc s c g.part g.launch b) n
                (bytesAt (memByte s) (engLoc s c g.part g.launch a) n) y)
            ∧ (∀ y ∈ (coreOf t c).copies, y.op ≠ j.op) ∧ ∀ y ∈ (coreOf t c).slips, y.op ≠ j.op)
        ∧ ∀ va, unitCheck s c g.part g.launch (.move a b n) = some (.absent va) →
            ∃ t, exec (.copyOperationEnd c idx) s = .next t ∧ t.reports = s.reports ++ [.copyFault (cgid g) c j.op va]
              ∧ ∀ y ∈ (coreOf t c).copies, y.op = j.op → y.fault = some va)
    ∧ ∀ idx j va, k.copies[idx]? = some j → j.fault = some va →
        (∃ t, exec (.copyAccessRetry c idx .prot) s = .next t ∧ (∀ y ∈ (coreOf t c).copies, y.op ≠ j.op)
          ∧ ∀ y ∈ (coreOf t c).slips, y.op ≠ j.op)
        ∧ ∀ pa x g, groupAt s c j.slot = some g → ∃ t, exec (.copyAccessRetry c idx (.entries [(pa, x)])) s = .next t
            ∧ Serviced s t pa x
            ∧ ∀ y ∈ (coreOf t c).copies, y.op = j.op → y.fault = none

/-- The registers and the fetching of a launch stream, and the packets that move nothing but the stream (R311–R322); where
TAIL is then too far ahead of HEAD it stops with OVERRUN (R312). What a stream fetches and when it looks again is read as log 47 says (DEDUCED); events out of their time change nothing (log 20). -/
def Obligations.StreamEvents : Prop :=
  ∀ (s : State) (q : StreamId),
    (∀ x f, let i := Instr.nopk q
      Turn s q x f i →
        (InRing x → exec i s = .next (movedOn s q (afterPackets x 1)))
        ∧ ∀ b r, x.loop = none → x.xbufs = b :: r → 1 < b.left →
            exec i s = .next (movedOn s q
              { x with window := x.window.drop 1, xbufs := { b with va := b.va + 64, left := b.left - 1 } :: r }))
    ∧ (∀ x f a n, Turn s q x f (.ib q a n) → f.depth < 2 → x.loop = none →
        exec (.ib q a n) s = .next (setStream s q
          { x with window := x.window.drop 1, xbufs := { va := a, left := n.toNat, depth := f.depth + 1 } :: x.xbufs }))
    ∧ (∀ x f a n, Turn s q x f (.ib q a n) → 2 ≤ f.depth ∨ x.loop ≠ none →
        ∃ t, exec (.ib q a n) s = .next t ∧ streamOf t q = stoppedWith x 1 f.va)
    ∧ (∀ x f n k, let body := (x.window.drop 1).take n.toNat
        Turn s q x f (.loop q n k) → InRing x → body.length = n.toNat → (∀ y ∈ body, pktOp y.words ∉ [2, 4, 5]) →
        exec (.loop q n k) s = .next (if k = 0 then movedOn s q (afterPackets x (n.toNat + 1))
          else setStream s q { x with loop := some (0, k.toNat) }))
    ∧ (∀ x f, Turn s q x f (.ffence q) →
        (InRing x →
          exec (.ffence q) s = .next (setStream s q { afterPackets x 1 with window := [], fbufs := [], fring := x.head + 1 }))
        ∧ ∀ b, x.loop = none → 1 < b.left →
            let on := fun y : BufAt => { y with va := y.va + 64, left := y.left - 1 }
            (x.xbufs = [b] → exec (.ffence q) s = .next (setStream s q
              { x with window := [], xbufs := [on b], fbufs := [on b], fring := x.head + 1 }))
            ∧ ∀ o, x.xbufs = [b, o] → exec (.ffence q) s = .next (setStream s q
                { x with window := [], xbufs := [on b, o], fbufs := on b :: (if 1 < o.left then [on o] else [])
                         fring := x.head + 1 }))
    ∧ (∀ x va, streamOf s q = x → x.mayFetch = true → x.fbufs = [] → va = x.at x.fring →
        (∀ loc, x.skip = 0 → Readable s q.part va loc →
          let ws := wordsAt s loc
          let y := { x with fring := x.fring + 1, window := x.window ++ [{ va := va, words := ws, depth := 0 }] }
          ∃ t, exec (.packetFetch q) s = .next t ∧ (∀ a, memByte t a = memByte s a)
            ∧ (∀ a n, packetInstr q ws = some (.ib q a n) → streamOf t q = { y with
                fbufs := [{ va := a, left := n.toNat, depth := 1 }] })
            ∧ ((∀ a n, packetInstr q ws ≠ some (.ib q a n)) → streamOf t q = y))
        ∧ (vaPlain s q.part va false = .absent →
            (x.wait = none → exec (.packetFetch q) s = .next
              (report (setStream s q { x with wait := some (va, true) }) (.frontEnd q.part q.num va)))
            ∧ (x.wait ≠ none → exec (.packetFetch q) s = .next s)))
    ∧ (∀ x f, streamOf s q = x → x.packet = some f → f.words ≠ [] → packetInstr q f.words = none →
        exec (.packetFetch q) s = .next (report (setStream s q (stoppedWith x 1 f.va)) (.stream q.part q.num)))
    ∧ (q.part < 48 → q.num < 16 → ∀ v : Word,
        let x := { streamOf s q with die := (v.extractLsb' 12 3).toNat, log2n := (v.extractLsb' 0 5).toNat }
        let size := 2 ^ x.log2n
        let ok := 4 ≤ x.log2n ∧ x.log2n ≤ 20 ∧ x.base.toNat % (64 * size) = 0
          ∧ ∃ y ∈ s.quads, y.1 / 32 = x.die ∧ y.2.owner = some q.part
        let on := { x with en := true, errCode := 0, errVa := 0, window := [], fring := x.head, fbufs := [], xbufs := []
                           loop := none, skip := 0, wait := none }
        (s.ready = false → exec (.sqctlWrite q v) s = .next s ∧ exec (.sqtailWrite q v) s = .next s)
        ∧ (s.ready = true → (v.getLsbD 15 = false → exec (.sqctlWrite q v) s = .next (setStream s q { x with en := false, wait := none }))
        ∧ (v.getLsbD 15 = true → ¬ ok → ∃ t, exec (.sqctlWrite q v) s = .next t ∧ streamOf t q = stoppedWith x 4 0)
        ∧ (v.getLsbD 15 = true → ok → exec (.sqctlWrite q v) s = .next (movedOn s q on))
        ∧ exec (.sqtailWrite q v) s = .next (movedOn s q { streamOf s q with tail := v.setWidth 32 })))
    ∧ ∀ x va fetch, streamOf s q = x → x.wait = some (va, fetch) →
        (∀ pa v, ∃ t, exec (.frontEndFaultResume q (.entries [(pa, v)])) s = .next t ∧ streamOf t q = { x with wait := none }
          ∧ Serviced s t pa v)
        ∧ (fetch = false → ∃ t e, exec (.frontEndFaultResume q .prot) s = .next t ∧ streamOf t q = stoppedWith x 2 e)

/-- The packets that read and write memory, and LAUNCH (R320, R322, R323, R326, R329, R345). The model's own are the key of a launch
(log 38, DESIGN CHOICE) and how a stream waits (log 47, DEDUCED); events out of their time change nothing (log 20). -/
def Obligations.PacketEvents : Prop :=
  ∀ (s : State) (q : StreamId) (x : Stream) (f : Fetched),
    (∀ c wide a v loc, let i := Instr.waitmem q c wide a v
      Turn s q x f i → InRing x → Readable s q.part a loc →
      ∃ t, exec i s = .next t ∧ (∀ b, memByte t b = memByte s b)
        ∧ streamOf t q = if waitHolds c (accSize wide) (bytesAt (memByte s) loc (accSize wide)) v then onward (afterPackets x 1) else x)
    ∧ (∀ n c wide a v loc, let i := Instr.pred q n c wide a v
      Turn s q x f i → InRing x → Readable s q.part a loc →
      ∃ t, exec i s = .next t ∧ (∀ b, memByte t b = memByte s b)
        ∧ (waitHolds c (accSize wide) (bytesAt (memByte s) loc (accSize wide)) v = true → streamOf t q = onward (afterPackets x 1))
        ∧ (waitHolds c (accSize wide) (bytesAt (memByte s) loc (accSize wide)) v = false → x.window.length = 1 →
            streamOf t q = onward { afterPackets x 1 with skip := n.toNat })
        ∧ (waitHolds c (accSize wide) (bytesAt (memByte s) loc (accSize wide)) v = false → n.toNat < x.window.length →
            x.window.length ≤ (x.tail - x.head).toNat → (∀ y ∈ x.window, y.depth = 0) → x.fbufs = [] →
            streamOf t q = onward (afterPackets x (n.toNat + 1))))
    ∧ (∀ wide a v loc mt, let i := Instr.write q wide a v
      Turn s q x f i → InRing x → vaPlain s q.part a true = .ok loc mt →
      ∃ t, exec i s = .next t ∧ streamOf t q = onward (afterPackets x 1)
        ∧ ∀ b, memByte t b = writeBytes (memByte s) loc (accSize wide) v.toNat b)
    ∧ (∀ irq wide a v loc loc' mt, let i := Instr.signal q irq wide a v
      Turn s q x f i → InRing x → Readable s q.part a loc → vaPlain s q.part a true = .ok loc' mt →
      ∃ t, exec i s = .next t ∧ streamOf t q = onward (afterPackets x 1)
        ∧ (∀ b, memByte t b = writeBytes (memByte s) loc (accSize wide) (bytesAt (memByte s) loc (accSize wide) + v.toNat) b)
        ∧ t.msix = s.msix ++ if irq then [(q.part, q.num)] else [])
    ∧ ∀ (p : LaunchPkt) (as hs : List Word) (s1 s2 : State) (m : Mapping), let i := Instr.launch q p
      let h : Nest := { h0 := hs.getD 0 0, h1 := hs.getD 1 0, h2 := hs.getD 2 0, lv := hs.drop 3 }
      let ext := fun n => extentOf (as.flatMap fun w => [(w.extractLsb' 0 32).toNat, (w.extractLsb' 32 32).toNat]) (h.level n)
      Turn s q x f i → InRing x → launchOk p = true → (p.ser = true → ∀ l ∈ s.launches, l.2.part = q.part → l.2.stream = q.num →
        l.2.status ≠ 0 ∧ l.2.recPend = []) →
      vaReadWords s (.front x.die) q.part p.w4 8 = some (.ok (as, s1)) →
      vaReadWords s1 (.front x.die) q.part p.w1 11 = some (.ok (hs, s2)) → pagesOk s2 q.part [p.w5] = none →
      nestBad h = false → (h.phased = true → p.w7 ≠ 0) → (∀ n < h.nlev, ext n ≠ 0) → mapNest h ext = some m →
      ∃ t n l, exec i s = .next t ∧ launchOf s n = none ∧ launchOf t n = some l
        ∧ streamOf t q = { onward { afterPackets x 1 with launchNo := x.launchNo + 1 } with
            teams := x.teams ++ [{ launch := n, first := 0, n := m.teams }] }
        ∧ l.part = q.part ∧ l.stream = q.num ∧ l.lseq = x.launchNo.toNat ∧ l.text = p.w2 ∧ l.data = p.w3 ∧ l.recArea = p.w5
        ∧ l.rsize = (p.w6.extractLsb' 0 32).toNat ∧ l.slice = (p.w6.extractLsb' 32 32).toNat ∧ l.phaseA = p.w7 ∧ l.irq = p.irq
        ∧ l.pid = x.sqpid ∧ l.nlev = h.nlev ∧ l.valloc = h.valloc ∧ l.phased = h.phased ∧ l.carry = h.h2
        ∧ l.entry = BitVec.ofNat 64 (p.w2.toNat / 12 + h.entry) ∧ l.teams = m.teams ∧ l.groups = m.groups ∧ l.lanes = m.lanes
        ∧ l.status = 0 ∧ l.retired = 0 ∧ l.records = []

/-- What becomes of teams and launches (R174, R190, R199, R222, R233, R234, R240, R241, R265, R326–R333, R355, R356, R361,
R378): a team is placed, fresh or from its record, in places that no team has freed in the last 8 cycles; a launch ends and writes
T1 and STATUS; teams are saved, at a phase boundary in 64 + 32c cycles; a tender commits or is squashed; STARVE and ENDED list
groups, whose colophons follow. Logs 23, 24, 30, 37, 42 and 51 mark the model's readings
of records, of what a save waits for, of the split that stands for a group, of the order of entries, of tenders and of the
times of saves. -/
def Obligations.TeamEvents : Prop :=
  ∀ s : State,
    (∀ d q c n team l, nextPlacement s d = some (q, c, n, team, l) → recordOf l team = none →
      ∃ t, exec (.teamPlacement d) s = .next t
        ∧ (∀ k < l.groups, ∃ slot g, groupAt t c slot = some g
            ∧ StartsAt g n team k l (s.clock.toNat + 16 + 8 * launchGranules l) ∧ Cool s c fun f => slot ∉ f.slots)
        ∧ (∀ slot g, groupAt s c slot = some g → groupAt t c slot = some g)
        ∧ (streamOf t q).teams = popTeam (streamOf s q).teams
        ∧ ∃ base, (∀ i < launchGranules l, tabFind (base + i) (coreOf s c).granules = none
              ∧ tabFind (base + i) (coreOf t c).granules = some (n, team) ∧ Cool s c fun f => base + i ∉ f.grans)
            ∧ ∀ a < 4096 * launchGranules l, memByte t (2 ^ 52 + 2 ^ 20 * c + 4096 * base + a) = 0)
    ∧ (∀ d q c n team l r, nextPlacement s d = some (q, c, n, team, l) → recordOf l team = some r →
        (badRecord s l team = true → l.status = 0 → ∃ t, exec (.teamPlacement d) s = .next t ∧ ∀ l', launchOf t n = some l' → l'.status = 7)
        ∧ (badRecord s l team = false → r.groups.length ≤ l.groups → ∃ t, exec (.teamPlacement d) s = .next t
            ∧ ∀ y ∈ r.groups, ∃ slot g, groupAt t c slot = some g ∧ g.started = false
                ∧ g.hold = s.clock.toNat + 16 + 8 * launchGranules l + (if r.whole then 0 else 64 + 32 * carried l)
                ∧ { g with pipe := 0, started := false, hold := 0, stalls := [] }
                  = { y.grp with pipe := 0, started := false, hold := 0, stalls := [] }))
    ∧ (∀ n l, launchOf s n = some l → l.status = 0 → l.teams ≤ l.retired → l.recPend = [] →
        (∀ x ∈ (streamOf s ⟨l.part, l.stream⟩).teams, x.launch ≠ n) →
        ∃ t, exec (.launchEnd n) s = .next t
          ∧ ((∀ l', launchOf t n = some l' → l'.recPend = []) →
              t.msix = s.msix ++ (if l.irq then [(l.part, l.stream)] else []))
          ∧ ((∃ l', launchOf t n = some l' ∧ l'.recPend ≠ []) → t.msix = s.msix)
          ∧ (∀ y ∈ t.hostBuf, y.fn ≠ l.part) ∧ (∀ l', launchOf t n = some l' → l'.status = 1 ∧ l'.sliceT = none)
          ∧ ∀ loc mt, RecHere s l loc mt → ∀ a, memByte t a = closedBy loc s.clock 1 (memByte s) a)
    ∧ (∀ launch team l c, launchOf s launch = some l → teamCore s launch team = some c →
        let gs := teamGroups (coreOf s c) launch team
        let ends := s.clock.toNat + 64 + 32 * carried l
        ((∃ x ∈ gs, liveMask x.2 ≠ 0) → (∀ x ∈ gs, x.2.stopped = false ∧ x.2.pend = [] ∧ ∀ p ∈ x.2.splits, p.2.wait = some .phase) →
          teamSlipped (coreOf s c) launch team = false →
          ((∀ x ∈ gs, x.2.saveAt = 0) → ((coreOf s c).slots.map (·.1)).Nodup →
            ∃ t, exec (.phaseBoundary launch team) s = .next t ∧ OnCore s t c
              ∧ ∀ n, groupAt t c n = match groupAt s c n with
                | some g => if (n, g) ∈ gs then some { g with saveAt := ends } else some g
                | none => none)
          ∧ ((∃ x ∈ gs, x.2.saveAt ≠ 0) → (∀ x ∈ gs, x.2.saveAt ≤ s.clock.toNat) →
            ∃ t, exec (.phaseBoundary launch team) s = .next t ∧ Parked s t c launch team l false true)
          ∧ ((∃ x ∈ gs, x.2.saveAt ≠ 0) → (∃ x ∈ gs, s.clock.toNat < x.2.saveAt) →
            exec (.phaseBoundary launch team) s = .next s))
        ∧ (l.phased = true → (partOf s l.part).starving = true → partStarved s l.part = true →
            (coreOf s c).array.claim ≠ some (launch, team) →
          ∃ t, exec (.teamSpill launch team) s = .next t ∧ Parked s t c launch team l true false))
    ∧ (∀ c r g l, (coreOf s c).array.mmt = some r → groupAt s c r.slot = some g → launchOf s g.launch = some l → s.turn = none →
        (coreOf s c).array.jobs = [] → r.fed < mmtSteps (mmtDesc r.ds) →
        (∀ x ∈ teamSlots (coreOf s c) g.launch g.team, x.2.pend = [] ∧ ∀ y ∈ (coreOf s c).slips, y.slot = x.1 → y.op = r.op) →
        ∃ t, exec (.mmtForcedStop c) s = .next t ∧ Parked s t c g.launch g.team l true true
          ∧ (coreOf t c).array.mmt = none)
    ∧ (∀ c slot g f ret base stride, groupAt s c slot = some g → retMeeting g = some (f, ret, base, stride) →
        g.gdbg.getLsbD 0 = false →
        let u := retIssued s c slot g ret base stride
        let goes := fun (t : State) (g' : Group) => groupAt t c slot = some g' ∧ g'.hold = t.clock.toNat + 8
          ∧ (∀ n sp, splitAt g n = some sp → splitAt g' n = some (startAt { sp with stack := sp.stack.drop 1 } ret sp.mask))
          ∧ g'.vregs = g.vregs ∧ g'.gregs = g.gregs ∧ g'.pregs = g.pregs
        (tenderOf (coreOf u c) slot f = none → ∃ t g', exec (.tenderValidation c slot) s = .next t ∧ goes t g')
        ∧ ∀ ts td k, tenderOf (coreOf u c) slot f = some (ts, td) → groupAt u c ts = some k → ts ≠ slot →
            (tenderHolds u c slot g td = false ∨ commitAccesses u c g.part td = none →
              ∃ t g', exec (.tenderValidation c slot) s = .next t ∧ groupAt t c ts = none ∧ goes t g')
            ∧ (tenderHolds u c slot g td = true → (commitAccesses u c g.part td).isSome = true → (g.vregs.map (·.1)).Nodup →
              ∃ t g', exec (.tenderValidation c slot) s = .next t ∧ groupAt t c slot = none ∧ groupAt t c ts = some g'
                ∧ g'.isTender = none ∧ g'.gnum = g.gnum ∧ g'.gregs = k.gregs ∧ g'.pregs = k.pregs
                ∧ g'.fstat = g.fstat ||| (k.fstat &&& 0x1F) ∧ g'.hold = t.clock.toNat + 8 + (g.valloc - td.n)
                ∧ ∀ i, tabGet 0 g'.vregs i =
                    if 32 * td.n ≤ i ∧ tabGet false td.written i = false then tabGet 0 g.vregs i else tabGet 0 k.vregs i))
    ∧ (∀ p, starved s p = true →
        ∃ t, exec (.starve p) s = .next t ∧ Report.starve p ∈ t.reports
          ∧ (canSpill s p = true → t.reports = s.reports ++ [.starve p] ∧ t.launches = s.launches
              ∧ (partOf t p).starving = true)
          ∧ (canSpill s p = false → (s.launches.map (·.1)).Nodup →
              ∀ n ∈ stalledLaunches s p, ∀ l, launchOf t n = some l → l.status = 5)
          ∧ ∀ n l c slot g loc mt k sp r x w, canSpill s p = false → stalledLaunches s p = [n] → OneGroup s n l c slot g loc mt →
              g.splits = (k, sp) :: r → sp.wait = some x → awaits x = some w →
              ∀ a, memByte t a = endedBy s l g loc (deadlockWords g sp w) 5 a)
    ∧ (∀ n l c slot g loc mt, OneGroup s n l c slot g loc mt → g.stopped = true → g.trrec.kind ≠ 2 →
        ∃ t, exec (.ended n) s = .next t ∧ ∀ a, memByte t a = endedBy s l g loc (trapWords g) 6 a)
    ∧ (∀ n l c slot g, launchOf s n = some l → l.status = 0 → groupAt s c slot = some g → g.launch = n → g.isTender = none →
        g.stopped = true → g.trrec.kind ≠ 2 →
        ∃ t, exec (.ended n) s = .next t ∧ (∀ l', launchOf t n = some l' → l'.status = 6)
          ∧ ∀ d k y, groupAt t d k = some y → y.launch = n → y.isTender = none → liveMask y = 0)
    ∧ ∀ n l op va, launchOf s n = some l → l.recPend = [op] → pagesOk s l.part (recAddrs s l op) = some (.absent va) →
        ∃ t, exec (.recordAreaFaultResume n .prot) s = .next t ∧ t.reports = s.reports ++ [.recDrop n 0x12]
          ∧ ∀ l', launchOf t n = some l' → l'.recPend = [] ∧ l'.recProt = l.recProt ++ [va.toNat / 65536]

/-- Stopped groups, registers written from outside, margin runs and links (R81, R128, R178, R269, R305–R309, R334, R335, R343,
R344, R347, R349, R357, R358, R360–R363, R370, R372, R373). The model's own are: how a debugger's edits are given, that a replay or
a skip of a stop that waits for neither changes nothing, and that Jalov may replay a stop with FPE (log 17, DEDUCED); that an event
which is not enabled, a register's write before the package is ready among them, changes nothing (logs 20 and 48); the margin run that calibrates a lane (log 22), packets beyond the ports and queues open to them (log 14), and what a self-test leaves
(log 49). -/
def Obligations.OutsideEvents : Prop :=
  ∀ s : State,
    (∀ c slot g, groupAt s c slot = some g → g.stopped = true →
      let n := g.trrec.split.toNat
      let held := (partOf s g.part).dbgctl.getLsbD 1 = true ∧ (g.trrec.kind = 3
        ∨ (g.trrec.kind = 0 ∧ g.trrec.cause ∈ [causeCode .bkpt, causeCode .step, causeCode .watch]))
      let again := held ∨ (g.trrec.kind = 0 ∧ g.trrec.cause = causeCode .fpe)
      (¬ again → ∀ edits, exec (.groupResume c slot .replay edits) s = .next s)
      ∧ (¬ held → g.trrec.kind ≠ 2 → ∀ edits, exec (.groupResume c slot .skip edits) s = .next s)
      ∧ (∀ sp, again → g.stepDue = false → splitAt g n = some sp → (∀ va k, sp.wait ≠ some (.fault va k true)) →
        ∃ t g', exec (.groupResume c slot .replay []) s = .next t ∧ OnGroup s t c slot ∧ groupAt t c slot = some g'
          ∧ { g' with stopped := true, splits := [] } = { g with splits := [] } ∧ g'.stopped = false
          ∧ ∀ m, splitAt g' m = splitAt g m)
      ∧ (∀ sp, again → g.stepDue = true → g.gdbg.getLsbD 0 = true → g.isTender = none → slot ∉ tendersOf (coreOf s c) slot →
        splitAt g n = some sp → ∃ t g', exec (.groupResume c slot .replay []) s = .next t ∧ groupAt t c slot = some g'
          ∧ g'.stopped = true ∧ g'.stepDue = false ∧ g'.trrec = recordAt ⟨c, slot, n⟩ sp 0x31 0 0 0)
      ∧ (∀ sp, splitAt g n = some sp → g.watch = none → g.stepDue = false → (held ∨ g.trrec.kind = 2) →
        let w := codeWord s c g sp.pc sp.word
        let call := g.trrec.kind = 2
        let goesOn := chains w = true ∧ switches w = false ∧ sp.word < 2 ∧ ¬ call ∧ isControl w = false
        ∃ t g' sp', exec (.groupResume c slot .skip []) s = .next t ∧ Rest s t ⟨c, slot, n⟩ ∧ groupAt t c slot = some g'
          ∧ { quietGroup g' with stopped := true, splits := [] } = { quietGroup g with splits := [] } ∧ g'.stopped = false
          ∧ (goesOn → t.clock = s.clock) ∧ (¬ goesOn → t.clock = s.clock + BitVec.ofNat 64 sp.run.occ)
          ∧ splitAt g' n = some sp' ∧ (∀ m, m ≠ n → splitAt g' m = splitAt g m) ∧ sp'.mask = sp.mask ∧ sp'.wait = none
          ∧ (call → sp' = startAt sp (sp.pc + 1) sp.mask)
          ∧ (¬ call → (sp'.pc, sp'.word) = (if isControl w = true ∨ 2 ≤ sp.word then (sp.pc + 1, 0) else (sp.pc, sp.word + 1))
              ∧ (sp'.word = 0 → sp'.run = Run.start)))
      ∧ (∀ sp a, splitAt g n = some sp → g.watch = some a → g.isTender = none → slot ∉ tendersOf (coreOf s c) slot →
        held ∨ g.trrec.kind = 2 → ∃ t g', exec (.groupResume c slot .skip []) s = .next t ∧ groupAt t c slot = some g'
          ∧ g'.stopped = true ∧ g'.watch = none ∧ g'.trrec.cause = causeCode .watch ∧ g'.trrec.addr = a)
      ∧ (again → g.stepDue = false → (∀ (i : Fin 32) x, ∃ t g', exec (.groupResume c slot .replay [.group i x]) s = .next t
            ∧ groupAt t c slot = some g'
            ∧ ∀ j : Fin 32, tabGet 0 g'.gregs j.val = if j = i then x else tabGet 0 g.gregs j.val)
        ∧ (∀ (i : Fin 64) k x, k < 32 → i.val < g.valloc →
            (∃ p ∈ g.splits, p.2.mask.getLsbD k = true ∨ ∃ d ∈ g.defers, d.owner = p.1 ∧ d.mask.getLsbD k = true) →
            ∃ t g', exec (.groupResume c slot .replay [.thread k (.v i) x]) s = .next t ∧ groupAt t c slot = some g'
              ∧ ∀ m, tabGet 0 g'.vregs m = if m = 32 * i.val + k then x else tabGet 0 g.vregs m)
        ∧ (∀ x : Word, ∃ t g', exec (.groupResume c slot .replay [.fstat x]) s = .next t ∧ groupAt t c slot = some g'
            ∧ g'.fstat.extractLsb' 0 5 = g.fstat.extractLsb' 0 5 &&& ~~~x.extractLsb' 0 5 ∧ g'.fstat.extractLsb' 5 3 = 0
            ∧ g'.fstat.extractLsb' 8 5 = x.extractLsb' 8 5)
        ∧ ∀ (i : Fin 8) a b, let base : Word := (a.extractLsb' 0 57).signExtend 64
          ∃ t g', exec (.groupResume c slot .replay [.trreg i a b]) s = .next t ∧ groupAt t c slot = some g'
            ∧ tabGet TReg.reset g'.tregs i.val =
              ⟨a.getLsbD 63, a.extractLsb' 61 2, a.getLsbD 60, a.getLsbD 59, base, b.extractLsb' 62 2, b.extractLsb' 0 52⟩
            ∧ ∀ j : Nat, j ≠ i.val → tabGet TReg.reset g'.tregs j = tabGet TReg.reset g.tregs j))
    ∧ (∀ c slot g sp, groupAt s c slot = some g → g.stopped = false → g.isTender = none → s.turn = none →
        splitAt g g.last = some sp → slot ∉ tendersOf (coreOf s c) slot →
        ∃ t g', exec (.debuggerStop c slot) s = .next t ∧ groupAt t c slot = some g' ∧ frameStopped g' = frameStopped g
          ∧ g'.stopped = true ∧ g'.splits = g.splits ∧ g'.trrec = recordAt ⟨c, slot, g.last⟩ sp 0 3 0 0
          ∧ ∃ pid, t.reports = s.reports ++ [.trap g.part pid (cgid g) 0 3])
    ∧ (∀ c slot first count x g, (coreOf s c).self = [x] → x.slot = slot → groupAt s c slot = some g →
        ∃ t g', exec (.selftestDone c slot first count) s = .next t ∧ (coreOf t c).self = [] ∧ groupAt t c slot = some g'
          ∧ (let found : Word := if count = 0 then 0 else 0x2000000000000000 ||| (first.setWidth 64 <<< 32) ||| count.setWidth 64
            ∀ r ∈ g.results, r.src = .held x.op →
              { r with src := .var, vals := r.vals.map fun p => (p.1, 0x8000000000000000 ||| found) } ∈ g'.results)
          ∧ (x.pattern = 0 → ∀ a < 2 ^ 20, memByte t (2 ^ 52 + 2 ^ 20 * c + a) = 0)
          ∧ (x.pattern = 2 → (coreOf t c).l1 = []) ∧ (x.pattern = 3 → (coreOf t c).icache = []))
    ∧ (s.ready = false → ∀ r x port lane, exec (.registerWrite r x) s = .next s ∧ exec (.lnkstWrite port x) s = .next s
        ∧ exec (.marginRun port lane x) s = .next s)
    ∧ (∀ part x, part < 48 → s.ready = true →
        let p := partOf s part
        let sets := fun (n : Nat) (p' : Part) => exec (.registerWrite (.sys part n) x) s = .next (setPart s part p')
        sets 0xC00 { p with ptroot := x &&& 0x000FFFFFFFFFF000 } ∧ sets 0xC01 { p with sdbase := x }
        ∧ sets 0xC02 { p with sdlen := x } ∧ sets 0xC04 { p with lease := x.setWidth 8 }
        ∧ sets 0xC05 { p with starvint := x.setWidth 32 } ∧ sets 0xC06 { p with pcfg := x.setWidth 2 }
        ∧ sets 0xC07 { p with dbgctl := x.setWidth 2 } ∧ sets 0xC08 { p with hwbase := x &&& 0xFFFFFFFFFFFF0000 }
        ∧ (∀ r < 3, sets (0xC20 + r) { p with budgets := tabPut r { (budget s part r) with cfg := x &&& 0xFFFFFFFFFFFFC000 } p.budgets })
        ∧ exec (.registerWrite (.sys part 0x1000) x) s = .next { s with budper := x.setWidth 32 })
    ∧ (∀ c slot g x, groupAt s c slot = some g → s.ready = true →
        exec (.registerWrite (.group c slot 5) x) s = .next (setGroup s c slot { g with gdbg := x.setWidth 2 })
        ∧ ∃ t g', exec (.registerWrite (.group c slot 0) x) s = .next t ∧ OnGroup s t c slot ∧ groupAt t c slot = some g'
            ∧ { g' with fstat := 0 } = { g with fstat := 0 }
            ∧ g'.fstat.extractLsb' 0 5 = g.fstat.extractLsb' 0 5 &&& ~~~x.extractLsb' 0 5 ∧ g'.fstat.extractLsb' 5 3 = 0
            ∧ g'.fstat.extractLsb' 8 5 = x.extractLsb' 8 5)
    ∧ (∀ port x, s.ready = true → exec (.lnkstWrite port x) s = .next (setPort s port { portOf s port with drop := 0, retry := 0 }))
    ∧ (s.life = .manufacture ∨ s.life = .rma → s.ready = true →
        (∀ d x, d < 8 → let y := BitVec.ofInt 8 (max (-20) (min 20 (x.setWidth 8).toInt))
          exec (.registerWrite (.vmarg d) x) s = .next { s with vmarg := tabPut d y s.vmarg })
        ∧ ∀ port lane x, port < 18 → lane < 4 → ∃ t, exec (.marginRun port lane x) s = .next t
            ∧ (lmargOf t port lane).busy = true ∧ (lmargOf t port lane).toff = x.extractLsb' 8 8
            ∧ (lmargOf t port lane).voff = x.extractLsb' 0 8 ∧ (portOf t port).lanes.getLsbD lane = false)
    ∧ (∀ port lane err, (lmargOf s port lane).busy = true → lane < 4 → s.phyLane ≠ some (4 * port + lane) →
        ∃ t, exec (.marginRunComplete port lane err) s = .next t ∧ (lmargOf t port lane).busy = false
          ∧ (lmargOf t port lane).err = err
          ∧ (portOf t port).lanes.getLsbD lane = !(portOf s port).retired.getLsbD lane)
    ∧ (∀ p : PodPacket, let x := portOf s p.port
        let k : Packet := { words := p.words, trunc := p.trunc }
        p.port < 18 → p.vl < 8 → 1 ≤ p.words.length → p.words.length ≤ 64 → x.up = true → x.failed = false →
        ((p.opn = false ∨ s.podNum ≠ some (pktDest k)) →
          exec (.thedelPacketDelivery p) s = .next (setPort s p.port { x with drop := Nat.min (x.drop + 1) 0xFFFF }))
        ∧ (p.opn = true → s.podNum = some (pktDest k) → tabGet [] x.rx p.vl = [] →
            queueWords (queueOf s (pktQueue k)) + p.words.length ≤ 512 →
            ∃ t, exec (.thedelPacketDelivery p) s = .next t
              ∧ queueOf t (pktQueue k) = { queueOf s (pktQueue k) with closed := (queueOf s (pktQueue k)).closed ++ [k] }
              ∧ ∀ q, q ≠ pktQueue k → queueOf t q = queueOf s q))
    ∧ (∀ port vl, let x := portOf s port
        (port < 18 → vl < 8 → x.up = true → x.failed = false →
          exec (.stop port vl) s = .next (setPort s port { x with stops := tabSet false x.stops vl true }))
        ∧ (tabGet false x.stops vl = true → ∃ t, exec (.go port vl) s = .next t
            ∧ portOf t port = { x with stops := tabSet false x.stops vl false, buf := tabSet 0 x.buf vl 0 }))
    ∧ (∀ port lane, let x := portOf s port
        port < 18 → lane < 4 → x.up = true → x.failed = false → x.lanes.getLsbD lane = true →
        exec (.linkReplay port lane .transient) s = .next
          { (setPort s port { x with retry := Nat.min (x.retry + 1) 0xFFFF }) with reports := s.reports ++ [.error (.link port lane)] }
        ∧ ∀ moves, ∃ t, exec (.linkReplay port lane (.lasting moves)) s = .next t ∧ (portOf t port).retired.getLsbD lane = true
            ∧ (portOf t port).lanes.getLsbD lane = false ∧ t.reports = s.reports ++ [.error (.link port lane)])
    ∧ ∀ port e r, let x := portOf s port
        let q := queueOf s (pktQueue e.pkt)
        x.sent = e :: r → (∀ y ∈ r, y.part = e.part) → e.part < 48 → tabGet 0 x.buf e.vl = 0 →
        (s.podNum = some (pktDest e.pkt) → Config.podOpen (pktQueue e.pkt) = true → queueWords q + e.pkt.words.length ≤ 512) →
        ∃ t, exec (.packetAcknowledgement port) s = .next t ∧ (portOf t port).sent = r ∧ (portOf t port).last = e.part
          ∧ (∀ c slot g, groupAt t c slot = some g → ∀ a ∈ g.acks, a.1 ≠ port + 18 * e.id)
          ∧ (∀ n l, launchOf t n = some l → ∀ r ∈ l.records, ∀ y ∈ r.groups, ∀ a ∈ y.grp.acks, a.1 ≠ port + 18 * e.id)
          ∧ (NoCredit (budget s e.part 2) → e.part ∈ s.parts.map (·.1) →
              budget t e.part 2 = { budget s e.part 2 with bal := (budget s e.part 2).bal - BitVec.ofNat 32 ((e.pkt.words.length + 6) / 7) })
          ∧ (s.podNum = some (pktDest e.pkt) →
              (Config.podOpen (pktQueue e.pkt) = true → queueOf t (pktQueue e.pkt) = { q with closed := q.closed ++ [e.pkt] })
              ∧ (Config.podOpen (pktQueue e.pkt) = false → (portOf t port).drop = Nat.min (x.drop + 1) 0xFFFF
                  ∧ ∀ k, queueOf t k = queueOf s k))

/-- The host, the mailbox, the life cycle and the platform (R123, R138, R153, R162, R187, R363–R367, R371, R372, R375–R377). The
model's own are: how a host access is laid out and answered (log 48), the fuses (log 21), the signatures (log 16), the order of
boot and of a calibration (log 22), the answer of the Discovery object (log 31, PRESUMED), what an error makes unreadable and how a
frame is moved (log 50), and which quads are whose after boot (log 25). -/
def Obligations.PlatformEvents : Prop :=
  ∀ s : State,
    (∀ fn off loc mt (bytes : List Byte), let va := (partOf s fn).hwbase + BitVec.ofNat 64 off
      s.ready = true → fn < 48 → off + 8 ≤ 2 ^ 36 → bytes.length = 8 → va.toNat % 8 = 0 → vaPlain s fn va true = .ok loc mt →
      ∃ t, exec (.hostWrite fn off bytes) s = .next t
        ∧ (∀ a, memByte t a = if loc ≤ a ∧ a < loc + 8 then bytes.getD (a - loc) 0 else memByte s a)
        ∧ ∀ y ∈ t.hostBuf, ¬ (y.fn = fn ∧ y.line = loc / 128))
    ∧ (∀ fn i (bytes : List Byte), s.ready = true → fn < 48 → i < 16 → bytes.length = 8 →
        let q : StreamId := ⟨fn, i⟩
        exec (.hostWrite fn (2 ^ 36 + 0x40 * i) bytes) s =
          .next (setStream s q { streamOf s q with base := BitVec.ofNat 64 (leNat bytes) }))
    ∧ (∀ fn off loc keep, let va := (partOf s fn).hwbase + BitVec.ofNat 64 off
      s.ready = true → fn < 48 → off + 8 ≤ 2 ^ 36 → va.toNat % 128 ≤ 120 →
        (Readable s fn va loc → (∀ y ∈ s.hostBuf, ¬ (y.fn = fn ∧ y.line = loc / 128)) →
          ∃ t, exec (.hostRead fn off 8 keep) s = .next t ∧ (∀ a, memByte t a = memByte s a)
            ∧ t.hostOut = s.hostOut ++ [.data ((List.range 8).map fun j => memByte s (loc + j))])
        ∧ (vaPlain s fn va false = .absent →
            exec (.hostRead fn off 8 keep) s = .next { s with hostOut := s.hostOut ++ [.abort] }))
    ∧ (s.ready = false → ∀ fn off n keep bytes, exec (.hostRead fn off n keep) s = .next { s with hostOut := s.hostOut ++ [.retry] }
        ∧ exec (.hostWrite fn off bytes) s = .next s)
    ∧ (∀ pa (bytes : List Byte), bytes.length = 8 → pa % 8 = 0 → houseReach s pa 8 = true →
        (∃ t, exec (.housekeepingStore pa bytes none) s = .next t
          ∧ ∀ a, memByte t a = if ∃ r ∈ newFutures s (houseStore s pa bytes 9), r.1 ≤ a ∧ a < r.1 + r.2 then 0
            else if pa ≤ a ∧ a < pa + 8 then bytes.getD (a - pa) 0 else memByte s a)
        ∧ ∀ lo n, ∃ t, exec (.housekeepingStore pa [] (some (lo, n))) s = .next t
            ∧ (∀ a, memByte t a = if lo ≤ a ∧ a < lo + n then 0 else memByte s a)
            ∧ ∀ a, isFull t a = if lo ≤ a ∧ a < lo + n then false else isFull s a)
    ∧ (∀ n, ∃ bs, exec (.doeDiscovery n) s = .next { s with doeOut := s.doeOut ++ [bs] }
        ∧ (n ≤ 4 → bs.length = 4 ∧ bs.getD 2 0 = BitVec.ofNat 8 n ∧ bs.getD 3 0 = if n < 4 then BitVec.ofNat 8 (n + 1) else 0))
    ∧ (let reply := fun (code : Nat) (bs : List Byte) =>
          ({ s with doeOut := s.doeOut ++ [leBytes 4 code ++ leBytes 4 0 ++ s.serial ++ bs] } : State)
        let head := leBytes 4 1 ++ leBytes 4 0
        let asks := fun (ty : Nat) (p : List Byte) => [Instr.attest ⟨ty, p⟩, .provision ⟨ty, p⟩, .deploy ⟨ty, p⟩, .rma ⟨ty, p⟩]
        let gives := fun (ty : Nat) (p : List Byte) (t : State) => ∀ i ∈ asks ty p, exec i s = .next t
        (s.entering.isSome = true → ∀ ty p, gives ty p (reply 4 []))
        ∧ (s.entering = none →
          (∀ ty p, (ty, p.length) ∉ [(1, 40), (2, 8), (3, 40), (4, 7888)] → gives ty p (reply 3 []))
          ∧ (∀ nonce : List Byte, nonce.length = 32 → ∃ sig,
            let body := leBytes 4 1 ++ leBytes 4 (lifeCode s.life) ++ nonce
              ++ (List.range 24).flatMap (fun i => beBytes 32 (tabGet 0 s.mreg i).toNat)
              ++ (List.range 544).map (fun i => tabGet 0 s.defect i)
            gives 1 (head ++ nonce) (reply 0 (body ++ sig)) ∧ sig.length = 7856 ∧ (s.attestKey = none → sig = List.replicate 7856 0))
          ∧ (s.life = .manufacture → ∃ key,
              gives 2 head { reply 0 key with attestKey := some key, entering := some .provisioned, free := s.free + 1 }
              ∧ key.length = 32)
          ∧ (s.life ≠ .manufacture → gives 2 head (reply 1 []))
          ∧ (∀ digest : List Byte, digest.length = 32 →
              (s.life = .provisioned → gives 3 (head ++ digest) { reply 0 [] with ownerKey := some digest, entering := some .deployed })
              ∧ (s.life ≠ .provisioned → gives 3 (head ++ digest) (reply 1 [])))
          ∧ ∀ ser sig : List Byte, ser.length = 16 → sig.length = 7856 →
              let req := head ++ ser ++ leBytes 4 3 ++ leBytes 4 0
              gives 4 (req ++ sig)
                (if ser = s.serial ∧ Config.slhVerify s.vendorKey req sig = true then { reply 0 [] with entering := some .rma }
                else reply 2 [])))
    ∧ (∀ i ∈ [Instr.deviceReset, .thermalReset, .lifecycleWipeDone], (i = .lifecycleWipeDone → s.entering.isSome = true) →
        ∃ t, exec i s = .next t ∧ t.life = s.entering.getD s.life ∧ t.entering = none ∧ t.mem = [] ∧ t.cores = [] ∧ t.launches = []
          ∧ t.parts = [] ∧ t.quads = [] ∧ t.full = [] ∧ t.poison = [] ∧ t.queues = [] ∧ t.clock = 0 ∧ t.turn = none ∧ t.hot = false
          ∧ t.withheld = [] ∧ t.ownerKey = s.ownerKey ∧ t.serial = s.serial ∧ t.vendorKey = s.vendorKey ∧ t.defect = s.defect
          ∧ t.attestKey = if s.entering.getD s.life = .rma then none else s.attestKey)
    ∧ (let extended := fun (i : Nat) (img : List Byte) => ({ s with
          mreg := tabPut i (sha256 (beBytes 32 (tabGet 0 s.mreg i).toNat ++ beBytes 32 (sha256 img).toNat)) s.mreg } : State);
        (∀ i img, 7 ≤ i → i ≤ 23 → exec (.mregExtend i img) s = .next (extended i img))
        ∧ ∀ img, s.ready = true →
            exec (.liveUpdate .firmware img) s = .next (if Config.imageSigned img = true then extended 1 img else s)
            ∧ exec (.liveUpdate .microcode img) s = .next (if Config.imageSigned img = true then extended 3 img else s)
            ∧ (Config.imageSigned img = false → exec (.liveUpdate .phy img) s = .next s)
            ∧ (Config.imageSigned img = true → ∃ t, exec (.liveUpdate .phy img) s = .next t ∧ t.phyLane = some 0
                ∧ { t with ports := [], phyLane := none } = { extended 4 img with ports := [], phyLane := none }
                ∧ (portOf t 0).lanes.getLsbD 0 = false))
    ∧ (let told := fun u : ErrUnit => ({ s with reports := s.reports ++ [.error u] } : State);
        let lost := fun u : ErrUnit => if u ∈ s.lostUnits then s.lostUnits else s.lostUnits ++ [u]
        let spoiled := fun loc : Nat => tabPut (lineKey loc) true s.poison
        (∀ pa, exec (.memoryErrorRetry (.line pa) .transient) s = .next (told (.line pa))
          ∧ exec (.memoryErrorRetry (.line pa) (.lasting [])) s = .next { told (.line pa) with lostUnits := lost (.line pa) }
          ∧ exec (.memoryErrorRetry (.line pa) .uncorrectable) s = .next
              { told (.line pa) with lostUnits := lost (.line pa), poison := spoiled pa })
        ∧ (∀ u, (∃ st pc, u = .channel st pc) ∨ (∃ die n, u = .slice die n) →
            exec (.memoryErrorRetry u .transient) s = .next { told u with free := s.free + 1 }
            ∧ exec (.memoryErrorRetry u (.lasting [])) s = .next { told u with free := s.free + 1, lostUnits := lost u }
            ∧ exec (.memoryErrorRetry u .uncorrectable) s = .next
                { told u with free := s.free + 1, lostUnits := lost u, poison := spoiled (Config.badLine s.free) })
        ∧ ∀ (pa : Nat) (m : FrameMove), 0 < m.size → m.entries = [] →
          (canMove s m = false → exec (.memoryErrorRetry (.line pa) (.lasting [m])) s = exec (.memoryErrorRetry (.line pa) (.lasting [])) s)
          ∧ (canMove s m = true → ∃ t, exec (.memoryErrorRetry (.line pa) (.lasting [m])) s = .next t
            ∧ (∀ a, memByte t a = if m.dst ≤ a ∧ a < m.dst + m.size then memByte s (m.src + (a - m.dst)) else memByte s a)
            ∧ t.withheld = s.withheld ++ [(m.src, m.size)] ∧ (∀ a, m.src ≤ a → a < m.src + m.size → ¬ Frame t a)
            ∧ quietPart (partOf t m.part) = quietPart { partOf s m.part with
                sdbase := m.base, sdlen := m.len, gen := (partOf s m.part).gen + 1, ack := false }))
    ∧ ∀ d q, let x := dieOf s d
        let cores := (List.range 4).map fun i => 4 * (32 * d + q) + i
        let blank := fun t : State => ∀ c ∈ cores, (coreOf t c).slots = [] ∧ (coreOf t c).l1 = [] ∧ (coreOf t c).tlb = []
          ∧ ∀ a < 2 ^ 20, memByte t (2 ^ 52 + 2 ^ 20 * c + a) = 0
        (tabFind q x.quads).isSome = true →
          ((∃ c ∈ cores, (coreOf s c).slots ≠ []) → q ∉ x.retired →
            exec (.quadRetire d q) s = .next (setDie s d { x with retired := x.retired ++ [q] }))
          ∧ ((∀ c ∈ cores, (coreOf s c).slots = []) →
              (∀ p r, x.spares = p :: r → ∃ t, exec (.quadRetire d q) s = .next t ∧ blank t
                ∧ tabFind q (dieOf t d).quads = some p ∧ (dieOf t d).spares = r ∧ q ∉ (dieOf t d).retired)
              ∧ (x.spares = [] → ∃ t, exec (.quadRetire d q) s = .next t ∧ blank t ∧ tabFind q (dieOf t d).quads = none
                  ∧ (quadOf t (32 * d + q)).owner = none)
              ∧ ∀ p < 48, ∃ t, exec (.quadReassign d q (some p)) s = .next t ∧ blank t
                  ∧ quadOf t (32 * d + q) = { quadOf s (32 * d + q) with owner := some p, tlb := [] } ∧ t.dies = s.dies)
end

