-- ==== Sys2Proof/Laws/Encoding.lean ====
section
/-! SUPPORT. What each field function of the decoder reads from a word that the encoder lays out, and that every code of
an enumerated field reads back (R19, R35, R41, R211, R341). -/

namespace Sys2Proof.Laws

/-- C and S read back. -/
@[simp] theorem fHd_eWord (h : Hd) (maj : BitVec 6) (body : BitVec 24) : fHd (eWord h maj body) = h := by
  obtain ⟨c, s⟩ := h
  simp only [fHd, eWord, BitVec.getLsbD_append, BitVec.getLsbD_ofBool]
  simp

/-- The major reads back. -/
@[simp] theorem fMajor_eWord (h : Hd) (maj : BitVec 6) (body : BitVec 24) : fMajor (eWord h maj body) = maj := by
  apply BitVec.eq_of_getLsbD_eq
  intro i hi
  simp only [fMajor, eWord, BitVec.getLsbD_extractLsb', BitVec.getLsbD_append]
  interval_cases i <;> simp

/-- The lowest bit of the major. -/
@[simp] theorem majorBit_eWord (h : Hd) (maj : BitVec 6) (body : BitVec 24) :
    (eWord h maj body)[24] = maj[0] := by
  rw [← BitVec.getLsbD_eq_getElem, ← BitVec.getLsbD_eq_getElem]
  simp only [eWord, BitVec.getLsbD_append]
  simp

/-- The low bits of the major. -/
@[simp] theorem majorLow_eWord (h : Hd) (maj : BitVec 6) (body : BitVec 24) :
    (eWord h maj body).extractLsb' 24 2 = maj.extractLsb' 0 2 := by
  apply BitVec.eq_of_getLsbD_eq
  intro i hi
  simp only [eWord, BitVec.getLsbD_extractLsb', BitVec.getLsbD_append]
  interval_cases i <;> simp

@[simp] theorem majorLow1_eWord (h : Hd) (maj : BitVec 6) (body : BitVec 24) :
    (eWord h maj body).extractLsb' 24 1 = maj.extractLsb' 0 1 := by
  apply BitVec.eq_of_getLsbD_eq
  intro i hi
  simp only [eWord, BitVec.getLsbD_extractLsb', BitVec.getLsbD_append]
  interval_cases i; simp

@[simp] theorem fD_rrr (h : Hd) (maj : BitVec 6) (d a b : BitVec 7) (m : BitVec 3) : fD (eWord h maj (eRrr d a b m)) = d := by
  apply BitVec.eq_of_getLsbD_eq
  intro i hi
  simp only [fD, eWord, eRrr, BitVec.getLsbD_extractLsb', BitVec.getLsbD_append]
  interval_cases i <;> simp

@[simp] theorem fA_rrr (h : Hd) (maj : BitVec 6) (d a b : BitVec 7) (m : BitVec 3) : fA (eWord h maj (eRrr d a b m)) = a := by
  apply BitVec.eq_of_getLsbD_eq
  intro i hi
  simp only [fA, eWord, eRrr, BitVec.getLsbD_extractLsb', BitVec.getLsbD_append]
  interval_cases i <;> simp

@[simp] theorem fB_rrr (h : Hd) (maj : BitVec 6) (d a b : BitVec 7) (m : BitVec 3) : fB (eWord h maj (eRrr d a b m)) = b := by
  apply BitVec.eq_of_getLsbD_eq
  intro i hi
  simp only [fB, eWord, eRrr, BitVec.getLsbD_extractLsb', BitVec.getLsbD_append]
  interval_cases i <;> simp

@[simp] theorem fM_rrr (h : Hd) (maj : BitVec 6) (d a b : BitVec 7) (m : BitVec 3) : fM (eWord h maj (eRrr d a b m)) = m := by
  apply BitVec.eq_of_getLsbD_eq
  intro i hi
  simp only [fM, eWord, eRrr, BitVec.getLsbD_extractLsb', BitVec.getLsbD_append]
  interval_cases i <;> simp

@[simp] theorem fD_rri (h : Hd) (maj : BitVec 6) (d a : BitVec 7) (m : BitVec 2) (imm : BitVec 8) : fD (eWord h maj (eRri d a m imm)) = d := by
  apply BitVec.eq_of_getLsbD_eq
  intro i hi
  simp only [fD, eWord, eRri, BitVec.getLsbD_extractLsb', BitVec.getLsbD_append]
  interval_cases i <;> simp

@[simp] theorem fA_rri (h : Hd) (maj : BitVec 6) (d a : BitVec 7) (m : BitVec 2) (imm : BitVec 8) : fA (eWord h maj (eRri d a m imm)) = a := by
  apply BitVec.eq_of_getLsbD_eq
  intro i hi
  simp only [fA, eWord, eRri, BitVec.getLsbD_extractLsb', BitVec.getLsbD_append]
  interval_cases i <;> simp

@[simp] theorem fM2_rri (h : Hd) (maj : BitVec 6) (d a : BitVec 7) (m : BitVec 2) (imm : BitVec 8) : fM2 (eWord h maj (eRri d a m imm)) = m := by
  apply BitVec.eq_of_getLsbD_eq
  intro i hi
  simp only [fM2, eWord, eRri, BitVec.getLsbD_extractLsb', BitVec.getLsbD_append]
  interval_cases i <;> simp

@[simp] theorem fImm8_rri (h : Hd) (maj : BitVec 6) (d a : BitVec 7) (m : BitVec 2) (imm : BitVec 8) : fImm8 (eWord h maj (eRri d a m imm)) = imm := by
  apply BitVec.eq_of_getLsbD_eq
  intro i hi
  simp only [fImm8, eWord, eRri, BitVec.getLsbD_extractLsb', BitVec.getLsbD_append]
  interval_cases i <;> simp

@[simp] theorem fD_ri (h : Hd) (maj : BitVec 6) (d : BitVec 7) (imm : BitVec 17) : fD (eWord h maj (eRi d imm)) = d := by
  apply BitVec.eq_of_getLsbD_eq
  intro i hi
  simp only [fD, eWord, eRi, BitVec.getLsbD_extractLsb', BitVec.getLsbD_append]
  interval_cases i <;> simp

@[simp] theorem fImm17_ri (h : Hd) (maj : BitVec 6) (d : BitVec 7) (imm : BitVec 17) : fImm17 (eWord h maj (eRi d imm)) = imm := by
  apply BitVec.eq_of_getLsbD_eq
  intro i hi
  simp only [fImm17, eWord, eRi, BitVec.getLsbD_extractLsb', BitVec.getLsbD_append]
  interval_cases i <;> simp

@[simp] theorem fD_mem (h : Hd) (maj : BitVec 6) (t : BitVec 7) (b : BitVec 3) (x : BitVec 7) (s z : BitVec 2) (p : BitVec 3) : fD (eWord h maj (eMem t b x s z p)) = t := by
  apply BitVec.eq_of_getLsbD_eq
  intro i hi
  simp only [fD, eWord, eMem, BitVec.getLsbD_extractLsb', BitVec.getLsbD_append]
  interval_cases i <;> simp

@[simp] theorem fMb_mem (h : Hd) (maj : BitVec 6) (t : BitVec 7) (b : BitVec 3) (x : BitVec 7) (s z : BitVec 2) (p : BitVec 3) : fMb (eWord h maj (eMem t b x s z p)) = b := by
  apply BitVec.eq_of_getLsbD_eq
  intro i hi
  simp only [fMb, eWord, eMem, BitVec.getLsbD_extractLsb', BitVec.getLsbD_append]
  interval_cases i <;> simp

@[simp] theorem fMx_mem (h : Hd) (maj : BitVec 6) (t : BitVec 7) (b : BitVec 3) (x : BitVec 7) (s z : BitVec 2) (p : BitVec 3) : fMx (eWord h maj (eMem t b x s z p)) = x := by
  apply BitVec.eq_of_getLsbD_eq
  intro i hi
  simp only [fMx, eWord, eMem, BitVec.getLsbD_extractLsb', BitVec.getLsbD_append]
  interval_cases i <;> simp

@[simp] theorem fScale_mem (h : Hd) (maj : BitVec 6) (t : BitVec 7) (b : BitVec 3) (x : BitVec 7) (s z : BitVec 2) (p : BitVec 3) : fScale (eWord h maj (eMem t b x s z p)) = s := by
  apply BitVec.eq_of_getLsbD_eq
  intro i hi
  simp only [fScale, eWord, eMem, BitVec.getLsbD_extractLsb', BitVec.getLsbD_append]
  interval_cases i <;> simp

@[simp] theorem fSize_mem (h : Hd) (maj : BitVec 6) (t : BitVec 7) (b : BitVec 3) (x : BitVec 7) (s z : BitVec 2) (p : BitVec 3) : fSize (eWord h maj (eMem t b x s z p)) = z := by
  apply BitVec.eq_of_getLsbD_eq
  intro i hi
  simp only [fSize, eWord, eMem, BitVec.getLsbD_extractLsb', BitVec.getLsbD_append]
  interval_cases i <;> simp

@[simp] theorem fM_mem (h : Hd) (maj : BitVec 6) (t : BitVec 7) (b : BitVec 3) (x : BitVec 7) (s z : BitVec 2) (p : BitVec 3) : fM (eWord h maj (eMem t b x s z p)) = p := by
  apply BitVec.eq_of_getLsbD_eq
  intro i hi
  simp only [fM, eWord, eMem, BitVec.getLsbD_extractLsb', BitVec.getLsbD_append]
  interval_cases i <;> simp

@[simp] theorem fP_br (h : Hd) (maj : BitVec 6) (neg : Bool) (p : BitVec 3) (disp : BitVec 20) : fP (eWord h maj (eBr neg p disp)) = p := by
  apply BitVec.eq_of_getLsbD_eq
  intro i hi
  simp only [fP, eWord, eBr, BitVec.getLsbD_extractLsb', BitVec.getLsbD_append]
  interval_cases i <;> simp

@[simp] theorem fDisp20_br (h : Hd) (maj : BitVec 6) (neg : Bool) (p : BitVec 3) (disp : BitVec 20) : fDisp20 (eWord h maj (eBr neg p disp)) = disp := by
  apply BitVec.eq_of_getLsbD_eq
  intro i hi
  simp only [fDisp20, eWord, eBr, BitVec.getLsbD_extractLsb', BitVec.getLsbD_append]
  interval_cases i <;> simp

@[simp] theorem fNeg_br (h : Hd) (maj : BitVec 6) (neg : Bool) (p : BitVec 3) (disp : BitVec 20) :
    fNeg (eWord h maj (eBr neg p disp)) = neg := by
  simp only [fNeg, eWord, eBr, BitVec.getLsbD_append, BitVec.getLsbD_ofBool]
  simp

@[simp] theorem fKind_cf (h : Hd) (maj : BitVec 6) (k : BitVec 2) (n : BitVec 6) (disp : BitVec 16) : fKind (eWord h maj (eCf k n disp)) = k := by
  apply BitVec.eq_of_getLsbD_eq
  intro i hi
  simp only [fKind, eWord, eCf, BitVec.getLsbD_extractLsb', BitVec.getLsbD_append]
  interval_cases i <;> simp

@[simp] theorem fCount_cf (h : Hd) (maj : BitVec 6) (k : BitVec 2) (n : BitVec 6) (disp : BitVec 16) : fCount (eWord h maj (eCf k n disp)) = n := by
  apply BitVec.eq_of_getLsbD_eq
  intro i hi
  simp only [fCount, eWord, eCf, BitVec.getLsbD_extractLsb', BitVec.getLsbD_append]
  interval_cases i <;> simp

@[simp] theorem fDisp16_cf (h : Hd) (maj : BitVec 6) (k : BitVec 2) (n : BitVec 6) (disp : BitVec 16) : fDisp16 (eWord h maj (eCf k n disp)) = disp := by
  apply BitVec.eq_of_getLsbD_eq
  intro i hi
  simp only [fDisp16, eWord, eCf, BitVec.getLsbD_extractLsb', BitVec.getLsbD_append]
  interval_cases i <;> simp

@[simp] theorem fD_sys (h : Hd) (maj : BitVec 6) (d : BitVec 7) (op : BitVec 3) (n : BitVec 14) : fD (eWord h maj (eSys d op n)) = d := by
  apply BitVec.eq_of_getLsbD_eq
  intro i hi
  simp only [fD, eWord, eSys, BitVec.getLsbD_extractLsb', BitVec.getLsbD_append]
  interval_cases i <;> simp

@[simp] theorem fSysOp_sys (h : Hd) (maj : BitVec 6) (d : BitVec 7) (op : BitVec 3) (n : BitVec 14) : fSysOp (eWord h maj (eSys d op n)) = op := by
  apply BitVec.eq_of_getLsbD_eq
  intro i hi
  simp only [fSysOp, eWord, eSys, BitVec.getLsbD_extractLsb', BitVec.getLsbD_append]
  interval_cases i <;> simp

@[simp] theorem fSysNum_sys (h : Hd) (maj : BitVec 6) (d : BitVec 7) (op : BitVec 3) (n : BitVec 14) : fSysNum (eWord h maj (eSys d op n)) = n := by
  apply BitVec.eq_of_getLsbD_eq
  intro i hi
  simp only [fSysNum, eWord, eSys, BitVec.getLsbD_extractLsb', BitVec.getLsbD_append]
  interval_cases i <;> simp

@[simp] theorem rrr_b_5_5 (h : Hd) (maj : BitVec 6) (d a b : BitVec 7) (m : BitVec 3) :
    (eWord h maj (eRrr d a b m)).extractLsb' 5 5 = b.extractLsb' 2 5 := by
  apply BitVec.eq_of_getLsbD_eq
  intro i hi
  simp only [eWord, eRrr, BitVec.getLsbD_extractLsb', BitVec.getLsbD_append]
  interval_cases i <;> simp

@[simp] theorem rrr_b_3_2 (h : Hd) (maj : BitVec 6) (d a b : BitVec 7) (m : BitVec 3) :
    (eWord h maj (eRrr d a b m)).extractLsb' 3 2 = b.extractLsb' 0 2 := by
  apply BitVec.eq_of_getLsbD_eq
  intro i hi
  simp only [eWord, eRrr, BitVec.getLsbD_extractLsb', BitVec.getLsbD_append]
  interval_cases i <;> simp

@[simp] theorem rrr_b_6_3 (h : Hd) (maj : BitVec 6) (d a b : BitVec 7) (m : BitVec 3) :
    (eWord h maj (eRrr d a b m)).extractLsb' 6 3 = b.extractLsb' 3 3 := by
  apply BitVec.eq_of_getLsbD_eq
  intro i hi
  simp only [eWord, eRrr, BitVec.getLsbD_extractLsb', BitVec.getLsbD_append]
  interval_cases i <;> simp

@[simp] theorem rrr_b_7_3 (h : Hd) (maj : BitVec 6) (d a b : BitVec 7) (m : BitVec 3) :
    (eWord h maj (eRrr d a b m)).extractLsb' 7 3 = b.extractLsb' 4 3 := by
  apply BitVec.eq_of_getLsbD_eq
  intro i hi
  simp only [eWord, eRrr, BitVec.getLsbD_extractLsb', BitVec.getLsbD_append]
  interval_cases i <;> simp

@[simp] theorem rrr_b_4_3 (h : Hd) (maj : BitVec 6) (d a b : BitVec 7) (m : BitVec 3) :
    (eWord h maj (eRrr d a b m)).extractLsb' 4 3 = b.extractLsb' 1 3 := by
  apply BitVec.eq_of_getLsbD_eq
  intro i hi
  simp only [eWord, eRrr, BitVec.getLsbD_extractLsb', BitVec.getLsbD_append]
  interval_cases i <;> simp

@[simp] theorem rrr_b_5_2 (h : Hd) (maj : BitVec 6) (d a b : BitVec 7) (m : BitVec 3) :
    (eWord h maj (eRrr d a b m)).extractLsb' 5 2 = b.extractLsb' 2 2 := by
  apply BitVec.eq_of_getLsbD_eq
  intro i hi
  simp only [eWord, eRrr, BitVec.getLsbD_extractLsb', BitVec.getLsbD_append]
  interval_cases i <;> simp

@[simp] theorem rrr_b_7_2 (h : Hd) (maj : BitVec 6) (d a b : BitVec 7) (m : BitVec 3) :
    (eWord h maj (eRrr d a b m)).extractLsb' 7 2 = b.extractLsb' 4 2 := by
  apply BitVec.eq_of_getLsbD_eq
  intro i hi
  simp only [eWord, eRrr, BitVec.getLsbD_extractLsb', BitVec.getLsbD_append]
  interval_cases i <;> simp

@[simp] theorem rrr_b_6_4 (h : Hd) (maj : BitVec 6) (d a b : BitVec 7) (m : BitVec 3) :
    (eWord h maj (eRrr d a b m)).extractLsb' 6 4 = b.extractLsb' 3 4 := by
  apply BitVec.eq_of_getLsbD_eq
  intro i hi
  simp only [eWord, eRrr, BitVec.getLsbD_extractLsb', BitVec.getLsbD_append]
  interval_cases i <;> simp

@[simp] theorem rrr_b_3_3 (h : Hd) (maj : BitVec 6) (d a b : BitVec 7) (m : BitVec 3) :
    (eWord h maj (eRrr d a b m)).extractLsb' 3 3 = b.extractLsb' 0 3 := by
  apply BitVec.eq_of_getLsbD_eq
  intro i hi
  simp only [eWord, eRrr, BitVec.getLsbD_extractLsb', BitVec.getLsbD_append]
  interval_cases i <;> simp

@[simp] theorem rrr_b_8_2 (h : Hd) (maj : BitVec 6) (d a b : BitVec 7) (m : BitVec 3) :
    (eWord h maj (eRrr d a b m)).extractLsb' 8 2 = b.extractLsb' 5 2 := by
  apply BitVec.eq_of_getLsbD_eq
  intro i hi
  simp only [eWord, eRrr, BitVec.getLsbD_extractLsb', BitVec.getLsbD_append]
  interval_cases i <;> simp

@[simp] theorem rrr_b_4_4 (h : Hd) (maj : BitVec 6) (d a b : BitVec 7) (m : BitVec 3) :
    (eWord h maj (eRrr d a b m)).extractLsb' 4 4 = b.extractLsb' 1 4 := by
  apply BitVec.eq_of_getLsbD_eq
  intro i hi
  simp only [eWord, eRrr, BitVec.getLsbD_extractLsb', BitVec.getLsbD_append]
  interval_cases i <;> simp

@[simp] theorem rrr_b_3_4 (h : Hd) (maj : BitVec 6) (d a b : BitVec 7) (m : BitVec 3) :
    (eWord h maj (eRrr d a b m)).extractLsb' 3 4 = b.extractLsb' 0 4 := by
  apply BitVec.eq_of_getLsbD_eq
  intro i hi
  simp only [eWord, eRrr, BitVec.getLsbD_extractLsb', BitVec.getLsbD_append]
  interval_cases i <;> simp

@[simp] theorem rrr_b_4_6 (h : Hd) (maj : BitVec 6) (d a b : BitVec 7) (m : BitVec 3) :
    (eWord h maj (eRrr d a b m)).extractLsb' 4 6 = b.extractLsb' 1 6 := by
  apply BitVec.eq_of_getLsbD_eq
  intro i hi
  simp only [eWord, eRrr, BitVec.getLsbD_extractLsb', BitVec.getLsbD_append]
  interval_cases i <;> simp

@[simp] theorem rrr_m_0_2 (h : Hd) (maj : BitVec 6) (d a b : BitVec 7) (m : BitVec 3) :
    (eWord h maj (eRrr d a b m)).extractLsb' 0 2 = m.extractLsb' 0 2 := by
  apply BitVec.eq_of_getLsbD_eq
  intro i hi
  simp only [eWord, eRrr, BitVec.getLsbD_extractLsb', BitVec.getLsbD_append]
  interval_cases i <;> simp

@[simp] theorem rrr_m_1_1 (h : Hd) (maj : BitVec 6) (d a b : BitVec 7) (m : BitVec 3) :
    (eWord h maj (eRrr d a b m)).extractLsb' 1 1 = m.extractLsb' 1 1 := by
  apply BitVec.eq_of_getLsbD_eq
  intro i hi
  simp only [eWord, eRrr, BitVec.getLsbD_extractLsb', BitVec.getLsbD_append]
  interval_cases i; simp

@[simp] theorem rrr_m_0_1 (h : Hd) (maj : BitVec 6) (d a b : BitVec 7) (m : BitVec 3) :
    (eWord h maj (eRrr d a b m)).extractLsb' 0 1 = m.extractLsb' 0 1 := by
  apply BitVec.eq_of_getLsbD_eq
  intro i hi
  simp only [eWord, eRrr, BitVec.getLsbD_extractLsb', BitVec.getLsbD_append]
  interval_cases i; simp

@[simp] theorem rrr_m_1_2 (h : Hd) (maj : BitVec 6) (d a b : BitVec 7) (m : BitVec 3) :
    (eWord h maj (eRrr d a b m)).extractLsb' 1 2 = m.extractLsb' 1 2 := by
  apply BitVec.eq_of_getLsbD_eq
  intro i hi
  simp only [eWord, eRrr, BitVec.getLsbD_extractLsb', BitVec.getLsbD_append]
  interval_cases i <;> simp

@[simp] theorem rrr_m_2_1 (h : Hd) (maj : BitVec 6) (d a b : BitVec 7) (m : BitVec 3) :
    (eWord h maj (eRrr d a b m)).extractLsb' 2 1 = m.extractLsb' 2 1 := by
  apply BitVec.eq_of_getLsbD_eq
  intro i hi
  simp only [eWord, eRrr, BitVec.getLsbD_extractLsb', BitVec.getLsbD_append]
  interval_cases i; simp

@[simp] theorem rrr_d_19_5 (h : Hd) (maj : BitVec 6) (d a b : BitVec 7) (m : BitVec 3) :
    (eWord h maj (eRrr d a b m)).extractLsb' 19 5 = d.extractLsb' 2 5 := by
  apply BitVec.eq_of_getLsbD_eq
  intro i hi
  simp only [eWord, eRrr, BitVec.getLsbD_extractLsb', BitVec.getLsbD_append]
  interval_cases i <;> simp

@[simp] theorem rrr_d_17_2 (h : Hd) (maj : BitVec 6) (d a b : BitVec 7) (m : BitVec 3) :
    (eWord h maj (eRrr d a b m)).extractLsb' 17 2 = d.extractLsb' 0 2 := by
  apply BitVec.eq_of_getLsbD_eq
  intro i hi
  simp only [eWord, eRrr, BitVec.getLsbD_extractLsb', BitVec.getLsbD_append]
  interval_cases i <;> simp

@[simp] theorem rrr_d_20_4 (h : Hd) (maj : BitVec 6) (d a b : BitVec 7) (m : BitVec 3) :
    (eWord h maj (eRrr d a b m)).extractLsb' 20 4 = d.extractLsb' 3 4 := by
  apply BitVec.eq_of_getLsbD_eq
  intro i hi
  simp only [eWord, eRrr, BitVec.getLsbD_extractLsb', BitVec.getLsbD_append]
  interval_cases i <;> simp

@[simp] theorem rrr_d_17_3 (h : Hd) (maj : BitVec 6) (d a b : BitVec 7) (m : BitVec 3) :
    (eWord h maj (eRrr d a b m)).extractLsb' 17 3 = d.extractLsb' 0 3 := by
  apply BitVec.eq_of_getLsbD_eq
  intro i hi
  simp only [eWord, eRrr, BitVec.getLsbD_extractLsb', BitVec.getLsbD_append]
  interval_cases i <;> simp

@[simp] theorem rri_i_6_2 (h : Hd) (maj : BitVec 6) (d a : BitVec 7) (m : BitVec 2) (imm : BitVec 8) :
    (eWord h maj (eRri d a m imm)).extractLsb' 6 2 = imm.extractLsb' 6 2 := by
  apply BitVec.eq_of_getLsbD_eq
  intro i hi
  simp only [eWord, eRri, BitVec.getLsbD_extractLsb', BitVec.getLsbD_append]
  interval_cases i <;> simp

@[simp] theorem rri_i_0_6 (h : Hd) (maj : BitVec 6) (d a : BitVec 7) (m : BitVec 2) (imm : BitVec 8) :
    (eWord h maj (eRri d a m imm)).extractLsb' 0 6 = imm.extractLsb' 0 6 := by
  apply BitVec.eq_of_getLsbD_eq
  intro i hi
  simp only [eWord, eRri, BitVec.getLsbD_extractLsb', BitVec.getLsbD_append]
  interval_cases i <;> simp

@[simp] theorem ri_i_16_1 (h : Hd) (maj : BitVec 6) (d : BitVec 7) (imm : BitVec 17) :
    (eWord h maj (eRi d imm)).extractLsb' 16 1 = imm.extractLsb' 16 1 := by
  apply BitVec.eq_of_getLsbD_eq
  intro i hi
  simp only [eWord, eRi, BitVec.getLsbD_extractLsb', BitVec.getLsbD_append]
  interval_cases i; simp

@[simp] theorem ri_i_0_16 (h : Hd) (maj : BitVec 6) (d : BitVec 7) (imm : BitVec 17) :
    (eWord h maj (eRi d imm)).extractLsb' 0 16 = imm.extractLsb' 0 16 := by
  apply BitVec.eq_of_getLsbD_eq
  intro i hi
  simp only [eWord, eRi, BitVec.getLsbD_extractLsb', BitVec.getLsbD_append]
  interval_cases i <;> simp

@[simp] theorem mem_t_18_6 (h : Hd) (maj : BitVec 6) (t : BitVec 7) (b : BitVec 3) (x : BitVec 7) (s z : BitVec 2) (p : BitVec 3) :
    (eWord h maj (eMem t b x s z p)).extractLsb' 18 6 = t.extractLsb' 1 6 := by
  apply BitVec.eq_of_getLsbD_eq
  intro i hi
  simp only [eWord, eMem, BitVec.getLsbD_extractLsb', BitVec.getLsbD_append]
  interval_cases i <;> simp

@[simp] theorem cf_n_20_2 (h : Hd) (maj : BitVec 6) (k : BitVec 2) (n : BitVec 6) (disp : BitVec 16) :
    (eWord h maj (eCf k n disp)).extractLsb' 20 2 = n.extractLsb' 4 2 := by
  apply BitVec.eq_of_getLsbD_eq
  intro i hi
  simp only [eWord, eCf, BitVec.getLsbD_extractLsb', BitVec.getLsbD_append]
  interval_cases i <;> simp

@[simp] theorem cf_n_16_4 (h : Hd) (maj : BitVec 6) (k : BitVec 2) (n : BitVec 6) (disp : BitVec 16) :
    (eWord h maj (eCf k n disp)).extractLsb' 16 4 = n.extractLsb' 0 4 := by
  apply BitVec.eq_of_getLsbD_eq
  intro i hi
  simp only [eWord, eCf, BitVec.getLsbD_extractLsb', BitVec.getLsbD_append]
  interval_cases i <;> simp

@[simp] theorem sys_n_0_13 (h : Hd) (maj : BitVec 6) (d : BitVec 7) (op : BitVec 3) (n : BitVec 14) :
    (eWord h maj (eSys d op n)).extractLsb' 0 13 = n.extractLsb' 0 13 := by
  apply BitVec.eq_of_getLsbD_eq
  intro i hi
  simp only [eWord, eSys, BitVec.getLsbD_extractLsb', BitVec.getLsbD_append]
  interval_cases i <;> simp

@[simp] theorem rrr_bit_3 (h : Hd) (maj : BitVec 6) (d a b : BitVec 7) (m : BitVec 3) :
    (eWord h maj (eRrr d a b m))[3] = b[0] := by
  rw [← BitVec.getLsbD_eq_getElem, ← BitVec.getLsbD_eq_getElem]
  simp only [eWord, eRrr, BitVec.getLsbD_append]
  simp

@[simp] theorem rrr_bit_4 (h : Hd) (maj : BitVec 6) (d a b : BitVec 7) (m : BitVec 3) :
    (eWord h maj (eRrr d a b m))[4] = b[1] := by
  rw [← BitVec.getLsbD_eq_getElem, ← BitVec.getLsbD_eq_getElem]
  simp only [eWord, eRrr, BitVec.getLsbD_append]
  simp

@[simp] theorem rrr_bit_5 (h : Hd) (maj : BitVec 6) (d a b : BitVec 7) (m : BitVec 3) :
    (eWord h maj (eRrr d a b m))[5] = b[2] := by
  rw [← BitVec.getLsbD_eq_getElem, ← BitVec.getLsbD_eq_getElem]
  simp only [eWord, eRrr, BitVec.getLsbD_append]
  simp

@[simp] theorem rrr_bit_6 (h : Hd) (maj : BitVec 6) (d a b : BitVec 7) (m : BitVec 3) :
    (eWord h maj (eRrr d a b m))[6] = b[3] := by
  rw [← BitVec.getLsbD_eq_getElem, ← BitVec.getLsbD_eq_getElem]
  simp only [eWord, eRrr, BitVec.getLsbD_append]
  simp

@[simp] theorem rrr_bit_7 (h : Hd) (maj : BitVec 6) (d a b : BitVec 7) (m : BitVec 3) :
    (eWord h maj (eRrr d a b m))[7] = b[4] := by
  rw [← BitVec.getLsbD_eq_getElem, ← BitVec.getLsbD_eq_getElem]
  simp only [eWord, eRrr, BitVec.getLsbD_append]
  simp

@[simp] theorem rrr_bit_8 (h : Hd) (maj : BitVec 6) (d a b : BitVec 7) (m : BitVec 3) :
    (eWord h maj (eRrr d a b m))[8] = b[5] := by
  rw [← BitVec.getLsbD_eq_getElem, ← BitVec.getLsbD_eq_getElem]
  simp only [eWord, eRrr, BitVec.getLsbD_append]
  simp

@[simp] theorem rrr_bit_9 (h : Hd) (maj : BitVec 6) (d a b : BitVec 7) (m : BitVec 3) :
    (eWord h maj (eRrr d a b m))[9] = b[6] := by
  rw [← BitVec.getLsbD_eq_getElem, ← BitVec.getLsbD_eq_getElem]
  simp only [eWord, eRrr, BitVec.getLsbD_append]
  simp

@[simp] theorem rrr_bit_0 (h : Hd) (maj : BitVec 6) (d a b : BitVec 7) (m : BitVec 3) :
    (eWord h maj (eRrr d a b m))[0] = m[0] := by
  rw [← BitVec.getLsbD_eq_getElem, ← BitVec.getLsbD_eq_getElem]
  simp only [eWord, eRrr, BitVec.getLsbD_append]
  simp

@[simp] theorem rrr_bit_1 (h : Hd) (maj : BitVec 6) (d a b : BitVec 7) (m : BitVec 3) :
    (eWord h maj (eRrr d a b m))[1] = m[1] := by
  rw [← BitVec.getLsbD_eq_getElem, ← BitVec.getLsbD_eq_getElem]
  simp only [eWord, eRrr, BitVec.getLsbD_append]
  simp

@[simp] theorem rrr_bit_2 (h : Hd) (maj : BitVec 6) (d a b : BitVec 7) (m : BitVec 3) :
    (eWord h maj (eRrr d a b m))[2] = m[2] := by
  rw [← BitVec.getLsbD_eq_getElem, ← BitVec.getLsbD_eq_getElem]
  simp only [eWord, eRrr, BitVec.getLsbD_append]
  simp

@[simp] theorem mem_bit_17 (h : Hd) (maj : BitVec 6) (t : BitVec 7) (b : BitVec 3) (x : BitVec 7) (s z : BitVec 2) (p : BitVec 3) :
    (eWord h maj (eMem t b x s z p))[17] = t[0] := by
  rw [← BitVec.getLsbD_eq_getElem, ← BitVec.getLsbD_eq_getElem]
  simp only [eWord, eMem, BitVec.getLsbD_append]
  simp

@[simp] theorem mem_bit_4 (h : Hd) (maj : BitVec 6) (t : BitVec 7) (b : BitVec 3) (x : BitVec 7) (s z : BitVec 2) (p : BitVec 3) :
    (eWord h maj (eMem t b x s z p))[4] = z[1] := by
  rw [← BitVec.getLsbD_eq_getElem, ← BitVec.getLsbD_eq_getElem]
  simp only [eWord, eMem, BitVec.getLsbD_append]
  simp

@[simp] theorem mem_bit_3 (h : Hd) (maj : BitVec 6) (t : BitVec 7) (b : BitVec 3) (x : BitVec 7) (s z : BitVec 2) (p : BitVec 3) :
    (eWord h maj (eMem t b x s z p))[3] = z[0] := by
  rw [← BitVec.getLsbD_eq_getElem, ← BitVec.getLsbD_eq_getElem]
  simp only [eWord, eMem, BitVec.getLsbD_append]
  simp

@[simp] theorem sys_bit_13 (h : Hd) (maj : BitVec 6) (d : BitVec 7) (op : BitVec 3) (n : BitVec 14) :
    (eWord h maj (eSys d op n))[13] = n[13] := by
  rw [← BitVec.getLsbD_eq_getElem, ← BitVec.getLsbD_eq_getElem]
  simp only [eWord, eSys, BitVec.getLsbD_append]
  simp

/-! ### Parts of a field made of parts -/

@[simp] theorem low_2_6 (x : BitVec 2) (y : BitVec 6) : (x ++ y : BitVec 8).extractLsb' 0 6 = y := by
  apply BitVec.eq_of_getLsbD_eq
  intro i hi
  simp only [BitVec.getLsbD_extractLsb', BitVec.getLsbD_append]
  interval_cases i <;> simp

@[simp] theorem high_2_6 (x : BitVec 2) (y : BitVec 6) : (x ++ y : BitVec 8).extractLsb' 6 2 = x := by
  apply BitVec.eq_of_getLsbD_eq
  intro i hi
  simp only [BitVec.getLsbD_extractLsb', BitVec.getLsbD_append]
  interval_cases i <;> simp

@[simp] theorem low_1_16 (x : BitVec 1) (y : BitVec 16) : (x ++ y : BitVec 17).extractLsb' 0 16 = y := by
  apply BitVec.eq_of_getLsbD_eq
  intro i hi
  simp only [BitVec.getLsbD_extractLsb', BitVec.getLsbD_append]
  interval_cases i <;> simp

@[simp] theorem high_1_16 (x : BitVec 1) (y : BitVec 16) : (x ++ y : BitVec 17).extractLsb' 16 1 = x := by
  apply BitVec.eq_of_getLsbD_eq
  intro i hi
  simp only [BitVec.getLsbD_extractLsb', BitVec.getLsbD_append]
  interval_cases i; simp

@[simp] theorem low_1_2 (x : BitVec 1) (y : BitVec 2) : (x ++ y : BitVec 3).extractLsb' 0 2 = y := by
  apply BitVec.eq_of_getLsbD_eq
  intro i hi
  simp only [BitVec.getLsbD_extractLsb', BitVec.getLsbD_append]
  interval_cases i <;> simp

@[simp] theorem high_1_2 (x : BitVec 1) (y : BitVec 2) : (x ++ y : BitVec 3).extractLsb' 2 1 = x := by
  apply BitVec.eq_of_getLsbD_eq
  intro i hi
  simp only [BitVec.getLsbD_extractLsb', BitVec.getLsbD_append]
  interval_cases i; simp

@[simp] theorem low_4_3 (x : BitVec 4) (y : BitVec 3) : (x ++ y : BitVec 7).extractLsb' 0 3 = y := by
  apply BitVec.eq_of_getLsbD_eq
  intro i hi
  simp only [BitVec.getLsbD_extractLsb', BitVec.getLsbD_append]
  interval_cases i <;> simp

@[simp] theorem high_4_3 (x : BitVec 4) (y : BitVec 3) : (x ++ y : BitVec 7).extractLsb' 3 4 = x := by
  apply BitVec.eq_of_getLsbD_eq
  intro i hi
  simp only [BitVec.getLsbD_extractLsb', BitVec.getLsbD_append]
  interval_cases i <;> simp

@[simp] theorem low_2_4 (x : BitVec 2) (y : BitVec 4) : (x ++ y : BitVec 6).extractLsb' 0 4 = y := by
  apply BitVec.eq_of_getLsbD_eq
  intro i hi
  simp only [BitVec.getLsbD_extractLsb', BitVec.getLsbD_append]
  interval_cases i <;> simp

@[simp] theorem high_2_4 (x : BitVec 2) (y : BitVec 4) : (x ++ y : BitVec 6).extractLsb' 4 2 = x := by
  apply BitVec.eq_of_getLsbD_eq
  intro i hi
  simp only [BitVec.getLsbD_extractLsb', BitVec.getLsbD_append]
  interval_cases i <;> simp

@[simp] theorem low_1_13 (x : BitVec 1) (y : BitVec 13) : (x ++ y : BitVec 14).extractLsb' 0 13 = y := by
  apply BitVec.eq_of_getLsbD_eq
  intro i hi
  simp only [BitVec.getLsbD_extractLsb', BitVec.getLsbD_append]
  interval_cases i <;> simp

@[simp] theorem high_1_13 (x : BitVec 1) (y : BitVec 13) : (x ++ y : BitVec 14).extractLsb' 13 1 = x := by
  apply BitVec.eq_of_getLsbD_eq
  intro i hi
  simp only [BitVec.getLsbD_extractLsb', BitVec.getLsbD_append]
  interval_cases i; simp

@[simp] theorem redl_level (x : BitVec 3) (y : BitVec 1) (z : BitVec 3) : (x ++ y ++ z : BitVec 7).extractLsb' 4 3 = x := by
  apply BitVec.eq_of_getLsbD_eq
  intro i hi
  simp only [BitVec.getLsbD_extractLsb', BitVec.getLsbD_append]
  interval_cases i <;> simp

@[simp] theorem redl_zero (x : BitVec 3) (y : BitVec 1) (z : BitVec 3) : (x ++ y ++ z : BitVec 7)[3] = y[0] := by
  rw [← BitVec.getLsbD_eq_getElem, ← BitVec.getLsbD_eq_getElem]
  simp only [BitVec.getLsbD_append]
  simp

@[simp] theorem accz_mask (x : BitVec 2) (y : BitVec 4) (z : BitVec 1) : (x ++ y ++ z : BitVec 7).extractLsb' 1 4 = y := by
  apply BitVec.eq_of_getLsbD_eq
  intro i hi
  simp only [BitVec.getLsbD_extractLsb', BitVec.getLsbD_append]
  interval_cases i <;> simp

@[simp] theorem accz_form (x : BitVec 2) (y : BitVec 4) (z : BitVec 1) : (x ++ y ++ z : BitVec 7).extractLsb' 5 2 = x := by
  apply BitVec.eq_of_getLsbD_eq
  intro i hi
  simp only [BitVec.getLsbD_extractLsb', BitVec.getLsbD_append]
  interval_cases i <;> simp

@[simp] theorem accz_zero (x : BitVec 2) (y : BitVec 4) (z : BitVec 1) : (x ++ y ++ z : BitVec 7)[0] = z[0] := by
  rw [← BitVec.getLsbD_eq_getElem, ← BitVec.getLsbD_eq_getElem]
  simp only [BitVec.getLsbD_append]
  simp

@[simp] theorem sync_bit (x : BitVec 1) (y : BitVec 13) : (x ++ y : BitVec 14)[13] = x[0] := by
  rw [← BitVec.getLsbD_eq_getElem, ← BitVec.getLsbD_eq_getElem]
  simp only [BitVec.getLsbD_append]
  simp

@[simp] theorem scale_bit (x : BitVec 1) (y : BitVec 2) : (x ++ y : BitVec 3)[2] = x[0] := by
  rw [← BitVec.getLsbD_eq_getElem, ← BitVec.getLsbD_eq_getElem]
  simp only [BitVec.getLsbD_append]
  simp


/-! ### Codes -/

/-- The code of an operand specifier reads back (R35). -/
@[simp] theorem opnd_ofCode (o : Opnd) : Opnd.ofCode o.code = o := by
  cases o with
  | v n => revert n; decide
  | g n => revert n; decide
  | o n => revert n; decide
  | rsv n => revert n; decide
  | p n => revert n; decide
  | k n => revert n; decide
  | _ => rfl

/-- Every 7-bit code is the code of its specifier (R35). -/
@[simp] theorem opnd_code (c : BitVec 7) : (Opnd.ofCode c).code = c := by revert c; decide

@[simp] theorem fin8_code8 (n : Fin 8) : fin8 (code8 n) = n := rfl

@[simp] theorem pTy_ofCode (x : PTy) : PTy.ofCode x.code = some x := by cases x <;> rfl

@[simp] theorem fTy_ofCode (x : FTy) : FTy.ofCode x.code = some x := by cases x <;> rfl

@[simp] theorem rnd_ofCode (x : Rnd) : Rnd.ofCode x.code = some x := by cases x <;> rfl

@[simp] theorem cmp_ofCode (x : Cmp) : Cmp.ofCode x.code = some x := by cases x <;> rfl

@[simp] theorem fCmp_ofCode (x : FCmp) : FCmp.ofCode x.code = some x := by cases x <;> rfl

@[simp] theorem wCond_ofCode (x : WCond) : WCond.ofCode x.code = some x := by cases x <;> rfl

@[simp] theorem iTy_ofCode (x : ITy) : ITy.ofCode x.code = some x := by cases x <;> rfl

@[simp] theorem sz_ofCode (x : Sz) : Sz.ofCode x.code = some x := by cases x <;> rfl

@[simp] theorem laneW_ofCode (x : LaneW) : LaneW.ofCode x.code = some x := by cases x <;> rfl

@[simp] theorem permW_ofCode (x : PermW) : PermW.ofCode x.code = some x := by cases x <;> rfl

@[simp] theorem packW_ofCode (x : PackW) : PackW.ofCode x.code = some x := by cases x <;> rfl

@[simp] theorem redOp_ofCode (x : RedOp) : RedOp.ofCode x.code = some x := by cases x <;> rfl

@[simp] theorem rTy_ofCode (x : RTy) : RTy.ofCode x.code = some x := by cases x <;> rfl

@[simp] theorem sTy_ofCode (x : STy) : STy.ofCode x.code = some x := by cases x <;> rfl

@[simp] theorem mapSel_ofCode (x : MapSel) : MapSel.ofCode x.code = some x := by cases x <;> rfl

/-! ### The major chooses the decoder of its class (R43) -/

theorem decodeWord_major0 (w : IWord) (h : fMajor w = 0) :
    decodeWord w = decode00 w := by
  unfold decodeWord
  rw [h]
  rfl

theorem decodeWord_major1 (w : IWord) (h : fMajor w = 1) :
    decodeWord w = decode01 w := by
  unfold decodeWord
  rw [h]
  rfl

theorem decodeWord_major2 (w : IWord) (h : fMajor w = 2) :
    decodeWord w = .ok (.li (fHd w) (oD w) (fImm17 w)) := by
  unfold decodeWord
  rw [h]
  rfl

theorem decodeWord_major3 (w : IWord) (h : fMajor w = 3) :
    decodeWord w = decode03 w := by
  unfold decodeWord
  rw [h]
  rfl

theorem decodeWord_major4 (w : IWord) (h : fMajor w = 4) :
    decodeWord w = decode04 w := by
  unfold decodeWord
  rw [h]
  rfl

theorem decodeWord_major5 (w : IWord) (h : fMajor w = 5) :
    decodeWord w = withCode (PTy.ofCode (fM w)) .reservedMinor (fun t => .ok (.padd (fHd w) t (oD w) (oA w) (oB w))) := by
  unfold decodeWord
  rw [h]
  rfl

theorem decodeWord_major6 (w : IWord) (h : fMajor w = 6) :
    decodeWord w = decode06 w := by
  unfold decodeWord
  rw [h]
  rfl

theorem decodeWord_major7 (w : IWord) (h : fMajor w = 7) :
    decodeWord w = decode07 w := by
  unfold decodeWord
  rw [h]
  rfl

theorem decodeWord_major8 (w : IWord) (h : fMajor w = 8) :
    decodeWord w = decode08 w := by
  unfold decodeWord
  rw [h]
  rfl

theorem decodeWord_major9 (w : IWord) (h : fMajor w = 9) :
    decodeWord w = withCode (PTy.ofCode (fM w)) .reservedMinor (fun t => .ok (.psub (fHd w) t (oD w) (oA w) (oB w))) := by
  unfold decodeWord
  rw [h]
  rfl

theorem decodeWord_major10 (w : IWord) (h : fMajor w = 10) :
    decodeWord w = .ok (.sel (fHd w) (fin8 (fM w)) (oD w) (oA w) (oB w)) := by
  unfold decodeWord
  rw [h]
  rfl

theorem decodeWord_major11 (w : IWord) (h : fMajor w = 11) :
    decodeWord w = decode0B w := by
  unfold decodeWord
  rw [h]
  rfl

theorem decodeWord_major12 (w : IWord) (h : fMajor w = 12) :
    decodeWord w = decode0C w := by
  unfold decodeWord
  rw [h]
  rfl

theorem decodeWord_major13 (w : IWord) (h : fMajor w = 13) :
    decodeWord w = withCode (PTy.ofCode (fM w)) .reservedMinor (fun t => .ok (.pmin (fHd w) t (oD w) (oA w) (oB w))) := by
  unfold decodeWord
  rw [h]
  rfl

theorem decodeWord_major14 (w : IWord) (h : fMajor w = 14) :
    decodeWord w = decode0E w := by
  unfold decodeWord
  rw [h]
  rfl

theorem decodeWord_major15 (w : IWord) (h : fMajor w = 15) :
    decodeWord w = withCode (PTy.ofCode (fM w)) .reservedMinor (fun t => .ok (.pmax (fHd w) t (oD w) (oA w) (oB w))) := by
  unfold decodeWord
  rw [h]
  rfl

theorem decodeWord_major16 (w : IWord) (h : fMajor w = 16) :
    decodeWord w = decode10 w := by
  unfold decodeWord
  rw [h]
  rfl

theorem decodeWord_major17 (w : IWord) (h : fMajor w = 17) :
    decodeWord w = decode10 w := by
  unfold decodeWord
  rw [h]
  rfl

theorem decodeWord_major18 (w : IWord) (h : fMajor w = 18) :
    decodeWord w = decode10 w := by
  unfold decodeWord
  rw [h]
  rfl

theorem decodeWord_major19 (w : IWord) (h : fMajor w = 19) :
    decodeWord w = decode10 w := by
  unfold decodeWord
  rw [h]
  rfl

theorem decodeWord_major20 (w : IWord) (h : fMajor w = 20) :
    decodeWord w = decode14 w := by
  unfold decodeWord
  rw [h]
  rfl

theorem decodeWord_major21 (w : IWord) (h : fMajor w = 21) :
    decodeWord w = decode14 w := by
  unfold decodeWord
  rw [h]
  rfl

theorem decodeWord_major22 (w : IWord) (h : fMajor w = 22) :
    decodeWord w = decode16 w := by
  unfold decodeWord
  rw [h]
  rfl

theorem decodeWord_major23 (w : IWord) (h : fMajor w = 23) :
    decodeWord w = decode17 w := by
  unfold decodeWord
  rw [h]
  rfl

theorem decodeWord_major24 (w : IWord) (h : fMajor w = 24) :
    decodeWord w = decode18 w := by
  unfold decodeWord
  rw [h]
  rfl

theorem decodeWord_major25 (w : IWord) (h : fMajor w = 25) :
    decodeWord w = decode18 w := by
  unfold decodeWord
  rw [h]
  rfl

theorem decodeWord_major26 (w : IWord) (h : fMajor w = 26) :
    decodeWord w = decode1A w := by
  unfold decodeWord
  rw [h]
  rfl

theorem decodeWord_major27 (w : IWord) (h : fMajor w = 27) :
    decodeWord w = decode1B w := by
  unfold decodeWord
  rw [h]
  rfl

theorem decodeWord_major28 (w : IWord) (h : fMajor w = 28) :
    decodeWord w = decode1C w := by
  unfold decodeWord
  rw [h]
  rfl

theorem decodeWord_major29 (w : IWord) (h : fMajor w = 29) :
    decodeWord w = decode1D w := by
  unfold decodeWord
  rw [h]
  rfl

theorem decodeWord_major30 (w : IWord) (h : fMajor w = 30) :
    decodeWord w = decode1E w := by
  unfold decodeWord
  rw [h]
  rfl

theorem decodeWord_major31 (w : IWord) (h : fMajor w = 31) :
    decodeWord w = decode1F w := by
  unfold decodeWord
  rw [h]
  rfl

theorem decodeWord_major32 (w : IWord) (h : fMajor w = 32) :
    decodeWord w = decode20 w := by
  unfold decodeWord
  rw [h]
  rfl

theorem decodeWord_major33 (w : IWord) (h : fMajor w = 33) :
    decodeWord w = decode20 w := by
  unfold decodeWord
  rw [h]
  rfl

theorem decodeWord_major34 (w : IWord) (h : fMajor w = 34) :
    decodeWord w = decode22 w := by
  unfold decodeWord
  rw [h]
  rfl

theorem decodeWord_major35 (w : IWord) (h : fMajor w = 35) :
    decodeWord w = decode23 w := by
  unfold decodeWord
  rw [h]
  rfl

theorem decodeWord_major36 (w : IWord) (h : fMajor w = 36) :
    decodeWord w = decode24 w := by
  unfold decodeWord
  rw [h]
  rfl

theorem decodeWord_major37 (w : IWord) (h : fMajor w = 37) :
    decodeWord w = decode25 w := by
  unfold decodeWord
  rw [h]
  rfl

theorem decodeWord_major38 (w : IWord) (h : fMajor w = 38) :
    decodeWord w = decode26 w := by
  unfold decodeWord
  rw [h]
  rfl

theorem decodeWord_major39 (w : IWord) (h : fMajor w = 39) :
    decodeWord w = decode27 w := by
  unfold decodeWord
  rw [h]
  rfl

theorem decodeWord_major40 (w : IWord) (h : fMajor w = 40) :
    decodeWord w = decode28 w := by
  unfold decodeWord
  rw [h]
  rfl

theorem decodeWord_major41 (w : IWord) (h : fMajor w = 41) :
    decodeWord w = decode28 w := by
  unfold decodeWord
  rw [h]
  rfl

theorem decodeWord_major42 (w : IWord) (h : fMajor w = 42) :
    decodeWord w = decode28 w := by
  unfold decodeWord
  rw [h]
  rfl

theorem decodeWord_major43 (w : IWord) (h : fMajor w = 43) :
    decodeWord w = decode28 w := by
  unfold decodeWord
  rw [h]
  rfl

theorem decodeWord_major44 (w : IWord) (h : fMajor w = 44) :
    decodeWord w = decode2C w := by
  unfold decodeWord
  rw [h]
  rfl

theorem decodeWord_major45 (w : IWord) (h : fMajor w = 45) :
    decodeWord w = decode2D w := by
  unfold decodeWord
  rw [h]
  rfl

theorem decodeWord_major46 (w : IWord) (h : fMajor w = 46) :
    decodeWord w = decode2E w := by
  unfold decodeWord
  rw [h]
  rfl

theorem decodeWord_major47 (w : IWord) (h : fMajor w = 47) :
    decodeWord w = decode2F w := by
  unfold decodeWord
  rw [h]
  rfl

theorem decodeWord_major48 (w : IWord) (h : fMajor w = 48) :
    decodeWord w = decode30 w := by
  unfold decodeWord
  rw [h]
  rfl

theorem decodeWord_major49 (w : IWord) (h : fMajor w = 49) :
    decodeWord w = decode31 w := by
  unfold decodeWord
  rw [h]
  rfl

theorem decodeWord_major50 (w : IWord) (h : fMajor w = 50) :
    decodeWord w = decode32 w := by
  unfold decodeWord
  rw [h]
  rfl

theorem decodeWord_major51 (w : IWord) (h : fMajor w = 51) :
    decodeWord w = decode33 w := by
  unfold decodeWord
  rw [h]
  rfl

theorem decodeWord_major52 (w : IWord) (h : fMajor w = 52) :
    decodeWord w = decode34 w := by
  unfold decodeWord
  rw [h]
  rfl

theorem decodeWord_major53 (w : IWord) (h : fMajor w = 53) :
    decodeWord w = decode35 w := by
  unfold decodeWord
  rw [h]
  rfl

theorem decodeWord_major54 (w : IWord) (h : fMajor w = 54) :
    decodeWord w = decode36 w := by
  unfold decodeWord
  rw [h]
  rfl

theorem decodeWord_major56 (w : IWord) (h : fMajor w = 56) :
    decodeWord w = .ok (.bra (fHd w) (fNeg w) (fin8 (fP w)) (fDisp20 w)) := by
  unfold decodeWord
  rw [h]
  rfl

theorem decodeWord_major57 (w : IWord) (h : fMajor w = 57) :
    decodeWord w = .ok (.brp (fHd w) (fNeg w) (fin8 (fP w)) (fDisp20 w)) := by
  unfold decodeWord
  rw [h]
  rfl

theorem decodeWord_major58 (w : IWord) (h : fMajor w = 58) :
    decodeWord w = decode3A w := by
  unfold decodeWord
  rw [h]
  rfl

theorem decodeWord_major59 (w : IWord) (h : fMajor w = 59) :
    decodeWord w = decode3B w := by
  unfold decodeWord
  rw [h]
  rfl

theorem decodeWord_major60 (w : IWord) (h : fMajor w = 60) :
    decodeWord w = decode3C w := by
  unfold decodeWord
  rw [h]
  rfl

theorem decodeWord_major61 (w : IWord) (h : fMajor w = 61) :
    decodeWord w = decode3D w := by
  unfold decodeWord
  rw [h]
  rfl

theorem decodeWord_major62 (w : IWord) (h : fMajor w = 62) :
    decodeWord w = decode3E w := by
  unfold decodeWord
  rw [h]
  rfl

theorem decodeWord_major63 (w : IWord) (h : fMajor w = 63) :
    decodeWord w = decode3F w := by
  unfold decodeWord
  rw [h]
  rfl

end Sys2Proof.Laws
end

