-- ==== Sys2Proof/Laws/Tab.lean ====
section
/-! SUPPORT. What a read of a table gives after each operation on it, and that each operation keeps the keys sorted. -/

namespace Sys2Proof.Machine

variable {α β : Type} {d x : α} {t : Tab α} {j k n : Nat}

@[simp] theorem tabFind_put_self : tabFind k (tabPut k x t) = some x := by
  induction t with
  | nil => simp [tabPut, tabFind]
  | cons p r ih =>
    obtain ⟨i, y⟩ := p
    simp only [tabPut]
    split
    · simp [tabFind]
    · split
      · simp [tabFind]
      · simp [tabFind, *]

theorem tabFind_put_ne (h : j ≠ k) : tabFind j (tabPut k x t) = tabFind j t := by
  induction t with
  | nil => simp [tabPut, tabFind, Ne.symm h]
  | cons p r ih =>
    obtain ⟨i, y⟩ := p
    simp only [tabPut]
    split
    · simp [tabFind, Ne.symm h]
    · split
      · next hi => subst hi; simp [tabFind, Ne.symm h]
      · simp [tabFind, ih]

theorem tabFind_put : tabFind j (tabPut k x t) = if j = k then some x else tabFind j t := by
  split
  · subst j; simp
  · exact tabFind_put_ne ‹_›

@[simp] theorem tabFind_erase_self : tabFind k (tabErase k t) = none := by
  induction t with
  | nil => rfl
  | cons p r ih =>
    obtain ⟨i, y⟩ := p
    simp only [tabErase]
    split <;> simp [tabFind, *]

theorem tabFind_erase_ne (h : j ≠ k) : tabFind j (tabErase k t) = tabFind j t := by
  induction t with
  | nil => rfl
  | cons p r ih =>
    obtain ⟨i, y⟩ := p
    simp only [tabErase]
    split
    · next hi => subst hi; simp [tabFind, ih, Ne.symm h]
    · simp [tabFind, ih]

@[simp] theorem tabGet_put_self : tabGet d (tabPut k x t) k = x := by simp [tabGet]

theorem tabGet_put_ne (h : j ≠ k) : tabGet d (tabPut k x t) j = tabGet d t j := by
  simp [tabGet, tabFind_put_ne h]

/-- A read after a write of a table: the value at the key written, the old value elsewhere. -/
theorem tabGet_put : tabGet d (tabPut k x t) j = if j = k then x else tabGet d t j := by
  split
  · subst j; simp
  · exact tabGet_put_ne ‹_›

/-- A read after a write that keeps the default unlisted. -/
theorem tabGet_set [DecidableEq α] : tabGet d (tabSet d t k x) j = if j = k then x else tabGet d t j := by
  unfold tabSet
  by_cases hx : x = d
  · subst hx
    by_cases hj : j = k
    · subst hj; simp [tabGet]
    · simp [tabGet, tabFind_erase_ne hj, hj]
  · simp only [hx, if_false]; exact tabGet_put

@[simp] theorem tabGet_set_self [DecidableEq α] : tabGet d (tabSet d t k x) k = x := by simp [tabGet_set]

theorem tabGet_set_ne [DecidableEq α] (h : j ≠ k) : tabGet d (tabSet d t k x) j = tabGet d t j := by
  simp [tabGet_set, h]

/-- A map that keeps the keys acts on the values that a table finds. -/
theorem tabFind_map (f : Nat × α → β) : tabFind k (t.map fun p => (p.1, f p)) = (tabFind k t).map fun x => f (k, x) := by
  induction t with
  | nil => rfl
  | cons p r ih =>
    obtain ⟨i, y⟩ := p
    simp only [List.map_cons, tabFind]
    split
    · next h => subst h; rfl
    · exact ih

/-- A table with fewer than n entries has a free key below n. -/
theorem tabFree_some (h : t.length < n) : ∃ k < n, tabFree n t = some k ∧ tabFind k t = none := by
  have key : ∀ j, (tabFind j t).isSome = true → j ∈ t.map (·.1) := by
    intro j
    clear h
    induction t with
    | nil => simp [tabFind]
    | cons p r ih =>
      obtain ⟨a, b⟩ := p
      simp only [tabFind, List.map_cons, List.mem_cons]
      split
      · next e => intro _; exact Or.inl e.symm
      · intro hj; exact Or.inr (ih hj)
  cases hf : tabFree n t with
  | some k =>
    have hp := List.find?_some hf
    have hm := List.mem_of_find?_eq_some hf
    exact ⟨k, List.mem_range.mp hm, rfl, by simpa using hp⟩
  | none =>
    exfalso
    have hall : ∀ j ∈ List.range n, j ∈ t.map (·.1) := by
      intro j hj
      have := List.find?_eq_none.mp hf j hj
      exact key j (by cases hx : tabFind j t <;> simp_all)
    have := (List.nodup_range (n := n)).subperm hall |>.length_le
    simp at this
    omega

/-! ### Sorted keys -/

/-- Every key of the table is above k. -/
def tabAbove (k : Nat) (t : Tab α) : Prop := ∀ p ∈ t, k < p.1

theorem tabSorted_cons {p : Nat × α} {r : Tab α} : tabSorted (p :: r) = true ↔ tabAbove p.1 r ∧ tabSorted r = true := by
  induction r generalizing p with
  | nil => simp [tabSorted, tabAbove]
  | cons q r ih =>
    obtain ⟨a, b⟩ := p
    obtain ⟨c, e⟩ := q
    simp only [tabSorted, Bool.and_eq_true, decide_eq_true_eq, tabAbove, List.mem_cons, forall_eq_or_imp]
    constructor
    · rintro ⟨h, hs⟩
      exact ⟨⟨h, fun p hp => lt_trans h ((ih.mp hs).1 p hp)⟩, hs⟩
    · rintro ⟨⟨h, _⟩, hs⟩
      exact ⟨h, hs⟩

theorem tabAbove_put {i : Nat} (h : i < k) (ht : tabAbove i t) : tabAbove i (tabPut k x t) := by
  induction t with
  | nil => simpa [tabPut, tabAbove] using h
  | cons p r ih =>
    obtain ⟨a, b⟩ := p
    simp only [tabAbove, List.mem_cons, forall_eq_or_imp] at ht
    simp only [tabPut]
    split
    · simp only [tabAbove, List.mem_cons, forall_eq_or_imp]; exact ⟨h, ht.1, ht.2⟩
    · split
      · simp only [tabAbove, List.mem_cons, forall_eq_or_imp]; exact ⟨h, ht.2⟩
      · simp only [tabAbove, List.mem_cons, forall_eq_or_imp]; exact ⟨ht.1, ih ht.2⟩

theorem tabSorted_put (h : tabSorted t = true) : tabSorted (tabPut k x t) = true := by
  induction t with
  | nil => rfl
  | cons p r ih =>
    obtain ⟨a, b⟩ := p
    have ⟨ha, hr⟩ := tabSorted_cons.mp h
    simp only [tabPut]
    split
    · next hk =>
      refine tabSorted_cons.mpr ⟨?_, h⟩
      simp only [tabAbove, List.mem_cons, forall_eq_or_imp]
      exact ⟨hk, fun p hp => lt_trans hk (ha p hp)⟩
    · split
      · next hk => subst hk; exact tabSorted_cons.mpr ⟨ha, hr⟩
      · exact tabSorted_cons.mpr ⟨tabAbove_put (by omega) ha, ih hr⟩

theorem tabSorted_filter (f : Nat × α → Bool) (h : tabSorted t = true) : tabSorted (t.filter f) = true := by
  induction t with
  | nil => rfl
  | cons p r ih =>
    have ⟨ha, hr⟩ := tabSorted_cons.mp h
    simp only [List.filter_cons]
    split
    · exact tabSorted_cons.mpr ⟨fun q hq => ha q (List.mem_filter.mp hq).1, ih hr⟩
    · exact ih hr

theorem tabErase_filter : tabErase k t = t.filter fun p => decide (p.1 ≠ k) := by
  induction t with
  | nil => rfl
  | cons p r ih =>
    obtain ⟨a, b⟩ := p
    simp only [tabErase, List.filter_cons]
    split <;> simp [*]

theorem tabSorted_set [DecidableEq α] (h : tabSorted t = true) : tabSorted (tabSet d t k x) = true := by
  unfold tabSet
  split
  · rw [tabErase_filter]; exact tabSorted_filter _ h
  · exact tabSorted_put h

theorem mem_put {p : Nat × α} (h : p ∈ tabPut k x t) : p = (k, x) ∨ p ∈ t := by
  induction t with
  | nil => simpa [tabPut] using h
  | cons q r ih =>
    obtain ⟨a, b⟩ := q
    simp only [tabPut] at h
    split at h
    · simpa using h
    · split at h
      · simp only [List.mem_cons] at h ⊢; tauto
      · simp only [List.mem_cons] at h ⊢
        rcases h with h | h
        · tauto
        · rcases ih h with h | h <;> tauto

end Sys2Proof.Machine
end

