-- ==== Sys2Proof/Laws/Regs.lean ====
section
/-! SUPPORT. What the operations on registers do to every register (R35), and what they leave of the group and the split. -/

namespace Sys2Proof.Laws

open Machine Claims

/-- Register numbers of tables by thread do not mix. -/
theorem key_inj {n m t k : Nat} (ht : t < 32) (hk : k < 32) : 32 * n + t = 32 * m + k ↔ n = m ∧ t = k := by omega

@[simp] theorem regNow_markWritten (g : Group) (k : Nat) (sp : Split) (c : Conv) (t : Nat) (o : Opnd) :
    regNow (markWritten g k) sp c t o = regNow g sp c t o := by
  unfold markWritten
  cases g.isTender <;> cases o <;> rfl

/-- A write of a thread's destination: that register of that thread, and no other (R35). -/
theorem regNow_writeThread (d : Opnd) (x : Word) (k : Nat) (g : Group) (sp : Split) (c : Conv) (o : Opnd) (t : Nat)
    (ht : t < 32) (hk : (∃ n, d = .g n) ∨ k < 32) (ho : isReg o = true) :
    regNow (writeThread d x k g sp).1 (writeThread d x k g sp).2 c t o =
      if o = d ∧ o ≠ .p 0 ∧ ((∃ n, d = .g n) ∨ t = k) then dstVal d x else regNow g sp c t o := by
  cases d with
  | v n =>
    have hk : k < 32 := by simpa using hk
    simp only [writeThread, regNow_markWritten]
    cases o with
    | v m => simp [regNow, dstVal, tabGet_set, key_inj ht hk, Fin.val_inj]
    | g _ | o _ | p _ => simp [regNow]
    | _ => simp [isReg] at ho
  | g n =>
    simp only [writeThread]
    cases o with
    | g m => simp [regNow, dstVal, tabGet_set, Fin.val_inj]
    | v _ | o _ | p _ => simp [regNow]
    | _ => simp [isReg] at ho
  | o n =>
    have hk : k < 32 := by simpa using hk
    simp only [writeThread]
    cases o with
    | o m => simp [regNow, dstVal, tabGet_set, key_inj ht hk, Fin.val_inj]
    | v _ | g _ | p _ => simp [regNow]
    | _ => simp [isReg] at ho
  | p n =>
    have hk : k < 32 := by simpa using hk
    by_cases hn : n = 0
    · subst hn
      have : ¬ (o = .p 0 ∧ o ≠ .p 0 ∧ ((∃ n, Opnd.p 0 = .g n) ∨ t = k)) := fun h => h.2.1 h.1
      rw [if_neg this]
      rfl
    · cases o with
      | p m =>
        by_cases hm : m = n
        · subst hm
          by_cases htk : t = k
          · subst htk
            by_cases hx : x = 0#64 <;> simp [writeThread, regNow, dstVal, hn, hx, Mask.one, ht]
          · have h1 : ¬ (t < k) → t - k ≠ 0 := by omega
            by_cases hx : x = 0#64 <;>
              simp [writeThread, regNow, hn, hx, Mask.one, ht, htk, BitVec.getElem_one] <;> grind
        · have h2 : (m : Nat) ≠ n := fun h => hm (Fin.ext h)
          simp [writeThread, regNow, hn, hm, h2, tabGet_set]
      | v _ | g _ | o _ => simp [writeThread, regNow, hn]
      | _ => simp [isReg] at ho
  | _ => cases o <;> simp_all [writeThread, isReg]

/-- The keys of the values that a word gives to a destination: 32 for a g register, threads for the others. -/
def KeysOk (d : Opnd) (vals : List (Nat × Word)) : Prop :=
  (vals.map (·.1)).Nodup ∧
    match d with
    | .g _ => ∀ p ∈ vals, p.1 = 32
    | .z => True
    | _ => ∀ p ∈ vals, p.1 < 32

theorem KeysOk.tail {d : Opnd} {p : Nat × Word} {r : List (Nat × Word)} (h : KeysOk d (p :: r)) : KeysOk d r := by
  refine ⟨(List.nodup_cons.mp h.1).2, ?_⟩
  have h2 := h.2
  cases d <;> first | trivial | exact fun q hq => h2 q (List.mem_cons_of_mem _ hq)

theorem writeAll_cons (d : Opnd) (p : Nat × Word) (r : List (Nat × Word)) (g : Group) (sp : Split) :
    writeAll d (p :: r) g sp = writeAll d r (writeThread d p.2 p.1 g sp).1 (writeThread d p.2 p.1 g sp).2 := rfl

/-- The value of a list by thread, key 32 standing for all of them. -/
theorem threadVal_cons {k t : Nat} {x : Word} {r : List (Nat × Word)} (hn : k ∉ r.map (·.1)) (ht : t < 32)
    (h : (k = 32 ∧ ∀ p ∈ r, p.1 = 32) ∨ (k < 32 ∧ ∀ p ∈ r, p.1 < 32)) :
    threadVal ((k, x) :: r) t = if k = 32 ∨ t = k then some x else threadVal r t := by
  rcases h with ⟨rfl, hr⟩ | ⟨hk, hr⟩
  · have : r = [] := by
      cases r with
      | nil => rfl
      | cons p r => exact absurd (by simp [hr p (by simp)]) hn
    subst this
    have : ¬ (32 = t) := by omega
    simp [threadVal, tabFind, this]
  · have h2 : ∀ r : List (Nat × Word), (∀ p ∈ r, p.1 < 32) → tabFind 32 r = none := by
      intro r hr
      induction r with
      | nil => rfl
      | cons p r ih =>
        obtain ⟨a, b⟩ := p
        have := hr (a, b) (by simp)
        simp only [tabFind]
        rw [if_neg (by simp at this; omega)]
        exact ih fun p hp => hr p (by simp [hp])
    by_cases htk : t = k
    · subst htk; simp [threadVal, tabFind]
    · have : ¬ (k = t) := fun e => htk e.symm
      have h3 : ¬ (k = 32 ∨ t = k) := by omega
      rw [if_neg h3]
      simp only [threadVal, tabFind, this, if_false]
      rw [if_neg (show ¬ k = 32 by omega)]

theorem tabFind_none {k : Nat} {r : List (Nat × Word)} (h : k ∉ r.map (·.1)) : tabFind k r = none := by
  induction r with
  | nil => rfl
  | cons p r ih =>
    obtain ⟨a, b⟩ := p
    simp only [List.map_cons, List.mem_cons, not_or] at h
    simp only [tabFind]
    rw [if_neg (fun e => h.1 e.symm)]
    exact ih h.2

theorem writeAll_z (vals : List (Nat × Word)) (g : Group) (sp : Split) : writeAll .z vals g sp = (g, sp) := by
  induction vals with
  | nil => rfl
  | cons p r ih => rw [writeAll_cons]; exact ih

theorem regNow_writeAll_g (n : Fin 32) (vals : List (Nat × Word)) (hv : KeysOk (.g n) vals) (g : Group) (sp : Split)
    (c : Conv) (o : Opnd) (t : Nat) (ht : t < 32) (ho : isReg o = true) :
    regNow (writeAll (.g n) vals g sp).1 (writeAll (.g n) vals g sp).2 c t o =
      if o = .g n ∧ o ≠ .p 0 then
        (match threadVal vals t with
        | some x => dstVal (.g n) x
        | none => regNow g sp c t o)
      else regNow g sp c t o := by
  match vals, hv with
  | [], _ => simp [writeAll, threadVal, tabFind]
  | [(k, x)], hv =>
    have hk : k = 32 := by simpa [KeysOk] using hv.2
    subst hk
    have h32 : ¬ 32 = t := by omega
    rw [writeAll_cons, show writeAll (.g n) [] = fun g sp => (g, sp) from rfl,
      regNow_writeThread _ _ _ _ _ _ _ _ ht (Or.inl ⟨n, rfl⟩) ho]
    simp [threadVal, tabFind, h32]
  | p :: q :: r, hv =>
    have h1 : p.1 = 32 := by have := hv.2; simp_all
    have h2 : q.1 = 32 := by have := hv.2; simp_all
    exact absurd hv.1 (by simp [h1, h2])

/-- A write of a destination in every listed thread: those registers and no others (R35). -/
theorem regNow_writeAll (d : Opnd) (vals : List (Nat × Word)) (hv : KeysOk d vals) (g : Group) (sp : Split) (c : Conv)
    (o : Opnd) (t : Nat) (ht : t < 32) (ho : isReg o = true) :
    regNow (writeAll d vals g sp).1 (writeAll d vals g sp).2 c t o =
      if o = d ∧ o ≠ .p 0 then
        (match threadVal vals t with
        | some x => dstVal d x
        | none => regNow g sp c t o)
      else regNow g sp c t o := by
  by_cases hg : ∃ n, d = .g n
  · obtain ⟨n, rfl⟩ := hg
    exact regNow_writeAll_g n vals hv g sp c o t ht ho
  by_cases hz : d = .z
  · subst hz
    rw [writeAll_z, if_neg]
    rintro ⟨rfl, -⟩
    simp [isReg] at ho
  induction vals generalizing g sp with
  | nil => simp [writeAll, threadVal, tabFind]
  | cons p r ih =>
    obtain ⟨k, x⟩ := p
    have hn : k ∉ r.map (·.1) := (List.nodup_cons.mp hv.1).1
    have hr : KeysOk d r := hv.tail
    have hall : ∀ p ∈ (k, x) :: r, p.1 < 32 := by
      have h2 := hv.2
      cases d <;> first | exact h2 | exact absurd rfl hz | exact absurd ⟨_, rfl⟩ hg
    have hk : k < 32 := hall (k, x) (by simp)
    have hr' : ∀ p ∈ r, p.1 < 32 := fun p hp => hall p (by simp [hp])
    rw [writeAll_cons, ih hr, regNow_writeThread d x k g sp c o t ht (Or.inr hk) ho]
    by_cases hod : o = d ∧ o ≠ .p 0
    · have e1 : o = d := hod.1
      have e2 : o ≠ .p 0 := hod.2
      rw [if_pos hod, if_pos hod, threadVal_cons hn ht (Or.inr ⟨hk, hr'⟩)]
      have h32 : ¬ k = 32 := by omega
      by_cases htk : t = k
      · have : threadVal r t = none := by
          rw [← htk] at hn
          simp only [threadVal, tabFind_none hn]
          exact tabFind_none fun h => by
            obtain ⟨p, hp, e⟩ := List.mem_map.mp h
            have := hr' p hp
            omega
        rw [if_pos (Or.inr htk), this, if_pos ⟨e1, e2, Or.inr htk⟩]
      · rw [if_neg (show ¬ (k = 32 ∨ t = k) by omega),
          if_neg (show ¬ (o = d ∧ o ≠ .p 0 ∧ ((∃ n, d = .g n) ∨ t = k)) from fun h => h.2.2.elim hg htk)]
    · have h2 : ¬ (o = d ∧ o ≠ .p 0 ∧ ((∃ n, d = .g n) ∨ t = k)) := fun h => hod ⟨h.1, h.2.1⟩
      rw [if_neg hod, if_neg hod, if_neg h2]

/-! ### What a write of a destination leaves -/

/-- Fields of the group that a write of a destination leaves. -/
theorem writeThread_frame (d : Opnd) (x : Word) (k : Nat) (g : Group) (sp : Split) :
    frameGroup (writeThread d x k g sp).1 = frameGroup g ∧ frameSplit (writeThread d x k g sp).2 = frameSplit sp
      ∧ (writeThread d x k g sp).1.splits = g.splits ∧ (writeThread d x k g sp).1.results = g.results
      ∧ (writeThread d x k g sp).1.fstat = g.fstat ∧ (writeThread d x k g sp).1.gwords = g.gwords
      ∧ (writeThread d x k g sp).2 = { sp with run := (writeThread d x k g sp).2.run }
      ∧ (writeThread d x k g sp).2.run = { sp.run with oregs := (writeThread d x k g sp).2.run.oregs } := by
  cases d with
  | v n => cases h : g.isTender <;> simp [writeThread, markWritten, frameGroup, h, quietTender]
  | p n => by_cases hn : n = 0 <;> simp [writeThread, frameGroup, hn]
  | _ => simp [writeThread, frameGroup, frameSplit]

theorem writeAll_frame (d : Opnd) (vals : List (Nat × Word)) (g : Group) (sp : Split) :
    frameGroup (writeAll d vals g sp).1 = frameGroup g ∧ frameSplit (writeAll d vals g sp).2 = frameSplit sp
      ∧ (writeAll d vals g sp).1.splits = g.splits ∧ (writeAll d vals g sp).1.results = g.results
      ∧ (writeAll d vals g sp).1.fstat = g.fstat ∧ (writeAll d vals g sp).1.gwords = g.gwords
      ∧ (writeAll d vals g sp).2 = { sp with run := (writeAll d vals g sp).2.run }
      ∧ (writeAll d vals g sp).2.run = { sp.run with oregs := (writeAll d vals g sp).2.run.oregs } := by
  induction vals generalizing g sp with
  | nil => simp [writeAll]
  | cons p r ih =>
    have h := writeThread_frame d p.2 p.1 g sp
    have i := ih (writeThread d p.2 p.1 g sp).1 (writeThread d p.2 p.1 g sp).2
    rw [writeAll_cons]
    refine ⟨i.1.trans h.1, i.2.1.trans h.2.1, i.2.2.1.trans h.2.2.1, i.2.2.2.1.trans h.2.2.2.1,
      i.2.2.2.2.1.trans h.2.2.2.2.1, i.2.2.2.2.2.1.trans h.2.2.2.2.2.1, ?_, ?_⟩
    · rw [i.2.2.2.2.2.2.1, h.2.2.2.2.2.2.1]
    · rw [i.2.2.2.2.2.2.2, h.2.2.2.2.2.2.2]

end Sys2Proof.Laws
end

