-- ==== Sys2Proof/Laws/State.lean ====
section
/-! SUPPORT. What each update of the state leaves, field by field, and what its readers give after it. -/

namespace Sys2Proof.Machine

section fields

variable (s : State)

@[simp] theorem setCore_clock (c : Nat) (k : Core) : (setCore s c k).clock = s.clock := rfl
@[simp] theorem setCore_tick (c : Nat) (k : Core) : (setCore s c k).tick = s.tick := rfl
@[simp] theorem setCore_hostTime (c : Nat) (k : Core) : (setCore s c k).hostTime = s.hostTime := rfl
@[simp] theorem setCore_hkTime (c : Nat) (k : Core) : (setCore s c k).hkTime = s.hkTime := rfl
@[simp] theorem setCore_feTime (c : Nat) (k : Core) : (setCore s c k).feTime = s.feTime := rfl
@[simp] theorem setCore_held (c : Nat) (k : Core) : (setCore s c k).held = s.held := rfl
@[simp] theorem setCore_mem (c : Nat) (k : Core) : (setCore s c k).mem = s.mem := rfl
@[simp] theorem setCore_full (c : Nat) (k : Core) : (setCore s c k).full = s.full := rfl
@[simp] theorem setCore_poison (c : Nat) (k : Core) : (setCore s c k).poison = s.poison := rfl
@[simp] theorem setCore_lines (c : Nat) (k : Core) : (setCore s c k).lines = s.lines := rfl
@[simp] theorem setCore_pools (c : Nat) (k : Core) : (setCore s c k).pools = s.pools := rfl
@[simp] theorem setCore_decoders (c : Nat) (k : Core) : (setCore s c k).decoders = s.decoders := rfl
@[simp] theorem setCore_deadDies (c : Nat) (k : Core) : (setCore s c k).deadDies = s.deadDies := rfl
@[simp] theorem setCore_lostUnits (c : Nat) (k : Core) : (setCore s c k).lostUnits = s.lostUnits := rfl
@[simp] theorem setCore_withheld (c : Nat) (k : Core) : (setCore s c k).withheld = s.withheld := rfl
@[simp] theorem setCore_phyLane (c : Nat) (k : Core) : (setCore s c k).phyLane = s.phyLane := rfl
@[simp] theorem setCore_quads (c : Nat) (k : Core) : (setCore s c k).quads = s.quads := rfl
@[simp] theorem setCore_parts (c : Nat) (k : Core) : (setCore s c k).parts = s.parts := rfl
@[simp] theorem setCore_launches (c : Nat) (k : Core) : (setCore s c k).launches = s.launches := rfl
@[simp] theorem setCore_barriers (c : Nat) (k : Core) : (setCore s c k).barriers = s.barriers := rfl
@[simp] theorem setCore_queues (c : Nat) (k : Core) : (setCore s c k).queues = s.queues := rfl
@[simp] theorem setCore_ports (c : Nat) (k : Core) : (setCore s c k).ports = s.ports := rfl
@[simp] theorem setCore_podNum (c : Nat) (k : Core) : (setCore s c k).podNum = s.podNum := rfl
@[simp] theorem setCore_hostBuf (c : Nat) (k : Core) : (setCore s c k).hostBuf = s.hostBuf := rfl
@[simp] theorem setCore_msix (c : Nat) (k : Core) : (setCore s c k).msix = s.msix := rfl
@[simp] theorem setCore_reports (c : Nat) (k : Core) : (setCore s c k).reports = s.reports := rfl
@[simp] theorem setCore_budper (c : Nat) (k : Core) : (setCore s c k).budper = s.budper := rfl
@[simp] theorem setCore_budAt (c : Nat) (k : Core) : (setCore s c k).budAt = s.budAt := rfl
@[simp] theorem setCore_tokAt (c : Nat) (k : Core) : (setCore s c k).tokAt = s.tokAt := rfl
@[simp] theorem setCore_life (c : Nat) (k : Core) : (setCore s c k).life = s.life := rfl
@[simp] theorem setCore_entering (c : Nat) (k : Core) : (setCore s c k).entering = s.entering := rfl
@[simp] theorem setCore_attestKey (c : Nat) (k : Core) : (setCore s c k).attestKey = s.attestKey := rfl
@[simp] theorem setCore_ownerKey (c : Nat) (k : Core) : (setCore s c k).ownerKey = s.ownerKey := rfl
@[simp] theorem setCore_vendorKey (c : Nat) (k : Core) : (setCore s c k).vendorKey = s.vendorKey := rfl
@[simp] theorem setCore_serial (c : Nat) (k : Core) : (setCore s c k).serial = s.serial := rfl
@[simp] theorem setCore_mreg (c : Nat) (k : Core) : (setCore s c k).mreg = s.mreg := rfl
@[simp] theorem setCore_defect (c : Nat) (k : Core) : (setCore s c k).defect = s.defect := rfl
@[simp] theorem setCore_dies (c : Nat) (k : Core) : (setCore s c k).dies = s.dies := rfl
@[simp] theorem setCore_ready (c : Nat) (k : Core) : (setCore s c k).ready = s.ready := rfl
@[simp] theorem setCore_vmarg (c : Nat) (k : Core) : (setCore s c k).vmarg = s.vmarg := rfl
@[simp] theorem setCore_lmarg (c : Nat) (k : Core) : (setCore s c k).lmarg = s.lmarg := rfl
@[simp] theorem setCore_hot (c : Nat) (k : Core) : (setCore s c k).hot = s.hot := rfl
@[simp] theorem setCore_doeOut (c : Nat) (k : Core) : (setCore s c k).doeOut = s.doeOut := rfl
@[simp] theorem setCore_hostOut (c : Nat) (k : Core) : (setCore s c k).hostOut = s.hostOut := rfl
@[simp] theorem setCore_free (c : Nat) (k : Core) : (setCore s c k).free = s.free := rfl
@[simp] theorem setCore_agenda (c : Nat) (k : Core) : (setCore s c k).agenda = s.agenda := rfl
@[simp] theorem setCore_turn (c : Nat) (k : Core) : (setCore s c k).turn = s.turn := rfl

@[simp] theorem setGroup_clock (c n : Nat) (g : Group) : (setGroup s c n g).clock = s.clock := rfl
@[simp] theorem setGroup_tick (c n : Nat) (g : Group) : (setGroup s c n g).tick = s.tick := rfl
@[simp] theorem setGroup_hostTime (c n : Nat) (g : Group) : (setGroup s c n g).hostTime = s.hostTime := rfl
@[simp] theorem setGroup_hkTime (c n : Nat) (g : Group) : (setGroup s c n g).hkTime = s.hkTime := rfl
@[simp] theorem setGroup_feTime (c n : Nat) (g : Group) : (setGroup s c n g).feTime = s.feTime := rfl
@[simp] theorem setGroup_held (c n : Nat) (g : Group) : (setGroup s c n g).held = s.held := rfl
@[simp] theorem setGroup_mem (c n : Nat) (g : Group) : (setGroup s c n g).mem = s.mem := rfl
@[simp] theorem setGroup_full (c n : Nat) (g : Group) : (setGroup s c n g).full = s.full := rfl
@[simp] theorem setGroup_poison (c n : Nat) (g : Group) : (setGroup s c n g).poison = s.poison := rfl
@[simp] theorem setGroup_lines (c n : Nat) (g : Group) : (setGroup s c n g).lines = s.lines := rfl
@[simp] theorem setGroup_pools (c n : Nat) (g : Group) : (setGroup s c n g).pools = s.pools := rfl
@[simp] theorem setGroup_decoders (c n : Nat) (g : Group) : (setGroup s c n g).decoders = s.decoders := rfl
@[simp] theorem setGroup_deadDies (c n : Nat) (g : Group) : (setGroup s c n g).deadDies = s.deadDies := rfl
@[simp] theorem setGroup_lostUnits (c n : Nat) (g : Group) : (setGroup s c n g).lostUnits = s.lostUnits := rfl
@[simp] theorem setGroup_withheld (c n : Nat) (g : Group) : (setGroup s c n g).withheld = s.withheld := rfl
@[simp] theorem setGroup_phyLane (c n : Nat) (g : Group) : (setGroup s c n g).phyLane = s.phyLane := rfl
@[simp] theorem setGroup_quads (c n : Nat) (g : Group) : (setGroup s c n g).quads = s.quads := rfl
@[simp] theorem setGroup_parts (c n : Nat) (g : Group) : (setGroup s c n g).parts = s.parts := rfl
@[simp] theorem setGroup_launches (c n : Nat) (g : Group) : (setGroup s c n g).launches = s.launches := rfl
@[simp] theorem setGroup_barriers (c n : Nat) (g : Group) : (setGroup s c n g).barriers = s.barriers := rfl
@[simp] theorem setGroup_queues (c n : Nat) (g : Group) : (setGroup s c n g).queues = s.queues := rfl
@[simp] theorem setGroup_ports (c n : Nat) (g : Group) : (setGroup s c n g).ports = s.ports := rfl
@[simp] theorem setGroup_podNum (c n : Nat) (g : Group) : (setGroup s c n g).podNum = s.podNum := rfl
@[simp] theorem setGroup_hostBuf (c n : Nat) (g : Group) : (setGroup s c n g).hostBuf = s.hostBuf := rfl
@[simp] theorem setGroup_msix (c n : Nat) (g : Group) : (setGroup s c n g).msix = s.msix := rfl
@[simp] theorem setGroup_reports (c n : Nat) (g : Group) : (setGroup s c n g).reports = s.reports := rfl
@[simp] theorem setGroup_budper (c n : Nat) (g : Group) : (setGroup s c n g).budper = s.budper := rfl
@[simp] theorem setGroup_budAt (c n : Nat) (g : Group) : (setGroup s c n g).budAt = s.budAt := rfl
@[simp] theorem setGroup_tokAt (c n : Nat) (g : Group) : (setGroup s c n g).tokAt = s.tokAt := rfl
@[simp] theorem setGroup_life (c n : Nat) (g : Group) : (setGroup s c n g).life = s.life := rfl
@[simp] theorem setGroup_entering (c n : Nat) (g : Group) : (setGroup s c n g).entering = s.entering := rfl
@[simp] theorem setGroup_attestKey (c n : Nat) (g : Group) : (setGroup s c n g).attestKey = s.attestKey := rfl
@[simp] theorem setGroup_ownerKey (c n : Nat) (g : Group) : (setGroup s c n g).ownerKey = s.ownerKey := rfl
@[simp] theorem setGroup_vendorKey (c n : Nat) (g : Group) : (setGroup s c n g).vendorKey = s.vendorKey := rfl
@[simp] theorem setGroup_serial (c n : Nat) (g : Group) : (setGroup s c n g).serial = s.serial := rfl
@[simp] theorem setGroup_mreg (c n : Nat) (g : Group) : (setGroup s c n g).mreg = s.mreg := rfl
@[simp] theorem setGroup_defect (c n : Nat) (g : Group) : (setGroup s c n g).defect = s.defect := rfl
@[simp] theorem setGroup_dies (c n : Nat) (g : Group) : (setGroup s c n g).dies = s.dies := rfl
@[simp] theorem setGroup_ready (c n : Nat) (g : Group) : (setGroup s c n g).ready = s.ready := rfl
@[simp] theorem setGroup_vmarg (c n : Nat) (g : Group) : (setGroup s c n g).vmarg = s.vmarg := rfl
@[simp] theorem setGroup_lmarg (c n : Nat) (g : Group) : (setGroup s c n g).lmarg = s.lmarg := rfl
@[simp] theorem setGroup_hot (c n : Nat) (g : Group) : (setGroup s c n g).hot = s.hot := rfl
@[simp] theorem setGroup_doeOut (c n : Nat) (g : Group) : (setGroup s c n g).doeOut = s.doeOut := rfl
@[simp] theorem setGroup_hostOut (c n : Nat) (g : Group) : (setGroup s c n g).hostOut = s.hostOut := rfl
@[simp] theorem setGroup_free (c n : Nat) (g : Group) : (setGroup s c n g).free = s.free := rfl
@[simp] theorem setGroup_agenda (c n : Nat) (g : Group) : (setGroup s c n g).agenda = s.agenda := rfl
@[simp] theorem setGroup_turn (c n : Nat) (g : Group) : (setGroup s c n g).turn = s.turn := rfl

@[simp] theorem store_clock (pl : Place) (g : Group) (sp : Split) : (store s pl g sp).clock = s.clock := rfl
@[simp] theorem store_tick (pl : Place) (g : Group) (sp : Split) : (store s pl g sp).tick = s.tick := rfl
@[simp] theorem store_hostTime (pl : Place) (g : Group) (sp : Split) : (store s pl g sp).hostTime = s.hostTime := rfl
@[simp] theorem store_hkTime (pl : Place) (g : Group) (sp : Split) : (store s pl g sp).hkTime = s.hkTime := rfl
@[simp] theorem store_feTime (pl : Place) (g : Group) (sp : Split) : (store s pl g sp).feTime = s.feTime := rfl
@[simp] theorem store_held (pl : Place) (g : Group) (sp : Split) : (store s pl g sp).held = s.held := rfl
@[simp] theorem store_mem (pl : Place) (g : Group) (sp : Split) : (store s pl g sp).mem = s.mem := rfl
@[simp] theorem store_full (pl : Place) (g : Group) (sp : Split) : (store s pl g sp).full = s.full := rfl
@[simp] theorem store_poison (pl : Place) (g : Group) (sp : Split) : (store s pl g sp).poison = s.poison := rfl
@[simp] theorem store_lines (pl : Place) (g : Group) (sp : Split) : (store s pl g sp).lines = s.lines := rfl
@[simp] theorem store_pools (pl : Place) (g : Group) (sp : Split) : (store s pl g sp).pools = s.pools := rfl
@[simp] theorem store_decoders (pl : Place) (g : Group) (sp : Split) : (store s pl g sp).decoders = s.decoders := rfl
@[simp] theorem store_deadDies (pl : Place) (g : Group) (sp : Split) : (store s pl g sp).deadDies = s.deadDies := rfl
@[simp] theorem store_lostUnits (pl : Place) (g : Group) (sp : Split) : (store s pl g sp).lostUnits = s.lostUnits := rfl
@[simp] theorem store_withheld (pl : Place) (g : Group) (sp : Split) : (store s pl g sp).withheld = s.withheld := rfl
@[simp] theorem store_phyLane (pl : Place) (g : Group) (sp : Split) : (store s pl g sp).phyLane = s.phyLane := rfl
@[simp] theorem store_quads (pl : Place) (g : Group) (sp : Split) : (store s pl g sp).quads = s.quads := rfl
@[simp] theorem store_parts (pl : Place) (g : Group) (sp : Split) : (store s pl g sp).parts = s.parts := rfl
@[simp] theorem store_launches (pl : Place) (g : Group) (sp : Split) : (store s pl g sp).launches = s.launches := rfl
@[simp] theorem store_barriers (pl : Place) (g : Group) (sp : Split) : (store s pl g sp).barriers = s.barriers := rfl
@[simp] theorem store_queues (pl : Place) (g : Group) (sp : Split) : (store s pl g sp).queues = s.queues := rfl
@[simp] theorem store_ports (pl : Place) (g : Group) (sp : Split) : (store s pl g sp).ports = s.ports := rfl
@[simp] theorem store_podNum (pl : Place) (g : Group) (sp : Split) : (store s pl g sp).podNum = s.podNum := rfl
@[simp] theorem store_hostBuf (pl : Place) (g : Group) (sp : Split) : (store s pl g sp).hostBuf = s.hostBuf := rfl
@[simp] theorem store_msix (pl : Place) (g : Group) (sp : Split) : (store s pl g sp).msix = s.msix := rfl
@[simp] theorem store_reports (pl : Place) (g : Group) (sp : Split) : (store s pl g sp).reports = s.reports := rfl
@[simp] theorem store_budper (pl : Place) (g : Group) (sp : Split) : (store s pl g sp).budper = s.budper := rfl
@[simp] theorem store_budAt (pl : Place) (g : Group) (sp : Split) : (store s pl g sp).budAt = s.budAt := rfl
@[simp] theorem store_tokAt (pl : Place) (g : Group) (sp : Split) : (store s pl g sp).tokAt = s.tokAt := rfl
@[simp] theorem store_life (pl : Place) (g : Group) (sp : Split) : (store s pl g sp).life = s.life := rfl
@[simp] theorem store_entering (pl : Place) (g : Group) (sp : Split) : (store s pl g sp).entering = s.entering := rfl
@[simp] theorem store_attestKey (pl : Place) (g : Group) (sp : Split) : (store s pl g sp).attestKey = s.attestKey := rfl
@[simp] theorem store_ownerKey (pl : Place) (g : Group) (sp : Split) : (store s pl g sp).ownerKey = s.ownerKey := rfl
@[simp] theorem store_vendorKey (pl : Place) (g : Group) (sp : Split) : (store s pl g sp).vendorKey = s.vendorKey := rfl
@[simp] theorem store_serial (pl : Place) (g : Group) (sp : Split) : (store s pl g sp).serial = s.serial := rfl
@[simp] theorem store_mreg (pl : Place) (g : Group) (sp : Split) : (store s pl g sp).mreg = s.mreg := rfl
@[simp] theorem store_defect (pl : Place) (g : Group) (sp : Split) : (store s pl g sp).defect = s.defect := rfl
@[simp] theorem store_dies (pl : Place) (g : Group) (sp : Split) : (store s pl g sp).dies = s.dies := rfl
@[simp] theorem store_ready (pl : Place) (g : Group) (sp : Split) : (store s pl g sp).ready = s.ready := rfl
@[simp] theorem store_vmarg (pl : Place) (g : Group) (sp : Split) : (store s pl g sp).vmarg = s.vmarg := rfl
@[simp] theorem store_lmarg (pl : Place) (g : Group) (sp : Split) : (store s pl g sp).lmarg = s.lmarg := rfl
@[simp] theorem store_hot (pl : Place) (g : Group) (sp : Split) : (store s pl g sp).hot = s.hot := rfl
@[simp] theorem store_doeOut (pl : Place) (g : Group) (sp : Split) : (store s pl g sp).doeOut = s.doeOut := rfl
@[simp] theorem store_hostOut (pl : Place) (g : Group) (sp : Split) : (store s pl g sp).hostOut = s.hostOut := rfl
@[simp] theorem store_free (pl : Place) (g : Group) (sp : Split) : (store s pl g sp).free = s.free := rfl
@[simp] theorem store_agenda (pl : Place) (g : Group) (sp : Split) : (store s pl g sp).agenda = s.agenda := rfl
@[simp] theorem store_turn (pl : Place) (g : Group) (sp : Split) : (store s pl g sp).turn = s.turn := rfl

@[simp] theorem setPart_clock (p : Nat) (x : Part) : (setPart s p x).clock = s.clock := rfl
@[simp] theorem setPart_tick (p : Nat) (x : Part) : (setPart s p x).tick = s.tick := rfl
@[simp] theorem setPart_hostTime (p : Nat) (x : Part) : (setPart s p x).hostTime = s.hostTime := rfl
@[simp] theorem setPart_hkTime (p : Nat) (x : Part) : (setPart s p x).hkTime = s.hkTime := rfl
@[simp] theorem setPart_feTime (p : Nat) (x : Part) : (setPart s p x).feTime = s.feTime := rfl
@[simp] theorem setPart_held (p : Nat) (x : Part) : (setPart s p x).held = s.held := rfl
@[simp] theorem setPart_mem (p : Nat) (x : Part) : (setPart s p x).mem = s.mem := rfl
@[simp] theorem setPart_full (p : Nat) (x : Part) : (setPart s p x).full = s.full := rfl
@[simp] theorem setPart_poison (p : Nat) (x : Part) : (setPart s p x).poison = s.poison := rfl
@[simp] theorem setPart_lines (p : Nat) (x : Part) : (setPart s p x).lines = s.lines := rfl
@[simp] theorem setPart_pools (p : Nat) (x : Part) : (setPart s p x).pools = s.pools := rfl
@[simp] theorem setPart_decoders (p : Nat) (x : Part) : (setPart s p x).decoders = s.decoders := rfl
@[simp] theorem setPart_deadDies (p : Nat) (x : Part) : (setPart s p x).deadDies = s.deadDies := rfl
@[simp] theorem setPart_lostUnits (p : Nat) (x : Part) : (setPart s p x).lostUnits = s.lostUnits := rfl
@[simp] theorem setPart_withheld (p : Nat) (x : Part) : (setPart s p x).withheld = s.withheld := rfl
@[simp] theorem setPart_phyLane (p : Nat) (x : Part) : (setPart s p x).phyLane = s.phyLane := rfl
@[simp] theorem setPart_cores (p : Nat) (x : Part) : (setPart s p x).cores = s.cores := rfl
@[simp] theorem setPart_quads (p : Nat) (x : Part) : (setPart s p x).quads = s.quads := rfl
@[simp] theorem setPart_launches (p : Nat) (x : Part) : (setPart s p x).launches = s.launches := rfl
@[simp] theorem setPart_barriers (p : Nat) (x : Part) : (setPart s p x).barriers = s.barriers := rfl
@[simp] theorem setPart_queues (p : Nat) (x : Part) : (setPart s p x).queues = s.queues := rfl
@[simp] theorem setPart_ports (p : Nat) (x : Part) : (setPart s p x).ports = s.ports := rfl
@[simp] theorem setPart_podNum (p : Nat) (x : Part) : (setPart s p x).podNum = s.podNum := rfl
@[simp] theorem setPart_hostBuf (p : Nat) (x : Part) : (setPart s p x).hostBuf = s.hostBuf := rfl
@[simp] theorem setPart_msix (p : Nat) (x : Part) : (setPart s p x).msix = s.msix := rfl
@[simp] theorem setPart_reports (p : Nat) (x : Part) : (setPart s p x).reports = s.reports := rfl
@[simp] theorem setPart_budper (p : Nat) (x : Part) : (setPart s p x).budper = s.budper := rfl
@[simp] theorem setPart_budAt (p : Nat) (x : Part) : (setPart s p x).budAt = s.budAt := rfl
@[simp] theorem setPart_tokAt (p : Nat) (x : Part) : (setPart s p x).tokAt = s.tokAt := rfl
@[simp] theorem setPart_life (p : Nat) (x : Part) : (setPart s p x).life = s.life := rfl
@[simp] theorem setPart_entering (p : Nat) (x : Part) : (setPart s p x).entering = s.entering := rfl
@[simp] theorem setPart_attestKey (p : Nat) (x : Part) : (setPart s p x).attestKey = s.attestKey := rfl
@[simp] theorem setPart_ownerKey (p : Nat) (x : Part) : (setPart s p x).ownerKey = s.ownerKey := rfl
@[simp] theorem setPart_vendorKey (p : Nat) (x : Part) : (setPart s p x).vendorKey = s.vendorKey := rfl
@[simp] theorem setPart_serial (p : Nat) (x : Part) : (setPart s p x).serial = s.serial := rfl
@[simp] theorem setPart_mreg (p : Nat) (x : Part) : (setPart s p x).mreg = s.mreg := rfl
@[simp] theorem setPart_defect (p : Nat) (x : Part) : (setPart s p x).defect = s.defect := rfl
@[simp] theorem setPart_dies (p : Nat) (x : Part) : (setPart s p x).dies = s.dies := rfl
@[simp] theorem setPart_ready (p : Nat) (x : Part) : (setPart s p x).ready = s.ready := rfl
@[simp] theorem setPart_vmarg (p : Nat) (x : Part) : (setPart s p x).vmarg = s.vmarg := rfl
@[simp] theorem setPart_lmarg (p : Nat) (x : Part) : (setPart s p x).lmarg = s.lmarg := rfl
@[simp] theorem setPart_hot (p : Nat) (x : Part) : (setPart s p x).hot = s.hot := rfl
@[simp] theorem setPart_doeOut (p : Nat) (x : Part) : (setPart s p x).doeOut = s.doeOut := rfl
@[simp] theorem setPart_hostOut (p : Nat) (x : Part) : (setPart s p x).hostOut = s.hostOut := rfl
@[simp] theorem setPart_free (p : Nat) (x : Part) : (setPart s p x).free = s.free := rfl
@[simp] theorem setPart_agenda (p : Nat) (x : Part) : (setPart s p x).agenda = s.agenda := rfl
@[simp] theorem setPart_turn (p : Nat) (x : Part) : (setPart s p x).turn = s.turn := rfl

@[simp] theorem setStream_clock (q : StreamId) (x : Stream) : (setStream s q x).clock = s.clock := rfl
@[simp] theorem setStream_tick (q : StreamId) (x : Stream) : (setStream s q x).tick = s.tick := rfl
@[simp] theorem setStream_hostTime (q : StreamId) (x : Stream) : (setStream s q x).hostTime = s.hostTime := rfl
@[simp] theorem setStream_hkTime (q : StreamId) (x : Stream) : (setStream s q x).hkTime = s.hkTime := rfl
@[simp] theorem setStream_feTime (q : StreamId) (x : Stream) : (setStream s q x).feTime = s.feTime := rfl
@[simp] theorem setStream_held (q : StreamId) (x : Stream) : (setStream s q x).held = s.held := rfl
@[simp] theorem setStream_mem (q : StreamId) (x : Stream) : (setStream s q x).mem = s.mem := rfl
@[simp] theorem setStream_full (q : StreamId) (x : Stream) : (setStream s q x).full = s.full := rfl
@[simp] theorem setStream_poison (q : StreamId) (x : Stream) : (setStream s q x).poison = s.poison := rfl
@[simp] theorem setStream_lines (q : StreamId) (x : Stream) : (setStream s q x).lines = s.lines := rfl
@[simp] theorem setStream_pools (q : StreamId) (x : Stream) : (setStream s q x).pools = s.pools := rfl
@[simp] theorem setStream_decoders (q : StreamId) (x : Stream) : (setStream s q x).decoders = s.decoders := rfl
@[simp] theorem setStream_deadDies (q : StreamId) (x : Stream) : (setStream s q x).deadDies = s.deadDies := rfl
@[simp] theorem setStream_lostUnits (q : StreamId) (x : Stream) : (setStream s q x).lostUnits = s.lostUnits := rfl
@[simp] theorem setStream_withheld (q : StreamId) (x : Stream) : (setStream s q x).withheld = s.withheld := rfl
@[simp] theorem setStream_phyLane (q : StreamId) (x : Stream) : (setStream s q x).phyLane = s.phyLane := rfl
@[simp] theorem setStream_cores (q : StreamId) (x : Stream) : (setStream s q x).cores = s.cores := rfl
@[simp] theorem setStream_quads (q : StreamId) (x : Stream) : (setStream s q x).quads = s.quads := rfl
@[simp] theorem setStream_launches (q : StreamId) (x : Stream) : (setStream s q x).launches = s.launches := rfl
@[simp] theorem setStream_barriers (q : StreamId) (x : Stream) : (setStream s q x).barriers = s.barriers := rfl
@[simp] theorem setStream_queues (q : StreamId) (x : Stream) : (setStream s q x).queues = s.queues := rfl
@[simp] theorem setStream_ports (q : StreamId) (x : Stream) : (setStream s q x).ports = s.ports := rfl
@[simp] theorem setStream_podNum (q : StreamId) (x : Stream) : (setStream s q x).podNum = s.podNum := rfl
@[simp] theorem setStream_hostBuf (q : StreamId) (x : Stream) : (setStream s q x).hostBuf = s.hostBuf := rfl
@[simp] theorem setStream_msix (q : StreamId) (x : Stream) : (setStream s q x).msix = s.msix := rfl
@[simp] theorem setStream_reports (q : StreamId) (x : Stream) : (setStream s q x).reports = s.reports := rfl
@[simp] theorem setStream_budper (q : StreamId) (x : Stream) : (setStream s q x).budper = s.budper := rfl
@[simp] theorem setStream_budAt (q : StreamId) (x : Stream) : (setStream s q x).budAt = s.budAt := rfl
@[simp] theorem setStream_tokAt (q : StreamId) (x : Stream) : (setStream s q x).tokAt = s.tokAt := rfl
@[simp] theorem setStream_life (q : StreamId) (x : Stream) : (setStream s q x).life = s.life := rfl
@[simp] theorem setStream_entering (q : StreamId) (x : Stream) : (setStream s q x).entering = s.entering := rfl
@[simp] theorem setStream_attestKey (q : StreamId) (x : Stream) : (setStream s q x).attestKey = s.attestKey := rfl
@[simp] theorem setStream_ownerKey (q : StreamId) (x : Stream) : (setStream s q x).ownerKey = s.ownerKey := rfl
@[simp] theorem setStream_vendorKey (q : StreamId) (x : Stream) : (setStream s q x).vendorKey = s.vendorKey := rfl
@[simp] theorem setStream_serial (q : StreamId) (x : Stream) : (setStream s q x).serial = s.serial := rfl
@[simp] theorem setStream_mreg (q : StreamId) (x : Stream) : (setStream s q x).mreg = s.mreg := rfl
@[simp] theorem setStream_defect (q : StreamId) (x : Stream) : (setStream s q x).defect = s.defect := rfl
@[simp] theorem setStream_dies (q : StreamId) (x : Stream) : (setStream s q x).dies = s.dies := rfl
@[simp] theorem setStream_ready (q : StreamId) (x : Stream) : (setStream s q x).ready = s.ready := rfl
@[simp] theorem setStream_vmarg (q : StreamId) (x : Stream) : (setStream s q x).vmarg = s.vmarg := rfl
@[simp] theorem setStream_lmarg (q : StreamId) (x : Stream) : (setStream s q x).lmarg = s.lmarg := rfl
@[simp] theorem setStream_hot (q : StreamId) (x : Stream) : (setStream s q x).hot = s.hot := rfl
@[simp] theorem setStream_doeOut (q : StreamId) (x : Stream) : (setStream s q x).doeOut = s.doeOut := rfl
@[simp] theorem setStream_hostOut (q : StreamId) (x : Stream) : (setStream s q x).hostOut = s.hostOut := rfl
@[simp] theorem setStream_free (q : StreamId) (x : Stream) : (setStream s q x).free = s.free := rfl
@[simp] theorem setStream_agenda (q : StreamId) (x : Stream) : (setStream s q x).agenda = s.agenda := rfl
@[simp] theorem setStream_turn (q : StreamId) (x : Stream) : (setStream s q x).turn = s.turn := rfl

@[simp] theorem setLaunch_clock (n : Nat) (l : Launch) : (setLaunch s n l).clock = s.clock := rfl
@[simp] theorem setLaunch_tick (n : Nat) (l : Launch) : (setLaunch s n l).tick = s.tick := rfl
@[simp] theorem setLaunch_hostTime (n : Nat) (l : Launch) : (setLaunch s n l).hostTime = s.hostTime := rfl
@[simp] theorem setLaunch_hkTime (n : Nat) (l : Launch) : (setLaunch s n l).hkTime = s.hkTime := rfl
@[simp] theorem setLaunch_feTime (n : Nat) (l : Launch) : (setLaunch s n l).feTime = s.feTime := rfl
@[simp] theorem setLaunch_held (n : Nat) (l : Launch) : (setLaunch s n l).held = s.held := rfl
@[simp] theorem setLaunch_mem (n : Nat) (l : Launch) : (setLaunch s n l).mem = s.mem := rfl
@[simp] theorem setLaunch_full (n : Nat) (l : Launch) : (setLaunch s n l).full = s.full := rfl
@[simp] theorem setLaunch_poison (n : Nat) (l : Launch) : (setLaunch s n l).poison = s.poison := rfl
@[simp] theorem setLaunch_lines (n : Nat) (l : Launch) : (setLaunch s n l).lines = s.lines := rfl
@[simp] theorem setLaunch_pools (n : Nat) (l : Launch) : (setLaunch s n l).pools = s.pools := rfl
@[simp] theorem setLaunch_decoders (n : Nat) (l : Launch) : (setLaunch s n l).decoders = s.decoders := rfl
@[simp] theorem setLaunch_deadDies (n : Nat) (l : Launch) : (setLaunch s n l).deadDies = s.deadDies := rfl
@[simp] theorem setLaunch_lostUnits (n : Nat) (l : Launch) : (setLaunch s n l).lostUnits = s.lostUnits := rfl
@[simp] theorem setLaunch_withheld (n : Nat) (l : Launch) : (setLaunch s n l).withheld = s.withheld := rfl
@[simp] theorem setLaunch_phyLane (n : Nat) (l : Launch) : (setLaunch s n l).phyLane = s.phyLane := rfl
@[simp] theorem setLaunch_cores (n : Nat) (l : Launch) : (setLaunch s n l).cores = s.cores := rfl
@[simp] theorem setLaunch_quads (n : Nat) (l : Launch) : (setLaunch s n l).quads = s.quads := rfl
@[simp] theorem setLaunch_parts (n : Nat) (l : Launch) : (setLaunch s n l).parts = s.parts := rfl
@[simp] theorem setLaunch_barriers (n : Nat) (l : Launch) : (setLaunch s n l).barriers = s.barriers := rfl
@[simp] theorem setLaunch_queues (n : Nat) (l : Launch) : (setLaunch s n l).queues = s.queues := rfl
@[simp] theorem setLaunch_ports (n : Nat) (l : Launch) : (setLaunch s n l).ports = s.ports := rfl
@[simp] theorem setLaunch_podNum (n : Nat) (l : Launch) : (setLaunch s n l).podNum = s.podNum := rfl
@[simp] theorem setLaunch_hostBuf (n : Nat) (l : Launch) : (setLaunch s n l).hostBuf = s.hostBuf := rfl
@[simp] theorem setLaunch_msix (n : Nat) (l : Launch) : (setLaunch s n l).msix = s.msix := rfl
@[simp] theorem setLaunch_reports (n : Nat) (l : Launch) : (setLaunch s n l).reports = s.reports := rfl
@[simp] theorem setLaunch_budper (n : Nat) (l : Launch) : (setLaunch s n l).budper = s.budper := rfl
@[simp] theorem setLaunch_budAt (n : Nat) (l : Launch) : (setLaunch s n l).budAt = s.budAt := rfl
@[simp] theorem setLaunch_tokAt (n : Nat) (l : Launch) : (setLaunch s n l).tokAt = s.tokAt := rfl
@[simp] theorem setLaunch_life (n : Nat) (l : Launch) : (setLaunch s n l).life = s.life := rfl
@[simp] theorem setLaunch_entering (n : Nat) (l : Launch) : (setLaunch s n l).entering = s.entering := rfl
@[simp] theorem setLaunch_attestKey (n : Nat) (l : Launch) : (setLaunch s n l).attestKey = s.attestKey := rfl
@[simp] theorem setLaunch_ownerKey (n : Nat) (l : Launch) : (setLaunch s n l).ownerKey = s.ownerKey := rfl
@[simp] theorem setLaunch_vendorKey (n : Nat) (l : Launch) : (setLaunch s n l).vendorKey = s.vendorKey := rfl
@[simp] theorem setLaunch_serial (n : Nat) (l : Launch) : (setLaunch s n l).serial = s.serial := rfl
@[simp] theorem setLaunch_mreg (n : Nat) (l : Launch) : (setLaunch s n l).mreg = s.mreg := rfl
@[simp] theorem setLaunch_defect (n : Nat) (l : Launch) : (setLaunch s n l).defect = s.defect := rfl
@[simp] theorem setLaunch_dies (n : Nat) (l : Launch) : (setLaunch s n l).dies = s.dies := rfl
@[simp] theorem setLaunch_ready (n : Nat) (l : Launch) : (setLaunch s n l).ready = s.ready := rfl
@[simp] theorem setLaunch_vmarg (n : Nat) (l : Launch) : (setLaunch s n l).vmarg = s.vmarg := rfl
@[simp] theorem setLaunch_lmarg (n : Nat) (l : Launch) : (setLaunch s n l).lmarg = s.lmarg := rfl
@[simp] theorem setLaunch_hot (n : Nat) (l : Launch) : (setLaunch s n l).hot = s.hot := rfl
@[simp] theorem setLaunch_doeOut (n : Nat) (l : Launch) : (setLaunch s n l).doeOut = s.doeOut := rfl
@[simp] theorem setLaunch_hostOut (n : Nat) (l : Launch) : (setLaunch s n l).hostOut = s.hostOut := rfl
@[simp] theorem setLaunch_free (n : Nat) (l : Launch) : (setLaunch s n l).free = s.free := rfl
@[simp] theorem setLaunch_agenda (n : Nat) (l : Launch) : (setLaunch s n l).agenda = s.agenda := rfl
@[simp] theorem setLaunch_turn (n : Nat) (l : Launch) : (setLaunch s n l).turn = s.turn := rfl

@[simp] theorem setQuad_clock (q : Nat) (x : Quad) : (setQuad s q x).clock = s.clock := rfl
@[simp] theorem setQuad_tick (q : Nat) (x : Quad) : (setQuad s q x).tick = s.tick := rfl
@[simp] theorem setQuad_hostTime (q : Nat) (x : Quad) : (setQuad s q x).hostTime = s.hostTime := rfl
@[simp] theorem setQuad_hkTime (q : Nat) (x : Quad) : (setQuad s q x).hkTime = s.hkTime := rfl
@[simp] theorem setQuad_feTime (q : Nat) (x : Quad) : (setQuad s q x).feTime = s.feTime := rfl
@[simp] theorem setQuad_held (q : Nat) (x : Quad) : (setQuad s q x).held = s.held := rfl
@[simp] theorem setQuad_mem (q : Nat) (x : Quad) : (setQuad s q x).mem = s.mem := rfl
@[simp] theorem setQuad_full (q : Nat) (x : Quad) : (setQuad s q x).full = s.full := rfl
@[simp] theorem setQuad_poison (q : Nat) (x : Quad) : (setQuad s q x).poison = s.poison := rfl
@[simp] theorem setQuad_lines (q : Nat) (x : Quad) : (setQuad s q x).lines = s.lines := rfl
@[simp] theorem setQuad_pools (q : Nat) (x : Quad) : (setQuad s q x).pools = s.pools := rfl
@[simp] theorem setQuad_decoders (q : Nat) (x : Quad) : (setQuad s q x).decoders = s.decoders := rfl
@[simp] theorem setQuad_deadDies (q : Nat) (x : Quad) : (setQuad s q x).deadDies = s.deadDies := rfl
@[simp] theorem setQuad_lostUnits (q : Nat) (x : Quad) : (setQuad s q x).lostUnits = s.lostUnits := rfl
@[simp] theorem setQuad_withheld (q : Nat) (x : Quad) : (setQuad s q x).withheld = s.withheld := rfl
@[simp] theorem setQuad_phyLane (q : Nat) (x : Quad) : (setQuad s q x).phyLane = s.phyLane := rfl
@[simp] theorem setQuad_cores (q : Nat) (x : Quad) : (setQuad s q x).cores = s.cores := rfl
@[simp] theorem setQuad_parts (q : Nat) (x : Quad) : (setQuad s q x).parts = s.parts := rfl
@[simp] theorem setQuad_launches (q : Nat) (x : Quad) : (setQuad s q x).launches = s.launches := rfl
@[simp] theorem setQuad_barriers (q : Nat) (x : Quad) : (setQuad s q x).barriers = s.barriers := rfl
@[simp] theorem setQuad_queues (q : Nat) (x : Quad) : (setQuad s q x).queues = s.queues := rfl
@[simp] theorem setQuad_ports (q : Nat) (x : Quad) : (setQuad s q x).ports = s.ports := rfl
@[simp] theorem setQuad_podNum (q : Nat) (x : Quad) : (setQuad s q x).podNum = s.podNum := rfl
@[simp] theorem setQuad_hostBuf (q : Nat) (x : Quad) : (setQuad s q x).hostBuf = s.hostBuf := rfl
@[simp] theorem setQuad_msix (q : Nat) (x : Quad) : (setQuad s q x).msix = s.msix := rfl
@[simp] theorem setQuad_reports (q : Nat) (x : Quad) : (setQuad s q x).reports = s.reports := rfl
@[simp] theorem setQuad_budper (q : Nat) (x : Quad) : (setQuad s q x).budper = s.budper := rfl
@[simp] theorem setQuad_budAt (q : Nat) (x : Quad) : (setQuad s q x).budAt = s.budAt := rfl
@[simp] theorem setQuad_tokAt (q : Nat) (x : Quad) : (setQuad s q x).tokAt = s.tokAt := rfl
@[simp] theorem setQuad_life (q : Nat) (x : Quad) : (setQuad s q x).life = s.life := rfl
@[simp] theorem setQuad_entering (q : Nat) (x : Quad) : (setQuad s q x).entering = s.entering := rfl
@[simp] theorem setQuad_attestKey (q : Nat) (x : Quad) : (setQuad s q x).attestKey = s.attestKey := rfl
@[simp] theorem setQuad_ownerKey (q : Nat) (x : Quad) : (setQuad s q x).ownerKey = s.ownerKey := rfl
@[simp] theorem setQuad_vendorKey (q : Nat) (x : Quad) : (setQuad s q x).vendorKey = s.vendorKey := rfl
@[simp] theorem setQuad_serial (q : Nat) (x : Quad) : (setQuad s q x).serial = s.serial := rfl
@[simp] theorem setQuad_mreg (q : Nat) (x : Quad) : (setQuad s q x).mreg = s.mreg := rfl
@[simp] theorem setQuad_defect (q : Nat) (x : Quad) : (setQuad s q x).defect = s.defect := rfl
@[simp] theorem setQuad_dies (q : Nat) (x : Quad) : (setQuad s q x).dies = s.dies := rfl
@[simp] theorem setQuad_ready (q : Nat) (x : Quad) : (setQuad s q x).ready = s.ready := rfl
@[simp] theorem setQuad_vmarg (q : Nat) (x : Quad) : (setQuad s q x).vmarg = s.vmarg := rfl
@[simp] theorem setQuad_lmarg (q : Nat) (x : Quad) : (setQuad s q x).lmarg = s.lmarg := rfl
@[simp] theorem setQuad_hot (q : Nat) (x : Quad) : (setQuad s q x).hot = s.hot := rfl
@[simp] theorem setQuad_doeOut (q : Nat) (x : Quad) : (setQuad s q x).doeOut = s.doeOut := rfl
@[simp] theorem setQuad_hostOut (q : Nat) (x : Quad) : (setQuad s q x).hostOut = s.hostOut := rfl
@[simp] theorem setQuad_free (q : Nat) (x : Quad) : (setQuad s q x).free = s.free := rfl
@[simp] theorem setQuad_agenda (q : Nat) (x : Quad) : (setQuad s q x).agenda = s.agenda := rfl
@[simp] theorem setQuad_turn (q : Nat) (x : Quad) : (setQuad s q x).turn = s.turn := rfl

@[simp] theorem report_clock (r : Report) : (report s r).clock = s.clock := rfl
@[simp] theorem report_tick (r : Report) : (report s r).tick = s.tick := rfl
@[simp] theorem report_hostTime (r : Report) : (report s r).hostTime = s.hostTime := rfl
@[simp] theorem report_hkTime (r : Report) : (report s r).hkTime = s.hkTime := rfl
@[simp] theorem report_feTime (r : Report) : (report s r).feTime = s.feTime := rfl
@[simp] theorem report_held (r : Report) : (report s r).held = s.held := rfl
@[simp] theorem report_mem (r : Report) : (report s r).mem = s.mem := rfl
@[simp] theorem report_full (r : Report) : (report s r).full = s.full := rfl
@[simp] theorem report_poison (r : Report) : (report s r).poison = s.poison := rfl
@[simp] theorem report_lines (r : Report) : (report s r).lines = s.lines := rfl
@[simp] theorem report_pools (r : Report) : (report s r).pools = s.pools := rfl
@[simp] theorem report_decoders (r : Report) : (report s r).decoders = s.decoders := rfl
@[simp] theorem report_deadDies (r : Report) : (report s r).deadDies = s.deadDies := rfl
@[simp] theorem report_lostUnits (r : Report) : (report s r).lostUnits = s.lostUnits := rfl
@[simp] theorem report_withheld (r : Report) : (report s r).withheld = s.withheld := rfl
@[simp] theorem report_phyLane (r : Report) : (report s r).phyLane = s.phyLane := rfl
@[simp] theorem report_cores (r : Report) : (report s r).cores = s.cores := rfl
@[simp] theorem report_quads (r : Report) : (report s r).quads = s.quads := rfl
@[simp] theorem report_parts (r : Report) : (report s r).parts = s.parts := rfl
@[simp] theorem report_launches (r : Report) : (report s r).launches = s.launches := rfl
@[simp] theorem report_barriers (r : Report) : (report s r).barriers = s.barriers := rfl
@[simp] theorem report_queues (r : Report) : (report s r).queues = s.queues := rfl
@[simp] theorem report_ports (r : Report) : (report s r).ports = s.ports := rfl
@[simp] theorem report_podNum (r : Report) : (report s r).podNum = s.podNum := rfl
@[simp] theorem report_hostBuf (r : Report) : (report s r).hostBuf = s.hostBuf := rfl
@[simp] theorem report_msix (r : Report) : (report s r).msix = s.msix := rfl
@[simp] theorem report_budper (r : Report) : (report s r).budper = s.budper := rfl
@[simp] theorem report_budAt (r : Report) : (report s r).budAt = s.budAt := rfl
@[simp] theorem report_tokAt (r : Report) : (report s r).tokAt = s.tokAt := rfl
@[simp] theorem report_life (r : Report) : (report s r).life = s.life := rfl
@[simp] theorem report_entering (r : Report) : (report s r).entering = s.entering := rfl
@[simp] theorem report_attestKey (r : Report) : (report s r).attestKey = s.attestKey := rfl
@[simp] theorem report_ownerKey (r : Report) : (report s r).ownerKey = s.ownerKey := rfl
@[simp] theorem report_vendorKey (r : Report) : (report s r).vendorKey = s.vendorKey := rfl
@[simp] theorem report_serial (r : Report) : (report s r).serial = s.serial := rfl
@[simp] theorem report_mreg (r : Report) : (report s r).mreg = s.mreg := rfl
@[simp] theorem report_defect (r : Report) : (report s r).defect = s.defect := rfl
@[simp] theorem report_dies (r : Report) : (report s r).dies = s.dies := rfl
@[simp] theorem report_ready (r : Report) : (report s r).ready = s.ready := rfl
@[simp] theorem report_vmarg (r : Report) : (report s r).vmarg = s.vmarg := rfl
@[simp] theorem report_lmarg (r : Report) : (report s r).lmarg = s.lmarg := rfl
@[simp] theorem report_hot (r : Report) : (report s r).hot = s.hot := rfl
@[simp] theorem report_doeOut (r : Report) : (report s r).doeOut = s.doeOut := rfl
@[simp] theorem report_hostOut (r : Report) : (report s r).hostOut = s.hostOut := rfl
@[simp] theorem report_free (r : Report) : (report s r).free = s.free := rfl
@[simp] theorem report_agenda (r : Report) : (report s r).agenda = s.agenda := rfl
@[simp] theorem report_turn (r : Report) : (report s r).turn = s.turn := rfl

@[simp] theorem putByte_clock (loc : Nat) (b : Byte) : (putByte s loc b).clock = s.clock := rfl
@[simp] theorem putByte_tick (loc : Nat) (b : Byte) : (putByte s loc b).tick = s.tick := rfl
@[simp] theorem putByte_hostTime (loc : Nat) (b : Byte) : (putByte s loc b).hostTime = s.hostTime := rfl
@[simp] theorem putByte_hkTime (loc : Nat) (b : Byte) : (putByte s loc b).hkTime = s.hkTime := rfl
@[simp] theorem putByte_feTime (loc : Nat) (b : Byte) : (putByte s loc b).feTime = s.feTime := rfl
@[simp] theorem putByte_held (loc : Nat) (b : Byte) : (putByte s loc b).held = s.held := rfl
@[simp] theorem putByte_full (loc : Nat) (b : Byte) : (putByte s loc b).full = s.full := rfl
@[simp] theorem putByte_poison (loc : Nat) (b : Byte) : (putByte s loc b).poison = s.poison := rfl
@[simp] theorem putByte_lines (loc : Nat) (b : Byte) : (putByte s loc b).lines = s.lines := rfl
@[simp] theorem putByte_pools (loc : Nat) (b : Byte) : (putByte s loc b).pools = s.pools := rfl
@[simp] theorem putByte_decoders (loc : Nat) (b : Byte) : (putByte s loc b).decoders = s.decoders := rfl
@[simp] theorem putByte_deadDies (loc : Nat) (b : Byte) : (putByte s loc b).deadDies = s.deadDies := rfl
@[simp] theorem putByte_lostUnits (loc : Nat) (b : Byte) : (putByte s loc b).lostUnits = s.lostUnits := rfl
@[simp] theorem putByte_withheld (loc : Nat) (b : Byte) : (putByte s loc b).withheld = s.withheld := rfl
@[simp] theorem putByte_phyLane (loc : Nat) (b : Byte) : (putByte s loc b).phyLane = s.phyLane := rfl
@[simp] theorem putByte_cores (loc : Nat) (b : Byte) : (putByte s loc b).cores = s.cores := rfl
@[simp] theorem putByte_quads (loc : Nat) (b : Byte) : (putByte s loc b).quads = s.quads := rfl
@[simp] theorem putByte_parts (loc : Nat) (b : Byte) : (putByte s loc b).parts = s.parts := rfl
@[simp] theorem putByte_launches (loc : Nat) (b : Byte) : (putByte s loc b).launches = s.launches := rfl
@[simp] theorem putByte_barriers (loc : Nat) (b : Byte) : (putByte s loc b).barriers = s.barriers := rfl
@[simp] theorem putByte_queues (loc : Nat) (b : Byte) : (putByte s loc b).queues = s.queues := rfl
@[simp] theorem putByte_ports (loc : Nat) (b : Byte) : (putByte s loc b).ports = s.ports := rfl
@[simp] theorem putByte_podNum (loc : Nat) (b : Byte) : (putByte s loc b).podNum = s.podNum := rfl
@[simp] theorem putByte_hostBuf (loc : Nat) (b : Byte) : (putByte s loc b).hostBuf = s.hostBuf := rfl
@[simp] theorem putByte_msix (loc : Nat) (b : Byte) : (putByte s loc b).msix = s.msix := rfl
@[simp] theorem putByte_reports (loc : Nat) (b : Byte) : (putByte s loc b).reports = s.reports := rfl
@[simp] theorem putByte_budper (loc : Nat) (b : Byte) : (putByte s loc b).budper = s.budper := rfl
@[simp] theorem putByte_budAt (loc : Nat) (b : Byte) : (putByte s loc b).budAt = s.budAt := rfl
@[simp] theorem putByte_tokAt (loc : Nat) (b : Byte) : (putByte s loc b).tokAt = s.tokAt := rfl
@[simp] theorem putByte_life (loc : Nat) (b : Byte) : (putByte s loc b).life = s.life := rfl
@[simp] theorem putByte_entering (loc : Nat) (b : Byte) : (putByte s loc b).entering = s.entering := rfl
@[simp] theorem putByte_attestKey (loc : Nat) (b : Byte) : (putByte s loc b).attestKey = s.attestKey := rfl
@[simp] theorem putByte_ownerKey (loc : Nat) (b : Byte) : (putByte s loc b).ownerKey = s.ownerKey := rfl
@[simp] theorem putByte_vendorKey (loc : Nat) (b : Byte) : (putByte s loc b).vendorKey = s.vendorKey := rfl
@[simp] theorem putByte_serial (loc : Nat) (b : Byte) : (putByte s loc b).serial = s.serial := rfl
@[simp] theorem putByte_mreg (loc : Nat) (b : Byte) : (putByte s loc b).mreg = s.mreg := rfl
@[simp] theorem putByte_defect (loc : Nat) (b : Byte) : (putByte s loc b).defect = s.defect := rfl
@[simp] theorem putByte_dies (loc : Nat) (b : Byte) : (putByte s loc b).dies = s.dies := rfl
@[simp] theorem putByte_ready (loc : Nat) (b : Byte) : (putByte s loc b).ready = s.ready := rfl
@[simp] theorem putByte_vmarg (loc : Nat) (b : Byte) : (putByte s loc b).vmarg = s.vmarg := rfl
@[simp] theorem putByte_lmarg (loc : Nat) (b : Byte) : (putByte s loc b).lmarg = s.lmarg := rfl
@[simp] theorem putByte_hot (loc : Nat) (b : Byte) : (putByte s loc b).hot = s.hot := rfl
@[simp] theorem putByte_doeOut (loc : Nat) (b : Byte) : (putByte s loc b).doeOut = s.doeOut := rfl
@[simp] theorem putByte_hostOut (loc : Nat) (b : Byte) : (putByte s loc b).hostOut = s.hostOut := rfl
@[simp] theorem putByte_free (loc : Nat) (b : Byte) : (putByte s loc b).free = s.free := rfl
@[simp] theorem putByte_agenda (loc : Nat) (b : Byte) : (putByte s loc b).agenda = s.agenda := rfl
@[simp] theorem putByte_turn (loc : Nat) (b : Byte) : (putByte s loc b).turn = s.turn := rfl

@[simp] theorem setLine_clock (loc w l : Nat) : (setLine s loc w l).clock = s.clock := rfl
@[simp] theorem setLine_tick (loc w l : Nat) : (setLine s loc w l).tick = s.tick := rfl
@[simp] theorem setLine_hostTime (loc w l : Nat) : (setLine s loc w l).hostTime = s.hostTime := rfl
@[simp] theorem setLine_hkTime (loc w l : Nat) : (setLine s loc w l).hkTime = s.hkTime := rfl
@[simp] theorem setLine_feTime (loc w l : Nat) : (setLine s loc w l).feTime = s.feTime := rfl
@[simp] theorem setLine_held (loc w l : Nat) : (setLine s loc w l).held = s.held := rfl
@[simp] theorem setLine_mem (loc w l : Nat) : (setLine s loc w l).mem = s.mem := rfl
@[simp] theorem setLine_full (loc w l : Nat) : (setLine s loc w l).full = s.full := rfl
@[simp] theorem setLine_poison (loc w l : Nat) : (setLine s loc w l).poison = s.poison := rfl
@[simp] theorem setLine_pools (loc w l : Nat) : (setLine s loc w l).pools = s.pools := rfl
@[simp] theorem setLine_decoders (loc w l : Nat) : (setLine s loc w l).decoders = s.decoders := rfl
@[simp] theorem setLine_deadDies (loc w l : Nat) : (setLine s loc w l).deadDies = s.deadDies := rfl
@[simp] theorem setLine_lostUnits (loc w l : Nat) : (setLine s loc w l).lostUnits = s.lostUnits := rfl
@[simp] theorem setLine_withheld (loc w l : Nat) : (setLine s loc w l).withheld = s.withheld := rfl
@[simp] theorem setLine_phyLane (loc w l : Nat) : (setLine s loc w l).phyLane = s.phyLane := rfl
@[simp] theorem setLine_cores (loc w l : Nat) : (setLine s loc w l).cores = s.cores := rfl
@[simp] theorem setLine_quads (loc w l : Nat) : (setLine s loc w l).quads = s.quads := rfl
@[simp] theorem setLine_parts (loc w l : Nat) : (setLine s loc w l).parts = s.parts := rfl
@[simp] theorem setLine_launches (loc w l : Nat) : (setLine s loc w l).launches = s.launches := rfl
@[simp] theorem setLine_barriers (loc w l : Nat) : (setLine s loc w l).barriers = s.barriers := rfl
@[simp] theorem setLine_queues (loc w l : Nat) : (setLine s loc w l).queues = s.queues := rfl
@[simp] theorem setLine_ports (loc w l : Nat) : (setLine s loc w l).ports = s.ports := rfl
@[simp] theorem setLine_podNum (loc w l : Nat) : (setLine s loc w l).podNum = s.podNum := rfl
@[simp] theorem setLine_hostBuf (loc w l : Nat) : (setLine s loc w l).hostBuf = s.hostBuf := rfl
@[simp] theorem setLine_msix (loc w l : Nat) : (setLine s loc w l).msix = s.msix := rfl
@[simp] theorem setLine_reports (loc w l : Nat) : (setLine s loc w l).reports = s.reports := rfl
@[simp] theorem setLine_budper (loc w l : Nat) : (setLine s loc w l).budper = s.budper := rfl
@[simp] theorem setLine_budAt (loc w l : Nat) : (setLine s loc w l).budAt = s.budAt := rfl
@[simp] theorem setLine_tokAt (loc w l : Nat) : (setLine s loc w l).tokAt = s.tokAt := rfl
@[simp] theorem setLine_life (loc w l : Nat) : (setLine s loc w l).life = s.life := rfl
@[simp] theorem setLine_entering (loc w l : Nat) : (setLine s loc w l).entering = s.entering := rfl
@[simp] theorem setLine_attestKey (loc w l : Nat) : (setLine s loc w l).attestKey = s.attestKey := rfl
@[simp] theorem setLine_ownerKey (loc w l : Nat) : (setLine s loc w l).ownerKey = s.ownerKey := rfl
@[simp] theorem setLine_vendorKey (loc w l : Nat) : (setLine s loc w l).vendorKey = s.vendorKey := rfl
@[simp] theorem setLine_serial (loc w l : Nat) : (setLine s loc w l).serial = s.serial := rfl
@[simp] theorem setLine_mreg (loc w l : Nat) : (setLine s loc w l).mreg = s.mreg := rfl
@[simp] theorem setLine_defect (loc w l : Nat) : (setLine s loc w l).defect = s.defect := rfl
@[simp] theorem setLine_dies (loc w l : Nat) : (setLine s loc w l).dies = s.dies := rfl
@[simp] theorem setLine_ready (loc w l : Nat) : (setLine s loc w l).ready = s.ready := rfl
@[simp] theorem setLine_vmarg (loc w l : Nat) : (setLine s loc w l).vmarg = s.vmarg := rfl
@[simp] theorem setLine_lmarg (loc w l : Nat) : (setLine s loc w l).lmarg = s.lmarg := rfl
@[simp] theorem setLine_hot (loc w l : Nat) : (setLine s loc w l).hot = s.hot := rfl
@[simp] theorem setLine_doeOut (loc w l : Nat) : (setLine s loc w l).doeOut = s.doeOut := rfl
@[simp] theorem setLine_hostOut (loc w l : Nat) : (setLine s loc w l).hostOut = s.hostOut := rfl
@[simp] theorem setLine_free (loc w l : Nat) : (setLine s loc w l).free = s.free := rfl
@[simp] theorem setLine_agenda (loc w l : Nat) : (setLine s loc w l).agenda = s.agenda := rfl
@[simp] theorem setLine_turn (loc w l : Nat) : (setLine s loc w l).turn = s.turn := rfl

@[simp] theorem setFull_clock (loc : Nat) (b : Bool) : (setFull s loc b).clock = s.clock := rfl
@[simp] theorem setFull_tick (loc : Nat) (b : Bool) : (setFull s loc b).tick = s.tick := rfl
@[simp] theorem setFull_hostTime (loc : Nat) (b : Bool) : (setFull s loc b).hostTime = s.hostTime := rfl
@[simp] theorem setFull_hkTime (loc : Nat) (b : Bool) : (setFull s loc b).hkTime = s.hkTime := rfl
@[simp] theorem setFull_feTime (loc : Nat) (b : Bool) : (setFull s loc b).feTime = s.feTime := rfl
@[simp] theorem setFull_held (loc : Nat) (b : Bool) : (setFull s loc b).held = s.held := rfl
@[simp] theorem setFull_mem (loc : Nat) (b : Bool) : (setFull s loc b).mem = s.mem := rfl
@[simp] theorem setFull_poison (loc : Nat) (b : Bool) : (setFull s loc b).poison = s.poison := rfl
@[simp] theorem setFull_lines (loc : Nat) (b : Bool) : (setFull s loc b).lines = s.lines := rfl
@[simp] theorem setFull_pools (loc : Nat) (b : Bool) : (setFull s loc b).pools = s.pools := rfl
@[simp] theorem setFull_decoders (loc : Nat) (b : Bool) : (setFull s loc b).decoders = s.decoders := rfl
@[simp] theorem setFull_deadDies (loc : Nat) (b : Bool) : (setFull s loc b).deadDies = s.deadDies := rfl
@[simp] theorem setFull_lostUnits (loc : Nat) (b : Bool) : (setFull s loc b).lostUnits = s.lostUnits := rfl
@[simp] theorem setFull_withheld (loc : Nat) (b : Bool) : (setFull s loc b).withheld = s.withheld := rfl
@[simp] theorem setFull_phyLane (loc : Nat) (b : Bool) : (setFull s loc b).phyLane = s.phyLane := rfl
@[simp] theorem setFull_cores (loc : Nat) (b : Bool) : (setFull s loc b).cores = s.cores := rfl
@[simp] theorem setFull_quads (loc : Nat) (b : Bool) : (setFull s loc b).quads = s.quads := rfl
@[simp] theorem setFull_parts (loc : Nat) (b : Bool) : (setFull s loc b).parts = s.parts := rfl
@[simp] theorem setFull_launches (loc : Nat) (b : Bool) : (setFull s loc b).launches = s.launches := rfl
@[simp] theorem setFull_barriers (loc : Nat) (b : Bool) : (setFull s loc b).barriers = s.barriers := rfl
@[simp] theorem setFull_queues (loc : Nat) (b : Bool) : (setFull s loc b).queues = s.queues := rfl
@[simp] theorem setFull_ports (loc : Nat) (b : Bool) : (setFull s loc b).ports = s.ports := rfl
@[simp] theorem setFull_podNum (loc : Nat) (b : Bool) : (setFull s loc b).podNum = s.podNum := rfl
@[simp] theorem setFull_hostBuf (loc : Nat) (b : Bool) : (setFull s loc b).hostBuf = s.hostBuf := rfl
@[simp] theorem setFull_msix (loc : Nat) (b : Bool) : (setFull s loc b).msix = s.msix := rfl
@[simp] theorem setFull_reports (loc : Nat) (b : Bool) : (setFull s loc b).reports = s.reports := rfl
@[simp] theorem setFull_budper (loc : Nat) (b : Bool) : (setFull s loc b).budper = s.budper := rfl
@[simp] theorem setFull_budAt (loc : Nat) (b : Bool) : (setFull s loc b).budAt = s.budAt := rfl
@[simp] theorem setFull_tokAt (loc : Nat) (b : Bool) : (setFull s loc b).tokAt = s.tokAt := rfl
@[simp] theorem setFull_life (loc : Nat) (b : Bool) : (setFull s loc b).life = s.life := rfl
@[simp] theorem setFull_entering (loc : Nat) (b : Bool) : (setFull s loc b).entering = s.entering := rfl
@[simp] theorem setFull_attestKey (loc : Nat) (b : Bool) : (setFull s loc b).attestKey = s.attestKey := rfl
@[simp] theorem setFull_ownerKey (loc : Nat) (b : Bool) : (setFull s loc b).ownerKey = s.ownerKey := rfl
@[simp] theorem setFull_vendorKey (loc : Nat) (b : Bool) : (setFull s loc b).vendorKey = s.vendorKey := rfl
@[simp] theorem setFull_serial (loc : Nat) (b : Bool) : (setFull s loc b).serial = s.serial := rfl
@[simp] theorem setFull_mreg (loc : Nat) (b : Bool) : (setFull s loc b).mreg = s.mreg := rfl
@[simp] theorem setFull_defect (loc : Nat) (b : Bool) : (setFull s loc b).defect = s.defect := rfl
@[simp] theorem setFull_dies (loc : Nat) (b : Bool) : (setFull s loc b).dies = s.dies := rfl
@[simp] theorem setFull_ready (loc : Nat) (b : Bool) : (setFull s loc b).ready = s.ready := rfl
@[simp] theorem setFull_vmarg (loc : Nat) (b : Bool) : (setFull s loc b).vmarg = s.vmarg := rfl
@[simp] theorem setFull_lmarg (loc : Nat) (b : Bool) : (setFull s loc b).lmarg = s.lmarg := rfl
@[simp] theorem setFull_hot (loc : Nat) (b : Bool) : (setFull s loc b).hot = s.hot := rfl
@[simp] theorem setFull_doeOut (loc : Nat) (b : Bool) : (setFull s loc b).doeOut = s.doeOut := rfl
@[simp] theorem setFull_hostOut (loc : Nat) (b : Bool) : (setFull s loc b).hostOut = s.hostOut := rfl
@[simp] theorem setFull_free (loc : Nat) (b : Bool) : (setFull s loc b).free = s.free := rfl
@[simp] theorem setFull_agenda (loc : Nat) (b : Bool) : (setFull s loc b).agenda = s.agenda := rfl
@[simp] theorem setFull_turn (loc : Nat) (b : Bool) : (setFull s loc b).turn = s.turn := rfl

@[simp] theorem setCoreTime_clock (c t : Nat) : (setCoreTime s c t).clock = s.clock := rfl
@[simp] theorem setCoreTime_tick (c t : Nat) : (setCoreTime s c t).tick = s.tick := rfl
@[simp] theorem setCoreTime_hostTime (c t : Nat) : (setCoreTime s c t).hostTime = s.hostTime := rfl
@[simp] theorem setCoreTime_hkTime (c t : Nat) : (setCoreTime s c t).hkTime = s.hkTime := rfl
@[simp] theorem setCoreTime_feTime (c t : Nat) : (setCoreTime s c t).feTime = s.feTime := rfl
@[simp] theorem setCoreTime_held (c t : Nat) : (setCoreTime s c t).held = s.held := rfl
@[simp] theorem setCoreTime_mem (c t : Nat) : (setCoreTime s c t).mem = s.mem := rfl
@[simp] theorem setCoreTime_full (c t : Nat) : (setCoreTime s c t).full = s.full := rfl
@[simp] theorem setCoreTime_poison (c t : Nat) : (setCoreTime s c t).poison = s.poison := rfl
@[simp] theorem setCoreTime_lines (c t : Nat) : (setCoreTime s c t).lines = s.lines := rfl
@[simp] theorem setCoreTime_pools (c t : Nat) : (setCoreTime s c t).pools = s.pools := rfl
@[simp] theorem setCoreTime_decoders (c t : Nat) : (setCoreTime s c t).decoders = s.decoders := rfl
@[simp] theorem setCoreTime_deadDies (c t : Nat) : (setCoreTime s c t).deadDies = s.deadDies := rfl
@[simp] theorem setCoreTime_lostUnits (c t : Nat) : (setCoreTime s c t).lostUnits = s.lostUnits := rfl
@[simp] theorem setCoreTime_withheld (c t : Nat) : (setCoreTime s c t).withheld = s.withheld := rfl
@[simp] theorem setCoreTime_phyLane (c t : Nat) : (setCoreTime s c t).phyLane = s.phyLane := rfl
@[simp] theorem setCoreTime_quads (c t : Nat) : (setCoreTime s c t).quads = s.quads := rfl
@[simp] theorem setCoreTime_parts (c t : Nat) : (setCoreTime s c t).parts = s.parts := rfl
@[simp] theorem setCoreTime_launches (c t : Nat) : (setCoreTime s c t).launches = s.launches := rfl
@[simp] theorem setCoreTime_barriers (c t : Nat) : (setCoreTime s c t).barriers = s.barriers := rfl
@[simp] theorem setCoreTime_queues (c t : Nat) : (setCoreTime s c t).queues = s.queues := rfl
@[simp] theorem setCoreTime_ports (c t : Nat) : (setCoreTime s c t).ports = s.ports := rfl
@[simp] theorem setCoreTime_podNum (c t : Nat) : (setCoreTime s c t).podNum = s.podNum := rfl
@[simp] theorem setCoreTime_hostBuf (c t : Nat) : (setCoreTime s c t).hostBuf = s.hostBuf := rfl
@[simp] theorem setCoreTime_msix (c t : Nat) : (setCoreTime s c t).msix = s.msix := rfl
@[simp] theorem setCoreTime_reports (c t : Nat) : (setCoreTime s c t).reports = s.reports := rfl
@[simp] theorem setCoreTime_budper (c t : Nat) : (setCoreTime s c t).budper = s.budper := rfl
@[simp] theorem setCoreTime_budAt (c t : Nat) : (setCoreTime s c t).budAt = s.budAt := rfl
@[simp] theorem setCoreTime_tokAt (c t : Nat) : (setCoreTime s c t).tokAt = s.tokAt := rfl
@[simp] theorem setCoreTime_life (c t : Nat) : (setCoreTime s c t).life = s.life := rfl
@[simp] theorem setCoreTime_entering (c t : Nat) : (setCoreTime s c t).entering = s.entering := rfl
@[simp] theorem setCoreTime_attestKey (c t : Nat) : (setCoreTime s c t).attestKey = s.attestKey := rfl
@[simp] theorem setCoreTime_ownerKey (c t : Nat) : (setCoreTime s c t).ownerKey = s.ownerKey := rfl
@[simp] theorem setCoreTime_vendorKey (c t : Nat) : (setCoreTime s c t).vendorKey = s.vendorKey := rfl
@[simp] theorem setCoreTime_serial (c t : Nat) : (setCoreTime s c t).serial = s.serial := rfl
@[simp] theorem setCoreTime_mreg (c t : Nat) : (setCoreTime s c t).mreg = s.mreg := rfl
@[simp] theorem setCoreTime_defect (c t : Nat) : (setCoreTime s c t).defect = s.defect := rfl
@[simp] theorem setCoreTime_dies (c t : Nat) : (setCoreTime s c t).dies = s.dies := rfl
@[simp] theorem setCoreTime_ready (c t : Nat) : (setCoreTime s c t).ready = s.ready := rfl
@[simp] theorem setCoreTime_vmarg (c t : Nat) : (setCoreTime s c t).vmarg = s.vmarg := rfl
@[simp] theorem setCoreTime_lmarg (c t : Nat) : (setCoreTime s c t).lmarg = s.lmarg := rfl
@[simp] theorem setCoreTime_hot (c t : Nat) : (setCoreTime s c t).hot = s.hot := rfl
@[simp] theorem setCoreTime_doeOut (c t : Nat) : (setCoreTime s c t).doeOut = s.doeOut := rfl
@[simp] theorem setCoreTime_hostOut (c t : Nat) : (setCoreTime s c t).hostOut = s.hostOut := rfl
@[simp] theorem setCoreTime_free (c t : Nat) : (setCoreTime s c t).free = s.free := rfl
@[simp] theorem setCoreTime_agenda (c t : Nat) : (setCoreTime s c t).agenda = s.agenda := rfl
@[simp] theorem setCoreTime_turn (c t : Nat) : (setCoreTime s c t).turn = s.turn := rfl

@[simp] theorem countWord_clock (c p : Nat) : (countWord s c p).clock = s.clock := rfl
@[simp] theorem countWord_tick (c p : Nat) : (countWord s c p).tick = s.tick := rfl
@[simp] theorem countWord_hostTime (c p : Nat) : (countWord s c p).hostTime = s.hostTime := rfl
@[simp] theorem countWord_hkTime (c p : Nat) : (countWord s c p).hkTime = s.hkTime := rfl
@[simp] theorem countWord_feTime (c p : Nat) : (countWord s c p).feTime = s.feTime := rfl
@[simp] theorem countWord_held (c p : Nat) : (countWord s c p).held = s.held := rfl
@[simp] theorem countWord_mem (c p : Nat) : (countWord s c p).mem = s.mem := rfl
@[simp] theorem countWord_full (c p : Nat) : (countWord s c p).full = s.full := rfl
@[simp] theorem countWord_poison (c p : Nat) : (countWord s c p).poison = s.poison := rfl
@[simp] theorem countWord_lines (c p : Nat) : (countWord s c p).lines = s.lines := rfl
@[simp] theorem countWord_pools (c p : Nat) : (countWord s c p).pools = s.pools := rfl
@[simp] theorem countWord_decoders (c p : Nat) : (countWord s c p).decoders = s.decoders := rfl
@[simp] theorem countWord_deadDies (c p : Nat) : (countWord s c p).deadDies = s.deadDies := rfl
@[simp] theorem countWord_lostUnits (c p : Nat) : (countWord s c p).lostUnits = s.lostUnits := rfl
@[simp] theorem countWord_withheld (c p : Nat) : (countWord s c p).withheld = s.withheld := rfl
@[simp] theorem countWord_phyLane (c p : Nat) : (countWord s c p).phyLane = s.phyLane := rfl
@[simp] theorem countWord_quads (c p : Nat) : (countWord s c p).quads = s.quads := rfl
@[simp] theorem countWord_parts (c p : Nat) : (countWord s c p).parts = s.parts := rfl
@[simp] theorem countWord_launches (c p : Nat) : (countWord s c p).launches = s.launches := rfl
@[simp] theorem countWord_barriers (c p : Nat) : (countWord s c p).barriers = s.barriers := rfl
@[simp] theorem countWord_queues (c p : Nat) : (countWord s c p).queues = s.queues := rfl
@[simp] theorem countWord_ports (c p : Nat) : (countWord s c p).ports = s.ports := rfl
@[simp] theorem countWord_podNum (c p : Nat) : (countWord s c p).podNum = s.podNum := rfl
@[simp] theorem countWord_hostBuf (c p : Nat) : (countWord s c p).hostBuf = s.hostBuf := rfl
@[simp] theorem countWord_msix (c p : Nat) : (countWord s c p).msix = s.msix := rfl
@[simp] theorem countWord_reports (c p : Nat) : (countWord s c p).reports = s.reports := rfl
@[simp] theorem countWord_budper (c p : Nat) : (countWord s c p).budper = s.budper := rfl
@[simp] theorem countWord_budAt (c p : Nat) : (countWord s c p).budAt = s.budAt := rfl
@[simp] theorem countWord_tokAt (c p : Nat) : (countWord s c p).tokAt = s.tokAt := rfl
@[simp] theorem countWord_life (c p : Nat) : (countWord s c p).life = s.life := rfl
@[simp] theorem countWord_entering (c p : Nat) : (countWord s c p).entering = s.entering := rfl
@[simp] theorem countWord_attestKey (c p : Nat) : (countWord s c p).attestKey = s.attestKey := rfl
@[simp] theorem countWord_ownerKey (c p : Nat) : (countWord s c p).ownerKey = s.ownerKey := rfl
@[simp] theorem countWord_vendorKey (c p : Nat) : (countWord s c p).vendorKey = s.vendorKey := rfl
@[simp] theorem countWord_serial (c p : Nat) : (countWord s c p).serial = s.serial := rfl
@[simp] theorem countWord_mreg (c p : Nat) : (countWord s c p).mreg = s.mreg := rfl
@[simp] theorem countWord_defect (c p : Nat) : (countWord s c p).defect = s.defect := rfl
@[simp] theorem countWord_dies (c p : Nat) : (countWord s c p).dies = s.dies := rfl
@[simp] theorem countWord_ready (c p : Nat) : (countWord s c p).ready = s.ready := rfl
@[simp] theorem countWord_vmarg (c p : Nat) : (countWord s c p).vmarg = s.vmarg := rfl
@[simp] theorem countWord_lmarg (c p : Nat) : (countWord s c p).lmarg = s.lmarg := rfl
@[simp] theorem countWord_hot (c p : Nat) : (countWord s c p).hot = s.hot := rfl
@[simp] theorem countWord_doeOut (c p : Nat) : (countWord s c p).doeOut = s.doeOut := rfl
@[simp] theorem countWord_hostOut (c p : Nat) : (countWord s c p).hostOut = s.hostOut := rfl
@[simp] theorem countWord_free (c p : Nat) : (countWord s c p).free = s.free := rfl
@[simp] theorem countWord_agenda (c p : Nat) : (countWord s c p).agenda = s.agenda := rfl
@[simp] theorem countWord_turn (c p : Nat) : (countWord s c p).turn = s.turn := rfl

end fields

/-! ### Cores, groups, splits, partitions, launches, quads -/

variable {s : State} {c c' n n' : Nat}

theorem coreOf_setCore (k : Core) : coreOf (setCore s c k) c' = if c' = c then k else coreOf s c' := tabGet_put

@[simp] theorem coreOf_setCore_self (k : Core) : coreOf (setCore s c k) c = k := tabGet_put_self

theorem groupAt_setCore (k : Core) : groupAt (setCore s c k) c' n = if c' = c then tabFind n k.slots else groupAt s c' n := by
  unfold groupAt
  rw [coreOf_setCore]
  split <;> rfl

theorem groupAt_setGroup (g : Group) :
    groupAt (setGroup s c n g) c' n' = if c' = c ∧ n' = n then some g else groupAt s c' n' := by
  unfold setGroup
  rw [groupAt_setCore]
  by_cases hc : c' = c
  · subst hc
    by_cases hn : n' = n
    · simp [hn]
    · simp [hn, groupAt, tabFind_put_ne]
  · simp [hc]

@[simp] theorem groupAt_setGroup_self (g : Group) : groupAt (setGroup s c n g) c n = some g := by simp [groupAt_setGroup]

theorem splitAt_setSplit (g : Group) (sp : Split) : splitAt (setSplit g n sp) n' = if n' = n then some sp else splitAt g n' :=
  tabFind_put

@[simp] theorem splitAt_setSplit_self (g : Group) (sp : Split) : splitAt (setSplit g n sp) n = some sp := tabFind_put_self

theorem groupAt_store (pl : Place) (g : Group) (sp : Split) :
    groupAt (store s pl g sp) c n = if c = pl.core ∧ n = pl.slot then some (setSplit g pl.split sp) else groupAt s c n :=
  groupAt_setGroup _

@[simp] theorem groupAt_store_self (pl : Place) (g : Group) (sp : Split) :
    groupAt (store s pl g sp) pl.core pl.slot = some (setSplit g pl.split sp) := by simp [groupAt_store]

theorem partOf_setPart (x : Part) : partOf (setPart s n x) n' = if n' = n then x else partOf s n' := tabGet_put

@[simp] theorem partOf_setPart_self (x : Part) : partOf (setPart s n x) n = x := tabGet_put_self

theorem launchOf_setLaunch (l : Launch) : launchOf (setLaunch s n l) n' = if n' = n then some l else launchOf s n' :=
  tabFind_put

theorem quadOf_setQuad (x : Quad) : quadOf (setQuad s n x) n' = if n' = n then x else quadOf s n' := tabGet_put

theorem streamOf_setStream (q q' : StreamId) (x : Stream) : streamOf (setStream s q x) q' = if q' = q then x else streamOf s q' := by
  obtain ⟨p, k⟩ := q
  obtain ⟨p', k'⟩ := q'
  simp only [streamOf, setStream, partOf_setPart, StreamId.mk.injEq]
  by_cases hp : p' = p
  · subst hp
    simp only [if_true, true_and]
    exact tabGet_put
  · simp [hp]

theorem memByte_putByte (loc l : Nat) (b : Byte) : memByte (putByte s loc b) l = if l = loc then b else memByte s l := tabGet_set

theorem isFull_setFull (loc l : Nat) (b : Bool) : isFull (setFull s loc b) l = if l = loc then b else isFull s l := tabGet_set

/-- The group after a write of it and of its split leaves every other core. -/
theorem coreOf_setGroup (g : Group) :
    coreOf (setGroup s c n g) c' = if c' = c then { coreOf s c with slots := tabPut n g (coreOf s c).slots } else coreOf s c' :=
  coreOf_setCore _

end Sys2Proof.Machine
end

