-- ==== Sys2Proof/Laws/Words.lean ====
section
/-! SUPPORT. What the passing of cycles, the end of a word and a wait do to the state: one lemma for each says all of it. -/

namespace Sys2Proof.Laws

open Machine Claims

variable {s : State} {c n : Nat}

/-! ### Cycles -/

/-- The slot of the group that issues, on its core. -/
def issuing (who : Option Place) (c : Nat) : Option Nat :=
  match who with
  | some pl => if pl.core == c then some pl.slot else none
  | none => none

theorem coreOf_advance (m : Nat) (who : Option Place) :
    coreOf (advance s m who) c = countCycles s.clock m (issuing who c) (coreOf s c) := by
  have h : (advance s m who).cores = s.cores.map fun p => (p.1, countCycles s.clock m (issuing who p.1) p.2) := rfl
  unfold coreOf tabGet
  rw [h, tabFind_map fun p : Nat × Core => countCycles s.clock m (issuing who p.1) p.2]
  cases tabFind c s.cores with
  | some k => rfl
  | none => rfl

/-- A group as some cycles leave it. -/
def countGroup (clock : Word) (m : Nat) (issuing : Option Nat) (k : Core) (p : Nat × Group) : Group :=
  if !p.2.started && p.2.origin == .fresh then p.2
  else if issuing == some p.1 then { p.2 with gissue := p.2.gissue + BitVec.ofNat 64 m }
  else
    addStall (addStall p.2 (stallReason clock (match tabFind p.2.pipe k.running with
      | some r => r.1 != p.1
      | none => false) (grantWaits k) p.2) (savingIn clock m p.2)) 15 (m - savingIn clock m p.2)

theorem countCycles_slots (clock : Word) (m : Nat) (i : Option Nat) (k : Core) :
    (countCycles clock m i k).slots = k.slots.map fun p => (p.1, countGroup clock m i k p) := by
  simp only [countCycles]
  refine List.map_congr_left fun p _ => ?_
  unfold countGroup
  split <;> rename_i h1
  · rfl
  · split <;> rfl

theorem quietGroup_countGroup (clock : Word) (m : Nat) (i : Option Nat) (k : Core) (p : Nat × Group) :
    ∃ a b, countGroup clock m i k p = { p.2 with stalls := a, gissue := b } := by
  unfold countGroup
  split
  · exact ⟨p.2.stalls, p.2.gissue, rfl⟩
  · split
    · exact ⟨p.2.stalls, _, rfl⟩
    · exact ⟨_, p.2.gissue, rfl⟩

/-- Cycles change the counters of a group and nothing else. -/
theorem groupAt_advance (m : Nat) (who : Option Place) :
    ∃ f : Group → Group, groupAt (advance s m who) c n = (groupAt s c n).map f
      ∧ ∀ g, ∃ a b, f g = { g with stalls := a, gissue := b } := by
  refine ⟨fun g => countGroup s.clock m (issuing who c) (coreOf s c) (n, g), ?_, fun g => quietGroup_countGroup ..⟩
  unfold groupAt
  rw [coreOf_advance, countCycles_slots, tabFind_map (countGroup s.clock m (issuing who c) (coreOf s c))]

theorem quietCore_advance (m : Nat) (who : Option Place) :
    quietCore (coreOf (advance s m who) c) = quietCore (coreOf s c)
      ∧ (coreOf (advance s m who) c).running = (coreOf s c).running
      ∧ (coreOf (advance s m who) c).cwords = (coreOf s c).cwords := by
  rw [coreOf_advance]
  exact ⟨rfl, rfl, rfl⟩

theorem quietPart_advance (m : Nat) (who : Option Place) (p : Nat) :
    quietPart (partOf (advance s m who) p) = quietPart (partOf s p) := by
  have h : (advance s m who).parts = s.parts.map fun p =>
      (p.1, partAfter s (isStarving s p.1) (s.clock + BitVec.ofNat 64 m) p.1 p.2) := rfl
  unfold partOf tabGet
  rw [h, tabFind_map fun p : Nat × Part => partAfter s (isStarving s p.1) (s.clock + BitVec.ofNat 64 m) p.1 p.2]
  cases tabFind p s.parts <;> rfl

/-! ### The rest of the package -/

end Sys2Proof.Laws

namespace Sys2Proof.Claims

open Machine

theorem Rest.refl (s : State) (pl : Place) : Rest s s pl := ⟨fun _ => rfl, rfl, fun _ => rfl, fun _ => rfl, fun _ _ _ => rfl⟩

theorem Rest.trans {s t u : State} {pl : Place} (h : Rest s t pl) (k : Rest t u pl) : Rest s u pl :=
  ⟨fun l => (k.bytes l).trans (h.bytes l), k.rest.trans h.rest, fun p => (k.parts p).trans (h.parts p),
    fun c => (k.cores c).trans (h.cores c), fun c n hn => (k.groups c n hn).trans (h.groups c n hn)⟩

end Sys2Proof.Claims

namespace Sys2Proof.Laws

open Machine Claims

variable {s : State} {c n : Nat}

theorem rest_advance (m : Nat) (who : Option Place) (pl : Place) : Rest s (advance s m who) pl where
  bytes _ := rfl
  rest := rfl
  parts := quietPart_advance m who
  cores c := (quietCore_advance m who).1
  groups c n _ := by
    obtain ⟨f, hf, hg⟩ := groupAt_advance (s := s) (c := c) (n := n) m who
    rw [hf]
    cases groupAt s c n with
    | none => rfl
    | some g =>
      obtain ⟨a, b, h⟩ := hg g
      simp [h, quietGroup]

theorem rest_setCore (pl : Place) (k : Core) (hq : quietCore k = quietCore (coreOf s pl.core))
    (hs : ∀ n, n ≠ pl.slot → tabFind n k.slots = tabFind n (coreOf s pl.core).slots) : Rest s (setCore s pl.core k) pl where
  bytes _ := rfl
  rest := rfl
  parts _ := rfl
  cores c := by
    rw [coreOf_setCore]
    split
    · next h => rw [h, hq]
    · rfl
  groups c n hn := by
    rw [groupAt_setCore]
    split
    · next h =>
      subst h
      have : n ≠ pl.slot := fun e => hn (by rw [e])
      rw [hs n this]
      rfl
    · rfl

theorem rest_setGroup (pl : Place) (g : Group) : Rest s (setGroup s pl.core pl.slot g) pl :=
  rest_setCore pl _ rfl fun _ hn => tabFind_put_ne hn

theorem rest_store (pl : Place) (g : Group) (sp : Split) : Rest s (store s pl g sp) pl := rest_setGroup pl _

theorem rest_countWord (pl : Place) (p : Nat) : Rest s (countWord s pl.core p) pl := rest_setCore pl _ rfl fun _ _ => rfl

theorem rest_turn (pl : Place) (t : Option Place) : Rest s { s with turn := t } pl :=
  ⟨fun _ => rfl, rfl, fun _ => rfl, fun _ => rfl, fun _ _ _ => rfl⟩

theorem rest_free (pl : Place) (f : Nat) : Rest s { s with free := f } pl :=
  ⟨fun _ => rfl, rfl, fun _ => rfl, fun _ => rfl, fun _ _ _ => rfl⟩

theorem rest_release (pl : Place) : Rest s (release s pl) pl :=
  (rest_setCore pl (releasePipe (coreOf s pl.core) pl.slot) rfl fun _ _ => rfl).trans (rest_turn pl none)

@[simp] theorem groupAt_countWord (c' p : Nat) : groupAt (countWord s c p) c' n = groupAt s c' n := by
  unfold countWord
  rw [groupAt_setCore]
  split
  · next h => subst h; rfl
  · rfl

@[simp] theorem groupAt_release (pl : Place) : groupAt (release s pl) c n = groupAt s c n := by
  change groupAt (setCore s pl.core _) c n = _
  rw [groupAt_setCore]
  split
  · next h => subst h; rfl
  · rfl

/-- A split that issues runs its meaning. -/
theorem issue_eq {pl : Place} {g : Group} {sp : Split} (h : Issues s pl g sp) (k : Place → Group → Split → Out) :
    issue s k = k pl g sp := by
  simp only [issue, h.turn, h.group, h.split]

/-! ### The end of a word -/

theorem afterWord_calm {pl : Place} {b : Bool} {g : Group} (hg : groupAt s pl.core pl.slot = some g) (hc : Calm g) :
    afterWord s pl b = s := by
  have h := hc.step
  simp only [afterWord, hg, hc.watch, steps, h, Bool.and_false, Bool.false_and, Bool.false_eq_true, if_false]

/-- A split once its word has gone by (R22, R25, R26). -/
def wentSplit (sp : Split) (h : Hd) (occ : Nat) : Split :=
  { sp.done with
    pc := (nextPos sp.pc sp.word).1
    word := (nextPos sp.pc sp.word).2
    run :=
      if h.c then { bump sp.run occ with checked := true }
      else if h.s then Run.start
      else { bump sp.run occ with bundle := sp.run.bundle + 1, checked := false, occ := 0 }
    running := sp.running && !endsRun h }

/-- A group once a word of it has gone by. -/
def wentGroup (g : Group) (n : Nat) (sp : Split) : Group := { setSplit g n sp with gwords := g.gwords + 1 }

/-- A group with other cycle counters (R353). -/
def counted (g : Group) (a : Tab Word) (b : Word) : Group := { g with stalls := a, gissue := b }

/-- The end of a word of a group that nothing stops: the group and the split that it is given move on, and everything
else stays but for time. -/
theorem finish_spec {pl : Place} {g : Group} {sp : Split} {h : Hd} {occ : Nat} (hc : Calm g) :
    Rest s (finish s pl g sp h occ) pl
      ∧ (finish s pl g sp h occ).turn = (if endsRun h then none else s.turn)
      ∧ (finish s pl g sp h occ).clock = s.clock + BitVec.ofNat 64 (if h.c then 0 else Nat.max sp.run.occ occ)
      ∧ ∃ a b, groupAt (finish s pl g sp h occ) pl.core pl.slot
          = some (counted (wentGroup g pl.split (wentSplit sp h occ)) a b) := by
  unfold finish
  by_cases h1 : h.c
  · simp only [h1, if_true]
    rw [afterWord_calm (g := wentGroup g pl.split (wentSplit sp h occ))]
    · refine ⟨(rest_store ..).trans (rest_countWord ..), by simp [endsRun, h1], by simp, g.stalls, g.gissue, ?_⟩
      simp [wentGroup, wentSplit, setSplit, h1, endsRun, Split.done, counted]
    · simp [wentGroup, wentSplit, setSplit, h1, endsRun, Split.done]
    · exact ⟨hc.watch, hc.step⟩
  · have h1 : h.c = false := by simpa using h1
    simp only [h1, Bool.false_eq_true, if_false]
    obtain ⟨f, hf, hq⟩ := groupAt_advance
      (s := countWord (store s pl { g with gwords := g.gwords + 1 } (wentSplit sp h occ)) pl.core g.part) (c := pl.core)
      (n := pl.slot) (bump sp.run occ).occ (some pl)
    obtain ⟨a, b, hab⟩ := hq (setSplit { g with gwords := g.gwords + 1 } pl.split (wentSplit sp h occ))
    simp only [groupAt_countWord, groupAt_store_self, Option.map_some] at hf
    rw [hab] at hf
    by_cases h2 : h.s
    · have e : wentSplit sp h occ
          = { sp.done with pc := (nextPos sp.pc sp.word).1, word := (nextPos sp.pc sp.word).2, run := Run.start, running := false } := by
        simp [wentSplit, h1, h2, endsRun]
      simp only [h2, if_true]
      rw [e] at hf
      rw [afterWord_calm (g := counted (wentGroup g pl.split (wentSplit sp h occ)) a b)]
      · refine ⟨(((rest_store ..).trans (rest_countWord ..)).trans (rest_advance ..)).trans (rest_release ..),
          by simp [endsRun, h1, h2, release], rfl, a, b, ?_⟩
        rw [groupAt_release, hf, e]
        rfl
      · rw [groupAt_release, hf, e]
        rfl
      · exact ⟨hc.watch, hc.step⟩
    · have h2 : h.s = false := by simpa using h2
      have e : wentSplit sp h occ
          = { sp.done with pc := (nextPos sp.pc sp.word).1, word := (nextPos sp.pc sp.word).2,
                           run := { bump sp.run occ with bundle := sp.run.bundle + 1, checked := false, occ := 0 } } := by
        simp [wentSplit, h1, h2, endsRun, Split.done]
      simp only [h2, Bool.false_eq_true, if_false]
      rw [e] at hf
      rw [afterWord_calm (g := counted (wentGroup g pl.split (wentSplit sp h occ)) a b)]
      · refine ⟨((rest_store ..).trans (rest_countWord ..)).trans (rest_advance ..), by simp [endsRun, h1, h2, advance], rfl,
          a, b, ?_⟩
        rw [e]
        exact hf
      · rw [e]
        exact hf
      · exact ⟨hc.watch, hc.step⟩

/-- The end of a word that writes no register. -/
theorem passed_finish {s1 : State} {pl : Place} {g : Group} {sp : Split} (h : Hd) (occ : Nat) (hc : Calm g)
    (ht : s1.turn = some pl) :
    Passed s1 (finish s1 pl g sp h occ) pl g sp h occ (nextPos sp.pc sp.word) := by
  obtain ⟨hrest, hturn, hclock, a, b, hg⟩ := finish_spec (s := s1) (pl := pl) (sp := sp) (h := h) (occ := occ) hc
  refine ⟨hrest, _, wentSplit sp h occ, ⟨hg, ?_, ?_, rfl, ⟨rfl, rfl⟩, rfl, ?_, ?_, hclock, rfl, rfl, ⟨rfl, rfl⟩⟩,
    rfl, rfl, rfl, rfl, rfl, rfl, rfl, ?_⟩
  · simp [wentGroup, splitAt, setSplit, counted]
  · intro n hn
    simp [wentGroup, splitAt, setSplit, tabFind_put_ne hn, counted]
  · unfold wentSplit endsRun
    cases h.c <;> cases h.s <;> simp [bump]
  · rw [hturn, ht]
  · intro hn
    unfold endsRun at hn
    unfold wentSplit
    cases h1 : h.c <;> cases h2 : h.s <;> simp_all [bump]

/-- A split at the run start that a control-transfer word gives it (R25, R26). -/
def jumpSplit (sp : Split) (pc : Word) : Split :=
  { sp.done with pc := pc, word := 0, run := Run.start, running := false }

/-- The end of a control-transfer word. -/
theorem jumped_finishAt {s1 : State} {pl : Place} {g : Group} {sp : Split} (occ : Nat) (pc : Word) (hc : Calm g) :
    Jumped s1 (finishAt s1 pl g sp occ pc) pl g sp occ pc := by
  obtain ⟨f, hf, hq⟩ := groupAt_advance
    (s := countWord (store s1 pl { g with gwords := g.gwords + 1 } (jumpSplit sp pc)) pl.core g.part) (c := pl.core)
    (n := pl.slot) (bump sp.run occ).occ (some pl)
  obtain ⟨a, b, hab⟩ := hq (setSplit { g with gwords := g.gwords + 1 } pl.split (jumpSplit sp pc))
  simp only [groupAt_countWord, groupAt_store_self, Option.map_some] at hf
  rw [hab] at hf
  have e : finishAt s1 pl g sp occ pc = release (advance (countWord (store s1 pl { g with gwords := g.gwords + 1 }
      (jumpSplit sp pc)) pl.core g.part) (bump sp.run occ).occ (some pl)) pl := by
    unfold finishAt
    refine afterWord_calm (g := counted (wentGroup g pl.split (jumpSplit sp pc)) a b) ?_ ⟨hc.watch, hc.step⟩
    rw [groupAt_release]
    exact hf
  rw [e]
  refine ⟨(((rest_store ..).trans (rest_countWord ..)).trans (rest_advance ..)).trans (rest_release ..),
    counted (wentGroup g pl.split (jumpSplit sp pc)) a b, jumpSplit sp pc,
    ⟨by rw [groupAt_release, hf]; rfl, ?_, ?_, rfl, ⟨rfl, rfl⟩, ?_, ?_, ?_, rfl, rfl, rfl, ⟨rfl, rfl⟩⟩,
    rfl, rfl, rfl, rfl, rfl, rfl, rfl, ?_⟩
  · simp [wentGroup, splitAt, setSplit, counted]
  · intro n hn
    simp [wentGroup, splitAt, setSplit, tabFind_put_ne hn, counted]
  · simp [jumpSplit, endsRun]
  · simp [jumpSplit, endsRun]
  · simp [release, endsRun]
  · intro h; simp [endsRun] at h

/-- A wait. -/
theorem waits_waitAt (s : State) (pl : Place) (g : Group) (sp : Split) (w : Wait) : Waits s (waitAt s pl g sp w) pl g sp w where
  turn := rfl
  time := rfl
  rest := (rest_store ..).trans (rest_release ..)
  group := by unfold waitAt; rw [groupAt_release]; simp
  pipe x hx := by
    unfold waitAt release at hx
    have h1 : coreOf ({ setCore (store s pl g { sp with wait := some w }) pl.core
        (releasePipe (coreOf (store s pl g { sp with wait := some w }) pl.core) pl.slot) with turn := none } : State) pl.core
        = releasePipe (coreOf (store s pl g { sp with wait := some w }) pl.core) pl.slot := by
      change coreOf (setCore _ _ _) _ = _
      simp
    rw [h1] at hx
    simpa using (List.mem_filter.mp hx).2

end Sys2Proof.Laws
end

