-- ==== Sys2Proof/Laws/RegWords.lean ====
section
/-! SUPPORT. The shapes of the words that write registers: what each does when nothing stops it. -/

namespace Sys2Proof.Laws

open Machine Claims

/-- A group and a split with some registers written and results added, before the word ends. -/
structure Ready (g g1 : Group) (sp sp1 : Split) (d : Opnd) (keys : List Nat) (new : Nat → Option Word) (fl : Flags) (split : Nat)
    (owed : List Result) : Prop where
  frame  : frameGroup g1 = frameGroup g
  splits : g1.splits = g.splits
  words  : g1.gwords = g.gwords
  fstat  : g1.fstat = g.fstat ||| fl.setWidth 13
  res    : g1.results = killResults split d keys g.results ++ owed
  split  : sp1 = { sp with run := sp1.run, stage := sp1.stage, await := sp1.await }
  rwords : sp1.run.words = sp.run.words
  bundle : sp1.run.bundle = sp.run.bundle
  occ    : sp1.run.occ = sp.run.occ
  regs   : ∀ o t, t < 32 → isReg o = true →
    regNow g1 sp1 (.int 64) t o =
      if o = d ∧ o ≠ .p 0 then
        (match new t with
        | some x => dstVal d x
        | none => regNow g sp (.int 64) t o)
      else regNow g sp (.int 64) t o

theorem frameGroup_calm {g g1 : Group} (h : frameGroup g1 = frameGroup g) (hc : Calm g) : Calm g1 := by
  have h1 : (frameGroup g1).watch = (frameGroup g).watch := congrArg (·.watch) h
  have h2 : (frameGroup g1).gdbg = (frameGroup g).gdbg := congrArg (·.gdbg) h
  exact ⟨h1.trans hc.watch, (congrArg (·.getLsbD 0) h2).trans hc.step⟩

/-- The end of a word whose registers are written. -/
theorem wrote_finish {s s1 : State} {pl : Place} {g g1 : Group} {sp sp1 : Split} {h : Hd} {occ : Nat} {d : Opnd}
    {keys : List Nat} {new : Nat → Option Word} {fl : Flags} {owed : List Result} (hi : s.turn = some pl) (hc : Calm g) (h1 : Rest s s1 pl)
    (ht : s1.turn = s.turn) (hk : s1.clock = s.clock) (hr : Ready g g1 sp sp1 d keys new fl pl.split owed) :
    Wrote s (finish s1 pl g1 sp1 h occ) pl g sp h occ d keys new fl owed
      ∧ ∃ g' sp', groupAt (finish s1 pl g1 sp1 h occ) pl.core pl.slot = some g'
          ∧ splitAt g' pl.split = some sp' ∧ (endsRun h = false → sp'.run.prods = sp1.run.prods) := by
  obtain ⟨hrest, hturn, hclock, a, b, hg⟩ := finish_spec (s := s1) (pl := pl) (g := g1) (sp := sp1) (h := h)
    (occ := occ) (frameGroup_calm hr.frame hc)
  have e1 : sp1.pc = sp.pc := by rw [hr.split]
  have e2 : sp1.word = sp.word := by rw [hr.split]
  have e3 : sp1.running = sp.running := by rw [hr.split]
  have e4 : sp1.mask = sp.mask := by rw [hr.split]
  have e5 : sp1.stack = sp.stack := by rw [hr.split]
  have e6 : sp1.lc = sp.lc := by rw [hr.split]
  have hs : splitAt (counted (wentGroup g1 pl.split (wentSplit sp1 h occ)) a b) pl.split = some (wentSplit sp1 h occ) := by
    simp [wentGroup, splitAt, setSplit, counted]
  have hrun : endsRun h = false → (wentSplit sp1 h occ).run.prods = sp1.run.prods ∧ (wentSplit sp1 h occ).run.oregs = sp1.run.oregs := by
    intro hn
    unfold endsRun at hn
    unfold wentSplit
    cases h1 : h.c <;> cases h2 : h.s <;> simp_all [bump]
  refine ⟨⟨Rest.trans h1 hrest, _, wentSplit sp1 h occ, ⟨hg, hs, ?_, ?_, ?_, ?_, ?_, ?_, ?_, ?_, ?_, ?_⟩,
    ?_, ?_, ?_, ?_⟩, _, wentSplit sp1 h occ, hg, hs, fun hn => (hrun hn).1⟩
  · intro n hn
    simp [wentGroup, splitAt, setSplit, tabFind_put_ne hn, hr.splits, counted]
  · simp [wentSplit, e1, e2]
  · simp [wentSplit, Split.done]
  · simp [wentSplit, e3]
  · unfold wentSplit endsRun
    cases h.c <;> cases h.s <;> simp [bump, hr.rwords, hr.bundle]
  · rw [hturn, ht, hi]
  · rw [hclock, hk, hr.occ]
  · simp [wentGroup, setSplit, hr.words, counted]
  · rw [← hr.frame]; rfl
  · exact ⟨by simp [wentSplit, Split.done, e4], by simp [wentSplit, Split.done, e5]⟩
  · intro o t ht ho hro
    refine Eq.trans ?_ (hr.regs o t ht ho)
    cases o with
    | o m =>
      have hn : endsRun h = false := by
        cases he : endsRun h with
        | false => rfl
        | true => exact absurd (hro he) (by simp [isRunReg])
      simp only [regNow, (hrun hn).2]
    | v _ | g _ | p _ => rfl
    | _ => simp [isReg] at ho
  · simpa [wentGroup, setSplit, counted] using hr.fstat
  · simpa [wentGroup, setSplit, counted] using hr.res
  · simp [wentSplit, Split.done, e6]

/-! ### Delivering values -/

/-- A fixed-latency result: written at once, and noted (R29–R33). -/
theorem deliver_fixed (d : Opnd) (vals : List (Nat × Word)) (hv : KeysOk d vals) (g : Group) (sp : Split) (split l : Nat)
    (pipe : Pipe) (src : ResSrc) (fl : Flags) :
    Ready g (deliver (raiseFlags g fl) sp split pipe (some l) src d vals).1 sp
        (deliver (raiseFlags g fl) sp split pipe (some l) src d vals).2 d (vals.map (·.1)) (threadVal vals) fl split []
      ∧ ∃ p, (deliver (raiseFlags g fl) sp split pipe (some l) src d vals).2.run.prods.head? = some p ∧ p.pipe = pipe
          ∧ p.lat = some l ∧ p.bundle = sp.run.bundle ∧ p.dst = d := by
  generalize hold : (vals.map fun p : Nat × Word => (p.1, regNow (raiseFlags g fl) sp (.int 64) p.1 d)) = old
  generalize hnew : (match src with
    | .held _ => ([] : Tab Word)
    | _ => vals.map fun p : Nat × Word => (p.1, dstVal d p.2)) = new
  let g0 : Group := { raiseFlags g fl with results := killResults split d (vals.map (·.1)) g.results }
  let sp0 := addProd sp { pipe := pipe, bundle := sp.run.bundle, lat := some l, dst := d, old := old, new := new, held := src.heldOp }
  have e : deliver (raiseFlags g fl) sp split pipe (some l) src d vals = writeAll d vals g0 sp0 := by
    subst hold hnew; rfl
  have w := writeAll_frame d vals g0 sp0
  rw [e]
  have hr : (writeAll d vals g0 sp0).2.run = { sp0.run with oregs := (writeAll d vals g0 sp0).2.run.oregs } := w.2.2.2.2.2.2.2
  refine ⟨⟨w.1, w.2.2.1, w.2.2.2.2.2.1, w.2.2.2.2.1, by rw [w.2.2.2.1]; simp [g0], ?_, ?_, ?_, ?_, ?_⟩, ?_⟩
  · have h := w.2.2.2.2.2.2.1
    rw [h]
    rfl
  · rw [hr]; rfl
  · rw [hr]; rfl
  · rw [hr]; rfl
  · intro o t ht ho
    rw [regNow_writeAll d vals hv g0 sp0 _ o t ht ho]
    have h0 : regNow g0 sp0 (.int 64) t o = regNow g sp (.int 64) t o := by
      cases o with
      | v _ | g _ | o _ | p _ => rfl
      | _ => simp [isReg] at ho
    rw [h0]
    all_goals rfl
  · rw [hr]
    exact ⟨_, rfl, rfl, rfl, rfl, rfl⟩

/-- A result of variable latency becomes outstanding, unless the destination discards it (R28). -/
theorem deliver_var (d : Opnd) (vals : List (Nat × Word)) (g : Group) (sp : Split) (split : Nat) (pipe : Pipe)
    (src : ResSrc) (fl : Flags) :
    Ready g (deliver (raiseFlags g fl) sp split pipe none src d vals).1 sp
        (deliver (raiseFlags g fl) sp split pipe none src d vals).2 d (vals.map (·.1)) (fun _ => none) fl split
        (if isTracked d then [{ split := split, dst := d, vals := vals, dead := false, src := src, redl := false }] else [])
      ∧ (isTracked d = true → ∃ p, (deliver (raiseFlags g fl) sp split pipe none src d vals).2.run.prods.head? = some p
          ∧ p.pipe = pipe ∧ p.lat = none ∧ p.bundle = sp.run.bundle ∧ p.dst = d) := by
  have hreg : ∀ (g1 : Group) (sp1 : Split), g1.vregs = g.vregs → g1.gregs = g.gregs → g1.pregs = g.pregs →
      sp1.run.oregs = sp.run.oregs → ∀ o t, isReg o = true →
      regNow g1 sp1 (.int 64) t o =
        if o = d ∧ o ≠ .p 0 then
          (match (none : Option Word) with
          | some x => dstVal d x
          | none => regNow g sp (.int 64) t o)
        else regNow g sp (.int 64) t o := by
    intro g1 sp1 h1 h2 h3 h4 o t ho
    have : regNow g1 sp1 (.int 64) t o = regNow g sp (.int 64) t o := by
      cases o with
      | v _ => simp [regNow, h1]
      | g _ => simp [regNow, h2]
      | o _ => simp [regNow, h4]
      | p _ => simp [regNow, h3]
      | _ => simp [isReg] at ho
    split <;> exact this
  cases ht : isTracked d with
  | true =>
    simp only [deliver, ht, if_true]
    exact ⟨⟨rfl, rfl, rfl, rfl, rfl, rfl, rfl, rfl, rfl, fun o t _ ho => by apply hreg <;> first | rfl | exact ho⟩,
      fun _ => ⟨_, rfl, rfl, rfl, rfl, rfl⟩⟩
  | false =>
    simp only [deliver, ht, Bool.false_eq_true, if_false]
    exact ⟨⟨rfl, rfl, rfl, rfl, by simp [raiseFlags], rfl, rfl, rfl, rfl, fun o t _ ho => by apply hreg <;> first | rfl | exact ho⟩,
      fun h => absurd h (by simp)⟩

theorem deliver_mask (d : Opnd) (vals : List (Nat × Word)) (g : Group) (sp : Split) (split : Nat) (pipe : Pipe)
    (lat : Option Nat) (src : ResSrc) : (deliver g sp split pipe lat src d vals).2.mask = sp.mask := by
  cases lat with
  | some l =>
    have h := fun g1 sp1 => (writeAll_frame d vals g1 sp1).2.2.2.2.2.2.1
    simp only [deliver]
    rw [h]
    rfl
  | none => simp only [deliver]; split <;> rfl

/-! ### Words that compute a register from registers (R59, R72) -/

theorem keysOk_threads {d : Opnd} (m : Mask) (f : Nat → Word) (hd : ∀ n, d ≠ .g n) :
    KeysOk d (m.threads.map fun t => (t, f t)) := by
  have h1 : ((m.threads.map fun t => (t, f t)).map (·.1)) = m.threads := by simp [Function.comp_def]
  refine ⟨by rw [h1]; exact List.Nodup.filter _ List.nodup_range, ?_⟩
  have h2 : ∀ p ∈ (m.threads.map fun t => (t, f t)), p.1 < 32 := by
    intro p hp
    obtain ⟨t, ht, rfl⟩ := List.mem_map.mp hp
    have := (List.mem_filter.mp ht).1
    simpa using this
  cases d with
  | g n => exact absurd rfl (hd n)
  | z => trivial
  | _ => exact h2

theorem threadVal_threads (m : Mask) (f : Nat → Word) {t : Nat} (ht : t < 32) :
    threadVal (m.threads.map fun t => (t, f t)) t = if m.getLsbD t then some (f t) else none := by
  have key : ∀ (l : List Nat) (k : Nat), tabFind k (l.map fun t => (t, f t)) = if k ∈ l then some (f k) else none := by
    intro l k
    induction l with
    | nil => rfl
    | cons a r ih =>
      simp only [List.map_cons, tabFind, List.mem_cons]
      by_cases h : a = k
      · subst h; simp
      · have h' : ¬ k = a := fun e => h e.symm
        rw [if_neg h, ih]
        simp [h']
  have h32 : ¬ 32 ∈ m.threads := by simp [Mask.threads]
  have hm : t ∈ m.threads ↔ m.getLsbD t = true := by simp [Mask.threads, ht]
  unfold threadVal
  rw [key, key, if_neg h32]
  by_cases h : m.getLsbD t = true
  · rw [if_pos (hm.mpr h), if_pos h]
  · rw [if_neg (fun x => h (hm.mp x)), if_neg h]

/-- What `regWord` computes, as a claim speaks of it. -/
def ofReg (h : Hd) (r : RegWord) (f : Nat → Word → Word → Word → Word × Flags) : Calc :=
  { h := h, d := r.d, a := r.a, b := r.b, w := r.w, pipe := r.pipe, lat := r.lat, f := f }

/-- The words of this shape that can issue complete with what they compute. -/
theorem regWord_spec (h : Hd) (r : RegWord) (f : Nat → Word → Word → Word → Word × Flags) (i : Instr)
    (hi : ∀ s, exec i s = regWord s h r f) : Computes i (ofReg h r f) (if r.div then .div else .var) := by
  intro s pl g sp hs hc hl
  have hf : issueMode r.srcs r.d ≠ .opspec := hl.form
  have hu : issueMode r.srcs r.d = .uniform → (∃ n, r.d = .g n) ∨ r.d = .z := by
    intro h
    unfold issueMode at h
    split at h
    · simp at h
    · dsimp only at h
      split at h
      · next n _ => exact .inl ⟨_, by assumption⟩
      · exact .inr (by assumption)
      · simp at h
  have hp : issueMode r.srcs r.d = .perThread → ∀ n, r.d ≠ .g n := by
    intro h n e
    unfold issueMode at h
    rw [e] at h
    simp only [badDst, Bool.false_eq_true, if_false] at h
    split at h <;> simp at h
  have hv : KeysOk r.d ((ofReg h r f).vals s g sp) := by
    unfold Calc.vals Calc.keys threadKeys
    change KeysOk r.d (List.map _ (if issueMode r.srcs r.d = .uniform then [32] else sp.mask.threads))
    by_cases hm : issueMode r.srcs r.d = .uniform
    · rw [if_pos hm]
      rcases hu hm with ⟨n, e⟩ | e
      · rw [e]; exact ⟨by simp, by simp⟩
      · rw [e]; exact ⟨by simp, trivial⟩
    · rw [if_neg hm]
      have : issueMode r.srcs r.d = .perThread := by
        cases hx : issueMode r.srcs r.d <;> simp_all
      exact keysOk_threads _ _ (hp this)
  have hnew : ∀ t < 32, threadVal ((ofReg h r f).vals s g sp) t = (ofReg h r f).new s g sp t := by
    intro t ht
    unfold Calc.vals Calc.keys Calc.new threadKeys
    by_cases hm : issueMode (ofReg h r f).srcs (ofReg h r f).d = .uniform
    · rw [if_pos hm, if_pos hm]
      have : ¬ 32 = t := by omega
      simp [threadVal, tabFind, this]
    · rw [if_neg hm, if_neg hm]
      exact threadVal_threads _ _ ht
  let outs := (threadKeys (issueMode r.srcs r.d) sp.mask).map fun t =>
        (t, f (if t = 32 then 0 else t) (readOp g sp s.free r.a.2 t r.a.1) (readOp g sp s.free r.b.2 t r.b.1)
          (readOp g sp s.free r.w.2 t r.w.1))
  have hvals : outs.map (fun o => (o.1, o.2.1)) = (ofReg h r f).vals s g sp := by
    simp only [outs, List.map_map]
    rfl
  have hfl : outs.foldl (fun a o => a ||| o.2.2) 0 = (ofReg h r f).flags s g sp := by
    simp only [outs, List.foldl_map]
    rfl
  have hkeys : ((ofReg h r f).vals s g sp).map (·.1) = (ofReg h r f).keys sp.mask := by
    simp [Calc.vals, Function.comp_def]
  let dl := deliver (raiseFlags g ((ofReg h r f).flags s g sp)) sp pl.split r.pipe r.lat (if r.div then .div else .var) r.d
    ((ofReg h r f).vals s g sp)
  have hex : exec i s = .next (finish { s with free := s.free + 1 } pl dl.1 dl.2 h ((ofReg h r f).occ sp.mask)) := by
    rw [hi]
    have hn : namesBad g (r.d :: r.srcs) = false := hl.names
    have hz : hazard g sp pl.split r.srcs [r.d] = false := hl.hazard
    have ht : tenderNeeds g sp r.srcs = false := hl.ready
    simp only [regWord, issue_eq hs, hn, hz, ht, hf, decide_false, Bool.or_false, Bool.false_eq_true, if_false]
    have hm : dl.2.mask = sp.mask := deliver_mask ..
    rw [show (ofReg h r f).occ sp.mask = if issueMode r.srcs r.d = .uniform then 1 else perThreadOcc dl.2.mask by
      rw [hm]; rfl]
    simp only [dl, ← hfl, ← hvals]
    rfl
  refine ⟨_, hex, ?_⟩
  cases hlat : r.lat with
  | some l =>
    have hd := deliver_fixed r.d _ hv g sp pl.split l r.pipe (if r.div then .div else .var) ((ofReg h r f).flags s g sp)
    have hdl : dl = deliver (raiseFlags g ((ofReg h r f).flags s g sp)) sp pl.split r.pipe (some l)
        (if r.div then .div else .var) r.d ((ofReg h r f).vals s g sp) := by simp only [dl, hlat]
    rw [← hdl] at hd
    rw [hkeys] at hd
    have hrd : Ready g dl.1 sp dl.2 r.d ((ofReg h r f).keys sp.mask) ((ofReg h r f).new s g sp) ((ofReg h r f).flags s g sp) pl.split [] :=
      { hd.1 with regs := fun o t ht ho => by rw [hd.1.regs o t ht ho, hnew t ht] }
    have hw := wrote_finish (s1 := { s with free := s.free + 1 }) (occ := (ofReg h r f).occ sp.mask) (h := h) hs.turn hc
      (rest_free pl _) rfl rfl hrd
    refine ⟨by simp only [ofReg, hlat]; exact hw.1, fun _ => ?_⟩
    obtain ⟨g', sp', h1, h2, h3⟩ := hw.2
    refine ⟨g', sp', h1, h2, fun hn => ?_⟩
    rw [h3 hn]
    simpa [ofReg, hlat] using hd.2
  | none =>
    have hd := deliver_var r.d ((ofReg h r f).vals s g sp) g sp pl.split r.pipe (if r.div then .div else .var)
      ((ofReg h r f).flags s g sp)
    have hdl : dl = deliver (raiseFlags g ((ofReg h r f).flags s g sp)) sp pl.split r.pipe none
        (if r.div then .div else .var) r.d ((ofReg h r f).vals s g sp) := by simp only [dl, hlat]
    rw [← hdl, hkeys] at hd
    have hw := wrote_finish (s1 := { s with free := s.free + 1 }) (occ := (ofReg h r f).occ sp.mask) (h := h) hs.turn hc
      (rest_free pl _) rfl rfl hd.1
    refine ⟨by simp only [ofReg, hlat]; exact hw.1, fun hx => ?_⟩
    obtain ⟨g', sp', h1, h2, h3⟩ := hw.2
    refine ⟨g', sp', h1, h2, fun hn => ?_⟩
    rw [h3 hn]
    have ht : isTracked r.d = true := by simpa [ofReg, hlat] using hx
    simpa [ofReg, hlat] using hd.2 ht

end Sys2Proof.Laws
end

