-- ==== Sys2Proof/Laws/LaneWords.lean ====
section
/-! SUPPORT. The shape of the cross-lane words: what each does when nothing stops it. -/

namespace Sys2Proof.Laws

open Machine Claims

/-- What a cross-lane word of the model is given, from what it sees. -/
def laneIns (l : Lanes) (old : Nat → Word) : LaneIn := l.act.threads.map fun t => (t, l.a t, l.b t, old t)

/-- The model's word computes what a claim says, if its function does so on every input. -/
structure LaneAgrees (c : LaneCalc) (f : LaneIn → List (Nat × Word) × Flags) : Prop where
  keys : ∀ l old, l.act ≠ 0 → KeysOk c.d (f (laneIns l old)).1
  which : ∀ l old, l.act ≠ 0 → (f (laneIns l old)).1.map (·.1) = c.keys l
  vals : ∀ l old, l.act ≠ 0 → ∀ t < 32, threadVal (f (laneIns l old)).1 t = c.new l t
  flags : ∀ l old, l.act ≠ 0 → (f (laneIns l old)).2 = c.flags l

/-- The words of this shape that can issue complete with what they compute. -/
theorem laneWord_spec (c : LaneCalc) (f : LaneIn → List (Nat × Word) × Flags) (i : Instr)
    (hi : ∀ s, exec i s = laneWord s c.h { d := c.d, a := c.a, b := c.b, uniB := c.uniB, gOk := c.gOk, lat := c.lat } f)
    (hf : LaneAgrees c f) : LaneComputes i c := by
  intro s pl g sp hs hc hl
  let ins := laneIns (c.sees s g sp) fun t => regBefore g sp (.int 64) t c.d
  let dl := deliver (raiseFlags g (f ins).2) sp pl.split .m (some c.lat) .var c.d (f ins).1
  have hex : exec i s = .next (finish { s with free := s.free + 1 } pl dl.1 dl.2 c.h (perThreadOcc dl.2.mask)) := by
    rw [hi]
    have ho : laneOpspec g { d := c.d, a := c.a, b := c.b, uniB := c.uniB, gOk := c.gOk, lat := c.lat } = false := by
      unfold laneOpspec
      have h2 : (c.uniB && !isUniform c.b.1) = false := by
        cases h : c.uniB with
        | false => rfl
        | true => simp [hl.uni h]
      simp only [hl.names, hl.dest.1, h2, Bool.or_self, Bool.false_or]
      split
      · next n hn => simp [hl.dest.2 ⟨n, hn⟩]
      · rfl
    have hz : hazard g sp pl.split [c.a.1, c.b.1] [c.d] = false := hl.hazard
    have ht : tenderNeeds g sp [c.a.1, c.b.1] = false := hl.ready
    simp only [laneWord, issue_eq hs, ho, hz, ht, Bool.false_eq_true, if_false]
    rfl
  have hm : dl.2.mask = sp.mask := deliver_mask ..
  rw [hm] at hex
  have hd := deliver_fixed c.d _ (hf.keys (c.sees s g sp) (fun t => regBefore g sp (.int 64) t c.d) hl.active) g sp pl.split c.lat .m .var (f ins).2
  have hrd : Ready g dl.1 sp dl.2 c.d (c.keys (c.sees s g sp)) (c.new (c.sees s g sp)) (c.flags (c.sees s g sp)) pl.split [] := by
    rw [← hf.flags _ (fun t => regBefore g sp (.int 64) t c.d) hl.active,
      ← hf.which _ (fun t => regBefore g sp (.int 64) t c.d) hl.active]
    exact { hd.1 with regs := fun o t ht ho => by rw [← hf.vals _ (fun t => regBefore g sp (.int 64) t c.d) hl.active t ht]; exact hd.1.regs o t ht ho }
  have hw := wrote_finish (s1 := { s with free := s.free + 1 }) (occ := perThreadOcc sp.mask) (h := c.h) hs.turn hc
    (rest_free pl _) rfl rfl hrd
  obtain ⟨g', sp', h1, h2, h3⟩ := hw.2
  refine ⟨_, hex, hw.1, g', sp', h1, h2, fun hn => ?_⟩
  rw [h3 hn]
  exact hd.2

end Sys2Proof.Laws
end

