-- ==== Sys2Proof/Laws/Memory.lean ====
section
/-! SUPPORT. Memory: what a read gives after each write, that nothing else changes, and that every operation that writes
memory keeps its canonical form. -/

namespace Sys2Proof.Laws

open Machine

/-! ### Bytes -/

theorem memByte_write (s : State) (loc n x a : Nat) :
    memByte (memWrite s loc n x) a = if loc ≤ a ∧ a < loc + n then BitVec.ofNat 8 (x / 256 ^ (a - loc)) else memByte s a := by
  induction n generalizing s loc x with
  | zero => simp only [memWrite]; rw [if_neg (by omega)]
  | succ n ih =>
    simp only [memWrite, ih]
    by_cases h : a = loc
    · subst h
      rw [if_neg (by omega), if_pos (by omega), Nat.sub_self, pow_zero, Nat.div_one]
      simp [memByte, putByte]
    · have h1 : memByte (putByte s loc (BitVec.ofNat 8 x)) a = memByte s a := by
        simp [memByte, putByte, tabGet_set_ne h]
      rw [h1]
      by_cases h2 : loc + 1 ≤ a ∧ a < loc + 1 + n
      · rw [if_pos h2, if_pos (by omega)]
        have e : a - loc = a - (loc + 1) + 1 := by omega
        rw [e, Nat.pow_succ, Nat.mul_comm, ← Nat.div_div_eq_div_mul]
      · rw [if_neg h2, if_neg (by omega)]

theorem tabRead_congr {t u : Tab Byte} (loc n : Nat) (h : ∀ a, loc ≤ a → a < loc + n → tabGet 0 t a = tabGet 0 u a) :
    tabRead t loc n = tabRead u loc n := by
  induction n generalizing loc with
  | zero => rfl
  | succ n ih =>
    simp only [tabRead]
    rw [h loc (by omega) (by omega), ih (loc + 1) (fun a h1 h2 => h a (by omega) (by omega))]

/-- Reading bytes that a write does not touch gives what reading them before gave. -/
theorem memRead_write_ne (s : State) (loc n x a k : Nat) (h : a + k ≤ loc ∨ loc + n ≤ a) :
    memRead (memWrite s loc n x) a k = memRead s a k := by
  refine tabRead_congr a k fun b h1 h2 => ?_
  have := memByte_write s loc n x b
  rw [if_neg (by omega)] at this
  exact this

/-- Reading what was written gives it back. -/
theorem memRead_write (s : State) (loc n x : Nat) : memRead (memWrite s loc n x) loc n = x % 256 ^ n := by
  induction n generalizing s loc x with
  | zero => simp [memRead, tabRead, Nat.mod_one]
  | succ n ih =>
    have h1 : memByte (memWrite s loc (n + 1) x) loc = BitVec.ofNat 8 x := by
      rw [memByte_write, if_pos (by omega)]; simp
    have h2 := ih (putByte s loc (BitVec.ofNat 8 x)) (loc + 1) (x / 256)
    simp only [memRead, memByte] at h1 h2 ⊢
    simp only [tabRead, h1]
    rw [show memWrite s loc (n + 1) x = memWrite (putByte s loc (BitVec.ofNat 8 x)) (loc + 1) n (x / 256) from rfl, h2]
    rw [BitVec.toNat_ofNat, show 256 ^ (n + 1) = 256 * 256 ^ n by rw [Nat.pow_succ, Nat.mul_comm], Nat.mod_mul]

/-! ### What operations leave alone -/

/-- A part of the state that writes of cores, partitions and line times leave alone. -/
structure Stable {α : Type} (f : State → α) : Prop where
  core : ∀ s c k, f (setCore s c k) = f s
  part : ∀ s p x, f (setPart s p x) = f s
  line : ∀ s l w e, f (setLine s l w e) = f s

/-- A part of the state that writes of bytes and of full bits leave alone too. -/
structure StableMem {α : Type} (f : State → α) : Prop extends Stable f where
  byte : ∀ s l b, f (putByte s l b) = f s
  full : ∀ s l b, f (setFull s l b) = f s

theorem stable_mem : Stable (·.mem) := ⟨fun _ _ _ => rfl, fun _ _ _ => rfl, fun _ _ _ _ => rfl⟩
theorem stable_turn : StableMem (·.turn) :=
  ⟨⟨fun _ _ _ => rfl, fun _ _ _ => rfl, fun _ _ _ _ => rfl⟩, fun _ _ _ => rfl, fun _ _ _ => rfl⟩
theorem stable_clock : StableMem (·.clock) :=
  ⟨⟨fun _ _ _ => rfl, fun _ _ _ => rfl, fun _ _ _ _ => rfl⟩, fun _ _ _ => rfl, fun _ _ _ => rfl⟩

section stable

variable {α : Type} {f : State → α}

theorem foldl_eq {β : Type} (op : State → β → State) (h : ∀ s x, f (op s x) = f s) (l : List β) (s : State) :
    f (l.foldl op s) = f s := by
  induction l generalizing s with
  | nil => rfl
  | cons a r ih => exact (ih (op s a)).trans (h s a)

theorem Stable.group (hf : Stable f) (s : State) (c n : Nat) (g : Group) : f (setGroup s c n g) = f s := hf.core ..

theorem Stable.coreTime (hf : Stable f) (s : State) (c t : Nat) : f (setCoreTime s c t) = f s := hf.core ..

theorem Stable.restartStarve (hf : Stable f) (s : State) (p : Nat) : f (restartStarve s p) = f s := by
  unfold Machine.restartStarve
  split
  · exact hf.part ..
  · rfl

theorem Stable.leaveRoom (hf : Stable f) (s : State) (c slot split : Nat) : f (leaveRoom s c slot split) = f s := by
  unfold Machine.leaveRoom
  dsimp only
  split
  · exact hf.core ..
  · split
    · exact hf.core ..
    · split
      · exact (hf.group ..).trans (hf.core ..)
      · exact hf.core ..

theorem Stable.wakeOne (hf : Stable f) (s : State) (c : Nat) (w : Waiter) : f (wakeOne s c w) = f s := by
  unfold Machine.wakeOne retryRoom
  refine (foldl_eq (fun s (p : Nat × Nat) => Machine.leaveRoom s c p.1 p.2) (fun s p => hf.leaveRoom s c p.1 p.2) _ _).trans ?_
  split
  · exact (hf.restartStarve _ _).trans (hf.leaveRoom ..)
  · exact hf.leaveRoom ..

theorem Stable.wakeAll (hf : Stable f) (s : State) (p : Waiter → Bool) : f (wakeAll s p) = f s := by
  unfold Machine.wakeAll
  exact foldl_eq (fun s (c : Nat × Core) => (c.2.room.filter p).foldl (fun s w => Machine.wakeOne s c.1 w) s)
    (fun s c => foldl_eq (fun s w => Machine.wakeOne s c.1 w) (fun s w => hf.wakeOne s c.1 w) _ s) _ s

theorem Stable.refreshL1 (hf : Stable f) (s : State) (c loc w ts : Nat) : f (refreshL1 s c loc w ts) = f s := by
  unfold Machine.refreshL1
  dsimp only
  split
  · exact hf.core ..
  · rfl

theorem Stable.setRows (hf : Stable f) (s : State) (loc n : Nat) (g : Nat × Nat → Nat × Nat) :
    f (setRows s loc n g) = f s := by
  unfold Machine.setRows
  exact foldl_eq (fun s r => setLine s r (g (lineOf s r)).1 (g (lineOf s r)).2) (fun s r => hf.line ..) _ _

theorem Stable.stampStore (hf : Stable f) (s : State) (c loc n : Nat) : f (stampStore s c loc n) = f s :=
  (hf.coreTime ..).trans ((hf.refreshL1 ..).trans (hf.setRows ..))

theorem Stable.stampFailed (hf : Stable f) (s : State) (c loc : Nat) : f (stampFailed s c loc) = f s :=
  (hf.coreTime ..).trans ((hf.refreshL1 ..).trans (hf.line ..))

theorem Stable.wakeSplits (hf : Stable f) (s : State) (c slot : Nat) (p : Wait → Bool) : f (wakeSplits s c slot p) = f s := by
  unfold Machine.wakeSplits
  split
  · rfl
  · exact hf.group ..

theorem StableMem.memWrite (hf : StableMem f) (s : State) (loc n x : Nat) : f (memWrite s loc n x) = f s := by
  induction n generalizing s loc x with
  | zero => rfl
  | succ n ih => exact (ih ..).trans (hf.byte ..)

theorem StableMem.storeAt (hf : StableMem f) (s : State) (c loc n x : Nat) : f (storeAt s c loc n x) = f s :=
  (hf.toStable.wakeAll ..).trans ((hf.toStable.stampStore ..).trans (hf.memWrite ..))

theorem StableMem.storePieces (hf : StableMem f) (s : State) (c x : Nat) (l : List (Nat × Nat)) :
    f (storePieces s c x l) = f s := by
  induction l generalizing s x with
  | nil => rfl
  | cons p r ih => exact (ih ..).trans (hf.storeAt ..)

theorem StableMem.atomicAt (hf : StableMem f) (s : State) (c loc op n v w : Nat) : f (atomicAt s c loc op n v w).2 = f s := by
  unfold Machine.atomicAt
  dsimp only
  split
  · exact hf.storeAt ..
  · exact hf.toStable.stampFailed ..

theorem StableMem.performPend (hf : StableMem f) (s : State) (c : Nat) (a : PendAcc) : f (performPend s c a) = f s := by
  unfold Machine.performPend
  split
  · exact hf.storePieces ..
  · exact hf.atomicAt ..
  · exact (hf.toStable.wakeAll ..).trans ((hf.full ..).trans (hf.storeAt ..))
  · exact (hf.full ..).trans (hf.toStable.stampStore ..)

theorem StableMem.drainPend (hf : StableMem f) (s : State) (c slot : Nat) : f (drainPend s c slot) = f s := by
  unfold Machine.drainPend
  split
  · rfl
  · exact (hf.toStable.wakeSplits ..).trans ((foldl_eq _ (fun s a => hf.performPend s c a) _ _).trans (hf.toStable.group ..))

end stable

theorem agentStamp_mem (s : State) (a : Agent) (loc n : Nat) : (agentStamp s a loc n).mem = s.mem := by
  cases a <;> first | exact stable_mem.stampStore .. | exact stable_mem.setRows ..

/-- A store writes its bytes and no others. -/
theorem storeAt_mem (s : State) (c loc n x : Nat) : (storeAt s c loc n x).mem = (memWrite s loc n x).mem :=
  (stable_mem.wakeAll ..).trans (stable_mem.stampStore ..)

theorem agentStore_mem (s : State) (a : Agent) (loc n x : Nat) : (agentStore s a loc n x).mem = (memWrite s loc n x).mem :=
  (stable_mem.wakeAll ..).trans (agentStamp_mem ..)

/-! ### The canonical form -/

theorem memory_wf_filter {m : List Host.Cell} (f : Host.Cell → Bool) (h : Memory.wf m) : Memory.wf (m.filter f) := by
  simp only [Memory.wf, Bool.and_eq_true, List.all_eq_true] at h ⊢
  exact ⟨tabSorted_filter f h.1, fun x hx => h.2 x (List.mem_filter.mp hx).1⟩

theorem memory_wf_set {m : List Host.Cell} (k : Nat) (b : Byte) (h : Memory.wf m) : Memory.wf (tabSet 0 m k b) := by
  by_cases hb : b = 0
  · simp only [tabSet, hb, if_true, tabErase_filter]
    exact memory_wf_filter _ h
  · simp only [Memory.wf, Bool.and_eq_true, List.all_eq_true] at h ⊢
    refine ⟨tabSorted_set h.1, fun x hx => ?_⟩
    simp only [tabSet, hb, if_false] at hx
    rcases mem_put hx with rfl | hx
    · simpa using hb
    · exact h.2 x hx

theorem memory_wf_putByte {s : State} (loc : Nat) (b : Byte) (h : Memory.wf s.mem) : Memory.wf (putByte s loc b).mem :=
  memory_wf_set loc b h

theorem memory_wf_memWrite {s : State} (loc n x : Nat) (h : Memory.wf s.mem) : Memory.wf (memWrite s loc n x).mem := by
  induction n generalizing s loc x with
  | zero => exact h
  | succ n ih => exact ih _ _ (memory_wf_putByte _ _ h)

theorem memory_wf_memWriteBytes {s : State} (loc : Nat) (l : List Byte) (h : Memory.wf s.mem) :
    Memory.wf (memWriteBytes s loc l).mem := by
  induction l generalizing s loc with
  | nil => exact h
  | cons b r ih => exact ih _ (memory_wf_putByte _ _ h)

theorem memory_wf_zeroRange {s : State} (lo n : Nat) (h : Memory.wf s.mem) : Memory.wf (zeroRange s lo n).mem :=
  memory_wf_filter _ h

theorem memory_wf_storeAt {s : State} (c loc n x : Nat) (h : Memory.wf s.mem) : Memory.wf (storeAt s c loc n x).mem := by
  rw [storeAt_mem]; exact memory_wf_memWrite _ _ _ h

theorem memory_wf_agentStore {s : State} (a : Agent) (loc n x : Nat) (h : Memory.wf s.mem) :
    Memory.wf (agentStore s a loc n x).mem := by
  rw [agentStore_mem]; exact memory_wf_memWrite _ _ _ h

theorem memory_wf_storePieces {s : State} (c x : Nat) (l : List (Nat × Nat)) (h : Memory.wf s.mem) :
    Memory.wf (storePieces s c x l).mem := by
  induction l generalizing s x with
  | nil => exact h
  | cons p r ih => exact ih _ (memory_wf_storeAt _ _ _ _ h)

theorem memory_wf_atomicAt {s : State} (c loc op n v w : Nat) (h : Memory.wf s.mem) :
    Memory.wf (atomicAt s c loc op n v w).2.mem := by
  unfold atomicAt
  dsimp only
  split
  · exact memory_wf_storeAt _ _ _ _ h
  · rw [stable_mem.stampFailed]; exact h

theorem memory_wf_performPend {s : State} (c : Nat) (a : PendAcc) (h : Memory.wf s.mem) :
    Memory.wf (performPend s c a).mem := by
  unfold performPend
  split
  · exact memory_wf_storePieces _ _ _ h
  · exact memory_wf_atomicAt _ _ _ _ _ _ h
  · rw [wakeFuture, stable_mem.wakeAll]; exact memory_wf_storeAt c a.loc 8 _ h
  · rw [setFull_mem, stable_mem.stampStore]; exact h

theorem memory_wf_foldl {α : Type} (f : State → α → State) (hf : ∀ s x, Memory.wf s.mem → Memory.wf (f s x).mem)
    (l : List α) {s : State} (h : Memory.wf s.mem) : Memory.wf (l.foldl f s).mem := by
  induction l generalizing s with
  | nil => exact h
  | cons a r ih => exact ih (hf s a h)

theorem memory_wf_drainPend {s : State} (c slot : Nat) (h : Memory.wf s.mem) : Memory.wf (drainPend s c slot).mem := by
  unfold drainPend
  split
  · exact h
  · rw [stable_mem.wakeSplits]; exact memory_wf_foldl _ (fun s a => memory_wf_performPend c a) _ h

/-- Reset's memory lists nothing. -/
theorem memory_wf_reset : Memory.wf State.reset.mem := by decide

/-- Equal reads of every byte make canonical memories equal data. -/
theorem memory_ext {m n : List Host.Cell} (hm : Memory.wf m) (hn : Memory.wf n) (h : ∀ a, tabGet 0 m a = tabGet 0 n a) :
    m = n := by
  have key : ∀ {m : List Host.Cell} {a : Nat}, tabAbove a m → tabGet 0 m a = 0 := by
    intro m a ha
    induction m with
    | nil => rfl
    | cons p r ih =>
      obtain ⟨i, y⟩ := p
      have h1 : a < i := ha (i, y) (by simp)
      have h2 : ¬ i = a := by omega
      simp only [tabGet, tabFind, h2, if_false]
      exact ih fun q hq => ha q (by simp [hq])
  induction m generalizing n with
  | nil =>
    cases n with
    | nil => rfl
    | cons p r =>
      obtain ⟨i, y⟩ := p
      have := h i
      simp only [tabGet, tabFind, if_true, Option.getD_none, Option.getD_some] at this
      simp [Memory.wf, ← this] at hn
  | cons p r ih =>
    obtain ⟨i, y⟩ := p
    simp only [Memory.wf, Bool.and_eq_true, List.all_cons] at hm
    obtain ⟨hs, hy, hr⟩ := hm
    obtain ⟨ha, hs'⟩ := tabSorted_cons.mp hs
    have hi : tabGet 0 ((i, y) :: r) i = y := by simp [tabGet, tabFind]
    cases n with
    | nil =>
      have := h i
      rw [hi] at this
      simp [tabGet, tabFind] at this
      simp [this] at hy
    | cons q t =>
      obtain ⟨j, z⟩ := q
      simp only [Memory.wf, Bool.and_eq_true, List.all_cons] at hn
      obtain ⟨ns, nz, nr⟩ := hn
      obtain ⟨na, ns'⟩ := tabSorted_cons.mp ns
      have hij : i = j := by
        rcases Nat.lt_trichotomy i j with hl | hl | hl
        · have h1 : tabGet 0 ((j, z) :: t) i = 0 :=
            key (fun p hp => by
              rcases List.mem_cons.mp hp with rfl | hp
              · exact hl
              · exact Nat.lt_trans hl (na p hp))
          have := h i
          rw [hi, h1] at this
          simp [this] at hy
        · exact hl
        · have h1 : tabGet 0 ((i, y) :: r) j = 0 :=
            key (fun p hp => by
              rcases List.mem_cons.mp hp with rfl | hp
              · exact hl
              · exact Nat.lt_trans hl (ha p hp))
          have := h j
          rw [h1] at this
          simp [tabGet, tabFind] at this
          simp [← this] at nz
      subst hij
      have hyz : y = z := by
        have := h i
        simpa [tabGet, tabFind] using this
      subst hyz
      congr 1
      refine ih (by rw [Memory.wf, hs', hr]; rfl) (by rw [Memory.wf, ns', nr]; rfl) fun a => ?_
      by_cases hai : a = i
      · subst hai; rw [key ha, key na]
      · have hne : ¬ i = a := fun e => hai e.symm
        have := h a
        simpa [tabGet, tabFind, hne] using this

end Sys2Proof.Laws
end

