-- ==== Sys2Proof/Laws/Traps.lean ====
section
/-! SUPPORT. What taking a trap does. -/

namespace Sys2Proof.Laws

open Machine Claims

theorem dropTender_find (k : Core) (n j : Nat) :
    tabFind j (dropTender k n).slots = if j = n then none else tabFind j k.slots := by
  unfold dropTender
  split
  · by_cases h : j = n
    · subst h; simp
    · simp [h, tabFind_erase_ne h]
  · next h =>
    by_cases e : j = n
    · subst e; simp [h]
    · simp [e]

theorem dropTender_frame (k : Core) (n : Nat) : frameCore (dropTender k n) = frameCore k := by
  unfold dropTender
  split <;> rfl

theorem dropTender_running {k : Core} {n : Nat} {x : Nat × Nat × Nat} (h : x ∈ (dropTender k n).running) : x ∈ k.running := by
  unfold dropTender at h
  split at h
  · exact (List.mem_filter.mp h).1
  · exact h

theorem dropTenders (ts : List Nat) (k : Core) :
    (∀ j, tabFind j (ts.foldl dropTender k).slots = if j ∈ ts then none else tabFind j k.slots)
      ∧ frameCore (ts.foldl dropTender k) = frameCore k
      ∧ ∀ x ∈ (ts.foldl dropTender k).running, x ∈ k.running := by
  induction ts generalizing k with
  | nil => simp
  | cons a r ih =>
    obtain ⟨h1, h2, h3⟩ := ih (dropTender k a)
    refine ⟨fun j => ?_, h2.trans (dropTender_frame k a), fun x hx => dropTender_running (h3 x hx)⟩
    simp only [List.foldl_cons]
    rw [h1, dropTender_find]
    by_cases h : j ∈ r <;> by_cases e : j = a <;> simp [h, e]

theorem mem_put_ne {α : Type} {k : Nat} {x : α} {t : Tab α} {p : Nat × α} (h : p ∈ t) (hk : p.1 ≠ k) :
    p ∈ tabPut k x t := by
  induction t with
  | nil => cases h
  | cons q r ih =>
    obtain ⟨a, b⟩ := q
    simp only [tabPut]
    rcases List.mem_cons.mp h with rfl | h'
    · split
      · simp
      · simp
    · split
      · simp [h']
      · split
        · simp [h']
        · simp [ih h']

/-- The tenders of a slot after its group has been written. -/
theorem tendersOf_put {k : Core} {slot : Nat} {g : Group} (hg : g.isTender = none) (hs : slot ∉ tendersOf k slot) (n : Nat) :
    n ∈ tendersOf { k with slots := tabPut slot g k.slots } slot ↔ n ∈ tendersOf k slot := by
  simp only [tendersOf, List.mem_map, List.mem_filter] at hs ⊢
  constructor
  · rintro ⟨x, ⟨hx, hc⟩, rfl⟩
    rcases mem_put hx with rfl | h
    · simp [hg] at hc
    · exact ⟨x, ⟨h, hc⟩, rfl⟩
  · rintro ⟨x, ⟨hx, hc⟩, rfl⟩
    have hne : x.1 ≠ slot := fun e => hs ⟨x, ⟨hx, hc⟩, e⟩
    exact ⟨x, ⟨mem_put_ne hx hne, hc⟩, rfl⟩

theorem tabPut_put {α : Type} {k : Nat} {x y : α} {t : Tab α} : tabPut k y (tabPut k x t) = tabPut k y t := by
  induction t with
  | nil => simp [tabPut]
  | cons p r ih =>
    obtain ⟨a, b⟩ := p
    simp only [tabPut]
    by_cases h1 : k < a
    · simp [h1, tabPut]
    · by_cases h2 : a = k
      · simp [h2, tabPut]
      · simp [h1, h2, tabPut, ih]

theorem setCore_setCore (s : State) (c : Nat) (j k : Core) : setCore (setCore s c j) c k = setCore s c k := by
  simp [setCore, tabPut_put]

/-- The same state with another turn. -/
def setTurn (s : State) (o : Option Place) : State := { s with turn := o }

theorem setCore_setTurn (s : State) (c : Nat) (k : Core) (o : Option Place) :
    setCore (setTurn s o) c k = setTurn (setCore s c k) o := rfl

theorem coreOf_setTurn (s : State) (c : Nat) (o : Option Place) : coreOf (setTurn s o) c = coreOf s c := rfl

theorem groupAt_setTurn (s : State) (c n : Nat) (o : Option Place) : groupAt (setTurn s o) c n = groupAt s c n := rfl

theorem setTurn_setTurn (s : State) (o p : Option Place) : setTurn (setTurn s o) p = setTurn s p := rfl

/-- A stop of a group without tenders left. -/
theorem stopGroup_eq {s s2 : State} {c slot : Nat} {r : TrapRec} {g : Group} (hs : squashTenders s c slot = s2)
    {n : Nat} (hg : groupAt s2 c slot = some g) (ht : s2.turn = some ⟨c, slot, n⟩) :
    stopGroup s c slot r = report (setTurn (setCore (setGroup s2 c slot { g with stopped := true, trrec := r }) c
      (releasePipe (coreOf (setGroup s2 c slot { g with stopped := true, trrec := r }) c) slot)) none)
      (.trap g.part (match launchOf s2 g.launch with
        | some l => l.pid
        | none => 0) (cgid g) r.cause.toNat r.kind.toNat) := by
  unfold stopGroup
  rw [hs]
  simp only [hg, setCore_turn, setGroup_turn, ht, beq_self_eq_true, Bool.and_self, if_true]
  rfl

/-- A trap of a group that is no tender. -/
theorem trapped_trapWith {s : State} {pl : Place} {g : Group} {sp : Split} (hi : Issues s pl g sp) (hm : MayTrap s pl g)
    (cause : BitVec 8) (kind : BitVec 2) (code : BitVec 14) (addr : Word) :
    Trapped s (trapWith s pl cause kind code addr) pl g sp cause kind code addr := by
  let sp' : Split := { sp with stage := 0, await := [], paid := false }
  let g1 := setSplit g pl.split sp'
  let k1 : Core := { coreOf s pl.core with slots := tabPut pl.slot g1 (coreOf s pl.core).slots }
  let ts := tendersOf k1 pl.slot
  let k2 := ts.foldl dropTender k1
  let r := recordAt pl sp cause kind code addr
  let g2 : Group := { g1 with stopped := true, trrec := r }
  let k3 := releasePipe { k2 with slots := tabPut pl.slot g2 k2.slots } pl.slot
  obtain ⟨d1, d2, d3⟩ := dropTenders ts k1
  have hts : ∀ n, n ∈ ts ↔ n ∈ tendersOf (coreOf s pl.core) pl.slot := tendersOf_put (by exact hm.tender) hm.slots
  have hno : pl.slot ∉ ts := fun h => hm.slots ((hts _).mp h)
  have hk2 : tabFind pl.slot k2.slots = some g1 := by
    rw [d1, if_neg hno]; simp [k1]
  have e : trapWith s pl cause kind code addr =
      report (setTurn (setCore s pl.core k3) none) (.trap g.part (match launchOf s g.launch with
        | some l => l.pid
        | none => 0) (cgid g) cause.toNat kind.toNat) := by
    have hs1 : store s pl g sp' = setCore s pl.core k1 := rfl
    have hsq : squashTenders (setCore s pl.core k1) pl.core pl.slot = setTurn (setCore s pl.core k2) (some pl) := by
      unfold squashTenders
      have hts' : tendersOf k1 pl.slot = ts := rfl
      simp only [coreOf_setCore_self, hts', setCore_setCore, setCore_turn, hi.turn]
      have : ts.contains pl.slot = false := by simpa using hno
      simp only [this, Bool.and_false, Bool.false_eq_true, if_false]
      rfl
    have hgr : groupAt (setTurn (setCore s pl.core k2) (some pl)) pl.core pl.slot = some g1 := by
      rw [groupAt_setTurn, groupAt_setCore, if_pos rfl]; exact hk2
    unfold trapWith
    simp only [hi.group, hi.split, hm.tender, Option.isSome_none, Bool.false_eq_true, if_false]
    rw [hs1, stopGroup_eq (n := pl.split) hsq hgr rfl]
    simp only [setGroup, coreOf_setTurn, setCore_setTurn, setTurn_setTurn, coreOf_setCore_self, setCore_setCore]
    rfl
  rw [e]
  have hco : ∀ c, coreOf (report (setTurn (setCore s pl.core k3) none) (.trap g.part (match launchOf s g.launch with
        | some l => l.pid
        | none => 0) (cgid g) cause.toNat kind.toNat)) c = if c = pl.core then k3 else coreOf s c :=
    fun c => coreOf_setCore (s := s) k3
  have hgo : ∀ c n, groupAt (report (setTurn (setCore s pl.core k3) none) (.trap g.part (match launchOf s g.launch with
        | some l => l.pid
        | none => 0) (cgid g) cause.toNat kind.toNat)) c n = if c = pl.core then tabFind n k3.slots else groupAt s c n := by
    intro c n
    unfold groupAt
    rw [hco]
    split <;> rfl
  refine ⟨⟨g2, ?_, rfl, rfl, rfl, ?_, ?_⟩, ?_, ?_, rfl, ⟨_, rfl⟩, fun _ => rfl, ?_, rfl, rfl, rfl⟩
  · rw [hgo, if_pos rfl]; simp [k3, releasePipe]
  · exact splitAt_setSplit_self _ _
  · intro n hn
    exact (splitAt_setSplit _ _).trans (if_neg hn)
  · intro c n hn
    rw [hgo]
    by_cases hc : c = pl.core
    · subst hc
      have hne : n ≠ pl.slot := fun h => hn (by rw [h])
      rw [if_pos rfl]
      simp only [k3, releasePipe, tabFind_put_ne hne, true_and]
      rw [d1]
      simp only [hts]
      split
      · rfl
      · simp [k1, tabFind_put_ne hne, groupAt]
    · simp [hc]
  · intro x hx
    rw [hco, if_pos rfl] at hx
    simpa using (List.mem_filter.mp hx).2
  · intro c
    rw [hco]
    split
    · next h =>
      subst h
      exact d2
    · rfl

/-- TRAP and SYSCALL issue before they stop their group. -/
theorem callIssued_stopIssued (s : State) (pl : Place) (g : Group) (sp : Split) :
    ∃ g1, CallIssued s (stopIssued s pl g sp) pl g g1 sp { sp with run := { sp.run with occ := 0 } } := by
  obtain ⟨f, hf, hq⟩ := groupAt_advance
    (s := countWord (store s pl { g with gwords := g.gwords + 1 } { sp with run := { sp.run with occ := 0 } }) pl.core g.part)
    (c := pl.core) (n := pl.slot) (bump sp.run 1).occ (some pl)
  obtain ⟨a, b, hab⟩ := hq (setSplit { g with gwords := g.gwords + 1 } pl.split { sp with run := { sp.run with occ := 0 } })
  simp only [groupAt_countWord, groupAt_store_self, Option.map_some] at hf
  rw [hab] at hf
  have hr : Rest s (stopIssued s pl g sp) pl := by
    unfold stopIssued
    exact ((rest_store ..).trans (rest_countWord ..)).trans (rest_advance ..)
  refine ⟨_, hr, rfl, rfl, hf, ?_, fun n hn => ?_, rfl, rfl,
    rfl, rfl, rfl⟩
  · simp [splitAt, setSplit]
  · simp [splitAt, setSplit, tabFind_put_ne hn]

end Sys2Proof.Laws
end

