-- ==== Sys2Proof/Laws/MemWords.lean ====
section
/-! SUPPORT. Memory words: what each does when nothing stops it. -/

namespace Sys2Proof.Laws

open Machine Claims

/-! ### Pieces and values -/

theorem pieces_line (loc n : Nat) (hn : n ≤ 128) {p : Nat × Nat} (h : p ∈ pieces loc n) : p.1 % 128 + p.2 ≤ 128 := by
  unfold pieces at h
  dsimp only at h
  split at h
  · simp only [List.mem_singleton] at h
    subst h
    dsimp only
    omega
  · simp only [List.mem_cons, List.not_mem_nil, or_false] at h
    rcases h with rfl | rfl <;> dsimp only <;> omega

theorem reachOf_line {l : Leaf} {n : Nat} {ps : List (Nat × Nat)} (hn : n ≤ 128) (h : reachOf l n = .mem ps)
    {p : Nat × Nat} (hp : p ∈ ps) : p.1 % 128 + p.2 ≤ 128 := by
  unfold reachOf at h
  split at h
  · cases h
  · cases h; exact pieces_line _ _ hn hp

/-- An access in two parts that is allowed reaches the pieces of both. -/
theorem checkTwo_ok {s : State} {c : Nat} {g : Group} {op : MemOp} {b n k : Nat} {ea : Word} {r : Reach}
    (h : checkTwo s c g op b n k ea = .ok r) : ∃ l m : Leaf, r = .mem (pieces l.loc k ++ pieces m.loc (n - k)) := by
  unfold checkTwo at h
  dsimp only at h
  split at h
  · cases h
  · split at h
    · cases h
    · cases h
    · split at h
      · injection h with h; exact ⟨_, _, h.symm⟩
      · cases h
      · cases h

/-- Every piece that the checks give lies within one 128-byte line (R140). -/
theorem checkAcc_line {s : State} {c : Nat} {g : Group} {op : MemOp} {b n : Nat} {ea : Word} {ps : List (Nat × Nat)}
    (hn : n ≤ 128) (h : checkAcc s c g op b n ea = .ok (.mem ps)) {p : Nat × Nat} (hp : p ∈ ps) : p.1 % 128 + p.2 ≤ 128 := by
  unfold checkAcc at h
  dsimp only at h
  split at h
  · unfold checkOne at h
    split at h
    · cases h
    · cases h
    · split at h
      · cases h
      · injection h with h
        exact reachOf_line hn h hp
  · obtain ⟨l, m, h⟩ := checkTwo_ok h
    injection h with h
    subst h
    rcases List.mem_append.mp hp with h | h
    · exact pieces_line _ _ (by omega) h
    · exact pieces_line _ _ (by omega) h

theorem pieces_nonempty (loc n : Nat) : pieces loc n ≠ [] := by
  unfold pieces
  dsimp only
  split <;> simp

/-- An access reaches at least one piece. -/
theorem checkAcc_nonempty {s : State} {c : Nat} {g : Group} {op : MemOp} {b n : Nat} {ea : Word} :
    checkAcc s c g op b n ea ≠ .ok (.mem []) := by
  intro h
  unfold checkAcc at h
  dsimp only at h
  split at h
  · unfold checkOne at h
    split at h
    · cases h
    · cases h
    · split at h
      · cases h
      · injection h with h
        unfold reachOf at h
        split at h
        · cases h
        · injection h with h
          exact pieces_nonempty _ _ h
  · obtain ⟨l, m, h⟩ := checkTwo_ok h
    injection h with h
    exact pieces_nonempty _ _ (List.append_eq_nil_iff.mp h.symm).1

theorem tabRead_bytesAt (m : Nat → Byte) (t : Tab Byte) (loc n : Nat) (h : ∀ a, loc ≤ a → a < loc + n → tabGet 0 t a = m a) :
    tabRead t loc n = bytesAt m loc n := by
  induction n generalizing loc with
  | zero => rfl
  | succ n ih =>
    simp only [tabRead, bytesAt]
    rw [h loc (by omega) (by omega), ih (loc + 1) fun a h1 h2 => h a (by omega) (by omega)]

theorem memRead_bytesAt (s : State) (loc n : Nat) : memRead s loc n = bytesAt (memByte s) loc n :=
  tabRead_bytesAt _ _ _ _ fun _ _ _ => rfl

/-- The two forms of a load's extension. -/
theorem extendLoad_eq (sg : Bool) (n x : Nat) (h : n = 1 ∨ n = 2 ∨ n = 4 ∨ n = 8) : extendLoad sg n x = extended sg n x := by
  have key : ∀ w, 0 < w → w ≤ 64 → BitVec.ofNat 64 (intBits 64 (intOf w sg x))
      = if sg then (BitVec.ofNat w x).signExtend 64 else (BitVec.ofNat w x).setWidth 64 := by
    intro w h0 hw
    have h2 : (BitVec.ofNat 64 (intBits 64 (intOf w sg x))) = BitVec.ofInt 64 (intOf w sg x) := by
      apply BitVec.eq_of_toNat_eq
      simp only [intBits, BitVec.toNat_ofNat, BitVec.toNat_ofInt]
      have : (0 : Int) ≤ intOf w sg x % (2 ^ 64 : Nat) := Int.emod_nonneg _ (by norm_num)
      have h3 : intOf w sg x % (2 ^ 64 : Nat) < (2 ^ 64 : Nat) := Int.emod_lt_of_pos _ (by norm_num)
      omega
    rw [h2]
    cases sg with
    | true =>
      simp only [if_true]
      rw [show (BitVec.ofNat w x).signExtend 64 = BitVec.ofInt 64 (BitVec.ofNat w x).toInt from rfl]
      congr 1
      have hp : 2 ^ w = 2 * 2 ^ (w - 1) := by rw [← Nat.pow_succ']; congr 1; omega
      simp only [intOf, Bool.true_and, decide_eq_true_eq, BitVec.toInt, BitVec.toNat_ofNat]
      by_cases h : 2 ^ (w - 1) ≤ x % 2 ^ w
      · rw [if_pos h, if_neg (by omega)]
      · rw [if_neg h, if_pos (by omega)]
    | false =>
      simp only [Bool.false_eq_true, if_false, intOf, Bool.false_and]
      apply BitVec.eq_of_toNat_eq
      rw [BitVec.toNat_ofInt, BitVec.toNat_setWidth, BitVec.toNat_ofNat]
      rw [show ((x % 2 ^ w : Nat) : Int) % ((2 ^ 64 : Nat) : Int) = ((x % 2 ^ w % 2 ^ 64 : Nat) : Int) from rfl]
      exact Int.toNat_natCast _
  unfold extendLoad extended
  rcases h with rfl | rfl | rfl | rfl <;> exact key _ (by omega) (by omega)

/-! ### Accesses that only move time and copies -/

/-- What a state keeps while threads read memory: bytes, groups, and what decides how an access goes. -/
structure Reads (s t : State) : Prop where
  served : Served s t
  slots  : ∀ c n, groupAt t c n = groupAt s c n

theorem Reads.refl (s : State) : Reads s s := ⟨⟨fun _ => rfl, rfl, fun _ => rfl⟩, fun _ _ => rfl⟩

theorem Reads.trans {s t u : State} (h : Reads s t) (k : Reads t u) : Reads s u :=
  ⟨⟨fun l => (k.served.bytes l).trans (h.served.bytes l), k.served.rest.trans h.served.rest,
    fun c => (k.served.cores c).trans (h.served.cores c)⟩, fun c n => (k.slots c n).trans (h.slots c n)⟩

theorem Reads.parts {s t : State} (h : Reads s t) : t.parts = s.parts := congrArg (·.parts) h.served.rest
theorem Reads.poison {s t : State} (h : Reads s t) : t.poison = s.poison := congrArg (·.poison) h.served.rest
theorem Reads.full {s t : State} (h : Reads s t) : t.full = s.full := congrArg (·.full) h.served.rest
theorem Reads.tick {s t : State} (h : Reads s t) : t.tick = s.tick := congrArg (·.tick) h.served.rest
theorem Reads.turn {s t : State} (h : Reads s t) : t.turn = s.turn := congrArg (·.turn) h.served.rest
theorem Reads.clock {s t : State} (h : Reads s t) : t.clock = s.clock := congrArg (·.clock) h.served.rest
theorem Reads.slips {s t : State} (h : Reads s t) (c : Nat) : (coreOf t c).slips = (coreOf s c).slips :=
  congrArg (·.slips) (h.served.cores c)

theorem reads_setLine (s : State) (loc w l : Nat) : Reads s (setLine s loc w l) :=
  ⟨⟨fun _ => rfl, rfl, fun _ => rfl⟩, fun _ _ => rfl⟩

theorem reads_setRows (s : State) (loc n : Nat) (f : Nat × Nat → Nat × Nat) : Reads s (setRows s loc n f) := by
  unfold setRows
  generalize rowsOf loc n = l
  induction l generalizing s with
  | nil => exact Reads.refl s
  | cons r l ih => exact (reads_setLine s r _ _).trans (ih _)

theorem setRows_cores (s : State) (loc n : Nat) (f : Nat × Nat → Nat × Nat) : (setRows s loc n f).cores = s.cores := by
  unfold setRows
  generalize rowsOf loc n = l
  induction l generalizing s with
  | nil => rfl
  | cons r l ih => exact ih _

theorem reads_setCore (s : State) (c : Nat) (k : Core) (h : quietCache k = quietCache (coreOf s c)) :
    Reads s (setCore s c k) := by
  refine ⟨⟨fun _ => rfl, rfl, fun c' => ?_⟩, fun c' n => ?_⟩
  · rw [coreOf_setCore]
    split
    · next e => rw [e, h]
    · rfl
  · rw [groupAt_setCore]
    split
    · next e =>
      subst e
      have : k.slots = (coreOf s c').slots := congrArg (·.slots) h
      rw [this]; rfl
    · rfl

theorem reads_setCoreTime (s : State) (c t : Nat) : Reads s (setCoreTime s c t) := reads_setCore s c _ rfl

theorem lineData_get (s : State) (line a : Nat) (ha : a / 128 = line) : tabGet 0 (lineData s line) a = memByte s a := by
  have key : ∀ m : Tab Byte, tabFind a (m.filter fun c => decide (128 * line ≤ c.1) && decide (c.1 < 128 * line + 128))
      = tabFind a m := by
    intro m
    induction m with
    | nil => rfl
    | cons p r ih =>
      obtain ⟨j, y⟩ := p
      by_cases hj : j = a
      · subst hj
        have : (decide (128 * line ≤ j) && decide (j < 128 * line + 128)) = true := by
          simp only [Bool.and_eq_true, decide_eq_true_eq]; omega
        simp [this, tabFind]
      · simp only [List.filter_cons]
        split
        · simp [tabFind, hj, ih]
        · simp [tabFind, hj, ih]
  unfold tabGet lineData memByte tabGet
  rw [key]

theorem mem_of_find {α : Type} {k : Nat} {x : α} {t : Tab α} (h : tabFind k t = some x) : (k, x) ∈ t := by
  induction t with
  | nil => cases h
  | cons p r ih =>
    obtain ⟨j, y⟩ := p
    simp only [tabFind] at h
    split at h
    · next e => cases h; simp [e]
    · simp [ih h]

theorem coherent_reads {s t : State} {c : Nat} (h : Reads s t) (hc : Coherent s c)
    (hl : ∀ p ∈ (coreOf t c).l1, p ∈ (coreOf s c).l1 ∨ ∃ y, p.2.data = lineData s p.1 ∧ p = (p.1, y)) : Coherent t c := by
  intro p hp a ha
  rw [h.served.bytes]
  rcases hl p hp with h1 | ⟨_, h1, _⟩
  · exact hc p h1 a ha
  · rw [h1]; exact lineData_get s p.1 a ha

/-- A read served at home: the bytes of memory. -/
theorem loadHome_spec (s : State) (c part loc n : Nat) :
    (loadHome s c part loc n).1 = bytesAt (memByte s) loc n ∧ Reads s (loadHome s c part loc n).2
      ∧ (Coherent s c → Coherent (loadHome s c part loc n).2 c) := by
  let ts := Nat.max (coreTime s c) (lineOf s loc).1
  let s1 := setLine s loc (lineOf s loc).1 (Nat.max (lineOf s loc).2 (ts + leaseLen s part))
  let k := l1Put (coreOf s1 c) (loc / 128)
    { data := lineData s1 (loc / 128), w := (lineOf s loc).1,
      e := Nat.min (Nat.max (lineOf s loc).2 (ts + leaseLen s part)) (ts + leaseLen s part) }
  have e : loadHome s c part loc n
      = (memRead s1 loc n, setCoreTime (setCore s1 c { k with l1miss := k.l1miss + 1 }) c ts) := rfl
  have h1 : Reads s (setCoreTime (setCore s1 c { k with l1miss := k.l1miss + 1 }) c ts) :=
    ((reads_setLine s _ _ _).trans (reads_setCore s1 c { k with l1miss := k.l1miss + 1 } rfl)).trans (reads_setCoreTime ..)
  rw [e]
  refine ⟨memRead_bytesAt .., h1, fun hc => coherent_reads h1 hc ?_⟩
  intro p hp
  have hl : (coreOf (setCoreTime (setCore s1 c { k with l1miss := k.l1miss + 1 }) c ts) c).l1 = k.l1 := by
    simp [setCoreTime]
  rw [hl] at hp
  have hk : ∃ t : Tab L1Line, (∀ q ∈ t, q ∈ (coreOf s c).l1) ∧ ∃ y : L1Line, y.data = lineData s (loc / 128)
      ∧ k.l1 = tabPut (loc / 128) y t := by
    refine ⟨if (tabFind (loc / 128) (coreOf s1 c).l1).isSome || (coreOf s1 c).l1.length < 2048 then (coreOf s1 c).l1
      else (coreOf s1 c).l1.drop 1, ?_, _, rfl, rfl⟩
    intro q hq
    split at hq
    · exact hq
    · exact List.mem_of_mem_drop hq
  obtain ⟨t, ht, y, hy, hk⟩ := hk
  rw [hk] at hp
  rcases mem_put hp with rfl | h
  · exact .inr ⟨y, hy, rfl⟩
  · exact .inl (ht _ h)

/-- A read through the L1, which holds what memory holds: the bytes of memory. -/
theorem loadAt_spec (s : State) (c part loc n : Nat) (hc : Coherent s c) (hl : loc % 128 + n ≤ 128) :
    (loadAt s c part loc n).1 = bytesAt (memByte s) loc n ∧ Reads s (loadAt s c part loc n).2
      ∧ Coherent (loadAt s c part loc n).2 c := by
  unfold loadAt
  dsimp only
  split
  · have hr := (reads_setRows s loc n fun x => (x.1, x.2.max (maxRows s loc n (coreTime s c) fun x => x.1))).trans
      (reads_setCoreTime _ c (maxRows s loc n (coreTime s c) fun x => x.1))
    refine ⟨memRead_bytesAt .., hr, coherent_reads hr hc fun p hp => .inl ?_⟩
    rw [setCoreTime, coreOf_setCore_self] at hp
    simpa only [coreOf, setRows_cores] using hp
  · split
    · next x hx =>
      split
      · refine ⟨tabRead_bytesAt _ _ _ _ fun a h1 h2 => hc _ (mem_of_find hx) a ?_, reads_setCoreTime .., ?_⟩
        · dsimp only; omega
        · exact coherent_reads (reads_setCoreTime ..) hc fun p hp => .inl (by simpa [setCoreTime] using hp)
      · obtain ⟨h1, h2, h3⟩ := loadHome_spec s c part loc n
        exact ⟨h1, h2, h3 hc⟩
    · obtain ⟨h1, h2, h3⟩ := loadHome_spec s c part loc n
      exact ⟨h1, h2, h3 hc⟩

theorem loadPieces_spec (s : State) (c part : Nat) (ps : List (Nat × Nat)) (hc : Coherent s c)
    (hl : ∀ p ∈ ps, p.1 % 128 + p.2 ≤ 128) :
    (loadPieces s c part ps).1 = piecesAt (memByte s) ps ∧ Reads s (loadPieces s c part ps).2
      ∧ Coherent (loadPieces s c part ps).2 c := by
  induction ps generalizing s with
  | nil => exact ⟨rfl, Reads.refl s, hc⟩
  | cons p r ih =>
    obtain ⟨l, k⟩ := p
    obtain ⟨h1, h2, h3⟩ := loadAt_spec s c part l k hc (hl (l, k) (by simp))
    obtain ⟨i1, i2, i3⟩ := ih (loadAt s c part l k).2 h3 fun q hq => hl q (by simp [hq])
    simp only [loadPieces, piecesAt]
    refine ⟨?_, h2.trans i2, i3⟩
    rw [h1, i1]
    have : memByte (loadAt s c part l k).2 = memByte s := funext h2.served.bytes
    rw [this]

/-! ### The threads of a word -/

/-- What a thread's access gives while nothing stops it: `I rest s vals` says where the word stands with the threads `rest`
still to come. -/
theorem memFold {pl : Place} {w : MemWord} (I : List ThreadAcc → State → List (Nat × Word) → Prop)
    (step : ∀ a rest s vals, I (a :: rest) s vals → ∃ ps g s2 x, a.chk = .ok (.mem ps) ∧ groupAt s pl.core pl.slot = some g
      ∧ watchHit s g.part w.op a.ea w.n = none ∧ accConflict s pl g w.op a.ea w.n = []
      ∧ performOne s pl w a.ea (.mem ps) a.v a.v2 = .done s2 x
      ∧ I rest s2 (match x with
        | some x => vals ++ [(a.t, x)]
        | none => vals))
    (as : List ThreadAcc) (s : State) (vals : List (Nat × Word)) (wr : List Nat) (h : I as s vals) :
    ∃ t vs ks, as.foldl (memThread pl w) { s := s, vals := vals, waits := [], left := [], watch := none, wrote := wr, stop := none }
      = { s := t, vals := vs, waits := [], left := [], watch := none, wrote := ks, stop := none } ∧ I [] t vs
      ∧ (w.op.writes = false → ks = wr) := by
  induction as generalizing s vals wr with
  | nil => exact ⟨s, vals, wr, rfl, h, fun _ => rfl⟩
  | cons a rest ih =>
    obtain ⟨ps, g, s2, x, h1, h2, h3, h4, h5, h6⟩ := step a rest s vals h
    obtain ⟨t, vs, ks, e, hI, hw⟩ := ih s2 _ (wr ++ writtenKeys w.op s w.n a.v (.mem ps)) h6
    refine ⟨t, vs, ks, ?_, hI, fun hr => ?_⟩
    · rw [List.foldl_cons, ← e]
      congr 1
      simp only [memThread, h1, h2, h3, h4, h5, Bool.false_eq_true, if_false, Option.isSome_none, Bool.and_false, lowerAddr]
      all_goals (cases x <;> rfl)
    · rw [hw hr]
      simp [writtenKeys, hr]

/-- The threads of a word. -/
def threadsOf (s : State) (pl : Place) (g : Group) (sp : Split) (w : MemWord) : List ThreadAcc :=
  memThreads s pl g sp w (memKeys sp w)

/-- No thread is selected: there is no lowest address. -/
theorem lowestAddr_none {p : ThreadAcc → Bool} {as : List ThreadAcc} (h : ∀ a ∈ as, p a = false) : lowestAddr p as = none := by
  unfold lowestAddr
  induction as with
  | nil => rfl
  | cons a r ih =>
    rw [List.foldl_cons, h a (by simp)]
    exact ih fun b hb => h b (by simp [hb])

/-- The lowest address of the selected threads is one of theirs, and none is lower. -/
theorem lowestAddr_spec {p : ThreadAcc → Bool} {as : List ThreadAcc} {a : ThreadAcc} (ha : a ∈ as) (hp : p a = true)
    (hm : ∀ b ∈ as, p b = true → a.ea.toNat ≤ b.ea.toNat) : lowestAddr p as = some a.ea := by
  have key : ∀ (r : List ThreadAcc) (b : Option Word), (∀ x ∈ r, p x = true → a.ea.toNat ≤ x.ea.toNat) →
      (∀ v, b = some v → a.ea.toNat ≤ v.toNat) → (a ∈ r ∨ b = some a.ea) →
      r.foldl (fun b a => if p a then lowerAddr b (some a.ea) else b) b = some a.ea := by
    intro r
    induction r with
    | nil => intro b _ _ h; simpa using h
    | cons x r ih =>
      intro b hr hb h
      rw [List.foldl_cons]
      refine ih _ (fun y hy => hr y (by simp [hy])) ?_ ?_
      · intro v hv
        by_cases hx : p x = true
        · rw [if_pos hx] at hv
          have h1 := hr x (by simp) hx
          cases b with
          | none => simp only [lowerAddr, Option.some.injEq] at hv; rw [← hv]; exact h1
          | some w =>
            have h2 := hb w rfl
            simp only [lowerAddr] at hv
            split at hv <;> (simp only [Option.some.injEq] at hv; rw [← hv]; assumption)
        · rw [if_neg hx] at hv; exact hb v hv
      · rcases h with h | h
        · rcases List.mem_cons.mp h with rfl | h
          · right
            rw [if_pos hp]
            cases b with
            | none => rfl
            | some w =>
              have h2 := hb w rfl
              simp only [lowerAddr]
              split
              · rfl
              · next hlt => rw [BitVec.eq_of_toNat_eq (by omega : w.toNat = a.ea.toNat)]
          · left; exact h
        · right
          subst h
          by_cases hx : p x = true
          · have h1 := hr x (by simp) hx
            rw [if_pos hx]
            simp only [lowerAddr]
            rw [if_neg (by omega)]
          · rw [if_neg hx]
  exact key as none hm (by simp) (Or.inl ha)

theorem memTrap_none {s : State} {pl : Place} {g : Group} {sp : Split} {w : MemWord} {P : Nat → List (Nat × Nat)}
    (h : ∀ k ∈ memKeys sp w, MemOk s pl g sp w k (P k)) : memTrap w (threadsOf s pl g sp w) = none := by
  have hall : ∀ a ∈ threadsOf s pl g sp w, isCanonical a.ea = true ∧ (w.op.aligned = true → a.ea.toNat % w.n = 0)
      ∧ ∃ ps, a.chk = .ok (.mem ps) := by
    intro a ha
    obtain ⟨k, hk, rfl⟩ := List.mem_map.mp ha
    exact ⟨(h k hk).canon, (h k hk).align, _, (h k hk).check⟩
  unfold memTrap
  have h1 : lowestAddr (fun a => !isCanonical a.ea) (threadsOf s pl g sp w) = none :=
    lowestAddr_none fun a ha => by simp [(hall a ha).1]
  have h2 : lowestAddr (fun a => w.op.aligned && a.ea.toNat % w.n != 0) (threadsOf s pl g sp w) = none := by
    refine lowestAddr_none fun a ha => ?_
    cases hw : w.op.aligned with
    | false => simp
    | true => simp [(hall a ha).2.1 hw]
  rw [h1, h2]
  simp only
  rw [List.findSome?_eq_none_iff]
  intro a ha
  obtain ⟨ps, hp⟩ := (hall a ha).2.2
  rw [hp]

/-- A memory word whose threads may all access memory runs them in order from the access state. -/
theorem memWord_eq {s : State} {pl : Place} {g : Group} {sp : Split} {w : MemWord} {P : Nat → List (Nat × Nat)} (h : Hd)
    (hs : Issues s pl g sp) (hr : MemReady s pl g sp w) (hk : ∀ k ∈ memKeys sp w, MemOk s pl g sp w k (P k)) :
    memWord s h w = .next (memEnd h pl w true (memOcc sp w) (lowestAbsent (threadsOf s pl g sp w)) sp
      ((threadsOf s pl g sp w).foldl (memThread pl w)
        { s := accessState s pl g sp w, vals := [], waits := [], left := [], watch := none, wrote := [], stop := none })) := by
  have hocc : (if issueMode w.srcs w.dst = .uniform then 1 else Nat.max 1 (memKeys sp w).length) = memOcc sp w := by
    unfold memOcc memKeys perThreadOcc
    split
    · rfl
    · simp [hr.fresh]
  have hq : (w.op == .st && (threadsOf s pl g sp w).all fun a => !a.chk.isWin) = decide (w.op = .st) := by
    have : (threadsOf s pl g sp w).all (fun a => !a.chk.isWin) = true := by
      rw [List.all_eq_true]
      intro a ha
      obtain ⟨k, hk', rfl⟩ := List.mem_map.mp ha
      simp only [show checkAcc s pl.core g w.op w.b.val w.n (w.ea g (readOp g sp s.free (.int 64) k w.x)) = .ok (.mem (P k)) from (hk k hk').check]
      rfl
    rw [this, Bool.and_true]
    by_cases e : w.op = .st <;> simp [e]
  have hm := memTrap_none hk
  unfold threadsOf at hm hq ⊢
  simp only [memWord, issue_eq hs, hr.form, hr.fresh, hr.hazard, hr.tender, hr.held, hr.trb, Option.isNone_none, if_true, hm,
    Option.isSome_none, Bool.false_and, Bool.false_eq_true, if_false, tenderNeeds, Bool.or_false]
  simp only [hq, decide_eq_true_eq, hocc]
  unfold accessState
  by_cases e : w.op = .st
  · rw [if_pos e]
  · rw [if_neg e]

/-- A word that writes nothing leaves no mark for the group's tenders. -/
theorem noteWrites_nil (k : Core) (slot : Nat) (g : Group) : noteWrites k slot [] g = g := by
  have h : ∀ l : List Nat, (l.flatMap fun _ => ([] : List (Nat × Nat))) = [] := fun l => by
    induction l with
    | nil => rfl
    | cons a r ih => rw [List.flatMap_cons, ih]; rfl
  simp only [noteWrites, List.map_nil]
  rw [h, List.append_nil]

/-- The end of a word whose threads are all done. -/
theorem memEnd_spec {t : State} {pl : Place} {g : Group} {sp : Split} {w : MemWord} {vs : List (Nat × Word)} {ks : List Nat}
    (h : Hd) (occ : Nat) (lo : Option Word) (ht : t.turn = some pl) (hg : groupAt t pl.core pl.slot = some g) (hc : Calm g) :
    Wrote t (memEnd h pl w true occ lo sp
      { s := t, vals := vs, waits := [], left := [], watch := none, wrote := ks, stop := none }) pl
      (noteWrites (coreOf t pl.core) pl.slot ks g) sp h occ w.dst (vs.map (·.1)) (fun _ => none) 0 (owedBy pl w.dst vs) := by
  let dl := deliverMem g sp pl.split w.dst vs
  have e : memEnd h pl w true occ lo sp
        { s := t, vals := vs, waits := [], left := [], watch := none, wrote := ks, stop := none }
      = finish t pl (noteWrites (coreOf t pl.core) pl.slot ks { dl.1 with watch := lowerAddr dl.1.watch none }) dl.2 h occ := by
    simp only [memEnd, hg, List.isEmpty_nil, if_true]
    rfl
  rw [e]
  refine (wrote_finish (s1 := t) (g := noteWrites (coreOf t pl.core) pl.slot ks g) ht ⟨hc.watch, hc.step⟩ (Rest.refl t pl) rfl rfl
    ?_).1
  have hr : ∀ g1 : Group, g1.vregs = g.vregs → g1.gregs = g.gregs → g1.pregs = g.pregs →
      ∀ sp1 : Split, sp1.run.oregs = sp.run.oregs → ∀ o k, isReg o = true →
      regNow g1 sp1 (.int 64) k o = if o = w.dst ∧ o ≠ .p 0 then regNow g sp (.int 64) k o else regNow g sp (.int 64) k o := by
    intro g1 h1 h2 h3 sp1 h4 o k ho
    have : regNow g1 sp1 (.int 64) k o = regNow g sp (.int 64) k o := by
      cases o with
      | v _ => simp [regNow, h1]
      | g _ => simp [regNow, h2]
      | o _ => simp [regNow, h4]
      | p _ => simp [regNow, h3]
      | _ => simp [isReg] at ho
    split <;> exact this
  have hw : g.watch = none := hc.watch
  simp only [dl, deliverMem, owedBy]
  split
  · refine ⟨?_, rfl, rfl, by simp [noteWrites], rfl, rfl, rfl, rfl, rfl, fun o k _ ho => hr _ rfl rfl rfl _ rfl o k ho⟩
    simp only [frameGroup, hw, lowerAddr, noteWrites]
  · refine ⟨?_, rfl, rfl, by simp [noteWrites], by simp [noteWrites], rfl, rfl, rfl, rfl,
      fun o k _ ho => hr _ rfl rfl rfl _ rfl o k ho⟩
    simp only [frameGroup, hw, lowerAddr, noteWrites]

/-! ### The access state -/

theorem reads_noteWalk (s : State) (c part : Nat) (va : Word) : Reads s (noteWalk s c part va) := by
  unfold noteWalk
  split
  · exact Reads.refl s
  · split
    · dsimp only
      split
      · exact Reads.refl s
      · exact reads_setCore s c _ rfl
    · exact Reads.refl s

theorem reads_noteWalks (s : State) (c part : Nat) (as : List ThreadAcc) : Reads s (noteWalks s c part as) := by
  unfold noteWalks
  induction as generalizing s with
  | nil => exact Reads.refl s
  | cons a r ih => exact (reads_noteWalk s c part a.ea).trans (ih _)

theorem accessState_turn (s : State) (pl : Place) (g : Group) (sp : Split) (w : MemWord) :
    (accessState s pl g sp w).turn = s.turn := by
  unfold accessState
  dsimp only
  split
  · exact (reads_noteWalks ..).turn
  · rw [stable_turn.drainPend]
    exact (reads_noteWalks ..).turn

theorem watchHit_congr {s t : State} (h : t.parts = s.parts) (part : Nat) (op : MemOp) (ea : Word) (n : Nat) :
    watchHit t part op ea n = watchHit s part op ea n := by
  unfold watchHit
  rw [show partOf t part = partOf s part by simp only [partOf, h]]

theorem accConflict_congr {s t : State} {pl : Place} (h : (coreOf t pl.core).slips = (coreOf s pl.core).slips) {g g' : Group}
    (hg : g'.isTender = g.isTender) (op : MemOp) (ea : Word) (n : Nat) :
    accConflict t pl g' op ea n = accConflict s pl g op ea n := by
  simp only [accConflict, h, slipSlot, hg]

theorem anyPoisoned_congr {s t : State} (h : t.poison = s.poison) (loc n : Nat) : anyPoisoned t loc n = anyPoisoned s loc n := by
  unfold anyPoisoned isPoisoned
  rw [h]

theorem isPoisoned_congr {s t : State} (h : t.poison = s.poison) (loc : Nat) : isPoisoned t loc = isPoisoned s loc := by
  simp only [isPoisoned, h]

theorem mem_threadsOf {s : State} {pl : Place} {g : Group} {sp : Split} {w : MemWord} :
    threadsOf s pl g sp w = (memKeys sp w).map fun k =>
      { t := k, ea := addrOf s g sp w k, chk := checkAcc s pl.core g w.op w.b.val w.n (addrOf s g sp w k),
        v := dataOf s g sp w k, v2 := nextOf s g sp w k } := rfl

/-! ### Loads -/

/-- The words that load. -/
theorem loads_spec {i : Instr} {h : Hd} {w : MemWord} {sg : Bool} (hw : w.op = .ld sg)
    (hn : w.n = 1 ∨ w.n = 2 ∨ w.n = 4 ∨ w.n = 8) (hi : ∀ s, exec i s = memWord s h w) : Loads i h w sg := by
  intro s pl g sp g0 P hs hr hk hg hc hp
  let s0 := accessState s pl g sp w
  let V : ThreadAcc → Nat × Word := fun a => (a.t, extended sg w.n (piecesAt (memByte s0) (P a.t)))
  let all := threadsOf s pl g sp w
  have hd : w.dst = w.t := by simp [MemWord.dst, hw, MemOp.writesT]
  obtain ⟨t, vs, ks, e, ⟨h1, h2, h3⟩, hks⟩ := memFold (pl := pl) (w := w)
    (fun rest st vals => Reads s0 st ∧ Coherent st pl.core ∧ vals ++ rest.map V = all.map V ∧ ∀ a ∈ rest, a ∈ all)
    (by
      rintro a rest st vals ⟨hrd, hco, hv, hm⟩
      obtain ⟨k, hk', e⟩ := List.mem_map.mp (hm a (by simp))
      have hok := hk k hk'
      have ha : a.t = k ∧ a.ea = addrOf s g sp w k ∧ a.chk = .ok (.mem (P k)) := by
        rw [← e]; exact ⟨rfl, rfl, hok.check⟩
      have hgr : groupAt st pl.core pl.slot = some g0 := (hrd.slots ..).trans hg.group
      obtain ⟨hs1, hs2⟩ := hok.slips g0 hg.group
      obtain ⟨l1, l2, l3⟩ := loadPieces_spec st pl.core g0.part (P k) hco fun p hp' =>
        checkAcc_line (by rcases hn with h | h | h | h <;> omega) hok.check hp'
      have hnp : (P k).any (readsPoison st pl.core) = false := by
        rw [List.any_eq_false]
        intro p hp'
        unfold readsPoison
        rw [anyPoisoned_congr hrd.poison, (hp k hk' p hp').2]
        simp
      have hb : memByte st = memByte s0 := funext hrd.served.bytes
      refine ⟨P k, g0, (loadPieces st pl.core g0.part (P k)).2, some (V a).2, ha.2.2, hgr, ?_, ?_, ?_, hrd.trans l2, l3, ?_,
        fun a' h' => hm a' (by simp [h'])⟩
      · rw [watchHit_congr hrd.parts, ha.2.1]; exact hs2
      · rw [accConflict_congr (hrd.slips _) rfl, ha.2.1]; exact hs1
      · simp only [performOne, hgr, hg.tender, performMem, hw, hnp, Bool.false_eq_true, if_false]
        simp only [l1, V, ha.1, hb]
        rw [extendLoad_eq sg w.n _ hn]
      · dsimp only
        rw [← hv]
        simp [V])
    all s0 [] [] ⟨Reads.refl _, hc, by simp, fun _ h => h⟩
  have hx := memWord_eq h hs hr hk
  rw [show threadsOf s pl g sp w = all from rfl, show accessState s pl g sp w = s0 from rfl, e] at hx
  have ht : t.turn = some pl := h1.turn.trans ((accessState_turn ..).trans hs.turn)
  have hgr : groupAt t pl.core pl.slot = some g0 := (h1.slots ..).trans hg.group
  refine ⟨t, _, (hi s).trans hx, h1.served, ?_⟩
  have he := memEnd_spec (w := w) (sp := sp) (vs := vs) (ks := ks) h (memOcc sp w) (lowestAbsent all) ht hgr hg.calm
  rw [hd] at he
  rw [hks (by rw [hw]; rfl), noteWrites_nil] at he
  have hvs : vs = readVals (memByte s0) sp w sg P := by
    have h3 : vs = all.map V := by simpa using h3.1
    rw [h3]
    simp [all, V, readVals, mem_threadsOf, Function.comp_def]
  have hkeys : vs.map (·.1) = memKeys sp w := by rw [hvs]; simp [readVals, Function.comp_def]
  rw [hkeys, hvs] at he
  rw [hvs, hks (by rw [hw]; rfl)]
  exact he

/-! ### Full words and conditions -/

/-- The words that read full words. -/
theorem readsFull_spec {i : Instr} {h : Hd} {w : MemWord} (hw : w.op = .frd) (hi : ∀ s, exec i s = memWord s h w) :
    ReadsFull i h w := by
  intro s pl g sp g0 P hs hr hk hg hp hfull
  let s0 := accessState s pl g sp w
  let V : ThreadAcc → Nat × Word := fun a => (a.t, BitVec.ofNat 64 (bytesAt (memByte s0) (placeOf P a.t) 8))
  let all := threadsOf s pl g sp w
  have hd : w.dst = w.t := by simp [MemWord.dst, hw, MemOp.writesT]
  obtain ⟨t, vs, ks, e, ⟨h1, h3⟩, hks⟩ := memFold (pl := pl) (w := w)
    (fun rest st vals => Reads s0 st ∧ vals ++ rest.map V = all.map V ∧ ∀ a ∈ rest, a ∈ all)
    (by
      rintro a rest st vals ⟨hrd, hv, hm⟩
      obtain ⟨k, hk', e⟩ := List.mem_map.mp (hm a (by simp))
      have hok := hk k hk'
      have ha : a.t = k ∧ a.ea = addrOf s g sp w k ∧ a.chk = .ok (.mem (P k)) := by
        rw [← e]; exact ⟨rfl, rfl, hok.check⟩
      have hgr : groupAt st pl.core pl.slot = some g0 := (hrd.slots ..).trans hg.group
      obtain ⟨hs1, hs2⟩ := hok.slips g0 hg.group
      obtain ⟨l1, l2, -⟩ := loadHome_spec st pl.core g0.part (placeOf P k) 8
      have hnp : isPoisoned st (placeOf P k) = false := by
        rw [isPoisoned_congr hrd.poison]
        unfold placeOf
        cases hps : P k with
        | nil => exact absurd (hps ▸ hok.check) checkAcc_nonempty
        | cons q r => exact (hp k hk' q (by rw [hps]; simp)).1
      have hfl : isFull st (placeOf P k) = true := by
        have := hfull k hk'
        unfold isFull at this ⊢
        rw [hrd.full]; exact this
      have hb : memByte st = memByte s0 := funext hrd.served.bytes
      refine ⟨P k, g0, (loadHome st pl.core g0.part (placeOf P k) 8).2, some (V a).2, ha.2.2, hgr, ?_, ?_, ?_, hrd.trans l2, ?_,
        fun a' h' => hm a' (by simp [h'])⟩
      · rw [watchHit_congr hrd.parts, ha.2.1]; exact hs2
      · rw [accConflict_congr (hrd.slips _) rfl, ha.2.1]; exact hs1
      · unfold placeOf at hfl hnp l1 ⊢
        simp only [performOne, hgr, hg.tender, performMem, hw, hfl, hnp, Bool.not_true, Bool.false_eq_true, if_false]
        simp only [l1, V, ha.1, hb]
        rfl
      · dsimp only
        rw [← hv]
        simp [V])
    all s0 [] [] ⟨Reads.refl _, by simp, fun _ h => h⟩
  have hx := memWord_eq h hs hr hk
  rw [show threadsOf s pl g sp w = all from rfl, show accessState s pl g sp w = s0 from rfl, e] at hx
  have ht : t.turn = some pl := h1.turn.trans ((accessState_turn ..).trans hs.turn)
  have hgr : groupAt t pl.core pl.slot = some g0 := (h1.slots ..).trans hg.group
  refine ⟨t, _, (hi s).trans hx, h1.served, ?_⟩
  have he := memEnd_spec (w := w) (sp := sp) (vs := vs) (ks := ks) h (memOcc sp w) (lowestAbsent all) ht hgr hg.calm
  rw [hd] at he
  rw [hks (by rw [hw]; rfl), noteWrites_nil] at he
  have hvs : vs = (memKeys sp w).map fun k => (k, BitVec.ofNat 64 (bytesAt (memByte s0) (placeOf P k) 8)) := by
    have h3 : vs = all.map V := by simpa using h3.1
    rw [h3]
    simp [all, V, mem_threadsOf, Function.comp_def]
  have hkeys : vs.map (·.1) = memKeys sp w := by rw [hvs]; simp [Function.comp_def]
  rw [hkeys, hvs] at he
  rw [hvs, hks (by rw [hw]; rfl)]
  exact he

/-- A condition of WAITM, as a claim speaks of it. -/
theorem condHolds_eq (c : WCond) (n x : Nat) (v : Word) (hn : n = 4 ∨ n = 8) (hx : x < 2 ^ (8 * n)) :
    condHolds c n x v.toNat = waitHolds c n x v := by
  have hi : ∀ y : Nat, intOf (8 * n) true y = (BitVec.ofNat (8 * n) y).toInt := by
    intro y
    unfold intOf
    rw [BitVec.toInt_eq_toNat_cond, BitVec.toNat_ofNat]
    rcases hn with rfl | rfl <;> simp only [Nat.reduceMul, Nat.reducePow, Nat.reduceSub, Bool.true_and, decide_eq_true_eq] <;>
      split <;> split <;> first | rfl | omega
  have hb : BitVec.ofNat (8 * n) (v.toNat % 2 ^ (8 * n)) = v.setWidth (8 * n) := by
    apply BitVec.eq_of_toNat_eq; simp
  have ha : (BitVec.ofNat (8 * n) x).toNat = x := by rw [BitVec.toNat_ofNat, Nat.mod_eq_of_lt hx]
  have hbn : (v.setWidth (8 * n)).toNat = v.toNat % 2 ^ (8 * n) := BitVec.toNat_setWidth ..
  have hand : (BitVec.ofNat (8 * n) x &&& v.setWidth (8 * n) = 0) ↔ x &&& (v.toNat % 2 ^ (8 * n)) = 0 := by
    rw [← BitVec.toNat_inj, BitVec.toNat_and, ha, hbn]; simp
  have heq : (BitVec.ofNat (8 * n) x = v.setWidth (8 * n)) ↔ x = v.toNat % 2 ^ (8 * n) := by
    rw [← BitVec.toNat_inj, ha, hbn]
  unfold condHolds waitHolds
  dsimp only
  cases c <;> dsimp only
  · simp only [heq]; rw [Bool.eq_iff_iff]; simp
  · simp only [ne_eq, heq]; rw [Bool.eq_iff_iff]; simp
  · rw [ha, hbn]
  · rw [ha, hbn]
  · rw [hi, hi, hb]
  · rw [hi, hi, hb]
  · simp only [ne_eq, hand]; rw [Bool.eq_iff_iff]; simp
  · simp only [hand]; rw [Bool.eq_iff_iff]; simp

theorem bytesAt_lt (m : Nat → Byte) (loc n : Nat) : bytesAt m loc n < 2 ^ (8 * n) := by
  induction n generalizing loc with
  | zero => simp [bytesAt]
  | succ n ih =>
    have h1 := ih (loc + 1)
    have h2 := (m loc).isLt
    simp only [bytesAt]
    have e : 2 ^ (8 * (n + 1)) = 256 * 2 ^ (8 * n) := by rw [Nat.mul_add, Nat.pow_add]; omega
    rw [e]
    omega

/-- WAITM where its condition holds. -/
theorem passesWhen_spec {i : Instr} {h : Hd} {w : MemWord} {c : WCond} (hw : w.op = .waitm c) (hn : w.n = 4 ∨ w.n = 8)
    (hi : ∀ s, exec i s = memWord s h w) : PassesWhen i h w c := by
  intro s pl g sp g0 P hs hr hk hone hg hc hp hcond
  let s0 := accessState s pl g sp w
  let all := threadsOf s pl g sp w
  have hd : w.dst = .z := by simp [MemWord.dst, hw, MemOp.writesT]
  obtain ⟨t, vs, ks, e, ⟨h1, h2, h3, -⟩, hks⟩ := memFold (pl := pl) (w := w)
    (fun rest st vals => Reads s0 st ∧ Coherent st pl.core ∧ vals = [] ∧ ∀ a ∈ rest, a ∈ all)
    (by
      rintro a rest st vals ⟨hrd, hco, hv, hm⟩
      obtain ⟨k, hk', e⟩ := List.mem_map.mp (hm a (by simp))
      have hok := hk k hk'
      have ha : a.t = k ∧ a.ea = addrOf s g sp w k ∧ a.chk = .ok (.mem (P k)) ∧ a.v = dataOf s g sp w k := by
        rw [← e]; exact ⟨rfl, rfl, hok.check, rfl⟩
      have hgr : groupAt st pl.core pl.slot = some g0 := (hrd.slots ..).trans hg.group
      obtain ⟨hs1, hs2⟩ := hok.slips g0 hg.group
      have hal := hok.align (by rw [hw]; rfl)
      obtain ⟨q, r, hps⟩ : ∃ q r, P k = q :: r := by
        cases hps : P k with
        | nil => exact absurd (hps ▸ hok.check) checkAcc_nonempty
        | cons q r => exact ⟨q, r, rfl⟩
      have hpl : placeOf P k = q.1 := by simp [placeOf, hps]
      have hline : placeOf P k % 128 + w.n ≤ 128 :=
        checkAcc_line (by rcases hn with h | h <;> omega) hok.check (p := (placeOf P k, w.n)) (by rw [hone k hk']; simp)
      obtain ⟨l1, l2, l3⟩ := loadAt_spec st pl.core g0.part (placeOf P k) w.n hco hline
      have hnp : readsPoison st pl.core (placeOf P k, w.n) = false := by
        unfold readsPoison
        rw [anyPoisoned_congr hrd.poison, (hp k hk' (placeOf P k, w.n) (by rw [hone k hk']; simp)).2]
        simp
      have hb : memByte st = memByte s0 := funext hrd.served.bytes
      have hcd : condHolds c w.n (bytesAt (memByte s0) (placeOf P k) w.n) a.v.toNat = true := by
        rw [condHolds_eq c w.n _ _ hn (bytesAt_lt ..), ha.2.2.2]
        exact hcond k hk'
      refine ⟨P k, g0, (loadAt st pl.core g0.part (placeOf P k) w.n).2, none, ha.2.2.1, hgr, ?_, ?_, ?_, hrd.trans l2, l3, hv,
        fun a' h' => hm a' (by simp [h'])⟩
      · rw [watchHit_congr hrd.parts, ha.2.1]; exact hs2
      · rw [accConflict_congr (hrd.slips _) rfl, ha.2.1]; exact hs1
      · unfold placeOf at hnp l1 hcd ⊢
        simp only [performOne, hgr, hg.tender, performMem, hw, hnp, Bool.false_eq_true, if_false]
        simp only [l1, hb, hcd, if_true])
    all s0 [] [] ⟨Reads.refl _, hc, rfl, fun _ h => h⟩
  have hx := memWord_eq h hs hr hk
  rw [show threadsOf s pl g sp w = all from rfl, show accessState s pl g sp w = s0 from rfl, e] at hx
  have ht : t.turn = some pl := h1.turn.trans ((accessState_turn ..).trans hs.turn)
  have hgr : groupAt t pl.core pl.slot = some g0 := (h1.slots ..).trans hg.group
  refine ⟨t, _, (hi s).trans hx, h1.served, ?_⟩
  have he := memEnd_spec (w := w) (sp := sp) (vs := vs) (ks := ks) h (memOcc sp w) (lowestAbsent all) ht hgr hg.calm
  rw [hd, h3] at he
  rw [hks (by rw [hw]; rfl), noteWrites_nil] at he
  rw [h3, hks (by rw [hw]; rfl)]
  exact he

/-! ### Accesses that are performed later -/

/-- The group with more accesses to be performed. -/
def withPend (g : Group) (l : List PendAcc) : Group := { g with pend := g.pend ++ l }

/-- What stays while threads only add accesses to their group's list. -/
structure Adds (s t : State) (pl : Place) : Prop where
  rest   : Rest s t pl
  turn   : t.turn = s.turn
  clock  : t.clock = s.clock
  parts  : t.parts = s.parts
  poison : t.poison = s.poison
  slips  : (coreOf t pl.core).slips = (coreOf s pl.core).slips
  notes  : ∀ ks g, noteWrites (coreOf t pl.core) pl.slot ks g = noteWrites (coreOf s pl.core) pl.slot ks g

theorem Adds.refl (s : State) (pl : Place) : Adds s s pl := ⟨Rest.refl s pl, rfl, rfl, rfl, rfl, rfl, fun _ _ => rfl⟩

/-- A table's selection does not see an entry that it selects neither before nor after. -/
theorem filter_put {α : Type} (p : Nat × α → Bool) (k : Nat) (x : α) (hx : p (k, x) = false) :
    ∀ t : Tab α, (∀ y, tabFind k t = some y → p (k, y) = false) → (tabPut k x t).filter p = t.filter p
  | [], _ => by simp [tabPut, hx]
  | (j, y) :: r, hy => by
    unfold tabPut
    split
    · simp [hx]
    · split
      · next e => subst e; simp [hx, hy y (by simp [tabFind])]
      · next e =>
        have := filter_put p k x hx r fun z hz => hy z (by simp [tabFind, e, hz])
        simp only [List.filter_cons, this]

/-- A change of a group that is no tender leaves the marks for tenders where they were. -/
theorem noteWrites_put (k : Core) (slot : Nat) {g g' : Group} (hg : tabFind slot k.slots = some g) (h : g.isTender = none)
    (h' : g'.isTender = none) (ks : List Nat) (u : Group) :
    noteWrites { k with slots := tabPut slot g' k.slots } slot ks u = noteWrites k slot ks u := by
  have e1 : tendersOf { k with slots := tabPut slot g' k.slots } slot = tendersOf k slot := by
    unfold tendersOf
    rw [filter_put _ slot g' (by simp [h']) k.slots fun y hy => by rw [hg] at hy; cases hy; simp [h]]
  have e2 : ∀ n, tabFind n (tabPut slot g' k.slots) = tabFind n k.slots ∨ n = slot := fun n => by
    by_cases e : n = slot
    · exact .inr e
    · exact .inl (tabFind_put_ne e)
  simp only [noteWrites, e1]
  congr 3
  refine List.filterMap_congr fun n _ => ?_
  rcases e2 n with e | rfl
  · rw [e]
  · simp [tabFind_put_self, hg, h, h']

theorem adds_addPend {s t : State} {pl : Place} (h : Adds s t pl) (ht : ∀ g, groupAt t pl.core pl.slot = some g → g.isTender = none)
    (as : List PendAcc) : Adds s (addPend t pl.core pl.slot as) pl := by
  unfold addPend
  split
  · next g hg =>
    refine ⟨h.rest.trans (rest_setGroup pl _), h.turn, h.clock, h.parts, h.poison, ?_, fun ks u => ?_⟩
    · rw [coreOf_setGroup, if_pos rfl]
      exact h.slips
    · rw [coreOf_setGroup, if_pos rfl, noteWrites_put _ _ hg (ht g hg) (by exact ht g hg)]
      exact h.notes ks u
  · exact h

/-- The words that queue accesses. -/
theorem queues_spec {i : Instr} {h : Hd} {w : MemWord}
    {acc : State → Group → Split → (Nat → List (Nat × Nat)) → Nat → List PendAcc} (hd : w.dst = .z)
    (hi : ∀ s, exec i s = memWord s h w)
    (hp : ∀ s st pl g gt sp P k, gt.isTender = none → (∀ p ∈ P k, isPoisoned st p.1 = false) → checkAcc s pl.core g w.op w.b.val w.n
      (addrOf s g sp w k) = .ok (.mem (P k)) → performMem st pl gt w (addrOf s g sp w k) (P k) (dataOf s g sp w k)
        (nextOf s g sp w k) = .done (addPend st pl.core pl.slot (acc s g sp P k)) none) : Queues i h w acc := by
  intro s pl g sp g0 P hs hr hk hg hnp
  let s0 := accessState s pl g sp w
  let all := threadsOf s pl g sp w
  let A : ThreadAcc → List PendAcc := fun a => acc s g sp P a.t
  obtain ⟨t, vs, ks, e, ⟨⟨l, hgl, hl, had, hv⟩, -⟩, -⟩ := memFold (pl := pl) (w := w)
    (fun rest st vals => (∃ l, groupAt st pl.core pl.slot = some (withPend g0 l) ∧ l ++ rest.flatMap A = all.flatMap A
      ∧ Adds s0 st pl ∧ vals = []) ∧ ∀ a ∈ rest, a ∈ all)
    (by
      rintro a rest st vals ⟨⟨l, hgr, hl, had, hv⟩, hm⟩
      obtain ⟨k, hk', e⟩ := List.mem_map.mp (hm a (by simp))
      have hok := hk k hk'
      have ha : a.t = k ∧ a.ea = addrOf s g sp w k ∧ a.chk = .ok (.mem (P k)) ∧ a.v = dataOf s g sp w k
          ∧ a.v2 = nextOf s g sp w k := by
        rw [← e]; exact ⟨rfl, rfl, hok.check, rfl, rfl⟩
      obtain ⟨hs1, hs2⟩ := hok.slips g0 hg.group
      have hpt := hp s st pl g (withPend g0 l) sp P k hg.tender
        (fun p hp' => by rw [isPoisoned_congr had.poison]; exact (hnp k hk' p hp').1) hok.check
      refine ⟨P k, withPend g0 l, addPend st pl.core pl.slot (acc s g sp P k), none, ha.2.2.1, hgr, ?_, ?_, ?_,
        ⟨l ++ A a, ?_, ?_, adds_addPend had (fun g' hg' => by rw [hgr] at hg'; cases hg'; exact hg.tender) _, hv⟩,
        fun a' h' => hm a' (by simp [h'])⟩
      · rw [watchHit_congr had.parts, ha.2.1]; exact hs2
      · rw [accConflict_congr (g := g0) (g' := withPend g0 l) had.slips rfl, ha.2.1]; exact hs1
      · simp only [performOne, hgr, show (withPend g0 l).isTender = none from hg.tender, ha.2.1, ha.2.2.2.1, ha.2.2.2.2]
        exact hpt
      · unfold addPend
        rw [hgr]
        simp [withPend, A, ha.1]
      · rw [← hl]
        simp)
    all s0 [] [] ⟨⟨[], by simpa [withPend] using hg.group, by simp, Adds.refl _ _, rfl⟩, fun _ h => h⟩
  have hx := memWord_eq h hs hr hk
  rw [show threadsOf s pl g sp w = all from rfl, show accessState s pl g sp w = s0 from rfl, e] at hx
  have ht : t.turn = some pl := had.turn.trans ((accessState_turn ..).trans hs.turn)
  refine ⟨_, ks, (hi s).trans hx, ?_⟩
  have hc : Calm (withPend g0 l) := ⟨hg.calm.watch, hg.calm.step⟩
  have he := memEnd_spec (w := w) (sp := sp) (vs := vs) (ks := ks) h (memOcc sp w) (lowestAbsent all) ht hgl hc
  have hl' : l = (memKeys sp w).flatMap (acc s g sp P) := by
    have : l = all.flatMap A := by simpa using hl
    rw [this]
    simp [all, A, mem_threadsOf, List.flatMap_map]
  rw [hd, hv] at he
  rw [hv]
  rw [show ({ g0 with pend := g0.pend ++ (memKeys sp w).flatMap (acc s g sp P) } : Group) = withPend g0 l by rw [← hl']; rfl,
    ← had.notes]
  refine ⟨had.rest.trans he.rest, ?_⟩
  obtain ⟨g', sp', hw, hwr, hf, hres, hlc⟩ := he.went
  exact ⟨g', sp', { hw with time := by rw [hw.time, had.clock] }, hwr, hf, hres, hlc⟩

/-! ### Atomics -/

theorem noWaiters_wakeAll {s : State} (h : NoWaiters s) (p : Waiter → Bool) : wakeAll s p = s := by
  unfold wakeAll
  have key : ∀ (l : Tab Core), (∀ q ∈ l, q.2.room = []) → ∀ s : State,
      l.foldl (fun s c => (c.2.room.filter p).foldl (fun s w => wakeOne s c.1 w) s) s = s := by
    intro l
    induction l with
    | nil => intro _ s; rfl
    | cons a r ih =>
      intro hl s
      rw [List.foldl_cons, hl a (by simp)]
      exact ih (fun q hq => hl q (by simp [hq])) s
  exact key _ h s

theorem noWaiters_reads {s t : State} (h : NoWaiters s) (c : Nat) (k : Core) (hk : k.room = []) (ht : t = setCore s c k) :
    NoWaiters t := by
  subst ht
  intro p hp
  rcases mem_put hp with rfl | hp
  · exact hk
  · exact h p hp

theorem room_coreOf {s : State} (h : NoWaiters s) (c : Nat) : (coreOf s c).room = [] := by
  unfold coreOf tabGet
  cases hf : tabFind c s.cores with
  | none => rfl
  | some k => exact h _ (mem_of_find hf)

/-- A package whose bytes have changed is otherwise as accesses leave it. -/
structure Writ (s t : State) : Prop where
  rest  : quietMem t = quietMem s
  cores : ∀ c, quietCache (coreOf t c) = quietCache (coreOf s c)
  none  : NoWaiters t

theorem quietMem_memWrite (s : State) (loc n x : Nat) : quietMem (memWrite s loc n x) = quietMem s
    ∧ (memWrite s loc n x).cores = s.cores := by
  induction n generalizing s loc x with
  | zero => exact ⟨rfl, rfl⟩
  | succ n ih => exact ih ..

theorem writ_setCoreTime {s : State} (h : NoWaiters s) (c t : Nat) : Writ s (setCoreTime s c t) :=
  ⟨rfl, (reads_setCoreTime s c t).served.cores, noWaiters_reads h c _ (by exact room_coreOf h c) rfl⟩

theorem Writ.trans {s t u : State} (h : Writ s t) (k : Writ t u) : Writ s u :=
  ⟨k.rest.trans h.rest, fun c => (k.cores c).trans (h.cores c), k.none⟩

theorem writ_refreshL1 {s : State} (h : NoWaiters s) (c loc w ts : Nat) : Writ s (refreshL1 s c loc w ts) := by
  unfold refreshL1
  dsimp only
  split
  · have e := (reads_setCore s c
      { coreOf s c with l1 := tabPut (loc / 128) ⟨lineData s (loc / 128), w, ts⟩ (coreOf s c).l1 } rfl).served.cores
    exact ⟨rfl, e, noWaiters_reads h c _ (by exact room_coreOf h c) rfl⟩
  · exact ⟨rfl, fun _ => rfl, h⟩

theorem Writ.stamp {s s1 : State} (h1 : Writ s s1) (c loc w ts : Nat) :
    Writ s (setCoreTime (refreshL1 s1 c loc w ts) c ts) := by
  have h2 := writ_refreshL1 h1.none c loc w ts
  exact (h1.trans h2).trans (writ_setCoreTime h2.none c ts)

theorem writ_setLine {s : State} (h : NoWaiters s) (loc w l : Nat) : Writ s (setLine s loc w l) := ⟨rfl, fun _ => rfl, h⟩

theorem writ_setRows {s : State} (h : NoWaiters s) (loc n : Nat) (f : Nat × Nat → Nat × Nat) : Writ s (setRows s loc n f) :=
  have hr := (reads_setRows s loc n f).served
  ⟨hr.rest, hr.cores, fun p hp => h p (by rwa [setRows_cores] at hp)⟩

theorem writ_storeAt {s : State} (h : NoWaiters s) (c loc n x : Nat) : Writ s (storeAt s c loc n x) := by
  have h0 : Writ s (memWrite s loc n x) :=
    ⟨(quietMem_memWrite ..).1, fun c => by simp only [coreOf, (quietMem_memWrite s loc n x).2],
      fun p hp => h p (by rw [← (quietMem_memWrite s loc n x).2]; exact hp)⟩
  have h1 : Writ s (stampStore (memWrite s loc n x) c loc n) := h0.trans ((writ_setRows h0.none ..).stamp ..)
  unfold storeAt wakeWaitm
  rw [noWaiters_wakeAll h1.none]
  exact h1

/-- One atomic. -/
theorem atomicAt_spec {s : State} (h : NoWaiters s) (c loc op n v w : Nat) :
    Writ s (atomicAt s c loc op n v w).2
      ∧ ∀ a, memByte (atomicAt s c loc op n v w).2 a
        = if (atomicNew op n (bytesAt (memByte s) loc n) v w).2 then
            writeBytes (memByte s) loc n (atomicNew op n (bytesAt (memByte s) loc n) v w).1 a
          else memByte s a := by
  rw [← memRead_bytesAt]
  unfold atomicAt
  dsimp only
  split
  · refine ⟨writ_storeAt h .., fun a => ?_⟩
    have := storeAt_mem s c loc n (atomicNew op n (memRead s loc n) v w).1
    unfold memByte
    rw [this]
    exact memByte_write ..
  · refine ⟨(writ_setLine h ..).stamp .., fun a => ?_⟩
    have := stable_mem.stampFailed s c loc
    unfold memByte
    rw [show (stampFailed s c loc).mem = s.mem from this]

theorem atomics_keys (n : Nat) (get : Nat → Word → Word → Word) (put : Nat → Word → Word → Option Nat)
    (l : List (Nat × Nat × Word × Word)) (m : Nat → Byte) : (atomics n get put l m).1.map (·.1) = l.map (·.1) := by
  induction l generalizing m with
  | nil => rfl
  | cons a r ih =>
    obtain ⟨k, loc, v, w⟩ := a
    simp only [atomics, List.map_cons]
    rw [ih]

/-- The atomic words with a destination. -/
theorem atomics_spec {i : Instr} {h : Hd} {w : MemWord} {op : Nat} {get : Nat → Word → Word → Word}
    {put : Nat → Word → Word → Option Nat} (hw : w.op = .rmw op) (hi : ∀ s, exec i s = memWord s h w)
    (hget : ∀ m loc v x, atomicOld op w.n (bytesAt m loc w.n) (BitVec.toNat v) = get (bytesAt m loc w.n) v x)
    (hput : ∀ m loc (v x : Word), let r := atomicNew op w.n (bytesAt m loc w.n) v.toNat x.toNat
      (match put (bytesAt m loc w.n) v x with
        | some y => r.2 = true ∧ writeBytes m loc w.n r.1 = writeBytes m loc w.n y
        | none => r.2 = false)) : Atomics i h w get put := by
  intro s pl g sp g0 P hz hs hr hk hg hnp hnw
  let s0 := accessState s pl g sp w
  let all := threadsOf s pl g sp w
  let T : ThreadAcc → Nat × Nat × Word × Word := fun a => (a.t, ((P a.t).headD (0, 0)).1, a.v, a.v2)
  let fin := atomics w.n get put (all.map T) (memByte s0)
  have hd : w.dst = w.t := by simp [MemWord.dst, hw, MemOp.writesT]
  obtain ⟨t, vs, ks, e, ⟨⟨hwr, hg1, hts, hv, hb⟩, -⟩, -⟩ := memFold (pl := pl) (w := w)
    (fun rest st vals => (Writ s0 st ∧ groupAt st pl.core pl.slot = some g0 ∧ (st.turn = s0.turn ∧ st.poison = s0.poison
        ∧ st.parts = s0.parts ∧ (coreOf st pl.core).slips = (coreOf s0 pl.core).slips)
        ∧ vals ++ (atomics w.n get put (rest.map T) (memByte st)).1 = fin.1
        ∧ (atomics w.n get put (rest.map T) (memByte st)).2 = fin.2) ∧ ∀ a ∈ rest, a ∈ all)
    (by
      rintro a rest st vals ⟨⟨hwr, hgr, ⟨htu, hpo, hpa, hsl⟩, hv, hb⟩, hm⟩
      obtain ⟨k, hk', e⟩ := List.mem_map.mp (hm a (by simp))
      have hok := hk k hk'
      have ha : a.t = k ∧ a.ea = addrOf s g sp w k ∧ a.chk = .ok (.mem (P k)) := by
        rw [← e]; exact ⟨rfl, rfl, hok.check⟩
      obtain ⟨hs1, hs2⟩ := hok.slips g0 hg.group
      let loc := ((P k).headD (0, 0)).1
      obtain ⟨a1, a2⟩ := atomicAt_spec hwr.none pl.core loc op w.n a.v.toNat a.v2.toNat
      have hpl : isPoisoned st loc = false := by
        rw [isPoisoned_congr hpo]
        cases hps : P k with
        | nil =>
          exfalso
          have := hok.check
          rw [hps] at this
          exact checkAcc_nonempty this
        | cons q r =>
          have := (hnp k hk' q (by rw [hps]; simp)).1
          simpa [loc, hps] using this
      have hst := fun {α : Type} {f : State → α} (hf : StableMem f) => hf.atomicAt st pl.core loc op w.n a.v.toNat a.v2.toNat
      have hm' : memByte (atomicAt st pl.core loc op w.n a.v.toNat a.v2.toNat).2
          = match put (bytesAt (memByte st) loc w.n) a.v a.v2 with
            | some x => writeBytes (memByte st) loc w.n x
            | none => memByte st := by
        funext b
        rw [a2]
        have := hput (memByte st) loc a.v a.v2
        dsimp only at this
        split at this
        · next hpu => rw [if_pos this.1, this.2]; simp [hpu]
        · next hpu => rw [this]; simp [hpu]
      refine ⟨P k, g0, (atomicAt st pl.core loc op w.n a.v.toNat a.v2.toNat).2,
        some (get (bytesAt (memByte st) loc w.n) a.v a.v2), ha.2.2, hgr, ?_, ?_, ?_, ⟨hwr.trans a1, ?_, ⟨?_, ?_, ?_, ?_⟩, ?_, ?_⟩,
        fun a' h' => hm a' (by simp [h'])⟩
      · rw [watchHit_congr hpa, ha.2.1]; exact hs2
      · rw [accConflict_congr hsl rfl, ha.2.1]; exact hs1
      · simp only [performOne, hgr, hg.tender, performMem, hw]
        rw [show ((P k).headD (0, 0)).1 = loc from rfl, hpl]
        simp only [Bool.false_eq_true, if_false, hz]
        rw [← hget _ _ _ a.v2, ← memRead_bytesAt]
        rfl
      · have h1 := congrArg (·.slots) (a1.cores pl.core)
        have h2 : (coreOf (atomicAt st pl.core loc op w.n a.v.toNat a.v2.toNat).2 pl.core).slots = (coreOf st pl.core).slots := h1
        unfold groupAt at hgr ⊢
        rw [h2]
        exact hgr
      · rw [show (atomicAt st pl.core loc op w.n a.v.toNat a.v2.toNat).2.turn = st.turn from hst stable_turn]; exact htu
      · exact (congrArg (·.poison) a1.rest).trans hpo
      · exact (congrArg (·.parts) a1.rest).trans hpa
      · exact (congrArg (·.slips) (a1.cores pl.core)).trans hsl
      · rw [← hv]
        simp only [List.map_cons, atomics, T, ha.1, List.append_assoc, List.singleton_append]
        rw [hm']
        all_goals rfl
      · rw [← hb]
        simp only [List.map_cons, atomics, T, ha.1]
        rw [hm']
        all_goals rfl)
    all s0 [] [] ⟨⟨⟨rfl, fun _ => rfl, hnw⟩, hg.group, ⟨rfl, rfl, rfl, rfl⟩, by simp [fin], rfl⟩, fun _ h => h⟩
  have hx := memWord_eq h hs hr hk
  rw [show threadsOf s pl g sp w = all from rfl, show accessState s pl g sp w = s0 from rfl, e] at hx
  have ht : t.turn = some pl := hts.1.trans ((accessState_turn ..).trans hs.turn)
  have hT : all.map T = atomicThreads s g sp w P := by
    simp [all, T, mem_threadsOf, atomicThreads, Function.comp_def]
  have he := memEnd_spec (w := w) (sp := sp) (vs := vs) (ks := ks) h (memOcc sp w) (lowestAbsent all) ht hg1 hg.calm
  refine ⟨t, _, ks, (hi s).trans hx, ⟨fun loc => ?_, hwr.rest, hwr.cores⟩, ?_⟩
  · have h1 : memByte t = fin.2 := by simpa [atomics] using hb
    rw [h1, ← hT]
  · rw [hd] at he
    have h1 : vs = fin.1 := by simpa [atomics] using hv
    rw [← hT, show (atomics w.n get put (all.map T) (memByte (accessState s pl g sp w))).1 = vs from h1.symm]
    have hkeys : vs.map (·.1) = memKeys sp w := by
      rw [h1]
      simp only [fin, atomics_keys, all, mem_threadsOf, T, List.map_map, Function.comp_def, List.map_id']
    rw [hkeys] at he
    exact he

end Sys2Proof.Laws
end

