-- ==== Sys2Proof/Laws/Nest.lean ====
section
/-! SUPPORT. The shape of the level words, and what the model's fields of a mapping are. -/

namespace Sys2Proof.Laws

open Machine Claims

theorem mExt_eq (l : Launch) (lv : Nat) : mExt (maplOf l lv) = (lvExt l lv).toNat := by
  unfold mExt maplOf lvExt levelOf
  simp only [BitVec.extractLsb'_toNat, BitVec.toNat_ushiftRight]
  have := ((l.mapl.getD lv (0, 0)).1 >>> 32).isLt
  have h := (l.mapl.getD lv (0, 0)).1.isLt
  rw [Nat.shiftRight_eq_div_pow]
  omega

theorem mSeq_eq (l : Launch) (lv : Nat) : mSeq (maplOf l lv) = (lvSeq l lv).toNat := by
  unfold mSeq maplOf lvSeq levelOf
  simp only [BitVec.extractLsb'_toNat, BitVec.toNat_ushiftRight]
  have h := (l.mapl.getD lv (0, 0)).2.isLt
  rw [Nat.shiftRight_eq_div_pow]
  omega

theorem mPar_eq (l : Launch) (lv : Nat) : mPar (maplOf l lv) = (lvPar l lv).toNat := by
  unfold mPar maplOf lvPar levelOf
  simp only [BitVec.extractLsb'_toNat, BitVec.toNat_and, BitVec.toNat_ushiftRight]
  exact (Nat.and_two_pow_sub_one_eq_mod _ 24).symm

theorem mKind_eq (l : Launch) (lv : Nat) : mKind (maplOf l lv) = (lvKind l lv).toNat := by
  unfold mKind maplOf lvKind levelOf
  simp only [BitVec.extractLsb'_toNat, BitVec.toNat_and, Nat.shiftRight_zero]
  exact (Nat.and_two_pow_sub_one_eq_mod _ 2).symm

theorem mBuf_eq (l : Launch) (lv : Nat) : mBuf (maplOf l lv) = (lvBuf l lv).toNat := by
  unfold mBuf maplOf lvBuf levelOf
  simp only [BitVec.extractLsb'_toNat, BitVec.toNat_and, Nat.shiftRight_zero]
  exact (Nat.and_two_pow_sub_one_eq_mod _ 32).symm

theorem pidx_eq (l : Launch) (g : Group) (lv t : Nat) : pidx (mKind (maplOf l lv)) g t = parallel l g lv t := by
  rw [mKind_eq]
  unfold parallel
  have h : ∀ n : Nat, n < 4 → (lvKind l lv = BitVec.ofNat 64 n ↔ (lvKind l lv).toNat = n) := by
    intro n hn
    rw [← BitVec.toNat_inj, BitVec.toNat_ofNat, Nat.mod_eq_of_lt (by omega)]
  have h1 := h 1 (by omega)
  have h2 := h 2 (by omega)
  have h3 := h 3 (by omega)
  rw [show (1 : Word) = BitVec.ofNat 64 1 from rfl, show (2 : Word) = BitVec.ofNat 64 2 from rfl,
    show (3 : Word) = BitVec.ofNat 64 3 from rfl]
  simp only [h1, h2, h3]
  unfold pidx
  split <;> simp_all

theorem lvIndex_eq (l : Launch) (g : Group) (sp : Split) (lv t : Nat) : lvIndex l g sp lv t = logicalIndex l g sp lv t := by
  unfold lvIndex logicalIndex
  rw [mPar_eq, pidx_eq]
  rfl

/-- The shape of the level words that write a register. -/
theorem levels_spec {i : Instr} {h : Hd} {d : Opnd} {lv : Fin 8} {once : Bool}
    {f : State → Place → Launch → Group → Split → Nat → Word} {lc : Launch → Split → Split} {ok : Launch → Bool}
    (hlc : ∀ l sp, ∃ c, lc l sp = { sp with lc := c })
    (hi : ∀ s pl g sp l, Issues s pl g sp → launchOf s g.launch = some l → lv.val < l.nlev → ok l = true →
      exec i s = lvWord s h d lv once (fun l g sp t => some (f s pl l g sp t)) lc) :
    Levels i h d lv once f lc ok := by
  intro s pl g sp l hs hc hr ho
  let uni : Bool := once && issueMode [] d == .uniform
  let ts := if uni then [32] else sp.mask.threads
  let vals := ts.map fun t => (t, f s pl l g sp t)
  obtain ⟨c, hcl⟩ := hlc l sp
  have hd : lvOpspec g once d = false := by
    unfold lvOpspec
    rw [hr.dest.1, hr.dest.2.1]
    cases d <;> simp
    cases honce : once with
    | true => rfl
    | false => exact absurd rfl (hr.dest.2.2 honce _)
  have hu : uni = true ↔ once = true ∧ issueMode [] d = .uniform := by simp [uni]
  have hv : KeysOk d vals := by
    by_cases hm : uni = true
    · have h2 := (hu.mp hm).2
      simp only [vals, ts, hm, if_true]
      unfold issueMode at h2
      rw [hr.dest.1] at h2
      simp only [Bool.false_eq_true, if_false] at h2
      split at h2
      · exact ⟨by simp, by simp⟩
      · exact ⟨by simp, trivial⟩
      · simp at h2
    · simp only [vals, ts, hm, Bool.false_eq_true, if_false]
      refine keysOk_threads _ _ fun n e => hm (hu.mpr ?_)
      cases honce : once with
      | false => exact absurd e (hr.dest.2.2 honce n)
      | true => exact ⟨rfl, by subst e; rfl⟩
  have hmap : (ts.mapM fun t => (some (f s pl l g sp t)).map fun x => (t, x)) = some vals := by
    have : ∀ l0 : List Nat, (l0.mapM fun t => (some (f s pl l g sp t)).map fun x => (t, x))
        = some (l0.map fun t => (t, f s pl l g sp t)) := by
      intro l0
      induction l0 with
      | nil => rfl
      | cons a r ih =>
        simp only [Option.map_some] at ih
        simp only [List.mapM_cons, Option.map_some, ih]
        rfl
    exact this ts
  have e0 : raiseFlags g 0 = g := by
    unfold raiseFlags
    simp
  let dl := deliver (raiseFlags g 0) (lc l sp) pl.split .a (some 4) .var d vals
  have hex : exec i s = .next (finish s pl dl.1 dl.2 h (if uni then 1 else perThreadOcc dl.2.mask)) := by
    rw [hi s pl g sp l hs hr.launch hr.inside ho]
    unfold lvWord
    have h1 : ¬ l.nlev ≤ lv.val := by have := hr.inside; omega
    simp only [issue_eq hs, nestOf, hr.launch, h1, hd, hr.hazard, if_false, Bool.false_eq_true]
    rw [show (if (once && issueMode [] d == .uniform) = true then [32] else sp.mask.threads) = ts from rfl, hmap]
    simp only [dl, e0]
    rfl
  have hm : dl.2.mask = sp.mask := by
    have : dl.2.mask = (lc l sp).mask := deliver_mask ..
    rw [this, hcl]
  rw [hm] at hex
  have hdel := deliver_fixed d vals hv g (lc l sp) pl.split 4 .a .var 0
  have hnew : ∀ k < 32, threadVal vals k =
      (if once ∧ issueMode [] d = .uniform then some (f s pl l g sp 32)
       else if sp.mask.getLsbD k then some (f s pl l g sp k) else none) := by
    intro k hk
    by_cases hmu : uni = true
    · rw [if_pos (hu.mp hmu)]
      simp only [vals, ts, hmu, if_true]
      have : ¬ 32 = k := by omega
      simp [threadVal, tabFind, this]
    · rw [if_neg fun h => hmu (hu.mpr h)]
      simp only [vals, ts, hmu, Bool.false_eq_true, if_false]
      exact threadVal_threads sp.mask (fun t => f s pl l g sp t) hk
  have hts : vals.map (·.1) = if once ∧ issueMode [] d = .uniform then [32] else sp.mask.threads := by
    have h1 : vals.map (·.1) = ts := by simp [vals, Function.comp_def]
    rw [h1]
    by_cases hmu : uni = true
    · rw [if_pos (hu.mp hmu)]; simp only [ts, hmu, if_true]
    · rw [if_neg fun h => hmu (hu.mpr h)]; simp only [ts, hmu, Bool.false_eq_true, if_false]
  rw [hts] at hdel
  have hrd : Ready g dl.1 (lc l sp) dl.2 d (if once ∧ issueMode [] d = .uniform then [32] else sp.mask.threads) (fun k =>
      if once ∧ issueMode [] d = .uniform then some (f s pl l g sp 32)
      else if sp.mask.getLsbD k then some (f s pl l g sp k) else none) 0 pl.split [] :=
    { hdel.1 with regs := fun o t ht ho => by rw [hdel.1.regs o t ht ho, hnew t ht] }
  have hw := wrote_finish (s1 := s) (occ := if uni then 1 else perThreadOcc sp.mask) (h := h) hs.turn hc
    (Rest.refl ..) rfl rfl hrd
  refine ⟨_, hex, ?_⟩
  have he : (if once ∧ issueMode [] d = .uniform then 1 else perThreadOcc sp.mask)
      = if uni then 1 else perThreadOcc sp.mask := by
    by_cases hmu : uni = true
    · rw [if_pos (hu.mp hmu), if_pos hmu]
    · rw [if_neg fun h => hmu (hu.mpr h), if_neg hmu]
  rw [he]
  exact hw.1

/-- A barrier word that waits: its cycles pass once (R177, R270). -/
theorem halts_waitIssued (s : State) (pl : Place) (g : Group) (sp : Split) (occ : Nat) (w : Wait) :
    Halts s (waitIssued s pl g sp occ w) pl g sp occ w := by
  unfold waitIssued
  cases hp : sp.paid with
  | true =>
    have h := waits_waitAt s pl g sp w
    have e : { sp with wait := some w, paid := true, run := { sp.run with occ := if sp.paid then sp.run.occ else 0 } }
        = { sp with wait := some w } := by cases sp; simp_all
    exact ⟨h.turn, by simpa [hp] using h.time, h.rest, by rw [e]; simp only [if_true]; rw [h.group]; rfl, h.pipe⟩
  | false =>
    let sp' : Split := { sp with wait := some w, run := { sp.run with occ := 0 }, paid := true }
    obtain ⟨f, hf, hq⟩ := groupAt_advance (s := store s pl g sp') (c := pl.core) (n := pl.slot) (Nat.max sp.run.occ occ) (some pl)
    obtain ⟨a, b, hab⟩ := hq (setSplit g pl.split sp')
    simp only [groupAt_store_self, Option.map_some, hab] at hf
    refine ⟨rfl, by simp [hp, release, advance, store, setGroup, setCore],
      ((rest_store ..).trans (rest_advance ..)).trans (rest_release ..), ?_, ?_⟩
    · simp only [Bool.false_eq_true, if_false, groupAt_release, hp]
      rw [hf]
      rfl
    · intro x hx
      simp only [Bool.false_eq_true, if_false] at hx
      have h1 : ∀ u : State, coreOf (release u pl) pl.core = releasePipe (coreOf u pl.core) pl.slot := fun u => by
        change coreOf (setCore _ _ _) _ = _
        simp
      rw [h1] at hx
      simpa using (List.mem_filter.mp hx).2

end Sys2Proof.Laws
end

