-- ==== Sys2Proof/Laws/PerInstr.lean ====
section
/-! SUPPORT. The per-instruction family RoundTrip: the word of a well-formed instruction decodes to that instruction. -/

namespace Sys2Proof.Laws.RoundTrip

/-- If `i` is well formed and has a word, that word decodes to `i` (R19, R41, R43). -/
def Statement (i : Instr) : Prop :=
  i.wellFormed = true → ∀ w : IWord, encodeWord i = some w → decodeWord w = .ok i

theorem of_dec {i : Instr} {h : Hd} {maj : BitVec 6} {body : BitVec 24} {f : IWord → Except DecodeError Instr}
    (e : encodeWord i = some (eWord h maj body)) (m : ∀ w, fMajor w = maj → decodeWord w = f w)
    (d : i.wellFormed = true → f (eWord h maj body) = .ok i) : Statement i :=
  fun hw _ he => Option.some.inj (e.symm.trans he) ▸ (m _ (fMajor_eWord ..)).trans (d hw)

theorem of_event {i : Instr} (e : encodeWord i = none) : Statement i :=
  fun _ _ he => nomatch e.symm.trans he

theorem add (h : Hd) (d a b : Opnd) : Statement (.add h d a b) :=
  of_dec rfl decodeWord_major0 fun _ => by simp [decode00, oD, oA, oB]

theorem sub (h : Hd) (d a b : Opnd) : Statement (.sub h d a b) :=
  of_dec rfl decodeWord_major0 fun _ => by simp [decode00, oD, oA, oB]

theorem and (h : Hd) (d a b : Opnd) : Statement (.and h d a b) :=
  of_dec rfl decodeWord_major0 fun _ => by simp [decode00, oD, oA, oB]

theorem or (h : Hd) (d a b : Opnd) : Statement (.or h d a b) :=
  of_dec rfl decodeWord_major0 fun _ => by simp [decode00, oD, oA, oB]

theorem xor (h : Hd) (d a b : Opnd) : Statement (.xor h d a b) :=
  of_dec rfl decodeWord_major0 fun _ => by simp [decode00, oD, oA, oB]

theorem andn (h : Hd) (d a b : Opnd) : Statement (.andn h d a b) :=
  of_dec rfl decodeWord_major0 fun _ => by simp [decode00, oD, oA, oB]

theorem min (h : Hd) (d a b : Opnd) : Statement (.min h d a b) :=
  of_dec rfl decodeWord_major0 fun _ => by simp [decode00, oD, oA, oB]

theorem max (h : Hd) (d a b : Opnd) : Statement (.max h d a b) :=
  of_dec rfl decodeWord_major0 fun _ => by simp [decode00, oD, oA, oB]

theorem addi (h : Hd) (d a : Opnd) (imm : BitVec 8) : Statement (.addi h d a imm) :=
  of_dec rfl decodeWord_major1 fun _ => by simp [decode01, oD, oA]

theorem shli (h : Hd) (d a : Opnd) (imm : BitVec 6) : Statement (.shli h d a imm) :=
  of_dec rfl decodeWord_major1 fun _ => by simp [decode01, need, oD, oA]

theorem shri (h : Hd) (d a : Opnd) (imm : BitVec 6) : Statement (.shri h d a imm) :=
  of_dec rfl decodeWord_major1 fun _ => by simp [decode01, need, oD, oA]

theorem sari (h : Hd) (d a : Opnd) (imm : BitVec 6) : Statement (.sari h d a imm) :=
  of_dec rfl decodeWord_major1 fun _ => by simp [decode01, need, oD, oA]

theorem li (h : Hd) (d : Opnd) (imm : BitVec 17) : Statement (.li h d imm) :=
  of_dec rfl decodeWord_major2 fun _ => by simp [oD]

theorem lis (h : Hd) (d : Opnd) (imm : BitVec 16) : Statement (.lis h d imm) :=
  of_dec rfl decodeWord_major3 fun _ => by simp [decode03, need, oD]

theorem addS32 (h : Hd) (d a b : Opnd) : Statement (.addS32 h d a b) :=
  of_dec rfl decodeWord_major4 fun _ => by simp [decode04, oD, oA, oB]

theorem subS32 (h : Hd) (d a b : Opnd) : Statement (.subS32 h d a b) :=
  of_dec rfl decodeWord_major4 fun _ => by simp [decode04, oD, oA, oB]

theorem mulS32 (h : Hd) (d a b : Opnd) : Statement (.mulS32 h d a b) :=
  of_dec rfl decodeWord_major4 fun _ => by simp [decode04, oD, oA, oB]

theorem shlS32 (h : Hd) (d a b : Opnd) : Statement (.shlS32 h d a b) :=
  of_dec rfl decodeWord_major4 fun _ => by simp [decode04, oD, oA, oB]

theorem shrS32 (h : Hd) (d a b : Opnd) : Statement (.shrS32 h d a b) :=
  of_dec rfl decodeWord_major4 fun _ => by simp [decode04, oD, oA, oB]

theorem sarS32 (h : Hd) (d a b : Opnd) : Statement (.sarS32 h d a b) :=
  of_dec rfl decodeWord_major4 fun _ => by simp [decode04, oD, oA, oB]

theorem bfi (h : Hd) (d a b : Opnd) : Statement (.bfi h d a b) :=
  of_dec rfl decodeWord_major4 fun _ => by simp [decode04, oD, oA, oB]

theorem padd (h : Hd) (ty : PTy) (d a b : Opnd) : Statement (.padd h ty d a b) :=
  of_dec rfl decodeWord_major5 fun _ => by simp [withCode, oD, oA, oB]

theorem shl (h : Hd) (d a b : Opnd) : Statement (.shl h d a b) :=
  of_dec rfl decodeWord_major6 fun _ => by simp [decode06, oD, oA, oB]

theorem shr (h : Hd) (d a b : Opnd) : Statement (.shr h d a b) :=
  of_dec rfl decodeWord_major6 fun _ => by simp [decode06, oD, oA, oB]

theorem sar (h : Hd) (d a b : Opnd) : Statement (.sar h d a b) :=
  of_dec rfl decodeWord_major6 fun _ => by simp [decode06, oD, oA, oB]

theorem rol (h : Hd) (d a b : Opnd) : Statement (.rol h d a b) :=
  of_dec rfl decodeWord_major6 fun _ => by simp [decode06, oD, oA, oB]

theorem minu (h : Hd) (d a b : Opnd) : Statement (.minu h d a b) :=
  of_dec rfl decodeWord_major6 fun _ => by simp [decode06, oD, oA, oB]

theorem maxu (h : Hd) (d a b : Opnd) : Statement (.maxu h d a b) :=
  of_dec rfl decodeWord_major6 fun _ => by simp [decode06, oD, oA, oB]

theorem mul (h : Hd) (d a b : Opnd) : Statement (.mul h d a b) :=
  of_dec rfl decodeWord_major6 fun _ => by simp [decode06, oD, oA, oB]

theorem mulh (h : Hd) (d a b : Opnd) : Statement (.mulh h d a b) :=
  of_dec rfl decodeWord_major6 fun _ => by simp [decode06, oD, oA, oB]

theorem mulhu (h : Hd) (d a b : Opnd) : Statement (.mulhu h d a b) :=
  of_dec rfl decodeWord_major7 fun _ => by simp [decode07, oD, oA, oB]

theorem div (h : Hd) (d a b : Opnd) : Statement (.div h d a b) :=
  of_dec rfl decodeWord_major7 fun _ => by simp [decode07, oD, oA, oB]

theorem divu (h : Hd) (d a b : Opnd) : Statement (.divu h d a b) :=
  of_dec rfl decodeWord_major7 fun _ => by simp [decode07, oD, oA, oB]

theorem rem (h : Hd) (d a b : Opnd) : Statement (.rem h d a b) :=
  of_dec rfl decodeWord_major7 fun _ => by simp [decode07, oD, oA, oB]

theorem remu (h : Hd) (d a b : Opnd) : Statement (.remu h d a b) :=
  of_dec rfl decodeWord_major7 fun _ => by simp [decode07, oD, oA, oB]

theorem mad (h : Hd) (d a b : Opnd) : Statement (.mad h d a b) :=
  of_dec rfl decodeWord_major7 fun _ => by simp [decode07, oD, oA, oB]

theorem bfxZ (h : Hd) (d a b : Opnd) : Statement (.bfxZ h d a b) :=
  of_dec rfl decodeWord_major7 fun _ => by simp [decode07, oD, oA, oB]

theorem bfxS (h : Hd) (d a b : Opnd) : Statement (.bfxS h d a b) :=
  of_dec rfl decodeWord_major7 fun _ => by simp [decode07, oD, oA, oB]

theorem clz (h : Hd) (d a : Opnd) : Statement (.clz h d a) :=
  of_dec rfl decodeWord_major8 fun _ => by simp [decode08, need, oD, oA]

theorem ctz (h : Hd) (d a : Opnd) : Statement (.ctz h d a) :=
  of_dec rfl decodeWord_major8 fun _ => by simp [decode08, need, oD, oA]

theorem popc (h : Hd) (d a : Opnd) : Statement (.popc h d a) :=
  of_dec rfl decodeWord_major8 fun _ => by simp [decode08, need, oD, oA]

theorem brev (h : Hd) (d a : Opnd) : Statement (.brev h d a) :=
  of_dec rfl decodeWord_major8 fun _ => by simp [decode08, need, oD, oA]

theorem abs (h : Hd) (d a : Opnd) : Statement (.abs h d a) :=
  of_dec rfl decodeWord_major8 fun _ => by simp [decode08, need, oD, oA]

theorem mov (h : Hd) (d a : Opnd) : Statement (.mov h d a) :=
  of_dec rfl decodeWord_major8 fun _ => by simp [decode08, need, oD, oA]

theorem sext (h : Hd) (w : PackW) (d a : Opnd) : Statement (.sext h w d a) :=
  of_dec rfl decodeWord_major8 fun _ => by cases w <;> (simp [decode08, withCode, oD, oA, PackW.code]; try rfl)

theorem zext (h : Hd) (w : PackW) (d a : Opnd) : Statement (.zext h w d a) :=
  of_dec rfl decodeWord_major8 fun _ => by cases w <;> (simp [decode08, withCode, oD, oA, PackW.code]; try rfl)

theorem psub (h : Hd) (ty : PTy) (d a b : Opnd) : Statement (.psub h ty d a b) :=
  of_dec rfl decodeWord_major9 fun _ => by simp [withCode, oD, oA, oB]

theorem sel (h : Hd) (n : Fin 8) (d a b : Opnd) : Statement (.sel h n d a b) :=
  of_dec rfl decodeWord_major10 fun _ => by simp [oD, oA, oB]

theorem cmp (h : Hd) (cond : Cmp) (d a b : Opnd) : Statement (.cmp h cond d a b) :=
  of_dec rfl decodeWord_major11 fun _ => by simp [decode0B, withCode, oD, oA, oB]

theorem cmpi (h : Hd) (cond : Cmp) (d a : Opnd) (imm : BitVec 8) : Statement (.cmpi h cond d a imm) :=
  of_dec rfl decodeWord_major12 fun hw => by cases cond <;> first | exact absurd hw Bool.false_ne_true | (simp [decode0C, oD, oA, Cmp.code]; try rfl)

theorem pmin (h : Hd) (ty : PTy) (d a b : Opnd) : Statement (.pmin h ty d a b) :=
  of_dec rfl decodeWord_major13 fun _ => by simp [withCode, oD, oA, oB]

theorem lea (h : Hd) (scale : BitVec 2) (d a b : Opnd) : Statement (.lea h scale d a b) :=
  of_dec rfl decodeWord_major14 fun _ => by simp [decode0E, oD, oA, oB]

theorem leaS32 (h : Hd) (scale : BitVec 2) (d a b : Opnd) : Statement (.leaS32 h scale d a b) :=
  of_dec rfl decodeWord_major14 fun _ => by simp [decode0E, oD, oA, oB]

theorem pmax (h : Hd) (ty : PTy) (d a b : Opnd) : Statement (.pmax h ty d a b) :=
  of_dec rfl decodeWord_major15 fun _ => by simp [withCode, oD, oA, oB]

theorem fadd (h : Hd) (ty : FTy) (d a b : Opnd) : Statement (.fadd h ty d a b) := by
  cases ty with
  | f64 => exact of_dec rfl decodeWord_major17 fun _ => by simp [decode10, oD, oA, oB, FTy.ofMajor, FTy.major]
  | f32 => exact of_dec rfl decodeWord_major16 fun _ => by simp [decode10, oD, oA, oB, FTy.ofMajor, FTy.major]
  | f16 => exact of_dec rfl decodeWord_major18 fun _ => by simp [decode10, oD, oA, oB, FTy.ofMajor, FTy.major]
  | bf16 => exact of_dec rfl decodeWord_major19 fun _ => by simp [decode10, oD, oA, oB, FTy.ofMajor, FTy.major]
  | e4m3 => exact fun hw => absurd hw Bool.false_ne_true
  | e5m2 => exact fun hw => absurd hw Bool.false_ne_true

theorem fsub (h : Hd) (ty : FTy) (d a b : Opnd) : Statement (.fsub h ty d a b) := by
  cases ty with
  | f64 => exact of_dec rfl decodeWord_major17 fun _ => by simp [decode10, oD, oA, oB, FTy.ofMajor, FTy.major]
  | f32 => exact of_dec rfl decodeWord_major16 fun _ => by simp [decode10, oD, oA, oB, FTy.ofMajor, FTy.major]
  | f16 => exact of_dec rfl decodeWord_major18 fun _ => by simp [decode10, oD, oA, oB, FTy.ofMajor, FTy.major]
  | bf16 => exact of_dec rfl decodeWord_major19 fun _ => by simp [decode10, oD, oA, oB, FTy.ofMajor, FTy.major]
  | e4m3 => exact fun hw => absurd hw Bool.false_ne_true
  | e5m2 => exact fun hw => absurd hw Bool.false_ne_true

theorem fmul (h : Hd) (ty : FTy) (d a b : Opnd) : Statement (.fmul h ty d a b) := by
  cases ty with
  | f64 => exact of_dec rfl decodeWord_major17 fun _ => by simp [decode10, oD, oA, oB, FTy.ofMajor, FTy.major]
  | f32 => exact of_dec rfl decodeWord_major16 fun _ => by simp [decode10, oD, oA, oB, FTy.ofMajor, FTy.major]
  | f16 => exact of_dec rfl decodeWord_major18 fun _ => by simp [decode10, oD, oA, oB, FTy.ofMajor, FTy.major]
  | bf16 => exact of_dec rfl decodeWord_major19 fun _ => by simp [decode10, oD, oA, oB, FTy.ofMajor, FTy.major]
  | e4m3 => exact fun hw => absurd hw Bool.false_ne_true
  | e5m2 => exact fun hw => absurd hw Bool.false_ne_true

theorem ffma (h : Hd) (ty : FTy) (d a b : Opnd) : Statement (.ffma h ty d a b) := by
  cases ty with
  | f64 => exact of_dec rfl decodeWord_major17 fun _ => by simp [decode10, oD, oA, oB, FTy.ofMajor, FTy.major]
  | f32 => exact of_dec rfl decodeWord_major16 fun _ => by simp [decode10, oD, oA, oB, FTy.ofMajor, FTy.major]
  | f16 => exact of_dec rfl decodeWord_major18 fun _ => by simp [decode10, oD, oA, oB, FTy.ofMajor, FTy.major]
  | bf16 => exact of_dec rfl decodeWord_major19 fun _ => by simp [decode10, oD, oA, oB, FTy.ofMajor, FTy.major]
  | e4m3 => exact fun hw => absurd hw Bool.false_ne_true
  | e5m2 => exact fun hw => absurd hw Bool.false_ne_true

theorem ffms (h : Hd) (ty : FTy) (d a b : Opnd) : Statement (.ffms h ty d a b) := by
  cases ty with
  | f64 => exact of_dec rfl decodeWord_major17 fun _ => by simp [decode10, oD, oA, oB, FTy.ofMajor, FTy.major]
  | f32 => exact of_dec rfl decodeWord_major16 fun _ => by simp [decode10, oD, oA, oB, FTy.ofMajor, FTy.major]
  | f16 => exact of_dec rfl decodeWord_major18 fun _ => by simp [decode10, oD, oA, oB, FTy.ofMajor, FTy.major]
  | bf16 => exact of_dec rfl decodeWord_major19 fun _ => by simp [decode10, oD, oA, oB, FTy.ofMajor, FTy.major]
  | e4m3 => exact fun hw => absurd hw Bool.false_ne_true
  | e5m2 => exact fun hw => absurd hw Bool.false_ne_true

theorem fnma (h : Hd) (ty : FTy) (d a b : Opnd) : Statement (.fnma h ty d a b) := by
  cases ty with
  | f64 => exact of_dec rfl decodeWord_major17 fun _ => by simp [decode10, oD, oA, oB, FTy.ofMajor, FTy.major]
  | f32 => exact of_dec rfl decodeWord_major16 fun _ => by simp [decode10, oD, oA, oB, FTy.ofMajor, FTy.major]
  | f16 => exact of_dec rfl decodeWord_major18 fun _ => by simp [decode10, oD, oA, oB, FTy.ofMajor, FTy.major]
  | bf16 => exact of_dec rfl decodeWord_major19 fun _ => by simp [decode10, oD, oA, oB, FTy.ofMajor, FTy.major]
  | e4m3 => exact fun hw => absurd hw Bool.false_ne_true
  | e5m2 => exact fun hw => absurd hw Bool.false_ne_true

theorem fmin (h : Hd) (ty : FTy) (d a b : Opnd) : Statement (.fmin h ty d a b) := by
  cases ty with
  | f64 => exact of_dec rfl decodeWord_major17 fun _ => by simp [decode10, oD, oA, oB, FTy.ofMajor, FTy.major]
  | f32 => exact of_dec rfl decodeWord_major16 fun _ => by simp [decode10, oD, oA, oB, FTy.ofMajor, FTy.major]
  | f16 => exact of_dec rfl decodeWord_major18 fun _ => by simp [decode10, oD, oA, oB, FTy.ofMajor, FTy.major]
  | bf16 => exact of_dec rfl decodeWord_major19 fun _ => by simp [decode10, oD, oA, oB, FTy.ofMajor, FTy.major]
  | e4m3 => exact fun hw => absurd hw Bool.false_ne_true
  | e5m2 => exact fun hw => absurd hw Bool.false_ne_true

theorem fmax (h : Hd) (ty : FTy) (d a b : Opnd) : Statement (.fmax h ty d a b) := by
  cases ty with
  | f64 => exact of_dec rfl decodeWord_major17 fun _ => by simp [decode10, oD, oA, oB, FTy.ofMajor, FTy.major]
  | f32 => exact of_dec rfl decodeWord_major16 fun _ => by simp [decode10, oD, oA, oB, FTy.ofMajor, FTy.major]
  | f16 => exact of_dec rfl decodeWord_major18 fun _ => by simp [decode10, oD, oA, oB, FTy.ofMajor, FTy.major]
  | bf16 => exact of_dec rfl decodeWord_major19 fun _ => by simp [decode10, oD, oA, oB, FTy.ofMajor, FTy.major]
  | e4m3 => exact fun hw => absurd hw Bool.false_ne_true
  | e5m2 => exact fun hw => absurd hw Bool.false_ne_true

theorem faddRz (h : Hd) (ty : FTy) (d a b : Opnd) : Statement (.faddRz h ty d a b) := by
  cases ty with
  | f64 => exact of_dec rfl decodeWord_major21 fun _ => by simp [decode14, oD, oA, oB, FTy.major]
  | f32 => exact of_dec rfl decodeWord_major20 fun _ => by simp [decode14, oD, oA, oB, FTy.major]
  | f16 => exact fun hw => absurd hw Bool.false_ne_true
  | bf16 => exact fun hw => absurd hw Bool.false_ne_true
  | e4m3 => exact fun hw => absurd hw Bool.false_ne_true
  | e5m2 => exact fun hw => absurd hw Bool.false_ne_true

theorem faddRu (h : Hd) (ty : FTy) (d a b : Opnd) : Statement (.faddRu h ty d a b) := by
  cases ty with
  | f64 => exact of_dec rfl decodeWord_major21 fun _ => by simp [decode14, oD, oA, oB, FTy.major]
  | f32 => exact of_dec rfl decodeWord_major20 fun _ => by simp [decode14, oD, oA, oB, FTy.major]
  | f16 => exact fun hw => absurd hw Bool.false_ne_true
  | bf16 => exact fun hw => absurd hw Bool.false_ne_true
  | e4m3 => exact fun hw => absurd hw Bool.false_ne_true
  | e5m2 => exact fun hw => absurd hw Bool.false_ne_true

theorem faddRd (h : Hd) (ty : FTy) (d a b : Opnd) : Statement (.faddRd h ty d a b) := by
  cases ty with
  | f64 => exact of_dec rfl decodeWord_major21 fun _ => by simp [decode14, oD, oA, oB, FTy.major]
  | f32 => exact of_dec rfl decodeWord_major20 fun _ => by simp [decode14, oD, oA, oB, FTy.major]
  | f16 => exact fun hw => absurd hw Bool.false_ne_true
  | bf16 => exact fun hw => absurd hw Bool.false_ne_true
  | e4m3 => exact fun hw => absurd hw Bool.false_ne_true
  | e5m2 => exact fun hw => absurd hw Bool.false_ne_true

theorem fmulRz (h : Hd) (ty : FTy) (d a b : Opnd) : Statement (.fmulRz h ty d a b) := by
  cases ty with
  | f64 => exact of_dec rfl decodeWord_major21 fun _ => by simp [decode14, oD, oA, oB, FTy.major]
  | f32 => exact of_dec rfl decodeWord_major20 fun _ => by simp [decode14, oD, oA, oB, FTy.major]
  | f16 => exact fun hw => absurd hw Bool.false_ne_true
  | bf16 => exact fun hw => absurd hw Bool.false_ne_true
  | e4m3 => exact fun hw => absurd hw Bool.false_ne_true
  | e5m2 => exact fun hw => absurd hw Bool.false_ne_true

theorem fmulRu (h : Hd) (ty : FTy) (d a b : Opnd) : Statement (.fmulRu h ty d a b) := by
  cases ty with
  | f64 => exact of_dec rfl decodeWord_major21 fun _ => by simp [decode14, oD, oA, oB, FTy.major]
  | f32 => exact of_dec rfl decodeWord_major20 fun _ => by simp [decode14, oD, oA, oB, FTy.major]
  | f16 => exact fun hw => absurd hw Bool.false_ne_true
  | bf16 => exact fun hw => absurd hw Bool.false_ne_true
  | e4m3 => exact fun hw => absurd hw Bool.false_ne_true
  | e5m2 => exact fun hw => absurd hw Bool.false_ne_true

theorem fmulRd (h : Hd) (ty : FTy) (d a b : Opnd) : Statement (.fmulRd h ty d a b) := by
  cases ty with
  | f64 => exact of_dec rfl decodeWord_major21 fun _ => by simp [decode14, oD, oA, oB, FTy.major]
  | f32 => exact of_dec rfl decodeWord_major20 fun _ => by simp [decode14, oD, oA, oB, FTy.major]
  | f16 => exact fun hw => absurd hw Bool.false_ne_true
  | bf16 => exact fun hw => absurd hw Bool.false_ne_true
  | e4m3 => exact fun hw => absurd hw Bool.false_ne_true
  | e5m2 => exact fun hw => absurd hw Bool.false_ne_true

theorem fabs (h : Hd) (ty : FTy) (d a : Opnd) : Statement (.fabs h ty d a) :=
  of_dec rfl decodeWord_major22 fun hw => by cases ty <;> first | exact absurd hw Bool.false_ne_true | (simp [decode16, need, oD, oA]; try rfl)

theorem fneg (h : Hd) (ty : FTy) (d a : Opnd) : Statement (.fneg h ty d a) :=
  of_dec rfl decodeWord_major22 fun hw => by cases ty <;> first | exact absurd hw Bool.false_ne_true | (simp [decode16, need, oD, oA]; try rfl)

theorem fclass (h : Hd) (ty : FTy) (d a : Opnd) : Statement (.fclass h ty d a) :=
  of_dec rfl decodeWord_major22 fun hw => by cases ty <;> first | exact absurd hw Bool.false_ne_true | (simp [decode16, need, oD, oA]; try rfl)

theorem frnd (h : Hd) (ty : FTy) (rm : Rnd) (d a : Opnd) : Statement (.frnd h ty rm d a) :=
  of_dec rfl decodeWord_major22 fun hw => by cases ty <;> cases rm <;> first | exact absurd hw Bool.false_ne_true | (simp [decode16, need, withCode, oD, oA, Rnd.code]; try rfl)

theorem fcpys (h : Hd) (ty : FTy) (d a b : Opnd) : Statement (.fcpys h ty d a b) :=
  of_dec rfl decodeWord_major23 fun hw => by cases ty <;> first | exact absurd hw Bool.false_ne_true | (simp [decode17, oD, oA, oB]; try rfl)

theorem fscalb (h : Hd) (ty : FTy) (d a b : Opnd) : Statement (.fscalb h ty d a b) :=
  of_dec rfl decodeWord_major23 fun hw => by cases ty <;> first | exact absurd hw Bool.false_ne_true | (simp [decode17, oD, oA, oB]; try rfl)

theorem fcmp (h : Hd) (cond : FCmp) (ty : FTy) (d a b : Opnd) : Statement (.fcmp h cond ty d a b) := by
  cases cond with
  | eq => exact of_dec rfl decodeWord_major24 fun hw => by
            cases ty <;> first | exact absurd hw Bool.false_ne_true | (simp [decode18, withCode, oD, oA, oB, FCmp.code]; try rfl)
  | lt => exact of_dec rfl decodeWord_major24 fun hw => by
            cases ty <;> first | exact absurd hw Bool.false_ne_true | (simp [decode18, withCode, oD, oA, oB, FCmp.code]; try rfl)
  | le => exact of_dec rfl decodeWord_major25 fun hw => by
            cases ty <;> first | exact absurd hw Bool.false_ne_true | (simp [decode18, withCode, oD, oA, oB, FCmp.code]; try rfl)
  | un => exact of_dec rfl decodeWord_major25 fun hw => by
            cases ty <;> first | exact absurd hw Bool.false_ne_true | (simp [decode18, withCode, oD, oA, oB, FCmp.code]; try rfl)

theorem cvtFloatFloat (h : Hd) (dst src : FTy) (rm : Rnd) (sat : Bool) (d a : Opnd) : Statement (.cvtFloatFloat h dst src rm sat d a) :=
  of_dec rfl decodeWord_major26 fun hw => by cases dst <;> cases src <;> cases rm <;> cases sat <;> first | exact absurd hw Bool.false_ne_true | (simp [decode1A, need, withCode, oD, oA, FTy.code, Rnd.code]; try rfl)

theorem cvtIntegerFloat (h : Hd) (ity : ITy) (fty : FTy) (toInt : Bool) (rm : Rnd) (d a : Opnd) : Statement (.cvtIntegerFloat h ity fty toInt rm d a) :=
  of_dec rfl decodeWord_major27 fun hw => by cases ity <;> cases fty <;> cases toInt <;> cases rm <;> first | exact absurd hw Bool.false_ne_true | (simp [decode1B, need, withCode, oD, oA, ITy.code, Rnd.code]; try rfl)

theorem qnq4 (h : Hd) (dr : Bool) (d a b : Opnd) : Statement (.qnq4 h dr d a b) :=
  of_dec rfl decodeWord_major28 fun _ => by cases dr <;> simp [decode1C, oD, oA, oB]

theorem dqnq4 (h : Hd) (d a b : Opnd) : Statement (.dqnq4 h d a b) :=
  of_dec rfl decodeWord_major28 fun _ => by simp [decode1C, need, oD, oA, oB]

theorem qe8 (h : Hd) (fmt : FTy) (dr : Bool) (d a b : Opnd) : Statement (.qe8 h fmt dr d a b) :=
  of_dec rfl decodeWord_major28 fun hw => by cases fmt <;> cases dr <;> first | exact absurd hw Bool.false_ne_true | (simp [decode1C, need, oD, oA, oB]; try rfl)

theorem dot (h : Hd) (ty : FTy) (d a b : Opnd) : Statement (.dot h ty d a b) :=
  of_dec rfl decodeWord_major29 fun hw => by cases ty <;> first | exact absurd hw Bool.false_ne_true | (simp [decode1D, oD, oA, oB]; try rfl)

theorem fsum (h : Hd) (ty : FTy) (d a b : Opnd) : Statement (.fsum h ty d a b) :=
  of_dec rfl decodeWord_major29 fun hw => by cases ty <;> first | exact absurd hw Bool.false_ne_true | (simp [decode1D, withCode, oD, oA, oB]; try rfl)

theorem pack (h : Hd) (w : PackW) (d a b : Opnd) : Statement (.pack h w d a b) :=
  of_dec rfl decodeWord_major30 fun _ => by cases w <;> (simp [decode1E, withCode, oD, oA, oB, PackW.code]; try rfl)

theorem unpack (h : Hd) (w : PackW) (d a b : Opnd) : Statement (.unpack h w d a b) :=
  of_dec rfl decodeWord_major30 fun _ => by cases w <;> (simp [decode1E, withCode, oD, oA, oB, PackW.code]; try rfl)

theorem dqe8 (h : Hd) (fmt : FTy) (d a b : Opnd) : Statement (.dqe8 h fmt d a b) :=
  of_dec rfl decodeWord_major31 fun hw => by cases fmt <;> first | exact absurd hw Bool.false_ne_true | (simp [decode1F, need, oD, oA, oB]; try rfl)

theorem rcp (h : Hd) (ty : STy) (d a : Opnd) : Statement (.rcp h ty d a) := by
  cases ty with
  | f32 => exact of_dec rfl decodeWord_major32 fun _ => by simp [decode20, oD, oA, STy.code]
  | bf16 => exact of_dec rfl decodeWord_major33 fun _ => by simp [decode20, oD, oA, STy.code]

theorem rsq (h : Hd) (ty : STy) (d a : Opnd) : Statement (.rsq h ty d a) := by
  cases ty with
  | f32 => exact of_dec rfl decodeWord_major32 fun _ => by simp [decode20, oD, oA, STy.code]
  | bf16 => exact of_dec rfl decodeWord_major33 fun _ => by simp [decode20, oD, oA, STy.code]

theorem sqrt (h : Hd) (ty : STy) (d a : Opnd) : Statement (.sqrt h ty d a) := by
  cases ty with
  | f32 => exact of_dec rfl decodeWord_major32 fun _ => by simp [decode20, oD, oA, STy.code]
  | bf16 => exact of_dec rfl decodeWord_major33 fun _ => by simp [decode20, oD, oA, STy.code]

theorem exp2 (h : Hd) (ty : STy) (d a : Opnd) : Statement (.exp2 h ty d a) := by
  cases ty with
  | f32 => exact of_dec rfl decodeWord_major32 fun _ => by simp [decode20, oD, oA, STy.code]
  | bf16 => exact of_dec rfl decodeWord_major33 fun _ => by simp [decode20, oD, oA, STy.code]

theorem log2 (h : Hd) (ty : STy) (d a : Opnd) : Statement (.log2 h ty d a) := by
  cases ty with
  | f32 => exact of_dec rfl decodeWord_major32 fun _ => by simp [decode20, oD, oA, STy.code]
  | bf16 => exact of_dec rfl decodeWord_major33 fun _ => by simp [decode20, oD, oA, STy.code]

theorem sin (h : Hd) (ty : STy) (d a : Opnd) : Statement (.sin h ty d a) := by
  cases ty with
  | f32 => exact of_dec rfl decodeWord_major32 fun _ => by simp [decode20, oD, oA, STy.code]
  | bf16 => exact of_dec rfl decodeWord_major33 fun _ => by simp [decode20, oD, oA, STy.code]

theorem cos (h : Hd) (ty : STy) (d a : Opnd) : Statement (.cos h ty d a) := by
  cases ty with
  | f32 => exact of_dec rfl decodeWord_major32 fun _ => by simp [decode20, oD, oA, STy.code]
  | bf16 => exact of_dec rfl decodeWord_major33 fun _ => by simp [decode20, oD, oA, STy.code]

theorem tanh (h : Hd) (ty : STy) (d a : Opnd) : Statement (.tanh h ty d a) := by
  cases ty with
  | f32 => exact of_dec rfl decodeWord_major32 fun _ => by simp [decode20, oD, oA, STy.code]
  | bf16 => exact of_dec rfl decodeWord_major33 fun _ => by simp [decode20, oD, oA, STy.code]

theorem lse2 (h : Hd) (d a b : Opnd) : Statement (.lse2 h d a b) :=
  of_dec rfl decodeWord_major34 fun _ => by simp [decode22, oD, oA, oB]

theorem rngB64 (h : Hd) (d a b : Opnd) : Statement (.rngB64 h d a b) :=
  of_dec rfl decodeWord_major34 fun _ => by simp [decode22, oD, oA, oB]

theorem rngF32 (h : Hd) (d a b : Opnd) : Statement (.rngF32 h d a b) :=
  of_dec rfl decodeWord_major34 fun _ => by simp [decode22, oD, oA, oB]

theorem rngBf16 (h : Hd) (d a b : Opnd) : Statement (.rngBf16 h d a b) :=
  of_dec rfl decodeWord_major34 fun _ => by simp [decode22, oD, oA, oB]

theorem sample (h : Hd) (ty : STy) (d a b : Opnd) : Statement (.sample h ty d a b) :=
  of_dec rfl decodeWord_major34 fun _ => by cases ty <;> (simp [decode22, oD, oA, oB, STy.code]; try rfl)

theorem shuf (h : Hd) (w : LaneW) (d a b : Opnd) : Statement (.shuf h w d a b) :=
  of_dec rfl decodeWord_major35 fun _ => by cases w <;> (simp [decode23, withCode, oD, oA, oB, LaneW.code]; try rfl)

theorem bcast (h : Hd) (w : LaneW) (d a b : Opnd) : Statement (.bcast h w d a b) :=
  of_dec rfl decodeWord_major35 fun _ => by cases w <;> (simp [decode23, withCode, oD, oA, oB, LaneW.code]; try rfl)

theorem rdlane (h : Hd) (d a b : Opnd) : Statement (.rdlane h d a b) :=
  of_dec rfl decodeWord_major36 fun _ => by simp [decode24, oD, oA, oB]

theorem wrlane (h : Hd) (d a b : Opnd) : Statement (.wrlane h d a b) :=
  of_dec rfl decodeWord_major36 fun _ => by simp [decode24, oD, oA, oB]

theorem voteAny (h : Hd) (d a : Opnd) : Statement (.voteAny h d a) :=
  of_dec rfl decodeWord_major36 fun _ => by simp [decode24, need, oD, oA]

theorem voteAll (h : Hd) (d a : Opnd) : Statement (.voteAll h d a) :=
  of_dec rfl decodeWord_major36 fun _ => by simp [decode24, need, oD, oA]

theorem voteBallot (h : Hd) (d a : Opnd) : Statement (.voteBallot h d a) :=
  of_dec rfl decodeWord_major36 fun _ => by simp [decode24, need, oD, oA]

theorem voteEq (h : Hd) (d a : Opnd) : Statement (.voteEq h d a) :=
  of_dec rfl decodeWord_major36 fun _ => by simp [decode24, need, oD, oA]

theorem compressCnt (h : Hd) (wide : Bool) (d a : Opnd) : Statement (.compressCnt h wide d a) :=
  of_dec rfl decodeWord_major36 fun _ => by cases wide <;> simp [decode24, need, oD, oA]

theorem gred (h : Hd) (op : RedOp) (ty : RTy) (d a : Opnd) : Statement (.gred h op ty d a) :=
  of_dec rfl decodeWord_major37 fun hw => by cases op <;> cases ty <;> first | exact absurd hw Bool.false_ne_true | (simp [decode25, need, withCode, oD, oA, RedOp.code, RTy.code]; try rfl)

theorem gscan (h : Hd) (op : RedOp) (ty : RTy) (excl : Bool) (d a : Opnd) : Statement (.gscan h op ty excl d a) :=
  of_dec rfl decodeWord_major38 fun hw => by cases op <;> cases ty <;> cases excl <;> first | exact absurd hw Bool.false_ne_true | (simp [decode26, need, withCode, oD, oA, RedOp.code, RTy.code]; try rfl)

theorem compress (h : Hd) (wide : Bool) (d a b : Opnd) : Statement (.compress h wide d a b) :=
  of_dec rfl decodeWord_major39 fun _ => by cases wide <;> simp [decode27, oD, oA, oB]

theorem expand (h : Hd) (wide : Bool) (d a b : Opnd) : Statement (.expand h wide d a b) :=
  of_dec rfl decodeWord_major39 fun _ => by cases wide <;> simp [decode27, oD, oA, oB]

theorem subperm (h : Hd) (w : PermW) (d a b : Opnd) : Statement (.subperm h w d a b) :=
  of_dec rfl decodeWord_major39 fun _ => by cases w <;> (simp [decode27, withCode, oD, oA, oB, PermW.code]; try rfl)

theorem ld (h : Hd) (sz : Sz) (t : Opnd) (b : Fin 8) (x : Opnd) (scale : BitVec 2) (disp : BitVec 3) : Statement (.ld h sz t b x scale disp) :=
  of_dec rfl decodeWord_major40 fun _ => by simp [decode28, withCode, oD, oX]

theorem st (h : Hd) (sz : Sz) (t : Opnd) (b : Fin 8) (x : Opnd) (scale : BitVec 2) (disp : BitVec 3) : Statement (.st h sz t b x scale disp) :=
  of_dec rfl decodeWord_major41 fun _ => by simp [decode28, withCode, oD, oX]

theorem lds (h : Hd) (sz : Sz) (t : Opnd) (b : Fin 8) (x : Opnd) (scale : BitVec 2) (disp : BitVec 3) : Statement (.lds h sz t b x scale disp) :=
  of_dec rfl decodeWord_major42 fun hw => by cases sz <;> first | exact absurd hw Bool.false_ne_true | (simp [decode28, need, withCode, oD, oX, Sz.code]; try rfl)

theorem pref (h : Hd) (l2 : Bool) (sz : Sz) (b : Fin 8) (x : Opnd) (scale : BitVec 2) (disp : BitVec 3) : Statement (.pref h l2 sz b x scale disp) :=
  of_dec rfl decodeWord_major43 fun hw => by cases l2 <;> cases sz <;> first | exact absurd hw Bool.false_ne_true | (simp [decode28, need, withCode, oX, Sz.code]; try rfl)

theorem aadd (h : Hd) (wide : Bool) (t : Opnd) (b : Fin 8) (x : Opnd) (scale : BitVec 2) : Statement (.aadd h wide t b x scale) :=
  of_dec rfl decodeWord_major44 fun _ => by cases wide <;> simp [decode2C, oD, oX, eWide]

theorem aand (h : Hd) (wide : Bool) (t : Opnd) (b : Fin 8) (x : Opnd) (scale : BitVec 2) : Statement (.aand h wide t b x scale) :=
  of_dec rfl decodeWord_major44 fun _ => by cases wide <;> simp [decode2C, oD, oX, eWide]

theorem aor (h : Hd) (wide : Bool) (t : Opnd) (b : Fin 8) (x : Opnd) (scale : BitVec 2) : Statement (.aor h wide t b x scale) :=
  of_dec rfl decodeWord_major44 fun _ => by cases wide <;> simp [decode2C, oD, oX, eWide]

theorem axor (h : Hd) (wide : Bool) (t : Opnd) (b : Fin 8) (x : Opnd) (scale : BitVec 2) : Statement (.axor h wide t b x scale) :=
  of_dec rfl decodeWord_major44 fun _ => by cases wide <;> simp [decode2C, oD, oX, eWide]

theorem axch (h : Hd) (wide : Bool) (t : Opnd) (b : Fin 8) (x : Opnd) (scale : BitVec 2) : Statement (.axch h wide t b x scale) :=
  of_dec rfl decodeWord_major44 fun _ => by cases wide <;> simp [decode2C, oD, oX, eWide]

theorem aminS (h : Hd) (wide : Bool) (t : Opnd) (b : Fin 8) (x : Opnd) (scale : BitVec 2) : Statement (.aminS h wide t b x scale) :=
  of_dec rfl decodeWord_major44 fun _ => by cases wide <;> simp [decode2C, oD, oX, eWide]

theorem amaxS (h : Hd) (wide : Bool) (t : Opnd) (b : Fin 8) (x : Opnd) (scale : BitVec 2) : Statement (.amaxS h wide t b x scale) :=
  of_dec rfl decodeWord_major44 fun _ => by cases wide <;> simp [decode2C, oD, oX, eWide]

theorem acas (h : Hd) (wide : Bool) (t : Opnd) (b : Fin 8) (x : Opnd) (scale : BitVec 2) : Statement (.acas h wide t b x scale) :=
  of_dec rfl decodeWord_major44 fun _ => by cases wide <;> simp [decode2C, oD, oX, eWide]

theorem aminZ (h : Hd) (wide : Bool) (t : Opnd) (b : Fin 8) (x : Opnd) (scale : BitVec 2) : Statement (.aminZ h wide t b x scale) :=
  of_dec rfl decodeWord_major45 fun _ => by cases wide <;> simp [decode2D, oD, oX, eWide]

theorem amaxZ (h : Hd) (wide : Bool) (t : Opnd) (b : Fin 8) (x : Opnd) (scale : BitVec 2) : Statement (.amaxZ h wide t b x scale) :=
  of_dec rfl decodeWord_major45 fun _ => by cases wide <;> simp [decode2D, oD, oX, eWide]

theorem afadd (h : Hd) (wide : Bool) (t : Opnd) (b : Fin 8) (x : Opnd) (scale : BitVec 2) : Statement (.afadd h wide t b x scale) :=
  of_dec rfl decodeWord_major45 fun _ => by cases wide <;> simp [decode2D, oD, oX, eWide]

theorem abinc (h : Hd) (t : Opnd) (b : Fin 8) (x : Opnd) (scale : BitVec 2) : Statement (.abinc h t b x scale) :=
  of_dec rfl decodeWord_major45 fun _ => by simp [decode2D, need, oD, oX]

theorem apmax (h : Hd) (t : Opnd) (b : Fin 8) (x : Opnd) (scale : BitVec 2) : Statement (.apmax h t b x scale) :=
  of_dec rfl decodeWord_major45 fun _ => by simp [decode2D, need, oD, oX]

theorem frd (h : Hd) (t : Opnd) (b : Fin 8) (x : Opnd) (scale : BitVec 2) : Statement (.frd h t b x scale) :=
  of_dec rfl decodeWord_major46 fun _ => by simp [decode2E, oD, oX]

theorem fwr (h : Hd) (t : Opnd) (b : Fin 8) (x : Opnd) (scale : BitVec 2) : Statement (.fwr h t b x scale) :=
  of_dec rfl decodeWord_major46 fun _ => by simp [decode2E, oD, oX]

theorem fclr (h : Hd) (b : Fin 8) (x : Opnd) (scale : BitVec 2) : Statement (.fclr h b x scale) :=
  of_dec rfl decodeWord_major46 fun _ => by simp [decode2E, need, oX]

theorem trb (h : Hd) (n : Fin 8) (a : Opnd) : Statement (.trb h n a) :=
  of_dec rfl decodeWord_major47 fun _ => by simp [decode2F, need, oA]

theorem fence (h : Hd) (sc : Scope) : Statement (.fence h sc) :=
  of_dec rfl decodeWord_major48 fun hw => by cases sc <;> first | exact absurd hw Bool.false_ne_true | (simp [decode30, withCode]; try rfl)

theorem bar (h : Hd) (sc : Scope) (a b : Opnd) : Statement (.bar h sc a b) :=
  of_dec rfl decodeWord_major49 fun hw => by
    cases sc with
    | lane =>
      simp [Instr.wellFormed, Instr.check, Instr.barCheck, Instr.orIll] at hw
      obtain ⟨rfl, rfl⟩ := hw
      simp [decode31, need, withCode, oA, oB, Scope.barCode, Scope.ofBarCode]
      decide
    | _ => first | exact absurd hw Bool.false_ne_true | (simp [decode31, need, withCode, oA, oB]; rfl)

theorem bara (h : Hd) (sc : Scope) (a b : Opnd) : Statement (.bara h sc a b) :=
  of_dec rfl decodeWord_major49 fun hw => by cases sc <;> first | exact absurd hw Bool.false_ne_true | (simp [decode31, need, withCode, oA, oB]; try rfl)

theorem barw (h : Hd) (sc : Scope) (a : Opnd) : Statement (.barw h sc a) :=
  of_dec rfl decodeWord_major49 fun hw => by cases sc <;> first | exact absurd hw Bool.false_ne_true | (simp [decode31, need, withCode, oA]; try rfl)

theorem evwait (h : Hd) (a : Opnd) : Statement (.evwait h a) :=
  of_dec rfl decodeWord_major50 fun _ => by simp [decode32, need, oA]

theorem evpop (h : Hd) (d : Opnd) : Statement (.evpop h d) :=
  of_dec rfl decodeWord_major50 fun _ => by simp [decode32, need, oD]

theorem waitm (h : Hd) (cond : WCond) (wide : Bool) (t : Opnd) (b : Fin 8) (x : Opnd) (scale : BitVec 2) : Statement (.waitm h cond wide t b x scale) :=
  of_dec rfl decodeWord_major51 fun _ => by cases wide <;> simp [decode33, withCode, oD, oX, eWide]

theorem rdmap (h : Hd) (sel : MapSel) (d : Opnd) (lv : Fin 8) : Statement (.rdmap h sel d lv) :=
  of_dec rfl decodeWord_major52 fun hw => by
    cases sel <;> simp [Instr.wellFormed, Instr.check, Instr.rdmapCheck, Instr.orIll] at hw <;>
      simp_all [decode34, need, withCode, oD, MapSel.code, MapSel.ofCode, Instr.rdmapCheck, Instr.orIll]

theorem lvidx (h : Hd) (d : Opnd) (lv : Fin 8) : Statement (.lvidx h d lv) :=
  of_dec rfl decodeWord_major52 fun _ => by simp [decode34, need, oD]

theorem lvext (h : Hd) (d : Opnd) (lv : Fin 8) : Statement (.lvext h d lv) :=
  of_dec rfl decodeWord_major52 fun _ => by simp [decode34, need, oD]

theorem lvfirst (h : Hd) (d : Opnd) (lv : Fin 8) : Statement (.lvfirst h d lv) :=
  of_dec rfl decodeWord_major52 fun _ => by simp [decode34, need, oD]

theorem lvbuf (h : Hd) (d : Opnd) (lv : Fin 8) : Statement (.lvbuf h d lv) :=
  of_dec rfl decodeWord_major52 fun _ => by simp [decode34, need, oD]

theorem lvfor (h : Hd) (lv : Fin 8) : Statement (.lvfor h lv) :=
  of_dec rfl decodeWord_major52 fun _ => by simp [decode34, need]

theorem lvnext (h : Hd) (d : Opnd) (lv : Fin 8) : Statement (.lvnext h d lv) :=
  of_dec rfl decodeWord_major52 fun _ => by simp [decode34, need, oD]

theorem redl (h : Hd) (op : RedOp) (ty : RTy) (d a : Opnd) (lv : Fin 8) : Statement (.redl h op ty d a lv) :=
  of_dec rfl decodeWord_major53 fun hw => by cases op <;> cases ty <;> first | exact absurd hw Bool.false_ne_true | (simp [decode35, need, withCode, oD, oA, RedOp.code, RTy.code]; try rfl)

theorem barl (h : Hd) (lv : Fin 8) : Statement (.barl h lv) :=
  of_dec rfl decodeWord_major54 fun _ => by simp [decode36, need]

theorem bra (h : Hd) (neg : Bool) (p : Fin 8) (disp : BitVec 20) : Statement (.bra h neg p disp) :=
  of_dec rfl decodeWord_major56 fun _ => by simp

theorem brp (h : Hd) (neg : Bool) (p : Fin 8) (disp : BitVec 20) : Statement (.brp h neg p disp) :=
  of_dec rfl decodeWord_major57 fun _ => by simp

theorem call (h : Hd) (disp : BitVec 16) : Statement (.call h disp) :=
  of_dec rfl decodeWord_major58 fun _ => by simp [decode3A, need]

theorem fcall (h : Hd) (nm1 : BitVec 6) (disp : BitVec 16) : Statement (.fcall h nm1 disp) :=
  of_dec rfl decodeWord_major58 fun _ => by simp [decode3A]

theorem fcallForce (h : Hd) (nm1 : BitVec 6) (disp : BitVec 16) : Statement (.fcallForce h nm1 disp) :=
  of_dec rfl decodeWord_major58 fun _ => by simp [decode3A]

theorem ftrainSeed (h : Hd) (k : BitVec 4) (disp : BitVec 16) : Statement (.ftrainSeed h k disp) :=
  of_dec rfl decodeWord_major58 fun _ => by simp [decode3A]

theorem ftrainForce (h : Hd) (k : BitVec 4) (disp : BitVec 16) : Statement (.ftrainForce h k disp) :=
  of_dec rfl decodeWord_major58 fun _ => by simp [decode3A]

theorem ftrainClear (h : Hd) (disp : BitVec 16) : Statement (.ftrainClear h disp) :=
  of_dec rfl decodeWord_major58 fun _ => by simp [decode3A, need]

theorem nop (h : Hd) : Statement (.nop h) :=
  of_dec rfl decodeWord_major59 fun _ => by simp [decode3B, need]

theorem jmpr (h : Hd) (a : Opnd) : Statement (.jmpr h a) :=
  of_dec rfl decodeWord_major59 fun _ => by simp [decode3B, need, oA]

theorem callr (h : Hd) (a : Opnd) : Statement (.callr h a) :=
  of_dec rfl decodeWord_major59 fun _ => by simp [decode3B, need, oA]

theorem ret (h : Hd) : Statement (.ret h) :=
  of_dec rfl decodeWord_major59 fun _ => by simp [decode3B, need]

theorem join (h : Hd) : Statement (.join h) :=
  of_dec rfl decodeWord_major59 fun _ => by simp [decode3B, need]

theorem exit (h : Hd) (sc : Scope) : Statement (.exit h sc) :=
  of_dec rfl decodeWord_major59 fun hw => by cases sc <;> first | exact absurd hw Bool.false_ne_true | (simp [decode3B, withCode]; try rfl)

theorem yield (h : Hd) : Statement (.yield h) :=
  of_dec rfl decodeWord_major59 fun _ => by simp [decode3B, need]

theorem fmtb (h : Hd) (a : Opnd) : Statement (.fmtb h a) :=
  of_dec rfl decodeWord_major60 fun _ => by simp [decode3C, need, oD]

theorem wld (h : Hd) (a b : Opnd) : Statement (.wld h a b) :=
  of_dec rfl decodeWord_major60 fun _ => by simp [decode3C, need, oD, oA]

theorem wswp (h : Hd) : Statement (.wswp h) :=
  of_dec rfl decodeWord_major60 fun _ => by simp [decode3C, need]

theorem accz (h : Hd) (mask : BitVec 4) : Statement (.accz h mask) :=
  of_dec rfl decodeWord_major60 fun hw => by simp_all [decode3C, need, Instr.wellFormed, Instr.check, Instr.orIll]

theorem mma (h : Hd) (a b c : Opnd) : Statement (.mma h a b c) :=
  of_dec rfl decodeWord_major60 fun _ => by simp [decode3C, oD, oA, oB]

theorem accout (h : Hd) (a b c : Opnd) : Statement (.accout h a b c) :=
  of_dec rfl decodeWord_major60 fun _ => by simp [decode3C, oD, oA, oB]

theorem accin (h : Hd) (a b c : Opnd) : Statement (.accin h a b c) :=
  of_dec rfl decodeWord_major60 fun _ => by simp [decode3C, oD, oA, oB]

theorem mmt (h : Hd) (a : Opnd) : Statement (.mmt h a) :=
  of_dec rfl decodeWord_major60 fun _ => by simp [decode3C, need, oD]

theorem mstat (h : Hd) (d : Opnd) : Statement (.mstat h d) :=
  of_dec rfl decodeWord_major60 fun _ => by simp [decode3C, need, oD]

theorem pld (h : Hd) (a : Opnd) : Statement (.pld h a) :=
  of_dec rfl decodeWord_major61 fun _ => by simp [decode3D, need, oD]

theorem pcost (h : Hd) (a b : Opnd) : Statement (.pcost h a b) :=
  of_dec rfl decodeWord_major61 fun _ => by simp [decode3D, need, oD, oA]

theorem pmarg (h : Hd) (out col : Bool) (a : Opnd) : Statement (.pmarg h out col a) :=
  of_dec rfl decodeWord_major61 fun _ => by cases out <;> cases col <;> simp [decode3D, oD]

theorem pscl (h : Hd) (out col : Bool) (a : Opnd) : Statement (.pscl h out col a) :=
  of_dec rfl decodeWord_major61 fun _ => by cases out <;> cases col <;> simp [decode3D, oD]

theorem balance (h : Hd) (a b : Opnd) : Statement (.balance h a b) :=
  of_dec rfl decodeWord_major61 fun _ => by simp [decode3D, need, oD, oA]

theorem ppart (h : Hd) (row : Bool) (a : Opnd) : Statement (.ppart h row a) :=
  of_dec rfl decodeWord_major61 fun _ => by cases row <;> simp [decode3D, need, oD]

theorem pout (h : Hd) (a b c : Opnd) : Statement (.pout h a b c) :=
  of_dec rfl decodeWord_major61 fun _ => by simp [decode3D, oD, oA, oB]

theorem pdist (h : Hd) (a b : Opnd) : Statement (.pdist h a b) :=
  of_dec rfl decodeWord_major61 fun _ => by simp [decode3D, need, oD, oA]

theorem pstat (h : Hd) (d : Opnd) : Statement (.pstat h d) :=
  of_dec rfl decodeWord_major61 fun _ => by simp [decode3D, need, oD]

theorem cpy (h : Hd) (a b c : Opnd) : Statement (.cpy h a b c) :=
  of_dec rfl decodeWord_major62 fun _ => by simp [decode3E, oD, oA, oB]

theorem cpy2d (h : Hd) (a : Opnd) : Statement (.cpy2d h a) :=
  of_dec rfl decodeWord_major62 fun _ => by simp [decode3E, need, oD]

theorem gth (h : Hd) (a : Opnd) : Statement (.gth h a) :=
  of_dec rfl decodeWord_major62 fun _ => by simp [decode3E, need, oD]

theorem sct (h : Hd) (a : Opnd) : Statement (.sct h a) :=
  of_dec rfl decodeWord_major62 fun _ => by simp [decode3E, need, oD]

theorem cpyr (h : Hd) (a b c : Opnd) : Statement (.cpyr h a b c) :=
  of_dec rfl decodeWord_major62 fun _ => by simp [decode3E, oD, oA, oB]

theorem rdsr (h : Hd) (d : Opnd) (n : BitVec 14) : Statement (.rdsr h d n) :=
  of_dec rfl decodeWord_major63 fun _ => by simp [decode3F, oD]

theorem wrsr (h : Hd) (a : Opnd) (n : BitVec 14) : Statement (.wrsr h a n) :=
  of_dec rfl decodeWord_major63 fun _ => by simp [decode3F, oD]

theorem rdctr (h : Hd) (d : Opnd) (sync : Bool) (sel : BitVec 13) : Statement (.rdctr h d sync sel) :=
  of_dec rfl decodeWord_major63 fun _ => by cases sync <;> simp [decode3F, oD]

theorem rdclk (h : Hd) (d : Opnd) (sync : Bool) : Statement (.rdclk h d sync) :=
  of_dec rfl decodeWord_major63 fun _ => by cases sync <;> simp [decode3F, need, oD]

theorem trap (h : Hd) (code : BitVec 14) : Statement (.trap h code) :=
  of_dec rfl decodeWord_major63 fun _ => by simp [decode3F, need]

theorem syscall (h : Hd) (code : BitVec 14) : Statement (.syscall h code) :=
  of_dec rfl decodeWord_major63 fun _ => by simp [decode3F, need]

theorem bkpt (h : Hd) : Statement (.bkpt h) :=
  of_dec rfl decodeWord_major63 fun _ => by simp [decode3F, need]

theorem selftest (h : Hd) (d : Opnd) (pattern : BitVec 14) : Statement (.selftest h d pattern) :=
  of_dec rfl decodeWord_major63 fun hw => by simp_all [decode3F, need, oD, Instr.wellFormed, Instr.check, Instr.orIll]

theorem groupRunSelect (core pipe : Nat) : Statement (.groupRunSelect core pipe) := of_event rfl

theorem variableResultWrite (core slot idx : Nat) : Statement (.variableResultWrite core slot idx) := of_event rfl

theorem dividerResult (core pipe idx : Nat) : Statement (.dividerResult core pipe idx) := of_event rfl

theorem pageWalk (core idx : Nat) : Statement (.pageWalk core idx) := of_event rfl

theorem trbComplete (core slot idx : Nat) : Statement (.trbComplete core slot idx) := of_event rfl

theorem logicalTimeTick : Statement (.logicalTimeTick) := of_event rfl

theorem rebase : Statement (.rebase) := of_event rfl

theorem rebaseRelease : Statement (.rebaseRelease) := of_event rfl

theorem shootDownAck (part : Nat) : Statement (.shootDownAck part) := of_event rfl

theorem tenderValidation (core slot : Nat) : Statement (.tenderValidation core slot) := of_event rfl

theorem phaseBoundary (launch team : Nat) : Statement (.phaseBoundary launch team) := of_event rfl

theorem starve (part : Nat) : Statement (.starve part) := of_event rfl

theorem completionRecordPost (core : Nat) : Statement (.completionRecordPost core) := of_event rfl

theorem arrayOperationStart (core : Nat) (u : AUnit) : Statement (.arrayOperationStart core u) := of_event rfl

theorem mmtStep (core : Nat) : Statement (.mmtStep core) := of_event rfl

theorem slewGovernorStep (quad : Nat) : Statement (.slewGovernorStep quad) := of_event rfl

theorem accumulatorRowWrite (core : Nat) : Statement (.accumulatorRowWrite core) := of_event rfl

theorem arrayOperationDrain (core : Nat) (u : AUnit) : Statement (.arrayOperationDrain core u) := of_event rfl

theorem copyOperationStart (core : Nat) : Statement (.copyOperationStart core) := of_event rfl

theorem copyOperationEnd (core idx : Nat) : Statement (.copyOperationEnd core idx) := of_event rfl

theorem packetFetch (q : StreamId) : Statement (.packetFetch q) := of_event rfl

theorem nopk (q : StreamId) : Statement (.nopk q) := of_event rfl

theorem launch (q : StreamId) (pkt : LaunchPkt) : Statement (.launch q pkt) := of_event rfl

theorem ib (q : StreamId) (addr : Word) (count : BitVec 24) : Statement (.ib q addr count) := of_event rfl

theorem pred (q : StreamId) (n : BitVec 8) (cond : WCond) (wide : Bool) (addr cmp : Word) : Statement (.pred q n cond wide addr cmp) := of_event rfl

theorem loop (q : StreamId) (n : BitVec 8) (k : BitVec 16) : Statement (.loop q n k) := of_event rfl

theorem ffence (q : StreamId) : Statement (.ffence q) := of_event rfl

theorem write (q : StreamId) (wide : Bool) (addr x : Word) : Statement (.write q wide addr x) := of_event rfl

theorem waitmem (q : StreamId) (cond : WCond) (wide : Bool) (addr cmp : Word) : Statement (.waitmem q cond wide addr cmp) := of_event rfl

theorem signal (q : StreamId) (irq wide : Bool) (addr x : Word) : Statement (.signal q irq wide addr x) := of_event rfl

theorem teamPlacement (die : Nat) : Statement (.teamPlacement die) := of_event rfl

theorem groupStart (core slot : Nat) : Statement (.groupStart core slot) := of_event rfl

theorem launchEnd (launch : Nat) : Statement (.launchEnd launch) := of_event rfl

theorem sliceExpiry (launch : Nat) : Statement (.sliceExpiry launch) := of_event rfl

theorem budgetPeriod : Statement (.budgetPeriod) := of_event rfl

theorem launchTokenTick : Statement (.launchTokenTick) := of_event rfl

theorem hostReadBufferExpiry (idx : Nat) : Statement (.hostReadBufferExpiry idx) := of_event rfl

theorem lifecycleWipeDone : Statement (.lifecycleWipeDone) := of_event rfl

theorem selftestDone (core slot : Nat) (first : BitVec 16) (count : BitVec 32) : Statement (.selftestDone core slot first count) := of_event rfl

theorem quadRetire (die quad : Nat) : Statement (.quadRetire die quad) := of_event rfl

theorem accessPerformed (core slot : Nat) : Statement (.accessPerformed core slot) := of_event rfl

theorem instructionFetch (core block : Nat) : Statement (.instructionFetch core block) := of_event rfl

theorem pageFaultResume (core slot split : Nat) (fix : FaultFix) : Statement (.pageFaultResume core slot split fix) := of_event rfl

theorem shootDown (part : Nat) : Statement (.shootDown part) := of_event rfl

theorem teamSpill (launch team : Nat) : Statement (.teamSpill launch team) := of_event rfl

theorem groupResume (core slot : Nat) (how : Resume) (edits : List RegEdit) : Statement (.groupResume core slot how edits) := of_event rfl

theorem ended (launch : Nat) : Statement (.ended launch) := of_event rfl

theorem debuggerStop (core slot : Nat) : Statement (.debuggerStop core slot) := of_event rfl

theorem mmtForcedStop (core : Nat) : Statement (.mmtForcedStop core) := of_event rfl

theorem copyAccessRetry (core idx : Nat) (fix : FaultFix) : Statement (.copyAccessRetry core idx fix) := of_event rfl

theorem thedelPacketDelivery (pkt : PodPacket) : Statement (.thedelPacketDelivery pkt) := of_event rfl

theorem stop (port vl : Nat) : Statement (.stop port vl) := of_event rfl

theorem go (port vl : Nat) : Statement (.go port vl) := of_event rfl

theorem linkReplay (port lane : Nat) (out : ErrOutcome) : Statement (.linkReplay port lane out) := of_event rfl

theorem hostWrite (fn off : Nat) (bytes : List Byte) : Statement (.hostWrite fn off bytes) := of_event rfl

theorem hostRead (fn off n : Nat) (keep : Bool) : Statement (.hostRead fn off n keep) := of_event rfl

theorem sqctlWrite (q : StreamId) (x : Word) : Statement (.sqctlWrite q x) := of_event rfl

theorem sqtailWrite (q : StreamId) (x : Word) : Statement (.sqtailWrite q x) := of_event rfl

theorem lnkstWrite (port : Nat) (x : Word) : Statement (.lnkstWrite port x) := of_event rfl

theorem marginRun (port lane : Nat) (x : Word) : Statement (.marginRun port lane x) := of_event rfl

theorem marginRunComplete (port lane : Nat) (err : BitVec 32) : Statement (.marginRunComplete port lane err) := of_event rfl

theorem registerWrite (r : RegName) (x : Word) : Statement (.registerWrite r x) := of_event rfl

theorem doeDiscovery (idx : Nat) : Statement (.doeDiscovery idx) := of_event rfl

theorem attest (payload : DoeReq) : Statement (.attest payload) := of_event rfl

theorem provision (payload : DoeReq) : Statement (.provision payload) := of_event rfl

theorem deploy (payload : DoeReq) : Statement (.deploy payload) := of_event rfl

theorem rma (payload : DoeReq) : Statement (.rma payload) := of_event rfl

theorem deviceReset : Statement (.deviceReset) := of_event rfl

theorem mregExtend (i : Nat) (image : List Byte) : Statement (.mregExtend i image) := of_event rfl

theorem liveUpdate (what : LiveImage) (image : List Byte) : Statement (.liveUpdate what image) := of_event rfl

theorem memoryErrorRetry (u : ErrUnit) (out : ErrOutcome) : Statement (.memoryErrorRetry u out) := of_event rfl

theorem quadReassign (die quad : Nat) (part : Option Nat) : Statement (.quadReassign die quad part) := of_event rfl

theorem thermalThrottle : Statement (.thermalThrottle) := of_event rfl

theorem thermalRecover : Statement (.thermalRecover) := of_event rfl

theorem thermalReset : Statement (.thermalReset) := of_event rfl

theorem housekeepingStore (pa : Nat) (bytes : List Byte) (future : Option (Nat × Nat)) : Statement (.housekeepingStore pa bytes future) := of_event rfl

theorem packetAcknowledgement (port : Nat) : Statement (.packetAcknowledgement port) := of_event rfl

theorem frontEndFaultResume (q : StreamId) (fix : FaultFix) : Statement (.frontEndFaultResume q fix) := of_event rfl

theorem recordAreaFaultResume (launch : Nat) (fix : FaultFix) : Statement (.recordAreaFaultResume launch fix) := of_event rfl

end Sys2Proof.Laws.RoundTrip
end

