-- ==== Sys2Proof/Machine/Debug.lean ====
section
/-! DEFINITION. What the debugger reads of a stopped group and of the array (R262, R361): a value, or a wait. -/

namespace Sys2Proof.Machine

/-- The answer to a debugger's read. -/
inductive DebugRead where
  | value (x : Word)
  | wait
deriving DecidableEq, Repr

/-- An outstanding result of the group is still to be written to the register in thread t (R28, R361). -/
def resultDue (g : Group) (split t : Nat) (o : Opnd) : Bool :=
  g.results.any fun r => !r.dead && r.dst == o
    && (match o with
      | .o _ => r.split == split
      | _ => true)
    && r.vals.any fun v => v.1 == t || v.1 == 32

/-- A debugger read of a register of thread t in a split: it waits for an outstanding result (R361). -/
def debugReg (s : State) (c slot split t : Nat) (o : Opnd) : Option DebugRead :=
  match groupAt s c slot with
  | none => none
  | some g =>
    (splitAt g split).map fun sp => if resultDue g split t o then .wait else .value (regNow g sp (.int 64) t o)

/-- The two words of a translation register as Jalov and the debugger read them: BASE [63:57] as copies of bit 56, and reserved
bits 0 (R128). -/
def tregWords (t : TReg) : Word × Word :=
  (BitVec.ofBool t.v ++ t.mt ++ BitVec.ofBool t.rd ++ BitVec.ofBool t.wr ++ 0#2 ++ t.base.setWidth 57,
    t.psz ++ 0#10 ++ t.pa)

/-- The base address that word 0 gives. -/
def wordBase (w : Word) : Word := (w.setWidth 57).signExtend 64

/-- A read of bN of a group by Jalov or the debugger (R128). -/
def debugTreg (s : State) (c slot : Nat) (n : Fin 8) : Option (Word × Word) :=
  (groupAt s c slot).map fun g => tregWords (tregOf g n.val)

/-- Parts of the array that the debugger reads: an element of an accumulator tile, a cell of a plane, a byte of a scale
store, a word of the format block. -/
inductive ArrayPart where
  | acc (tile : Fin 4) (i : Nat)
  | cell (back : Bool) (i : Nat)
  | scale (back : Bool) (i : Nat)
  | fmt (second : Bool)
deriving DecidableEq, Repr

/-- A slip that is not drained writes the part. -/
def slipWrites (k : Core) (p : ArrayPart) : Bool :=
  k.slips.any fun y => y.wr &&
    match y.range, p with
    | .acc m, .acc tile _ => m.getLsbD tile.val
    | .plane m, .cell back _ | .plane m, .scale back _ => m.getLsbD (if back then 1 else 0)
    | _, _ => false

/-- The content of a part. -/
def partNow (m : MArray) : ArrayPart → Word
  | .acc tile i => (tabGet 0 m.acc (4096 * tile.val + i)).setWidth 64
  | .cell back i => (tabGet 0 (if back then m.back else m.front) i).setWidth 64
  | .scale back i => (tabGet 0 (if back then m.bscale else m.fscale) i).setWidth 64
  | .fmt second => if second then m.fmtb.f1 else m.fmtb.f0

/-- A debugger read of a core's array: it waits until every slip that writes the part has drained (R262). -/
def debugArray (s : State) (c : Nat) (p : ArrayPart) : DebugRead :=
  if slipWrites (coreOf s c) p then .wait else .value (partNow (coreOf s c).array p)

end Sys2Proof.Machine
end

