-- ==== Sys2Proof/Tests/Slice0.lean ====
section
/-! SUPPORT. Tests: terms that the well-formedness checks refuse, words of the spec's encodings and what they decode to, single
steps with results worked out from the rules, and for every statement with hypotheses a case that meets them. -/

namespace Sys2Proof.Tests

open Machine Claims

/-- A word in the middle of its run. -/
abbrev mid : Hd := ⟨false, false⟩
/-- A word that ends its run. -/
abbrev fin : Hd := ⟨false, true⟩

/-! ### Terms that are no instructions -/

theorem test_ill_float_type : (Instr.fadd mid .e4m3 (.v 1) (.v 2) (.v 3)).check = some .floatType := by decide
theorem test_ill_rounding : (Instr.frnd mid .f32 .dr (.v 1) (.v 2)).check = some .rounding := by decide
theorem test_ill_condition : (Instr.cmpi mid .tst (.p 1) (.v 2) 0).check = some .condition := by decide
theorem test_ill_size : (Instr.lds mid .b64 (.v 1) 0 .z 0 0).check = some .size := by decide
theorem test_ill_logical_float : (Instr.gred mid .xor .f32 (.v 1) (.v 2)).check = some .logicalOfFloat := by decide
theorem test_ill_scope : (Instr.fence fin .lane).check = some .scope := by decide
theorem test_ill_lane_fields : (Instr.bar fin .lane (.g 1) (.v 0)).check = some .laneFields := by decide
theorem test_ill_level : (Instr.rdmap mid .tscr (.g 1) 3).check = some .level := by decide
theorem test_ill_tile_mask : (Instr.accz mid 0).check = some .tileMask := by decide
theorem test_ill_pattern : (Instr.selftest mid (.v 1) 6).check = some .pattern := by decide

/-! ### Words of the spec and what they stand for -/

/-- The word decodes to the instruction and is its encoding. -/
abbrev Reads (w : IWord) (i : Instr) : Prop := decodeWord w = .ok i ∧ encodeWord i = some w

theorem test_decode_integer :
    Reads 0x00060410 (.add mid (.v 3) (.v 1) (.v 2)) ∧ Reads 0x0203FFFB (.li mid (.v 1) (-5)) := by decide
theorem test_decode_float :
    Reads 0x1310183B (.ffma mid .bf16 (.v 8) (.v 6) (.v 7))
    ∧ Reads 0x1A0404C8 (.cvtFloatFloat mid .e4m3 .f32 .rne true (.v 2) (.v 1))
    ∧ Reads 0x5C8F0A29 (.qnq4 fin true (.g 7) (.g 2) (.g 5)) := by decide
theorem test_decode_special :
    Reads 0x20122003 (.exp2 mid .f32 (.v 9) (.v 8)) ∧ Reads 0x23223C80 (.shuf mid .b64 (.v 17) (.v 15) (.v 16))
    ∧ Reads 0x27080418 (.compress mid true (.v 4) (.v 1) (.v 3)) ∧ Reads 0x640A0C06 (.compressCnt fin true (.v 5) (.v 3))
    ∧ Reads 0x258C1008 (.gred mid .add .z64 (.g 6) (.v 4)) := by decide
theorem test_decode_memory :
    Reads 0x280E82FA (.ld mid .b64 (.v 7) 2 (.v 5) 3 2) ∧ Reads 0x2A0A4128 (.lds mid .b16 (.v 5) 1 (.v 2) 1 0)
    ∧ Reads 0x2C1080FF (.acas mid true (.v 8) 2 (.v 1) 3) ∧ Reads 0x2E134278 (.frd mid (.v 9) 5 (.v 4) 3)
    ∧ Reads 0x2F070800 (.trb mid 3 (.g 2)) ∧ Reads 0x6D1E0493 (.abinc fin (.v 15) 0 (.v 9) 0) := by decide
theorem test_decode_sync :
    Reads 0x70000005 (.fence fin .sys) ∧ Reads 0x71010A19 (.bar fin .quad (.g 2) (.g 3))
    ∧ Reads 0x3103EF50 (.bara mid .core (.k 3) .z) ∧ Reads 0x338AF513 (.waitm mid .geu false (.g 5) 3 .z 0)
    ∧ Reads 0x728C0001 (.evpop fin (.g 6)) := by decide
theorem test_decode_levels :
    Reads 0x34E2000E (.lvnext mid (.p 1) 1) ∧ Reads 0x35060888 (.redl mid .add .z64 (.v 3) (.v 2) 1)
    ∧ Reads 0x34880110 (.rdmap mid .seq (.g 4) 2) ∧ Reads 0x76000008 (.barl fin 1) := by decide
theorem test_decode_control :
    Reads 0x79BFFFFE (.brp fin true 3 (-2)) ∧ Reads 0x7A470014 (.fcall fin 7 20) ∧ Reads 0x7A00FED4 (.call fin (-300))
    ∧ Reads 0x3AC20003 (.ftrainSeed mid 2 3) ∧ Reads 0x7B000003 (.ret fin) := by decide
theorem test_decode_matrix :
    Reads 0x3C880000 (.fmtb mid (.g 4)) ∧ Reads 0x3C850C01 (.wld mid (.g 2) (.g 3))
      ∧ Reads 0x3C8B1A3B (.mma mid (.g 5) (.g 6) (.g 7))
    ∧ Reads 0x3C912654 (.accout mid (.g 8) (.g 9) (.g 10)) ∧ Reads 0x3C000132 (.accz mid 3)
    ∧ Reads 0x7C020007 (.mstat fin (.v 1)) := by decide
theorem test_decode_plan :
    Reads 0x3D080002 (.pmarg mid false false (.v 4)) ∧ Reads 0x3D0C0382 (.pscl mid true true (.v 6))
    ∧ Reads 0x3D850C03 (.balance mid (.g 2) (.g 3)) ∧ Reads 0x3D8C000C (.ppart mid true (.g 6))
    ∧ Reads 0x3D891755 (.pout mid (.g 4) (.g 5) .z) ∧ Reads 0x7D020007 (.pstat fin (.v 1)) := by decide
theorem test_decode_copy :
    Reads 0x3E912650 (.cpy mid (.g 8) (.g 9) (.g 10)) ∧ Reads 0x3E980002 (.gth mid (.g 12))
    ∧ Reads 0x3E891634 (.cpyr mid (.g 4) (.g 5) (.g 6)) := by decide
theorem test_decode_system :
    Reads 0x3F82C000 (.rdclk mid (.g 1) false) ∧ Reads 0x3F84E000 (.rdclk mid (.g 2) true)
    ∧ Reads 0x7F868000 (.rdctr fin (.g 3) false 0) ∧ Reads 0x7F014012 (.syscall fin 18) ∧ Reads 0x7F010005 (.trap fin 5) :=
      by decide
theorem test_decode_refused : (decodeWord 0x08020808).toOption = none := by decide

/-! ### Single steps -/

/-- The package with the word of bits w about to issue. -/
def probe (w : Nat) : State := State.reset.withFetchWord 32 w
/-- Its split. -/
abbrev here : Place := ⟨0, 0, 0⟩
/-- The package with another group in its place. -/
def placed (g : Group) : State := setGroup (probe 0) 0 0 g
/-- The state that follows. -/
def next (o : Host.Outcome State Fault Refusal) : State :=
  match o with
  | .next t => t
  | _ => State.reset
/-- The group at the probe's place. -/
def grp (s : State) : Group := (groupAt s 0 0).getD probeGroup
/-- The probe's group with g registers. -/
def withG (rs : Tab Word) : Group := { probeGroup with gregs := rs }
/-- The group after an instruction on g registers. -/
def done (i : Instr) (rs : Tab Word) : Group := grp (next (exec i (placed (withG rs))))
/-- Register g n after it. -/
def gAfter (i : Instr) (rs : Tab Word) (n : Nat) : Word := tabGet 0 (done i rs).gregs n

theorem test_step_li :
    let g := grp (next (step (probe 0x0203FFFB)))
    tabGet 0 g.vregs (32 * 1 + 31) = -5 ∧ tabGet 0 g.vregs 32 = -5 := by decide
theorem test_step_illop : let g := grp (next (step (probe 0x08020808))); g.stopped = true ∧ g.trrec.cause = 1 := by decide
theorem test_step_trap :
    let g := grp (next (step (probe 0x7F010005))); (g.trrec.cause, g.trrec.kind, g.trrec.code) = (0, 1, 5) := by decide
theorem test_add_wraps : gAfter (.add mid (.g 3) (.g 1) (.g 2)) [(1, 0xFFFFFFFFFFFFFFFF), (2, 2)] 3 = 1 := by decide
theorem test_sub_borrows : gAfter (.sub mid (.g 1) (.z) (.g 1)) [(1, 1)] 1 = 0xFFFFFFFFFFFFFFFF := by decide
theorem test_mulh_sign : gAfter (.mulh mid (.g 3) (.g 1) (.g 1)) [(1, 0xFFFFFFFFFFFFFFFF)] 3 = 0 := by decide
theorem test_mulhu : gAfter (.mulhu mid (.g 3) (.g 1) (.g 1)) [(1, 0xFFFFFFFFFFFFFFFF)] 3 = 0xFFFFFFFFFFFFFFFE := by decide
theorem test_sar_fills : gAfter (.sar mid (.g 3) (.g 1) (.g 2)) [(1, 0x8000000000000000), (2, 0x7F)] 3 = 0xFFFFFFFFFFFFFFFF := by
  decide
theorem test_mad_adds : gAfter (.mad mid (.g 3) (.g 1) (.g 2)) [(1, 3), (2, 5), (3, 7)] 3 = 22 := by decide
theorem test_div_truncates :
    (done (.div mid (.g 3) (.g 1) (.g 2)) [(1, 0xFFFFFFFFFFFFFFF9), (2, 2)]).results.map (·.vals)
      = [[(32, 0xFFFFFFFFFFFFFFFD)]] := by decide
theorem test_add_s32 : gAfter (.addS32 mid (.g 3) (.g 1) (.k 0)) [(1, 0x7FFFFFFF)] 3 = 0xFFFFFFFF80000000 := by decide
theorem test_lis_shifts : gAfter (.lis mid (.g 1) 2) [(1, 1)] 1 = 0x10002 := by decide
theorem test_clz : gAfter (.clz mid (.g 2) (.g 1)) [(1, 1)] 2 = 63 := by decide
theorem test_cmp_signed : gAfter (.cmp mid .lt (.g 3) (.g 1) (.g 2)) [(1, 0xFFFFFFFFFFFFFFFF), (2, 1)] 3 = 1 := by decide
theorem test_bfx_sign : gAfter (.bfxS mid (.g 3) (.g 1) (.g 2)) [(1, 0xF0), (2, 0x404)] 3 = 0xFFFFFFFFFFFFFFFF := by decide
theorem test_bfi_field : gAfter (.bfi mid (.g 3) (.g 1) (.g 2)) [(1, 0x5), (2, 0x404), (3, 0xFFF)] 3 = 0xF5F := by decide
theorem test_padd_saturates : gAfter (.padd mid .s8 (.g 3) (.g 1) (.g 2)) [(1, 0x7F80), (2, 0x01FF)] 3 = 0x7F80 := by decide
theorem test_fadd_tie :
    let g := done (.fadd mid .f32 (.g 3) (.g 1) (.g 2)) [(1, 0x3F800000), (2, 0x33800000)]
    tabGet 0 g.gregs 3 = 0x3F800000 ∧ g.fstat = 0x10 := by decide
theorem test_fadd_infinities :
    let g := done (.fadd mid .f16 (.g 3) (.g 1) (.g 2)) [(1, 0x7C00), (2, 0xFC00)]
    tabGet 0 g.gregs 3 = 0x7E00 ∧ g.fstat = 1 := by decide
theorem test_cvt_saturates :
    gAfter (.cvtFloatFloat mid .e4m3 .f32 .rne true (.g 2) (.g 1)) [(1, 0x43FA0000)] 2 = 0x7E := by decide
theorem test_rcp_zero :
    let g := done (.rcp mid .f32 (.g 2) (.g 1)) [(1, 0x3F80000080000000)]
    tabGet 0 g.gregs 2 = 0x3F800000FF800000 ∧ g.fstat = 2 := by decide
theorem test_exp2_one : gAfter (.exp2 mid .bf16 (.g 2) (.g 1)) [(1, 0x3F80)] 2 % 0x10000 = 0x4000 := by decide
theorem test_gred_lanes : tabGet 0 (done (.gred mid .add .z64 (.g 6) .tid) []).gregs 6 = 496 := by decide
theorem test_vote_ballot :
    tabGet 0 (done (.voteBallot mid (.v 1) .tid) []).vregs 32 = 0xFFFFFFFE := by decide
theorem test_rdsr_fstat : gAfter (.rdsr mid (.g 1) 0) [] 1 = 0 := by decide
theorem test_wrsr_clears :
    (grp (next (exec (.wrsr mid (.g 1) 0) (placed { withG [(1, 0x1F03)] with fstat := 0x7 })))).fstat = 0x1F04 := by decide
theorem test_call_pushes :
    ((done (.call fin 7) []).splits.map fun p => (p.2.pc, p.2.word, p.2.stack.map (·.ret))) = [(7, 0, [1])] := by decide
theorem test_brp_divides :
    ((done (.brp fin false 1 5) []).splits.map fun p => (p.2.pc, p.2.mask)) = [(1, 0xFFFFFFFF)] := by decide
theorem test_syscall_record :
    let g := done (.syscall fin 18) []; (g.stopped, g.trrec.kind, g.trrec.code) = (true, 2, 18) := by decide
theorem test_store_bytes :
    let s := next (exec (.st mid .b16 (.g 1) 2 .z 0 1) (placed { withG [(1, 0xABCD)] with tregs := [(2, TReg.reset)] }))
    (memByte (next (exec (.accessPerformed 0 0) s)) 2, memByte (next (exec (.accessPerformed 0 0) s)) 3) = (0xCD, 0xAB) :=
      by decide

/-! ### Cases that meet the hypotheses of the statements: encoding, steps and registers -/

theorem placed_issues (g : Group) (sp : Split) (h : splitAt g 0 = some sp) : Issues (placed g) here g sp :=
  ⟨rfl, by simp [placed], h⟩

theorem calm : Calm probeGroup := ⟨rfl, by decide⟩
/-- In cycle 0 no governor's step is late. -/
theorem governed {s : State} (h : s.clock = 0) : Governed s := fun _ k => by
  have := k.2.2; rw [h] at this; exact Nat.not_lt_zero _ this
theorem mayTrap (g : Group) (h : g.isTender = none) : MayTrap (placed g) here g := 
  have slots : (coreOf (placed g) 0).slots = [(0, g)] := rfl
  ⟨h, by simp [tendersOf, slots, h]⟩

/-- Some state meets what a computing word asks for. -/
def MayCompute (c : Calc) : Prop := ∃ s pl g sp, Issues s pl g sp ∧ Calm g ∧ Legal g sp pl.split c.srcs c.d

theorem may_compute (c : Calc) (h : Legal probeGroup probeSplit 0 c.srcs c.d) : MayCompute c :=
  ⟨_, here, _, _, placed_issues probeGroup probeSplit rfl, calm, h⟩

/-- Some state meets what a cross-lane word asks for. -/
def MayCross (c : LaneCalc) : Prop := ∃ s pl g sp, Issues s pl g sp ∧ Calm g ∧ c.Legal g sp pl.split

theorem may_cross (c : LaneCalc) (h : c.Legal probeGroup probeSplit 0) : MayCross c :=
  ⟨_, here, _, _, placed_issues probeGroup probeSplit rfl, calm, h⟩

theorem test_meets_EncodeDecode :
    (Instr.add mid (.v 63) (.g 31) (.k 7)).wellFormed = true ∧ (Instr.add mid (.v 63) (.g 31) (.k 7)).hd.isSome = true :=
      by decide
theorem test_meets_DecodeEncode : ∃ i, decodeWord 0x79BFFFFE = .ok i := ⟨_, rfl⟩
theorem test_meets_StepRunsDecoded :
    MayIssue (probe 0x00060410) here probeGroup probeSplit
    ∧ CodeIs (probe 0x00060410) here probeGroup probeSplit (.ok (.add mid (.v 3) (.v 1) (.v 2)))
    ∧ CodeIs (probe 0x08020808) here probeGroup probeSplit (decodeWord 0x08020808)
    ∧ (∃ (s : State) (i : Instr) (r : List Instr), s.agenda = i :: r ∧ i.hd = none) ∧ State.reset.agenda = []
      ∧ State.reset.turn = none :=
  ⟨⟨rfl, governed rfl, ⟨rfl, rfl, rfl⟩, by simp [probeSplit], .inr ⟨by decide, by decide, by decide, by decide, by decide⟩⟩,
    ⟨_, rfl, by decide⟩, ⟨_, rfl, by decide⟩, ⟨{ State.reset with agenda := [.rebase] }, _, _, rfl, rfl⟩, rfl, rfl⟩
/-- A turn whose split is gone ends without a word. -/
theorem test_step_void_turn :
    ∃ t, step { State.reset with turn := some here } = .next t ∧ t.turn = none := ⟨_, rfl, by decide⟩
theorem test_meets_MemoryKept : Memory.wf (probe 0x203).mem = true ∧ ∃ t, step (probe 0x203) = .next t := ⟨by decide, _, rfl⟩

/-- A producer of v1 with latency 4 in bundle 3. -/
def made : Producer :=
  { pipe := .a, bundle := 3, lat := some 4, dst := .v 1, old := [(0, 5)], new := [(0, 6)], held := none }
theorem test_meets_OperandValues : probeSplit.run.prods = [] ∧ isTracked (.v 63) = true ∧ (7 : Fin 8) ≠ 0 := by decide
theorem test_meets_ReadsOfTheRun :
    isTracked (.v 1) = true ∧ made.dst = .v 1 ∧ (∀ q ∈ ([] : List Producer), q.dst ≠ .v 1)
    ∧ threadVal made.old 0 = some 5 ∧ threadVal made.new 0 = some 6
    ∧ (3 = made.bundle) ∧ (∀ l, made.lat = some l → 6 < made.bundle + l) ∧ ∀ l, made.lat = some l → made.bundle + l ≤ 7 := by
  refine ⟨rfl, rfl, by simp, rfl, rfl, rfl, ?_, ?_⟩ <;> rintro l ⟨⟩ <;> decide

theorem test_meets_TwoOperandWords :
    MayCompute (intCalc mid (.v 63) (.v 0) (.k 7) (· + ·)) ∧ MayCompute (intCalc mid (.g 31) (.g 0) .z (· + ·))
    ∧ MayCompute (intCalc3 fin (.o 7) (.v 1) .tid fun x y w => w + x * y) :=
  ⟨may_compute _ ⟨by decide, by decide, by decide, by decide⟩, may_compute _ ⟨by decide, by decide, by decide, by decide⟩,
    may_compute _ ⟨by decide, by decide, by decide, by decide⟩⟩
theorem test_meets_DivisionWords :
    MayCompute (divCalc mid (.g 3) (.g 1) (.g 2) quotS) ∧ MayCompute (divCalc mid (.v 3) (.v 1) (.g 2) remainU)
    ∧ (1 : Word) ≠ 0 ∧ ¬ ((0x8000000000000000 : Word) = 0x8000000000000000 ∧ (1 : Word) = -1)
    ∧ 0 ≤ (0x7FFFFFFFFFFFFFFF : Word).toInt ∧ (0x8000000000000000 : Word).toInt ≤ 0 :=
  ⟨may_compute _ ⟨by decide, by decide, by decide, by decide⟩, may_compute _ ⟨by decide, by decide, by decide, by decide⟩,
    by decide, by decide, by decide, by decide⟩
theorem test_meets_NarrowWords :
    MayCompute (intCalc mid (.v 3) (.v 1) (.v 2) fun x y => (half x + half y).signExtend 64)
    ∧ MayCompute (intCalc3 mid (.g 1) .z .z fun _ _ w => w <<< 16) :=
  ⟨may_compute _ ⟨by decide, by decide, by decide, by decide⟩, may_compute _ ⟨by decide, by decide, by decide, by decide⟩⟩
theorem test_meets_UnaryWords : MayCompute (intCalc mid (.v 3) (.v 1) .z fun x _ => x)
  ∧ MayCompute (intCalc3 mid (.v 3) (.v 1) (.v 2) fun x _ _ => x) :=
  ⟨may_compute _ ⟨by decide, by decide, by decide, by decide⟩, may_compute _ ⟨by decide, by decide, by decide, by decide⟩⟩
theorem test_meets_CompareWords : MayCompute (intCalc mid (.p 7) (.v 1) (.v 2) fun x y => truth (holds .lt x y)) :=
  may_compute _ ⟨by decide, by decide, by decide, by decide⟩
theorem test_meets_SelectWord :
    MayCompute { intCalc3 mid (.v 3) (.v 1) (.v 2) (fun x y w => if w = 1 then x else y) with w := (.p 7, .int 64) }
    ∧ MayCompute { intCalc3 mid (.g 3) (.g 1) (.g 2) (fun x y w => if w = 1 then x else y) with w := (.p 0, .int 64) }
    ∧ (7 : Fin 8) ≠ 0 ∧ decodeWord 0x0A020484 = .ok (.sel mid 4 (.v 1) (.v 1) (.v 16)) :=
  ⟨may_compute _ ⟨by decide, by decide, by decide, by decide⟩, may_compute _ ⟨by decide, by decide, by decide, by decide⟩,
    by decide, by decide⟩
theorem test_meets_PackedWords : MayCompute (packCalc mid .z32 (.v 3) (.v 1) (.k 7) fun x y => x + y) :=
  may_compute _ ⟨by decide, by decide, by decide, by decide⟩

/-! ### Floats, special functions and lanes -/

theorem test_meets_RoundsOnce : (1 : Nat) ≠ 0 := by decide
theorem test_meets_RoundsToNearest :
    maxFinite .f16 * (1 + 1 / (2 ^ (fracBits .f16 + 2) - 2)) ≤ |(1 * (65520 : Nat) * 2 ^ (0 : Int) : ℚ)|
    ∧ |(1 * (65519 : Nat) * 2 ^ (0 : Int) : ℚ)| < maxFinite .f16 * (1 + 1 / (2 ^ (fracBits .f16 + 2) - 2))
    ∧ isNum (fDecode .f16 0x6801) = true ∧ (roundTo .f16 .rne 0 false 2049 0).1 = 0x6800
    ∧ |(2049 : ℚ) - ratOf (fDecode .f16 0x6800)| = |2049 - ratOf (fDecode .f16 0x6801)| := by
  have a : fDecode .f16 0x6800 = .fin false 1024 1 := by decide
  have b : fDecode .f16 0x6801 = .fin false 1025 1 := by decide
  refine ⟨?_, ?_, by decide, by decide, ?_⟩
  · norm_num [maxFinite, fracBits]
  · norm_num [maxFinite, fracBits]
  · rw [a, b]; norm_num [ratOf]
theorem test_meets_RoundsDirected :
    |(-1 * (65504 : Nat) * 2 ^ (0 : Int) : ℚ)| ≤ maxFinite .f16 ∧ isNum (fDecode .f16 0xFBFF) = true
    ∧ ratOf (fDecode .f16 0xFBFF) ≤ -65504 ∧ -65504 ≤ ratOf (fDecode .f16 0xFBFF)
      ∧ |ratOf (fDecode .f16 0xFBFF)| ≤ |(-65504 : ℚ)| := by
  have a : fDecode .f16 0xFBFF = .fin true 2047 5 := by decide
  refine ⟨by norm_num [maxFinite], by decide, ?_, ?_, ?_⟩ <;> rw [a] <;> norm_num [ratOf]
theorem test_meets_FloatFormats :
    FTy.f16 ≠ .e4m3 ∧ 1023 < 2 ^ fracBits .f16 ∧ 30 * 2 ^ fracBits .f16 + 1023 ≤ maxCode .f16
    ∧ 15 * 2 ^ fracBits .e4m3 + 6 ≤ maxCode .e4m3 ∧ 0 * 2 ^ fracBits .f64 + 1 ≤ maxCode .f64 := by decide
theorem test_meets_FloatArithmetic :
    MayCompute (fltCalc mid .f64 (.v 3) (.v 1) (.k 7) fun x _ _ => (x, 0))
    ∧ MayCompute (fltCalc3 mid .e5m2 (.g 3) (.g 1) (.g 2) fun x _ _ => (x, 0)) :=
  ⟨may_compute _ ⟨by decide, by decide, by decide, by decide⟩, may_compute _ ⟨by decide, by decide, by decide, by decide⟩⟩
theorem test_meets_FloatOtherWords :
    MayCompute (fltCalc1 mid .bf16 (.v 3) (.v 1) fun x => (classBit .bf16 x, 0)) ∧ FTy.bf16 ∈ [FTy.f64, .f32, .f16, .bf16]
    ∧ Rnd.rd ≠ .dr :=
  ⟨may_compute _ ⟨by decide, by decide, by decide, by decide⟩, by decide, by decide⟩
theorem test_meets_ConversionWords : MayCompute (fltCalc1 mid .f64 (.v 3) (.v 1) fun x => (x, 0)) ∧ Rnd.rz ≠ .dr :=
  ⟨may_compute _ ⟨by decide, by decide, by decide, by decide⟩, by decide⟩
theorem test_meets_QuantisationWords :
    MayCompute (quantCalc mid (.v 3) (.v 1) (.g 2) (.v 3) (.flt .bf16) fun x _ _ => (x, 0)) ∧ FTy.e5m2 ∈ [FTy.e4m3, .e5m2] :=
  ⟨may_compute _ ⟨by decide, by decide, by decide, by decide⟩, by decide⟩
theorem test_meets_SumWords :
    MayCompute { fltCalc mid .e5m2 (.v 3) (.v 1) (.v 2) (fun _ _ _ => (0, 0)) with w := (.v 3, .flt .f32) }
    ∧ FTy.e5m2 ∈ [FTy.bf16, .f16, .e4m3, .e5m2] ∧ FTy.f16 ∈ [FTy.f32, .bf16, .f16] :=
  ⟨may_compute _ ⟨by decide, by decide, by decide, by decide⟩, by decide, by decide⟩
theorem test_meets_ExactFunctions :
    MayCompute (specCalc mid .bf16 (.v 3) (.v 1) inverseOf) ∧ MayCompute (rngCalc mid (.v 3) (.v 1) .tid fun z => z)
    ∧ 0xFFFFFFFF < 2 ^ 32 :=
  ⟨may_compute _ ⟨by decide, by decide, by decide, by decide⟩, may_compute _ ⟨by decide, by decide, by decide, by decide⟩,
    by decide⟩
theorem test_meets_BoundedFunctions : MayCompute (specCalc mid .f32 (.g 3) (.g 1) sqrtOf) :=
  may_compute _ ⟨by decide, by decide, by decide, by decide⟩
theorem test_meets_RootIsRounded :
    (0x7F7FFFFF < 2 ^ 31 ∧ isNum (fDecode .f32 0x7F7FFFFF) = true) ∧ isNum (fDecode .f32 1) = true ∧ ratOf (fDecode .f32 1) ≠ 0
    ∧ (sqrtOf 0x40800000).1 = 0x40000000 ∧ ratOf (fDecode .f32 0x40000000) < ratOf (fDecode .f32 0x40800000) := by
  have a : fDecode .f32 1 = .fin false 1 (-149) := by decide
  have b : fDecode .f32 0x40000000 = .fin false 8388608 (-22) := by decide
  have c : fDecode .f32 0x40800000 = .fin false 8388608 (-21) := by decide
  refine ⟨by decide, by decide, ?_, by decide, ?_⟩
  · rw [a]; norm_num [ratOf]
  · rw [b, c]; norm_num [ratOf]
theorem test_meets_LaneWords :
    MayCross (laneCalc mid (.v 3) (.v 1) (.v 2) (.int 64) (.int 8) fun l => l.each fun t => l.a t)
    ∧ MayCross { laneCalc mid (.g 31) (.v 1) (.g 2) (.int 64) (.int 64) (fun l => l.all (.g 31) 0) with uniB := true, gOk := true }
    ∧ MayCross (voteCalc mid (.p 1) (.v 1) ballot) :=
  ⟨may_cross _ ⟨by decide, ⟨by decide, by simp [laneCalc]⟩, by simp [laneCalc], by decide, by decide, by decide⟩,
    may_cross _ ⟨by decide, ⟨by decide, by simp⟩, by decide, by decide, by decide, by decide⟩,
    may_cross _ ⟨by decide, ⟨by decide, by simp [voteCalc, laneCalc]⟩, by simp [voteCalc, laneCalc], by decide, by decide,
      by decide⟩⟩
theorem test_meets_ReductionWords :
    (Instr.gred mid .xor .z32 (.g 1) (.v 1)).wellFormed = true
    ∧ MayCross (redCalc mid .z32 (.g 1) (.v 1) true (fun l => l.all (.g 1) 0) fun _ => 0)
    ∧ MayCross (redCalc mid .bf16 (.v 2) (.v 1) false (fun l => l.each fun _ => 0) fun _ => 0) :=
  ⟨by decide, may_cross _ ⟨by decide, ⟨by decide, by simp [redCalc]⟩, by simp [redCalc, laneCalc], by decide, by decide,
    by decide⟩,
    may_cross _ ⟨by decide, ⟨by decide, by simp [redCalc, laneCalc]⟩, by simp [redCalc, laneCalc], by decide, by decide,
      by decide⟩⟩

/-! ### Levels and memory -/

/-- The probe with a launch whose eight levels have the attribute word w. -/
def ruled (w : Word) : State := setLaunch (placed probeGroup) 0 { probeLaunch with mapl := List.replicate 8 (w, 0) }

theorem test_meets_LevelWords :
    Issues (ruled 0x40) here probeGroup probeSplit
    ∧ LevelReady (ruled 0x40) here probeGroup probeSplit { probeLaunch with mapl := List.replicate 8 (0x40, 0) } 7 true (.g 31)
    ∧ LevelReady (ruled 0x40) here probeGroup probeSplit { probeLaunch with mapl := List.replicate 8 (0x40, 0) } 7 false (.v 63)
    ∧ shares { probeLaunch with mapl := List.replicate 8 (0x40, 0) } 7 = true :=
  ⟨⟨rfl, rfl, rfl⟩, ⟨rfl, by decide, ⟨by decide, by decide, by simp⟩, by decide⟩,
    ⟨rfl, by decide, ⟨by decide, by decide, by simp⟩, by decide⟩, by decide⟩

/-- A split of threads 0 and 31. -/
def ends : Split := { probeSplit with mask := 0x80000001 }
/-- Its group. -/
def endsGroup : Group := { probeGroup with splits := [(0, ends)] }

theorem allOk_of {s pl g sp w P} (g0 : Group) (hg : groupAt (accessState s pl g sp w) pl.core pl.slot = some g0)
    (h : ∀ k ∈ memKeys sp w, isCanonical (addrOf s g sp w k) = true ∧ (addrOf s g sp w k).toNat % w.n = 0
      ∧ checkAcc s pl.core g w.op w.b.val w.n (addrOf s g sp w k) = .ok (.mem (P k))
      ∧ accConflict (accessState s pl g sp w) pl g0 w.op (addrOf s g sp w k) w.n = []
      ∧ watchHit (accessState s pl g sp w) g0.part w.op (addrOf s g sp w k) w.n = none) : AllOk s pl g sp w P := by
  intro k hk
  obtain ⟨a, b, c, d⟩ := h k hk
  exact ⟨a, fun _ => b, c, fun g1 h1 => by cases hg.symm.trans h1; exact d⟩

/-- What memory words ask for, in one state in which words may be empty or full. -/
structure MayAccess (s : State) (g g0 : Group) (sp : Split) (w : MemWord) (P : Nat → List (Nat × Nat)) : Prop where
  issues : Issues s here g sp
  ready  : MemReady s here g sp w
  ok     : AllOk s here g sp w P
  group  : AccessGroup (accessState s here g sp w) here g0
  same   : Coherent (accessState s here g sp w) 0
  sound  : NoPoison (accessState s here g sp w) sp w P
  alone  : NoWaiters (accessState s here g sp w)

/-- Eight bytes of each thread at 8t. -/
def eights (k : Nat) : List (Nat × Nat) := [(8 * k, 8)]

theorem may_access (w : MemWord) (s : State) (i : Issues s here endsGroup ends) (r : MemReady s here endsGroup ends w)
    (hg : groupAt (accessState s here endsGroup ends w) 0 0 = some endsGroup)
    (h : ∀ k ∈ memKeys ends w, isCanonical (addrOf s endsGroup ends w k) = true ∧ (addrOf s endsGroup ends w k).toNat % w.n = 0
      ∧ checkAcc s 0 endsGroup w.op w.b.val w.n (addrOf s endsGroup ends w k) = .ok (.mem (eights k))
      ∧ accConflict (accessState s here endsGroup ends w) here endsGroup w.op (addrOf s endsGroup ends w k) w.n = []
      ∧ watchHit (accessState s here endsGroup ends w) 0 w.op (addrOf s endsGroup ends w k) w.n = none)
    (hl : (coreOf (accessState s here endsGroup ends w) 0).l1 = [])
    (hp : (accessState s here endsGroup ends w).poison = [])
    (hr : ∀ p ∈ (accessState s here endsGroup ends w).cores, p.2.room = []) : MayAccess s endsGroup endsGroup ends w eights :=
  ⟨i, r, allOk_of endsGroup hg h, ⟨hg, rfl, rfl, by decide⟩, by simp [Coherent, hl],
    fun k _ p _ => by simp [anyPoisoned, isPoisoned, hp, tabGet, tabFind], hr⟩

/-- The probe on a page of another memory type. -/
def paged (mt : BitVec 2) (g : Group) : State :=
  setCore (placed g) 0 { coreOf (placed g) 0 with tlb := [{ probePage with mt := mt }] }
/-- A page of futures, of which words 0 and 31 are full. -/
def futures : State := { paged 1 endsGroup with full := [(0, true), (248, true)] }

/-- The word at 8 × the thread's number. -/
def spread (op : MemOp) (t : Opnd) : MemWord := ⟨op, 8, t, .int 64, 0, .tid, 3, 0⟩

theorem test_meets_LoadWords :
    MayAccess (placed endsGroup) endsGroup endsGroup ends (spread (.ld true) (.v 63)) eights
    ∧ MayAccess futures endsGroup endsGroup ends (spread .frd (.v 1)) eights
    ∧ ∀ k ∈ memKeys ends (spread .frd (.v 1)),
        isFull (accessState futures here endsGroup ends (spread .frd (.v 1))) (placeOf eights k) = true :=
  ⟨may_access _ _ ⟨rfl, rfl, rfl⟩ ⟨rfl, rfl, rfl, rfl, rfl, by decide⟩ rfl (by decide) rfl rfl (by decide),
    may_access _ _ ⟨rfl, rfl, rfl⟩ ⟨rfl, rfl, rfl, rfl, rfl, by decide⟩ rfl (by decide) rfl rfl (by decide), by decide⟩
theorem test_meets_StoreWords :
    MayAccess (placed endsGroup) endsGroup endsGroup ends (spread .st (.v 1)) eights
    ∧ MayAccess futures endsGroup endsGroup ends (spread .fwr (.v 1)) eights
    ∧ MayAccess futures endsGroup endsGroup ends (spread .fclr .z) eights
    ∧ MayAccess (placed endsGroup) endsGroup endsGroup ends (spread (.rmw 12) .z) eights :=
  ⟨may_access _ _ ⟨rfl, rfl, rfl⟩ ⟨rfl, rfl, rfl, rfl, rfl, by decide⟩ rfl (by decide) rfl rfl (by decide),
    may_access _ _ ⟨rfl, rfl, rfl⟩ ⟨rfl, rfl, rfl, rfl, rfl, by decide⟩ rfl (by decide) rfl rfl (by decide),
    may_access _ _ ⟨rfl, rfl, rfl⟩ ⟨rfl, rfl, rfl, rfl, rfl, by decide⟩ rfl (by decide) rfl rfl (by decide),
    may_access _ _ ⟨rfl, rfl, rfl⟩ ⟨rfl, rfl, rfl, rfl, rfl, by decide⟩ rfl (by decide) rfl rfl (by decide)⟩
theorem test_meets_AtomicWords :
    memWordOf (.acas mid true (.v 62) 0 .tid 3) = some (mid, spread (.rmw 7) (.v 62)) ∧ (spread (.rmw 7) (.v 62)).t ≠ .z
    ∧ MayAccess (placed endsGroup) endsGroup endsGroup ends (spread (.rmw 7) (.v 62)) eights :=
  ⟨rfl, by decide, may_access _ _ ⟨rfl, rfl, rfl⟩ ⟨rfl, rfl, rfl, rfl, rfl, by decide⟩ rfl (by decide) rfl rfl (by decide)⟩

/-- A group with pending accesses. -/
def queued (as : List PendAcc) : Group := { probeGroup with pend := as }
/-- A store of FWR, then a plain one. -/
def twoAcc : List PendAcc := [{ va := 8, loc := 8, n := 8, op := .fwr 5 }, { va := 0, loc := 0, n := 8, op := .plain 6 }]
theorem test_meets_AccessIsPerformed :
    groupAt (placed (queued twoAcc)) 0 0 = some (queued twoAcc) ∧ (∃ a r, (queued twoAcc).pend = a :: r ∧ r ≠ [] ∧ a.op = .fwr 5)
    ∧ NoWaiters (placed (queued twoAcc)) := ⟨rfl, ⟨_, _, rfl, by decide, rfl⟩, by unfold NoWaiters; decide⟩

/-- A group with a TRB of register 7. -/
def rebinding (a : Word) : Group := { probeGroup with trbs := [{ n := 7, a := a, g := 0 }] }
theorem test_meets_OtherMemoryWords :
    MayAccess (placed endsGroup) endsGroup endsGroup ends (spread (.waitm .eq) .z) eights
    ∧ (∀ k ∈ memKeys ends (spread (.waitm .eq) .z), eights k = [(placeOf eights k, 8)]
        ∧ waitHolds .eq 8 (bytesAt (memByte (accessState (placed endsGroup) here endsGroup ends (spread (.waitm .eq) .z))) (placeOf eights k) 8)
          (dataOf (placed endsGroup) endsGroup ends (spread (.waitm .eq) .z) k) = true)
    ∧ (namesBad probeGroup [.v 63] = false ∧ tenderNeeds probeGroup probeSplit [.v 63] = false)
    ∧ UniformSrcs probeGroup probeSplit 0 [.g 31]
    ∧ groupAt (placed (rebinding 0x0100000000000000)) 0 0 = some (rebinding 0x0100000000000000)
    ∧ (rebinding 0).trbs[0]? = some { n := 7, a := 0, g := 0 } ∧ (partOf (placed (rebinding 0)) 0).gen = 0
    ∧ isCanonical 0x0100000000000000 = false ∧ isCanonical 0x00FFFFFFFFFFFFFF = true
    ∧ inAperture 0xFFFFFFFFFFC00000 = true ∧ isCanonical 0xFFFFFFFFFFC00000 = true ∧ inAperture 0xFFFFFFFFFFBFFFFF = false
    ∧ (∃ l, transPage (placed (rebinding 0xFFFF)) 0 0 0xFFFF = .ok l)
      ∧ transPage (placed (rebinding 0x10000)) 0 0 0x10000 = .absent :=
  ⟨may_access _ _ ⟨rfl, rfl, rfl⟩ ⟨rfl, rfl, rfl, rfl, rfl, by decide⟩ rfl (by decide) rfl rfl (by decide), by decide, by decide,
    ⟨by decide, by decide, by decide⟩, rfl, rfl, rfl, by decide, by decide, by decide, by decide, by decide, ⟨_, rfl⟩, by decide⟩

/-- A group that holds an address in g1. -/
def at1 (a : Word) : Group := withG [(1, a)]
/-- A word at g1. -/
def atG (op : MemOp) : MemWord := ⟨op, 8, .g 2, .int 64, 0, .g 1, 0, 0⟩
/-- A group whose translation register 0 forbids writes. -/
def readOnly : Group :=
  { at1 0 with tregs := [(0, { v := true, mt := 0, rd := true, wr := false, base := 0, psz := 0, pa := 0 })] }
theorem test_meets_MemoryStops :
    memWordOf (.ld mid .b64 (.g 2) 0 (.g 1) 0 0) = some (mid, atG (.ld false))
    ∧ memWordOf (.aadd mid true (.g 2) 0 (.g 1) 0) = some (mid, atG (.rmw 0))
    ∧ (∀ a ∈ [(0x0100000000000000 : Word), 4, 0x10000], MemReady (placed (at1 a)) here (at1 a) probeSplit (atG (.rmw 0)))
    ∧ memKeys probeSplit (atG (.rmw 0)) = [] ++ 32 :: [] ∧ MayTrap (placed readOnly) here readOnly
    ∧ isCanonical (addrOf (placed (at1 0x0100000000000000)) (at1 0x0100000000000000) probeSplit (atG (.ld false)) 32) = false
    ∧ (addrOf (placed (at1 4)) (at1 4) probeSplit (atG (.rmw 0)) 32).toNat % 8 ≠ 0 ∧ (atG (.rmw 0)).op.aligned = true
    ∧ MemReady (placed readOnly) here readOnly probeSplit (atG (.rmw 0))
    ∧ checkAcc (placed readOnly) 0 readOnly (.rmw 0) 0 8 0 = .bad .prot 0
    ∧ checkAcc (placed (at1 0x10000)) 0 (at1 0x10000) (.ld false) 0 8 0x10000 = .absent 0x10000
    ∧ AccessGroup (accessState (placed (at1 0x10000)) here (at1 0x10000) probeSplit (atG (.ld false))) here (at1 0x10000)
    ∧ ({ probe 0 with held := true } : State).held = true ∧ (probe 0).held = false ∧ trbPending (rebinding 0) 7 = true :=
  ⟨rfl, rfl, by intro a h; simp only [List.mem_cons, List.mem_nil_iff, or_false] at h
                rcases h with rfl | rfl | rfl <;> exact ⟨rfl, rfl, rfl, rfl, rfl, by decide⟩,
    by decide, mayTrap _ rfl, by decide, by decide, by decide, ⟨rfl, rfl, rfl, rfl, rfl, by decide⟩, by decide, by decide,
    ⟨rfl, rfl, rfl, by decide⟩, rfl, rfl, by decide⟩

/-! ### Fences, barriers, control words and exits -/

/-- A second split. -/
def other (w : Option Wait) : Split := { probeSplit with pc := 9, running := false, wait := w }
/-- A group of two splits. -/
def pair (w : Option Wait) : Group := { probeGroup with splits := [(0, ends), (1, other w)] }
theorem settled : Settled here probeGroup probeSplit := ⟨rfl, by decide, rfl, by simp [probeGroup, probeSplit]⟩

theorem test_meets_FenceWords :
    Issues (placed probeGroup) here probeGroup probeSplit ∧ Calm probeGroup ∧ Settled here probeGroup probeSplit
    ∧ Settled here (pair none) ends ∧ (∀ y ∈ (coreOf (placed probeGroup) 0).slips, y.slot ≠ 0)
    ∧ ((probeGroup.fstat ||| probeGroup.engFlags.setWidth 13).extractLsb' 0 5
      &&& (probeGroup.fstat ||| probeGroup.engFlags.setWidth 13).extractLsb' 8 5 = 0)
    ∧ probeGroup.acks = [] ∧ probeGroup.copyErr = none ∧ probeGroup.infeas = false ∧ (queued twoAcc).pend ≠ []
    ∧ ((queued twoAcc).isTender = none ∧ Calm (queued twoAcc)) :=
  ⟨placed_issues _ _ rfl, calm, settled, ⟨rfl, by decide, rfl, by decide⟩, by decide, by decide, rfl, rfl, rfl, by decide, rfl,
    ⟨rfl, by decide⟩⟩

/-- The instance that the probe's group names at .quad with id 0. -/
abbrev bar0 : BarKey := .quad 0 0 0
/-- A group that arrived in generation n there. -/
def came (n : Nat) : Group := { probeGroup with arrived := [(bar0, n)] }
theorem test_meets_BarrierWords :
    OthersWait (pair (some .lane)) 0 .lane ∧ Settled here (pair (some .lane)) ends ∧ ends.stage ≠ 2
    ∧ Alone probeGroup 0 ∧ UniformSrcs probeGroup probeSplit 0 [.z, .k 1] ∧ (∀ x ∈ probeGroup.arrived, x.1 ≠ bar0)
    ∧ instanceKey 0 probeGroup .quad (once (placed probeGroup) probeGroup probeSplit .z) = bar0
    ∧ (barOf (placed probeGroup) bar0).arrivals = []
    ∧ 0 + 1 < expectedOf (barOf (placed probeGroup) bar0) (once (placed probeGroup) probeGroup probeSplit (.k 1))
    ∧ expectedOf (barOf (placed probeGroup) bar0) (once (placed probeGroup) probeGroup probeSplit (.k 0)) ≤ 0 + 1
    ∧ Unmatched (came 0) bar0 0 ∧ Settled here (came 0) probeSplit
    ∧ 0 < (barOf (setBar (placed (came 0)) bar0 { Barrier.reset with gen := 1 }) bar0).gen
    ∧ (barOf (placed (came 0)) bar0).gen ≤ 0 :=
  ⟨by unfold OthersWait; decide, ⟨rfl, by decide, rfl, by decide⟩, by decide, by unfold Alone; decide,
    ⟨by decide, by decide, by decide⟩, by decide, rfl, rfl, by decide, by decide, rfl, ⟨rfl, by decide, rfl, by decide⟩,
      by decide,
    by decide⟩

/-- A launch whose level 0 synchronises, of KIND k, with MAPG m. -/
def synced (k m : Word) : Launch := { probeLaunch with mapl := [(0x20 + k, 0)], mapg := m }
theorem test_meets_LevelSync :
    launchOf (setLaunch (placed probeGroup) 0 (synced 1 0xFFF)) 0 = some (synced 1 0xFFF) ∧ 0 < (synced 1 0xFFF).nlev
    ∧ (levelOf (synced 1 0xFFF) 0).1.getLsbD 5 = true
    ∧ ¬ ((synced 1 0xFFF).mapg >>> 8 &&& 15 ≠ 15 ∧ 0 ≤ ((synced 1 0xFFF).mapg >>> 8 &&& 15).toNat)
    ∧ ¬ ((synced 1 0xFFF).mapg >>> 4 &&& 15 ≠ 15 ∧ 0 ≤ ((synced 1 0xFFF).mapg >>> 4 &&& 15).toNat)
    ∧ ((synced 1 0xF0F).mapg >>> 4 &&& 15 ≠ 15 ∧ 0 ≤ ((synced 1 0xF0F).mapg >>> 4 &&& 15).toNat)
    ∧ OthersWait (pair (some .lane)) 0 .lane ∧ (Instr.redl mid .add .f64 (.v 63) (.v 0) 0).wellFormed = true
    ∧ badDst (.v 63) = false ∧ namesBad probeGroup [.v 63, .v 0] = false ∧ (∀ n, Opnd.v 63 ≠ .g n)
    ∧ hazard probeGroup probeSplit 0 [.v 0] [.v 63] = false ∧ lvKind (synced 1 0xF0F) 0 = 1 ∧ lvKind (synced 0 0xFFF) 0 = 0 :=
  ⟨rfl, by decide, by decide, by decide, by decide, by decide, by unfold OthersWait; decide, by decide, by decide, by decide,
    by simp, by decide, by decide, by decide⟩

theorem test_meets_EventQueue :
    UniformSrcs probeGroup probeSplit 0 [.k 0] ∧ Nat.min (once (placed probeGroup) probeGroup probeSplit .z).toNat 64 ≤ 0
    ∧ 0 < Nat.min (once (placed probeGroup) probeGroup probeSplit (.k 0)).toNat 64
    ∧ DestReady here probeGroup probeSplit (.g 31) ∧ DestReady here probeGroup probeSplit (.v 63)
    ∧ (coreOf (placed probeGroup) 0).events.length < 64
    ∧ (coreOf (setCore (probe 0) 0 { coreOf (probe 0) 0 with waiting := [⟨0, 1⟩] }) 0).waiting = [⟨0, 1⟩] :=
  ⟨⟨by decide, by decide, by decide⟩, by decide, by decide, ⟨rfl, rfl, rfl, rfl⟩, ⟨rfl, rfl, rfl, rfl⟩, by decide, rfl⟩

/-- A split with n entries on its stack. -/
def deep (n : Nat) (k : CallKind) : Split := { probeSplit with stack := List.replicate n { ret := 5, kind := k } }
/-- Its group. -/
def deepGroup (n : Nat) (k : CallKind) : Group := { probeGroup with splits := [(0, deep n k)] }
/-- A group whose p1 reads m. -/
def predicated (m : Mask) : Group := { probeGroup with pregs := [(1, m)] }
/-- A core that predicts the call at packet 0. -/
def predicting : State :=
  setCore (placed probeGroup) 0
    { coreOf (placed probeGroup) 0 with pred := [(0, { tag := some 0, base := 7, stride := 1, conf := 2 })] }
theorem test_meets_BranchWords :
    hazard (predicated 1) probeSplit 0 [.p 1] [] = false ∧ probeSplit.mask ≠ 0
    ∧ Takes (placed (predicated 0)) (predicated 0) probeSplit false 1 0
    ∧ Takes (placed (predicated 0)) (predicated 0) probeSplit true 1 0xFFFFFFFF
    ∧ Takes (placed (predicated 0x80000000)) (predicated 0x80000000) probeSplit false 1 0x80000000
    ∧ UniformSrcs probeGroup probeSplit 0 [.g 31] ∧ (deep 15 .plain).stack.length < 16 ∧ 16 ≤ (deep 16 .plain).stack.length
    ∧ Issues (placed (deepGroup 16 .plain)) here (deepGroup 16 .plain) (deep 16 .plain)
    ∧ MayTrap (placed (deepGroup 16 .plain)) here (deepGroup 16 .plain)
    ∧ (63 : BitVec 6).toNat + 1 ≤ probeGroup.valloc ∧ (tabFind 0 (coreOf (placed probeGroup) 0).pred).isNone = true
    ∧ (pair none).splits.length ≠ 1
    ∧ (∃ p, forkPlace (coreOf predicting 0) probeGroup probeSplit = some p)
    ∧ (tabGet { tag := none, base := 0, stride := 0, conf := 0 } (coreOf predicting 0).pred 0).tag = some probeSplit.pc
    ∧ 2 ≤ (tabGet { tag := none, base := 0, stride := 0, conf := 0 } (coreOf predicting 0).pred 0).conf :=
  ⟨by decide, by decide, by unfold Takes; decide, by unfold Takes; decide, by unfold Takes; decide,
    ⟨by decide, by decide, by decide⟩, by decide, by decide, ⟨rfl, rfl, rfl⟩, mayTrap _ rfl, by decide, by decide, by decide,
    ⟨_, rfl⟩, by decide, by decide⟩

/-- A group with a deferral entry of split 0. -/
def deferred (j : Bool) : Group := { probeGroup with defers := [{ pc := 0, mask := 1, owner := 0, j := j }] }
theorem test_meets_ReturnWords :
    (∃ e r, (deep 16 .plain).stack = e :: r ∧ e.kind = .plain) ∧ (∃ e r, (deep 1 .trained).stack = e :: r ∧ e.kind = .trained)
    ∧ Issues (placed (deepGroup 1 .trained)) here (deepGroup 1 .trained) (deep 1 .trained)
    ∧ (deep 0 .plain).stack = [] ∧ (∃ e, (deferred true).defers.find? (fun d => d.owner == 0) = some e ∧ e.pc = probeSplit.pc)
    ∧ (∃ e, (deferred false).defers.find? (fun d => d.owner == 0) = some e ∧ e.j = false)
    ∧ probeGroup.splits = [(0, probeSplit)] ∧ (∃ n x, n ≠ 0 ∧ splitAt (pair none) n = some x ∧ x.wait = none)
    ∧ hazard probeGroup probeSplit 0 [.g 30, .g 31] [] = false :=
  ⟨⟨_, _, rfl, rfl⟩, ⟨_, _, rfl, rfl⟩, ⟨rfl, rfl, rfl⟩, rfl, ⟨_, rfl, rfl⟩, ⟨_, rfl, rfl⟩, rfl, ⟨1, _, by decide, rfl, rfl⟩,
    by decide⟩

/-! ### Exits, traps, system words and units -/

/-- The package with page tables: virtual page 0x10000 of partition 0 is the frame at 0x20000. -/
def tables (s : State) : State :=
  { setPart s 0 { partOf s 0 with ptroot := 0x1000 } with
    mem := [(0x1000, 0x01), (0x1001, 0x10), (0x1008, 0x1D), (0x100A, 0x02)] }
/-- Two splits whose launch has its record area there. -/
def exiting : State := setLaunch (tables (placed (pair none))) 0 { probeLaunch with recArea := 0x10000 }

/-- The page that these tables give, wherever the tables themselves stand unchanged. -/
theorem page_at (u : State) (root : (partOf u 0).ptroot = 0x1000) (f0 : ∀ pa < 0x30000, frameSet u pa = true)
    (byte : ∀ a < 0x20000, tabGet 0 u.mem a = tabGet 0 exiting.mem a) (off : Nat) (h : off < 64) (wr : Bool) :
    vaPlain u 0 (0x10000 + BitVec.ofNat 64 off) wr = .ok (0x20000 + off) 0 := by
  have v : ((0x10000 : Word) + BitVec.ofNat 64 off).toNat = 0x10000 + off := by
    simp [BitVec.toNat_add]; omega
  have r0 : memRead u 0x1000 8 = 0x1001 := by
    simp only [memRead, tabRead, byte _ (by decide : 0x1000 < 0x20000), byte _ (by decide : 0x1001 < 0x20000),
      byte _ (by decide : 0x1002 < 0x20000), byte _ (by decide : 0x1003 < 0x20000), byte _ (by decide : 0x1004 < 0x20000),
      byte _ (by decide : 0x1005 < 0x20000), byte _ (by decide : 0x1006 < 0x20000), byte _ (by decide : 0x1007 < 0x20000)]
    decide
  have r1 : memRead u 0x1008 8 = 0x2001D := by
    simp only [memRead, tabRead, byte _ (by decide : 0x1008 < 0x20000), byte _ (by decide : 0x1009 < 0x20000),
      byte _ (by decide : 0x100A < 0x20000), byte _ (by decide : 0x100B < 0x20000), byte _ (by decide : 0x100C < 0x20000),
      byte _ (by decide : 0x100D < 0x20000), byte _ (by decide : 0x100E < 0x20000), byte _ (by decide : 0x100F < 0x20000)]
    decide
  have w : walk u 0 (0x10000 + BitVec.ofNat 64 off) =
      .leaf { part := 0, psz := 0, va := 0x10000, pa := 0x20000, mt := 0, r := true, w := true, x := false } := by
    have t : tableBad u 0x1001#64 = false := by
      have e : pteAddr 0x1001#64 = 0x1000 := by decide
      have t0 : targetOf 0x1000 = .pool := by decide
      unfold tableBad; rw [e, f0 0x1000 (by decide), t0]; decide
    have e : pteAddr (BitVec.ofNat 64 0x1001) = 0x1000 := by decide
    have down : ∀ sh bits z rest, (0x10000 + off) / 2 ^ sh % 2 ^ bits = 0 →
        walkLevels u 0 (0x10000 + off) 0x1000 ((sh, bits, z) :: rest) = walkLevels u 0 (0x10000 + off) 0x1000 rest := by
      intro sh bits z rest h
      simp only [walkLevels, h, Nat.mul_zero, Nat.add_zero, r0, e]
      rw [if_neg (by decide), if_neg (by decide), if_neg (by decide), if_neg (by simp [t])]
    have last : walkLevels u 0 (0x10000 + off) 0x1000 [(16, 5, some 0)] =
        .leaf { part := 0, psz := 0, va := 0x10000, pa := 0x20000, mt := 0, r := true, w := true, x := false } := by
      have i : (0x10000 + off) / 2 ^ 16 % 2 ^ 5 = 1 := by omega
      have b : (0x10000 + off) / pageBytes 0 * pageBytes 0 = 0x10000 := by
        rw [show pageBytes 0 = 0x10000 by decide]; omega
      simp only [walkLevels, i, Nat.mul_one, show 0x1000 + 8 = 0x1008 by decide, r1]
      rw [if_neg (by decide), if_neg (by decide), if_pos (by decide), if_neg (by decide)]
      simp only [b]
      decide
    unfold walk walkPlan
    rw [root, show pteAddr 0x1000 = 0x1000 by decide,
      v, show (0x10000 + off) % 2 ^ 57 = 0x10000 + off by omega, down _ _ _ _ (by omega), down _ _ _ _ (by omega), down _ _ _ _ (by omega),
      down _ _ _ _ (by omega), last]
  have f1 := f0 (0x20000 + off) (by omega)
  have c : ∀ off < 64, isCanonical (0x10000 + BitVec.ofNat 64 off) = true
    ∧ inAperture (0x10000 + BitVec.ofNat 64 off) = false := by
    decide
  simp only [vaPlain, vaTrans, (c off h).1, (c off h).2, v, show (0x10000 + off) % 2 ^ 57 = 0x10000 + off by omega, w]
  simp only [show (0x20000 : Nat) + (0x10000 + off - 0x10000) = 0x20000 + off by omega, f1]
  have t : targetOf (0x20000 + off) = .pool := by unfold targetOf; rw [if_pos (by unfold dieBytes; omega)]
  cases wr <;> simp [t]

/-- Every frame below 0x30000 is set where no local pool is, no die is lost and nothing is withheld. -/
theorem frames (u : State) (pools : u.pools = []) (dead : u.deadDies = []) (held : u.withheld = []) : ∀ pa < 0x30000, frameSet u pa = true := by
  intro pa h
  have : targetOf pa = .pool := by unfold targetOf; rw [if_pos (by unfold dieBytes; omega)]
  have : localBytes u = 0 := by unfold localBytes; rw [pools]; decide
  have : lostBytes u = 0 := by unfold lostBytes; rw [dead]; decide
  have : isWithheld u pa = false := by unfold isWithheld; rw [held]; rfl
  simp [frameSet, *]; unfold dieBytes; omega

theorem steady : Steady exiting 0 0x10000 0x20000 8 0 := fun u hu hp hb =>
  page_at u (congrArg Part.ptroot (hp 0)) (frames u (congrArg State.pools hu) (congrArg State.deadDies hu) (congrArg State.withheld hu))
    (fun a h => hb a (.inl h)) 0 (by decide) true
theorem recHere : RecHere exiting { probeLaunch with recArea := 0x10000 } 0x20000 0 :=
  ⟨by decide, fun u hu hb off h =>
    page_at u (hu.1 0) (fun pa h => (hu.2 pa).trans (frames exiting rfl rfl rfl pa h)) (fun a h => hb a (.inl h)) off h true, fun _ _ => rfl⟩

theorem test_meets_ExitWord :
    Issues exiting here (pair none) ends ∧ Settled here (pair none) ends
    ∧ launchOf exiting 0 = some { probeLaunch with recArea := 0x10000 } ∧ Steady exiting 0 0x10000 0x20000 8 0
    ∧ liveMask (pair none) &&& ~~~ends.mask ≠ 0 :=
  ⟨⟨rfl, rfl, rfl⟩, ⟨rfl, by decide, rfl, by decide⟩, rfl, steady, by decide⟩

/-- A group whose FSTAT is x. -/
def flagged (x : BitVec 13) : Group := { probeGroup with fstat := x }
/-- A tender. -/
def tender : Group :=
  { probeGroup with isTender := some { fork := 0, caller := 1, n := 8, mask := 0, base := 0, stride := 0, written := [], tracked := [], hold := [], nextOp := 0 } }
/-- A split whose run has the producer of v1 outstanding. -/
def owingSplit : Split := { probeSplit with run := { Run.start with bundle := 6, prods := [made] } }
/-- Its group, in debug mode. -/
def owing : Group := { probeGroup with debug := true, splits := [(0, owingSplit)] }
/-- A group with an outstanding result. -/
def late : Group :=
  { probeGroup with results := [{ split := 0, dst := .v 1, vals := [(0, 1)], dead := false, src := .var, redl := false }] }

theorem test_meets_TrapWords :
    Issues (placed probeGroup) here probeGroup probeSplit ∧ MayTrap (placed probeGroup) here probeGroup
    ∧ Settled here probeGroup probeSplit ∧ issueMode [.v 1, .v 2] (.g 0) = .opspec
    ∧ namesBad { probeGroup with valloc := 8 } [.v 3, .v 8, .v 2] = true
    ∧ (issueMode [.v 1, .v 2] (.v 3) ≠ .opspec ∧ namesBad owing [.v 3, .v 1, .v 2] = false
      ∧ hazard owing owingSplit 0 [.v 1, .v 2] [.v 3] = true ∧ Issues (placed owing) here owing owingSplit
        ∧ MayTrap (placed owing) here owing) :=
  ⟨placed_issues _ _ rfl, mayTrap _ rfl, settled, by decide, by decide, by decide, by decide, by decide, ⟨rfl, rfl, rfl⟩,
    mayTrap _ rfl⟩

theorem test_meets_FirstChecks :
    Issues (placed (flagged 0x1010)) here (flagged 0x1010) probeSplit ∧ MayTrap (placed (flagged 0x1010)) here (flagged 0x1010)
    ∧ probeSplit.stage = 0 ∧ (flagged 0x1010).fstat.extractLsb' 0 5 &&& (flagged 0x1010).fstat.extractLsb' 8 5 ≠ 0
    ∧ (flagged 0x0101).fstat.extractLsb' 0 5 &&& (flagged 0x0101).fstat.extractLsb' 8 5 ≠ 0
    ∧ UniformSrcs (flagged 0x1010) probeSplit 0 [.g 1, .z]
    ∧ (launchOf (setLaunch (placed (flagged 0x1010)) 0 (synced 1 0)) 0 = some (synced 1 0)
      ∧ (levelOf (synced 1 0) 0).1.getLsbD 5 = true)
    ∧ hazard (flagged 0x1010) probeSplit 0 [.v 1] [.v 2] = false
    ∧ Issues (placed tender) here tender probeSplit ∧ tender.isTender.isSome = true :=
  ⟨placed_issues _ _ rfl, mayTrap _ rfl, rfl, by decide, by decide, ⟨by decide, by decide, by decide⟩, ⟨rfl, by decide⟩,
    by decide,
    placed_issues _ _ rfl, rfl⟩

theorem test_meets_OtherTraps :
    launchOf (setLaunch (placed probeGroup) 0 { probeLaunch with nlev := 7 }) 0 = some { probeLaunch with nlev := 7 }
    ∧ ({ probeLaunch with nlev := 7 } : Launch).nlev ≤ 7 ∧ shares { probeLaunch with mapl := [(0x20, 0)] } 0 = false
    ∧ (levelOf { probeLaunch with mapl := [(0x40, 0)] } 0).1.getLsbD 5 = false ∧ DestReady here probeGroup probeSplit (.v 63)
    ∧ UniformSrcs probeGroup probeSplit 0 [.z] ∧ liveMask (pair none) ≠ ends.mask ∧ (deferred false).defers ≠ []
    ∧ MayIssue (probe 0x08020808) here probeGroup probeSplit
    ∧ ∃ e, CodeIs (probe 0x08020808) here probeGroup probeSplit (.error e) :=
  ⟨rfl, by decide, by decide, by decide, ⟨rfl, rfl, rfl, rfl⟩, ⟨by decide, by decide, by decide⟩, by decide, by decide,
    ⟨rfl, governed rfl, ⟨rfl, rfl, rfl⟩, by simp [probeSplit], .inr ⟨by decide, by decide, by decide, by decide, by decide⟩⟩, _, _, rfl, rfl⟩

/-- The package in which partition 0 may test itself. -/
def testing : State := setPart (placed probeGroup) 0 { partOf (placed probeGroup) 0 with pcfg := 2 }
theorem test_meets_SystemWords :
    DestReady here probeGroup probeSplit (.g 31) ∧ (15 : BitVec 13).toNat < 16 ∧ probeGroup.results = [] ∧ late.results ≠ []
    ∧ here.core < 1024
    ∧ (partOf testing 0).pcfg.getLsbD 1 = true ∧ MemDone here probeGroup probeSplit
    ∧ (∀ x ∈ (coreOf testing 0).slots, x.1 = 0) ∧ (coreOf testing 0).array.claim = none
    ∧ (∃ x ∈ (coreOf (setGroup testing 0 1 probeGroup) 0).slots, x.1 ≠ 0) ∧ UniformSrcs probeGroup probeSplit 0 [.g 1] :=
  ⟨⟨rfl, rfl, rfl, rfl⟩, by decide, rfl, by decide, by decide, by decide, settled.mem, by decide, rfl, by decide,
    ⟨by decide, by decide, by decide⟩⟩

/-- The array that the probe's team has claimed. -/
def claimed : MArray := { (coreOf (probe 0) 0).array with claim := some (0, 0) }
/-- The package in which the team also owns the first eight granules of its core's scratchpad. -/
def arrayed (g : Group) : State :=
  setCore (placed g) 0 { coreOf (placed g) 0 with array := claimed, granules := (List.range 8).map fun i => (i, (0, 0)) }

/-- The operation may enter. -/
theorem may_enter (o : ArrOp) (f : footprintOk (coreOf (arrayed probeGroup) 0) 0 probeGroup o = true)
    (r : unitLoad claimed (opUnit o) < 8) (n : (coreOf (arrayed probeGroup) 0).slips.length + (opRanges 0 o).length ≤ 128) :
    MayEnter (arrayed probeGroup) here probeGroup probeSplit claimed o := ⟨⟨by decide, rfl⟩, f, rfl, r, n⟩

/-- What every word of the array asks for. -/
theorem array_ready : Issues (arrayed probeGroup) here probeGroup probeSplit ∧ DrainedGroup (arrayed probeGroup) here probeGroup
    ∧ Claimed (coreOf (arrayed probeGroup) 0).array probeGroup claimed := ⟨⟨rfl, rfl, rfl⟩, ⟨rfl, calm⟩, .inl ⟨rfl, rfl⟩⟩

theorem test_meets_MatrixWords :
    EngReady here probeGroup probeSplit [.g 29, .g 30, .g 31] [] []
    ∧ MayEnter (arrayed probeGroup) here probeGroup probeSplit claimed (.wld 0xFFFFFFFFFFC00000 0xFFFFFFFFFFC02000)
    ∧ MayEnter (arrayed probeGroup) here probeGroup probeSplit claimed .wswp
    ∧ MayEnter (arrayed probeGroup) here probeGroup probeSplit claimed (.accz 15)
    ∧ MayEnter (arrayed probeGroup) here probeGroup probeSplit claimed (.mma 0xFFFFFFFFFFC00000 0x303F 128 FmtRec.reset)
    ∧ MayEnter (arrayed probeGroup) here probeGroup probeSplit claimed (.accout 0xFFFFFFFFFFC00000 0x303F 256 FmtRec.reset)
    ∧ MayEnter (arrayed probeGroup) here probeGroup probeSplit claimed (.accin 0xFFFFFFFFFFC00000 0x303F 256)
    ∧ (let ds := [(16384 <<< 40 : Word) ||| (128 <<< 20), (256 <<< 40) ||| (8192 <<< 20) ||| 8192, 0x10001]
      mmtReserved ds = false ∧ MayEnter (arrayed probeGroup) here probeGroup probeSplit claimed (.mmt ds FmtRec.reset))
    ∧ fmtFor (arrayed probeGroup) probeGroup probeSplit claimed = some FmtRec.reset ∧ 29 ≤ 29 ∧ 30 % 2 = 0
    ∧ Claimed (coreOf (probe 0) 0).array probeGroup claimed
    ∧ (∃ w, (coreOf (arrayed { probeGroup with team := 1 }) 0).array.claim = some w ∧ w ≠ (0, 1))
    ∧ 8 ≤ unitLoad { claimed with jobs := List.replicate 8 { op := 0, slot := 0, unit := .stream, what := .wswp, running := false, since := 0, granted := 0, rows := 0, mmt := false } } .stream
    ∧ (once (placed (at1 1)) (at1 1) probeSplit (.g 1)).toNat % 16 ≠ 0 :=
  ⟨⟨rfl, by decide, by decide, by decide, by decide⟩, may_enter _ (by decide +kernel) (by decide) (by decide),
    may_enter _ (by decide +kernel) (by decide) (by decide),
    may_enter _ (by decide +kernel) (by decide) (by decide), may_enter _ (by decide +kernel) (by decide) (by decide),
      may_enter _ (by decide +kernel) (by decide) (by decide),
    may_enter _ (by decide +kernel) (by decide) (by decide), ⟨by decide,
      may_enter _ (by decide +kernel) (by decide) (by decide)⟩, rfl, by decide, by decide,
    .inr ⟨rfl, rfl⟩, ⟨_, rfl, by decide⟩, by decide, by decide⟩

theorem test_meets_PlanWords :
    EngReady here probeGroup probeSplit [.g 1, .z, .k 7] [] [] ∧ EngReady here probeGroup probeSplit [] [.v 63] []
    ∧ EngReady here probeGroup probeSplit [] [] [.v 63]
    ∧ MayEnter (arrayed probeGroup) here probeGroup probeSplit claimed (.pld 0xFFFFFFFFFFC00000)
    ∧ MayEnter (arrayed probeGroup) here probeGroup probeSplit claimed (.pcost 0xFFFFFFFFFFC00000 0)
    ∧ MayEnter (arrayed probeGroup) here probeGroup probeSplit claimed (.balance 0 0)
    ∧ MayEnter (arrayed probeGroup) here probeGroup probeSplit claimed (.ppart true 0xFFFFFFFFFFC00000)
    ∧ MayEnter (arrayed probeGroup) here probeGroup probeSplit claimed (.pout 0xFFFFFFFFFFC00000 0x3F 256)
    ∧ MayEnter (arrayed probeGroup) here probeGroup probeSplit claimed (.pdist 0xFFFFFFFFFFC00000 0xFFFFFFFFFFC04000)
    ∧ MayEnter (arrayed probeGroup) here probeGroup probeSplit claimed (.pregIn false true [])
    ∧ MayEnter (arrayed probeGroup) here probeGroup probeSplit claimed (.pregOut true false)
    ∧ DestReady here probeGroup probeSplit (.v 63)
    ∧ ∀ y ∈ (coreOf (arrayed probeGroup) 0).slips, y.slot = 0 → y.wr = true → y.range ≠ .planst :=
  ⟨⟨rfl, by decide, by decide, by decide, by decide⟩, ⟨rfl, by decide, by decide, by decide, by decide⟩, ⟨rfl, by decide,
    by decide, by decide, by decide⟩,
    may_enter _ (by decide +kernel) (by decide) (by decide), may_enter _ (by decide +kernel) (by decide) (by decide),
    may_enter _ (by decide +kernel) (by decide) (by decide), may_enter _ (by decide +kernel) (by decide) (by decide),
      may_enter _ (by decide +kernel) (by decide) (by decide),
    may_enter _ (by decide +kernel) (by decide) (by decide), may_enter _ (by decide +kernel) (by decide) (by decide),
      may_enter _ (by decide +kernel) (by decide) (by decide),
    ⟨rfl, rfl, rfl, rfl⟩, by decide⟩

theorem test_meets_CopyWords :
    EngReady here probeGroup probeSplit [.g 1, .g 2, .g 3] [] [] ∧ WholeGroup probeGroup probeSplit
    ∧ EngReady here probeGroup probeSplit (descRegs 4 (.g 27)) [] []
      ∧ EngReady here probeGroup probeSplit (descRegs 3 (.g 28)) [] []
    ∧ copyReserved (.cpyr 0 64 0x82000001) = false ∧ copyFootprintOk (placed probeGroup) 0 0 (.cpyr 0 64 0x82000001) = true
    ∧ copySlips (.cpy 0 0 0) = [] ∧ copyFootprintOk (placed probeGroup) 0 0 (.cpy 0 0 0) = true
      ∧ copySlips (.cpyr 0 64 0x82000001) ≠ []
    ∧ copyReserved (.gth [0, 0, 0, 0, 12]) = false ∧ (coreOf (placed probeGroup) 0).copies.length < 16
    ∧ (coreOf (placed probeGroup) 0).slips.length + (copySlips (.cpyr 0 64 0x82000001)).length ≤ 128
    ∧ DrainedGroup (placed probeGroup) here probeGroup :=
  ⟨⟨rfl, by decide, by decide, by decide, by decide⟩, ⟨by decide, rfl⟩, ⟨rfl, by decide, by decide, by decide, by decide⟩,
    ⟨rfl, by decide, by decide, by decide, by decide⟩, by decide, by decide, rfl, by decide, by decide, by decide, by decide,
      by decide, ⟨rfl, calm⟩⟩

/-! ### Machine events -/

/-- The probe's package in which no split has the turn and no pipe a group; the group in slot 63. -/
def idle (g : Group) : State :=
  { setCore (probe 0) 0 { coreOf (probe 0) 0 with slots := [(63, g)], running := [] } with turn := none }
/-- The group waits for Jalov's service of a page fault. -/
def faulted : Group := { probeGroup with splits := [(0, { probeSplit with wait := some (.fault 0x10000 .load false) })] }
/-- The group has a division outstanding. -/
def divided : Group :=
  { probeGroup with results := [{ split := 0, dst := .v 1, vals := [(0, 1), (31, 2)], dead := false, src := .div, redl := false }] }
/-- A page walk of generation g. -/
def walking (g : BitVec 32) : State := setCore (probe 0) 0 { coreOf (probe 0) 0 with walks := [⟨0, g, probePage⟩], icmiss := [5] }
theorem test_meets_RunEvents :
    ((idle probeGroup).turn = none ∧ tabFind 0 (coreOf (idle probeGroup) 0).running = none
      ∧ groupAt (idle probeGroup) 0 63 = some probeGroup
      ∧ MayRun (idle probeGroup) probeGroup ∧ tabGet [] (coreOf (idle probeGroup) 0).yielded 63 = [])
    ∧ (∃ r, late.results[0]? = some r ∧ r.src = .var) ∧ (dividing (coreOf (placed divided) 0) 0)[1]? = some (0, 0, 31)
    ∧ (∃ w, (coreOf (walking 0) 0).walks[0]? = some w ∧ w.g = (partOf (walking 0) 0).gen)
    ∧ (∃ w, (coreOf (walking 1) 0).walks[0]? = some w ∧ w.g ≠ (partOf (walking 1) 0).gen) ∧ 5 ∈ (coreOf (walking 0) 0).icmiss
    ∧ (∃ sp, splitAt faulted 0 = some sp ∧ sp.wait = some (.fault 0x10000 .load false))
    ∧ ({ probeGroup with started := false } : Group).started = false ∧ probeGroup.hold ≤ (probe 0).clock.toNat
    ∧ launchOf (placed { probeGroup with started := false }) 0 = some probeLaunch :=
  ⟨⟨rfl, rfl, rfl, ⟨rfl, rfl, by decide, 0, by decide, probeSplit, rfl, rfl, by decide⟩, rfl⟩, ⟨_, rfl, rfl⟩, by decide, ⟨_, rfl,
    rfl⟩,
    ⟨_, rfl, by decide⟩, by decide, ⟨_, rfl, rfl⟩, rfl, by decide, rfl⟩

/-- The package at another cycle. -/
def at' (n : Word) (s : State) : State := { s with clock := n }
/-- Partition 0 with a shoot-down under way or acknowledged. -/
def shooting (a : Bool) (g : Group) : State := setPart (placed g) 0 { partOf (placed g) 0 with ack := a, sdlen := 1 }
/-- Launch 0 with a slice that began at cycle 0. -/
def sliced (hot : Bool) : State := { setLaunch (at' 1500 (placed probeGroup)) 0 { probeLaunch with slice := 1, sliceT := some 0 } with hot := hot }
theorem test_meets_TimeEvents :
    (∃ c, 2 ^ 47 ≤ coreTime (setCore (probe 0) 0 { coreOf (probe 0) 0 with tc := 2 ^ 47 }) c) ∧ (probe 0).held = false
    ∧ (∀ k ∈ (placed probeGroup).cores, ∀ x ∈ k.2.slots, x.2.pend = [])
    ∧ Nat.max 1 (at' 15000 (probe 0)).budper.toNat ≤ ((at' 15000 (probe 0)).clock - (at' 15000 (probe 0)).budAt).toNat
    ∧ NoCredit (budget (probe 0) 0 1) ∧ 1500 ≤ ((at' 1500 (probe 0)).clock - (at' 1500 (probe 0)).tokAt).toNat
    ∧ ((shooting true probeGroup).parts.map (·.1)).Nodup ∧ 0 ∈ (shooting true probeGroup).parts.map (·.1)
    ∧ (partOf (shooting false probeGroup) 0).ack = false ∧ (partOf (shooting true probeGroup) 0).ack = true
    ∧ shotDown (partOf (shooting true probeGroup) 0) 0 65536 = true ∧ groupAt (shooting true readOnly) 0 0 = some readOnly
    ∧ (∀ k ∈ (shooting false probeGroup).cores, (∀ w ∈ k.2.walks, w.part = 0 → w.g = (partOf (shooting false probeGroup) 0).gen)
        ∧ ∀ x ∈ k.2.slots, x.2.part = 0 → (∀ y ∈ x.2.trbs, y.g = (partOf (shooting false probeGroup) 0).gen) ∧ x.2.pend = []
          ∧ ∀ td, x.2.isTender = some td → td.hold = [])
    ∧ (∃ l, launchOf (sliced false) 0 = some l ∧ l.sliceT = some 0 ∧ 0 + 1500 * l.slice ≤ (sliced false).clock.toNat
      ∧ l.status = 0 ∧ l.retired < l.teams)
    ∧ (sliced false).hot = false ∧ (∀ x ∈ allStreams (sliced false), x ≠ ⟨0, 0⟩ → (streamOf (sliced false) x).teams = [])
    ∧ (sliced true).hot = true := by
  refine ⟨⟨0, by decide⟩, rfl, by decide, by decide, ⟨by decide, by decide⟩, by decide, by decide, by decide, rfl, rfl,
    by decide, rfl, ?_,
    ⟨_, rfl, rfl, by decide, rfl, by decide⟩, rfl, by decide, rfl⟩
  intro k hk
  have : (shooting false probeGroup).cores = (placed probeGroup).cores := rfl
  rw [this, show (placed probeGroup).cores = [(0, coreOf (placed probeGroup) 0)] from rfl] at hk
  cases List.mem_singleton.mp hk
  refine ⟨fun w hw => (List.not_mem_nil hw).elim, fun x hx _ => ?_⟩
  rw [show (coreOf (placed probeGroup) 0).slots = [(0, probeGroup)] from rfl] at hx
  cases List.mem_singleton.mp hx
  exact ⟨fun y hy => (List.not_mem_nil hy).elim, rfl, fun td h => by cases h⟩

/-- The package with another core 0. -/
def cored (f : Core → Core) : State := setCore (placed probeGroup) 0 (f (coreOf (placed probeGroup) 0))
/-- The package with another array. -/
def withArray (m : MArray) : State := cored fun k => { k with array := m }
/-- An operation of the array. -/
def job (o : ArrOp) (running : Bool) (granted rows : Nat) : ArrJob :=
  { op := 0, slot := 0, unit := opUnit o, what := o, running := running, since := 0, granted := granted, rows := rows,
    mmt := false }
/-- An MMA of row 63 of tile 3. -/
def oneRow : ArrOp := .mma 0xFFFFFFFFFFC00000 0x3FC0 0 FmtRec.reset
/-- The descriptor of an MMT of one step of each kind. -/
def oneMmt : List Word := [(16384 <<< 40 : Word) ||| (128 <<< 20), (256 <<< 40) ||| (8192 <<< 20) ||| 8192, 0x10001]
/-- An MMT that has fed n steps. -/
def feeding (n : Nat) : MArray :=
  { MArray.reset with mmt := some { op := 0, slot := 0, ds := oneMmt, f := FmtRec.reset, fed := n, done := 0, status := 0 } }
/-- A copy of 16 bytes from 0 to 32. -/
def copying (running : Bool) (fault : Option Word) : CopyJob :=
  { op := 0, slot := 0, what := .cpy 0 32 16, running := running, fault := fault, win := none, words := [], moved := 0 }
/-- A core with copies. -/
def copies (l : List CopyJob) : State := cored fun k => { k with copies := l }
theorem test_meets_EngineEvents :
    (∃ j, (coreOf (withArray { MArray.reset with jobs := [job oneRow false 0 0] }) 0).array.jobs = [j] ∧ j.unit = .stream
      ∧ j.running = false
      ∧ AUnit.stream ≠ .sequencer ∧ j.what = oneRow ∧ MArray.reset.rate = 0 ∧ MArray.reset.req = none)
    ∧ (∀ y ∈ (coreOf (withArray MArray.reset) 0).slips, y.slot = 0 → 0 ≤ y.op)
    ∧ ((job (.mmt oneMmt FmtRec.reset) false 0 0).unit = .sequencer ∧ MArray.reset.mmt = none)
    ∧ (∃ r, (feeding 3).mmt = some r ∧ r.fed < mmtSteps (mmtDesc r.ds)) ∧ unitLoad (feeding 3) .port < 8
    ∧ (∃ r, (feeding 4).mmt = some r ∧ mmtSteps (mmtDesc r.ds) ≤ r.fed ∧ ∀ j ∈ (feeding 4).jobs, j.mmt = false)
    ∧ 0 < readyRows 0 { MArray.reset with jobs := [job oneRow true 0 0] }
    ∧ (job oneRow true 1 0).running = true ∧ (job oneRow true 1 0).rows < (job oneRow true 1 0).granted
      ∧ (job oneRow true 1 0).mmt = false
    ∧ ((job .wswp true 0 0).unit = .stream ∧ (job .wswp true 0 0).rows = 0)
    ∧ (coreOf (copies [copying true none, copying false none]) 0).copies = [copying true none] ++ copying false none :: [] ∧ 1 < 4
    ∧ copyClear (coreOf (copies [copying true none]) 0) [] (copying true none) = true
    ∧ endpointAt (copies [copying true none]) 0 0 0 0 = none ∧ endpointAt (copies [copying true none]) 0 0 0 32 = none
    ∧ 0 < cpyLen 16 ∧ (0 : Word).toNat % 16 + cpyLen 16 ≤ 16 ∧ (32 : Word).toNat % 16 + cpyLen 16 ≤ 16
    ∧ Coherent (copies [copying true none]) 0 ∧ engLoc (copies [copying true none]) 0 0 0 0 % 128 + cpyLen 16 ≤ 128
    ∧ unitCheck (copies [copying true none]) 0 0 0 (.move 0 32 16) = none
    ∧ unitCheck (copies [copying true none]) 0 0 0 (.move 0 0x10000 16) = some (.absent 0x10000)
    ∧ (copying true (some 0x10000)).fault = some 0x10000 :=
  ⟨⟨_, rfl, rfl, rfl, by decide, rfl, rfl, rfl⟩, by decide, ⟨rfl, rfl⟩, ⟨_, rfl, by decide⟩, by decide, ⟨_, rfl, by decide,
    by decide⟩,
    by decide, rfl, by decide, rfl, ⟨rfl, rfl⟩, rfl, by decide, by decide, by decide, by decide, by decide, by decide, by decide,
    (by intro p hp; exact (List.not_mem_nil hp).elim), by decide, by decide, by decide, rfl⟩

/-- A packet at the head of a window. -/
def packet (ws : List Word) : Fetched := { va := 0x10000, words := ws ++ List.replicate (8 - ws.length) 0, depth := 0 }
/-- An enabled stream whose window holds packets, with nothing left to fetch. -/
def queueing (l : List Fetched) : Stream := { Stream.reset with en := true, log2n := 4, window := l, fring := l.length, tail := l.length }
/-- Partition 0 with stream 0, and page tables. -/
def streaming (x : Stream) : State := setStream (tables (placed probeGroup)) ⟨0, 0⟩ x
/-- A stream of one packet. -/
def sole (ws : List Word) : Stream := queueing [packet ws]
/-- NOPK, IB, LOOP, FFENCE and a packet of no kind. -/
abbrev pNop : List Word := [0]
abbrev pIb : List Word := [0x0200000000000000, 0x10040, 0xFFFFFF]
abbrev pLoop (k : Word) : List Word := [0x0401000000000000 + k]
abbrev pFence : List Word := [0x0500000000000000]
abbrev pBad : List Word := [0x0900000000000000]
/-- A stream that may fetch. -/
def fetching (base : Word) : Stream := { queueing [] with base := base, tail := 1 }

theorem test_meets_StreamEvents :
    Turn (streaming (sole pNop)) ⟨0, 0⟩ (sole pNop) (packet pNop) (.nopk ⟨0, 0⟩) ∧ InRing (sole pNop)
    ∧ Turn (streaming { sole pNop with xbufs := [⟨0, 2, 1⟩] }) ⟨0, 0⟩ { sole pNop with xbufs := [⟨0, 2, 1⟩] } (packet pNop) (.nopk ⟨0,
      0⟩)
    ∧ Turn (streaming (sole pIb)) ⟨0, 0⟩ (sole pIb) (packet pIb) (.ib ⟨0, 0⟩ 0x10040 0xFFFFFF) ∧ (packet pIb).depth < 2
    ∧ (let x := queueing [packet (pLoop 3), packet pNop]
      Turn (streaming x) ⟨0, 0⟩ x (packet (pLoop 3)) (.loop ⟨0, 0⟩ 1 3) ∧ ((x.window.drop 1).take 1).length = 1
      ∧ ∀ y ∈ (x.window.drop 1).take 1, pktOp y.words ∉ [2, 4, 5])
    ∧ Turn (streaming (sole pFence)) ⟨0, 0⟩ (sole pFence) (packet pFence) (.ffence ⟨0, 0⟩)
    ∧ ((fetching 0x10000).mayFetch = true ∧ (fetching 0x10000).fbufs = [] ∧ (fetching 0x10000).at 0 = 0x10000
      ∧ Readable (streaming (fetching 0x10000)) 0 0x10000 0x20000
        ∧ vaPlain (streaming (fetching 0x20000)) 0 0x20000 false = .absent)
    ∧ packetInstr ⟨0, 0⟩ (packet pIb).words = some (.ib ⟨0, 0⟩ 0x10040 0xFFFFFF)
    ∧ ((sole pBad).packet = some (packet pBad) ∧ (packet pBad).words ≠ [] ∧ packetInstr ⟨0, 0⟩ (packet pBad).words = none)
    ∧ ((0x8004 : Word).getLsbD 15 = true ∧ ((0x8004 : Word).extractLsb' 0 5).toNat = 4
      ∧ (Stream.reset.base).toNat % (64 * 2 ^ 4) = 0
      ∧ ∃ y ∈ ({ probe 0 with quads := [(0, { owner := some 0, tlb := [], govAt := 0 })] } : State).quads, y.1 / 32 = 0
        ∧ y.2.owner = some 0)
    ∧ ((0x8003 : Word).getLsbD 15 = true ∧ ¬ 4 ≤ ((0x8003 : Word).extractLsb' 0 5).toNat) ∧ (0x4 : Word).getLsbD 15 = false
    ∧ (Stream.reset.tail - Stream.reset.head).toNat ≤ 2 ^ 4
    ∧ ¬ ((17 : BitVec 32) - (queueing []).head).toNat ≤ 2 ^ (queueing []).log2n
    ∧ ({ sole pNop with wait := some (0x20000, false) } : Stream).wait = some (0x20000, false) :=
  ⟨⟨rfl, rfl, rfl⟩, ⟨rfl, rfl⟩, ⟨rfl, rfl, rfl⟩, ⟨rfl, rfl, rfl⟩, by decide, ⟨⟨rfl, rfl, rfl⟩, rfl, by decide⟩, ⟨rfl, rfl, rfl⟩,
    ⟨by decide, rfl, by decide, ⟨⟨0, by decide⟩, by decide⟩, by decide⟩, rfl, ⟨rfl, by decide, by decide⟩,
    ⟨by decide, by decide, by decide, by decide⟩, by decide, by decide, by decide, by decide, rfl⟩

/-- WAITMEM, PRED, WRITE and SIGNAL of 8 bytes at 0x10038. -/
abbrev pWait : List Word := [0x0700100000000000, 0x10038, 0]
abbrev pPred : List Word := [0x03FF100000000000, 0x10038, 1]
abbrev pWrite : List Word := [0x0600100000000000, 0x10038, 1]
abbrev pSignal : List Word := [0x0800500000000000, 0x10038, 1]
/-- LAUNCH of a nest at 0x10000 with its arguments at 0x10080. -/
abbrev pLaunch : List Word := [0x0100800000000000, 0x10000, 0, 0, 0x10080, 0x10100, 64, 0]
/-- The launch packet. -/
def launchPkt : LaunchPkt := { ser := true, irq := false, w1 := 0x10000, w2 := 0, w3 := 0, w4 := 0x10080, w5 := 0x10100, w6 := 64, w7 := 0 }
/-- Its nest: one level of 32 with VEC, VALLOC 64. -/
def launching : State :=
  { streaming (sole pLaunch) with mem := (streaming (sole pLaunch)).mem ++ [(0x20002, 64), (0x20003, 1), (0x20018, 32), (0x2001F, 0x10)], launches := [] }
theorem test_meets_PacketEvents :
    Turn (streaming (sole pWait)) ⟨0, 0⟩ (sole pWait) (packet pWait) (.waitmem ⟨0, 0⟩ .eq true 0x10038 0)
    ∧ Readable (streaming (sole pWait)) 0 0x10038 0x20038
    ∧ (waitHolds .eq 8 0 0 = true ∧ waitHolds .eq 8 0 1 = false) ∧ (sole pPred).window.length = 1
    ∧ Turn (streaming (sole pPred)) ⟨0, 0⟩ (sole pPred) (packet pPred) (.pred ⟨0, 0⟩ 255 .eq true 0x10038 1)
    ∧ Turn (streaming (sole pWrite)) ⟨0, 0⟩ (sole pWrite) (packet pWrite) (.write ⟨0, 0⟩ true 0x10038 1)
    ∧ vaPlain (streaming (sole pWrite)) 0 0x10038 true = .ok 0x20038 0
    ∧ Turn (streaming (sole pSignal)) ⟨0, 0⟩ (sole pSignal) (packet pSignal) (.signal ⟨0, 0⟩ true true 0x10038 1)
    ∧ Turn launching ⟨0, 0⟩ (sole pLaunch) (packet pLaunch) (.launch ⟨0, 0⟩ launchPkt) ∧ InRing (sole pLaunch)
      ∧ launchOk launchPkt = true
    ∧ launching.launches = []
    ∧ ∃ as s1 hs s2 m, vaReadWords launching (.front 0) 0 launchPkt.w4 8 = some (.ok (as, s1))
        ∧ vaReadWords s1 (.front 0) 0 launchPkt.w1 11 = some (.ok (hs, s2)) ∧ pagesOk s2 0 [launchPkt.w5] = none
        ∧ (let h : Nest := { h0 := hs.getD 0 0, h1 := hs.getD 1 0, h2 := hs.getD 2 0, lv := hs.drop 3 }
          let ext := fun n => extentOf (as.flatMap fun w => [(w.extractLsb' 0 32).toNat, (w.extractLsb' 32 32).toNat]) (h.level n)
          nestBad h = false ∧ h.phased = false ∧ (∀ n < h.nlev, ext n ≠ 0) ∧ mapNest h ext = some m) :=
  ⟨⟨rfl, rfl, rfl⟩, ⟨⟨0, by decide⟩, by decide⟩, by decide, rfl, ⟨rfl, rfl, rfl⟩, ⟨rfl, rfl, rfl⟩, by decide, ⟨rfl, rfl, rfl⟩,
    ⟨rfl, rfl, rfl⟩,
    ⟨rfl, rfl⟩, by decide, rfl, _, _, _, _, _, rfl, rfl, by decide, by decide, by decide, by decide, rfl⟩

/-- A stream that holds team 0 of launch 0, on a die with a quad of its partition and no resident group. -/
def placing : State :=
  { setStream (probe 0) ⟨0, 0⟩ { Stream.reset with teams := [{ launch := 0, first := 0, n := 1 }] } with
    cores := [], turn := none, quads := [(0, { owner := some 0, tlb := [], govAt := 0 })] }
/-- A group whose splits all wait. -/
def waiting (w : Wait) : Group := { probeGroup with splits := [(0, { probeSplit with wait := some w, running := false })] }
/-- A callee of fork 0 that stands at its RET. -/
def callee : Group :=
  { probeGroup with splits := [(0, { probeSplit with wait := some .ret, stack := [{ ret := 1, kind := .forked 0 0 0 }] })] }
/-- A caller's tender whose prediction of v0 is b. -/
def guess (b : Word) : Tender :=
  { fork := 0, caller := 0, n := 8, mask := 0xFFFFFFFF, base := b, stride := 0, written := [], tracked := [], hold := [], nextOp := 0 }
/-- The callee with that tender in slot 1. -/
def meeting (b : Word) : State :=
  setCore (placed callee) 0 { coreOf (placed callee) 0 with
    slots := [(0, callee), (1, { probeGroup with isTender := some (guess b) })], forks := [(0, 1)] }
/-- A partition that has been starved since cycle 0. -/
def starving (phased : Bool) : State :=
  setPart (setLaunch { placed (waiting (.barrier bar0 0)) with turn := none, clock := 1500000 } 0 { probeLaunch with phased := phased }) 0
    (partOf (probe 0) 0)
/-- A launch with a write of its record area pending. -/
def pending : Launch := { probeLaunch with recArea := 0x20000, recPend := [.put 0 [1]] }
theorem test_meets_TeamEvents :
    (∃ q c n team l, nextPlacement placing 0 = some (q, c, n, team, l) ∧ recordOf l team = none)
    ∧ (launchOf (setLaunch placing 0 { probeLaunch with retired := 1 }) 0 = some { probeLaunch with retired := 1 }
      ∧ ∀ x ∈ (streamOf (probe 0) ⟨0, 0⟩).teams, x.launch ≠ 0)
    ∧ (teamCore (placed (waiting .phase)) 0 0 = some 0 ∧ (∃ x ∈ teamGroups (coreOf (placed (waiting .phase)) 0) 0 0,
      liveMask x.2 ≠ 0)
      ∧ (∀ x ∈ teamGroups (coreOf (placed (waiting .phase)) 0) 0 0, x.2.stopped = false ∧ x.2.pend = [] ∧ ∀ p ∈ x.2.splits,
        p.2.wait = some .phase)
      ∧ teamSlipped (coreOf (placed (waiting .phase)) 0) 0 0 = false)
    ∧ (teamCore (starving true) 0 0 = some 0 ∧ partStarved (starving true) 0 = true
      ∧ (coreOf (starving true) 0).array.claim ≠ some (0, 0))
    ∧ (∃ r, (coreOf { withArray (feeding 3) with turn := none } 0).array.mmt = some r
      ∧ groupAt (withArray (feeding 3)) 0 r.slot = some probeGroup
      ∧ (feeding 3).jobs = [] ∧ ∀ x ∈ teamSlots (coreOf (withArray (feeding 3)) 0) 0 0, x.2.pend = []
        ∧ ∀ y ∈ (coreOf (withArray (feeding 3)) 0).slips, y.slot = x.1 → y.op = r.op)
    ∧ (retMeeting callee = some (0, 1, 0, 0) ∧ tenderOf (coreOf (placed callee) 0) 0 0 = none
      ∧ tenderOf (coreOf (meeting 1) 0) 0 0 = some (1, guess 1) ∧ (∃ k, groupAt (meeting 1) 0 1 = some k)
      ∧ tenderHolds (meeting 1) 0 0 callee (guess 1) = false ∧ tenderHolds (meeting 0) 0 0 callee (guess 0) = true
      ∧ (callee.vregs.map (·.1)).Nodup)
    ∧ (starved (starving true) 0 = true ∧ canSpill (starving true) 0 = true ∧ starved (starving false) 0 = true
      ∧ canSpill (starving false) 0 = false ∧ ((starving false).launches.map (·.1)).Nodup
        ∧ 0 ∈ stalledLaunches (starving false) 0)
    ∧ (probeLaunch.status = 0 ∧ groupAt (placed { probeGroup with stopped := true }) 0 0 = some { probeGroup with stopped := true })
    ∧ (launchOf (setLaunch (tables (placed probeGroup)) 0 pending) 0 = some pending
      ∧ ∃ va, pagesOk (setLaunch (tables (placed probeGroup)) 0 pending) 0
          (recAddrs (setLaunch (tables (placed probeGroup)) 0 pending) pending (.put 0 [1])) = some (.absent va)) :=
  ⟨⟨_, _, _, _, _, rfl, rfl⟩, ⟨rfl, by decide⟩, ⟨rfl, by decide, by decide, by decide⟩, ⟨rfl, by decide, by decide⟩,
    ⟨_, rfl, rfl, rfl, by decide⟩, ⟨rfl, rfl, rfl, ⟨_, rfl⟩, by decide, by decide, by decide⟩,
    ⟨by decide, by decide, by decide, by decide, by decide, by decide⟩, ⟨rfl, rfl⟩, ⟨rfl, _, rfl⟩⟩

/-- A group that a trap of KIND k has stopped. -/
def halted (k : BitVec 2) : Group := { probeGroup with stopped := true, trrec := { TrapRec.reset with kind := k } }
/-- The package with port 17. -/
def ported (x : Port) : State := { setPort (probe 0) 17 x with podNum := some 3 }
/-- A live port. -/
def live : Port := { Port.reset with up := true }
/-- A packet of one word for queue 0 of package d. -/
def podPacket (d : Nat) (opn : Bool) : PodPacket :=
  { port := 17, vl := 7, words := [BitVec.ofNat 64 (d * 2 ^ 55)], trunc := false, opn := opn }
/-- A packet that has left. -/
def sent : Sent := { id := 0, part := 0, vl := 0, pkt := { words := [0], trunc := false } }
theorem test_meets_OutsideEvents :
    (∀ k ∈ [(0 : BitVec 2), 1, 2], groupAt (placed (halted k)) 0 0 = some (halted k) ∧ (halted k).stopped = true
      ∧ splitAt (halted k) (halted k).trrec.split.toNat = some probeSplit)
    ∧ (∀ va k, probeSplit.wait ≠ some (.fault va k true))
    ∧ (({ placed probeGroup with turn := none } : State).turn = none ∧ splitAt probeGroup probeGroup.last = some probeSplit
      ∧ 0 ∉ tendersOf (coreOf (placed probeGroup) 0) 0)
    ∧ (coreOf (cored fun k => { k with self := [⟨0, 1, 3⟩] }) 0).self = [⟨0, 1, 3⟩] ∧ 47 < 48 ∧ State.reset.life = .manufacture
    ∧ (lmargOf { probe 0 with lmarg := [(4 * 17 + 3, { Lmarg.reset with busy := true })] } 17 3).busy = true ∧ 17 < 18 ∧ 3 < 4
    ∧ (1 ≤ (podPacket 3 true).words.length ∧ (podPacket 3 true).words.length ≤ 64 ∧ (portOf (ported live) 17).up = true
      ∧ (portOf (ported live) 17).failed = false ∧ (podPacket 3 false).opn = false
      ∧ (ported live).podNum ≠ some (pktDest { words := (podPacket 4 true).words, trunc := false })
      ∧ (ported live).podNum = some (pktDest { words := (podPacket 3 true).words, trunc := false })
      ∧ tabGet [] (portOf (ported live) 17).rx 7 = []
      ∧ queueWords (queueOf (ported live) (pktQueue { words := (podPacket 3 true).words, trunc := false })) + 1 ≤ 512)
    ∧ tabGet false (portOf (ported { live with stops := [(7, true)] }) 17).stops 7 = true
    ∧ (portOf (ported live) 17).lanes.getLsbD 3 = true
    ∧ (portOf (ported { live with sent := [sent] }) 17).sent = [sent]
      ∧ tabGet 0 (portOf (ported { live with sent := [sent] }) 17).buf 0 = 0 :=
  ⟨by decide, by simp [probeSplit], ⟨rfl, rfl, by decide⟩, rfl, by decide, rfl, by decide, by decide, by decide,
    ⟨by decide, by decide, rfl, rfl, rfl, by decide, by decide, rfl, by decide⟩, by decide, by decide, rfl, rfl⟩

/-- A running package whose function 0 has its window at 0x10000. -/
def hosted (w : Word) : State :=
  let s := tables (placed probeGroup)
  { setPart s 0 { partOf s 0 with hwbase := w } with ready := true }
/-- Die 0 with quad 31, spares and quads that run to retirement. -/
def quadded (spares : List Nat) (s : State) : State :=
  setDie s 0 { Die.reset with quads := [(31, 31)], spares := spares }
theorem test_meets_PlatformEvents :
    ((hosted 0x10000).ready = true ∧ vaPlain (hosted 0x10000) 0 0x10000 true = .ok 0x20000 0 ∧ 2 ^ 36 - 8 + 8 ≤ 2 ^ 36
      ∧ ((partOf (hosted 0x10000) 0).hwbase + BitVec.ofNat 64 0).toNat % 8 = 0)
    ∧ (Readable (hosted 0x10000) 0 0x10078 0x20078 ∧ ((0x10000 : Word) + BitVec.ofNat 64 0x78).toNat % 128 ≤ 120
      ∧ (∀ y ∈ (hosted 0x10000).hostBuf, ¬ (y.fn = 0 ∧ y.line = 0x20078 / 128))
        ∧ vaPlain (hosted 0x20000) 0 0x20000 false = .absent)
    ∧ State.reset.ready = false ∧ houseReach (probe 0) 0x20000 8 = true ∧ 0x20000 % 8 = 0
    ∧ ({ probe 0 with entering := some .rma } : State).entering.isSome = true ∧ State.reset.entering = none
    ∧ (List.replicate 32 (0 : Byte)).length = 32 ∧ State.reset.attestKey = none ∧ State.reset.life = .manufacture
    ∧ ({ probe 0 with life := .provisioned } : State).life = .provisioned ∧ Life.provisioned ≠ .manufacture
    ∧ (List.replicate 7856 (0 : Byte)).length = 7856 ∧ (7 ≤ 23 ∧ 23 ≤ 23)
    ∧ (tabFind 31 (dieOf (quadded [] (probe 0)) 0).quads).isSome = true ∧ (∃ r,
      (dieOf (quadded [32] (probe 0)) 0).spares = 32 :: r)
    ∧ (∃ c ∈ (List.range 4).map fun i => 4 * (32 * 0 + 31) + i,
      (coreOf (setGroup (quadded [] (probe 0)) 127 0 probeGroup) c).slots ≠ [])
    ∧ 31 ∉ (dieOf (quadded [] (probe 0)) 0).retired
    ∧ ∀ c ∈ (List.range 4).map fun i => 4 * (32 * 0 + 31) + i, (coreOf (quadded [] (probe 0)) c).slots = [] :=
  ⟨⟨rfl, by decide, by decide, by decide⟩, ⟨⟨⟨0, by decide⟩, by decide⟩, by decide, by decide, by decide⟩, rfl, by decide,
    by decide, rfl, rfl,
    by decide, rfl, rfl, rfl, by decide, List.length_replicate, by decide, by decide, ⟨_, rfl⟩, ⟨127, by decide, by decide⟩,
      by decide, by decide⟩

/-! ### Further cases, clause by clause -/

/-- The special classes: NaNs of both kinds, −∞ and +∞, a negative number, the zeros, a large argument and powers of two; a positive
number meets the hypotheses of the bounds. -/
theorem test_meets_FunctionBounds :
    fDecode .f32 0x7FC00001 = .nan false ∧ fDecode .f32 0xFFBFFFFF = .nan true ∧ fDecode .f32 0xFF800000 = .inf true
    ∧ fDecode .f32 0x7F800000 = .inf false ∧ (isNum (fDecode .f32 0x80000001) = true ∧ ratOf (fDecode .f32 0x80000001) < 0)
    ∧ withSign .f32 true 0 = 0x80000000 ∧ (isNum (fDecode .f32 0x41180000) = true ∧ 19 / 2 ≤ |ratOf (fDecode .f32 0x41180000)|)
    ∧ (isNum (fDecode .f32 0x00000001) = true ∧ ratOf (fDecode .f32 0x00000001) = 2 ^ (-149 : Int))
    ∧ ratOf (fDecode .f32 0x3F800000) = 1 ∧ ratOf (fDecode .f32 0x40800000) = 2 ^ (2 * 1 : Int)
    ∧ (isNum (fDecode .f32 0x7F7FFFFF) = true ∧ 0 < ratOf (fDecode .f32 0x7F7FFFFF)) := by
  have a : fDecode .f32 0x80000001 = .fin true 1 (-149) := by decide
  have b : fDecode .f32 0x41180000 = .fin false 9961472 (-20) := by decide
  have c : fDecode .f32 1 = .fin false 1 (-149) := by decide
  have d : fDecode .f32 0x3F800000 = .fin false 8388608 (-23) := by decide
  have e : fDecode .f32 0x40800000 = .fin false 8388608 (-21) := by decide
  have f : fDecode .f32 0x7F7FFFFF = .fin false 16777215 104 := by decide
  refine ⟨by decide, by decide, by decide, by decide, ⟨by decide, ?_⟩, by decide, ⟨by decide, ?_⟩, ⟨by decide, ?_⟩, ?_, ?_,
    by decide, ?_⟩
  · rw [a]; norm_num [ratOf]
  · rw [b]; norm_num [ratOf, abs_of_pos]
  · rw [c]; norm_num [ratOf]
  · rw [d]; norm_num [ratOf]
  · rw [e]; norm_num [ratOf]
  · rw [f]; norm_num [ratOf]

/-- A page of futures of which word 0 is full and word 31 empty. -/
def oneFull : State := { paged 1 endsGroup with full := [(0, true)] }
/-- A page of the endpoint's first windows, with queue 0 as given; the group holds an address in g1. -/
def windowed (q : Queue) (a : Word) : State :=
  { setCore (placed (at1 a)) 0 { coreOf (placed (at1 a)) 0 with tlb := [{ probePage with mt := 2, pa := 2 ^ 51 }] } with
    queues := [(0, q)] }
/-- Two words, closed; 512 words, closed. -/
def twoWords : Queue := { closed := [{ words := [5, 6], trunc := false }], opened := [7] }
def fullQueue : Queue := { closed := List.replicate 8 { words := List.replicate 64 1, trunc := false }, opened := [] }

/-- What a word at a window asks for. -/
structure MayWindow (q : Queue) (op : MemOp) (a : Word) (pa : Nat) : Prop where
  issues : Issues (windowed q a) here (at1 a) probeSplit
  ready  : MemReady (windowed q a) here (at1 a) probeSplit (atG op)
  ok     : ∀ k ∈ memKeys probeSplit (atG op), WinOk (windowed q a) here (at1 a) probeSplit (atG op) k pa
  group  : AccessGroup (settledState (windowed q a) here (at1 a) probeSplit (atG op)) here (at1 a)
  some'  : memKeys probeSplit (atG op) ≠ []
  alone  : NoWaiters (settledState (windowed q a) here (at1 a) probeSplit (atG op))
  same   : queueOf (settledState (windowed q a) here (at1 a) probeSplit (atG op)) 0 = q
  room   : RoomFor (settledState (windowed q a) here (at1 a) probeSplit (atG op)) here 1
  none'  : NoReceived (settledState (windowed q a) here (at1 a) probeSplit (atG op))

theorem may_window (q : Queue) (op : MemOp) (a : Word) (pa : Nat)
    (r : MemReady (windowed q a) here (at1 a) probeSplit (atG op))
    (hk : memKeys probeSplit (atG op) = [32])
    (hg : groupAt (settledState (windowed q a) here (at1 a) probeSplit (atG op)) 0 0 = some (at1 a))
    (hc : isCanonical (addrOf (windowed q a) (at1 a) probeSplit (atG op) 32) = true)
    (hw : checkAcc (windowed q a) 0 (at1 a) op 0 8 (addrOf (windowed q a) (at1 a) probeSplit (atG op) 32) = .ok (.win pa))
    (hx : accConflict (settledState (windowed q a) here (at1 a) probeSplit (atG op)) here (at1 a) op
      (addrOf (windowed q a) (at1 a) probeSplit (atG op) 32) 8 = [])
    (hh : watchHit (settledState (windowed q a) here (at1 a) probeSplit (atG op)) 0 op
      (addrOf (windowed q a) (at1 a) probeSplit (atG op) 32) 8 = none)
    (hn : ∀ p ∈ (settledState (windowed q a) here (at1 a) probeSplit (atG op)).cores, p.2.room = [])
    (hq : queueOf (settledState (windowed q a) here (at1 a) probeSplit (atG op)) 0 = q)
    (hm : (coreOf (settledState (windowed q a) here (at1 a) probeSplit (atG op)) 0).room = [])
    (hp : (settledState (windowed q a) here (at1 a) probeSplit (atG op)).ports = []) : MayWindow q op a pa := by
  refine ⟨⟨rfl, rfl, rfl⟩, r, ?_, ⟨hg, rfl, rfl, calm.step⟩, by rw [hk]; decide, hn, hq, ?_, ?_⟩
  · intro k hk'
    rw [hk] at hk'
    cases List.mem_singleton.mp hk'
    exact ⟨hc, hw, fun g0 h0 => by cases hg.symm.trans h0; exact ⟨hx, hh⟩⟩
  · exact ⟨by rw [hm]; decide, by rw [hm]; simp⟩
  · intro p h; rw [hp] at h; exact (List.not_mem_nil h).elim

theorem test_meets_OtherMemoryWords_rooms :
    (MayAccess (placed endsGroup) endsGroup endsGroup ends (spread (.waitm .ne) .z) eights
      ∧ (memKeys ends (spread (.waitm .ne) .z)).filter (fun k => !waitHolds .ne 8
          (bytesAt (memByte (settledState (placed endsGroup) here endsGroup ends (spread (.waitm .ne) .z))) (placeOf eights k) 8)
          (dataOf (placed endsGroup) endsGroup ends (spread (.waitm .ne) .z) k)) = [0, 31]
      ∧ RoomFor (settledState (placed endsGroup) here endsGroup ends (spread (.waitm .ne) .z)) here 2)
    ∧ (MayAccess oneFull endsGroup endsGroup ends (spread .frd (.v 1)) eights
      ∧ (memKeys ends (spread .frd (.v 1))).filter (fun k =>
          !isFull (settledState oneFull here endsGroup ends (spread .frd (.v 1))) (placeOf eights k)) = [31]
      ∧ RoomFor (settledState oneFull here endsGroup ends (spread .frd (.v 1))) here 1)
    ∧ (trbPending (rebinding 0) 7 = true ∧ trbPending (rebinding 0) 6 = false) :=
  ⟨⟨may_access _ _ ⟨rfl, rfl, rfl⟩ ⟨rfl, rfl, rfl, rfl, rfl, by decide⟩ rfl (by decide) rfl rfl (by decide), by decide,
      by unfold RoomFor; decide⟩,
    ⟨may_access _ _ ⟨rfl, rfl, rfl⟩ ⟨rfl, rfl, rfl, rfl, rfl, by decide⟩ rfl (by decide) rfl rfl (by decide), by decide,
      by unfold RoomFor; decide⟩, by decide, by decide⟩

theorem test_meets_OtherMemoryWords_windows :
    (MayWindow twoWords .st 0 (2 ^ 51) ∧ windowOf (2 ^ 51) = .send 0 ∧ MayWindow twoWords .st 0x1000 (2 ^ 51 + 0x1000)
      ∧ windowOf (2 ^ 51 + 0x1000) = .send 0 ∧ (2 ^ 51 + 0x1000).testBit 12 = true)
    ∧ (wordsIn twoWords).length + twoWords.opened.length + 1 ≤ 512
    ∧ (MayWindow fullQueue .st 0 (2 ^ 51) ∧ 512 ≤ (wordsIn fullQueue).length + fullQueue.opened.length)
    ∧ (MayWindow twoWords (.ld false) 0x2000 (2 ^ 51 + 0x2000) ∧ windowOf (2 ^ 51 + 0x2000) = .recv 0
      ∧ (2 ^ 51 + 0x2000).testBit 12 = false ∧ (∀ p ∈ twoWords.closed, p.words ≠ []) ∧ 1 ≤ (wordsIn twoWords).length)
    ∧ (MayWindow { twoWords with closed := [] } (.ld false) 0x2000 (2 ^ 51 + 0x2000))
    ∧ (MayWindow twoWords (.ld false) 0x3000 (2 ^ 51 + 0x3000) ∧ (2 ^ 51 + 0x3000).testBit 12 = true) := by
  refine ⟨⟨may_window _ _ _ _ ⟨rfl, rfl, rfl, rfl, rfl, by decide⟩ ?_ ?_ ?_ ?_ ?_ ?_ ?_ ?_ ?_ ?_, by decide,
      may_window _ _ _ _ ⟨rfl, rfl, rfl, rfl, rfl, by decide⟩ ?_ ?_ ?_ ?_ ?_ ?_ ?_ ?_ ?_ ?_, by decide, by decide⟩, by decide,
    ⟨may_window _ _ _ _ ⟨rfl, rfl, rfl, rfl, rfl, by decide⟩ ?_ ?_ ?_ ?_ ?_ ?_ ?_ ?_ ?_ ?_, by decide +kernel⟩,
    ⟨may_window _ _ _ _ ⟨rfl, rfl, rfl, rfl, rfl, by decide⟩ ?_ ?_ ?_ ?_ ?_ ?_ ?_ ?_ ?_ ?_, by decide, by decide,
      by decide, by decide⟩,
    may_window _ _ _ _ ⟨rfl, rfl, rfl, rfl, rfl, by decide⟩ ?_ ?_ ?_ ?_ ?_ ?_ ?_ ?_ ?_ ?_,
    may_window _ _ _ _ ⟨rfl, rfl, rfl, rfl, rfl, by decide⟩ ?_ ?_ ?_ ?_ ?_ ?_ ?_ ?_ ?_ ?_, by decide⟩ <;>
    decide

/-- The probe's package with pages 0 and 1 of partition 0: page 1 of memory type mt at frame pa. -/
def twoPages (mt : BitVec 2) (pa : Nat) : State :=
  setCore (placed probeGroup) 0 { coreOf (placed probeGroup) 0 with tlb := [probePage, { probePage with va := 2 ^ 16, pa := pa, mt := mt }] }
/-- The probe's package with the root table at 0x1000, whose first entry is e. -/
def rooted (e : Byte) : State := { setPart (placed probeGroup) 0 { partOf (placed probeGroup) 0 with ptroot := 0x1000 } with mem := [(0x1000, e)] }
/-- A group whose translation register 0 has its page at PA 0, or in the aperture. -/
def bound (psz : BitVec 2) : Group :=
  { probeGroup with tregs := [(0, { v := true, mt := 0, rd := true, wr := false, base := 0, psz := psz, pa := 0 })] }
/-- An address in the aperture: its first byte. -/
abbrev scratch : Word := 0xFFFFFFFFFFC00000

theorem frame_low (s : State) (pa : Nat) (hp : s.pools = []) (hd : s.deadDies = []) (hw : s.withheld = []) (h : pa < 2 ^ 20) :
    Frame s pa := by
  refine ⟨by simp [hw], .inl ?_⟩
  rw [hp, hd]
  have : ((List.range 8).map fun d => tabGet 0 ([] : Tab Nat) d + if d ∈ ([] : List Nat) then 96 * 2 ^ 30 else 0).sum = 0 := by decide
  simp only [this]; omega
theorem frame_hole (s : State) (hp : s.pools = []) (hd : s.deadDies = []) : ¬ Frame s 0xC000000000 := by
  unfold Frame
  rw [hp, hd]
  have : ((List.range 8).map fun d => tabGet 0 ([] : Tab Nat) d + if d ∈ ([] : List Nat) then 96 * 2 ^ 30 else 0).sum = 0 := by decide
  simp only [this]
  rintro ⟨-, h | ⟨d, hd, n, hn, h, e⟩ | ⟨p, hp, n, hn, h, e⟩ | h⟩ <;> omega

theorem test_meets_MemoryStops_pages :
    (inAperture 0 = false ∧ isCanonical 0 = true ∧ inAperture scratch = true ∧ isCanonical scratch = true)
    ∧ (GranuleOf (arrayed probeGroup) 0 (scratch.toNat - 0xFFFFFFFFFFC00000) 0 ∧ ¬ GranuleOf (placed probeGroup) 0 0 0)
    ∧ (Resolved (twoPages 0 0xC000000000) 0 0 0 (.leaf probePage)
      ∧ Frame (twoPages 0 0xC000000000) (Claims.placed probePage 0).loc)
    ∧ (Resolved (twoPages 0 0xC000000000) 0 0 0x1FFFF (.leaf { probePage with va := 2 ^ 16, pa := 0xC000000000 })
      ∧ ¬ Frame (twoPages 0 0xC000000000) (Claims.placed { probePage with va := 2 ^ 16, pa := 0xC000000000 } 0x10000).loc)
    ∧ Resolved (rooted 0) 0 0 0x10000 .absent ∧ Resolved (rooted 3) 0 0 0x10000 .malformed := by
  refine ⟨by decide, ⟨⟨0, by decide⟩, ?_⟩, ⟨.inl ⟨_, by decide, rfl⟩, frame_low _ _ rfl rfl rfl (by decide)⟩,
    ⟨.inl ⟨_, by decide, rfl⟩, ?_⟩, ?_, ?_⟩
  · rintro ⟨t, h⟩
    have e : tabFind (0 % 2 ^ 20 / 4096) (coreOf (placed probeGroup) (0 / 4 * 4 + 0 / 2 ^ 20 % 4)).granules = none := by decide
    rw [e] at h; cases h
  · have e : (Claims.placed { probePage with va := 2 ^ 16, pa := 0xC000000000 } 0x10000).loc = 0xC000000000 := by decide
    rw [e]; exact frame_hole _ rfl rfl
  · refine .inr ⟨by unfold Covers; decide, .absent _ _ (by decide)⟩
  · refine .inr ⟨by unfold Covers; decide, .malformed _ _ (by decide) (.inr (.inr (.inl (by decide))))⟩

theorem test_meets_MemoryStops_checks :
    (let t := tabGet TReg.reset (bound 0).tregs 0;
      t.v = true ∧ (0xFFFF - t.base).toNat < 2 ^ 16 - t.base.toNat % 2 ^ 16
        ∧ ¬ (0x10000 - t.base).toNat < 2 ^ 16 - t.base.toNat % 2 ^ 16
      ∧ Frame (placed (bound 0)) (t.pa.toNat + 0xFFFF))
    ∧ (let t := tabGet TReg.reset (bound 3).tregs 0;
      t.psz = 3 ∧ (0x3FFFFF - t.base).toNat < 2 ^ 22 - t.pa.toNat ∧ GranuleOf (arrayed (bound 3)) 0 (t.pa.toNat + 0) 0)
    ∧ (tabGet TReg.reset probeGroup.tregs 0).v = false
    ∧ (let l : Leaf := { loc := 0, mt := 0, r := true, w := false, x := true };
      transVia (placed (bound 0)) 0 (bound 0) 0 0 = .ok l ∧ refusal .st 8 0 l = some .prot ∧ refusal (.ld false) 8 0 l = none)
    ∧ (8 ≤ 4096 - (0xFF8 : Word).toNat % 4096 ∧ 4096 - (0xFFFC : Word).toNat % 4096 < 8)
    ∧ (let s := twoPages 0 0x10000;
      ¬ Differ (transVia s 0 probeGroup 0 0xFFFC) (transVia s 0 probeGroup 0 0x10000)
      ∧ partRefusal .st 8 0xFFFC (transVia s 0 probeGroup 0 0xFFFC) = none
        ∧ partRefusal .st 8 0x10000 (transVia s 0 probeGroup 0 0x10000) = none)
    ∧ Differ (transVia (twoPages 1 0x10000) 0 probeGroup 0 0xFFFC) (transVia (twoPages 1 0x10000) 0 probeGroup 0 0x10000)
    ∧ (transVia (placed probeGroup) 0 probeGroup 0 0xFFFC ≠ .absent
      ∧ transVia (placed probeGroup) 0 probeGroup 0 0x10000 = .absent
      ∧ ¬ Differ (transVia (placed probeGroup) 0 probeGroup 0 0xFFFC) (transVia (placed probeGroup) 0 probeGroup 0 0x10000))
    ∧ (inAperture 0xFFFFFFFFFFBFFFFC ≠ inAperture scratch ∧ isCanonical 0xFFFFFFFFFFBFFFFC = true) := by
  have x0 : transVia (twoPages 0 0x10000) 0 probeGroup 0 0xFFFC = .ok { loc := 0xFFFC, mt := 0, r := true, w := true, x := true } := by decide
  have x1 : transVia (twoPages 0 0x10000) 0 probeGroup 0 0x10000 = .ok { loc := 0x10000, mt := 0, r := true, w := true, x := true } := by decide
  have y0 : transVia (twoPages 1 0x10000) 0 probeGroup 0 0xFFFC = .ok { loc := 0xFFFC, mt := 0, r := true, w := true, x := true } := by decide
  have y1 : transVia (twoPages 1 0x10000) 0 probeGroup 0 0x10000 = .ok { loc := 0x10000, mt := 1, r := true, w := true, x := true } := by decide
  have z1 : transVia (placed probeGroup) 0 probeGroup 0 0x10000 = .absent := by decide
  refine ⟨⟨by decide, by decide, by decide, frame_low _ _ rfl rfl rfl (by decide)⟩, ⟨by decide, by decide, 0, by decide⟩, by decide,
    by decide, by decide, ⟨?_, by rw [x0]; decide, by rw [x1]; decide⟩, ?_, ⟨by decide, z1, ?_⟩, by decide, by decide⟩
  · rw [x0, x1]; rintro ⟨l, m, h | h, k | k, n⟩ <;> cases h <;> cases k; exact n rfl
  · rw [y0, y1]; exact ⟨_, _, .inl rfl, .inl rfl, by decide⟩
  · rw [z1]; rintro ⟨l, m, h, k | k, n⟩ <;> cases k

/-- The probe's group in a launch that is phased. -/
def phasedIn (g : Group) : State := setLaunch (placed g) 0 { probeLaunch with phased := true }
theorem notPhased : NotPhased (placed probeGroup) probeGroup := by
  intro l h; cases (show launchOf (placed probeGroup) 0 = some probeLaunch from rfl).symm.trans h; rfl
theorem phasedGroup (g : Group) (h : g.launch = 0) : ¬ NotPhased (phasedIn g) g := by
  intro h'
  have := h' { probeLaunch with phased := true } (by rw [h]; rfl)
  cases this

theorem test_meets_BarrierWords_scopes :
    (MeetsElsewhere (pair (some (.barrier bar0 0))) 0 .lane
      ∧ MayTrap (placed (pair (some (.barrier bar0 0)))) here (pair (some (.barrier bar0 0))))
    ∧ (liveCount (placed probeGroup) 0 probeGroup = 1
      ∧ neededOf (placed probeGroup) 0 probeGroup true (expectedOf (barOf (placed probeGroup) (instanceKey 0 probeGroup .core 0)) 0) ≤ 0 + 1
      ∧ 0 + 1 < neededOf (placed probeGroup) 0 probeGroup true (expectedOf (barOf (placed probeGroup) (instanceKey 0 probeGroup .core 0)) 2))
    ∧ instanceKey 0 probeGroup .pod 5 = .pod (Config.podJob 0) 1
    ∧ NotPhased (placed probeGroup) probeGroup ∧ ¬ NotPhased (phasedIn probeGroup) probeGroup
    ∧ PhaseReady (phasedIn probeGroup) 0 probeGroup
    ∧ (let g := { pair (some .lane) with arrived := [(bar0, 0)] };
      Unmatched g bar0 0 ∧ (∃ w, MeetsElsewhere g 0 w) ∧ ∃ p ∈ g.splits, p.1 ≠ 0 ∧ ∀ k n, p.2.wait ≠ some (.barrier k n)) := by
  refine ⟨⟨⟨?_, by unfold OthersWait; decide⟩, mayTrap _ rfl⟩, ⟨by decide, by decide, by decide⟩, rfl,
    notPhased, phasedGroup _ rfl,
    by unfold PhaseReady; decide, rfl, ⟨.join, ?_, by unfold OthersWait; decide⟩, ⟨(1, other (some .lane)), by decide,
      by decide, ?_⟩⟩
  · intro p h hp
    rcases List.mem_cons.mp h with rfl | h
    · exact (hp rfl).elim
    · cases List.mem_singleton.mp h; exact ⟨_, rfl, rfl⟩
  · intro p h hp
    rcases List.mem_cons.mp h with rfl | h
    · exact (hp rfl).elim
    · cases List.mem_singleton.mp h; exact ⟨_, rfl, rfl⟩
  · intro k n h; cases h

/-- The instance of level 0 for the probe's team. -/
abbrev lev0 : BarKey := .level 0 0 0
/-- Its state after an arrival of group 1 for w. -/
def arriving (w : BarWhat) : State :=
  setBar (setLaunch (placed probeGroup) 0 (synced 2 0x00F)) lev0
    { Barrier.reset with what := some w, expected := 2, arrivals := [{ launch := 0, team := 0, gnum := 1, core := 0, tc := 0, vals := [(0, 3)] }] }
theorem test_meets_LevelSync_groups :
    ((synced 2 0x00F).mapg >>> 8 &&& 15 ≠ 15 ∧ 0 ≤ ((synced 2 0x00F).mapg >>> 8 &&& 15).toNat) ∧ lvKind (synced 2 0x00F) 0 = 2
    ∧ Alone probeGroup 0 ∧ (∀ x ∈ probeGroup.arrived, x.1 ≠ lev0) ∧ probeSplit.stage = 0 ∧ probeSplit.vals = []
    ∧ (barOf (placed probeGroup) lev0).arrivals = []
    ∧ neededOf (placed probeGroup) 0 probeGroup true (expectedOf (barOf (placed probeGroup) lev0) 0) ≤ 0 + 1
    ∧ ((barOf (arriving .barl) lev0).what = some .barl
      ∧ neededOf (arriving .barl) 0 probeGroup true (expectedOf (barOf (arriving .barl) lev0) 0) ≤ 1 + 1)
    ∧ ((barOf (arriving (.redl .add .z64)) lev0).what = some (.redl .add .z64)
      ∧ (barOf (arriving (.redl .add .z64)) lev0).arrivals ≠ []
      ∧ (barOf (arriving (.redl .add .z64)) lev0).what ≠ some .barl)
    ∧ (let mine : Arrival := arrivalOf (arriving .barl) 0 probeGroup
      ∃ as : List Arrival, as.Perm ((barOf (arriving .barl) lev0).arrivals ++ [mine]) ∧ as.Pairwise fun x y => x.gnum < y.gnum)
    ∧ (∀ x ∈ (coreOf (arriving .barl) 0).slots, x.2.launch = 0 → x.2.team = 0 → x.2.gnum = 0 → x.1 = 0)
    ∧ 0 + 1 < neededOf (setGroup (placed probeGroup) 0 1 { probeGroup with gnum := 1 }) 0 probeGroup true 0 :=
  ⟨by decide, by decide, by unfold Alone; decide, by decide, rfl, rfl, by decide, by decide, by decide, by decide,
    ⟨_, List.perm_append_comm, by decide⟩, by decide, by decide⟩

/-- A group whose other split stands as `x`. -/
def beside (x : Split) : Group := { probeGroup with splits := [(0, deep 1 (.forked 0 0 0)), (1, x)] }
theorem test_meets_ReturnWords_meetings :
    (∃ e r, (deep 1 (.forked 0 5 1)).stack = e :: r ∧ e.kind = .forked 0 5 1)
    ∧ (let g := beside { deep 1 (.forked 0 0 0) with wait := some .ret, running := false }
      ∀ p ∈ g.splits, p.1 ≠ 0 → p.2.wait = some .ret ∧ atFork 0 p.2 = true)
    ∧ (let g := beside (other none); ¬ ∀ p ∈ g.splits, p.1 ≠ 0 → ∃ w, p.2.wait = some w ∧ isMeeting w = true)
    ∧ (let g := beside (other (some .join));
      (∀ p ∈ g.splits, p.1 ≠ 0 → ∃ w, p.2.wait = some w ∧ isMeeting w = true)
      ∧ ¬ ∀ p ∈ g.splits, p.1 ≠ 0 → p.2.wait = some .ret ∧ atFork 0 p.2 = true)
    ∧ (let g := { probeGroup with splits := [(0, probeSplit), (2, { other (some .join) with pc := 0, mask := 1 })] };
      (∀ d ∈ g.defers, d.owner ≠ 0) ∧ (∀ p ∈ g.splits, p.1 ≠ 0 → p.2.wait = some .join ∧ p.2.pc = 0)
      ∧ (g.splits.map (·.1)).Pairwise (· < ·) ∧ ∀ p ∈ g.splits, p.2.stack = probeSplit.stack)
    ∧ (let g := { probeGroup with splits := [(0, probeSplit), (2, { deep 1 .plain with wait := some .join, running := false })] };
      (∀ p ∈ g.splits, p.1 ≠ 0 → p.2.wait = some .join ∧ p.2.pc = 0) ∧ ∃ p ∈ g.splits, p.2.stack ≠ probeSplit.stack)
    ∧ MayRun (placed probeGroup) probeGroup
    ∧ (∃ e, (deferred true).defers.find? (fun d => d.owner == 0) = some e ∧ e.j = true ∧ e.pc ≠ (other none).pc) := by
  refine ⟨⟨_, _, rfl, rfl⟩, by decide, ?_, ⟨?_, by decide⟩, by decide, by decide,
    ⟨rfl, rfl, by decide, 0, by decide, probeSplit, rfl, rfl, by decide⟩, ⟨_, rfl, by decide, by decide⟩⟩
  · intro g h; obtain ⟨w, h, _⟩ := h (1, other none) (by decide) (by decide); cases h
  · intro p h hp
    rcases List.mem_cons.mp h with rfl | h
    · exact (hp rfl).elim
    · cases List.mem_singleton.mp h; exact ⟨_, rfl, rfl⟩

/-- The probe's group, whose only split is about to exit. -/
def leaving : State := setLaunch (tables (placed probeGroup)) 0 { probeLaunch with recArea := 0x10000 }
theorem recLeaving : RecHere leaving { probeLaunch with recArea := 0x10000 } 0x20000 0 :=
  ⟨by decide, fun u hu hb off h =>
    page_at u (hu.1 0) (fun pa h => (hu.2 pa).trans (frames leaving rfl rfl rfl pa h)) (fun a h => hb a (.inl h)) off h true,
    fun _ _ => rfl⟩
theorem test_meets_ExitWord_last :
    Issues leaving here probeGroup probeSplit ∧ Settled here probeGroup probeSplit
    ∧ launchOf leaving 0 = some { probeLaunch with recArea := 0x10000 }
      ∧ RecHere leaving { probeLaunch with recArea := 0x10000 } 0x20000 0
    ∧ liveMask probeGroup &&& ~~~probeSplit.mask = 0 ∧ (∀ y ∈ (coreOf leaving 0).slips, y.slot ≠ 0)
    ∧ ∃ e, (deferred true).defers.find? (fun d => d.owner == 0) = some e :=
  ⟨⟨rfl, rfl, rfl⟩, settled, rfl, recLeaving, by decide, by decide, _, rfl⟩



/-- A packet of three words of the probe's group, in which partition 0 has a breakpoint b. -/
def packed (a b c : Nat) (bp : Word) : State :=
  let s := memWriteBytes (memWriteBytes (probe a) 4 (bytesOfWord (BitVec.ofNat 32 b))) 8 (bytesOfWord (BitVec.ofNat 32 c))
  setPart s 0 { partOf s 0 with ibp := [(0, bp)] }
/-- A split after n words of its run. -/
def worn (n : Nat) : Split := { probeSplit with run := { Run.start with words := n } }
/-- Its group. -/
def wornGroup (n : Nat) : Group := { probeGroup with splits := [(0, worn n)] }
/-- Its package. -/
def wearing (n : Nat) : State := setGroup (packed 0x3F010000 0 0 0) 0 0 (wornGroup n)

theorem test_meets_OtherTraps_bundles :
    (AtBundle (packed 0 0 0 0x8000000000000000) here probeGroup probeSplit
      ∧ Held (packed 0 0 0 0x8000000000000000) probeGroup probeSplit)
    ∧ (AtBundle (wearing 23) here (wornGroup 23) (worn 23) ∧ ¬ Held (wearing 23) (wornGroup 23) (worn 23)
      ∧ TooLong (worn 23) (bundleFrom (wearing 23) 0 (wornGroup 23) 0 0 3))
    ∧ (let s := packed 0x80060410 0x00060410 0 0;
      AtBundle s here probeGroup probeSplit ∧ ¬ Held s probeGroup probeSplit
      ∧ ¬ TooLong probeSplit (bundleFrom s 0 probeGroup 0 0 3) ∧ Unchainable (bundleFrom s 0 probeGroup 0 0 3)) := by
  refine ⟨⟨⟨rfl, governed rfl, ⟨rfl, rfl, rfl⟩, by simp [probeSplit], rfl, by decide, by decide⟩, rfl, by decide, 0, by decide, by decide,
      by decide, by decide⟩,
    ⟨⟨rfl, governed rfl, ⟨rfl, rfl, rfl⟩, by simp [worn, probeSplit], rfl, by decide, by decide⟩, by unfold Held; decide, 0, _, rfl,
      by decide, by decide⟩,
    ⟨rfl, governed rfl, ⟨rfl, rfl, rfl⟩, by simp [probeSplit], rfl, by decide, by decide⟩, by unfold Held; decide, ?_, ?_⟩
  · rintro ⟨i, x, h, k, _⟩
    have e : bundleFrom (packed 0x80060410 0x00060410 0 0) 0 probeGroup 0 0 3 = [(0, 0x80060410), (1, 0x00060410)] := by decide
    rw [show bundleFrom _ 0 probeGroup 0 0 3 = _ from e] at h
    have : probeSplit.run.words = 0 := rfl
    rw [this] at k
    have := (List.getElem?_eq_some_iff.mp h).1
    simp at this; omega
  · exact .inr (.inr (.inr ⟨0, 1, (0, 0x80060410), (1, 0x00060410), by decide, by decide, by decide, .inl (by decide)⟩))

/-- A group in single step. -/
def stepping : Group := { probeGroup with gdbg := 1 }
/-- A group whose partition watches writes of 8 bytes from 4 on. -/
def watched : State :=
  setPart (placed (at1 0)) 0 { partOf (placed (at1 0)) 0 with wpa := [(0, 4)], wpc := [(0, 0xA000000000000008)] }
theorem test_meets_OtherTraps_stops :
    (Issues (placed stepping) here stepping probeSplit ∧ MayTrap (placed stepping) here stepping ∧ stepping.watch = none
      ∧ stepping.gdbg.getLsbD 0 = true)
    ∧ (Issues watched here (at1 0) probeSplit ∧ MayTrap watched here (at1 0) ∧ MemReady watched here (at1 0) probeSplit (atG .st)
      ∧ (at1 0).pend = [] ∧ NoWaiters watched ∧ isCanonical (addrOf watched (at1 0) probeSplit (atG .st) 32) = true
      ∧ checkAcc watched 0 (at1 0) .st 0 8 (addrOf watched (at1 0) probeSplit (atG .st) 32) = .ok (.mem [(0, 8)])
      ∧ (∀ y ∈ (coreOf watched 0).slips, y.slot ≠ 0)
        ∧ OneWatch watched 0 true (addrOf watched (at1 0) probeSplit (atG .st) 32) 4 8) :=
  ⟨⟨⟨rfl, rfl, rfl⟩, mayTrap _ rfl, rfl, by decide⟩, ⟨rfl, rfl, rfl⟩, ⟨rfl, by decide⟩, ⟨rfl, rfl, rfl, rfl, rfl, by decide⟩, rfl,
    by unfold NoWaiters; decide, by decide, by decide, by decide, by decide, by decide, by decide, rfl, by decide, by decide⟩

/-- The package whose array ends the operation. -/
def ending (o : ArrOp) : State := withArray { MArray.reset with jobs := [job o true (opRows o) (opRows o)] }
/-- What an operation that ends asks for. -/
theorem ends_at (o : ArrOp) (u : AUnit) (h : opUnit o = u) : Ending (ending o) 0 u (job o true (opRows o) (opRows o)) [] :=
  ⟨rfl, h, rfl, rfl, rfl⟩

theorem test_meets_MatrixWords_ends :
    Ending (ending (.wld scratch 0)) 0 .loader (job (.wld scratch 0) true 0 0) []
      ∧ Ending (ending (.accz 15)) 0 .port (job (.accz 15) true 0 0) []
    ∧ Ending (ending (.accin scratch 0x303F 256)) 0 .port (job (.accin scratch 0x303F 256) true 0 0) []
    ∧ Ending (ending (.accout scratch 0x303F 256 FmtRec.reset)) 0 .port (job (.accout scratch 0x303F 256 FmtRec.reset) true 0 0) []
    ∧ FmtRec.reset.valid = true
    ∧ ((withArray { MArray.reset with jobs := [job oneRow true 1 0] }).cores.length = 1 ∧ (job oneRow true 1 0).mmt = false
      ∧ (job oneRow true 1 0).running = true ∧ (job oneRow true 1 0).rows < (job oneRow true 1 0).granted
      ∧ (job oneRow true 1 0).rows < ((0x3FC0 : Word).extractLsb' 0 6).toNat + 1) :=
  ⟨ends_at _ _ rfl, ends_at _ _ rfl, ends_at _ _ rfl, ends_at _ _ rfl, by decide, by decide, rfl, rfl, by decide, by decide⟩

/-- 1.0 and −1.0. -/
abbrev one32 : Word := 0x3F800000
abbrev minusOne32 : Word := 0xBF800000
theorem test_meets_PlanWords_ends :
    Ending (ending (.pld scratch)) 0 .loader (job (.pld scratch) true 0 0) []
    ∧ Ending (ending (.pcost scratch one32)) 0 .loader (job (.pcost scratch one32) true 0 0) []
    ∧ Ending (ending (.pregIn false true [])) 0 .port (job (.pregIn false true []) true 0 0) []
    ∧ Ending (ending (.pregOut true false)) 0 .port (job (.pregOut true false) true 0 0) []
    ∧ groupAt (ending (.pregOut true false)) 0 0 = some probeGroup
    ∧ Ending (ending (.balance 0x20FFF 0)) 0 .stream (job (.balance 0x20FFF 0) true 0 0) []
    ∧ Ending (ending (.ppart true scratch)) 0 .stream (job (.ppart true scratch) true 0 0) []
    ∧ Ending (ending (.pout scratch 0x103F 256)) 0 .port (job (.pout scratch 0x103F 256) true 0 0) []
    ∧ Ending (ending (.pdist scratch 0xFFFFFFFFFFC04000)) 0 .port (job (.pdist scratch 0xFFFFFFFFFFC04000) true 0 0) [] :=
  ⟨ends_at _ _ rfl, ends_at _ _ rfl, ends_at _ _ rfl, ends_at _ _ rfl, rfl, ends_at _ _ rfl, ends_at _ _ rfl, ends_at _ _ rfl,
    ends_at _ _ rfl⟩
/-- ε of 1.0 meets the clause of κ, of −1.0 and of a NaN the other one. -/
theorem test_meets_PlanWords_kappa :
    (isNum (fDecode .f32 (flushed .f32 (one32.toNat % 2 ^ 32))) = true
      ∧ 0 < ratOf (fDecode .f32 (flushed .f32 (one32.toNat % 2 ^ 32)))
      ∧ (2 : ℝ) ^ (-126 : Int) ≤ 1 / ((ratOf (fDecode .f32 (flushed .f32 (one32.toNat % 2 ^ 32))) : ℝ) * Real.log 2))
    ∧ ratOf (fDecode .f32 (flushed .f32 (minusOne32.toNat % 2 ^ 32))) ≤ 0
    ∧ isNum (fDecode .f32 (flushed .f32 0x7FC00000)) = false := by
  have one : fDecode .f32 0x3F800000 = .fin false 8388608 (-23) := by decide
  have less : fDecode .f32 0xBF800000 = .fin true 8388608 (-23) := by decide
  have nan : fDecode .f32 0x7FC00000 = .nan false := by decide
  have f1 : flushed .f32 (one32.toNat % 2 ^ 32) = 0x3F800000 := by
    rw [show one32.toNat % 2 ^ 32 = 0x3F800000 by decide]; simp only [flushed, one]; norm_num [ratOf, minExp2]
  have f2 : flushed .f32 (minusOne32.toNat % 2 ^ 32) = 0xBF800000 := by
    rw [show minusOne32.toNat % 2 ^ 32 = 0xBF800000 by decide]; simp only [flushed, less]; norm_num [ratOf, minExp2]
  have f3 : flushed .f32 0x7FC00000 = 0x7FC00000 := by simp only [flushed, nan]; simp [isNum]
  have r1 : ratOf (.fin false 8388608 (-23)) = 1 := by norm_num [ratOf]
  refine ⟨⟨by rw [f1, one]; rfl, by rw [f1, one, r1]; norm_num, ?_⟩, by rw [f2, less]; norm_num [ratOf], by rw [f3, nan]; rfl⟩
  rw [f1, one, r1, le_div_iff₀ (by norm_num; exact Real.log_pos (by norm_num))]
  have a := Real.log_two_lt_d9
  have b : (2 : ℝ) ^ (-126 : Int) ≤ 1 := zpow_le_one_of_nonpos₀ (by norm_num) (by norm_num)
  have c := Real.log_two_gt_d9
  push_cast
  nlinarith

/-- The package whose team owns granules, with one running copy. -/
def moving (o : CopyOp) : State :=
  setCore (arrayed probeGroup) 0 { coreOf (arrayed probeGroup) 0 with copies := [{ copying true none with what := o }] }
/-- The copy. -/
abbrev moved (o : CopyOp) : CopyJob := { copying true none with what := o }

/-- The engine's checks of an aperture address rest on the granules and the poisoned rows alone. -/
theorem eng_same (s u : State) (c part launch : Nat) (va : Word) (rd wr : Bool) (h : inAperture va = true)
    (hg : ∀ d, (coreOf u d).granules = (coreOf s d).granules) (hp : u.poison = s.poison) :
    engCheck u c part launch va rd wr = engCheck s c part launch va rd wr := by
  have a : ∀ o, granuleOk u c o launch = granuleOk s c o launch := fun o => by unfold granuleOk; rw [hg]
  have b : ∀ l, isPoisoned u l = isPoisoned s l := fun l => by unfold isPoisoned; rw [hp]
  have t : engTrans u c part launch va = engTrans s c part launch va := by
    unfold engTrans transAperture; rw [h, if_pos rfl, if_pos rfl, a]
  unfold engCheck; rw [t]; simp only [b]

/-- Accesses to the team's own granules pass and stay. -/
theorem eng_steady (o : CopyOp) (vas : List (Word × Bool × Bool)) (wr : Nat → Prop)
    (h : ∀ v ∈ vas, inAperture v.1 = true ∧ ∃ l, engCheck (moving o) 0 0 0 v.1 v.2.1 v.2.2 = .ok l) :
    EngSteady (moving o) 0 probeGroup vas wr := by
  intro u hu _ hc _ v hv
  obtain ⟨a, l, e⟩ := h v hv
  have p := congrArg State.poison hu
  exact ⟨l, e, (eng_same _ _ _ _ _ _ _ _ a (fun d => (hc d).2) p).trans e⟩

theorem copy_runs (o : CopyOp) (h : copyClear (coreOf (moving o) 0) [] (moved o) = true) : CopyRuns (moving o) 0 0 (moved o) probeGroup :=
  ⟨rfl, rfl, rfl, h, rfl⟩

/-- The access passes its checks. -/
def reaches : EngAcc → Bool
  | .ok _ => true
  | _ => false
theorem reaches_ok {a : EngAcc} (h : reaches a = true) : ∃ l, a = .ok l := by
  cases a with
  | ok l => exact ⟨l, rfl⟩
  | absent => cases h
  | cause => cases h

/-- A gather of one byte by one index, below IDXLIM n. -/
def gather (n : Word) : List Word := [scratch, scratch + 32, scratch + 64, n <<< 32 ||| 1, 0]

theorem test_meets_CopyWords_moves :
    CopyRuns (moving (.cpy scratch (scratch + 32) 1)) 0 0 (moved (.cpy scratch (scratch + 32) 1)) probeGroup
    ∧ Coherent (moving (.cpy scratch (scratch + 32) 1)) 0 ∧ TlbAligned (moving (.cpy scratch (scratch + 32) 1)) 0
    ∧ (let s := moving (.cpy scratch (scratch + 32) 1);
      let ps := copyPairs (fun _ => 0) (.cpy scratch (scratch + 32) 1);
      ps = [(scratch + 32, scratch)] ∧ engLoc s 0 0 0 (scratch + 32) ≠ engLoc s 0 0 0 scratch
      ∧ EngSteady s 0 probeGroup ((ps.map fun p => (p.1, false, true)) ++ ps.map fun p => (p.2, true, false))
        fun a => ∃ p ∈ ps, a = engLoc s 0 0 0 p.1)
    ∧ (CopyRuns (moving (.gth (gather 1))) 0 0 (moved (.gth (gather 1))) probeGroup
      ∧ let s := moving (.gth (gather 1))
        let ps := copyPairs (fun _ => 0) (.gth (gather 1))
        let is := indexAddrs (.gth (gather 1))
        ps = [(scratch + 32, scratch)] ∧ is = [scratch + 64] ∧ bytesAt (memByte s) (engLoc s 0 0 0 (scratch + 64)) 4 = 0
        ∧ 0 < ((gather 1).getD 3 0).toNat / 2 ^ 32 ∧ engLoc s 0 0 0 (scratch + 32) < engLoc s 0 0 0 (scratch + 64)
        ∧ EngSteady s 0 probeGroup ((ps.map fun p => (p.1, false, true)) ++ (ps.map fun p => (p.2, true, false))
          ++ is.map fun i => (i, true, false)) fun a => ∃ p ∈ ps, a = engLoc s 0 0 0 p.1)
    ∧ (CopyRuns (moving (.gth (gather 0))) 0 0 (moved (.gth (gather 0))) probeGroup
      ∧ (∃ l, engCheck (moving (.gth (gather 0))) 0 0 0 (scratch + 64) true false = .ok l)
      ∧ ((gather 0).getD 3 0).toNat / 2 ^ 32 = 0 ∧ ((gather 0).getD 4 0).getLsbD 31 = false ∧ probeGroup.copyErr = none)
    ∧ (CopyRuns (moving (.cpyr scratch (scratch + 64) 0x04000001)) 0 0 (moved (.cpyr scratch (scratch + 64) 0x04000001)) probeGroup
      ∧ (0x04000001 : Word).extractLsb' 28 3 < 3 ∧ ((0x04000001 : Word).extractLsb' 25 3).toNat = 2
      ∧ EngSteady (moving (.cpyr scratch (scratch + 64) 0x04000001)) 0 probeGroup [(scratch + 64, true, true), (scratch, true, false)] fun _ => True) := by
  have p : copyPairs (fun _ => 0) (.cpy scratch (scratch + 32) 1) = [(scratch + 32, scratch)] := by decide +kernel
  have q : copyPairs (fun _ => 0) (.gth (gather 1)) = [(scratch + 32, scratch)] := by decide +kernel
  have r : indexAddrs (.gth (gather 1)) = [scratch + 64] := by decide +kernel
  refine ⟨copy_runs _ (by decide), fun p h => (List.not_mem_nil h).elim, by unfold TlbAligned; decide +kernel,
    ⟨p, by decide +kernel, eng_steady _ _ _ ?_⟩,
    ⟨copy_runs _ (by decide +kernel), q, r, by decide +kernel, by decide, by decide +kernel, eng_steady _ _ _ ?_⟩,
    ⟨copy_runs _ (by decide +kernel), reaches_ok (by decide +kernel), by decide, by decide, rfl⟩,
    ⟨copy_runs _ (by decide +kernel), by decide, by decide, eng_steady _ _ _ ?_⟩⟩
  all_goals
    intro v hv
    simp only [p, q, r, List.map_cons, List.map_nil, List.cons_append, List.nil_append, List.mem_cons, List.not_mem_nil, or_false] at hv
  · rcases hv with rfl | rfl <;> exact ⟨by decide, reaches_ok (by decide +kernel)⟩
  · rcases hv with rfl | rfl | rfl <;> exact ⟨by decide, reaches_ok (by decide +kernel)⟩
  · rcases hv with rfl | rfl <;> exact ⟨by decide, reaches_ok (by decide +kernel)⟩

theorem test_meets_EngineEvents_steps :
    quadActive (withArray { MArray.reset with jobs := [job oneRow true 0 0] }) 0 = true
    ∧ (quadOf (withArray { MArray.reset with jobs := [job oneRow true 0 0] }) 0).govAt ≤ 0
      ∧ quadActive (placed probeGroup) 0 = false
    ∧ (job oneRow false 0 0).what = .mma 0xFFFFFFFFFFC00000 0x3FC0 0 FmtRec.reset
    ∧ groupAt (copies [copying true (some 0x10000)]) 0 0 = some probeGroup := by
  refine ⟨by decide, by decide, by decide, rfl, rfl⟩

/-- A group saved whole, and one that goes on after a phase boundary, which have not started. -/
def unstarted (o : Origin) : Group := { probeGroup with started := false, origin := o }
theorem test_meets_RunEvents_starts :
    (∀ o ∈ [Origin.fresh, .phase, .whole], groupAt (placed (unstarted o)) 0 0 = some (unstarted o)
      ∧ (unstarted o).started = false)
    ∧ (unstarted .whole).origin = .whole ∧ (unstarted .phase).origin ≠ .whole
    ∧ groupAt (placed late) 0 0 = some late
      ∧ (let s := { probeSplit with running := false }; MayRun (placed { probeGroup with splits := [(0, s)] }) { probeGroup with splits := [(0, s)] }) :=
  ⟨by decide, rfl, by decide, rfl, rfl, rfl, by decide, 0, by decide, { probeSplit with running := false }, rfl, rfl, rfl⟩

/-- A sliced launch at the cycle n, with another stream whose head team fits nowhere. -/
def slicedWith (n : Word) (stuck : Bool) : State :=
  let s := setStream { (at' n (sliced false)) with quads := [] } ⟨0, 1⟩ { Stream.reset with teams := if stuck then [{ launch := 0, first := 0, n := 1 }] else [] }
  s
theorem test_meets_TimeEvents_slices :
    (∃ l, launchOf (slicedWith 1500 false) 0 = some l ∧ l.sliceT = some 0
      ∧ (slicedWith 1500 false).clock.toNat ≤ 0 + 1500 * l.slice)
    ∧ (∃ l, launchOf (slicedWith 1501 true) 0 = some l ∧ l.sliceT = some 0
      ∧ 0 + 1500 * l.slice < (slicedWith 1501 true).clock.toNat
      ∧ l.status = 0 ∧ l.retired < l.teams)
    ∧ (∃ x ∈ allStreams (slicedWith 1501 true), x ≠ ⟨0, 0⟩ ∧ headStuck (slicedWith 1501 true) x = true)
    ∧ (¬ ∃ x ∈ allStreams (slicedWith 1501 false), x ≠ ⟨0, 0⟩ ∧ headStuck (slicedWith 1501 false) x = true)
    ∧ (∃ l, launchOf (setLaunch (slicedWith 1501 false) 0 { probeLaunch with slice := 1, sliceT := some 0, retired := 1, retiredAt := 1500 }) 0 = some l
      ∧ l.teams ≤ l.retired ∧ l.recPend = [] ∧ l.retiredAt.toNat ≤ 0 + 1500 * l.slice) :=
  ⟨⟨_, rfl, rfl, by decide⟩, ⟨_, rfl, rfl, by decide, rfl, by decide⟩, by decide, by decide, ⟨_, rfl, by decide, rfl, by decide⟩⟩
/-- A launch whose record holds a group with a translation register. -/
def shelved : Launch :=
  { probeLaunch with records := [{ team := 0, whole := true, time := 0, groups := [{ gnum := 0, grp := readOnly, recs := [], at' := 0 }]
                                   array := none, scr := [], base := 0, image := [] }] }
theorem test_meets_TimeEvents_records :
    launchOf (setLaunch (shooting true probeGroup) 0 shelved) 0 = some shelved ∧ shelved.records.length = 1
    ∧ (partOf (setLaunch (shooting true probeGroup) 0 shelved) 0).ack = true ∧ (tabGet TReg.reset readOnly.tregs 0).v = true :=
  ⟨rfl, rfl, rfl, by decide⟩

theorem test_meets_StreamEvents_buffers :
    (let x := { sole pFence with xbufs := [⟨0, 2, 1⟩] }; Turn (streaming x) ⟨0, 0⟩ x (packet pFence) (.ffence ⟨0, 0⟩)
      ∧ x.loop = none)
    ∧ (let x := { sole pFence with xbufs := [⟨0, 2, 2⟩, ⟨0x40, 2, 1⟩] };
      Turn (streaming x) ⟨0, 0⟩ x (packet pFence) (.ffence ⟨0, 0⟩) ∧ 1 < (⟨0x40, 2, 1⟩ : BufAt).left)
    ∧ (let x := queueing [{ packet pIb with depth := 2 }];
      Turn (streaming x) ⟨0, 0⟩ x { packet pIb with depth := 2 } (.ib ⟨0, 0⟩ 0x10040 0xFFFFFF))
    ∧ (let x := { queueing [packet [0x0700100000000000, 0x20000, 0]] with tail := 2, wait := some (0x20000, false) };
      x.mayFetch = true ∧ x.wait ≠ none ∧ x.skip = 0)
    ∧ ({ streaming (sole pNop) with ready := true } : State).ready = true ∧ (streaming (sole pNop)).ready = false :=
  ⟨⟨⟨rfl, rfl, rfl⟩, rfl⟩, ⟨⟨rfl, rfl, rfl⟩, by decide⟩, ⟨rfl, rfl, rfl⟩, ⟨by decide, by decide, rfl⟩, rfl, rfl⟩

theorem test_meets_PacketEvents_skips :
    (let x := queueing [packet [0x0301100000000000, 0x10038, 1], packet pNop];
      Turn (streaming x) ⟨0, 0⟩ x (packet [0x0301100000000000, 0x10038, 1]) (.pred ⟨0, 0⟩ 1 .eq true 0x10038 1)
      ∧ (1 : BitVec 8).toNat < x.window.length ∧ x.window.length ≤ (x.tail - x.head).toNat ∧ (∀ y ∈ x.window, y.depth = 0)
        ∧ x.fbufs = [])
    ∧ (∀ l ∈ launching.launches, l.2.part = 0 → l.2.stream = 0 → l.2.status ≠ 0 ∧ l.2.recPend = []) :=
  ⟨⟨⟨rfl, rfl, rfl⟩, by decide, by decide, by decide, rfl⟩, by decide⟩

/-- The package that places team 0 of launch 0, which has a record with the image m. -/
def placingSaved (m : Tab Byte) : State :=
  setLaunch placing 0 { shelved with records := shelved.records.map fun r => { r with image := m } }
/-- One group, stopped or at a barrier, with its record area. -/
def lone (g : Group) : State := setLaunch (tables (placed g)) 0 { probeLaunch with recArea := 0x10000 }
theorem recLone (g : Group) : RecHere (lone g) { probeLaunch with recArea := 0x10000 } 0x20000 0 :=
  ⟨by decide, fun u hu hb off h =>
    page_at u (hu.1 0) (fun pa h => (hu.2 pa).trans (frames (lone g) rfl rfl rfl pa h)) (fun a h => hb a (.inl h)) off h true,
    fun _ _ => rfl⟩
theorem test_meets_TeamEvents_records :
    (∃ q c n team l r, nextPlacement (placingSaved []) 0 = some (q, c, n, team, l) ∧ recordOf l team = some r
      ∧ badRecord (placingSaved []) l team = false ∧ r.groups.length ≤ l.groups)
    ∧ (∃ q c n team l r, nextPlacement (placingSaved [(0, 1)]) 0 = some (q, c, n, team, l) ∧ recordOf l team = some r
      ∧ badRecord (placingSaved [(0, 1)]) l team = true ∧ l.status = 0)
    ∧ OneGroup (lone { probeGroup with stopped := true }) 0 { probeLaunch with recArea := 0x10000 } 0 0 { probeGroup with stopped := true } 0x20000 0
    ∧ (let g := waiting (.barrier bar0 0); OneGroup (lone g) 0 { probeLaunch with recArea := 0x10000 } 0 0 g 0x20000 0
      ∧ awaits (.barrier bar0 0) = some (3, 1) ∧ g.splits.length = 1)
    ∧ (partOf (setPart (starving true) 0 { partOf (starving true) 0 with starving := true }) 0).starving = true
    ∧ (tenderOf (coreOf (retIssued (meeting 1) 0 0 callee 1 0 0) 0) 0 0 = some (1, guess 1)
      ∧ (∃ k, groupAt (retIssued (meeting 1) 0 0 callee 1 0 0) 0 1 = some k) ∧ callee.gdbg.getLsbD 0 = false
      ∧ tenderHolds (retIssued (meeting 1) 0 0 callee 1 0 0) 0 0 callee (guess 1) = false
      ∧ tenderHolds (retIssued (meeting 0) 0 0 callee 1 0 0) 0 0 callee (guess 0) = true
      ∧ tenderOf (coreOf (retIssued (placed callee) 0 0 callee 1 0 0) 0) 0 0 = none) :=
  ⟨⟨_, _, _, _, _, _, rfl, rfl, by decide, by decide⟩, ⟨_, _, _, _, _, _, rfl, rfl, by decide, rfl⟩,
    ⟨rfl, rfl, rfl, by decide, ⟨rfl, rfl, rfl⟩, recLone _⟩, ⟨⟨rfl, rfl, rfl, by decide, ⟨rfl, rfl, rfl⟩, recLone _⟩,
      rfl, rfl⟩, rfl,
    ⟨rfl, ⟨_, rfl⟩, by decide, by decide, by decide, by decide⟩⟩

/-- The package in which Jalov may hold stopped groups of partition 0. -/
def holding (g : Group) : State := setPart (placed g) 0 { partOf (placed g) 0 with dbgctl := 2 }
/-- A port with packets on the way and a budget of its partition. -/
def posted : State :=
  let s := ported { live with sent := [sent] }
  setPart s 0 (partOf s 0)
theorem test_meets_OutsideEvents_holds :
    ((partOf (holding (halted 3)) 0).dbgctl.getLsbD 1 = true ∧ (halted 3).trrec.kind = 3 ∧ (halted 3).stopped = true
      ∧ splitAt (halted 3) 0 = some probeSplit ∧ (halted 3).watch = none ∧ ∀ va k, probeSplit.wait ≠ some (.fault va k true))
    ∧ (let g := { halted 0 with trrec := { TrapRec.reset with cause := causeCode .bkpt } }; (partOf (holding g) 0).dbgctl.getLsbD 1 = true
      ∧ g.trrec.kind = 0 ∧ g.trrec.cause ∈ [causeCode .bkpt, causeCode .step, causeCode .watch])
    ∧ (partOf (placed (halted 0)) 0).dbgctl.getLsbD 1 = false ∧ (halted 2).trrec.kind = 2
    ∧ ({ probe 0 with ready := true } : State).ready = true ∧ (probe 0).ready = false
    ∧ (lmargOf { probe 0 with lmarg := [(4 * 17 + 3, { Lmarg.reset with busy := true })], phyLane := some 70 } 17 3).busy = true
    ∧ (70 : Nat) ≠ 4 * 17 + 3
    ∧ ((portOf posted 17).sent = [sent] ∧ sent.part < 48 ∧ tabGet 0 (portOf posted 17).buf sent.vl = 0
      ∧ posted.podNum ≠ some (pktDest sent.pkt)
      ∧ NoCredit (budget posted 0 2) ∧ sent.part ∈ posted.parts.map (·.1))
    ∧ (let e := { sent with pkt := { words := [BitVec.ofNat 64 (3 * 2 ^ 55)], trunc := false } };
      posted.podNum = some (pktDest e.pkt) ∧ queueWords (queueOf posted (pktQueue e.pkt)) + e.pkt.words.length ≤ 512) :=
  ⟨⟨by decide, rfl, rfl, rfl, rfl, by simp [probeSplit]⟩, ⟨by decide, rfl, by decide⟩, by decide, rfl, rfl, rfl,
    by decide, by decide,
    ⟨rfl, by decide, by decide, by decide, ⟨by decide, by decide⟩, by decide⟩, by decide, by decide⟩

/-! ### Cases of clauses on time, waits, stops and repairs -/

/-- The package at cycle n with a quad of partition 0 whose array runs an MMA. -/
def governing (n : Word) : State :=
  { at' n (withArray { MArray.reset with jobs := [job oneRow true 0 0] }) with quads := [(0, { owner := some 0, tlb := [], govAt := 0 })] }
theorem test_meets_StepRunsDecoded_governor :
    (governing 1).agenda = [] ∧ (∃ q, GovLate (governing 1) q) ∧ Governed { governing 0 with turn := none } :=
  ⟨rfl, ⟨0, by decide, by decide, by decide⟩, governed rfl⟩

/-- A group with a packet under way through port 17. -/
def posting : Group := { probeGroup with acks := [(17, 0)] }
theorem test_meets_FenceWords_pod :
    Issues (placed posting) here posting probeSplit ∧ Settled here posting probeSplit ∧ posting.acks ≠ []
    ∧ (∀ a ∈ posting.acks, (portOf (placed posting) (a.1 % 18)).failed = false)
    ∧ (let sp := { probeSplit with stage := 2, vals := [(35, 0)] }
      Settled here { posting with splits := [(0, sp)] } sp ∧ ∀ a ∈ posting.acks, ∀ x ∈ sp.vals, x.1 ≠ a.1) :=
  ⟨placed_issues _ _ rfl, ⟨rfl, by decide, rfl, by decide⟩, by decide, by decide, ⟨rfl, by decide, rfl, by decide⟩, by decide⟩

theorem test_meets_PlanWords_status :
    (coreOf (arrayed probeGroup) 0).slips.length < 128
    ∧ 128 ≤ (coreOf (cored fun k => { k with slips := List.replicate 128 { slot := 1, op := 0, range := .planst, wr := false } }) 0).slips.length
    ∧ Claimed (coreOf (withArray { MArray.reset with claim := some (0, 0) }) 0).array probeGroup { MArray.reset with claim := some (0, 0) }
    ∧ Ending (ending .pstat) 0 .status (job .pstat true 0 0) [] :=
  ⟨by decide, by decide +kernel, .inl ⟨rfl, rfl⟩, ends_at _ _ rfl⟩

/-- The package held for a rebase, with an open barrier and the turn over. -/
def rebasing : State :=
  { setBar (placed probeGroup) bar0 { Barrier.reset with arrivals := [{ core := 0, launch := 0, team := 0, gnum := 0, tc := 9, vals := [] }] } with held := true }
theorem test_meets_TimeEvents_rebase :
    rebasing.held = true ∧ (∀ k ∈ rebasing.cores, ∀ x ∈ k.2.slots, x.2.pend = [])
    ∧ (∃ b ∈ rebasing.barriers, ∃ x ∈ b.2.arrivals, x.tc ≠ 0) := ⟨rfl, by decide, by decide⟩

/-- A stream that has fetched a LOOP of one packet and its body, with TAIL written back to n. -/
def racing (n : BitVec 32) : Stream := { queueing [packet (pLoop 0), packet pNop] with tail := n }
theorem test_meets_StreamEvents_overrun :
    isOver (afterPackets (racing 2) 2) = false ∧ isOver (afterPackets (racing 1) 2) = true
    ∧ isOver { afterPackets (racing 1) 2 with en := false } = false
    ∧ Turn (streaming (racing 1)) ⟨0, 0⟩ (racing 1) (packet (pLoop 0)) (.loop ⟨0, 0⟩ 1 0) ∧ InRing (racing 1)
    ∧ isOver (queueing []) = false ∧ isOver { queueing [] with tail := 17 } = true :=
  ⟨by decide, by decide, by decide, ⟨rfl, rfl, rfl⟩, ⟨rfl, rfl⟩, by decide, by decide⟩

/-- The package at cycle 100 with a team at a phase boundary that is saved at cycle n. -/
def saving (n : Nat) : State := at' 100 (placed { waiting .phase with saveAt := n })
/-- A tender that has read line 0 after a held store, as version w. -/
def readAfter (w : Nat) : Tender :=
  { guess 0 with tracked := [{ va := 0, loc := 0, w := w, first := 1, last := 1 }], hold := [{ va := 128, loc := 128, n := 8, op := .plain 1 }] }
theorem test_meets_TeamEvents_saves :
    (∀ n ∈ [0, 100, 101], teamCore (saving n) 0 0 = some 0 ∧ (∃ x ∈ teamGroups (coreOf (saving n) 0) 0 0, liveMask x.2 ≠ 0)
      ∧ (∀ x ∈ teamGroups (coreOf (saving n) 0) 0 0, x.2.stopped = false ∧ x.2.pend = [] ∧ ∀ p ∈ x.2.splits, p.2.wait = some .phase)
      ∧ teamSlipped (coreOf (saving n) 0) 0 0 = false)
    ∧ ((∀ x ∈ teamGroups (coreOf (saving 0) 0) 0 0, x.2.saveAt = 0) ∧ ((coreOf (saving 0) 0).slots.map (·.1)).Nodup)
    ∧ ((∃ x ∈ teamGroups (coreOf (saving 100) 0) 0 0, x.2.saveAt ≠ 0)
      ∧ ∀ x ∈ teamGroups (coreOf (saving 100) 0) 0 0, x.2.saveAt ≤ (saving 100).clock.toNat)
    ∧ (∃ x ∈ teamGroups (coreOf (saving 101) 0) 0 0, (saving 101).clock.toNat < x.2.saveAt)
    ∧ commitAccesses (retIssued (meeting 0) 0 0 callee 1 0 0) 0 0 (readAfter 5) = none
    ∧ (commitAccesses (retIssued (meeting 0) 0 0 callee 1 0 0) 0 0 (readAfter 0)).isSome = true
    ∧ (commitAccesses (retIssued (meeting 0) 0 0 callee 1 0 0) 0 0 (guess 0)).isSome = true := by
  refine ⟨?_, ⟨by decide, by decide⟩, ⟨by decide, by decide⟩, by decide, by decide, by decide, by decide⟩
  intro n hn
  simp only [List.mem_cons, List.not_mem_nil, or_false] at hn
  rcases hn with rfl | rfl | rfl <;> exact ⟨rfl, by decide, by decide, by decide⟩

/-- A group that FPE has stopped, with STEP still due in `due`. -/
def trapped (cause : Cause) (due : Bool) : Group :=
  { stepping with stopped := true, stepDue := due, trrec := { TrapRec.reset with cause := causeCode cause } }
theorem test_meets_OutsideEvents_replays :
    ((trapped .fpe false).trrec.kind = 0 ∧ (trapped .fpe false).trrec.cause = causeCode .fpe ∧ (trapped .fpe false).stepDue = false
      ∧ (partOf (placed (trapped .fpe false)) 0).dbgctl.getLsbD 1 = false)
    ∧ ((trapped .watch true).stepDue = true ∧ (trapped .watch true).gdbg.getLsbD 0 = true ∧ (trapped .watch true).isTender = none
      ∧ (partOf (holding (trapped .watch true)) 0).dbgctl.getLsbD 1 = true
      ∧ (trapped .watch true).trrec.cause ∈ [causeCode .bkpt, causeCode .step, causeCode .watch]
      ∧ 0 ∉ tendersOf (coreOf (holding (trapped .watch true)) 0) 0)
    ∧ (let g := { halted 2 with watch := some 4 }; g.watch = some 4 ∧ g.isTender = none ∧ splitAt g 0 = some probeSplit)
    ∧ (let g := deferred true; ∃ p ∈ g.splits, ∃ d ∈ g.defers, d.owner = p.1 ∧ d.mask ≠ 0)
    ∧ (let g := trapped .fpe false; ∃ p ∈ g.splits, p.2.mask.getLsbD 31 = true) ∧ (63 : Fin 64).val < (trapped .fpe false).valloc :=
  ⟨⟨rfl, by decide, rfl, by decide⟩, ⟨rfl, by decide, rfl, by decide, by decide, by decide⟩, ⟨rfl, rfl, rfl⟩, by decide, by decide,
    by decide⟩

/-- A launch whose record holds a group with a packet under way. -/
def mailed : Launch :=
  { probeLaunch with records := [{ team := 0, whole := true, time := 0, groups := [{ gnum := 0, grp := posting, recs := [], at' := 0 }]
                                   array := none, scr := [], base := 0, image := [] }] }
theorem test_meets_OutsideEvents_records :
    launchOf (setLaunch posted 0 mailed) 0 = some mailed ∧ ∃ r ∈ mailed.records, ∃ y ∈ r.groups, (17, 0) ∈ y.grp.acks :=
  ⟨rfl, by decide⟩

/-- A move of one line to another, of a page of partition 0. -/
def oneMove : FrameMove := { src := 0x20000, dst := 0x20080, size := 128, entries := [], part := 0, base := 0x10000, len := 0x10000 }
theorem test_meets_PlatformEvents_repairs :
    (1, 8) ∉ [(1, 40), (2, 8), (3, 40), (4, 7888)] ∧ (5, 40) ∉ [(1, 40), (2, 8), (3, 40), (4, 7888)]
    ∧ 0 < oneMove.size ∧ canMove (probe 0) oneMove = true ∧ canMove (probe 0) { oneMove with dst := 0x20040 } = false
    ∧ newFutures (probe 0) (houseStore (probe 0) 0x20000 [1, 0, 0, 0, 0, 0, 0, 0] 9) = [] :=
  ⟨by decide, by decide, by decide, by decide, by decide, by decide +kernel⟩

end Sys2Proof.Tests
end

section
/-! PROOFS. Integer words (R60–R70): each f of the model is the f of its rule, so that the words compute what the rules say. -/

namespace Sys2Proof.Proofs.Integer

open Machine Claims Laws

/-! ### From a word's meaning to its claim -/

/-- A two-operand word computes every function with the values of its f. -/
theorem computes_int2 {i : Instr} {h : Hd} {d a b : Opnd} {f f' : Word → Word → Word}
    (hi : ∀ s, exec i s = int2 s h d a b f) (e : ∀ x y, f x y = f' x y) : Computes i (intCalc h d a b f') .var := by
  obtain rfl : f = f' := funext₂ e
  exact regWord_spec h (intWord d a b) (pure2 f) i hi

/-- A one-operand word computes every function with the values of its f. -/
theorem computes_int1 {i : Instr} {h : Hd} {d a : Opnd} {f f' : Word → Word}
    (hi : ∀ s, exec i s = int1 s h d a f) (e : ∀ x, f x = f' x) : Computes i (intCalc h d a .z fun x _ => f' x) .var :=
  computes_int2 hi fun x _ => e x

/-- A word that also reads d computes every function with the values of its f. -/
theorem computes_int3 {i : Instr} {h : Hd} {d a b : Opnd} {f f' : Word → Word → Word → Word}
    (hi : ∀ s, exec i s = int3 s h d a b f) (e : ∀ x y w, f x y w = f' x y w) : Computes i (intCalc3 h d a b f') .var := by
  obtain rfl : f = f' := funext₃ e
  exact regWord_spec h { intWord d a b with w := (d, .int 64) } (fun _ x y w => (f x y w, noFlags)) i hi

/-- A division word computes every function with the values of its f; its results are outstanding (R56). -/
theorem computes_divWord {i : Instr} {h : Hd} {d a b : Opnd} {f f' : Word → Word → Word}
    (hi : ∀ s, exec i s = divWord s h d a b f) (e : ∀ x y, f x y = f' x y) : Computes i (divCalc h d a b f') .div := by
  obtain rfl : f = f' := funext₂ e
  exact regWord_spec h { intWord d a b with lat := none, div := true } (pure2 f) i hi

/-! ### Two operands (R60) -/

/-- The smaller of two words by a key that tells words apart. -/
theorem pick_lt_eq_of_le {α : Type} [LinearOrder α] {key : Word → α} (inj : ∀ {x y}, key x = key y → x = y) (x y : Word) :
    pick (decide (key x < key y)) x y = if key x ≤ key y then x else y := by
  simp only [pick, decide_eq_true_eq]
  rcases lt_trichotomy (key x) (key y) with h | h | h
  · rw [if_pos h, if_pos h.le]
  · rw [inj h, ite_self, ite_self]
  · rw [if_neg h.not_gt, if_neg h.not_ge]

/-- The larger of two words by a key. -/
theorem pick_gt_eq_of_le {α : Type} [LinearOrder α] (key : Word → α) (x y : Word) :
    pick (decide (key y < key x)) x y = if key x ≤ key y then y else x := by
  simp only [pick, decide_eq_true_eq]
  by_cases h : key x ≤ key y
  · rw [if_pos h, if_neg h.not_gt]
  · rw [if_neg h, if_pos (not_le.mp h)]

theorem pick_slt_eq_sMin (x y : Word) : pick (x.slt y) x y = sMin x y := by
  rw [BitVec.slt_eq_decide, pick_lt_eq_of_le BitVec.toInt_inj.mp, sMin]

theorem pick_slt_eq_sMax (x y : Word) : pick (y.slt x) x y = sMax x y := by
  rw [BitVec.slt_eq_decide, pick_gt_eq_of_le, sMax]

theorem pick_ult_eq_uMin (x y : Word) : pick (x.ult y) x y = uMin x y := by
  rw [BitVec.ult_eq_decide, pick_lt_eq_of_le BitVec.toNat_inj.mp, uMin]

theorem pick_ult_eq_uMax (x y : Word) : pick (y.ult x) x y = uMax x y := by
  rw [BitVec.ult_eq_decide, pick_gt_eq_of_le, uMax]

theorem amount_eq_low6 (y : Word) : amount y = low6 y := by simp [amount, low6]

theorem rotateLeft_eq_rotLeft (x y : Word) : x.rotateLeft (amount y) = rotLeft x (low6 y) := by
  have h : low6 y % 64 = low6 y := Nat.mod_mod ..
  rw [amount_eq_low6, BitVec.rotateLeft_def, h, rotLeft]

/-- Bits 127:64 of a word of 128 bits that stands for p. -/
theorem high_half_ofInt {z : BitVec 128} {p : Int} (h : (z.toNat : Int) = p % 2 ^ 128) :
    z.extractLsb' 64 64 = BitVec.ofInt 64 (p / 2 ^ 64) := by
  apply BitVec.eq_of_toNat_eq
  rw [BitVec.extractLsb'_toNat, BitVec.toNat_ofInt, Nat.shiftRight_eq_div_pow]
  omega

theorem mulhs_eq (x y : Word) : mulhs x y = BitVec.ofInt 64 (x.toInt * y.toInt / 2 ^ 64) := by
  refine high_half_ofInt ?_
  have h : x.signExtend 128 * y.signExtend 128 = BitVec.ofInt 128 (x.toInt * y.toInt) := by
    rw [BitVec.ofInt_mul]; rfl
  rw [h, BitVec.toNat_ofInt]
  omega

theorem mulhuW_eq (x y : Word) : mulhuW x y = BitVec.ofNat 64 (x.toNat * y.toNat / 2 ^ 64) := by
  have h : ((x.setWidth 128 * y.setWidth 128).toNat : Int) = (x.toNat * y.toNat : Nat) % 2 ^ 128 := by
    simp [BitVec.toNat_mul]
  exact (high_half_ofInt h).trans (BitVec.ofInt_natCast ..)

/-- Settles O10: each f of the model is that of the rule's table (R60). -/
theorem twoOperandWords : Obligations.TwoOperandWords := by
  intro h d a b
  refine ⟨computes_int2 (fun _ => rfl) fun _ _ => rfl, computes_int2 (fun _ => rfl) fun _ _ => rfl,
    computes_int2 (fun _ => rfl) fun _ _ => rfl, computes_int2 (fun _ => rfl) fun _ _ => rfl,
    computes_int2 (fun _ => rfl) fun _ _ => rfl, computes_int2 (fun _ => rfl) fun _ _ => rfl,
    computes_int2 (fun _ => rfl) pick_slt_eq_sMin, computes_int2 (fun _ => rfl) pick_slt_eq_sMax,
    computes_int2 (fun _ => rfl) pick_ult_eq_uMin, computes_int2 (fun _ => rfl) pick_ult_eq_uMax,
    computes_int2 (fun _ => rfl) fun x y => congrArg (x <<< ·) (amount_eq_low6 y),
    computes_int2 (fun _ => rfl) fun x y => congrArg (x >>> ·) (amount_eq_low6 y),
    computes_int2 (fun _ => rfl) fun x y => congrArg x.sshiftRight (amount_eq_low6 y),
    computes_int2 (fun _ => rfl) rotateLeft_eq_rotLeft,
    computes_int2 (fun _ => rfl) fun _ _ => rfl, computes_int2 (fun _ => rfl) mulhs_eq,
    computes_int2 (fun _ => rfl) mulhuW_eq, computes_int3 (f := fun x y w => w + x * y) (fun _ => rfl) fun _ _ _ => rfl⟩

/-! ### Division (R61) -/

theorem divS_eq_quotS (x y : Word) : divS x y = quotS x y := by
  unfold divS quotS
  split
  · rfl
  · exact BitVec.eq_of_toInt_eq (by rw [BitVec.toInt_sdiv, BitVec.toInt_ofInt])

theorem remS_eq_remainS (x y : Word) : remS x y = remainS x y := by
  unfold remS remainS
  rw [← BitVec.toInt_srem, BitVec.ofInt_toInt]

theorem divU_eq_quotU (x y : Word) : divU x y = quotU x y := by
  unfold divU quotU
  rw [← BitVec.toNat_udiv, BitVec.ofNat_toNat, BitVec.setWidth_eq]
  rfl

theorem remU_eq_remainU (x y : Word) : remU x y = remainU x y := by
  unfold remU remainU
  rw [← BitVec.toNat_umod, BitVec.ofNat_toNat, BitVec.setWidth_eq]

/-- Only −2^63 ÷ −1 overflows. -/
theorem toInt_quotS {x y : Word} (hy : y ≠ 0) (h : ¬ (x = 0x8000000000000000 ∧ y = -1)) :
    (quotS x y).toInt = x.toInt.tdiv y.toInt := by
  rw [← divS_eq_quotS, divS, if_neg hy]
  exact BitVec.toInt_sdiv_of_ne_or_ne x y (not_and_or.mp h)

theorem toInt_remainS {x y : Word} (hy : y ≠ 0) : (remainS x y).toInt = x.toInt.tmod y.toInt := by
  rw [← remS_eq_remainS, remS, if_neg hy, BitVec.toInt_srem]

theorem toNat_quotU {x y : Word} (hy : y ≠ 0) : (quotU x y).toNat = x.toNat / y.toNat := by
  rw [← divU_eq_quotU, divU, if_neg hy, BitVec.toNat_udiv]

theorem toNat_remainU {x y : Word} (hy : y ≠ 0) : (remainU x y).toNat = x.toNat % y.toNat := by
  rw [← remU_eq_remainU, remU, if_neg hy, BitVec.toNat_umod]

theorem signed_division {x y : Word} (hy : y ≠ 0) (h : ¬ (x = 0x8000000000000000 ∧ y = -1)) :
    x.toInt = (quotS x y).toInt * y.toInt + (remainS x y).toInt ∧ (remainS x y).toInt.natAbs < y.toInt.natAbs
      ∧ (0 ≤ x.toInt → 0 ≤ (remainS x y).toInt) ∧ (x.toInt ≤ 0 → (remainS x y).toInt ≤ 0) := by
  have hy' : y.toInt ≠ 0 := fun e => hy (BitVec.eq_of_toInt_eq e)
  rw [toInt_quotS hy h, toInt_remainS hy]
  refine ⟨(Int.tdiv_mul_add_tmod ..).symm, ?_, Int.tmod_nonneg _, fun hx => ?_⟩
  · rw [Int.natAbs_tmod]
    exact Nat.mod_lt _ (Int.natAbs_pos.mpr hy')
  · have := Int.tmod_nonneg y.toInt (neg_nonneg.mpr hx)
    rw [Int.neg_tmod] at this
    exact neg_nonneg.mp this

theorem unsigned_division {x y : Word} (hy : y ≠ 0) :
    x.toNat = (quotU x y).toNat * y.toNat + (remainU x y).toNat ∧ (remainU x y).toNat < y.toNat := by
  have hy' : y.toNat ≠ 0 := fun e => hy (BitVec.eq_of_toNat_eq e)
  rw [toNat_quotU hy, toNat_remainU hy]
  exact ⟨(Nat.div_add_mod' ..).symm, Nat.mod_lt _ (Nat.pos_of_ne_zero hy')⟩

/-- Settles O11: the divider's functions are those of R61, and the equation of R61 holds of them. -/
theorem divisionWords : Obligations.DivisionWords :=
  ⟨fun _ _ _ _ => ⟨computes_divWord (fun _ => rfl) divS_eq_quotS, computes_divWord (fun _ => rfl) remS_eq_remainS,
      computes_divWord (fun _ => rfl) divU_eq_quotU, computes_divWord (fun _ => rfl) remU_eq_remainU⟩,
    fun _ => ⟨rfl, rfl, rfl, rfl⟩, by decide, by decide, fun _ _ hy h => signed_division hy h, fun _ _ => unsigned_division⟩

/-! ### 32 bits and immediates (R62–R64) -/

theorem low5_eq (y : Word) : (y.extractLsb' 0 5).toNat = low5 y := by simp [low5]

/-- Settles O12: the model's f are those of R62 to R64. -/
theorem narrowWords : Obligations.NarrowWords := by
  refine ⟨fun h d a b => ⟨?_, ?_, ?_, ?_, ?_, ?_⟩, fun h d a => ⟨?_, fun imm => ⟨?_, ?_, ?_⟩, ?_, ?_⟩⟩
  · exact computes_int2 (fun _ => rfl) fun _ _ => rfl
  · exact computes_int2 (fun _ => rfl) fun _ _ => rfl
  · exact computes_int2 (fun _ => rfl) fun _ _ => rfl
  · exact computes_int2 (fun _ => rfl) fun x y => congrArg (fun n => sx32 (half x <<< n)) (low5_eq y)
  · exact computes_int2 (fun _ => rfl) fun x y => congrArg (fun n => sx32 (half x >>> n)) (low5_eq y)
  · exact computes_int2 (fun _ => rfl) fun x y => congrArg (fun n => sx32 ((half x).sshiftRight n)) (low5_eq y)
  · exact fun imm => computes_int1 (fun _ => rfl) fun _ => rfl
  · exact computes_int1 (fun _ => rfl) fun _ => rfl
  · exact computes_int1 (fun _ => rfl) fun _ => rfl
  · exact computes_int1 (fun _ => rfl) fun _ => rfl
  · exact fun imm => computes_int1 (fun _ => rfl) fun _ => rfl
  · exact fun imm => computes_int3 (f := fun _ _ w => (w <<< 16) ||| imm.setWidth 64) (fun _ => rfl) fun _ _ _ => rfl

/-! ### Unary words (R65) -/

theorem ctzFrom_eq_length_takeWhile (x : Word) (n i : Nat) :
    ctzFrom x n i = ((List.range' i n).takeWhile fun k => !x.getLsbD k).length := by
  induction n generalizing i with
  | zero => rfl
  | succ n ih =>
    rw [List.range'_succ, List.takeWhile_cons, ctzFrom, ih]
    cases x.getLsbD i <;> simp [Nat.add_comm]

theorem ctzFrom_eq_trailZeros (x : Word) : ctzFrom x 64 0 = trailZeros x := by
  rw [ctzFrom_eq_length_takeWhile, ← List.range_eq_range', trailZeros]

/-- The length of a run of k numbers from 0 on that ends at n or at a number without the property. -/
theorem length_takeWhile_range {p : Nat → Bool} {k n : Nat} (hk : k ≤ n) (hp : ∀ i < k, p i = true)
    (hend : k < n → p k = false) : ((List.range n).takeWhile p).length = k := by
  obtain ⟨m, rfl⟩ := Nat.exists_eq_add_of_le hk
  rw [List.range_add, List.takeWhile_append_of_pos fun i hi => hp i (List.mem_range.mp hi)]
  cases m with
  | zero => simp
  | succ m => simp [List.range_succ_eq_map, hend]

theorem bitLen_le {n w : Nat} (h : n < 2 ^ w) : bitLen n ≤ w := by
  unfold bitLen
  split
  · exact Nat.zero_le _
  · next hn => exact (Nat.log2_lt hn).mpr h

theorem testBit_of_bitLen_le {n i : Nat} (h : bitLen n ≤ i) : n.testBit i = false := by
  unfold bitLen at h
  split at h
  · next hn => simp [hn]
  · exact Nat.testBit_lt_two_pow (Nat.lt_log2_self.trans_le (Nat.pow_le_pow_right (by decide) h))

theorem testBit_bitLen_sub_one {n : Nat} (h : 0 < bitLen n) : n.testBit (bitLen n - 1) = true := by
  unfold bitLen at h ⊢
  split at h
  · exact absurd h (Nat.lt_irrefl 0)
  · next hn => rw [if_neg hn]; exact Nat.testBit_log2 hn

theorem clz64_eq_leadZeros (x : Word) : clz64 x = leadZeros x := by
  have hx := bitLen_le x.isLt
  refine (length_takeWhile_range (Nat.sub_le ..) (fun i hi => ?_) fun hlt => ?_).symm
  · rw [← BitVec.testBit_toNat, testBit_of_bitLen_le (by omega)]; rfl
  · have e : 63 - (64 - bitLen x.toNat) = bitLen x.toNat - 1 := by omega
    rw [← BitVec.testBit_toNat, e, testBit_bitLen_sub_one (by omega)]; rfl

theorem length_filter_eq_sum_toNat (p : Nat → Bool) (l : List Nat) :
    (l.filter p).length = (l.map fun i => (p i).toNat).sum := by
  induction l with
  | nil => rfl
  | cons i l ih => cases h : p i <;> simp [h, ih, Nat.add_comm]

theorem popc64_eq_countOnes (x : Word) : popc64 x = countOnes x := length_filter_eq_sum_toNat ..

/-- The number with bits f 0 to f (n − 1) is below 2^n and has those bits. -/
theorem sum_bits (f : Nat → Bool) (n : Nat) :
    ((List.range n).map fun i => (f i).toNat * 2 ^ i).sum < 2 ^ n
      ∧ ∀ j, ((List.range n).map fun i => (f i).toNat * 2 ^ i).sum.testBit j = (decide (j < n) && f j) := by
  induction n with
  | zero => simp
  | succ n ih =>
    obtain ⟨hlt, hbit⟩ := ih
    rw [List.range_succ, List.map_append, List.sum_append, List.map_singleton, List.sum_singleton,
      Nat.add_comm, Nat.mul_comm]
    have hf := Bool.toNat_le (f n)
    refine ⟨?_, fun j => ?_⟩
    · calc 2 ^ n * (f n).toNat + _ < 2 ^ n * 1 + 2 ^ n := Nat.add_lt_add_of_le_of_lt (Nat.mul_le_mul_left _ hf) hlt
        _ = 2 ^ (n + 1) := by ring
    · rw [Nat.testBit_two_pow_mul_add _ hlt, hbit]
      rcases lt_trichotomy j n with h | rfl | h
      · simp [h, Nat.lt_succ_of_lt h]
      · cases f j <;> simp
      · obtain ⟨k, hk⟩ : ∃ k, j - n = k + 1 := ⟨j - n - 1, by omega⟩
        rw [if_neg h.not_gt, hk, decide_eq_false (by omega : ¬ j < n + 1), Bool.false_and]
        cases f n <;> simp [Nat.testBit_succ]

@[simp] theorem getLsbD_ofBits (f : Nat → Bool) (i : Nat) : (ofBits f).getLsbD i = (decide (i < 64) && f i) := by
  rw [ofBits, BitVec.getLsbD_ofNat, (sum_bits f 64).2, ← Bool.and_assoc, Bool.and_self]

/-- A word whose bits are those of f. -/
theorem eq_ofBits {x : Word} {f : Nat → Bool} (h : ∀ i < 64, x.getLsbD i = f i) : x = ofBits f :=
  BitVec.eq_of_getLsbD_eq fun i hi => by rw [h i hi, getLsbD_ofBits, decide_eq_true hi, Bool.true_and]

theorem reverse_eq_ofBits (x : Word) : x.reverse = ofBits fun i => x.getLsbD (63 - i) :=
  eq_ofBits fun i hi => by
    rw [BitVec.getLsbD_reverse, BitVec.getMsbD, decide_eq_true hi, Bool.true_and]

theorem abs_eq_natAbs (x : Word) : (if x.msb then -x else x) = BitVec.ofNat 64 x.toInt.natAbs := by
  apply BitVec.eq_of_toNat_eq
  have hx := x.isLt
  rw [BitVec.toNat_ofNat, BitVec.toInt_eq_msb_cond]
  cases h : x.msb with
  | false => exact (Nat.mod_eq_of_lt hx).symm
  | true =>
    have := BitVec.toNat_ge_of_msb_true h
    simp only [if_true, BitVec.toNat_neg]
    omega

theorem packBits_eq_widthOf (w : PackW) : packBits w = widthOf w := by cases w <;> rfl

theorem setWidth_packBits_eq (w : PackW) (x : Word) :
    (x.setWidth (packBits w)).setWidth 64 = BitVec.ofNat 64 (x.toNat % 2 ^ widthOf w) := by
  rw [packBits_eq_widthOf, ← BitVec.toNat_setWidth, BitVec.ofNat_toNat]

/-! ### Bit fields (R68) -/

theorem fieldPos_eq_ctlPos (y : Word) : fieldPos y = ctlPos y := by simp [fieldPos, ctlPos]

theorem fieldWd_eq_ctlWd (y : Word) : fieldWd y = ctlWd y := by
  rw [fieldWd, ctlWd, fieldPos_eq_ctlPos, BitVec.extractLsb'_toNat, Nat.shiftRight_eq_div_pow]

/-- A field ends within the word. -/
theorem ctlPos_add_ctlWd_le (y : Word) : ctlPos y + ctlWd y ≤ 64 := by
  have hp : ctlPos y < 64 := Nat.mod_lt _ (by decide)
  have hw : ctlWd y ≤ 64 - ctlPos y := Nat.min_le_right ..
  omega

@[simp] theorem getLsbD_lowMask (n i : Nat) : (lowMask n).getLsbD i = (decide (i < 64) && decide (i < n)) := by
  rw [lowMask, BitVec.getLsbD_ofNat, Nat.testBit_two_pow_sub_one]

theorem bfxz_eq_fieldZ (x y : Word) : bfxz x y = fieldZ x y := by
  refine BitVec.eq_of_getLsbD_eq fun i hi => ?_
  simp only [bfxz, fieldZ, fieldPos_eq_ctlPos, fieldWd_eq_ctlWd, BitVec.getLsbD_and, BitVec.getLsbD_ushiftRight,
    getLsbD_lowMask, BitVec.getLsbD_setWidth, BitVec.getLsbD_extractLsb', decide_eq_true hi, Bool.true_and, Bool.and_comm]

/-- The field's top bit, where the field has one. -/
theorem msb_field (x y : Word) :
    (x.extractLsb' (ctlPos y) (ctlWd y)).msb = (decide (ctlWd y ≠ 0) && (bfxz x y).getLsbD (ctlWd y - 1)) := by
  have h := ctlPos_add_ctlWd_le y
  rw [bfxz_eq_fieldZ, fieldZ, BitVec.msb_eq_getLsbD_last, BitVec.getLsbD_setWidth]
  by_cases h0 : ctlWd y = 0
  · simp [h0]
  · have : ctlWd y - 1 < 64 := by omega
    simp [h0, this]

theorem bfxs_eq_fieldS (x y : Word) : bfxs x y = fieldS x y := by
  refine BitVec.eq_of_getLsbD_eq fun i hi => ?_
  have hz : (bfxz x y).getLsbD i = (x.extractLsb' (ctlPos y) (ctlWd y)).getLsbD i := by
    rw [bfxz_eq_fieldZ, fieldZ, BitVec.getLsbD_setWidth, decide_eq_true hi, Bool.true_and]
  have hout : ¬ i < ctlWd y → (x.extractLsb' (ctlPos y) (ctlWd y)).getLsbD i = false := fun h =>
    BitVec.getLsbD_of_ge _ _ (not_lt.mp h)
  simp only [bfxs, fieldS, fieldWd_eq_ctlWd]
  rw [BitVec.getLsbD_signExtend, ← msb_field, decide_eq_true hi, Bool.true_and]
  cases hm : (x.extractLsb' (ctlPos y) (ctlWd y)).msb with
  | true =>
    rw [if_pos rfl, BitVec.getLsbD_or, BitVec.getLsbD_not, getLsbD_lowMask, hz, decide_eq_true hi]
    by_cases hw : i < ctlWd y <;> simp [hw]
  | false =>
    rw [if_neg Bool.false_ne_true, hz]
    by_cases hw : i < ctlWd y
    · rw [if_pos hw]
    · rw [if_neg hw, hout hw]

theorem bfiW_eq_ofBits (x y w : Word) : bfiW x y w = ofBits (insertBit x y w) :=
  eq_ofBits fun i hi => by
    have h := ctlPos_add_ctlWd_le y
    simp only [bfiW, insertBit, fieldPos_eq_ctlPos, fieldWd_eq_ctlWd, BitVec.getLsbD_or, BitVec.getLsbD_and,
      BitVec.getLsbD_not, BitVec.getLsbD_shiftLeft, getLsbD_lowMask, decide_eq_true hi, Bool.true_and]
    by_cases hlo : ctlPos y ≤ i
    · by_cases hup : i < ctlPos y + ctlWd y
      · have h1 : i - ctlPos y < ctlWd y := by omega
        have h2 : i - ctlPos y < 64 := by omega
        simp [hlo, hup, h1, h2, hlo.not_gt, -BitVec.getLsbD_eq_getElem]
      · have h1 : ¬ i - ctlPos y < ctlWd y := by omega
        simp [hup, h1]
    · simp [hlo, Nat.lt_of_not_le hlo]

/-! ### Scaled sums (R69) -/

theorem scaleOf_eq_mul (sc : BitVec 2) (y : Word) : Machine.scaleOf sc y = y * BitVec.ofNat 64 ([1, 2, 4, 8].getD sc.toNat 0) := by
  have h : BitVec.twoPow 64 sc.toNat = BitVec.ofNat 64 ([1, 2, 4, 8].getD sc.toNat 0) := by revert sc; decide
  rw [Machine.scaleOf, BitVec.shiftLeft_eq_mul_twoPow, h]

/-- Settles O13: the model's f are those of R65, R68 and R69. -/
theorem unaryWords : Obligations.UnaryWords := by
  refine ⟨fun h d a => ⟨?_, ?_, ?_, ?_, ?_, ?_, fun w => ⟨?_, ?_⟩⟩, fun h d a b => ⟨?_, ?_, ?_⟩, fun h sc d a b => ⟨?_, ?_⟩⟩
  · exact computes_int1 (fun _ => rfl) fun x => congrArg (BitVec.ofNat 64) (clz64_eq_leadZeros x)
  · exact computes_int1 (fun _ => rfl) fun x => congrArg (BitVec.ofNat 64) (ctzFrom_eq_trailZeros x)
  · exact computes_int1 (fun _ => rfl) fun x => congrArg (BitVec.ofNat 64) (popc64_eq_countOnes x)
  · exact computes_int1 (fun _ => rfl) reverse_eq_ofBits
  · exact computes_int1 (fun _ => rfl) abs_eq_natAbs
  · exact computes_int1 (fun _ => rfl) fun _ => rfl
  · exact computes_int1 (fun _ => rfl) fun x => by rw [packBits_eq_widthOf]
  · exact computes_int1 (fun _ => rfl) (setWidth_packBits_eq w)
  · exact computes_int2 (fun _ => rfl) bfxz_eq_fieldZ
  · exact computes_int2 (fun _ => rfl) bfxs_eq_fieldS
  · exact computes_int3 (f := bfiW) (fun _ => rfl) bfiW_eq_ofBits
  · exact computes_int2 (fun _ => rfl) fun x y => congrArg (x + ·) (scaleOf_eq_mul sc y)
  · exact computes_int2 (fun _ => rfl) fun x y => congrArg (x + ·) (scaleOf_eq_mul sc (sx32 (lo32 y)))

/-! ### Compares (R66) -/

theorem cmpHolds_eq_holds (c : Cmp) (x y : Word) : cmpHolds c x y = holds c x y := by
  cases c with
  | eq => rfl
  | ne => exact (decide_not (p := x = y)).symm
  | lt => exact BitVec.slt_eq_decide
  | ge => simp [cmpHolds, holds, BitVec.slt_eq_decide, ← decide_not]
  | ltu => exact BitVec.ult_eq_decide
  | geu => simp [cmpHolds, holds, BitVec.ult_eq_decide, ← decide_not]
  | tst => exact (decide_not (p := x &&& y = 0)).symm

/-- Settles O14: the model's conditions are those of R66. -/
theorem compareWords : Obligations.CompareWords := fun _ c _ _ =>
  ⟨fun _ => computes_int2 (fun _ => rfl) fun x y => congrArg truth (cmpHolds_eq_holds c x y),
    fun imm => computes_int1 (fun _ => rfl) fun x => congrArg truth (cmpHolds_eq_holds c x (imm.signExtend 64))⟩

/-! ### Packed integers (R70) -/

theorem pBits_eq_elBits (t : PTy) : pBits t = elBits t := by cases t <;> rfl

theorem max_min_eq_ite {lo hi : Int} (h : lo ≤ hi) (v : Int) :
    max lo (min hi v) = if v < lo then lo else if hi < v then hi else v := by split_ifs <;> omega

theorem pSat_eq_satEl (t : PTy) (v : Int) : pSat t v = satEl t v := by
  cases t <;> exact max_min_eq_ite (by decide) v

/-- A number of n bits, read as the model reads it, is what the bits stand for. -/
theorem intOf_toNat {n : Nat} (hn : 0 < n) (e : BitVec n) (signed : Bool) :
    intOf n signed e.toNat = if signed then e.toInt else (e.toNat : Int) := by
  have hp := Nat.two_pow_pred_mul_two hn
  simp only [intOf, Nat.mod_eq_of_lt e.isLt, BitVec.toInt_eq_toNat_cond]
  cases signed with
  | false => rfl
  | true =>
    by_cases h : 2 ^ (n - 1) ≤ e.toNat
    · have h' : ¬ 2 * e.toNat < 2 ^ n := by omega
      simp only [h, h', Bool.true_and, decide_true, if_true, if_false]
    · have h' : 2 * e.toNat < 2 ^ n := by omega
      simp only [h, h', Bool.true_and, decide_false, if_true, Bool.false_eq_true, if_false]

theorem subEl_eq_toNat (n : Nat) (x : Word) (k : Nat) : subEl n x k = (x.extractLsb' (n * k) n).toNat := by
  rw [BitVec.extractLsb'_toNat, Nat.shiftRight_eq_div_pow, subEl]

theorem intOf_subEl_eq_elOf (t : PTy) (x : Word) (k : Nat) :
    intOf (pBits t) (pSigned t) (subEl (pBits t) x k) = elOf t x k := by
  have hs : pSigned t = decide (elLo t < 0) := by cases t <;> rfl
  have hn : 0 < elBits t := by cases t <;> decide
  rw [pBits_eq_elBits, subEl_eq_toNat, intOf_toNat hn, hs, elOf]
  simp only [decide_eq_true_eq]

/-- Sub-elements gathered by the model are the sum of the elements at their places. -/
theorem packEls_range (n m : Nat) (r : Nat → Int) :
    (packEls n ((List.range m).map fun k => intBits n (r k)) : Int)
      = ((List.range m).map fun k => r k % 2 ^ n * 2 ^ (n * k)).sum := by
  induction m generalizing r with
  | zero => rfl
  | succ m ih =>
    have h0 : ((intBits n (r 0) % 2 ^ n : Nat) : Int) = r 0 % 2 ^ n := by
      rw [intBits, Int.natCast_mod, Int.toNat_of_nonneg (Int.emod_nonneg _ (by positivity))]
      simp
    have hk : (fun k => r (k + 1) % 2 ^ n * 2 ^ (n * (k + 1))) = fun k => (2 : Int) ^ n * (r (k + 1) % 2 ^ n * 2 ^ (n * k)) := by
      funext k
      ring
    simp only [List.range_succ_eq_map, List.map_cons, List.map_map, Function.comp_def, Nat.succ_eq_add_one, packEls,
      List.sum_cons, Nat.cast_add, Nat.cast_mul, h0, ih fun k => r (k + 1), hk, List.sum_map_mul_left]
    simp

theorem packed_eq_packOf (t : PTy) (f : Int → Int → Int) (x y : Word) :
    packed t f x y = packOf t fun k => f (elOf t x k) (elOf t y k) := by
  simp only [packed, intOf_subEl_eq_elOf]
  rw [← BitVec.ofInt_natCast, packEls_range, pBits_eq_elBits, packOf]

/-- A packed word computes every function with the values of its f. -/
theorem computes_packedWord {i : Instr} {h : Hd} {t : PTy} {d a b : Opnd} {f f' : Int → Int → Int}
    (hi : ∀ s, exec i s = packedWord s h t d a b f) (e : ∀ x y, f x y = f' x y) : Computes i (packCalc h t d a b f') .var := by
  obtain rfl : f = f' := funext₂ e
  have hf : packed t f = fun x y => packOf t fun k => f (elOf t x k) (elOf t y k) := funext₂ (packed_eq_packOf t f)
  have hc := regWord_spec h { intWord d a b with a := (a, .int (pBits t)), b := (b, .int (pBits t)) } (pure2 (packed t f)) i hi
  rw [hf, pBits_eq_elBits] at hc
  exact hc

/-- Settles O16: sub-elements are read, combined and gathered as R70 says. -/
theorem packedWords : Obligations.PackedWords := fun _ t _ _ _ =>
  ⟨computes_packedWord (fun _ => rfl) fun x y => pSat_eq_satEl t (x + y),
    computes_packedWord (fun _ => rfl) fun x y => pSat_eq_satEl t (x - y),
    computes_packedWord (fun _ => rfl) min_def, computes_packedWord (fun _ => rfl) max_def⟩

/-! ### SEL (R67) -/

/-- SEL as the model has it: y where pN reads 0, and x where it reads anything else. -/
theorem computes_sel (h : Hd) (n : Fin 8) (d a b : Opnd) :
    Computes (.sel h n d a b) { intCalc3 h d a b (fun x y w => if w = 0 then y else x) with w := (.p n, .int 64) } .var :=
  regWord_spec h { intWord d a b with w := (.p n, .int 64) } (fun _ x y w => (if w = 0 then y else x, noFlags)) _ fun _ => rfl

/-- Where an instruction that computes `c` at once may issue, the next state's v register holds what f gives. -/
theorem vreg_of_computes {i : Instr} {c : Calc} {src : ResSrc} {s t : State} {pl : Place} {g : Group} {sp : Split} {n : Fin 64}
    {k l : Nat} {x : Word} (hc : Computes i c src) (hs : Issues s pl g sp) (hg : Calm g) (hl : Legal g sp pl.split c.srcs c.d)
    (hlat : c.lat = some l) (hd : c.d = .v n) (hk : k < 32) (hx : c.new s g sp k = some x) (ht : exec i s = .next t) :
    (groupAt t pl.core pl.slot).map (fun g' => tabGet 0 g'.vregs (32 * n.val + k)) = some x := by
  obtain ⟨t', ht', hw, -⟩ := hc s pl g sp hs hg hl
  obtain rfl : t' = t := by simpa using ht'.symm.trans ht
  rw [hlat] at hw
  obtain ⟨g', sp', hwent, hregs, -⟩ := hw.went
  have hr := hregs (.v n) k hk rfl fun _ => rfl
  rw [hd, hx] at hr
  rw [hwent.group]
  exact congrArg some (by simpa [regNow, dstVal] using hr)

/-- A split in whose run an earlier word of the present bundle wrote p1, whose record gives 2 as p1's value before it. -/
def twoInP1 : Split :=
  { probeSplit with run := { Run.start with prods := [{ pipe := .a, bundle := 1, lat := some 4, dst := .p 1, old := [(0, 2)]
                                                        new := [(0, 1)], held := none }] } }

/-- The probe's group with that split. -/
def twoInP1Group : Group := { probeGroup with splits := [(0, twoInP1)] }

/-- A package in which that split has the turn. -/
def twoInP1State : State := setGroup (State.reset.withFetchWord 32 0) 0 0 twoInP1Group

theorem twoInP1State_issues : Issues twoInP1State ⟨0, 0, 0⟩ twoInP1Group twoInP1 :=
  ⟨rfl, groupAt_setGroup_self _, rfl⟩

/-- Refutes O15: the statement asks of every state that SEL takes y unless pN reads exactly 1, and the model takes x unless
it reads 0. They differ where the run's records give a predicate a value other than 0 and 1 before the bundle, as in
`twoInP1State`, where SEL v3, p1, 1, z leaves 1 in v3 of thread 0. The words of the model leave no such record (they note
what `regNow` and `dstVal` give), but the statement has no hypothesis that shuts it out. -/
theorem not_selectWord : ¬ Obligations.SelectWord := by
  rintro ⟨hsel, -⟩
  let h : Hd := ⟨false, false⟩
  have hg : Calm twoInP1Group := ⟨rfl, by decide⟩
  have hl : Legal twoInP1Group twoInP1 0 [.k 0, .z, .p 1] (.v 3) := ⟨by decide, by decide, by decide, by decide⟩
  have model := computes_sel h 1 (.v 3) (.k 0) .z
  have claim := hsel h 1 (.v 3) (.k 0) .z
  obtain ⟨t, ht, -⟩ := model _ _ _ _ twoInP1State_issues hg hl
  have h1 := vreg_of_computes (x := 1) (k := 0) model twoInP1State_issues hg hl rfl rfl (by decide) (by decide) ht
  have h0 := vreg_of_computes (x := 0) (k := 0) claim twoInP1State_issues hg hl rfl rfl (by decide) (by decide) ht
  exact absurd (h1.symm.trans h0) (by decide)

end Sys2Proof.Proofs.Integer
end

section
/-! PROOFS. One rounding (R79, R80): the model's rounding of m × 2^e is that of the rational number, in units of the last place. -/

namespace Sys2Proof.Proofs.Rounding

open Machine Claims

/-! ### The formats in the model and in the rules (R73, R74) -/

theorem floatBits_eq (t : FTy) : floatBits t = fWidth t := by cases t <;> rfl

theorem fracBits_eq (t : FTy) : fracBits t = fFrac t := by cases t <;> rfl

theorem nanCode_eq (t : FTy) : nanCode t = fNan t := by cases t <;> rfl

theorem withSign_eq (t : FTy) (neg : Bool) (c : Nat) : withSign t neg c = fSign t neg + c := by
  rw [withSign, fSign, floatBits_eq]
  cases neg <;> simp

theorem infOf_eq (t : FTy) (neg : Bool) : infOf t neg = fInf t neg := by
  cases t <;> cases neg <;> rfl

theorem withSign_maxCode (t : FTy) (neg : Bool) : withSign t neg (maxCode t) = fMax t neg := by
  cases t <;> cases neg <;> rfl

theorem toInfinity_eq (rm : Rnd) (neg : Bool) : toInfinity rm neg = overToInf rm neg := by cases rm <;> rfl

theorem minExp2_eq (t : FTy) : minExp2 t = fQmin t + fFrac t := by cases t <;> rfl

theorem maxFinite_eq (t : FTy) : maxFinite t = fTopSig t * 2 ^ fTopQ t := by
  cases t with
  | f64 => rw [show fTopSig .f64 = 2 ^ 53 - 1 from rfl, show fTopQ .f64 = 971 from rfl, maxFinite, show (1023 : Int) = 52 + 971 from rfl,
      zpow_add₀ two_ne_zero, ← mul_assoc]; norm_num
  | f32 => rw [show fTopSig .f32 = 2 ^ 24 - 1 from rfl, show fTopQ .f32 = 104 from rfl]; norm_num [maxFinite]
  | f16 => rw [show fTopSig .f16 = 2 ^ 11 - 1 from rfl, show fTopQ .f16 = 5 from rfl]; norm_num [maxFinite]
  | bf16 => rw [show fTopSig .bf16 = 2 ^ 8 - 1 from rfl, show fTopQ .bf16 = 120 from rfl]; norm_num [maxFinite]
  | e5m2 => rw [show fTopSig .e5m2 = 2 ^ 3 - 1 from rfl, show fTopQ .e5m2 = 13 from rfl]; norm_num [maxFinite]
  | e4m3 => rw [show fTopSig .e4m3 = 14 from rfl, show fTopQ .e4m3 = 5 from rfl]; norm_num [maxFinite]

theorem one_le_fFrac (t : FTy) : 1 ≤ fFrac t := by cases t <;> decide

theorem fTopSig_lt (t : FTy) : fTopSig t < 2 ^ (fFrac t + 1) := by cases t <;> decide

theorem le_fTopSig (t : FTy) : 2 ^ fFrac t ≤ fTopSig t := by cases t <;> decide

theorem fQmin_le_fTopQ (t : FTy) : fQmin t ≤ fTopQ t := by cases t <;> decide

/-! ### Powers of two -/

theorem two_zpow_pos (e : Int) : (0 : ℚ) < 2 ^ e := zpow_pos two_pos e

theorem two_zpow_toNat {e : Int} (h : 0 ≤ e) : (2 : ℚ) ^ e = ((2 ^ e.toNat : Nat) : ℚ) := by
  conv_lhs => rw [← Int.toNat_of_nonneg h]
  push_cast
  rfl

theorem two_zpow_le {a b : Int} (h : a ≤ b) : (2 : ℚ) ^ a ≤ 2 ^ b := zpow_le_zpow_right₀ one_le_two h

theorem two_zpow_lt {a b : Int} (h : a < b) : (2 : ℚ) ^ a < 2 ^ b := zpow_lt_zpow_right₀ one_lt_two h

theorem two_zpow_add_nat (n : Nat) (e : Int) : (2 : ℚ) ^ (n : Int) * 2 ^ e = 2 ^ (e + n) := by
  rw [← zpow_add₀ two_ne_zero, add_comm]

/-! ### A magnitude rounded to units (R79, R80) -/

variable {rm : Rnd} {thr : Nat} {neg : Bool}

/-- A quotient of naturals, rounded to an integer: what the model's integer division gives. -/
theorem roundUnits_div (rm : Rnd) (thr : Nat) (neg : Bool) (m : Nat) {u : Nat} (hu : 0 < u) :
    roundUnits rm thr neg ((m : ℚ) / u)
      = if roundsUp rm thr neg (m / u % 2 = 1) (m % u) u then m / u + 1 else m / u := by
  have hu' : (0 : ℚ) < u := by exact_mod_cast hu
  have hlo : ⌊(m : ℚ) / u⌋.toNat = m / u := by rw [Int.floor_toNat, Nat.floor_div_eq_div]
  have hr : (m : ℚ) / u - (m / u : Nat) = (m % u : Nat) / (u : ℚ) := by
    rw [sub_eq_iff_eq_add, div_add' _ _ _ hu'.ne']
    congr 1
    have := Nat.mod_add_div' m u
    exact_mod_cast this.symm
  have half_lt : 1 / 2 < ((m % u : Nat) : ℚ) / u ↔ u < 2 * (m % u) := by
    rw [div_lt_div_iff₀ two_pos hu', one_mul, mul_comm]
    exact_mod_cast Iff.rfl
  have eq_half : ((m % u : Nat) : ℚ) / u = 1 / 2 ↔ 2 * (m % u) = u := by
    rw [div_eq_div_iff hu'.ne' two_ne_zero, one_mul, mul_comm]
    exact_mod_cast Iff.rfl
  have pos : 0 < ((m % u : Nat) : ℚ) / u ↔ m % u ≠ 0 := by
    rw [div_pos_iff_of_pos_right hu', Nat.cast_pos, Nat.pos_iff_ne_zero]
  have dith : (thr : ℚ) / 128 < ((m % u : Nat) : ℚ) / u ↔ thr * u < 128 * (m % u) := by
    rw [div_lt_div_iff₀ (by norm_num) hu', mul_comm ((m % u : Nat) : ℚ)]
    exact_mod_cast Iff.rfl
  simp only [roundUnits, hlo, hr]
  cases rm <;> simp only [roundsUp, half_lt, eq_half, pos, dith] <;> rfl

/-- A natural number is its own rounding. -/
theorem roundUnits_natCast (rm : Rnd) (thr : Nat) (neg : Bool) (n : Nat) : roundUnits rm thr neg (n : ℚ) = n := by
  have h := roundUnits_div rm thr neg n one_pos
  rw [Nat.cast_one, div_one] at h
  rw [h, Nat.mod_one, Nat.div_one, if_neg]
  cases rm <;> simp [roundsUp]

theorem roundUnits_eq_or (rm : Rnd) (thr : Nat) (neg : Bool) (k : ℚ) :
    roundUnits rm thr neg k = ⌊k⌋₊ + 1 ∨ roundUnits rm thr neg k = ⌊k⌋₊ := by
  simp only [roundUnits, Int.floor_toNat]
  exact ite_eq_or_eq ..

theorem floor_le_roundUnits (rm : Rnd) (thr : Nat) (neg : Bool) (k : ℚ) : ⌊k⌋₊ ≤ roundUnits rm thr neg k := by
  rcases roundUnits_eq_or rm thr neg k with h | h <;> omega

theorem roundUnits_le_floor_add_one (rm : Rnd) (thr : Nat) (neg : Bool) (k : ℚ) : roundUnits rm thr neg k ≤ ⌊k⌋₊ + 1 := by
  rcases roundUnits_eq_or rm thr neg k with h | h <;> omega

/-- A magnitude below an integer is rounded to at most that. -/
theorem roundUnits_le_of_lt {k : ℚ} (hk : 0 ≤ k) {n : Nat} (h : k < n) : roundUnits rm thr neg k ≤ n :=
  (roundUnits_le_floor_add_one ..).trans ((Nat.floor_lt hk).mpr h)

/-- A magnitude at an integer or above it is rounded to at least that. -/
theorem le_roundUnits_of_le {k : ℚ} {n : Nat} (h : (n : ℚ) ≤ k) : n ≤ roundUnits rm thr neg k :=
  (Nat.le_floor h).trans (floor_le_roundUnits ..)

/-- The model's rounding at exponent q is the rounding of the rational number of units, inexact where it changes it. -/
theorem roundAt_eq (rm : Rnd) (thr : Nat) (neg : Bool) (m : Nat) (e q : Int) :
    roundAt rm thr neg m e q = (roundUnits rm thr neg (m * 2 ^ e / 2 ^ q),
      decide ((roundUnits rm thr neg (m * 2 ^ e / 2 ^ q) : ℚ) * 2 ^ q ≠ m * 2 ^ e)) := by
  have hk : (m : ℚ) * 2 ^ e / 2 ^ q = m * 2 ^ (e - q) := by rw [mul_div_assoc, ← zpow_sub₀ two_ne_zero]
  by_cases h : q ≤ e
  · have hn : (m : ℚ) * 2 ^ e / 2 ^ q = (m * 2 ^ (e - q).toNat : Nat) := by
      rw [hk, two_zpow_toNat (by omega)]
      push_cast
      rfl
    have hx : ((m * 2 ^ (e - q).toNat : Nat) : ℚ) * 2 ^ q = m * 2 ^ e := by rw [← hn, div_mul_cancel₀ _ (two_zpow_pos q).ne']
    rw [hn, roundUnits_natCast, hx, roundAt, if_pos h]
    simp
  · let u := 2 ^ (q - e).toNat
    have hu : 0 < u := by positivity
    have hu' : (0 : ℚ) < u := by exact_mod_cast hu
    have hq : (m : ℚ) * 2 ^ e / 2 ^ q = m / u := by
      rw [hk, ← neg_sub q e, zpow_neg, two_zpow_toNat (by omega), div_eq_mul_inv]
    have hrem : m % u ≠ 0 ↔ (roundUnits rm thr neg (m / u) : ℚ) * 2 ^ q ≠ m * 2 ^ e := by
      rw [ne_eq, ne_eq, not_iff_not, ← eq_div_iff (two_zpow_pos q).ne', hq, eq_div_iff hu'.ne']
      constructor
      · intro h0
        obtain ⟨n, rfl⟩ := Nat.dvd_of_mod_eq_zero h0
        rw [Nat.cast_mul, mul_div_cancel_left₀ _ hu'.ne', roundUnits_natCast, mul_comm]
      · intro h0
        have : roundUnits rm thr neg (m / u) * u = m := by exact_mod_cast h0
        rw [← this, Nat.mul_mod_left]
    rw [hq, roundUnits_div rm thr neg m hu, roundAt, if_neg h]
    rw [roundUnits_div rm thr neg m hu] at hrem
    exact Prod.ext rfl (decide_eq_decide.mpr hrem)

/-! ### The binade of a magnitude -/

theorem log_eq_bitLen {m : Nat} (hm : m ≠ 0) (e : Int) : Int.log 2 ((m : ℚ) * 2 ^ e) = e + bitLen m - 1 := by
  have hpos : (0 : ℚ) < m * 2 ^ e := mul_pos (by exact_mod_cast Nat.pos_of_ne_zero hm) (two_zpow_pos e)
  have hl : bitLen m = Nat.log2 m + 1 := if_neg hm
  have lo : ((2 ^ Nat.log2 m : Nat) : ℚ) ≤ m := by exact_mod_cast Nat.log2_self_le hm
  have hi : (m : ℚ) < ((2 ^ (Nat.log2 m + 1) : Nat) : ℚ) := by exact_mod_cast Nat.lt_log2_self
  have he := two_zpow_pos e
  apply le_antisymm
  · have : (m : ℚ) * 2 ^ e < (2 : Nat) ^ (e + bitLen m) := by
      rw [hl, Nat.cast_ofNat, ← two_zpow_add_nat, zpow_natCast]
      exact mul_lt_mul_of_pos_right (by exact_mod_cast hi) he
    have := (Int.lt_zpow_iff_log_lt one_lt_two hpos).mp this
    omega
  · apply (Int.zpow_le_iff_le_log one_lt_two hpos).mp
    rw [hl, Nat.cast_ofNat, show e + ((Nat.log2 m + 1 : Nat) : Int) - 1 = e + (Nat.log2 m : Nat) by push_cast; ring,
      ← two_zpow_add_nat, zpow_natCast]
    exact mul_le_mul_of_nonneg_right (by exact_mod_cast lo) he.le

/-- The exponent of the unit in which a magnitude is rounded (R79): that of its binade, but not below the format's least. -/
def unitExp (t : FTy) (x : ℚ) : Int := max (Int.log 2 x - fFrac t) (fQmin t)

/-- A magnitude in its units is below 2^p. -/
theorem units_lt (t : FTy) {x : ℚ} (q : Int) (h : Int.log 2 x - fFrac t ≤ q) : x / 2 ^ q < (2 ^ (fFrac t + 1) : Nat) := by
  rw [div_lt_iff₀ (two_zpow_pos q)]
  calc x < (2 : Nat) ^ (Int.log 2 x + 1) := Int.lt_zpow_succ_log_self one_lt_two x
    _ ≤ 2 ^ (q + (fFrac t + 1 : Nat)) := by rw [Nat.cast_ofNat]; exact two_zpow_le (by push_cast; omega)
    _ = _ := by rw [← two_zpow_add_nat]; push_cast; rfl

/-- A magnitude in the units of its binade is at least 2^(p − 1). -/
theorem le_units (t : FTy) {x : ℚ} (hx : 0 < x) (q : Int) (h : q ≤ Int.log 2 x - fFrac t) :
    ((2 ^ fFrac t : Nat) : ℚ) ≤ x / 2 ^ q := by
  rw [le_div_iff₀ (two_zpow_pos q)]
  calc ((2 ^ fFrac t : Nat) : ℚ) * 2 ^ q = 2 ^ (q + (fFrac t : Nat)) := by rw [← two_zpow_add_nat]; push_cast; rfl
    _ ≤ (2 : Nat) ^ Int.log 2 x := by rw [Nat.cast_ofNat]; exact two_zpow_le (by omega)
    _ ≤ x := Int.zpow_log_le_self one_lt_two hx

/-! ### One rounding of a magnitude (R79, R80) -/

/-- The number of units that a magnitude is rounded to. -/
def unitsOf (t : FTy) (rm : Rnd) (thr : Nat) (neg : Bool) (x : ℚ) : Nat := roundUnits rm thr neg (x / 2 ^ unitExp t x)

/-- The value of that many units. -/
def roundedMag (t : FTy) (rm : Rnd) (thr : Nat) (neg : Bool) (x : ℚ) : ℚ := unitsOf t rm thr neg x * 2 ^ unitExp t x

/-- The rounded magnitude is below the smallest normal number, when it is rounded with an unbounded exponent. -/
def isTiny (t : FTy) (rm : Rnd) (thr : Nat) (neg : Bool) (x : ℚ) : Bool :=
  decide ((roundUnits rm thr neg (x / 2 ^ (Int.log 2 x - fFrac t)) : ℚ) * 2 ^ (Int.log 2 x - fFrac t) < 2 ^ minExp2 t)

theorem fQmin_le_unitExp (t : FTy) (x : ℚ) : fQmin t ≤ unitExp t x := le_max_right ..

theorem unitExp_eq_of_lt {t : FTy} {x : ℚ} (h : fQmin t < unitExp t x) : unitExp t x = Int.log 2 x - fFrac t := by
  unfold unitExp at *
  omega

theorem unitsOf_le (t : FTy) (rm : Rnd) (thr : Nat) (neg : Bool) {x : ℚ} (hx : 0 < x) :
    unitsOf t rm thr neg x ≤ 2 ^ (fFrac t + 1) :=
  roundUnits_le_of_lt (div_nonneg hx.le (two_zpow_pos _).le) (units_lt t _ (le_max_left ..))

theorem le_unitsOf {t : FTy} {x : ℚ} (hx : 0 < x) (h : fQmin t < unitExp t x) : 2 ^ fFrac t ≤ unitsOf t rm thr neg x :=
  le_roundUnits_of_le (le_units t hx _ (unitExp_eq_of_lt h).le)

/-- The model's test for tininess is that of the rounding with an unbounded exponent (R79). -/
theorem tiny_iff (t : FTy) (rm : Rnd) (thr : Nat) (neg : Bool) {x : ℚ} (hx : 0 < x) :
    (decide (Int.log 2 x - fFrac t < fQmin t) && !(decide (Int.log 2 x - fFrac t = fQmin t - 1)
      && decide (roundUnits rm thr neg (x / 2 ^ (Int.log 2 x - fFrac t)) = 2 ^ (fFrac t + 1)))) = isTiny t rm thr neg x := by
  generalize hq : Int.log 2 x - (fFrac t : Int) = q
  unfold isTiny
  rw [hq]
  have hn : roundUnits rm thr neg (x / 2 ^ q) ≤ 2 ^ (fFrac t + 1) :=
    roundUnits_le_of_lt (div_nonneg hx.le (two_zpow_pos _).le) (units_lt t q hq.le)
  have hl : 2 ^ fFrac t ≤ roundUnits rm thr neg (x / 2 ^ q) := le_roundUnits_of_le (le_units t hx q hq.ge)
  generalize roundUnits rm thr neg (x / 2 ^ q) = n at hn hl
  have hmin : (2 : ℚ) ^ minExp2 t = (2 ^ fFrac t : Nat) * 2 ^ fQmin t := by
    rw [minExp2_eq, ← two_zpow_add_nat]
    push_cast
    rfl
  have hp := two_zpow_pos q
  rw [hmin]
  rcases lt_trichotomy q (fQmin t - 1) with h | h | h
  · have hlt : (n : ℚ) * 2 ^ q < (2 ^ fFrac t : Nat) * 2 ^ fQmin t := by
      calc (n : ℚ) * 2 ^ q ≤ (2 ^ (fFrac t + 1) : Nat) * 2 ^ q := by gcongr
        _ = (2 ^ fFrac t : Nat) * 2 ^ (q + 1) := by rw [zpow_add_one₀ two_ne_zero]; push_cast; ring
        _ < _ := mul_lt_mul_of_pos_left (two_zpow_lt (by omega)) (by positivity)
    rw [decide_eq_true hlt, decide_eq_true (show q < fQmin t by omega), decide_eq_false h.ne]
    rfl
  · have hq1 : (2 : ℚ) ^ fQmin t = 2 * 2 ^ q := by
      rw [show fQmin t = q + 1 by omega, zpow_add_one₀ two_ne_zero, mul_comm]
    have hiff : (n : ℚ) * 2 ^ q < (2 ^ fFrac t : Nat) * 2 ^ fQmin t ↔ n ≠ 2 ^ (fFrac t + 1) := by
      rw [hq1, ← mul_assoc, mul_lt_mul_iff_left₀ hp]
      have : (n : ℚ) < (2 ^ fFrac t : Nat) * 2 ↔ n < 2 ^ (fFrac t + 1) := by
        rw [pow_succ]
        exact_mod_cast Iff.rfl
      rw [this]
      omega
    have hd : decide ((n : ℚ) * 2 ^ q < (2 ^ fFrac t : Nat) * 2 ^ fQmin t) = !decide (n = 2 ^ (fFrac t + 1)) := by
      rw [← decide_not, decide_eq_decide]
      exact hiff
    rw [hd, decide_eq_true (show q < fQmin t by omega), decide_eq_true h]
    simp
  · have hge : ¬ (n : ℚ) * 2 ^ q < (2 ^ fFrac t : Nat) * 2 ^ fQmin t := by
      rw [not_lt]
      gcongr
      · exact one_le_two
      · omega
    rw [decide_eq_false hge, decide_eq_false (show ¬ q < fQmin t by omega)]
    rfl

/-- The model's rounding of m × 2^e: its units, with a significand of 2^p taken as one of 2^(p − 1) at the next exponent. -/
theorem roundMag_eq (t : FTy) (rm : Rnd) (thr : Nat) (neg : Bool) {m : Nat} (hm : m ≠ 0) (e : Int) {x : ℚ}
    (hx : x = m * 2 ^ e) :
    roundMag t rm thr neg m e =
      { sig := if unitsOf t rm thr neg x = 2 ^ (fFrac t + 1) then 2 ^ fFrac t else unitsOf t rm thr neg x
        q := if unitsOf t rm thr neg x = 2 ^ (fFrac t + 1) then unitExp t x + 1 else unitExp t x
        inexact := decide (roundedMag t rm thr neg x ≠ x)
        tiny := isTiny t rm thr neg x } := by
  have hpos : 0 < x := by
    rw [hx]
    exact mul_pos (by exact_mod_cast Nat.pos_of_ne_zero hm) (two_zpow_pos e)
  have hqu : e + (bitLen m : Int) - ((fFrac t + 1 : Nat) : Int) = Int.log 2 x - fFrac t := by
    rw [hx, log_eq_bitLen hm]
    push_cast
    ring
  simp only [roundMag, hqu, roundAt_eq, ← hx]
  change (if unitsOf t rm thr neg x = 2 ^ (fFrac t + 1) then _ else _) = _
  rw [← tiny_iff t rm thr neg hpos]
  split_ifs <;> rfl

/-- A significand of the format at its exponent is above the largest finite number if its exponent is above, or equal with a
larger significand. -/
theorem above_iff {t : FTy} {n : Nat} {q : Int} (hn : n < 2 ^ (fFrac t + 1)) (hq : fQmin t ≤ q)
    (hl : fQmin t < q → 2 ^ fFrac t ≤ n) :
    (fTopQ t < q ∨ q = fTopQ t ∧ fTopSig t < n) ↔ maxFinite t < n * 2 ^ q := by
  rw [maxFinite_eq]
  have htop := fTopSig_lt t
  have hle := le_fTopSig t
  have hmin := fQmin_le_fTopQ t
  rcases lt_trichotomy q (fTopQ t) with h | h | h
  · have : (n : ℚ) * 2 ^ q ≤ fTopSig t * 2 ^ fTopQ t := by
      calc (n : ℚ) * 2 ^ q ≤ (2 ^ fFrac t * 2 : Nat) * 2 ^ q := by
            rw [← pow_succ]
            gcongr
        _ = (2 ^ fFrac t : Nat) * 2 ^ (q + 1) := by rw [zpow_add_one₀ two_ne_zero]; push_cast; ring
        _ ≤ _ := by
            gcongr
            · exact one_le_two
            · omega
    simp [h.ne, not_lt.mpr h.le, not_lt.mpr this]
  · subst h
    simp [two_zpow_pos]
  · have : (fTopSig t : ℚ) * 2 ^ fTopQ t < n * 2 ^ q := by
      calc (fTopSig t : ℚ) * 2 ^ fTopQ t < (2 ^ fFrac t * 2 : Nat) * 2 ^ fTopQ t := by
            rw [← pow_succ]
            exact mul_lt_mul_of_pos_right (by exact_mod_cast htop) (two_zpow_pos _)
        _ = (2 ^ fFrac t : Nat) * 2 ^ (fTopQ t + 1) := by rw [zpow_add_one₀ two_ne_zero]; push_cast; ring
        _ ≤ _ := by
            gcongr
            · exact_mod_cast hl (by omega)
            · exact one_le_two
            · omega
    simp [h, this]

theorem overMax_roundMag (t : FTy) (rm : Rnd) (thr : Nat) (neg : Bool) {m : Nat} (hm : m ≠ 0) (e : Int) {x : ℚ}
    (hx : x = m * 2 ^ e) (hpos : 0 < x) :
    overMax t (roundMag t rm thr neg m e) = decide (maxFinite t < roundedMag t rm thr neg x) := by
  have hn := unitsOf_le t rm thr neg hpos
  have hq := fQmin_le_unitExp t x
  rw [roundMag_eq t rm thr neg hm e hx]
  have h2 : 2 ^ fFrac t < 2 ^ (fFrac t + 1) := Nat.pow_lt_pow_right one_lt_two (Nat.lt_succ_self _)
  simp only [overMax, ← Bool.decide_and, ← Bool.decide_or]
  rw [decide_eq_decide]
  by_cases h : unitsOf t rm thr neg x = 2 ^ (fFrac t + 1)
  · have hv : roundedMag t rm thr neg x = (2 ^ fFrac t : Nat) * 2 ^ (unitExp t x + 1) := by
      rw [roundedMag, h, zpow_add_one₀ two_ne_zero]
      push_cast
      ring
    simp only [h, if_true, hv]
    exact above_iff h2 (by omega) fun _ => le_rfl
  · simp only [h, if_false]
    exact above_iff (by omega) hq (le_unitsOf hpos)

/-- The code that the model gives to a rounding counts in units of the last place from the least exponent on. -/
theorem fCode_roundMag (t : FTy) (rm : Rnd) (thr : Nat) (neg : Bool) {m : Nat} (hm : m ≠ 0) (e : Int) {x : ℚ}
    (hx : x = m * 2 ^ e) (hpos : 0 < x) :
    fCode t neg (roundMag t rm thr neg m e).sig (roundMag t rm thr neg m e).q
      = withSign t neg ((unitExp t x - fQmin t).toNat * 2 ^ fFrac t + unitsOf t rm thr neg x) := by
  have hn := unitsOf_le t rm thr neg hpos
  have hq := fQmin_le_unitExp t x
  have hl := le_unitsOf (rm := rm) (thr := thr) (neg := neg) (t := t) hpos
  rw [roundMag_eq t rm thr neg hm e hx, withSign_eq]
  have h2 : 2 ^ (fFrac t + 1) = 2 ^ fFrac t + 2 ^ fFrac t := by rw [pow_succ]; ring
  have hex : ∀ q, q + (fBias t : Int) + (fFrac t : Int) = q - fQmin t + 1 := fun q => by unfold fQmin; ring
  have hd : ∀ q, fQmin t ≤ q → (q - fQmin t + 1).toNat = (q - fQmin t).toNat + 1 := by omega
  have hd2 : (unitExp t x + 1 - fQmin t).toNat = (unitExp t x - fQmin t).toNat + 1 := by omega
  simp only [fCode, hex]
  by_cases h : unitsOf t rm thr neg x = 2 ^ (fFrac t + 1)
  · simp only [h, if_true, lt_irrefl, if_false]
    rw [hd _ (by omega), hd2, h2, add_mul, add_mul, one_mul]
    omega
  · simp only [h, if_false]
    by_cases hs : unitsOf t rm thr neg x < 2 ^ fFrac t
    · have : unitExp t x = fQmin t := by
        by_contra hne
        exact absurd (hl (by omega)) (by omega)
      rw [if_pos hs, this]
      simp
    · rw [if_neg hs, hd _ hq, add_mul, one_mul]
      omega

theorem aboveMax_eq (t : FTy) (m : Nat) (e : Int) : aboveMax t m e = decide (maxFinite t < m * 2 ^ e) := by
  unfold aboveMax
  rw [decide_eq_decide, maxFinite_eq]
  generalize hb : min e (fTopQ t) = b
  have hp := two_zpow_pos b
  have scale : ∀ (k : Nat) (q : Int), b ≤ q → (k : ℚ) * 2 ^ q = ((k * 2 ^ (q - b).toNat : Nat) : ℚ) * 2 ^ b := by
    intro k q hq
    rw [Nat.cast_mul, mul_assoc, ← two_zpow_toNat (by omega), ← zpow_add₀ two_ne_zero, sub_add_cancel]
  rw [scale m e (by omega), scale (fTopSig t) (fTopQ t) (by omega), mul_lt_mul_iff_left₀ hp]
  exact_mod_cast Iff.rfl

/-- The rounding of R79 in terms of the units of a magnitude. -/
theorem roundRat_eq (t : FTy) (rm : Rnd) (thr : Nat) (x : ℚ) :
    roundRat t rm thr x =
      (let neg := decide (x < 0)
      let rm := if rm = .dr && decide (maxFinite t < |x|) then .rne else rm
      if maxFinite t < roundedMag t rm thr neg |x| then
        (if overToInf rm neg then fInf t neg else fMax t neg, fOF ||| fIX)
      else
        (withSign t neg ((unitExp t |x| - fQmin t).toNat * 2 ^ fFrac t + unitsOf t rm thr neg |x|),
          flagIf (decide (roundedMag t rm thr neg |x| ≠ |x|) && isTiny t rm thr neg |x|) fUF
            ||| flagIf (decide (roundedMag t rm thr neg |x| ≠ |x|)) fIX)) := by
  have h : minExp2 t - (fFrac t : Int) = fQmin t := by rw [minExp2_eq]; ring
  simp only [roundRat, roundedMag, unitsOf, isTiny, unitExp, fracBits_eq, h, toInfinity_eq, infOf_eq, withSign_maxCode]
  rfl

/-- The number that a sign, a magnitude and an exponent stand for. -/
theorem ratOf_fin (neg : Bool) (m : Nat) (e : Int) : ratOf (.fin neg m e) = (if neg then -1 else 1) * m * 2 ^ e := rfl

theorem abs_ratOf_fin (neg : Bool) (m : Nat) (e : Int) : |ratOf (.fin neg m e)| = m * 2 ^ e := by
  have h : (0 : ℚ) ≤ m * 2 ^ e := mul_nonneg (Nat.cast_nonneg m) (two_zpow_pos e).le
  cases neg <;> simp [ratOf_fin, abs_of_nonneg h]

theorem ratOf_fin_neg_iff {m : Nat} (hm : m ≠ 0) (neg : Bool) (e : Int) : ratOf (.fin neg m e) < 0 ↔ neg = true := by
  have h : (0 : ℚ) < m * 2 ^ e := mul_pos (by exact_mod_cast Nat.pos_of_ne_zero hm) (two_zpow_pos e)
  cases neg
  · simpa [ratOf_fin] using h.le
  · simpa [ratOf_fin] using h

theorem ratOf_fin_eq_zero_iff (neg : Bool) (m : Nat) (e : Int) : ratOf (.fin neg m e) = 0 ↔ m = 0 := by
  rw [← abs_eq_zero, abs_ratOf_fin, mul_eq_zero]
  simp [(two_zpow_pos e).ne']

/-- The one rounding of the model is that of the rational number. -/
theorem roundTo_eq_roundRat (t : FTy) (rm : Rnd) (thr : Nat) (neg : Bool) {m : Nat} (e : Int) (hm : m ≠ 0) :
    roundTo t rm thr neg m e = roundRat t rm thr (ratOf (.fin neg m e)) := by
  have hpos : (0 : ℚ) < m * 2 ^ e := mul_pos (by exact_mod_cast Nat.pos_of_ne_zero hm) (two_zpow_pos e)
  have hneg : decide (ratOf (.fin neg m e) < 0) = neg := by
    rw [Bool.eq_iff_iff, decide_eq_true_iff, ratOf_fin_neg_iff hm]
  rw [roundRat_eq, roundTo, if_neg hm]
  simp only [hneg, abs_ratOf_fin, aboveMax_eq, overMax_roundMag t _ thr neg hm e rfl hpos, decide_eq_true_eq,
    fCode_roundMag t _ thr neg hm e rfl hpos]
  simp only [roundMag_eq t _ thr neg hm e rfl, Bool.and_comm]

/-- Settles O17: the model rounds m × 2^e in the units in which the rule rounds the rational number, and gives it the code
that counts those units. -/
theorem roundsOnce : Obligations.RoundsOnce := fun t rm thr neg _ e hm => roundTo_eq_roundRat t rm thr neg e hm

end Sys2Proof.Proofs.Rounding
end

section
/-! PROOFS. The codes of the formats and the numbers they stand for (R73, R74), and what a rounded code is among them (R79). -/

namespace Sys2Proof.Proofs.Formats

open Machine Claims Rounding

/-! ### The fields of a code -/

theorem fWidth_eq (t : FTy) : fWidth t - 1 = fFrac t + fExp t := by cases t <;> rfl

theorem maxCode_lt (t : FTy) : maxCode t < 2 ^ (fWidth t - 1) := by cases t <;> decide

/-- Every code is a sign and the rest of the code. -/
theorem exists_withSign (t : FTy) {k : Nat} (hk : k < 2 ^ fWidth t) :
    ∃ neg, ∃ c < 2 ^ (fWidth t - 1), k = withSign t neg c := by
  have hw : 2 ^ fWidth t = 2 ^ (fWidth t - 1) + 2 ^ (fWidth t - 1) := by cases t <;> rfl
  by_cases h : k < 2 ^ (fWidth t - 1)
  · exact ⟨false, k, h, rfl⟩
  · refine ⟨true, k - 2 ^ (fWidth t - 1), by omega, ?_⟩
    rw [withSign, if_pos rfl, floatBits_eq]
    omega

theorem withSign_lt (t : FTy) (neg : Bool) {c : Nat} (hc : c < 2 ^ (fWidth t - 1)) : withSign t neg c < 2 ^ fWidth t := by
  have hw : 2 ^ fWidth t = 2 ^ (fWidth t - 1) + 2 ^ (fWidth t - 1) := by cases t <;> rfl
  rw [withSign, floatBits_eq]
  split_ifs <;> omega

/-- The sign field of a code. -/
theorem withSign_div (t : FTy) (neg : Bool) {c : Nat} (hc : c < 2 ^ (fWidth t - 1)) :
    withSign t neg c / 2 ^ (fWidth t - 1) = neg.toNat := by
  rw [withSign, floatBits_eq]
  cases neg with
  | false => exact Nat.div_eq_of_lt hc
  | true => rw [if_pos rfl, Nat.add_div_left _ (by positivity), Nat.div_eq_of_lt hc]; rfl

/-- The rest of a code. -/
theorem withSign_mod (t : FTy) (neg : Bool) {c : Nat} (hc : c < 2 ^ (fWidth t - 1)) :
    withSign t neg c % 2 ^ (fWidth t - 1) = c := by
  rw [withSign, floatBits_eq]
  cases neg with
  | false => exact Nat.mod_eq_of_lt hc
  | true => rw [if_pos rfl, Nat.add_mod_left, Nat.mod_eq_of_lt hc]

theorem two_pow_width (t : FTy) : 2 ^ (fWidth t - 1) = 2 ^ fFrac t * 2 ^ fExp t := by rw [fWidth_eq, pow_add]

/-- The exponent field of a code. -/
theorem withSign_exponent (t : FTy) (neg : Bool) {c : Nat} (hc : c < 2 ^ (fWidth t - 1)) :
    withSign t neg c / 2 ^ fFrac t % 2 ^ fExp t = c / 2 ^ fFrac t := by
  rw [← Nat.mod_mul_right_div_self, ← two_pow_width, withSign_mod t neg hc]

/-- The fraction of a code. -/
theorem withSign_fraction (t : FTy) (neg : Bool) {c : Nat} (hc : c < 2 ^ (fWidth t - 1)) :
    withSign t neg c % 2 ^ fFrac t = c % 2 ^ fFrac t := by
  conv_rhs => rw [← withSign_mod t neg hc, two_pow_width, Nat.mod_mul_right_mod]

theorem infCode_eq {t : FTy} (ht : t ≠ .e4m3) : infCode t = 2 ^ fFrac t * (2 ^ fExp t - 1) := by
  cases t with
  | e4m3 => exact absurd rfl ht
  | _ => rfl

/-- The codes above the largest finite number are those with the exponent field of all ones (R73). -/
theorem maxCode_lt_iff {t : FTy} (ht : t ≠ .e4m3) {c : Nat} (hc : c < 2 ^ (fWidth t - 1)) :
    maxCode t < c ↔ c / 2 ^ fFrac t = 2 ^ fExp t - 1 := by
  have hi : infCode t = 2 ^ fFrac t * (2 ^ fExp t - 1) := infCode_eq ht
  have hm : maxCode t + 1 = infCode t := by cases t <;> rfl
  have hlt : c / 2 ^ fFrac t < 2 ^ fExp t := by
    rw [Nat.div_lt_iff_lt_mul (by positivity), ← pow_add, add_comm, ← fWidth_eq]
    exact hc
  rw [Nat.lt_iff_add_one_le, hm, hi, mul_comm, ← Nat.le_div_iff_mul_le (by positivity)]
  omega

/-- +∞ has the exponent field of all ones and the fraction 0 (R73). -/
theorem eq_infCode_iff {t : FTy} (ht : t ≠ .e4m3) {c : Nat} (hc : c / 2 ^ fFrac t = 2 ^ fExp t - 1) :
    c = infCode t ↔ c % 2 ^ fFrac t = 0 := by
  have hi := infCode_eq ht
  have h := Nat.div_add_mod c (2 ^ fFrac t)
  rw [hc] at h
  omega

/-- What a code stands for, by its sign and the rest c of the code. -/
theorem fDecode_withSign (t : FTy) (neg : Bool) {c : Nat} (hc : c < 2 ^ (fWidth t - 1)) :
    fDecode t (withSign t neg c) =
      if c ≤ maxCode t then
        if c < 2 ^ fFrac t then .fin neg c (fQmin t)
        else .fin neg (2 ^ fFrac t + c % 2 ^ fFrac t) (((c / 2 ^ fFrac t : Nat) : Int) - 1 + fQmin t)
      else if t ≠ .e4m3 ∧ c = infCode t then .inf neg else .nan (decide (c % 2 ^ fFrac t < 2 ^ (fFrac t - 1))) := by
  have hn : withSign t neg c % 2 ^ fWidth t = withSign t neg c := Nat.mod_eq_of_lt (withSign_lt t neg hc)
  have hsg : decide (neg.toNat = 1) = neg := by cases neg <;> rfl
  have hq : ∀ e : Int, e - (fBias t : Int) - (fFrac t : Int) = e - 1 + fQmin t := fun e => by unfold fQmin; ring
  have hz : c / 2 ^ fFrac t = 0 ↔ c < 2 ^ fFrac t := Nat.div_eq_zero_iff_lt (by positivity)
  have hquiet : c % 2 ^ fFrac t / 2 ^ (fFrac t - 1) = 0 ↔ c % 2 ^ fFrac t < 2 ^ (fFrac t - 1) :=
    Nat.div_eq_zero_iff_lt (by positivity)
  have hsub : c < 2 ^ fFrac t → c % 2 ^ fFrac t = c := Nat.mod_eq_of_lt
  simp only [fDecode, hn, withSign_exponent t neg hc, withSign_fraction t neg hc, withSign_div t neg hc, hsg, hq, hz, hquiet]
  by_cases ht : t = .e4m3
  · subst ht
    have hnan : c / 2 ^ fFrac .e4m3 = 15 ∧ c % 2 ^ fFrac .e4m3 = 7 ↔ ¬ c ≤ maxCode .e4m3 := by
      simp only [fWidth, fFrac, maxCode] at *
      omega
    have hq : ¬ c ≤ maxCode .e4m3 → decide (c % 2 ^ fFrac .e4m3 < 2 ^ (fFrac .e4m3 - 1)) = false := fun h => by
      rw [(hnan.mpr h).2]
      rfl
    by_cases h : c ≤ maxCode .e4m3
    · have h' : ¬ (c / 2 ^ fFrac .e4m3 = 15 ∧ c % 2 ^ fFrac .e4m3 = 7) := fun h0 => hnan.mp h0 h
      simp +contextual only [decide_true, Bool.true_and, ← Bool.decide_and, decide_eq_true_eq, h', if_false, ne_eq,
        not_true_eq_false, false_and, h, if_true, hsub]
    · simp only [decide_true, Bool.true_and, ← Bool.decide_and, hnan, h, not_false_eq_true, if_true,
        if_false, ne_eq, not_true_eq_false, false_and, hq]
  · have hinf := maxCode_lt_iff ht hc
    by_cases h : c ≤ maxCode t
    · have h' : ¬ c / 2 ^ fFrac t = 2 ^ fExp t - 1 := fun h0 => absurd (hinf.mpr h0) (not_lt.mpr h)
      simp +contextual only [ht, decide_false, Bool.false_and, Bool.false_eq_true, if_false, ne_eq, not_false_eq_true,
        true_and, h', h, if_true, hsub]
    · have h' := hinf.mp (not_le.mp h)
      simp only [ht, decide_false, Bool.false_and, Bool.false_eq_true, if_false, ne_eq, not_false_eq_true,
        true_and, h', h, if_true, eq_infCode_iff ht h']

theorem isNum_withSign (t : FTy) (neg : Bool) {c : Nat} (hc : c < 2 ^ (fWidth t - 1)) :
    isNum (fDecode t (withSign t neg c)) = decide (c ≤ maxCode t) := by
  rw [fDecode_withSign t neg hc]
  split_ifs <;> simp_all [isNum]

/-! ### The magnitudes of the format -/

/-- The magnitude of a code without its sign. -/
def finMag (t : FTy) (c : Nat) : ℚ :=
  if c < 2 ^ fFrac t then c * 2 ^ fQmin t
  else (2 ^ fFrac t + c % 2 ^ fFrac t : Nat) * 2 ^ (((c / 2 ^ fFrac t : Nat) : Int) - 1 + fQmin t)

theorem ratOf_withSign (t : FTy) (neg : Bool) {c : Nat} (hc : c ≤ maxCode t) :
    ratOf (fDecode t (withSign t neg c)) = (if neg then -1 else 1) * finMag t c := by
  rw [fDecode_withSign t neg (hc.trans_lt (maxCode_lt t)), if_pos hc, finMag]
  by_cases h : c < 2 ^ fFrac t
  · rw [if_pos h, if_pos h, ratOf, mul_assoc]
  · rw [if_neg h, if_neg h, ratOf, mul_assoc]

theorem fvSign_withSign (t : FTy) (neg : Bool) {c : Nat} (hc : c ≤ maxCode t) :
    fvSign (fDecode t (withSign t neg c)) = neg := by
  rw [fDecode_withSign t neg (hc.trans_lt (maxCode_lt t)), if_pos hc]
  split_ifs <;> rfl

/-- The code that counts i binades above the least and n units of the last place stands for n of these units. -/
theorem finMag_units (t : FTy) {i n : Nat} (hn : n ≤ 2 ^ (fFrac t + 1)) (hl : i ≠ 0 → 2 ^ fFrac t ≤ n) :
    finMag t (i * 2 ^ fFrac t + n) = n * 2 ^ ((i : Int) + fQmin t) := by
  have hp : 0 < 2 ^ fFrac t := by positivity
  rw [pow_succ] at hn
  rcases lt_or_ge n (2 ^ fFrac t) with h | h
  · obtain rfl : i = 0 := by
      by_contra h0
      exact absurd (hl h0) (by omega)
    simp [finMag, h]
  · have hc : ¬ i * 2 ^ fFrac t + n < 2 ^ fFrac t := by omega
    rw [finMag, if_neg hc]
    rcases hn.lt_or_eq with h2 | h2
    · have hdiv : (i * 2 ^ fFrac t + n) / 2 ^ fFrac t = i + 1 := by
        rw [mul_comm, Nat.mul_add_div hp, Nat.div_eq_of_lt_le (k := 1) (by omega) (by omega)]
      have hmod : 2 ^ fFrac t + (i * 2 ^ fFrac t + n) % 2 ^ fFrac t = n := by
        rw [mul_comm, Nat.mul_add_mod, Nat.mod_eq_sub_mod h, Nat.mod_eq_of_lt (by omega)]
        omega
      rw [hdiv, hmod]
      push_cast
      ring_nf
    · have he : i * 2 ^ fFrac t + n = 2 ^ fFrac t * (i + 2) := by rw [h2]; ring
      rw [he, Nat.mul_div_cancel_left _ hp, Nat.mul_mod_right, h2, add_zero]
      rw [show ((i + 2 : Nat) : Int) - 1 + fQmin t = i + fQmin t + 1 by push_cast; ring, zpow_add_one₀ two_ne_zero]
      push_cast
      ring

/-- Every code counts binades and units. -/
theorem exists_units (t : FTy) (c : Nat) :
    ∃ i n, c = i * 2 ^ fFrac t + n ∧ n < 2 ^ (fFrac t + 1) ∧ (i ≠ 0 → 2 ^ fFrac t ≤ n) := by
  have hp : 0 < 2 ^ fFrac t := by positivity
  have hm := Nat.mod_lt c hp
  have hd := Nat.div_add_mod' c (2 ^ fFrac t)
  rw [pow_succ]
  rcases Nat.eq_zero_or_eq_succ_pred (c / 2 ^ fFrac t) with h | h
  · exact ⟨0, c, by omega, by rw [h] at hd; omega, by simp⟩
  · rw [h, Nat.succ_mul] at hd
    exact ⟨(c / 2 ^ fFrac t).pred, c % 2 ^ fFrac t + 2 ^ fFrac t, by omega, by omega, fun _ => Nat.le_add_left _ _⟩

/-- A code that stands for a number stands for a signed magnitude of the format. -/
theorem exists_finMag_of_isNum {t : FTy} {k : Nat} (hk : k < 2 ^ floatBits t) (hnum : isNum (fDecode t k) = true) :
    ∃ (s : Bool) (c : Nat), ratOf (fDecode t k) = (if s then -1 else 1) * finMag t c := by
  rw [floatBits_eq] at hk
  obtain ⟨s, c, hc, rfl⟩ := exists_withSign t hk
  rw [isNum_withSign t s hc, decide_eq_true_iff] at hnum
  exact ⟨s, c, ratOf_withSign t s hnum⟩

theorem finMag_strictMono (t : FTy) : StrictMono (finMag t) := by
  refine strictMono_nat_of_lt_succ fun c => ?_
  obtain ⟨i, n, rfl, hn, hl⟩ := exists_units t c
  rw [finMag_units t hn.le hl, add_assoc, finMag_units t (n := n + 1) hn fun h => (hl h).trans (Nat.le_succ n)]
  gcongr
  exact Nat.lt_succ_self n

theorem finMag_zero (t : FTy) : finMag t 0 = 0 := by simp [finMag]

theorem finMag_nonneg (t : FTy) (c : Nat) : 0 ≤ finMag t c := by
  rw [← finMag_zero t]
  exact (finMag_strictMono t).monotone (Nat.zero_le c)

theorem finMag_maxCode (t : FTy) : finMag t (maxCode t) = maxFinite t := by
  have h : maxCode t = (fTopQ t - fQmin t).toNat * 2 ^ fFrac t + fTopSig t := by cases t <;> rfl
  have hq : ((fTopQ t - fQmin t).toNat : Int) + fQmin t = fTopQ t := by
    have := fQmin_le_fTopQ t
    omega
  rw [h, finMag_units t (fTopSig_lt t).le fun _ => le_fTopSig t, hq, maxFinite_eq]

theorem finMag_le_maxFinite_iff (t : FTy) (c : Nat) : finMag t c ≤ maxFinite t ↔ c ≤ maxCode t := by
  rw [← finMag_maxCode]
  exact (finMag_strictMono t).le_iff_le

/-- Settles O20: the value of a code is that of its fields, and the largest finite code, +∞ and the canonical NaN are those
of R73 and R74. -/
theorem floatFormats : Obligations.FloatFormats := by
  intro t
  have hw := maxCode_lt t
  have hpos : withSign t false (maxCode t) = maxCode t := rfl
  refine ⟨?_, ?_, ?_, ?_, ?_⟩
  · rw [← hpos, ratOf_withSign t false le_rfl, finMag_maxCode]
    simp
  · rw [← hpos, isNum_withSign t false hw, decide_eq_true le_rfl]
  · cases t <;> decide
  · intro ht
    cases t with
    | e4m3 => exact absurd rfl ht
    | _ => decide
  · intro neg ex fr hfr hc
    have hp : 0 < 2 ^ fFrac t := by positivity
    rw [fracBits_eq] at hfr hc
    have hf : ((2 ^ fFrac t : Nat) : ℚ) = 2 ^ fFrac t := by push_cast; rfl
    simp only [fracBits_eq]
    refine ⟨by rw [isNum_withSign t neg (hc.trans_lt hw), decide_eq_true hc], fvSign_withSign t neg hc, ?_⟩
    have habs : |ratOf (fDecode t (withSign t neg (ex * 2 ^ fFrac t + fr)))| = finMag t (ex * 2 ^ fFrac t + fr) := by
      rw [ratOf_withSign t neg hc]
      cases neg <;> simp [abs_of_nonneg (finMag_nonneg t _)]
    rw [habs, minExp2_eq]
    rcases Nat.eq_zero_or_eq_succ_pred ex with rfl | h
    · rw [if_pos rfl, finMag_units t (by rw [pow_succ]; omega) (by simp)]
      simp
    · generalize ex.pred = i at h
      subst h
      have hq : (fQmin t + fFrac t : Int) + ((i.succ : Nat) : Int) - 1 = (i + fQmin t) + (fFrac t : Nat) := by push_cast; ring
      rw [if_neg (Nat.succ_ne_zero i), Nat.succ_mul, add_assoc, finMag_units t (by rw [pow_succ]; omega) (by omega), hq,
        ← two_zpow_add_nat, zpow_natCast]
      push_cast
      field_simp

end Sys2Proof.Proofs.Formats
end

section
/-! PROOFS. What the rounded number is among the numbers of its format (R79): a nearest one, or the next one on the mode's side. -/

namespace Sys2Proof.Proofs.Nearest

open Machine Claims Rounding Formats

/-! ### The code of a rounded magnitude -/

/-- The code of a rounded magnitude, without its sign. -/
def roundedCode (t : FTy) (rm : Rnd) (neg : Bool) (x : ℚ) : Nat :=
  (unitExp t x - fQmin t).toNat * 2 ^ fFrac t + unitsOf t rm 0 neg x

theorem finMag_roundedCode (t : FTy) (rm : Rnd) (neg : Bool) {x : ℚ} (hx : 0 < x) :
    finMag t (roundedCode t rm neg x) = roundedMag t rm 0 neg x := by
  have hq := fQmin_le_unitExp t x
  rw [roundedCode, finMag_units t (unitsOf_le t rm 0 neg hx) fun h => le_unitsOf hx (by omega), roundedMag]
  congr 2
  omega

/-- A rounding under a mode other than .dr, where it does not overflow and where it does. -/
theorem roundTo_fst (t : FTy) {rm : Rnd} (hrm : rm ≠ .dr) (neg : Bool) {m : Nat} (hm : m ≠ 0) (e : Int) :
    (roundTo t rm 0 neg m e).1 =
      if maxFinite t < roundedMag t rm 0 neg (m * 2 ^ e) then (if overToInf rm neg then fInf t neg else fMax t neg)
      else withSign t neg (roundedCode t rm neg (m * 2 ^ e)) := by
  have hneg : decide (ratOf (.fin neg m e) < 0) = neg := by
    rw [Bool.eq_iff_iff, decide_eq_true_iff, ratOf_fin_neg_iff hm]
  rw [roundTo_eq_roundRat t rm 0 neg e hm, roundRat_eq]
  simp only [hneg, abs_ratOf_fin, hrm, decide_false, Bool.false_and, Bool.false_eq_true, if_false, roundedCode]
  split_ifs <;> rfl

/-! ### The numbers of the format beside a magnitude -/

/-- Beside a magnitude x the numbers of the format are multiples of its unit, or they lie below the binade of x. -/
theorem finMag_beside (t : FTy) {x : ℚ} (hx : 0 < x) (c : Nat) :
    (∃ j : Nat, finMag t c = j * 2 ^ unitExp t x)
      ∨ ((2 ^ fFrac t : Nat) : ℚ) ≤ x / 2 ^ unitExp t x ∧ finMag t c < (2 ^ fFrac t : Nat) * 2 ^ unitExp t x := by
  obtain ⟨i, n, rfl, hn, hl⟩ := exists_units t c
  rw [finMag_units t hn.le hl]
  rcases le_or_gt (unitExp t x) (i + fQmin t) with h | h
  · refine .inl ⟨n * 2 ^ (i + fQmin t - unitExp t x).toNat, ?_⟩
    rw [Nat.cast_mul, mul_assoc, ← two_zpow_toNat (by omega), ← zpow_add₀ two_ne_zero, sub_add_cancel]
  · refine .inr ⟨le_units t hx _ (unitExp_eq_of_lt (by omega)).le, ?_⟩
    calc (n : ℚ) * 2 ^ ((i : Int) + fQmin t) < (2 ^ fFrac t * 2 : Nat) * 2 ^ ((i : Int) + fQmin t) := by
          rw [← pow_succ]
          gcongr
      _ = (2 ^ fFrac t : Nat) * 2 ^ ((i : Int) + fQmin t + 1) := by rw [zpow_add_one₀ two_ne_zero]; push_cast; ring
      _ ≤ _ := by
          gcongr
          · exact one_le_two
          · omega

/-! ### Rounding to nearest -/

theorem roundUnits_rne (thr : Nat) (neg : Bool) (k : ℚ) :
    roundUnits .rne thr neg k = if 1 / 2 < k - ⌊k⌋₊ ∨ k - ⌊k⌋₊ = 1 / 2 ∧ ⌊k⌋₊ % 2 = 1 then ⌊k⌋₊ + 1 else ⌊k⌋₊ := by
  simp only [roundUnits, Bool.or_eq_true, Bool.and_eq_true, decide_eq_true_eq]
  simp only [Int.floor_toNat]
  rfl

/-- No integer is nearer than the one that rounding to nearest gives, and an equally near one is that or leaves it even. -/
theorem roundUnits_rne_nearest (thr : Nat) (neg : Bool) {k : ℚ} (hk : 0 ≤ k) (j : Nat) :
    |k - roundUnits .rne thr neg k| ≤ |k - j|
      ∧ (|k - roundUnits .rne thr neg k| = |k - j| → j = roundUnits .rne thr neg k ∨ roundUnits .rne thr neg k % 2 = 0) := by
  have h0 := Nat.floor_le hk
  have h1 := Nat.lt_floor_add_one k
  rw [roundUnits_rne]
  generalize ⌊k⌋₊ = lo at h0 h1 ⊢
  have hlo : |k - lo| = k - lo := abs_of_nonneg (by linarith)
  have hhi : |k - (lo + 1 : Nat)| = lo + 1 - k := by push_cast; rw [abs_sub_comm, abs_of_nonneg (by linarith)]
  have far : j = lo ∨ j = lo + 1 ∨ k - lo < |k - j| ∧ (lo < k → lo + 1 - k < |k - j|) := by
    rcases lt_trichotomy j lo with h | h | h
    · have : (j : ℚ) + 1 ≤ lo := by exact_mod_cast h
      have := le_abs_self (k - j)
      exact .inr (.inr ⟨by linarith, fun _ => by linarith⟩)
    · exact .inl h
    · rcases Nat.eq_or_lt_of_le h with h | h
      · exact .inr (.inl h.symm)
      · have : (lo : ℚ) + 1 + 1 ≤ j := by exact_mod_cast h
        have := neg_le_abs (k - j)
        exact .inr (.inr ⟨by linarith, fun _ => by linarith⟩)
  split_ifs with hup
  · rw [hhi]
    have hle : (lo : ℚ) + 1 - k ≤ k - lo := by rcases hup with h | ⟨h, -⟩ <;> linarith
    rcases far with rfl | rfl | ⟨hl, hr⟩
    · rw [hlo]
      refine ⟨hle, fun he => .inr ?_⟩
      obtain h | ⟨-, h⟩ := hup
      · linarith
      · omega
    · exact ⟨hhi.ge, fun _ => .inl rfl⟩
    · have hr := hr (by linarith)
      exact ⟨hr.le, fun he => absurd he hr.ne⟩
  · rw [hlo]
    push Not at hup
    have hle : k - lo ≤ lo + 1 - k := by linarith [hup.1]
    rcases far with rfl | rfl | ⟨hl, hr⟩
    · exact ⟨hlo.ge, fun _ => .inl rfl⟩
    · rw [hhi]
      refine ⟨hle, fun he => .inr ?_⟩
      have := hup.2 (by linarith)
      omega
    · exact ⟨hl.le, fun he => absurd he hl.ne⟩

/-- Just below an even integer, rounding to nearest reaches it from half a unit on. -/
theorem roundUnits_rne_reaches (thr : Nat) (neg : Bool) {k : ℚ} (hk : 0 ≤ k) {n : Nat} (hn : n % 2 = 0) (h : k < n) :
    (n : ℚ) - 1 < roundUnits .rne thr neg k ↔ (n : ℚ) - 1 / 2 ≤ k := by
  have h0 := Nat.floor_le hk
  have h1 := Nat.lt_floor_add_one k
  have hfl : ⌊k⌋₊ < n := (Nat.floor_lt hk).mpr h
  rw [roundUnits_rne]
  generalize ⌊k⌋₊ = lo at h0 h1 hfl ⊢
  rcases Nat.eq_or_lt_of_le hfl with rfl | hlo
  · split_ifs with hup
    · have : 1 / 2 ≤ k - lo := by rcases hup with h | ⟨h, -⟩ <;> linarith
      push_cast
      constructor <;> intro <;> linarith
    · push Not at hup
      have : k - lo < 1 / 2 := lt_of_le_of_ne hup.1 fun he => hup.2 he (by omega)
      push_cast
      constructor <;> intro <;> linarith
  · have hlo' : (lo : ℚ) + 1 + 1 ≤ n := by exact_mod_cast hlo
    split_ifs <;> push_cast <;> constructor <;> intro <;> linarith

/-- No number of the format is nearer to a magnitude than the rounded one, and an equally near one is that or leaves the code
even. -/
theorem roundedMag_nearest (t : FTy) (neg : Bool) {x : ℚ} (hx : 0 < x) (c : Nat) :
    |x - roundedMag t .rne 0 neg x| ≤ |x - finMag t c|
      ∧ (|x - roundedMag t .rne 0 neg x| = |x - finMag t c| →
          finMag t c = roundedMag t .rne 0 neg x ∨ roundedCode t .rne neg x % 2 = 0) := by
  have hp := two_zpow_pos (unitExp t x)
  have hk : 0 ≤ x / 2 ^ unitExp t x := div_nonneg hx.le hp.le
  have near := roundUnits_rne_nearest 0 neg hk
  have hx' : x = x / 2 ^ unitExp t x * 2 ^ unitExp t x := (div_mul_cancel₀ x hp.ne').symm
  have inUnits : ∀ y : ℚ, |x - y * 2 ^ unitExp t x| = |x / 2 ^ unitExp t x - y| * 2 ^ unitExp t x := by
    intro y
    rw [← abs_of_pos hp, ← abs_mul, abs_of_pos hp, sub_mul, ← hx']
  have heven : roundedCode t .rne neg x % 2 = unitsOf t .rne 0 neg x % 2 := by
    obtain ⟨f, hf⟩ := Nat.exists_eq_add_of_le (one_le_fFrac t)
    rw [roundedCode, hf, pow_add, pow_one, mul_left_comm, Nat.mul_add_mod]
  rw [heven, roundedMag, inUnits]
  rcases finMag_beside t hx c with ⟨j, hj⟩ | ⟨hle, hlt⟩
  · obtain ⟨h, h'⟩ := near j
    rw [hj, inUnits]
    refine ⟨mul_le_mul_of_nonneg_right h hp.le, fun he => ?_⟩
    rcases h' (mul_right_cancel₀ hp.ne' he) with rfl | h2
    · exact .inl rfl
    · exact .inr h2
  · have hb := (near (2 ^ fFrac t)).1
    have hlt' : |x / 2 ^ unitExp t x - unitsOf t .rne 0 neg x| * 2 ^ unitExp t x < |x - finMag t c| := by
      calc _ ≤ |x / 2 ^ unitExp t x - (2 ^ fFrac t : Nat)| * 2 ^ unitExp t x := mul_le_mul_of_nonneg_right hb hp.le
        _ = x - (2 ^ fFrac t : Nat) * 2 ^ unitExp t x := by
          rw [abs_of_nonneg (sub_nonneg.mpr hle), sub_mul, ← hx']
        _ < x - finMag t c := by linarith
        _ ≤ _ := le_abs_self _
    exact ⟨hlt'.le, fun he => absurd he hlt'.ne⟩

theorem fTopSig_add_one {t : FTy} (ht : t ≠ .e4m3) : fTopSig t + 1 = 2 ^ (fFrac t + 1) := by
  cases t with
  | e4m3 => exact absurd rfl ht
  | _ => rfl

/-- The overflow edge of rounding to nearest: half a last place above the largest finite number. -/
theorem maxFinite_lt_roundedMag_iff {t : FTy} (ht : t ≠ .e4m3) (neg : Bool) {x : ℚ} (hx : 0 < x) :
    maxFinite t < roundedMag t .rne 0 neg x ↔ maxFinite t * (1 + 1 / (2 ^ (fracBits t + 2) - 2)) ≤ x := by
  have hp := two_zpow_pos (fTopQ t)
  have hn := unitsOf_le t .rne 0 neg hx
  -- the edge is 2^p − 1/2 units of the last place of the largest finite number
  have hsig : (fTopSig t : ℚ) = 2 ^ (fFrac t + 1) - 1 := by
    rw [← Nat.cast_ofNat, ← Nat.cast_pow, ← fTopSig_add_one ht]
    simp
  have hone : (1 : ℚ) < 2 ^ (fFrac t + 1) := one_lt_pow₀ one_lt_two (Nat.succ_ne_zero _)
  have hedge : maxFinite t * (1 + 1 / (2 ^ (fracBits t + 2) - 2)) = (2 ^ (fFrac t + 1) - 1 / 2) * 2 ^ fTopQ t := by
    have hne : (2 : ℚ) ^ (fFrac t + 1) - 1 ≠ 0 := by linarith
    rw [maxFinite_eq, hsig, fracBits_eq, show (2 : ℚ) ^ (fFrac t + 2) - 2 = 2 * (2 ^ (fFrac t + 1) - 1) by ring]
    field_simp
    ring
  have hlt : x < 2 ^ (fFrac t + 1) * 2 ^ unitExp t x := by
    have h := units_lt t (unitExp t x) (le_max_left ..)
    rw [div_lt_iff₀ (two_zpow_pos _)] at h
    exact_mod_cast h
  rw [hedge, roundedMag]
  rcases lt_trichotomy (unitExp t x) (fTopQ t) with h | h | h
  · -- below the top binade neither holds
    have hq : (2 : ℚ) ^ (fFrac t + 1) * 2 ^ unitExp t x ≤ 2 ^ fFrac t * 2 ^ fTopQ t := by
      calc (2 : ℚ) ^ (fFrac t + 1) * 2 ^ unitExp t x = 2 ^ fFrac t * 2 ^ (unitExp t x + 1) := by
            rw [zpow_add_one₀ two_ne_zero]; ring
        _ ≤ _ := by
            gcongr
            · exact one_le_two
            · omega
    have hn' : (unitsOf t .rne 0 neg x : ℚ) * 2 ^ unitExp t x ≤ 2 ^ (fFrac t + 1) * 2 ^ unitExp t x := by
      gcongr
      exact_mod_cast hn
    have hf : (2 : ℚ) ^ fFrac t ≤ 2 ^ (fFrac t + 1) - 1 := by
      rw [← hsig]
      exact_mod_cast le_fTopSig t
    have htop : (2 : ℚ) ^ fFrac t * 2 ^ fTopQ t ≤ (2 ^ (fFrac t + 1) - 1) * 2 ^ fTopQ t := by gcongr
    have hend : ((2 : ℚ) ^ (fFrac t + 1) - 1) * 2 ^ fTopQ t < (2 ^ (fFrac t + 1) - 1 / 2) * 2 ^ fTopQ t := by
      gcongr
      linarith
    rw [maxFinite_eq, hsig]
    constructor <;> intro <;> linarith
  · -- in the top binade a magnitude overflows when it is rounded to 2^p units
    have hk : 0 ≤ x / 2 ^ fTopQ t := div_nonneg hx.le hp.le
    rw [maxFinite_eq, hsig, h, mul_lt_mul_iff_left₀ hp, ← le_div_iff₀ hp, unitsOf, h]
    rw [h, ← div_lt_iff₀ hp] at hlt
    have heven : 2 ^ (fFrac t + 1) % 2 = 0 := by rw [pow_succ, Nat.mul_mod_left]
    have := roundUnits_rne_reaches 0 neg hk (n := 2 ^ (fFrac t + 1)) heven (by exact_mod_cast hlt)
    exact_mod_cast this
  · -- above it both hold
    have hq := (fQmin_le_fTopQ t).trans_lt h
    have hl : (2 : ℚ) ^ fFrac t * 2 ^ unitExp t x ≤ unitsOf t .rne 0 neg x * 2 ^ unitExp t x := by
      gcongr
      exact_mod_cast le_unitsOf (rm := .rne) (thr := 0) (neg := neg) hx hq
    have hx' : (2 : ℚ) ^ fFrac t * 2 ^ unitExp t x ≤ x := by
      have := le_units t hx _ (unitExp_eq_of_lt hq).le
      rw [le_div_iff₀ (two_zpow_pos _)] at this
      exact_mod_cast this
    have htop : (2 : ℚ) ^ (fFrac t + 1) * 2 ^ fTopQ t ≤ 2 ^ fFrac t * 2 ^ unitExp t x := by
      calc (2 : ℚ) ^ (fFrac t + 1) * 2 ^ fTopQ t = 2 ^ fFrac t * 2 ^ (fTopQ t + 1) := by
            rw [zpow_add_one₀ two_ne_zero]; ring
        _ ≤ _ := by
            gcongr
            · exact one_le_two
            · omega
    rw [maxFinite_eq, hsig, sub_mul, sub_mul]
    constructor <;> intro <;> linarith

/-- Changing both signs changes no distance. -/
theorem abs_signed_sub (neg : Bool) (x y : ℚ) :
    |(if neg then -1 else 1) * x - (if neg then -1 else 1) * y| = |x - y| := by
  cases neg
  · simp
  · rw [if_pos rfl, ← mul_sub, abs_mul]; simp

/-- A number is at least as far from another as their magnitudes are; it is farther where the signs differ, unless it is 0. -/
theorem abs_sub_le_signed {x y : ℚ} (hx : 0 < x) (hy : 0 ≤ y) (neg neg' : Bool) :
    |x - y| ≤ |(if neg then -1 else 1) * x - (if neg' then -1 else 1) * y|
      ∧ (|x - y| = |(if neg then -1 else 1) * x - (if neg' then -1 else 1) * y| → y = 0 ∨ neg = neg') := by
  by_cases h : neg = neg'
  · subst h
    rw [abs_signed_sub]
    exact ⟨le_rfl, fun _ => .inr rfl⟩
  · have hs : |(if neg then -1 else 1) * x - (if neg' then -1 else 1) * y| = x + y := by
      obtain rfl : neg' = !neg := by cases neg <;> cases neg' <;> simp_all
      cases neg
      · simpa using abs_of_nonneg (add_nonneg hx.le hy)
      · rw [← abs_neg, ← abs_of_nonneg (add_nonneg hx.le hy)]
        simp only [if_true, Bool.not_true, Bool.false_eq_true, if_false]
        ring_nf
    rw [hs]
    refine ⟨abs_le.mpr ⟨by linarith, by linarith⟩, fun he => .inl ?_⟩
    rcases abs_cases (x - y) with ⟨h', -⟩ | ⟨h', -⟩ <;> linarith

theorem fDecode_fInf {t : FTy} (ht : t ≠ .e4m3) (neg : Bool) : fDecode t (fInf t neg) = .inf neg := by
  cases t with
  | e4m3 => exact absurd rfl ht
  | _ => cases neg <;> decide

theorem withSign_mod_two (t : FTy) (neg : Bool) (c : Nat) : withSign t neg c % 2 = c % 2 := by
  have h : 2 ^ (floatBits t - 1) % 2 = 0 := by cases t <;> rfl
  rw [withSign]
  split_ifs <;> omega

/-- Settles O18: below the edge the rounded code is that of a nearest magnitude with the sign of x, and a number of the other
sign is farther away; from the edge on the rounding overflows. -/
theorem roundsToNearest : Obligations.RoundsToNearest := by
  intro t neg m e ht hm
  have hpos : (0 : ℚ) < m * 2 ^ e := mul_pos (by exact_mod_cast Nat.pos_of_ne_zero hm) (two_zpow_pos e)
  have habs : |(if neg then -1 else 1) * (m : ℚ) * 2 ^ e| = m * 2 ^ e := abs_ratOf_fin neg m e
  have hover := maxFinite_lt_roundedMag_iff ht neg hpos
  simp only [habs, roundTo_fst t (rm := .rne) (by decide) neg hm e]
  refine ⟨fun h => by rw [if_pos (hover.mpr h)]; exact fDecode_fInf ht neg, fun h => ?_⟩
  have hle := mt hover.mp (not_le.mpr h)
  rw [if_neg hle]
  rw [not_lt, ← finMag_roundedCode t .rne neg hpos, finMag_le_maxFinite_iff] at hle
  refine ⟨by rw [isNum_withSign t neg (hle.trans_lt (maxCode_lt t)), decide_eq_true hle], fun k hk hnum => ?_⟩
  obtain ⟨neg', c, hc⟩ := exists_finMag_of_isNum hk hnum
  obtain ⟨near, tie⟩ := roundedMag_nearest t neg hpos c
  obtain ⟨far, signs⟩ := abs_sub_le_signed hpos (finMag_nonneg t c) neg neg'
  rw [ratOf_withSign t neg hle, hc, finMag_roundedCode t .rne neg hpos, mul_assoc, abs_signed_sub,
    withSign_mod_two]
  refine ⟨near.trans far, fun he => ?_⟩
  rcases tie (le_antisymm near (far.trans he.ge)) with h1 | h1
  · rcases signs (le_antisymm far (he.ge.trans near)) with h2 | rfl
    · rw [← h1, h2]; simp
    · exact .inl (by rw [h1])
  · exact .inr h1

/-! ### The directed modes -/

theorem roundUnits_rz (thr : Nat) (neg : Bool) (k : ℚ) : roundUnits .rz thr neg k = ⌊k⌋₊ := by
  simp [roundUnits, Int.floor_toNat]

/-- The least integer not below k, as the directed modes find it. -/
theorem ceil_eq_ite {k : ℚ} (hk : 0 ≤ k) : ⌈k⌉₊ = if 0 < k - ⌊k⌋₊ then ⌊k⌋₊ + 1 else ⌊k⌋₊ := by
  have h0 := Nat.floor_le hk
  have h1 := Nat.lt_floor_add_one k
  split_ifs with h
  · exact (Nat.ceil_eq_iff (Nat.succ_ne_zero _)).mpr ⟨by rw [Nat.succ_sub_one]; linarith, by push_cast; exact h1.le⟩
  · have : k = ⌊k⌋₊ := by linarith
    rw [this, Nat.ceil_natCast, Nat.floor_natCast]

theorem roundUnits_ru (thr : Nat) (neg : Bool) {k : ℚ} (hk : 0 ≤ k) :
    roundUnits .ru thr neg k = if neg then ⌊k⌋₊ else ⌈k⌉₊ := by
  rw [ceil_eq_ite hk]
  cases neg <;> simp [roundUnits, Int.floor_toNat]

theorem roundUnits_rd (thr : Nat) (neg : Bool) {k : ℚ} (hk : 0 ≤ k) :
    roundUnits .rd thr neg k = if !neg then ⌊k⌋₊ else ⌈k⌉₊ := by
  rw [ceil_eq_ite hk]
  cases neg <;> simp [roundUnits, Int.floor_toNat]

variable {t : FTy} {rm : Rnd} {neg : Bool} {x : ℚ}

/-- A magnitude rounded down is the greatest of the format that is not above it. -/
theorem roundedMag_floor (hx : 0 < x) (h : unitsOf t rm 0 neg x = ⌊x / 2 ^ unitExp t x⌋₊) :
    roundedMag t rm 0 neg x ≤ x ∧ ∀ c, finMag t c ≤ x → finMag t c ≤ roundedMag t rm 0 neg x := by
  have hp := two_zpow_pos (unitExp t x)
  have hk : 0 ≤ x / 2 ^ unitExp t x := div_nonneg hx.le hp.le
  rw [roundedMag, h]
  refine ⟨(le_div_iff₀ hp).mp (Nat.floor_le hk), fun c hc => ?_⟩
  rcases finMag_beside t hx c with ⟨j, hj⟩ | ⟨hle, hlt⟩
  · rw [hj, ← le_div_iff₀ hp] at hc
    rw [hj]
    gcongr
    exact Nat.le_floor hc
  · refine hlt.le.trans ?_
    gcongr
    exact Nat.le_floor hle

/-- A magnitude rounded up is the least of the format that is not below it. -/
theorem roundedMag_ceil (hx : 0 < x) (h : unitsOf t rm 0 neg x = ⌈x / 2 ^ unitExp t x⌉₊) :
    x ≤ roundedMag t rm 0 neg x ∧ ∀ c, x ≤ finMag t c → roundedMag t rm 0 neg x ≤ finMag t c := by
  have hp := two_zpow_pos (unitExp t x)
  rw [roundedMag, h]
  refine ⟨(div_le_iff₀ hp).mp (Nat.le_ceil _), fun c hc => ?_⟩
  rcases finMag_beside t hx c with ⟨j, hj⟩ | ⟨hle, hlt⟩
  · rw [hj, ← div_le_iff₀ hp] at hc
    rw [hj]
    gcongr
    exact Nat.ceil_le.mpr hc
  · rw [le_div_iff₀ hp] at hle
    linarith

theorem roundedMag_nonneg (t : FTy) (rm : Rnd) (neg : Bool) (x : ℚ) : 0 ≤ roundedMag t rm 0 neg x :=
  mul_nonneg (Nat.cast_nonneg _) (two_zpow_pos _).le

/-- A number whose magnitude is rounded towards +∞ is taken to the least number of the format that is not below it. -/
theorem signed_roundedMag_up (s : Bool) (hx : 0 < x)
    (h : unitsOf t rm 0 neg x = if s then ⌊x / 2 ^ unitExp t x⌋₊ else ⌈x / 2 ^ unitExp t x⌉₊) :
    (if s then -1 else 1) * x ≤ (if s then -1 else 1) * roundedMag t rm 0 neg x
      ∧ ∀ (s' : Bool) c, (if s then -1 else 1) * x ≤ (if s' then -1 else 1) * finMag t c →
          (if s then -1 else 1) * roundedMag t rm 0 neg x ≤ (if s' then -1 else 1) * finMag t c := by
  have hr := roundedMag_nonneg t rm neg x
  cases s with
  | false =>
    obtain ⟨h1, h2⟩ := roundedMag_ceil hx (by simpa using h)
    simp only [Bool.false_eq_true, if_false, one_mul]
    refine ⟨h1, fun s' c hc => ?_⟩
    have hc0 := finMag_nonneg t c
    cases s' <;> simp only [Bool.false_eq_true, if_false, if_true, one_mul, neg_one_mul] at hc ⊢
    · exact h2 c hc
    · linarith
  | true =>
    obtain ⟨h1, h2⟩ := roundedMag_floor hx (by simpa using h)
    simp only [if_true, neg_one_mul, neg_le_neg_iff]
    refine ⟨h1, fun s' c hc => ?_⟩
    have hc0 := finMag_nonneg t c
    cases s' <;> simp only [Bool.false_eq_true, if_false, if_true, one_mul, neg_one_mul, neg_le_neg_iff] at hc ⊢
    · linarith
    · exact h2 c hc

/-- A magnitude of at most the largest finite number, rounded down or up to units, stays so. -/
theorem roundedMag_le_maxFinite (hx : 0 < x) (hle : x ≤ maxFinite t)
    (h : unitsOf t rm 0 neg x = ⌊x / 2 ^ unitExp t x⌋₊ ∨ unitsOf t rm 0 neg x = ⌈x / 2 ^ unitExp t x⌉₊) :
    roundedMag t rm 0 neg x ≤ maxFinite t := by
  rcases h with h | h
  · exact (roundedMag_floor hx h).1.trans hle
  · rw [← finMag_maxCode] at hle ⊢
    exact (roundedMag_ceil hx h).2 _ hle

/-- The number that a mode other than .dr gives to one whose rounded magnitude does not overflow. -/
theorem ratOf_roundTo (hrm : rm ≠ .dr) {m : Nat} (hm : m ≠ 0) (e : Int)
    (h : roundedMag t rm 0 neg (m * 2 ^ e) ≤ maxFinite t) :
    ratOf (fDecode t (roundTo t rm 0 neg m e).1) = (if neg then -1 else 1) * roundedMag t rm 0 neg (m * 2 ^ e) := by
  have hpos : (0 : ℚ) < m * 2 ^ e := mul_pos (by exact_mod_cast Nat.pos_of_ne_zero hm) (two_zpow_pos e)
  rw [roundTo_fst t hrm neg hm e, if_neg (not_lt.mpr h), ← finMag_roundedCode t rm neg hpos]
  rw [← finMag_roundedCode t rm neg hpos, finMag_le_maxFinite_iff] at h
  exact ratOf_withSign t neg h

/-- Settles O19: .rz takes the magnitude down, and .ru and .rd take the number to the next one of the format above or below. -/
theorem roundsDirected : Obligations.RoundsDirected := by
  intro t neg m e hm
  have hpos : (0 : ℚ) < m * 2 ^ e := mul_pos (by exact_mod_cast Nat.pos_of_ne_zero hm) (two_zpow_pos e)
  have habs : |(if neg then -1 else 1) * ((m : ℚ) * 2 ^ e)| = m * 2 ^ e := by
    rw [← mul_assoc]
    exact abs_ratOf_fin neg m e
  simp only [mul_assoc, habs]
  intro hmax rm hmem
  have hk : (0 : ℚ) ≤ m * 2 ^ e / 2 ^ unitExp t (m * 2 ^ e) := div_nonneg hpos.le (two_zpow_pos _).le
  have hz : unitsOf t .rz 0 neg (m * 2 ^ e) = ⌊(m : ℚ) * 2 ^ e / 2 ^ unitExp t (m * 2 ^ e)⌋₊ := roundUnits_rz ..
  have hu := roundUnits_ru 0 neg hk
  have hd := roundUnits_rd 0 neg hk
  simp only [List.mem_cons, List.not_mem_nil, or_false] at hmem
  rcases hmem with rfl | rfl | rfl
  · have hle := roundedMag_le_maxFinite hpos hmax (.inl hz)
    obtain ⟨below, greatest⟩ := roundedMag_floor hpos hz
    have hr := roundedMag_nonneg t .rz neg (m * 2 ^ e)
    have hs : ∀ (s : Bool) (y : ℚ), |(if s then -1 else 1) * y| = |y| := fun s y => by cases s <;> simp
    rw [ratOf_roundTo (by decide) hm e hle, hs, abs_of_nonneg hr]
    refine ⟨fun _ => ⟨below, ?_⟩, by simp, by simp, ?_⟩
    · have := mul_nonneg hpos.le hr
      cases neg <;> simpa [mul_assoc] using this
    · intro k hk hnum
      obtain ⟨s, c, hc⟩ := exists_finMag_of_isNum hk hnum
      rw [hc, hs, abs_of_nonneg (finMag_nonneg t c)]
      exact ⟨fun _ => greatest c, by simp, by simp⟩
  · have hle := roundedMag_le_maxFinite hpos hmax (rm := .ru) (neg := neg) (by
      cases neg
      · exact .inr hu
      · exact .inl hu)
    obtain ⟨above, least⟩ := signed_roundedMag_up neg hpos hu
    rw [ratOf_roundTo (by decide) hm e hle]
    refine ⟨by simp, fun _ => above, by simp, fun k hk hnum => ?_⟩
    obtain ⟨s, c, hc⟩ := exists_finMag_of_isNum hk hnum
    rw [hc]
    exact ⟨by simp, fun _ => least s c, by simp⟩
  · have hle := roundedMag_le_maxFinite hpos hmax (rm := .rd) (neg := neg) (by
      cases neg
      · exact .inl hd
      · exact .inr hd)
    have flip : ∀ (s : Bool) (y : ℚ), (if !s then -1 else 1) * y = -((if s then -1 else 1) * y) := by
      intro s y
      cases s <;> simp
    obtain ⟨above, least⟩ := signed_roundedMag_up (!neg) hpos hd
    rw [flip, flip, neg_le_neg_iff] at above
    rw [ratOf_roundTo (by decide) hm e hle]
    refine ⟨by simp, by simp, fun _ => above, fun k hk hnum => ?_⟩
    obtain ⟨s, c, hc⟩ := exists_finMag_of_isNum hk hnum
    have greatest := least (!s) c
    rw [flip, flip, flip, neg_le_neg_iff, neg_le_neg_iff] at greatest
    rw [hc]
    exact ⟨by simp, by simp, fun _ => greatest⟩

end Sys2Proof.Proofs.Nearest
end

section
/-! PROOFS. The float words that round an exact result once (R89): sums, products and fused products, by sub-element (R72). -/

namespace Sys2Proof.Proofs.Floats

open Machine Claims Laws Rounding Formats

/-! ### Sub-elements, gathered (R72) -/

/-- Sub-elements gathered by the model are the sum of the elements at their places. -/
theorem packEls_map_range (w n : Nat) (r : Nat → Nat) :
    packEls w ((List.range n).map r) = ((List.range n).map fun k => r k % 2 ^ w * 2 ^ (w * k)).sum := by
  induction n generalizing r with
  | zero => rfl
  | succ n ih =>
    have hk : (fun k => r (k + 1) % 2 ^ w * 2 ^ (w * (k + 1))) = fun k => 2 ^ w * (r (k + 1) % 2 ^ w * 2 ^ (w * k)) := by
      funext k
      ring
    simp only [List.range_succ_eq_map, List.map_cons, List.map_map, Function.comp_def, Nat.succ_eq_add_one, packEls,
      List.sum_cons, ih fun k => r (k + 1), hk, List.sum_map_mul_left]
    simp

/-- The model's gathering of results and flags is that of the claims. -/
theorem gather_map_range (w n : Nat) (f : Nat → Nat × Flags) : gather w ((List.range n).map f) = gatherN w n f := by
  rw [gather, gatherN, List.map_map, packEls_map_range, List.foldl_map]
  rfl

theorem mapEls_eq_gatherN (n : Nat) (f : Nat → Nat × Flags) : mapEls n f = gatherN n (64 / n) f := gather_map_range n _ f

theorem gatherEls_eq_gatherN (n : Nat) (f : Nat → Nat × Flags) : gatherEls n f = gatherN n (64 / n) f := rfl

theorem sub_lt (n : Nat) (x : Word) (k : Nat) : sub n x k < 2 ^ n := Nat.mod_lt _ (by positivity)

theorem fLat_eq (t : FTy) : fLat (t == .f64) = some (if t = .f64 then 8 else 6) := by cases t <;> rfl

/-- A word that computes registers from registers at once computes what it is shown to compute. -/
theorem computes_of_eq {i : Instr} {h : Hd} {r : RegWord} {f : Nat → Word → Word → Word → Word × Flags} {c : Calc}
    (hi : ∀ s, exec i s = regWord s h r f) (hd : r.div = false) (hc : ofReg h r f = c) : Computes i c .var := by
  have := regWord_spec h r f i hi
  rwa [hd, hc] at this

/-- A float word of the model is a float word of the claims where their results agree on codes of the format. -/
theorem ofReg_fltWord (h : Hd) (t : FTy) (d a b : Opnd) {f f' : Nat → Nat → Nat → Nat × Flags}
    (e : ∀ x y w, x < 2 ^ floatBits t → y < 2 ^ floatBits t → w < 2 ^ floatBits t → f x y w = f' x y w) :
    ofReg h (fltWord t d a b) (fltEls t fun _ => f) = fltCalc h t d a b f' := by
  have hf : (fltEls t fun _ => f) = fun _ x y w => gatherEls (floatBits t) fun k =>
      f' (sub (floatBits t) x k) (sub (floatBits t) y k) (sub (floatBits t) w k) := by
    funext _ x y w
    rw [fltEls, mapEls_eq_gatherN, gatherEls_eq_gatherN, ← floatBits_eq]
    congr 1
    funext k
    exact e _ _ _ (sub_lt ..) (sub_lt ..) (sub_lt ..)
  rw [hf, ofReg, fltCalc, fltWord, fLat_eq]

variable {i : Instr} {h : Hd} {t : FTy} {d a b : Opnd}

/-- A float word of two sources computes every function that agrees with its own on codes of the format. -/
theorem computes_flt2 {f : Nat → Nat → Nat × Flags} {f' : Nat → Nat → Nat → Nat × Flags}
    (hi : ∀ s, exec i s = flt2 s h t d a b f)
    (e : ∀ x y w, x < 2 ^ floatBits t → y < 2 ^ floatBits t → f x y = f' x y w) : Computes i (fltCalc h t d a b f') .var :=
  computes_of_eq hi rfl (ofReg_fltWord h t d a b fun x y w hx hy _ => e x y w hx hy)

/-- A float word that also reads d computes every function with the values of its f. -/
theorem computes_flt3 {f f' : Nat → Nat → Nat → Nat × Flags} (hi : ∀ s, exec i s = flt3 s h t d a b f)
    (e : ∀ x y w, f x y w = f' x y w) : Computes i (fltCalc3 h t d a b f') .var :=
  computes_of_eq hi rfl (congrArg (fun c : Calc => { c with w := (d, .flt t) })
    (ofReg_fltWord h t d a b fun x y w _ _ _ => e x y w))

/-- A float word of one source computes every function that agrees with its own on codes of the format. -/
theorem computes_flt1 {f f' : Nat → Nat × Flags} (hi : ∀ s, exec i s = flt1 s h t d a f)
    (e : ∀ x, x < 2 ^ floatBits t → f x = f' x) : Computes i (fltCalc1 h t d a f') .var :=
  computes_of_eq hi rfl (ofReg_fltWord h t d a .z fun x _ _ hx _ _ => e x hx)

/-! ### Exact sums (R79, R89, R100) -/

theorem minExp_le (l : List FVal) (e : Int) : minExp l e ≤ e ∧ ∀ n m f, .fin n m f ∈ l → minExp l e ≤ f := by
  induction l generalizing e with
  | nil => exact ⟨le_rfl, by simp⟩
  | cons v r ih =>
    cases v with
    | fin n m f =>
      obtain ⟨h1, h2⟩ := ih (min e f)
      refine ⟨h1.trans (min_le_left ..), fun n' m' f' hmem => ?_⟩
      rcases List.mem_cons.mp hmem with heq | hmem
      · cases heq
        exact h1.trans (min_le_right ..)
      · exact h2 n' m' f' hmem
    | nan s | inf s =>
      obtain ⟨h1, h2⟩ := ih e
      refine ⟨h1, fun n' m' f' hmem => h2 n' m' f' ?_⟩
      simpa using hmem

/-- The model's sum in units of 2^e is the exact sum. -/
theorem sumInt_mul (l : List FVal) {e : Int} (h : ∀ n m f, .fin n m f ∈ l → e ≤ f) :
    (sumInt e l : ℚ) * 2 ^ e = (l.map ratOf).sum := by
  induction l with
  | nil => simp [sumInt]
  | cons v r ih =>
    have ih := ih fun n m f hm => h n m f (List.mem_cons_of_mem _ hm)
    cases v with
    | nan s => simpa [sumInt, ratOf] using ih
    | inf s => simpa [sumInt, ratOf] using ih
    | fin n m f =>
      have hf : e ≤ f := h n m f (List.mem_cons_self ..)
      have hm : ((m * 2 ^ (f - e).toNat : Nat) : ℚ) * 2 ^ e = m * 2 ^ f := by
        rw [Nat.cast_mul, mul_assoc, ← two_zpow_toNat (by omega), ← zpow_add₀ two_ne_zero, sub_add_cancel]
      rw [List.map_cons, List.sum_cons, ← ih, sumInt, Int.cast_add, add_mul, ratOf_fin, mul_assoc, ← hm]
      cases n <;> simp

theorem anyInf_eq (neg : Bool) (l : List FVal) : anyInf neg l = hasInf neg l := rfl

theorem allZero_eq (neg : Bool) (l : List FVal) : allZero neg l = l.all fun v => fvIsZero v && (fvSign v == neg) := by
  unfold allZero
  congr 1
  funext v
  cases v <;> rfl

/-- The model's rounding of an integer number of units is that of the rational number. -/
theorem roundTo_natAbs (t : FTy) (rm : Rnd) {x : Int} (hx : x ≠ 0) (e : Int) :
    roundTo t rm 0 (x < 0) x.natAbs e = roundRat t rm 0 (x * 2 ^ e) := by
  have hv : ratOf (.fin (decide (x < 0)) x.natAbs e) = x * 2 ^ e := by
    rcases lt_or_ge x 0 with h | h
    · simp [ratOf_fin, h, abs_of_neg h]
    · simp [ratOf_fin, not_lt.mpr h, abs_of_nonneg h]
  rw [roundTo_eq_roundRat t rm 0 _ e (Int.natAbs_ne_zero.mpr hx), hv]

/-- A sum of the model is the exact sum, rounded once. -/
theorem sumTo_eq_sumOf (t : FTy) (rm : Rnd) (l : List FVal) : sumTo t rm l = sumOf t rm l := by
  have hsum := sumInt_mul l (minExp_le l 0).2
  unfold sumTo sumOf
  rw [anyInf_eq, anyInf_eq, nanCode_eq, infOf_eq, infOf_eq, ← hsum]
  have hz : ((sumInt (minExp l 0) l : ℚ) * 2 ^ minExp l 0 = 0) ↔ sumInt (minExp l 0) l = 0 := by
    simp [(two_zpow_pos _).ne']
  refine ite_congr rfl (fun _ => rfl) fun _ => ite_congr rfl (fun _ => rfl) fun _ => ite_congr rfl (fun _ => rfl) fun _ =>
    ite_congr rfl (fun _ => rfl) fun _ => ?_
  dsimp only
  by_cases h : sumInt (minExp l 0) l = 0
  · rw [if_pos h, if_neg (not_not.mpr (hz.mpr h)), allZero_eq, allZero_eq]
    cases l <;> simp [withSign_eq, fSign]
  · rw [if_neg h, if_pos (mt hz.mp h), roundTo_natAbs t rm h]

theorem mulTo_eq_mulOf (t : FTy) (rm : Rnd) (x y : FVal) : mulTo t rm x y = mulOf t rm x y := by
  unfold mulTo mulOf
  rw [nanCode_eq, infOf_eq]
  cases x with
  | nan s => cases y <;> simp [fvMul, fvIsNan, fvIsSnan]
  | inf n =>
    cases y with
    | nan s => simp [fvMul, fvIsNan, fvIsSnan]
    | inf n' => simp [fvMul, fvIsNan, fvIsZero, isNum, fvSign]
    | fin n' m e =>
      by_cases hm : m = 0 <;> simp [fvMul, fvIsNan, fvIsZero, isNum, fvSign, hm, flagIf]
  | fin n m e =>
    cases y with
    | nan s => simp [fvMul, fvIsNan, fvIsSnan]
    | inf n' => by_cases hm : m = 0 <;> simp [fvMul, fvIsNan, fvIsZero, isNum, fvSign, hm, flagIf]
    | fin n' m' e' =>
      have hv : ratOf (.fin n m e) * ratOf (.fin n' m' e') = ratOf (.fin (n != n') (m * m') (e + e')) := by
        simp only [ratOf_fin, zpow_add₀ (two_ne_zero (α := ℚ)), Nat.cast_mul]
        cases n <;> cases n' <;> simp <;> ring
      have hz := ratOf_fin_eq_zero_iff (n != n') (m * m') (e + e')
      simp only [fvMul, fvIsNan, isNum, Bool.or_false, Bool.not_true, Bool.and_false, Bool.false_eq_true, if_false, hv, hz,
        fvSign]
      by_cases hm : m * m' = 0
      · simp [roundTo, hm, withSign_eq]
      · simp [hm, roundTo_eq_roundRat]

theorem fmaTo_eq_fmaOf (t : FTy) (rm : Rnd) (x y w : FVal) (negProd : Bool) :
    fmaTo t rm x y w negProd = fmaOf t rm x y w negProd := by
  simp only [fmaTo, fmaOf, sumTo_eq_sumOf]
  congr 1
  rw [BitVec.or_comm, BitVec.or_assoc]

/-- Settles O21: the model's sums, products and fused products are the exact ones, rounded once. -/
theorem floatArithmetic : Obligations.FloatArithmetic := by
  intro h t d a b
  have sums : ∀ (rm : Rnd) (i : Instr), (∀ s, exec i s = flt2 s h t d a b (addTo t rm)) →
      Computes i (fltCalc h t d a b fun x y _ => sumOf t rm [fDecode t x, fDecode t y]) .var :=
    fun rm i hi => computes_flt2 hi fun _ _ _ _ _ => sumTo_eq_sumOf ..
  have products : ∀ (rm : Rnd) (i : Instr), (∀ s, exec i s = flt2 s h t d a b (mulCodes t rm)) →
      Computes i (fltCalc h t d a b fun x y _ => mulOf t rm (fDecode t x) (fDecode t y)) .var :=
    fun rm i hi => computes_flt2 hi fun _ _ _ _ _ => mulTo_eq_mulOf ..
  exact ⟨sums _ _ fun _ => rfl, sums _ _ fun _ => rfl, sums _ _ fun _ => rfl, sums _ _ fun _ => rfl,
    computes_flt2 (fun _ => rfl) fun _ _ _ _ _ => sumTo_eq_sumOf ..,
    products _ _ fun _ => rfl, products _ _ fun _ => rfl, products _ _ fun _ => rfl, products _ _ fun _ => rfl,
    computes_flt3 (fun _ => rfl) fun _ _ _ => fmaTo_eq_fmaOf ..,
    computes_flt3 (fun _ => rfl) fun _ _ _ => fmaTo_eq_fmaOf ..,
    computes_flt3 (fun _ => rfl) fun _ _ _ => fmaTo_eq_fmaOf ..⟩

end Sys2Proof.Proofs.Floats
end

section
/-! PROOFS. The float words that pick, classify, scale and compare (R89–R92), by sub-element. -/

namespace Sys2Proof.Proofs.OtherFloats

open Machine Claims Laws Rounding Formats Floats Nearest

variable {t : FTy}

/-! ### Codes and what they stand for -/

/-- The code of an infinity. -/
theorem eq_of_fDecode_inf {k : Nat} (hk : k < 2 ^ floatBits t) {n : Bool} (h : fDecode t k = .inf n) :
    t ≠ .e4m3 ∧ k = withSign t n (infCode t) := by
  rw [floatBits_eq] at hk
  obtain ⟨neg, c, hc, rfl⟩ := exists_withSign t hk
  rw [fDecode_withSign t neg hc] at h
  split_ifs at h with h1 h2 h3
  obtain ⟨ht, rfl⟩ := h3
  cases h
  exact ⟨ht, rfl⟩

/-- The code of a finite number. -/
theorem eq_of_fDecode_fin {k : Nat} (hk : k < 2 ^ floatBits t) {n : Bool} {m : Nat} {e : Int} (h : fDecode t k = .fin n m e) :
    ∃ c ≤ maxCode t, k = withSign t n c ∧ finMag t c = m * 2 ^ e := by
  rw [floatBits_eq] at hk
  obtain ⟨neg, c, hc, rfl⟩ := exists_withSign t hk
  have hle : c ≤ maxCode t := by
    have hnum := isNum_withSign t neg hc
    rw [h] at hnum
    exact of_decide_eq_true hnum.symm
  have hs := fvSign_withSign t neg hle
  have hv := ratOf_withSign t neg hle
  rw [h] at hs hv
  obtain rfl : n = neg := hs
  refine ⟨c, hle, rfl, ?_⟩
  rw [ratOf_fin, mul_assoc] at hv
  cases n <;> simpa using hv.symm

/-! ### The order of values -/

/-- The model compares finite values as the rational numbers. -/
theorem fvCmp_fin (a b : Bool) (m n : Nat) (e f : Int) :
    (fvCmp (.fin a m e) (.fin b n f) < 0 ↔ ratOf (.fin a m e) < ratOf (.fin b n f))
      ∧ (fvCmp (.fin a m e) (.fin b n f) = 0 ↔ ratOf (.fin a m e) = ratOf (.fin b n f)) := by
  have scale : ∀ (s : Bool) (k : Nat) (q : Int), min e f ≤ q →
      ratOf (.fin s k q) = ((if s then -(scaleTo (min e f) k q : Int) else (scaleTo (min e f) k q : Int) : Int) : ℚ) * 2 ^ min e f := by
    intro s k q hq
    have hk : (scaleTo (min e f) k q : ℚ) * 2 ^ min e f = k * 2 ^ q := by
      rw [scaleTo, Nat.cast_mul, mul_assoc, ← two_zpow_toNat (by omega), ← zpow_add₀ two_ne_zero, sub_add_cancel]
    rw [ratOf_fin, mul_assoc, ← hk]
    cases s <;> simp
  have hp := two_zpow_pos (min e f)
  rw [scale a m e (min_le_left ..), scale b n f (min_le_right ..), mul_lt_mul_iff_left₀ hp, mul_left_inj' hp.ne', Int.cast_lt,
    Int.cast_inj]
  simp only [fvCmp]
  generalize (if a then -(scaleTo (min e f) m e : Int) else (scaleTo (min e f) m e : Int)) = x
  generalize (if b then -(scaleTo (min e f) n f : Int) else (scaleTo (min e f) n f : Int)) = y
  rcases lt_trichotomy x y with h | h | h
  · simp [h, h.ne]
  · simp [h]
  · simp [h, h.ne', h.not_gt]

/-- The model's comparison of values that are no NaNs is that of R92. -/
theorem fvCmp_iff {x y : FVal} (hx : fvIsNan x = false) (hy : fvIsNan y = false) :
    (fvCmp x y < 0 ↔ lessThan x y = true) ∧ (fvCmp x y = 0 ↔ equals x y = true) := by
  cases x with
  | nan s => exact absurd hx (by simp [fvIsNan])
  | inf a =>
    cases y with
    | nan s => exact absurd hy (by simp [fvIsNan])
    | inf b => cases a <;> cases b <;> simp [fvCmp, lessThan, equals]
    | fin b n f => cases a <;> simp [fvCmp, lessThan, equals]
  | fin a m e =>
    cases y with
    | nan s => exact absurd hy (by simp [fvIsNan])
    | inf b => cases b <;> simp [fvCmp, lessThan, equals]
    | fin b n f => simpa only [lessThan, equals, decide_eq_true_eq] using fvCmp_fin a b m n e f

theorem fcmpOf_eq_comparedBy (c : FCmp) (x y : FVal) : fcmpOf c x y = comparedBy c x y := by
  by_cases hx : fvIsNan x = true
  · obtain ⟨s, rfl⟩ : ∃ s, x = .nan s := by cases x <;> simp_all [fvIsNan]
    cases c <;> simp [fcmpOf, comparedBy, fvIsNan, lessThan, equals]
  by_cases hy : fvIsNan y = true
  · obtain ⟨s, rfl⟩ : ∃ s, y = .nan s := by cases y <;> simp_all [fvIsNan]
    cases c <;> cases x <;> simp [fcmpOf, comparedBy, fvIsNan, lessThan, equals]
  rw [Bool.not_eq_true] at hx hy
  obtain ⟨hlt, heq⟩ := fvCmp_iff hx hy
  have hle : fvCmp x y ≤ 0 ↔ lessThan x y = true ∨ equals x y = true := by rw [← hlt, ← heq]; omega
  cases c with
  | eq =>
    have hb : (fvCmp x y == 0) = equals x y := by rw [Bool.eq_iff_iff, beq_iff_eq, heq]
    simp [fcmpOf, comparedBy, hx, hy, hb]
  | lt => simp [fcmpOf, comparedBy, hx, hy, hlt]
  | le => simp [fcmpOf, comparedBy, hx, hy, hle]
  | un => simp [fcmpOf, comparedBy]

/-! ### Minimum and maximum (R89) -/

/-- The order of R89: −0 is below +0. -/
def isBelow (u v : FVal) : Bool :=
  decide (u = .inf true) || decide (v = .inf false)
    || (isNum u && isNum v && (decide (ratOf u < ratOf v) || (decide (ratOf u = ratOf v) && fvSign u)))

/-- What the model takes as less is below, in the order of R89, and what it takes as greater is not. -/
theorem isBelow_of_fvLess {x y : FVal} (hx : fvIsNan x = false) (hy : fvIsNan y = false) :
    (fvLess x y = true → isBelow x y = true) ∧ (fvLess y x = true → isBelow x y = false) := by
  cases x with
  | nan s => exact absurd hx (by simp [fvIsNan])
  | inf a =>
    cases y with
    | nan s => exact absurd hy (by simp [fvIsNan])
    | inf b => cases a <;> cases b <;> decide
    | fin b n f => cases a <;> simp [fvLess, fvIsZero, fvCmp, isBelow, isNum]
  | fin a m e =>
    cases y with
    | nan s => exact absurd hy (by simp [fvIsNan])
    | inf b => cases b <;> simp [fvLess, fvIsZero, fvCmp, isBelow, isNum]
    | fin b n f =>
      have h1 := (fvCmp_fin a b m n e f).1
      have h2 := (fvCmp_fin b a n m f e).1
      have zx := ratOf_fin_eq_zero_iff a m e
      have zy := ratOf_fin_eq_zero_iff b n f
      by_cases hz : m = 0 ∧ n = 0
      · obtain ⟨rfl, rfl⟩ := hz
        cases a <;> simp [fvLess, fvIsZero, fvSign, isBelow, isNum, zx.mpr rfl, zy.mpr rfl]
      · have hz' : (fvIsZero (.fin a m e) && fvIsZero (.fin b n f)) = false := by simpa [fvIsZero] using hz
        have hz'' : (fvIsZero (.fin b n f) && fvIsZero (.fin a m e)) = false := by rw [Bool.and_comm]; exact hz'
        simp only [fvLess, hz', hz'', Bool.false_eq_true, if_false, decide_eq_true_eq, h1, h2]
        constructor
        · intro h
          simp [isBelow, isNum, h]
        · intro h
          simp [isBelow, isNum, h.le, h.ne']

/-- Two signed magnitudes of the format that are equal and no zeros have one code. -/
theorem withSign_inj_of_ratOf {n n' : Bool} {c c' : Nat} (hc : c ≤ maxCode t) (hc' : c' ≤ maxCode t) (h0 : c ≠ 0)
    (h : ratOf (fDecode t (withSign t n c)) = ratOf (fDecode t (withSign t n' c'))) : n = n' ∧ c = c' := by
  rw [ratOf_withSign t n hc, ratOf_withSign t n' hc'] at h
  have hpos : 0 < finMag t c := by
    rw [← finMag_zero t]
    exact finMag_strictMono t (Nat.pos_of_ne_zero h0)
  have hn := finMag_nonneg t c'
  have inj : finMag t c = finMag t c' → c = c' := fun e => (finMag_strictMono t).injective e
  cases n <;> cases n' <;> simp only [Bool.false_eq_true, if_false, if_true, one_mul, neg_one_mul, neg_inj] at h
  · exact ⟨rfl, inj h⟩
  · linarith
  · linarith
  · exact ⟨rfl, inj h⟩

theorem fvIsZero_withSign (n : Bool) {c : Nat} (hc : c ≤ maxCode t) : fvIsZero (fDecode t (withSign t n c)) = decide (c = 0) := by
  have hp : 0 < 2 ^ fFrac t := by positivity
  rw [fDecode_withSign t n (hc.trans_lt (maxCode_lt t)), if_pos hc]
  split_ifs with h
  · rfl
  · have h0 : c ≠ 0 := by omega
    simp [fvIsZero, h0]

theorem isNum_of_le (n : Bool) {c : Nat} (hc : c ≤ maxCode t) : isNum (fDecode t (withSign t n c)) = true := by
  rw [isNum_withSign t n (hc.trans_lt (maxCode_lt t)), decide_eq_true hc]

/-- An infinity and a number are never equal in the order of R89. -/
theorem fvLess_inf_fin (n b : Bool) (m : Nat) (e : Int) :
    fvLess (.inf n) (.fin b m e) = n ∧ fvLess (.fin b m e) (.inf n) = !n := by
  cases n <;> simp [fvLess, fvIsZero, fvCmp]

/-- Numbers of which neither is less are equal as rational numbers, and two zeros have one sign. -/
theorem ratOf_eq_of_not_fvLess {x y : FVal} (hx : isNum x = true) (hy : isNum y = true) (h1 : fvLess x y = false)
    (h2 : fvLess y x = false) : if fvIsZero x && fvIsZero y then fvSign x = fvSign y else ratOf x = ratOf y := by
  cases x with
  | nan s | inf s => exact absurd hx (by simp [isNum])
  | fin a m e =>
    cases y with
    | nan s | inf s => exact absurd hy (by simp [isNum])
    | fin b n f =>
      unfold fvLess at h1 h2
      rw [Bool.and_comm (fvIsZero (.fin b n f))] at h2
      split_ifs at h1 h2 ⊢
      · generalize fvSign (.fin a m e) = p at *
        generalize fvSign (.fin b n f) = q at *
        cases p <;> cases q <;> simp_all
      · rw [decide_eq_false_iff_not, (fvCmp_fin ..).1] at h1 h2
        exact le_antisymm (not_lt.mp h2) (not_lt.mp h1)

/-- Codes of which neither is less are the same. -/
theorem eq_of_not_fvLess {k j : Nat} (hk : k < 2 ^ floatBits t) (hj : j < 2 ^ floatBits t)
    (nk : fvIsNan (fDecode t k) = false) (nj : fvIsNan (fDecode t j) = false)
    (h1 : fvLess (fDecode t k) (fDecode t j) = false) (h2 : fvLess (fDecode t j) (fDecode t k) = false) : k = j := by
  cases hx : fDecode t k with
  | nan s => exact absurd nk (by simp [hx, fvIsNan])
  | inf a =>
    cases hy : fDecode t j with
    | nan s => exact absurd nj (by simp [hy, fvIsNan])
    | inf b =>
      rw [hx, hy] at h1 h2
      obtain rfl : a = b := by cases a <;> cases b <;> simp_all [fvLess, fvIsZero, fvCmp]
      rw [(eq_of_fDecode_inf hk hx).2, (eq_of_fDecode_inf hj hy).2]
    | fin b m e =>
      rw [hx, hy, (fvLess_inf_fin a b m e).1] at h1
      rw [hx, hy, (fvLess_inf_fin a b m e).2, h1] at h2
      exact absurd h2 (by decide)
  | fin a m e =>
    cases hy : fDecode t j with
    | nan s => exact absurd nj (by simp [hy, fvIsNan])
    | inf b =>
      rw [hx, hy, (fvLess_inf_fin b a m e).2] at h1
      rw [hx, hy, (fvLess_inf_fin b a m e).1] at h2
      exact absurd h1 (by simp [h2])
    | fin b n f =>
      obtain ⟨c, hc, rfl, -⟩ := eq_of_fDecode_fin hk hx
      obtain ⟨c', hc', rfl, -⟩ := eq_of_fDecode_fin hj hy
      have he := ratOf_eq_of_not_fvLess (isNum_of_le a hc) (isNum_of_le b hc') h1 h2
      rw [fvIsZero_withSign a hc, fvIsZero_withSign b hc', fvSign_withSign t a hc, fvSign_withSign t b hc'] at he
      by_cases h0 : c = 0
      · by_cases h0' : c' = 0
        · simp only [h0, h0', decide_true, Bool.and_true, if_true] at he
          rw [he, h0, h0']
        · have he : ratOf (fDecode t (withSign t a c)) = ratOf (fDecode t (withSign t b c')) := by simpa [h0'] using he
          obtain ⟨rfl, rfl⟩ := withSign_inj_of_ratOf hc' hc h0' he.symm
          rfl
      · have he : ratOf (fDecode t (withSign t a c)) = ratOf (fDecode t (withSign t b c')) := by simpa [h0] using he
        obtain ⟨rfl, rfl⟩ := withSign_inj_of_ratOf hc hc' h0 he
        rfl

theorem minMaxTo_eq_extremeOf (wantMax : Bool) {k j : Nat} (hk : k < 2 ^ floatBits t) (hj : j < 2 ^ floatBits t) :
    minMaxTo t wantMax k j = extremeOf t wantMax k j := by
  have hkm : k % 2 ^ fWidth t = k := Nat.mod_eq_of_lt (floatBits_eq t ▸ hk)
  have hjm : j % 2 ^ fWidth t = j := Nat.mod_eq_of_lt (floatBits_eq t ▸ hj)
  simp only [minMaxTo, extremeOf, hkm, hjm, nanCode_eq]
  refine ite_congr rfl (fun _ => rfl) fun h0 => ite_congr rfl (fun _ => rfl) fun nk => ite_congr rfl (fun _ => rfl) fun nj => ?_
  rw [Bool.not_eq_true] at nk nj
  change _ = (if isBelow (fDecode t k) (fDecode t j) != wantMax then k else j, _)
  obtain ⟨below, above⟩ := isBelow_of_fvLess nk nj
  have same := eq_of_not_fvLess hk hj nk nj
  cases h1 : fvLess (fDecode t k) (fDecode t j) with
  | true =>
    have h2 : fvLess (fDecode t j) (fDecode t k) = false := by
      cases h2 : fvLess (fDecode t j) (fDecode t k) with
      | false => rfl
      | true => simp [below h1] at above; simp_all
    cases wantMax <;> simp [below h1, h2]
  | false =>
    cases h2 : fvLess (fDecode t j) (fDecode t k) with
    | true => cases wantMax <;> simp [above h2]
    | false =>
      rw [same h1 h2]
      cases wantMax <;> simp

/-! ### Signs and classes (R90, R91) -/

theorem two_pow_pred (t : FTy) : 2 ^ (floatBits t - 1) = signBit t := by rw [floatBits_eq, signBit]

/-- The sign bit of a code inverted. -/
theorem xor_signBit {k : Nat} (hk : k < 2 ^ floatBits t) :
    k ^^^ signBit t = if k < signBit t then k + signBit t else k - signBit t := by
  have hw : 2 ^ floatBits t = signBit t + signBit t := by cases t <;> rfl
  have low : ∀ c < signBit t, c ^^^ signBit t = c + signBit t := by
    intro c hc
    apply Nat.eq_of_testBit_eq
    intro i
    rw [Nat.add_comm]
    unfold signBit at *
    generalize fWidth t - 1 = n at *
    rw [Nat.testBit_xor, Nat.testBit_two_pow]
    rcases lt_trichotomy i n with h | h | h
    · rw [Nat.testBit_two_pow_add_gt h]; simp [h.ne']
    · subst h
      rw [Nat.testBit_two_pow_add_eq]
      simp
    · have hi : 2 ^ n + 2 ^ n ≤ 2 ^ i := by rw [← two_mul, ← pow_succ']; exact Nat.pow_le_pow_right two_pos h
      rw [Nat.testBit_lt_two_pow (hc.trans (by omega)), Nat.testBit_lt_two_pow (by omega)]
      simp [h.ne]
  split_ifs with h
  · exact low k h
  · rw [← Nat.sub_add_cancel (not_lt.mp h), ← low (k - signBit t) (by omega), Nat.xor_xor_cancel_right, low _ (by omega),
      Nat.add_sub_cancel]

/-- The class of a code by its value is that by its fields. -/
theorem classOf_eq_classBit (ht : t ≠ .e4m3) {k : Nat} (hk : k < 2 ^ floatBits t) : classOf t k = classBit t k := by
  rw [floatBits_eq] at hk
  obtain ⟨neg, c, hc, rfl⟩ := exists_withSign t hk
  have hp : 0 < 2 ^ fFrac t := by positivity
  have hw : floatBits t - 1 - fFrac t = fExp t := by rw [floatBits_eq, fWidth_eq]; omega
  have hneg : decide (2 ^ (floatBits t - 1) ≤ withSign t neg c) = neg := by
    rw [floatBits_eq, withSign, floatBits_eq]
    cases neg <;> simp [hc]
  have hall := maxCode_lt_iff ht hc
  have hz : c / 2 ^ fFrac t = 0 ↔ c < 2 ^ fFrac t := Nat.div_eq_zero_iff_lt hp
  simp only [classBit, fracBits_eq, hw, hneg, withSign_exponent t neg hc, withSign_fraction t neg hc, ← hall, hz]
  unfold classOf
  rw [fDecode_withSign t neg hc]
  by_cases h : c ≤ maxCode t
  · rw [if_pos h, if_neg (not_lt.mpr h)]
    by_cases hs : c < 2 ^ fFrac t
    · rw [if_pos hs, if_pos hs, Nat.mod_eq_of_lt hs]
      simp [hs]
    · rw [if_neg hs, if_neg hs]
      simp
  · rw [if_neg h, if_pos (not_le.mp h)]
    simp only [ne_eq, ht, not_false_eq_true, true_and, eq_infCode_iff ht (hall.mp (not_le.mp h))]
    by_cases hi : c % 2 ^ fFrac t = 0
    · simp [hi]
    · simp [hi]

theorem copySign_eq {x y : Nat} (hy : y < 2 ^ floatBits t) :
    x % signBit t + y / signBit t % 2 * signBit t = x % signBit t + y / signBit t * signBit t := by
  have hw : 2 ^ floatBits t = 2 * signBit t := by cases t <;> rfl
  rw [Nat.mod_eq_of_lt (Nat.div_lt_of_lt_mul (by rw [mul_comm, ← hw]; exact hy))]

/-! ### Integral values (R90) -/

/-- The integer that the model rounds a magnitude to, inexact where that changes it. -/
theorem toIntMag_eq (rm : Rnd) (n : Bool) (m : Nat) (e : Int) :
    toIntMag rm n m e = (roundUnits rm 0 n (m * 2 ^ e), decide ((roundUnits rm 0 n (m * 2 ^ e) : ℚ) ≠ m * 2 ^ e)) := by
  simp [toIntMag, roundAt_eq]

/-- A number rounded to an integer: the rounded magnitude with the number's sign. -/
theorem roundInt_ratOf (rm : Rnd) (n : Bool) (m : Nat) (e : Int) :
    roundInt rm (ratOf (.fin n m e)) = if n then -((toIntMag rm n m e).1 : Int) else (toIntMag rm n m e).1 := by
  rw [toIntMag_eq, roundInt, abs_ratOf_fin]
  by_cases hm : m = 0
  · have h0 : ∀ s, roundUnits rm 0 s 0 = 0 := fun s => by simpa using roundUnits_natCast rm 0 s 0
    simp [hm, h0]
  · have hneg : decide (ratOf (.fin n m e) < 0) = n := by
      rw [Bool.eq_iff_iff, decide_eq_true_iff, ratOf_fin_neg_iff hm]
    simp only [hneg]
    simp only [ratOf_fin_neg_iff hm]

theorem ratOf_intCast (n : Bool) (k : Nat) : ratOf (.fin n k 0) = ((if n then -(k : Int) else k : Int) : ℚ) := by
  cases n <;> simp [ratOf_fin]

theorem frndTo_eq_integralOf (rm : Rnd) {k : Nat} (hk : k < 2 ^ floatBits t) : frndTo t rm k = integralOf t rm k := by
  unfold frndTo integralOf
  cases hv : fDecode t k with
  | nan s => simp [fvIsNan, fvIsSnan, nanCode_eq]
  | inf n =>
    obtain ⟨ht, rfl⟩ := eq_of_fDecode_inf hk hv
    simp [fvIsNan, isNum, ← infOf_eq, infOf, ht]
  | fin n m e =>
    simp only [fvIsNan, isNum, roundInt_ratOf, fvSign, withSign_eq]
    generalize (toIntMag rm n m e).1 = j
    have hj : (if n then -(j : Int) else j) = 0 ↔ j = 0 := by cases n <;> simp
    by_cases h0 : j = 0
    · simp [h0]
    · simp [hj, h0, roundRne, roundTo_eq_roundRat, ratOf_intCast]

/-! ### Scaling by a power of two (R91) -/

/-- A number far above the largest finite one is rounded to an infinity. -/
theorem roundRat_of_huge {x : ℚ} (h : 2 ^ (fTopQ t + fFrac t + 1) ≤ |x|) :
    roundRat t .rne 0 x = (fInf t (decide (x < 0)), fOF ||| fIX) := by
  have hpos : 0 < |x| := (two_zpow_pos _).trans_le h
  have hlog : fTopQ t + fFrac t + 1 ≤ Int.log 2 |x| := (Int.zpow_le_iff_le_log one_lt_two hpos).mp (by exact_mod_cast h)
  have hq : fTopQ t < unitExp t |x| := lt_of_lt_of_le (by omega) (le_max_left ..)
  have hover : maxFinite t < roundedMag t .rne 0 (decide (x < 0)) |x| := by
    have hl := le_unitsOf (rm := .rne) (thr := 0) (neg := decide (x < 0)) hpos ((fQmin_le_fTopQ t).trans_lt hq)
    calc maxFinite t = fTopSig t * 2 ^ fTopQ t := maxFinite_eq t
      _ < (2 ^ fFrac t * 2 : Nat) * 2 ^ fTopQ t := by
        rw [← pow_succ]
        exact mul_lt_mul_of_pos_right (by exact_mod_cast fTopSig_lt t) (two_zpow_pos _)
      _ = (2 ^ fFrac t : Nat) * 2 ^ (fTopQ t + 1) := by rw [zpow_add_one₀ two_ne_zero]; push_cast; ring
      _ ≤ _ := by
        rw [roundedMag]
        gcongr
        · exact one_le_two
        · omega
  simp [roundRat_eq, hover, overToInf]

/-- A number other than 0 that is below half the smallest subnormal number is rounded to a zero. -/
theorem roundRat_of_minute {x : ℚ} (h0 : x ≠ 0) (h : |x| < 2 ^ (fQmin t - 1)) :
    roundRat t .rne 0 x = (withSign t (decide (x < 0)) 0, fUF ||| fIX) := by
  have hpos : 0 < |x| := abs_pos.mpr h0
  have hlog : Int.log 2 |x| < fQmin t - 1 := (Int.lt_zpow_iff_log_lt one_lt_two hpos).mp (by exact_mod_cast h)
  have hq : unitExp t |x| = fQmin t := max_eq_right (by omega)
  have hk : |x| / 2 ^ fQmin t < 1 / 2 := by
    rw [div_lt_iff₀ (two_zpow_pos _), one_div, ← zpow_neg_one, ← zpow_add₀ two_ne_zero, neg_add_eq_sub]
    exact h
  have hk0 : 0 ≤ |x| / 2 ^ fQmin t := div_nonneg hpos.le (two_zpow_pos _).le
  have hn : unitsOf t .rne 0 (decide (x < 0)) |x| = 0 := by
    have hfl : ⌊|x| / 2 ^ fQmin t⌋₊ = 0 := Nat.floor_eq_zero.mpr (hk.trans (by norm_num))
    have hr := roundUnits_rne 0 (decide (x < 0)) (|x| / 2 ^ fQmin t)
    rw [hfl, Nat.cast_zero, sub_zero, if_neg (by rintro (h | ⟨h, -⟩) <;> linarith)] at hr
    rw [unitsOf, hq, hr]
  have htiny : isTiny t .rne 0 (decide (x < 0)) |x| = true := by
    rw [← tiny_iff t .rne 0 _ hpos]
    have h1 : Int.log 2 |x| - (fFrac t : Int) < fQmin t := by omega
    have h2 : ¬ Int.log 2 |x| - (fFrac t : Int) = fQmin t - 1 := by omega
    simp [h1, h2]
  have hmax : ¬ maxFinite t < 0 := by
    rw [← finMag_maxCode]
    exact not_lt.mpr (finMag_nonneg t _)
  simp [roundRat_eq, roundedMag, hn, hq, htiny, hmax, hpos.ne, flagIf]

theorem abs_mul_two_zpow (x : ℚ) (n : Int) : |x * 2 ^ n| = |x| * 2 ^ n := by
  rw [abs_mul, abs_of_pos (two_zpow_pos n)]

theorem mul_two_zpow_neg_iff (x : ℚ) (n : Int) : decide (x * 2 ^ n < 0) = decide (x < 0) := by
  rw [decide_eq_decide, mul_neg_iff]
  simp [two_zpow_pos n, (two_zpow_pos n).le]

/-- The magnitudes of the format other than 0 lie between its least one and a power of two. -/
theorem finMag_bounds {c : Nat} (hc : c ≤ maxCode t) (h0 : c ≠ 0) :
    (2 : ℚ) ^ fQmin t ≤ finMag t c ∧ finMag t c < 2 ^ (fTopQ t + fFrac t + 1) := by
  constructor
  · have h1 : finMag t 1 = 2 ^ fQmin t := by
      have := finMag_units t (i := 0) (n := 1) Nat.one_le_two_pow (by simp)
      simpa using this
    rw [← h1]
    exact (finMag_strictMono t).monotone (Nat.pos_of_ne_zero h0)
  · calc finMag t c ≤ maxFinite t := (finMag_le_maxFinite_iff t c).mpr hc
      _ = fTopSig t * 2 ^ fTopQ t := maxFinite_eq t
      _ < (2 ^ (fFrac t + 1) : Nat) * 2 ^ fTopQ t :=
        mul_lt_mul_of_pos_right (by exact_mod_cast fTopSig_lt t) (two_zpow_pos _)
      _ = 2 ^ (fTopQ t + fFrac t + 1) := by
        rw [add_assoc, show (fFrac t : Int) + 1 = (fFrac t + 1 : Nat) by push_cast; rfl, ← two_zpow_add_nat, zpow_natCast]
        push_cast
        rfl

/-- Every format ends long before 2^20000 and 2^−20000 times its magnitudes. -/
theorem format_range (t : FTy) : fTopQ t + fFrac t + 1 ≤ fQmin t + 20000 ∧ fTopQ t + fFrac t + 1 - 20000 ≤ fQmin t - 1 := by
  cases t <;> decide

/-- A number of the format times 2^n is rounded as it is where n is taken to be at most 20000 and at least −20000. -/
theorem roundRat_clamp {x : ℚ} {c : Nat} (hc : c ≤ maxCode t) (h0 : c ≠ 0) (hx : |x| = finMag t c) (n : Int) :
    roundRat t .rne 0 (x * 2 ^ max (-20000) (min 20000 n)) = roundRat t .rne 0 (x * 2 ^ n) := by
  obtain ⟨lo, hi⟩ := finMag_bounds hc h0
  obtain ⟨top, bot⟩ := format_range t
  have hne : x ≠ 0 := by
    rw [← abs_pos, hx]
    exact (two_zpow_pos _).trans_le lo
  have large : ∀ j : Int, 20000 ≤ j → roundRat t .rne 0 (x * 2 ^ j) = (fInf t (decide (x < 0)), fOF ||| fIX) := by
    intro j hj
    rw [roundRat_of_huge, mul_two_zpow_neg_iff]
    rw [abs_mul_two_zpow, hx]
    calc (2 : ℚ) ^ (fTopQ t + fFrac t + 1) ≤ 2 ^ (fQmin t + j) := two_zpow_le (by omega)
      _ = 2 ^ fQmin t * 2 ^ j := zpow_add₀ two_ne_zero ..
      _ ≤ _ := mul_le_mul_of_nonneg_right lo (two_zpow_pos j).le
  have small : ∀ j : Int, j ≤ -20000 → roundRat t .rne 0 (x * 2 ^ j) = (withSign t (decide (x < 0)) 0, fUF ||| fIX) := by
    intro j hj
    rw [roundRat_of_minute (mul_ne_zero hne (two_zpow_pos j).ne'), mul_two_zpow_neg_iff]
    rw [abs_mul_two_zpow, hx]
    calc finMag t c * 2 ^ j < 2 ^ (fTopQ t + fFrac t + 1) * 2 ^ j := mul_lt_mul_of_pos_right hi (two_zpow_pos j)
      _ = 2 ^ (fTopQ t + fFrac t + 1 + j) := (zpow_add₀ two_ne_zero ..).symm
      _ ≤ _ := two_zpow_le (by omega)
  rcases le_or_gt 20000 n with h | h
  · rw [large n h, large _ (by omega)]
  · rcases le_or_gt n (-20000) with h' | h'
    · rw [small n h', small _ (by omega)]
    · rw [min_eq_right h.le, max_eq_right h'.le]

theorem scalbTo_eq_scaledOf {k : Nat} (hk : k < 2 ^ floatBits t) (n : Int) : scalbTo t k n = scaledOf t k n := by
  unfold scalbTo scaledOf
  cases hv : fDecode t k with
  | nan s => simp [fvIsNan, fvIsSnan, nanCode_eq]
  | inf n =>
    obtain ⟨ht, rfl⟩ := eq_of_fDecode_inf hk hv
    simp [fvIsNan, isNum, ← infOf_eq, infOf, ht]
  | fin neg m e =>
    obtain ⟨c, hc, rfl, hmag⟩ := eq_of_fDecode_fin hk hv
    have hz : m = 0 ↔ c = 0 := by
      rw [← (finMag_strictMono t).injective.eq_iff (a := c), finMag_zero, hmag]
      simp [(two_zpow_pos e).ne']
    by_cases hm : m = 0
    · simp [fvIsNan, isNum, fvIsZero, roundRne, roundTo, hm, hz.mp hm, withSign_eq]
    · have hscale : ratOf (.fin neg m (e + max (-20000) (min 20000 n))) = ratOf (.fin neg m e) * 2 ^ max (-20000) (min 20000 n) := by
        rw [ratOf_fin, ratOf_fin, zpow_add₀ two_ne_zero, mul_assoc, mul_assoc, mul_assoc]
      have hround := roundRat_clamp hc (mt hz.mpr hm) ((abs_ratOf_fin neg m e).trans hmag.symm) n
      simp [fvIsNan, isNum, fvIsZero, roundRne, roundTo_eq_roundRat, hm, hscale, hround]

/-! ### The words -/

theorem intOf_eq {y : Nat} (hy : y < 2 ^ floatBits t) :
    intOf (fWidth t) true y = if y < 2 ^ (floatBits t - 1) then (y : Int) else (y : Int) - 2 ^ floatBits t := by
  rw [intOf, ← floatBits_eq, Nat.mod_eq_of_lt hy]
  by_cases h : y < 2 ^ (floatBits t - 1)
  · simp [h, not_le.mpr h]
  · simp [h, not_lt.mp h]

/-- FCMP gathers one bit of each comparison. -/
theorem execFcmp_eq (h : Hd) (c : FCmp) (t : FTy) (d a b : Opnd) (s : State) :
    execFcmp h c t d a b s = regWord s h (fltWord t d a b) fun _ x y _ => gatherN 1 (64 / floatBits t) fun k =>
      let r := comparedBy c (fDecode t (sub (floatBits t) x k)) (fDecode t (sub (floatBits t) y k))
      (if r.1 then 1 else 0, r.2) := by
  simp only [execFcmp, fcmpOf_eq_comparedBy, ← gather_map_range, gather, List.map_map, List.foldl_map, fLanes, floatBits_eq]
  rfl

/-- FSCALB of the model as a word of the claims. -/
theorem ofReg_fscalb (h : Hd) (t : FTy) (d a b : Opnd) :
    ofReg h { fltWord t d a b with b := (b, .int (fWidth t)) } (fltEls t fun _ x y _ => scalbTo t x (intOf (fWidth t) true y))
      = { fltCalc h t d a b (fun x y _ => scaledOf t x (if y < signBit t then (y : Int) else (y : Int) - 2 ^ floatBits t)) with
          b := (b, .int (floatBits t)) } := by
  have e := ofReg_fltWord h t d a b (f := fun x y _ => scalbTo t x (intOf (fWidth t) true y))
    (f' := fun x y _ => scaledOf t x (if y < signBit t then (y : Int) else (y : Int) - 2 ^ floatBits t))
    fun x y w hx hy _ => by rw [intOf_eq hy, two_pow_pred, scalbTo_eq_scaledOf hx]
  rw [floatBits_eq]
  rw [floatBits_eq] at e
  exact congrArg (fun c : Calc => { c with b := (b, .int (fWidth t)) }) e

/-- Settles O22: each f of the model agrees with that of its rule on the codes of the type. -/
theorem floatOtherWords : Obligations.FloatOtherWords := by
  refine ⟨fun h t d a b ht => ?_, fun h c t d a b => ?_⟩
  · have ht : t ≠ .e4m3 := by rintro rfl; simp at ht
    simp only [two_pow_pred]
    refine ⟨computes_flt2 (fun _ => rfl) fun _ _ _ => minMaxTo_eq_extremeOf false,
      computes_flt2 (fun _ => rfl) fun _ _ _ => minMaxTo_eq_extremeOf true,
      computes_flt1 (fun _ => rfl) fun _ _ => rfl,
      computes_flt1 (fun _ => rfl) fun _ hx => by rw [xor_signBit hx],
      computes_flt2 (fun _ => rfl) fun _ _ _ _ hy => by rw [copySign_eq hy],
      computes_flt1 (fun _ => rfl) fun _ hx => by rw [classOf_eq_classBit ht hx],
      fun rm _ => computes_flt1 (fun _ => rfl) fun _ => frndTo_eq_integralOf rm, ?_⟩
    exact computes_of_eq (fun _ => rfl) rfl (ofReg_fscalb h t d a b)
  · refine computes_of_eq (execFcmp_eq h c t d a b) rfl ?_
    rw [ofReg, fltCalc, fltWord, fLat_eq]

end Sys2Proof.Proofs.OtherFloats
end

section
/-! PROOFS. CVT (R93, R94): each element of the model is the conversion of the rules, and as many are gathered as both types have. -/

namespace Sys2Proof.Proofs.Conversions

open Machine Claims Laws Rounding Formats Floats OtherFloats

/-! ### Between float types -/

/-- A rounding is marked as an overflow exactly where the model's is. -/
theorem roundFlags_and_fOF (a b : Bool) : (flagIf a fUF ||| flagIf b fIX) &&& fOF = 0 := by cases a <;> cases b <;> rfl

theorem fMax_ne_fNan (n : Bool) : fMax .e4m3 n ≠ fNan .e4m3 := by cases n <;> decide

theorem cvtFF_eq_convFloat (dst src : FTy) (rm : Rnd) (sat : Bool) (thr k : Nat) :
    cvtFF dst src rm sat thr k = convFloat dst src rm sat thr k := by
  unfold cvtFF convFloat
  cases hv : fDecode src k with
  | nan s => simp [fvIsNan, fvIsSnan, nanCode_eq]
  | inf n => simp [fvIsNan, isNum, fvSign, nanCode_eq, infOf_eq, withSign_maxCode]
  | fin n m e =>
    by_cases hm : m = 0
    · simp [fvIsNan, isNum, fvIsZero, fvSign, hm, withSign_eq]
    · simp only [fvIsNan, isNum, fvIsZero, fvSign, hm, ← roundTo_eq_roundRat dst rm thr n e hm, roundTo, withSign_maxCode,
        if_false, Bool.false_eq_true, Bool.not_true, beq_iff_eq]
      generalize (if (decide (rm = .dr) && aboveMax dst m e) = true then Rnd.rne else rm) = mode
      cases ho : overMax dst (roundMag dst mode thr n m e) with
      | false => simp only [Bool.false_eq_true, if_false, roundFlags_and_fOF, if_true]
      | true =>
        have hof : ¬ (fOF ||| fIX) &&& fOF = 0#5 := by decide
        by_cases hd : dst = .e4m3
        · subst hd
          have hinf : fInf .e4m3 n = nanCode .e4m3 := rfl
          cases overToInf mode n <;> simp [hof, hinf, fMax_ne_fNan, nanCode_eq]
        · simp [hof, hd]

/-! ### Between floats and integers -/

theorem iWidth_eq (t : ITy) : iWidth t = intSize t := by cases t <;> rfl

theorem iMin_eq (t : ITy) : iMin t = (intRange t).1 := by cases t <;> rfl

theorem iMax_eq (t : ITy) : iMax t = (intRange t).2 := by cases t <;> rfl

theorem intBits_eq (w : Nat) (x : Int) : intBits w x = (x % 2 ^ w).toNat := by simp [intBits]

theorem cvtFI_eq_convToInt (src : FTy) (dst : ITy) (rm : Rnd) (k : Nat) : cvtFI src dst rm k = convToInt src dst rm k := by
  unfold cvtFI convToInt
  cases hv : fDecode src k with
  | nan s => simp [fvIsNan]
  | inf n => cases n <;> simp [fvIsNan, isNum, fvSign, intBits_eq, iWidth_eq, iMin_eq, iMax_eq]
  | fin n m e =>
    have hix : (toIntMag rm n m e).2 = decide (((if n then -((toIntMag rm n m e).1 : Int) else (toIntMag rm n m e).1 : Int) : ℚ)
        ≠ ratOf (.fin n m e)) := by
      rw [toIntMag_eq, decide_eq_decide, ratOf_fin]
      cases n <;> simp [neg_inj]
    simp only [fvIsNan, isNum, roundInt_ratOf, ← hix, intBits_eq, iWidth_eq, iMin_eq, iMax_eq]
    rfl

theorem intOf_eq_ite (t : ITy) {n : Nat} (hn : n < 2 ^ intSize t) :
    intOf (iWidth t) (iSigned t) n
      = if (intRange t).1 < 0 ∧ 2 ^ (intSize t - 1) ≤ n then (n : Int) - 2 ^ intSize t else (n : Int) := by
  have hs : iSigned t = decide ((intRange t).1 < 0) := by cases t <;> rfl
  rw [intOf, iWidth_eq, Nat.mod_eq_of_lt hn, hs]
  simp

theorem cvtIF_eq_convFromInt (src : ITy) (dst : FTy) (rm : Rnd) {n : Nat} (hn : n < 2 ^ intSize src) :
    cvtIF src dst rm n = convFromInt src dst rm n := by
  unfold cvtIF convFromInt
  rw [intOf_eq_ite src hn]
  refine ite_congr rfl (fun _ => rfl) fun h0 => ?_
  rw [roundTo_natAbs dst rm h0, zpow_zero, mul_one]

/-! ### The words -/

/-- CVT between float types, element by element. -/
theorem execCvtFloatFloat_eq (h : Hd) (dst src : FTy) (rm : Rnd) (sat : Bool) (d a : Opnd) (s : State) :
    execCvtFloatFloat h dst src rm sat d a s =
      (let n := Nat.min (64 / floatBits src) (64 / floatBits dst)
      regWord s h { fltWord src d a .z with lat := fLat (src == .f64 || dst == .f64) } fun t x _ _ =>
        gatherN (floatBits dst) n fun k =>
          convFloat dst src rm sat (2 * ditherD.getD ((n * t + k) % 64) 0 + 1) (sub (floatBits src) x k)) := by
  simp only [execCvtFloatFloat, gather_map_range, cvtFF_eq_convFloat, ditherThr, add_zero, Nat.mod_mod, fLanes, floatBits_eq]
  rfl

/-- CVT from float to integer, element by element. -/
theorem execCvtToInteger_eq (h : Hd) (it : ITy) (ft : FTy) (rm : Rnd) (d a : Opnd) (s : State) :
    execCvtIntegerFloat h it ft true rm d a s = regWord s h (fltWord ft d a .z) fun _ x _ _ =>
      gatherN (intSize it) (Nat.min (64 / floatBits ft) (64 / intSize it)) fun k =>
        convToInt ft it rm (sub (floatBits ft) x k) := by
  simp only [execCvtIntegerFloat, if_true, gather_map_range, cvtFI_eq_convToInt, fLanes, floatBits_eq, iWidth_eq]
  rfl

/-- CVT from integer to float, element by element. -/
theorem execCvtFromInteger_eq (h : Hd) (it : ITy) (ft : FTy) (rm : Rnd) (d a : Opnd) (s : State) :
    execCvtIntegerFloat h it ft false rm d a s =
      regWord s h { fltWord ft d a .z with a := (a, .int (intSize it)) } fun _ x _ _ =>
        gatherN (floatBits ft) (Nat.min (64 / floatBits ft) (64 / intSize it)) fun k =>
          convFromInt it ft rm (sub (intSize it) x k) := by
  have conv : ∀ (x : Word) (k : Nat), cvtIF it ft rm (subEl (intSize it) x k) = convFromInt it ft rm (sub (intSize it) x k) :=
    fun x k => cvtIF_eq_convFromInt it ft rm (sub_lt ..)
  simp only [execCvtIntegerFloat, Bool.false_eq_true, if_false, gather_map_range, conv, fLanes, floatBits_eq, iWidth_eq]

/-- Settles O23: each element is converted as R94 says, and as many are gathered as both types have. -/
theorem conversionWords : Obligations.ConversionWords := by
  intro h rm d a
  refine ⟨fun dst src sat => computes_of_eq (execCvtFloatFloat_eq h dst src rm sat d a) rfl ?_,
    fun _ it ft => ⟨computes_of_eq (execCvtToInteger_eq h it ft rm d a) rfl ?_,
      computes_of_eq (execCvtFromInteger_eq h it ft rm d a) rfl ?_⟩⟩
  · have hlat : fLat (src == .f64 || dst == .f64) = some (if src = .f64 ∨ dst = .f64 then 8 else 6) := by
      cases src <;> cases dst <;> rfl
    rw [hlat]
    rfl
  · rw [ofReg, fltCalc1, fltCalc, fltWord, fLat_eq]
  · rw [ofReg, fltCalc1, fltCalc, fltWord, fLat_eq]

end Sys2Proof.Proofs.Conversions
end

section
/-! PROOFS. A quotient with a sticky last bit (R79): numbers between the same two neighbours of a grid that is fine enough are
rounded alike. -/

namespace Sys2Proof.Proofs.Sticky

open Machine Claims Rounding Formats

/-- Magnitudes between the same two 128ths of a unit are rounded alike, in every mode and under every threshold. -/
theorem roundUnits_congr (rm : Rnd) (thr : Nat) (neg : Bool) {k k' : ℚ} {n : Nat} (h : (n : ℚ) < 128 * k) (h' : 128 * k < n + 1)
    (g : (n : ℚ) < 128 * k') (g' : 128 * k' < n + 1) : roundUnits rm thr neg k = roundUnits rm thr neg k' := by
  -- every comparison that the modes make is with a number of 128ths
  have cmp : ∀ j : Nat, ∀ x : ℚ, (n : ℚ) < 128 * x → 128 * x < n + 1 → (((j : ℚ) < 128 * x ↔ j ≤ n) ∧ (j : ℚ) ≠ 128 * x) := by
    intro j x h1 h2
    constructor
    · constructor
      · intro hj
        have : (j : ℚ) < n + 1 := hj.trans h2
        exact Nat.lt_succ_iff.mp (by exact_mod_cast this)
      · intro hj
        exact lt_of_le_of_lt (by exact_mod_cast hj) h1
    · intro hj
      rw [← hj] at h1 h2
      have h3 : n < j := by exact_mod_cast h1
      have h4 : j < n + 1 := by exact_mod_cast h2
      omega
  have floor : ∀ x : ℚ, (n : ℚ) < 128 * x → 128 * x < n + 1 → ⌊x⌋₊ = n / 128 := by
    intro x h1 h2
    have hx : 0 ≤ x := by
      have := Nat.cast_nonneg (α := ℚ) n
      linarith
    refine (Nat.floor_eq_iff hx).mpr ⟨?_, ?_⟩
    · have := (cmp (128 * (n / 128)) x h1 h2).1.mpr (Nat.mul_div_le n 128)
      push_cast at this
      linarith
    · have hn : n < 128 * (n / 128 + 1) := by omega
      have := mt (cmp (128 * (n / 128 + 1)) x h1 h2).1.mp (not_le.mpr hn)
      have hne := (cmp (128 * (n / 128 + 1)) x h1 h2).2
      push_cast at this hne
      have := lt_of_le_of_ne (not_lt.mp this) hne.symm
      linarith
  have part : ∀ (j : Nat) (x : ℚ), (n : ℚ) < 128 * x → 128 * x < n + 1 →
      (((j : ℚ) / 128 < x - (n / 128 : Nat) ↔ j + 128 * (n / 128) ≤ n) ∧ x - (n / 128 : Nat) ≠ j / 128) := by
    intro j x h1 h2
    obtain ⟨c1, c2⟩ := cmp (j + 128 * (n / 128)) x h1 h2
    push_cast at c1 c2
    constructor
    · rw [← c1]
      constructor <;> intro hj <;> linarith
    · intro hj
      exact c2 (by linarith)
  have e1 := part 64 k h h'
  have e2 := part 64 k' g g'
  have z1 := (part 0 k h h').1
  have z2 := (part 0 k' g g').1
  have t1 := (part thr k h h').1
  have t2 := (part thr k' g g').1
  norm_num at e1 e2 z1 z2
  simp only [roundUnits, Int.floor_toNat, floor k h h', floor k' g g']
  cases rm <;> simp only [e1, e2, sub_pos, z1, z2, t1, t2]

/-- x lies strictly between the n-th multiple of 2^g and the next one. -/
def Between (n : Nat) (g : Int) (x : ℚ) : Prop := n * 2 ^ g < x ∧ x < (n + 1) * 2 ^ g

/-- Between two neighbours of a finer grid, every multiple of a coarser unit is on the same side. -/
theorem between_coarser {n : Nat} {g : Int} {x : ℚ} (h : Between n g x) {q : Int} (hq : g ≤ q) :
    Between (n / 2 ^ (q - g).toNat) q x := by
  obtain ⟨h1, h2⟩ := h
  have hp := two_zpow_pos g
  have hq' : (2 : ℚ) ^ q = (2 ^ (q - g).toNat : Nat) * 2 ^ g := by
    rw [← two_zpow_toNat (by omega), ← zpow_add₀ two_ne_zero, sub_add_cancel]
  generalize 2 ^ (q - g).toNat = u at hq'
  have hu : 0 < u := by
    rcases Nat.eq_zero_or_pos u with h0 | h0
    · rw [h0, Nat.cast_zero, zero_mul] at hq'
      exact absurd hq' (two_zpow_pos q).ne'
    · exact h0
  have lo : n / u * u ≤ n := Nat.div_mul_le_self n u
  have hi : n + 1 ≤ (n / u + 1) * u := by
    have := Nat.lt_mul_div_succ n hu
    rw [mul_comm] at this
    exact this
  rw [Between, hq', ← mul_assoc, ← mul_assoc]
  refine ⟨lt_of_le_of_lt ?_ h1, lt_of_lt_of_le h2 ?_⟩
  · exact mul_le_mul_of_nonneg_right (by exact_mod_cast lo) hp.le
  · exact mul_le_mul_of_nonneg_right (by exact_mod_cast hi) hp.le

theorem Between.pos {n : Nat} {g : Int} {x : ℚ} (h : Between n g x) : 0 < x :=
  lt_of_le_of_lt (mul_nonneg (Nat.cast_nonneg n) (two_zpow_pos g).le) h.1

theorem Between.lt_nat_iff {n : Nat} {g : Int} {x : ℚ} (h : Between n g x) (j : Nat) : (j : ℚ) * 2 ^ g < x ↔ j ≤ n := by
  have hp := two_zpow_pos g
  constructor
  · intro hj
    have := hj.trans h.2
    rw [mul_lt_mul_iff_left₀ hp] at this
    exact Nat.lt_succ_iff.mp (by exact_mod_cast this)
  · intro hj
    refine lt_of_le_of_lt ?_ h.1
    gcongr

/-- The binade of a number between two neighbours is that of the lower one. -/
theorem Between.log {n : Nat} {g : Int} {x : ℚ} (h : Between n g x) (hn : n ≠ 0) : Int.log 2 x = g + Nat.log2 n := by
  have hl : (2 : ℚ) ^ (g + (Nat.log2 n : Nat)) = (2 ^ Nat.log2 n : Nat) * 2 ^ g := by
    rw [← two_zpow_add_nat, zpow_natCast]
    push_cast
    rfl
  have hs : (2 : ℚ) ^ (g + (Nat.log2 n : Nat) + 1) = (2 ^ (Nat.log2 n + 1) : Nat) * 2 ^ g := by
    rw [add_assoc, show ((Nat.log2 n : Nat) : Int) + 1 = (Nat.log2 n + 1 : Nat) by push_cast; rfl, ← two_zpow_add_nat, zpow_natCast]
    push_cast
    rfl
  have h1 : (2 : Nat) ^ (g + (Nat.log2 n : Nat)) ≤ x := by
    rw [Nat.cast_ofNat, hl]
    exact ((h.lt_nat_iff _).mpr (Nat.log2_self_le hn)).le
  have h2 : x < (2 : Nat) ^ (g + (Nat.log2 n : Nat) + 1) := by
    rw [Nat.cast_ofNat, hs]
    refine h.2.trans_le (mul_le_mul_of_nonneg_right ?_ (two_zpow_pos g).le)
    exact_mod_cast (Nat.lt_log2_self (n := n))
  have := (Int.zpow_le_iff_le_log one_lt_two h.pos).mp h1
  have := (Int.lt_zpow_iff_log_lt one_lt_two h.pos).mp h2
  omega

/-- A unit of the last place has 128ths on the grid, where the lower neighbour has enough bits. -/
theorem le_unitExp_of_between {t : FTy} {n : Nat} {g : Int} {x : ℚ} (h : Between n g x) (hn : 2 ^ (fFrac t + 7) ≤ n) {q : Int}
    (hq : Int.log 2 x - fFrac t ≤ q) : g ≤ q - 7 := by
  have hn0 : n ≠ 0 := by
    have : 0 < 2 ^ (fFrac t + 7) := by positivity
    omega
  have := (Nat.le_log2 hn0).mpr hn
  rw [h.log hn0] at hq
  omega

theorem roundUnits_of_between (t : FTy) (rm : Rnd) (thr : Nat) (neg : Bool) {n : Nat} {g : Int} {x x' : ℚ}
    (h : Between n g x) (h' : Between n g x') (hn : 2 ^ (fFrac t + 7) ≤ n) {q : Int} (hq : Int.log 2 x - fFrac t ≤ q) :
    roundUnits rm thr neg (x / 2 ^ q) = roundUnits rm thr neg (x' / 2 ^ q) ∧ ∀ j : Nat, (j : ℚ) * 2 ^ q ≠ x := by
  have hg := le_unitExp_of_between h hn hq
  have h7 : (2 : ℚ) ^ q = 128 * 2 ^ (q - 7) := by
    rw [show (128 : ℚ) = 2 ^ (7 : Int) by norm_num, ← zpow_add₀ two_ne_zero]
    congr 1
    ring
  have hp := two_zpow_pos (q - 7)
  have units : ∀ y, Between n g y → ((n / 2 ^ (q - 7 - g).toNat : Nat) : ℚ) < 128 * (y / 2 ^ q)
      ∧ 128 * (y / 2 ^ q) < (n / 2 ^ (q - 7 - g).toNat : Nat) + 1 := by
    intro y hy
    obtain ⟨b1, b2⟩ := between_coarser hy hg
    have e : 128 * (y / 2 ^ q) = y / 2 ^ (q - 7) := by rw [h7]; field_simp
    rw [e, lt_div_iff₀ hp, div_lt_iff₀ hp]
    exact ⟨b1, b2⟩
  refine ⟨roundUnits_congr rm thr neg (units x h).1 (units x h).2 (units x' h').1 (units x' h').2, fun j hj => ?_⟩
  have b := between_coarser h (q := q) (by omega)
  have h1 := (b.lt_nat_iff j).not.mp (not_lt.mpr hj.ge)
  have h2 := b.2
  rw [← hj, mul_lt_mul_iff_left₀ (two_zpow_pos q)] at h2
  have : j < n / 2 ^ (q - g).toNat + 1 := by exact_mod_cast h2
  omega

theorem maxFinite_lt_iff_of_between (t : FTy) {n : Nat} {g : Int} {x x' : ℚ} (h : Between n g x) (h' : Between n g x')
    (hn : 2 ^ (fFrac t + 7) ≤ n) : maxFinite t < x ↔ maxFinite t < x' := by
  rw [maxFinite_eq]
  rcases le_or_gt g (fTopQ t) with hg | hg
  · have e : (fTopSig t : ℚ) * 2 ^ fTopQ t = (fTopSig t * 2 ^ (fTopQ t - g).toNat : Nat) * 2 ^ g := by
      rw [Nat.cast_mul, mul_assoc, ← two_zpow_toNat (by omega), ← zpow_add₀ two_ne_zero, sub_add_cancel]
    rw [e, h.lt_nat_iff, h'.lt_nat_iff]
  · have large : ∀ y, Between n g y → (fTopSig t : ℚ) * 2 ^ fTopQ t < y := by
      intro y hy
      have hs : fTopSig t ≤ n := by
        have := fTopSig_lt t
        have : 2 ^ (fFrac t + 1) ≤ 2 ^ (fFrac t + 7) := Nat.pow_le_pow_right two_pos (by omega)
        omega
      calc (fTopSig t : ℚ) * 2 ^ fTopQ t ≤ n * 2 ^ g := by
            gcongr
            · exact one_le_two
        _ < y := hy.1
    exact iff_of_true (large x h) (large x' h')

/-- Numbers of one sign whose magnitudes lie between the same two neighbours of a grid with 7 bits more than the format are
rounded to one code with the same flags. -/
theorem roundRat_of_between (t : FTy) (rm : Rnd) (thr : Nat) {n : Nat} {g : Int} {x x' : ℚ} (hs : x < 0 ↔ x' < 0)
    (h : Between n g |x|) (h' : Between n g |x'|) (hn : 2 ^ (fFrac t + 7) ≤ n) : roundRat t rm thr x = roundRat t rm thr x' := by
  have hn0 : n ≠ 0 := by
    have : 0 < 2 ^ (fFrac t + 7) := by positivity
    omega
  have hlog : Int.log 2 |x| = Int.log 2 |x'| := by rw [h.log hn0, h'.log hn0]
  have hu : unitExp t |x| = unitExp t |x'| := by rw [unitExp, hlog, unitExp]
  have hmax := maxFinite_lt_iff_of_between t h h' hn
  have units : ∀ (m : Rnd) (s : Bool), unitsOf t m thr s |x| = unitsOf t m thr s |x'| := fun m s => by
    rw [unitsOf, unitsOf, ← hu]
    exact (roundUnits_of_between t m thr s h h' hn (le_max_left ..)).1
  have mag : ∀ (m : Rnd) (s : Bool), roundedMag t m thr s |x| = roundedMag t m thr s |x'| := fun m s => by
    rw [roundedMag, roundedMag, units, hu]
  have tiny : ∀ (m : Rnd) (s : Bool), isTiny t m thr s |x| = isTiny t m thr s |x'| := fun m s => by
    rw [isTiny, isTiny, ← hlog, (roundUnits_of_between t m thr s h h' hn le_rfl).1]
  have inexact : ∀ (m : Rnd) (s : Bool), roundedMag t m thr s |x'| ≠ |x| ∧ roundedMag t m thr s |x'| ≠ |x'| := fun m s =>
    ⟨mag m s ▸ (roundUnits_of_between t m thr s h h' hn (le_max_left ..)).2 _, (roundUnits_of_between t m thr s h' h hn (le_max_left ..)).2 _⟩
  rw [roundRat_eq, roundRat_eq]
  simp only [hs, hmax, units, hu, tiny, (inexact _ _).1, (inexact _ _).2, ne_eq, not_false_eq_true, mag]

/-! ### Quotients -/

theorem bitLen_spec {n : Nat} : n < 2 ^ bitLen n := by
  unfold bitLen
  split_ifs with h
  · simp [h]
  · exact Nat.lt_log2_self

theorem two_pow_le_quotient (bits : Nat) {m n : Nat} (hm : m ≠ 0) (hn : n ≠ 0) :
    2 ^ bits ≤ m * 2 ^ (bits + bitLen n) / n := by
  rw [Nat.le_div_iff_mul_le (Nat.pos_of_ne_zero hn)]
  calc 2 ^ bits * n ≤ 2 ^ bits * 2 ^ bitLen n := Nat.mul_le_mul_left _ bitLen_spec.le
    _ = 1 * 2 ^ (bits + bitLen n) := by rw [pow_add, one_mul]
    _ ≤ m * 2 ^ (bits + bitLen n) := Nat.mul_le_mul_right _ (Nat.pos_of_ne_zero hm)

theorem quot_fst_ne_zero (bits : Nat) {m n : Nat} (hm : m ≠ 0) (hn : n ≠ 0) (e : Int) : (quot bits m n e).1 ≠ 0 := by
  have h := two_pow_le_quotient bits hm hn
  have h2 : 0 < 2 ^ bits := by positivity
  simp only [quot]
  split_ifs
  · exact (h2.trans_le h).ne'
  · exact Nat.succ_ne_zero _

/-- A quotient with a sticky last bit is rounded as the exact quotient. -/
theorem roundTo_quot (t : FTy) (rm : Rnd) (thr : Nat) (neg : Bool) {bits : Nat} (hb : fFrac t + 7 ≤ bits) {m n : Nat}
    (hm : m ≠ 0) (hn : n ≠ 0) (e : Int) :
    roundTo t rm thr neg (quot bits m n e).1 (quot bits m n e).2
      = roundRat t rm thr ((if neg then -1 else 1) * (m * 2 ^ e / n)) := by
  have hn' : (0 : ℚ) < n := by exact_mod_cast Nat.pos_of_ne_zero hn
  have hm' : (0 : ℚ) < m := by exact_mod_cast Nat.pos_of_ne_zero hm
  have hbits := two_pow_le_quotient bits hm hn
  generalize hk : bits + bitLen n = k at hbits
  generalize hq : m * 2 ^ k / n = q at hbits
  have hq0 : q ≠ 0 := by
    have : 0 < 2 ^ bits := by positivity
    omega
  have hfine : 2 ^ (fFrac t + 7) ≤ q := (Nat.pow_le_pow_right two_pos hb).trans hbits
  have hscale : (m : ℚ) * 2 ^ e / n = (m * 2 ^ k : Nat) / n * 2 ^ (e - k) := by
    rw [zpow_sub₀ two_ne_zero, zpow_natCast]
    push_cast
    field_simp
  have hpos : (0 : ℚ) < m * 2 ^ e / n := div_pos (mul_pos hm' (two_zpow_pos e)) hn'
  have habs : |(if neg then -1 else 1) * ((m : ℚ) * 2 ^ e / n)| = m * 2 ^ e / n := by cases neg <;> simp [abs_of_pos hpos]
  by_cases hr : m * 2 ^ k % n = 0
  · have hquot : quot bits m n e = (q, e - k) := by simp only [quot, hk, hr, if_true, hq]
    have hexact : ((m * 2 ^ k : Nat) : ℚ) / n = q := by
      rw [div_eq_iff hn'.ne', ← hq]
      exact_mod_cast (Nat.div_mul_cancel (Nat.dvd_of_mod_eq_zero hr)).symm
    rw [hquot, roundTo_eq_roundRat t rm thr neg _ hq0, hscale, hexact, ratOf_fin, mul_assoc]
  · have hquot : quot bits m n e = (2 * q + 1, e - k - 1) := by simp only [quot, hk, hr, if_false, hq]
    have hp := two_zpow_pos (e - k)
    rw [hquot, roundTo_eq_roundRat t rm thr neg _ (Nat.succ_ne_zero _)]
    refine roundRat_of_between t rm thr (n := q) (g := e - k) ?_ ?_ ?_ hfine
    · rw [ratOf_fin_neg_iff (Nat.succ_ne_zero _)]
      cases neg
      · simpa using hpos.le
      · simpa using hpos
    · have hg : (2 : ℚ) ^ (e - k) = 2 * 2 ^ (e - k - 1) := by
        rw [zpow_sub_one₀ two_ne_zero (e - k)]
        ring
      have hp1 := two_zpow_pos (e - k - 1)
      rw [abs_ratOf_fin, Between, hg]
      push_cast
      constructor <;> nlinarith
    · have hdm := Nat.div_add_mod (m * 2 ^ k) n
      have hlt := Nat.mod_lt (m * 2 ^ k) (Nat.pos_of_ne_zero hn)
      rw [hq] at hdm
      have h1 : q * n < m * 2 ^ k := by rw [mul_comm]; omega
      have h2 : m * 2 ^ k < (q + 1) * n := by rw [add_mul, one_mul, mul_comm q]; omega
      rw [habs, hscale, Between]
      refine ⟨mul_lt_mul_of_pos_right ?_ hp, mul_lt_mul_of_pos_right ?_ hp⟩
      · rw [lt_div_iff₀ hn']
        exact_mod_cast h1
      · rw [div_lt_iff₀ hn']
        exact_mod_cast h2

end Sys2Proof.Proofs.Sticky
end

section
/-! PROOFS. The quantisers and their inverses (R75, R95–R99): codes, scales and thresholds of the model are those of the rules. -/

namespace Sys2Proof.Proofs.Quantisers

open Machine Claims Laws Rounding Formats Floats Conversions Sticky Integer

/-! ### The control operand (R95) -/

theorem extract_eq_ctlField (y : Word) (lo n : Nat) : (y.extractLsb' lo n).toNat = ctlField y lo n := by
  rw [BitVec.extractLsb'_toNat, Nat.shiftRight_eq_div_pow, ctlField]

theorem ctlSlot_eq (y : Word) : ctlSlot y = ctlField y 48 2 := extract_eq_ctlField ..

theorem ctlSlot_mod_two (y : Word) : ctlSlot y % 2 = ctlField y 48 1 := by
  rw [ctlSlot_eq, ctlField, ctlField, Nat.mod_mod_of_dvd _ (by decide : 2 ∣ 2 ^ 2), pow_one]

theorem ctlPhi_eq (y : Word) : ctlPhi y = ctlField y 40 6 := extract_eq_ctlField ..

theorem ctlI0_eq (y : Word) : ctlI0 y = ctlField y 32 6 := extract_eq_ctlField ..

theorem ctlBs_eq (y : Word) : ctlBs y = ctlField y 0 32 := extract_eq_ctlField ..

/-- The scale of a significand and an exponent. -/
def scaleOf (p : Nat × Int) : ℚ := p.1 * 2 ^ p.2

/-- What the model reads of a valid scale: its significand and exponent. -/
theorem scaleIn_eq (y : Word) : scaleIn y = (validScale (ctlBs y)).map scaleOf := by
  rw [scaleIn, validScale, ctlBs_eq]
  cases hv : fDecode .f32 (ctlField y 0 32) with
  | nan s | inf s => simp [isNum]
  | fin n m e =>
    have hp := two_zpow_pos e
    cases n with
    | true =>
      have h : ¬ 0 < ratOf (.fin true m e) := by
        rw [ratOf_fin, not_lt, if_pos rfl, mul_assoc, neg_one_mul, neg_nonpos]
        exact mul_nonneg (Nat.cast_nonneg m) hp.le
      simp [isNum, h]
    | false =>
      by_cases hm : m = 0
      · simp [isNum, ratOf_fin, hm]
      · have h : (0 : ℚ) < m * 2 ^ e := mul_pos (by exact_mod_cast Nat.pos_of_ne_zero hm) hp
        simp [isNum, ratOf_fin, hm, h, scaleOf]

theorem validScale_ne_zero {code n : Nat} {f : Int} (h : validScale code = some (n, f)) : n ≠ 0 := by
  rw [validScale] at h
  split at h
  · split at h
    · cases h
    · cases h
      assumption
  · cases h

/-! ### Fields of a register -/

/-- A field replaced in the model is the field replaced by its bits. -/
theorem putField_eq_replaceField (w : Word) (pos n x : Nat) (hn : n ≤ 64) :
    putField w pos n x = replaceField w pos n (BitVec.ofNat 64 x).toNat := by
  refine eq_ofBits fun i hi => ?_
  simp only [putField, BitVec.getLsbD_or, BitVec.getLsbD_and, BitVec.getLsbD_not, BitVec.getLsbD_shiftLeft, getLsbD_lowMask,
    decide_eq_true hi, Bool.true_and]
  by_cases hlo : pos ≤ i
  · by_cases hup : i < pos + n
    · have h1 : i - pos < n := by omega
      have h2 : i - pos < 64 := by omega
      simp [hlo, hup, h1, h2, hlo.not_gt, BitVec.getLsbD]
    · have h1 : ¬ i - pos < n := by omega
      simp [hup, h1]
  · simp [hlo, Nat.lt_of_not_le hlo]

/-! ### NQ4 (R75, R96, R97) -/

theorem magnitude_eq {j : Nat} (hj : j ≤ 7) : magnitude j = (nq4Mag j : ℚ) / 256 := by
  interval_cases j <;> norm_num [magnitude, magnitudes, nq4Mag]

theorem nq4Mag_lt {j : Nat} (hj : j ≤ 6) : nq4Mag j < nq4Mag (j + 1) := by
  interval_cases j <;> decide

theorem nq4Mag_mono {i j : Nat} (hij : i ≤ j) (hj : j ≤ 7) : nq4Mag i ≤ nq4Mag j := by
  induction j, hij using Nat.le_induction with
  | base => exact le_rfl
  | succ j _ ih => exact (ih (by omega)).trans (nq4Mag_lt (by omega)).le

/-- The index below a magnitude of fewer than 256 u: the last one whose magnitude is not above. -/
theorem exists_nq4_below {x u : Nat} (h : x < 256 * u) :
    ∃ j ≤ 6, ((List.range 7).filter fun i => nq4Mag i * u ≤ x).length - 1 = j ∧ nq4Mag j * u ≤ x ∧ x < nq4Mag (j + 1) * u := by
  have h0 : nq4Mag 0 * u ≤ x := by simp [nq4Mag]
  obtain ⟨j, hj, hle, hlt⟩ : ∃ j ≤ 6, nq4Mag j * u ≤ x ∧ x < nq4Mag (j + 1) * u := by
    by_contra hno
    push Not at hno
    have up : ∀ i ≤ 7, nq4Mag i * u ≤ x := by
      intro i
      induction i with
      | zero => exact fun _ => h0
      | succ i ih => exact fun hi => hno i (by omega) (ih (by omega))
    exact absurd (up 7 le_rfl) (not_le.mpr h)
  have hfil : ((List.range 7).filter fun i => nq4Mag i * u ≤ x) = (List.range 7).filter fun i => i ≤ j := by
    refine List.filter_congr fun i hi => ?_
    rw [decide_eq_decide]
    constructor
    · intro hi'
      by_contra hij
      have := Nat.mul_le_mul_right u (nq4Mag_mono (show j + 1 ≤ i by omega) (by simpa using (List.mem_range.mp hi).le))
      omega
    · intro hij
      exact (Nat.mul_le_mul_right u (nq4Mag_mono hij (by omega))).trans hle
  refine ⟨j, hj, ?_, hle, hlt⟩
  rw [hfil]
  interval_cases j <;> rfl

/-- The model's index, in 256ths of the scale, is that of the rational magnitude. -/
theorem nq4Index_eq_indexOf (m : Nat) (e : Int) {n : Nat} (hn : n ≠ 0) (f : Int) (thr : Option Nat) :
    nq4Index m e n f thr = indexOf (m * 2 ^ e / scaleOf (n, f)) (thr.map fun t : Nat => (t : ℚ) / 128) := by
  unfold nq4Index indexOf
  dsimp only
  generalize hb : min e f = b
  generalize hx : 256 * scaleTo b m e = x
  generalize hu : scaleTo b n f = u
  have hp := two_zpow_pos b
  have scale : ∀ (k : Nat) (q : Int), b ≤ q → (k : ℚ) * 2 ^ q = scaleTo b k q * 2 ^ b := by
    intro k q hq
    rw [scaleTo, Nat.cast_mul, mul_assoc, ← two_zpow_toNat (by omega), ← zpow_add₀ two_ne_zero, sub_add_cancel]
  have hu0 : (0 : ℚ) < u := by
    rw [← hu, scaleTo]
    exact_mod_cast Nat.mul_pos (Nat.pos_of_ne_zero hn) (by positivity)
  have hy : (m : ℚ) * 2 ^ e / scaleOf (n, f) = x / (256 * u) := by
    rw [scaleOf, scale m e (by omega), scale n f (by omega), hu, ← hx]
    push_cast
    field_simp
  have cmp : ∀ k : Nat, (k : ℚ) / 256 ≤ x / (256 * u) ↔ k * u ≤ x := by
    intro k
    rw [div_le_div_iff₀ (by norm_num) (by positivity), mul_left_comm, mul_comm (x : ℚ), mul_le_mul_iff_right₀ (by norm_num)]
    exact_mod_cast Iff.rfl
  have h1 : 1 ≤ (x : ℚ) / (256 * u) ↔ 256 * u ≤ x := by
    rw [← cmp 256]
    norm_num
  rw [hy]
  by_cases htop : 256 * u ≤ x
  · rw [if_pos htop, if_pos (h1.mpr htop)]
  rw [if_neg htop, if_neg (mt h1.mp htop)]
  have hfil : ((List.range 7).filter fun i => decide (magnitude i ≤ (x : ℚ) / (256 * u)))
      = (List.range 7).filter fun i => nq4Mag i * u ≤ x := by
    refine List.filter_congr fun i hi => ?_
    rw [decide_eq_decide, magnitude_eq (List.mem_range.mp hi).le, cmp]
  obtain ⟨j, hj, hlen, hlo, hhi⟩ := exists_nq4_below (not_le.mp htop)
  rw [hfil, hlen, magnitude_eq (show j ≤ 7 by omega), magnitude_eq (show j + 1 ≤ 7 by omega)]
  generalize hL : nq4Mag j * u = lo at hlo
  generalize hH : nq4Mag (j + 1) * u = hi at hhi
  have e1 : (x : ℚ) / (256 * u) - nq4Mag j / 256 = (x - lo : Nat) / (256 * u) := by
    rw [Nat.cast_sub hlo, ← hL]
    push_cast
    field_simp
  have e2 : (nq4Mag (j + 1) : ℚ) / 256 - x / (256 * u) = (hi - x : Nat) / (256 * u) := by
    rw [Nat.cast_sub hhi.le, ← hH]
    push_cast
    field_simp
  have e3 : (nq4Mag (j + 1) : ℚ) / 256 - nq4Mag j / 256 = (hi - lo : Nat) / (256 * u) := by
    rw [Nat.cast_sub (hlo.trans hhi.le), ← hH, ← hL]
    push_cast
    field_simp
  have hd : (0 : ℚ) < 256 * u := by positivity
  rw [e1, e2, e3]
  cases thr with
  | none =>
    simp only [Option.map_none, div_lt_div_iff_of_pos_right hd, Nat.cast_lt, div_left_inj' hd.ne', Nat.cast_inj]
  | some t =>
    have hpos : (0 : ℚ) < (hi - lo : Nat) := by exact_mod_cast (by omega : 0 < hi - lo)
    have ht : (t : ℚ) / 128 < ((x - lo : Nat) : ℚ) / (256 * u) / (((hi - lo : Nat) : ℚ) / (256 * u))
        ↔ t * (hi - lo) < 128 * (x - lo) := by
      rw [div_div_div_cancel_right₀ hd.ne', div_lt_div_iff₀ (by norm_num) hpos, mul_comm ((x - lo : Nat) : ℚ)]
      exact_mod_cast Iff.rfl
    simp only [Option.map_some, ht]

theorem ditherThr_eq (i phi : Nat) : ((ditherThr i phi : Nat) : ℚ) / 128 = ditherAt (i + phi) := by
  rw [ditherThr, ditherAt]
  push_cast
  ring

theorem nq4Code_eq_quantNq4 (v : FVal) {p : Option (Nat × Int)} (hp : ∀ n f, p = some (n, f) → n ≠ 0) (thr : Option Nat) :
    nq4Code v p thr = quantNq4 v (p.map scaleOf) (thr.map fun t : Nat => (t : ℚ) / 128) := by
  cases p with
  | none => rfl
  | some q =>
    obtain ⟨n, f⟩ := q
    cases v with
    | nan s => simp [nq4Code, quantNq4, fvIsNan]
    | inf s => cases s <;> simp [nq4Code, quantNq4, fvIsNan, isNum, fvSign]
    | fin s m e =>
      cases s <;> simp [nq4Code, quantNq4, fvIsNan, isNum, fvSign, nq4Index_eq_indexOf m e (hp n f rfl) f, abs_ratOf_fin]

theorem nq4Value_eq_dequantNq4 {code : Nat} (hc : code < 16) {p : Option (Nat × Int)} (hp : ∀ n f, p = some (n, f) → n ≠ 0) :
    nq4Value code p = dequantNq4 code (p.map scaleOf) := by
  cases p with
  | none => rfl
  | some q =>
    obtain ⟨n, f⟩ := q
    have hn := hp n f rfl
    have hj : code % 8 ≤ 7 := by omega
    have hz : nq4Mag (code % 8) = 0 ↔ code % 8 = 0 := by
      generalize code % 8 = j at hj
      interval_cases j <;> decide
    simp only [nq4Value, dequantNq4, Option.map_some, hz]
    by_cases h0 : code % 8 = 0
    · rw [if_pos h0, if_pos h0]
    · rw [if_neg h0, if_neg h0, roundRne, roundTo_eq_roundRat _ _ _ _ _ (Nat.mul_ne_zero (mt hz.mp h0) hn)]
      congr 1
      have hs : decide (code / 8 % 2 = 1) = decide (8 ≤ code) := by rw [decide_eq_decide]; omega
      rw [ratOf_fin, magnitude_eq hj, scaleOf, zpow_sub₀ two_ne_zero, hs]
      simp only [decide_eq_true_eq]
      push_cast
      ring

/-! ### FP8 (R98, R99) -/

theorem e8Code_eq_quantE8 (t : FTy) (ht : fFrac t + 7 ≤ 24) (v : FVal) {p : Option (Nat × Int)}
    (hp : ∀ n f, p = some (n, f) → n ≠ 0) (rm : Rnd) (thr : Nat) :
    e8Code t v p rm thr = quantE8 t v (p.map scaleOf) rm thr := by
  cases p with
  | none => cases v <;> simp [e8Code, quantE8, nanCode_eq]
  | some q =>
    obtain ⟨n, f⟩ := q
    have hn := hp n f rfl
    cases v with
    | nan s => simp [e8Code, quantE8, fvIsNan, nanCode_eq]
    | inf s => simp [e8Code, quantE8, fvIsNan, isNum, fvSign, withSign_maxCode]
    | fin s m e =>
      by_cases hm : m = 0
      · simp [e8Code, quantE8, fvIsNan, isNum, fvIsZero, fvSign, hm, withSign_eq]
      · have hq : ratOf (.fin s m e) / scaleOf (n, f) = (if s then -1 else 1) * (m * 2 ^ (e - f) / n) := by
          rw [ratOf_fin, scaleOf, zpow_sub₀ two_ne_zero]
          field_simp
        have hq0 : (quot 24 m n (e - f)).1 ≠ 0 := quot_fst_ne_zero 24 hm hn _
        simp only [e8Code, quantE8, fvIsNan, isNum, fvIsZero, fvSign, hm, hq, Option.map_some, if_false, Bool.false_eq_true,
          Bool.not_true, beq_iff_eq, ← roundTo_quot t rm thr s ht hm hn (e - f), roundTo, hq0, withSign_maxCode]
        generalize (if (decide (rm = .dr) && aboveMax t (quot 24 m n (e - f)).1 (quot 24 m n (e - f)).2) = true then Rnd.rne
          else rm) = mode
        cases ho : overMax t (roundMag t mode thr s (quot 24 m n (e - f)).1 (quot 24 m n (e - f)).2) with
        | false => simp only [Bool.false_eq_true, if_false, roundFlags_and_fOF, if_true]
        | true =>
          have hof : ¬ (fOF ||| fIX) &&& fOF = 0#5 := by decide
          simp [hof]

theorem e8Value_eq_dequantE8 (t : FTy) (code : Nat) {p : Option (Nat × Int)} (hp : ∀ n f, p = some (n, f) → n ≠ 0) :
    e8Value t code p = dequantE8 t code (p.map scaleOf) := by
  cases p with
  | none => rfl
  | some q =>
    obtain ⟨n, f⟩ := q
    have hn := hp n f rfl
    simp only [e8Value, dequantE8, Option.map_some]
    cases hv : fDecode t code with
    | nan s => simp [fvIsNan, nanCode_eq]
    | inf s => simp [fvIsNan, isNum, fvSign, infOf_eq]
    | fin s m e =>
      by_cases hm : m = 0
      · simp [fvIsNan, isNum, fvIsZero, fvSign, hm, roundRne, roundTo, withSign_eq]
      · have hq : ratOf (.fin s (m * n) (e + f)) = ratOf (.fin s m e) * scaleOf (n, f) := by
          rw [ratOf_fin, ratOf_fin, scaleOf, zpow_add₀ two_ne_zero]
          push_cast
          ring
        simp [fvIsNan, isNum, fvIsZero, hm, roundRne, roundTo_eq_roundRat _ _ _ _ _ (Nat.mul_ne_zero hm hn), hq]

/-! ### The words -/

/-- QNQ4 by the terms of the rules. -/
theorem execQnq4_eq (h : Hd) (dr : Bool) (d a b : Opnd) (s : State) :
    execQnq4 h dr d a b s = regWord s h (quantWord d a b d (.flt .bf16)) fun _ x y w =>
      let i := fun k => ctlField y 32 6 + k + ctlField y 40 6
      let r := gatherN 4 4 fun k =>
        quantNq4 (fDecode .bf16 (sub 16 x k)) (scaleIn y) (if dr then some (ditherAt (i k)) else none)
      (replaceField w (16 * ctlField y 48 2) 16 r.1.toNat, r.2) := by
  have code : ∀ (x y : Word) (k : Nat),
      nq4Code (fDecode .bf16 (subEl 16 x k)) (validScale (ctlBs y)) (if dr then some (ditherThr (ctlI0 y + k) (ctlPhi y)) else none)
        = quantNq4 (fDecode .bf16 (sub 16 x k)) (scaleIn y)
            (if dr then some (ditherAt (ctlField y 32 6 + k + ctlField y 40 6)) else none) := by
    intro x y k
    rw [nq4Code_eq_quantNq4 _ fun n f => validScale_ne_zero, scaleIn_eq, ← ctlI0_eq, ← ctlPhi_eq, ← ditherThr_eq]
    cases dr <;> rfl
  simp only [execQnq4, code, putField_eq_replaceField _ _ 16 _ (by decide), ctlSlot_eq, ← gather_map_range, gather]

theorem execDqnq4_eq (h : Hd) (d a b : Opnd) (s : State) :
    execDqnq4 h d a b s = regWord s h (quantWord d a b .z (.int 64)) fun _ x y _ =>
      gatherN 16 4 fun k => dequantNq4 (sub 4 x (4 * ctlField y 48 2 + k)) (scaleIn y) := by
  have value : ∀ (x y : Word) (k : Nat), nq4Value (subEl 4 x k) (validScale (ctlBs y)) = dequantNq4 (sub 4 x k) (scaleIn y) := by
    intro x y k
    rw [scaleIn_eq]
    exact nq4Value_eq_dequantNq4 (sub_lt 4 x k) fun n f => validScale_ne_zero
  simp only [execDqnq4, gather_map_range, value, ctlSlot_eq]

theorem execQe8_eq (h : Hd) (t : FTy) (ht : fFrac t + 7 ≤ 24) (dr : Bool) (d a b : Opnd) (s : State) :
    execQe8 h t dr d a b s = regWord s h (quantWord d a b d (.flt .bf16)) fun _ x y w =>
      let i := fun k => ctlField y 32 6 + k + ctlField y 40 6
      let r := gatherN 8 4 fun k => quantE8 t (fDecode .bf16 (sub 16 x k)) (scaleIn y) (if dr then .dr else .rne)
        (2 * ditherD.getD (i k % 64) 0 + 1)
      (replaceField w (32 * ctlField y 48 1) 32 r.1.toNat, r.2) := by
  have code : ∀ (x y : Word) (k : Nat),
      e8Code t (fDecode .bf16 (subEl 16 x k)) (validScale (ctlBs y)) (if dr then .dr else .rne) (ditherThr (ctlI0 y + k) (ctlPhi y))
        = quantE8 t (fDecode .bf16 (sub 16 x k)) (scaleIn y) (if dr then .dr else .rne)
            (2 * ditherD.getD ((ctlField y 32 6 + k + ctlField y 40 6) % 64) 0 + 1) := by
    intro x y k
    rw [e8Code_eq_quantE8 t ht _ fun n f => validScale_ne_zero, scaleIn_eq, ← ctlI0_eq, ← ctlPhi_eq]
    rfl
  simp only [execQe8, code, putField_eq_replaceField _ _ 32 _ (by decide), ctlSlot_mod_two, ← gather_map_range, gather]

theorem execDqe8_eq (h : Hd) (t : FTy) (d a b : Opnd) (s : State) :
    execDqe8 h t d a b s = regWord s h (quantWord d a b .z (.int 64)) fun _ x y _ =>
      gatherN 16 4 fun k => dequantE8 t (sub 8 x (4 * ctlField y 48 1 + k)) (scaleIn y) := by
  have value : ∀ (x y : Word) (k : Nat), e8Value t (subEl 8 x k) (validScale (ctlBs y)) = dequantE8 t (sub 8 x k) (scaleIn y) := by
    intro x y k
    rw [scaleIn_eq]
    exact e8Value_eq_dequantE8 t _ fun n f => validScale_ne_zero
  simp only [execDqe8, gather_map_range, value, ctlSlot_mod_two]

/-- A quantisation word of the model is one of the claims. -/
theorem ofReg_quantWord (h : Hd) (d a b w : Opnd) (ca : Conv) (f : Word → Word → Word → Word × Flags) :
    ofReg h (quantWord d a b w ca) (fun _ => f) = quantCalc h d a b w ca f := rfl

/-- Settles O24: the model's codes, scales and thresholds are those of the rules, and a quotient with a sticky last bit has
bits enough for an FP8 format. -/
theorem quantisationWords : Obligations.QuantisationWords := by
  intro h d a b
  refine ⟨fun dr => computes_of_eq (execQnq4_eq h dr d a b) rfl (ofReg_quantWord ..),
    computes_of_eq (execDqnq4_eq h d a b) rfl (ofReg_quantWord ..), fun t ht => ?_⟩
  have hbits : fFrac t + 7 ≤ 24 := by cases t <;> simp at ht <;> decide
  exact ⟨fun dr => computes_of_eq (execQe8_eq h t hbits dr d a b) rfl (ofReg_quantWord ..),
    computes_of_eq (execDqe8_eq h t d a b) rfl (ofReg_quantWord ..)⟩

end Sys2Proof.Proofs.Quantisers
end

section
/-! PROOFS. DOT, FSUM, PACK and UNPACK (R100–R102): exact sums rounded once to FP32, and sub-elements put together and taken. -/

namespace Sys2Proof.Proofs.Sums

open Machine Claims Laws Rounding Formats Floats Quantisers

/-- Flags gathered from a start are those gathered from none, with the start's. -/
theorem foldl_or_flags {α : Type} (l : List α) (f : α → Flags) (g : Flags) :
    l.foldl (fun a x => a ||| f x) g = l.foldl (fun a x => a ||| f x) 0 ||| g := by
  induction l generalizing g with
  | nil => simp
  | cons x r ih =>
    have hz : (0 : Flags) ||| f x = f x := BitVec.zero_or
    rw [List.foldl_cons, List.foldl_cons, ih, ih (0 ||| f x), hz, BitVec.or_assoc, BitVec.or_comm g]

theorem execDot_eq (h : Hd) (t : FTy) (ht : fLanes t / 2 = 32 / floatBits t) (d a b : Opnd) (s : State) :
    execDot h t d a b s = regWord s h { fltWord t d a b with w := (d, .flt .f32) } fun _ x y w => gatherN 32 2 fun j =>
      let ps := (List.range (32 / floatBits t)).map fun k =>
        fvMul (fDecode t (sub (floatBits t) x (32 / floatBits t * j + k))) (fDecode t (sub (floatBits t) y (32 / floatBits t * j + k)))
      let r := sumOf .f32 .rne (fDecode .f32 (sub 32 w j) :: ps.map (·.1))
      (r.1, ps.foldl (fun f p => f ||| p.2) r.2) := by
  simp only [execDot, gather_map_range, products, sumTo_eq_sumOf, ht, ← floatBits_eq]
  congr 1
  funext _ x y w
  congr 1
  funext j
  rw [foldl_or_flags _ _ (sumOf ..).2]
  rfl

theorem execFsum_eq (h : Hd) (t : FTy) (d a b : Opnd) (s : State) :
    execFsum h t d a b s = regWord s h { fltWord t d a b with b := (b, .flt .f32) } fun _ x y _ => gatherN 32 1 fun _ =>
      sumOf .f32 .rne (fDecode .f32 (sub 32 y 0) :: (List.range (64 / floatBits t)).map fun k => fDecode t (sub (floatBits t) x k)) := by
  simp only [execFsum, ← gather_map_range, sumTo_eq_sumOf, fLanes, floatBits_eq]
  rfl

theorem packBits_eq (w : PackW) : packBits w = widthOf w := by cases w <;> rfl

theorem execPack_eq (h : Hd) (w : PackW) (d a b : Opnd) (s : State) :
    execPack h w d a b s = regWord s h (quantWord d a b .z (.int 64)) fun _ x y _ =>
      (BitVec.ofNat 64 (x.toNat % 2 ^ widthOf w + y.toNat % 2 ^ widthOf w * 2 ^ widthOf w), 0) := by
  have e : ∀ x y : Word, packEls (widthOf w) [subEl (widthOf w) x 0, subEl (widthOf w) y 0]
      = x.toNat % 2 ^ widthOf w + y.toNat % 2 ^ widthOf w * 2 ^ widthOf w := by
    intro x y
    simp [packEls, subEl, Nat.mul_comm]
  simp only [execPack, packBits_eq, e]

theorem execUnpack_eq (h : Hd) (w : PackW) (d a b : Opnd) (s : State) :
    execUnpack h w d a b s = regWord s h (quantWord d a b .z (.int 64)) fun _ x y _ =>
      (BitVec.ofNat 64 (sub (widthOf w) x (y.toNat % (64 / widthOf w))), 0) := by
  simp only [execUnpack, packBits_eq]
  rfl

/-- Settles O25: the model's exact sums are those of R100 and R101, rounded once. -/
theorem sumWords : Obligations.SumWords := by
  intro h d a b
  refine ⟨fun t ht => ?_, fun t _ => ?_, fun w => ⟨?_, ?_⟩⟩
  · have hl : fLanes t / 2 = 32 / floatBits t := by cases t <;> simp at ht <;> decide
    refine computes_of_eq (execDot_eq h t hl d a b) rfl ?_
    rw [ofReg, fltCalc, fltWord, fLat_eq]
  · refine computes_of_eq (execFsum_eq h t d a b) rfl ?_
    rw [ofReg, fltCalc, fltWord, fLat_eq]
  · exact computes_of_eq (execPack_eq h w d a b) rfl (ofReg_quantWord ..)
  · exact computes_of_eq (execUnpack_eq h w d a b) rfl (ofReg_quantWord ..)

end Sys2Proof.Proofs.Sums
end

section
/-! PROOFS. The words that make a check before anything else: the FPE check of fences, barriers and the words that end or
stop a group (R83), and the wait of a tender (R231). -/

namespace Sys2Proof.Proofs.Checks

open Machine Claims Laws

theorem barOpspec_uniform {g : Group} {sp : Split} {n : Nat} {os : List Opnd} (hu : UniformSrcs g sp n os) :
    barOpspec g os = false := by
  have hany : os.any (fun o => !isUniform o) = false := by simpa using hu.uniform
  rw [barOpspec, hany, hu.names]
  rfl

theorem fpePending_iff (g : Group) :
    fpePending g = true ↔ g.fstat.extractLsb' 0 5 &&& g.fstat.extractLsb' 8 5 ≠ 0 := bne_iff_ne

section
variable {s : State} {pl : Place} {g : Group} {sp : Split} (hi : Issues s pl g sp)
include hi

/-! ### The tender's wait (R231) -/

theorem syncIssue_eq (ht : g.isTender = none) (k : Place → Group → Split → Out) : syncIssue s k = k pl g sp := by
  rw [syncIssue, issue_eq hi, ht]
  rfl

/-- A word that begins as `syncIssue` waits in a tender. -/
theorem waits_tender (ht : g.isTender.isSome = true) {i : Instr} (k : Place → Group → Split → Out)
    (he : exec i s = syncIssue s k) : ∃ t, exec i s = .next t ∧ Waits s t pl g sp .tender := by
  refine ⟨_, he.trans ?_, waits_waitAt ..⟩
  rw [syncIssue, issue_eq hi, if_pos ht]

/-! ### The FPE check (R83) -/

variable (hm : MayTrap s pl g) (hst : sp.stage = 0) (hf : fpePending g = true)
include hm hst hf

/-- A word of `fpeIssue` that is first issued with an enabled flag set goes no further. -/
theorem fpeIssue_pending (k : Place → Group → Split → Out) : fpeIssue s k = .next (trap s pl .fpe) := by
  rw [fpeIssue, syncIssue_eq hi hm.tender, hst, hf]
  rfl

theorem execFence_pending (h : Hd) (sc : Scope) : execFence h sc s = .next (trap s pl .fpe) := by
  rw [execFence]
  exact fpeIssue_pending hi hm hst hf _

theorem execExit_pending (h : Hd) (sc : Scope) : execExit h sc s = .next (trap s pl .fpe) := by
  rw [execExit]
  exact fpeIssue_pending hi hm hst hf _

theorem execBar_lane_pending (h : Hd) (a b : Opnd) : execBar h .lane a b s = .next (trap s pl .fpe) := by
  rw [execBar]
  exact fpeIssue_pending hi hm hst hf _

/-- TRAP and SYSCALL begin with the check. -/
theorem stopWord_pending (kind : BitVec 2) (code : BitVec 14) : stopWord s kind code = .next (trap s pl .fpe) := by
  rw [stopWord]
  exact fpeIssue_pending hi hm hst hf _

/-- BAR and BARA with allowed operands come to their FPE check. -/
theorem barArrive_pending {a b : Opnd} (hu : UniformSrcs g sp pl.split [a, b]) (h : Hd) (sc : Scope) (bara : Bool) :
    barArrive s h sc a b bara = .next (trap s pl .fpe) := by
  simp only [barArrive, issue_eq hi, barOpspec_uniform hu, hu.hazard, Bool.false_eq_true, if_false]
  exact fpeIssue_pending hi hm hst hf _

/-- BAR at a scope wider than a group is `barArrive`. -/
theorem execBar_pending {a b : Opnd} (hu : UniformSrcs g sp pl.split [a, b]) (h : Hd) {sc : Scope} (hsc : sc ≠ .lane) :
    execBar h sc a b s = .next (trap s pl .fpe) := by
  rw [← barArrive_pending hi hm hst hf hu h sc false]
  cases sc with
  | lane => exact absurd rfl hsc
  | core | quad | die | pkg | pod | sys | eng => rfl

/-- BARW with an allowed operand comes to its FPE check. -/
theorem execBarw_pending {a : Opnd} (hu : UniformSrcs g sp pl.split [a]) (h : Hd) (sc : Scope) :
    execBarw h sc a s = .next (trap s pl .fpe) := by
  simp only [execBarw, issue_eq hi, barOpspec_uniform hu, hu.hazard, Bool.false_eq_true, if_false]
  exact fpeIssue_pending hi hm hst hf _

end

/-! ### Level words with SYNC (R203) -/

/-- At a level of the nest with SYNC a level word of `syncLevel` goes on. -/
theorem syncLevel_eq {s : State} {pl : Place} {g : Group} {sp : Split} (hi : Issues s pl g sp) {l : Launch} {lv : Fin 8}
    (hl : launchOf s g.launch = some l) (hlv : lv.val < l.nlev) (hs : (levelOf l lv.val).1.getLsbD 5 = true)
    (k : Place → Group → Split → Launch → Out) : syncLevel s lv k = k pl g sp l := by
  have hn : ¬ l.nlev ≤ lv.val := by omega
  have hsync : mSync (maplOf l lv.val) = true := hs
  simp [syncLevel, issue_eq hi, nestOf, hl, hn, hsync]

section
variable {s : State} {pl : Place} {g : Group} {sp : Split} (hi : Issues s pl g sp) (hm : MayTrap s pl g)
  (hst : sp.stage = 0) (hf : fpePending g = true) {l : Launch} {lv : Fin 8} (hl : launchOf s g.launch = some l)
  (hlv : lv.val < l.nlev) (hs : (levelOf l lv.val).1.getLsbD 5 = true)
include hi hm hst hf hl hlv hs

theorem execBarl_pending (h : Hd) : execBarl h lv s = .next (trap s pl .fpe) := by
  rw [execBarl, syncLevel_eq hi hl hlv hs]
  exact fpeIssue_pending hi hm hst hf _

/-- REDL with allowed operands comes to its FPE check. -/
theorem execRedl_pending {d a : Opnd} (hd : badDst d = false) (hn : namesBad g [d, a] = false) (hg : ∀ n, d ≠ .g n)
    (hz : hazard g sp pl.split [a] [d] = false) (h : Hd) (op : RedOp) (ty : RTy) :
    execRedl h op ty d a lv s = .next (trap s pl .fpe) := by
  obtain ⟨hnd, hna⟩ : namesBad g [d] = false ∧ namesBad g [a] = false := by
    simpa [namesBad] using hn
  have hop : lvOpspec g false d = false := by
    cases d with
    | g n => exact absurd rfl (hg n)
    | _ => simp [lvOpspec, hd, hnd]
  simp only [execRedl, syncLevel_eq hi hl hlv hs, hop, hna, hst, hz, Bool.or_false, Bool.false_eq_true, if_true, if_false]
  exact fpeIssue_pending hi hm hst hf _

end

/-! ### The obligation -/

/-- Settles O46: every word of the list comes to `fpeIssue` past its operand checks, and every word at which a tender waits
begins as `syncIssue`. -/
theorem firstChecks : Obligations.FirstChecks := by
  refine ⟨?_, ?_⟩
  · intro h s pl g sp hi hm hst hflag stops
    have hf : fpePending g = true := (fpePending_iff g).mpr hflag
    have stop {i : Instr} (he : exec i s = .next (trap s pl .fpe)) : stops i :=
      ⟨_, he, trapped_trapWith hi hm (causeCode .fpe) 0 0 0⟩
    refine ⟨fun sc => ⟨stop (execFence_pending hi hm hst hf h sc), stop (execExit_pending hi hm hst hf h sc)⟩,
      fun code => ⟨stop (stopWord_pending hi hm hst hf 1 code), stop (stopWord_pending hi hm hst hf 2 code)⟩,
      fun a b => stop (execBar_lane_pending hi hm hst hf h a b), ?_, ?_⟩
    · intro sc hsc a b
      have hlane : sc ≠ .lane := by rintro rfl; simp at hsc
      exact ⟨fun hu => ⟨stop (execBar_pending hi hm hst hf hu h hlane), stop (barArrive_pending hi hm hst hf hu h sc true)⟩,
        fun hu => stop (execBarw_pending hi hm hst hf hu h sc)⟩
    · intro l lv hl hlv hs
      exact ⟨stop (execBarl_pending hi hm hst hf hl hlv hs h),
        fun op ty d a hd hn hg hz => stop (execRedl_pending hi hm hst hf hl hlv hs hd hn hg hz h op ty)⟩
  · intro h s pl g sp hi ht
    simp only [List.forall_mem_cons, List.not_mem_nil, false_implies, implies_true, and_true]
    refine ⟨?_, ?_, ?_, ?_, ?_, ?_, ?_, ?_, ?_, ?_, ?_, ?_, ?_, ?_, ?_, ?_⟩ <;> exact waits_tender hi ht _ rfl

end Sys2Proof.Proofs.Checks
end

section
/-! PROOFS. System words (R81, R342–R346, R351, R362): what a word that issues once for its destination delivers, the
registers and counters that RDSR, RDCTR and RDCLK read, the write of FSTAT, and SELFTEST. -/

namespace Sys2Proof.Proofs.System

open Machine Claims Laws Checks

/-! ### A value delivered once for its destination (R342) -/

theorem onceVals_eq (d : Opnd) (m : Mask) (x : Word) : (onceKeys d m).map (fun t => (t, x)) = onceVals d m x := by
  cases d <;> rfl

theorem onceVals_keys (d : Opnd) (m : Mask) (x : Word) : (onceVals d m x).map (·.1) = onceKeys d m := by
  rw [← onceVals_eq, List.map_map]
  exact List.map_id _

theorem keysOk_onceVals (d : Opnd) (m : Mask) (x : Word) : KeysOk d (onceVals d m x) := by
  cases d with
  | g n => exact ⟨by simp [onceVals], by simp [onceVals]⟩
  | z => exact ⟨by simp [onceVals], trivial⟩
  | _ => exact keysOk_threads m (fun _ => x) nofun

theorem threadVal_onceVals (d : Opnd) (m : Mask) (x : Word) {t : Nat} (ht : t < 32) :
    threadVal (onceVals d m x) t = onceNew d m x t := by
  have hkey : threadVal [(32, x)] t = some x := by
    have : ¬ 32 = t := by omega
    simp [threadVal, tabFind, this]
  cases d with
  | g n => exact hkey
  | z => exact hkey
  | _ => exact threadVal_threads m (fun _ => x) ht

theorem raiseFlags_zero (g : Group) : raiseFlags g 0 = g := by simp [raiseFlags]

/-- What a word's first steps leave of its split (R178). -/
theorem begun_eq (g : Group) (n : Nat) (sp : Split) :
    begun g n sp = { sp with stage := (begun g n sp).stage, await := (begun g n sp).await } := by
  unfold begun
  split <;> rfl

theorem sysResult_eq (s : State) (pl : Place) (g : Group) (sp : Split) (h : Hd) (d : Opnd) (lat : Option Nat) (src : ResSrc)
    (x : Word) : sysResult s pl g sp h d lat src x = finish { s with free := s.free + 1 } pl
      (deliver g sp pl.split .a lat src d (onceVals d sp.mask x)).1
      (deliver g sp pl.split .a lat src d (onceVals d sp.mask x)).2 h 1 := by
  rw [← onceVals_eq]
  rfl

/-! ### Conditions of the words, as the model tests them -/

theorem dstOpspec_ready {pl : Place} {g : Group} {sp : Split} {d : Opnd} (hd : DestReady pl g sp d) :
    dstOpspec g d = false := by
  rw [dstOpspec, hd.dest, hd.names]
  rfl

theorem groupSlips_nil {s : State} {pl : Place} (hs : ∀ y ∈ (coreOf s pl.core).slips, y.slot ≠ pl.slot) :
    groupSlips s pl = [] := by
  simpa [groupSlips] using hs

theorem memDone_begun {pl : Place} {g : Group} {sp : Split} (hm : MemDone pl g sp) :
    memDone g (begun g pl.split sp) = true := by
  obtain ⟨hp, hst⟩ := hm
  unfold memDone begun otherSplits
  split at hst
  · next h0 =>
    rw [if_pos h0, hp]
    have hown : ∀ n q, (n, q) ∈ g.splits → q.unfin.isSome = true → n = pl.split := fun n q hq hu =>
      by_contra fun hne => by
        have hnone : q.unfin = none := hst (n, q) hq hne
        simp [hnone] at hu
    simpa using hown
  · next h0 =>
    rw [if_neg h0, hp, hst]
    rfl

/-! ### What the words deliver -/

section
variable {s : State} {pl : Place} {g : Group} {sp : Split} (ht : s.turn = some pl) (hc : Calm g)
include ht hc

/-- A register of the group or the core is delivered with latency 4. -/
theorem wrote_sysResult_near (h : Hd) (d : Opnd) (x : Word) :
    Wrote s (sysResult s pl g sp h d (some 4) .var x) pl g sp h 1 d (onceKeys d sp.mask) (onceNew d sp.mask x) 0 [] := by
  have hr := (deliver_fixed d (onceVals d sp.mask x) (keysOk_onceVals ..) g sp pl.split 4 .a .var 0).1
  rw [raiseFlags_zero, onceVals_keys] at hr
  rw [sysResult_eq]
  generalize deliver g sp pl.split .a (some 4) .var d (onceVals d sp.mask x) = dl at hr ⊢
  have hn : Ready g dl.1 sp dl.2 d (onceKeys d sp.mask) (onceNew d sp.mask x) 0 pl.split [] :=
    { hr with regs := fun o t ht ho => ?_ }
  · exact (wrote_finish (s := s) (s1 := { s with free := s.free + 1 }) ht hc (rest_free pl _) rfl rfl hn).1
  rw [hr.regs o t ht ho, threadVal_onceVals d sp.mask x ht]

/-- Every other value is delivered with a variable latency, whatever steps the word has made before. -/
theorem wrote_sysResult_var {sp' : Split} (hsp : sp' = { sp with stage := sp'.stage, await := sp'.await }) (h : Hd) (d : Opnd)
    (src : ResSrc) (x : Word) :
    Wrote s (sysResult s pl g sp' h d none src x) pl g sp h 1 d (onceKeys d sp.mask) (fun _ => none) 0
      (onceOwed pl d sp.mask x src) := by
  have hmask : sp'.mask = sp.mask := by rw [hsp]
  have hrun : sp'.run = sp.run := by rw [hsp]
  have hr := (deliver_var d (onceVals d sp'.mask x) g sp' pl.split .a src 0).1
  rw [raiseFlags_zero, onceVals_keys] at hr
  rw [sysResult_eq, ← hmask]
  generalize deliver g sp' pl.split .a none src d (onceVals d sp'.mask x) = dl at hr ⊢
  have hn : Ready g dl.1 sp dl.2 d (onceKeys d sp'.mask) (fun _ => none) 0 pl.split (onceOwed pl d sp'.mask x src) :=
    { hr with split := ?_, rwords := ?_, bundle := ?_, occ := ?_, regs := fun o t ht ho => ?_ }
  · exact (wrote_finish (s := s) (s1 := { s with free := s.free + 1 }) ht hc (rest_free pl _) rfl rfl hn).1
  · rw [hr.split, hsp]
  · rw [hr.rwords, hrun]
  · rw [hr.bundle, hrun]
  · rw [hr.occ, hrun]
  · rw [hr.regs o t ht ho, hsp]
    rfl

end

/-! ### RDSR, RDCTR and RDCLK (R344, R351) -/

section
variable {s : State} {pl : Place} {g : Group} {sp : Split} (hi : Issues s pl g sp) (hc : Calm g) {d : Opnd}
  (hd : DestReady pl g sp d) (h : Hd)
include hi hc hd

/-- RDSR of a register that programs may read. -/
theorem rdsr_delivers {n : BitVec 14} {x : Word} {near : Bool} (hx : sysReg s pl.core g n.toNat = some x)
    (hp : progReads n.toNat = true) (hn : isNearReg n.toNat = near) :
    ∃ t, exec (.rdsr h d n) s = .next t ∧ Delivers s t pl g sp h d near x := by
  have he : exec (.rdsr h d n) s = .next (sysResult s pl g sp h d (if near then some 4 else none) .var x) := by
    change execRdsr h d n s = _
    simp only [execRdsr, syncIssue_eq hi hd.tender, hx, dstOpspec_ready hd, hp, hd.hazard, hn, Bool.not_true,
      Bool.false_eq_true, if_false]
  refine ⟨_, he, ?_⟩
  cases near with
  | true => exact wrote_sysResult_near hi.turn hc h d x
  | false => exact wrote_sysResult_var hi.turn hc rfl h d .var x

/-- RDCTR and RDCLK of a listed counter, where the word need not wait. -/
theorem readClock_delivers {sync : Bool} (hs : sync = true → g.results = []) {f : Nat → Group → Option Word} {x : Word}
    (hx : f pl.core g = some x) : ∃ t, readClock s h d sync f = .next t ∧ Delivers s t pl g sp h d true x := by
  have hw : (sync && !g.results.isEmpty) = false := by
    cases sync with
    | true => simp [hs rfl]
    | false => rfl
  refine ⟨_, ?_, wrote_sysResult_near hi.turn hc h d x⟩
  simp only [readClock, syncIssue_eq hi hd.tender, hx, dstOpspec_ready hd, hd.hazard, hw, Bool.false_eq_true, if_false]

theorem rdctr_delivers {n : BitVec 13} {x : Word} (hx : counterOf s pl.core g n.toNat = some x) :
    ∃ t, exec (.rdctr h d false n) s = .next t ∧ Delivers s t pl g sp h d true x :=
  readClock_delivers hi hc hd h (sync := false) (f := fun c g => counterOf s c g n.toNat) (fun e => nomatch e) hx

theorem rdclk_delivers {sync : Bool} (hs : sync = true → g.results = []) :
    ∃ t, exec (.rdclk h d sync) s = .next t ∧ Delivers s t pl g sp h d true s.clock :=
  readClock_delivers hi hc hd h (f := fun _ _ => some s.clock) hs rfl

end

section
variable {s : State} {pl : Place} {g : Group} {sp : Split} (hi : Issues s pl g sp) {d : Opnd} (hd : DestReady pl g sp d)
  (h : Hd)
include hi hd

/-- RDCLK.sync waits while a result of the group is outstanding. -/
theorem rdclk_waits (hr : g.results ≠ []) : ∃ t, exec (.rdclk h d true) s = .next t ∧ Waits s t pl g sp .results := by
  have hw : (true && !g.results.isEmpty) = true := by simpa using hr
  refine ⟨_, ?_, waits_waitAt ..⟩
  change readClock s h d true (fun _ _ => some s.clock) = _
  simp only [readClock, syncIssue_eq hi hd.tender, dstOpspec_ready hd, hd.hazard, hw, Bool.false_eq_true, if_false,
    if_true]

/-! ### SELFTEST (R362) -/

/-- SELFTEST past its checks and waits: it answers at once, or starts the test that its result comes from. -/
theorem execSelftest_eq (hp : (partOf s g.part).pcfg.getLsbD 1 = true) (hm : MemDone pl g sp)
    (hs : ∀ y ∈ (coreOf s pl.core).slips, y.slot ≠ pl.slot) (pattern : BitVec 14) :
    execSelftest h d pattern s = .next
      (if selfBusy (coreOf s pl.core) pl.slot g then sysResult s pl g (begun g pl.split sp) h d none .var selfBusyWord
       else sysResult (setCore s pl.core { coreOf s pl.core with
          nextOp := (coreOf s pl.core).nextOp + 1
          self := (coreOf s pl.core).self ++ [{ slot := pl.slot, op := (coreOf s pl.core).nextOp, pattern := pattern.toNat }] })
        pl g (begun g pl.split sp) h d none (.held (coreOf s pl.core).nextOp) 0) := by
  have hslips : (!(groupSlips s pl).isEmpty) = false := by simp [groupSlips_nil hs]
  simp only [execSelftest, syncIssue_eq hi hd.tender, dstOpspec_ready hd, hp, hd.hazard,
    memDone_begun hm, hslips, Bool.not_true, Bool.false_eq_true, if_false]
  split <;> rfl

end

/-! ### WRSR (R81) -/

theorem writeFstat_fields (old : BitVec 13) (x : Word) :
    (writeFstat old x).extractLsb' 0 5 = old.extractLsb' 0 5 &&& ~~~x.extractLsb' 0 5
      ∧ (writeFstat old x).extractLsb' 5 3 = 0 ∧ (writeFstat old x).extractLsb' 8 5 = x.extractLsb' 8 5 := by
  refine ⟨?_, ?_, ?_⟩ <;> ext i hi <;> simp [writeFstat, stickyOf] <;> grind

/-- WRSR of FSTAT clears flags and sets enables. -/
theorem wrsr_fstat {s : State} {pl : Place} {g : Group} {sp : Split} (hi : Issues s pl g sp) (hc : Calm g)
    (ht : g.isTender = none) {a : Opnd} (hu : UniformSrcs g sp pl.split [a]) (h : Hd) :
    ∃ t, exec (.wrsr h a 0) s = .next t ∧
      Passed s t pl { g with fstat := writeFstat g.fstat (once s g sp a) } sp h 1 (nextPos sp.pc sp.word) := by
  let g1 : Group := { g with fstat := writeFstat g.fstat (once s g sp a) }
  have he : execWrsr h a 0 s = .next (finish { s with free := s.free + 1 } pl g1 sp h 1) := by
    have hreg : sysReg s pl.core g (0 : BitVec 14).toNat = some (g.fstat.setWidth 64) := rfl
    simp only [execWrsr, syncIssue_eq hi ht, hreg, barOpspec_uniform hu, hu.hazard, Bool.false_eq_true, if_false, ne_eq,
      not_true_eq_false]
    rfl
  have hp := passed_finish (s1 := { s with free := s.free + 1 }) (g := g1) (sp := sp) h 1 ⟨hc.watch, hc.step⟩ hi.turn
  obtain ⟨hrest, g', sp', hw, hsame⟩ := hp
  exact ⟨_, he, (rest_free pl _).trans hrest, g', sp', { hw with time := hw.time }, hsame⟩

/-! ### The obligation -/

/-- SELFTEST on a core with another group. -/
theorem selfBusy_other {k : Core} {slot : Nat} {g : Group} (hx : ∃ x ∈ k.slots, x.1 ≠ slot) : selfBusy k slot g = true := by
  simp [selfBusy, hx]

/-- SELFTEST on a core that is the group's alone. -/
theorem selfBusy_alone {k : Core} {slot : Nat} {g : Group} (hx : ∀ x ∈ k.slots, x.1 = slot) (hcl : k.array.claim = none) :
    selfBusy k slot g = false := by
  have hany : k.slots.any (fun x => x.1 != slot) = false := by simpa using hx
  rw [selfBusy, hany, hcl]
  rfl

/-- Settles O48: each register and counter by the field that `sysReg` or `counterOf` gives for it, SELFTEST by whether its
core is busy. -/
theorem systemWords : Obligations.SystemWords := by
  intro h s pl g sp hi hc
  refine ⟨?_, ?_⟩
  · intro d hd p gets
    have reg {n : BitVec 14} {x : Word} {near : Bool} (hx : sysReg s pl.core g n.toNat = some x)
        (hp : progReads n.toNat = true) (hn : isNearReg n.toNat = near) : gets (.rdsr h d n) near x :=
      rdsr_delivers hi hc hd h hx hp hn
    have counter {n : BitVec 13} {x : Word} (hx : counterOf s pl.core g n.toNat = some x) :
        gets (.rdctr h d false n) true x := rdctr_delivers hi hc hd h hx
    refine ⟨reg rfl rfl rfl, reg rfl rfl rfl, reg rfl rfl rfl, reg rfl rfl rfl, reg rfl rfl rfl, ?_, reg rfl rfl rfl,
      reg rfl rfl rfl, reg rfl rfl rfl, reg rfl rfl rfl, ?_, ?_, ?_, counter rfl, counter rfl, counter rfl, counter rfl,
      counter rfl, rdclk_delivers hi hc hd h nofun, fun hr => rdclk_delivers hi hc hd h fun _ => hr, rdclk_waits hi hd h, ?_⟩
    · intro hlt
      refine reg (x := BitVec.ofNat 64 pl.core) ?_ rfl rfl
      change some (BitVec.ofNat 64 (pl.core % 1024)) = _
      rw [Nat.mod_eq_of_lt hlt]
    · intro r
      match r with
      | 0 => exact reg rfl rfl rfl
      | 1 => exact reg rfl rfl rfl
      | 2 => exact reg rfl rfl rfl
    · intro r
      match r with
      | 0 => exact reg rfl rfl rfl
      | 1 => exact reg rfl rfl rfl
      | 2 => exact reg rfl rfl rfl
    · intro n hn
      exact counter (if_pos hn)
    · intro pattern hp hm hs k
      have he := execSelftest_eq hi hd h hp hm hs pattern
      refine ⟨fun hother => ?_, fun halone hclaim => ?_⟩
      · rw [selfBusy_other hother, if_pos rfl] at he
        exact ⟨_, he, wrote_sysResult_var hi.turn hc (begun_eq ..) h d .var selfBusyWord⟩
      · rw [selfBusy_alone halone hclaim, if_neg (by decide)] at he
        exact ⟨_, he, wrote_sysResult_var (s := setCore s pl.core _) hi.turn hc (begun_eq ..) h d (.held k.nextOp) 0⟩
  · intro a ht hu x
    obtain ⟨t, he, hp⟩ := wrsr_fstat hi hc ht hu h
    exact ⟨t, _, he, hp, writeFstat_fields ..⟩

end Sys2Proof.Proofs.System
end

section
/-! PROOFS. Events from outside. The claim of a packet's acknowledgement (R178, R334) fails of a package that lists a partition
twice. -/

namespace Sys2Proof.Proofs.Outside

open Machine Claims

/-! ### A package that lists partition 1 twice -/

/-- A packet of partition 1 that waits at a port. -/
def waitingPacket : Sent := { id := 0, part := 1, vl := 0, pkt := { words := [0], trunc := false } }

/-- A partition with these link tokens (R335). -/
def linkTenant (cfg : Word) (bal : BitVec 32) : Part := { Part.reset with budgets := [(2, ⟨cfg, bal, 0⟩)] }

/-- The first entry of partition 1, which every read finds, neither borrows nor lends. The second lends (bit 14) and has 100
tokens. Partition 2 borrows (bit 15), in lots of one token, and has none. -/
def twiceListed : State :=
  { State.reset with
    parts := [(1, linkTenant 0 0), (1, linkTenant 0x4000 100), (2, linkTenant 0x0000000800008000 0)]
    ports := [(0, { Port.reset with sent := [waitingPacket] })] }

/-- The next state of a step that has one. -/
def nextOf : Out → Option State
  | .next t => some t
  | _ => none

/-- Partition 2 borrows of the second entry, and the lender's registers are written over the first. -/
theorem linkCfg_twiceListed :
    (nextOf (exec (.packetAcknowledgement 0) twiceListed)).map (fun t => (budget t 1 2).cfg) = some 0x4000 := by decide

/-- Refutes O58: the statement asks of every state that the acknowledgement of a packet leaves a tenant that neither borrows
nor lends with its balance less the packet's flits. In `twiceListed` the tokens that partition 2 borrows come from the second
entry of partition 1, and the model writes that entry's registers, the lending bit among them, where the first one stood. The
events of the model write its tables through `tabPut`, which lists no key of a sorted table twice, but the statement has no
hypothesis that shuts such a table out. -/
theorem not_outsideEvents : ¬ Obligations.OutsideEvents := by
  intro h
  obtain ⟨-, -, -, -, -, -, -, -, -, -, -, -, hack⟩ := h twiceListed
  obtain ⟨t, ht, -, -, -, -, hbudget, -⟩ := hack 0 waitingPacket [] rfl nofun (by decide) rfl nofun
  have claim : budget t 1 2 = _ := hbudget ⟨by decide, by decide⟩ (by decide)
  have model := linkCfg_twiceListed
  rw [ht] at model
  have hcfg : (budget t 1 2).cfg = 0x4000 := Option.some.inj model
  rw [claim] at hcfg
  exact absurd hcfg (by decide)

end Sys2Proof.Proofs.Outside
end

section
/-! PROOFS. Cross-lane words (R103, R104, R113–R121): what the model's words compute from the active threads is what the
rules say of them. -/

namespace Sys2Proof.Proofs.CrossLane

open Machine Claims Laws Rounding Formats Floats OtherFloats

/-! ### What a word sees of the threads (R104, R114) -/

theorem mem_threads {m : Mask} {t : Nat} : t ∈ m.threads ↔ m.getLsbD t = true := by
  rw [Mask.threads, List.mem_filter, List.mem_range, and_iff_right_iff_imp]
  exact fun h => not_le.mp fun hle => absurd h (by simp [BitVec.getLsbD_of_ge m t hle])

/-- A mask that is not empty has a lowest thread. -/
theorem threads_ne_nil {m : Mask} (h : m ≠ 0) : m.threads ≠ [] := fun hn => h <| BitVec.eq_of_getLsbD_eq fun t ht => by
  have : ¬ t ∈ m.threads := by simp [hn]
  simpa [mem_threads] using this

theorem threads_nodup (m : Mask) : m.threads.Nodup := List.nodup_range.filter _

variable {l : Lanes} {old : Nat → Word}

/-- The lowest active thread's reads are the first of the word's input. -/
theorem headD_laneIns (h : l.act ≠ 0) (x : Nat × Word × Word × Word) :
    (laneIns l old).headD x = (l.first, l.a l.first, l.b l.first, old l.first) := by
  rw [laneIns, Lanes.first, Mask.lowest]
  cases hc : l.act.threads with
  | nil => exact absurd hc (threads_ne_nil h)
  | cons t r => rfl

/-- A thread that is not active reads as 0. -/
theorem laneVal_laneIns (t : Nat) : laneVal (laneIns l old) t = if l.act.getLsbD t then l.a t else 0 := by
  have find : ∀ ts : List Nat, ((ts.map fun i => (i, l.a i, l.b i, old i)).find? fun p => p.1 == t)
      = if t ∈ ts then some (t, l.a t, l.b t, old t) else none := by
    intro ts
    induction ts with
    | nil => rfl
    | cons i r ih =>
      by_cases h : i = t
      · simp [h]
      · simp [h, ih, Ne.symm h]
  rw [laneVal, laneIns, find]
  by_cases h : l.act.getLsbD t = true <;> simp [mem_threads, h]

theorem laneEl_laneIns (n e : Nat) : laneEl (laneIns l old) n e = l.el n e := by
  rw [laneEl, laneVal_laneIns, Lanes.el]
  split_ifs
  · rfl
  · simp [subEl]

theorem laneNum_laneIns (h : l.act ≠ 0) : laneNum (laneIns l old) = l.named := by
  rw [laneNum, headD_laneIns h, Lanes.named]

theorem ofEls_eq_ofSub (n : Nat) (f : Nat → Nat) : ofEls n f = ofSub n f := by
  rw [ofEls, packEls_map_range, ofSub]

theorem map_laneIns {α : Type} (f : Nat × Word × Word × Word → α) :
    (laneIns l old).map f = l.act.threads.map fun t => f (t, l.a t, l.b t, old t) := by
  rw [laneIns, List.map_map]; rfl

/-! ### From a word's function to its claim -/

/-- A word with no g destination issues only where its destination is none. -/
theorem laneComputes_of_dest {i : Instr} {c : LaneCalc} (hg : c.gOk = false) (h : (∀ n, c.d ≠ .g n) → LaneComputes i c) :
    LaneComputes i c := fun s pl g sp hs hc hl =>
  h (fun n hn => absurd (hl.dest.2 ⟨n, hn⟩) (by simp [hg])) s pl g sp hs hc hl

/-- The keys of a word that writes per thread are the threads that receive a value. -/
theorem keys_of_dest {c : LaneCalc} (hd : ∀ n, c.d ≠ .g n) :
    c.keys l = (List.range 32).filter fun t => (c.new l t).isSome := by
  rw [LaneCalc.keys]
  split
  · next n hn => exact absurd hn (hd n)
  · rfl

/-- A function that gives every active thread its value agrees with a word that computes these values. -/
theorem laneAgrees_each {c : LaneCalc} {f : LaneIn → List (Nat × Word) × Flags} {F : Lanes → Nat → Word}
    (hd : ∀ n, c.d ≠ .g n) (hn : ∀ l, c.new l = l.each (F l))
    (hv : ∀ l old, l.act ≠ 0 → (f (laneIns l old)).1 = l.act.threads.map fun t => (t, F l t))
    (hfl : ∀ l old, l.act ≠ 0 → (f (laneIns l old)).2 = c.flags l) : LaneAgrees c f where
  keys l old h := by rw [hv l old h]; exact keysOk_threads _ _ hd
  which l old h := by
    rw [hv l old h, keys_of_dest hd, hn, List.map_map, Mask.threads]
    refine (List.map_id _).trans (List.filter_congr fun t _ => ?_)
    cases ht : l.act.getLsbD t <;> simp [Lanes.each, ht]
  vals l old h t ht := by rw [hv l old h, threadVal_threads _ _ ht, hn, Lanes.each]
  flags := hfl

/-- A word that gives every active thread a value of its own (R103, R104). -/
theorem laneComputes_each {i : Instr} {c : LaneCalc} {f : LaneIn → List (Nat × Word) × Flags} {F : Lanes → Nat → Word}
    (hi : ∀ s, exec i s = laneWord s c.h { d := c.d, a := c.a, b := c.b, uniB := c.uniB, gOk := c.gOk, lat := c.lat } f)
    (hg : c.gOk = false) (hn : ∀ l, c.new l = l.each (F l))
    (hv : ∀ l old, l.act ≠ 0 → (f (laneIns l old)).1 = l.act.threads.map fun t => (t, F l t))
    (hfl : ∀ l old, l.act ≠ 0 → (f (laneIns l old)).2 = c.flags l) : LaneComputes i c :=
  laneComputes_of_dest hg fun hd => laneWord_spec c f i hi (laneAgrees_each hd hn hv hfl)

/-- A word that gives one value to every active thread, or once to a g register (R116, R119). -/
theorem laneComputes_all {i : Instr} {c : LaneCalc} {f : LaneIn → List (Nat × Word) × Flags} {x : Lanes → Word}
    (hi : ∀ s, exec i s = laneWord s c.h { d := c.d, a := c.a, b := c.b, uniB := c.uniB, gOk := c.gOk, lat := c.lat } f)
    (hn : ∀ l, c.new l = l.all c.d (x l))
    (hv : ∀ l old, l.act ≠ 0 → (f (laneIns l old)).1 = everywhere c.d (laneIns l old) (x l))
    (hfl : ∀ l old, l.act ≠ 0 → (f (laneIns l old)).2 = c.flags l) : LaneComputes i c := by
  refine laneWord_spec c f i hi ?_
  by_cases hd : ∃ n, c.d = .g n
  · obtain ⟨n, hd⟩ := hd
    have value : ∀ l old, l.act ≠ 0 → (f (laneIns l old)).1 = [(32, x l)] := fun l old h => by rw [hv l old h, hd]; rfl
    refine ⟨fun l old h => ?_, fun l old h => ?_, fun l old h t ht => ?_, hfl⟩
    · rw [value l old h, hd]; exact ⟨by simp, by simp⟩
    · rw [value l old h, LaneCalc.keys, hd]; rfl
    · rw [value l old h, hn, hd]
      simp [threadVal, tabFind, Lanes.all, ht.ne']
  · push Not at hd
    refine laneAgrees_each (F := fun l _ => x l) hd (fun l => ?_) (fun l old h => ?_) hfl
    · rw [hn]
      funext t
      cases hc : c.d with
      | g n => exact absurd hc (hd n)
      | _ => rfl
    · rw [hv l old h]
      cases hc : c.d with
      | g n => exact absurd hc (hd n)
      | _ => exact map_laneIns _

/-! ### Reductions (R118, R119) -/

/-- A type of a reduction is an integer type of the rules or a float type of the model. -/
theorem intType_eq (ty : RTy) :
    intType ty = if rFloat ty = none then some (rBits ty, rSigned ty) else none := by cases ty <;> rfl

theorem rFloat_eq_floatType {ty : RTy} {t : FTy} (h : rFloat ty = some t) : floatType ty = t ∧ floatBits t = rBits ty ∧ t ≠ .e4m3 := by
  cases ty <;> simp [rFloat] at h <;> subst h <;> exact ⟨rfl, rfl, by decide⟩

/-- Integers in a reduction stand for what their bits do. -/
theorem intOf_of_lt {n x : Nat} (signed : Bool) (hx : x < 2 ^ n) :
    intOf n signed x = if signed && decide (2 ^ (n - 1) ≤ x) then (x : Int) - 2 ^ n else (x : Int) := by
  simp [intOf, Nat.mod_eq_of_lt hx]

/-- A fold whose steps agree while the members and the value so far are in a set gives one result. -/
theorem foldl_congr_of_mem {α β : Type} {S : α → Prop} {M : β → Prop} {f g : α → β → α} (h : ∀ a b, S a → M b → f a b = g a b ∧ S (f a b))
    (ms : List β) (hm : ∀ b ∈ ms, M b) (a : α) (ha : S a) : ms.foldl f a = ms.foldl g a := by
  induction ms generalizing a with
  | nil => rfl
  | cons b r ih =>
    obtain ⟨e, hs⟩ := h a b ha (hm b (by simp))
    rw [List.foldl_cons, List.foldl_cons, ← e, ih (fun c hc => hm c (by simp [hc])) _ hs]

theorem foldl_add_mod (n : Nat) (ms : List Nat) (a : Nat) :
    ms.foldl (fun x y => (x + y) % 2 ^ n) (a % 2 ^ n) = (a + ms.sum) % 2 ^ n := by
  induction ms generalizing a with
  | nil => simp
  | cons x r ih => rw [List.foldl_cons, Nat.mod_add_mod, ih, List.sum_cons, add_assoc]

/-- An integer reduction of the model is that of R119. -/
theorem foldl_redInt_eq (op : RedOp) {ty : RTy} (hty : rFloat ty = none) {ms : List Nat} (hm : ∀ x ∈ ms, x < 2 ^ rBits ty) :
    ms.foldl (redInt op ty) (redIdent op ty) = foldInts op (rBits ty) (rSigned ty) ms := by
  have hw : 2 ^ (rBits ty - 1) < 2 ^ rBits ty := by cases ty <;> decide
  have hp : 0 < 2 ^ (rBits ty - 1) := by positivity
  cases op with
  | add =>
    have h := foldl_add_mod (rBits ty) ms 0
    rw [Nat.zero_mod, zero_add] at h
    simp only [redIdent, hty, foldInts]
    exact h
  | min =>
    simp only [redIdent, hty, foldInts]
    refine foldl_congr_of_mem (S := (· < 2 ^ rBits ty)) (M := (· < 2 ^ rBits ty)) (fun m x h1 h2 => ?_) ms hm _ (by split_ifs <;> omega)
    exact ⟨by simp only [redInt, intOf_of_lt _ h1, intOf_of_lt _ h2], by simp only [redInt]; split_ifs <;> assumption⟩
  | max =>
    simp only [redIdent, hty, foldInts]
    refine foldl_congr_of_mem (S := (· < 2 ^ rBits ty)) (M := (· < 2 ^ rBits ty)) (fun m x h1 h2 => ?_) ms hm _ (by split_ifs <;> omega)
    exact ⟨by simp only [redInt, intOf_of_lt _ h1, intOf_of_lt _ h2], by simp only [redInt]; split_ifs <;> assumption⟩
  | and => simp only [redIdent, hty, foldInts]; rfl
  | or => simp only [redIdent, hty, foldInts]; rfl
  | xor => simp only [redIdent, hty, foldInts]; rfl

theorem nanCode_lt (t : FTy) : nanCode t < 2 ^ floatBits t := by cases t <;> decide

theorem extremeOf_lt {t : FTy} (wantMax : Bool) {k j : Nat} (hk : k < 2 ^ floatBits t) (hj : j < 2 ^ floatBits t) :
    (extremeOf t wantMax k j).1 < 2 ^ floatBits t := by
  have := nanCode_lt t
  simp only [extremeOf]
  split_ifs <;> assumption

/-- Folding by FMIN or FMAX as the model does is folding by the rule of R89. -/
theorem redMinMax_cons_eq {t : FTy} (wantMax : Bool) {x : Nat} {r : List Nat} (hx : x < 2 ^ floatBits t)
    (hr : ∀ y ∈ r, y < 2 ^ floatBits t) :
    redMinMax t wantMax (x :: r) = r.foldl (fun a y => ((extremeOf t wantMax a.1 y).1, a.2 ||| (extremeOf t wantMax a.1 y).2))
      (extremeOf t wantMax x x) := by
  rw [redMinMax, minMaxTo_eq_extremeOf wantMax hx hx]
  refine foldl_congr_of_mem (S := fun a => a.1 < 2 ^ floatBits t) (M := (· < 2 ^ floatBits t)) (fun a y h1 h2 => ?_) r hr _
    (extremeOf_lt wantMax hx hx)
  rw [minMaxTo_eq_extremeOf wantMax h1 h2]
  exact ⟨rfl, extremeOf_lt wantMax h1 h2⟩

theorem foldFloats_eq (op : RedOp) {ty : RTy} {t : FTy} (hty : rFloat ty = some t) {ms : List Nat} (hm : ∀ x ∈ ms, x < 2 ^ rBits ty) :
    redList op ty ms = foldFloats op t ms := by
  obtain ⟨-, hb, ht⟩ := rFloat_eq_floatType hty
  have hinf : ∀ neg, fInf t neg = withSign t neg (infCode t) := fun neg => by rw [← infOf_eq, infOf, if_neg ht]
  simp only [redList, hty]
  cases ms with
  | nil => cases op <;> simp [foldFloats, redMinMax, hinf]
  | cons x r =>
    rw [← hb] at hm
    have hx := hm x (by simp)
    have hr : ∀ y ∈ r, y < 2 ^ floatBits t := fun y hy => hm y (by simp [hy])
    cases op with
    | add => simp [foldFloats, sumTo_eq_sumOf]
    | min => exact redMinMax_cons_eq false hx hr
    | max => exact redMinMax_cons_eq true hx hr
    | _ => rfl

/-- A reduction of the model is that of the rules. -/
theorem redList_eq_reduce (op : RedOp) (ty : RTy) {ms : List Nat} (hm : ∀ x ∈ ms, x < 2 ^ rBits ty) :
    redList op ty ms = reduce op ty ms := by
  cases hty : rFloat ty with
  | none => simp only [reduce, intType_eq, hty, if_true, ← foldl_redInt_eq op hty hm, redList]
  | some t =>
    rw [reduce, intType_eq, if_neg (by simp [hty]), foldFloats_eq op hty hm, (rFloat_eq_floatType hty).1]

/-- Of no members the reduction is the identity (R119). -/
theorem redIdent_eq_reduce (op : RedOp) (ty : RTy) : (redIdent op ty, 0) = reduce op ty [] := by
  cases op <;> cases ty <;> rfl

theorem mapEls_eq_gatherEls (n : Nat) (f : Nat → Nat × Flags) : mapEls n f = gatherEls n f := by
  rw [mapEls_eq_gatherN, gatherEls_eq_gatherN]

/-- The members that the model sees are those of the active threads. -/
theorem redMembers_eq (ty : RTy) (k : Nat) : redMembers ty (laneIns l old) k = l.members (rBits ty) k l.act.threads := map_laneIns _

theorem members_lt (n k : Nat) (ts : List Nat) : ∀ x ∈ l.members n k ts, x < 2 ^ n := by
  intro x hx
  obtain ⟨t, -, rfl⟩ := List.mem_map.mp hx
  exact sub_lt ..

/-- GRED (R119). -/
theorem computes_gred (h : Hd) (op : RedOp) (ty : RTy) (d a : Opnd) :
    let all := fun l : Lanes => gatherEls (rBits ty) fun k => reduce op ty (l.members (rBits ty) k l.act.threads)
    LaneComputes (.gred h op ty d a) (redCalc h ty d a true (fun l => l.all d (all l).1) fun l => (all l).2) := by
  intro all
  have value : ∀ l old, (mapEls (rBits ty) fun k => redList op ty (redMembers ty (laneIns l old) k)) = all l := fun l old => by
    rw [mapEls_eq_gatherEls]
    congr 1
    funext k
    rw [redMembers_eq, redList_eq_reduce op ty (members_lt _ _ _)]
  refine laneComputes_all (c := redCalc h ty d a true (fun l => l.all d (all l).1) fun l => (all l).2)
    (f := fun ins =>
      let (x, f) := mapEls (rBits ty) fun k => redList op ty (redMembers ty ins k)
      (everywhere d ins x, f)) (x := fun l => (all l).1) (fun _ => rfl) (fun _ => rfl) (fun l old _ => ?_) fun l old _ => ?_
  · simp only [value]; rfl
  · simp only [value]; rfl

/-! ### Scans (R119) -/

/-- The active threads ascend. -/
theorem threads_pairwise (m : Mask) : m.threads.Pairwise (· < ·) := List.pairwise_lt_range.filter _

/-- Of ascending numbers, those below the one at place i are the first i, and with it the first i + 1. -/
theorem filter_lt_eq_take {ts : List Nat} (h : ts.Pairwise (· < ·)) {i : Nat} (hi : i < ts.length) :
    (ts.filter fun j => decide (j < ts[i])) = ts.take i ∧ (ts.filter fun j => decide (j ≤ ts[i])) = ts.take (i + 1) := by
  have below : ∀ j (hj : j < ts.length), j < i → ts[j] < ts[i] := fun j hj h' => List.pairwise_iff_getElem.mp h j i hj hi h'
  have above : ∀ j (hj : j < ts.length), i < j → ts[i] < ts[j] := fun j hj h' => List.pairwise_iff_getElem.mp h i j hi hj h'
  have split : ∀ (p : Nat → Bool) (n : Nat), (∀ x ∈ ts.take n, p x = true) → (∀ x ∈ ts.drop n, p x = false) →
      ts.filter p = ts.take n := by
    intro p n h1 h2
    conv_lhs => rw [← List.take_append_drop n ts]
    rw [List.filter_append, List.filter_eq_self.mpr h1, List.filter_eq_nil_iff.mpr (fun x hx => by simp [h2 x hx]), List.append_nil]
  constructor <;> refine split _ _ (fun x hx => ?_) fun x hx => ?_
  · obtain ⟨j, hj, rfl⟩ := List.mem_take_iff_getElem.mp hx
    exact decide_eq_true (below j (by omega) (by omega))
  · obtain ⟨j, hj, rfl⟩ := List.mem_drop_iff_getElem.mp hx
    rw [decide_eq_false_iff_not, not_lt]
    rcases Nat.eq_zero_or_pos j with rfl | hj0
    · simp
    · exact (above _ (by omega) (by omega)).le
  · obtain ⟨j, hj, rfl⟩ := List.mem_take_iff_getElem.mp hx
    refine decide_eq_true ?_
    rcases Nat.lt_or_ge j i with hj' | hj'
    · exact (below j (by omega) hj').le
    · obtain rfl : j = i := by omega
      exact le_rfl
  · obtain ⟨j, hj, rfl⟩ := List.mem_drop_iff_getElem.mp hx
    rw [decide_eq_false_iff_not, not_le]
    exact above _ (by omega) (by omega)

/-- What the i-th active thread receives from a scan. -/
theorem scanAt_eq (op : RedOp) (ty : RTy) (excl : Bool) {i : Nat} (hi : i < l.act.threads.length) :
    (mapEls (rBits ty) fun k => scanAt op ty excl (redMembers ty (laneIns l old) k) i) = scanOf op ty excl l l.act.threads[i] := by
  obtain ⟨below, upTo⟩ := filter_lt_eq_take (threads_pairwise l.act) hi
  rw [mapEls_eq_gatherEls, scanOf]
  congr 1
  funext k
  rw [redMembers_eq, scanAt]
  have hm : ∀ n, (l.members (rBits ty) k l.act.threads).take n = l.members (rBits ty) k (l.act.threads.take n) := fun n =>
    (List.map_take ..).symm
  cases excl with
  | false => simp only [Bool.false_and, Bool.false_eq_true, if_false, hm, upTo, redList_eq_reduce op ty (members_lt _ _ _)]
  | true =>
    simp only [Bool.true_and, beq_iff_eq, if_true, below, hm, redList_eq_reduce op ty (members_lt _ _ _)]
    split_ifs with h0
    · rw [h0, redIdent_eq_reduce]; rfl
    · rfl

/-- The results of a scan are those of the active threads in their order. -/
theorem map_scanAt_eq (op : RedOp) (ty : RTy) (excl : Bool) :
    ((List.range (laneIns l old).length).map fun i => mapEls (rBits ty) fun k => scanAt op ty excl (redMembers ty (laneIns l old) k) i)
      = l.act.threads.map (scanOf op ty excl l) := by
  have hlen : (laneIns l old).length = l.act.threads.length := List.length_map ..
  refine List.ext_getElem (by simp [hlen]) fun i h1 h2 => ?_
  rw [List.getElem_map, List.getElem_map, List.getElem_range]
  exact scanAt_eq op ty excl (by simpa using h2)

/-- GSCAN of the model is a cross-lane word. -/
theorem exec_gscan_eq (h : Hd) (op : RedOp) (ty : RTy) (excl : Bool) (d a : Opnd) (s : State) :
    exec (.gscan h op ty excl d a) s = laneWord s h (lane2 d a .z (rConv ty) (.int 64)) fun ins =>
      let rs := (List.range ins.length).map fun i => mapEls (rBits ty) fun k => scanAt op ty excl (redMembers ty ins k) i
      ((ins.map (·.1)).zip (rs.map (·.1)), rs.foldl (fun f r => f ||| r.2) 0) := rfl

/-- GSCAN (R119). -/
theorem computes_gscan (h : Hd) (op : RedOp) (ty : RTy) (excl : Bool) (d a : Opnd) :
    LaneComputes (.gscan h op ty excl d a) (redCalc h ty d a false (fun l => l.each fun t => (scanOf op ty excl l t).1) fun l =>
      l.act.threads.foldl (fun f t => f ||| (scanOf op ty excl l t).2) 0) := by
  refine laneComputes_each (c := redCalc h ty d a false (fun l => l.each fun t => (scanOf op ty excl l t).1) fun l =>
      l.act.threads.foldl (fun f t => f ||| (scanOf op ty excl l t).2) 0)
    (F := fun l t => (scanOf op ty excl l t).1) (fun s => exec_gscan_eq h op ty excl d a s) rfl (fun _ => rfl) (fun l old _ => ?_) fun l old _ => ?_
  · simp only [map_scanAt_eq, map_laneIns, List.map_id', List.map_map]
    exact List.map_prod_left_eq_zip.symm
  · simp only [map_scanAt_eq, List.foldl_map]
    rfl

/-- Settles O30: the model's folds are those of R119, over the threads that the scan has passed. -/
theorem reductionWords : Obligations.ReductionWords := by
  intro h op ty d a _ all
  exact ⟨computes_gred h op ty d a, fun excl => computes_gscan h op ty excl d a⟩

/-! ### BCAST (R115) -/

theorem laneBits_eq (w : LaneW) : laneBits w = shufBits w := by cases w <;> rfl

/-- BCAST of the model is a cross-lane word. -/
theorem exec_bcast_eq (h : Hd) (w : LaneW) (d a b : Opnd) (s : State) :
    exec (.bcast h w d a b) s = laneWord s h { lane2 d a b (.int 64) (.int 64) with uniB := true } fun ins =>
      (ins.map fun p => (p.1, ofEls (laneBits w) fun _ => laneEl ins (laneBits w) (p.2.2.1.toNat % (32 * (64 / laneBits w)))), 0) := rfl

/-- BCAST as the model has it: each thread takes the element that b names as the thread itself reads b. -/
theorem computes_bcast (h : Hd) (w : LaneW) (d a b : Opnd) :
    LaneComputes (.bcast h w d a b) { laneCalc h d a b (.int 64) (.int 64) (fun l => l.each fun t =>
      ofSub (shufBits w) fun _ => l.el (shufBits w) ((l.b t).toNat % (32 * (64 / shufBits w)))) with uniB := true } := by
  refine laneComputes_each (F := fun l t =>
      ofSub (shufBits w) fun _ => l.el (shufBits w) ((l.b t).toNat % (32 * (64 / shufBits w))))
    (fun s => exec_bcast_eq h w d a b s) rfl (fun _ => rfl) (fun l old _ => ?_) fun _ _ _ => rfl
  simp only [map_laneIns, ofEls_eq_ofSub, laneEl_laneIns, laneBits_eq]

/-- Where a cross-lane word may issue, the next state's v register holds what the word computes. -/
theorem vreg_of_laneComputes {i : Instr} {c : LaneCalc} {s t : State} {pl : Place} {g : Group} {sp : Split} {n : Fin 64}
    {k : Nat} {x : Word} (hc : LaneComputes i c) (hs : Issues s pl g sp) (hg : Calm g) (hl : c.Legal g sp pl.split)
    (hd : c.d = .v n) (hk : k < 32) (hx : c.new (c.sees s g sp) k = some x) (ht : exec i s = .next t) :
    (groupAt t pl.core pl.slot).map (fun g' => tabGet 0 g'.vregs (32 * n.val + k)) = some x := by
  obtain ⟨t', ht', hw, -⟩ := hc s pl g sp hs hg hl
  obtain rfl : t' = t := by simpa using ht'.symm.trans ht
  obtain ⟨g', sp', hwent, hregs, -⟩ := hw.went
  have hr := hregs (.v n) k hk rfl fun _ => rfl
  rw [hd, hx] at hr
  rw [hwent.group]
  exact congrArg some (by simpa [regNow, dstVal] using hr)

/-- A split in whose run an earlier word of the present bundle wrote g1, whose record gives thread 0 and thread 1 different
values of g1 before it. -/
def splitG1 : Split :=
  { probeSplit with run := { Run.start with prods := [{ pipe := .a, bundle := 1, lat := some 4, dst := .g 1, old := [(0, 0), (1, 1)]
                                                        new := [(0, 0)], held := none }] } }

/-- The probe's group with that split. -/
def splitG1Group : Group := { probeGroup with splits := [(0, splitG1)] }

/-- A package in which that split has the turn. -/
def splitG1State : State := setGroup (State.reset.withFetchWord 32 0) 0 0 splitG1Group

theorem splitG1State_issues : Issues splitG1State ⟨0, 0, 0⟩ splitG1Group splitG1 :=
  ⟨rfl, groupAt_setGroup_self _, rfl⟩

/-- BCAST v3, tid, g1 may issue there. -/
theorem splitG1_legal {c : LaneCalc} (hd : c.d = .v 3) (ha : c.a.1 = .tid) (hb : c.b.1 = .g 1) :
    c.Legal splitG1Group splitG1 0 where
  names := by rw [hd, ha, hb]; decide
  dest := by rw [hd]; exact ⟨rfl, by simp⟩
  uni _ := by rw [hb]; rfl
  hazard := by rw [hd, ha, hb]; decide
  ready := by rw [ha, hb]; decide
  active := by decide

/-- Refutes O29: the statement has every thread take the element that the lowest active thread's read of b names, and the model
lets each thread read the uniform b for itself. The reads differ where the run's records give the threads different values of
one g register, as in `splitG1State`, where BCAST.b64 v3, tid, g1 leaves 1 in v3 of thread 1 and the statement asks for 0. No
word of the model leaves such a record (a g register has one entry), but the statement has no hypothesis that shuts it out. -/
theorem not_laneWords : ¬ Obligations.LaneWords := by
  rintro ⟨hmoves, -⟩
  let h : Hd := ⟨false, false⟩
  have model := computes_bcast h .b64 (.v 3) .tid (.g 1)
  have claim := ((hmoves h (.v 3) .tid (.g 1)).1 .b64).2
  have hg : Calm splitG1Group := ⟨rfl, by decide⟩
  obtain ⟨t, ht, -⟩ := model _ _ _ _ splitG1State_issues hg (splitG1_legal rfl rfl rfl)
  have h1 := vreg_of_laneComputes (x := 1) (k := 1) model splitG1State_issues hg (splitG1_legal rfl rfl rfl) rfl (by decide) (by decide) ht
  have h0 := vreg_of_laneComputes (x := 0) (k := 1) claim splitG1State_issues hg (splitG1_legal rfl rfl rfl) rfl (by decide) (by decide) ht
  exact absurd (h1.symm.trans h0) (by decide)

end Sys2Proof.Proofs.CrossLane
end

section
/-! PROOFS. The special functions of one sub-element (R107, R108): special values and exact cases, and SQRT rounded once. -/

namespace Sys2Proof.Proofs.Special

open Machine Claims Laws Rounding Formats Nearest Floats OtherFloats Conversions Sticky

/-! ### The words (R107) -/

theorem specEl_eq_widened (t : STy) (f : Nat → Nat × Flags) (k : Nat) : specEl t f k = widened t f k := by
  cases t with
  | f32 => rfl
  | bf16 => simp only [specEl, widened, cvtFF_eq_convFloat]; rfl

/-- A special function is computed as the rules say where the model's FP32 function is the rules' on every code. -/
theorem computes_spec {i : Instr} {h : Hd} {t : STy} {d a : Opnd} {f f' : Nat → Nat × Flags}
    (hi : ∀ s, exec i s = specWord s h t d a f) (e : ∀ k < 2 ^ 32, f k = f' k) : Computes i (specCalc h t d a f') .var := by
  have el : ∀ x, x < 2 ^ floatBits (specType t) → specEl t f x = widened t f' x := fun x hx => by
    rw [specEl_eq_widened]
    cases t with
    | f32 => exact e x hx
    | bf16 =>
      have hx : x * 65536 < 2 ^ 32 := by have : x < 2 ^ 16 := hx; omega
      simp only [widened, e _ hx]
  have h1 := ofReg_fltWord h (specType t) d a .z (f := fun x _ _ => specEl t f x) fun x _ _ hx _ _ => el x hx
  have ht : sFmt t = specType t := by cases t <;> rfl
  refine computes_of_eq hi rfl ?_
  rw [ht]
  exact congrArg (fun c : Calc => { c with pipe := .m, lat := some 12 }) h1

/-! ### FP32 numbers (R73) -/

variable {c : Nat}

/-- The significand and the exponent of an FP32 number. -/
theorem f32_fin {neg : Bool} {m : Nat} {e : Int} (h : fDecode .f32 c = .fin neg m e) :
    m < 2 ^ 24 ∧ -149 ≤ e ∧ e ≤ 104 ∧ (e = -149 ∨ 2 ^ 23 ≤ m) := by
  have hmod : fDecode .f32 (c % 2 ^ fWidth .f32) = fDecode .f32 c := by simp only [fDecode, Nat.mod_mod]
  obtain ⟨s, k, hk, he⟩ := exists_withSign .f32 (Nat.mod_lt c (by decide : 0 < 2 ^ fWidth .f32))
  rw [← hmod, he, fDecode_withSign .f32 s hk] at h
  have hq : fQmin .f32 = -149 := rfl
  have hf : fFrac .f32 = 23 := rfl
  have hmax : maxCode .f32 = 0x7F7FFFFF := rfl
  rw [hq, hf, hmax] at h
  split at h
  · split at h
    · obtain ⟨-, rfl, rfl⟩ := FVal.fin.inj h
      omega
    · obtain ⟨-, rfl, rfl⟩ := FVal.fin.inj h
      omega
  · split at h <;> cases h

/-- A number below 0 has a sign and a significand other than 0. -/
theorem exists_fin_of_neg {v : FVal} (h : isNum v = true) (hx : ratOf v < 0) : ∃ m e, v = .fin true m e ∧ m ≠ 0 := by
  cases v with
  | nan s | inf s => exact absurd h (by simp [isNum])
  | fin neg m e =>
    have hm : m ≠ 0 := fun h0 => by simp [ratOf, h0] at hx
    obtain rfl := (ratOf_fin_neg_iff hm neg e).mp hx
    exact ⟨m, e, rfl, hm⟩

/-- A number above 0 has no sign and a significand other than 0. -/
theorem exists_fin_of_pos {v : FVal} (h : isNum v = true) (hx : 0 < ratOf v) :
    ∃ m e, v = .fin false m e ∧ m ≠ 0 ∧ ratOf v = m * 2 ^ e := by
  cases v with
  | nan s | inf s => exact absurd h (by simp [isNum])
  | fin neg m e =>
    have hm : m ≠ 0 := fun h0 => by simp [ratOf, h0] at hx
    have hn := mt (ratOf_fin_neg_iff hm neg e).mpr (not_lt.mpr hx.le)
    obtain rfl : neg = false := by simpa using hn
    exact ⟨m, e, rfl, hm, by simp [ratOf_fin]⟩

/-- A power of two has one bit, whose place is its exponent. -/
theorem eq_two_pow_of_eq_zpow {m : Nat} {e i : Int} (hm : m ≠ 0) (h : (m : ℚ) * 2 ^ e = 2 ^ i) :
    m = 2 ^ (bitLen m - 1) ∧ e + ((bitLen m - 1 : Nat) : Int) = i := by
  have hlog := log_eq_bitLen hm e
  have hb : 1 ≤ bitLen m := by rw [bitLen, if_neg hm]; omega
  rw [h, show (2 : ℚ) = ((2 : Nat) : ℚ) by norm_num, Int.log_zpow one_lt_two] at hlog
  have hi : e + ((bitLen m - 1 : Nat) : Int) = i := by omega
  refine ⟨?_, hi⟩
  rw [← hi, zpow_add₀ two_ne_zero, mul_comm ((2 : ℚ) ^ e), zpow_natCast] at h
  exact_mod_cast mul_right_cancel₀ (two_zpow_pos e).ne' h

/-! ### Roundings that are exact or do not overflow (R79) -/

variable {t : FTy} {neg : Bool} {x : ℚ}

/-- A number of at most p bits above the format's least exponent is its own rounding. -/
theorem roundedMag_exact (t : FTy) (rm : Rnd) (thr : Nat) (neg : Bool) {n : Nat} (h0 : n ≠ 0) (hn : n < 2 ^ (fFrac t + 1))
    {q : Int} (hq : fQmin t ≤ q) : roundedMag t rm thr neg (n * 2 ^ q) = n * 2 ^ q := by
  have hu : unitExp t (n * 2 ^ q) ≤ q := by
    have hl := log_eq_bitLen h0 q
    have hb : bitLen n ≤ fFrac t + 1 := by
      rw [bitLen, if_neg h0]
      exact (Nat.log2_lt h0).mpr hn
    rw [unitExp, hl]
    omega
  have hunits : (n : ℚ) * 2 ^ q / 2 ^ unitExp t (n * 2 ^ q) = (n * 2 ^ (q - unitExp t (n * 2 ^ q)).toNat : Nat) := by
    rw [mul_div_assoc, ← zpow_sub₀ two_ne_zero, two_zpow_toNat (by omega)]
    push_cast
    rfl
  rw [roundedMag, unitsOf, hunits, roundUnits_natCast, ← hunits, div_mul_cancel₀ _ (two_zpow_pos _).ne']

/-- A magnitude of at most the largest finite number is rounded to one of at most that. -/
theorem roundedMag_le_of_le (ht : t ≠ .e4m3) (neg : Bool) (hx : 0 < x) (h : x ≤ maxFinite t) :
    roundedMag t .rne 0 neg x ≤ maxFinite t := by
  refine not_lt.mp fun hlt => ?_
  have hedge := (maxFinite_lt_roundedMag_iff ht neg hx).mp hlt
  have hd : (0 : ℚ) < 2 ^ (fracBits t + 2) - 2 := by
    have : (2 : ℚ) ^ 1 < 2 ^ (fracBits t + 2) := pow_lt_pow_right₀ one_lt_two (by omega)
    linarith
  have hpos := hx.trans_le h
  have : 0 < maxFinite t * (1 / (2 ^ (fracBits t + 2) - 2)) := mul_pos hpos (div_pos one_pos hd)
  linarith

/-- A magnitude in the normal range is not tiny. -/
theorem isTiny_eq_false (t : FTy) (rm : Rnd) (thr : Nat) (neg : Bool) (h : 2 ^ minExp2 t ≤ x) : isTiny t rm thr neg x = false := by
  have hpos := (two_zpow_pos _).trans_le h
  have hlog := (Int.zpow_le_iff_le_log one_lt_two hpos).mp (by exact_mod_cast h : ((2 : Nat) : ℚ) ^ minExp2 t ≤ x)
  rw [minExp2_eq] at hlog
  rw [← tiny_iff t rm thr neg hpos, decide_eq_false (by omega : ¬ Int.log 2 x - (fFrac t : Int) < fQmin t), Bool.false_and]

/-- A rounding to nearest that does not overflow: the code of the rounded magnitude, and its flags. -/
theorem roundTo_of_le (ht : t ≠ .e4m3) (neg : Bool) {m : Nat} (hm : m ≠ 0) (e : Int) (h : (m : ℚ) * 2 ^ e ≤ maxFinite t) :
    roundTo t .rne 0 neg m e = (withSign t neg (roundedCode t .rne neg (m * 2 ^ e)),
      flagIf (decide (roundedMag t .rne 0 neg (m * 2 ^ e) ≠ m * 2 ^ e) && isTiny t .rne 0 neg (m * 2 ^ e)) fUF
        ||| flagIf (decide (roundedMag t .rne 0 neg (m * 2 ^ e) ≠ m * 2 ^ e)) fIX) := by
  have hpos : (0 : ℚ) < m * 2 ^ e := mul_pos (by exact_mod_cast Nat.pos_of_ne_zero hm) (two_zpow_pos e)
  have hneg : decide (ratOf (.fin neg m e) < 0) = neg := by
    rw [Bool.eq_iff_iff, decide_eq_true_iff, ratOf_fin_neg_iff hm]
  have hle := roundedMag_le_of_le ht neg hpos h
  rw [roundTo_eq_roundRat t .rne 0 neg e hm, roundRat_eq]
  simp only [hneg, abs_ratOf_fin, reduceCtorEq, decide_false, Bool.false_and, Bool.false_eq_true, if_false,
    if_neg (not_lt.mpr hle), roundedCode]

theorem roundedCode_le (ht : t ≠ .e4m3) (neg : Bool) (hx : 0 < x) (h : x ≤ maxFinite t) :
    roundedCode t .rne neg x ≤ maxCode t := by
  rw [← finMag_le_maxFinite_iff, finMag_roundedCode t .rne neg hx]
  exact roundedMag_le_of_le ht neg hx h

/-- The number that a rounding to nearest gives where it does not overflow. -/
theorem isNum_ratOf_roundTo (ht : t ≠ .e4m3) (neg : Bool) {m : Nat} (hm : m ≠ 0) (e : Int) (h : (m : ℚ) * 2 ^ e ≤ maxFinite t) :
    isNum (fDecode t (roundTo t .rne 0 neg m e).1) = true
      ∧ ratOf (fDecode t (roundTo t .rne 0 neg m e).1) = (if neg then -1 else 1) * roundedMag t .rne 0 neg (m * 2 ^ e) := by
  have hpos : (0 : ℚ) < m * 2 ^ e := mul_pos (by exact_mod_cast Nat.pos_of_ne_zero hm) (two_zpow_pos e)
  have hle := roundedCode_le ht neg hpos h
  rw [roundTo_of_le ht neg hm e h]
  exact ⟨isNum_of_le neg hle, by rw [ratOf_withSign t neg hle, finMag_roundedCode t .rne neg hpos]⟩

/-- A number that the format has is rounded to itself without a flag. -/
theorem roundTo_exact (ht : t ≠ .e4m3) (neg : Bool) {m : Nat} (hm : m ≠ 0) (hlt : m < 2 ^ (fFrac t + 1)) {e : Int}
    (he : fQmin t ≤ e) (h : (m : ℚ) * 2 ^ e ≤ maxFinite t) :
    ratOf (fDecode t (roundTo t .rne 0 neg m e).1) = ratOf (.fin neg m e) ∧ (roundTo t .rne 0 neg m e).2 = 0 := by
  have hx := roundedMag_exact t .rne 0 neg hm hlt he
  refine ⟨by rw [(isNum_ratOf_roundTo ht neg hm e h).2, hx, ratOf_fin, mul_assoc], ?_⟩
  rw [roundTo_of_le ht neg hm e h, hx]
  simp [flagIf]

theorem le_maxFinite_f32 {n : Int} (hn : n ≤ 127) (h : x ≤ 2 ^ n) : x ≤ maxFinite .f32 := by
  have h1 : (2 : ℚ) ^ n ≤ 2 ^ (127 : Int) := two_zpow_le hn
  have h2 : (2 : ℚ) ^ (127 : Int) ≤ maxFinite .f32 := by norm_num [maxFinite]
  linarith

/-! ### Special values and exact cases (R108) -/

/-- A NaN gives the canonical NaN. -/
theorem special_nan {sig : Bool} (h : fDecode .f32 c = .nan sig) :
    ∀ f ∈ [sqrtOf, rsqOf, log2Of, trigOf false, trigOf true, tanhOf], f c = (nanCode .f32, if sig then fIV else 0) := by
  simp [sqrtOf, rsqOf, log2Of, trigOf, tanhOf, h, nanCode_eq, flagIf]

/-- Of numbers below 0 and of −∞, SQRT, RSQ and LOG2 are NaN. -/
theorem special_negative (h : fDecode .f32 c = .inf true ∨ isNum (fDecode .f32 c) = true ∧ ratOf (fDecode .f32 c) < 0) :
    ∀ f ∈ [sqrtOf, rsqOf, log2Of], f c = (nanCode .f32, fIV) := by
  rcases h with h | ⟨hnum, hx⟩
  · simp [sqrtOf, rsqOf, log2Of, h, nanCode_eq]
  · obtain ⟨m, e, hv, hm⟩ := exists_fin_of_neg hnum hx
    simp [sqrtOf, rsqOf, log2Of, hv, hm, nanCode_eq]

theorem special_inf {neg : Bool} (h : fDecode .f32 c = .inf neg) :
    trigOf false c = (nanCode .f32, fIV) ∧ trigOf true c = (nanCode .f32, fIV)
      ∧ tanhOf c = (withSign .f32 neg 0x3F800000, 0) := by
  simp [trigOf, tanhOf, h, nanCode_eq, withSign_eq]

theorem special_top (h : fDecode .f32 c = .inf false) :
    sqrtOf c = (infCode .f32, 0) ∧ rsqOf c = (0, 0) ∧ log2Of c = (infCode .f32, 0) := by
  have hi : fInf .f32 false = infCode .f32 := rfl
  simp [sqrtOf, rsqOf, log2Of, h, hi]

/-- The functions of ±0. -/
theorem special_zero {neg : Bool} {e : Int} (h : fDecode .f32 c = .fin neg 0 e) :
    sqrtOf c = (withSign .f32 neg 0, 0) ∧ rsqOf c = (withSign .f32 neg (infCode .f32), fDZ)
      ∧ log2Of c = (withSign .f32 true (infCode .f32), fDZ) ∧ trigOf false c = (withSign .f32 neg 0, 0)
      ∧ trigOf true c = (0x3F800000, 0) ∧ tanhOf c = (withSign .f32 neg 0, 0) := by
  have hi : ∀ s, fInf .f32 s = withSign .f32 s (infCode .f32) := fun s => (infOf_eq .f32 s).symm
  simp [sqrtOf, rsqOf, log2Of, trigOf, tanhOf, h, hi, withSign_eq]

/-- From 9.5 on TANH is ±1. -/
theorem tanhOf_of_large (hnum : isNum (fDecode .f32 c) = true) (hx : 19 / 2 ≤ |ratOf (fDecode .f32 c)|) :
    tanhOf c = (withSign .f32 (decide (ratOf (fDecode .f32 c) < 0)) 0x3F800000, fIX) := by
  cases hv : fDecode .f32 c with
  | nan s | inf s => rw [hv] at hnum; exact absurd hnum (by simp [isNum])
  | fin neg m e =>
    rw [hv, abs_ratOf_fin] at hx
    have hm : m ≠ 0 := fun h0 => by
      rw [h0, Nat.cast_zero, zero_mul] at hx
      norm_num at hx
    have hcmp : ¬ fvCmp (.fin false m e) (.fin false 19 (-1)) < 0 := by
      rw [(fvCmp_fin false false m 19 e (-1)).1, not_lt, ratOf_fin, ratOf_fin]
      norm_num at hx ⊢
      exact hx
    have hneg : decide (ratOf (.fin neg m e) < 0) = neg := by
      rw [Bool.eq_iff_iff, decide_eq_true_iff, ratOf_fin_neg_iff hm]
    simp [tanhOf, hv, hm, not_lt.mp hcmp, hneg, withSign_eq]

/-- LOG2 of a power of two is its exponent (R108). -/
theorem log2Of_two_pow {i : Int} (hnum : isNum (fDecode .f32 c) = true) (hx : ratOf (fDecode .f32 c) = 2 ^ i) :
    log2Of c = roundRne .f32 (decide (i < 0)) i.natAbs 0 ∧ -149 ≤ i ∧ i ≤ 127 := by
  obtain ⟨m, e, hv, hm, hval⟩ := exists_fin_of_pos hnum (hx ▸ two_zpow_pos i)
  obtain ⟨hpow, hi⟩ := eq_two_pow_of_eq_zpow hm (hval.symm.trans hx)
  obtain ⟨h24, he, he', -⟩ := f32_fin hv
  have hb : bitLen m ≤ 24 := Integer.bitLen_le h24
  refine ⟨?_, by omega, by omega⟩
  simp only [log2Of, hv, hm, if_false, Bool.false_eq_true, hi]
  rw [if_pos hpow]

theorem log2Of_exact {i : Int} (hnum : isNum (fDecode .f32 c) = true) (hx : ratOf (fDecode .f32 c) = 2 ^ i) :
    ratOf (fDecode .f32 (log2Of c).1) = i ∧ (log2Of c).2 = 0 := by
  obtain ⟨he, hlo, hhi⟩ := log2Of_two_pow hnum hx
  rw [he, roundRne]
  by_cases h0 : i = 0
  · subst h0
    exact ⟨by rw [show fDecode .f32 (roundTo .f32 .rne 0 (decide ((0 : Int) < 0)) (Int.natAbs 0) 0).1 = .fin false 0 (-149) by decide, ratOf_fin]; simp, rfl⟩
  · have hi : i.natAbs ≠ 0 := Int.natAbs_ne_zero.mpr h0
    have hlt : i.natAbs < 2 ^ 8 := by omega
    obtain ⟨h1, h2⟩ := roundTo_exact (t := .f32) (by decide) (decide (i < 0)) hi (hlt.trans (by decide)) (by decide : fQmin .f32 ≤ 0)
      (le_maxFinite_f32 (n := 8) (by decide) (by rw [zpow_zero, mul_one]; exact_mod_cast hlt.le))
    refine ⟨?_, h2⟩
    rw [h1, ratOf_fin, zpow_zero, mul_one]
    rcases lt_or_ge i 0 with h | h
    · simp [h, abs_of_neg h]
    · simp [not_lt.mpr h, abs_of_nonneg h]

/-- RSQ of an even power of two is a power of two (R108). -/
theorem rsqOf_exact {i : Int} (hnum : isNum (fDecode .f32 c) = true) (hx : ratOf (fDecode .f32 c) = 2 ^ (2 * i)) :
    ratOf (fDecode .f32 (rsqOf c).1) = 2 ^ (-i) ∧ (rsqOf c).2 = 0 := by
  obtain ⟨m, e, hv, hm, hval⟩ := exists_fin_of_pos hnum (hx ▸ two_zpow_pos _)
  obtain ⟨hpow, hi⟩ := eq_two_pow_of_eq_zpow hm (hval.symm.trans hx)
  obtain ⟨h24, he, he', -⟩ := f32_fin hv
  have hb : bitLen m ≤ 24 := Integer.bitLen_le h24
  have hr : rsqOf c = roundRne .f32 false 1 (-i) := by
    have hmod : 2 * i % 2 = 0 := by omega
    have hdiv : 2 * i / 2 = i := by omega
    simp only [rsqOf, hv, hm, if_false, Bool.false_eq_true, hi, hmod, hdiv, beq_self_eq_true, Bool.and_true, decide_eq_true_eq]
    rw [if_pos hpow]
  obtain ⟨h1, h2⟩ := roundTo_exact (t := .f32) (by decide) false one_ne_zero (by decide) (e := -i)
    (by rw [show fQmin .f32 = -149 from rfl]; omega) (le_maxFinite_f32 (n := 127) le_rfl (by
      rw [Nat.cast_one, one_mul]
      exact two_zpow_le (by omega)))
  rw [hr, roundRne]
  exact ⟨by rw [h1, ratOf_fin]; simp, h2⟩

/-- Settles O27: each function's branches are the rows of R108's table, and the exact cases are numbers of the format. -/
theorem boundedFunctions : Obligations.BoundedFunctions := by
  refine ⟨fun h t d a => ⟨computes_spec (fun _ => rfl) fun _ _ => rfl, computes_spec (fun _ => rfl) fun _ _ => rfl,
    computes_spec (fun _ => rfl) fun _ _ => rfl, computes_spec (fun _ => rfl) fun _ _ => rfl,
    computes_spec (fun _ => rfl) fun _ _ => rfl, computes_spec (fun _ => rfl) fun _ _ => rfl⟩, ?_⟩
  intro c _ v x nan minusZero
  refine ⟨fun sig => special_nan, special_negative, fun neg => special_inf, special_top, ?_, ?_, ?_, tanhOf_of_large,
    fun i => log2Of_exact, ?_, fun i => rsqOf_exact⟩
  · rintro rfl
    obtain ⟨h1, h2, -, h3, -, h4⟩ := special_zero (neg := false) (e := -149) (c := 0) (by decide)
    exact ⟨h1, h2, h3, h4⟩
  · intro hc
    obtain ⟨h1, h2, -, h3, -, h4⟩ := special_zero (neg := true) (e := -149) (c := c) (by rw [hc]; decide)
    exact ⟨h1.trans (by rw [hc]), h2, h3.trans (by rw [hc]), h4.trans (by rw [hc])⟩
  · intro hc
    obtain ⟨neg, hv⟩ : ∃ neg, fDecode .f32 c = .fin neg 0 (-149) := by
      rcases hc with hc | hc
      · exact ⟨false, by rw [hc]; decide⟩
      · exact ⟨true, by rw [hc]; decide⟩
    obtain ⟨-, -, h1, -, h2, -⟩ := special_zero hv
    exact ⟨h1, h2⟩
  · intro hnum hx
    rw [(log2Of_two_pow (i := 0) hnum (by rw [zpow_zero]; exact hx)).1]
    rfl

end Sys2Proof.Proofs.Special
end

section
/-! PROOFS. SQRT (R108): the model's root, by integers with a sticky last bit, is the real root rounded once. -/

namespace Sys2Proof.Proofs.Roots

open Machine Claims Rounding Formats Nearest Sticky Special

/-! ### Integer roots -/

/-- Bit by bit, the root that is sought stays within what is left to be decided. -/
theorem isqrtGo_spec (x i r : Nat) (hlo : r * r ≤ x) (hhi : x < (r + 2 ^ i) * (r + 2 ^ i)) :
    isqrtGo x i r * isqrtGo x i r ≤ x ∧ x < (isqrtGo x i r + 1) * (isqrtGo x i r + 1) := by
  induction i generalizing r with
  | zero => exact ⟨hlo, hhi⟩
  | succ i ih =>
    rw [isqrtGo]
    have h2 : r + 2 ^ i + 2 ^ i = r + 2 ^ (i + 1) := by rw [pow_succ]; ring
    split_ifs with h
    · exact ih _ h (by rw [h2]; exact hhi)
    · exact ih _ hlo (not_le.mp h)

theorem isqrt_spec (x : Nat) : isqrt x * isqrt x ≤ x ∧ x < (isqrt x + 1) * (isqrt x + 1) := by
  refine isqrtGo_spec x _ 0 (Nat.zero_le x) ?_
  rw [zero_add, ← pow_add]
  exact bitLen_spec.trans_le (Nat.pow_le_pow_right two_pos (by omega))

/-! ### The root of a number -/

/-- The root of m × 2^e: exact, or with its last bit set between two neighbours of a grid. -/
theorem root_spec (bits : Nat) {m : Nat} (hm : m ≠ 0) (e : Int) :
    ∃ n g, 2 ^ bits ≤ n
      ∧ (root bits m e = (n, g) ∧ (m : ℚ) * 2 ^ e = (n * 2 ^ g) ^ 2
        ∨ root bits m e = (2 * n + 1, g - 1) ∧ (n * 2 ^ g : ℚ) ^ 2 < m * 2 ^ e ∧ (m : ℚ) * 2 ^ e < ((n + 1) * 2 ^ g) ^ 2) := by
  generalize hk : 2 * bits + (if (e - 2 * (bits : Int)) % 2 = 0 then 0 else 1) = k
  obtain ⟨hlo, hhi⟩ := isqrt_spec (m * 2 ^ k)
  have hn : 2 ^ bits ≤ isqrt (m * 2 ^ k) := by
    by_contra hlt
    have h1 : isqrt (m * 2 ^ k) + 1 ≤ 2 ^ bits := by omega
    have h2 : 2 ^ bits * 2 ^ bits ≤ m * 2 ^ k := by
      rw [← pow_add]
      exact (Nat.pow_le_pow_right two_pos (by omega)).trans (Nat.le_mul_of_pos_left _ (Nat.pos_of_ne_zero hm))
    exact absurd (hhi.trans_le (Nat.mul_le_mul h1 h1)) (not_lt.mpr h2)
  have hroot : root bits m e = if isqrt (m * 2 ^ k) * isqrt (m * 2 ^ k) = m * 2 ^ k then (isqrt (m * 2 ^ k), (e - k) / 2)
      else (2 * isqrt (m * 2 ^ k) + 1, (e - k) / 2 - 1) := by simp only [root, hk]
  generalize isqrt (m * 2 ^ k) = n at *
  generalize hg : (e - (k : Int)) / 2 = g at *
  have he : e = k + (g + g) := by split_ifs at hk <;> omega
  have hval : (m : ℚ) * 2 ^ e = (m * 2 ^ k : Nat) * (2 ^ g) ^ 2 := by
    rw [he, zpow_add₀ two_ne_zero, zpow_add₀ two_ne_zero, zpow_natCast]
    push_cast
    ring
  have hp : (0 : ℚ) < (2 ^ g) ^ 2 := pow_pos (two_zpow_pos g) 2
  refine ⟨n, g, hn, ?_⟩
  rw [hroot, hval, mul_pow, mul_pow]
  by_cases h : n * n = m * 2 ^ k
  · refine .inl ⟨if_pos h, ?_⟩
    rw [← h]
    push_cast
    ring
  · refine .inr ⟨if_neg h, mul_lt_mul_of_pos_right ?_ hp, mul_lt_mul_of_pos_right ?_ hp⟩
    · rw [sq]
      exact_mod_cast lt_of_le_of_ne hlo h
    · rw [sq]
      exact_mod_cast hhi

/-! ### The rounded root -/

/-- A number that a rational root has is a number of few bits. -/
theorem exists_odd_root {m : Nat} {e : Int} {n : Nat} (hn : n ≠ 0) {g : Int}
    (h : (m : ℚ) * 2 ^ e = (n * 2 ^ g) ^ 2) : ∃ (o : Nat) (b : Int), o ≠ 0 ∧ (n : ℚ) * 2 ^ g = o * 2 ^ b ∧ o * o ≤ m ∧ e ≤ 2 * b := by
  obtain ⟨a, o, ho, rfl⟩ := Nat.exists_eq_two_pow_mul_odd hn
  have hb : ((2 ^ a * o : Nat) : ℚ) * 2 ^ g = o * 2 ^ (g + a) := by
    rw [zpow_add₀ two_ne_zero, zpow_natCast]
    push_cast
    ring
  generalize g + (a : Int) = b at hb
  rw [hb] at h
  have hsq : (o * o : ℚ) * 2 ^ (2 * b) = m * 2 ^ e := by
    rw [h, two_mul, zpow_add₀ two_ne_zero]
    ring
  have hoo : Odd (o * o) := ho.mul ho
  have hle : e ≤ 2 * b := by
    by_contra hlt
    -- an odd number would be even
    have : ((o * o : Nat) : ℚ) = (m * 2 ^ (e - 2 * b).toNat : Nat) := by
      rw [Nat.cast_mul m, ← two_zpow_toNat (by omega), zpow_sub₀ two_ne_zero, mul_div_assoc', ← hsq]
      push_cast
      field_simp
    have hnat : o * o = m * 2 ^ (e - 2 * b).toNat := by exact_mod_cast this
    obtain ⟨j, hj⟩ : ∃ j, (e - 2 * b).toNat = j + 1 := ⟨(e - 2 * b).toNat - 1, by omega⟩
    rw [hnat, hj, pow_succ, ← mul_assoc] at hoo
    exact (Nat.not_odd_iff_even.mpr (even_two.mul_left _)) hoo
  refine ⟨o, b, ho.pos.ne', hb, ?_, hle⟩
  have : (m : ℚ) = (o * o * 2 ^ (2 * b - e).toNat : Nat) := by
    rw [Nat.cast_mul, ← two_zpow_toNat (by omega), zpow_sub₀ two_ne_zero, mul_div_assoc']
    rw [eq_div_iff (two_zpow_pos e).ne', ← hsq]
    push_cast
    rfl
  have hnat : m = o * o * 2 ^ (2 * b - e).toNat := by exact_mod_cast this
  rw [hnat]
  exact Nat.le_mul_of_pos_right _ (by positivity)

/-- Between the same two neighbours of a fine grid, numbers have one rounded magnitude, which lies on the grid. -/
theorem roundedMag_of_between (t : FTy) {rm : Rnd} {neg : Bool} {n : Nat} {g : Int} {x x' : ℚ} (h : Between n g x)
    (h' : Between n g x') (hn : 2 ^ (fFrac t + 7) ≤ n) :
    roundedMag t rm 0 neg x = roundedMag t rm 0 neg x' ∧ roundedMag t rm 0 neg x ≠ x' := by
  have hn0 : n ≠ 0 := fun h0 => by
    have : 0 < 2 ^ (fFrac t + 7) := by positivity
    omega
  have hu : unitExp t x = unitExp t x' := by rw [unitExp, h.log hn0, unitExp, h'.log hn0]
  have hunits := (roundUnits_of_between t rm 0 neg h h' hn (le_max_left _ (fQmin t))).1
  refine ⟨?_, (roundUnits_of_between t rm 0 neg h' h hn (hu ▸ le_max_left ..)).2 _⟩
  rw [roundedMag, roundedMag, unitsOf, unitsOf, ← hu]
  exact congrArg (fun k : Nat => (k : ℚ) * 2 ^ unitExp t x) hunits

/-- Of two numbers the lower is the nearer one only up to their middle, and the upper only from there. -/
theorem le_middle_of_nearer {u y z : ℚ} (h : |u - y| ≤ |u - z|) : (y < z → u ≤ (y + z) / 2) ∧ (z < y → (y + z) / 2 ≤ u) := by
  have hsq := sq_le_sq.mpr h
  constructor <;> intro hyz <;> nlinarith

/-- Numbers of an open interval that are all nearer to y than to z have the interval on y's side of the middle. -/
theorem interval_beside_middle {a b y z : ℚ} (hab : a < b) (h : ∀ u, a < u → u < b → |u - y| ≤ |u - z|) :
    (y < z → b ≤ (y + z) / 2) ∧ (z < y → (y + z) / 2 ≤ a) := by
  constructor
  · intro hyz
    refine le_of_forall_lt_imp_le_of_dense fun u hu => ?_
    rcases lt_or_ge a u with ha | ha
    · exact (le_middle_of_nearer (h u ha hu)).1 hyz
    · have := (le_middle_of_nearer (h ((a + b) / 2) (by linarith) (by linarith))).1 hyz
      linarith
  · intro hyz
    refine le_of_forall_gt_imp_ge_of_dense fun u hu => ?_
    rcases lt_or_ge u b with hb | hb
    · exact (le_middle_of_nearer (h u hu hb)).2 hyz
    · have := (le_middle_of_nearer (h ((a + b) / 2) (by linarith) (by linarith))).2 hyz
      linarith

/-- What is asked of the rounded root y of x, against every number z of the format. -/
def IsRootRounded (x y : ℚ) : Prop := ∀ c, (y < finMag .f32 c → x < ((y + finMag .f32 c) / 2) ^ 2)
  ∧ (finMag .f32 c < y → ((y + finMag .f32 c) / 2) ^ 2 < x)

/-- A number is the rounded root of its square. -/
theorem isRootRounded_sq {y : ℚ} (hy : 0 < y) : IsRootRounded (y ^ 2) y := fun c => by
  have hc := finMag_nonneg .f32 c
  exact ⟨fun h => pow_lt_pow_left₀ (by linarith) hy.le two_ne_zero, fun h => pow_lt_pow_left₀ (by linarith) (by linarith) two_ne_zero⟩

/-- The magnitude to which a root between two neighbours of a fine grid is rounded is the rounded root. -/
theorem isRootRounded_of_between {x w : ℚ} {n : Nat} {g : Int} (hn : 2 ^ 30 ≤ n) (hw : Between n g w) (hlo : (n * 2 ^ g : ℚ) ^ 2 < x)
    (hhi : x < ((n + 1) * 2 ^ g) ^ 2) : IsRootRounded x (roundedMag .f32 .rne 0 false w) := fun c => by
  have near : ∀ u : ℚ, n * 2 ^ g < u → u < (n + 1) * 2 ^ g →
      |u - roundedMag .f32 .rne 0 false w| ≤ |u - finMag .f32 c| := fun u h1 h2 => by
    have hu : Between n g u := ⟨h1, h2⟩
    rw [(roundedMag_of_between .f32 hw hu hn).1]
    exact (roundedMag_nearest .f32 false hu.pos c).1
  obtain ⟨above, below⟩ := interval_beside_middle (hw.1.trans hw.2) near
  have hp := two_zpow_pos g
  have hy := roundedMag_nonneg .f32 .rne false w
  have hc := finMag_nonneg .f32 c
  exact ⟨fun h => hhi.trans_le (pow_le_pow_left₀ (by positivity) (above h) 2),
    fun h => (pow_le_pow_left₀ (by positivity) (below h) 2).trans_lt hlo⟩

/-- An FP32 code without a sign stands for its magnitude. -/
theorem ratOf_of_lt {k : Nat} (hk : k < 2 ^ 31) (hnum : isNum (fDecode .f32 k) = true) : ratOf (fDecode .f32 k) = finMag .f32 k := by
  have h1 := isNum_withSign .f32 false (c := k) hk
  rw [show withSign .f32 false k = k from rfl, hnum] at h1
  have h2 := ratOf_withSign .f32 false (of_decide_eq_true h1.symm)
  rwa [show withSign .f32 false k = k from rfl, if_neg Bool.false_ne_true, one_mul] at h2

/-- FP32 numbers above 0 lie between 2^−149 and 2^128. -/
theorem f32_bounds {m : Nat} {e : Int} (hm : m ≠ 0) (h24 : m < 2 ^ 24) (he : -149 ≤ e) (he' : e ≤ 104) :
    (2 : ℚ) ^ (-149 : Int) ≤ m * 2 ^ e ∧ (m : ℚ) * 2 ^ e < 2 ^ (128 : Int) := by
  constructor
  · calc (2 : ℚ) ^ (-149 : Int) ≤ 2 ^ e := two_zpow_le he
      _ ≤ m * 2 ^ e := le_mul_of_one_le_left (two_zpow_pos e).le (by exact_mod_cast Nat.pos_of_ne_zero hm)
  · calc (m : ℚ) * 2 ^ e < 2 ^ 24 * 2 ^ e := mul_lt_mul_of_pos_right (by exact_mod_cast h24) (two_zpow_pos e)
      _ ≤ 2 ^ 24 * 2 ^ (104 : Int) := mul_le_mul_of_nonneg_left (two_zpow_le he') (by norm_num)
      _ = 2 ^ (128 : Int) := by norm_num

/-- A code and its flags are the root of x, rounded once: IX is raised where the code's number is not the root. -/
structure RoundsRoot (x : ℚ) (r : Nat × Flags) : Prop where
  num   : isNum (fDecode .f32 r.1) = true
  pos   : 0 < ratOf (fDecode .f32 r.1)
  flags : r.2 = if ratOf (fDecode .f32 r.1) ^ 2 = x then 0 else fIX
  near  : IsRootRounded x (ratOf (fDecode .f32 r.1))

/-- A rounded root of a number of the format is not 0. -/
theorem IsRootRounded.pos {x y : ℚ} (h : IsRootRounded x y) (hx : (2 : ℚ) ^ (-149 : Int) ≤ x) (hy : 0 ≤ y) : 0 < y := by
  refine lt_of_le_of_ne hy fun h0 => ?_
  have h1 : finMag .f32 1 = 2 ^ (-149 : Int) := by norm_num [finMag, fFrac, fQmin, fBias]
  have := (h 1).1 (by rw [← h0, h1]; exact two_zpow_pos _)
  rw [← h0, h1] at this
  exact absurd (hx.trans_lt this) (by norm_num)

/-- A root that is a number of the format rounds to itself. -/
theorem roundsRoot_of_exact {m n : Nat} {e g : Int} (h24 : m < 2 ^ 24) (he : -149 ≤ e) (hn : n ≠ 0)
    (hx : (m : ℚ) * 2 ^ e = (n * 2 ^ g) ^ 2) (hle : (n : ℚ) * 2 ^ g ≤ maxFinite .f32) :
    RoundsRoot (m * 2 ^ e) (roundTo .f32 .rne 0 false n g) := by
  obtain ⟨o, b, ho, hob, hom, hb⟩ := exists_odd_root hn hx
  have hsmall : o < 2 ^ 24 := (Nat.le_mul_self o).trans_lt (hom.trans_lt h24)
  have hexact : roundedMag .f32 .rne 0 false (n * 2 ^ g) = n * 2 ^ g := by
    rw [hob]
    exact roundedMag_exact .f32 .rne 0 false ho hsmall (by rw [show fQmin .f32 = -149 from rfl]; omega)
  obtain ⟨hnum, hval⟩ := isNum_ratOf_roundTo (t := .f32) (by decide) false hn g hle
  rw [hexact, if_neg Bool.false_ne_true, one_mul] at hval
  have hpos : (0 : ℚ) < n * 2 ^ g := mul_pos (by exact_mod_cast Nat.pos_of_ne_zero hn) (two_zpow_pos g)
  refine ⟨hnum, hval ▸ hpos, ?_, by rw [hval, hx]; exact isRootRounded_sq hpos⟩
  rw [hval, if_pos hx.symm, roundTo_of_le (by decide) false hn g hle, hexact]
  simp [flagIf]

/-- The last bit set stands for a number between the two neighbours. -/
theorem between_sticky (n : Nat) (g : Int) : Between n g ((2 * n + 1 : Nat) * 2 ^ (g - 1)) := by
  have hg : (2 : ℚ) ^ g = 2 * 2 ^ (g - 1) := by rw [zpow_sub_one₀ two_ne_zero]; ring
  have hp1 := two_zpow_pos (g - 1)
  rw [Between, hg]
  push_cast
  constructor <;> nlinarith

/-- A root between two neighbours of a fine grid rounds as its stand-in with the last bit set. -/
theorem roundsRoot_of_inexact {x : ℚ} {n : Nat} {g : Int} (hxlo : (2 : ℚ) ^ (-149 : Int) ≤ x) (hn : 2 ^ 30 ≤ n)
    (hlo : (n * 2 ^ g : ℚ) ^ 2 < x) (hhi : x < ((n + 1) * 2 ^ g) ^ 2) (hlow : (n : ℚ) * 2 ^ g < 2 ^ (64 : Int)) :
    RoundsRoot x (roundTo .f32 .rne 0 false (2 * n + 1) (g - 1)) := by
  have hw := between_sticky n g
  have hp := two_zpow_pos g
  have hn1 : (1 : ℚ) ≤ n := by exact_mod_cast (by omega : 1 ≤ n)
  have hodd : 2 * n + 1 ≠ 0 := Nat.succ_ne_zero _
  have hdouble : ((n : ℚ) + 1) * 2 ^ g ≤ 2 * (n * 2 ^ g) := by nlinarith
  have hle : ((2 * n + 1 : Nat) : ℚ) * 2 ^ (g - 1) ≤ maxFinite .f32 := by
    refine le_maxFinite_f32 (n := 65) (by decide) (hw.2.le.trans (hdouble.trans ?_))
    calc (2 : ℚ) * (n * 2 ^ g) ≤ 2 * 2 ^ (64 : Int) := by gcongr
      _ = 2 ^ (65 : Int) := by norm_num
  have hnormal : (2 : ℚ) ^ minExp2 .f32 ≤ (2 * n + 1 : Nat) * 2 ^ (g - 1) := by
    have h2 : (2 : ℚ) * 2 ^ minExp2 .f32 < 2 * (n * 2 ^ g) := by
      refine lt_of_pow_lt_pow_left₀ 2 (by positivity) (lt_of_le_of_lt ?_
        (hxlo.trans_lt (hhi.trans_le (pow_le_pow_left₀ (by positivity) hdouble 2))))
      norm_num [minExp2]
    linarith [hw.1]
  obtain ⟨hnum, hval⟩ := isNum_ratOf_roundTo (t := .f32) (by decide) false hodd (g - 1) hle
  rw [if_neg Bool.false_ne_true, one_mul] at hval
  have hy := roundedMag_nonneg .f32 .rne false (((2 * n + 1 : Nat) : ℚ) * 2 ^ (g - 1))
  have hround := isRootRounded_of_between hn hw hlo hhi
  -- the rounded root is not between the neighbours, where the root is
  have hne : roundedMag .f32 .rne 0 false ((2 * n + 1 : Nat) * 2 ^ (g - 1)) ^ 2 ≠ x := fun heq => by
    rw [← heq] at hlo hhi
    exact (roundedMag_of_between .f32 hw ⟨lt_of_pow_lt_pow_left₀ 2 hy hlo, lt_of_pow_lt_pow_left₀ 2 (by positivity) hhi⟩ hn).2 rfl
  refine ⟨hnum, hval ▸ hround.pos hxlo hy, ?_, hval ▸ hround⟩
  rw [hval, if_neg hne, roundTo_of_le (by decide) false hodd (g - 1) hle, isTiny_eq_false .f32 .rne 0 false hnormal,
    decide_eq_true (roundedMag_of_between .f32 hw hw hn).2]
  rfl

/-- SQRT of a number above 0 (R108). -/
theorem sqrtOf_spec {c m : Nat} {e : Int} (hv : fDecode .f32 c = .fin false m e) (hm : m ≠ 0) :
    RoundsRoot (m * 2 ^ e) (sqrtOf c) := by
  obtain ⟨h24, he, he', -⟩ := f32_fin hv
  obtain ⟨hxlo, hxhi⟩ := f32_bounds hm h24 he he'
  obtain ⟨n, g, hn, h⟩ := root_spec 30 hm e
  have hlow : (n * 2 ^ g : ℚ) ^ 2 ≤ m * 2 ^ e := by
    rcases h with ⟨-, h⟩ | ⟨-, h, -⟩
    · exact h.ge
    · exact h.le
  have hlow64 : (n * 2 ^ g : ℚ) < 2 ^ (64 : Int) := by
    refine lt_of_pow_lt_pow_left₀ 2 (two_zpow_pos _).le ((hlow.trans_lt hxhi).trans_eq ?_)
    norm_num
  have hsqrt : sqrtOf c = roundTo .f32 .rne 0 false (root 30 m e).1 (root 30 m e).2 := by
    simp only [sqrtOf, hv, hm, if_false, Bool.false_eq_true, roundRne]
  rw [hsqrt]
  rcases h with ⟨hroot, hx⟩ | ⟨hroot, hlo, hhi⟩
  · rw [hroot]
    exact roundsRoot_of_exact h24 he (show n ≠ 0 by omega) hx (le_maxFinite_f32 (by decide) hlow64.le)
  · rw [hroot]
    exact roundsRoot_of_inexact hxlo hn hlo hhi hlow64

/-- Settles O28: between two neighbours of a fine grid the root and its stand-in with the last bit set have the same nearest
number, and a rational root is a number of the format. -/
theorem rootIsRounded : Obligations.RootIsRounded := by
  intro c hc hnum hx x y
  have hpos : 0 < x := lt_of_le_of_ne (by rw [show x = finMag .f32 c from ratOf_of_lt hc hnum]; exact finMag_nonneg ..) hx.symm
  obtain ⟨m, e, hv, hm, hval⟩ := exists_fin_of_pos hnum hpos
  have h := sqrtOf_spec hv hm
  rw [← hval] at h
  refine ⟨h.num, h.pos, h.flags, fun k hk hkn => ?_⟩
  simp only [ratOf_of_lt hk hkn]
  exact h.near k

end Sys2Proof.Proofs.Roots
end

section
/-! PROOFS. RCP, EXP2, LSE2 and RNG (R107–R112): FP32 codes of the model's steps stand for the rational numbers of the rules. -/

namespace Sys2Proof.Proofs.ExactSpecial

open Machine Claims Laws Rounding Formats Nearest Floats OtherFloats Sticky Special Integer

/-! ### RCP (R108) -/

theorem rcpOf_eq_inverseOf (k : Nat) : rcpOf k = inverseOf k := by
  unfold rcpOf inverseOf
  cases hv : fDecode .f32 k with
  | nan s => simp [fvIsNan, fvIsSnan, nanCode_eq]
  | inf n => simp [fvIsNan, isNum, fvSign, withSign_eq]
  | fin n m e =>
    by_cases hm : m = 0
    · simp [fvIsNan, isNum, fvIsZero, fvSign, hm, infOf_eq]
    · have hx : (1 : ℚ) / ratOf (.fin n m e) = (if n then -1 else 1) * ((1 : Nat) * 2 ^ (-e) / m) := by
        rw [ratOf_fin, zpow_neg]
        cases n <;> simp [div_eq_mul_inv, mul_comm]
      simp only [fvIsNan, isNum, fvIsZero, hm, hx, roundRne, if_false, Bool.false_eq_true, Bool.not_true, beq_iff_eq]
      exact roundTo_quot .f32 .rne 0 n (bits := 30) (by decide) one_ne_zero hm (-e)

/-! ### Codes of numbers -/

/-- The code is that of the number x. -/
structure IsCode (k : Nat) (x : ℚ) : Prop where
  lt  : k < 2 ^ 32
  num : isNum (fDecode .f32 k) = true
  val : ratOf (fDecode .f32 k) = x

/-- A rounding that does not overflow gives the code of the rounded number. -/
theorem isCode_roundRat {x : ℚ} (h0 : x ≠ 0) (h : |x| ≤ 2 ^ (127 : Int)) : IsCode (roundRat .f32 .rne 0 x).1 (f32 x) := by
  have hpos : 0 < |x| := abs_pos.mpr h0
  have hle := roundedCode_le (t := .f32) (by decide) (decide (x < 0)) hpos (le_maxFinite_f32 le_rfl h)
  have hcode : (roundRat .f32 .rne 0 x).1 = withSign .f32 (decide (x < 0)) (roundedCode .f32 .rne (decide (x < 0)) |x|) := by
    have hmax := roundedMag_le_of_le (t := .f32) (by decide) (decide (x < 0)) hpos (le_maxFinite_f32 le_rfl h)
    simp only [roundRat_eq, reduceCtorEq, decide_false, Bool.false_and, Bool.false_eq_true, if_false, if_neg (not_lt.mpr hmax),
      roundedCode]
  rw [f32, if_neg h0, hcode]
  exact ⟨withSign_lt .f32 _ (hle.trans_lt (maxCode_lt .f32)), isNum_of_le _ hle, rfl⟩

theorem isCode_zero (neg : Bool) : IsCode (withSign .f32 neg 0) (f32 0) := by
  cases neg
  · exact ⟨by decide, by decide, by rw [show fDecode .f32 (withSign .f32 false 0) = .fin false 0 (-149) by decide]; simp [f32, ratOf_fin]⟩
  · exact ⟨by decide, by decide, by rw [show fDecode .f32 (withSign .f32 true 0) = .fin true 0 (-149) by decide]; simp [f32, ratOf_fin]⟩

/-- A product of codes is the code of the rounded product. -/
theorem isCode_f32mul {a b : Nat} {x y : ℚ} (ha : IsCode a x) (hb : IsCode b y) (h : |x * y| ≤ 2 ^ (127 : Int)) :
    IsCode (f32mul a b) (f32 (x * y)) := by
  have nan : ∀ v, isNum v = true → fvIsNan v = false := fun v => by cases v <;> simp [isNum, fvIsNan]
  have hna := nan _ ha.num
  have hnb := nan _ hb.num
  rw [f32mul, mulCodes, mulTo_eq_mulOf, mulOf]
  simp only [hna, hnb, ha.num, hb.num, ha.val, hb.val, Bool.or_self, Bool.not_true, Bool.and_false, Bool.false_eq_true, if_false]
  split_ifs with h0
  · rw [h0]; exact isCode_zero _
  · exact isCode_roundRat h0 h

/-- A sum of codes is the code of the rounded sum. -/
theorem isCode_f32add {a b : Nat} {x y : ℚ} (ha : IsCode a x) (hb : IsCode b y) (h : |x + y| ≤ 2 ^ (127 : Int)) :
    IsCode (f32add a b) (f32 (x + y)) := by
  have inf : ∀ s, hasInf s [fDecode .f32 a, fDecode .f32 b] = false := fun s => by
    have hx := ha.num
    have hy := hb.num
    cases hva : fDecode .f32 a <;> cases hvb : fDecode .f32 b <;> simp_all [isNum, hasInf]
  have nan : ([fDecode .f32 a, fDecode .f32 b].any fvIsNan) = false := by
    have hx := ha.num
    have hy := hb.num
    cases hva : fDecode .f32 a <;> cases hvb : fDecode .f32 b <;> simp_all [isNum, fvIsNan]
  have hsum : ([fDecode .f32 a, fDecode .f32 b].map ratOf).sum = x + y := by simp [ha.val, hb.val]
  rw [f32add, addTo, sumTo_eq_sumOf, sumOf]
  simp only [inf, nan, hsum, Bool.and_self, Bool.false_eq_true, if_false]
  by_cases h0 : x + y = 0
  · rw [if_neg (not_not.mpr h0), h0]
    split_ifs
    · exact isCode_zero true
    · exact isCode_zero false
    · exact isCode_zero (decide (Rnd.rne = Rnd.rd))
  · rw [if_pos h0]
    exact isCode_roundRat h0 h

/-- A signed integer in units of 2^e, rounded. -/
theorem isCode_roundRne {j e : Int} (h : |(j : ℚ) * 2 ^ e| ≤ 2 ^ (127 : Int)) :
    IsCode (roundRne .f32 (decide (j < 0)) j.natAbs e).1 (f32 (j * 2 ^ e)) := by
  by_cases h0 : j = 0
  · subst h0
    simpa [roundRne, roundTo, withSign_eq] using isCode_zero false
  · rw [roundRne, roundTo_natAbs .f32 .rne h0]
    exact isCode_roundRat (mul_ne_zero (by exact_mod_cast h0) (two_zpow_pos e).ne') h

/-! ### Bounds that rounding keeps -/

/-- A rounded magnitude is on the same side of every magnitude of the format as the magnitude itself. -/
theorem roundedMag_beside_finMag (t : FTy) (neg : Bool) {x : ℚ} (hx : 0 < x) (c : Nat) :
    (x ≤ finMag t c → roundedMag t .rne 0 neg x ≤ finMag t c) ∧ (finMag t c ≤ x → finMag t c ≤ roundedMag t .rne 0 neg x) := by
  have near := (roundedMag_nearest t neg hx c).1
  have h1 := le_abs_self (x - roundedMag t .rne 0 neg x)
  have h2 := neg_abs_le (x - roundedMag t .rne 0 neg x)
  constructor <;> intro h
  · rw [abs_of_nonpos (sub_nonpos.mpr h)] at near
    linarith
  · rw [abs_of_nonneg (sub_nonneg.mpr h)] at near
    linarith

/-- Powers of two in the format's range are magnitudes of the format. -/
theorem exists_finMag_two_pow {n : Int} (hn : -149 ≤ n) : ∃ c, finMag .f32 c = 2 ^ n := by
  have h := finMag_roundedCode .f32 .rne false (x := (1 : Nat) * 2 ^ n) (by simpa using two_zpow_pos n)
  rw [roundedMag_exact .f32 .rne 0 false one_ne_zero (by decide) hn, Nat.cast_one, one_mul] at h
  exact ⟨_, h⟩

theorem f32_zero : f32 0 = 0 := if_pos rfl

/-- A number above 0 that does not overflow is rounded to the rounded magnitude. -/
theorem f32_eq_roundedMag {x : ℚ} (hx : 0 < x) (h : x ≤ 2 ^ (127 : Int)) : f32 x = roundedMag .f32 .rne 0 false x := by
  have hmax := le_maxFinite_f32 le_rfl h
  have hneg : decide (x < 0) = false := decide_eq_false hx.not_gt
  have hle := roundedCode_le (t := .f32) (by decide) false hx hmax
  rw [f32, if_neg hx.ne', roundRat_eq]
  simp only [hneg, abs_of_pos hx, reduceCtorEq, decide_false, Bool.false_and, Bool.false_eq_true, if_false,
    if_neg (not_lt.mpr (roundedMag_le_of_le (t := .f32) (by decide) false hx hmax))]
  rw [← finMag_roundedCode .f32 .rne false hx]
  exact (ratOf_withSign .f32 false hle).trans (one_mul _)

/-- Rounding keeps a number between 0 and a power of two. -/
theorem f32_le_two_pow {x : ℚ} (h0 : 0 ≤ x) {n : Int} (hn : -149 ≤ n) (hn' : n ≤ 127) (h : x ≤ 2 ^ n) : 0 ≤ f32 x ∧ f32 x ≤ 2 ^ n := by
  obtain ⟨c, hc⟩ := exists_finMag_two_pow hn
  rcases h0.eq_or_lt with rfl | hx
  · rw [f32_zero]
    exact ⟨le_rfl, (two_zpow_pos n).le⟩
  · rw [f32_eq_roundedMag hx (h.trans (two_zpow_le hn')), ← hc]
    exact ⟨roundedMag_nonneg .., (roundedMag_beside_finMag .f32 false hx c).1 (hc ▸ h)⟩

/-- Rounding keeps a number at 1 or above it. -/
theorem one_le_f32 {x : ℚ} (h : 1 ≤ x) (h' : x ≤ 2 ^ (127 : Int)) : 1 ≤ f32 x := by
  obtain ⟨c, hc⟩ := exists_finMag_two_pow (n := 0) (by decide)
  rw [zpow_zero] at hc
  have hx := one_pos.trans_le h
  rw [f32_eq_roundedMag hx h', ← hc]
  exact (roundedMag_beside_finMag .f32 false hx c).2 (hc ▸ h)

/-! ### EXP2 (R109, R110) -/

/-- The model's integer part is that of the rational number. -/
theorem floorOf_eq (neg : Bool) (m : Nat) (e : Int) : floorOf neg m e = ⌊ratOf (.fin neg m e)⌋ := by
  have hx : ratOf (.fin neg m e) = ((if neg then -(m : Int) else m : Int) : ℚ) * 2 ^ e := by cases neg <;> simp [ratOf_fin]
  rw [hx, floorOf]
  generalize (if neg then -(m : Int) else m : Int) = j
  by_cases he : 0 ≤ e
  · have : (j : ℚ) * 2 ^ e = ((j * 2 ^ e.toNat : Int) : ℚ) := by rw [two_zpow_toNat he]; push_cast; rfl
    rw [if_pos he, this, Int.floor_intCast]
  · have : (j : ℚ) * 2 ^ e = (j : ℚ) / ((2 ^ (-e).toNat : Nat) : ℚ) := by
      rw [← two_zpow_toNat (by omega), zpow_neg, div_eq_mul_inv, inv_inv]
    rw [if_neg he, this, Rat.floor_intCast_div_natCast, Int.fdiv_eq_ediv_of_nonneg _ (by positivity)]
    push_cast
    rfl

theorem fdiv_eq_floor (n : Int) : n.fdiv 64 = ⌊(n : ℚ) / 64⌋ := by
  rw [Int.fdiv_eq_ediv_of_nonneg _ (by decide)]
  exact (Rat.floor_intCast_div_natCast n 64).symm

/-- A number in units of 2^b. -/
theorem scaleTo_mul (b : Int) (m : Nat) {e : Int} (h : b ≤ e) : (scaleTo b m e : ℚ) * 2 ^ b = m * 2 ^ e := by
  rw [scaleTo, Nat.cast_mul, mul_assoc, ← two_zpow_toNat (by omega), ← zpow_add₀ two_ne_zero, sub_add_cancel]

/-- The remainder x − n ÷ 64 in the model's units is the rational one. -/
theorem remainder_units (neg : Bool) (m : Nat) (e n : Int) :
    (((if neg then -(scaleTo (min e (-6)) m e : Int) else (scaleTo (min e (-6)) m e : Int)) - n * 2 ^ (-6 - min e (-6)).toNat : Int) : ℚ)
      * 2 ^ min e (-6) = ratOf (.fin neg m e) - n / 64 := by
  have h1 := scaleTo_mul (min e (-6)) m (min_le_left e (-6))
  have h2 : (2 : ℚ) ^ (-6 - min e (-6)).toNat * 2 ^ min e (-6) = 1 / 64 := by
    have := two_zpow_toNat (e := -6 - min e (-6)) (by omega)
    push_cast at this
    rw [← this, ← zpow_add₀ two_ne_zero, sub_add_cancel]
    norm_num
  push_cast
  rw [sub_mul, mul_assoc, h2, ratOf_fin, mul_assoc (if neg = true then (-1 : ℚ) else 1), ← h1]
  cases neg <;> simp only [if_true, if_false, Bool.false_eq_true] <;> ring

/-- A number's code has a bit besides its sign exactly where the number is not 0. -/
theorem IsCode.mod_ne_zero_iff {k : Nat} {x : ℚ} (h : IsCode k x) : k % 2 ^ 31 ≠ 0 ↔ x ≠ 0 := by
  obtain ⟨neg, c, hc, rfl⟩ := exists_withSign .f32 h.lt
  have hle : c ≤ maxCode .f32 := by
    have := h.num
    rw [isNum_withSign .f32 neg hc] at this
    exact of_decide_eq_true this
  have hmod : withSign .f32 neg c % 2 ^ 31 = c := withSign_mod .f32 neg hc
  rw [← h.val, ratOf_withSign .f32 neg hle, hmod, not_iff_not, mul_eq_zero,
    ← (finMag_strictMono .f32).injective.eq_iff (a := c), finMag_zero]
  cases neg <;> simp

/-- The entries of the table are the codes of numbers from 1 up to 2. -/
theorem isCode_exp2T {j : Nat} (hj : j < 64) : ∃ t, IsCode (exp2T.getD j 0) t ∧ 1 ≤ t ∧ t ≤ 2 := by
  have table : ∀ i < 64, exp2T.getD i 0 < 2 ^ 32
      ∧ fDecode .f32 (exp2T.getD i 0) = .fin false (2 ^ 23 + exp2T.getD i 0 % 2 ^ 23) (-23) := by decide
  obtain ⟨hlt, hv⟩ := table j hj
  have hf : exp2T.getD j 0 % 2 ^ 23 < 2 ^ 23 := Nat.mod_lt _ (by decide)
  generalize exp2T.getD j 0 % 2 ^ 23 = f at hv hf
  have hf' : (f : ℚ) < 8388608 := by exact_mod_cast hf
  have hf0 : (0 : ℚ) ≤ f := Nat.cast_nonneg f
  refine ⟨_, ⟨hlt, by rw [hv]; rfl, rfl⟩, ?_⟩
  rw [hv, ratOf_fin]
  norm_num
  constructor <;> linarith

/-- The exponent of the last step may be taken to be at most 1000 and at least −1000: beyond that a number near 1 overflows, or it
is below half the smallest subnormal. -/
theorem roundRat_clamp_thousand {x : ℚ} (h1 : 1 ≤ x) (h2 : x ≤ 4) (i : Int) :
    roundRat .f32 .rne 0 (x * 2 ^ max (-1000) (min 1000 i)) = roundRat .f32 .rne 0 (x * 2 ^ i) := by
  have hx : 0 < x := one_pos.trans_le h1
  have hneg : ∀ j : Int, decide (x * 2 ^ j < 0) = false := fun j => decide_eq_false (mul_pos hx (two_zpow_pos j)).not_gt
  have habs : ∀ j : Int, |x * 2 ^ j| = x * 2 ^ j := fun j => abs_of_pos (mul_pos hx (two_zpow_pos j))
  have large : ∀ j : Int, 1000 ≤ j → roundRat .f32 .rne 0 (x * 2 ^ j) = (fInf .f32 false, fOF ||| fIX) := fun j hj => by
    rw [roundRat_of_huge, hneg]
    rw [habs]
    calc (2 : ℚ) ^ (fTopQ .f32 + fFrac .f32 + 1) ≤ 2 ^ j := two_zpow_le (by rw [show fTopQ .f32 + fFrac .f32 + 1 = 128 from rfl]; omega)
      _ ≤ x * 2 ^ j := le_mul_of_one_le_left (two_zpow_pos j).le h1
  have small : ∀ j : Int, j ≤ -1000 → roundRat .f32 .rne 0 (x * 2 ^ j) = (withSign .f32 false 0, fUF ||| fIX) := fun j hj => by
    rw [roundRat_of_minute (mul_pos hx (two_zpow_pos j)).ne', hneg]
    rw [habs]
    calc x * 2 ^ j ≤ 2 ^ (2 : Int) * 2 ^ j := mul_le_mul_of_nonneg_right (by norm_num; exact h2) (two_zpow_pos j).le
      _ = 2 ^ (2 + j) := (zpow_add₀ two_ne_zero ..).symm
      _ < _ := two_zpow_lt (by rw [show fQmin .f32 - 1 = -150 from rfl]; omega)
  rcases le_or_gt 1000 i with h | h
  · rw [large i h, large _ (by omega)]
  · rcases le_or_gt i (-1000) with h' | h'
    · rw [small i h', small _ (by omega)]
    · rw [min_eq_right h.le, max_eq_right h'.le]

/-- The polynomial of EXP2 in the remainder r with the table's number t, each step rounded. -/
def expPoly (t r : ℚ) : ℚ :=
  f32 (t + f32 (t * f32 (f32 (f32 (ratOf (fDecode .f32 0x3E75FDF0) * r) + ratOf (fDecode .f32 0x3F317218)) * r)))

/-- The model's steps give the code of the polynomial, which lies between 1 and 4. -/
theorem isCode_expPoly {kt kr : Nat} {t r : ℚ} (ht : IsCode kt t) (hr : IsCode kr r) (ht1 : 1 ≤ t) (ht2 : t ≤ 2) (hr0 : 0 ≤ r)
    (hr1 : r ≤ 2 ^ (-6 : Int)) :
    IsCode (f32add kt (f32mul kt (f32mul (f32add (f32mul exp2C2 kr) exp2C1) kr))) (expPoly t r) ∧ 1 ≤ expPoly t r ∧ expPoly t r ≤ 4 := by
  have h2 : IsCode exp2C2 (ratOf (fDecode .f32 0x3E75FDF0)) := ⟨by decide, by decide, rfl⟩
  have h1 : IsCode exp2C1 (ratOf (fDecode .f32 0x3F317218)) := ⟨by decide, by decide, rfl⟩
  have e2 : 0 ≤ ratOf (fDecode .f32 0x3E75FDF0) ∧ ratOf (fDecode .f32 0x3E75FDF0) ≤ 1 := by
    rw [show fDecode .f32 0x3E75FDF0 = .fin false 16121328 (-26) by decide, ratOf_fin]; norm_num
  have e1 : 0 ≤ ratOf (fDecode .f32 0x3F317218) ∧ ratOf (fDecode .f32 0x3F317218) ≤ 1 := by
    rw [show fDecode .f32 0x3F317218 = .fin false 11629080 (-24) by decide, ratOf_fin]; norm_num
  rw [expPoly]
  generalize ratOf (fDecode .f32 0x3E75FDF0) = c2 at *
  generalize ratOf (fDecode .f32 0x3F317218) = c1 at *
  have big : ∀ {x : ℚ}, 0 ≤ x → x ≤ 4 → |x| ≤ 2 ^ (127 : Int) := fun h0 h => by
    rw [abs_of_nonneg h0]
    exact h.trans (by norm_num)
  norm_num at hr1
  have b1 : 0 ≤ c2 * r ∧ c2 * r ≤ 1 := ⟨mul_nonneg e2.1 hr0, by nlinarith⟩
  have p1 := f32_le_two_pow b1.1 (n := 0) (by decide) (by decide) (by rw [zpow_zero]; exact b1.2)
  rw [zpow_zero] at p1
  have k1 := isCode_f32mul h2 hr (big b1.1 (by linarith))
  have p2 := f32_le_two_pow (x := f32 (c2 * r) + c1) (by linarith) (n := 1) (by decide) (by decide) (by rw [zpow_one]; linarith)
  rw [zpow_one] at p2
  have k2 := isCode_f32add k1 h1 (big (by linarith) (by linarith))
  generalize f32 (f32 (c2 * r) + c1) = q at *
  have b3 : 0 ≤ q * r ∧ q * r ≤ 2⁻¹ := ⟨mul_nonneg p2.1 hr0, by nlinarith⟩
  have p3 := f32_le_two_pow b3.1 (n := -1) (by decide) (by decide) (by norm_num; linarith)
  rw [zpow_neg_one] at p3
  have k3 := isCode_f32mul k2 hr (big b3.1 (by linarith))
  generalize f32 (q * r) = q at *
  have b4 : 0 ≤ t * q ∧ t * q ≤ 1 := ⟨mul_nonneg (by linarith) p3.1, by nlinarith⟩
  have p4 := f32_le_two_pow b4.1 (n := 0) (by decide) (by decide) (by rw [zpow_zero]; exact b4.2)
  rw [zpow_zero] at p4
  have k4 := isCode_f32mul ht k3 (big b4.1 (by linarith))
  have p5 := f32_le_two_pow (x := t + f32 (t * q)) (by linarith) (n := 2) (by decide) (by decide) (by norm_num; linarith)
  refine ⟨isCode_f32add ht k4 (big (by linarith) (by linarith)), one_le_f32 (by linarith) ?_, p5.2.trans (by norm_num)⟩
  exact (by linarith : t + f32 (t * q) ≤ 4).trans (by norm_num)

/-- The last step of EXP2. -/
theorem scalbTo_eq_roundRat {k : Nat} {x : ℚ} (h : IsCode k x) (h1 : 1 ≤ x) (h4 : x ≤ 4) (i : Int) :
    scalbTo .f32 k (max (-1000) (min 1000 i)) = roundRat .f32 .rne 0 (x * 2 ^ i) := by
  rw [scalbTo_eq_scaledOf h.lt, scaledOf]
  have hnum := h.num
  cases hv : fDecode .f32 k with
  | nan s | inf s => rw [hv] at hnum; exact absurd hnum (by simp [isNum])
  | fin neg m e =>
    have hval : ratOf (.fin neg m e) = x := hv ▸ h.val
    have hm : m ≠ 0 := fun h0 => by
      rw [(ratOf_fin_eq_zero_iff neg m e).mpr h0] at hval
      linarith
    simp only [fvIsNan, isNum, fvIsZero, hval, beq_iff_eq, hm, Bool.not_true, Bool.false_or, Bool.false_eq_true, if_false]
    exact roundRat_clamp_thousand h1 h4 i

/-- EXP2 of the model is that of R110. -/
theorem exp2Of_eq_expTwo (k : Nat) : exp2Of k = expTwo k := by
  unfold exp2Of expTwo
  cases hv : fDecode .f32 k with
  | nan s => simp [fvIsNan, fvIsSnan, nanCode_eq]
  | inf n => cases n <;> simp [fvIsNan, isNum, fvSign]; rfl
  | fin neg m e =>
    have hx64 : ratOf (.fin neg m (e + 6)) = 64 * ratOf (.fin neg m e) := by
      rw [ratOf_fin, ratOf_fin, zpow_add₀ two_ne_zero, show (2 : ℚ) ^ (6 : Int) = 64 by norm_num]
      ring
    simp only [fvIsNan, isNum, Bool.false_eq_true, if_false, Bool.not_true, floorOf_eq, fdiv_eq_floor, hx64]
    have hlo := Int.floor_le (64 * ratOf (.fin neg m e))
    have hhi := Int.lt_floor_add_one (64 * ratOf (.fin neg m e))
    have hrem := remainder_units neg m e ⌊64 * ratOf (.fin neg m e)⌋
    generalize ⌊64 * ratOf (.fin neg m e)⌋ = n at *
    generalize ratOf (.fin neg m e) = x at *
    generalize (if neg then -(scaleTo (min e (-6)) m e : Int) else (scaleTo (min e (-6)) m e : Int)) = y at *
    generalize n * 2 ^ (-6 - min e (-6)).toNat = u at *
    have hd0 : 0 ≤ x - n / 64 := by linarith
    have hd1 : x - n / 64 ≤ 2 ^ (-6 : Int) := by norm_num; linarith
    have hyu : 0 ≤ y - u := by
      have : (0 : ℚ) ≤ ((y - u : Int) : ℚ) := nonneg_of_mul_nonneg_left (hrem ▸ hd0) (two_zpow_pos _)
      exact_mod_cast this
    have hr := isCode_roundRne (j := y - u) (e := min e (-6)) (by
      rw [hrem, abs_of_nonneg hd0]
      exact hd1.trans (two_zpow_le (by decide)))
    rw [hrem, decide_eq_false (not_lt.mpr hyu)] at hr
    have hlt : decide (y < u) = false := decide_eq_false (by omega)
    obtain ⟨hr0, hr1⟩ := f32_le_two_pow hd0 (by decide) (by decide) hd1
    have hj : (n - 64 * ⌊(n : ℚ) / 64⌋).toNat < 64 := by
      rw [← fdiv_eq_floor, Int.fdiv_eq_ediv_of_nonneg _ (by decide)]
      omega
    obtain ⟨t, ht, ht1, ht2⟩ := isCode_exp2T hj
    obtain ⟨hcode, hm1, hm4⟩ := isCode_expPoly ht hr ht1 ht2 hr0 hr1
    simp only [hlt, scalbTo_eq_roundRat hcode hm1 hm4, hr.mod_ne_zero_iff, ht.val]
    rfl

/-! ### LSE2 (R111) -/

theorem lsePart_eq_lsePower (a m : Nat) : lsePart a m = lsePower (fDecode .f32 a) (fDecode .f32 m) := by
  simp only [lsePart, lsePower, subTo, sumTo_eq_sumOf, exp2Of_eq_expTwo]

/-- The model's term of a partial, with the flags of its power, is the partial's share. -/
theorem lseTerm_eq_lseShare (a m : Nat) {x : Nat} (hx : fvIsNan (fDecode .f32 x) = false) :
    ((lseTerm a x (lsePart a m).1).1, (lsePart a m).2 ||| (lseTerm a x (lsePart a m).1).2)
      = lseShare (fDecode .f32 a) (fDecode .f32 x) (fDecode .f32 m) := by
  rw [lsePart_eq_lsePower, lseShare]
  by_cases h : fDecode .f32 a = .inf true ∧ (!isNum (fDecode .f32 x)) = true
  · obtain ⟨s, hs⟩ : ∃ s, fDecode .f32 x = .inf s := by
      cases hv : fDecode .f32 x <;> simp_all [fvIsNan, isNum]
    rw [if_pos h]
    simp only [lseTerm, lsePower, h.1, hs, if_true]
    rfl
  · rw [if_neg h]
    have hterm : ∀ e, lseTerm a x e = mulOf .f32 .rne (fDecode .f32 x) (fDecode .f32 e) := fun e => by
      rw [lseTerm]
      split
      · next ha hv => exact absurd ⟨ha, by rw [hv]; rfl⟩ h
      · exact mulTo_eq_mulOf ..
    simp only [hterm]

/-- The model's greater maximum is the one that FMAX gives. -/
theorem greater_eq_extremeOf {a b : Nat} (ha : a < 2 ^ 32) (hb : b < 2 ^ 32) (na : fvIsNan (fDecode .f32 a) = false)
    (nb : fvIsNan (fDecode .f32 b) = false) :
    (if fvLess (fDecode .f32 a) (fDecode .f32 b) then b else a) = (extremeOf .f32 true a b).1 := by
  have hne : ∀ v, ((if v then b else a) = if (v != true) = true then a else b) := fun v => by cases v <;> rfl
  obtain ⟨below, above⟩ := isBelow_of_fvLess na nb
  have same := eq_of_not_fvLess (t := .f32) ha hb na nb
  change _ = (if (fvIsNan (fDecode .f32 a) && fvIsNan (fDecode .f32 b)) = true then _
    else if fvIsNan (fDecode .f32 a) = true then _ else if fvIsNan (fDecode .f32 b) = true then _
    else (if (isBelow (fDecode .f32 a) (fDecode .f32 b) != true) = true then a else b, _) : Nat × Flags).1
  simp only [na, nb, Bool.and_self, Bool.false_eq_true, if_false]
  cases h1 : fvLess (fDecode .f32 a) (fDecode .f32 b) with
  | true => simp [below h1]
  | false =>
    cases h2 : fvLess (fDecode .f32 b) (fDecode .f32 a) with
    | true => simp [above h2]
    | false => simp [same h1 h2]

/-- The merge of the model is that of R111. -/
theorem lse2Of_eq_mergeOf {ma sa mb sb : Nat} (ha : ma < 2 ^ 32) (hb : mb < 2 ^ 32) : lse2Of ma sa mb sb = mergeOf ma sa mb sb := by
  unfold lse2Of mergeOf
  simp only [nanCode_eq]
  refine ite_congr rfl (fun _ => rfl) fun hnan => ite_congr rfl (fun _ => rfl) fun _ => ite_congr rfl (fun _ => rfl) fun _ => ?_
  simp only [List.any_cons, List.any_nil, Bool.or_false, Bool.or_eq_true, not_or, Bool.not_eq_true] at hnan
  obtain ⟨na, nsa, nb, nsb⟩ := hnan
  rw [greater_eq_extremeOf ha hb na nb]
  simp only [← lseTerm_eq_lseShare _ _ nsa, ← lseTerm_eq_lseShare _ _ nsb, addTo, sumTo_eq_sumOf]
  refine Prod.ext rfl (Prod.ext rfl ?_)
  ac_rfl

/-- A sum of two does not depend on their order. -/
theorem sumOf_swap (t : FTy) (rm : Rnd) (x y : FVal) : sumOf t rm [x, y] = sumOf t rm [y, x] := by
  have hany : ∀ p : FVal → Bool, [x, y].any p = [y, x].any p := fun p => by simp [Bool.or_comm]
  have hall : ∀ p : FVal → Bool, [x, y].all p = [y, x].all p := fun p => by simp [Bool.and_comm]
  have hsum : ([x, y].map ratOf).sum = ([y, x].map ratOf).sum := by simp [add_comm]
  unfold sumOf hasInf
  dsimp only
  rw [hany fvIsNan, hany fvIsSnan, hany fun v => decide (v = .inf true), hany fun v => decide (v = .inf false), hsum,
    hall fun v => fvIsZero v && fvSign v, hall fun v => fvIsZero v && !fvSign v]
  simp

/-- The greater of two maxima does not depend on their order. -/
theorem extremeOf_swap {a b : Nat} (ha : a < 2 ^ 32) (hb : b < 2 ^ 32) (na : fvIsNan (fDecode .f32 a) = false)
    (nb : fvIsNan (fDecode .f32 b) = false) : (extremeOf .f32 true a b).1 = (extremeOf .f32 true b a).1 := by
  rw [← greater_eq_extremeOf ha hb na nb, ← greater_eq_extremeOf hb ha nb na]
  have both := (isBelow_of_fvLess na nb)
  have same := eq_of_not_fvLess (t := .f32) ha hb na nb
  cases h1 : fvLess (fDecode .f32 a) (fDecode .f32 b) <;> cases h2 : fvLess (fDecode .f32 b) (fDecode .f32 a)
  · exact same h1 h2
  · rfl
  · rfl
  · exact absurd ((both.1 h1).symm.trans (both.2 h2)) (by decide)

/-- The merge is symmetric. -/
theorem mergeOf_swap {ma sa mb sb : Nat} (ha : ma < 2 ^ 32) (hb : mb < 2 ^ 32) : mergeOf ma sa mb sb = mergeOf mb sb ma sa := by
  have hany : ∀ (p : FVal → Bool) (x y z w : FVal), [x, y, z, w].any p = [z, w, x, y].any p := fun p x y z w => by
    simp only [List.any_cons, List.any_nil, Bool.or_false]
    ac_rfl
  unfold mergeOf
  dsimp only
  rw [hany fvIsNan, hany fvIsSnan]
  refine ite_congr rfl (fun _ => rfl) fun hnan => ite_congr (propext or_comm) (fun _ => rfl) fun _ =>
    ite_congr (propext and_comm) (fun _ => rfl) fun _ => ?_
  simp only [List.any_cons, List.any_nil, Bool.or_false, Bool.or_eq_true, not_or, Bool.not_eq_true] at hnan
  rw [extremeOf_swap ha hb hnan.2.2.1 hnan.1, sumOf_swap]
  refine Prod.ext rfl (Prod.ext rfl ?_)
  ac_rfl

/-- A rounding gives a code of the format. -/
theorem roundRat_rne_lt {t : FTy} (x : ℚ) (h0 : x ≠ 0) : (roundRat t .rne 0 x).1 < 2 ^ fWidth t := by
  have hpos : 0 < |x| := abs_pos.mpr h0
  simp only [roundRat_eq, reduceCtorEq, decide_false, Bool.false_and, Bool.false_eq_true, if_false]
  split_ifs with h1 h2
  · cases t <;> cases decide (x < 0) <;> decide
  · cases t <;> cases decide (x < 0) <;> decide
  · rw [not_lt, ← finMag_roundedCode t .rne _ hpos, finMag_le_maxFinite_iff] at h1
    exact withSign_lt t _ (h1.trans_lt (maxCode_lt t))

theorem sumOf_rne_lt (t : FTy) (l : List FVal) : (sumOf t .rne l).1 < 2 ^ fWidth t := by
  have hz : ∀ s, withSign t s 0 < 2 ^ fWidth t := fun s => withSign_lt t s (by positivity)
  have hi : ∀ s, infOf t s < 2 ^ fWidth t := fun s => by cases t <;> cases s <;> decide
  have hn : nanCode t < 2 ^ fWidth t := by cases t <;> decide
  unfold sumOf
  dsimp only
  split_ifs with _ _ _ _ h0
  · exact hn
  · exact hn
  · exact hi true
  · exact hi false
  · exact roundRat_rne_lt _ h0
  · exact hz true
  · exact hz false
  · exact hz (decide (Rnd.rne = Rnd.rd))

/-- The merged sum is a code. -/
theorem mergeOf_sum_lt (ma sa mb sb : Nat) : (mergeOf ma sa mb sb).2.1 < 2 ^ 32 := by
  unfold mergeOf
  dsimp only
  split_ifs
  · exact (by decide : nanCode .f32 < 2 ^ 32)
  · exact (by decide : nanCode .f32 < 2 ^ 32)
  · exact (by decide : 0 < 2 ^ 32)
  · exact sumOf_rne_lt .f32 _

/-- The merged maximum is a code. -/
theorem mergeOf_max_lt {ma sa mb sb : Nat} (ha : ma < 2 ^ 32) (hb : mb < 2 ^ 32) : (mergeOf ma sa mb sb).1 < 2 ^ 32 := by
  unfold mergeOf
  dsimp only
  split_ifs
  · exact (by decide : nanCode .f32 < 2 ^ 32)
  · exact (by decide : infCode .f32 < 2 ^ 32)
  · exact (by decide : withSign .f32 true (infCode .f32) < 2 ^ 32)
  · exact CrossLane.extremeOf_lt (t := .f32) true ha hb

/-- LSE2 of the model as a word of the claims. -/
theorem computes_lse2 (h : Hd) (d a b : Opnd) :
    Computes (.lse2 h d a b)
      { fltCalc h .f32 d a b (fun _ _ _ => (0, 0)) with
        pipe := .m
        lat := some 12
        f := fun _ x y _ =>
          let r := mergeOf (sub 32 x 0) (sub 32 x 1) (sub 32 y 0) (sub 32 y 1)
          (BitVec.ofNat 64 (r.1 + r.2.1 * 2 ^ 32), r.2.2) } .var := by
  refine computes_of_eq (r := { fltWord .f32 d a b with pipe := .m, lat := some 12 }) (f := fun _ x y _ =>
      let (m, r, f) := lse2Of (subEl 32 x 0) (subEl 32 x 1) (subEl 32 y 0) (subEl 32 y 1)
      (BitVec.ofNat 64 (packEls 32 [m, r]), f)) (fun _ => rfl) rfl ?_
  have hf : (fun (_ : Nat) (x y _ : Word) =>
      let (m, r, f) := lse2Of (subEl 32 x 0) (subEl 32 x 1) (subEl 32 y 0) (subEl 32 y 1)
      (BitVec.ofNat 64 (packEls 32 [m, r]), f)) = fun _ x y _ =>
        let r := mergeOf (sub 32 x 0) (sub 32 x 1) (sub 32 y 0) (sub 32 y 1)
        (BitVec.ofNat 64 (r.1 + r.2.1 * 2 ^ 32), r.2.2) := by
    funext _ x y _
    have e := lse2Of_eq_mergeOf (sa := sub 32 x 1) (sb := sub 32 y 1) (sub_lt 32 x 0) (sub_lt 32 y 0)
    have hm := mergeOf_max_lt (sa := sub 32 x 1) (sb := sub 32 y 1) (sub_lt 32 x 0) (sub_lt 32 y 0)
    have hr := mergeOf_sum_lt (sub 32 x 0) (sub 32 x 1) (sub 32 y 0) (sub 32 y 1)
    have hs : ∀ z k, subEl 32 z k = sub 32 z k := fun _ _ => rfl
    simp only [hs, e, packEls, Nat.mod_eq_of_lt hm, Nat.mod_eq_of_lt hr, mul_comm (2 ^ 32), zero_mul, add_zero]
  rw [hf, ofReg, fltCalc, fltWord]

/-! ### RNG (R112) -/

theorem rngMix_eq_mixed (a b : Word) : rngMix a b = mixed a b := by
  have h : b.rotateLeft 32 = rotLeft b 32 := by rw [BitVec.rotateLeft_def, rotLeft]
  simp only [rngMix, mixed, h]

/-- A word of RNG computes every function with the values of its f. -/
theorem computes_rng {i : Instr} {h : Hd} {d a b : Opnd} {f f' : Word → Word} (hi : ∀ s, exec i s = rngWord s h d a b f)
    (e : ∀ z, f z = f' z) : Computes i (rngCalc h d a b f') .var := by
  obtain rfl : f = f' := funext e
  refine computes_of_eq hi rfl ?_
  simp only [ofReg, rngMix_eq_mixed]
  rfl

/-- A number of the top bits of a sub-element, as the model and the rule form it. -/
theorem rngElement (t : FTy) (x : Nat) {n : Nat} {e : Int} (he : e = -(n : Int)) : (roundRne t false (x / 2 ^ 8) e).1
    = if x < 256 then 0 else (roundRat t .rne 0 ((x / 256 : Nat) / 2 ^ n)).1 := by
  subst he
  have hz : x / 2 ^ 8 = 0 ↔ x < 256 := Nat.div_eq_zero_iff_lt (by decide)
  split_ifs with h
  · rw [hz.mpr h]; simp [roundRne, roundTo, fSign]
  · rw [roundRne, roundTo_eq_roundRat t .rne 0 false _ (mt hz.mp h), ratOf_fin, zpow_neg, zpow_natCast]
    simp [div_eq_mul_inv]

/-- RNG.f32 of the model is a word of RNG. -/
theorem exec_rngF32_eq (h : Hd) (d a b : Opnd) (s : State) : exec (.rngF32 h d a b) s = rngWord s h d a b fun z =>
    BitVec.ofNat 64 (packEls 32 ((List.range 2).map fun k => (roundRne .f32 false (subEl 32 z k / 2 ^ 8) (-24)).1)) := rfl

/-- RNG.bf16 of the model is a word of RNG. -/
theorem exec_rngBf16_eq (h : Hd) (d a b : Opnd) (s : State) : exec (.rngBf16 h d a b) s = rngWord s h d a b fun z =>
    BitVec.ofNat 64 (packEls 16 ((List.range 4).map fun k => (roundRne .bf16 false (subEl 16 z k / 2 ^ 8) (-8)).1)) := rfl

/-- Settles O26: RCP is a quotient with a sticky last bit, rounded once; the codes of EXP2's steps stand for the rule's numbers, and
the merge of LSE2 is symmetric in each of its steps. -/
theorem exactFunctions : Obligations.ExactFunctions := by
  refine ⟨fun h d a b => ⟨fun t => ⟨computes_spec (fun _ => rfl) fun k _ => rcpOf_eq_inverseOf k,
    computes_spec (fun _ => rfl) fun k _ => exp2Of_eq_expTwo k⟩, computes_lse2 h d a b,
    computes_rng (f := fun z => z) (fun _ => rfl) fun _ => rfl, computes_rng (exec_rngF32_eq h d a b) fun z => ?_,
    computes_rng (exec_rngBf16_eq h d a b) fun z => ?_⟩, fun ma sa mb sb ha _ hb _ => ?_⟩
  · rw [packEls_map_range]
    simp only [rngElement .f32 _ (n := 24) (e := -24) rfl]
    rfl
  · rw [packEls_map_range]
    simp only [rngElement .bf16 _ (n := 8) (e := -8) rfl]
    rfl
  · rw [lse2Of_eq_mergeOf ha hb, lse2Of_eq_mergeOf hb ha]
    exact ⟨mergeOf_swap ha hb, mergeOf_swap ha hb⟩

end Sys2Proof.Proofs.ExactSpecial
end

section
/-! PROOFS. Results inside a bound (R108): a candidate or a rounding that is near a close approximation is within the bound of the
function. -/

namespace Sys2Proof.Proofs.Approx

open Machine Claims Rounding Formats Nearest Special ExactSpecial

/-! ### Near the approximation -/

/-- A signed number in units of 2^b. -/
theorem signed_scaleTo_mul (neg : Bool) (m : Nat) {b e : Int} (h : b ≤ e) :
    (((if neg then -(scaleTo b m e : Int) else (scaleTo b m e : Int)) : Int) : ℚ) * 2 ^ b = ratOf (.fin neg m e) := by
  rw [ratOf_fin, mul_assoc, ← scaleTo_mul b m h]
  cases neg <;> simp

/-- A fixed-point number as a sign and a significand. -/
theorem ratOf_fin_int (v e : Int) : ratOf (.fin (v < 0) v.natAbs e) = v * (2 : ℚ) ^ e := by
  rw [ratOf_fin, mul_assoc, ← mul_assoc]
  congr 1
  by_cases h : v < 0
  · rw [decide_eq_true h, if_pos rfl, neg_one_mul, Nat.cast_natAbs, abs_of_neg h]
    push_cast
    ring
  · rw [decide_eq_false h, if_neg Bool.false_ne_true, one_mul, Nat.cast_natAbs, abs_of_nonneg (not_lt.mp h)]

/-- The bits of a significand bound the number. -/
theorem lt_two_zpow_bitLen (m : Nat) (e : Int) : (m : ℚ) * 2 ^ e < 2 ^ (e + (bitLen m : Int)) := by
  rw [zpow_add₀ two_ne_zero, mul_comm, zpow_natCast]
  exact mul_lt_mul_of_pos_left (by exact_mod_cast Sticky.bitLen_spec) (two_zpow_pos e)

/-- x less 2^b. -/
theorem lessUnit_mul {m : Nat} (hm : m ≠ 0) {e b : Int} (h : b ≤ e) : ((lessUnit m e b : Nat) : ℚ) * 2 ^ b = m * 2 ^ e - 2 ^ b := by
  have hscale := scaleTo_mul b m h
  have hpos : 0 < scaleTo b m e := by
    have : (0 : ℚ) < scaleTo b m e * 2 ^ b := hscale ▸ mul_pos (by exact_mod_cast Nat.pos_of_ne_zero hm) (two_zpow_pos e)
    exact_mod_cast pos_of_mul_pos_left this (two_zpow_pos b).le
  rw [lessUnit, Nat.cast_sub hpos, Nat.cast_one, sub_mul, hscale, one_mul]

/-- Numbers of the format below 2^n have no bits below 2^(2n), for small n. -/
theorem two_mul_exp_le {m : Nat} {e : Int} (h24 : m < 2 ^ 24) (h : e = -149 ∨ 2 ^ 23 ≤ m) (hn : e + (bitLen m : Int) ≤ -25) :
    2 * (e + (bitLen m : Int)) ≤ e := by
  have hb : bitLen m ≤ 24 := Integer.bitLen_le h24
  rcases h with h | h
  · omega
  · have : ¬ bitLen m ≤ 23 := fun hle => absurd (Sticky.bitLen_spec.trans_le (Nat.pow_le_pow_right two_pos hle)) (not_lt.mpr h)
    omega

/-- A candidate that passes the test is a number within the bound. -/
theorem near_of_within {c m n : Nat} {neg : Bool} {e f : Int} (h : within c neg m e n f = true) :
    isNum (fDecode .f32 c) = true ∧ |ratOf (fDecode .f32 c) - ratOf (.fin neg m e)| ≤ n * 2 ^ f := by
  rw [within] at h
  cases hv : fDecode .f32 c with
  | nan s | inf s => simp [hv] at h
  | fin cn cm ce =>
    simp only [hv, decide_eq_true_eq] at h
    refine ⟨rfl, ?_⟩
    generalize hb : min ce (min e f) = b at h
    have hp := two_zpow_pos b
    rw [← signed_scaleTo_mul cn cm (show b ≤ ce by omega), ← signed_scaleTo_mul neg m (show b ≤ e by omega),
      ← scaleTo_mul b n (show b ≤ f by omega), ← sub_mul, abs_mul, abs_of_pos hp]
    refine mul_le_mul_of_nonneg_right ?_ hp.le
    rw [← Int.cast_sub, ← Int.cast_abs, Int.abs_eq_natAbs]
    exact_mod_cast h

theorem ulpExp_eq_unitExp {m : Nat} (hm : m ≠ 0) (e : Int) : ulpExp m e = unitExp .f32 (m * 2 ^ e) := by
  have hq : fQmin .f32 = -149 := rfl
  have hf : fFrac .f32 = 23 := rfl
  rw [ulpExp, unitExp, log_eq_bitLen hm, hq, hf]
  push_cast
  omega

/-- A rounded magnitude is at most half a unit away. -/
theorem roundedMag_near (t : FTy) (neg : Bool) {x : ℚ} (hx : 0 < x) : |roundedMag t .rne 0 neg x - x| ≤ 2 ^ unitExp t x / 2 := by
  have hp := two_zpow_pos (unitExp t x)
  have hk : 0 ≤ x / 2 ^ unitExp t x := div_nonneg hx.le hp.le
  have h0 := Nat.floor_le hk
  have h1 := Nat.lt_floor_add_one (x / 2 ^ unitExp t x)
  have near : |x / 2 ^ unitExp t x - unitsOf t .rne 0 neg x| ≤ 1 / 2 := by
    have lower := (roundUnits_rne_nearest 0 neg hk ⌊x / 2 ^ unitExp t x⌋₊).1
    have upper := (roundUnits_rne_nearest 0 neg hk (⌊x / 2 ^ unitExp t x⌋₊ + 1)).1
    rw [abs_of_nonneg (sub_nonneg.mpr h0)] at lower
    have hup : |x / 2 ^ unitExp t x - (⌊x / 2 ^ unitExp t x⌋₊ + 1 : Nat)| = ⌊x / 2 ^ unitExp t x⌋₊ + 1 - x / 2 ^ unitExp t x := by
      rw [abs_sub_comm, Nat.cast_add_one, abs_of_nonneg (by linarith)]
    rw [hup] at upper
    rw [unitsOf]
    linarith
  calc |roundedMag t .rne 0 neg x - x| = |x / 2 ^ unitExp t x - unitsOf t .rne 0 neg x| * 2 ^ unitExp t x := by
        rw [roundedMag, abs_sub_comm, ← abs_of_pos hp, ← abs_mul, abs_of_pos hp, sub_mul, div_mul_cancel₀ _ hp.ne']
    _ ≤ 1 / 2 * 2 ^ unitExp t x := mul_le_mul_of_nonneg_right near hp.le
    _ = _ := by ring

/-- A rounding of a number other than zero is a number at most half a unit away. -/
theorem near_roundRne (neg : Bool) {m : Nat} (hm : m ≠ 0) {e : Int} (h : (m : ℚ) * 2 ^ e ≤ 2 ^ (127 : Int)) :
    isNum (fDecode .f32 (roundRne .f32 neg m e).1) = true
      ∧ |ratOf (fDecode .f32 (roundRne .f32 neg m e).1) - ratOf (.fin neg m e)| ≤ 2 ^ ulpExp m e / 2 := by
  have hpos : (0 : ℚ) < m * 2 ^ e := mul_pos (by exact_mod_cast Nat.pos_of_ne_zero hm) (two_zpow_pos e)
  obtain ⟨hnum, hval⟩ := isNum_ratOf_roundTo (t := .f32) (by decide) neg hm e (le_maxFinite_f32 le_rfl h)
  rw [roundRne, hval, ratOf_fin, mul_assoc, abs_signed_sub, ulpExp_eq_unitExp hm]
  exact ⟨hnum, roundedMag_near .f32 neg hpos⟩

theorem decode_roundRne_zero (neg : Bool) (e : Int) : fDecode .f32 (roundRne .f32 neg 0 e).1 = .fin neg 0 (-149) := by
  have : (roundRne .f32 neg 0 e).1 = fSign .f32 neg := rfl
  rw [this]
  cases neg <;> decide

/-- The result at a code is within every bound of at least half a unit. -/
theorem near_approxAt (fn code : Nat) (neg : Bool) {m n : Nat} {e f : Int} (h : (m : ℚ) * 2 ^ e ≤ 2 ^ (127 : Int))
    (hn : m ≠ 0 → (2 : ℚ) ^ ulpExp m e / 2 ≤ n * 2 ^ f) :
    isNum (fDecode .f32 (approxAt fn code neg m e n f).1) = true
      ∧ |ratOf (fDecode .f32 (approxAt fn code neg m e n f).1) - ratOf (.fin neg m e)| ≤ n * 2 ^ f := by
  simp only [approxAt]
  split_ifs with hw
  · exact near_of_within hw
  · by_cases hm : m = 0
    · subst hm
      rw [decode_roundRne_zero, (ratOf_fin_eq_zero_iff neg 0 _).mpr rfl, (ratOf_fin_eq_zero_iff neg 0 _).mpr rfl, sub_zero, abs_zero]
      exact ⟨rfl, mul_nonneg n.cast_nonneg (two_zpow_pos f).le⟩
    · obtain ⟨h1, h2⟩ := near_roundRne neg hm h
      exact ⟨h1, h2.trans (hn hm)⟩

/-! ### Near the function -/

variable {fn code m : Nat} {neg : Bool} {e : Int} {v : ℝ}

theorem cast_two_zpow (j : Int) : (((2 : ℚ) ^ j : ℚ) : ℝ) = 2 ^ j := by
  rw [Rat.cast_zpow, Rat.cast_ofNat]

/-- An odd function at a signed number, against a number of the same sign. -/
theorem abs_sub_odd {f : ℝ → ℝ} (hf : ∀ x, f (-x) = -f x) (neg : Bool) (a m : Nat) (b e : Int) :
    |(ratOf (.fin neg a b) : ℝ) - f (ratOf (.fin neg m e))| = |((a * 2 ^ b : ℚ) : ℝ) - f ((m * 2 ^ e : ℚ) : ℝ)| := by
  rw [ratOf_fin, ratOf_fin, mul_assoc, mul_assoc]
  cases neg
  · simp only [Bool.false_eq_true, if_false, one_mul]
  · simp only [if_true, neg_one_mul, Rat.cast_neg, hf]
    rw [neg_sub_neg, abs_sub_comm]

/-- Within what is left of a bound, of an approximation that is within the rest. -/
theorem near_real {r x b d : ℚ} (h : |r - x| ≤ b) (hv : |(x : ℝ) - v| ≤ d) : |(r : ℝ) - v| ≤ (b + d : ℚ) := by
  have h' : |(r : ℝ) - x| ≤ b := by exact_mod_cast h
  calc |(r : ℝ) - v| = |((r : ℝ) - x) + (x - v)| := by ring_nf
    _ ≤ |(r : ℝ) - x| + |(x : ℝ) - v| := abs_add_le _ _
    _ ≤ _ := by push_cast; linarith

/-- A multiple of a power of two less one of its units. -/
theorem two_zpow_sub_unit (k : Nat) {d f : Int} (h : f ≤ d) (hk : k ≠ 0) :
    ((k * 2 ^ (d - f).toNat - 1 : Nat) : ℚ) * 2 ^ f = k * 2 ^ d - 2 ^ f := by
  have hpow := two_zpow_toNat (e := d - f) (by omega)
  rw [Nat.cast_sub (Nat.mul_pos (Nat.pos_of_ne_zero hk) (Nat.two_pow_pos _)), Nat.cast_mul, ← hpow, Nat.cast_succ, Nat.cast_zero, zero_add, sub_mul, one_mul, mul_assoc,
    ← zpow_add₀ two_ne_zero, sub_add_cancel]

/-- A result within 2^−22, less 2^f, of an approximation whose error is at most 2^f (R108). -/
theorem nearFixed_approxFixed {f : Int} (h : (m : ℚ) * 2 ^ e ≤ 2) (hf : f ≤ -24) (hv : |(ratOf (.fin neg m e) : ℝ) - v| ≤ 2 ^ f) :
    NearFixed (approxFixed fn code neg m e f).1 v := by
  have hbound := two_zpow_sub_unit 1 (show f ≤ -22 by omega) one_ne_zero
  rw [one_mul, Nat.cast_one, one_mul] at hbound
  have hulp (hm : m ≠ 0) : (2 : ℚ) ^ ulpExp m e / 2 ≤ ((2 ^ (-22 - f).toNat - 1 : Nat) : ℚ) * 2 ^ f := by
    have hpos : (0 : ℚ) < m * 2 ^ e := mul_pos (by exact_mod_cast Nat.pos_of_ne_zero hm) (two_zpow_pos e)
    have hlog : Int.log 2 ((m : ℚ) * 2 ^ e) < 2 := (Int.lt_zpow_iff_log_lt (by norm_num) hpos).mp (h.trans_lt (by norm_num))
    have hle : ulpExp m e ≤ -22 := by
      rw [log_eq_bitLen hm] at hlog
      rw [ulpExp]
      omega
    have h1 : (2 : ℚ) ^ ulpExp m e ≤ 2 ^ (-22 : Int) := zpow_le_zpow_right₀ one_le_two hle
    have h2 : (2 : ℚ) ^ f ≤ 2 ^ (-24 : Int) := zpow_le_zpow_right₀ one_le_two hf
    rw [hbound]
    norm_num at h1 h2 ⊢
    linarith
  obtain ⟨h1, h2⟩ := near_approxAt fn code neg (h.trans (by norm_num)) hulp
  refine ⟨h1, (near_real (h2.trans hbound.le) (d := 2 ^ f) (by push_cast; exact hv)).trans (le_of_eq ?_)⟩
  push_cast
  ring

/-- A result within k ulp, less 2^−u ulp, of an approximation whose error is at most 2^−u ulp and whose binade is not above the
function's (R108). -/
theorem nearUlps_approxUlp {k u : Nat} (hk : k ≠ 0) (hu : u ≠ 0) (hm : m ≠ 0) (h : (m : ℚ) * 2 ^ e ≤ 2 ^ (127 : Int))
    (hlog : (2 : ℝ) ^ Int.log 2 ((m : ℚ) * 2 ^ e) ≤ |v|)
    (hv : |(ratOf (.fin neg m e) : ℝ) - v| ≤ 2 ^ (ulpExp m e - u)) : NearUlps (approxUlp fn code k neg m e u).1 v k := by
  have hbound := two_zpow_sub_unit k (show ulpExp m e - u ≤ ulpExp m e by omega) hk
  rw [show (ulpExp m e - (ulpExp m e - u)).toNat = u by omega] at hbound
  have hulp : (2 : ℚ) ^ ulpExp m e / 2 ≤ ((k * 2 ^ u - 1 : Nat) : ℚ) * 2 ^ (ulpExp m e - u) := by
    have hp := two_zpow_pos (ulpExp m e)
    have h1 : (2 : ℚ) ^ (ulpExp m e - u) ≤ 2 ^ (ulpExp m e - 1) := zpow_le_zpow_right₀ one_le_two (by omega)
    have h2 : (1 : ℚ) ≤ k := by exact_mod_cast Nat.one_le_iff_ne_zero.mpr hk
    rw [zpow_sub_one₀ two_ne_zero] at h1
    rw [hbound]
    nlinarith
  have hexp : ulpExp m e ≤ max (Int.log 2 |v| - 23) (-149) := by
    have hlog' := (Int.zpow_le_iff_le_log one_lt_two (lt_of_lt_of_le (zpow_pos two_pos _) hlog)).mp (by exact_mod_cast hlog)
    rw [log_eq_bitLen hm] at hlog'
    rw [ulpExp]
    omega
  obtain ⟨h1, h2⟩ := near_approxAt fn code neg h fun _ => hulp
  refine ⟨h1, (near_real (h2.trans hbound.le) (d := 2 ^ (ulpExp m e - u)) (by push_cast; exact hv)).trans ?_⟩
  push_cast
  rw [sub_add_cancel]
  exact mul_le_mul_of_nonneg_left (zpow_le_zpow_right₀ one_le_two hexp) k.cast_nonneg

/-- An error of 2^−(u + 24) of the approximation is at most 2^−u ulp. -/
theorem relative_le_ulp (hm : m ≠ 0) (e : Int) (u : Nat) : (m * 2 ^ e : ℝ) * 2 ^ (-(u : Int) - 24) ≤ 2 ^ (ulpExp m e - u) := by
  have hpos : (0 : ℚ) < m * 2 ^ e := mul_pos (by exact_mod_cast Nat.pos_of_ne_zero hm) (two_zpow_pos e)
  have hlog : Int.log 2 ((m : ℚ) * 2 ^ e) + 1 ≤ ulpExp m e + 24 := by
    rw [log_eq_bitLen hm, ulpExp]
    omega
  have hlt : (m * 2 ^ e : ℚ) < 2 ^ (ulpExp m e + 24) :=
    (Int.lt_zpow_succ_log_self one_lt_two _).trans_le (by exact_mod_cast two_zpow_le hlog)
  have hlt' : (m * 2 ^ e : ℝ) < 2 ^ (ulpExp m e + 24) := by
    have := (Rat.cast_lt (K := ℝ)).mpr hlt
    push_cast at this
    exact this
  refine (mul_le_mul_of_nonneg_right hlt'.le (zpow_pos two_pos _).le).trans_eq ?_
  rw [← zpow_add₀ two_ne_zero]
  congr 1
  ring

end Sys2Proof.Proofs.Approx
end

section
/-! PROOFS. RSQ within its bound (R108): the model's approximation divides 1 by the model's root, each with 100 bits and a sticky
last bit. -/

namespace Sys2Proof.Proofs.Rsq

open Machine Claims Rounding Formats Sticky Special Roots Approx

/-! ### Cells of a grid -/

/-- Numbers between the same two neighbours of a grid are less than a unit apart. -/
theorem abs_sub_le_of_between {n : Nat} {g : Int} {x y : ℚ} (hx : Between n g x) (hy : Between n g y) : |x - y| ≤ 2 ^ g := by
  obtain ⟨h1, h2⟩ := hx
  obtain ⟨h3, h4⟩ := hy
  rw [abs_le]
  constructor <;> linarith

/-- The upper neighbour of a number is at most every power of two that the number is at most. -/
theorem upper_le_two_zpow {n : Nat} (hn : n ≠ 0) {g j : Int} {x : ℚ} (h : Between n g x) (hx : x ≤ 2 ^ j) : (n + 1 : ℚ) * 2 ^ g ≤ 2 ^ j := by
  have hg : g ≤ j := by
    by_contra hlt
    have h1 : (2 : ℚ) ^ j ≤ 2 ^ g := two_zpow_le (by omega)
    have h2 : (2 : ℚ) ^ g ≤ n * 2 ^ g := le_mul_of_one_le_left (two_zpow_pos g).le (by exact_mod_cast Nat.pos_of_ne_zero hn)
    linarith [h.1]
  have hj : (2 : ℚ) ^ j = (2 ^ (j - g).toNat : Nat) * 2 ^ g := by
    rw [← two_zpow_toNat (by omega), ← zpow_add₀ two_ne_zero, sub_add_cancel]
  rw [hj] at hx ⊢
  refine mul_le_mul_of_nonneg_right ?_ (two_zpow_pos g).le
  have : ¬ 2 ^ (j - g).toNat ≤ n := fun hle => absurd ((h.lt_nat_iff _).mpr hle) (not_lt.mpr hx)
  exact_mod_cast not_le.mp this

/-! ### Quotients -/

/-- A quotient: exact, or with its last bit set between two neighbours of a grid. -/
theorem quot_spec (bits : Nat) {m n : Nat} (hm : m ≠ 0) (hn : n ≠ 0) (e : Int) :
    ∃ q g, 2 ^ bits ≤ q
      ∧ (quot bits m n e = (q, g) ∧ (m : ℚ) * 2 ^ e / n = q * 2 ^ g
        ∨ quot bits m n e = (2 * q + 1, g - 1) ∧ Between q g (m * 2 ^ e / n)) := by
  have hn' : (0 : ℚ) < n := by exact_mod_cast Nat.pos_of_ne_zero hn
  have hbits := two_pow_le_quotient bits hm hn
  have hquot : quot bits m n e = if m * 2 ^ (bits + bitLen n) % n = 0 then (m * 2 ^ (bits + bitLen n) / n, e - (bits + bitLen n : Nat))
      else (2 * (m * 2 ^ (bits + bitLen n) / n) + 1, e - (bits + bitLen n : Nat) - 1) := rfl
  generalize bits + bitLen n = k at hbits hquot
  have hscale : (m : ℚ) * 2 ^ e / n = (m * 2 ^ k : Nat) / n * 2 ^ (e - k) := by
    rw [zpow_sub₀ two_ne_zero, zpow_natCast]
    push_cast
    field_simp
  refine ⟨m * 2 ^ k / n, e - k, hbits, ?_⟩
  rw [hquot, hscale]
  have hdm := Nat.div_add_mod (m * 2 ^ k) n
  have hlt := Nat.mod_lt (m * 2 ^ k) (Nat.pos_of_ne_zero hn)
  generalize m * 2 ^ k = x at *
  by_cases hr : x % n = 0
  · refine .inl ⟨if_pos hr, ?_⟩
    congr 1
    rw [div_eq_iff hn'.ne']
    exact_mod_cast (Nat.div_mul_cancel (Nat.dvd_of_mod_eq_zero hr)).symm
  · have h1 : x / n * n < x := by rw [mul_comm]; omega
    have h2 : x < (x / n + 1) * n := by rw [add_mul, one_mul, mul_comm (x / n)]; omega
    refine .inr ⟨if_neg hr, mul_lt_mul_of_pos_right ?_ (two_zpow_pos _), mul_lt_mul_of_pos_right ?_ (two_zpow_pos _)⟩
    · rw [lt_div_iff₀ hn']
      exact_mod_cast h1
    · rw [div_lt_iff₀ hn']
      exact_mod_cast h2

/-- The value of the model's quotient: its binade is the quotient's, and its relative error is below its bits. -/
theorem quot_near (bits : Nat) {m n : Nat} (hm : m ≠ 0) (hn : n ≠ 0) (e : Int) :
    (quot bits m n e).1 ≠ 0
      ∧ Int.log 2 ((quot bits m n e).1 * 2 ^ (quot bits m n e).2 : ℚ) = Int.log 2 ((m : ℚ) * 2 ^ e / n)
      ∧ |((quot bits m n e).1 * 2 ^ (quot bits m n e).2 : ℚ) - m * 2 ^ e / n| ≤ m * 2 ^ e / n / 2 ^ bits := by
  obtain ⟨q, g, hq, h⟩ := quot_spec bits hm hn e
  have hq0 : q ≠ 0 := fun h0 => by
    rw [h0] at hq
    exact absurd (Nat.two_pow_pos bits) (not_lt.mpr hq)
  rcases h with ⟨hquot, hval⟩ | ⟨hquot, hval⟩
  · rw [hquot, hval, sub_self, abs_zero]
    exact ⟨hq0, rfl, by positivity⟩
  · have hs := between_sticky q g
    rw [hquot]
    refine ⟨Nat.succ_ne_zero _, (hs.log hq0).trans (hval.log hq0).symm, (abs_sub_le_of_between hs hval).trans ?_⟩
    rw [le_div_iff₀ (by positivity), mul_comm]
    refine le_trans ?_ hval.1.le
    exact mul_le_mul_of_nonneg_right (by exact_mod_cast hq) (two_zpow_pos g).le

/-! ### The root -/

/-- The value of the model's root: it is at most a power of two only where the root is, and its relative error is below its bits. -/
theorem root_near (bits : Nat) {m : Nat} (hm : m ≠ 0) (e : Int) :
    (root bits m e).1 ≠ 0
      ∧ (∀ j : Int, ((root bits m e).1 * 2 ^ (root bits m e).2 : ℚ) ≤ 2 ^ j → Real.sqrt ((m * 2 ^ e : ℚ) : ℝ) ≤ 2 ^ j)
      ∧ |(((root bits m e).1 * 2 ^ (root bits m e).2 : ℚ) : ℝ) - Real.sqrt ((m * 2 ^ e : ℚ) : ℝ)|
          ≤ Real.sqrt ((m * 2 ^ e : ℚ) : ℝ) / 2 ^ bits := by
  obtain ⟨n, g, hn, h⟩ := root_spec bits hm e
  have hn0 : n ≠ 0 := fun h0 => by
    rw [h0] at hn
    exact absurd (Nat.two_pow_pos bits) (not_lt.mpr hn)
  have hpg := two_zpow_pos g
  rcases h with ⟨hroot, hval⟩ | ⟨hroot, hlo, hhi⟩
  · have hsqrt : Real.sqrt ((m * 2 ^ e : ℚ) : ℝ) = ((n * 2 ^ g : ℚ) : ℝ) := by
      rw [hval]
      push_cast
      exact Real.sqrt_sq (by positivity)
    rw [hroot, hsqrt, sub_self, abs_zero]
    exact ⟨hn0, fun j hj => cast_two_zpow j ▸ Rat.cast_le.mpr hj, by push_cast; positivity⟩
  · have hs := between_sticky n g
    have h1 : ((n * 2 ^ g : ℚ) : ℝ) < Real.sqrt ((m * 2 ^ e : ℚ) : ℝ) := by
      refine Real.lt_sqrt_of_sq_lt ?_
      exact_mod_cast hlo
    have h2 : Real.sqrt ((m * 2 ^ e : ℚ) : ℝ) < (((n + 1) * 2 ^ g : ℚ) : ℝ) := by
      rw [Real.sqrt_lt' (by exact_mod_cast (by positivity : (0 : ℚ) < (n + 1) * 2 ^ g))]
      exact_mod_cast hhi
    rw [hroot]
    refine ⟨Nat.succ_ne_zero _, fun j hj => h2.le.trans ?_, ?_⟩
    · exact cast_two_zpow j ▸ Rat.cast_le.mpr (upper_le_two_zpow hn0 hs hj)
    · have h3 : ((n * 2 ^ g : ℚ) : ℝ) < (((2 * n + 1 : Nat) * 2 ^ (g - 1) : ℚ) : ℝ) := by exact_mod_cast hs.1
      have h4 : (((2 * n + 1 : Nat) * 2 ^ (g - 1) : ℚ) : ℝ) < (((n + 1) * 2 ^ g : ℚ) : ℝ) := by exact_mod_cast hs.2
      have h5 : (2 : ℝ) ^ g ≤ Real.sqrt ((m * 2 ^ e : ℚ) : ℝ) / 2 ^ bits := by
        rw [le_div_iff₀ (by positivity), mul_comm]
        refine le_trans ?_ h1.le
        push_cast
        exact mul_le_mul_of_nonneg_right (by exact_mod_cast hn) (zpow_pos two_pos g).le
      refine le_trans ?_ h5
      push_cast at *
      rw [abs_le]
      constructor <;> linarith

/-! ### RSQ -/

/-- Dividing by an approximation of a number. -/
theorem abs_inv_sub_inv_le {s t d : ℝ} (hs : 0 < s) (ht : 0 < t) (h : |s - t| ≤ t * d) : |1 / s - 1 / t| ≤ 1 / s * d := by
  have : 1 / s - 1 / t = -(s - t) / (s * t) := by
    field_simp
    ring
  rw [this, abs_div, abs_neg, abs_of_pos (mul_pos hs ht), div_le_iff₀ (mul_pos hs ht)]
  calc |s - t| ≤ t * d := h
    _ = 1 / s * d * (s * t) := by field_simp

/-- RSQ of a number that is not an even power of 2 (R108). -/
theorem nearUlps_rsq_approx {code m : Nat} {e : Int} (hm : m ≠ 0) (h24 : m < 2 ^ 24) (he : -149 ≤ e) (he' : e ≤ 104) :
    NearUlps (approxUlp 1 code 1 false (quot 100 1 (root 100 m e).1 (-(root 100 m e).2)).1 (quot 100 1 (root 100 m e).1 (-(root 100 m e).2)).2 52).1
      (1 / Real.sqrt ((m * 2 ^ e : ℚ) : ℝ)) 1 := by
  obtain ⟨hr0, hrle, hrnear⟩ := root_near 100 hm e
  obtain ⟨hxlo, hxhi⟩ := f32_bounds hm h24 he he'
  generalize (root 100 m e).1 = r at *
  generalize (root 100 m e).2 = g at *
  obtain ⟨hq0, hqlog, hqnear⟩ := quot_near 100 one_ne_zero hr0 (-g)
  generalize (quot 100 1 r (-g)).1 = q at *
  generalize (quot 100 1 r (-g)).2 = h at *
  have hS : (0 : ℚ) < r * 2 ^ g := mul_pos (by exact_mod_cast Nat.pos_of_ne_zero hr0) (two_zpow_pos g)
  have hinv : ((1 : Nat) : ℚ) * 2 ^ (-g) / r = 1 / (r * 2 ^ g) := by
    rw [zpow_neg, Nat.cast_one, one_mul, one_div, mul_inv, div_eq_mul_inv, mul_comm]
  rw [hinv] at hqlog hqnear
  have hvalue : ratOf (.fin false q h) = q * 2 ^ h := by rw [ratOf_fin, if_neg Bool.false_ne_true, one_mul]
  generalize (r * 2 ^ g : ℚ) = S at *
  have hulp := relative_le_ulp hq0 h 52
  have hwq : ((q * 2 ^ h : ℚ) : ℝ) = q * 2 ^ h := by push_cast; rfl
  rw [← hwq] at hulp
  have hx0 : (2 : ℝ) ^ (-149 : Int) ≤ ((m * 2 ^ e : ℚ) : ℝ) := by
    exact cast_two_zpow (-149) ▸ Rat.cast_le.mpr hxlo
  generalize hR : Real.sqrt ((m * 2 ^ e : ℚ) : ℝ) = R at *
  have hRlo : (2 : ℝ) ^ (-75 : Int) ≤ R := by
    rw [← hR]
    refine Real.le_sqrt_of_sq_le (le_trans ?_ hx0)
    norm_num
  have hR0 : 0 < R := lt_of_lt_of_le (zpow_pos two_pos _) hRlo
  have hSR : (0 : ℝ) < S := by exact_mod_cast hS
  have hroot := abs_inv_sub_inv_le hSR hR0 (d := 1 / 2 ^ 100) (hrnear.trans_eq (by ring))
  have hquot : |((q * 2 ^ h : ℚ) : ℝ) - 1 / S| ≤ 1 / S / 2 ^ 100 := by
    have := (Rat.cast_le (K := ℝ)).mpr hqnear
    push_cast at this ⊢
    exact this
  have hlogle : (2 : ℝ) ^ Int.log 2 (q * 2 ^ h : ℚ) ≤ 1 / R := by
    rw [hqlog]
    have h1 := (Int.zpow_le_iff_le_log one_lt_two (one_div_pos.mpr hS)).mpr le_rfl
    generalize Int.log 2 (1 / S) = L at *
    have h2 := hrle (-L) (by
      rw [zpow_neg, ← one_div]
      exact (le_one_div hS (two_zpow_pos L)).mpr (by exact_mod_cast h1))
    rw [zpow_neg, ← one_div] at h2
    exact (le_one_div (zpow_pos two_pos L) hR0).mpr h2
  have hIR : 1 / R ≤ 2 ^ 75 := by
    rw [one_div_le hR0 (by positivity)]
    refine le_trans (le_of_eq ?_) hRlo
    norm_num
  have hI : 0 < 1 / (S : ℝ) := one_div_pos.mpr hSR
  generalize 1 / (S : ℝ) = I at *
  rw [abs_le] at hroot hquot
  have hclose : |((q * 2 ^ h : ℚ) : ℝ) - 1 / R| ≤ ((q * 2 ^ h : ℚ) : ℝ) * 2 ^ (-((52 : Nat) : Int) - 24) := by
    norm_num [abs_le] at hroot hquot ⊢
    constructor <;> linarith
  have hle : (q * 2 ^ h : ℚ) ≤ 2 ^ (127 : Int) := by
    have : ((q * 2 ^ h : ℚ) : ℝ) ≤ ((2 ^ (127 : Int) : ℚ) : ℝ) := by
      rw [abs_le] at hclose
      norm_num at hclose hIR ⊢
      linarith
    exact_mod_cast this
  have near : NearUlps (approxUlp 1 code 1 false q h 52).1 (1 / R) (1 : Nat) :=
    nearUlps_approxUlp one_ne_zero (by decide) hq0 hle (by rwa [abs_of_pos (one_div_pos.mpr hR0)]) (hvalue ▸ hclose.trans hulp)
  rwa [Nat.cast_one] at near

/-- RSQ lies within 1 ulp (R108). -/
theorem nearUlps_rsq {c : Nat} (hnum : isNum (fDecode .f32 c) = true) (hx : 0 < ratOf (fDecode .f32 c)) :
    NearUlps (rsqOf c).1 (1 / Real.sqrt (ratOf (fDecode .f32 c) : ℝ)) 1 := by
  obtain ⟨m, e, hv, hm, hval⟩ := exists_fin_of_pos hnum hx
  obtain ⟨h24, he, he', -⟩ := f32_fin hv
  by_cases hpow : m = 2 ^ (bitLen m - 1) ∧ (e + ((bitLen m - 1 : Nat) : Int)) % 2 = 0
  · obtain ⟨hp, heven⟩ := hpow
    generalize hk : bitLen m - 1 = k at hp heven
    have hxi : ratOf (fDecode .f32 c) = 2 ^ (2 * ((e + k) / 2)) := by
      rw [hval, hp, show 2 * ((e + (k : Int)) / 2) = k + e by omega, zpow_add₀ two_ne_zero, zpow_natCast]
      push_cast
      rfl
    obtain ⟨hr, -⟩ := rsqOf_exact hnum hxi
    have hsqrt : 1 / Real.sqrt (ratOf (fDecode .f32 c) : ℝ) = 2 ^ (-((e + (k : Int)) / 2)) := by
      rw [hxi, two_mul, zpow_add₀ two_ne_zero]
      push_cast
      rw [Real.sqrt_mul_self (zpow_pos two_pos _).le, zpow_neg, one_div]
    refine ⟨?_, ?_⟩
    · cases hd : fDecode .f32 (rsqOf c).1 with
      | nan s | inf s => rw [hd] at hr; exact absurd hr (two_zpow_pos _).ne
      | fin neg n g => rfl
    · rw [hr, hsqrt]
      push_cast
      rw [sub_self, abs_zero, one_mul]
      exact (zpow_pos two_pos _).le
  · have hrsq : rsqOf c = approxUlp 1 c 1 false (quot 100 1 (root 100 m e).1 (-(root 100 m e).2)).1
        (quot 100 1 (root 100 m e).1 (-(root 100 m e).2)).2 52 := by
      have hbranch : (decide (m = 2 ^ (bitLen m - 1)) && (e + ((bitLen m - 1 : Nat) : Int)) % 2 == 0) = false := by
        rw [Bool.eq_false_iff]
        intro h
        rw [Bool.and_eq_true, decide_eq_true_eq, beq_iff_eq] at h
        exact hpow h
      simp only [rsqOf, hv, hm, if_false, Bool.false_eq_true]
      simp [hbranch]
    rw [hrsq, hval]
    exact nearUlps_rsq_approx hm h24 he he'

end Sys2Proof.Proofs.Rsq
end

section
/-! PROOFS. LOG2 within its bound (R108): the fraction bits by repeated squaring, of numbers that are no powers of two. -/

namespace Sys2Proof.Proofs.Log2

open Machine Claims Rounding Formats Special Approx

/-! ### The fraction bits -/

/-- The logarithm of a large number and of its integral part. -/
theorem logb_floor {z : Nat} {t : ℝ} (hz : 2 ^ 191 ≤ z) (h1 : (z : ℝ) ≤ t) (h2 : t < z + 1) :
    Real.logb 2 z ≤ Real.logb 2 t ∧ Real.logb 2 t ≤ Real.logb 2 z + 2 ^ (-190 : Int) := by
  have hz' : (2 : ℝ) ^ 191 ≤ z := by exact_mod_cast hz
  have hz0 : (0 : ℝ) < z := lt_of_lt_of_le (by positivity) hz'
  have ht0 : 0 < t := hz0.trans_le h1
  refine ⟨Real.logb_le_logb_of_le one_lt_two hz0 h1, ?_⟩
  rw [← sub_le_iff_le_add', ← Real.logb_div ht0.ne' hz0.ne', Real.logb, div_le_iff₀ (Real.log_pos one_lt_two)]
  have hlog : Real.log (t / z) ≤ t / z - 1 := Real.log_le_sub_one_of_pos (div_pos ht0 hz0)
  have hratio : t / z - 1 ≤ 1 / 2 ^ 191 := by
    rw [div_sub_one hz0.ne', div_le_div_iff₀ hz0 (by positivity)]
    nlinarith
  have htwo : (1 / 2 : ℝ) < Real.log 2 := by linarith [Real.log_two_gt_d9]
  norm_num at hratio ⊢
  linarith

/-- The logarithm of a square that is divided by 2^k and rounded down. -/
theorem logb_square {y k : Nat} (hy : y ≠ 0) (hz : 2 ^ 191 ≤ y * y / 2 ^ k) :
    Real.logb 2 (y * y / 2 ^ k : Nat) ≤ 2 * Real.logb 2 y - k
      ∧ 2 * Real.logb 2 y - k ≤ Real.logb 2 (y * y / 2 ^ k : Nat) + 2 ^ (-190 : Int) := by
  have hy' : (y : ℝ) ≠ 0 := by exact_mod_cast hy
  have hlog : Real.logb 2 ((y * y : Nat) / 2 ^ k : ℝ) = 2 * Real.logb 2 y - k := by
    rw [Nat.cast_mul, Real.logb_div (mul_ne_zero hy' hy') (by positivity), Real.logb_mul hy' hy', ← Real.rpow_natCast,
      Real.logb_rpow two_pos (by norm_num)]
    ring
  rw [← hlog]
  refine logb_floor hz ?_ ?_
  · exact_mod_cast Nat.cast_div_le (α := ℝ) (m := y * y) (n := 2 ^ k)
  · rw [div_lt_iff₀ (by positivity)]
    exact_mod_cast Nat.lt_mul_of_div_lt (Nat.lt_succ_self (y * y / 2 ^ k)) (Nat.two_pow_pos k)

/-- n fraction bits b of the logarithm of y, and what their rounding may lose. -/
def IsLogBits (n y b : Nat) : Prop :=
  (b : ℝ) ≤ 2 ^ n * (Real.logb 2 y - 191) ∧ 2 ^ n * (Real.logb 2 y - 191) ≤ b + 1 + 2 ^ n * 2 ^ (-189 : Int)

theorem isLogBits_zero {y : Nat} (hlo : 2 ^ 191 ≤ y) (hhi : y < 2 ^ 192) : IsLogBits 0 y 0 := by
  have hy : (0 : ℝ) < y := by exact_mod_cast lt_of_lt_of_le (by positivity) hlo
  have h1 : 191 ≤ Real.logb 2 y := by
    rw [Real.le_logb_iff_rpow_le one_lt_two hy]
    exact_mod_cast hlo
  have h2 : Real.logb 2 y < 192 := by
    rw [Real.logb_lt_iff_lt_rpow one_lt_two hy]
    exact_mod_cast hhi
  have : (0 : ℝ) < 2 ^ (-189 : Int) := zpow_pos two_pos _
  rw [IsLogBits]
  norm_num at this ⊢
  constructor <;> linarith

/-- The bits of y are a first bit b, and the bits of the square divided by 2^(191 + b). -/
theorem IsLogBits.succ {n y b d : Nat} (hy : y ≠ 0) (hz : 2 ^ 191 ≤ y * y / 2 ^ (191 + b))
    (h : IsLogBits n (y * y / 2 ^ (191 + b)) d) : IsLogBits (n + 1) y (b * 2 ^ n + d) := by
  obtain ⟨hlow, hup⟩ := h
  obtain ⟨hlog, hlog'⟩ := logb_square hy hz
  have hunit : (2 : ℝ) ^ (-189 : Int) = 2 * 2 ^ (-190 : Int) := by norm_num
  have hp : (0 : ℝ) < 2 ^ n := by positivity
  have hlog := mul_le_mul_of_nonneg_left hlog hp.le
  have hlog' := mul_le_mul_of_nonneg_left hlog' hp.le
  have hpos : (0 : ℝ) < 2 ^ n * 2 ^ (-190 : Int) := mul_pos hp (zpow_pos two_pos _)
  rw [IsLogBits, pow_succ, hunit]
  rw [hunit] at hup
  generalize (2 : ℝ) ^ (-190 : Int) = unit at *
  push_cast at *
  constructor <;> linarith

/-- The fraction bits of the logarithm from repeated squaring, each square rounded down. -/
theorem log2Bits_spec (n : Nat) {y : Nat} (acc : Nat) (hlo : 2 ^ 191 ≤ y) (hhi : y < 2 ^ 192) :
    ∃ b, log2Bits n y acc = acc * 2 ^ n + b ∧ IsLogBits n y b := by
  induction n generalizing y acc with
  | zero => exact ⟨0, by rw [log2Bits, pow_zero, mul_one, add_zero], isLogBits_zero hlo hhi⟩
  | succ n ih =>
    have hy : y ≠ 0 := by omega
    have hsq : 2 ^ 191 * 2 ^ 191 ≤ y * y := Nat.mul_le_mul hlo hlo
    have hsq' : y * y < 2 ^ 192 * 2 ^ 192 := Nat.mul_lt_mul'' hhi hhi
    by_cases hz : 2 ^ 192 ≤ y * y / 2 ^ 191
    · have hlo' : 2 ^ 191 ≤ y * y / 2 ^ (191 + 1) := by omega
      obtain ⟨d, hd, hb⟩ := ih (2 * acc + 1) hlo' (by omega)
      refine ⟨1 * 2 ^ n + d, ?_, hb.succ hy hlo'⟩
      rw [log2Bits, if_pos hz, Nat.div_div_eq_div_mul, ← pow_succ, hd]
      ring
    · have hlo' : 2 ^ 191 ≤ y * y / 2 ^ (191 + 0) := by omega
      obtain ⟨d, hd, hb⟩ := ih (2 * acc) hlo' (not_le.mp hz)
      refine ⟨0 * 2 ^ n + d, ?_, hb.succ hy hlo'⟩
      rw [add_zero] at hd
      rw [log2Bits, if_neg hz, hd]
      ring

/-! ### The fraction of a 24-bit number -/

/-- The model's 128 fraction bits of log2 of M ÷ 2^23. -/
def bits (M : Nat) : Nat := log2Bits 128 (M * 2 ^ 168) 0

/-- log2 of M ÷ 2^23. -/
noncomputable def frac (M : Nat) : ℝ := Real.logb 2 (M * 2 ^ 168 : Nat) - 191

theorem bits_near {M : Nat} (hlo : 2 ^ 23 ≤ M) (hhi : M < 2 ^ 24) :
    (bits M : ℝ) ≤ 2 ^ 128 * frac M ∧ 2 ^ 128 * frac M ≤ bits M + 2 := by
  obtain ⟨b, hb, h1, h2⟩ := log2Bits_spec 128 (y := M * 2 ^ 168) 0 (by omega) (by omega)
  rw [bits, frac, hb, zero_mul, zero_add]
  refine ⟨h1, h2.trans ?_⟩
  norm_num
  linarith

theorem frac_le_frac {M N : Nat} (hM : M ≠ 0) (h : M ≤ N) : frac M ≤ frac N := by
  refine sub_le_sub_right (Real.logb_le_logb_of_le one_lt_two ?_ ?_) _
  · exact_mod_cast Nat.mul_pos (Nat.pos_of_ne_zero hM) (Nat.two_pow_pos 168)
  · exact_mod_cast Nat.mul_le_mul_right _ h

/-- Away from a power of two the fraction is away from 0 and from 1. -/
theorem frac_bounds {M : Nat} (hlo : 2 ^ 23 < M) (hhi : M < 2 ^ 24) : 1 / 2 ^ 24 ≤ frac M ∧ frac M ≤ 1 - 1 / 2 ^ 24 := by
  have hb : 2 ^ 104 ≤ bits (2 ^ 23 + 1) ∧ bits (2 ^ 24 - 1) + 2 ≤ 2 ^ 128 - 2 ^ 104 := by decide +kernel
  obtain ⟨h1, -⟩ := bits_near (M := 2 ^ 23 + 1) (by norm_num) (by norm_num)
  obtain ⟨-, h2⟩ := bits_near (M := 2 ^ 24 - 1) (by norm_num) (by norm_num)
  have h3 := frac_le_frac (by norm_num) (show 2 ^ 23 + 1 ≤ M by omega)
  have h4 := frac_le_frac (by omega) (show M ≤ 2 ^ 24 - 1 by omega)
  have h5 : ((2 ^ 104 : Nat) : ℝ) ≤ bits (2 ^ 23 + 1) := Nat.cast_le.mpr hb.1
  rw [Nat.cast_pow, Nat.cast_ofNat] at h5
  have h6 : ((bits (2 ^ 24 - 1) + 2 : Nat) : ℝ) ≤ (2 ^ 128 - 2 ^ 104 : Nat) := Nat.cast_le.mpr hb.2
  generalize bits (2 ^ 23 + 1) = x at *
  generalize bits (2 ^ 24 - 1) = y at *
  generalize frac (2 ^ 23 + 1) = u at *
  generalize frac (2 ^ 24 - 1) = v at *
  norm_num at h2 h6
  constructor <;> linarith

/-- For each a below 24, the last M whose fraction is at most 1 − 2^−(a + 1). -/
def cuts : List Nat :=
  [11863283, 14107900, 15384774, 16065917, 16417714, 16596492, 16686609, 16731851, 16754518, 16765863, 16771538, 16774377, 16775796,
    16776506, 16776861, 16777038, 16777127, 16777171, 16777193, 16777204, 16777210, 16777213, 16777214, 16777215]

/-- Of the cut and its successor, the bits say on which side of 1 − 2^−(a + 1) the fraction is. -/
theorem cuts_spec : ∀ a < 24, 2 ^ 23 ≤ cuts.getD a 0 ∧ cuts.getD a 0 < 2 ^ 24
    ∧ bits (cuts.getD a 0) + 2 + 2 ^ (127 - a) ≤ 2 ^ 128
    ∧ (cuts.getD a 0 + 1 < 2 ^ 24 → 2 ^ 128 + 2 < bits (cuts.getD a 0 + 1) + 2 ^ (127 - a)) := by
  decide +kernel

/-- No fraction lies above 1 − 2^−(a + 1) where its bits do not. -/
theorem frac_le_of_bits_le {M a : Nat} (hlo : 2 ^ 23 ≤ M) (hhi : M < 2 ^ 24) (ha : a < 24) (h : bits M + 2 ^ (127 - a) ≤ 2 ^ 128) :
    2 ^ 128 * frac M + 2 ^ (127 - a) ≤ 2 ^ 128 := by
  obtain ⟨h1, h2, h3, h4⟩ := cuts_spec a ha
  generalize cuts.getD a 0 = c at *
  rcases le_or_gt M c with hc | hc
  · have := (bits_near h1 h2).2
    have := frac_le_frac (by omega) hc
    have : ((bits c + 2 + 2 ^ (127 - a) : Nat) : ℝ) ≤ (2 ^ 128 : Nat) := Nat.cast_le.mpr h3
    push_cast at this
    linarith
  · have h5 := (bits_near (M := c + 1) (by omega) (by omega)).1
    have h6 := (bits_near hlo hhi).2
    have h7 := frac_le_frac (by omega) (show c + 1 ≤ M by omega)
    have h8 : ((2 ^ 128 + 2 : Nat) : ℝ) < (bits (c + 1) + 2 ^ (127 - a) : Nat) := Nat.cast_lt.mpr (h4 (by omega))
    have h9 : ((bits M + 2 ^ (127 - a) : Nat) : ℝ) ≤ (2 ^ 128 : Nat) := Nat.cast_le.mpr h
    push_cast at h8 h9
    linarith

/-! ### The binade -/

variable {i a : Int} {β φ : ℝ}

/-- Below −1 the powers of two are integers, and a fraction's bits are on the same side of them as the fraction. -/
theorem two_zpow_le_of_below (hi : i < -1) (hβ : 0 < β) (hle : β ≤ φ) (hφ : φ ≤ 1) (ha : (2 : ℝ) ^ a ≤ |(i : ℝ) + β|)
    (ha' : |(i : ℝ) + β| < (2 : ℝ) ^ (a + 1)) : (2 : ℝ) ^ a ≤ |(i : ℝ) + φ| := by
  have hi' : (i : ℝ) ≤ -2 := by exact_mod_cast (by omega : i ≤ -2)
  rw [abs_of_neg (by linarith)] at ha ha' ⊢
  have ha0 : 0 ≤ a := by
    by_contra hneg
    have : (2 : ℝ) ^ (a + 1) ≤ 2 ^ (0 : Int) := zpow_le_zpow_right₀ one_le_two (by omega)
    rw [zpow_zero] at this
    linarith
  obtain ⟨j, rfl⟩ := Int.eq_ofNat_of_zero_le ha0
  rw [zpow_natCast] at ha ⊢
  have hlt : (2 : ℝ) ^ j < -i := by linarith
  have hint : (2 : Int) ^ j < -i := by exact_mod_cast hlt
  have hreal : ((2 ^ j : Int) : ℝ) ≤ (-i - 1 : Int) := Int.cast_le.mpr (by omega)
  push_cast at hreal
  linarith

/-- Between −1 and 0 the powers of two are the complements of the cuts. -/
theorem two_zpow_le_of_minus_one {M : Nat} (hlo : 2 ^ 23 ≤ M) (hhi : M < 2 ^ 24) (hβ : 0 < (bits M : ℝ) / 2 ^ 128)
    (hle : (bits M : ℝ) / 2 ^ 128 ≤ frac M) (hφ : frac M ≤ 1 - 1 / 2 ^ 24) (ha : (2 : ℝ) ^ a ≤ |-1 + (bits M : ℝ) / 2 ^ 128|)
    (ha' : |-1 + (bits M : ℝ) / 2 ^ 128| < (2 : ℝ) ^ (a + 1)) : (2 : ℝ) ^ a ≤ |-1 + frac M| := by
  have hφ1 : frac M < 1 := hφ.trans_lt (by norm_num)
  rw [abs_of_neg (by linarith)] at ha ha' ⊢
  have h1 : a < 0 := by
    by_contra hneg
    have : (2 : ℝ) ^ (0 : Int) ≤ 2 ^ a := zpow_le_zpow_right₀ one_le_two (by omega)
    rw [zpow_zero] at this
    linarith
  have h2 : -24 ≤ a := by
    by_contra hneg
    have : (2 : ℝ) ^ (a + 1) ≤ 2 ^ (-24 : Int) := zpow_le_zpow_right₀ one_le_two (by omega)
    rw [show (2 : ℝ) ^ (-24 : Int) = 1 / 2 ^ 24 by norm_num] at this
    linarith
  obtain ⟨d, hd⟩ : ∃ d : Nat, a = -(d + 1 : Int) := ⟨(-a - 1).toNat, by omega⟩
  have hpow : (2 : ℝ) ^ a = 2 ^ (127 - d) / 2 ^ 128 := by
    rw [show a = ((127 - d : Nat) : Int) - ((128 : Nat) : Int) by omega, zpow_sub₀ two_ne_zero, zpow_natCast, zpow_natCast]
  have hsum : (bits M + 2 ^ (127 - d) : ℝ) / 2 ^ 128 ≤ 1 := by
    rw [add_div, ← hpow]
    linarith
  rw [div_le_one (by positivity)] at hsum
  have hfrac := frac_le_of_bits_le hlo hhi (show d < 24 by omega) (by exact_mod_cast hsum)
  rw [hpow, div_le_iff₀ (by positivity)]
  linarith

/-- The binade of the approximation of i + log2 of M ÷ 2^23 is not above that number's. -/
theorem two_zpow_le_of_bits {M : Nat} (hlo : 2 ^ 23 < M) (hhi : M < 2 ^ 24) (ha : (2 : ℝ) ^ a ≤ |(i : ℝ) + bits M / 2 ^ 128|)
    (ha' : |(i : ℝ) + bits M / 2 ^ 128| < (2 : ℝ) ^ (a + 1)) : (2 : ℝ) ^ a ≤ |(i : ℝ) + frac M| := by
  obtain ⟨hb1, hb2⟩ := bits_near hlo.le hhi
  obtain ⟨hf1, hf2⟩ := frac_bounds hlo hhi
  have hle : (bits M / 2 ^ 128 : ℝ) ≤ frac M := by
    rw [div_le_iff₀ (by positivity)]
    linarith
  have hpos : (0 : ℝ) < bits M / 2 ^ 128 := by
    refine div_pos ?_ (by positivity)
    linarith
  rcases lt_trichotomy i (-1) with hi | rfl | hi
  · exact two_zpow_le_of_below hi hpos hle (hf2.trans (by norm_num)) ha ha'
  · rw [Int.cast_neg, Int.cast_one] at *
    exact two_zpow_le_of_minus_one hlo.le hhi hpos hle hf2 ha ha'
  · have hi' : (0 : ℝ) ≤ i := by exact_mod_cast (by omega : 0 ≤ i)
    rw [abs_of_nonneg (by linarith)] at ha ⊢
    linarith

/-! ### LOG2 -/

/-- LOG2 of a number that is no power of two (R108). -/
theorem nearUlps_log2_approx {code M : Nat} {i : Int} (hlo : 2 ^ 23 < M) (hhi : M < 2 ^ 24) (hi : -149 ≤ i) (hi' : i ≤ 127) :
    NearUlps (approxUlp 4 code 2 (i * 2 ^ 128 + (bits M : Int) < 0) (i * 2 ^ 128 + (bits M : Int)).natAbs (-128) 52).1
      (i + frac M) 2 := by
  obtain ⟨hb1, hb2⟩ := bits_near hlo.le hhi
  obtain ⟨hf1, hf2⟩ := frac_bounds hlo hhi
  generalize hv : i * 2 ^ 128 + (bits M : Int) = v
  have hvalue : ((v * 2 ^ (-128 : Int) : ℚ) : ℝ) = i + bits M / 2 ^ 128 := by
    rw [← hv]
    push_cast
    norm_num
    ring
  have hβ : |(bits M / 2 ^ 128 : ℝ) - frac M| ≤ 2 ^ (-127 : Int) := by
    have h : (bits M / 2 ^ 128 : ℝ) * 2 ^ 128 = bits M := div_mul_cancel₀ _ (by positivity)
    have hu : (2 : ℝ) ^ (-127 : Int) * 2 ^ 128 = 2 := by norm_num
    generalize (bits M / 2 ^ 128 : ℝ) = β at *
    generalize (2 : ℝ) ^ (-127 : Int) = u at *
    rw [abs_le]
    constructor <;> linarith
  have hclose : |((v * 2 ^ (-128 : Int) : ℚ) : ℝ) - (i + frac M)| ≤ 2 ^ (-127 : Int) := by
    rwa [hvalue, add_sub_add_left_eq_sub]
  have hbig : (2 : ℝ) ^ (-25 : Int) ≤ |((v * 2 ^ (-128 : Int) : ℚ) : ℝ)| := by
    rw [hvalue]
    have hu : (2 : ℝ) ^ (-127 : Int) ≤ 1 / 2 ^ 25 := by norm_num
    rw [show (2 : ℝ) ^ (-25 : Int) = 1 / 2 ^ 25 by norm_num]
    rw [abs_le] at hβ
    rcases lt_or_ge i 0 with hneg | hneg
    · have hi1 : (i : ℝ) ≤ -1 := by exact_mod_cast (by omega : i ≤ -1)
      refine le_trans ?_ (neg_le_abs _)
      have hβφ : (bits M / 2 ^ 128 : ℝ) ≤ frac M := by
        rw [div_le_iff₀ (by positivity)]
        linarith
      linarith
    · have hi0 : (0 : ℝ) ≤ i := by exact_mod_cast hneg
      refine le_trans ?_ (le_abs_self _)
      linarith
  have hv0 : v.natAbs ≠ 0 := fun h0 => by
    rw [Int.natAbs_eq_zero.mp h0, Int.cast_zero, zero_mul, Rat.cast_zero, abs_zero] at hbig
    exact absurd hbig (not_le.mpr (zpow_pos two_pos _))
  have habs : ((v.natAbs : ℚ) * 2 ^ (-128 : Int)) = |v * (2 : ℚ) ^ (-128 : Int)| := by
    rw [abs_mul, abs_of_pos (two_zpow_pos _), Nat.cast_natAbs, Int.cast_abs]
  have habs0 : 0 < |v * (2 : ℚ) ^ (-128 : Int)| := by
    rw [← habs]
    exact mul_pos (by exact_mod_cast Nat.pos_of_ne_zero hv0) (two_zpow_pos _)
  have hlog1 := (Int.zpow_le_iff_le_log one_lt_two habs0).mpr le_rfl
  have hlog2 := (Int.lt_zpow_iff_log_lt one_lt_two habs0).mpr (Int.lt_succ _)
  have near : NearUlps (approxUlp 4 code 2 (v < 0) v.natAbs (-128) 52).1 (i + frac M) (2 : Nat) := by
    refine nearUlps_approxUlp two_ne_zero (by decide) hv0 ?_ ?_ ?_
    · have hsmall : |((v * 2 ^ (-128 : Int) : ℚ) : ℝ)| ≤ ((2 ^ (127 : Int) : ℚ) : ℝ) := by
        have hi1 : (-149 : ℝ) ≤ i := by exact_mod_cast hi
        have hi2 : (i : ℝ) ≤ 127 := by exact_mod_cast hi'
        have hu : (2 : ℝ) ^ (-127 : Int) ≤ 1 := by norm_num
        have h127 : (1000 : ℝ) ≤ ((2 ^ (127 : Int) : ℚ) : ℝ) := by norm_num
        rw [hvalue, abs_le]
        rw [abs_le] at hβ
        constructor <;> linarith
      rw [habs]
      exact_mod_cast hsmall
    · rw [habs]
      refine two_zpow_le_of_bits hlo hhi ?_ ?_
      · rw [← hvalue]
        have := (Rat.cast_le (K := ℝ)).mpr hlog1
        rwa [Nat.cast_ofNat, cast_two_zpow, Rat.cast_abs] at this
      · rw [← hvalue]
        have := (Rat.cast_lt (K := ℝ)).mpr hlog2
        rwa [Nat.cast_ofNat, cast_two_zpow, Rat.cast_abs] at this
    · rw [ratOf_fin_int]
      refine hclose.trans (le_trans ?_ (relative_le_ulp hv0 (-128) 52))
      have hcast : (v.natAbs * 2 ^ (-128 : Int) : ℝ) = |((v * 2 ^ (-128 : Int) : ℚ) : ℝ)| := by
        rw [← Rat.cast_abs, ← habs]
        push_cast
        rfl
      rw [hcast]
      refine le_trans ?_ (mul_le_mul_of_nonneg_right hbig (zpow_pos two_pos _).le)
      norm_num
  rwa [Nat.cast_two] at near

/-- LOG2 of a power of two (R108). -/
theorem nearUlps_log2_two_pow {c : Nat} {i : Int} (hnum : isNum (fDecode .f32 c) = true) (hx : ratOf (fDecode .f32 c) = 2 ^ i) :
    NearUlps (log2Of c).1 i 2 := by
  obtain ⟨hr, hlo, hhi⟩ := log2Of_two_pow hnum hx
  have hval := (log2Of_exact hnum hx).1
  refine ⟨?_, ?_⟩
  · by_cases h0 : i = 0
    · rw [hr, h0]
      decide
    · cases hd : fDecode .f32 (log2Of c).1 with
      | nan s | inf s =>
        rw [hd] at hval
        exact absurd hval.symm (Int.cast_ne_zero.mpr h0)
      | fin neg n g => rfl
  · rw [hval, Rat.cast_intCast, sub_self, abs_zero]
    exact (mul_pos two_pos (zpow_pos two_pos _)).le

/-- LOG2 lies within 2 ulp (R108). -/
theorem nearUlps_log2 {c : Nat} (hnum : isNum (fDecode .f32 c) = true) (hx : 0 < ratOf (fDecode .f32 c)) :
    NearUlps (log2Of c).1 (Real.logb 2 (ratOf (fDecode .f32 c) : ℝ)) 2 := by
  obtain ⟨m, e, hv, hm, hval⟩ := exists_fin_of_pos hnum hx
  obtain ⟨h24, he, he', -⟩ := f32_fin hv
  have hb : bitLen m ≤ 24 := Integer.bitLen_le h24
  have hb1 : bitLen m ≠ 0 := by
    rw [bitLen, if_neg hm]
    omega
  by_cases hpow : m = 2 ^ (bitLen m - 1)
  · have hxi : ratOf (fDecode .f32 c) = 2 ^ (e + ((bitLen m - 1 : Nat) : Int)) := by
      rw [hval, zpow_add₀ two_ne_zero, zpow_natCast, mul_comm]
      congr 1
      exact_mod_cast hpow
    have hlog : Real.logb 2 (ratOf (fDecode .f32 c) : ℝ) = ((e + ((bitLen m - 1 : Nat) : Int) : Int) : ℝ) := by
      rw [hxi, cast_two_zpow, ← Real.rpow_intCast, Real.logb_rpow two_pos (by norm_num)]
    rw [hlog]
    exact nearUlps_log2_two_pow hnum hxi
  · have hlow : 2 ^ (bitLen m - 1) < m := by
      refine lt_of_le_of_ne ?_ (Ne.symm hpow)
      rw [bitLen, if_neg hm, Nat.add_sub_cancel]
      exact Nat.log2_self_le hm
    have hhigh : m < 2 ^ (bitLen m - 1 + 1) := by
      rw [Nat.sub_add_cancel (Nat.one_le_iff_ne_zero.mpr hb1)]
      exact Sticky.bitLen_spec
    have hlog2 : log2Of c = approxUlp 4 c 2
        ((e + ((bitLen m - 1 : Nat) : Int)) * 2 ^ 128 + (log2Bits 128 (m * 2 ^ (191 - (bitLen m - 1))) 0 : Int) < 0)
        ((e + ((bitLen m - 1 : Nat) : Int)) * 2 ^ 128 + (log2Bits 128 (m * 2 ^ (191 - (bitLen m - 1))) 0 : Int)).natAbs (-128) 52 := by
      simp only [log2Of, hv, hm, hpow, if_false, Bool.false_eq_true]
    generalize hk : bitLen m - 1 = k at *
    have hscale : m * 2 ^ (191 - k) = m * 2 ^ (23 - k) * 2 ^ 168 := by
      rw [mul_assoc, ← pow_add]
      congr 2
      omega
    have hpow23 : 2 ^ 23 = 2 ^ k * 2 ^ (23 - k) := by
      rw [← pow_add]
      congr 1
      omega
    have hlo : 2 ^ 23 < m * 2 ^ (23 - k) := by
      rw [hpow23]
      exact Nat.mul_lt_mul_of_pos_right hlow (Nat.two_pow_pos _)
    have hhi : m * 2 ^ (23 - k) < 2 ^ 24 := by
      rw [pow_succ 2 23, hpow23, mul_right_comm, ← pow_succ]
      exact Nat.mul_lt_mul_of_pos_right hhigh (Nat.two_pow_pos _)
    have hfrac : Real.logb 2 (ratOf (fDecode .f32 c) : ℝ) = ((e + (k : Int) : Int) : ℝ) + frac (m * 2 ^ (23 - k)) := by
      have hm' : (m : ℝ) ≠ 0 := by exact_mod_cast hm
      rw [frac, ← hscale, hval, Rat.cast_mul, cast_two_zpow, Rat.cast_natCast, Nat.cast_mul, Nat.cast_pow, Nat.cast_ofNat,
        Real.logb_mul hm' (by positivity), Real.logb_mul hm' (by positivity), ← Real.rpow_intCast, ← Real.rpow_natCast,
        Real.logb_rpow two_pos (by norm_num), Real.logb_rpow two_pos (by norm_num), Nat.cast_sub (by omega)]
      push_cast
      ring
    rw [hlog2, hfrac, hscale]
    exact nearUlps_log2_approx hlo hhi (by omega) (by omega)

end Sys2Proof.Proofs.Log2
end

section
/-! PROOFS. The model's π (R108): by Machin's formula it is π times 2^256, to few units. -/

namespace Sys2Proof.Proofs.Machin

open Machine Claims Finset

/-- The powers in the series of the arctangent. -/
noncomputable def arctanPower (x : ℝ) (i : Nat) : ℝ := x ^ (2 * i + 1) / (2 * i + 1 : Nat)

/-- n terms of the series of the arctangent. -/
def arctanTerms (x : ℚ) (n : Nat) : ℚ := ∑ i ∈ range n, (-1) ^ i * (x ^ (2 * i + 1) / (2 * i + 1 : Nat))

theorem arctanPower_le {x : ℝ} (h0 : 0 ≤ x) (i : Nat) : arctanPower x i ≤ x ^ (2 * i + 1) :=
  div_le_self (by positivity) (by exact_mod_cast (by omega : 1 ≤ 2 * i + 1))

section

variable {x : ℝ} (h0 : 0 ≤ x) (h1 : x < 1)
include h0 h1

theorem antitone_arctanPower : Antitone (arctanPower x) := antitone_nat_of_succ_le fun i => by
  refine div_le_div₀ (by positivity) (pow_le_pow_of_le_one h0 h1.le (by omega)) (by positivity) ?_
  exact_mod_cast (by omega : 2 * i + 1 ≤ 2 * (i + 1) + 1)

theorem summable_arctanPower : Summable (arctanPower x) :=
  (summable_geometric_of_lt_one h0 h1).of_nonneg_of_le (fun i => div_nonneg (pow_nonneg h0 _) (Nat.cast_nonneg _)) fun i =>
    (arctanPower_le h0 i).trans (pow_le_pow_of_le_one h0 h1.le (by omega))

/-- The series of the arctangent ends with an error below its next power. -/
theorem abs_arctan_sub_le (n : Nat) : |Real.arctan x - ∑ i ∈ range n, (-1) ^ i * arctanPower x i| ≤ x ^ (2 * n + 1) := by
  have hsum := Real.hasSum_arctan (x := x) (by rwa [Real.norm_eq_abs, abs_of_nonneg h0])
  have hterm : (fun i : Nat => (-1) ^ i * x ^ (2 * i + 1) / ((2 * i + 1 : Nat) : ℝ)) = fun i => (-1) ^ i * arctanPower x i :=
    funext fun i => mul_div_assoc _ _ _
  rw [hterm] at hsum
  have := alternating_series_error_bound _ (antitone_arctanPower h0 h1) (summable_arctanPower h0 h1) n
  rw [hsum.tsum_eq] at this
  exact this.trans (arctanPower_le h0 n)

end

theorem cast_arctanTerms (x : ℚ) (n : Nat) : (arctanTerms x n : ℝ) = ∑ i ∈ range n, (-1) ^ i * arctanPower x i := by
  simp only [arctanTerms, arctanPower]
  push_cast
  rfl

/-- π from partial sums of the two series of Machin's formula. -/
theorem abs_pi_sub_terms_le :
    |Real.pi - ((4 * (4 * arctanTerms 5⁻¹ 60 - arctanTerms 239⁻¹ 20) : ℚ) : ℝ)| ≤ 1 / 2 ^ 256 := by
  have h5 := abs_arctan_sub_le (x := 5⁻¹) (by norm_num) (by norm_num) 60
  have h239 := abs_arctan_sub_le (x := 239⁻¹) (by norm_num) (by norm_num) 20
  have hmachin := Real.four_mul_arctan_inv_5_sub_arctan_inv_239
  have c5 := cast_arctanTerms 5⁻¹ 60
  have c239 := cast_arctanTerms 239⁻¹ 20
  rw [Rat.cast_inv, Rat.cast_ofNat] at c5 c239
  rw [← c5] at h5
  rw [← c239] at h239
  push_cast
  generalize Real.arctan 5⁻¹ = a at *
  generalize Real.arctan 239⁻¹ = b at *
  generalize (arctanTerms 5⁻¹ 60 : ℝ) = s at *
  generalize (arctanTerms 239⁻¹ 20 : ℝ) = t at *
  rw [abs_le] at h5 h239 ⊢
  norm_num at h5 h239 ⊢
  constructor <;> linarith

theorem terms_near_piFixed :
    |4 * (4 * arctanTerms 5⁻¹ 60 - arctanTerms 239⁻¹ 20) * 2 ^ 256 - piFixed| ≤ 2 := by
  decide +kernel

/-- The model's π is π, to few units of 2^−256. -/
theorem abs_pi_sub_piFixed_le : |Real.pi - piFixed / 2 ^ 256| ≤ 3 / 2 ^ 256 := by
  have h1 := abs_pi_sub_terms_le
  have h2 : |((4 * (4 * arctanTerms 5⁻¹ 60 - arctanTerms 239⁻¹ 20) : ℚ) : ℝ) * 2 ^ 256 - piFixed| ≤ 2 := by
    exact_mod_cast (Rat.cast_le (K := ℝ)).mpr terms_near_piFixed
  generalize ((4 * (4 * arctanTerms 5⁻¹ 60 - arctanTerms 239⁻¹ 20) : ℚ) : ℝ) = s at *
  have h3 : s * 2 ^ 256 - piFixed = (s - piFixed / 2 ^ 256) * 2 ^ 256 := by
    rw [sub_mul, div_mul_cancel₀ _ (by positivity)]
  rw [h3, abs_mul, abs_of_pos (by positivity : (0 : ℝ) < 2 ^ 256), ← le_div_iff₀ (by positivity)] at h2
  calc |Real.pi - piFixed / 2 ^ 256| = |(Real.pi - s) + (s - piFixed / 2 ^ 256)| := by rw [sub_add_sub_cancel]
    _ ≤ |Real.pi - s| + |s - piFixed / 2 ^ 256| := abs_add_le _ _
    _ ≤ 1 / 2 ^ 256 + 2 / 2 ^ 256 := add_le_add h1 h2
    _ = 3 / 2 ^ 256 := by rw [← add_div]; norm_num

end Sys2Proof.Proofs.Machin
end

section
/-! PROOFS. SIN and COS within their bound (R108): the reduced argument, and the Taylor series in fixed point. -/

namespace Sys2Proof.Proofs.Trig

open Machine Claims Rounding Formats Special ExactSpecial Approx Machin Finset

/-! ### The Taylor series -/

/-- n terms of the Taylor series of the cosine. -/
noncomputable def cosTerms (y : ℝ) (n : Nat) : ℝ := ∑ j ∈ range n, (-1) ^ j * (y ^ (2 * j) / (2 * j).factorial)

/-- n terms of the Taylor series of the sine. -/
noncomputable def sinTerms (y : ℝ) (n : Nat) : ℝ := ∑ j ∈ range n, (-1) ^ j * (y ^ (2 * j + 1) / (2 * j + 1).factorial)

/-- The terms of e^(yi) are those of cosine and sine. -/
theorem exp_terms_mul_I (y : ℝ) (n : Nat) :
    ∑ j ∈ range (2 * n), ((y : ℂ) * Complex.I) ^ j / j.factorial = (cosTerms y n : ℂ) + (sinTerms y n : ℂ) * Complex.I := by
  induction n with
  | zero => simp [cosTerms, sinTerms]
  | succ n ih =>
    rw [Nat.mul_succ, sum_range_succ, sum_range_succ, ih, cosTerms, cosTerms, sinTerms, sinTerms, sum_range_succ, sum_range_succ,
      pow_succ, mul_pow, pow_mul Complex.I, Complex.I_sq]
    push_cast
    ring

theorem abs_le_norm_add_mul_I (a b : ℝ) : |a| ≤ ‖(a : ℂ) + b * Complex.I‖ ∧ |b| ≤ ‖(a : ℂ) + b * Complex.I‖ := by
  have h1 := Complex.abs_re_le_norm ((a : ℂ) + b * Complex.I)
  have h2 := Complex.abs_im_le_norm ((a : ℂ) + b * Complex.I)
  simp only [Complex.add_re, Complex.add_im, Complex.mul_re, Complex.mul_im, Complex.ofReal_re, Complex.ofReal_im, Complex.I_re,
    Complex.I_im, mul_zero, mul_one, sub_zero, add_zero, zero_add] at h1 h2
  exact ⟨h1, h2⟩

/-- 25 terms of cosine and sine of a small angle. -/
theorem abs_sub_terms_le {y : ℝ} (hy : |y| ≤ 4) :
    |Real.cos y - cosTerms y 25| ≤ 1 / 2 ^ 112 ∧ |Real.sin y - sinTerms y 25| ≤ 1 / 2 ^ 112 := by
  have hnorm : ‖(y : ℂ) * Complex.I‖ = |y| := by rw [norm_mul, Complex.norm_I, mul_one, Complex.norm_real, Real.norm_eq_abs]
  have h := Complex.exp_bound' (x := (y : ℂ) * Complex.I) (n := 2 * 25) (by
    rw [hnorm]
    norm_num
    linarith)
  rw [exp_terms_mul_I, hnorm] at h
  have htail : |y| ^ (2 * 25) / ((2 * 25).factorial : ℝ) * 2 ≤ 1 / 2 ^ 112 := by
    have hpow : |y| ^ (2 * 25) ≤ 4 ^ (2 * 25) := pow_le_pow_left₀ (abs_nonneg y) hy _
    calc |y| ^ (2 * 25) / ((2 * 25).factorial : ℝ) * 2 ≤ 4 ^ (2 * 25) / ((2 * 25).factorial : ℝ) * 2 := by gcongr
      _ ≤ 1 / 2 ^ 112 := by norm_num [Nat.factorial]
  have hdiff : Complex.exp (y * Complex.I) - (cosTerms y 25 + sinTerms y 25 * Complex.I)
      = ((Real.cos y - cosTerms y 25 : ℝ) : ℂ) + ((Real.sin y - sinTerms y 25 : ℝ) : ℂ) * Complex.I := by
    rw [Complex.exp_mul_I]
    push_cast
    ring
  rw [hdiff] at h
  obtain ⟨h1, h2⟩ := abs_le_norm_add_mul_I (Real.cos y - cosTerms y 25) (Real.sin y - sinTerms y 25)
  exact ⟨h1.trans (h.trans htail), h2.trans (h.trans htail)⟩

/-! ### The series in fixed point -/

/-- A term of the Taylor series of sine or cosine. -/
noncomputable def taylor (y : ℝ) (k : Nat) : ℝ := y ^ k / k.factorial

theorem taylor_add_two (y : ℝ) (k : Nat) : taylor y (k + 2) = taylor y k * (y * y) / (((k + 1) * (k + 2) : Nat) : ℝ) := by
  rw [taylor, taylor, Nat.factorial_succ, Nat.factorial_succ]
  push_cast
  field_simp
  ring

/-- The floor of a quotient of integers. -/
theorem int_div_near (a : Int) {b : Int} (hb : 0 < b) : ((a / b : Int) : ℝ) ≤ a / b ∧ (a / b : ℝ) < (a / b : Int) + 1 := by
  have hb' : (0 : ℝ) < b := by exact_mod_cast hb
  rw [le_div_iff₀ hb', div_lt_iff₀ hb']
  exact ⟨by exact_mod_cast Int.ediv_mul_le a hb.ne', by exact_mod_cast Int.lt_ediv_add_one_mul_self a hb⟩

/-- A term's error in units, by its index: the first term is exact. -/
def termError (k : Nat) : ℝ := if k < 2 then 0 else 9

/-- The model's next term of the series. -/
def nextTerm (x t : Int) (k : Nat) : Int := (-(t * x / 2 ^ 96 * x / 2 ^ 96)) / (((k + 1) * (k + 2) : Nat) : Int)

theorem trigSeries_succ (x : Int) (n k : Nat) (t acc : Int) :
    trigSeries x (n + 1) k t acc = trigSeries x n (k + 2) (nextTerm x t k) (acc + nextTerm x t k) := rfl

/-- The product with an angle in units of 2^−96, rounded down. -/
theorem abs_mul_div_sub_le {x t : Int} {y T E : ℝ} (hx : (x : ℝ) = y * 2 ^ 96) (ht : |(t : ℝ) - T| ≤ E) :
    |((t * x / 2 ^ 96 : Int) : ℝ) - T * y| ≤ E * |y| + 1 := by
  obtain ⟨h1, h2⟩ := int_div_near (t * x) (show (0 : Int) < 2 ^ 96 by norm_num)
  have hmul : ((t * x : Int) : ℝ) / ((2 ^ 96 : Int) : ℝ) = t * y := by
    rw [Int.cast_mul, hx, Int.cast_pow, Int.cast_ofNat, ← mul_assoc]
    exact mul_div_cancel_right₀ _ (by positivity)
  rw [hmul] at h1 h2
  have hprod : |(t : ℝ) * y - T * y| ≤ E * |y| := by
    rw [← sub_mul, abs_mul]
    exact mul_le_mul_of_nonneg_right ht (abs_nonneg y)
  rw [abs_le] at hprod ⊢
  constructor <;> linarith

theorem termError_le (k : Nat) : termError k * 10 + 5 ≤ 8 * (((k + 1) * (k + 2) : Nat) : ℝ) := by
  have hk : (0 : ℝ) ≤ k := k.cast_nonneg
  push_cast
  rw [termError]
  split_ifs with h
  · nlinarith
  · have h2 : (2 : ℝ) ≤ k := by exact_mod_cast not_lt.mp h
    nlinarith

/-- The next term of the series stays within few units. -/
theorem abs_nextTerm_sub_le {x t : Int} {k : Nat} {s y : ℝ} (hx : (x : ℝ) = y * 2 ^ 96) (hy : |y| ≤ 316 / 100)
    (ht : |(t : ℝ) - s * taylor y k * 2 ^ 96| ≤ termError k) :
    |(nextTerm x t k : ℝ) - -s * taylor y (k + 2) * 2 ^ 96| ≤ 9 := by
  have h1 := abs_mul_div_sub_le hx ht
  have h2 := abs_mul_div_sub_le hx h1
  have hE : 0 ≤ termError k := (abs_nonneg _).trans ht
  have hE2 : (termError k * |y| + 1) * |y| + 1 ≤ termError k * 10 + 5 := by
    have hsq : |y| * |y| ≤ 10 := (mul_self_le_mul_self (abs_nonneg y) hy).trans (by norm_num)
    have := mul_le_mul_of_nonneg_left hsq hE
    linarith
  have hK : (0 : ℝ) < (((k + 1) * (k + 2) : Nat) : ℝ) := by exact_mod_cast Nat.mul_pos (Nat.succ_pos k) (Nat.succ_pos (k + 1))
  obtain ⟨h3, h4⟩ := int_div_near (-(t * x / 2 ^ 96 * x / 2 ^ 96)) (b := (((k + 1) * (k + 2) : Nat) : Int))
    (by exact_mod_cast Nat.mul_pos (Nat.succ_pos k) (Nat.succ_pos (k + 1)))
  have hbound := h2.trans (hE2.trans (termError_le k))
  have hterm : -s * taylor y (k + 2) * 2 ^ 96 = -(s * taylor y k * 2 ^ 96 * y * y) / (((k + 1) * (k + 2) : Nat) : ℝ) := by
    rw [taylor_add_two]
    ring
  rw [hterm, nextTerm]
  generalize (-(t * x / 2 ^ 96 * x / 2 ^ 96)) / (((k + 1) * (k + 2) : Nat) : Int) = q at *
  rw [Int.cast_neg, Int.cast_natCast] at h3 h4
  generalize ((t * x / 2 ^ 96 * x / 2 ^ 96 : Int) : ℝ) = u at *
  generalize s * taylor y k * 2 ^ 96 * y * y = T at *
  generalize (((k + 1) * (k + 2) : Nat) : ℝ) = K at *
  have hquot : |-u / K - -T / K| ≤ 8 := by
    rw [← sub_div, abs_div, abs_of_pos hK, div_le_iff₀ hK, ← abs_neg]
    refine le_trans (le_of_eq ?_) hbound
    congr 1
    ring
  rw [abs_le] at hquot ⊢
  constructor <;> linarith

/-- The model's series of n terms after the one of index k. -/
theorem abs_trigSeries_sub_le {x : Int} {y : ℝ} (hx : (x : ℝ) = y * 2 ^ 96) (hy : |y| ≤ 316 / 100) (n k : Nat) (t acc : Int) (s : ℝ)
    (ht : |(t : ℝ) - s * taylor y k * 2 ^ 96| ≤ termError k) :
    |(trigSeries x n k t acc : ℝ) - (acc + s * (∑ j ∈ range n, (-1) ^ (j + 1) * taylor y (k + 2 * (j + 1))) * 2 ^ 96)| ≤ 9 * (n : ℝ) := by
  induction n generalizing k t acc s with
  | zero => simp [trigSeries, abs_zero]
  | succ n ih =>
    have hnext := abs_nextTerm_sub_le hx hy ht
    have hrest := ih (k + 2) (nextTerm x t k) (acc + nextTerm x t k) (-s)
      (hnext.trans (by rw [termError, if_neg (by omega)]))
    have hsum : s * ∑ j ∈ range (n + 1), (-1) ^ (j + 1) * taylor y (k + 2 * (j + 1))
        = -s * ∑ j ∈ range n, (-1) ^ (j + 1) * taylor y (k + 2 + 2 * (j + 1)) + -s * taylor y (k + 2) := by
      rw [sum_range_succ', mul_add, mul_sum, mul_sum]
      congr 1
      · refine sum_congr rfl fun j _ => ?_
        rw [show k + 2 * (j + 1 + 1) = k + 2 + 2 * (j + 1) by ring]
        ring
      · norm_num
    rw [trigSeries_succ, hsum]
    push_cast at hrest ⊢
    rw [abs_le] at hnext hrest ⊢
    constructor <;> linarith

/-- Few units of 2^−96 and the end of a series. -/
theorem abs_div_sub_le {z c d : ℝ} (h : |z - c * 2 ^ 96| ≤ 216) (hd : |d - c| ≤ 1 / 2 ^ 112) : |z / 2 ^ 96 - d| ≤ 1 / 2 ^ 88 := by
  have hz : z / 2 ^ 96 * 2 ^ 96 = z := div_mul_cancel₀ _ (by positivity)
  generalize z / 2 ^ 96 = w at *
  rw [abs_le] at *
  constructor <;> linarith

/-- The model's cosine and sine of an angle in units of 2^−96. -/
theorem abs_trigSeries_le {x : Int} {y : ℝ} (hx : (x : ℝ) = y * 2 ^ 96) (hy : |y| ≤ 316 / 100) :
    |(trigSeries x 24 0 (2 ^ 96) (2 ^ 96) : ℝ) / 2 ^ 96 - Real.cos y| ≤ 1 / 2 ^ 88
      ∧ |(trigSeries x 24 1 x x : ℝ) / 2 ^ 96 - Real.sin y| ≤ 1 / 2 ^ 88 := by
  obtain ⟨hc, hs⟩ := abs_sub_terms_le (hy.trans (by norm_num))
  constructor
  · have h := abs_trigSeries_sub_le hx hy 24 0 (2 ^ 96) (2 ^ 96) 1 (by norm_num [taylor, termError])
    have hsum : cosTerms y 25 * 2 ^ 96
        = ((2 ^ 96 : Int) : ℝ) + 1 * (∑ j ∈ range 24, (-1) ^ (j + 1) * taylor y (0 + 2 * (j + 1))) * 2 ^ 96 := by
      rw [cosTerms, sum_range_succ']
      simp only [taylor, zero_add]
      norm_num
      ring
    rw [← hsum] at h
    exact abs_div_sub_le (h.trans (by norm_num)) hc
  · have h := abs_trigSeries_sub_le hx hy 24 1 x x 1 (by simp [taylor, termError, hx])
    have hsum : sinTerms y 25 * 2 ^ 96 = x + 1 * (∑ j ∈ range 24, (-1) ^ (j + 1) * taylor y (1 + 2 * (j + 1))) * 2 ^ 96 := by
      rw [sinTerms, sum_range_succ', hx]
      simp only [taylor, add_comm 1]
      norm_num
      ring
    rw [← hsum] at h
    exact abs_div_sub_le (h.trans (by norm_num)) hs

/-! ### The reduced argument -/

/-- A number in units of 2^−k is its own floor where it has no finer bits. -/
theorem floorOf_add (neg : Bool) (m : Nat) {e : Int} (k : Nat) (h : 0 ≤ e + k) :
    (floorOf neg m (e + k) : ℚ) = ratOf (.fin neg m e) * 2 ^ k := by
  have hpow := two_zpow_toNat h
  rw [zpow_add₀ two_ne_zero, zpow_natCast] at hpow
  rw [floorOf, if_pos h, ratOf_fin]
  push_cast at hpow ⊢
  rw [← hpow]
  cases neg <;> simp <;> ring

/-- The model's π. -/
noncomputable def piHat : ℝ := piFixed / 2 ^ 256

theorem piHat_bounds : 3 ≤ piHat ∧ piHat ≤ 315 / 100 ∧ |Real.pi - piHat| ≤ 3 / 2 ^ 256 := by
  refine ⟨?_, ?_, abs_pi_sub_piFixed_le⟩ <;> norm_num [piHat, piFixed]

/-- The odd multiple of π that the reduction takes from an argument is one of few bits. -/
theorem abs_mul_pi_sub_le {q : Int} {f x : ℝ} (hx : |x| ≤ 2 ^ 128) (h : 2 * piHat * q + f = x) (hf0 : 0 ≤ f) (hf1 : f ≤ 2 * piHat) :
    |(2 * q + 1 : ℝ) * Real.pi - (2 * q + 1) * piHat| ≤ 1 / 2 ^ 100 := by
  obtain ⟨hlo, hhi, hpi⟩ := piHat_bounds
  have hpos : 0 < piHat := by linarith
  have hodd : |(2 * q + 1 : ℝ)| ≤ 2 ^ 128 := by
    have hmul : |(2 * q + 1 : ℝ)| * piHat ≤ 2 ^ 128 + piHat := by
      rw [← abs_of_pos hpos, ← abs_mul, abs_of_pos hpos]
      rw [abs_le] at hx ⊢
      constructor <;> linarith
    by_contra hgt
    have := mul_lt_mul_of_pos_right (not_le.mp hgt) hpos
    linarith
  rw [← mul_sub, abs_mul]
  refine (mul_le_mul hodd hpi (abs_nonneg _) (by positivity)).trans ?_
  norm_num

/-- The reduced argument is the argument less an odd multiple of π, to 2^−95. -/
theorem reduceArg_near {m : Nat} {e : Int} (neg : Bool) (h24 : m < 2 ^ 24) (he : -149 ≤ e) (he' : e ≤ 104) :
    ∃ k : Int, |(reduceArg neg m e : ℝ) / 2 ^ 96 - ((ratOf (.fin neg m e) : ℝ) - (2 * k + 1) * Real.pi)| ≤ 1 / 2 ^ 95
      ∧ |(reduceArg neg m e : ℝ) / 2 ^ 96| ≤ 316 / 100 := by
  have hxle : |ratOf (.fin neg m e)| ≤ 2 ^ (128 : Int) := by
    rw [abs_ratOf_fin]
    calc (m : ℚ) * 2 ^ e ≤ 2 ^ 24 * 2 ^ (104 : Int) :=
          mul_le_mul (by exact_mod_cast h24.le) (two_zpow_le he') (two_zpow_pos e).le (by norm_num)
      _ = 2 ^ (128 : Int) := by norm_num
  have hX := floorOf_add neg m 256 (show 0 ≤ e + ((256 : Nat) : Int) by push_cast; omega)
  have hr : reduceArg neg m e = ((floorOf neg m (e + ((256 : Nat) : Int))).fmod (2 * piFixed) - piFixed) / 2 ^ 160 := rfl
  generalize floorOf neg m (e + ((256 : Nat) : Int)) = X at *
  generalize ratOf (.fin neg m e) = x at *
  have hXR : (X : ℝ) / 2 ^ 256 = x := by
    rw [div_eq_iff (by positivity)]
    exact_mod_cast congrArg (Rat.cast (K := ℝ)) hX
  have hxR : |(x : ℝ)| ≤ 2 ^ 128 := by
    have := (Rat.cast_le (K := ℝ)).mpr hxle
    rwa [Rat.cast_abs, cast_two_zpow] at this
  obtain ⟨hlo, hhi, -⟩ := piHat_bounds
  have hpos : 0 < 2 * piFixed := by decide
  have hdiv : 2 * (piFixed : ℝ) * X.fdiv (2 * piFixed) + X.fmod (2 * piFixed) = X := by
    exact_mod_cast Int.mul_fdiv_add_fmod X (2 * piFixed)
  have hmod0 : (0 : ℝ) ≤ X.fmod (2 * piFixed) := by exact_mod_cast Int.fmod_nonneg_of_pos X hpos
  have hmod1 : (X.fmod (2 * piFixed) : ℝ) ≤ 2 * piFixed := by exact_mod_cast (Int.fmod_lt_of_pos X hpos).le
  obtain ⟨hr1, hr2⟩ := int_div_near (X.fmod (2 * piFixed) - piFixed) (show (0 : Int) < 2 ^ 160 by norm_num)
  rw [← hr] at hr1 hr2
  -- everything in units of 1
  have hunit : ((X.fmod (2 * piFixed) - piFixed : Int) : ℝ) / ((2 ^ 160 : Int) : ℝ) = ((X.fmod (2 * piFixed) : ℝ) / 2 ^ 256 - piHat) * 2 ^ 96 := by
    rw [piHat]
    push_cast
    ring
  rw [hunit] at hr1 hr2
  have hsum : 2 * piHat * X.fdiv (2 * piFixed) + (X.fmod (2 * piFixed) : ℝ) / 2 ^ 256 = x := by
    rw [← hXR, piHat, ← hdiv]
    ring
  have hf0 : 0 ≤ (X.fmod (2 * piFixed) : ℝ) / 2 ^ 256 := div_nonneg hmod0 (by positivity)
  have hf1 : (X.fmod (2 * piFixed) : ℝ) / 2 ^ 256 ≤ 2 * piHat := by
    rw [piHat, mul_div_assoc']
    exact div_le_div_of_nonneg_right hmod1 (by positivity)
  have hpi := abs_mul_pi_sub_le hxR hsum hf0 hf1
  have hrr : (reduceArg neg m e : ℝ) / 2 ^ 96 * 2 ^ 96 = reduceArg neg m e := div_mul_cancel₀ _ (by positivity)
  refine ⟨X.fdiv (2 * piFixed), ?_⟩
  generalize (reduceArg neg m e : ℝ) / 2 ^ 96 = r at *
  generalize (X.fmod (2 * piFixed) : ℝ) / 2 ^ 256 = f at *
  rw [abs_le] at hpi
  rw [abs_le, abs_le]
  refine ⟨⟨?_, ?_⟩, ?_, ?_⟩ <;> linarith

/-! ### SIN and COS -/

theorem sin_cos_sub_odd_mul_pi (x : ℝ) (k : Int) :
    Real.sin (x - (2 * k + 1) * Real.pi) = -Real.sin x ∧ Real.cos (x - (2 * k + 1) * Real.pi) = -Real.cos x := by
  have hturn : x - (2 * k + 1) * Real.pi = x - Real.pi - (k : Int) * (2 * Real.pi) := by ring
  rw [hturn, Real.sin_sub_int_mul_two_pi, Real.cos_sub_int_mul_two_pi, Real.sin_sub_pi, Real.cos_sub_pi]
  exact ⟨rfl, rfl⟩

/-- The model's sine and cosine in units of 2^−96. -/
theorem fixed_near {m : Nat} {e : Int} (neg : Bool) (h24 : m < 2 ^ 24) (he : -149 ≤ e) (he' : e ≤ 104) :
    |(sinFixed neg m e : ℝ) / 2 ^ 96 - Real.sin (ratOf (.fin neg m e))| ≤ 1 / 2 ^ 80
      ∧ |(cosFixed neg m e : ℝ) / 2 ^ 96 - Real.cos (ratOf (.fin neg m e))| ≤ 1 / 2 ^ 80 := by
  obtain ⟨k, hnear, hsmall⟩ := reduceArg_near neg h24 he he'
  obtain ⟨hcos, hsin⟩ := abs_trigSeries_le (x := reduceArg neg m e) (div_mul_cancel₀ _ (by positivity)).symm hsmall
  obtain ⟨hsink, hcosk⟩ := sin_cos_sub_odd_mul_pi (ratOf (.fin neg m e) : ℝ) k
  have h1 := (Real.abs_sin_sub_sin_le _ _).trans hnear
  have h2 := (Real.abs_cos_sub_cos_le _ _).trans hnear
  rw [hsink] at h1
  rw [hcosk] at h2
  rw [sinFixed, cosFixed, zero_sub, Int.cast_neg, Int.cast_neg, neg_div, neg_div]
  rw [abs_le] at h1 h2 hcos hsin
  rw [abs_le, abs_le]
  refine ⟨⟨?_, ?_⟩, ?_, ?_⟩ <;> linarith

/-- A result within the model's bound of a fixed-point number near a sine or cosine. -/
theorem nearFixed_of_fixed {fn code : Nat} {v : Int} {y : ℝ} (hy : |y| ≤ 1) (h : |(v : ℝ) / 2 ^ 96 - y| ≤ 1 / 2 ^ 80) :
    NearFixed (approxFixed fn code (v < 0) v.natAbs (-96) (-80)).1 y := by
  have hval : (ratOf (.fin (v < 0) v.natAbs (-96)) : ℝ) = v / 2 ^ 96 := by
    rw [ratOf_fin_int, Rat.cast_mul, cast_two_zpow, Rat.cast_intCast, zpow_neg, ← div_eq_mul_inv]
    norm_num
  refine nearFixed_approxFixed ?_ (by norm_num) ?_
  · have habs : |(v : ℝ) / 2 ^ 96| ≤ 2 := by
      rw [abs_le] at *
      norm_num at *
      constructor <;> linarith
    rw [← hval] at habs
    rw [← abs_ratOf_fin (v < 0)]
    exact_mod_cast habs
  · rw [hval]
    refine h.trans (le_of_eq ?_)
    norm_num

/-- The sine of a tiny number (R108). -/
theorem nearFixed_sin_tiny {fn code m : Nat} {e : Int} (neg : Bool) (hm : m ≠ 0) (hn : e + (bitLen m : Int) ≤ -25)
    (he : 2 * (e + (bitLen m : Int)) ≤ e) :
    NearFixed (approxFixed fn code neg (lessUnit m e (3 * (e + (bitLen m : Int)) - 3)) (3 * (e + (bitLen m : Int)) - 3)
      (3 * (e + (bitLen m : Int)) - 3)).1 (Real.sin (ratOf (.fin neg m e))) := by
  have hlt := lt_two_zpow_bitLen m e
  have hpos : (0 : ℚ) < m * 2 ^ e := mul_pos (by exact_mod_cast Nat.pos_of_ne_zero hm) (two_zpow_pos e)
  generalize e + (bitLen m : Int) = n at *
  have hless := lessUnit_mul hm (show 3 * n - 3 ≤ e by omega)
  have hsmall : (2 : ℚ) ^ n ≤ 2 ^ (0 : Int) := two_zpow_le (by omega)
  have hunit := two_zpow_pos (3 * n - 3)
  refine nearFixed_approxFixed ?_ (by omega) ?_
  · rw [hless]
    rw [zpow_zero] at hsmall
    linarith
  · rw [abs_sub_odd Real.sin_neg, hless]
    have hcube : (2 : ℝ) ^ (3 * n - 3) * 8 = ((2 : ℝ) ^ n) ^ 3 := by
      rw [zpow_sub₀ two_ne_zero, ← zpow_natCast, ← zpow_mul, mul_comm n]
      norm_num
    have hltR : ((m * 2 ^ e : ℚ) : ℝ) ≤ 2 ^ n := cast_two_zpow n ▸ Rat.cast_le.mpr hlt.le
    have hposR : (0 : ℝ) < ((m * 2 ^ e : ℚ) : ℝ) := by exact_mod_cast hpos
    rw [Rat.cast_sub, cast_two_zpow]
    generalize ((m * 2 ^ e : ℚ) : ℝ) = x at *
    have h1 := Real.sin_gt_sub_cube hposR
    have h2 := Real.sin_lt hposR
    have h3 : x ^ 3 ≤ ((2 : ℝ) ^ n) ^ 3 := pow_le_pow_left₀ hposR.le hltR 3
    rw [abs_le]
    constructor <;> linarith

/-- The cosine of a tiny number (R108). -/
theorem nearFixed_cos_tiny {fn code m : Nat} {e : Int} (neg : Bool) (hn : e + (bitLen m : Int) ≤ -25) :
    NearFixed (approxFixed fn code false (lessUnit 1 0 (2 * (e + (bitLen m : Int)) - 2)) (2 * (e + (bitLen m : Int)) - 2)
      (2 * (e + (bitLen m : Int)) - 2)).1 (Real.cos (ratOf (.fin neg m e))) := by
  have hlt := lt_two_zpow_bitLen m e
  generalize e + (bitLen m : Int) = n at *
  have hless := lessUnit_mul one_ne_zero (show 2 * n - 2 ≤ 0 by omega)
  rw [zpow_zero, mul_one, Nat.cast_one] at hless
  have hunit := two_zpow_pos (2 * n - 2)
  refine nearFixed_approxFixed ?_ (by omega) ?_
  · rw [hless]
    linarith
  · have hsq : (2 : ℝ) ^ (2 * n - 2) * 4 = ((2 : ℝ) ^ n) ^ 2 := by
      rw [zpow_sub₀ two_ne_zero, ← zpow_natCast, ← zpow_mul, mul_comm n]
      norm_num
    have hltR : |(ratOf (.fin neg m e) : ℝ)| ≤ 2 ^ n := by
      rw [← Rat.cast_abs, abs_ratOf_fin]
      exact cast_two_zpow n ▸ Rat.cast_le.mpr hlt.le
    rw [ratOf_fin, if_neg Bool.false_ne_true, one_mul, hless, Rat.cast_sub, cast_two_zpow, Rat.cast_one]
    generalize (ratOf (.fin neg m e) : ℝ) = x at *
    have h1 := Real.one_sub_sq_div_two_le_cos (x := x)
    have h2 := Real.cos_le_one x
    have h3 : x ^ 2 ≤ ((2 : ℝ) ^ n) ^ 2 := sq_le_sq' (abs_le.mp hltR).1 (abs_le.mp hltR).2
    rw [abs_le]
    constructor <;> linarith

/-- A number is within every bound of itself. -/
theorem nearFixed_self {c : Nat} {v : ℝ} (hnum : isNum (fDecode .f32 c) = true) (h : (ratOf (fDecode .f32 c) : ℝ) = v) : NearFixed c v :=
  ⟨hnum, by rw [h, sub_self, abs_zero]; exact (zpow_pos two_pos _).le⟩

/-- SIN and COS lie within 2^−22 (R108). -/
theorem nearFixed_trig {c : Nat} (hnum : isNum (fDecode .f32 c) = true) :
    NearFixed (trigOf false c).1 (Real.sin (ratOf (fDecode .f32 c) : ℝ))
      ∧ NearFixed (trigOf true c).1 (Real.cos (ratOf (fDecode .f32 c) : ℝ)) := by
  cases hv : fDecode .f32 c with
  | nan s | inf s => rw [hv] at hnum; exact absurd hnum (by simp [isNum])
  | fin neg m e =>
    obtain ⟨h24, he, he', hnormal⟩ := f32_fin hv
    by_cases hm : m = 0
    · subst hm
      obtain ⟨-, -, -, hsin, hcos, -⟩ := special_zero hv
      rw [hsin, hcos, (ratOf_fin_eq_zero_iff neg 0 e).mpr rfl, Rat.cast_zero, Real.sin_zero, Real.cos_zero]
      constructor
      · have hz : fDecode .f32 (withSign .f32 neg 0) = .fin neg 0 (-149) := by cases neg <;> decide
        exact nearFixed_self (hz ▸ rfl) (by rw [hz, (ratOf_fin_eq_zero_iff neg 0 _).mpr rfl, Rat.cast_zero])
      · have h1 : fDecode .f32 0x3F800000 = .fin false (2 ^ 23) (-23) := by decide
        exact nearFixed_self (h1 ▸ rfl) (by rw [h1, ratOf_fin]; norm_num)
    · by_cases hn : e + (bitLen m : Int) ≤ -25
      · simp only [trigOf, hv, hm, hn, if_true, if_false, Bool.false_eq_true]
        exact ⟨nearFixed_sin_tiny neg hm hn (two_mul_exp_le h24 hnormal hn), nearFixed_cos_tiny neg hn⟩
      · obtain ⟨hsin, hcos⟩ := fixed_near neg h24 he he'
        simp only [trigOf, hv, hm, hn, if_true, if_false, Bool.false_eq_true]
        exact ⟨nearFixed_of_fixed (Real.abs_sin_le_one _) hsin, nearFixed_of_fixed (Real.abs_cos_le_one _) hcos⟩

end Sys2Proof.Proofs.Trig
end

section
/-! PROOFS. The hyperbolic tangent of the reals: its polynomial near 0, and as (E − 1) ÷ (E + 1) with E = e^2x. -/

namespace Sys2Proof.Proofs.TanhReal

open Finset

/-! ### Near 0 -/

/-- The first four terms of the hyperbolic tangent. -/
noncomputable def tanhPoly (x : ℝ) : ℝ := x - x ^ 3 / 3 + 2 * x ^ 5 / 15 - 17 * x ^ 7 / 315

/-- The first terms of the hyperbolic sine. -/
noncomputable def sinhPoly (x : ℝ) : ℝ := x + x ^ 3 / 6 + x ^ 5 / 120 + x ^ 7 / 5040

/-- The first terms of the hyperbolic cosine. -/
noncomputable def coshPoly (x : ℝ) : ℝ := 1 + x ^ 2 / 2 + x ^ 4 / 24 + x ^ 6 / 720 + x ^ 8 / 40320

/-- Nine terms of e^x. -/
theorem abs_exp_sub_le {x : ℝ} (hx : |x| ≤ 1) : |Real.exp x - (coshPoly x + sinhPoly x)| ≤ |x| ^ 9 / 2 ^ 18 := by
  have h := Real.exp_bound hx (n := 9) (by norm_num)
  have hsum : ∑ m ∈ range 9, x ^ m / (m.factorial : ℝ) = coshPoly x + sinhPoly x := by
    simp only [sum_range_succ, range_zero, sum_empty, coshPoly, sinhPoly]
    norm_num [Nat.factorial]
    ring
  rw [hsum] at h
  refine h.trans ?_
  rw [div_eq_mul_inv (|x| ^ 9)]
  refine mul_le_mul_of_nonneg_left ?_ (by positivity)
  norm_num [Nat.factorial]

theorem coshPoly_neg (x : ℝ) : coshPoly (-x) = coshPoly x := by
  simp only [coshPoly]
  ring

theorem sinhPoly_neg (x : ℝ) : sinhPoly (-x) = -sinhPoly x := by
  simp only [sinhPoly]
  ring

theorem abs_sinh_cosh_sub_le {x : ℝ} (h0 : 0 ≤ x) (h1 : x ≤ 1) :
    |Real.sinh x - sinhPoly x| ≤ x ^ 9 / 2 ^ 18 ∧ |Real.cosh x - coshPoly x| ≤ x ^ 9 / 2 ^ 18 := by
  have hx : |x| ≤ 1 := by rwa [abs_of_nonneg h0]
  have hp := abs_exp_sub_le hx
  have hn := abs_exp_sub_le (x := -x) (by rwa [abs_neg])
  rw [coshPoly_neg, sinhPoly_neg, abs_neg] at hn
  rw [abs_of_nonneg h0] at hp hn
  rw [Real.sinh_eq, Real.cosh_eq]
  rw [abs_le] at hp hn
  rw [abs_le, abs_le]
  refine ⟨⟨?_, ?_⟩, ?_, ?_⟩ <;> linarith

/-- The product of the two polynomials differs from the hyperbolic sine's in high powers only. -/
theorem sinhPoly_sub (x : ℝ) : sinhPoly x - tanhPoly x * coshPoly x
    = x ^ 9 * (529 / 24192 + 179 / 86400 * x ^ 2 + 13 / 181440 * x ^ 4 + 17 / 12700800 * x ^ 6) := by
  simp only [sinhPoly, tanhPoly, coshPoly]
  ring

theorem tanhPoly_bounds {x : ℝ} (h0 : 0 ≤ x) (h1 : x ≤ 1) : 0 ≤ tanhPoly x ∧ tanhPoly x ≤ 1 := by
  have h3 : x ^ 3 ≤ x := pow_le_of_le_one h0 h1 (by norm_num)
  have h5 : x ^ 5 ≤ x ^ 3 := pow_le_pow_of_le_one h0 h1 (by norm_num)
  have h7 : x ^ 7 ≤ x ^ 5 := pow_le_pow_of_le_one h0 h1 (by norm_num)
  have h7' : 0 ≤ x ^ 7 := by positivity
  rw [tanhPoly]
  constructor <;> linarith

/-- The hyperbolic tangent of a small number. -/
theorem abs_tanh_sub_poly_le {x : ℝ} (h0 : 0 ≤ x) (h1 : x ≤ 1) : |Real.tanh x - tanhPoly x| ≤ x ^ 9 := by
  obtain ⟨hs, hc⟩ := abs_sinh_cosh_sub_le h0 h1
  obtain ⟨hp0, hp1⟩ := tanhPoly_bounds h0 h1
  have hcosh := Real.one_le_cosh x
  have hrest : |sinhPoly x - tanhPoly x * coshPoly x| ≤ x ^ 9 * (1 / 2) := by
    rw [sinhPoly_sub, abs_of_nonneg (by positivity)]
    refine mul_le_mul_of_nonneg_left ?_ (by positivity)
    have h2 : x ^ 2 ≤ 1 := pow_le_one₀ h0 h1
    have h4 : x ^ 4 ≤ 1 := pow_le_one₀ h0 h1
    have h6 : x ^ 6 ≤ 1 := pow_le_one₀ h0 h1
    linarith
  have hprod : |tanhPoly x * (Real.cosh x - coshPoly x)| ≤ x ^ 9 / 2 ^ 18 := by
    rw [abs_mul, abs_of_nonneg hp0]
    exact (mul_le_of_le_one_left (abs_nonneg _) hp1).trans hc
  have hnum : |Real.sinh x - tanhPoly x * Real.cosh x| ≤ x ^ 9 := by
    rw [abs_le] at *
    constructor <;> linarith [pow_nonneg h0 9]
  have hdiv : Real.tanh x - tanhPoly x = (Real.sinh x - tanhPoly x * Real.cosh x) / Real.cosh x := by
    rw [Real.tanh_eq_sinh_div_cosh, sub_div, mul_div_cancel_right₀ _ (by linarith)]
  rw [hdiv, abs_div, abs_of_pos (Real.cosh_pos x)]
  exact (div_le_self (abs_nonneg _) hcosh).trans hnum

/-- The hyperbolic tangent of a small number lies within a cube below it. -/
theorem tanh_near_self {x : ℝ} (h0 : 0 < x) (h1 : x ≤ 1 / 4) : x - x ^ 3 / 3 ≤ Real.tanh x ∧ Real.tanh x ≤ x := by
  have h := abs_tanh_sub_poly_le h0.le (h1.trans (by norm_num))
  have h2 : x ^ 2 ≤ 1 / 16 := (pow_le_pow_left₀ h0.le h1 2).trans (by norm_num)
  have h3 : 0 < x ^ 3 := by positivity
  have h5 : x ^ 5 = x ^ 3 * x ^ 2 := by ring
  have h7 : x ^ 7 = x ^ 5 * x ^ 2 := by ring
  have h9 : x ^ 9 = x ^ 7 * x ^ 2 := by ring
  have h5' : x ^ 5 ≤ x ^ 3 * (1 / 16) := h5 ▸ mul_le_mul_of_nonneg_left h2 h3.le
  have h7' : x ^ 7 ≤ x ^ 5 * (1 / 16) := h7 ▸ mul_le_mul_of_nonneg_left h2 (by positivity)
  have h9' : x ^ 9 ≤ x ^ 7 * (1 / 16) := h9 ▸ mul_le_mul_of_nonneg_left h2 (by positivity)
  have h50 : 0 < x ^ 5 := by positivity
  have h70 : 0 < x ^ 7 := by positivity
  rw [tanhPoly, abs_le] at h
  constructor <;> linarith

/-! ### The exponential form -/

theorem tanh_eq_exp (x : ℝ) : Real.tanh x = (Real.exp (2 * x) - 1) / (Real.exp (2 * x) + 1) := by
  have hpos := Real.exp_pos x
  rw [Real.tanh_eq, Real.exp_neg, two_mul, Real.exp_add]
  field_simp

/-- From 9.5 on the hyperbolic tangent is 1 to 2^−23. -/
theorem tanh_of_large {x : ℝ} (hx : 19 / 2 ≤ x) : 1 - 1 / 2 ^ 23 ≤ Real.tanh x ∧ Real.tanh x < 1 := by
  have hexp : (2 : ℝ) ^ 25 ≤ Real.exp (2 * x) := by
    have h1 : (27 / 10 : ℝ) ≤ Real.exp 1 := by linarith [Real.exp_one_gt_d9]
    calc (2 : ℝ) ^ 25 ≤ (27 / 10) ^ 19 := by norm_num
      _ ≤ Real.exp 1 ^ 19 := pow_le_pow_left₀ (by norm_num) h1 19
      _ = Real.exp 19 := by rw [← Real.exp_nat_mul]; norm_num
      _ ≤ Real.exp (2 * x) := Real.exp_le_exp.mpr (by linarith)
  rw [tanh_eq_exp, le_div_iff₀ (by positivity), div_lt_one (by positivity)]
  constructor <;> linarith

/-- The exponential form with a lower number than e^2x. -/
theorem tanh_near_of_exp_near {x a d : ℝ} (ha : 1 < a) (hle : a ≤ Real.exp (2 * x)) (hd : Real.exp (2 * x) ≤ a + d) :
    (a - 1) / (a + 1) ≤ Real.tanh x ∧ Real.tanh x ≤ (a - 1) / (a + 1) + d := by
  rw [tanh_eq_exp]
  generalize Real.exp (2 * x) = b at *
  have hsub : (b - 1) / (b + 1) - (a - 1) / (a + 1) = 2 * (b - a) / ((a + 1) * (b + 1)) := by
    have h1 : a + 1 ≠ 0 := by linarith
    have h2 : b + 1 ≠ 0 := by linarith
    field_simp
    ring
  have h0 : 0 ≤ 2 * (b - a) / ((a + 1) * (b + 1)) := div_nonneg (by linarith) (mul_nonneg (by linarith) (by linarith))
  have hle2 : 2 * (b - a) / ((a + 1) * (b + 1)) ≤ d := by
    rw [div_le_iff₀ (mul_pos (by linarith) (by linarith))]
    have htwo : 2 ≤ (a + 1) * (b + 1) := by nlinarith
    have hd0 : 0 ≤ d := by linarith
    linarith [mul_le_mul_of_nonneg_left htwo hd0]
  constructor <;> linarith

end Sys2Proof.Proofs.TanhReal
end

section
/-! PROOFS. The series of e^y in fixed point, each term rounded down (the model's TANH, R108). -/

namespace Sys2Proof.Proofs.ExpSeries

open Machine Finset

/-- A term of the series of e^Y. -/
noncomputable def expTerm (Y : ℝ) (k : Nat) : ℝ := Y ^ k / k.factorial

theorem expTerm_succ (Y : ℝ) (k : Nat) : expTerm Y (k + 1) = expTerm Y k * Y / (k + 1 : ℝ) := by
  rw [expTerm, expTerm, Nat.factorial_succ, pow_succ]
  push_cast
  field_simp

theorem expTerm_nonneg {Y : ℝ} (hY : 0 ≤ Y) (k : Nat) : 0 ≤ expTerm Y k := div_nonneg (pow_nonneg hY k) (Nat.cast_nonneg _)

/-- The model's next term. -/
def nextTerm (y t k : Nat) : Nat := t * y / 2 ^ 160 / (k + 1)

theorem expSeries_succ (y n k t acc : Nat) :
    expSeries y (n + 1) k t acc = expSeries y n (k + 1) (nextTerm y t k) (acc + nextTerm y t k) := rfl

/-- What a term may lose where the one before lost e units, for exponents up to 19. -/
def nextLoss (e k : Nat) : Nat := 19 * e / (k + 1) + 3

/-- What n terms may lose in all. -/
def totalLoss : Nat → Nat → Nat → Nat
  | 0, _, _ => 0
  | n + 1, k, e => nextLoss e k + totalLoss n (k + 1) (nextLoss e k)

/-- The floor of a quotient of natural numbers. -/
theorem nat_div_near (a : Nat) {b : Nat} (hb : b ≠ 0) : ((a / b : Nat) : ℝ) ≤ a / b ∧ (a / b : ℝ) < (a / b : Nat) + 1 := by
  have hb' : (0 : ℝ) < b := by exact_mod_cast Nat.pos_of_ne_zero hb
  refine ⟨Nat.cast_div_le, ?_⟩
  rw [div_lt_iff₀ hb']
  exact_mod_cast Nat.lt_mul_of_div_lt (Nat.lt_succ_self (a / b)) (Nat.pos_of_ne_zero hb)

/-- A number t below the real number T by at most e. -/
def IsBelow (t : Nat) (T : ℝ) (e : Nat) : Prop := (t : ℝ) ≤ T ∧ T ≤ t + e

/-- The next term loses no more than its bound. -/
theorem isBelow_nextTerm {y t k e : Nat} {Y T : ℝ} (hy : (y : ℝ) = Y * 2 ^ 160) (h0 : 0 ≤ Y) (h19 : Y ≤ 19) (ht : IsBelow t T e) :
    IsBelow (nextTerm y t k) (T * Y / (k + 1 : ℝ)) (nextLoss e k) := by
  obtain ⟨ht1, ht2⟩ := ht
  obtain ⟨h1, h2⟩ := nat_div_near (t * y) (b := 2 ^ 160) (by positivity)
  obtain ⟨h3, h4⟩ := nat_div_near (t * y / 2 ^ 160) (Nat.succ_ne_zero k)
  obtain ⟨-, h5⟩ := nat_div_near (19 * e) (Nat.succ_ne_zero k)
  have hmul : ((t * y : Nat) : ℝ) / ((2 ^ 160 : Nat) : ℝ) = t * Y := by
    rw [Nat.cast_mul, hy, Nat.cast_pow, Nat.cast_ofNat, ← mul_assoc]
    exact mul_div_cancel_right₀ _ (by positivity)
  rw [hmul] at h1 h2
  have hK : (1 : ℝ) ≤ k + 1 := by linarith [(Nat.cast_nonneg k : (0 : ℝ) ≤ k)]
  have he : (0 : ℝ) ≤ e := Nat.cast_nonneg e
  have hlow := mul_le_mul_of_nonneg_right ht1 h0
  have hup : T * Y ≤ t * Y + 19 * e := by nlinarith
  rw [IsBelow, nextTerm, nextLoss]
  rw [Nat.succ_eq_add_one] at *
  generalize t * y / 2 ^ 160 = u at *
  generalize u / (k + 1) = w at *
  generalize 19 * e / (k + 1) = l at *
  push_cast at *
  have hK0 : (0 : ℝ) < k + 1 := by linarith
  rw [le_div_iff₀ hK0, div_le_iff₀ hK0]
  rw [le_div_iff₀ hK0] at h3
  rw [div_lt_iff₀ hK0] at h4 h5
  constructor
  · linarith
  · nlinarith

/-- n terms of the series after the one of index k. -/
theorem isBelow_expSeries {y : Nat} {Y : ℝ} (hy : (y : ℝ) = Y * 2 ^ 160) (h0 : 0 ≤ Y) (h19 : Y ≤ 19) (n k t acc e : Nat)
    (ht : IsBelow t (expTerm Y k * 2 ^ 160) e) :
    IsBelow (expSeries y n k t acc) (acc + (∑ j ∈ range n, expTerm Y (k + 1 + j)) * 2 ^ 160) (totalLoss n k e) := by
  induction n generalizing k t acc e with
  | zero => simp [IsBelow, expSeries, totalLoss]
  | succ n ih =>
    have hnext := isBelow_nextTerm (k := k) hy h0 h19 ht
    have hterm : expTerm Y k * 2 ^ 160 * Y / (k + 1 : ℝ) = expTerm Y (k + 1) * 2 ^ 160 := by
      rw [expTerm_succ]
      ring
    rw [hterm] at hnext
    obtain ⟨hr1, hr2⟩ := ih (k + 1) (nextTerm y t k) (acc + nextTerm y t k) (nextLoss e k) hnext
    obtain ⟨hn1, hn2⟩ := hnext
    have hsum : ∑ j ∈ range (n + 1), expTerm Y (k + 1 + j) = ∑ j ∈ range n, expTerm Y (k + 1 + 1 + j) + expTerm Y (k + 1) := by
      rw [sum_range_succ', add_zero]
      congr 1
      exact sum_congr rfl fun j _ => by rw [show k + 1 + (j + 1) = k + 1 + 1 + j by ring]
    rw [IsBelow, expSeries_succ, totalLoss, hsum]
    push_cast at *
    constructor <;> linarith

theorem totalLoss_le : totalLoss 120 0 0 ≤ 2 ^ 40 := by decide +kernel

/-- The end of the series after 121 terms. -/
theorem exp_le_terms_add {Y : ℝ} (h0 : 0 ≤ Y) (h19 : Y ≤ 19) : Real.exp Y ≤ (∑ j ∈ range 121, expTerm Y j) + 1 / 2 ^ 140 := by
  have h := Complex.exp_bound' (x := (Y : ℂ)) (n := 121) (by
    rw [Complex.norm_real, Real.norm_eq_abs, abs_of_nonneg h0]
    norm_num
    linarith)
  have hreal : Complex.exp Y - ∑ m ∈ range 121, (Y : ℂ) ^ m / m.factorial
      = ((Real.exp Y - ∑ j ∈ range 121, expTerm Y j : ℝ) : ℂ) := by
    simp only [expTerm]
    push_cast
    rfl
  rw [hreal, Complex.norm_real, Complex.norm_real, Real.norm_eq_abs, Real.norm_eq_abs, abs_of_nonneg h0] at h
  have htail : Y ^ 121 / ((Nat.factorial 121 : Nat) : ℝ) * 2 ≤ 1 / 2 ^ 140 := by
    calc Y ^ 121 / ((Nat.factorial 121 : Nat) : ℝ) * 2 ≤ 19 ^ 121 / ((Nat.factorial 121 : Nat) : ℝ) * 2 := by gcongr
      _ ≤ 1 / 2 ^ 140 := by norm_num [Nat.factorial]
  linarith [le_abs_self (Real.exp Y - ∑ j ∈ range 121, expTerm Y j)]

/-- The model's e^Y lies below e^Y, by less than 2^−100. -/
theorem expSeries_near {y : Nat} {Y : ℝ} (hy : (y : ℝ) = Y * 2 ^ 160) (h0 : 0 ≤ Y) (h19 : Y ≤ 19) :
    (expSeries y 120 0 (2 ^ 160) (2 ^ 160) : ℝ) / 2 ^ 160 ≤ Real.exp Y
      ∧ Real.exp Y ≤ (expSeries y 120 0 (2 ^ 160) (2 ^ 160) : ℝ) / 2 ^ 160 + 1 / 2 ^ 100 := by
  obtain ⟨h1, h2⟩ := isBelow_expSeries hy h0 h19 120 0 (2 ^ 160) (2 ^ 160) 0 (by norm_num [IsBelow, expTerm])
  have hsum : ((2 ^ 160 : Nat) : ℝ) + (∑ j ∈ range 120, expTerm Y (0 + 1 + j)) * 2 ^ 160 = (∑ j ∈ range 121, expTerm Y j) * 2 ^ 160 := by
    rw [sum_range_succ' _ 120]
    simp only [zero_add, add_comm 1]
    rw [add_mul, add_comm, expTerm]
    norm_num
  rw [hsum] at h1 h2
  have hloss : (totalLoss 120 0 0 : ℝ) ≤ 2 ^ 40 := by exact_mod_cast totalLoss_le
  have hlow : ∑ j ∈ range 121, expTerm Y j ≤ Real.exp Y := Real.sum_le_exp_of_nonneg h0 121
  have hup := exp_le_terms_add h0 h19
  have hw : (expSeries y 120 0 (2 ^ 160) (2 ^ 160) : ℝ) / 2 ^ 160 * 2 ^ 160 = expSeries y 120 0 (2 ^ 160) (2 ^ 160) :=
    div_mul_cancel₀ _ (by positivity)
  generalize (expSeries y 120 0 (2 ^ 160) (2 ^ 160) : ℝ) / 2 ^ 160 = w at *
  rw [← hw] at h1 h2
  constructor <;> linarith

end Sys2Proof.Proofs.ExpSeries
end

section
/-! PROOFS. TANH within its bound (R108): a tiny number, a polynomial, the exponential form, and ±1; and what the functions with an
error bound keep in all. -/

namespace Sys2Proof.Proofs.Tanh

open Machine Claims Rounding Formats OtherFloats Special ExactSpecial Approx Rsq Log2 Trig TanhReal ExpSeries

/-! ### The binade -/

/-- A number of the format above a power of two is above it by a unit of 24 bits. -/
theorem two_zpow_add_le {m : Nat} {e L : Int} (h24 : m < 2 ^ 24) (h : (2 : ℚ) ^ L < m * 2 ^ e) :
    (2 : ℚ) ^ L + 2 ^ (L - 23) ≤ m * 2 ^ e := by
  have hp := two_zpow_pos e
  rcases lt_or_ge L e with hlt | hge
  · have hm : (1 : ℚ) ≤ m := by
      have : m ≠ 0 := fun h0 => by
        rw [h0, Nat.cast_zero, zero_mul] at h
        exact absurd h (not_lt.mpr (two_zpow_pos L).le)
      exact_mod_cast Nat.one_le_iff_ne_zero.mpr this
    have h1 : (2 : ℚ) ^ (L - 23) ≤ 2 ^ L := two_zpow_le (by omega)
    have h2 : (2 : ℚ) ^ (L + 1) ≤ 2 ^ e := two_zpow_le (by omega)
    rw [zpow_add_one₀ two_ne_zero] at h2
    nlinarith
  · have hL : (2 : ℚ) ^ L = (2 ^ (L - e).toNat : Nat) * 2 ^ e := by
      rw [← two_zpow_toNat (by omega), ← zpow_add₀ two_ne_zero, sub_add_cancel]
    have hbits : L < e + 24 := by
      by_contra hle
      have h1 : (2 : ℚ) ^ (e + 24) ≤ 2 ^ L := two_zpow_le (by omega)
      have h2 : (m : ℚ) * 2 ^ e ≤ 2 ^ 24 * 2 ^ e := mul_le_mul_of_nonneg_right (by exact_mod_cast h24.le) hp.le
      rw [zpow_add₀ two_ne_zero] at h1
      norm_num at h1 h2
      linarith
    have hunit : (2 : ℚ) ^ (L - 23) ≤ 2 ^ e := two_zpow_le (by omega)
    rw [hL] at h ⊢
    have hm : 2 ^ (L - e).toNat + 1 ≤ m := by
      rw [mul_lt_mul_iff_left₀ hp] at h
      exact_mod_cast h
    have hm' : (((2 ^ (L - e).toNat + 1 : Nat)) : ℚ) * 2 ^ e ≤ m * 2 ^ e := mul_le_mul_of_nonneg_right (by exact_mod_cast hm) hp.le
    push_cast at hm' ⊢
    linarith

/-- A power of two below a small number of the format is not above the number's hyperbolic tangent. -/
theorem two_zpow_le_tanh {m : Nat} {e L : Int} (h24 : m < 2 ^ 24) (hx : (m : ℚ) * 2 ^ e ≤ 2 ^ (-12 : Int)) (h : (2 : ℚ) ^ L < m * 2 ^ e) :
    (2 : ℝ) ^ L ≤ Real.tanh ((m * 2 ^ e : ℚ) : ℝ) := by
  have hgrid := two_zpow_add_le h24 h
  have hposL := two_zpow_pos L
  have hgridR : (2 : ℝ) ^ L + 2 ^ (L - 23) ≤ ((m * 2 ^ e : ℚ) : ℝ) := by
    have := (Rat.cast_le (K := ℝ)).mpr hgrid
    rwa [Rat.cast_add, cast_two_zpow, cast_two_zpow] at this
  have hxR : ((m * 2 ^ e : ℚ) : ℝ) ≤ 1 / 2 ^ 12 := by
    have := (Rat.cast_le (K := ℝ)).mpr hx
    rw [cast_two_zpow] at this
    norm_num at this ⊢
    exact this
  generalize ((m * 2 ^ e : ℚ) : ℝ) = x at *
  have hp : (0 : ℝ) < 2 ^ L := zpow_pos two_pos L
  have hunit : (2 : ℝ) ^ (L - 23) = 2 ^ L / 2 ^ 23 := by
    rw [zpow_sub₀ two_ne_zero]
    norm_num
  rw [hunit] at hgridR
  generalize (2 : ℝ) ^ L = p at *
  have hx0 : 0 < x := by linarith [div_pos hp (by positivity : (0 : ℝ) < 2 ^ 23)]
  refine le_trans ?_ (tanh_near_self hx0 (hxR.trans (by norm_num))).1
  have hsq : x ^ 2 ≤ 1 / 2 ^ 24 := (pow_le_pow_left₀ hx0.le hxR 2).trans (by norm_num)
  have hcube : x ^ 3 ≤ x * (1 / 2 ^ 24) := by
    rw [show x ^ 3 = x * x ^ 2 by ring]
    exact mul_le_mul_of_nonneg_left hsq hx0.le
  rcases le_or_gt (2 * p) x with h2 | h2 <;> linarith

/-! ### Near an approximation of the magnitude -/

theorem abs_tanh_ratOf (neg : Bool) (m : Nat) (e : Int) :
    |Real.tanh (ratOf (.fin neg m e))| = |Real.tanh ((m * 2 ^ e : ℚ) : ℝ)| := by
  rw [ratOf_fin, mul_assoc]
  cases neg
  · simp only [Bool.false_eq_true, if_false, one_mul]
  · simp only [if_true, neg_one_mul, Rat.cast_neg, Real.tanh_neg, abs_neg]

/-- An approximation of the hyperbolic tangent of a magnitude, with the number's sign. -/
theorem nearUlps_of_magnitude {code m q u : Nat} {neg : Bool} {e h : Int} (hu : u ≠ 0) (hq : q ≠ 0) (hle : (q : ℚ) * 2 ^ h ≤ 2 ^ (127 : Int))
    (hlog : (2 : ℝ) ^ Int.log 2 ((q : ℚ) * 2 ^ h) ≤ Real.tanh ((m * 2 ^ e : ℚ) : ℝ))
    (hclose : |((q * 2 ^ h : ℚ) : ℝ) - Real.tanh ((m * 2 ^ e : ℚ) : ℝ)| ≤ 2 ^ (ulpExp q h - u)) :
    NearUlps (approxUlp 7 code 2 neg q h u).1 (Real.tanh (ratOf (.fin neg m e))) 2 := by
  have habs : Real.tanh ((m * 2 ^ e : ℚ) : ℝ) ≤ |Real.tanh (ratOf (.fin neg m e))| := abs_tanh_ratOf neg m e ▸ le_abs_self _
  have near : NearUlps (approxUlp 7 code 2 neg q h u).1 (Real.tanh (ratOf (.fin neg m e))) (2 : Nat) :=
    nearUlps_approxUlp two_ne_zero hu hq hle (hlog.trans habs) (by rwa [abs_sub_odd Real.tanh_neg])
  rwa [Nat.cast_two] at near

/-- The same for an approximation of small relative error. -/
theorem nearUlps_of_relative {code m q : Nat} {neg : Bool} {e h : Int} (hq : q ≠ 0) (hle : (q : ℚ) * 2 ^ h ≤ 2 ^ (127 : Int))
    (hlog : (2 : ℝ) ^ Int.log 2 ((q : ℚ) * 2 ^ h) ≤ Real.tanh ((m * 2 ^ e : ℚ) : ℝ))
    (hclose : |((q * 2 ^ h : ℚ) : ℝ) - Real.tanh ((m * 2 ^ e : ℚ) : ℝ)| ≤ ((q * 2 ^ h : ℚ) : ℝ) / 2 ^ 76) :
    NearUlps (approxUlp 7 code 2 neg q h 52).1 (Real.tanh (ratOf (.fin neg m e))) 2 := by
  refine nearUlps_of_magnitude (by decide) hq hle hlog (hclose.trans (le_trans (le_of_eq ?_) (relative_le_ulp hq h 52)))
  push_cast
  norm_num
  ring

/-! ### Tiny numbers -/

/-- TANH of a number below 2^−36 (R108). -/
theorem nearUlps_tanh_tiny {code m : Nat} {e n b : Int} (neg : Bool) (hm : m ≠ 0) (h24 : m < 2 ^ 24) (hbits : e + (bitLen m : Int) = n)
    (hn : n ≤ -36) (he : 2 * n ≤ e) (hb : b = 3 * n - 2) :
    NearUlps (approxUlp 7 code 2 neg (lessUnit m e b) b (ulpExp (lessUnit m e b) b - b).toNat).1 (Real.tanh (ratOf (.fin neg m e))) 2 := by
  have hlt := lt_two_zpow_bitLen m e
  have hpos : (0 : ℚ) < m * 2 ^ e := mul_pos (by exact_mod_cast Nat.pos_of_ne_zero hm) (two_zpow_pos e)
  have hlow : (2 : ℚ) ^ (n - 1) ≤ m * 2 ^ e := by
    have := (Int.zpow_le_iff_le_log one_lt_two hpos).mpr (log_eq_bitLen hm e).ge
    rwa [Nat.cast_ofNat, hbits] at this
  rw [hbits] at hlt
  have hless := lessUnit_mul hm (show b ≤ e by omega)
  have hunit := two_zpow_pos b
  have hunit' : (2 : ℚ) ^ b ≤ 2 ^ (n - 2) := two_zpow_le (by omega)
  have hhalf : (2 : ℚ) ^ (n - 1) = 2 * 2 ^ (n - 2) := by
    rw [show n - 1 = n - 2 + 1 by ring, zpow_add_one₀ two_ne_zero, mul_comm]
  have hV : (2 : ℚ) ^ (n - 2) ≤ lessUnit m e b * 2 ^ b := by linarith
  have hVx : (lessUnit m e b : ℚ) * 2 ^ b < m * 2 ^ e := by linarith
  have hsmall : (m : ℚ) * 2 ^ e ≤ 2 ^ (-12 : Int) := hlt.le.trans (two_zpow_le (by omega))
  generalize lessUnit m e b = q at *
  have hV0 : (0 : ℚ) < q * 2 ^ b := (two_zpow_pos _).trans_le hV
  have hq : q ≠ 0 := fun h0 => by
    rw [h0, Nat.cast_zero, zero_mul] at hV0
    exact lt_irrefl _ hV0
  have hlogV := (Int.zpow_le_iff_le_log one_lt_two hV0).mp (by exact_mod_cast hV)
  rw [log_eq_bitLen hq] at hlogV
  have hulp : b < ulpExp q b := by
    rw [ulpExp]
    omega
  refine nearUlps_of_magnitude (by omega) hq (hVx.le.trans (hsmall.trans (two_zpow_le (by norm_num)))) ?_ ?_
  · refine two_zpow_le_tanh h24 hsmall (lt_of_le_of_lt ?_ hVx)
    exact_mod_cast (Int.zpow_le_iff_le_log one_lt_two hV0).mpr le_rfl
  · rw [show ulpExp q b - (((ulpExp q b - b).toNat : Nat) : Int) = b by omega, hless, Rat.cast_sub, cast_two_zpow]
    have hltR : ((m * 2 ^ e : ℚ) : ℝ) ≤ 2 ^ n := cast_two_zpow n ▸ Rat.cast_le.mpr hlt.le
    have hposR : (0 : ℝ) < ((m * 2 ^ e : ℚ) : ℝ) := by exact_mod_cast hpos
    have hquarter : ((m * 2 ^ e : ℚ) : ℝ) ≤ 1 / 4 := by
      have := (Rat.cast_le (K := ℝ)).mpr hsmall
      rw [cast_two_zpow] at this
      exact this.trans (by norm_num)
    have hcube : (2 : ℝ) ^ b * 4 = ((2 : ℝ) ^ n) ^ 3 := by
      rw [hb, zpow_sub₀ two_ne_zero, ← zpow_natCast, ← zpow_mul, mul_comm n]
      norm_num
    generalize ((m * 2 ^ e : ℚ) : ℝ) = x at *
    obtain ⟨h1, h2⟩ := tanh_near_self hposR hquarter
    have h3 : x ^ 3 ≤ ((2 : ℝ) ^ n) ^ 3 := pow_le_pow_left₀ hposR.le hltR 3
    have h4 : (0 : ℝ) < 2 ^ b := zpow_pos two_pos b
    rw [abs_le]
    constructor <;> linarith

/-! ### Quotients -/

/-- The model's quotient near a hyperbolic tangent that the exact quotient is near to. -/
theorem nearUlps_of_quot {code m a b : Nat} {neg : Bool} {e g : Int} (ha : a ≠ 0) (hb : b ≠ 0) (h1 : (a : ℚ) * 2 ^ g / b ≤ 1)
    (hlog : ∀ L : Int, (2 : ℚ) ^ L ≤ a * 2 ^ g / b → (2 : ℝ) ^ L ≤ Real.tanh ((m * 2 ^ e : ℚ) : ℝ))
    (hclose : |((a * 2 ^ g / b : ℚ) : ℝ) - Real.tanh ((m * 2 ^ e : ℚ) : ℝ)| ≤ ((a * 2 ^ g / b : ℚ) : ℝ) / 2 ^ 80) :
    NearUlps (approxUlp 7 code 2 neg (quot 80 a b g).1 (quot 80 a b g).2 52).1 (Real.tanh (ratOf (.fin neg m e))) 2 := by
  obtain ⟨hq, hqlog, hqnear⟩ := quot_near 80 ha hb g
  have hpos : (0 : ℚ) < a * 2 ^ g / b :=
    div_pos (mul_pos (by exact_mod_cast Nat.pos_of_ne_zero ha) (two_zpow_pos g)) (by exact_mod_cast Nat.pos_of_ne_zero hb)
  have hnearR : |(((quot 80 a b g).1 * 2 ^ (quot 80 a b g).2 : ℚ) : ℝ) - ((a * 2 ^ g / b : ℚ) : ℝ)| ≤ ((a * 2 ^ g / b : ℚ) : ℝ) / 2 ^ 80 := by
    have := (Rat.cast_le (K := ℝ)).mpr hqnear
    rw [Rat.cast_abs, Rat.cast_sub, Rat.cast_div _ (2 ^ 80)] at this
    exact_mod_cast this
  have hposR : (0 : ℝ) < ((a * 2 ^ g / b : ℚ) : ℝ) := by exact_mod_cast hpos
  refine nearUlps_of_relative hq ?_ ?_ ?_
  · have h127 : (2 : ℚ) ≤ 2 ^ (127 : Int) := by norm_num
    rw [abs_le] at hqnear
    linarith
  · rw [hqlog]
    refine hlog _ ?_
    exact_mod_cast (Int.zpow_le_iff_le_log one_lt_two hpos).mpr le_rfl
  · generalize ((a * 2 ^ g / b : ℚ) : ℝ) = Q at *
    generalize (((quot 80 a b g).1 * 2 ^ (quot 80 a b g).2 : ℚ) : ℝ) = w at *
    rw [abs_le] at *
    constructor <;> linarith

/-! ### Small numbers -/

/-- The model's polynomial of x² in units of 2^−200. -/
def polyFixed (q : Int) : Int :=
  315 * 2 ^ 200 - 105 * q + 42 * (q * q / 2 ^ 200) - 17 * (q * q / 2 ^ 200 * q / 2 ^ 200)

/-- The model's polynomial, and that it is below its first term. -/
theorem polyFixed_near {q : Int} {z : ℝ} (hq : (q : ℝ) = z * 2 ^ 200) (hz0 : 0 < z) (hz1 : z ≤ 1 / 2 ^ 24) :
    |(polyFixed q : ℝ) / 2 ^ 200 - (315 - 105 * z + 42 * z ^ 2 - 17 * z ^ 3)| ≤ 1 / 2 ^ 190
      ∧ (polyFixed q : ℝ) / 2 ^ 200 < 315 := by
  obtain ⟨h1, h2⟩ := int_div_near (q * q) (show (0 : Int) < 2 ^ 200 by norm_num)
  obtain ⟨h3, h4⟩ := int_div_near (q * q / 2 ^ 200 * q) (show (0 : Int) < 2 ^ 200 by norm_num)
  have hq0 : 0 ≤ q := by
    have : (0 : ℝ) ≤ q := hq ▸ mul_nonneg hz0.le (by positivity)
    exact_mod_cast this
  have h5 : (0 : ℝ) ≤ (q * q / 2 ^ 200 * q / 2 ^ 200 : Int) := by
    exact_mod_cast Int.ediv_nonneg (mul_nonneg (Int.ediv_nonneg (mul_nonneg hq0 hq0) (by positivity)) hq0) (by positivity)
  have hpoly : (polyFixed q : ℝ) / 2 ^ 200 = 315 - 105 * z + 42 * (((q * q / 2 ^ 200 : Int) : ℝ) / 2 ^ 200)
      - 17 * (((q * q / 2 ^ 200 * q / 2 ^ 200 : Int) : ℝ) / 2 ^ 200) := by
    rw [polyFixed, Int.cast_sub, Int.cast_add, Int.cast_sub, Int.cast_mul 105, Int.cast_mul 42, Int.cast_mul 17, hq]
    push_cast
    ring
  rw [hpoly]
  rw [Int.cast_mul] at h1 h2 h3 h4
  rw [Int.cast_pow, Int.cast_ofNat] at h1 h2 h3 h4
  generalize ((q * q / 2 ^ 200 * q / 2 ^ 200 : Int) : ℝ) = s2 at *
  generalize ((q * q / 2 ^ 200 : Int) : ℝ) = s1 at *
  rw [hq] at h1 h2 h3 h4
  have hu : (0 : ℝ) < 2 ^ 200 := by positivity
  have hs1 : s1 = s1 / 2 ^ 200 * 2 ^ 200 := (div_mul_cancel₀ _ hu.ne').symm
  have hs2 : s2 = s2 / 2 ^ 200 * 2 ^ 200 := (div_mul_cancel₀ _ hu.ne').symm
  have hr0 : 0 ≤ s2 / 2 ^ 200 := div_nonneg h5 hu.le
  generalize s1 / 2 ^ 200 = r1 at *
  generalize s2 / 2 ^ 200 = r2 at *
  rw [hs1] at h1 h2 h3 h4
  rw [hs2] at h3 h4
  have h1' : r1 ≤ z ^ 2 := by
    refine le_of_mul_le_mul_right (h1.trans_eq ?_) hu
    field_simp
  have h2' : z ^ 2 < r1 + 1 / 2 ^ 200 := by
    refine lt_of_mul_lt_mul_right (lt_of_eq_of_lt ?_ (h2.trans_eq ?_)) hu.le
    · field_simp
    · field_simp
  have h3' : r2 ≤ r1 * z := by
    refine le_of_mul_le_mul_right (h3.trans_eq ?_) hu
    field_simp
  have h4' : r1 * z < r2 + 1 / 2 ^ 200 := by
    refine lt_of_mul_lt_mul_right (lt_of_eq_of_lt ?_ (h4.trans_eq ?_)) hu.le
    · field_simp
    · field_simp
  have hz2 : z ^ 2 ≤ z := by
    rw [sq]
    exact mul_le_of_le_one_left hz0.le (hz1.trans (by norm_num))
  have h5' : r1 * z ≤ z ^ 3 := by
    rw [pow_succ]
    exact mul_le_mul_of_nonneg_right h1' hz0.le
  have h6' : z ^ 3 ≤ r1 * z + 1 / 2 ^ 200 := by
    have h7 : z ^ 3 ≤ (r1 + 1 / 2 ^ 200) * z := by
      rw [pow_succ]
      exact mul_le_mul_of_nonneg_right h2'.le hz0.le
    have h8 : (1 / 2 ^ 200 : ℝ) * z ≤ 1 / 2 ^ 200 := mul_le_of_le_one_right (by positivity) (hz1.trans (by norm_num))
    linarith
  rw [abs_le]
  refine ⟨⟨?_, ?_⟩, ?_⟩ <;> linarith

theorem tanhMag_of_small {m : Nat} {e : Int} (h : e + (bitLen m : Int) ≤ -12) :
    tanhMag m e = quot 80 (m * (polyFixed (scaleTo (-200) (m * m) (2 * e))).toNat) 315 (e - 200) := by
  rw [tanhMag, if_pos h]
  rfl

/-- TANH of a number below 2^−12 (R108). -/
theorem nearUlps_tanh_small {code m : Nat} {e : Int} (neg : Bool) (hm : m ≠ 0) (h24 : m < 2 ^ 24) (he : -100 ≤ e)
    (hn : e + (bitLen m : Int) ≤ -12) :
    NearUlps (approxUlp 7 code 2 neg (tanhMag m e).1 (tanhMag m e).2 52).1 (Real.tanh (ratOf (.fin neg m e))) 2 := by
  have hsmall : (m : ℚ) * 2 ^ e ≤ 2 ^ (-12 : Int) := (lt_two_zpow_bitLen m e).le.trans (two_zpow_le hn)
  have hpos : (0 : ℚ) < m * 2 ^ e := mul_pos (by exact_mod_cast Nat.pos_of_ne_zero hm) (two_zpow_pos e)
  have hsmallR : ((m * 2 ^ e : ℚ) : ℝ) ≤ 1 / 2 ^ 12 := by
    have := (Rat.cast_le (K := ℝ)).mpr hsmall
    rw [cast_two_zpow] at this
    exact this.trans (by norm_num)
  have hposR : (0 : ℝ) < ((m * 2 ^ e : ℚ) : ℝ) := by exact_mod_cast hpos
  have hq : ((scaleTo (-200) (m * m) (2 * e) : Int) : ℝ) = ((m * 2 ^ e : ℚ) : ℝ) ^ 2 * 2 ^ 200 := by
    have hscale := scaleTo_mul (-200) (m * m) (show -200 ≤ 2 * e by omega)
    have hsq : ((scaleTo (-200) (m * m) (2 * e) : Nat) : ℚ) = (m * 2 ^ e) ^ 2 * 2 ^ 200 := by
      rw [zpow_neg, ← div_eq_mul_inv, div_eq_iff (two_zpow_pos _).ne', two_mul, zpow_add₀ two_ne_zero] at hscale
      rw [two_mul, hscale]
      push_cast
      norm_num
      ring
    rw [Int.cast_natCast]
    exact_mod_cast congrArg (Rat.cast (K := ℝ)) hsq
  have hsqle : ((m * 2 ^ e : ℚ) : ℝ) ^ 2 ≤ 1 / 2 ^ 24 := (pow_le_pow_left₀ hposR.le hsmallR 2).trans (by norm_num)
  obtain ⟨hp, hplt⟩ := polyFixed_near hq (by positivity) hsqle
  rw [tanhMag_of_small hn]
  generalize polyFixed (scaleTo (-200) (m * m) (2 * e)) = p at *
  have hp0 : (314 : ℝ) ≤ p / 2 ^ 200 := by
    have h4 : (0 : ℝ) ≤ (((m * 2 ^ e : ℚ) : ℝ) ^ 2) ^ 2 := by positivity
    have h6 : (((m * 2 ^ e : ℚ) : ℝ) ^ 2) ^ 3 ≤ ((m * 2 ^ e : ℚ) : ℝ) ^ 2 :=
      pow_le_of_le_one (by positivity) (hsqle.trans (by norm_num)) (by norm_num)
    rw [abs_le] at hp
    linarith
  have hpint : 0 < p := by
    have : (0 : ℝ) < p / 2 ^ 200 := by linarith
    rw [div_pos_iff_of_pos_right (by positivity)] at this
    exact_mod_cast this
  obtain ⟨a, rfl⟩ := Int.eq_ofNat_of_zero_le hpint.le
  rw [Int.toNat_natCast]
  have ha : a ≠ 0 := by omega
  rw [Int.cast_natCast] at *
  have hQ : ((((m * a : Nat) : ℚ) * 2 ^ (e - 200) / (315 : Nat) : ℚ) : ℝ) = ((m * 2 ^ e : ℚ) : ℝ) * ((a : ℝ) / 2 ^ 200) / 315 := by
    rw [zpow_sub₀ two_ne_zero]
    push_cast
    norm_num
    ring
  have hQlt : (((m * a : Nat) : ℚ) * 2 ^ (e - 200) / (315 : Nat) : ℚ) < m * 2 ^ e := by
    have : ((((m * a : Nat) : ℚ) * 2 ^ (e - 200) / (315 : Nat) : ℚ) : ℝ) < ((m * 2 ^ e : ℚ) : ℝ) := by
      rw [hQ, div_lt_iff₀ (by norm_num)]
      exact mul_lt_mul_of_pos_left hplt hposR
    exact Rat.cast_lt.mp this
  refine nearUlps_of_quot (mul_ne_zero hm ha) (by norm_num) (hQlt.le.trans (hsmall.trans (by norm_num)))
    (fun L hL => two_zpow_le_tanh h24 hsmall (hL.trans_lt hQlt)) ?_
  rw [hQ]
  generalize ((m * 2 ^ e : ℚ) : ℝ) = x at *
  have htanh := abs_tanh_sub_poly_le hposR.le (hsmallR.trans (by norm_num))
  have hpolyeq : tanhPoly x = x * (315 - 105 * x ^ 2 + 42 * (x ^ 2) ^ 2 - 17 * (x ^ 2) ^ 3) / 315 := by
    rw [tanhPoly]
    ring
  have hpow : x ^ 9 ≤ x / 2 ^ 96 := by
    rw [show x ^ 9 = x * (x ^ 2) ^ 4 by ring, div_eq_mul_one_div]
    exact mul_le_mul_of_nonneg_left ((pow_le_pow_left₀ (by positivity) hsqle 4).trans (by norm_num)) hposR.le
  have hmul : |x * ((a : ℝ) / 2 ^ 200 - (315 - 105 * x ^ 2 + 42 * (x ^ 2) ^ 2 - 17 * (x ^ 2) ^ 3))| ≤ x * (1 / 2 ^ 190) := by
    rw [abs_mul, abs_of_pos hposR]
    exact mul_le_mul_of_nonneg_left hp hposR.le
  have hlower : x * 314 ≤ x * ((a : ℝ) / 2 ^ 200) := mul_le_mul_of_nonneg_left hp0 hposR.le
  rw [hpolyeq] at htanh
  generalize (a : ℝ) / 2 ^ 200 = r at *
  generalize 315 - 105 * x ^ 2 + 42 * (x ^ 2) ^ 2 - 17 * (x ^ 2) ^ 3 = s at *
  rw [abs_le] at *
  constructor <;> linarith

/-! ### The exponential form -/

theorem tanhMag_of_large {m : Nat} {e : Int} (h : ¬ e + (bitLen m : Int) ≤ -12) :
    tanhMag m e = quot 80 (expSeries (floorOf false m (e + 161)).toNat 120 0 (2 ^ 160) (2 ^ 160) - 2 ^ 160)
      (expSeries (floorOf false m (e + 161)).toNat 120 0 (2 ^ 160) (2 ^ 160) + 2 ^ 160) 0 := by
  rw [tanhMag, if_neg h]

/-- TANH of a number from 2^−12 and below 9.5 (R108). -/
theorem nearUlps_tanh_middle {code m : Nat} {e : Int} (neg : Bool) (hm : m ≠ 0) (he : -149 ≤ e)
    (hn : ¬ e + (bitLen m : Int) ≤ -12) (hlt : (m : ℚ) * 2 ^ e ≤ 19 / 2) :
    NearUlps (approxUlp 7 code 2 neg (tanhMag m e).1 (tanhMag m e).2 52).1 (Real.tanh (ratOf (.fin neg m e))) 2 := by
  have hpos : (0 : ℚ) < m * 2 ^ e := mul_pos (by exact_mod_cast Nat.pos_of_ne_zero hm) (two_zpow_pos e)
  have hlow : (2 : ℚ) ^ (-12 : Int) ≤ m * 2 ^ e := by
    have := (Int.zpow_le_iff_le_log one_lt_two hpos).mpr (show -12 ≤ _ by rw [log_eq_bitLen hm]; omega)
    rwa [Nat.cast_ofNat] at this
  have hlowR : (1 / 2 ^ 12 : ℝ) ≤ ((m * 2 ^ e : ℚ) : ℝ) := by
    have := (Rat.cast_le (K := ℝ)).mpr hlow
    rw [cast_two_zpow] at this
    exact le_trans (by norm_num) this
  have hltR : ((m * 2 ^ e : ℚ) : ℝ) ≤ 19 / 2 := by
    have := (Rat.cast_le (K := ℝ)).mpr hlt
    push_cast at this ⊢
    exact this
  have hfloor := floorOf_add false m 161 (show 0 ≤ e + ((161 : Nat) : Int) by push_cast; omega)
  rw [tanhMag_of_large hn]
  rw [ratOf_fin, if_neg Bool.false_ne_true, one_mul] at hfloor
  have hy : ((floorOf false m (e + 161)).toNat : ℝ) = 2 * ((m * 2 ^ e : ℚ) : ℝ) * 2 ^ 160 := by
    have hint : ((floorOf false m (e + 161)) : ℝ) = ((m * 2 ^ e : ℚ) : ℝ) * 2 ^ 161 := by
      exact_mod_cast congrArg (Rat.cast (K := ℝ)) hfloor
    have hnonneg : 0 ≤ floorOf false m (e + 161) := by
      have : (0 : ℝ) ≤ floorOf false m (e + 161) := by rw [hint]; positivity
      exact_mod_cast this
    rw [show ((floorOf false m (e + 161)).toNat : ℝ) = ((floorOf false m (e + 161) : Int) : ℝ) by
      exact_mod_cast congrArg (Int.cast (R := ℝ)) (Int.toNat_of_nonneg hnonneg), hint]
    ring
  obtain ⟨h1, h2⟩ := expSeries_near hy (by positivity) (by linarith)
  generalize expSeries (floorOf false m (e + 161)).toNat 120 0 (2 ^ 160) (2 ^ 160) = E at *
  have hexp : 1 + 2 * ((m * 2 ^ e : ℚ) : ℝ) ≤ Real.exp (2 * ((m * 2 ^ e : ℚ) : ℝ)) := by
    rw [add_comm]
    exact Real.add_one_le_exp _
  have hE1 : (1 + 1 / 2 ^ 12 : ℝ) ≤ (E : ℝ) / 2 ^ 160 := by linarith
  have hE : 2 ^ 160 < E := by
    have : (1 : ℝ) < (E : ℝ) / 2 ^ 160 := by linarith
    rw [one_lt_div (by positivity)] at this
    exact_mod_cast this
  obtain ⟨hlow2, hup2⟩ := tanh_near_of_exp_near (a := (E : ℝ) / 2 ^ 160) (by linarith) h1 h2
  have hQ : ((((E - 2 ^ 160 : Nat) : ℚ) * 2 ^ (0 : Int) / ((E + 2 ^ 160 : Nat) : ℚ) : ℚ) : ℝ)
      = ((E : ℝ) / 2 ^ 160 - 1) / ((E : ℝ) / 2 ^ 160 + 1) := by
    rw [div_sub_one (by positivity), div_add_one (by positivity), div_div_div_cancel_right₀ (by positivity), Nat.cast_sub hE.le,
      zpow_zero, mul_one]
    push_cast
    norm_num
  refine nearUlps_of_quot (by omega) (by positivity) ?_ (fun L hL => ?_) ?_
  · rw [zpow_zero, mul_one]
    exact div_le_one_of_le₀ (by exact_mod_cast (by omega : E - 2 ^ 160 ≤ E + 2 ^ 160)) (Nat.cast_nonneg _)
  · have := (Rat.cast_le (K := ℝ)).mpr hL
    rw [cast_two_zpow, hQ] at this
    exact this.trans hlow2
  · rw [hQ]
    generalize (E : ℝ) / 2 ^ 160 = w at *
    have hlower : 1 / 2 ^ 14 ≤ (w - 1) / (w + 1) := by
      rw [le_div_iff₀ (by linarith)]
      linarith
    generalize (w - 1) / (w + 1) = Q at *
    rw [abs_le]
    constructor <;> linarith

/-! ### TANH -/

theorem tanhOf_of_lt {c m : Nat} {neg : Bool} {e : Int} (hv : fDecode .f32 c = .fin neg m e) (hm : m ≠ 0) (hx : (m : ℚ) * 2 ^ e < 19 / 2) :
    tanhOf c = if e + (bitLen m : Int) ≤ -36 then
        approxUlp 7 c 2 neg (lessUnit m e (3 * (e + (bitLen m : Int)) - 2)) (3 * (e + (bitLen m : Int)) - 2)
          (ulpExp (lessUnit m e (3 * (e + (bitLen m : Int)) - 2)) (3 * (e + (bitLen m : Int)) - 2) - (3 * (e + (bitLen m : Int)) - 2)).toNat
      else approxUlp 7 c 2 neg (tanhMag m e).1 (tanhMag m e).2 52 := by
  have hcmp : fvCmp (.fin false m e) (.fin false 19 (-1)) < 0 := by
    rw [(fvCmp_fin false false m 19 e (-1)).1, ratOf_fin, ratOf_fin]
    norm_num at hx ⊢
    exact hx
  simp only [tanhOf, hv, hm, if_false, ge_iff_le, not_le.mpr hcmp]

/-- ±1 is within 2 ulp of the hyperbolic tangent of every number from 9.5 on (R108). -/
theorem nearUlps_one {m : Nat} {e : Int} {neg : Bool} (h : 19 / 2 ≤ (m : ℚ) * 2 ^ e) :
    NearUlps (withSign .f32 neg 0x3F800000) (Real.tanh (ratOf (.fin neg m e))) 2 := by
  have hone : fDecode .f32 (withSign .f32 neg 0x3F800000) = .fin neg (2 ^ 23) (-23) := by cases neg <;> decide
  have hR : (19 / 2 : ℝ) ≤ ((m * 2 ^ e : ℚ) : ℝ) := by
    have := (Rat.cast_le (K := ℝ)).mpr h
    push_cast at this ⊢
    exact this
  obtain ⟨h1, h2⟩ := tanh_of_large hR
  have habs : |Real.tanh (ratOf (.fin neg m e))| = Real.tanh ((m * 2 ^ e : ℚ) : ℝ) := by
    rw [abs_tanh_ratOf, abs_of_pos (by linarith)]
  have hlog : -1 ≤ Int.log 2 |Real.tanh (ratOf (.fin neg m e))| := by
    rw [habs]
    refine (Int.zpow_le_iff_le_log one_lt_two (by linarith)).mp ?_
    rw [show ((2 : Nat) : ℝ) ^ (-1 : Int) = 1 / 2 by norm_num]
    linarith
  refine ⟨hone ▸ rfl, ?_⟩
  rw [hone, abs_sub_odd Real.tanh_neg]
  have hunit : (2 : ℝ) ^ (-24 : Int) ≤ 2 ^ max (Int.log 2 |Real.tanh (ratOf (.fin neg m e))| - 23) (-149) :=
    zpow_le_zpow_right₀ one_le_two (by omega)
  refine le_trans ?_ (mul_le_mul_of_nonneg_left hunit two_pos.le)
  rw [show (((2 ^ 23 : Nat) * 2 ^ (-23 : Int) : ℚ) : ℝ) = 1 by norm_num, show (2 : ℝ) * 2 ^ (-24 : Int) = 1 / 2 ^ 23 by norm_num, abs_le]
  constructor <;> linarith

/-- TANH lies within 2 ulp (R108). -/
theorem nearUlps_tanh {c : Nat} (hnum : isNum (fDecode .f32 c) = true) : NearUlps (tanhOf c).1 (Real.tanh (ratOf (fDecode .f32 c) : ℝ)) 2 := by
  cases hv : fDecode .f32 c with
  | nan s | inf s => rw [hv] at hnum; exact absurd hnum (by simp [isNum])
  | fin neg m e =>
    obtain ⟨h24, he, he', hnormal⟩ := f32_fin hv
    by_cases hm : m = 0
    · subst hm
      obtain ⟨-, -, -, -, -, htanh⟩ := special_zero hv
      have hz : fDecode .f32 (withSign .f32 neg 0) = .fin neg 0 (-149) := by cases neg <;> decide
      rw [htanh, (ratOf_fin_eq_zero_iff neg 0 e).mpr rfl, Rat.cast_zero, Real.tanh_zero]
      refine ⟨hz ▸ rfl, ?_⟩
      rw [hz, (ratOf_fin_eq_zero_iff neg 0 _).mpr rfl, Rat.cast_zero, sub_zero, abs_zero]
      exact (mul_pos two_pos (zpow_pos two_pos _)).le
    · rcases le_or_gt (19 / 2) ((m : ℚ) * 2 ^ e) with hlarge | hlt
      · have habs : 19 / 2 ≤ |ratOf (fDecode .f32 c)| := by rwa [hv, abs_ratOf_fin]
        have hsign : decide (ratOf (fDecode .f32 c) < 0) = neg := by rw [hv, Bool.eq_iff_iff, decide_eq_true_iff, ratOf_fin_neg_iff hm]
        rw [tanhOf_of_large hnum habs, hsign]
        exact nearUlps_one hlarge
      · rw [tanhOf_of_lt hv hm hlt]
        split_ifs with htiny
        · exact nearUlps_tanh_tiny neg hm h24 rfl htiny (two_mul_exp_le h24 hnormal (by omega)) rfl
        · by_cases hsmall : e + (bitLen m : Int) ≤ -12
          · have hb : bitLen m ≤ 24 := Integer.bitLen_le h24
            exact nearUlps_tanh_small neg hm h24 (by omega) hsmall
          · exact nearUlps_tanh_middle neg hm he hsmall hlt.le

/-- Settles O60: each function's approximation is near the real function, in the function's binade, and a result near the
approximation is within the bound. -/
theorem functionBounds : Obligations.FunctionBounds := by
  intro c _ hnum x
  refine ⟨fun hx => ?_, nearUlps_tanh hnum, nearFixed_trig hnum⟩
  have hpos : 0 < ratOf (fDecode .f32 c) := Rat.cast_pos.mp hx
  exact ⟨Rsq.nearUlps_rsq hnum hpos, Log2.nearUlps_log2 hnum hpos⟩

end Sys2Proof.Proofs.Tanh
end

section
/-! PROOFS. Loads, reads of full words, words that queue their accesses, and atomics with a destination (R134, R135, R144,
R147–R152, R154): each claim is a memory word's general law with the word's own access and values. -/

namespace Sys2Proof.Proofs.MemoryWords

open Machine Claims Laws

/-- Settles O32: each word is a memory word that reads. -/
theorem loadWords : Obligations.LoadWords := by
  intro h t b x scale
  have hsz (sz : Sz) : szBytes sz = 1 ∨ szBytes sz = 2 ∨ szBytes sz = 4 ∨ szBytes sz = 8 := by cases sz <;> decide
  exact ⟨fun sz disp => ⟨loads_spec rfl (hsz sz) fun _ => rfl, loads_spec rfl (hsz sz) fun _ => rfl⟩,
    readsFull_spec rfl fun _ => rfl⟩

/-! ### Words that queue accesses (R135, R144, R147, R154) -/

/-- An atomic whose destination is z joins the pending accesses at its first piece. -/
theorem queues_rmw {i : Instr} {h : Hd} {w : MemWord} {op : Nat} (hop : w.op = .rmw op) (ht : w.t = .z)
    (hi : ∀ s, exec i s = memWord s h w) : Queues i h w fun s g sp => oneAcc s g sp w fun v y => .rmw op v y := by
  refine queues_spec (by simp [MemWord.dst, ht]) hi fun s st pl g gt sp P k _ hnp hchk => ?_
  have hpoison : isPoisoned st ((P k).headD (0, 0)).1 = false := by
    cases hP : P k with
    | nil => exact absurd (hP ▸ hchk) checkAcc_nonempty
    | cons p r => exact hnp p (by simp [hP])
  simp only [performMem, hop, ht, hpoison, oneAcc, Bool.false_eq_true, if_true, if_false]

/-- Settles O33: stores and FWR, FCLR and atomics without a destination only add to the group's pending accesses. -/
theorem storeWords : Obligations.StoreWords := by
  intro h t b x scale
  refine ⟨fun sz disp => ?_, ?_, ?_, fun wide => ?_⟩
  case refine_4 =>
    refine ⟨?_, ?_, ?_, ?_, ?_, ?_, ?_, ?_, ?_, ?_, ?_, ?_⟩ <;> exact queues_rmw rfl rfl fun _ => rfl
  all_goals exact queues_spec rfl (fun _ => rfl) fun _ _ _ _ _ _ _ _ _ _ _ => rfl

/-! ### Atomics with a destination (R148–R152) -/

theorem intOf_eq_toInt {n : Nat} (hn : 0 < n) (y : Nat) : intOf (8 * n) true y = (BitVec.ofNat (8 * n) y).toInt := by
  have hpos : 0 < 8 * n := by omega
  have hmod : intOf (8 * n) true y = intOf (8 * n) true (BitVec.ofNat (8 * n) y).toNat := by
    simp [intOf]
  rw [hmod, Integer.intOf_toNat hpos]
  rfl

theorem atomicOld_eq_receives {op n : Nat} (hn : n = 4 ∨ n = 8) (old : Nat) (v : Word) :
    atomicOld op n old v.toNat = receives op n old v := by
  have hext : BitVec.ofNat 64 (intBits 64 (intOf (8 * n) true old)) = extended true n old :=
    extendLoad_eq true n old (by omega)
  unfold receives
  split
  · exact hext
  · exact hext
  · rfl
  · next h5 h6 h11 => rw [atomicOld, if_neg (not_or.mpr ⟨h5, h6⟩), if_neg h11]

/-- What the rule stores is the model's new value, where the model writes memory. -/
theorem newValue_eq_atomicNew {op n : Nat} (hn : 0 < n) (old : Nat) (v y : Word) :
    newValue op n old v y =
      let r := atomicNew op n old v.toNat y.toNat
      if r.2 then some r.1 else none := by
  have hmod (z : Nat) : intOf (8 * n) true (z % 2 ^ (8 * n)) = intOf (8 * n) true z := by rw [intOf, Nat.mod_mod]; rfl
  unfold newValue
  split
  case h_6 | h_7 => simp only [← intOf_eq_toInt hn, hmod]; rfl
  case h_8 => by_cases heq : old = v.toNat % 2 ^ (8 * n) <;> simp [atomicNew, heq]
  case h_11 => simp only [← Floats.sumTo_eq_sumOf]; rfl
  case h_12 => simp only [atomicNew]; split <;> rfl
  all_goals simp [atomicNew]

theorem atomicWord_size {i : Instr} {h : Hd} {w : MemWord} {op : Nat} (hi : memWordOf i = some (h, w)) (hop : w.op = .rmw op) :
    w.n = 4 ∨ w.n = 8 := by
  unfold memWordOf at hi
  split at hi <;> cases hi <;> simp [memWordOf.int] at hop ⊢

/-- An instruction that is a memory word has the meaning of that word. -/
theorem exec_memWordOf {i : Instr} {h : Hd} {w : MemWord} (hi : memWordOf i = some (h, w)) (s : State) :
    exec i s = memWord s h w := by
  unfold memWordOf at hi
  split at hi <;> cases hi <;> rfl

/-- Settles O34: the model's new value and what it hands to the thread are those of the rules. -/
theorem atomicWords : Obligations.AtomicWords := by
  intro i h w op hi hop
  have hn := atomicWord_size hi hop
  refine atomics_spec hop (exec_memWordOf hi) (fun m loc v _ => atomicOld_eq_receives hn _ v) fun m loc v y => ?_
  dsimp only
  rw [newValue_eq_atomicNew (by omega)]
  by_cases hw : (atomicNew op w.n (bytesAt m loc w.n) v.toNat y.toNat).2 = true
  · simp only [hw, if_true]; exact ⟨trivial, trivial⟩
  · simp [hw]

end Sys2Proof.Proofs.MemoryWords
end

section
/-! PROOFS. Memory keeps its canonical form: what each operation of the machine does to the bytes of memory. -/

namespace Sys2Proof.Proofs.MemoryForm

open Machine Claims Laws

variable {s : State}

/-! ### Folds -/

@[simp] theorem foldl_mem {β : Type} {op : State → β → State} (h : ∀ s x, (op s x).mem = s.mem) (l : List β) (s : State) :
    (l.foldl op s).mem = s.mem := foldl_eq (f := (·.mem)) op h l s

theorem foldl_mem_of_eq {β : Type} {op : State → β → State} (h : ∀ s x t, op s x = t → t.mem = s.mem) (l : List β) (s : State) :
    (l.foldl op s).mem = s.mem := foldl_mem (fun s x => h s x _ rfl) l s

/-! ### Cores and dies as parts of the state -/

@[simp] theorem setDie_mem (s : State) (d : Nat) (x : Die) : (setDie s d x).mem = s.mem := rfl

/-! ### Which team a dispatcher takes next (R338) -/

@[simp] theorem serveHeld_mem (s : State) (q : StreamId) : (serveHeld s q).mem = s.mem := rfl

/-! ### Token budgets (R334–R336) -/

@[simp] theorem setBudgets_mem (s : State) (r : Nat) (t : Tab Budget) : (setBudgets s r t).mem = s.mem := rfl

@[simp] theorem chargeAll_mem (s : State) (r : Nat) (n : Nat → Nat) : (chargeAll s r n).mem = s.mem := rfl

@[simp] theorem charge_mem (s : State) (p r n : Nat) : (charge s p r n).mem = s.mem := by
  unfold charge
  split <;> simp

/-! ### The clock, the end of a word, traps (R24–R28, R347) -/

@[simp] theorem advance_mem (s : State) (n : Nat) (who : Option Place) : (advance s n who).mem = s.mem := rfl

@[simp] theorem restartStarve_mem (s : State) (p : Nat) : (restartStarve s p).mem = s.mem := by
  unfold restartStarve
  split <;> simp

@[simp] theorem release_mem (s : State) (pl : Place) : (release s pl).mem = s.mem := rfl

@[simp] theorem waitAt_mem (s : State) (pl : Place) (g : Group) (sp : Split) (w : Wait) : (waitAt s pl g sp w).mem = s.mem := rfl

@[simp] theorem squashTenders_mem (s : State) (c slot : Nat) : (squashTenders s c slot).mem = s.mem := rfl

@[simp] theorem stopGroup_mem (s : State) (c slot : Nat) (r : TrapRec) : (stopGroup s c slot r).mem = s.mem := by
  unfold stopGroup
  dsimp only
  (repeat' split) <;> simp

@[simp] theorem trapWith_mem (s : State) (pl : Place) (cause : BitVec 8) (kind : BitVec 2) (code : BitVec 14) (addr : Word) :
    (trapWith s pl cause kind code addr).mem = s.mem := by
  unfold trapWith
  (repeat' split) <;> simp

@[simp] theorem trapAddr_mem (s : State) (pl : Place) (c : Cause) (a : Word) :
    (trapAddr s pl c a).mem = s.mem := by simp [trapAddr]

@[simp] theorem trap_mem (s : State) (pl : Place) (c : Cause) : (trap s pl c).mem = s.mem := by simp [trap]

@[simp] theorem afterWord_mem (s : State) (pl : Place) (bundleDone : Bool) : (afterWord s pl bundleDone).mem = s.mem := by
  unfold afterWord
  (repeat' split) <;> simp

@[simp] theorem finish_mem (s : State) (pl : Place) (g : Group) (sp : Split) (h : Hd) (occ : Nat) :
    (finish s pl g sp h occ).mem = s.mem := by
  unfold finish
  (repeat' split) <;> simp

@[simp] theorem waitIssued_mem (s : State) (pl : Place) (g : Group) (sp : Split) (occ : Nat) (w : Wait) :
    (waitIssued s pl g sp occ w).mem = s.mem := by
  unfold waitIssued
  split <;> simp

@[simp] theorem finishAt_mem (s : State) (pl : Place) (g : Group) (sp : Split) (occ : Nat) (pc : Word) :
    (finishAt s pl g sp occ pc).mem = s.mem := by simp [finishAt]

/-! ### The performance of one access (R164–R166) -/

@[simp] theorem noteWalk_mem (s : State) (c part : Nat) (va : Word) : (noteWalk s c part va).mem = s.mem := by
  unfold noteWalk
  dsimp only
  (repeat' split) <;> simp

@[simp] theorem setRows_mem (s : State) (loc n : Nat) (f : Nat × Nat → Nat × Nat) : (setRows s loc n f).mem = s.mem :=
  stable_mem.setRows s loc n f

@[simp] theorem refreshL1_mem (s : State) (c loc w ts : Nat) : (refreshL1 s c loc w ts).mem = s.mem := by
  unfold refreshL1
  dsimp only
  (repeat' split) <;> simp

@[simp] theorem stampStore_mem (s : State) (c loc n : Nat) : (stampStore s c loc n).mem = s.mem := stable_mem.stampStore s c loc n

@[simp] theorem stampFailed_mem (s : State) (c loc : Nat) : (stampFailed s c loc).mem = s.mem := by simp [stampFailed]

@[simp] theorem leaveRoom_mem (s : State) (c slot split : Nat) : (leaveRoom s c slot split).mem = s.mem := by
  unfold leaveRoom
  dsimp only
  (repeat' split) <;> simp

@[simp] theorem retryRoom_mem (s : State) (c : Nat) : (retryRoom s c).mem = s.mem := by simp [retryRoom]

@[simp] theorem wakeOne_mem (s : State) (c : Nat) (w : Waiter) : (wakeOne s c w).mem = s.mem := stable_mem.wakeOne s c w

@[simp] theorem wakeAll_mem (s : State) (p : Waiter → Bool) : (wakeAll s p).mem = s.mem := stable_mem.wakeAll s p

@[simp] theorem wakeWaitm_mem (s : State) (loc n : Nat) : (wakeWaitm s loc n).mem = s.mem := wakeAll_mem s _

@[simp] theorem wakeFuture_mem (s : State) (loc : Nat) : (wakeFuture s loc).mem = s.mem := wakeAll_mem s _

@[simp] theorem wf_storeAt (c loc n x : Nat) (h : Memory.wf s.mem) : Memory.wf (storeAt s c loc n x).mem := memory_wf_storeAt c loc n x h

@[simp] theorem wf_performPend (c : Nat) (a : PendAcc) (h : Memory.wf s.mem) : Memory.wf (performPend s c a).mem :=
  memory_wf_performPend c a h

@[simp] theorem wakeSplits_mem (s : State) (c slot : Nat) (p : Wait → Bool) : (wakeSplits s c slot p).mem = s.mem := by
  unfold wakeSplits
  split <;> simp

@[simp] theorem postRecord_mem (s : State) (c : Nat) : (postRecord s c).mem = s.mem := by
  unfold postRecord
  dsimp only
  (repeat' split) <;> simp

@[simp] theorem wakeCore_mem (s : State) (c : Nat) (p : Wait → Bool) : (wakeCore s c p).mem = s.mem := by simp [wakeCore]

@[simp] theorem wf_drainPend (c slot : Nat) (h : Memory.wf s.mem) : Memory.wf (drainPend s c slot).mem := memory_wf_drainPend c slot h

@[simp] theorem wf_settlePend (c slot : Nat) (h : Memory.wf s.mem) : Memory.wf (settlePend s c slot).mem := by
  unfold settlePend
  (repeat' split) <;> simp [h]

/-! ### Endpoint windows and queues (R157–R160, R303–R309) -/

@[simp] theorem setQueue_mem (s : State) (q : Nat) (x : Queue) : (setQueue s q x).mem = s.mem := rfl

@[simp] theorem wakeWindow_mem (s : State) (base : Nat) : (wakeWindow s base).mem = s.mem := wakeAll_mem s _

@[simp] theorem enqueue_mem (s : State) (q : Nat) (x : Word) (close : Bool) : (enqueue s q x close).mem = s.mem := by
  unfold enqueue
  dsimp only
  split <;> simp

@[simp] theorem enqueuePacket_mem (s : State) (q : Nat) (p : Packet) : (enqueuePacket s q p).mem = s.mem := by simp [enqueuePacket]

@[simp] theorem setPort_mem (s : State) (p : Nat) (x : Port) : (setPort s p x).mem = s.mem := rfl

@[simp] theorem pumpLane_mem (s : State) (p vl n : Nat) : (pumpLane s p vl n).mem = s.mem := by
  induction n generalizing s with
  | zero => rfl
  | succ n ih =>
    unfold pumpLane
    (repeat' split) <;> simp [ih]

@[simp] theorem pump_mem (s : State) : (pump s).mem = s.mem := by simp [pump]

theorem dequeue_mem {t : State} {q : Nat} {x : Word} (e : dequeue s q = some (x, t)) : t.mem = s.mem := by
  unfold dequeue at e
  dsimp only at e
  (repeat' split at e) <;> cases e <;> simp

@[simp] theorem stampWindow_mem (s : State) (c pa : Nat) : (stampWindow s c pa).mem = s.mem := stampStore_mem s c _ 8

theorem storeThedel_mem {t : State} {c slot pa port vl : Nat} {ea x y : Word} (e : storeThedel s c slot pa port vl ea x = .done y t) :
    t.mem = s.mem := by
  unfold storeThedel at e
  dsimp only at e
  (repeat' split at e) <;> cases e <;> simp

theorem putWindow_mem {t : State} {c slot pa : Nat} {ea x y : Word} (e : putWindow s c slot pa ea x = .done y t) : t.mem = s.mem := by
  unfold putWindow at e
  (repeat' split at e)
  case h_2 => exact storeThedel_mem e
  all_goals cases e <;> simp

theorem storeWindow_mem {t : State} {c slot pa : Nat} {ea x y : Word} (e : storeWindow s c slot pa ea x = .done y t) : t.mem = s.mem := by
  unfold storeWindow at e
  (repeat' split at e)
  case isFalse.isFalse => exact putWindow_mem e
  all_goals cases e

theorem loadWindow_mem {t : State} {c pa : Nat} {x : Word} (e : loadWindow s c pa = .done x t) : t.mem = s.mem := by
  unfold loadWindow at e
  (repeat' split at e) <;> cases e
  · simp
  · next hd => simpa using dequeue_mem hd

/-! ### Accesses that no group makes, and the record area (R324, R355, R378) -/

@[simp] theorem agentStamp_mem (s : State) (a : Agent) (loc n : Nat) : (agentStamp s a loc n).mem = s.mem := Laws.agentStamp_mem s a loc n

@[simp] theorem wf_agentStore (a : Agent) (loc n x : Nat) (h : Memory.wf s.mem) : Memory.wf (agentStore s a loc n x).mem :=
  memory_wf_agentStore a loc n x h

@[simp] theorem setAgentTime_mem (s : State) (t : Nat) (a : Agent) : (setAgentTime s t a).mem = s.mem := by cases a <;> rfl

@[simp] theorem agentLoad_mem (s : State) (a : Agent) (part loc n : Nat) : (agentLoad s a part loc n).2.mem = s.mem := by
  simp [agentLoad]

theorem vaRead_mem {t : State} {a : Agent} {part n x : Nat} {va : Word} (e : vaRead s a part va n = .ok x t) : t.mem = s.mem := by
  unfold vaRead at e
  dsimp only at e
  (repeat' split at e) <;> cases e
  simp

theorem vaReadWords_mem {t : State} {a : Agent} {part n : Nat} {va : Word} {ws : List Word}
    (e : vaReadWords s a part va n = some (.ok (ws, t))) : t.mem = s.mem := by
  induction n generalizing s t va ws with
  | zero => cases e; rfl
  | succ n ih =>
    unfold vaReadWords at e
    (repeat' split at e)
    · cases e
    · cases e
    · next hr _ _ _ hrest => cases e; exact (ih hrest).trans (vaRead_mem hr)
    · next hne => exact absurd e (hne _ _)

theorem wf_vaWrite {t : State} {a : Agent} {part n x : Nat} {va : Word} (e : vaWrite s a part va n x = .ok t) (h : Memory.wf s.mem) :
    Memory.wf t.mem := by
  unfold vaWrite at e
  split at e <;> cases e
  simp [h]

theorem wf_vaWriteBytes {t : State} {a : Agent} {part n : Nat} {va : Word} {bs : List Byte}
    (e : vaWriteBytes s a part va bs n = .ok t) (h : Memory.wf s.mem) : Memory.wf t.mem := by
  induction n generalizing s va bs with
  | zero => cases e; exact h
  | succ n ih =>
    unfold vaWriteBytes at e
    dsimp only at e
    (repeat' split at e)
    · cases e; exact h
    · next hw => exact ih e (wf_vaWrite hw h)
    · next hne => exact absurd e (hne t)

theorem wf_addDone {t : State} {a : Agent} {part n : Nat} {va : Word} (e : addDone s a part va n = .ok t) (h : Memory.wf s.mem) :
    Memory.wf t.mem := by
  induction n generalizing s with
  | zero => cases e; exact h
  | succ n ih =>
    unfold addDone at e
    split at e
    · exact ih e (by simp [h])
    all_goals cases e

theorem wf_recPerform {t : State} {a : Agent} {l : Launch} {op : RecOp} (e : recPerform s a l op = .ok t) (h : Memory.wf s.mem) :
    Memory.wf t.mem := by
  cases op with
  | put off bs => exact wf_vaWriteBytes e h
  | append bs =>
    simp only [recPerform] at e
    (repeat' split at e)
    · next hb => exact wf_vaWrite e (wf_vaWriteBytes hb h)
    · next hne => exact absurd e (hne t)
    · exact wf_vaWrite e h
  | done n => exact wf_addDone e h
  | preempt next => exact wf_vaWrite e h

theorem wf_recTry {t : State} {a : Agent} {l : Launch} {op : RecOp} (e : recTry s a l op = .ok t) (h : Memory.wf s.mem) :
    Memory.wf t.mem := by
  unfold recTry at e
  (repeat' split at e) <;> cases e
  next hp => exact wf_recPerform hp h

@[simp] theorem recQueue_mem (s : State) (n : Nat) (op : RecOp) : (recQueue s n op).mem = s.mem := by
  unfold recQueue
  split <;> simp

@[simp] theorem wf_recWrite (a : Agent) (n : Nat) (op : RecOp) (h : Memory.wf s.mem) : Memory.wf (recWrite s a n op).mem := by
  unfold recWrite
  split
  · exact h
  · split
    · simp [h]
    · split
      · next e => exact wf_recTry e h
      all_goals simp [h]

@[simp] theorem wf_recFlush (a : Agent) (n : Nat) (ops : List RecOp) (h : Memory.wf s.mem) : Memory.wf (recFlush s a n ops).mem := by
  induction ops generalizing s with
  | nil => unfold recFlush; split <;> simp [h]
  | cons op r ih =>
    unfold recFlush
    (repeat' split)
    · exact h
    · next e => exact ih (wf_recTry e h)
    · simp [h]
    · exact ih (by simp [h])

/-! ### The fetch of a bundle (R20–R27, R215) -/

@[simp] theorem parkFault_mem (s : State) (pl : Place) (g : Group) (sp : Split) (va : Word) (k : AccKind) :
    (parkFault s pl g sp va k).mem = s.mem := by
  unfold parkFault
  split <;> simp

/-! ### Words of memory (R134–R160) -/

@[simp] theorem addPend_mem (s : State) (c slot : Nat) (as : List PendAcc) : (addPend s c slot as).mem = s.mem := by
  unfold addPend
  split <;> simp

@[simp] theorem noteWalks_mem (s : State) (c part : Nat) (as : List ThreadAcc) : (noteWalks s c part as).mem = s.mem := by simp [noteWalks]

/-! ### Fences, barriers and the event queue (R176–R186) -/

@[simp] theorem freshTime_mem (s : State) (c : Nat) : (freshTime s c).mem = s.mem := rfl

@[simp] theorem dropHostLines_mem (s : State) (part : Nat) : (dropHostLines s part).mem = s.mem := rfl

@[simp] theorem fenceEng_mem (s : State) (pl : Place) (g : Group) (sp : Split) (h : Hd) : (fenceEng s pl g sp h).mem = s.mem := by
  unfold fenceEng
  dsimp only
  (repeat' split) <;> simp

@[simp] theorem fenceTail_mem (s : State) (pl : Place) (g : Group) (sp : Split) (h : Hd) (sc : Scope) :
    (fenceTail s pl g sp h sc).mem = s.mem := by
  unfold fenceTail
  dsimp only
  (repeat' split) <;> simp

@[simp] theorem setBar_mem (s : State) (k : BarKey) (b : Barrier) : (setBar s k b).mem = s.mem := rfl

@[simp] theorem giveRedl_mem (op : RedOp) (ty : RTy) (as : List Arrival) (s : State) (a : Arrival) :
    (giveRedl op ty as s a).mem = s.mem := rfl

@[simp] theorem raiseTime_mem (top : Nat) (s : State) (a : Arrival) : (raiseTime top s a).mem = s.mem := by
  unfold raiseTime
  dsimp only
  (repeat' split) <;> simp

@[simp] theorem completeBar_mem (s : State) (k : BarKey) : (completeBar s k).mem = s.mem := by
  unfold completeBar
  dsimp only
  split
  · simpa using foldl_mem (fun s a => giveRedl_mem _ _ _ s a) _ s
  · simp

@[simp] theorem exitBars_mem (s : State) (c launch team : Nat) : (exitBars s c launch team).mem = s.mem := by
  refine foldl_mem (fun s p => ?_) _ s
  dsimp only
  split <;> simp

@[simp] theorem passOthers_mem (s : State) (pl : Place) : (passOthers s pl).mem = s.mem := by
  unfold passOthers
  split <;> simp

@[simp] theorem holdPhase_mem (s : State) (pl : Place) : (holdPhase s pl).mem = s.mem := by
  unfold holdPhase
  (repeat' split) <;> simp

@[simp] theorem wf_barwTail (pl : Place) (g : Group) (sp : Split) (occ : Nat) (k : BarKey) (fin : Group → State) (h : Memory.wf s.mem)
    (hfin : ∀ g, Memory.wf (fin g).mem) : Memory.wf (barwTail s pl g sp occ k fin).mem := by
  unfold barwTail
  (repeat' split) <;> simp [h, hfin]

@[simp] theorem finBar_mem (s : State) (pl : Place) (sp : Split) (h : Hd) (k : BarKey) (g : Group) :
    (finBar s pl sp h k g).mem = s.mem := by
  unfold finBar
  dsimp only
  (repeat' split) <;> simp

theorem arriveBar_mem {t : State} {pl : Place} {g : Group} {k : BarKey} {what : Option BarWhat} {n : Nat} {vals : Tab Word}
    (e : arriveBar s pl g k what n vals = some t) : t.mem = s.mem := by
  unfold arriveBar at e
  dsimp only at e
  (repeat' split at e) <;> cases e <;> simp

@[simp] theorem wf_arriveHere (pl : Place) (g : Group) (sp : Split) (b : BarAt) (n occ : Nat) (vals : Tab Word)
    (after : State → Group → Split → State) (h : Memory.wf s.mem)
    (hafter : ∀ t g sp, Memory.wf t.mem → Memory.wf (after t g sp).mem) :
    Memory.wf (arriveHere s pl g sp b n occ vals after).mem := by
  unfold arriveHere
  dsimp only
  split
  · simp [h]
  · split
    · simp [h]
    · split
      · simp [h]
      · next e =>
        have hpass := (passOthers_mem _ pl).trans (arriveBar_mem e)
        split
        · exact hafter _ _ _ (by rwa [hpass])
        · rwa [hpass]

@[simp] theorem wf_barWord (pl : Place) (g : Group) (sp : Split) (b : BarAt) (n occ : Nat) (vals : Tab Word)
    (after : State → Group → Split → State) (h : Memory.wf s.mem)
    (hafter : ∀ t g sp, Memory.wf t.mem → Memory.wf (after t g sp).mem) :
    Memory.wf (barWord s pl g sp b n occ vals after).mem := by
  unfold barWord
  (repeat' split)
  · exact hafter _ _ _ h
  · exact wf_arriveHere pl g sp b n occ vals after h hafter
  all_goals simp [h]

@[simp] theorem laneBar_mem (s : State) (pl : Place) (g : Group) (sp : Split) (h : Hd) : (laneBar s pl g sp h).mem = s.mem := by
  unfold laneBar
  dsimp only
  (repeat' split) <;> simp

/-! ### The retirement of teams and the end of launches (R174, R222, R326) -/

@[simp] theorem postRecords_mem (s : State) (c n : Nat) : (postRecords s c n).mem = s.mem := by
  induction n generalizing s with
  | zero => rfl
  | succ n ih =>
    unfold postRecords
    split <;> simp [ih]

@[simp] theorem freeTeam_mem (s : State) (c launch team : Nat) : (freeTeam s c launch team).mem = s.mem := by simp [freeTeam]

@[simp] theorem dropLaunch_mem (s : State) (n : Nat) : (dropLaunch s n).mem = s.mem := by
  unfold dropLaunch
  (repeat' split) <;> simp

@[simp] theorem coolTeam_mem (s : State) (c launch team : Nat) : (coolTeam s c launch team).mem = s.mem := rfl

@[simp] theorem retireTeam_mem (s : State) (c launch team : Nat) : (retireTeam s c launch team).mem = s.mem := by
  unfold retireTeam
  dsimp only
  (repeat' split) <;> simp

@[simp] theorem retireDone_mem (s : State) (c : Nat) : (retireDone s c).mem = s.mem := by simp [retireDone]

@[simp] theorem removeSlips_mem (s : State) (c slot op : Nat) : (removeSlips s c slot op).mem = s.mem := by
  unfold removeSlips
  dsimp only
  (repeat' split) <;> simp

@[simp] theorem slipsDrained_mem (s : State) (c : Nat) : (slipsDrained s c).mem = s.mem := by simp [slipsDrained]

@[simp] theorem wf_removeGroup (c slot : Nat) (h : Memory.wf s.mem) : Memory.wf (removeGroup s c slot).mem := by
  unfold removeGroup
  dsimp only
  split <;> simp [h]

@[simp] theorem sendMsix_mem (s : State) (fn vec : Nat) : (sendMsix s fn vec).mem = s.mem := rfl

@[simp] theorem catchUp_mem (s : State) (a : Agent) : (catchUp s a).mem = s.mem := setAgentTime_mem s _ a

@[simp] theorem sendDone_mem (s : State) (n : Nat) : (sendDone s n).mem = s.mem := by
  unfold sendDone
  (repeat' split) <;> simp

@[simp] theorem wf_closeLaunch (n status : Nat) (h : Memory.wf s.mem) : Memory.wf (closeLaunch s n status).mem := by
  unfold closeLaunch
  dsimp only
  (repeat' split) <;> simp [h]

@[simp] theorem dropTeams_mem (s : State) (l : Launch) (n : Nat) : (dropTeams s l n).mem = s.mem := by
  unfold dropTeams
  dsimp only
  (repeat' split) <;> simp

@[simp] theorem wf_removeSaved (n : Nat) (l : Launch) (h : Memory.wf s.mem) : Memory.wf (removeSaved s n l).mem :=
  memory_wf_foldl _ (fun s g h => by simp [h]) _ h

@[simp] theorem wf_endLaunch (n status : Nat) (h : Memory.wf s.mem) : Memory.wf (endLaunch s n status).mem := by
  unfold endLaunch
  dsimp only
  (repeat' split)
  · exact h
  · exact h
  · rw [dropLaunch_mem]
    refine memory_wf_foldl _ (fun s x h => by simp [h]) _ (wf_closeLaunch _ _ (wf_removeSaved _ _ ?_))
    exact memory_wf_foldl _ (fun s x h => by simp [h]) _ (by simp [h])

/-! ### The matrix array as a unit (R244–R261) -/

theorem loadHome_mem (s : State) (c part loc n : Nat) : (loadHome s c part loc n).2.mem = s.mem := rfl

@[simp] theorem loadAt_mem (s : State) (c part loc n : Nat) : (loadAt s c part loc n).2.mem = s.mem := by
  unfold loadAt
  dsimp only
  (repeat' split) <;> simp [loadHome_mem]

@[simp] theorem scrRead_mem (s : State) (c part loc fuel n : Nat) : (scrRead s c part loc fuel n).2.mem = s.mem := by
  induction fuel generalizing s loc n with
  | zero => rfl
  | succ fuel ih =>
    unfold scrRead
    dsimp only
    split
    · rfl
    · exact (ih ..).trans (loadAt_mem ..)

theorem apRead_mem {t : State} {c part : Nat} {a : Word} {n : Nat} {bs : List Byte} (e : apRead s c part a n = (bs, t)) :
    t.mem = s.mem := by
  rw [← scrRead_mem s c part (apLoc c a) n n]
  exact (congrArg (·.2.mem) e).symm

theorem wf_scrWrite (c loc fuel : Nat) (bs : List Byte) (h : Memory.wf s.mem) : Memory.wf (scrWrite s c loc fuel bs).mem := by
  induction fuel generalizing s loc bs with
  | zero => exact h
  | succ fuel ih =>
    unfold scrWrite
    split
    · exact h
    · exact ih _ _ (by simp [h])

@[simp] theorem wf_apWrite (c : Nat) (a : Word) (bs : List Byte) (h : Memory.wf s.mem) : Memory.wf (apWrite s c a bs).mem :=
  wf_scrWrite c _ _ bs h

@[simp] theorem setArray_mem (s : State) (c : Nat) (m : MArray) : (setArray s c m).mem = s.mem := rfl

@[simp] theorem raiseEng_mem (s : State) (c slot : Nat) (f : Flags) : (raiseEng s c slot f).mem = s.mem := by
  unfold raiseEng
  split <;> simp

/-! The array's operations read thousands of bytes. Each is unfolded as a function, because an unfolding under `State.mem` has the
kernel compute the read of so many bytes. -/

@[simp] theorem runWld_mem (s : State) (c part : Nat) (a b : Word) : (runWld s c part a b).mem = s.mem := by
  generalize hf : runWld = f
  delta runWld at hf
  have hrun : f s c part a b = _ := (congrFun (congrFun (congrFun (congrFun (congrFun hf s) c) part) a) b).symm
  beta_reduce at hrun
  rw [hrun]
  split
  next e =>
    split
    next e' =>
      rw [setArray_mem]
      split at e'
      · cases e'; exact apRead_mem e
      · exact (apRead_mem e').trans (apRead_mem e)

@[simp] theorem runMmaRow_mem (s : State) (c part slot : Nat) (a b p : Word) (f : FmtRec) (r : Nat) :
    (runMmaRow s c part slot a b p f r).mem = s.mem := by
  generalize hf : runMmaRow = F
  delta runMmaRow at hf
  have hrun : F s c part slot a b p f r = _ := (congrFun (congrFun (congrFun (congrFun (congrFun (congrFun (congrFun (congrFun (congrFun hf s) c) part) slot) a) b) p) f) r).symm
  beta_reduce at hrun
  rw [hrun]
  split
  next e =>
    split
    next e' =>
      rw [raiseEng_mem, setArray_mem]
      split at e'
      · cases e'; exact apRead_mem e
      · exact (apRead_mem e').trans (apRead_mem e)

@[simp] theorem wf_runAccout (c slot : Nat) (a b p : Word) (f : FmtRec) (h : Memory.wf s.mem) :
    Memory.wf (runAccout s c slot a b p f).mem := by
  simp only [runAccout, setArray_mem, raiseEng_mem]
  exact memory_wf_foldl _ (fun s x h => wf_apWrite c _ _ h) _ h

@[simp] theorem runAccin_mem (s : State) (c part : Nat) (a b p : Word) : (runAccin s c part a b p).mem = s.mem := by
  generalize hf : runAccin = f
  delta runAccin at hf
  have hrun : f s c part a b p = _ := (congrFun (congrFun (congrFun (congrFun (congrFun (congrFun hf s) c) part) a) b) p).symm
  beta_reduce at hrun
  rw [hrun]
  refine foldl_mem_of_eq (fun s r t ht => ?_) _ s
  split at ht
  next e => rw [← ht, setArray_mem, apRead_mem e]

@[simp] theorem runPld_mem (s : State) (c part : Nat) (a : Word) : (runPld s c part a).mem = s.mem := by
  generalize hf : runPld = f
  delta runPld at hf
  have hrun : f s c part a = _ := (congrFun (congrFun (congrFun (congrFun hf s) c) part) a).symm
  beta_reduce at hrun
  rw [hrun]
  split
  next e => rw [setArray_mem, apRead_mem e]

@[simp] theorem runPcost_mem (s : State) (c part slot : Nat) (a b : Word) : (runPcost s c part slot a b).mem = s.mem := by
  generalize hf : runPcost = f
  delta runPcost at hf
  have hrun : f s c part slot a b = _ := (congrFun (congrFun (congrFun (congrFun (congrFun (congrFun hf s) c) part) slot) a) b).symm
  beta_reduce at hrun
  rw [hrun]
  split
  next e => rw [raiseEng_mem, setArray_mem, apRead_mem e]

@[simp] theorem giveResult_mem (s : State) (c slot op : Nat) (f : Nat → Word) : (giveResult s c slot op f).mem = s.mem := by
  unfold giveResult
  split <;> simp

@[simp] theorem runPregOut_mem (s : State) (c slot op : Nat) (scl col : Bool) :
    (runPregOut s c slot op scl col).mem = s.mem := by simp [runPregOut]

@[simp] theorem runPstat_mem (s : State) (c slot op : Nat) : (runPstat s c slot op).mem = s.mem := by simp [runPstat]

@[simp] theorem queueRecord_mem (s : State) (c slot : Nat) (kind status : Nat) (tag : Word) :
    (queueRecord s c slot kind status tag).mem = s.mem := by simp [queueRecord]

@[simp] theorem runBalance_mem (s : State) (c slot : Nat) (a b : Word) : (runBalance s c slot a b).mem = s.mem := by
  unfold runBalance
  dsimp only
  (repeat' split) <;> simp

@[simp] theorem wf_runPpart (c slot : Nat) (row : Bool) (a : Word) (h : Memory.wf s.mem) : Memory.wf (runPpart s c slot row a).mem := by
  rw [runPpart, raiseEng_mem]
  exact wf_apWrite c a _ h

@[simp] theorem wf_runPout (c slot : Nat) (a b p : Word) (h : Memory.wf s.mem) : Memory.wf (runPout s c slot a b p).mem := by
  simp only [runPout, raiseEng_mem]
  exact memory_wf_foldl _ (fun s x h => wf_apWrite c _ _ h) _ h

@[simp] theorem wf_runPdist (c part slot : Nat) (a b : Word) (h : Memory.wf s.mem) : Memory.wf (runPdist s c part slot a b).mem := by
  generalize hf : runPdist = f
  delta runPdist at hf
  have hrun : f s c part slot a b = _ := (congrFun (congrFun (congrFun (congrFun (congrFun (congrFun hf s) c) part) slot) a) b).symm
  beta_reduce at hrun
  generalize e : apRead s c part a 16384 = r at hrun
  obtain ⟨bs, t⟩ := r
  have ht : Memory.wf t.mem := by rwa [apRead_mem e]
  extract_lets m at hrun
  split at hrun
  next e' =>
    cases e'
    split at hrun
    rw [hrun, raiseEng_mem]
    exact wf_apWrite c b _ ht

@[simp] theorem wf_runOp (c part : Nat) (j : ArrJob) (h : Memory.wf s.mem) : Memory.wf (runOp s c part j).mem := by
  unfold runOp
  split <;> simp [h]

/-! ### Events of the matrix array (R245, R257, R264, R266) -/

@[simp] theorem govWake_mem (s : State) (quad : Nat) : (govWake s quad).mem = s.mem := by
  unfold govWake
  split <;> simp

@[simp] theorem startUnit_mem (s : State) (c : Nat) (u : AUnit) : (startUnit s c u).mem = s.mem := by
  unfold startUnit
  dsimp only
  (repeat' split) <;> simp

@[simp] theorem wakeUnits_mem (s : State) (c : Nat) : (wakeUnits s c).mem = s.mem := wakeCore_mem s c _

@[simp] theorem govStep_mem (s : State) (quad now : Nat) : (govStep s quad now).mem = s.mem := by
  have hset (g : State → Nat → MArray) (cs : List Nat) (t : State) : (cs.foldl (fun s c => setArray s c (g s c)) t).mem = t.mem :=
    foldl_mem (fun s c => setArray_mem s c (g s c)) cs t
  unfold govStep
  dsimp only
  rw [hset]
  split
  · exact (setArray_mem ..).trans (hset ..)
  · exact hset ..

@[simp] theorem drainOp_mem (s : State) (c : Nat) (j : ArrJob) : (drainOp s c j).mem = s.mem := by
  unfold drainOp
  dsimp only
  (repeat' split) <;> simp

@[simp] theorem endMmt_mem (s : State) (c : Nat) : (endMmt s c).mem = s.mem := by
  unfold endMmt
  dsimp only
  (repeat' split) <;> simp

/-! ### Control words (R210–R242) -/

@[simp] theorem trainAt_mem (s : State) (c : Nat) (site : Word) (guess : Option (Word × Word)) (vals : List (Nat × Word)) :
    (trainAt s c site guess vals).mem = s.mem := rfl

@[simp] theorem fork_mem (s : State) (pl : Place) (g : Group) (sp : Split) (p : ForkPlace) (n : Nat) (base stride : Word) (target : Word) : (fork s pl g sp p n base stride target).mem = s.mem := by simp [fork]

@[simp] theorem retForked_mem (s : State) (pl : Place) (g : Group) (sp : Split) (f : Nat) :
    (retForked s pl g sp f).mem = s.mem := by
  unfold retForked
  (repeat' split) <;> simp

@[simp] theorem countOthers_mem (s : State) (c : Nat) (g : Group) (n : Nat) : (countOthers s c g n).1.mem = s.mem :=
  foldl_mem (fun s _ => countWord_mem s c g.part) _ s

@[simp] theorem joinAll_mem (s : State) (pl : Place) (g : Group) (sp : Split) : (joinAll s pl g sp).mem = s.mem := by
  unfold joinAll
  dsimp only
  (repeat' split) <;> simp

@[simp] theorem stepEnded_mem (s : State) (pl : Place) (sp : Split) : (stepEnded s pl sp).mem = s.mem := by
  unfold stepEnded
  (repeat' split) <;> simp

@[simp] theorem wf_doExit (pl : Place) (g : Group) (sp : Split) (last : Bool) (h : Memory.wf s.mem) :
    Memory.wf (doExit s pl g sp last).mem := by
  unfold doExit
  dsimp only
  (repeat' split) <;> simp [h]

@[simp] theorem wf_exitTail (pl : Place) (g : Group) (sp : Split) (sc : Scope) (h : Memory.wf s.mem) :
    Memory.wf (exitTail s pl g sp sc).mem := by
  unfold exitTail
  dsimp only
  (repeat' split) <;> simp [h]

/-! ### System words (R341–R362) -/

@[simp] theorem sysResult_mem (s : State) (pl : Place) (g : Group) (sp : Split) (h : Hd) (d : Opnd) (lat : Option Nat) (src : ResSrc) (x : Word) : (sysResult s pl g sp h d lat src x).mem = s.mem := by simp [sysResult]

@[simp] theorem stopIssued_mem (s : State) (pl : Place) (g : Group) (sp : Split) : (stopIssued s pl g sp).mem = s.mem := rfl

/-! ### Matrix and plan words (R252–R291) -/

@[simp] theorem enterStart_mem (s : State) (c : Nat) (o : ArrOp) : (enterStart s c o).mem = s.mem := by
  unfold enterStart
  split <;> simp

/-! ### Copy words and the copy engine (R292–R304) -/

@[simp] theorem endCopy_mem (s : State) (c : Nat) (j : CopyJob) (status : BitVec 8) (va : Word) :
    (endCopy s c j status va).mem = s.mem := by
  unfold endCopy
  dsimp only
  (repeat' split) <;> simp

@[simp] theorem setJob_mem (s : State) (c : Nat) (j : CopyJob) : (setJob s c j).mem = s.mem := rfl

@[simp] theorem wf_writeEntries (ws : List (Nat × Word)) (h : Memory.wf s.mem) : Memory.wf (writeEntries s ws).mem :=
  memory_wf_foldl _ (fun s w h => wf_agentStore _ _ _ _ h) _ h

@[simp] theorem wf_zeroRange (lo n : Nat) (h : Memory.wf s.mem) : Memory.wf (zeroRange s lo n).mem := memory_wf_zeroRange lo n h

@[simp] theorem wf_emptyFutures (lo n : Nat) (h : Memory.wf s.mem) : Memory.wf (emptyFutures s lo n).mem := memory_wf_zeroRange lo n h

@[simp] theorem wf_emptyNew (u : State) (h : Memory.wf s.mem) : Memory.wf (emptyNew u s).mem :=
  memory_wf_foldl _ (fun s r h => wf_emptyFutures r.1 r.2 h) _ h

@[simp] theorem wf_servicePage (ws : List (Nat × Word)) (h : Memory.wf s.mem) : Memory.wf (servicePage s ws).mem :=
  wf_emptyNew s (wf_writeEntries ws h)

/-! ### Events of the cores (R28, R56, R130–R139, R165, R166) -/

@[simp] theorem takePipe_mem (s : State) (c p slot n : Nat) : (takePipe s c p slot n).mem = s.mem := by
  unfold takePipe
  split <;> simp

@[simp] theorem resultsDone_mem (s : State) (c slot : Nat) : (resultsDone s c slot).mem = s.mem := by
  unfold resultsDone
  (repeat' split) <;> simp

@[simp] theorem shootPart_mem (s : State) (n : Nat) : (shootPart s n).mem = s.mem := by
  unfold shootPart
  dsimp only
  (repeat' split) <;> simp

@[simp] theorem wakeRebase_mem (s : State) : (wakeRebase s).mem = s.mem := by simp [wakeRebase]

/-! ### The validation of a tender (R175, R224, R233) -/

@[simp] theorem placeLoads_mem (s : State) (now j : Nat) (ts : List Tracked) : (placeLoads s now j ts).mem = s.mem := by
  refine foldl_mem (fun s t => ?_) ts s
  split <;> rfl

@[simp] theorem commitTender_mem (s : State) (c slot ts : Nat) (td : Tender) : (commitTender s c slot ts td).mem = s.mem := by
  unfold commitTender
  split <;> simp

@[simp] theorem squashTo_mem (s : State) (c slot : Nat) (ret : Word) : (squashTo s c slot ret).mem = s.mem := by
  unfold squashTo
  split <;> simp

@[simp] theorem retIssued_mem (s : State) (c slot : Nat) (g : Group) (ret base stride : Word) :
    (retIssued s c slot g ret base stride).mem = s.mem := foldl_mem (fun s _ => countWord_mem s c g.part) (List.range g.splits.length) s

@[simp] theorem stepRet_mem (s : State) (c slot : Nat) : (stepRet s c slot).mem = s.mem := by
  unfold stepRet
  (repeat' split) <;> simp

/-! ### The saving of teams (R265, R331–R333) -/

@[simp] theorem wf_recFill (c : Nat) (l : Launch) (team : Nat) (h : Memory.wf s.mem) : Memory.wf (recFill s c l team).mem := by
  unfold recFill
  split
  · exact h
  · refine memory_wf_foldl _ (fun t i ht => ?_) _ (by exact h)
    split
    · next e => exact wf_vaWrite e ht
    · exact ht

@[simp] theorem queueTeam_mem (s : State) (l : Launch) (launch team : Nat) (front : Bool) :
    (queueTeam s l launch team front).mem = s.mem := rfl

@[simp] theorem wf_parkTeam (c launch team : Nat) (l : Launch) (whole front : Bool) (array : Option MArray) (h : Memory.wf s.mem) :
    Memory.wf (parkTeam s c launch team l whole front array).mem := by simp [parkTeam, h]

@[simp] theorem beginSave_mem (s : State) (c : Nat) (l : Launch) (gs : List (Nat × Group)) : (beginSave s c l gs).mem = s.mem := by
  unfold beginSave
  exact foldl_mem (fun _ _ => setGroup_mem ..) gs s

/-! ### Launch streams (R311–R322) -/

@[simp] theorem stopStream_mem (s : State) (q : StreamId) (c : StopCode) (va : Word) : (stopStream s q c va).mem = s.mem := rfl

@[simp] theorem checkOverrun_mem (s : State) (q : StreamId) : (checkOverrun s q).mem = s.mem := by
  unfold checkOverrun
  dsimp only
  (repeat' split) <;> simp

@[simp] theorem moveOn_mem (s : State) (q : StreamId) (x : Stream) : (moveOn s q x).mem = s.mem := by simp [moveOn]

@[simp] theorem writeSqctl_mem (s : State) (q : StreamId) (x : Word) : (writeSqctl s q x).mem = s.mem := by
  unfold writeSqctl
  dsimp only
  (repeat' split) <;> simp

@[simp] theorem writeSqtail_mem (s : State) (q : StreamId) (x : Word) : (writeSqtail s q x).mem = s.mem := by simp [writeSqtail]

@[simp] theorem frontWait_mem (s : State) (q : StreamId) (va : Word) : (frontWait s q va).mem = s.mem := rfl

theorem wf_packetAcc {o : VaRead} (q : StreamId) (f : Fetched) (k : Nat → State → State) (h : Memory.wf s.mem)
    (hk : ∀ n t, o = .ok n t → Memory.wf (k n t).mem) : Memory.wf (packetAcc s q f o k).mem := by
  unfold packetAcc
  split
  case h_3 => exact hk _ _ rfl
  all_goals simp [h]

theorem wf_packetWrite {o : VaWrite} (q : StreamId) (f : Fetched) (k : State → State) (h : Memory.wf s.mem)
    (hk : ∀ t, o = .ok t → Memory.wf (k t).mem) : Memory.wf (packetWrite s q f o k).mem := by
  unfold packetWrite
  split
  case h_3 => exact hk _ rfl
  all_goals simp [h]

/-! ### The mapper and the LAUNCH packet (R191–R206, R323–R326) -/

@[simp] theorem launchDone_mem (s : State) (q : StreamId) : (launchDone s q).mem = s.mem := by simp [launchDone]

@[simp] theorem addLaunch_mem (s : State) (l : Launch) : (addLaunch s l).1.mem = s.mem := rfl

@[simp] theorem wf_endAtOnce (q : StreamId) (l : Launch) (status : Nat) (h : Memory.wf s.mem) : Memory.wf (endAtOnce s q l status).mem := by
  simp [endAtOnce, h]

@[simp] theorem wf_putFields (a : Agent) (l : Launch) (fs : List (Nat × Nat × Nat)) (h : Memory.wf s.mem) :
    Memory.wf (putFields s a l fs).mem := by
  refine memory_wf_foldl _ (fun s f h => ?_) _ h
  split
  · next e => exact wf_vaWrite e h
  · exact h

@[simp] theorem wf_launchNest (q : StreamId) (l : Launch) (n : Nest) (args : List Nat) (h : Memory.wf s.mem) :
    Memory.wf (launchNest s q l n args).mem := by
  unfold launchNest
  dsimp only
  (repeat' split) <;> simp [h]

theorem wf_onRecord (q : StreamId) (l : Launch) (f : Fetched) (k : State → State) (h : Memory.wf s.mem)
    (hk : ∀ t, Memory.wf t.mem → Memory.wf (k t).mem) : Memory.wf (onRecord s q l f k).mem := by
  unfold onRecord
  split
  case h_3 => exact hk s h
  all_goals simp [h]

theorem wf_launchRead (q : StreamId) (f : Fetched) (a : Word) (n : Nat) (k : List Word → State → State) (h : Memory.wf s.mem)
    (hk : ∀ ws t, Memory.wf t.mem → Memory.wf (k ws t).mem) : Memory.wf (launchRead s q f a n k).mem := by
  unfold launchRead
  split
  case h_3 e => exact hk _ _ (by rwa [vaReadWords_mem e])
  all_goals simp [h]

/-! ### Level words (R198–R208) -/

@[simp] theorem redlFinish_mem (s : State) (pl : Place) (g : Group) (sp : Split) (h : Hd) (d : Opnd) (vals : List (Nat × Word)) :
    (redlFinish s pl g sp h d vals).mem = s.mem := by simp [redlFinish]

@[simp] theorem redlGroupEnd_mem (s : State) (pl : Place) (sp : Split) (h : Hd) (d : Opnd) (k : BarKey) (g : Group) :
    (redlGroupEnd s pl sp h d k g).mem = s.mem := by
  unfold redlGroupEnd
  dsimp only
  (repeat' split) <;> simp

/-! ### Placement, slices and budgets (R326–R339) -/

@[simp] theorem wf_restoreTeam (c n base : Nat) (r : TeamRec) (h : Memory.wf s.mem) : Memory.wf (restoreTeam s c n base r).mem := by
  unfold restoreTeam
  dsimp only
  rw [setCoreTime_mem]
  have hscr := memory_wf_foldl (fun s x => putByte s (Config.scratchKey + 2 ^ 20 * c + 4096 * base + x.1) x.2)
    (fun s x h => memory_wf_putByte _ _ h) r.scr h
  split
  · exact hscr
  · exact hscr

@[simp] theorem wf_placeTeam (d : Nat) (q : StreamId) (c n team : Nat) (l : Launch) (h : Memory.wf s.mem) :
    Memory.wf (placeTeam s d q c n team l).mem := by
  unfold placeTeam
  dsimp only
  split <;> simp [h]

@[simp] theorem wf_preemptLaunch (n : Nat) (l : Launch) (h : Memory.wf s.mem) : Memory.wf (preemptLaunch s n l).mem := by
  unfold preemptLaunch
  dsimp only
  split <;> simp [h]

/-! ### Groups that do not run (R189, R190, R349, R350) -/

@[simp] theorem wf_deadlock (n : Nat) (h : Memory.wf s.mem) : Memory.wf (deadlock s n).mem := by
  unfold deadlock
  dsimp only
  split
  · exact h
  · exact wf_endLaunch _ _ (memory_wf_foldl _ (fun s x h => wf_recWrite _ _ _ h) _ h)

@[simp] theorem raiseStarve_mem (s : State) (p : Nat) : (raiseStarve s p).mem = s.mem := rfl

@[simp] theorem dueStop_mem (s : State) (c slot : Nat) (how : Resume) : (dueStop s c slot how).mem = s.mem := by
  unfold dueStop
  dsimp only
  (repeat' split) <;> simp

@[simp] theorem paySkip_mem (s : State) (c slot : Nat) (g : Group) (how : Resume) : (paySkip s c slot g how).mem = s.mem := by
  unfold paySkip
  dsimp only
  (repeat' split) <;> simp

@[simp] theorem wf_selfClear (c pattern : Nat) (h : Memory.wf s.mem) : Memory.wf (selfClear s c pattern).mem := by
  unfold selfClear
  dsimp only
  split
  · exact wf_zeroRange _ _ h
  all_goals simp [h]

/-! ### Writes of registers from outside (R343, R373) -/

@[simp] theorem writeStream_mem (s : State) (q : StreamId) (k : Nat) (x : Word) : (writeStream s q k x).mem = s.mem := by
  unfold writeStream
  split <;> simp

@[simp] theorem writeLnkst_mem (s : State) (port : Nat) : (writeLnkst s port).mem = s.mem := rfl

@[simp] theorem writeSys_mem (s : State) (part n : Nat) (x : Word) : (writeSys s part n x).mem = s.mem := by
  unfold writeSys
  (repeat' split) <;> simp

@[simp] theorem writeGroup_mem (s : State) (c slot n : Nat) (x : Word) : (writeGroup s c slot n x).mem = s.mem := by
  unfold writeGroup
  (repeat' split) <;> simp

@[simp] theorem writeVmarg_mem (s : State) (d : Nat) (x : Word) : (writeVmarg s d x).mem = s.mem := by
  unfold writeVmarg
  split <;> simp

@[simp] theorem setLmarg_mem (s : State) (port lane : Nat) (m : Lmarg) : (setLmarg s port lane m).mem = s.mem := rfl

@[simp] theorem setLanes_mem (s : State) (port : Nat) : (setLanes s port).mem = s.mem := rfl

@[simp] theorem writeLmarg_mem (s : State) (port lane : Nat) (x : Word) : (writeLmarg s port lane x).mem = s.mem := by
  unfold writeLmarg
  split <;> simp

@[simp] theorem nextPhy_mem (s : State) (lane : Option Nat) : (nextPhy s lane).mem = s.mem := by
  unfold nextPhy
  dsimp only
  (repeat' split) <;> simp

/-! ### Links, the host and the housekeeping path (R187, R305–R309, R367) -/

@[simp] theorem loopBack_mem (s : State) (port : Nat) (k : Packet) : (loopBack s port k).mem = s.mem := by
  unfold loopBack
  (repeat' split) <;> simp

@[simp] theorem wakeEvery_mem (s : State) (p : Wait → Bool) : (wakeEvery s p).mem = s.mem := by simp [wakeEvery]

@[simp] theorem clearAck_mem (s : State) (id : Nat) : (clearAck s id).mem = s.mem := rfl

@[simp] theorem failPort_mem (s : State) (port : Nat) : (failPort s port).mem = s.mem := by simp [failPort]

@[simp] theorem retireLane_mem (s : State) (port lane : Nat) : (retireLane s port lane).mem = s.mem := by
  unfold retireLane
  dsimp only
  split <;> simp

@[simp] theorem linkError_mem (s : State) (port lane : Nat) (out : ErrOutcome) : (linkError s port lane out).mem = s.mem := by
  unfold linkError
  dsimp only
  (repeat' split) <;> simp

@[simp] theorem bar0Write_mem (s : State) (fn o : Nat) (x : Word) : (bar0Write s fn o x).mem = s.mem := by
  unfold bar0Write
  split <;> simp

@[simp] theorem pfWrite_mem (s : State) (o : Nat) (x : Word) : (pfWrite s o x).mem = s.mem := by
  unfold pfWrite
  split <;> simp

@[simp] theorem dropBuffered_mem (s : State) (fn loc : Nat) : (dropBuffered s fn loc).mem = s.mem := rfl

@[simp] theorem keepLine_mem (s : State) (fn loc : Nat) : (keepLine s fn loc).mem = s.mem := by simp [keepLine]

@[simp] theorem answer_mem (s : State) (a : HostAnswer) : (answer s a).mem = s.mem := rfl

@[simp] theorem wakeExits_mem (s : State) (n : Nat) : (wakeExits s n).mem = s.mem := by simp [wakeExits]

/-! ### The platform (R363–R377) -/

@[simp] theorem wiped_mem (s : State) (life : Life) (key : Option (List Byte)) : (wiped s life key).mem = [] := rfl

@[simp] theorem extend_mem (s : State) (i : Nat) (img : List Byte) : (extend s i img).mem = s.mem := rfl

@[simp] theorem jalovBoot_mem (s : State) : (jalovBoot s).mem = s.mem := rfl

@[simp] theorem loadImages_mem (is : List Nat) (s : State) : (loadImages is s).1.mem = s.mem := by
  induction is generalizing s with
  | nil => rfl
  | cons i r ih =>
    unfold loadImages
    dsimp only
    split
    · exact (ih _).trans (extend_mem ..)
    · exact extend_mem ..

@[simp] theorem boot_mem (s : State) : (boot s).mem = s.mem := by
  unfold boot
  dsimp only
  split <;> rename_i t e <;> simpa using congrArg (·.1.mem) e.symm

@[simp] theorem resetDevice_mem (s : State) : (resetDevice s).mem = [] := by simp [resetDevice]

@[simp] theorem respond_mem (s : State) (c : DoeStatus) (bs : List Byte) : (respond s c bs).mem = s.mem := rfl

@[simp] theorem wf_doeObject (form state : Bool) (f : State) (h : Memory.wf s.mem) (hf : Memory.wf f.mem) :
    Memory.wf (doeObject s form state f).mem := by
  unfold doeObject
  (repeat' split) <;> simp [h, hf]

@[simp] theorem wf_doeRequest (r : DoeReq) (h : Memory.wf s.mem) : Memory.wf (doeRequest s r).mem := by
  unfold doeRequest
  split
  case h_4 =>
    unfold doeRma
    exact wf_doeObject _ _ _ h (by split <;> simp [h])
  all_goals simp [doeAttest, doeProvision, doeDeploy, h]

@[simp] theorem wf_zeroQuad (d q : Nat) (h : Memory.wf s.mem) : Memory.wf (zeroQuad s d q).mem := by
  delta zeroQuad
  dsimp only
  rw [setQuad_mem]
  refine memory_wf_foldl _ (fun t c h => ?_) _ h
  rw [setCore_mem]
  exact wf_zeroRange _ _ h

@[simp] theorem wf_replaceQuad (d q : Nat) (h : Memory.wf s.mem) : Memory.wf (replaceQuad s d q).mem := by
  have hclear (g : State → Nat → Core) (n : Nat) (cs : List Nat) :
      Memory.wf (cs.foldl (fun s c => setCore (zeroRange s (Config.scratchKey + 2 ^ 20 * c) n) c (g s c)) s).mem := by
    refine memory_wf_foldl _ (fun t c h => ?_) _ h
    rw [setCore_mem]
    exact wf_zeroRange _ _ h
  delta replaceQuad
  dsimp only
  split
  · rw [setDie_mem, setQuad_mem]; exact hclear ..
  · rw [setQuad_mem, setDie_mem, setQuad_mem]; exact hclear ..

@[simp] theorem wf_retireQuad (d q : Nat) (h : Memory.wf s.mem) : Memory.wf (retireQuad s d q).mem := by
  unfold retireQuad
  dsimp only
  (repeat' split) <;> simp [h]

@[simp] theorem poisonLine_mem (s : State) (loc : Nat) : (poisonLine s loc).mem = s.mem := rfl

@[simp] theorem loseUnit_mem (s : State) (u : ErrUnit) : (loseUnit s u).mem = s.mem := by
  unfold loseUnit
  split <;> simp

theorem wf_houseStore (pa fuel : Nat) (bs : List Byte) (h : Memory.wf s.mem) : Memory.wf (houseStore s pa bs fuel).mem := by
  induction fuel generalizing s pa bs with
  | zero => exact h
  | succ fuel ih =>
    unfold houseStore
    split
    · exact h
    · exact ih _ _ (by simp [h])

@[simp] theorem wf_moveFrame (m : FrameMove) (h : Memory.wf s.mem) : Memory.wf (moveFrame s m).mem := by
  unfold moveFrame
  split
  · exact h
  · simp only [shootPart_mem, setPart_mem]
    exact wf_writeEntries _ (wf_houseStore _ _ _ h)

@[simp] theorem wf_memoryError (u : ErrUnit) (loc : Nat) (out : ErrOutcome) (h : Memory.wf s.mem) :
    Memory.wf (memoryError s u loc out).mem := by
  unfold memoryError
  dsimp only
  split
  · simp [h]
  · exact memory_wf_foldl _ (fun s m h => wf_moveFrame m h) _ (by simp [h])
  · simp [h]

/-! ### A step of the package (log 3) -/

end Sys2Proof.Proofs.MemoryForm
end

section
/-! PROOFS. Memory keeps its canonical form: the words and events with more than one way out. -/

namespace Sys2Proof.Proofs.MemoryForm

open Machine Claims Laws

variable {s : State}

/-- The next state that an outcome answers, if it answers one, holds memory in its canonical form. -/
def Formed (o : Out) : Prop := ∀ t, o = .next t → Memory.wf t.mem

@[simp] theorem formed_next {t : State} : Formed (.next t) ↔ Memory.wf t.mem :=
  ⟨fun h => h t rfl, fun h u e => by cases e; exact h⟩

@[simp] theorem formed_fault (r : Fault) : Formed (.fault r) := fun _ e => nomatch e

@[simp] theorem formed_refused (r : Refusal) : Formed (.refused r) := fun _ e => nomatch e

/-! ### Words -/

theorem formed_issue {k : Place → Group → Split → Out} (h : ∀ pl g sp, Formed (k pl g sp)) :
    Formed (issue s k) := by
  unfold issue
  split
  · simp
  · split
    · simp
    · split
      · simp
      · exact h _ _ _

@[simp] theorem formed_regWord (hd : Hd) (r : RegWord) (f : Nat → Word → Word → Word → Word × Flags) (h : Memory.wf s.mem) :
    Formed (regWord s hd r f) := by
  refine formed_issue fun pl g sp => ?_
  dsimp only
  (repeat' split) <;> simp [h]

/-! ### The words of memory -/

theorem wf_of_eq {t : State} (e : t.mem = s.mem) (h : Memory.wf s.mem) : Memory.wf t.mem := e ▸ h

theorem formed_ite {c : Prop} [Decidable c] {o o' : Out} (h : Formed o) (h' : Formed o') : Formed (if c then o else o') := by
  split
  · exact h
  · exact h'

/-- The state of a performed access holds memory in its canonical form. -/
def PerfFormed : Perf → Prop
  | .done t _ => Memory.wf t.mem
  | .skip t _ => Memory.wf t.mem
  | .endpoint _ => True
  | .tender => True
  | .memerr => True
  | .linkerr => True

theorem loadPieces_mem (c part : Nat) (ps : List (Nat × Nat)) (s : State) : (loadPieces s c part ps).2.mem = s.mem := by
  induction ps generalizing s with
  | nil => rfl
  | cons p ps ih =>
    obtain ⟨l, k⟩ := p
    exact (ih (loadAt s c part l k).2).trans (loadAt_mem s c part l k)

theorem tenderRead_mem {c part : Nat} {hold : List PendAcc} {ps : List (Nat × Nat)} {va : Nat} {ts ts' : List Tracked} {x : Nat}
    {t : State} (e : tenderRead s c part hold va ps ts = some (x, ts', t)) : t.mem = s.mem := by
  induction ps generalizing s va ts ts' x t with
  | nil => cases e; rfl
  | cons p ps ih =>
    obtain ⟨l, k⟩ := p
    rw [tenderRead] at e
    split at e
    · obtain ⟨⟨y, us, u⟩, hy, e⟩ := Option.map_eq_some_iff.1 e
      cases e
      exact ih hy
    · split at e
      · cases e
      · obtain ⟨⟨y, us, u⟩, hy, e⟩ := Option.map_eq_some_iff.1 e
        cases e
        exact (ih hy).trans (loadAt_mem s c part l k)

theorem tenderLoad_mem {pl : Place} {g : Group} {td : Tender} {ea : Word} {ps : List (Nat × Nat)} {x : Nat} {t : State}
    (e : tenderLoad s pl g td ea ps = some (x, t)) : t.mem = s.mem := by
  unfold tenderLoad at e
  split at e
  · cases e
  · rename_i hr
    have hm := tenderRead_mem hr
    split at e
    · cases e
      exact hm
    · cases e

theorem tenderStore_mem {pl : Place} {g : Group} {td : Tender} {as : List PendAcc} {t : State}
    (e : tenderStore s pl g td as = some t) : t.mem = s.mem := by
  unfold tenderStore at e
  dsimp only at e
  split at e
  · cases e; rfl
  · cases e

theorem perfFormed_tender {pl : Place} {g : Group} {td : Tender} {w : MemWord} {ea : Word} {ps : List (Nat × Nat)} {v : Word}
    (h : Memory.wf s.mem) : PerfFormed (performTender s pl g td w ea ps v) := by
  unfold performTender
  split
  · split
    · trivial
    · split
      · rename_i hl
        exact wf_of_eq (tenderLoad_mem hl) h
      · trivial
  · split
    · rename_i hl
      exact wf_of_eq (tenderStore_mem hl) h
    · trivial
  · trivial

@[simp] theorem wf_atomicAt (c loc op n v v2 : Nat) (h : Memory.wf s.mem) : Memory.wf (atomicAt s c loc op n v v2).2.mem := by
  unfold atomicAt
  dsimp only
  split <;> simp [h]

theorem perfFormed_mem {pl : Place} {g : Group} {w : MemWord} {ea : Word} {ps : List (Nat × Nat)} {v v2 : Word}
    (h : Memory.wf s.mem) : PerfFormed (performMem s pl g w ea ps v v2) := by
  unfold performMem
  dsimp only
  split <;> (repeat' split) <;> simp [PerfFormed, loadPieces_mem, loadHome_mem, h]

theorem perfFormed_win {pl : Place} {w : MemWord} {ea : Word} {pa : Nat} {v : Word}
    (h : Memory.wf s.mem) : PerfFormed (performWin s pl w ea pa v) := by
  unfold performWin
  split
  · rename_i e
    split at e
    · exact wf_of_eq (storeWindow_mem e) h
    · exact wf_of_eq (loadWindow_mem e) h
  · trivial
  · trivial

theorem perfFormed_one {pl : Place} {w : MemWord} {ea : Word} {r : Reach} {v v2 : Word}
    (h : Memory.wf s.mem) : PerfFormed (performOne s pl w ea r v v2) := by
  unfold performOne
  split
  · trivial
  · split
    · exact perfFormed_tender h
    · trivial
    · exact perfFormed_mem h
    · exact perfFormed_win (wf_settlePend _ _ h)

theorem wf_memThread {pl : Place} {w : MemWord} {r : MemRun} {a : ThreadAcc} (h : Memory.wf r.s.mem) :
    Memory.wf (memThread pl w r a).s.mem := by
  unfold memThread
  dsimp only
  split
  · exact h
  · split
    · exact h
    · exact h
    · exact h
    · rename_i reach g _ _
      split
      · exact h
      · split
        · exact h
        · have hp : PerfFormed (performOne r.s pl w a.ea reach a.v a.v2) := perfFormed_one h
          split <;> rename_i e <;> rw [e] at hp
          · dsimp only
            split
            · exact wf_drainPend _ _ hp
            · exact hp
          · exact hp
          all_goals exact h

theorem wf_memThreads {pl : Place} {w : MemWord} (as : List ThreadAcc) {r : MemRun} (h : Memory.wf r.s.mem) :
    Memory.wf (as.foldl (memThread pl w) r).s.mem := by
  induction as generalizing r with
  | nil => exact h
  | cons a as ih => exact ih (wf_memThread h)

theorem wf_memEnd {hd : Hd} {pl : Place} {w : MemWord} {first : Bool} {occ : Nat} {lowest : Option Word} {sp : Split} {r : MemRun}
    (h : Memory.wf r.s.mem) : Memory.wf (memEnd hd pl w first occ lowest sp r).mem := by
  unfold memEnd
  dsimp only
  (repeat' split) <;> simp [h]

@[simp] theorem formed_memWord (hd : Hd) (w : MemWord) (h : Memory.wf s.mem) : Formed (memWord s hd w) := by
  refine formed_issue fun pl g sp => ?_
  dsimp only
  split
  · exact formed_next.2 (by simp [h])
  iterate 5
    apply formed_ite
    · simp [h]
  · split
    · simp [h]
    · refine formed_next.2 (wf_memEnd (wf_memThreads _ ?_))
      split <;> simp [h]

/-! ### The guards of the words that synchronize -/

theorem formed_syncIssue {k : Place → Group → Split → Out} (h : Memory.wf s.mem) (hk : ∀ pl g sp, Formed (k pl g sp)) :
    Formed (syncIssue s k) :=
  formed_issue fun pl g sp => formed_ite (by simp [h]) (hk pl g sp)

theorem formed_fpeIssue {k : Place → Group → Split → Out} (h : Memory.wf s.mem) (hk : ∀ pl g sp, Formed (k pl g sp)) :
    Formed (fpeIssue s k) :=
  formed_syncIssue h fun pl g _ => formed_ite (by simp [h]) (hk pl g _)

/-- The words that check their operands and their hazards before they do anything else. -/
theorem formed_checks {p q : Prop} [Decidable p] [Decidable q] {pl : Place} {o : Out} (h : Memory.wf s.mem) (ho : Formed o) :
    Formed (if p then .next (trap s pl .opspec) else if q then .next (trap s pl .hazard) else o) :=
  formed_ite (by simp [h]) (formed_ite (by simp [h]) ho)

theorem formed_engChecks {w : EngWord} {full : Bool} {k : Place → Group → Split → Out} (h : Memory.wf s.mem)
    (hk : ∀ pl g sp, Formed (k pl g sp)) : Formed (engChecks s w full k) :=
  formed_syncIssue h fun pl g sp => formed_checks h (formed_ite (by simp [h]) (hk pl g sp))

theorem formed_statusWord {d : Opnd} {k : Place → Group → Split → MArray → Out} (h : Memory.wf s.mem)
    (hk : ∀ pl g sp m, Formed (k pl g sp m)) : Formed (statusWord s d k) := by
  refine formed_engChecks h fun pl g sp => ?_
  split
  · simp [h]
  · exact hk pl g sp _

theorem formed_syncLevel {lv : Fin 8} {k : Place → Group → Split → Launch → Out} (h : Memory.wf s.mem)
    (hk : ∀ pl g sp l, Formed (k pl g sp l)) : Formed (syncLevel s lv k) := by
  refine formed_issue fun pl g sp => ?_
  split
  · simp [h]
  · exact formed_ite (by simp [h]) (hk pl g sp _)

/-! ### Barriers, events and reductions -/

@[simp] theorem formed_barArrive (hd : Hd) (sc : Scope) (a b : Opnd) (bara : Bool) (h : Memory.wf s.mem) :
    Formed (barArrive s hd sc a b bara) := by
  refine formed_issue fun pl g sp => formed_checks h (formed_fpeIssue h fun pl g sp => formed_ite (by simp [h]) ?_)
  refine formed_next.2 (wf_barWord _ _ _ _ _ _ _ _ h fun t g sp ht => ?_)
  dsimp only
  split <;> simp [ht]

@[simp] theorem formed_execBar (hd : Hd) (sc : Scope) (a b : Opnd) (h : Memory.wf s.mem) : Formed (execBar hd sc a b s) := by
  unfold execBar
  split
  · exact formed_fpeIssue h fun pl g sp => by simp [h]
  · exact formed_barArrive hd sc a b false h

@[simp] theorem formed_execBara (hd : Hd) (sc : Scope) (a b : Opnd) (h : Memory.wf s.mem) : Formed (execBara hd sc a b s) :=
  formed_barArrive hd sc a b true h

@[simp] theorem formed_execBarw (hd : Hd) (sc : Scope) (a : Opnd) (h : Memory.wf s.mem) : Formed (execBarw hd sc a s) := by
  refine formed_issue fun pl g sp => formed_checks h (formed_fpeIssue h fun pl g sp => formed_ite (by simp [h]) ?_)
  dsimp only
  (repeat' split) <;> simp [h]

@[simp] theorem formed_execEvwait (hd : Hd) (a : Opnd) (h : Memory.wf s.mem) : Formed (execEvwait hd a s) :=
  formed_issue fun _ _ _ => formed_checks h (formed_syncIssue h fun _ _ _ => formed_ite (by simp [h]) (by simp [h]))

@[simp] theorem formed_execEvpop (hd : Hd) (d : Opnd) (h : Memory.wf s.mem) : Formed (execEvpop hd d s) := by
  refine formed_issue fun pl g sp => formed_checks h (formed_syncIssue h fun pl g sp => formed_next.2 ?_)
  split <;> simp [h]

@[simp] theorem formed_execBarl (hd : Hd) (lv : Fin 8) (h : Memory.wf s.mem) : Formed (execBarl hd lv s) := by
  refine formed_syncLevel h fun pl g sp l => formed_fpeIssue h fun pl g sp => ?_
  split
  · exact formed_next.2 (wf_barWord _ _ _ _ _ _ _ _ h fun t g sp ht => by simp [ht])
  · simp [h]
  · split <;> simp [h]

@[simp] theorem formed_execRedl (hd : Hd) (op : RedOp) (ty : RTy) (d a : Opnd) (lv : Fin 8) (h : Memory.wf s.mem) :
    Formed (execRedl hd op ty d a lv s) := by
  refine formed_syncLevel h fun pl g sp l => formed_checks h (formed_fpeIssue h fun pl g sp => ?_)
  dsimp only
  split
  · simp [h]
  · exact formed_next.2 (wf_barWord _ _ _ _ _ _ _ _ h fun t g sp ht => by simp [ht])
  · simp [h]

/-! ### The array and the copy engine -/

@[simp] theorem formed_execAccumulatorRowWrite (c : Nat) (h : Memory.wf s.mem) : Formed (execAccumulatorRowWrite c s) := by
  unfold execAccumulatorRowWrite
  split
  · simp [h]
  · split
    · split
      · simp [h]
      · exact formed_next.2 (wf_of_eq ((setArray_mem ..).trans (runMmaRow_mem ..)) h)
    · simp [h]

@[simp] theorem formed_copyWord (hd : Hd) (srcs : List Opnd) (bad : Bool) (f : (Opnd → Word) → CopyOp) (h : Memory.wf s.mem) :
    Formed (copyWord s hd srcs bad f) := by
  refine formed_engChecks h fun pl g sp => ?_
  dsimp only
  iterate 2
    apply formed_ite
    · simp [h]
  apply formed_ite
  · refine formed_next.2 ?_
    split <;> simp [h]
  iterate 2
    apply formed_ite
    · simp [h]
  split <;> simp [h]

/-- The state in which a copy leaves its engine holds memory in its canonical form. -/
def CopyFormed : CopyOut → Prop
  | .done t _ _ => Memory.wf t.mem
  | .absent t _ _ => Memory.wf t.mem
  | .wait t _ => Memory.wf t.mem

theorem wf_runUnit (c part launch : Nat) (u : CUnit) (h : Memory.wf s.mem) : Memory.wf (runUnit s c part launch u).mem := by
  cases u <;> simp [runUnit, h]

theorem wf_runUnits {c part launch : Nat} {p : Nat → Bool} (us : List CUnit) {i : Nat} (h : Memory.wf s.mem) :
    Memory.wf (runUnits s c part launch p i us).mem := by
  induction us generalizing s i with
  | nil => exact h
  | cons u us ih =>
    refine ih ?_
    split
    · exact wf_runUnit _ _ _ u h
    · exact h

theorem copyFormed_runMemCopy {c part launch : Nat} {j : CopyJob} (h : Memory.wf s.mem) :
    CopyFormed (runMemCopy s c part launch j) := by
  unfold runMemCopy
  dsimp only
  split
  · exact wf_runUnits _ h
  · exact h
  · exact wf_runUnits _ h
  · exact h

theorem readWords_mem (c part launch : Nat) (n : Nat) (a : Word) (s : State) : (readWords s c part launch a n).2.mem = s.mem := by
  induction n generalizing s a with
  | zero => rfl
  | succ n ih => exact (ih _ _).trans (loadAt_mem ..)

theorem takeWord_mem {t : State} {c : Nat} {src : Option Leaf} {j j' : CopyJob} {x : Word}
    (e : takeWord s c src j = some (x, t, j')) : t.mem = s.mem := by
  unfold takeWord at e
  split at e
  · split at e
    · rename_i hl
      cases e
      exact loadWindow_mem hl
    · cases e
  · split at e
    · cases e
    · cases e; rfl

theorem copyFormed_outOf {j : CopyJob} (x : EngAcc) (h : Memory.wf s.mem) : CopyFormed (outOf s j x) := by
  cases x <;> exact h

theorem copyFormed_moveWords {c part launch slot : Nat} {b : Word} {src dst : Option Leaf} (n : Nat) {j : CopyJob}
    (h : Memory.wf s.mem) : CopyFormed (moveWords s c part launch slot b src dst j n) := by
  induction n generalizing s j with
  | zero =>
    cases dst
    · exact h
    · exact wf_of_eq (wakeWindow_mem s _) h
  | succ n ih =>
    cases dst with
    | some l =>
      simp only [moveWords]
      split
      · exact h
      · split
        · exact h
        · split
          · exact h
          · rename_i ht
            have hw := wf_of_eq (takeWord_mem ht) h
            split
            · rename_i hp
              exact ih (wf_of_eq (putWindow_mem hp) hw)
            · exact hw
    | none =>
      simp only [moveWords]
      split
      · split
        · exact h
        · rename_i ht
          exact ih (wf_storeAt _ _ _ _ (wf_of_eq (takeWord_mem ht) h))
      · exact copyFormed_outOf _ h

theorem copyFormed_runWinCopy {c part launch slot : Nat} {a b : Word} {n : Nat} {src dst : Option Leaf} {j : CopyJob}
    (h : Memory.wf s.mem) : CopyFormed (runWinCopy s c part launch slot a b n src dst j) := by
  unfold runWinCopy
  extract_lets w badSrc badDst
  split
  · exact copyFormed_moveWords _ h
  · split
    · exact copyFormed_outOf _ h
    · split
      · exact copyFormed_moveWords _ h
      · split
        · exact h
        · split
          · exact h
          · refine copyFormed_moveWords _ ?_
            cases src
            · exact wf_of_eq (readWords_mem ..) h
            · exact h

theorem copyFormed_runCopy {c part launch slot : Nat} {j : CopyJob} (h : Memory.wf s.mem) :
    CopyFormed (runCopy s c part launch slot j) := by
  unfold runCopy
  split
  · split
    · exact copyFormed_runMemCopy h
    · exact copyFormed_runWinCopy h
  · exact copyFormed_runMemCopy h

@[simp] theorem formed_execCopyOperationEnd (c idx : Nat) (h : Memory.wf s.mem) : Formed (execCopyOperationEnd c idx s) := by
  unfold execCopyOperationEnd
  dsimp only
  split
  · simp [h]
  · split
    · simp [h]
    · split
      · simp [h]
      · rename_i j _ _ _ g _
        have hc : CopyFormed (runCopy s c g.part g.launch j.slot j) := copyFormed_runCopy h
        split <;> rename_i e <;> rw [e] at hc
        · exact formed_next.2 (wf_of_eq (endCopy_mem ..) hc)
        · exact formed_next.2 hc
        · exact formed_next.2 hc

/-! ### Tenders -/

theorem reload_mem {t : State} {c part : Nat} {x : Tracked} (e : reload s c part x = some t) : t.mem = s.mem := by
  unfold reload at e
  dsimp only at e
  (repeat' split at e) <;> cases e <;> simp [loadHome_mem]

theorem reloads_mem {t : State} {c part j : Nat} {ts : List Tracked} (e : reloads s c part j ts = some t) : t.mem = s.mem := by
  induction ts generalizing s with
  | nil => cases e; rfl
  | cons x ts ih =>
    simp only [reloads] at e
    split at e
    · split at e
      · rename_i hr
        exact (ih e).trans (reload_mem hr)
      · cases e
    · exact ih e

theorem wf_commitHold {t : State} {c part j : Nat} {ts : List Tracked} {as : List PendAcc}
    (e : commitHold s c part j ts as = some t) (h : Memory.wf s.mem) : Memory.wf t.mem := by
  induction as generalizing s j ts with
  | nil => cases e; exact h
  | cons a as ih =>
    simp only [commitHold] at e
    split at e
    · rename_i hr
      exact ih e (wf_of_eq ((reloads_mem hr).trans (placeLoads_mem ..)) (wf_performPend c a h))
    · cases e

theorem wf_commitAccesses {t : State} {c part : Nat} {td : Tender} (e : commitAccesses s c part td = some t)
    (h : Memory.wf s.mem) : Memory.wf t.mem :=
  wf_commitHold e (by simp [h])

@[simp] theorem formed_execTenderValidation (c slot : Nat) (h : Memory.wf s.mem) : Formed (execTenderValidation c slot s) := by
  unfold execTenderValidation
  dsimp only
  split
  · simp [h]
  · split
    · simp [h]
    · split
      · simp [h]
      · split
        · rename_i e
          split at e
          · have := wf_commitAccesses e (by simp [h])
            simp [this]
          · cases e
        · simp [h]

/-! ### Stops and packets -/

@[simp] theorem formed_execMmtForcedStop (c : Nat) (h : Memory.wf s.mem) : Formed (execMmtForcedStop c s) := by
  unfold execMmtForcedStop
  dsimp only
  split
  · simp [h]
  · split
    · simp [h]
    · split
      · simp [h]
      · split
        · refine formed_next.2 (wf_parkTeam _ _ _ _ _ _ _ ?_)
          rw [setCore_mem, foldl_mem fun t (x : Nat × Machine.Group) => squashTenders_mem t c x.1]
          exact h
        · exact formed_next.2 h

@[simp] theorem formed_execPacketFetch (q : StreamId) (h : Memory.wf s.mem) : Formed (execPacketFetch q s) := by
  unfold execPacketFetch
  dsimp only
  split
  · split
    · split <;> simp [h]
    · simp [h]
    · rename_i e
      have ht := wf_of_eq (vaRead_mem e) h
      exact formed_next.2 ht
  · split
    · simp [h]
    · (repeat' split) <;> simp [h]

theorem formed_runPacket {q : StreamId} {i : Instr} {k : Stream → Fetched → State} (h : Memory.wf s.mem)
    (hk : ∀ x f, Memory.wf (k x f).mem) : Formed (runPacket s q i k) := by
  unfold runPacket
  dsimp only
  split
  · simp [h]
  · exact formed_ite (formed_next.2 (hk _ _)) (by simp [h])

@[simp] theorem formed_execNopk (q : StreamId) (h : Memory.wf s.mem) : Formed (execNopk q s) :=
  formed_runPacket h fun _ _ => by simp [h]

@[simp] theorem formed_execIb (q : StreamId) (a : Word) (n : BitVec 24) (h : Memory.wf s.mem) : Formed (execIb q a n s) :=
  formed_runPacket h fun _ _ => by split <;> simp [h]

@[simp] theorem formed_execLoop (q : StreamId) (n : BitVec 8) (k : BitVec 16) (h : Memory.wf s.mem) :
    Formed (execLoop q n k s) := by
  refine formed_runPacket h fun x f => ?_
  dsimp only
  (repeat' split) <;> simp [h]

@[simp] theorem formed_execFfence (q : StreamId) (h : Memory.wf s.mem) : Formed (execFfence q s) :=
  formed_runPacket h fun _ _ => by simp [h]

@[simp] theorem formed_execPred (q : StreamId) (n : BitVec 8) (cond : WCond) (wide : Bool) (a cmp : Word) (h : Memory.wf s.mem) :
    Formed (execPred q n cond wide a cmp s) := by
  refine formed_runPacket h fun x f => wf_packetAcc q f _ h fun v t e => ?_
  have ht := wf_of_eq (vaRead_mem e) h
  (repeat' split) <;> simp [ht]

@[simp] theorem formed_execWaitmem (q : StreamId) (cond : WCond) (wide : Bool) (a cmp : Word) (h : Memory.wf s.mem) :
    Formed (execWaitmem q cond wide a cmp s) := by
  refine formed_runPacket h fun x f => wf_packetAcc q f _ h fun v t e => ?_
  have ht := wf_of_eq (vaRead_mem e) h
  split <;> simp [ht]

@[simp] theorem formed_execWrite (q : StreamId) (wide : Bool) (a x : Word) (h : Memory.wf s.mem) :
    Formed (execWrite q wide a x s) :=
  formed_runPacket h fun _ f => wf_packetWrite q f _ h fun _ e => by simp [wf_vaWrite e h]

theorem wf_signalAcc {t : State} {q : StreamId} {die n : Nat} {a x : Word} (e : signalAcc s q die a x n = .ok t)
    (h : Memory.wf s.mem) : Memory.wf t.mem := by
  unfold signalAcc at e
  split at e
  · cases e
  · split at e
    · cases e
    · cases e; simp [h]
  · cases e

@[simp] theorem formed_execSignal (q : StreamId) (irq wide : Bool) (a x : Word) (h : Memory.wf s.mem) :
    Formed (execSignal q irq wide a x s) := by
  refine formed_runPacket h fun y f => wf_packetWrite q f _ h fun t e => ?_
  have ht := wf_signalAcc e h
  dsimp only
  split <;> simp [ht]

@[simp] theorem formed_execLaunch (q : StreamId) (p : LaunchPkt) (h : Memory.wf s.mem) : Formed (execLaunch q p s) := by
  refine formed_runPacket h fun x f => ?_
  dsimp only
  split
  · simp [h]
  · split
    · exact wf_onRecord q _ f _ h fun t ht => wf_endAtOnce q _ 4 ht
    · split
      · exact h
      · exact wf_launchRead q f _ 8 _ h fun as t ht => wf_launchRead q f _ 11 _ ht fun hs u hu =>
          wf_onRecord q _ f _ hu fun v hv => wf_launchNest q _ _ _ hv

/-! ### The time limits, the host and the life cycle -/

theorem wf_deadlocks (ns : List Nat) (h : Memory.wf s.mem) : Memory.wf (ns.foldl deadlock s).mem := by
  induction ns generalizing s with
  | nil => exact h
  | cons n ns ih => exact ih (wf_deadlock n h)

@[simp] theorem formed_execStarve (p : Nat) (h : Memory.wf s.mem) : Formed (execStarve p s) := by
  unfold execStarve
  split
  · simp [h]
  · refine formed_next.2 ?_
    split
    · simp [h]
    · exact wf_deadlocks _ (by simp [h])

theorem wf_recWrites {β : Type} {a : β → State → Agent} {n : Nat} {op : β → RecOp} (xs : List β) (h : Memory.wf s.mem) :
    Memory.wf (xs.foldl (fun s x => recWrite s (a x s) n (op x)) s).mem := by
  induction xs generalizing s with
  | nil => exact h
  | cons x xs ih => exact ih (wf_recWrite _ n _ h)

@[simp] theorem formed_execEnded (n : Nat) (h : Memory.wf s.mem) : Formed (execEnded n s) := by
  unfold execEnded
  dsimp only
  split
  · simp [h]
  · split
    · simp [h]
    · exact formed_next.2 (wf_endLaunch n 6 (wf_recWrites _ h))

theorem wf_bar2Write (fn fuel : Nat) {va : Word} {bs : List Byte} (h : Memory.wf s.mem) :
    Memory.wf (bar2Write s fn va bs fuel).mem := by
  induction fuel generalizing s va bs with
  | zero => exact h
  | succ fuel ih =>
    unfold bar2Write
    split
    · exact h
    · refine ih ?_
      split <;> simp [h]

@[simp] theorem formed_execHostWrite (fn off : Nat) (bytes : List Byte) (h : Memory.wf s.mem) :
    Formed (execHostWrite fn off bytes s) := by
  unfold execHostWrite
  dsimp only
  (repeat' split) <;> simp [h, wf_bar2Write]

theorem lineRead_mem (s : State) (fn loc k : Nat) (keep : Bool) : (lineRead s fn loc k keep).2.mem = s.mem := by
  unfold lineRead
  split
  · rfl
  · dsimp only
    split <;> simp

theorem bar2Read_mem {t : State} {fn fuel n : Nat} {va : Word} {keep : Bool} {bs : List Byte}
    (e : bar2Read s fn va n keep fuel = some (bs, t)) : t.mem = s.mem := by
  induction fuel generalizing s va n bs t with
  | zero => cases e; rfl
  | succ fuel ih =>
    unfold bar2Read at e
    split at e
    · cases e; rfl
    · split at e
      · split at e
        · cases e
        · obtain ⟨⟨cs, u⟩, hr, e⟩ := Option.map_eq_some_iff.1 e
          cases e
          exact (ih hr).trans (lineRead_mem ..)
      · cases e

@[simp] theorem formed_execHostRead (fn off n : Nat) (keep : Bool) (h : Memory.wf s.mem) :
    Formed (execHostRead fn off n keep s) := by
  unfold execHostRead
  split
  · simp [h]
  · split
    · split
      · split
        · rename_i e
          exact formed_next.2 (wf_of_eq ((answer_mem ..).trans (bar2Read_mem e)) h)
        · simp [h]
      · simp [h]
    · dsimp only
      split <;> simp [h]

@[simp] theorem formed_execHousekeepingStore (pa : Nat) (bytes : List Byte) (future : Option (Nat × Nat)) (h : Memory.wf s.mem) :
    Formed (execHousekeepingStore pa bytes future s) := by
  unfold execHousekeepingStore
  split
  · simp [h]
  · have hs : Memory.wf (emptyNew s (houseStore s pa bytes (bytes.length + 1))).mem := wf_emptyNew s (wf_houseStore _ _ _ h)
    dsimp only
    split
    · simp [hs]
    · exact formed_next.2 hs

theorem wf_empty : Memory.wf [] := memory_wf_reset

@[simp] theorem formed_resetDevice : Formed (.next (resetDevice s)) := formed_next.2 (by simp [wf_empty])

@[simp] theorem formed_execDeviceReset : Formed (execDeviceReset s) := formed_resetDevice

@[simp] theorem formed_execThermalReset : Formed (execThermalReset s) := formed_resetDevice

@[simp] theorem formed_execLifecycleWipeDone (h : Memory.wf s.mem) : Formed (execLifecycleWipeDone s) :=
  formed_ite formed_resetDevice (formed_next.2 h)

end Sys2Proof.Proofs.MemoryForm
end

section
/-! PROOFS. Memory keeps its canonical form: each instruction, and a step. -/

namespace Sys2Proof.Proofs.MemoryForm

open Machine Claims Laws

variable {s : State}

/-! ### Integer, address and uniform words (R55–R71) -/

@[simp] theorem formed_int2 (h : Hd) (d a b : Opnd) (f : Word → Word → Word) (hs : Memory.wf s.mem) :
    Formed (int2 s h d a b f) := by simp [int2, hs]

@[simp] theorem formed_int3 (h : Hd) (d a b : Opnd) (f : Word → Word → Word → Word) (hs : Memory.wf s.mem) :
    Formed (int3 s h d a b f) := by simp [int3, hs]

@[simp] theorem formed_int1 (h : Hd) (d a : Opnd) (f : Word → Word) (hs : Memory.wf s.mem) :
    Formed (int1 s h d a f) := by simp [int1, hs]

@[simp] theorem formed_packedWord (h : Hd) (t : PTy) (d a b : Opnd) (f : Int → Int → Int) (hs : Memory.wf s.mem) :
    Formed (packedWord s h t d a b f) := by simp [packedWord, hs]

@[simp] theorem formed_execAdd (h : Hd) (d a b : Opnd) (hs : Memory.wf s.mem) :
    Formed (execAdd h d a b s) := by simp [execAdd, hs]

@[simp] theorem formed_execSub (h : Hd) (d a b : Opnd) (hs : Memory.wf s.mem) :
    Formed (execSub h d a b s) := by simp [execSub, hs]

@[simp] theorem formed_execAnd (h : Hd) (d a b : Opnd) (hs : Memory.wf s.mem) :
    Formed (execAnd h d a b s) := by simp [execAnd, hs]

@[simp] theorem formed_execOr (h : Hd) (d a b : Opnd) (hs : Memory.wf s.mem) : Formed (execOr h d a b s) := by simp [execOr, hs]

@[simp] theorem formed_execXor (h : Hd) (d a b : Opnd) (hs : Memory.wf s.mem) :
    Formed (execXor h d a b s) := by simp [execXor, hs]

@[simp] theorem formed_execAndn (h : Hd) (d a b : Opnd) (hs : Memory.wf s.mem) :
    Formed (execAndn h d a b s) := by simp [execAndn, hs]

@[simp] theorem formed_execMin (h : Hd) (d a b : Opnd) (hs : Memory.wf s.mem) :
    Formed (execMin h d a b s) := by simp [execMin, hs]

@[simp] theorem formed_execMax (h : Hd) (d a b : Opnd) (hs : Memory.wf s.mem) :
    Formed (execMax h d a b s) := by simp [execMax, hs]

@[simp] theorem formed_execAddi (h : Hd) (d a : Opnd) (imm : BitVec 8) (hs : Memory.wf s.mem) :
    Formed (execAddi h d a imm s) := by simp [execAddi, hs]

@[simp] theorem formed_execShli (h : Hd) (d a : Opnd) (imm : BitVec 6) (hs : Memory.wf s.mem) :
    Formed (execShli h d a imm s) := by simp [execShli, hs]

@[simp] theorem formed_execShri (h : Hd) (d a : Opnd) (imm : BitVec 6) (hs : Memory.wf s.mem) :
    Formed (execShri h d a imm s) := by simp [execShri, hs]

@[simp] theorem formed_execSari (h : Hd) (d a : Opnd) (imm : BitVec 6) (hs : Memory.wf s.mem) :
    Formed (execSari h d a imm s) := by simp [execSari, hs]

@[simp] theorem formed_execLi (h : Hd) (d : Opnd) (imm : BitVec 17) (hs : Memory.wf s.mem) :
    Formed (execLi h d imm s) := by simp [execLi, hs]

@[simp] theorem formed_execLis (h : Hd) (d : Opnd) (imm : BitVec 16) (hs : Memory.wf s.mem) :
    Formed (execLis h d imm s) := by simp [execLis, hs]

@[simp] theorem formed_execAddS32 (h : Hd) (d a b : Opnd) (hs : Memory.wf s.mem) :
    Formed (execAddS32 h d a b s) := by simp [execAddS32, hs]

@[simp] theorem formed_execSubS32 (h : Hd) (d a b : Opnd) (hs : Memory.wf s.mem) :
    Formed (execSubS32 h d a b s) := by simp [execSubS32, hs]

@[simp] theorem formed_execMulS32 (h : Hd) (d a b : Opnd) (hs : Memory.wf s.mem) :
    Formed (execMulS32 h d a b s) := by simp [execMulS32, hs]

@[simp] theorem formed_execShlS32 (h : Hd) (d a b : Opnd) (hs : Memory.wf s.mem) :
    Formed (execShlS32 h d a b s) := by simp [execShlS32, hs]

@[simp] theorem formed_execShrS32 (h : Hd) (d a b : Opnd) (hs : Memory.wf s.mem) :
    Formed (execShrS32 h d a b s) := by simp [execShrS32, hs]

@[simp] theorem formed_execSarS32 (h : Hd) (d a b : Opnd) (hs : Memory.wf s.mem) :
    Formed (execSarS32 h d a b s) := by simp [execSarS32, hs]

@[simp] theorem formed_execBfi (h : Hd) (d a b : Opnd) (hs : Memory.wf s.mem) :
    Formed (execBfi h d a b s) := by simp [execBfi, hs]

@[simp] theorem formed_execPadd (h : Hd) (ty : PTy) (d a b : Opnd) (hs : Memory.wf s.mem) :
    Formed (execPadd h ty d a b s) := by simp [execPadd, hs]

@[simp] theorem formed_execShl (h : Hd) (d a b : Opnd) (hs : Memory.wf s.mem) :
    Formed (execShl h d a b s) := by simp [execShl, hs]

@[simp] theorem formed_execShr (h : Hd) (d a b : Opnd) (hs : Memory.wf s.mem) :
    Formed (execShr h d a b s) := by simp [execShr, hs]

@[simp] theorem formed_execSar (h : Hd) (d a b : Opnd) (hs : Memory.wf s.mem) :
    Formed (execSar h d a b s) := by simp [execSar, hs]

@[simp] theorem formed_execRol (h : Hd) (d a b : Opnd) (hs : Memory.wf s.mem) :
    Formed (execRol h d a b s) := by simp [execRol, hs]

@[simp] theorem formed_execMinu (h : Hd) (d a b : Opnd) (hs : Memory.wf s.mem) :
    Formed (execMinu h d a b s) := by simp [execMinu, hs]

@[simp] theorem formed_execMaxu (h : Hd) (d a b : Opnd) (hs : Memory.wf s.mem) :
    Formed (execMaxu h d a b s) := by simp [execMaxu, hs]

@[simp] theorem formed_execMul (h : Hd) (d a b : Opnd) (hs : Memory.wf s.mem) :
    Formed (execMul h d a b s) := by simp [execMul, hs]

@[simp] theorem formed_execMulh (h : Hd) (d a b : Opnd) (hs : Memory.wf s.mem) :
    Formed (execMulh h d a b s) := by simp [execMulh, hs]

@[simp] theorem formed_execMulhu (h : Hd) (d a b : Opnd) (hs : Memory.wf s.mem) :
    Formed (execMulhu h d a b s) := by simp [execMulhu, hs]

@[simp] theorem formed_divWord (h : Hd) (d a b : Opnd) (f : Word → Word → Word) (hs : Memory.wf s.mem) :
    Formed (divWord s h d a b f) := by simp [divWord, hs]

@[simp] theorem formed_execDiv (h : Hd) (d a b : Opnd) (hs : Memory.wf s.mem) :
    Formed (execDiv h d a b s) := by simp [execDiv, hs]

@[simp] theorem formed_execDivu (h : Hd) (d a b : Opnd) (hs : Memory.wf s.mem) :
    Formed (execDivu h d a b s) := by simp [execDivu, hs]

@[simp] theorem formed_execRem (h : Hd) (d a b : Opnd) (hs : Memory.wf s.mem) :
    Formed (execRem h d a b s) := by simp [execRem, hs]

@[simp] theorem formed_execRemu (h : Hd) (d a b : Opnd) (hs : Memory.wf s.mem) :
    Formed (execRemu h d a b s) := by simp [execRemu, hs]

@[simp] theorem formed_execMad (h : Hd) (d a b : Opnd) (hs : Memory.wf s.mem) :
    Formed (execMad h d a b s) := by simp [execMad, hs]

@[simp] theorem formed_execBfxZ (h : Hd) (d a b : Opnd) (hs : Memory.wf s.mem) :
    Formed (execBfxZ h d a b s) := by simp [execBfxZ, hs]

@[simp] theorem formed_execBfxS (h : Hd) (d a b : Opnd) (hs : Memory.wf s.mem) :
    Formed (execBfxS h d a b s) := by simp [execBfxS, hs]

@[simp] theorem formed_execClz (h : Hd) (d a : Opnd) (hs : Memory.wf s.mem) : Formed (execClz h d a s) := by simp [execClz, hs]

@[simp] theorem formed_execCtz (h : Hd) (d a : Opnd) (hs : Memory.wf s.mem) : Formed (execCtz h d a s) := by simp [execCtz, hs]

@[simp] theorem formed_execPopc (h : Hd) (d a : Opnd) (hs : Memory.wf s.mem) : Formed (execPopc h d a s) := by simp [execPopc, hs]

@[simp] theorem formed_execBrev (h : Hd) (d a : Opnd) (hs : Memory.wf s.mem) : Formed (execBrev h d a s) := by simp [execBrev, hs]

@[simp] theorem formed_execAbs (h : Hd) (d a : Opnd) (hs : Memory.wf s.mem) : Formed (execAbs h d a s) := by simp [execAbs, hs]

@[simp] theorem formed_execMov (h : Hd) (d a : Opnd) (hs : Memory.wf s.mem) : Formed (execMov h d a s) := by simp [execMov, hs]

@[simp] theorem formed_execSext (h : Hd) (w : PackW) (d a : Opnd) (hs : Memory.wf s.mem) :
    Formed (execSext h w d a s) := by simp [execSext, hs]

@[simp] theorem formed_execZext (h : Hd) (w : PackW) (d a : Opnd) (hs : Memory.wf s.mem) :
    Formed (execZext h w d a s) := by simp [execZext, hs]

@[simp] theorem formed_execPsub (h : Hd) (ty : PTy) (d a b : Opnd) (hs : Memory.wf s.mem) :
    Formed (execPsub h ty d a b s) := by simp [execPsub, hs]

@[simp] theorem formed_execSel (h : Hd) (n : Fin 8) (d a b : Opnd) (hs : Memory.wf s.mem) :
    Formed (execSel h n d a b s) := by simp [execSel, hs]

@[simp] theorem formed_execCmp (h : Hd) (cond : Cmp) (d a b : Opnd) (hs : Memory.wf s.mem) :
    Formed (execCmp h cond d a b s) := by simp [execCmp, hs]

@[simp] theorem formed_execCmpi (h : Hd) (cond : Cmp) (d a : Opnd) (imm : BitVec 8) (hs : Memory.wf s.mem) :
    Formed (execCmpi h cond d a imm s) := by simp [execCmpi, hs]

@[simp] theorem formed_execPmin (h : Hd) (ty : PTy) (d a b : Opnd) (hs : Memory.wf s.mem) :
    Formed (execPmin h ty d a b s) := by simp [execPmin, hs]

@[simp] theorem formed_execLea (h : Hd) (scale : BitVec 2) (d a b : Opnd) (hs : Memory.wf s.mem) :
    Formed (execLea h scale d a b s) := by simp [execLea, hs]

@[simp] theorem formed_execLeaS32 (h : Hd) (scale : BitVec 2) (d a b : Opnd) (hs : Memory.wf s.mem) :
    Formed (execLeaS32 h scale d a b s) := by simp [execLeaS32, hs]

@[simp] theorem formed_execPmax (h : Hd) (ty : PTy) (d a b : Opnd) (hs : Memory.wf s.mem) :
    Formed (execPmax h ty d a b s) := by simp [execPmax, hs]

/-! ### Float words (R72–R102) -/

@[simp] theorem formed_flt2 (h : Hd) (t : FTy) (d a b : Opnd) (f : Nat → Nat → Nat × Flags) (hs : Memory.wf s.mem) :
    Formed (flt2 s h t d a b f) := by simp [flt2, hs]

@[simp] theorem formed_flt3 (h : Hd) (t : FTy) (d a b : Opnd) (f : Nat → Nat → Nat → Nat × Flags) (hs : Memory.wf s.mem) :
    Formed (flt3 s h t d a b f) := by simp [flt3, hs]

@[simp] theorem formed_flt1 (h : Hd) (t : FTy) (d a : Opnd) (f : Nat → Nat × Flags) (hs : Memory.wf s.mem) :
    Formed (flt1 s h t d a f) := by simp [flt1, hs]

@[simp] theorem formed_execFadd (h : Hd) (ty : FTy) (d a b : Opnd) (hs : Memory.wf s.mem) :
    Formed (execFadd h ty d a b s) := by simp [execFadd, hs]

@[simp] theorem formed_execFsub (h : Hd) (ty : FTy) (d a b : Opnd) (hs : Memory.wf s.mem) :
    Formed (execFsub h ty d a b s) := by simp [execFsub, hs]

@[simp] theorem formed_execFmul (h : Hd) (ty : FTy) (d a b : Opnd) (hs : Memory.wf s.mem) :
    Formed (execFmul h ty d a b s) := by simp [execFmul, hs]

@[simp] theorem formed_execFfma (h : Hd) (ty : FTy) (d a b : Opnd) (hs : Memory.wf s.mem) :
    Formed (execFfma h ty d a b s) := by simp [execFfma, hs]

@[simp] theorem formed_execFfms (h : Hd) (ty : FTy) (d a b : Opnd) (hs : Memory.wf s.mem) :
    Formed (execFfms h ty d a b s) := by simp [execFfms, hs]

@[simp] theorem formed_execFnma (h : Hd) (ty : FTy) (d a b : Opnd) (hs : Memory.wf s.mem) :
    Formed (execFnma h ty d a b s) := by simp [execFnma, hs]

@[simp] theorem formed_execFmin (h : Hd) (ty : FTy) (d a b : Opnd) (hs : Memory.wf s.mem) :
    Formed (execFmin h ty d a b s) := by simp [execFmin, hs]

@[simp] theorem formed_execFmax (h : Hd) (ty : FTy) (d a b : Opnd) (hs : Memory.wf s.mem) :
    Formed (execFmax h ty d a b s) := by simp [execFmax, hs]

@[simp] theorem formed_execFaddRz (h : Hd) (ty : FTy) (d a b : Opnd) (hs : Memory.wf s.mem) :
    Formed (execFaddRz h ty d a b s) := by simp [execFaddRz, hs]

@[simp] theorem formed_execFaddRu (h : Hd) (ty : FTy) (d a b : Opnd) (hs : Memory.wf s.mem) :
    Formed (execFaddRu h ty d a b s) := by simp [execFaddRu, hs]

@[simp] theorem formed_execFaddRd (h : Hd) (ty : FTy) (d a b : Opnd) (hs : Memory.wf s.mem) :
    Formed (execFaddRd h ty d a b s) := by simp [execFaddRd, hs]

@[simp] theorem formed_execFmulRz (h : Hd) (ty : FTy) (d a b : Opnd) (hs : Memory.wf s.mem) :
    Formed (execFmulRz h ty d a b s) := by simp [execFmulRz, hs]

@[simp] theorem formed_execFmulRu (h : Hd) (ty : FTy) (d a b : Opnd) (hs : Memory.wf s.mem) :
    Formed (execFmulRu h ty d a b s) := by simp [execFmulRu, hs]

@[simp] theorem formed_execFmulRd (h : Hd) (ty : FTy) (d a b : Opnd) (hs : Memory.wf s.mem) :
    Formed (execFmulRd h ty d a b s) := by simp [execFmulRd, hs]

@[simp] theorem formed_execFabs (h : Hd) (ty : FTy) (d a : Opnd) (hs : Memory.wf s.mem) :
    Formed (execFabs h ty d a s) := by simp [execFabs, hs]

@[simp] theorem formed_execFneg (h : Hd) (ty : FTy) (d a : Opnd) (hs : Memory.wf s.mem) :
    Formed (execFneg h ty d a s) := by simp [execFneg, hs]

@[simp] theorem formed_execFclass (h : Hd) (ty : FTy) (d a : Opnd) (hs : Memory.wf s.mem) :
    Formed (execFclass h ty d a s) := by simp [execFclass, hs]

@[simp] theorem formed_execFrnd (h : Hd) (ty : FTy) (rm : Rnd) (d a : Opnd) (hs : Memory.wf s.mem) :
    Formed (execFrnd h ty rm d a s) := by simp [execFrnd, hs]

@[simp] theorem formed_execFcpys (h : Hd) (ty : FTy) (d a b : Opnd) (hs : Memory.wf s.mem) :
    Formed (execFcpys h ty d a b s) := by simp [execFcpys, hs]

@[simp] theorem formed_execFscalb (h : Hd) (ty : FTy) (d a b : Opnd) (hs : Memory.wf s.mem) :
    Formed (execFscalb h ty d a b s) := by simp [execFscalb, hs]

@[simp] theorem formed_execFcmp (h : Hd) (cond : FCmp) (ty : FTy) (d a b : Opnd) (hs : Memory.wf s.mem) :
    Formed (execFcmp h cond ty d a b s) := by simp [execFcmp, hs]

@[simp] theorem formed_execCvtFloatFloat (h : Hd) (dst src : FTy) (rm : Rnd) (sat : Bool) (d a : Opnd) (hs : Memory.wf s.mem) :
    Formed (execCvtFloatFloat h dst src rm sat d a s) := by simp [execCvtFloatFloat, hs]

@[simp] theorem formed_execCvtIntegerFloat (h : Hd) (ity : ITy) (fty : FTy) (toInt : Bool) (rm : Rnd) (d a : Opnd)
    (hs : Memory.wf s.mem) : Formed (execCvtIntegerFloat h ity fty toInt rm d a s) := by simp [execCvtIntegerFloat, hs]

@[simp] theorem formed_execQnq4 (h : Hd) (dr : Bool) (d a b : Opnd) (hs : Memory.wf s.mem) :
    Formed (execQnq4 h dr d a b s) := by simp [execQnq4, hs]

@[simp] theorem formed_execDqnq4 (h : Hd) (d a b : Opnd) (hs : Memory.wf s.mem) :
    Formed (execDqnq4 h d a b s) := by simp [execDqnq4, hs]

@[simp] theorem formed_execQe8 (h : Hd) (fmt : FTy) (dr : Bool) (d a b : Opnd) (hs : Memory.wf s.mem) :
    Formed (execQe8 h fmt dr d a b s) := by simp [execQe8, hs]

@[simp] theorem formed_execDqe8 (h : Hd) (fmt : FTy) (d a b : Opnd) (hs : Memory.wf s.mem) :
    Formed (execDqe8 h fmt d a b s) := by simp [execDqe8, hs]

@[simp] theorem formed_execDot (h : Hd) (ty : FTy) (d a b : Opnd) (hs : Memory.wf s.mem) :
    Formed (execDot h ty d a b s) := by simp [execDot, hs]

@[simp] theorem formed_execFsum (h : Hd) (ty : FTy) (d a b : Opnd) (hs : Memory.wf s.mem) :
    Formed (execFsum h ty d a b s) := by simp [execFsum, hs]

@[simp] theorem formed_execPack (h : Hd) (w : PackW) (d a b : Opnd) (hs : Memory.wf s.mem) :
    Formed (execPack h w d a b s) := by simp [execPack, hs]

@[simp] theorem formed_execUnpack (h : Hd) (w : PackW) (d a b : Opnd) (hs : Memory.wf s.mem) :
    Formed (execUnpack h w d a b s) := by simp [execUnpack, hs]

/-! ### Special functions and random numbers (R103–R113) -/

@[simp] theorem formed_specWord (h : Hd) (t : STy) (d a : Opnd) (f : Nat → Nat × Flags) (hs : Memory.wf s.mem) :
    Formed (specWord s h t d a f) := by simp [specWord, hs]

@[simp] theorem formed_execRcp (h : Hd) (ty : STy) (d a : Opnd) (hs : Memory.wf s.mem) :
    Formed (execRcp h ty d a s) := by simp [execRcp, hs]

@[simp] theorem formed_execRsq (h : Hd) (ty : STy) (d a : Opnd) (hs : Memory.wf s.mem) :
    Formed (execRsq h ty d a s) := by simp [execRsq, hs]

@[simp] theorem formed_execSqrt (h : Hd) (ty : STy) (d a : Opnd) (hs : Memory.wf s.mem) :
    Formed (execSqrt h ty d a s) := by simp [execSqrt, hs]

@[simp] theorem formed_execExp2 (h : Hd) (ty : STy) (d a : Opnd) (hs : Memory.wf s.mem) :
    Formed (execExp2 h ty d a s) := by simp [execExp2, hs]

@[simp] theorem formed_execLog2 (h : Hd) (ty : STy) (d a : Opnd) (hs : Memory.wf s.mem) :
    Formed (execLog2 h ty d a s) := by simp [execLog2, hs]

@[simp] theorem formed_execSin (h : Hd) (ty : STy) (d a : Opnd) (hs : Memory.wf s.mem) :
    Formed (execSin h ty d a s) := by simp [execSin, hs]

@[simp] theorem formed_execCos (h : Hd) (ty : STy) (d a : Opnd) (hs : Memory.wf s.mem) :
    Formed (execCos h ty d a s) := by simp [execCos, hs]

@[simp] theorem formed_execTanh (h : Hd) (ty : STy) (d a : Opnd) (hs : Memory.wf s.mem) :
    Formed (execTanh h ty d a s) := by simp [execTanh, hs]

@[simp] theorem formed_execLse2 (h : Hd) (d a b : Opnd) (hs : Memory.wf s.mem) :
    Formed (execLse2 h d a b s) := by simp [execLse2, hs]

@[simp] theorem formed_rngWord (h : Hd) (d a b : Opnd) (f : Word → Word) (hs : Memory.wf s.mem) :
    Formed (rngWord s h d a b f) := by simp [rngWord, hs]

@[simp] theorem formed_execRngB64 (h : Hd) (d a b : Opnd) (hs : Memory.wf s.mem) :
    Formed (execRngB64 h d a b s) := by simp [execRngB64, hs]

@[simp] theorem formed_execRngF32 (h : Hd) (d a b : Opnd) (hs : Memory.wf s.mem) :
    Formed (execRngF32 h d a b s) := by simp [execRngF32, hs]

@[simp] theorem formed_execRngBf16 (h : Hd) (d a b : Opnd) (hs : Memory.wf s.mem) :
    Formed (execRngBf16 h d a b s) := by simp [execRngBf16, hs]

/-! ### Cross-lane words (R103, R104, R113–R121) -/

@[simp] theorem formed_laneWord (h : Hd) (r : LaneWord) (f : LaneIn → List (Nat × Word) × Flags) (hs : Memory.wf s.mem) :
    Formed (laneWord s h r f) := by
  refine formed_issue fun pl g sp => ?_
  (repeat' split) <;> simp [hs]

@[simp] theorem formed_execShuf (h : Hd) (w : LaneW) (d a b : Opnd) (hs : Memory.wf s.mem) :
    Formed (execShuf h w d a b s) := by simp [execShuf, hs]

@[simp] theorem formed_execBcast (h : Hd) (w : LaneW) (d a b : Opnd) (hs : Memory.wf s.mem) :
    Formed (execBcast h w d a b s) := by simp [execBcast, hs]

@[simp] theorem formed_execRdlane (h : Hd) (d a b : Opnd) (hs : Memory.wf s.mem) :
    Formed (execRdlane h d a b s) := by simp [execRdlane, hs]

@[simp] theorem formed_execWrlane (h : Hd) (d a b : Opnd) (hs : Memory.wf s.mem) :
    Formed (execWrlane h d a b s) := by simp [execWrlane, hs]

@[simp] theorem formed_voteWord (h : Hd) (d a : Opnd) (f : LaneIn → Word) (hs : Memory.wf s.mem) :
    Formed (voteWord s h d a f) := by simp [voteWord, hs]

@[simp] theorem formed_execVoteAny (h : Hd) (d a : Opnd) (hs : Memory.wf s.mem) :
    Formed (execVoteAny h d a s) := by simp [execVoteAny, hs]

@[simp] theorem formed_execVoteAll (h : Hd) (d a : Opnd) (hs : Memory.wf s.mem) :
    Formed (execVoteAll h d a s) := by simp [execVoteAll, hs]

@[simp] theorem formed_execVoteBallot (h : Hd) (d a : Opnd) (hs : Memory.wf s.mem) :
    Formed (execVoteBallot h d a s) := by simp [execVoteBallot, hs]

@[simp] theorem formed_execVoteEq (h : Hd) (d a : Opnd) (hs : Memory.wf s.mem) :
    Formed (execVoteEq h d a s) := by simp [execVoteEq, hs]

@[simp] theorem formed_execCompressCnt (h : Hd) (wide : Bool) (d a : Opnd) (hs : Memory.wf s.mem) :
    Formed (execCompressCnt h wide d a s) := by simp [execCompressCnt, hs]

@[simp] theorem formed_execCompress (h : Hd) (wide : Bool) (d a b : Opnd) (hs : Memory.wf s.mem) :
    Formed (execCompress h wide d a b s) := by simp [execCompress, hs]

@[simp] theorem formed_execExpand (h : Hd) (wide : Bool) (d a b : Opnd) (hs : Memory.wf s.mem) :
    Formed (execExpand h wide d a b s) := by simp [execExpand, hs]

@[simp] theorem formed_execSubperm (h : Hd) (w : PermW) (d a b : Opnd) (hs : Memory.wf s.mem) :
    Formed (execSubperm h w d a b s) := by simp [execSubperm, hs]

@[simp] theorem formed_execGred (h : Hd) (op : RedOp) (ty : RTy) (d a : Opnd) (hs : Memory.wf s.mem) :
    Formed (execGred h op ty d a s) := by simp [execGred, hs]

@[simp] theorem formed_execGscan (h : Hd) (op : RedOp) (ty : RTy) (excl : Bool) (d a : Opnd) (hs : Memory.wf s.mem) :
    Formed (execGscan h op ty excl d a s) := by simp [execGscan, hs]

@[simp] theorem formed_execSample (h : Hd) (ty : STy) (d a b : Opnd) (hs : Memory.wf s.mem) :
    Formed (execSample h ty d a b s) := by simp [execSample, hs]

/-! ### Words of memory (R134–R160) -/

@[simp] theorem formed_execLd (h : Hd) (sz : Sz) (t : Opnd) (b : Fin 8) (x : Opnd) (scale : BitVec 2) (disp : BitVec 3)
    (hs : Memory.wf s.mem) : Formed (execLd h sz t b x scale disp s) := by simp [execLd, hs]

@[simp] theorem formed_execSt (h : Hd) (sz : Sz) (t : Opnd) (b : Fin 8) (x : Opnd) (scale : BitVec 2) (disp : BitVec 3)
    (hs : Memory.wf s.mem) : Formed (execSt h sz t b x scale disp s) := by simp [execSt, hs]

@[simp] theorem formed_execLds (h : Hd) (sz : Sz) (t : Opnd) (b : Fin 8) (x : Opnd) (scale : BitVec 2) (disp : BitVec 3)
    (hs : Memory.wf s.mem) : Formed (execLds h sz t b x scale disp s) := by simp [execLds, hs]

@[simp] theorem formed_execPref (h : Hd) (_l2 : Bool) (_sz : Sz) (b : Fin 8) (x : Opnd) (_scale : BitVec 2) (_disp : BitVec 3)
    (hs : Memory.wf s.mem) : Formed (execPref h _l2 _sz b x _scale _disp s) := by
  refine formed_issue fun pl g sp => ?_
  (repeat' split) <;> simp [hs]

@[simp] theorem formed_atomicWord (h : Hd) (op n : Nat) (conv : Conv) (t : Opnd) (b : Fin 8) (x : Opnd) (scale : BitVec 2)
    (hs : Memory.wf s.mem) : Formed (atomicWord s h op n conv t b x scale) := by simp [atomicWord, hs]

@[simp] theorem formed_atomicInt (h : Hd) (op : Nat) (wide : Bool) (t : Opnd) (b : Fin 8) (x : Opnd) (scale : BitVec 2)
    (hs : Memory.wf s.mem) : Formed (atomicInt s h op wide t b x scale) := by simp [atomicInt, hs]

@[simp] theorem formed_execAadd (h : Hd) (wide : Bool) (t : Opnd) (b : Fin 8) (x : Opnd) (scale : BitVec 2)
    (hs : Memory.wf s.mem) : Formed (execAadd h wide t b x scale s) := by simp [execAadd, hs]

@[simp] theorem formed_execAand (h : Hd) (wide : Bool) (t : Opnd) (b : Fin 8) (x : Opnd) (scale : BitVec 2)
    (hs : Memory.wf s.mem) : Formed (execAand h wide t b x scale s) := by simp [execAand, hs]

@[simp] theorem formed_execAor (h : Hd) (wide : Bool) (t : Opnd) (b : Fin 8) (x : Opnd) (scale : BitVec 2)
    (hs : Memory.wf s.mem) : Formed (execAor h wide t b x scale s) := by simp [execAor, hs]

@[simp] theorem formed_execAxor (h : Hd) (wide : Bool) (t : Opnd) (b : Fin 8) (x : Opnd) (scale : BitVec 2)
    (hs : Memory.wf s.mem) : Formed (execAxor h wide t b x scale s) := by simp [execAxor, hs]

@[simp] theorem formed_execAxch (h : Hd) (wide : Bool) (t : Opnd) (b : Fin 8) (x : Opnd) (scale : BitVec 2)
    (hs : Memory.wf s.mem) : Formed (execAxch h wide t b x scale s) := by simp [execAxch, hs]

@[simp] theorem formed_execAminS (h : Hd) (wide : Bool) (t : Opnd) (b : Fin 8) (x : Opnd) (scale : BitVec 2)
    (hs : Memory.wf s.mem) : Formed (execAminS h wide t b x scale s) := by simp [execAminS, hs]

@[simp] theorem formed_execAmaxS (h : Hd) (wide : Bool) (t : Opnd) (b : Fin 8) (x : Opnd) (scale : BitVec 2)
    (hs : Memory.wf s.mem) : Formed (execAmaxS h wide t b x scale s) := by simp [execAmaxS, hs]

@[simp] theorem formed_execAcas (h : Hd) (wide : Bool) (t : Opnd) (b : Fin 8) (x : Opnd) (scale : BitVec 2)
    (hs : Memory.wf s.mem) : Formed (execAcas h wide t b x scale s) := by simp [execAcas, hs]

@[simp] theorem formed_execAminZ (h : Hd) (wide : Bool) (t : Opnd) (b : Fin 8) (x : Opnd) (scale : BitVec 2)
    (hs : Memory.wf s.mem) : Formed (execAminZ h wide t b x scale s) := by simp [execAminZ, hs]

@[simp] theorem formed_execAmaxZ (h : Hd) (wide : Bool) (t : Opnd) (b : Fin 8) (x : Opnd) (scale : BitVec 2)
    (hs : Memory.wf s.mem) : Formed (execAmaxZ h wide t b x scale s) := by simp [execAmaxZ, hs]

@[simp] theorem formed_execAfadd (h : Hd) (wide : Bool) (t : Opnd) (b : Fin 8) (x : Opnd) (scale : BitVec 2)
    (hs : Memory.wf s.mem) : Formed (execAfadd h wide t b x scale s) := by simp [execAfadd, hs]

@[simp] theorem formed_execAbinc (h : Hd) (t : Opnd) (b : Fin 8) (x : Opnd) (scale : BitVec 2) (hs : Memory.wf s.mem) :
    Formed (execAbinc h t b x scale s) := by simp [execAbinc, hs]

@[simp] theorem formed_execApmax (h : Hd) (t : Opnd) (b : Fin 8) (x : Opnd) (scale : BitVec 2) (hs : Memory.wf s.mem) :
    Formed (execApmax h t b x scale s) := by simp [execApmax, hs]

@[simp] theorem formed_execFrd (h : Hd) (t : Opnd) (b : Fin 8) (x : Opnd) (scale : BitVec 2) (hs : Memory.wf s.mem) :
    Formed (execFrd h t b x scale s) := by simp [execFrd, hs]

@[simp] theorem formed_execFwr (h : Hd) (t : Opnd) (b : Fin 8) (x : Opnd) (scale : BitVec 2) (hs : Memory.wf s.mem) :
    Formed (execFwr h t b x scale s) := by simp [execFwr, hs]

@[simp] theorem formed_execFclr (h : Hd) (b : Fin 8) (x : Opnd) (scale : BitVec 2) (hs : Memory.wf s.mem) :
    Formed (execFclr h b x scale s) := by simp [execFclr, hs]

@[simp] theorem formed_execWaitm (h : Hd) (cond : WCond) (wide : Bool) (t : Opnd) (b : Fin 8) (x : Opnd) (scale : BitVec 2)
    (hs : Memory.wf s.mem) : Formed (execWaitm h cond wide t b x scale s) := by simp [execWaitm, hs]

@[simp] theorem formed_execTrb (h : Hd) (n : Fin 8) (a : Opnd) (hs : Memory.wf s.mem) : Formed (execTrb h n a s) := by
  refine formed_issue fun pl g sp => ?_
  (repeat' split) <;> simp [hs]

/-! ### Fences, barriers and the event queue (R176–R186) -/

@[simp] theorem formed_execFence (h : Hd) (sc : Scope) (hs : Memory.wf s.mem) : Formed (execFence h sc s) := by
  refine formed_fpeIssue hs fun pl g sp => ?_
  (repeat' split) <;> simp [hs]

/-! ### Events of the matrix array (R245, R257, R264, R266) -/

@[simp] theorem formed_execArrayOperationStart (c : Nat) (u : AUnit) (h : Memory.wf s.mem) :
    Formed (execArrayOperationStart c u s) := by simp [execArrayOperationStart, h]

@[simp] theorem formed_execMmtStep (c : Nat) (h : Memory.wf s.mem) : Formed (execMmtStep c s) := by
  unfold execMmtStep
  dsimp only
  (repeat' split) <;> simp [h]

@[simp] theorem formed_execSlewGovernorStep (quad : Nat) (h : Memory.wf s.mem) : Formed (execSlewGovernorStep quad s) := by
  unfold execSlewGovernorStep
  dsimp only
  (repeat' split) <;> simp [h]

@[simp] theorem formed_execArrayOperationDrain (c : Nat) (u : AUnit) (h : Memory.wf s.mem) :
    Formed (execArrayOperationDrain c u s) := by
  unfold execArrayOperationDrain
  (repeat' split) <;> simp [h]

/-! ### Control words (R210–R242) -/

@[simp] theorem formed_execBra (_h : Hd) (neg : Bool) (p : Fin 8) (disp : BitVec 20) (h : Memory.wf s.mem) :
    Formed (execBra _h neg p disp s) := by
  refine formed_issue fun pl g sp => ?_
  (repeat' split) <;> simp [h]

@[simp] theorem formed_execBrp (_h : Hd) (neg : Bool) (p : Fin 8) (disp : BitVec 20) (h : Memory.wf s.mem) :
    Formed (execBrp _h neg p disp s) := by
  refine formed_issue fun pl g sp => ?_
  dsimp only
  (repeat' split) <;> simp [h]

@[simp] theorem formed_execJmpr (_h : Hd) (a : Opnd) (h : Memory.wf s.mem) : Formed (execJmpr _h a s) := by
  refine formed_issue fun pl g sp => ?_
  (repeat' split) <;> simp [h]

@[simp] theorem formed_execCall (_h : Hd) (disp : BitVec 16) (h : Memory.wf s.mem) : Formed (execCall _h disp s) := by
  refine formed_issue fun pl g sp => ?_
  (repeat' split) <;> simp [h]

@[simp] theorem formed_execCallr (_h : Hd) (a : Opnd) (h : Memory.wf s.mem) : Formed (execCallr _h a s) := by
  refine formed_issue fun pl g sp => ?_
  (repeat' split) <;> simp [h]

@[simp] theorem formed_ftrainWord (h : Hd) (disp : BitVec 16) (srcs : List Opnd) (f : PredEntry → Word →
    (Opnd → Word) → PredEntry) (hs : Memory.wf s.mem) : Formed (ftrainWord s h disp srcs f) := by
  refine formed_issue fun pl g sp => ?_
  (repeat' split) <;> simp [hs]

@[simp] theorem formed_execFtrainSeed (h : Hd) (k : BitVec 4) (disp : BitVec 16) (hs : Memory.wf s.mem) :
    Formed (execFtrainSeed h k disp s) := by simp [execFtrainSeed, hs]

@[simp] theorem formed_execFtrainForce (h : Hd) (k : BitVec 4) (disp : BitVec 16) (hs : Memory.wf s.mem) :
    Formed (execFtrainForce h k disp s) := by simp [execFtrainForce, hs]

@[simp] theorem formed_execFtrainClear (h : Hd) (disp : BitVec 16) (hs : Memory.wf s.mem) :
    Formed (execFtrainClear h disp s) := by simp [execFtrainClear, hs]

@[simp] theorem formed_fcallWord (nm1 : BitVec 6) (disp : BitVec 16) (force : Bool) (h : Memory.wf s.mem) :
    Formed (fcallWord s nm1 disp force) := by
  refine formed_issue fun pl g sp => ?_
  dsimp only
  (repeat' split) <;> simp [h]

@[simp] theorem formed_execFcall (_h : Hd) (nm1 : BitVec 6) (disp : BitVec 16) (h : Memory.wf s.mem) :
    Formed (execFcall _h nm1 disp s) := by simp [execFcall, h]

@[simp] theorem formed_execFcallForce (_h : Hd) (nm1 : BitVec 6) (disp : BitVec 16) (h : Memory.wf s.mem) :
    Formed (execFcallForce _h nm1 disp s) := by simp [execFcallForce, h]

@[simp] theorem formed_execRet (_h : Hd) (h : Memory.wf s.mem) : Formed (execRet _h s) := by
  refine formed_issue fun pl g sp => ?_
  (repeat' split) <;> simp [h]

@[simp] theorem formed_execJoin (_h : Hd) (h : Memory.wf s.mem) : Formed (execJoin _h s) := by
  refine formed_issue fun pl g sp => ?_
  (repeat' split) <;> simp [h]

@[simp] theorem formed_execYield (_h : Hd) (h : Memory.wf s.mem) : Formed (execYield _h s) := by
  refine formed_issue fun pl g sp => ?_
  simp [h]

@[simp] theorem formed_execNop (h : Hd) (hs : Memory.wf s.mem) : Formed (execNop h s) := by
  refine formed_issue fun pl g sp => ?_
  simp [hs]

@[simp] theorem formed_execExit (_h : Hd) (sc : Scope) (h : Memory.wf s.mem) : Formed (execExit _h sc s) := by
  refine formed_fpeIssue h fun pl g sp => ?_
  (repeat' split) <;> simp [h]

/-! ### System words (R341–R362) -/

@[simp] theorem formed_execRdsr (h : Hd) (d : Opnd) (n : BitVec 14) (hs : Memory.wf s.mem) : Formed (execRdsr h d n s) := by
  refine formed_syncIssue hs fun pl g sp => ?_
  (repeat' split) <;> simp [hs]

@[simp] theorem formed_execWrsr (h : Hd) (a : Opnd) (n : BitVec 14) (hs : Memory.wf s.mem) : Formed (execWrsr h a n s) := by
  refine formed_syncIssue hs fun pl g sp => ?_
  (repeat' split) <;> simp [hs]

@[simp] theorem formed_readClock (h : Hd) (d : Opnd) (sync : Bool) (f : Nat → Group → Option Word) (hs : Memory.wf s.mem) :
    Formed (readClock s h d sync f) := by
  refine formed_syncIssue hs fun pl g sp => ?_
  (repeat' split) <;> simp [hs]

@[simp] theorem formed_execRdctr (h : Hd) (d : Opnd) (sync : Bool) (sel : BitVec 13) (hs : Memory.wf s.mem) :
    Formed (execRdctr h d sync sel s) := by simp [execRdctr, hs]

@[simp] theorem formed_execRdclk (h : Hd) (d : Opnd) (sync : Bool) (hs : Memory.wf s.mem) :
    Formed (execRdclk h d sync s) := by simp [execRdclk, hs]

@[simp] theorem formed_stopWord (kind : BitVec 2) (code : BitVec 14) (h : Memory.wf s.mem) : Formed (stopWord s kind code) := by
  refine formed_fpeIssue h fun pl g sp => ?_
  (repeat' split) <;> simp [h]

@[simp] theorem formed_execTrap (_h : Hd) (code : BitVec 14) (h : Memory.wf s.mem) :
    Formed (execTrap _h code s) := by simp [execTrap, h]

@[simp] theorem formed_execSyscall (_h : Hd) (code : BitVec 14) (h : Memory.wf s.mem) :
    Formed (execSyscall _h code s) := by simp [execSyscall, h]

@[simp] theorem formed_execBkpt (_h : Hd) (h : Memory.wf s.mem) : Formed (execBkpt _h s) := by
  refine formed_syncIssue h fun pl g sp => ?_
  simp [h]

@[simp] theorem formed_execSelftest (h : Hd) (d : Opnd) (pattern : BitVec 14) (hs : Memory.wf s.mem) :
    Formed (execSelftest h d pattern s) := by
  refine formed_issue fun pl g sp => ?_
  dsimp only
  (repeat' split) <;> simp [hs]

/-! ### Matrix and plan words (R252–R291) -/

@[simp] theorem formed_arrayWord (h : Hd) (w : EngWord) (mk : Group → Split → MArray → Except Cause (ArrOp × MArray))
    (fin : Place → Nat → Group → Split → Group × Split) (hs : Memory.wf s.mem) : Formed (arrayWord s h w mk fin) := by
  refine formed_issue fun pl g sp => ?_
  dsimp only
  (repeat' split) <;> simp [hs]

@[simp] theorem formed_plainOp (h : Hd) (os : List Opnd) (f : (Opnd → Word) → ArrOp) (hs : Memory.wf s.mem) :
    Formed (plainOp s h os f) := by simp [plainOp, hs]

@[simp] theorem formed_execFmtb (h : Hd) (a : Opnd) (hs : Memory.wf s.mem) : Formed (execFmtb h a s) := by
  refine formed_engChecks hs fun pl g sp => ?_
  (repeat' split) <;> simp [hs]

@[simp] theorem formed_execWld (h : Hd) (a b : Opnd) (hs : Memory.wf s.mem) : Formed (execWld h a b s) := by simp [execWld, hs]

@[simp] theorem formed_execWswp (h : Hd) (hs : Memory.wf s.mem) : Formed (execWswp h s) := by simp [execWswp, hs]

@[simp] theorem formed_execAccz (h : Hd) (mask : BitVec 4) (hs : Memory.wf s.mem) :
    Formed (execAccz h mask s) := by simp [execAccz, hs]

@[simp] theorem formed_execMma (h : Hd) (a b c : Opnd) (hs : Memory.wf s.mem) :
    Formed (execMma h a b c s) := by simp [execMma, hs]

@[simp] theorem formed_execAccout (h : Hd) (a b c : Opnd) (hs : Memory.wf s.mem) :
    Formed (execAccout h a b c s) := by simp [execAccout, hs]

@[simp] theorem formed_execAccin (h : Hd) (a b c : Opnd) (hs : Memory.wf s.mem) :
    Formed (execAccin h a b c s) := by simp [execAccin, hs]

@[simp] theorem formed_execMmt (h : Hd) (a : Opnd) (hs : Memory.wf s.mem) : Formed (execMmt h a s) := by simp [execMmt, hs]

@[simp] theorem formed_execMstat (h : Hd) (d : Opnd) (hs : Memory.wf s.mem) : Formed (execMstat h d s) := by
  refine formed_engChecks hs fun pl g sp => ?_
  (repeat' split) <;> simp [hs]

@[simp] theorem formed_execPld (h : Hd) (a : Opnd) (hs : Memory.wf s.mem) : Formed (execPld h a s) := by simp [execPld, hs]

@[simp] theorem formed_execPcost (h : Hd) (a b : Opnd) (hs : Memory.wf s.mem) :
    Formed (execPcost h a b s) := by simp [execPcost, hs]

@[simp] theorem formed_pregWord (h : Hd) (scl out col : Bool) (a : Opnd) (hs : Memory.wf s.mem) :
    Formed (pregWord s h scl out col a) := by
  unfold pregWord
  (repeat' split) <;> simp [hs]

@[simp] theorem formed_execPmarg (h : Hd) (out col : Bool) (a : Opnd) (hs : Memory.wf s.mem) :
    Formed (execPmarg h out col a s) := by simp [execPmarg, hs]

@[simp] theorem formed_execPscl (h : Hd) (out col : Bool) (a : Opnd) (hs : Memory.wf s.mem) :
    Formed (execPscl h out col a s) := by simp [execPscl, hs]

@[simp] theorem formed_execBalance (h : Hd) (a b : Opnd) (hs : Memory.wf s.mem) :
    Formed (execBalance h a b s) := by simp [execBalance, hs]

@[simp] theorem formed_execPpart (h : Hd) (row : Bool) (a : Opnd) (hs : Memory.wf s.mem) :
    Formed (execPpart h row a s) := by simp [execPpart, hs]

@[simp] theorem formed_execPout (h : Hd) (a b c : Opnd) (hs : Memory.wf s.mem) :
    Formed (execPout h a b c s) := by simp [execPout, hs]

@[simp] theorem formed_execPdist (h : Hd) (a b : Opnd) (hs : Memory.wf s.mem) :
    Formed (execPdist h a b s) := by simp [execPdist, hs]

@[simp] theorem formed_execPstat (h : Hd) (d : Opnd) (hs : Memory.wf s.mem) : Formed (execPstat h d s) := by
  refine formed_issue fun pl g sp => ?_
  dsimp only
  (repeat' split) <;> simp [hs]

/-! ### Copy words and the copy engine (R292–R304) -/

@[simp] theorem formed_execCpy (h : Hd) (a b c : Opnd) (hs : Memory.wf s.mem) :
    Formed (execCpy h a b c s) := by simp [execCpy, hs]

@[simp] theorem formed_execCpy2d (h : Hd) (a : Opnd) (hs : Memory.wf s.mem) : Formed (execCpy2d h a s) := by simp [execCpy2d, hs]

@[simp] theorem formed_execGth (h : Hd) (a : Opnd) (hs : Memory.wf s.mem) : Formed (execGth h a s) := by simp [execGth, hs]

@[simp] theorem formed_execSct (h : Hd) (a : Opnd) (hs : Memory.wf s.mem) : Formed (execSct h a s) := by simp [execSct, hs]

@[simp] theorem formed_execCpyr (h : Hd) (a b c : Opnd) (hs : Memory.wf s.mem) :
    Formed (execCpyr h a b c s) := by simp [execCpyr, hs]

@[simp] theorem formed_execCopyOperationStart (c : Nat) (h : Memory.wf s.mem) : Formed (execCopyOperationStart c s) := by
  unfold execCopyOperationStart
  dsimp only
  (repeat' split) <;> simp [h]

@[simp] theorem formed_execCopyAccessRetry (c idx : Nat) (fix : FaultFix) (h : Memory.wf s.mem) :
    Formed (execCopyAccessRetry c idx fix s) := by
  unfold execCopyAccessRetry
  (repeat' split) <;> simp [h]

/-! ### Events of the cores (R28, R56, R130–R139, R165, R166) -/

@[simp] theorem formed_execGroupRunSelect (c p : Nat) (h : Memory.wf s.mem) : Formed (execGroupRunSelect c p s) := by
  unfold execGroupRunSelect
  dsimp only
  (repeat' split) <;> simp [h]

@[simp] theorem formed_execVariableResultWrite (c slot idx : Nat) (h : Memory.wf s.mem) :
    Formed (execVariableResultWrite c slot idx s) := by
  unfold execVariableResultWrite
  (repeat' split) <;> simp [h]

@[simp] theorem formed_execDividerResult (c p idx : Nat) (h : Memory.wf s.mem) : Formed (execDividerResult c p idx s) := by
  unfold execDividerResult
  (repeat' split) <;> simp [h]

@[simp] theorem formed_execPageWalk (c idx : Nat) (h : Memory.wf s.mem) : Formed (execPageWalk c idx s) := by
  unfold execPageWalk
  dsimp only
  (repeat' split) <;> simp [h]

@[simp] theorem formed_execTrbComplete (c slot idx : Nat) (h : Memory.wf s.mem) : Formed (execTrbComplete c slot idx s) := by
  unfold execTrbComplete
  dsimp only
  (repeat' split) <;> simp [h]

@[simp] theorem formed_execShootDown (n : Nat) (h : Memory.wf s.mem) : Formed (execShootDown n s) := by simp [execShootDown, h]

@[simp] theorem formed_execShootDownAck (n : Nat) (h : Memory.wf s.mem) : Formed (execShootDownAck n s) := by
  unfold execShootDownAck
  dsimp only
  (repeat' split) <;> simp [h]

@[simp] theorem formed_execPageFaultResume (c slot split : Nat) (fix : FaultFix) (h : Memory.wf s.mem) :
    Formed (execPageFaultResume c slot split fix s) := by
  unfold execPageFaultResume
  (repeat' split) <;> simp [h]

@[simp] theorem formed_execAccessPerformed (c slot : Nat) (h : Memory.wf s.mem) : Formed (execAccessPerformed c slot s) := by
  unfold execAccessPerformed
  (repeat' split) <;> simp [h]

@[simp] theorem formed_execInstructionFetch (c block : Nat) (h : Memory.wf s.mem) : Formed (execInstructionFetch c block s) := by
  unfold execInstructionFetch
  dsimp only
  (repeat' split) <;> simp [h]

@[simp] theorem formed_execCompletionRecordPost (c : Nat) (h : Memory.wf s.mem) :
    Formed (execCompletionRecordPost c s) := by simp [execCompletionRecordPost, h]

@[simp] theorem formed_execLogicalTimeTick (h : Memory.wf s.mem) :
    Formed (execLogicalTimeTick s) := by simp [execLogicalTimeTick, h]

@[simp] theorem formed_execRebase (h : Memory.wf s.mem) : Formed (execRebase s) := by
  unfold execRebase
  (repeat' split) <;> simp [h]

@[simp] theorem formed_execRebaseRelease (h : Memory.wf s.mem) : Formed (execRebaseRelease s) := by
  unfold execRebaseRelease
  (repeat' split) <;> simp [h]

/-! ### The saving of teams (R265, R331–R333) -/

@[simp] theorem formed_execPhaseBoundary (launch team : Nat) (h : Memory.wf s.mem) :
    Formed (execPhaseBoundary launch team s) := by
  unfold execPhaseBoundary
  dsimp only
  (repeat' split) <;> simp [h]

@[simp] theorem formed_execTeamSpill (launch team : Nat) (h : Memory.wf s.mem) : Formed (execTeamSpill launch team s) := by
  unfold execTeamSpill
  (repeat' split) <;> simp [h]

/-! ### Launch streams (R311–R322) -/

@[simp] theorem formed_execSqctlWrite (q : StreamId) (x : Word) (h : Memory.wf s.mem) : Formed (execSqctlWrite q x s) := by
  unfold execSqctlWrite
  (repeat' split) <;> simp [h]

@[simp] theorem formed_execSqtailWrite (q : StreamId) (x : Word) (h : Memory.wf s.mem) : Formed (execSqtailWrite q x s) := by
  unfold execSqtailWrite
  (repeat' split) <;> simp [h]

@[simp] theorem formed_execFrontEndFaultResume (q : StreamId) (fix : FaultFix) (h : Memory.wf s.mem) :
    Formed (execFrontEndFaultResume q fix s) := by
  unfold execFrontEndFaultResume
  dsimp only
  (repeat' split) <;> simp [h]

/-! ### Level words (R198–R208) -/

@[simp] theorem formed_lvWord (h : Hd) (d : Opnd) (lv : Fin 8) (once : Bool) (f : Launch → Group → Split → Nat → Option Word)
    (upd : Launch → Split → Split) (hs : Memory.wf s.mem) : Formed (lvWord s h d lv once f upd) := by
  refine formed_issue fun pl g sp => ?_
  dsimp only
  (repeat' split) <;> simp [hs]

@[simp] theorem formed_execRdmap (h : Hd) (sel : MapSel) (d : Opnd) (lv : Fin 8) (hs : Memory.wf s.mem) :
    Formed (execRdmap h sel d lv s) := by simp [execRdmap, hs]

@[simp] theorem formed_execLvext (h : Hd) (d : Opnd) (lv : Fin 8) (hs : Memory.wf s.mem) :
    Formed (execLvext h d lv s) := by simp [execLvext, hs]

@[simp] theorem formed_execLvidx (h : Hd) (d : Opnd) (lv : Fin 8) (hs : Memory.wf s.mem) :
    Formed (execLvidx h d lv s) := by simp [execLvidx, hs]

@[simp] theorem formed_execLvfirst (h : Hd) (d : Opnd) (lv : Fin 8) (hs : Memory.wf s.mem) :
    Formed (execLvfirst h d lv s) := by simp [execLvfirst, hs]

@[simp] theorem formed_execLvfor (h : Hd) (lv : Fin 8) (hs : Memory.wf s.mem) : Formed (execLvfor h lv s) := by
  refine formed_issue fun pl g sp => ?_
  (repeat' split) <;> simp [hs]

@[simp] theorem formed_execLvnext (h : Hd) (d : Opnd) (lv : Fin 8) (hs : Memory.wf s.mem) :
    Formed (execLvnext h d lv s) := by simp [execLvnext, hs]

@[simp] theorem formed_execLvbuf (h : Hd) (d : Opnd) (lv : Fin 8) (hs : Memory.wf s.mem) : Formed (execLvbuf h d lv s) := by
  refine formed_issue fun pl g sp => ?_
  (repeat' split) <;> simp [hs]

/-! ### Placement, slices and budgets (R326–R339) -/

@[simp] theorem formed_execTeamPlacement (d : Nat) (h : Memory.wf s.mem) : Formed (execTeamPlacement d s) := by
  unfold execTeamPlacement
  (repeat' split) <;> simp [h]

@[simp] theorem formed_execGroupStart (c slot : Nat) (h : Memory.wf s.mem) : Formed (execGroupStart c slot s) := by
  unfold execGroupStart
  (repeat' split) <;> simp [h]

@[simp] theorem formed_execLaunchEnd (n : Nat) (h : Memory.wf s.mem) : Formed (execLaunchEnd n s) := by
  unfold execLaunchEnd
  (repeat' split) <;> simp [h]

@[simp] theorem formed_execSliceExpiry (n : Nat) (h : Memory.wf s.mem) : Formed (execSliceExpiry n s) := by
  unfold execSliceExpiry
  (repeat' split) <;> simp [h]

@[simp] theorem formed_execBudgetPeriod (h : Memory.wf s.mem) : Formed (execBudgetPeriod s) := by
  unfold execBudgetPeriod
  (repeat' split) <;> simp [h]

@[simp] theorem formed_execLaunchTokenTick (h : Memory.wf s.mem) : Formed (execLaunchTokenTick s) := by
  unfold execLaunchTokenTick
  (repeat' split) <;> simp [h]

/-! ### Groups that do not run (R189, R190, R349, R350) -/

@[simp] theorem formed_execGroupResume (c slot : Nat) (how : Resume) (edits : List RegEdit) (h : Memory.wf s.mem) :
    Formed (execGroupResume c slot how edits s) := by
  unfold execGroupResume
  dsimp only
  (repeat' split) <;> simp [h]

@[simp] theorem formed_execDebuggerStop (c slot : Nat) (h : Memory.wf s.mem) : Formed (execDebuggerStop c slot s) := by
  unfold execDebuggerStop
  (repeat' split) <;> simp [h]

@[simp] theorem formed_execSelftestDone (c slot : Nat) (first : BitVec 16) (count : BitVec 32) (h : Memory.wf s.mem) :
    Formed (execSelftestDone c slot first count s) := by
  unfold execSelftestDone
  dsimp only
  (repeat' split) <;> simp [h]

/-! ### Writes of registers from outside (R343, R373) -/

@[simp] theorem formed_execMarginRun (port lane : Nat) (x : Word) (h : Memory.wf s.mem) :
    Formed (execMarginRun port lane x s) := by
  unfold execMarginRun
  (repeat' split) <;> simp [h]

@[simp] theorem formed_execMarginRunComplete (port lane : Nat) (err : BitVec 32) (h : Memory.wf s.mem) :
    Formed (execMarginRunComplete port lane err s) := by
  unfold execMarginRunComplete
  dsimp only
  (repeat' split) <;> simp [h]

@[simp] theorem formed_execRegisterWrite (r : RegName) (x : Word) (h : Memory.wf s.mem) : Formed (execRegisterWrite r x s) := by
  unfold execRegisterWrite
  (repeat' split) <;> simp [h]

@[simp] theorem formed_execLnkstWrite (port : Nat) (_x : Word) (h : Memory.wf s.mem) : Formed (execLnkstWrite port _x s) := by
  unfold execLnkstWrite
  (repeat' split) <;> simp [h]

/-! ### Links, the host and the housekeeping path (R187, R305–R309, R367) -/

@[simp] theorem formed_execThedelPacketDelivery (p : PodPacket) (h : Memory.wf s.mem) :
    Formed (execThedelPacketDelivery p s) := by
  unfold execThedelPacketDelivery
  dsimp only
  (repeat' split) <;> simp [h]

@[simp] theorem formed_execStop (port vl : Nat) (h : Memory.wf s.mem) : Formed (execStop port vl s) := by
  unfold execStop
  dsimp only
  (repeat' split) <;> simp [h]

@[simp] theorem formed_execGo (port vl : Nat) (h : Memory.wf s.mem) : Formed (execGo port vl s) := by
  unfold execGo
  dsimp only
  (repeat' split) <;> simp [h]

@[simp] theorem formed_execPacketAcknowledgement (port : Nat) (h : Memory.wf s.mem) :
    Formed (execPacketAcknowledgement port s) := by
  unfold execPacketAcknowledgement
  dsimp only
  (repeat' split) <;> simp [h]

@[simp] theorem formed_execLinkReplay (port lane : Nat) (out : ErrOutcome) (h : Memory.wf s.mem) :
    Formed (execLinkReplay port lane out s) := by simp [execLinkReplay, h]

@[simp] theorem formed_execHostReadBufferExpiry (idx : Nat) (h : Memory.wf s.mem) :
    Formed (execHostReadBufferExpiry idx s) := by simp [execHostReadBufferExpiry, h]

@[simp] theorem formed_execRecordAreaFaultResume (n : Nat) (fix : FaultFix) (h : Memory.wf s.mem) :
    Formed (execRecordAreaFaultResume n fix s) := by
  unfold execRecordAreaFaultResume
  dsimp only
  (repeat' split) <;> simp [h]

/-! ### The platform (R363–R377) -/

@[simp] theorem formed_execMregExtend (i : Nat) (image : List Byte) (h : Memory.wf s.mem) :
    Formed (execMregExtend i image s) := by
  unfold execMregExtend
  (repeat' split) <;> simp [h]

@[simp] theorem formed_execLiveUpdate (what : LiveImage) (image : List Byte) (h : Memory.wf s.mem) :
    Formed (execLiveUpdate what image s) := by
  unfold execLiveUpdate
  (repeat' split) <;> simp [h]

@[simp] theorem formed_execAttest (p : DoeReq) (h : Memory.wf s.mem) : Formed (execAttest p s) := by simp [execAttest, h]

@[simp] theorem formed_execProvision (p : DoeReq) (h : Memory.wf s.mem) : Formed (execProvision p s) := by simp [execProvision, h]

@[simp] theorem formed_execDeploy (p : DoeReq) (h : Memory.wf s.mem) : Formed (execDeploy p s) := by simp [execDeploy, h]

@[simp] theorem formed_execRma (p : DoeReq) (h : Memory.wf s.mem) : Formed (execRma p s) := by simp [execRma, h]

@[simp] theorem formed_execDoeDiscovery (idx : Nat) (h : Memory.wf s.mem) :
    Formed (execDoeDiscovery idx s) := by simp [execDoeDiscovery, h]

@[simp] theorem formed_execQuadRetire (d q : Nat) (h : Memory.wf s.mem) :
    Formed (execQuadRetire d q s) := by simp [execQuadRetire, h]

@[simp] theorem formed_execQuadReassign (d q : Nat) (part : Option Nat) (h : Memory.wf s.mem) :
    Formed (execQuadReassign d q part s) := by
  unfold execQuadReassign
  dsimp only
  (repeat' split) <;> simp [h]

@[simp] theorem formed_execMemoryErrorRetry (u : ErrUnit) (out : ErrOutcome) (h : Memory.wf s.mem) :
    Formed (execMemoryErrorRetry u out s) := by
  unfold execMemoryErrorRetry
  (repeat' split) <;> simp [h]

@[simp] theorem formed_execThermalThrottle (h : Memory.wf s.mem) :
    Formed (execThermalThrottle s) := by simp [execThermalThrottle, h]

@[simp] theorem formed_execThermalRecover (h : Memory.wf s.mem) : Formed (execThermalRecover s) := by simp [execThermalRecover, h]

/-! ### A step -/

theorem formed_exec (i : Instr) (h : Memory.wf s.mem) : Formed (exec i s) := by
  unfold exec
  split <;> simp [h]

/-- The checks at a bundle leave a state with memory in its canonical form, whether they stop the split or let it go on. -/
theorem wf_bundleChecks {t : State} {pl : Place} {g : Group} {sp : Split} (h : Memory.wf s.mem)
    (e : bundleChecks s pl g sp = .stop t ∨ bundleChecks s pl g sp = .go t) : Memory.wf t.mem := by
  have hm : t.mem = s.mem := by
    unfold bundleChecks at e
    dsimp only at e
    (repeat' split at e) <;> rcases e with e | e <;> cases e <;> simp
  exact wf_of_eq hm h

theorem formed_stepWord (pl : Place) (g : Group) (sp : Split) (h : Memory.wf s.mem) : Formed (stepWord s pl g sp) := by
  unfold stepWord
  split
  · simp [h]
  · split
    · rename_i e
      split at e
      · cases e
      · exact formed_next.2 (wf_bundleChecks h (.inl e))
    · rename_i t e
      have ht : Memory.wf t.mem := by
        split at e
        · cases e; exact h
        · exact wf_bundleChecks h (.inr e)
      split
      · exact formed_exec _ ht
      · simp [ht]

theorem formed_step (h : Memory.wf s.mem) : Formed (step s) := by
  unfold step
  split
  · exact formed_ite (formed_next.2 h) (formed_exec _ h)
  · split
    · exact formed_exec _ h
    · split
      · exact formed_exec _ h
      · exact formed_stepWord _ _ _ h

/-- Settles O6: whatever instruction, event or check a step performs, it answers no state whose memory has left its form. -/
theorem memoryKept : Obligations.MemoryKept := by
  unfold Obligations.MemoryKept
  intro s t h e
  exact formed_step h t e

end Sys2Proof.Proofs.MemoryForm
end

section
/-! PROOFS. A pending access is performed (R144, R154, R156, R165): the bytes and the full/empty bit that it changes, and the
waiters that a write of a full word wakes. -/

namespace Sys2Proof.Proofs.Performed

open Machine Claims Laws

variable {s t u : State}

/-! ### Bytes -/

/-- Byte i of a number of k bytes is byte i of the number that it is the low part of. -/
theorem byte_mod {i k : Nat} (hi : i < k) (x : Nat) : BitVec.ofNat 8 (x % 2 ^ (8 * k) / 256 ^ i) = BitVec.ofNat 8 (x / 256 ^ i) := by
  obtain ⟨j, rfl⟩ : ∃ j, k = i + (j + 1) := ⟨k - i - 1, by omega⟩
  have hpow : 2 ^ (8 * (i + (j + 1))) = 256 ^ i * 256 ^ (j + 1) := by rw [pow_mul, ← pow_add]; norm_num
  rw [hpow, Nat.mod_mul_right_div_self]
  refine BitVec.eq_of_toNat_eq ?_
  rw [BitVec.toNat_ofNat, BitVec.toNat_ofNat]
  exact Nat.mod_mod_of_dvd _ (Dvd.intro_left (256 ^ j) (pow_succ 256 j).symm)

theorem writeBytes_mod (m : Nat → Byte) (loc n x : Nat) : writeBytes m loc n (x % 2 ^ (8 * n)) = writeBytes m loc n x := by
  funext a
  unfold writeBytes
  split
  · exact byte_mod (by omega) x
  · rfl

/-- A number written in two parts. -/
theorem writeBytes_split (m : Nat → Byte) (loc x : Nat) {k n : Nat} (hk : k ≤ n) :
    writeBytes (writeBytes m loc k x) (loc + k) (n - k) (x / 2 ^ (8 * k)) = writeBytes m loc n x := by
  funext a
  unfold writeBytes
  by_cases hhi : loc + k ≤ a ∧ a < loc + k + (n - k)
  · have hpow : 2 ^ (8 * k) * 256 ^ (a - (loc + k)) = 256 ^ (a - loc) := by
      rw [pow_mul, show a - loc = k + (a - (loc + k)) by omega, pow_add]; norm_num
    rw [if_pos hhi, if_pos (by omega), Nat.div_div_eq_div_mul, hpow]
  · rw [if_neg hhi]
    exact if_congr (by omega) rfl rfl

theorem memByte_storeAt (s : State) (c loc n x : Nat) : memByte (storeAt s c loc n x) = writeBytes (memByte s) loc n x := by
  funext a
  unfold memByte
  rw [storeAt_mem]
  exact memByte_write s loc n x a

theorem memByte_storePieces (s : State) (c loc n x : Nat) :
    memByte (storePieces s c x (pieces loc n)) = writeBytes (memByte s) loc n x := by
  unfold pieces
  dsimp only
  split
  · simp only [storePieces, memByte_storeAt, writeBytes_mod]
  · simp only [storePieces, memByte_storeAt, writeBytes_mod]
    exact writeBytes_split _ _ _ (by omega)

theorem memByte_of_mem (e : t.mem = s.mem) : memByte t = memByte s := by unfold memByte; rw [e]

theorem memByte_setFull (s : State) (loc : Nat) (b : Bool) : memByte (setFull s loc b) = memByte s := rfl

/-! ### An access with no thread in a reading room -/

theorem writ_storePieces (h : NoWaiters s) (c x : Nat) (l : List (Nat × Nat)) : Writ s (storePieces s c x l) := by
  induction l generalizing s x with
  | nil => exact ⟨rfl, fun _ => rfl, h⟩
  | cons p l ih =>
    have hw := writ_storeAt h c p.1 p.2 (x % 2 ^ (8 * p.2))
    exact hw.trans (ih hw.none _)

/-- A package without its bytes, the times of its lines, its full/empty bits and its cores. -/
def aside (s : State) : State := { s with mem := [], lines := [], full := [], cores := [] }

theorem stable_free : StableMem (·.free) :=
  ⟨⟨fun _ _ _ => rfl, fun _ _ _ => rfl, fun _ _ _ _ => rfl⟩, fun _ _ _ => rfl, fun _ _ _ => rfl⟩

theorem stable_full : Stable (·.full) := ⟨fun _ _ _ => rfl, fun _ _ _ => rfl, fun _ _ _ _ => rfl⟩

theorem full_memWrite (s : State) (loc n x : Nat) : (memWrite s loc n x).full = s.full := by
  induction n generalizing s loc x with
  | zero => rfl
  | succ n ih => exact ih ..

theorem full_storeAt (s : State) (c loc n x : Nat) : (storeAt s c loc n x).full = s.full :=
  (stable_full.wakeAll ..).trans ((stable_full.stampStore ..).trans (full_memWrite ..))

theorem full_storePieces (s : State) (c x : Nat) (l : List (Nat × Nat)) : (storePieces s c x l).full = s.full := by
  induction l generalizing s x with
  | nil => rfl
  | cons p l ih => exact (ih ..).trans (full_storeAt ..)

theorem full_atomicAt (s : State) (c loc op n v w : Nat) : (atomicAt s c loc op n v w).2.full = s.full := by
  unfold atomicAt
  dsimp only
  split
  · exact full_storeAt ..
  · exact stable_full.stampFailed ..

theorem aside_of_quietMem (h : quietMem t = quietMem s) (hf : t.free = s.free) : aside t = aside s := by
  have e : aside t = { quietMem t with full := [], free := t.free } := rfl
  rw [e, h, hf]
  rfl

theorem aside_setFull (s : State) (loc : Nat) (b : Bool) : aside (setFull s loc b) = aside s := rfl

theorem coreOf_setFull (s : State) (loc : Nat) (b : Bool) (d : Nat) : coreOf (setFull s loc b) d = coreOf s d := rfl

/-- What an access does to the package, with no thread in a reading room. -/
structure Performs (s t : State) (a : PendAcc) : Prop where
  rest  : aside t = aside s
  cores : ∀ d, quietCache (coreOf t d) = quietCache (coreOf s d)
  bytes : memByte t = accessBytes (memByte s) a
  full  : isFull t = accessFull (isFull s) a

theorem isFull_of_full (e : t.full = s.full) : isFull t = isFull s := by unfold isFull; rw [e]

theorem memByte_atomicAt (h : NoWaiters s) (c : Nat) (a : PendAcc) {op : Nat} {v w : Word} (ha : a.op = .rmw op v w) :
    memByte (atomicAt s c a.loc op a.n v.toNat w.toNat).2 = accessBytes (memByte s) a := by
  funext loc
  rw [(atomicAt_spec h ..).2 loc, accessBytes, ha]
  dsimp only
  rcases Nat.eq_zero_or_pos a.n with hn | hn
  · have hnone (x : Nat) : writeBytes (memByte s) a.loc a.n x = memByte s := by
      funext b
      exact if_neg (by omega)
    rw [hnone]
    cases newValue op a.n (bytesAt (memByte s) a.loc a.n) v w <;> simp only [hnone, ite_self]
  · rw [MemoryWords.newValue_eq_atomicNew hn]
    dsimp only
    split <;> rfl

theorem performPend_performs (h : NoWaiters s) (c : Nat) (a : PendAcc) : Performs s (performPend s c a) a := by
  have hfree : (performPend s c a).free = s.free := stable_free.performPend s c a
  unfold performPend at hfree ⊢
  split at hfree <;> rename_i ha
  · rename_i x
    have hw := writ_storePieces h c x.toNat (pieces a.loc a.n)
    refine ⟨aside_of_quietMem hw.rest hfree, hw.cores, ?_, ?_⟩
    · rw [memByte_storePieces, accessBytes, ha]
    · rw [isFull_of_full (full_storePieces ..)]
      funext loc
      rw [accessFull, ha]
  · rename_i op v w
    have hw := (atomicAt_spec h c a.loc op a.n v.toNat w.toNat).1
    refine ⟨aside_of_quietMem hw.rest hfree, hw.cores, memByte_atomicAt h c a ha, ?_⟩
    rw [isFull_of_full (full_atomicAt ..)]
    funext loc
    rw [accessFull, ha]
  · rename_i x
    have hw := writ_storeAt h c a.loc 8 x.toNat
    have hn : NoWaiters (setFull (storeAt s c a.loc 8 x.toNat) a.loc true) := hw.none
    rw [wakeFuture, noWaiters_wakeAll hn] at hfree ⊢
    refine ⟨(aside_setFull ..).trans (aside_of_quietMem hw.rest hfree), fun d => (congrArg _ (coreOf_setFull ..)).trans (hw.cores d), ?_, ?_⟩
    · rw [memByte_setFull, memByte_storeAt, accessBytes, ha]
    · funext loc
      rw [isFull_setFull, accessFull, ha, isFull_of_full (full_storeAt ..)]
  · have hw : Writ s (stampStore s c a.loc 8) := (writ_setRows h ..).stamp ..
    refine ⟨(aside_setFull ..).trans (aside_of_quietMem hw.rest hfree), fun d => (congrArg _ (coreOf_setFull ..)).trans (hw.cores d), ?_, ?_⟩
    · rw [memByte_setFull, memByte_of_mem (stable_mem.stampStore ..), accessBytes, ha]
    · funext loc
      rw [isFull_setFull, accessFull, ha, isFull_of_full (stable_full.stampStore ..)]

/-! ### Relations that every access carries -/

/-- A relation between states that holds where only fields outside the cores, or fields of a core beside its groups and its
reading room, differ, and where a waiter leaves its room. -/
structure Carried (R : State → State → Prop) : Prop where
  refl  : ∀ s, R s s
  trans : ∀ {s t u}, R s t → R t u → R s u
  cores : ∀ {s t : State}, t.cores = s.cores → R s t
  core  : ∀ {s : State} {c : Nat} {k : Core}, k.slots = (coreOf s c).slots → k.room = (coreOf s c).room → R s (setCore s c k)
  leave : ∀ s c slot split, R s (leaveRoom s c slot split)

section carried

variable {R : State → State → Prop}

theorem Carried.foldl (hR : Carried R) {β : Type} {op : State → β → State} (h : ∀ s x, R s (op s x)) (l : List β) (s : State) :
    R s (l.foldl op s) := by
  induction l generalizing s with
  | nil => exact hR.refl s
  | cons x l ih => exact hR.trans (h s x) (ih _)

theorem Carried.restartStarve (hR : Carried R) (s : State) (p : Nat) : R s (restartStarve s p) := by
  unfold Machine.restartStarve
  split
  · exact hR.cores rfl
  · exact hR.refl s

theorem Carried.wakeOne_left (hR : Carried R) (s : State) (c : Nat) (w : Waiter) :
    R (leaveRoom s c w.slot w.split) (wakeOne s c w) := by
  unfold wakeOne retryRoom
  dsimp only
  refine hR.trans ?_ (hR.foldl (fun t (p : Nat × Nat) => hR.leave t c p.1 p.2) _ _)
  split
  · exact hR.restartStarve _ _
  · exact hR.refl _

theorem Carried.wakeOne (hR : Carried R) (s : State) (c : Nat) (w : Waiter) : R s (wakeOne s c w) :=
  hR.trans (hR.leave ..) (hR.wakeOne_left ..)

theorem Carried.wakeCoreOf (hR : Carried R) (s : State) (q : Nat × Core) (p : Waiter → Bool) :
    R s ((q.2.room.filter p).foldl (fun s w => Machine.wakeOne s q.1 w) s) :=
  hR.foldl (fun t w => hR.wakeOne t q.1 w) _ s

theorem Carried.wakeAll (hR : Carried R) (s : State) (p : Waiter → Bool) : R s (wakeAll s p) :=
  hR.foldl (fun t q => hR.wakeCoreOf t q p) _ s

theorem Carried.refreshL1 (hR : Carried R) (s : State) (c loc w ts : Nat) : R s (refreshL1 s c loc w ts) := by
  unfold Machine.refreshL1
  dsimp only
  split
  · exact hR.core rfl rfl
  · exact hR.refl s

theorem Carried.stampStore (hR : Carried R) (s : State) (c loc n : Nat) : R s (stampStore s c loc n) := by
  unfold Machine.stampStore
  dsimp only
  refine hR.trans (hR.cores (setRows_cores s loc n fun _ => (storeTs s c loc n, storeTs s c loc n))) ?_
  exact hR.trans (hR.refreshL1 ..) (hR.core rfl rfl)

theorem Carried.stampFailed (hR : Carried R) (s : State) (c loc : Nat) : R s (stampFailed s c loc) := by
  unfold Machine.stampFailed
  dsimp only
  have hline : R s (setLine s loc (lineOf s loc).1 (storeTs s c loc 1)) := hR.cores rfl
  exact hR.trans hline (hR.trans (hR.refreshL1 ..) (hR.core rfl rfl))

theorem cores_memWrite (s : State) (loc n x : Nat) : (memWrite s loc n x).cores = s.cores := (quietMem_memWrite s loc n x).2

theorem Carried.storeAt (hR : Carried R) (s : State) (c loc n x : Nat) : R s (storeAt s c loc n x) :=
  hR.trans (hR.cores (cores_memWrite s loc n x)) (hR.trans (hR.stampStore ..) (hR.wakeAll ..))

theorem Carried.storePieces (hR : Carried R) (s : State) (c x : Nat) (l : List (Nat × Nat)) : R s (storePieces s c x l) := by
  induction l generalizing s x with
  | nil => exact hR.refl s
  | cons p l ih => exact hR.trans (hR.storeAt ..) (ih ..)

theorem Carried.atomicAt (hR : Carried R) (s : State) (c loc op n v w : Nat) : R s (atomicAt s c loc op n v w).2 := by
  unfold Machine.atomicAt
  dsimp only
  split
  · exact hR.storeAt ..
  · exact hR.stampFailed ..

theorem Carried.setFull (hR : Carried R) (s : State) (loc : Nat) (b : Bool) : R s (setFull s loc b) := hR.cores rfl

theorem Carried.performPend (hR : Carried R) (s : State) (c : Nat) (a : PendAcc) : R s (performPend s c a) := by
  unfold Machine.performPend
  split
  · exact hR.storePieces ..
  · exact hR.atomicAt ..
  · exact hR.trans (hR.storeAt ..) (hR.trans (hR.setFull ..) (hR.wakeAll ..))
  · exact hR.trans (hR.stampStore ..) (hR.setFull ..)

end carried

/-! ### Waiters in the reading rooms (R156) -/

/-- The split still stands at its word, and has left the reading room only if it waits no more. -/
def Waiting (s : State) (d : Nat) (w : Waiter) : Prop :=
  ∃ g sp, groupAt s d w.slot = some g ∧ splitAt g w.split = some sp
    ∧ (sp.wait = none ∨ sp.wait = some .reading ∧ w ∈ (coreOf s d).room)

/-- No thread has come into a reading room, and a waiting split is in its room or waits no more. -/
structure Leaves (s t : State) : Prop where
  room : ∀ d, ∀ w ∈ (coreOf t d).room, w ∈ (coreOf s d).room
  kept : ∀ d w, Waiting s d w → Waiting t d w

theorem Leaves.refl (s : State) : Leaves s s := ⟨fun _ _ h => h, fun _ _ h => h⟩

theorem Leaves.trans (h : Leaves s t) (k : Leaves t u) : Leaves s u :=
  ⟨fun d w hw => h.room d w (k.room d w hw), fun d w hw => k.kept d w (h.kept d w hw)⟩

theorem leaves_of_cores (h : t.cores = s.cores) : Leaves s t := by
  have hc (d : Nat) : coreOf t d = coreOf s d := by unfold coreOf; rw [h]
  refine ⟨fun d w hw => hc d ▸ hw, fun d w hw => ?_⟩
  unfold Waiting groupAt at *
  rwa [hc]

/-- A core whose groups and reading room stay. -/
theorem leaves_setCore {c : Nat} {k : Core} (hs : k.slots = (coreOf s c).slots) (hr : k.room = (coreOf s c).room) :
    Leaves s (setCore s c k) := by
  have hroom (d : Nat) : (coreOf (setCore s c k) d).room = (coreOf s d).room := by
    rw [coreOf_setCore]
    split
    · next e => rw [hr, e]
    · rfl
  have hgroup (d n : Nat) : groupAt (setCore s c k) d n = groupAt s d n := by
    rw [groupAt_setCore]
    split
    · next e => rw [hs, e]; rfl
    · rfl
  refine ⟨fun d w hw => hroom d ▸ hw, fun d w hw => ?_⟩
  unfold Waiting at *
  rwa [hroom, hgroup]

theorem room_setGroup (s : State) (c n d : Nat) (g : Machine.Group) : (coreOf (setGroup s c n g) d).room = (coreOf s d).room := by
  rw [setGroup, coreOf_setCore]
  split
  · next e => rw [e]
  · rfl

/-- A group is replaced by one whose splits stand where they stood. -/
theorem leaves_setGroup {c n : Nat} {g g' : Machine.Group} (hg : groupAt s c n = some g)
    (hsp : ∀ k sp, splitAt g k = some sp → ∃ sp', splitAt g' k = some sp' ∧ (sp'.wait = none ∨ sp'.wait = sp.wait)) :
    Leaves s (setGroup s c n g') := by
  refine ⟨fun d w hw => room_setGroup s c n d g' ▸ hw, ?_⟩
  rintro d w ⟨y, z, hy, hz, hw⟩
  by_cases he : d = c ∧ w.slot = n
  · obtain ⟨rfl, he⟩ := he
    rw [he, hg] at hy
    cases hy
    obtain ⟨z', hz', hw'⟩ := hsp _ _ hz
    refine ⟨g', z', by rw [groupAt_setGroup, if_pos ⟨rfl, he⟩], hz', ?_⟩
    rw [room_setGroup]
    rcases hw' with hw' | hw'
    · exact .inl hw'
    · rwa [hw']
  · exact ⟨y, z, by rwa [groupAt_setGroup, if_neg he], hz, by rwa [room_setGroup]⟩

theorem leaveRoom_room (s : State) (c slot split d : Nat) : (coreOf (leaveRoom s c slot split) d).room =
    if d = c then (coreOf s c).room.filter fun x => !(x.slot == slot && x.split == split) else (coreOf s d).room := by
  unfold leaveRoom
  dsimp only
  (repeat' split) <;> simp [room_setGroup, coreOf_setCore, *]

/-- The splits of a core when a waiter has left its room: its own waits no more if it waited there. -/
theorem leaveRoom_split {c slot split d n k : Nat} {y : Machine.Group} {z : Split} (hy : groupAt s d n = some y)
    (hz : splitAt y k = some z) : ∃ y' z', groupAt (leaveRoom s c slot split) d n = some y' ∧ splitAt y' k = some z'
      ∧ z'.wait = if (d = c ∧ n = slot) ∧ k = split ∧ inRoom z = true then none else z.wait := by
  have hcore (r : List Waiter) (d' n' : Nat) :
      groupAt (setCore s c { coreOf s c with room := r }) d' n' = groupAt s d' n' := by
    rw [groupAt_setCore]
    split
    · next e => rw [e]; rfl
    · rfl
  unfold leaveRoom
  dsimp only
  rw [hcore]
  split
  · next hg =>
    refine ⟨y, z, by rwa [hcore], hz, ?_⟩
    rw [if_neg]
    rintro ⟨⟨rfl, rfl⟩, -⟩
    rw [hg] at hy
    cases hy
  · next g hg =>
    split
    · next hs =>
      refine ⟨y, z, by rwa [hcore], hz, ?_⟩
      rw [if_neg]
      rintro ⟨⟨rfl, rfl⟩, rfl, -⟩
      rw [hg] at hy
      cases hy
      rw [hs] at hz
      cases hz
    · next sp hs =>
      split
      · next hr =>
        by_cases he : d = c ∧ n = slot
        · obtain ⟨rfl, rfl⟩ := he
          rw [hg] at hy
          cases hy
          by_cases hk : k = split
          · subst hk
            rw [hs] at hz
            cases hz
            exact ⟨_, _, groupAt_setGroup_self _, splitAt_setSplit_self _ _, by simp [hr]⟩
          · exact ⟨_, z, groupAt_setGroup_self _, by rwa [splitAt_setSplit, if_neg hk], by simp [hk]⟩
        · exact ⟨y, z, by rwa [groupAt_setGroup, if_neg he, hcore], hz, by simp [he]⟩
      · next hr =>
        refine ⟨y, z, by rwa [hcore], hz, ?_⟩
        rw [if_neg]
        rintro ⟨⟨rfl, rfl⟩, rfl, hin⟩
        rw [hg] at hy
        cases hy
        rw [hs] at hz
        cases hz
        exact hr hin

theorem leaves_leaveRoom (s : State) (c slot split : Nat) : Leaves s (leaveRoom s c slot split) := by
  constructor
  · intro d w hw
    rw [leaveRoom_room] at hw
    split at hw
    · next e => exact e ▸ List.mem_of_mem_filter hw
    · exact hw
  · rintro d w ⟨y, z, hy, hz, hw⟩
    obtain ⟨y', z', hy', hz', hwait⟩ := leaveRoom_split (c := c) (slot := slot) (split := split) hy hz
    refine ⟨y', z', hy', hz', ?_⟩
    rw [hwait, leaveRoom_room]
    rcases hw with hw | ⟨hw, hmem⟩
    · exact .inl (by rw [hw, ite_self])
    · have hin : inRoom z = true := by simp [inRoom, hw]
      by_cases he : (d = c ∧ w.slot = slot) ∧ w.split = split
      · exact .inl (by simp [he, hin])
      · refine .inr ⟨by rw [if_neg (fun h => he ⟨h.1, h.2.1⟩), hw], ?_⟩
        split
        · next e =>
          subst e
          exact List.mem_filter.2 ⟨hmem, by simpa [← not_and_or] using fun h1 h2 => he ⟨⟨rfl, h1⟩, h2⟩⟩
        · exact hmem

theorem carried_leaves : Carried Leaves := ⟨.refl, .trans, leaves_of_cores, leaves_setCore, leaves_leaveRoom⟩

theorem wakeOne_gone (s : State) (c : Nat) (w : Waiter) : w ∉ (coreOf (wakeOne s c w) c).room := by
  intro hw
  have := (carried_leaves.wakeOne_left s c w).room c w hw
  rw [leaveRoom_room, if_pos rfl] at this
  simp at this

/-- Waking every waiter that p picks leaves none of them in a room. -/
theorem wakeAll_gone (s : State) (p : Waiter → Bool) (d : Nat) {w : Waiter} (hw : w ∈ (coreOf (wakeAll s p) d).room) :
    p w = false := by
  have hin : ∃ q ∈ s.cores, q.1 = d ∧ w ∈ q.2.room := by
    have h0 := (carried_leaves.wakeAll s p).room d w hw
    unfold coreOf tabGet at h0
    cases hf : tabFind d s.cores with
    | none => rw [hf] at h0; cases h0
    | some k => rw [hf] at h0; exact ⟨_, mem_of_find hf, rfl, h0⟩
  obtain ⟨q, hq, rfl, hqw⟩ := hin
  by_contra hp
  have hfilter : w ∈ q.2.room.filter p := List.mem_filter.2 ⟨hqw, by simpa using hp⟩
  obtain ⟨l, r, hlr⟩ := List.append_of_mem hq
  obtain ⟨l', r', hlr'⟩ := List.append_of_mem hfilter
  unfold wakeAll at hw
  rw [hlr, List.foldl_append, List.foldl_cons, hlr', List.foldl_append, List.foldl_cons] at hw
  have hmid := (carried_leaves.foldl (fun t q => carried_leaves.wakeCoreOf t q p) r _).room _ _ hw
  exact wakeOne_gone _ q.1 w ((carried_leaves.foldl (fun t w => carried_leaves.wakeOne t q.1 w) r' _).room _ _ hmid)

/-- FWR leaves no waiter on its word. -/
theorem performPend_fwr (s : State) (c : Nat) {a : PendAcc} {x : Word} (ha : a.op = .fwr x) (d : Nat) :
    ∀ w ∈ (coreOf (performPend s c a) d).room, w.loc ≠ a.loc := by
  have hperform : performPend s c a = wakeFuture (setFull (storeAt s c a.loc 8 x.toNat) a.loc true) a.loc := by
    unfold performPend
    rw [ha]
  intro w hw
  rw [hperform] at hw
  simpa using wakeAll_gone _ _ d hw

/-- A split whose wait is one that p picks waits no more. -/
def woken (p : Wait → Bool) (sp : Split) : Split := if sp.wait.any p then { sp with wait := none } else sp

theorem wakeSplits_eq {c slot : Nat} {g : Machine.Group} (p : Wait → Bool) (hg : groupAt s c slot = some g) :
    wakeSplits s c slot p = setGroup s c slot { g with splits := g.splits.map fun x => (x.1, woken p x.2) } := by
  unfold wakeSplits
  rw [hg]
  dsimp only
  congr 3
  funext ⟨k, sp⟩
  dsimp only [woken]
  cases hw : sp.wait with
  | none => rfl
  | some w => cases hp : p w <;> simp [hp]

theorem leaves_wakeSplits (s : State) (c slot : Nat) (p : Wait → Bool) : Leaves s (wakeSplits s c slot p) := by
  cases hg : groupAt s c slot with
  | none => rw [wakeSplits, hg]; exact .refl s
  | some g =>
    rw [wakeSplits_eq p hg]
    refine leaves_setGroup hg fun k sp hk => ⟨woken p sp, ?_, ?_⟩
    · exact (tabFind_map fun x => woken p x.2).trans (by rw [show tabFind k g.splits = some sp from hk]; rfl)
    · unfold woken
      split
      · exact .inl rfl
      · exact .inr rfl

/-! ### The event -/

/-- The splits of the group once its last pending access is performed. -/
def performedWaits : Wait → Bool
  | .performed _ => true
  | _ => false

theorem exec_accessPerformed {c slot : Nat} {g : Machine.Group} {a : PendAcc} {r : List PendAcc}
    (hg : groupAt s c slot = some g) (hp : g.pend = a :: r) : exec (.accessPerformed c slot) s =
      .next (let t := performPend (setGroup s c slot { g with pend := r }) c a
        if r.isEmpty then wakeSplits t c slot performedWaits else t) := by
  have he : exec (.accessPerformed c slot) s = execAccessPerformed c slot s := rfl
  rw [he, execAccessPerformed, hg]
  dsimp only
  rw [hp]
  rfl

theorem noWaiters_setGroup (h : NoWaiters s) (c n : Nat) (g : Machine.Group) : NoWaiters (setGroup s c n g) :=
  noWaiters_reads h c { coreOf s c with slots := tabPut n g (coreOf s c).slots } (room_coreOf h c) rfl

theorem aside_setGroup (s : State) (c n : Nat) (g : Machine.Group) : aside (setGroup s c n g) = aside s := rfl

theorem core_setGroup (s : State) (c n d : Nat) (g : Machine.Group) :
    { quietCache (coreOf (setGroup s c n g) d) with slots := [] } = { quietCache (coreOf s d) with slots := [] } := by
  rw [setGroup, coreOf_setCore]
  split
  · next e => rw [e]; rfl
  · rfl

theorem groupAt_of_quietCache (h : ∀ d, quietCache (coreOf t d) = quietCache (coreOf s d)) (d n : Nat) :
    groupAt t d n = groupAt s d n := by
  have hslots : (coreOf t d).slots = (coreOf s d).slots := congrArg (·.slots) (h d)
  rw [groupAt, hslots]
  rfl

/-- Settles O35: the access is performed, and the last one lets the group's splits that wait for it go on. -/
theorem accessIsPerformed : Obligations.AccessIsPerformed := by
  unfold Obligations.AccessIsPerformed
  intro s c slot g a r hg hp
  refine ⟨_, exec_accessPerformed hg hp, ?_, ?_⟩
  · intro x ha
    have hfirst : Leaves s (setGroup s c slot { g with pend := r }) :=
      leaves_setGroup hg fun k sp hk => ⟨sp, hk, .inr rfl⟩
    have hleave := carried_leaves.performPend (setGroup s c slot { g with pend := r }) c a
    have hclear := performPend_fwr (setGroup s c slot { g with pend := r }) c ha
    have hlast (t : State) : Leaves t (if r.isEmpty then wakeSplits t c slot performedWaits else t) := by
      split
      · exact leaves_wakeSplits ..
      · exact .refl t
    have hgone := fun d w hw => hclear d w ((hlast _).room d w hw)
    refine ⟨hgone, fun d w hw hloc y z hy hz hwait => ?_⟩
    obtain ⟨y', z', hy', hz', h | ⟨-, hmem⟩⟩ :=
      ((hfirst.trans hleave).trans (hlast _)).kept d w ⟨y, z, hy, hz, .inr ⟨hwait, hw⟩⟩
    · exact ⟨y', z', hy', hz', h⟩
    · exact absurd hloc (hgone d w hmem)
  · intro hno
    have hper := performPend_performs (noWaiters_setGroup hno c slot { g with pend := r }) c a
    have hgroups := groupAt_of_quietCache hper.cores
    have hg' : groupAt (performPend (setGroup s c slot { g with pend := r }) c a) c slot = some { g with pend := r } := by
      rw [hgroups, groupAt_setGroup_self]
    have hcores (d : Nat) := (congrArg (fun k : Core => { k with slots := [] }) (hper.cores d)).trans
      (core_setGroup s c slot d { g with pend := r })
    have hothers (d n : Nat) (h : (d, n) ≠ (c, slot)) :
        groupAt (performPend (setGroup s c slot { g with pend := r }) c a) d n = groupAt s d n := by
      rw [hgroups, groupAt_setGroup, if_neg (by simpa using h)]
    by_cases hr : r = []
    · rw [if_pos (by simp [hr]), wakeSplits_eq _ hg']
      refine ⟨fun loc => congrFun hper.bytes loc, fun loc => congrFun hper.full loc, hper.rest,
        fun d => (core_setGroup ..).trans (hcores d), fun d n h => ?_, _, groupAt_setGroup_self _, rfl, rfl, fun h => absurd hr h⟩
      rw [groupAt_setGroup, if_neg (by simpa using h), hothers d n h]
    · rw [if_neg (by simpa using hr)]
      exact ⟨fun loc => congrFun hper.bytes loc, fun loc => congrFun hper.full loc, hper.rest, hcores, hothers, _, hg', rfl, rfl,
        fun _ => rfl⟩

/-! ### Groups keep everything but their splits while an access is performed -/

/-- A group without its splits. -/
def sansSplits (g : Machine.Group) : Machine.Group := { g with splits := [] }

/-- Every group stands where it stood, as it was but for its splits. -/
def SameGroups (s t : State) : Prop := ∀ d n, (groupAt t d n).map sansSplits = (groupAt s d n).map sansSplits

theorem sameGroups_setGroup {c n : Nat} {g g' : Machine.Group} (hg : groupAt s c n = some g) (h : sansSplits g' = sansSplits g) :
    SameGroups s (setGroup s c n g') := by
  intro d m
  rw [groupAt_setGroup]
  split
  · next e => rw [e.1, e.2, hg, Option.map_some, Option.map_some, h]
  · rfl

theorem SameGroups.trans (h : SameGroups s t) (k : SameGroups t u) : SameGroups s u := fun d n => (k d n).trans (h d n)

theorem sameGroups_setCore {c : Nat} {k : Core} (h : k.slots = (coreOf s c).slots) : SameGroups s (setCore s c k) := by
  intro d n
  rw [groupAt_setCore]
  split
  · next e => rw [h, e]; rfl
  · rfl

theorem sameGroups_leaveRoom (s : State) (c slot split : Nat) : SameGroups s (leaveRoom s c slot split) := by
  unfold leaveRoom
  dsimp only
  refine SameGroups.trans (t := setCore s c
    { coreOf s c with room := (coreOf s c).room.filter fun x => !(x.slot == slot && x.split == split) }) (sameGroups_setCore rfl) ?_
  split
  · exact fun _ _ => rfl
  · split
    · exact fun _ _ => rfl
    · next hg _ _ _ =>
      split
      · exact sameGroups_setGroup hg rfl
      · exact fun _ _ => rfl

theorem carried_sameGroups : Carried SameGroups where
  refl _ _ _ := rfl
  trans := .trans
  cores h d n := by unfold groupAt coreOf; rw [h]
  core h _ := sameGroups_setCore h
  leave := sameGroups_leaveRoom

theorem sameGroups_wakeSplits (s : State) (c slot : Nat) (p : Wait → Bool) : SameGroups s (wakeSplits s c slot p) := by
  cases hg : groupAt s c slot with
  | none => rw [wakeSplits, hg]; exact fun _ _ => rfl
  | some g =>
    rw [wakeSplits_eq p hg]
    exact sameGroups_setGroup hg rfl

theorem drainPend_eq {c slot : Nat} {g : Machine.Group} (hg : groupAt s c slot = some g) : drainPend s c slot =
    wakeSplits (g.pend.foldl (fun s a => performPend s c a) (setGroup s c slot { g with pend := [] })) c slot performedWaits := by
  rw [drainPend, hg]
  rfl

/-- Once a group's accesses are performed it has none to come. -/
theorem pend_drainPend {c slot : Nat} {g : Machine.Group} (hg : groupAt (drainPend s c slot) c slot = some g) : g.pend = [] := by
  cases h0 : groupAt s c slot with
  | none =>
    rw [drainPend, h0] at hg
    rw [h0] at hg
    cases hg
  | some y =>
    have hsame : SameGroups (setGroup s c slot { y with pend := [] }) (drainPend s c slot) := by
      rw [drainPend_eq h0]
      exact SameGroups.trans (carried_sameGroups.foldl (fun t a => carried_sameGroups.performPend t c a) y.pend _)
        (sameGroups_wakeSplits _ c slot performedWaits)
    have he := hsame c slot
    rw [hg, groupAt_setGroup_self] at he
    exact congrArg (·.pend) (Option.some.inj he)

end Sys2Proof.Proofs.Performed
end

section
/-! PROOFS. Words that wait in the reading room, endpoint windows, PREF and TRB (R130, R146, R155, R157–R160, R182, R183): how
the threads of a memory word run when some of them do not get by. -/

namespace Sys2Proof.Proofs.ReadingRoom

open Machine Claims Laws

variable {s t : State} {pl : Place} {g g0 : Machine.Group} {sp : Split} {w : MemWord}

/-! ### The threads of a word -/

/-- A word whose threads run from the state in which the group's earlier accesses are performed. -/
theorem memWord_settled (h : Hd) (hs : Issues s pl g sp) (hr : MemReady s pl g sp w)
    (ht : memTrap w (threadsOf s pl g sp w) = none) (hq : w.op ≠ .st ∨ ∃ a ∈ threadsOf s pl g sp w, a.chk.isWin = true) :
    memWord s h w = .next (memEnd h pl w true (memOcc sp w) (lowestAbsent (threadsOf s pl g sp w)) sp
      ((threadsOf s pl g sp w).foldl (memThread pl w)
        { s := settledState s pl g sp w, vals := [], waits := [], left := [], watch := none, wrote := [], stop := none })) := by
  have hocc : (if issueMode w.srcs w.dst = .uniform then 1 else Nat.max 1 (memKeys sp w).length) = memOcc sp w := by
    unfold memOcc memKeys perThreadOcc
    split
    · rfl
    · simp [hr.fresh]
  have hqueue : (w.op == .st && (threadsOf s pl g sp w).all fun a => !a.chk.isWin) = false := by
    rcases hq with hq | ⟨a, ha, hw⟩
    · simp [hq]
    · rw [Bool.and_eq_false_iff, List.all_eq_false]
      exact .inr ⟨a, ha, by simp [hw]⟩
  unfold threadsOf at ht hqueue ⊢
  simp only [memWord, issue_eq hs, hr.form, hr.fresh, hr.hazard, hr.tender, hr.held, hr.trb, Option.isNone_none, if_true, ht,
    Option.isSome_none, Bool.false_and, Bool.false_eq_true, if_false, tenderNeeds, Bool.or_false]
  simp only [hqueue, decide_eq_true_eq, hocc, Bool.false_eq_true, if_false]
  rfl

theorem settledState_turn : (settledState s pl g sp w).turn = s.turn :=
  (stable_turn.drainPend ..).trans (reads_noteWalks ..).turn

/-- How a thread's access goes while nothing stops it: it gets by, or it waits for a place. -/
def Advances (pl : Place) (w : MemWord) (st : State) (a : ThreadAcc)
    (next : State → List (Nat × Word) → List (Nat × Nat) → Prop) : Prop :=
  ∃ reach g, a.chk = .ok reach ∧ groupAt st pl.core pl.slot = some g ∧ g.isTender = none
    ∧ watchHit st g.part w.op a.ea w.n = none ∧ accConflict st pl g w.op a.ea w.n = []
    ∧ writtenKeys w.op st w.n a.v reach = []
    ∧ ((∃ u, performOne st pl w a.ea reach a.v a.v2 = .done u none ∧ next u [] [])
      ∨ (∃ u x, performOne st pl w a.ea reach a.v a.v2 = .done u (some x) ∧ next u [(a.t, x)] [])
      ∨ ∃ u loc, performOne st pl w a.ea reach a.v a.v2 = .skip u loc ∧ next u [] [(a.t, loc)])

/-- The threads of a word that notes no bytes, in order: what they give, and which of them wait for which place. -/
theorem foldl_memThread (I : List ThreadAcc → State → List (Nat × Word) → List (Nat × Nat) → Prop)
    (step : ∀ a rest st vals waits, I (a :: rest) st vals waits →
      Advances pl w st a fun u xs ls => I rest u (vals ++ xs) (waits ++ ls))
    (as : List ThreadAcc) (st : State) (vals : List (Nat × Word)) (waits : List (Nat × Nat)) (h : I as st vals waits) :
    ∃ u vs ws, as.foldl (memThread pl w)
        { s := st, vals := vals, waits := waits, left := waits.map (·.1), watch := none, wrote := [], stop := none }
      = { s := u, vals := vs, waits := ws, left := ws.map (·.1), watch := none, wrote := [], stop := none } ∧ I [] u vs ws := by
  induction as generalizing st vals waits with
  | nil => exact ⟨st, vals, waits, rfl, h⟩
  | cons a rest ih =>
    obtain ⟨reach, g, hchk, hg, hten, hwatch, hconf, hkeys, hperf⟩ := step a rest st vals waits h
    rw [List.foldl_cons]
    rcases hperf with ⟨u, he, hn⟩ | ⟨u, x, he, hn⟩ | ⟨u, loc, he, hn⟩
    all_goals
      obtain ⟨v, vs, ws, e, hI⟩ := ih _ _ _ hn
      refine ⟨v, vs, ws, ?_, hI⟩
      rw [← e]
      congr 1
      simp [memThread, hchk, hg, hten, hwatch, hconf, he, hkeys, lowerAddr]

/-- Once a thread has stopped, the threads after it are left. -/
theorem foldl_memThread_stopped {r : MemRun} {m : MemStop} (as : List ThreadAcc) (h : r.stop = some m) :
    as.foldl (memThread pl w) r = { r with left := r.left ++ as.map (·.t) } := by
  induction as generalizing r with
  | nil => simp
  | cons a as ih =>
    have hone : memThread pl w r a = { r with left := r.left ++ [a.t] } := by simp [memThread, h]
    rw [List.foldl_cons, hone, ih (by exact h)]
    simp

/-! ### A split enters the room -/

theorem getLsbD_maskOf (whole : Mask) (ks : List Nat) (m : Mask) {j : Nat} (hj : j < 32) :
    (ks.foldl (fun m t => m ||| (if t = 32 then whole else Mask.one t)) m).getLsbD j
      = (m.getLsbD j || ks.any fun t => if t = 32 then whole.getLsbD j else decide (j = t)) := by
  induction ks generalizing m with
  | nil => simp
  | cons k ks ih =>
    rw [List.foldl_cons, ih, BitVec.getLsbD_or, List.any_cons, Bool.or_assoc]
    congr 2
    split
    · rfl
    · rw [Mask.one, BitVec.getLsbD_shiftLeft]
      by_cases hjk : j = k
      · subst hjk; simp [hj]
      · by_cases hlt : j < k
        · simp [hlt, hjk]
        · simp [hjk]
          omega

/-- Keys of one word: key 32 alone, or threads. -/
def Keys (ks : List Nat) : Prop := (∀ k ∈ ks, k = 32) ∨ ∀ k ∈ ks, k < 32

theorem keys_memKeys (sp : Split) (w : MemWord) : Keys (memKeys sp w) := by
  unfold memKeys
  split
  · exact .inl fun k hk => by simpa using hk
  · exact .inr fun k hk => by
      have := List.mem_of_mem_filter hk
      simpa using this

theorem Keys.filter {ks : List Nat} (h : Keys ks) (p : Nat → Bool) : Keys (ks.filter p) :=
  h.imp (fun h k hk => h k (List.mem_of_mem_filter hk)) (fun h k hk => h k (List.mem_of_mem_filter hk))

theorem threads_maskOf {ks : List Nat} (h : Keys ks) : Threads sp ks (maskOf sp.mask ks) := by
  intro j hj
  rw [maskOf, getLsbD_maskOf _ _ _ hj]
  rw [show BitVec.getLsbD (0 : Mask) j = false from BitVec.getLsbD_zero, Bool.false_or, Bool.eq_iff_iff, List.any_eq_true]
  rcases h with h | h
  · split
    · next hin =>
      refine ⟨fun ⟨k, hk, he⟩ => by simpa [h k hk] using he, fun he => ⟨32, hin, by simpa using he⟩⟩
    · next hin =>
      have : ks = [] := List.eq_nil_iff_forall_not_mem.2 fun k hk => hin (h k hk ▸ hk)
      simp [this]
  · rw [if_neg fun hin => absurd (h 32 hin) (by omega)]
    rw [decide_eq_true_iff]
    refine ⟨fun ⟨k, hk, he⟩ => ?_, fun hin => ⟨j, hin, by simp [Nat.ne_of_lt (h j hin)]⟩⟩
    rw [if_neg (by have := h k hk; omega)] at he
    rw [of_decide_eq_true he]
    exact hk

theorem nodup_eraseDups {α : Type} [BEq α] [LawfulBEq α] (l : List α) : l.eraseDups.Nodup := by
  induction hn : l.length using Nat.strongRecOn generalizing l with
  | ind n ih =>
    cases l with
    | nil => simp
    | cons a r =>
      rw [List.eraseDups_cons, List.nodup_cons]
      refine ⟨by simp [List.mem_eraseDups], ih _ ?_ _ rfl⟩
      have := List.length_filter_le (fun b => !b == a) r
      simp only [List.length_cons] at hn
      omega

theorem groupAt_addRoom (s : State) (pl : Place) (whole : Mask) (fut : Bool) (ws : List (Nat × Nat)) (c n : Nat) :
    groupAt (setCore s pl.core (addRoom (coreOf s pl.core) pl.slot pl.split whole fut ws)) c n = groupAt s c n := by
  rw [groupAt_setCore]
  split
  · next e => rw [e]; rfl
  · rfl

theorem room_waitAt (s : State) (pl : Place) (g : Machine.Group) (sp : Split) (x : Wait) :
    (coreOf (waitAt s pl g sp x) pl.core).room = (coreOf s pl.core).room := by
  have hc : coreOf (waitAt s pl g sp x) pl.core
      = releasePipe (coreOf (store s pl g { sp with wait := some x }) pl.core) pl.slot := coreOf_setCore_self _
  rw [hc]
  exact Performed.room_setGroup ..

/-- The entries of the threads that wait, one for each place. -/
def entries (pl : Place) (sp : Split) (fut : Bool) (ks : List Nat) (place : Nat → Nat) : List Waiter :=
  (ks.map place).eraseDups.map fun l =>
    { slot := pl.slot, split := pl.split, loc := l, mask := maskOf sp.mask (ks.filter fun k => place k == l), futur := fut }

theorem addRoom_room {k : Core} {n : Nat} {fut : Bool} {ks : List Nat} {place : Nat → Nat}
    (hn : (ks.map place).eraseDups.length ≤ n) (hroom : k.room.length + n ≤ 128) :
    (addRoom k pl.slot pl.split sp.mask fut (ks.map fun k => (k, place k))).room = k.room ++ entries pl sp fut ks place := by
  have hmap : (ks.map fun k => (k, place k)).map (·.2) = ks.map place := by simp [Function.comp_def]
  have hfil (l : Nat) : ((ks.map fun k => (k, place k)).filter fun x => x.2 == l).map (·.1) = ks.filter fun k => place k == l := by
    rw [List.filter_map, List.map_map]
    simp [Function.comp_def]
  simp only [addRoom, hmap, hfil]
  rw [List.take_of_length_le (by omega)]
  rfl

theorem deliverMem_mask (g : Machine.Group) (sp : Split) (n : Nat) (d : Opnd) (vs : List (Nat × Word)) :
    (deliverMem g sp n d vs).2.mask = sp.mask := by
  unfold deliverMem
  dsimp only
  split <;> rfl

/-- The word's threads `ks` enter the room of their core, and the values `vs` of the others are owed. -/
theorem reading_enter {vs : List (Nat × Word)} {d : Opnd} {x : Wait} {fut : Bool} {ks : List Nat} {place : Nat → Nat} {n : Nat}
    (hw : g0.watch = none) (hks : Keys ks) (hn : (ks.map place).eraseDups.length ≤ n) (hroom : RoomFor t pl n) :
    let gs := deliverMem g0 sp pl.split d vs
    Reading t (waitAt (setCore t pl.core (addRoom (coreOf t pl.core) pl.slot pl.split gs.2.mask fut (ks.map fun k => (k, place k))))
      pl { gs.1 with watch := lowerAddr gs.1.watch none } { gs.2 with unfin := some (maskOf gs.2.mask ks) } x)
      pl g0 sp x fut ks place (owedAfter pl d vs) := by
  intro gs
  have hmask : gs.2.mask = sp.mask := deliverMem_mask ..
  rw [hmask]
  obtain ⟨hlen, -⟩ := hroom
  have hentry := addRoom_room (pl := pl) (sp := sp) (fut := fut) hn hlen
  have hd : frameGroup { gs.1 with watch := lowerAddr gs.1.watch none } = frameGroup g0 ∧ gs.1.vregs = g0.vregs
      ∧ gs.1.gregs = g0.gregs ∧ gs.1.pregs = g0.pregs ∧ gs.1.results = owedAfter pl d vs g0 ∧ gs.1.splits = g0.splits
      ∧ (gs.2.pc, gs.2.word, gs.2.mask) = (sp.pc, sp.word, sp.mask) := by
    simp only [gs, deliverMem, owedAfter, owedBy]
    split
    · exact ⟨by simp only [frameGroup, hw, lowerAddr], rfl, rfl, rfl, rfl, rfl, rfl⟩
    · exact ⟨by simp only [frameGroup, hw, lowerAddr], rfl, rfl, rfl, (List.append_nil _).symm, rfl, rfl⟩
  obtain ⟨hframe, hv, hgr, hp, hres, hsplits, hplace⟩ := hd
  have hwaits := waits_waitAt (setCore t pl.core
    (addRoom (coreOf t pl.core) pl.slot pl.split sp.mask fut (ks.map fun k => (k, place k)))) pl
    { gs.1 with watch := lowerAddr gs.1.watch none } { gs.2 with unfin := some (maskOf sp.mask ks) } x
  refine ⟨rfl, rfl, fun _ => rfl, ⟨_, _, hwaits.group, splitAt_setSplit_self _ _, rfl, hplace,
    ⟨_, rfl, threads_maskOf hks⟩, hframe, hv, hgr, hp, hres, fun m hm => ?_⟩, ⟨entries pl sp fut ks place, ?_, ?_, ?_, ?_⟩⟩
  · rw [splitAt_setSplit, if_neg hm]
    exact congrArg (tabFind m) hsplits
  · rw [room_waitAt, coreOf_setCore_self, hentry]
  · have : (entries pl sp fut ks place).map (·.loc) = (ks.map place).eraseDups := by simp [entries, Function.comp_def]
    rw [this]
    exact nodup_eraseDups _
  · intro y hy
    obtain ⟨l, hl, rfl⟩ := List.mem_map.1 hy
    exact ⟨rfl, rfl, rfl, List.mem_eraseDups.1 hl, threads_maskOf (hks.filter _)⟩
  · intro k hk
    exact ⟨_, List.mem_map.2 ⟨place k, List.mem_eraseDups.2 (List.mem_map_of_mem hk), rfl⟩, rfl⟩

/-- The end of a word some of whose threads enter the room. -/
theorem memEnd_reading {h : Hd} {first : Bool} {occ : Nat} {lo : Option Word} {vs : List (Nat × Word)} {ks : List Nat}
    {place : Nat → Nat} (hne : ks ≠ []) (hg : groupAt t pl.core pl.slot = some g0) (hw : g0.watch = none) (hks : Keys ks)
    (hroom : RoomFor t pl ks.length) :
    Reading t (memEnd h pl w first occ lo sp
      { s := t, vals := vs, waits := ks.map fun k => (k, place k), left := ks, watch := none, wrote := [], stop := none }) pl g0 sp .reading (w.op == .frd) ks place (owedAfter pl w.dst vs) := by
  have hn : (ks.map place).eraseDups.length ≤ ks.length := by
    have := ((nodup_eraseDups (ks.map place)).subperm fun x hx => List.mem_eraseDups.1 hx).length_le
    simpa using this
  have hr := reading_enter (vs := vs) (d := w.dst) (x := .reading) (fut := w.op == .frd) (sp := sp) hw hks hn hroom
  simp only [memEnd, hg, List.isEmpty_iff, hne, noteWrites_nil, if_false]
  exact hr

/-- The end of a word whose window is not ready: all its threads wait for the window. -/
theorem memEnd_endpoint {h : Hd} {first : Bool} {occ : Nat} {lo : Option Word} {ks : List Nat} {base : Nat} (hne : ks ≠ [])
    (hg : groupAt t pl.core pl.slot = some g0) (hw : g0.watch = none) (hks : Keys ks) (hroom : RoomFor t pl 1) :
    Reading t (memEnd h pl w first occ lo sp
      { s := t, vals := [], waits := [], left := ks, watch := none, wrote := [], stop := some (.endpoint base) }) pl g0 sp (.endpoint base) (w.op == .frd) ks
      (fun _ => base) (owedAfter pl w.dst []) := by
  have hn : (ks.map fun _ => base).eraseDups.length ≤ 1 := by
    have hsub : (ks.map fun _ => base).eraseDups ⊆ [base] := fun x hx => by
      obtain ⟨_, -, rfl⟩ := List.mem_map.1 (List.mem_eraseDups.1 hx)
      simp
    exact ((nodup_eraseDups _).subperm hsub).length_le
  have hr := reading_enter (vs := []) (d := w.dst) (x := .endpoint base) (fut := w.op == .frd) (sp := sp) hw hks hn hroom
  simp only [memEnd, hg, List.isEmpty_iff, hne, noteWrites_nil, if_false]
  exact hr

end Sys2Proof.Proofs.ReadingRoom
end

section
/-! PROOFS. WAITM whose condition fails in a thread, and FRD at an empty word (R155, R182, R183). -/

namespace Sys2Proof.Proofs.ReadingRoom

open Machine Claims Laws

variable {s t : State} {pl : Place} {g g0 : Machine.Group} {sp : Split} {w : MemWord}

theorem accessState_settled (h : w.op ≠ .st) : accessState s pl g sp w = settledState s pl g sp w := if_neg h

theorem roomFor_of_reads {n : Nat} (h : Reads s t) (hr : RoomFor s pl n) : RoomFor t pl n := by
  have hroom : (coreOf t pl.core).room = (coreOf s pl.core).room := congrArg (·.room) (h.served.cores pl.core)
  unfold RoomFor
  rwa [hroom]

/-- A check of WAITM in a thread: the bytes of memory decide whether the thread gets by or waits for the word that they lie in. -/
theorem performMem_waitm {c : WCond} {ea : Word} {ps : List (Nat × Nat)} {v v2 : Word} {loc : Nat} (hw : w.op = .waitm c)
    (hloc : (ps.headD (0, 0)).1 = loc) (hco : Coherent s pl.core) (hline : loc % 128 + w.n ≤ 128)
    (hread : readsPoison s pl.core (loc, w.n) = false) (hpoison : isPoisoned s loc = false) :
    ∃ u, Reads s u ∧ Coherent u pl.core ∧ performMem s pl g w ea ps v v2 =
      if condHolds c w.n (bytesAt (memByte s) loc w.n) v.toNat then .done u none else .skip u (loc / 8 * 8) := by
  obtain ⟨hval, hreads, hco1⟩ := loadAt_spec s pl.core g.part loc w.n hco hline
  have hpoison1 : isPoisoned (loadAt s pl.core g.part loc w.n).2 loc = false := by rw [isPoisoned_congr hreads.poison, hpoison]
  have hbytes : memByte (loadAt s pl.core g.part loc w.n).2 = memByte s := funext hreads.served.bytes
  obtain ⟨hval2, hreads2, hco2⟩ := loadHome_spec (loadAt s pl.core g.part loc w.n).2 pl.core g.part loc w.n
  simp only [performMem, hw, hloc, hread, hpoison1, hval, Bool.false_eq_true, if_false]
  by_cases hcond : condHolds c w.n (bytesAt (memByte s) loc w.n) v.toNat = true
  · exact ⟨_, hreads, hco1, by simp only [hcond, if_true]⟩
  · by_cases hcopy : servedByL1 s pl.core loc = true
    · exact ⟨_, hreads.trans hreads2, hco2 hco1, by simp only [hcopy, if_true, hval2, hbytes, hcond, if_false, Bool.false_eq_true]⟩
    · exact ⟨_, hreads, hco1, by simp only [hcopy, hcond, if_false, Bool.false_eq_true]⟩

/-- WAITM where its condition fails in a thread. -/
theorem waitm_reading {i : Instr} {h : Hd} {c : WCond} (hw : w.op = .waitm c) (hn : w.n = 4 ∨ w.n = 8)
    (hi : ∀ s, exec i s = memWord s h w) {P : Nat → List (Nat × Nat)} (hs : Issues s pl g sp) (hr : MemReady s pl g sp w)
    (hk : AllOk s pl g sp w P) (hone : ∀ k ∈ memKeys sp w, P k = [(placeOf P k, w.n)])
    (hg : AccessGroup (settledState s pl g sp w) pl g0) (hc : Coherent (settledState s pl g sp w) pl.core)
    (hp : NoPoison (settledState s pl g sp w) sp w P) {fails : List Nat}
    (hf : fails = (memKeys sp w).filter fun k =>
      !waitHolds c w.n (bytesAt (memByte (settledState s pl g sp w)) (placeOf P k) w.n) (dataOf s g sp w k))
    (hne : fails ≠ []) (hroom : RoomFor (settledState s pl g sp w) pl fails.length) :
    ∃ s1 u, exec i s = .next u ∧ Served (settledState s pl g sp w) s1
      ∧ Reading s1 u pl g0 sp .reading false fails (fun k => placeOf P k / 8 * 8) (owedAfter pl .z []) := by
  have hst : w.op ≠ .st := by simp [hw]
  have hd : w.dst = .z := by simp [MemWord.dst, hw, MemOp.writesT]
  have hslip := fun k hin => accessState_settled (s := s) (pl := pl) (g := g) (sp := sp) hst ▸ (hk k hin).slips
  generalize hs0 : settledState s pl g sp w = s0 at *
  let fail : ThreadAcc → Bool := fun a =>
    !waitHolds c w.n (bytesAt (memByte s0) (placeOf P a.t) w.n) (dataOf s g sp w a.t)
  let at' : ThreadAcc → Nat × Nat := fun a => (a.t, placeOf P a.t / 8 * 8)
  let all := threadsOf s pl g sp w
  obtain ⟨t, vs, ws, e, hreads, hco, hvs, hws, -⟩ := foldl_memThread (pl := pl) (w := w)
    (fun rest st vals waits => Reads s0 st ∧ Coherent st pl.core ∧ vals = []
      ∧ waits ++ (rest.filter fail).map at' = (all.filter fail).map at' ∧ ∀ a ∈ rest, a ∈ all)
    (by
      rintro a rest st vals waits ⟨hrd, hco, hv, hwt, hm⟩
      obtain ⟨k, hin, e⟩ := List.mem_map.mp (hm a (by simp))
      have hok := hk k hin
      have ha : a.t = k ∧ a.ea = addrOf s g sp w k ∧ a.chk = .ok (.mem (P k)) ∧ a.v = dataOf s g sp w k := by
        rw [← e]; exact ⟨rfl, rfl, hok.check, rfl⟩
      obtain ⟨hat, haea, hachk, hav⟩ := ha
      have hgr : groupAt st pl.core pl.slot = some g0 := (hrd.slots ..).trans hg.group
      obtain ⟨hs1, hs2⟩ := hslip k hin g0 hg.group
      have hline : placeOf P k % 128 + w.n ≤ 128 :=
        checkAcc_line (by omega) hok.check (p := (placeOf P k, w.n)) (by rw [hone k hin]; simp)
      obtain ⟨hip, hap⟩ := hp k hin (placeOf P k, w.n) (by rw [hone k hin]; simp)
      have hread : readsPoison st pl.core (placeOf P k, w.n) = false := by
        unfold readsPoison
        rw [anyPoisoned_congr hrd.poison, hap]
        simp
      obtain ⟨u, hu, huc, hperf⟩ := performMem_waitm (g := g0) (loc := placeOf P k) (ea := a.ea) (ps := P k) (v := a.v) (v2 := a.v2) hw rfl hco hline
        hread ((isPoisoned_congr hrd.poison _).trans hip)
      have hb : memByte st = memByte s0 := funext hrd.served.bytes
      have hcond : condHolds c w.n (bytesAt (memByte st) (placeOf P k) w.n) a.v.toNat = !fail a := by
        rw [condHolds_eq c w.n _ _ hn (bytesAt_lt ..), hav, hb]
        simp only [fail, hat, Bool.not_not]
      refine ⟨.mem (P k), g0, hachk, hgr, hg.tender, ?_, ?_, by simp [writtenKeys, hw, MemOp.writes], ?_⟩
      · rw [watchHit_congr hrd.parts, haea]; exact hs2
      · rw [accConflict_congr (hrd.slips _) rfl, haea]; exact hs1
      · simp only [performOne, hgr, hg.tender, hperf, hcond]
        have hrest := fun b hb => hm b (List.mem_cons_of_mem a hb)
        cases hfa : fail a with
        | false =>
          refine .inl ⟨u, rfl, hrd.trans hu, huc, by simp [hv], ?_, hrest⟩
          rw [← hwt, List.filter_cons, hfa]
          simp
        | true =>
          refine .inr (.inr ⟨u, _, rfl, hrd.trans hu, huc, by simp [hv], ?_, hrest⟩)
          rw [← hwt, List.filter_cons, hfa]
          simp [at', hat])
    all s0 [] [] ⟨.refl _, hc, rfl, rfl, fun _ h => h⟩
  have hfails : (all.filter fail).map at' = fails.map fun k => (k, placeOf P k / 8 * 8) := by
    simp only [all, mem_threadsOf, List.filter_map, List.map_map, hf]
    rfl
  have hx := memWord_settled h hs hr (memTrap_none hk) (.inl hst)
  rw [hs0] at hx
  simp only [List.map_nil] at e
  rw [show threadsOf s pl g sp w = all from rfl, e] at hx
  have hws' : ws = fails.map fun k => (k, placeOf P k / 8 * 8) := by simpa [hfails] using hws
  have hgr : groupAt t pl.core pl.slot = some g0 := (hreads.slots ..).trans hg.group
  refine ⟨t, _, (hi s).trans hx, hreads.served, ?_⟩
  have hend := memEnd_reading (w := w) (sp := sp) (h := h) (first := true) (occ := memOcc sp w) (lo := lowestAbsent all) (vs := [])
    (place := fun k => placeOf P k / 8 * 8) hne hgr hg.calm.watch (hf ▸ (keys_memKeys sp w).filter _) (roomFor_of_reads hreads hroom)
  rw [hd, show (w.op == .frd) = false by simp [hw]] at hend
  have hleft : (fails.map fun k => (k, placeOf P k / 8 * 8)).map (·.1) = fails := by simp [Function.comp_def]
  rw [hvs, hws', hleft]
  exact hend

/-- FRD at a word that is empty. -/
theorem frd_reading {i : Instr} {h : Hd} (hw : w.op = .frd) (hi : ∀ s, exec i s = memWord s h w) {P : Nat → List (Nat × Nat)}
    (hs : Issues s pl g sp) (hr : MemReady s pl g sp w) (hk : AllOk s pl g sp w P)
    (hg : AccessGroup (settledState s pl g sp w) pl g0) (hp : NoPoison (settledState s pl g sp w) sp w P)
    {ready empty : List Nat} (hready : ready = (memKeys sp w).filter fun k => isFull (settledState s pl g sp w) (placeOf P k))
    (hempty : empty = (memKeys sp w).filter fun k => !isFull (settledState s pl g sp w) (placeOf P k))
    (hne : empty ≠ []) (hroom : RoomFor (settledState s pl g sp w) pl empty.length) :
    ∃ s1 u, exec i s = .next u ∧ Served (settledState s pl g sp w) s1
      ∧ Reading s1 u pl g0 sp .reading true empty (placeOf P) (owedAfter pl w.t
          (ready.map fun k => (k, BitVec.ofNat 64 (bytesAt (memByte (settledState s pl g sp w)) (placeOf P k) 8)))) := by
  have hst : w.op ≠ .st := by simp [hw]
  have hd : w.dst = w.t := by simp [MemWord.dst, hw, MemOp.writesT]
  have hslip := fun k hin => accessState_settled (s := s) (pl := pl) (g := g) (sp := sp) hst ▸ (hk k hin).slips
  generalize hs0 : settledState s pl g sp w = s0 at *
  let full : ThreadAcc → Bool := fun a => isFull s0 (placeOf P a.t)
  let at' : ThreadAcc → Nat × Nat := fun a => (a.t, placeOf P a.t)
  let val : ThreadAcc → Nat × Word := fun a => (a.t, BitVec.ofNat 64 (bytesAt (memByte s0) (placeOf P a.t) 8))
  let all := threadsOf s pl g sp w
  obtain ⟨t, vs, ws, e, hreads, hvs, hws, -⟩ := foldl_memThread (pl := pl) (w := w)
    (fun rest st vals waits => Reads s0 st ∧ vals ++ (rest.filter full).map val = (all.filter full).map val
      ∧ waits ++ (rest.filter fun a => !full a).map at' = (all.filter fun a => !full a).map at' ∧ ∀ a ∈ rest, a ∈ all)
    (by
      rintro a rest st vals waits ⟨hrd, hv, hwt, hm⟩
      obtain ⟨k, hin, e⟩ := List.mem_map.mp (hm a (by simp))
      have hok := hk k hin
      have ha : a.t = k ∧ a.ea = addrOf s g sp w k ∧ a.chk = .ok (.mem (P k)) := by
        rw [← e]; exact ⟨rfl, rfl, hok.check⟩
      obtain ⟨hat, haea, hachk⟩ := ha
      have hgr : groupAt st pl.core pl.slot = some g0 := (hrd.slots ..).trans hg.group
      obtain ⟨hs1, hs2⟩ := hslip k hin g0 hg.group
      have hnp : isPoisoned st (placeOf P k) = false := by
        rw [isPoisoned_congr hrd.poison]
        unfold placeOf
        cases hps : P k with
        | nil => exact absurd (hps ▸ hok.check) checkAcc_nonempty
        | cons q r => exact (hp k hin q (by rw [hps]; simp)).1
      have hfull : isFull st (placeOf P k) = full a := by
        rw [Performed.isFull_of_full hrd.full]
        simp only [full, hat]
      obtain ⟨hval, hhome, -⟩ := loadHome_spec st pl.core g0.part (placeOf P k) 8
      have hb : memByte st = memByte s0 := funext hrd.served.bytes
      have hrest := fun b hb => hm b (List.mem_cons_of_mem a hb)
      refine ⟨.mem (P k), g0, hachk, hgr, hg.tender, ?_, ?_, by simp [writtenKeys, hw, MemOp.writes], ?_⟩
      · rw [watchHit_congr hrd.parts, haea]; exact hs2
      · rw [accConflict_congr (hrd.slips _) rfl, haea]; exact hs1
      · unfold placeOf at hnp hfull
        simp only [performOne, hgr, hg.tender, performMem, hw, hnp, hfull]
        cases hfa : full a with
        | false =>
          refine .inr (.inr ⟨st, (placeOf P k), by simp [placeOf], hrd, ?_, ?_, hrest⟩)
          · rw [← hv, List.filter_cons, hfa]
            simp
          · rw [← hwt, List.filter_cons, hfa]
            simp [at', hat]
        | true =>
          refine .inr (.inl ⟨_, (val a).2, ?_, hrd.trans hhome, ?_, ?_, hrest⟩)
          · simp only [val, hat, ← hb, ← hval]
            rfl
          · rw [← hv, List.filter_cons, hfa]
            simp [val]
          · rw [← hwt, List.filter_cons, hfa]
            simp)
    all s0 [] [] ⟨.refl _, rfl, rfl, fun _ h => h⟩
  have hwaits : (all.filter fun a => !full a).map at' = empty.map fun k => (k, placeOf P k) := by
    simp only [all, mem_threadsOf, List.filter_map, List.map_map, hempty]
    rfl
  have hvals : (all.filter full).map val = ready.map fun k => (k, BitVec.ofNat 64 (bytesAt (memByte s0) (placeOf P k) 8)) := by
    simp only [all, mem_threadsOf, List.filter_map, List.map_map, hready]
    rfl
  have hx := memWord_settled h hs hr (memTrap_none hk) (.inl hst)
  rw [hs0] at hx
  simp only [List.map_nil] at e
  rw [show threadsOf s pl g sp w = all from rfl, e] at hx
  have hws' : ws = empty.map fun k => (k, placeOf P k) := by simpa [hwaits] using hws
  have hvs' : vs = ready.map fun k => (k, BitVec.ofNat 64 (bytesAt (memByte s0) (placeOf P k) 8)) := by simpa [hvals] using hvs
  have hgr : groupAt t pl.core pl.slot = some g0 := (hreads.slots ..).trans hg.group
  refine ⟨t, _, (hi s).trans hx, hreads.served, ?_⟩
  have hend := memEnd_reading (w := w) (sp := sp) (h := h) (first := true) (occ := memOcc sp w) (lo := lowestAbsent all) (vs := vs)
    (place := placeOf P) hne hgr hg.calm.watch (hempty ▸ (keys_memKeys sp w).filter _) (roomFor_of_reads hreads hroom)
  rw [hd, show (w.op == .frd) = true by simp [hw]] at hend
  have hleft : (empty.map fun k => (k, placeOf P k)).map (·.1) = empty := by simp [Function.comp_def]
  rw [← hvs', hws', hleft]
  exact hend

end Sys2Proof.Proofs.ReadingRoom
end

section
/-! PROOFS. The endpoint windows (R157–R160): stores that fill packets of a send window, loads that take the words of a receive
window, and windows that are not ready. -/

namespace Sys2Proof.Proofs.Windows

open Machine Claims Laws ReadingRoom

variable {s t u : State} {pl : Place} {g g0 : Machine.Group} {sp : Split} {w : MemWord} {q pa : Nat}

/-! ### The addresses of windows -/

theorem windowBase_send (h : windowOf pa = .send q) : windowBase pa = sendBase q := by
  unfold windowOf at h
  dsimp only at h
  unfold windowBase sendBase
  split at h
  · cases h
  · split at h
    · split at h
      · cases h
        omega
      · cases h
    · split at h <;> cases h

theorem windowBase_recv (h : windowOf pa = .recv q) : windowBase pa = recvBase q := by
  unfold windowOf at h
  dsimp only at h
  unfold windowBase recvBase
  split at h
  · cases h
  · split at h
    · split at h
      · cases h
      · cases h
        omega
    · split at h <;> cases h

/-! ### Queues -/

theorem closedWords_eq (y : Queue) : closedWords y = (wordsIn y).length := by
  rw [closedWords, wordsIn, List.length_flatMap]

theorem queueWords_eq (y : Queue) : queueWords y = (wordsIn y).length + y.opened.length := by rw [queueWords, closedWords_eq]

theorem putWords_cons (y : Queue) (p : Word × Bool) (r : List (Word × Bool)) :
    putWords y (p :: r) = putWords (putWords y [p]) r := rfl

/-- A word more: what is in the queue has grown by one. -/
theorem queueWords_putWords (y : Queue) (p : Word × Bool) : queueWords (putWords y [p]) = queueWords y + 1 := by
  obtain ⟨x, close⟩ := p
  simp only [putWords, queueWords_eq, wordsIn]
  split
  · simp; omega
  · split
    · simp; omega
    · simp; omega

theorem enqueue_eq (h : NoWaiters s) (x : Word) (close : Bool) :
    enqueue s q x close = setQueue s q (putWords (queueOf s q) [(x, close)]) := by
  have hwake (y : Queue) (base : Nat) : wakeWindow (setQueue s q y) base = setQueue s q y :=
    noWaiters_wakeAll (s := setQueue s q y) h _
  unfold enqueue addWord putWords
  dsimp only
  cases close with
  | true => exact hwake ..
  | false =>
    by_cases hlen : ((queueOf s q).opened ++ [x]).length = 64
    · simp only [hlen, if_true, Bool.false_eq_true, if_false]
      exact hwake ..
    · simp only [hlen, if_false, Bool.false_eq_true]
      rfl

theorem pump_eq (h : NoReceived s) : pump s = s := by
  have hlane (p : Nat × Port) (hp : ∀ l ∈ p.2.rx, l.2 = []) :
      ∀ t : State, p.2.rx.foldl (fun s l => pumpLane s p.1 l.1 l.2.length) t = t := by
    intro t
    generalize p.2.rx = rx at hp
    induction rx with
    | nil => rfl
    | cons l rx ih =>
      rw [List.foldl_cons, hp l (by simp)]
      exact ih fun l hl => hp l (by simp [hl])
  unfold pump
  unfold NoReceived at h
  generalize s.ports = ps at h
  induction ps with
  | nil => rfl
  | cons p ps ih =>
    rw [List.foldl_cons, hlane p (h p (by simp))]
    exact ih fun p hp => h p (by simp [hp])

/-- The oldest word that can be dequeued is taken. -/
theorem dequeue_eq {x : Word} {ws : List Word} (hn : NoWaiters s) (hr : NoReceived s)
    (hp : ∀ p ∈ (queueOf s q).closed, p.words ≠ []) (hw : wordsIn (queueOf s q) = x :: ws) :
    ∃ y, dequeue s q = some (x, setQueue s q y) ∧ wordsIn y = ws ∧ y.opened = (queueOf s q).opened
      ∧ ∀ p ∈ y.closed, p.words ≠ [] := by
  have hrest (y : Queue) : wakeWindow (pump (setQueue s q y)) (sendBase q) = setQueue s q y := by
    rw [pump_eq (s := setQueue s q y) hr]
    exact noWaiters_wakeAll (s := setQueue s q y) hn _
  unfold dequeue
  unfold wordsIn at hw
  cases hc : (queueOf s q).closed with
  | nil => simp [hc] at hw
  | cons p rest =>
    rw [hc] at hw hp
    have hpne := hp p (by simp)
    cases hpw : p.words with
    | nil => exact absurd hpw hpne
    | cons x' ws' =>
      rw [List.flatMap_cons, hpw, List.cons_append, List.cons.injEq] at hw
      obtain ⟨rfl, rfl⟩ := hw
      simp only [hc, hpw, hrest]
      refine ⟨_, rfl, ?_, rfl, ?_⟩
      · cases ws' with
        | nil => rfl
        | cons y ys => rfl
      · intro p' hp'
        cases ws' with
        | nil => exact hp p' (by simpa using .inr hp')
        | cons y ys =>
          rcases List.mem_cons.1 hp' with rfl | hp'
          · simp
          · exact hp p' (by simp [hp'])

theorem dequeue_none (h : (queueOf s q).closed = []) : dequeue s q = none := by rw [dequeue, h]

theorem queueStatus_eq {y : Queue} (h : (wordsIn y).length < 2 ^ 16) : queueStatus y = statusOf y := by
  have hor (a n : Nat) (hn : n < 2 ^ 16) : BitVec.ofNat 64 (2 ^ 61 * a) ||| BitVec.ofNat 64 n = BitVec.ofNat 64 (2 ^ 61 * a + n) := by
    rw [Nat.two_pow_add_eq_or_of_lt (by omega), BitVec.ofNat_or]
  unfold queueStatus statusOf
  rw [closedWords_eq]
  unfold wordsIn at h ⊢
  cases hc : y.closed with
  | nil => simp
  | cons p r =>
    rw [hc] at h
    dsimp only
    have hflags : (if p.words.length = 1 then (1#64 <<< 62) else 0) ||| (if p.trunc then (1#64 <<< 61) else 0)
        = BitVec.ofNat 64 (2 ^ 61 * ((if p.words.length = 1 then 2 else 0) + if p.trunc then 1 else 0)) := by
      split <;> split <;> rfl
    rw [hflags, hor _ _ h, Nat.mul_add]
    congr 2
    split <;> split <;> rfl

/-! ### Every core of the package -/

theorem everyCore_get {Q : Core → Prop} (h : ∀ p ∈ s.cores, Q p.2) (h0 : Q Core.reset) (c : Nat) : Q (coreOf s c) := by
  unfold coreOf tabGet
  cases hf : tabFind c s.cores with
  | none => exact h0
  | some k => exact h _ (mem_of_find hf)

theorem everyCore_set {Q : Core → Prop} {c : Nat} {k : Core} (h : ∀ p ∈ s.cores, Q p.2) (hk : Q k) :
    ∀ p ∈ (setCore s c k).cores, Q p.2 := by
  intro p hp
  rcases mem_put hp with rfl | hp
  · exact hk
  · exact h p hp

/-- What a stamp of a window's line leaves of a core that keeps its reading room and its copies. -/
theorem everyCore_stamp {Q : Core → Prop} (hQ : ∀ k x y, Q k → Q { k with l1 := x, tc := y }) (h0 : Q Core.reset)
    (h : ∀ p ∈ s.cores, Q p.2) (c pa : Nat) : ∀ p ∈ (stampWindow s c pa).cores, Q p.2 := by
  unfold stampWindow stampStore
  dsimp only
  have hrows (f : Nat × Nat → Nat × Nat) : ∀ p ∈ (setRows s (windowLine pa) 8 f).cores, Q p.2 := by rwa [setRows_cores]
  have hL1 (t : State) (ht : ∀ p ∈ t.cores, Q p.2) (loc w e : Nat) : ∀ p ∈ (refreshL1 t c loc w e).cores, Q p.2 := by
    unfold refreshL1
    dsimp only
    split
    · exact everyCore_set ht (hQ _ _ _ (everyCore_get ht h0 c))
    · exact ht
  have hnext := hL1 _ (hrows fun _ => (storeTs s c (windowLine pa) 8, storeTs s c (windowLine pa) 8)) (windowLine pa)
    (storeTs s c (windowLine pa) 8) (storeTs s c (windowLine pa) 8)
  exact everyCore_set hnext (hQ _ _ _ (everyCore_get hnext h0 c))

theorem reads_stampWindow (s : State) (c pa : Nat) : Reads s (stampWindow s c pa) := by
  have hL1 (t : State) (loc w e : Nat) : Reads t (refreshL1 t c loc w e) := by
    unfold refreshL1
    dsimp only
    split
    · exact reads_setCore _ _ _ rfl
    · exact .refl t
  unfold stampWindow stampStore
  dsimp only
  refine (reads_setRows s (windowLine pa) 8 _).trans ((hL1 _ _ _ _).trans (reads_setCoreTime ..))

/-! ### What accesses of windows change -/

/-- Only a queue, logical time and copies of lines differ. -/
structure Moved (s t : State) (q : Nat) : Prop where
  moved : QueueMoved s t q
  slots : ∀ c n, groupAt t c n = groupAt s c n

theorem Moved.refl (s : State) (q : Nat) : Moved s s q := ⟨⟨fun _ => rfl, fun _ _ => rfl, rfl, fun _ => rfl⟩, fun _ _ => rfl⟩

theorem Moved.trans (h : Moved s t q) (k : Moved t u q) : Moved s u q :=
  ⟨⟨fun l => (k.moved.bytes l).trans (h.moved.bytes l), fun p hp => (k.moved.queues p hp).trans (h.moved.queues p hp),
    k.moved.rest.trans h.moved.rest, fun c => (k.moved.cores c).trans (h.moved.cores c)⟩,
    fun c n => (k.slots c n).trans (h.slots c n)⟩

theorem Moved.parts (h : Moved s t q) : t.parts = s.parts := congrArg (·.parts) h.moved.rest
theorem Moved.turn (h : Moved s t q) : t.turn = s.turn := congrArg (·.turn) h.moved.rest
theorem Moved.ports (h : Moved s t q) : t.ports = s.ports := congrArg (·.ports) h.moved.rest
theorem Moved.slips (h : Moved s t q) (c : Nat) : (coreOf t c).slips = (coreOf s c).slips := congrArg (·.slips) (h.moved.cores c)

theorem queueOf_of_reads (h : Reads s t) (q : Nat) : queueOf t q = queueOf s q := by
  have : t.queues = s.queues := congrArg (·.queues) h.served.rest
  unfold queueOf
  rw [this]

theorem moved_of_reads (h : Reads s t) (q : Nat) : Moved s t q :=
  ⟨⟨h.served.bytes, fun p _ => queueOf_of_reads h p, congrArg (fun s : State => { s with queues := [] }) h.served.rest,
    h.served.cores⟩, h.slots⟩

theorem moved_setQueue (s : State) (q : Nat) (y : Queue) : Moved s (setQueue s q y) q :=
  ⟨⟨fun _ => rfl, fun _ hp => tabGet_put_ne hp, rfl, fun _ => rfl⟩, fun _ _ => rfl⟩

theorem queueOf_setQueue (s : State) (q : Nat) (y : Queue) : queueOf (setQueue s q y) q = y := tabGet_put_self

theorem settlePend_nil {c slot : Nat} (hg : groupAt s c slot = some g) (hp : g.pend = []) : settlePend s c slot = s := by
  rw [settlePend, hg]
  simp [hp]

/-- A thread's access of a window, once the group has no accesses to come. -/
theorem performOne_win {ea : Word} {v v2 : Word} (hg : groupAt s pl.core pl.slot = some g0) (ht : g0.isTender = none)
    (hp : g0.pend = []) : performOne s pl w ea (.win pa) v v2 = performWin s pl w ea pa v := by
  simp only [performOne, hg, ht, settlePend_nil hg hp]

/-! ### The threads of a word at a window -/

theorem memTrap_win {P : Nat → Nat} (ha : w.op.aligned = false) (h : ∀ k ∈ memKeys sp w, WinOk s pl g sp w k (P k)) :
    memTrap w (threadsOf s pl g sp w) = none := by
  have hall : ∀ a ∈ threadsOf s pl g sp w, isCanonical a.ea = true ∧ ∃ pa, a.chk = .ok (.win pa) := by
    intro a ha
    obtain ⟨k, hk, rfl⟩ := List.mem_map.mp ha
    exact ⟨(h k hk).canon, _, (h k hk).check⟩
  unfold memTrap
  rw [lowestAddr_none fun a ha => by simp [(hall a ha).1], lowestAddr_none fun a _ => by simp [ha]]
  simp only
  rw [List.findSome?_eq_none_iff]
  intro a ha
  obtain ⟨pa, hp⟩ := (hall a ha).2
  rw [hp]

theorem exists_isWin {P : Nat → Nat} (h : ∀ k ∈ memKeys sp w, WinOk s pl g sp w k (P k)) (hne : memKeys sp w ≠ []) :
    ∃ a ∈ threadsOf s pl g sp w, a.chk.isWin = true := by
  obtain ⟨k, hk⟩ := List.exists_mem_of_ne_nil _ hne
  refine ⟨_, List.mem_map_of_mem hk, ?_⟩
  have := (h k hk).check
  unfold addrOf at this
  simp only [this]
  rfl

/-- A thread at a window gets by: nothing stops it before the window itself. -/
theorem advances_win {P : Nat → Nat} {a : ThreadAcc} {next : State → List (Nat × Word) → List (Nat × Nat) → Prop}
    (hg : AccessGroup (settledState s pl g sp w) pl g0) (hk : ∀ k ∈ memKeys sp w, WinOk s pl g sp w k (P k))
    (ha : a ∈ threadsOf s pl g sp w) (hm : Moved (settledState s pl g sp w) t q)
    (hperf : ∀ k, a.t = k → a.ea = addrOf s g sp w k → a.v = dataOf s g sp w k → k ∈ memKeys sp w →
      (∃ u, performWin t pl w a.ea (P k) a.v = .done u none ∧ next u [] [])
      ∨ ∃ u x, performWin t pl w a.ea (P k) a.v = .done u (some x) ∧ next u [(a.t, x)] []) :
    Advances pl w t a next := by
  obtain ⟨k, hin, e⟩ := List.mem_map.mp ha
  have hok := hk k hin
  have hat : a.t = k ∧ a.ea = addrOf s g sp w k ∧ a.chk = .ok (.win (P k)) ∧ a.v = dataOf s g sp w k := by
    rw [← e]; exact ⟨rfl, rfl, hok.check, rfl⟩
  obtain ⟨hat, haea, hachk, hav⟩ := hat
  obtain ⟨hs1, hs2⟩ := hok.slips g0 hg.group
  have hgr : groupAt t pl.core pl.slot = some g0 := (hm.slots ..).trans hg.group
  refine ⟨.win (P k), g0, hachk, hgr, hg.tender, ?_, ?_, rfl, ?_⟩
  · rw [watchHit_congr hm.parts, haea]; exact hs2
  · rw [accConflict_congr (hm.slips _) rfl, haea]; exact hs1
  · rw [performOne_win hgr hg.tender (Performed.pend_drainPend hg.group)]
    rcases hperf k hat haea hav hin with h | h
    · exact .inl h
    · exact .inr (.inl h)

/-- A window that is not ready stops the first thread, and all of them wait for it. -/
theorem window_waits {i : Instr} {h : Hd} {P : Nat → Nat} {base : Nat} (hi : ∀ s, exec i s = memWord s h w)
    (hs : Issues s pl g sp) (hr : MemReady s pl g sp w) (ha : w.op.aligned = false) (hf : (w.op == .frd) = false)
    (hk : ∀ k ∈ memKeys sp w, WinOk s pl g sp w k (P k)) (hg : AccessGroup (settledState s pl g sp w) pl g0)
    (hne : memKeys sp w ≠ []) (hwait : ∀ k ∈ memKeys sp w,
      performWin (settledState s pl g sp w) pl w (addrOf s g sp w k) (P k) (dataOf s g sp w k) = .endpoint base)
    (hroom : RoomFor (settledState s pl g sp w) pl 1) :
    ∃ u, exec i s = .next u ∧ Reading (settledState s pl g sp w) u pl g0 sp (.endpoint base) false (memKeys sp w) (fun _ => base)
      (owedAfter pl w.dst []) := by
  have hx := memWord_settled h hs hr (memTrap_win ha hk) (.inr (exists_isWin hk hne))
  have hend := memEnd_endpoint (w := w) (sp := sp) (h := h) (first := true) (occ := memOcc sp w)
    (lo := lowestAbsent (threadsOf s pl g sp w)) (base := base) hne hg.group hg.calm.watch (keys_memKeys sp w) hroom
  have hrun : (threadsOf s pl g sp w).foldl (memThread pl w)
        { s := settledState s pl g sp w, vals := [], waits := [], left := [], watch := none, wrote := [], stop := none }
      = { s := settledState s pl g sp w, vals := [], waits := [], left := memKeys sp w, watch := none, wrote := []
          stop := some (.endpoint base) } := by
    have hleft : (threadsOf s pl g sp w).map (·.t) = memKeys sp w := by simp [mem_threadsOf, Function.comp_def]
    rw [mem_threadsOf] at hleft ⊢
    cases hkeys : memKeys sp w with
    | nil => exact absurd hkeys hne
    | cons k r =>
      have hin : k ∈ memKeys sp w := by rw [hkeys]; simp
      obtain ⟨hs1, hs2⟩ := (hk k hin).slips g0 hg.group
      have hperf := performOne_win (w := w) (pa := P k) (ea := addrOf s g sp w k) (v := dataOf s g sp w k) (v2 := nextOf s g sp w k)
        hg.group hg.tender (Performed.pend_drainPend hg.group)
      rw [hwait k hin] at hperf
      rw [hkeys] at hleft
      rw [List.map_cons, List.foldl_cons, foldl_memThread_stopped (m := .endpoint base)]
      · simp [memThread, (hk k hin).check, hg.group, hs1, hs2, hg.tender, hperf, Function.comp_def]
      · simp [memThread, (hk k hin).check, hg.group, hs1, hs2, hg.tender, hperf]
  rw [hrun] at hx
  rw [hf] at hend
  exact ⟨_, (hi s).trans hx, hend⟩

/-- The end of a word all of whose threads got by at a window. -/
theorem window_wrote {h : Hd} {vs : List (Nat × Word)} {occ : Nat} {lo : Option Word} (hs : Issues s pl g sp)
    (hg : AccessGroup (settledState s pl g sp w) pl g0) (hm : Moved (settledState s pl g sp w) t q) :
    Wrote t (memEnd h pl w true occ lo sp { s := t, vals := vs, waits := [], left := [], watch := none, wrote := [], stop := none })
      pl g0 sp h occ w.dst (vs.map (·.1)) (fun _ => none) 0 (owedBy pl w.dst vs) := by
  have hend := memEnd_spec (w := w) (sp := sp) (vs := vs) (ks := []) h occ lo (hm.turn.trans (settledState_turn.trans hs.turn))
    ((hm.slots ..).trans hg.group) hg.calm
  rwa [noteWrites_nil] at hend

/-! ### Stores to a send window (R158) -/

/-- No thread waits in the core's room, and no copy of it uses the window. -/
def Idle (base : Nat) (k : Core) : Prop := k.room = [] ∧ ∀ j ∈ k.copies, j.win ≠ some base

theorem idle_reset (base : Nat) : Idle base Core.reset := ⟨rfl, fun _ h => nomatch h⟩

theorem engineOn_idle {base : Nat} (h : ∀ p ∈ s.cores, Idle base p.2) : engineOn s base = false := by
  rw [engineOn, List.any_eq_false]
  intro p hp
  simpa using (h p hp).2

theorem noWaiters_idle {base : Nat} (h : ∀ p ∈ s.cores, Idle base p.2) : NoWaiters s := fun p hp => (h p hp).1

/-- A store to a send window that has room adds its word. -/
theorem performWin_send {ea v : Word} (hw : w.op = .st) (hq : windowOf pa = .send q) (hidle : ∀ p ∈ s.cores, Idle (sendBase q) p.2)
    (hroom : queueWords (queueOf s q) < 512) : performWin s pl w ea pa v =
      .done (stampWindow (setQueue s q (putWords (queueOf s q) [(v, pa.testBit 12)])) pl.core pa) none := by
  have hdead : windowDead s pa = false := by rw [windowDead, hq]
  have hput : putWindow s pl.core pl.slot pa ea v
      = .done 0 (stampWindow (setQueue s q (putWords (queueOf s q) [(v, pa.testBit 12)])) pl.core pa) := by
    rw [putWindow, hq]
    dsimp only
    rw [if_neg (by unfold queueSize; omega), enqueue_eq (noWaiters_idle hidle)]
    rfl
  simp [performWin, hw, storeWindow, hdead, windowBase_send hq, engineOn_idle hidle, hput]

/-- A store to a send window that is full waits. -/
theorem performWin_send_full {ea v : Word} (hw : w.op = .st) (hq : windowOf pa = .send q)
    (hfull : 512 ≤ queueWords (queueOf s q)) : performWin s pl w ea pa v = .endpoint (sendBase q) := by
  have hdead : windowDead s pa = false := by rw [windowDead, hq]
  have hput : putWindow s pl.core pl.slot pa ea v = .wait (sendBase q) := by
    rw [putWindow, hq]
    dsimp only
    rw [if_pos (by unfold queueSize; omega), windowBase_send hq]
  simp only [performWin, hw, storeWindow, hdead, windowBase_send hq, hput, beq_self_eq_true, if_true, Bool.false_eq_true, if_false,
    ite_self]

/-- The threads of a store fill the queue in order. -/
theorem stores_send {i : Instr} {h : Hd} {P : Nat → Nat} (hw : w.op = .st) (hi : ∀ s, exec i s = memWord s h w)
    (hs : Issues s pl g sp) (hr : MemReady s pl g sp w)
    (hk : ∀ k ∈ memKeys sp w, WinOk s pl g sp w k (P k) ∧ windowOf (P k) = .send q)
    (hg : AccessGroup (settledState s pl g sp w) pl g0) (hne : memKeys sp w ≠ [])
    (hidle : ∀ p ∈ (settledState s pl g sp w).cores, Idle (sendBase q) p.2)
    (hroom : queueWords (queueOf (settledState s pl g sp w) q) + (memKeys sp w).length ≤ 512) :
    ∃ s1 u, exec i s = .next u ∧ QueueMoved (settledState s pl g sp w) s1 q
      ∧ queueOf s1 q = putWords (queueOf (settledState s pl g sp w) q)
          ((memKeys sp w).map fun k => (dataOf s g sp w k, (P k).testBit 12))
      ∧ Wrote s1 u pl g0 sp h (memOcc sp w) .z [] (fun _ => none) 0 [] := by
  have hd : w.dst = .z := by simp [MemWord.dst, hw, MemOp.writesT]
  have hwin := fun k hin => (hk k hin).1
  have hx := memWord_settled h hs hr (memTrap_win (by simp [hw, MemOp.aligned]) hwin) (.inr (exists_isWin hwin hne))
  have hadv := @advances_win s
  generalize hs0 : settledState s pl g sp w = s0 at *
  let word : ThreadAcc → Word × Bool := fun a => (dataOf s g sp w a.t, (P a.t).testBit 12)
  let all := threadsOf s pl g sp w
  obtain ⟨t, vs, ws, e, hmoved, -, hvs, hws, hqueue, -⟩ := foldl_memThread (pl := pl) (w := w)
    (fun rest st vals waits => Moved s0 st q ∧ (∀ p ∈ st.cores, Idle (sendBase q) p.2) ∧ vals = [] ∧ waits = []
      ∧ putWords (queueOf st q) (rest.map word) = putWords (queueOf s0 q) (all.map word)
      ∧ queueWords (queueOf st q) + rest.length ≤ 512 ∧ ∀ a ∈ rest, a ∈ all)
    (by
      rintro a rest st vals waits ⟨hm, hid, rfl, rfl, hput, hlen, hin⟩
      rw [List.length_cons] at hlen
      refine hadv (hs0.symm ▸ hg) hwin (hin a (by simp)) (hs0.symm ▸ hm) fun k hat _ hav hkin => .inl ?_
      have hq := (hk k hkin).2
      refine ⟨_, performWin_send hw hq hid (by omega), hm.trans ((moved_setQueue ..).trans (moved_of_reads
        (reads_stampWindow ..) q)), ?_, rfl, rfl, ?_, ?_, fun b hb => hin b (by simp [hb])⟩
      · exact everyCore_stamp (s := setQueue st q _) (fun _ _ _ h => h) (idle_reset _) hid _ _
      · have hword : (a.v, (P k).testBit 12) = word a := by simp only [word, hav, hat]
        rw [queueOf_of_reads (reads_stampWindow ..), queueOf_setQueue, hword, ← hput, List.map_cons, putWords_cons (queueOf st q) (word a) (rest.map word)]
      · rw [queueOf_of_reads (reads_stampWindow ..), queueOf_setQueue, queueWords_putWords]
        omega)
    all s0 [] [] ⟨.refl _ q, hidle, rfl, rfl, rfl, by simpa [all, mem_threadsOf] using hroom, fun _ h => h⟩
  simp only [List.map_nil] at e
  rw [show threadsOf s pl g sp w = all from rfl, e] at hx
  refine ⟨t, _, (hi s).trans hx, hmoved.moved, ?_, ?_⟩
  · have hwords : all.map word = (memKeys sp w).map fun k => (dataOf s g sp w k, (P k).testBit 12) := by
      simp [all, word, mem_threadsOf, Function.comp_def]
    rw [← hwords, ← hqueue]
    rfl
  · have hend := window_wrote (h := h) (vs := vs) (occ := memOcc sp w) (lo := lowestAbsent all) hs (hs0.symm ▸ hg) (hs0.symm ▸ hmoved)
    rw [hd, hvs] at hend
    rw [hvs, hws]
    exact hend

/-! ### Loads of a receive window (R159, R160) -/

theorem performWin_recv {ea v x : Word} {y : Queue} {sg : Bool} (hw : w.op = .ld sg) (hq : windowOf pa = .recv q)
    (hb : pa.testBit 12 = false) (hdeq : dequeue s q = some (x, setQueue s q y)) :
    performWin s pl w ea pa v = .done (stampWindow (setQueue s q y) pl.core pa) (some x) := by
  simp [performWin, hw, loadWindow, hq, bit12, hb, hdeq]

theorem performWin_recv_empty {ea v : Word} {sg : Bool} (hw : w.op = .ld sg) (hq : windowOf pa = .recv q)
    (hb : pa.testBit 12 = false) (he : (queueOf s q).closed = []) : performWin s pl w ea pa v = .endpoint (recvBase q) := by
  simp [performWin, hw, loadWindow, hq, bit12, hb, dequeue_none he, windowBase_recv hq]

theorem performWin_status {ea v : Word} {sg : Bool} (hw : w.op = .ld sg) (hq : windowOf pa = .recv q)
    (hb : pa.testBit 12 = true) : performWin s pl w ea pa v =
      .done (stampWindow s pl.core pa) (some (queueStatus (queueOf s q))) := by
  simp [performWin, hw, loadWindow, hq, bit12, hb]

theorem noWaiters_stamp (h : NoWaiters s) (c pa : Nat) : NoWaiters (stampWindow s c pa) :=
  everyCore_stamp (Q := fun k => k.room = []) (fun _ _ _ h => h) rfl h c pa

/-- The threads of a load take the queue's words in order. -/
theorem loads_recv {i : Instr} {h : Hd} {P : Nat → Nat} {sg : Bool} (hw : w.op = .ld sg) (hi : ∀ s, exec i s = memWord s h w)
    (hs : Issues s pl g sp) (hr : MemReady s pl g sp w)
    (hk : ∀ k ∈ memKeys sp w, WinOk s pl g sp w k (P k) ∧ windowOf (P k) = .recv q)
    (hg : AccessGroup (settledState s pl g sp w) pl g0) (hb : ∀ k ∈ memKeys sp w, (P k).testBit 12 = false)
    (hno : NoWaiters (settledState s pl g sp w)) (hrecv : NoReceived (settledState s pl g sp w))
    (hfull : ∀ p ∈ (queueOf (settledState s pl g sp w) q).closed, p.words ≠ [])
    (hlen : (memKeys sp w).length ≤ (wordsIn (queueOf (settledState s pl g sp w) q)).length) :
    ∃ s1 u, exec i s = .next u ∧ QueueMoved (settledState s pl g sp w) s1 q
      ∧ wordsIn (queueOf s1 q) = (wordsIn (queueOf (settledState s pl g sp w) q)).drop (memKeys sp w).length
      ∧ (queueOf s1 q).opened = (queueOf (settledState s pl g sp w) q).opened
      ∧ Wrote s1 u pl g0 sp h (memOcc sp w) w.t (memKeys sp w) (fun _ => none) 0
          (owedBy pl w.t ((memKeys sp w).zip (wordsIn (queueOf (settledState s pl g sp w) q)))) := by
  have hd : w.dst = w.t := by simp [MemWord.dst, hw, MemOp.writesT]
  have hwin := fun k hin => (hk k hin).1
  have hx := memWord_settled h hs hr (memTrap_win (by simp [hw, MemOp.aligned]) hwin) (.inl (by simp [hw]))
  have hadv := @advances_win s
  generalize hs0 : settledState s pl g sp w = s0 at *
  let all := threadsOf s pl g sp w
  have hkeys : all.map (·.t) = memKeys sp w := by simp [all, mem_threadsOf, Function.comp_def]
  have halen : all.length = (memKeys sp w).length := by rw [← hkeys, List.length_map]
  obtain ⟨t, vs, ws, e, hmoved, -, -, hvs, hws, hdrop, hopen, -⟩ := foldl_memThread (pl := pl) (w := w)
    (fun rest st vals waits => Moved s0 st q ∧ NoWaiters st ∧ (∀ p ∈ (queueOf st q).closed, p.words ≠ [])
      ∧ vals ++ (rest.map (·.t)).zip (wordsIn (queueOf st q)) = (memKeys sp w).zip (wordsIn (queueOf s0 q)) ∧ waits = []
      ∧ (wordsIn (queueOf st q)).drop rest.length = (wordsIn (queueOf s0 q)).drop (memKeys sp w).length
      ∧ (queueOf st q).opened = (queueOf s0 q).opened
      ∧ rest.length ≤ (wordsIn (queueOf st q)).length ∧ ∀ a ∈ rest, a ∈ all)
    (by
      rintro a rest st vals waits ⟨hm, hnw, hne, hval, rfl, hdrop, hopen, hle, hin⟩
      refine hadv (hs0.symm ▸ hg) hwin (hin a (by simp)) (hs0.symm ▸ hm) fun k hat _ _ hkin => .inr ?_
      cases hws : wordsIn (queueOf st q) with
      | nil => rw [hws] at hle; simp at hle
      | cons x ws =>
        have hrc : NoReceived st := by unfold NoReceived; rw [hm.ports]; exact hrecv
        obtain ⟨y, hdeq, hy, hyo, hyne⟩ := dequeue_eq hnw hrc hne hws
        have hqy : queueOf (stampWindow (setQueue st q y) pl.core (P k)) q = y := by
          rw [queueOf_of_reads (reads_stampWindow ..), queueOf_setQueue]
        rw [hws] at hval hdrop hle
        refine ⟨_, x, performWin_recv hw (hk k hkin).2 (hb k hkin) hdeq,
          hm.trans ((moved_setQueue ..).trans (moved_of_reads (reads_stampWindow ..) q)), noWaiters_stamp (s := setQueue st q y) hnw _ _, ?_, ?_, rfl, ?_, ?_,
          ?_, fun b hb => hin b (by simp [hb])⟩
        · rwa [hqy]
        · rw [hqy, hy, ← hval]
          simp
        · rw [hqy, hy]
          exact hdrop
        · rw [hqy, hyo, hopen]
        · rw [hqy, hy]
          exact Nat.le_of_succ_le_succ hle)
    all s0 [] [] ⟨.refl _ q, hno, hfull, by rw [hkeys]; rfl, rfl, by rw [halen], rfl, by rw [halen]; exact hlen, fun _ h => h⟩
  simp only [List.map_nil] at e
  rw [show threadsOf s pl g sp w = all from rfl, e] at hx
  refine ⟨t, _, (hi s).trans hx, hmoved.moved, hdrop, hopen, ?_⟩
  have hvs' : vs = (memKeys sp w).zip (wordsIn (queueOf s0 q)) := by simpa using hvs
  have hend := window_wrote (h := h) (vs := vs) (occ := memOcc sp w) (lo := lowestAbsent all) hs (hs0.symm ▸ hg) (hs0.symm ▸ hmoved)
  rw [hd, hvs', show ((memKeys sp w).zip (wordsIn (queueOf s0 q))).map (·.1) = memKeys sp w from List.map_fst_zip hlen] at hend
  rw [hvs', hws]
  exact hend

/-- The threads of a load read the window's status word. -/
theorem loads_status {i : Instr} {h : Hd} {P : Nat → Nat} {sg : Bool} (hw : w.op = .ld sg) (hi : ∀ s, exec i s = memWord s h w)
    (hs : Issues s pl g sp) (hr : MemReady s pl g sp w)
    (hk : ∀ k ∈ memKeys sp w, WinOk s pl g sp w k (P k) ∧ windowOf (P k) = .recv q)
    (hg : AccessGroup (settledState s pl g sp w) pl g0) (hb : ∀ k ∈ memKeys sp w, (P k).testBit 12 = true)
    (hlen : (wordsIn (queueOf (settledState s pl g sp w) q)).length < 2 ^ 16) :
    ∃ s1 u, exec i s = .next u ∧ QueueMoved (settledState s pl g sp w) s1 q
      ∧ queueOf s1 q = queueOf (settledState s pl g sp w) q
      ∧ Wrote s1 u pl g0 sp h (memOcc sp w) w.t (memKeys sp w) (fun _ => none) 0
          (owedBy pl w.t ((memKeys sp w).map fun k => (k, statusOf (queueOf (settledState s pl g sp w) q)))) := by
  have hd : w.dst = w.t := by simp [MemWord.dst, hw, MemOp.writesT]
  have hwin := fun k hin => (hk k hin).1
  have hx := memWord_settled h hs hr (memTrap_win (by simp [hw, MemOp.aligned]) hwin) (.inl (by simp [hw]))
  have hadv := @advances_win s
  generalize hs0 : settledState s pl g sp w = s0 at *
  let val : ThreadAcc → Nat × Word := fun a => (a.t, statusOf (queueOf s0 q))
  let all := threadsOf s pl g sp w
  obtain ⟨t, vs, ws, e, hreads, hvs, hws, -⟩ := foldl_memThread (pl := pl) (w := w)
    (fun rest st vals waits => Reads s0 st ∧ vals ++ rest.map val = all.map val ∧ waits = [] ∧ ∀ a ∈ rest, a ∈ all)
    (by
      rintro a rest st vals waits ⟨hrd, hval, rfl, hin⟩
      refine hadv (hs0.symm ▸ hg) hwin (hin a (by simp)) (hs0.symm ▸ moved_of_reads hrd q) fun k hat _ _ hkin => .inr ?_
      have hst : queueStatus (queueOf st q) = statusOf (queueOf s0 q) := by rw [queueOf_of_reads hrd, queueStatus_eq hlen]
      refine ⟨_, _, performWin_status hw (hk k hkin).2 (hb k hkin), hrd.trans (reads_stampWindow ..), ?_, rfl,
        fun b hb => hin b (by simp [hb])⟩
      rw [← hval, hst]
      simp [val])
    all s0 [] [] ⟨.refl _, rfl, rfl, fun _ h => h⟩
  simp only [List.map_nil] at e
  rw [show threadsOf s pl g sp w = all from rfl, e] at hx
  have hmoved := moved_of_reads hreads q
  refine ⟨t, _, (hi s).trans hx, hmoved.moved, queueOf_of_reads hreads q, ?_⟩
  have hvs' : vs = (memKeys sp w).map fun k => (k, statusOf (queueOf s0 q)) := by
    simpa [all, val, mem_threadsOf, Function.comp_def] using hvs
  have hend := window_wrote (h := h) (vs := vs) (occ := memOcc sp w) (lo := lowestAbsent all) hs (hs0.symm ▸ hg) (hs0.symm ▸ hmoved)
  rw [hd, hvs', show ((memKeys sp w).map fun k => (k, statusOf (queueOf s0 q))).map (·.1) = memKeys sp w by
    simp [Function.comp_def]] at hend
  rw [hvs', hws]
  exact hend

end Sys2Proof.Proofs.Windows
end

section
/-! PROOFS. PREF, TRB and its completion (R130, R146), and the claim of the memory words beside loads, stores and atomics. -/

namespace Sys2Proof.Proofs.OtherWords

open Machine Claims Laws ReadingRoom Windows

variable {s : State} {pl : Place} {g : Machine.Group} {sp : Split}

theorem pref_passes {h : Hd} {l2 : Bool} {sz : Sz} {b : Fin 8} {x : Opnd} {scale : BitVec 2} {disp : BitVec 3}
    (hs : Issues s pl g sp) (hc : Calm g) (hn : namesBad g [x] = false) (ht : tenderNeeds g sp [x] = false)
    (hb : trbPending g b.val = false) : ∃ u, exec (.pref h l2 sz b x scale disp) s = .next u
      ∧ Passed s u pl g sp h (if isUniform x then 1 else perThreadOcc sp.mask) (nextPos sp.pc sp.word) := by
  have hx : exec (.pref h l2 sz b x scale disp) s = execPref h l2 sz b x scale disp s := rfl
  refine ⟨_, hx.trans ?_, passed_finish h _ hc hs.turn⟩
  simp [execPref, issue_eq hs, hn, ht, hb]

theorem pref_waits {h : Hd} {l2 : Bool} {sz : Sz} {b : Fin 8} {x : Opnd} {scale : BitVec 2} {disp : BitVec 3}
    (hs : Issues s pl g sp) (hn : namesBad g [x] = false) (ht : tenderNeeds g sp [x] = false) (hb : trbPending g b.val = true) :
    ∃ u, exec (.pref h l2 sz b x scale disp) s = .next u ∧ Waits s u pl g sp (.trb b.val) := by
  have hx : exec (.pref h l2 sz b x scale disp) s = execPref h l2 sz b x scale disp s := rfl
  refine ⟨_, hx.trans ?_, waits_waitAt s pl g sp _⟩
  simp [execPref, issue_eq hs, hn, ht, hb]

theorem passed_free {n : Nat} {t : State} {h : Hd} {occ : Nat} {dest : Word × Nat}
    (hp : Passed { s with free := n } t pl g sp h occ dest) : Passed s t pl g sp h occ dest := by
  obtain ⟨hrest, g', sp', hw, hkept⟩ := hp
  exact ⟨⟨hrest.bytes, hrest.rest, hrest.parts, hrest.cores, hrest.groups⟩, g', sp', { hw with time := hw.time }, hkept⟩

/-- TRB: the group's register takes its base and loses V, and its completion becomes due. -/
theorem trb_passes {h : Hd} {b : Fin 8} {x : Opnd} (hs : Issues s pl g sp) (hc : Calm g) (hu : UniformSrcs g sp pl.split [x]) :
    ∃ u, exec (.trb h b x) s = .next u ∧ Passed s u pl { g with
        tregs := tabPut b.val { tabGet TReg.reset g.tregs b.val with base := once s g sp x, v := false } g.tregs
        trbs := g.trbs.filter (fun y => y.n != b) ++ [{ n := b, a := once s g sp x, g := (partOf s g.part).gen }] }
      sp h 1 (nextPos sp.pc sp.word) := by
  have hx : exec (.trb h b x) s = execTrb h b x s := rfl
  have huni : isUniform x = true := hu.uniform x (by simp)
  refine ⟨_, hx.trans ?_, passed_free (n := s.free + 1) (passed_finish h 1 ⟨hc.watch, hc.step⟩ hs.turn)⟩
  simp only [execTrb, issue_eq hs, huni, hu.names, hu.hazard, Bool.not_true, Bool.or_false, Bool.false_eq_true, if_false]
  rfl

/-! ### The completion of a TRB -/

theorem trbResult_base (c : Nat) (n : Nat) (a : Word) : (trbResult s c g n a).base = a := by
  unfold trbResult trbBase
  dsimp only
  split
  · rfl
  · split
    · rfl
    · split <;> rfl

/-- A register that takes no translation keeps what it had but for its base and V. -/
theorem trbResult_invalid {c n : Nat} {a : Word} (h : (trbResult s c g n a).v = false) : trbResult s c g n a = trbBase g n a := by
  unfold trbResult at h ⊢
  dsimp only at h ⊢
  split
  · rfl
  · split
    · simp_all
    · split
      · rfl
      · simp_all

theorem trbResult_noncanonical {c n : Nat} {a : Word} (h : isCanonical a = false) : (trbResult s c g n a).v = false := by
  simp [trbResult, h, trbBase]

theorem trbResult_aperture {c n : Nat} {a : Word} (h : isCanonical a = true) (ha : inAperture a = true) :
    trbResult s c g n a = { trbBase g n a with v := true, mt := 0, psz := 3, rd := true, wr := true
                                               pa := BitVec.ofNat 52 (apOffset a) } := by
  simp [trbResult, h, ha]

theorem apOffset_eq {a : Word} (ha : inAperture a = true) : apOffset a = (a - 0xFFFFFFFFFFC00000).toNat := by
  have hle : Config.aperture.toNat ≤ a.toNat := by simpa [inAperture] using ha
  exact (BitVec.toNat_sub_of_le (BitVec.le_def.2 hle)).symm

theorem trbResult_page {c n : Nat} {a : Word} (h : isCanonical a = true) (ha : inAperture a = false) :
    match transPage s c g.part a with
    | .ok l => (trbResult s c g n a).v = true ∧ (trbResult s c g n a).pa = BitVec.ofNat 52 l.loc
        ∧ (trbResult s c g n a).mt = l.mt ∧ (trbResult s c g n a).rd = l.r ∧ (trbResult s c g n a).wr = l.w
    | _ => (trbResult s c g n a).v = false := by
  simp only [trbResult, h, ha, transEntry, transPage, Bool.not_true, Bool.false_eq_true, if_false]
  cases entryOut s c g.part a with
  | absent => rfl
  | malformed => rfl
  | leaf e =>
    unfold leafOf
    dsimp only
    generalize frameSet s (e.pa + (a.toNat % 2 ^ 57 - e.va)) = set
    cases set with
    | true => exact ⟨rfl, rfl, rfl, rfl, rfl⟩
    | false => rfl

/-- The register of a TRB whose translation is there. -/
theorem exec_trbComplete {c slot k : Nat} {p : TrbPend} (hg : groupAt s c slot = some g) (hp : g.trbs[k]? = some p)
    (hgen : p.g = (partOf s g.part).gen) : ∃ u g', exec (.trbComplete c slot k) s = .next u ∧ groupAt u c slot = some g'
      ∧ g'.trbs = g.trbs.eraseIdx k ∧ g'.tregs = tabPut p.n.val (trbResult s c g p.n.val p.a) g.tregs := by
  have hx : exec (.trbComplete c slot k) s = execTrbComplete c slot k s := rfl
  have he := hx
  rw [execTrbComplete, hg] at he
  dsimp only at he
  rw [hp] at he
  dsimp only at he
  rw [if_pos hgen, Performed.wakeSplits_eq _ (groupAt_setGroup_self _)] at he
  exact ⟨_, _, he, groupAt_setGroup_self _, rfl, rfl⟩

theorem trb_completes {c slot k : Nat} {p : TrbPend} (hg : groupAt s c slot = some g) (hp : g.trbs[k]? = some p)
    (hgen : p.g = (partOf s g.part).gen) :
    ∃ u g' y, exec (.trbComplete c slot k) s = .next u ∧ groupAt u c slot = some g' ∧ g'.trbs = g.trbs.eraseIdx k
      ∧ tabGet TReg.reset g'.tregs p.n.val = y ∧ y.base = p.a
      ∧ (∀ n, n ≠ p.n.val → tabGet TReg.reset g'.tregs n = tabGet TReg.reset g.tregs n)
      ∧ (y.v = false → { tabGet TReg.reset g.tregs p.n.val with base := p.a, v := false } = y)
      ∧ (isCanonical p.a = false → y.v = false)
      ∧ (isCanonical p.a = true → inAperture p.a = true →
          y.v = true ∧ y.psz = 3 ∧ y.rd = true ∧ y.wr = true ∧ y.mt = 0 ∧ y.pa = BitVec.ofNat 52 (p.a - 0xFFFFFFFFFFC00000).toNat)
      ∧ (isCanonical p.a = true → inAperture p.a = false →
          match transPage s c g.part p.a with
          | .ok l => y.v = true ∧ y.pa = BitVec.ofNat 52 l.loc ∧ y.mt = l.mt ∧ y.rd = l.r ∧ y.wr = l.w
          | _ => y.v = false) := by
  obtain ⟨u, g', hexec, hgroup, htrbs, htregs⟩ := exec_trbComplete hg hp hgen
  refine ⟨u, g', trbResult s c g p.n.val p.a, hexec, hgroup, htrbs, ?_, trbResult_base .., fun n hn => ?_,
    fun hv => (trbResult_invalid hv).symm, trbResult_noncanonical, fun hcan hap => ?_, trbResult_page⟩
  · rw [htregs, tabGet_put_self]
  · rw [htregs, tabGet_put_ne hn]
  · rw [trbResult_aperture hcan hap, ← apOffset_eq hap]
    exact ⟨rfl, rfl, rfl, rfl, rfl, rfl⟩

/-- Settles O36, word by word. -/
theorem otherMemoryWords : Obligations.OtherMemoryWords := by
  unfold Obligations.OtherMemoryWords
  intro h t b x scale
  refine ⟨fun cond wide => ?_, ?_, fun disp => ?_, fun disp => ?_,
    fun l2 sz disp s pl g sp hs hc hn ht => ⟨pref_passes hs hc hn ht, pref_waits hs hn ht⟩, fun s pl g sp => trb_passes, fun s c slot g k p => trb_completes⟩
  · have hn : (if wide then 8 else 4) = 4 ∨ (if wide then 8 else 4) = 8 := by cases wide <;> simp
    refine ⟨passesWhen_spec rfl hn fun _ => rfl, fun s pl g sp g0 P hs hr hk hone hg hc hp hne hroom => ?_⟩
    exact waitm_reading rfl hn (fun _ => rfl) hs hr hk hone hg hc hp rfl hne hroom
  · exact fun s pl g sp g0 P hs hr hk hg hp hne hroom => frd_reading rfl (fun _ => rfl) hs hr hk hg hp rfl rfl hne hroom
  · intro w i s pl g sp g0 q pa hs hr hk s0 words hg hne
    refine ⟨fun hno hcopies hlen => ?_, fun hfull hroom => ?_⟩
    · refine stores_send rfl (fun _ => rfl) hs hr hk hg hne (fun p hp => ⟨hno p hp, hcopies p hp⟩) ?_
      rw [queueWords_eq]
      simpa [words] using hlen
    · refine window_waits (fun _ => rfl) hs hr rfl rfl (fun k hin => (hk k hin).1) hg hne (fun k hin => ?_) hroom
      exact performWin_send_full rfl (hk k hin).2 (by rwa [queueWords_eq])
  · intro w i s pl g sp g0 q pa hs hr hk s0 old hg hne
    refine ⟨fun hb => ⟨fun hno hrecv hfull hlen => ?_, fun hempty hroom => ?_⟩, fun hb hlen => ?_⟩
    · exact loads_recv rfl (fun _ => rfl) hs hr hk hg hb hno hrecv hfull hlen
    · refine window_waits (fun _ => rfl) hs hr rfl rfl (fun k hin => (hk k hin).1) hg hne (fun k hin => ?_) hroom
      exact performWin_recv_empty rfl (hk k hin).2 (hb k hin) hempty
    · exact loads_status rfl (fun _ => rfl) hs hr hk hg hb hlen

end Sys2Proof.Proofs.OtherWords
end

section
/-! PROOFS. What an access reaches and why it is refused (R122–R134, R141): the physical map, the page table, the aperture, the
translation registers and the checks of an access in one part or two. -/

namespace Sys2Proof.Proofs.Translation

open Machine Claims Laws

variable {s : State} {c part : Nat}

/-! ### The physical map (R123, R368, R372, R374) -/

theorem isWithheld_iff {pa : Nat} : isWithheld s pa = true ↔ ∃ w ∈ s.withheld, w.1 ≤ pa ∧ pa < w.1 + w.2 := by
  simp [isWithheld]

theorem sum_pools (s : State) (l : List Nat) :
    (l.map fun d => tabGet 0 s.pools d + if d ∈ s.deadDies then 96 * 2 ^ 30 else 0).sum
      = (l.map fun d => tabGet 0 s.pools d).sum + (l.map fun d => if s.deadDies.contains d then dieBytes else 0).sum := by
  induction l with
  | nil => rfl
  | cons d l ih =>
    simp only [List.map_cons, List.sum_cons, ih, List.contains_iff_mem, dieBytes]
    omega

/-- What a frame's address is, range by range. -/
theorem frame_iff {pa : Nat} : Frame s pa ↔ frameSet s pa = true := by
  have hlost := sum_pools s (List.range 8)
  unfold Frame frameSet
  rw [hlost]
  change (_ ∧ (pa + (localBytes s + lostBytes s) < _ ∨ _)) ↔ _
  have hheld : (∀ w ∈ s.withheld, ¬ (w.1 ≤ pa ∧ pa < w.1 + w.2)) ↔ isWithheld s pa = false := by
    rw [← Bool.not_eq_true, isWithheld_iff]
    push Not
    rfl
  rw [hheld, Bool.and_eq_true, Bool.not_eq_true']
  refine and_congr_right fun _ => ?_
  by_cases h1 : pa < 8 * dieBytes
  · rw [targetOf, if_pos h1]
    unfold dieBytes at h1 ⊢
    rw [decide_eq_true_iff]
    constructor
    · rintro (h | ⟨d, hd, n, hn, -, h⟩ | ⟨d, hd, n, hn, -, h⟩ | h) <;> omega
    · exact fun h => .inl (by omega)
  by_cases h2 : 2 ^ 48 ≤ pa ∧ pa < 2 ^ 48 + 8 * 2 ^ 37
  · by_cases h3 : (pa - 2 ^ 48) % 2 ^ 37 < dieBytes
    · rw [targetOf, if_neg h1, if_pos h2, if_pos h3, decide_eq_true_iff]
      unfold dieBytes at h1 h3
      constructor
      · rintro (h | ⟨d, hd, n, hn, hp, rfl⟩ | ⟨d, hd, n, hn, -, h⟩ | h)
        · omega
        · have hmod : (0x1000000000000 + d * 0x2000000000 + n - 2 ^ 48) % 2 ^ 37 = n := by omega
          have hdiv : (0x1000000000000 + d * 0x2000000000 + n - 2 ^ 48) / 2 ^ 37 = d := by omega
          rw [hmod, hdiv]
          exact hp
        · omega
        · omega
      · exact fun h => .inr (.inl ⟨_, by omega, _, h3, h, by omega⟩)
    · rw [targetOf, if_neg h1, if_pos h2, if_neg h3]
      unfold dieBytes at h1 h3
      refine iff_of_false ?_ (by simp)
      rintro (h | ⟨d, hd, n, hn, -, h⟩ | ⟨d, hd, n, hn, -, h⟩ | h) <;> omega
  by_cases h3 : 2 ^ 50 ≤ pa ∧ pa < 2 ^ 50 + 4 * 2 ^ 42
  · rw [targetOf, if_neg h1, if_neg h2, if_pos h3, decide_eq_true_iff]
    unfold dieBytes at h1
    constructor
    · rintro (h | ⟨d, hd, n, hn, -, h⟩ | ⟨d, hd, n, hn, hp, rfl⟩ | h)
      · omega
      · omega
      · rwa [show (0x4000000000000 + d * 0x40000000000 + n - 2 ^ 50) % 2 ^ 42 = n by omega,
          show (0x4000000000000 + d * 0x40000000000 + n - 2 ^ 50) / 2 ^ 42 = d by omega]
      · omega
    · exact fun h => .inr (.inr (.inl ⟨_, by omega, _, by omega, h, by omega⟩))
  by_cases h4 : 2 ^ 51 ≤ pa ∧ pa < 2 ^ 51 + 2 ^ 48
  · rw [targetOf, if_neg h1, if_neg h2, if_neg h3, if_pos h4]
    exact iff_of_true (.inr (.inr (.inr (by omega)))) rfl
  · rw [targetOf, if_neg h1, if_neg h2, if_neg h3, if_neg h4]
    unfold dieBytes at h1
    refine iff_of_false ?_ (by simp)
    rintro (h | ⟨d, hd, n, hn, -, h⟩ | ⟨d, hd, n, hn, -, h⟩ | h) <;> omega

/-- An address of the endpoint range, or of no frame, is at 0x8000000000000 or above, or of no frame. -/
theorem endpoint_or_unset {pa : Nat} : (targetOf pa == .endpoint || !frameSet s pa) = true ↔ 0x8000000000000 ≤ pa ∨ ¬ Frame s pa := by
  rw [Bool.or_eq_true, Bool.not_eq_true', frame_iff, Bool.not_eq_true, beq_iff_eq]
  by_cases hf : frameSet s pa = false
  · exact iff_of_true (.inr hf) (.inr hf)
  · have hset : targetOf pa ≠ .reserved := fun h => hf (by rw [frameSet, h, Bool.and_false])
    rw [or_iff_left hf, or_iff_left hf]
    unfold targetOf dieBytes at hset ⊢
    constructor
    · intro h
      split at h
      · cases h
      · split at h
        · split at h <;> cases h
        · split at h
          · cases h
          · split at h
            · omega
            · cases h
    · intro h
      rw [if_neg (by omega), if_neg (by omega), if_neg (by omega)] at hset ⊢
      split at hset
      · next h4 => rw [if_pos h4]
      · exact absurd rfl hset

/-! ### Page-table entries (R125, R126) -/

section entry

variable {e : Nat}

theorem toNat_field (he : e < 2 ^ 64) (lo n : Nat) : ((BitVec.ofNat 64 e).extractLsb' lo n).toNat = pteField e lo n := by
  rw [BitVec.extractLsb'_toNat, BitVec.toNat_ofNat, Nat.mod_eq_of_lt he, Nat.shiftRight_eq_div_pow]
  rfl

theorem field_eq (he : e < 2 ^ 64) (lo n : Nat) (x : BitVec n) :
    ((BitVec.ofNat 64 e).extractLsb' lo n = x) ↔ pteField e lo n = x.toNat := by
  rw [← BitVec.toNat_inj, toNat_field he]

theorem bit_eq (he : e < 2 ^ 64) (i : Nat) : (BitVec.ofNat 64 e).getLsbD i = (pteField e i 1 == 1) := by
  rw [BitVec.getLsbD, BitVec.toNat_ofNat, Nat.mod_eq_of_lt he, Nat.testBit_eq_decide_div_mod_eq]
  rfl

theorem bit_cases (e i : Nat) : pteField e i 1 = 0 ∨ pteField e i 1 = 1 := by
  unfold pteField
  omega

theorem pteAddr_eq (he : e < 2 ^ 64) : pteAddr (BitVec.ofNat 64 e) = pteFrame e := by
  rw [pteAddr, toNat_field he]
  rfl

theorem pteReserved_iff (he : e < 2 ^ 64) : pteReserved (BitVec.ofNat 64 e) = true
    ↔ pteField e 52 10 ≠ 0 ∨ pteField e 6 6 ≠ 0 ∨ pteField e 1 1 ≠ 0 := by
  rw [pteReserved, Bool.or_eq_true, Bool.or_eq_true, or_assoc, bne_iff_ne, bne_iff_ne, Ne, Ne, field_eq he, field_eq he, bit_eq he,
    beq_iff_eq]
  have := bit_cases e 1
  refine or_congr Iff.rfl (or_congr Iff.rfl ?_)
  omega

theorem tableBad_iff (he : e < 2 ^ 64) : tableBad s (BitVec.ofNat 64 e) = true
    ↔ pteField e 62 2 ≠ 0 ∨ pteField e 3 3 ≠ 0 ∨ 0x8000000000000 ≤ pteFrame e ∨ ¬ Frame s (pteFrame e) := by
  rw [tableBad, Bool.or_assoc, pteAddr_eq he, Bool.or_eq_true, endpoint_or_unset, Bool.or_eq_true, or_assoc, bne_iff_ne, bne_iff_ne,
    Ne, Ne, field_eq he, field_eq he]
  rfl

end entry

theorem pteAt_lt (table level va : Nat) : pteAt s table level va < 2 ^ 64 := bytesAt_lt ..

/-- The levels that are left at each level. -/
theorem walkPlan_drop {level : Nat} (h : level ≤ 4) : walkPlan.drop level
    = ((levelBits level).1, (levelBits level).2, (leafSize level).map (·.1)) :: walkPlan.drop (level + 1) := by
  interval_cases level <;> rfl

theorem leafSize_bytes {level : Nat} {z : BitVec 2 × Nat} (h : leafSize level = some z) : pageBytes z.1 = z.2 := by
  unfold leafSize at h
  split at h <;> cases h <;> rfl

theorem leafSize_none {level : Nat} (h : level < 2) : leafSize level = none := by
  interval_cases level <;> rfl

theorem leafSize_some {level : Nat} (h : 2 ≤ level) (h4 : level ≤ 4) : ∃ z, leafSize level = some z := by
  interval_cases level <;> exact ⟨_, rfl⟩

theorem reserved_of_wellFormed {e level : Nat} (he : e < 2 ^ 64) (h : ¬ Malformed s level e) :
    ¬ (pteReserved (BitVec.ofNat 64 e) || (BitVec.ofNat 64 e).extractLsb' 62 2 == 3) = true := by
  rw [Bool.or_eq_true, pteReserved_iff he, beq_iff_eq, field_eq he]
  rintro ((h' | h' | h') | h')
  · exact h (.inl h')
  · exact h (.inr (.inl h'))
  · exact h (.inr (.inr (.inl h')))
  · exact h (.inr (.inr (.inr (.inl h'))))

/-- One level of a walk. -/
theorem walkLevels_step {va table level : Nat} (hl : level ≤ 4) : let e := pteAt s table level va
    let out := walkLevels s part va table (walkPlan.drop level)
    (pteField e 0 1 = 0 → out = .absent)
    ∧ (pteField e 0 1 = 1 → Malformed s level e → out = .malformed)
    ∧ (pteField e 0 1 = 1 → ¬ Malformed s level e → pteField e 2 1 = 1 →
        ∃ z, leafSize level = some z ∧ out = .leaf (leafPage part va e z))
    ∧ (pteField e 0 1 = 1 → ¬ Malformed s level e → pteField e 2 1 = 0 → level < 4
        ∧ out = walkLevels s part va (pteFrame e) (walkPlan.drop (level + 1))) := by
  intro e out
  have he : e < 2 ^ 64 := pteAt_lt ..
  have hread : BitVec.ofNat 64 (memRead s (table + 8 * (va / 2 ^ (levelBits level).1 % 2 ^ (levelBits level).2)) 8)
      = BitVec.ofNat 64 e := by rw [memRead_bytesAt]; rfl
  have hout : out = walkLevels s part va table (walkPlan.drop level) := rfl
  rw [walkPlan_drop hl, walkLevels.eq_def] at hout
  dsimp only at hout
  rw [hread, bit_eq he, bit_eq he] at hout
  refine ⟨fun h0 => by rw [hout, h0]; rfl, fun h0 hbad => ?_, fun h0 hbad h2 => ?_, fun h0 hbad h2 => ?_⟩
  · rw [hout, h0, if_neg (by simp)]
    by_cases hres : (pteReserved (BitVec.ofNat 64 e) || (BitVec.ofNat 64 e).extractLsb' 62 2 == 3) = true
    · rw [if_pos hres]
    · rw [if_neg hres]
      rw [Bool.or_eq_true, pteReserved_iff he, beq_iff_eq, field_eq he] at hres
      rcases bit_cases e 2 with h2 | h2
      · rw [if_neg (by simp [h2])]
        rw [Malformed, h2] at hbad
        by_cases hlast : level = 4
        · rw [hlast]
          split <;> rfl
        · rw [if_pos ((tableBad_iff he).2 ?_)]
          rcases hbad with h | h | h | h | h | h
          · exact absurd (.inl (.inl h)) hres
          · exact absurd (.inl (.inr (.inl h))) hres
          · exact absurd (.inl (.inr (.inr h))) hres
          · exact absurd (.inr h) hres
          · exact absurd h.1 (by decide)
          · exact h.2.resolve_left hlast
      · rw [if_pos (by simp [h2])]
        rw [Malformed, h2] at hbad
        rcases hbad with h | h | h | h | h | h
        · exact absurd (.inl (.inl h)) hres
        · exact absurd (.inl (.inr (.inl h))) hres
        · exact absurd (.inl (.inr (.inr h))) hres
        · exact absurd (.inr h) hres
        · rcases h.2 with hlow | ⟨z, hz, hz'⟩
          · rw [leafSize_none hlow]
            rfl
          · rw [hz]
            dsimp only [Option.map_some]
            rw [pteAddr_eq he, leafSize_bytes hz, if_pos hz']
        · exact absurd h.1 (by decide)
  · have hres := reserved_of_wellFormed he hbad
    have hfits : ∀ h : ¬ level < 2, ∃ z, leafSize level = some z := fun h => leafSize_some (by omega) hl
    have hgood : ¬ (level < 2 ∨ ∃ z, leafSize level = some z ∧ pteFrame e % z.2 ≠ 0) :=
      fun h => hbad (.inr (.inr (.inr (.inr (.inl ⟨h2, h⟩)))))
    obtain ⟨z, hz⟩ := hfits fun h => hgood (.inl h)
    have halign : ¬ pteFrame e % z.2 ≠ 0 := fun h => hgood (.inr ⟨z, hz, h⟩)
    refine ⟨z, hz, ?_⟩
    rw [hout, h0, if_neg (by simp), if_neg hres, if_pos (by simp [h2]), hz]
    dsimp only [Option.map_some]
    rw [pteAddr_eq he, leafSize_bytes hz, if_neg halign, leafPage]
    have hva : va / z.2 * z.2 = va - va % z.2 := by
      have := Nat.div_add_mod' va z.2
      omega
    rw [hva, show (BitVec.ofNat 64 e).extractLsb' 62 2 = BitVec.ofNat 2 (pteField e 62 2) by
      rw [← toNat_field he, BitVec.ofNat_toNat, BitVec.setWidth_eq], bit_eq he, bit_eq he, bit_eq he]
  · have hres := reserved_of_wellFormed he hbad
    have hlast : level ≠ 4 := fun h => hbad (.inr (.inr (.inr (.inr (.inr ⟨h2, .inl h⟩)))))
    have htable : ¬ tableBad s (BitVec.ofNat 64 e) = true := by
      rw [tableBad_iff he]
      exact fun h => hbad (.inr (.inr (.inr (.inr (.inr ⟨h2, .inr h⟩)))))
    refine ⟨by omega, ?_⟩
    rw [hout, h0, if_neg (by simp), if_neg hres, if_neg (by simp [h2]), if_neg htable, pteAddr_eq he]

/-- What the rules say of a walk is what it ends in. -/
theorem walkLevels_of_walksTo {va table level : Nat} {out : WalkOut} (h : WalksTo s part va table level out) (hl : level ≤ 4) :
    walkLevels s part va table (walkPlan.drop level) = out := by
  induction h with
  | absent table level h0 => exact (walkLevels_step hl).1 h0
  | malformed table level h0 hbad => exact (walkLevels_step hl).2.1 h0 hbad
  | leaf table level z h0 hbad h2 hz =>
    obtain ⟨-, -, hleaf, -⟩ := walkLevels_step (s := s) (part := part) (va := va) (table := table) hl
    obtain ⟨z', hz', e⟩ := hleaf h0 hbad h2
    rw [hz] at hz'
    cases hz'
    exact e
  | table table level out h0 hbad h2 _ ih =>
    obtain ⟨-, -, -, htable⟩ := walkLevels_step (s := s) (part := part) (va := va) (table := table) hl
    obtain ⟨hlt, e⟩ := htable h0 hbad h2
    exact e.trans (ih (by omega))

theorem walksTo_of_next {va table level : Nat} (hl : level ≤ 4) (hnext : level < 4 → ∀ table,
      WalksTo s part va table (level + 1) (walkLevels s part va table (walkPlan.drop (level + 1)))) :
    WalksTo s part va table level (walkLevels s part va table (walkPlan.drop level)) := by
  obtain ⟨habsent, hbad, hleaf, htable⟩ := walkLevels_step (s := s) (part := part) (va := va) (table := table) hl
  rcases bit_cases (pteAt s table level va) 0 with h0 | h0
  · rw [habsent h0]
    exact .absent _ _ h0
  by_cases hm : Malformed s level (pteAt s table level va)
  · rw [hbad h0 hm]
    exact .malformed _ _ h0 hm
  rcases bit_cases (pteAt s table level va) 2 with h2 | h2
  · obtain ⟨hlt, e⟩ := htable h0 hm h2
    rw [e]
    exact .table _ _ _ h0 hm h2 (hnext hlt _)
  · obtain ⟨z, hz, e⟩ := hleaf h0 hm h2
    rw [e]
    exact .leaf _ _ z h0 hm h2 hz

/-- The rules say what every walk ends in. -/
theorem walksTo_walkLevels {va : Nat} (n : Nat) {table level : Nat} (hl : level + n = 4) :
    WalksTo s part va table level (walkLevels s part va table (walkPlan.drop level)) := by
  induction n generalizing table level with
  | zero => exact walksTo_of_next (by omega) fun h => absurd h (by omega)
  | succ n ih => exact walksTo_of_next (by omega) fun _ _ => ih (by omega)

/-! ### Pages (R125, R126, R132) -/

theorem ptroot_eq (x : Word) : pteAddr x = x.toNat / 4096 % 2 ^ 40 * 4096 := by
  rw [pteAddr, BitVec.extractLsb'_toNat, Nat.shiftRight_eq_div_pow]

theorem tlbFind_eq (s : State) (c part : Nat) (va : Word) : tlbFind s c part va =
    ((coreOf s c).tlb ++ (quadOf s (c / 4)).tlb).find? (tlbMatches part (va.toNat % 2 ^ 57)) := by
  rw [tlbFind, List.find?_append]
  cases (coreOf s c).tlb.find? (tlbMatches part (va.toNat % 2 ^ 57)) <;> rfl

theorem tlbMatches_iff {va : Nat} {e : TlbEntry} : tlbMatches part va e = true ↔ Covers e part va := by
  simp [tlbMatches, Covers, and_assoc]

/-- What the rules say of a page is what the model's TLBs and walks give. -/
theorem resolved_iff {va : Word} {out : WalkOut} : Resolved s c part va out ↔ entryOut s c part va = out := by
  have hwalk : walk s part va = walkLevels s part (va.toNat % 2 ^ 57)
      ((partOf s part).ptroot.toNat / 4096 % 2 ^ 40 * 4096) (walkPlan.drop 0) := by rw [walk, ptroot_eq]; rfl
  unfold Resolved entryOut
  rw [tlbFind_eq]
  dsimp only
  constructor
  · rintro (⟨e, he, rfl⟩ | ⟨hnone, h⟩)
    · rw [show ((coreOf s c).tlb ++ (quadOf s (c / 4)).tlb).find? (tlbMatches part (va.toNat % 2 ^ 57)) = some e from he]
    · rw [List.find?_eq_none.2 fun e he => fun h => hnone e he (tlbMatches_iff.1 h)]
      exact hwalk.trans (walkLevels_of_walksTo h (by omega))
  · intro h
    cases hf : ((coreOf s c).tlb ++ (quadOf s (c / 4)).tlb).find? (tlbMatches part (va.toNat % 2 ^ 57)) with
    | some e =>
      rw [hf] at h
      exact .inl ⟨e, hf, h.symm⟩
    | none =>
      rw [hf] at h
      refine .inr ⟨fun e he hc => List.find?_eq_none.1 hf e he (tlbMatches_iff.2 hc), ?_⟩
      rw [← h]
      exact hwalk.symm ▸ walksTo_walkLevels 4 rfl

/-- What a frame decides. -/
theorem frame_ite {l : Leaf} : (Frame s l.loc → (if frameSet s l.loc then Trans.ok l else .bad (some l)) = .ok l)
    ∧ (¬ Frame s l.loc → (if frameSet s l.loc then Trans.ok l else .bad (some l)) = .bad (some l)) := by
  rw [frame_iff]
  exact ⟨fun h => if_pos h, fun h => if_neg h⟩

/-- A page's translation, from what the rules say it resolves to. -/
theorem transPage_resolved {va : Word} {out : WalkOut} (h : Resolved s c part va out) :
    (∀ e, out = .leaf e → (Frame s (placed e va).loc → transPage s c part va = .ok (placed e va))
      ∧ (¬ Frame s (placed e va).loc → transPage s c part va = .bad (some (placed e va))))
    ∧ (out = .absent → transPage s c part va = .absent) ∧ (out = .malformed → transPage s c part va = .bad none) := by
  rw [transPage, resolved_iff.1 h]
  exact ⟨fun e he => he ▸ frame_ite, fun he => he ▸ rfl, fun he => he ▸ rfl⟩

/-! ### The aperture and the translation registers (R124, R128–R130) -/

theorem granuleOk_iff {o launch : Nat} : granuleOk s c o launch = true ↔ GranuleOf s c o launch := by
  unfold granuleOk GranuleOf apCore
  split
  · next own h =>
    rw [h, beq_iff_eq]
    exact ⟨fun e => ⟨own.2, by rw [← e]⟩, fun ⟨_, e⟩ => by cases e; rfl⟩
  · next h =>
    rw [h]
    exact iff_of_false (by simp) (by rintro ⟨_, e⟩; cases e)

theorem transAperture_granule {o launch : Nat} : (GranuleOf s c o launch → transAperture s c launch o = .ok (scratchLeaf c o))
    ∧ (¬ GranuleOf s c o launch → transAperture s c launch o = .bad (some (scratchLeaf c o))) := by
  rw [← granuleOk_iff]
  exact ⟨fun h => if_pos h, fun h => if_neg h⟩

theorem inAperture_iff {va : Word} : inAperture va = true ↔ 0xFFFFFFFFFFC00000 ≤ va.toNat := by
  rw [inAperture, decide_eq_true_iff]
  rfl

theorem apOffset_sub (va : Word) : apOffset va = va.toNat - 0xFFFFFFFFFFC00000 := rfl

/-- Bytes from BASE to the end of a translation register's page. -/
theorem tregLimit_eq (t : TReg) : tregLimit t = if t.psz = 3 then 2 ^ 22 - t.pa.toNat
    else [2 ^ 16, 2 ^ 21, 2 ^ 30].getD t.psz.toNat 0 - t.base.toNat % [2 ^ 16, 2 ^ 21, 2 ^ 30].getD t.psz.toNat 0 := by
  unfold tregLimit
  split
  · rfl
  · next h =>
    have hbytes : pageBytes t.psz = [2 ^ 16, 2 ^ 21, 2 ^ 30].getD t.psz.toNat 0 := by
      generalize t.psz = z at h
      revert h
      revert z
      decide
    rw [hbytes]

/-- An effective address through a translation register (R129). -/
theorem transVia_eq (s : State) (c : Nat) (g : Machine.Group) (n : Nat) (ea : Word) :
    let t := tabGet TReg.reset g.tregs n
    let o := (ea - t.base).toNat
    let inside := t.v = true ∧ o < tregLimit t
    (¬ inside → transVia s c g n ea = transVa s c g ea)
    ∧ (inside → t.psz ≠ 3 → ∃ x, let l : Leaf := { loc := t.pa.toNat + o, mt := t.mt, r := t.rd, w := t.wr, x := x }
        (Frame s l.loc → transVia s c g n ea = .ok l) ∧ (¬ Frame s l.loc → transVia s c g n ea = .bad (some l)))
    ∧ (inside → t.psz = 3 → transVia s c g n ea = transAperture s c g.launch (t.pa.toNat + o)) := by
  intro t o inside
  have hin : ((tregOf g n).v && decide ((ea - tregBase (tregOf g n)).toNat < tregLimit (tregOf g n))) = true ↔ inside := by
    rw [Bool.and_eq_true, decide_eq_true_iff]
    rfl
  unfold transVia
  dsimp only
  refine ⟨fun h => if_neg (fun h' => h (hin.1 h')), fun h hp => ⟨pageExec s c g.part ea, ?_⟩, fun h hp => ?_⟩
  · rw [if_pos (hin.2 h), if_neg (show ¬ (tregOf g n).psz = 3 from hp)]
    exact frame_ite (l := { loc := t.pa.toNat + o, mt := t.mt, r := t.rd, w := t.wr, x := pageExec s c g.part ea })
  · rw [if_pos (hin.2 h), if_pos (show (tregOf g n).psz = 3 from hp)]
    rfl

/-! ### The checks of one access (R127, R134, R141) -/

theorem leafCause_eq (op : MemOp) (n : Nat) (ea : Word) (l : Leaf) : leafCause op n ea l = refusal op n ea l := by
  have hend : (decide (l.loc < Config.scratchKey) && targetOf l.loc == .endpoint) = true ↔ 2 ^ 51 ≤ l.loc ∧ l.loc < 2 ^ 51 + 2 ^ 48 := by
    rw [Bool.and_eq_true, decide_eq_true_iff, beq_iff_eq, Config.scratchKey, targetOf, dieBytes]
    constructor
    · rintro ⟨-, h⟩
      split at h
      · cases h
      · split at h
        · split at h <;> cases h
        · split at h
          · cases h
          · split at h
            · assumption
            · cases h
    · intro h
      exact ⟨by omega, by rw [if_neg (by omega), if_neg (by omega), if_neg (by omega), if_pos h]⟩
  have hwin : windowOk op n ea l.loc = endpointOk op n ea l.loc := rfl
  unfold leafCause refusal
  simp only [hend, hwin]
  cases op <;> simp [MemOp.isFuture, permOk, MemOp.reads, MemOp.writes]

theorem badCause_eq (op : MemOp) (a : Option Leaf) : badCause op a = refusedBy op a := by
  unfold badCause refusedBy
  cases a with
  | none => simp
  | some l => cases op <;> simp [MemOp.isFuture]

theorem pieces_eq (loc n : Nat) : pieces loc n = linesOf loc n := by
  unfold pieces linesOf
  dsimp only
  refine if_congr ?_ rfl rfl
  have := Nat.mod_lt loc (show 0 < 128 by omega)
  omega

theorem partCause_eq (op : MemOp) (n : Nat) (va : Word) (x : Trans) : partCause op n va x = partRefusal op n va x := by
  cases x with
  | ok l => simp only [partCause, partRefusal, leafCause_eq]
  | absent => rfl
  | bad a => simp only [partCause, partRefusal, badCause_eq]

theorem attrs_iff {x : Trans} {l : Leaf} : x.attrs = some l ↔ x = .ok l ∨ x = .bad (some l) := by
  cases x <;> simp [Trans.attrs]

theorem differ_iff {x y : Trans} : x.differ y = true ↔ Differ x y := by
  have hne (l m : Leaf) : (l.mt != m.mt || l.r != m.r || l.w != m.w || l.x != m.x) = true
      ↔ (l.mt, l.r, l.w, l.x) ≠ (m.mt, m.r, m.w, m.x) := by
    simp only [Bool.or_eq_true, bne_iff_ne, ne_eq, Prod.mk.injEq]
    tauto
  unfold Differ Trans.differ
  simp only [← attrs_iff]
  cases x.attrs <;> cases y.attrs <;> simp [hne]

/-- Two parts of an access lie in the aperture and outside it, or in the scratchpads of two cores. -/
theorem partsSplit_iff {lo hi : Word} : partsSplit c lo hi = true ↔ inAperture lo ≠ inAperture hi ∨ (inAperture lo = true
    ∧ (lo.toNat - 0xFFFFFFFFFFC00000) / 2 ^ 20 ≠ (hi.toNat - 0xFFFFFFFFFFC00000) / 2 ^ 20) := by
  rw [partsSplit, Bool.or_eq_true, bne_iff_ne, Bool.and_eq_true, bne_iff_ne]
  by_cases hap : inAperture lo = inAperture hi
  · refine or_congr Iff.rfl (and_congr_right fun hlo => ?_)
    have hlo' := inAperture_iff.1 hlo
    have hhi' := inAperture_iff.1 (hap ▸ hlo)
    have h1 := lo.isLt
    have h2 := hi.isLt
    rw [apOffset_sub, apOffset_sub, apCore, apCore]
    omega
  · exact iff_of_true (.inl hap) (.inl hap)

/-- An access within one 4 KiB block. -/
theorem checkAcc_one {g : Machine.Group} {op : MemOp} {b n : Nat} {ea : Word} (h : n ≤ 4096 - ea.toNat % 4096) :
    let chk := checkAcc s c g op b n ea
    let x := transVia s c g b ea
    (x = .absent → chk = .absent ea) ∧ (∀ a, x = .bad a → chk = .bad (refusedBy op a) ea)
      ∧ ∀ l, x = .ok l → (∀ e, refusal op n ea l = some e → chk = .bad e ea)
          ∧ (refusal op n ea l = none → chk = .ok (if l.mt = 2 then .win l.loc else .mem (linesOf l.loc n))) := by
  intro chk x
  have hchk : chk = checkOne s c g op b n ea := if_pos h
  rw [hchk, checkOne]
  refine ⟨fun hx => ?_, fun a hx => ?_, fun l hx => ?_⟩
  · rw [show transVia s c g b ea = .absent from hx]
  · rw [show transVia s c g b ea = .bad a from hx, ← badCause_eq]
  · rw [show transVia s c g b ea = .ok l from hx, ← leafCause_eq]
    refine ⟨fun e he => ?_, fun he => ?_⟩ <;> dsimp only <;> rw [he]
    dsimp only [reachOf]
    rw [pieces_eq]

/-- An access that lies in two 4 KiB blocks. -/
theorem checkAcc_two {g : Machine.Group} {op : MemOp} {b n : Nat} {ea : Word} (h : 4096 - ea.toNat % 4096 < n) :
    let k := 4096 - ea.toNat % 4096
    let chk := checkAcc s c g op b n ea
    let x := transVia s c g b ea
    let hi := ea + BitVec.ofNat 64 k
    let y := if isCanonical hi = true then transVia s c g b hi else .bad none
    let apart := inAperture ea ≠ inAperture hi ∨ (inAperture ea = true
      ∧ (ea.toNat - 0xFFFFFFFFFFC00000) / 2 ^ 20 ≠ (hi.toNat - 0xFFFFFFFFFFC00000) / 2 ^ 20)
    (apart ∨ Differ x y → chk = .bad .attrsplit ea)
    ∧ (¬ apart → ¬ Differ x y →
      (∀ e, partRefusal op n ea x = some e → chk = .bad e ea)
      ∧ (partRefusal op n ea x = none → (∀ e, partRefusal op n hi y = some e → chk = .bad e hi)
        ∧ (partRefusal op n hi y = none → (x = .absent → chk = .absent ea)
          ∧ (∀ l, x = .ok l → y = .absent → chk = .absent hi)
          ∧ ∀ l m, x = .ok l → y = .ok m → chk = .ok (.mem (linesOf l.loc k ++ linesOf m.loc (n - k)))))) := by
  intro k chk x hi y apart
  have hchk : chk = checkTwo s c g op b n k ea := if_neg (by omega)
  have hcond : (partsSplit c ea hi || x.differ y) = true ↔ apart ∨ Differ x y := by
    rw [Bool.or_eq_true, partsSplit_iff, differ_iff]
  have hsecond : transSecond s c g b hi = y := rfl
  rw [checkTwo, hsecond] at hchk
  change chk = if (partsSplit c ea hi || x.differ y) = true then _ else _ at hchk
  refine ⟨fun hs => hchk.trans (if_pos (hcond.2 hs)), fun ha hd => ?_⟩
  rw [if_neg fun h => (hcond.1 h).elim ha hd, partCause_eq, partCause_eq] at hchk
  refine ⟨fun e he => ?_, fun hx => ⟨fun e he => ?_, fun hy => ⟨fun hx' => ?_, fun l hx' hy' => ?_, fun l m hx' hy' => ?_⟩⟩⟩
  · rw [hchk, show partRefusal op n ea (transVia s c g b ea) = some e from he]
  · rw [hchk, show partRefusal op n ea (transVia s c g b ea) = none from hx,
      show partRefusal op n (ea + BitVec.ofNat 64 k) y = some e from he]
  all_goals
    rw [hchk, show partRefusal op n ea (transVia s c g b ea) = none from hx,
      show partRefusal op n (ea + BitVec.ofNat 64 k) y = none from hy]
    dsimp only
  · rw [show transVia s c g b ea = .absent from hx']
  · rw [show transVia s c g b ea = .ok l from hx', hy']
  · rw [show transVia s c g b ea = .ok l from hx', hy', ← pieces_eq, ← pieces_eq]

end Sys2Proof.Proofs.Translation
end

section
/-! PROOFS. Where a memory word traps or waits (R130, R134, R138, R141, R168, R348). -/

namespace Sys2Proof.Proofs.MemoryTraps

open Machine Claims Laws MemoryWords Performed ReadingRoom Translation

variable {s : State} {pl : Place} {g : Machine.Group} {sp : Split} {w : MemWord}

/-! ### What a thread of a word is checked for -/

/-- The thread of key `k` with its address, its check and its operands. -/
def accOf (s : State) (pl : Place) (g : Machine.Group) (sp : Split) (w : MemWord) (k : Nat) : ThreadAcc :=
  { t := k, ea := addrOf s g sp w k, chk := checkAcc s pl.core g w.op w.b.val w.n (addrOf s g sp w k), v := dataOf s g sp w k,
    v2 := nextOf s g sp w k }

theorem threadsOf_eq : threadsOf s pl g sp w = (memKeys sp w).map (accOf s pl g sp w) := rfl

theorem forall_threads {p : ThreadAcc → Prop} : (∀ a ∈ threadsOf s pl g sp w, p a) ↔ ∀ k ∈ memKeys sp w, p (accOf s pl g sp w k) := by
  rw [threadsOf_eq, List.forall_mem_map]

/-- A thread whose address is canonical and, where the word asks for it, aligned. -/
def Fine (w : MemWord) (ea : Word) : Prop := isCanonical ea = true ∧ (w.op.aligned = true → ea.toNat % w.n = 0)

theorem misaligned_iff {ea : Word} (h : isCanonical ea = true) :
    (w.op.aligned && ea.toNat % w.n != 0) = true ↔ ¬ Fine w ea := by
  rw [Bool.and_eq_true, bne_iff_ne, Fine, and_iff_right h, Classical.not_imp]

theorem lowestAddr_canonical (h : ∀ j ∈ memKeys sp w, isCanonical (addrOf s g sp w j) = true) :
    lowestAddr (fun a => !isCanonical a.ea) (threadsOf s pl g sp w) = none :=
  lowestAddr_none (forall_threads.2 fun k hk => by rw [show (accOf s pl g sp w k).ea = addrOf s g sp w k from rfl, h k hk]; rfl)

theorem lowestAddr_aligned (h : ∀ j ∈ memKeys sp w, Fine w (addrOf s g sp w j)) :
    lowestAddr (fun a => w.op.aligned && a.ea.toNat % w.n != 0) (threadsOf s pl g sp w) = none :=
  lowestAddr_none (forall_threads.2 fun k hk => Bool.eq_false_iff.2 fun hm => (misaligned_iff (h k hk).1).1 hm (h k hk))

/-- The lowest address that is not canonical is the first trap. -/
theorem memTrap_prot {k : Nat} (hk : k ∈ memKeys sp w) (hc : ¬ isCanonical (addrOf s g sp w k) = true)
    (hmin : ∀ j ∈ memKeys sp w, ¬ isCanonical (addrOf s g sp w j) = true → (addrOf s g sp w k).toNat ≤ (addrOf s g sp w j).toNat) :
    memTrap w (threadsOf s pl g sp w) = some (.prot, addrOf s g sp w k) := by
  have h := lowestAddr_spec (p := fun a => !isCanonical a.ea) (a := accOf s pl g sp w k) (List.mem_map_of_mem hk)
    (by simpa [accOf] using hc) (forall_threads.2 fun j hj hp => hmin j hj (by simpa [accOf] using hp))
  rw [memTrap, threadsOf_eq, h]
  rfl

/-- With canonical addresses only, the lowest misaligned one is the first trap. -/
theorem memTrap_align {k : Nat} (hk : k ∈ memKeys sp w) (hc : ∀ j ∈ memKeys sp w, isCanonical (addrOf s g sp w j) = true)
    (hf : ¬ Fine w (addrOf s g sp w k))
    (hmin : ∀ j ∈ memKeys sp w, ¬ Fine w (addrOf s g sp w j) → (addrOf s g sp w k).toNat ≤ (addrOf s g sp w j).toNat) :
    memTrap w (threadsOf s pl g sp w) = some (.align, addrOf s g sp w k) := by
  have h := lowestAddr_spec (p := fun a => w.op.aligned && a.ea.toNat % w.n != 0) (a := accOf s pl g sp w k) (List.mem_map_of_mem hk)
    ((misaligned_iff (hc k hk)).2 hf) (forall_threads.2 fun j hj hp => hmin j hj ((misaligned_iff (hc j hj)).1 hp))
  rw [memTrap, lowestAddr_canonical hc, threadsOf_eq, h]
  rfl

/-- The cause of a thread's check. -/
def badOf (a : ThreadAcc) : Option (Cause × Word) :=
  match a.chk with
  | .bad c va => some (c, va)
  | _ => none

theorem badOf_none {a : ThreadAcc} (h : ∀ e x, a.chk ≠ .bad e x) : badOf a = none := by
  unfold badOf
  split
  · next c va hc => exact absurd hc (h c va)
  · rfl

/-- With fine addresses only, the first trap is the first cause that a thread has. -/
theorem memTrap_fine (hf : ∀ j ∈ memKeys sp w, Fine w (addrOf s g sp w j)) :
    memTrap w (threadsOf s pl g sp w) = (threadsOf s pl g sp w).findSome? badOf := by
  rw [memTrap, lowestAddr_canonical fun j hj => (hf j hj).1, lowestAddr_aligned hf]
  rfl

theorem memTrap_bad {pre post : List Nat} {k : Nat} {c : Cause} {a : Word} (hk : memKeys sp w = pre ++ k :: post)
    (hf : ∀ j ∈ memKeys sp w, Fine w (addrOf s g sp w j)) (hpre : ∀ j ∈ pre, ∀ e x, (accOf s pl g sp w j).chk ≠ .bad e x)
    (hbad : (accOf s pl g sp w k).chk = .bad c a) : memTrap w (threadsOf s pl g sp w) = some (c, a) := by
  have hnone : (pre.map (accOf s pl g sp w)).findSome? badOf = none :=
    List.findSome?_eq_none_iff.2 (List.forall_mem_map.2 fun j hj => badOf_none (hpre j hj))
  rw [memTrap_fine hf, threadsOf_eq, hk, List.map_append, List.findSome?_append, hnone, List.map_cons, List.findSome?_cons,
    badOf, hbad]
  rfl

/-! ### Words that trap or wait before any access -/

theorem memWord_trap {c : Cause} {a : Word} (h : Hd) (hs : Issues s pl g sp) (hr : MemReady s pl g sp w)
    (ht : memTrap w (threadsOf s pl g sp w) = some (c, a)) : memWord s h w = .next (trapAddr s pl c a) := by
  unfold threadsOf at ht
  simp only [memWord, issue_eq hs, hr.form, hr.fresh, hr.hazard, hr.tender, hr.held, hr.trb, Option.isNone_none, if_true, ht,
    Option.isSome_none, Bool.false_and, Bool.false_eq_true, if_false, tenderNeeds]

theorem memWord_waits (h : Hd) (hs : Issues s pl g sp) (ht : g.isTender = none) (hf : memOpspec g w = false)
    (hz : hazard g sp pl.split w.srcs (if sp.unfin.isNone then [w.dst] else []) = false) :
    (s.held = true → memWord s h w = .next (waitAt s pl g sp .rebase))
    ∧ (s.held = false → trbPending g w.b.val = true → memWord s h w = .next (waitAt s pl g sp (.trb w.b.val))) := by
  constructor
  · intro hh
    simp only [memWord, issue_eq hs, hf, hz, ht, hh, if_true, Option.isSome_none, Bool.false_and, Bool.false_eq_true, if_false,
      tenderNeeds]
  · intro hh hb
    simp only [memWord, issue_eq hs, hf, hz, ht, hh, hb, if_true, Option.isSome_none, Bool.false_and, Bool.false_eq_true, if_false,
      tenderNeeds]

/-! ### A page fault (R138) -/

/-- The lowest address with a property: it has it, and no lower one does. -/
def Lowest (p : Word → Prop) : Option Word → Prop
  | none => ∀ v, ¬ p v
  | some v => p v ∧ ∀ b, p b → v.toNat ≤ b.toNat

theorem Lowest.lower {p q : Word → Prop} {o : Option Word} {va : Word} (h : Lowest p o) (hq : ∀ v, q v ↔ p v ∨ v = va) :
    Lowest q (lowerAddr o (some va)) := by
  cases o with
  | none => exact ⟨(hq va).2 (.inr rfl), fun b hb => ((hq b).1 hb).elim (fun hp => absurd hp (h b)) fun e => e ▸ le_rfl⟩
  | some low =>
    obtain ⟨hlow, hmin⟩ := h
    simp only [lowerAddr]
    split
    · next hlt =>
      exact ⟨(hq va).2 (.inr rfl), fun b hb => ((hq b).1 hb).elim (fun hp => hlt.le.trans (hmin b hp)) fun e => e ▸ le_rfl⟩
    · next hge => exact ⟨(hq low).2 (.inl hlow), fun b hb => ((hq b).1 hb).elim (hmin b) fun e => e ▸ Nat.le_of_not_lt hge⟩

/-- An address that a thread of the list finds untranslated. -/
def AbsentIn (as : List ThreadAcc) (v : Word) : Prop := ∃ a ∈ as, a.chk = .absent v

theorem absentIn_concat {as : List ThreadAcc} {x : ThreadAcc} {v : Word} :
    AbsentIn (as ++ [x]) v ↔ AbsentIn as v ∨ x.chk = .absent v := by
  simp [AbsentIn, or_and_right, exists_or]

theorem lowestAbsent_lowest (as : List ThreadAcc) : Lowest (AbsentIn as) (lowestAbsent as) := by
  induction as using List.reverseRecOn with
  | nil => exact fun v ⟨a, ha, _⟩ => nomatch ha
  | append_singleton as x ih =>
    have hlast : lowestAbsent (as ++ [x]) = match x.chk with
        | .absent va => lowerAddr (lowestAbsent as) (some va)
        | _ => lowestAbsent as := by
      rw [lowestAbsent, List.foldl_append]
      rfl
    have hskip (hx : ∀ v, x.chk ≠ .absent v) : AbsentIn (as ++ [x]) = AbsentIn as :=
      funext fun v => propext (absentIn_concat.trans (or_iff_left (hx v)))
    rw [hlast]
    cases hx : x.chk with
    | ok r => rw [hskip fun v => by simp [hx]]; exact ih
    | bad c v => rw [hskip fun v => by simp [hx]]; exact ih
    | absent va => exact ih.lower fun v => by rw [absentIn_concat, hx, Check.absent.injEq, eq_comm (a := va)]

/-- A word with an untranslated thread has a lowest untranslated address. -/
theorem lowestAbsent_some {as : List ThreadAcc} {v : Word} (h : AbsentIn as v) :
    ∃ low, lowestAbsent as = some low ∧ AbsentIn as low ∧ ∀ b, AbsentIn as b → low.toNat ≤ b.toNat := by
  have hl := lowestAbsent_lowest as
  cases e : lowestAbsent as with
  | none => rw [e] at hl; exact absurd h (hl v)
  | some low => rw [e] at hl; exact ⟨low, rfl, hl⟩

/-- Performing a group's accesses keeps the group but for its splits and what it had to come. -/
theorem groupAt_drainPend_self {c n : Nat} {x : Machine.Group} (hx : groupAt s c n = some x) :
    ∃ y, groupAt (drainPend s c n) c n = some y ∧ sansSplits y = sansSplits { x with pend := [] } := by
  have hsame : SameGroups (setGroup s c n { x with pend := [] }) (drainPend s c n) := by
    rw [drainPend_eq hx]
    exact SameGroups.trans (carried_sameGroups.foldl (fun t a => carried_sameGroups.performPend t c a) x.pend _)
      (sameGroups_wakeSplits _ c n performedWaits)
  have he := hsame c n
  rw [groupAt_setGroup_self, Option.map_some] at he
  obtain ⟨y, hy, e⟩ := Option.map_eq_some_iff.1 he
  exact ⟨y, hy, e⟩

theorem stable_reports : StableMem (·.reports) :=
  ⟨⟨fun _ _ _ => rfl, fun _ _ _ => rfl, fun _ _ _ _ => rfl⟩, fun _ _ _ => rfl, fun _ _ _ => rfl⟩

theorem memWord_queued (h : Hd) (hs : Issues s pl g sp) (hr : MemReady s pl g sp w)
    (ht : memTrap w (threadsOf s pl g sp w) = none) (hop : w.op = .st) (hw : ∀ a ∈ threadsOf s pl g sp w, a.chk.isWin = false) :
    ∃ occ, memWord s h w = .next (memEnd h pl w true occ (lowestAbsent (threadsOf s pl g sp w)) sp
      ((threadsOf s pl g sp w).foldl (memThread pl w)
        { s := accessState s pl g sp w, vals := [], waits := [], left := [], watch := none, wrote := [], stop := none })) := by
  have hall : ((threadsOf s pl g sp w).all fun a => !a.chk.isWin) = true := List.all_eq_true.2 fun a ha => by rw [hw a ha]; rfl
  refine ⟨if issueMode w.srcs w.dst = .uniform then 1 else Nat.max 1 (memKeys sp w).length, ?_⟩
  unfold threadsOf at ht hall ⊢
  simp only [memWord, issue_eq hs, hr.form, hr.fresh, hr.hazard, hr.tender, hr.held, hr.trb, Option.isNone_none, if_true, ht,
    Option.isSome_none, Bool.false_and, Bool.false_eq_true, if_false, tenderNeeds, hop, accessState, hall, beq_self_eq_true,
    Bool.and_true, Bool.true_or, decide_eq_true_eq]

/-- The threads of a word run from the access state; only a store to a window has the group's earlier accesses performed. -/
theorem memWord_runs (h : Hd) (hs : Issues s pl g sp) (hr : MemReady s pl g sp w)
    (ht : memTrap w (threadsOf s pl g sp w) = none) :
    ∃ u occ, (u = accessState s pl g sp w ∨ u = drainPend (accessState s pl g sp w) pl.core pl.slot)
      ∧ memWord s h w = .next (memEnd h pl w true occ (lowestAbsent (threadsOf s pl g sp w)) sp
        ((threadsOf s pl g sp w).foldl (memThread pl w)
          { s := u, vals := [], waits := [], left := [], watch := none, wrote := [], stop := none })) := by
  by_cases hop : w.op = .st
  · by_cases hwin : ∃ a ∈ threadsOf s pl g sp w, a.chk.isWin = true
    · exact ⟨_, _, .inr (by rw [accessState, if_pos hop]; rfl), memWord_settled h hs hr ht (.inr hwin)⟩
    · obtain ⟨occ, e⟩ := memWord_queued h hs hr ht hop fun a ha => Bool.eq_false_iff.2 fun hw => hwin ⟨a, ha, hw⟩
      exact ⟨_, occ, .inl rfl, e⟩
  · exact ⟨_, _, .inl (by rw [accessState, if_neg hop]; rfl), memWord_settled h hs hr ht (.inl hop)⟩

theorem parkFault_waits {u : State} {y : Machine.Group} {va : Word} {kind : AccKind} (ht : y.isTender = none) :
    parkFault u pl y sp va kind = report (waitAt u pl y sp (.fault va kind false)) (.fault y.part (cgid y) va kind) :=
  if_neg (by simp [ht])

/-- A word whose first thread finds no translation waits for its lowest untranslated address and is reported. -/
theorem fault_waits {u : State} {y : Machine.Group} {a0 low : Word} {k : Nat} (h : Hd) (occ : Nat) (as : List ThreadAcc)
    (hy : groupAt u pl.core pl.slot = some y) (ht : y.isTender = none) (hk : (accOf s pl g sp w k).chk = .absent a0) :
    ∃ y' sp', memEnd h pl w true occ (some low) sp ((accOf s pl g sp w k :: as).foldl (memThread pl w)
        { s := u, vals := [], waits := [], left := [], watch := none, wrote := [], stop := none })
      = report (waitAt u pl y' sp' (.fault low w.op.kind false)) (.fault y.part (cgid y) low w.op.kind)
      ∧ (sp'.pc, sp'.word) = (sp.pc, sp.word) := by
  have hfirst : memThread pl w { s := u, vals := [], waits := [], left := [], watch := none, wrote := [], stop := none }
      (accOf s pl g sp w k) = { s := u, vals := [], waits := [], left := [k], watch := none, wrote := [], stop := some (.fault a0) } := by
    rw [memThread, hk, hy]
    rfl
  rw [List.foldl_cons, hfirst, foldl_memThread_stopped as rfl]
  have hnone : deliverMem y sp pl.split w.dst [] = ({ y with results := killResults pl.split w.dst [] y.results }, sp) := by
    simp [deliverMem]
  simp only [memEnd, hy, hnone, List.isEmpty_cons, List.cons_append, Bool.false_eq_true, if_false, Option.getD_some]
  exact ⟨_, _, parkFault_waits ht, rfl⟩

/-! ### The statement -/

theorem absentIn_threads {v : Word} : AbsentIn (threadsOf s pl g sp w) v
    ↔ ∃ j ∈ memKeys sp w, checkAcc s pl.core g w.op w.b.val w.n (addrOf s g sp w j) = .absent v := by
  simp [AbsentIn, threadsOf_eq, accOf]

/-- A page fault parks the split at its word's lowest untranslated address and is reported (R138). -/
theorem memWord_faults (h : Hd) (hs : Issues s pl g sp) (hr : MemReady s pl g sp w) {k : Nat} {post : List Nat} {a0 : Word}
    {g0 : Machine.Group} (hk : memKeys sp w = k :: post) (ht : memTrap w (threadsOf s pl g sp w) = none)
    (ha : (accOf s pl g sp w k).chk = .absent a0) (hg : AccessGroup (accessState s pl g sp w) pl g0) :
    ∃ t g' sp' a, memWord s h w = .next t ∧ groupAt t pl.core pl.slot = some g' ∧ splitAt g' pl.split = some sp'
      ∧ sp'.wait = some (.fault a w.op.kind false) ∧ t.reports = (accessState s pl g sp w).reports
          ++ [.fault g0.part (cgid g0) a w.op.kind]
      ∧ (∃ j ∈ memKeys sp w, checkAcc s pl.core g w.op w.b.val w.n (addrOf s g sp w j) = .absent a)
      ∧ (∀ j ∈ memKeys sp w, ∀ b, checkAcc s pl.core g w.op w.b.val w.n (addrOf s g sp w j) = .absent b → a.toNat ≤ b.toNat)
      ∧ (sp'.pc, sp'.word) = (sp.pc, sp.word) ∧ t.turn = none := by
  obtain ⟨low, hlow, hmem, hmin⟩ := lowestAbsent_some (as := threadsOf s pl g sp w) (v := a0)
    (absentIn_threads.2 ⟨k, hk ▸ List.mem_cons_self, ha⟩)
  obtain ⟨u, occ, hu, hrun⟩ := memWord_runs h hs hr ht
  have hreports : u.reports = (accessState s pl g sp w).reports := by
    rcases hu with rfl | rfl
    · rfl
    · exact stable_reports.drainPend ..
  have hgroup : ∃ y, groupAt u pl.core pl.slot = some y ∧ y.isTender = none ∧ y.part = g0.part ∧ cgid y = cgid g0 := by
    rcases hu with rfl | rfl
    · exact ⟨g0, hg.group, hg.tender, rfl, rfl⟩
    · obtain ⟨y, hy, e⟩ := groupAt_drainPend_self hg.group
      exact ⟨y, hy, (congrArg (·.isTender) e).trans hg.tender, congrArg (·.part) e, (show cgid (sansSplits y) = _ by rw [e]; rfl)⟩
  obtain ⟨y, hy, hten, hpart, hid⟩ := hgroup
  obtain ⟨y', sp', hend, hpos⟩ := fault_waits (low := low) h occ (post.map (accOf s pl g sp w)) hy hten ha
  rw [hlow, threadsOf_eq, hk, List.map_cons, hend, hpart, hid] at hrun
  have hw := waits_waitAt u pl y' sp' (.fault low w.op.kind false)
  refine ⟨_, _, _, low, hrun, hw.group, splitAt_setSplit_self .., rfl, ?_, absentIn_threads.1 hmem,
    fun j hj b hb => hmin b (absentIn_threads.2 ⟨j, hj, hb⟩), hpos, hw.turn⟩
  rw [← hreports]
  rfl

/-- Settles O37: the order of the traps is the model's; what an access reaches is shown equal to the rules' page walk. -/
theorem memoryStops : Obligations.MemoryStops := by
  unfold Obligations.MemoryStops
  refine ⟨fun i h w s pl g sp hi hs => ⟨fun hr => ?_, fun ht hf hz => ?_⟩, fun s c g => ⟨fun va _ => ?_, fun n ea => ?_⟩⟩
  · intro va canon fine chk pre k post hk
    rw [exec_memWordOf hi]
    have hmem : k ∈ memKeys sp w := hk ▸ List.mem_append_right _ List.mem_cons_self
    have trapped {c : Cause} {a : Word} (hm : MayTrap s pl g) (e : memTrap w (threadsOf s pl g sp w) = some (c, a)) :
        ∃ t, memWord s h w = .next t ∧ Trapped s t pl g sp (causeCode c) 0 0 a :=
      ⟨_, memWord_trap h hs hr e, trapped_trapWith hs hm ..⟩
    refine ⟨fun hm => ⟨fun hc hmin => trapped hm (memTrap_prot hmem hc hmin), fun hc hf hmin =>
      trapped hm (memTrap_align hmem hc hf hmin), fun c a hf hpre hbad => trapped hm (memTrap_bad hk hf hpre hbad)⟩, ?_⟩
    rintro a0 g0 hall rfl habs hg
    refine memWord_faults h hs hr hk ?_ habs hg
    rw [memTrap_fine fun j hj => (hall j hj).1]
    exact List.findSome?_eq_none_iff.2 (forall_threads.2 fun j hj => badOf_none (hall j hj).2)
  · rw [exec_memWordOf hi]
    obtain ⟨hrebase, htrb⟩ := memWord_waits h hs ht hf hz
    exact ⟨fun hh => ⟨_, hrebase hh, waits_waitAt ..⟩, fun hh hb => ⟨_, htrb hh hb, waits_waitAt ..⟩⟩
  · refine ⟨inAperture_iff, fun ha => ?_, fun ha => ?_, fun part => ⟨⟨_, resolved_iff.2 rfl⟩, fun out => transPage_resolved⟩⟩
    · rw [transVa, ha]; rfl
    · rw [transVa, if_pos ha]
      exact transAperture_granule
  · intro t o size inside
    have hlimit : inside ↔ (t.v = true ∧ o < tregLimit t) := by rw [tregLimit_eq]
    obtain ⟨hout, hpage, hap⟩ := transVia_eq s c g n.val ea
    rw [hlimit]
    refine ⟨hout, hpage, fun hi hp => ?_, fun op m => ⟨checkAcc_one, checkAcc_two⟩⟩
    rw [hap hi hp]
    exact transAperture_granule

end Sys2Proof.Proofs.MemoryTraps
end

section
/-! PROOFS. The budget period in a package whose table lists a partition twice (R335, R336). -/

namespace Sys2Proof.Proofs.BudgetPeriod

open Machine Claims

/-- A partition that lends launch tokens: 8 of them each period, LEND. -/
def lendingPart : Part := { Part.reset with budgets := [(0, { cfg := 0x0000000800004000, bal := 0, debt := 0 })] }

/-- A partition that pays back all that it is given, and borrows: 8 tokens each period, REPAY 8, BORROW, a debt of 8. -/
def borrowingPart : Part := { Part.reset with budgets := [(0, { cfg := 0x0000000800088000, bal := 0, debt := 8 })] }

/-- A period boundary where the table lists partition 0 twice: its registers, which neither borrow nor lend, and a second entry
that lends. -/
def twiceListed : State :=
  { State.reset with clock := 15000, parts := [(0, Part.reset), (0, lendingPart), (1, borrowingPart)] }

theorem noCredit_twiceListed : NoCredit (budget twiceListed 0 0) := ⟨rfl, rfl⟩

/-- The lender that partition 1 finds is the second entry, and its balance is written at the first. -/
theorem budgetPeriod_twiceListed {t : State} (h : exec .budgetPeriod twiceListed = .next t) :
    (budget t 0 0).cfg = 0x0000000800004000 := by
  have e : t = (match exec .budgetPeriod twiceListed with
      | .next u => u
      | _ => twiceListed) := by rw [h]
  rw [e]
  decide

/-- Refutes O53: the clause of the budget period, unlike that of the launch tokens, does not ask that each partition is listed
once, and where one is listed twice its second entry's loan overwrites its registers. -/
theorem not_timeEvents : ¬ Obligations.TimeEvents := by
  unfold Obligations.TimeEvents
  intro h
  obtain ⟨-, -, -, hperiod, -⟩ := h twiceListed
  obtain ⟨t, ht, -, -, -, hbudget⟩ := hperiod (by decide)
  have hsame := congrArg (·.cfg) (hbudget 0 0 (by decide) noCredit_twiceListed)
  rw [budgetPeriod_twiceListed ht] at hsame
  exact absurd hsame (by decide)

end Sys2Proof.Proofs.BudgetPeriod
end

section
/-! PROOFS. Memory as the host and the housekeeping path read and write it (R138, R153, R162, R187, R367). -/

namespace Sys2Proof.Proofs.Platform

open Machine Claims Laws Performed

variable {s : State}

/-! ### Bytes of numbers -/

theorem div_byte_succ (b : Byte) (x i : Nat) : (b.toNat + 256 * x) / 256 ^ (i + 1) = x / 256 ^ i := by
  have hb := b.isLt
  rw [pow_succ', ← Nat.div_div_eq_div_mul]
  congr 1
  omega

theorem byte_zero (b : Byte) (x : Nat) : BitVec.ofNat 8 ((b.toNat + 256 * x) / 256 ^ 0) = b := by
  have hb := b.isLt
  refine BitVec.eq_of_toNat_eq ?_
  rw [BitVec.toNat_ofNat, pow_zero, Nat.div_one]
  omega

/-- Byte i of the number that a list of bytes makes. -/
theorem byte_leNat (bs : List Byte) (i : Nat) : BitVec.ofNat 8 (leNat bs / 256 ^ i) = bs.getD i 0 := by
  induction bs generalizing i with
  | nil => simp [leNat]
  | cons b r ih =>
    cases i with
    | zero => exact byte_zero b _
    | succ i => rw [leNat, div_byte_succ, ih, List.getD_cons_succ]

/-- Byte i of the number that n bytes of memory make. -/
theorem byte_bytesAt (m : Nat → Byte) (loc : Nat) {n i : Nat} (h : i < n) :
    BitVec.ofNat 8 (bytesAt m loc n / 256 ^ i) = m (loc + i) := by
  induction n generalizing loc i with
  | zero => omega
  | succ n ih =>
    cases i with
    | zero => exact byte_zero (m loc) _
    | succ i => rw [bytesAt, div_byte_succ, ih (loc + 1) (by omega), Nat.add_assoc, Nat.add_comm 1]

theorem leBytes_memRead (s : State) (loc n : Nat) : leBytes n (memRead s loc n) = (List.range n).map fun j => memByte s (loc + j) := by
  rw [memRead_bytesAt]
  refine List.map_congr_left fun i hi => ?_
  rw [pow_mul]
  exact byte_bytesAt (memByte s) loc (List.mem_range.1 hi)

/-! ### Bytes laid over memory -/

/-- Memory with a list of bytes from a place on. -/
def laidOver (m : Nat → Byte) (loc : Nat) (bs : List Byte) (a : Nat) : Byte :=
  if loc ≤ a ∧ a < loc + bs.length then bs.getD (a - loc) 0 else m a

theorem laidOver_nil (m : Nat → Byte) (loc : Nat) : laidOver m loc [] = m := by
  funext a
  exact if_neg fun h => by simp at h; omega

theorem writeBytes_leNat (m : Nat → Byte) (loc : Nat) (bs : List Byte) : writeBytes m loc bs.length (leNat bs) = laidOver m loc bs := by
  funext a
  unfold writeBytes laidOver
  rw [byte_leNat]

theorem laidOver_take_drop (m : Nat → Byte) (loc k : Nat) (bs : List Byte) (hk : k ≤ bs.length) :
    laidOver (laidOver m loc (bs.take k)) (loc + k) (bs.drop k) = laidOver m loc bs := by
  funext a
  unfold laidOver
  simp only [List.length_take, List.length_drop, Nat.min_eq_left hk]
  by_cases hhi : loc + k ≤ a ∧ a < loc + k + (bs.length - k)
  · rw [if_pos hhi, if_pos (by omega), List.getD_eq_getElem?_getD, List.getD_eq_getElem?_getD, List.getElem?_drop]
    congr 2
    omega
  · rw [if_neg hhi]
    by_cases hlo : loc ≤ a ∧ a < loc + k
    · rw [if_pos hlo, if_pos (by omega), List.getD_eq_getElem?_getD, List.getD_eq_getElem?_getD, List.getElem?_take_of_lt (by omega)]
    · rw [if_neg hlo, if_neg (by omega)]

/-! ### Stores of agents -/

theorem memByte_agentStore (s : State) (a : Agent) (loc n x : Nat) : memByte (agentStore s a loc n x) = writeBytes (memByte s) loc n x := by
  rw [memByte_of_mem (agentStore_mem s a loc n x)]
  funext b
  exact memByte_write s loc n x b

/-- A part of the state that no store of an agent changes. -/
structure StableAgent {α : Type} (f : State → α) : Prop extends StableMem f where
  time : ∀ s t a, f (setAgentTime s t a) = f s

section stable

variable {α : Type} {f : State → α}

theorem StableAgent.agentStore (hf : StableAgent f) (s : State) (a : Agent) (loc n x : Nat) : f (agentStore s a loc n x) = f s := by
  have hstamp (u : State) : f (agentStamp u a loc n) = f u := by
    unfold agentStamp
    cases a with
    | core c => exact hf.toStable.stampStore ..
    | host | house | front => exact (hf.time ..).trans (hf.toStable.setRows ..)
  exact (hf.toStable.wakeAll ..).trans ((hstamp _).trans (hf.memWrite ..))

theorem StableAgent.agentLoad (hf : StableAgent f) (s : State) (a : Agent) (part loc n : Nat) :
    f (agentLoad s a part loc n).2 = f s := (hf.time ..).trans (hf.toStable.setRows ..)

theorem StableAgent.houseStore (hf : StableAgent f) (fuel : Nat) (s : State) (pa : Nat) (bs : List Byte) :
    f (houseStore s pa bs fuel) = f s := by
  induction fuel generalizing s pa bs with
  | zero => rfl
  | succ fuel ih =>
    unfold Machine.houseStore
    split
    · rfl
    · exact (ih ..).trans (hf.agentStore ..)

end stable

theorem stable_hostBuf : StableAgent (·.hostBuf) :=
  ⟨⟨⟨fun _ _ _ => rfl, fun _ _ _ => rfl, fun _ _ _ _ => rfl⟩, fun _ _ _ => rfl, fun _ _ _ => rfl⟩, fun _ _ a => by cases a <;> rfl⟩

theorem stable_hostOut : StableAgent (·.hostOut) :=
  ⟨⟨⟨fun _ _ _ => rfl, fun _ _ _ => rfl, fun _ _ _ _ => rfl⟩, fun _ _ _ => rfl, fun _ _ _ => rfl⟩, fun _ _ a => by cases a <;> rfl⟩

/-- A housekeeping store lays its bytes over memory. -/
theorem memByte_houseStore (fuel : Nat) (s : State) (pa : Nat) (bs : List Byte) (h : bs.length < fuel) :
    memByte (houseStore s pa bs fuel) = laidOver (memByte s) pa bs := by
  induction fuel generalizing s pa bs with
  | zero => omega
  | succ fuel ih =>
    unfold houseStore
    split
    · next he => rw [List.isEmpty_iff.1 he, laidOver_nil]
    · next he =>
      have hpos : 0 < bs.length := List.length_pos_iff.2 fun e => he (by rw [e]; rfl)
      have hk : Nat.min bs.length (8 - pa % 8) ≤ bs.length := Nat.min_le_left ..
      have h1 : 1 ≤ Nat.min bs.length (8 - pa % 8) := Nat.le_min.2 ⟨hpos, by omega⟩
      dsimp only
      have htake := writeBytes_leNat (memByte s) pa (bs.take (Nat.min bs.length (8 - pa % 8)))
      rw [List.length_take, Nat.min_eq_left hk] at htake
      rw [ih _ _ _ (by rw [List.length_drop]; omega), memByte_agentStore, htake, laidOver_take_drop _ _ _ _ hk]

/-! ### Pages that are emptied -/

theorem tabFind_filter_key {α : Type} (p : Nat → Bool) (t : Tab α) (k : Nat) :
    tabFind k (t.filter fun x => p x.1) = if p k then tabFind k t else none := by
  induction t with
  | nil => simp [tabFind]
  | cons x r ih =>
    obtain ⟨j, y⟩ := x
    by_cases hj : j = k
    · subst hj
      by_cases hp : p j = true <;> simp [tabFind, hp, ih]
    · by_cases hp : p j = true <;> simp [tabFind, hp, hj, ih]

theorem tabGet_filter_out {α : Type} (d : α) (lo n k : Nat) (t : Tab α) :
    tabGet d (t.filter fun x => !(decide (lo ≤ x.1) && decide (x.1 < lo + n))) k = if lo ≤ k ∧ k < lo + n then d else tabGet d t k := by
  rw [tabGet, tabFind_filter_key fun j => !(decide (lo ≤ j) && decide (j < lo + n))]
  by_cases h : lo ≤ k ∧ k < lo + n
  · simp [h]
  · rw [if_neg h, if_pos (by simpa [Nat.not_lt] using not_and_or.1 h)]
    rfl

theorem memByte_zeroRange (s : State) (lo n a : Nat) : memByte (zeroRange s lo n) a = if lo ≤ a ∧ a < lo + n then 0 else memByte s a :=
  tabGet_filter_out ..

theorem isFull_emptyFutures (s : State) (lo n a : Nat) : isFull (emptyFutures s lo n) a = if lo ≤ a ∧ a < lo + n then false else isFull s a :=
  tabGet_filter_out ..

theorem memByte_foldl_emptyFutures (rs : List (Nat × Nat)) (s : State) (a : Nat) :
    memByte (rs.foldl (fun t r => emptyFutures t r.1 r.2) s) a
      = if ∃ r ∈ rs, r.1 ≤ a ∧ a < r.1 + r.2 then 0 else memByte s a := by
  induction rs generalizing s with
  | nil => simp
  | cons r rs ih =>
    rw [List.foldl_cons, ih]
    change (if _ then 0 else memByte (zeroRange s r.1 r.2) a) = _
    rw [memByte_zeroRange]
    rw [if_congr (List.exists_mem_cons_iff ..) rfl rfl]
    by_cases h : r.1 ≤ a ∧ a < r.1 + r.2
    · rw [if_pos h, if_pos (Or.inl h), ite_self]
    · rw [if_neg h]
      exact if_congr (or_iff_right h).symm rfl rfl

theorem memByte_emptyNew (s t : State) (a : Nat) :
    memByte (emptyNew s t) a = if ∃ r ∈ newFutures s t, r.1 ≤ a ∧ a < r.1 + r.2 then 0 else memByte t a :=
  memByte_foldl_emptyFutures ..

theorem newFutures_self (s : State) : newFutures s s = [] := by
  refine List.filter_eq_nil_iff.2 fun r hr => ?_
  rw [Bool.not_eq_true', Bool.not_eq_false]
  exact List.any_eq_true.2 ⟨r, hr, by simp⟩

theorem emptyNew_self (s : State) : emptyNew s s = s := by
  rw [emptyNew, newFutures_self]
  rfl

/-! ### The host (R187, R367) -/

theorem bar2_of_le {off n : Nat} (hn : 0 < n) (h : off + n ≤ 2 ^ 36) : off < bar2Bytes := by unfold bar2Bytes; omega

/-- A write of one aligned word through BAR2. -/
theorem hostWrite_word {fn off loc : Nat} {mt : BitVec 2} {bytes : List Byte} (hr : s.ready = true) (hfn : fn < 48)
    (hoff : off + 8 ≤ 2 ^ 36) (hlen : bytes.length = 8) (hva : ((partOf s fn).hwbase + BitVec.ofNat 64 off).toNat % 8 = 0)
    (hok : vaPlain s fn ((partOf s fn).hwbase + BitVec.ofNat 64 off) true = .ok loc mt) :
    exec (.hostWrite fn off bytes) s = .next (agentStore (dropBuffered s fn loc) .host loc 8 (leNat bytes)) := by
  change execHostWrite fn off bytes s = _
  have hne : bytes.isEmpty = false := by
    rw [List.isEmpty_eq_false_iff]
    rintro rfl
    cases hlen
  rw [execHostWrite, hr, if_neg (by simp), if_pos (bar2_of_le (by omega) hoff), if_pos ⟨hfn, by rw [hlen]; exact hoff⟩, hlen,
    bar2Write, hne, if_neg (by simp)]
  simp only [bar2Va, hlen, hva, hok, Nat.sub_zero, show Nat.min 8 8 = 8 from rfl, List.take_of_length_le hlen.le,
    List.drop_of_length_le hlen.le, bar2Write, List.isEmpty_nil, if_true]

theorem hostWrite_base {fn i : Nat} {bytes : List Byte} (hr : s.ready = true) (hfn : fn < 48) (hi : i < 16) (hlen : bytes.length = 8) :
    exec (.hostWrite fn (2 ^ 36 + 0x40 * i) bytes) s
      = .next (setStream s ⟨fn, i⟩ { streamOf s ⟨fn, i⟩ with base := BitVec.ofNat 64 (leNat bytes) }) := by
  change execHostWrite fn (2 ^ 36 + 0x40 * i) bytes s = _
  have hoff : 2 ^ 36 + 0x40 * i - bar2Bytes = 0x40 * i := Nat.add_sub_cancel_left ..
  have hreg : 0x40 * i % 0x40 / 8 = 0 := by omega
  have hstream : 0x40 * i / 0x40 = i := by omega
  rw [execHostWrite, hr, if_neg (by simp), if_neg (by unfold bar2Bytes; omega), if_pos ⟨by omega, hlen⟩]
  simp only [hoff, bar0Write, hreg, hstream]
  rw [if_pos (show fn < Config.parts from hfn), if_pos ⟨hi, by omega⟩, writeStream]

/-- A read of a word within one line that the function has not buffered. -/
theorem lineRead_unbuffered {fn loc : Nat} {keep : Bool} (h : ∀ y ∈ s.hostBuf, ¬ (y.fn = fn ∧ y.line = loc / 128)) :
    (lineRead s fn loc 8 keep).1 = memRead s loc 8 ∧ memByte (lineRead s fn loc 8 keep).2 = memByte s
      ∧ (lineRead s fn loc 8 keep).2.hostOut = s.hostOut := by
  have hbuf : bufferedLine s fn loc = none := by
    refine List.find?_eq_none.2 fun y hy hc => h y hy ?_
    simp only [Bool.and_eq_true, beq_iff_eq] at hc
    exact hc.1
  have hmem : (agentLoad s .host fn loc 8).2.mem = s.mem := stable_mem.setRows ..
  have hout := stable_hostOut.agentLoad s .host fn loc 8
  rw [lineRead, hbuf]
  refine ⟨rfl, ?_⟩
  cases keep with
  | false => exact ⟨memByte_of_mem hmem, hout⟩
  | true => exact ⟨memByte_of_mem hmem, hout⟩

theorem execHostRead_word {fn off : Nat} (keep : Bool) (hr : s.ready = true) (hfn : fn < 48) (hoff : off + 8 ≤ 2 ^ 36) :
    exec (.hostRead fn off 8 keep) s = match bar2Read s fn ((partOf s fn).hwbase + BitVec.ofNat 64 off) 8 keep 9 with
      | some (bs, s) => .next (answer s (.data bs))
      | none => .next (answer s .abort) := by
  change execHostRead fn off 8 keep s = _
  rw [execHostRead, hr, if_neg (by simp), if_pos (bar2_of_le (by omega) hoff), if_pos ⟨hfn, hoff⟩]
  rfl

/-- A read of a word within one line through BAR2. -/
theorem bar2Read_word {fn : Nat} {va : Word} (keep : Bool) (hva : va.toNat % 128 ≤ 120) :
    bar2Read s fn va 8 keep 9 = match vaPlain s fn va false with
      | .ok loc _ =>
        if isPoisoned s loc then none
        else some (leBytes 8 (lineRead s fn loc 8 keep).1, (lineRead s fn loc 8 keep).2)
      | _ => none := by
  have hk : Nat.min 8 (128 - va.toNat % 128) = 8 := Nat.min_eq_left (by omega)
  rw [bar2Read, if_neg (by omega)]
  dsimp only
  rw [hk]
  cases vaPlain s fn va false with
  | absent | bad => rfl
  | ok loc mt =>
    dsimp only
    split
    · rfl
    · simp [bar2Read]

end Sys2Proof.Proofs.Platform
end

section
/-! PROOFS. The mailbox, the life cycle and the measurements (R363–R366, R376). -/

namespace Sys2Proof.Proofs.LifeCycle

open Machine Claims Laws

variable {s : State}

/-! ### Requests of the mailbox (R365) -/

theorem slice_append (a b c : List Byte) {o n : Nat} (ha : a.length = o) (hb : b.length = n) : slice o n (a ++ (b ++ c)) = b := by
  subst ha hb
  rw [slice, List.drop_left, List.take_left]

theorem slice_all (a b : List Byte) {o n : Nat} (ha : a.length = o) (hb : b.length = n) : slice o n (a ++ b) = b := by
  subst ha hb
  rw [slice, List.drop_left, List.take_length]

theorem slice_front (b c : List Byte) {n : Nat} (hb : b.length = n) : slice 0 n (b ++ c) = b := slice_append [] b c rfl hb

theorem length_leBytes (n x : Nat) : (leBytes n x).length = n := by rw [leBytes, List.length_map, List.length_range]

/-- The first 8 bytes of a request: version 1, reserved bytes 0. -/
def requestHead : List Byte := leBytes 4 1 ++ leBytes 4 0

theorem length_requestHead : requestHead.length = 8 := rfl

theorem formOk_head {n : Nat} {p : List Byte} (h : p.length + 8 = n) : formOk n (requestHead ++ p) = true := by
  have hlen : (requestHead ++ p).length = n := by rw [List.length_append, length_requestHead]; omega
  have hversion : slice 0 4 (requestHead ++ p) = leBytes 4 1 := by
    rw [requestHead, List.append_assoc]
    exact slice_front _ _ rfl
  have hzero : slice 4 4 (requestHead ++ p) = leBytes 4 0 := by
    rw [requestHead, List.append_assoc]
    exact slice_append _ _ _ rfl rfl
  rw [formOk, hlen, hversion, hzero, beq_self_eq_true]
  rfl

theorem formOk_head_nil : formOk 8 requestHead = true := rfl

theorem formOk_length {n : Nat} {p : List Byte} (h : p.length ≠ n) : formOk n p = false := by
  rw [formOk, beq_false_of_ne h, Bool.false_and, Bool.false_and]

section object

variable {form state : Bool} {f : State}

theorem doeObject_busy (h : s.entering.isSome = true) : doeObject s form state f = respond s .busy [] := if_pos h

theorem doeObject_badLen (h : s.entering = none) : doeObject s false state f = respond s .badLen [] := by
  rw [doeObject, h]; rfl

theorem doeObject_badState (h : s.entering = none) : doeObject s true false f = respond s .badState [] := by
  rw [doeObject, h]; rfl

theorem doeObject_served (h : s.entering = none) : doeObject s true true f = f := by rw [doeObject, h]; rfl

end object

theorem doeRequest_busy (h : s.entering.isSome = true) (r : DoeReq) : doeRequest s r = respond s .busy [] := by
  unfold doeRequest doeAttest doeProvision doeDeploy doeRma
  split <;> exact doeObject_busy h

theorem doeRequest_badLen (h : s.entering = none) {ty : Nat} {p : List Byte}
    (hp : (ty, p.length) ∉ [(1, 40), (2, 8), (3, 40), (4, 7888)]) : doeRequest s ⟨ty, p⟩ = respond s .badLen [] := by
  simp only [List.mem_cons, Prod.mk.injEq, List.not_mem_nil, or_false, not_or, not_and] at hp
  obtain ⟨hattest, hprovision, hdeploy, hrma⟩ := hp
  unfold doeRequest doeAttest doeProvision doeDeploy doeRma rmaForm
  dsimp only
  split
  · rw [formOk_length (hattest rfl), doeObject_badLen h]
  · rw [formOk_length (hprovision rfl), doeObject_badLen h]
  · rw [formOk_length (hdeploy rfl), doeObject_badLen h]
  · rw [formOk_length (n := 32 + sigBytes) (hrma rfl), Bool.false_and, Bool.false_and, doeObject_badLen h]
  · exact doeObject_badLen h

theorem length_fit (n : Nat) (bs : List Byte) : (fit n bs).length = n := by
  rw [fit, List.length_take, List.length_append, List.length_replicate]
  omega

/-- The signature of a report: that of the package's key, or zeros without one. -/
def signatureOf (s : State) (body : List Byte) : List Byte :=
  match s.attestKey with
  | some k => fit sigBytes (Config.slhSign k body)
  | none => List.replicate sigBytes 0

theorem length_signatureOf (s : State) (body : List Byte) : (signatureOf s body).length = 7856 := by
  unfold signatureOf
  split
  · exact length_fit ..
  · exact List.length_replicate

theorem reportBody_eq (s : State) (nonce : List Byte) : reportBody s nonce = leBytes 4 1 ++ leBytes 4 (lifeCode s.life) ++ nonce
    ++ (List.range 24).flatMap (fun i => beBytes 32 (tabGet 0 s.mreg i).toNat) ++ (List.range 544).map (fun i => tabGet 0 s.defect i) := by
  have hdefect : defectBytes s 0 544 = (List.range 544).map fun i => tabGet 0 s.defect i :=
    List.map_congr_left fun i _ => by rw [Nat.zero_add]
  rw [reportBody, hdefect]

theorem doeRequest_attest (h : s.entering = none) {nonce : List Byte} (hn : nonce.length = 32) :
    doeRequest s ⟨1, requestHead ++ nonce⟩ = respond s .done (reportBody s nonce ++ signatureOf s (reportBody s nonce)) := by
  change doeObject s _ true _ = _
  rw [formOk_head (by omega), doeObject_served h, slice_all _ _ length_requestHead hn]
  rfl

theorem doeRequest_provision (h : s.entering = none) : doeRequest s ⟨2, requestHead⟩ =
    if s.life = .manufacture then { respond s .done (fit 32 (Config.slhKeyGen s.free)) with
      attestKey := some (fit 32 (Config.slhKeyGen s.free)), entering := some .provisioned, free := s.free + 1 }
    else respond s .badState [] := by
  change doeObject s _ _ _ = _
  rw [formOk_head_nil]
  split
  · next hl => rw [beq_iff_eq.2 hl, doeObject_served h]
  · next hl => rw [beq_false_of_ne hl, doeObject_badState h]

theorem doeRequest_deploy (h : s.entering = none) {digest : List Byte} (hd : digest.length = 32) :
    doeRequest s ⟨3, requestHead ++ digest⟩ =
    if s.life = .provisioned then { respond s .done [] with ownerKey := some digest, entering := some .deployed }
    else respond s .badState [] := by
  change doeObject s _ _ _ = _
  rw [formOk_head (by omega), slice_all _ _ length_requestHead hd]
  split
  · next hl => rw [beq_iff_eq.2 hl, doeObject_served h]
  · next hl => rw [beq_false_of_ne hl, doeObject_badState h]

/-- An RMA request without its signature. -/
def rmaRequest (ser : List Byte) : List Byte := requestHead ++ ser ++ leBytes 4 3 ++ leBytes 4 0

theorem length_rmaRequest {ser : List Byte} (h : ser.length = 16) : (rmaRequest ser).length = 32 := by
  simp only [rmaRequest, List.length_append, length_requestHead, length_leBytes, h]

theorem doeRequest_rma (h : s.entering = none) {ser sig : List Byte} (hser : ser.length = 16) (hsig : sig.length = 7856) :
    doeRequest s ⟨4, rmaRequest ser ++ sig⟩ =
    if ser = s.serial ∧ Config.slhVerify s.vendorKey (rmaRequest ser) sig = true then { respond s .done [] with entering := some .rma }
    else respond s .badSig [] := by
  have hserial : slice 8 16 (rmaRequest ser ++ sig) = ser := by
    rw [rmaRequest, List.append_assoc, List.append_assoc, List.append_assoc]
    exact slice_append _ _ _ length_requestHead hser
  have hlen : (requestHead ++ ser).length = 24 := by rw [List.length_append, length_requestHead, hser]
  have htarget : slice 24 4 (rmaRequest ser ++ sig) = leBytes 4 3 := by
    rw [rmaRequest, List.append_assoc, List.append_assoc]
    exact slice_append _ _ _ hlen rfl
  have hzero : slice 28 4 (rmaRequest ser ++ sig) = leBytes 4 0 := by
    rw [rmaRequest, List.append_assoc]
    exact slice_append _ _ _ (by rw [List.length_append, hlen, length_leBytes]) rfl
  have hform : formOk (32 + sigBytes) (rmaRequest ser ++ sig) = true := by
    have : rmaRequest ser ++ sig = requestHead ++ (ser ++ (leBytes 4 3 ++ (leBytes 4 0 ++ sig))) := by
      simp only [rmaRequest, List.append_assoc]
    rw [this]
    refine formOk_head ?_
    simp only [List.length_append, length_leBytes, hser, hsig, sigBytes]
  have hrma : rmaForm (rmaRequest ser ++ sig) = true := by
    rw [rmaForm, hform, htarget, hzero]
    rfl
  have hbody : slice 0 32 (rmaRequest ser ++ sig) = rmaRequest ser := slice_front _ _ (length_rmaRequest hser)
  have hsign : slice 32 sigBytes (rmaRequest ser ++ sig) = sig := slice_all _ _ (length_rmaRequest hser) hsig
  change doeObject s (rmaForm (rmaRequest ser ++ sig)) true _ = _
  rw [hrma, doeObject_served h, hserial, hbody, hsign]
  refine if_congr ?_ rfl rfl
  rw [Bool.and_eq_true, beq_iff_eq]

theorem discovery_answer (n : Nat) (h : n ≤ 4) (vid : Nat) :
    let bs := leBytes 2 vid ++ leBytes 1 (if n ≤ 4 then n else 0) ++ leBytes 1 (if n < 4 then n + 1 else 0)
    bs.length = 4 ∧ bs.getD 2 0 = BitVec.ofNat 8 n ∧ bs.getD 3 0 = if n < 4 then BitVec.ofNat 8 (n + 1) else 0 := by
  refine ⟨rfl, ?_, ?_⟩
  · rw [if_pos h]
    simp [leBytes, List.range_succ]
  · by_cases h4 : n < 4 <;> simp [leBytes, List.range_succ, h4]

/-! ### Resets (R363, R366) -/

/-- A state without what the boot sets: the dies, the measurements, the pools and the ports. -/
def unbooted (s : State) : State :=
  { s with dies := [], deadDies := [], lostUnits := [], mreg := [], pools := [], decoders := [], ports := [], podNum := none, ready := false }

/-- Two states that differ at most in what the boot sets. -/
def Booted (s t : State) : Prop := unbooted t = unbooted s

theorem booted_loadImages (l : List Nat) (s : State) : Booted s (loadImages l s).1 := by
  induction l generalizing s with
  | nil => exact rfl
  | cons i r ih =>
    unfold loadImages
    dsimp only
    split
    · exact ih (extend s i (Config.image i))
    · exact rfl

theorem booted_boot (s : State) : Booted s (boot s) := by
  unfold boot
  dsimp only
  generalize hm : extend _ 6 _ = m
  have hmeasured : Booted s m := hm ▸ rfl
  have hl := booted_loadImages [1, 2, 3, 4] m
  split
  · next u hu => rw [hu] at hl; exact hl.trans hmeasured
  · next u hu => rw [hu] at hl; exact hl.trans hmeasured

theorem keyIn_eq (s : State) (life : Life) : keyIn s life = if life = .rma then none else s.attestKey := by
  cases life <;> rfl

/-! ### The calibration of the links (R376) -/

/-- A lane in calibration is not in service. -/
theorem lanesNow_calibrated (x : Port) (h : s.phyLane = some 0) : (lanesNow s 0 x).getLsbD 0 = false := by
  unfold lanesNow
  refine List.foldlRecOn (List.range 4) _ (motive := fun m : BitVec 4 => m.getLsbD 0 = false) rfl fun m hm l _ => ?_
  split
  · exact hm
  · next hfree =>
    have hl : l ≠ 0 := fun e => hfree (by subst e; rw [h]; simp [laneKey])
    rw [BitVec.getLsbD_or, hm, laneBit, BitVec.getLsbD_shiftLeft, decide_eq_true (Nat.pos_of_ne_zero hl)]
    simp

/-- Calibration begins with the first lane of port 0, which leaves service. -/
theorem nextPhy_first (s : State) : (nextPhy s (some 0)).phyLane = some 0
    ∧ { nextPhy s (some 0) with ports := [], phyLane := none } = { s with ports := [], phyLane := none }
    ∧ (portOf (nextPhy s (some 0)) 0).lanes.getLsbD 0 = false := by
  have hlane (t : State) (h : t.phyLane = some 0) : (portOf (setLanes t 0) 0).lanes.getLsbD 0 = false := by
    have e : portOf (setLanes t 0) 0 = { portOf t 0 with lanes := lanesNow t 0 (portOf t 0) } := tabGet_put_self
    rw [e]
    exact lanesNow_calibrated _ h
  unfold nextPhy
  cases s.phyLane with
  | none => exact ⟨rfl, rfl, hlane _ rfl⟩
  | some n => exact ⟨rfl, rfl, hlane (setLanes _ _) rfl⟩

end Sys2Proof.Proofs.LifeCycle
end

section
/-! PROOFS. Memory errors, the move of a frame, and the repair of quads (R371, R372, R375). -/

namespace Sys2Proof.Proofs.Repair

open Machine Claims Laws Performed Platform LifeCycle

variable {s t : State}

/-! ### What a wake leaves of a partition -/

theorem leaveRoom_parts (s : State) (c slot split : Nat) : (leaveRoom s c slot split).parts = s.parts := by
  unfold leaveRoom
  dsimp only
  split
  · rfl
  · split
    · rfl
    · split <;> rfl

theorem quietPart_restartStarve (s : State) (n p : Nat) : quietPart (partOf (restartStarve s n) p) = quietPart (partOf s p) := by
  unfold restartStarve
  split
  · next x hx =>
    rw [partOf_setPart]
    split
    · next e =>
      have hpart : partOf s p = x := by rw [e, partOf, tabGet, hx]; rfl
      rw [hpart]
      rfl
    · rfl
  · rfl

theorem quietPart_of_parts (h : t.parts = s.parts) (p : Nat) : quietPart (partOf t p) = quietPart (partOf s p) := by
  unfold partOf
  rw [h]

theorem quietPart_wakeOne (s : State) (c : Nat) (w : Waiter) (p : Nat) : quietPart (partOf (wakeOne s c w) p) = quietPart (partOf s p) := by
  have hleave (u : State) (x : Nat × Nat) := quietPart_of_parts (leaveRoom_parts u c x.1 x.2) p
  unfold wakeOne retryRoom
  refine (foldl_eq (f := fun u => quietPart (partOf u p)) _ hleave _ _).trans ?_
  split
  · exact (quietPart_restartStarve ..).trans (hleave s (w.slot, w.split))
  · exact hleave s (w.slot, w.split)

theorem quietPart_wakeAll (s : State) (sel : Waiter → Bool) (p : Nat) : quietPart (partOf (wakeAll s sel) p) = quietPart (partOf s p) :=
  foldl_eq (f := fun u => quietPart (partOf u p)) (fun u (c : Nat × Core) => (c.2.room.filter sel).foldl (fun u w => wakeOne u c.1 w) u)
    (fun u c => foldl_eq (f := fun u => quietPart (partOf u p)) (fun u w => wakeOne u c.1 w)
      (fun u w => quietPart_wakeOne u c.1 w p) _ u) _ s

theorem memWrite_parts (s : State) (loc n x : Nat) : (memWrite s loc n x).parts = s.parts := by
  induction n generalizing s loc x with
  | zero => rfl
  | succ n ih => exact ih ..

theorem quietPart_houseStore (fuel : Nat) (s : State) (pa : Nat) (bs : List Byte) (p : Nat) :
    quietPart (partOf (houseStore s pa bs fuel) p) = quietPart (partOf s p) := by
  induction fuel generalizing s pa bs with
  | zero => rfl
  | succ fuel ih =>
    unfold houseStore
    split
    · rfl
    · exact (ih ..).trans ((quietPart_wakeAll ..).trans (quietPart_of_parts ((reads_setRows ..).parts.trans (memWrite_parts ..)) p))

/-! ### Errors in memory (R372) -/

theorem loseUnit_eq (s : State) (u : ErrUnit) :
    loseUnit s u = { s with lostUnits := if u ∈ s.lostUnits then s.lostUnits else s.lostUnits ++ [u] } := by
  unfold loseUnit
  by_cases h : u ∈ s.lostUnits
  · rw [if_pos (List.contains_iff_mem.2 h), if_pos h]
  · rw [if_neg (fun hc => h (List.contains_iff_mem.1 hc)), if_neg h]

theorem length_memBytes (s : State) (loc n : Nat) : (memBytes s loc n).length = n := by
  induction n generalizing loc with
  | zero => rfl
  | succ n ih => rw [memBytes, List.length_cons, ih]

theorem getD_memBytes (s : State) (loc : Nat) {n i : Nat} (h : i < n) : (memBytes s loc n).getD i 0 = memByte s (loc + i) := by
  induction n generalizing loc i with
  | zero => omega
  | succ n ih =>
    cases i with
    | zero => rfl
    | succ i => rw [memBytes, List.getD_cons_succ, ih (loc + 1) (by omega), Nat.add_assoc, Nat.add_comm 1]

theorem shootPart_mem (s : State) (n : Nat) : (shootPart s n).mem = s.mem := by
  unfold shootPart
  dsimp only
  split <;> rfl

theorem shootPart_withheld (s : State) (n : Nat) : (shootPart s n).withheld = s.withheld := by
  unfold shootPart
  dsimp only
  split <;> rfl

theorem partOf_shootPart {n : Nat} (h : (partOf s n).ack = true) :
    partOf (shootPart s n) n = { partOf s n with gen := (partOf s n).gen + 1, ack := false } := by
  unfold shootPart
  dsimp only
  rw [h, if_neg (by simp)]
  exact partOf_setPart_self ..

theorem stable_withheld : StableAgent (·.withheld) :=
  ⟨⟨⟨fun _ _ _ => rfl, fun _ _ _ => rfl, fun _ _ _ _ => rfl⟩, fun _ _ _ => rfl, fun _ _ _ => rfl⟩, fun _ _ a => by cases a <;> rfl⟩

/-- A frame whose bytes have been copied, with what is full and unreadable in it. -/
def copied (s : State) (m : FrameMove) : State :=
  let t := houseStore s m.dst (memBytes s m.src m.size) (m.size + 1)
  { t with full := moveKeys m.src m.dst m.size t.full, poison := moveKeys (m.src / 128) (m.dst / 128) (m.size / 128) t.poison }

/-- The copy, once the partition's shoot-down range is the page. -/
def aimed (s : State) (m : FrameMove) : State :=
  setPart (copied s m) m.part { partOf (copied s m) m.part with sdbase := m.base, sdlen := m.len }

theorem moveFrame_eq {m : FrameMove} (he : m.entries = []) (hm : canMove s m = true) :
    moveFrame s m = { shootPart (aimed s m) m.part with withheld := (shootPart (aimed s m) m.part).withheld ++ [(m.src, m.size)] } := by
  unfold moveFrame
  rw [hm, he]
  rfl

theorem memByte_moveFrame {m : FrameMove} (he : m.entries = []) (hm : canMove s m = true) (a : Nat) :
    memByte (moveFrame s m) a = if m.dst ≤ a ∧ a < m.dst + m.size then memByte s (m.src + (a - m.dst)) else memByte s a := by
  have hmem : (moveFrame s m).mem = (houseStore s m.dst (memBytes s m.src m.size) (m.size + 1)).mem := by
    rw [moveFrame_eq he hm]
    exact shootPart_mem ..
  rw [memByte_of_mem hmem, memByte_houseStore _ _ _ _ (by rw [length_memBytes]; omega), laidOver, length_memBytes]
  split
  · exact getD_memBytes s m.src (by omega)
  · rfl

theorem withheld_moveFrame {m : FrameMove} (he : m.entries = []) (hm : canMove s m = true) :
    (moveFrame s m).withheld = s.withheld ++ [(m.src, m.size)] := by
  rw [moveFrame_eq he hm]
  dsimp only
  rw [shootPart_withheld]
  exact congrArg (· ++ [(m.src, m.size)]) (stable_withheld.houseStore ..)

/-- A frame that is withheld is not set. -/
theorem not_frame_of_withheld {lo n a : Nat} (h : (lo, n) ∈ t.withheld) (hlo : lo ≤ a) (hhi : a < lo + n) : ¬ Frame t a :=
  fun hf => hf.1 _ h ⟨hlo, hhi⟩

theorem quietPart_moveFrame {m : FrameMove} (he : m.entries = []) (hm : canMove s m = true) :
    quietPart (partOf (moveFrame s m) m.part) = quietPart { partOf s m.part with
      sdbase := m.base, sdlen := m.len, gen := (partOf s m.part).gen + 1, ack := false } := by
  have hquiet : quietPart (partOf (copied s m) m.part) = quietPart (partOf s m.part) := quietPart_houseStore ..
  have haim : partOf (aimed s m) m.part = { partOf (copied s m) m.part with sdbase := m.base, sdlen := m.len } := partOf_setPart_self ..
  have hack : (partOf (aimed s m) m.part).ack = true := by
    rw [haim]
    refine (congrArg (·.ack) hquiet).trans ?_
    simp only [canMove, Bool.and_eq_true] at hm
    exact hm.2
  have hpart : partOf (moveFrame s m) m.part = partOf (shootPart (aimed s m) m.part) m.part := by rw [moveFrame_eq he hm]; rfl
  rw [hpart, partOf_shootPart hack, haim]
  exact congrArg (fun x : Part => { x with sdbase := m.base, sdlen := m.len, gen := x.gen + 1, ack := false }) hquiet

/-! ### Quads that are cleared (R371, R375) -/

/-- A core without groups and copies, whose scratchpad holds zeros. -/
structure Blank (t : State) (c : Nat) : Prop where
  slots : (coreOf t c).slots = []
  l1    : (coreOf t c).l1 = []
  tlb   : (coreOf t c).tlb = []
  bytes : ∀ a < 2 ^ 20, memByte t (2 ^ 52 + 2 ^ 20 * c + a) = 0

/-- A core of a quad is cleared, and stands as `f` makes it. -/
def clearCore (f : Core → Core) (s : State) (c : Nat) : State :=
  setCore (zeroRange s (Config.scratchKey + 2 ^ 20 * c) (2 ^ 20)) c (f (coreOf s c))

/-- A core as it stands once it has been cleared. -/
def Cleared (k : Core) : Prop := k.slots = [] ∧ k.l1 = [] ∧ k.tlb = []

section clear

variable {f : Core → Core} (hf : ∀ k, Cleared (f k))
include hf

theorem blank_clearCore_self (s : State) (c : Nat) : Blank (clearCore f s c) c := by
  have hcore : coreOf (clearCore f s c) c = f (coreOf s c) := by rw [clearCore, coreOf_setCore, if_pos rfl]
  obtain ⟨hslots, hl1, htlb⟩ := hf (coreOf s c)
  refine ⟨hcore ▸ hslots, hcore ▸ hl1, hcore ▸ htlb, fun a ha => ?_⟩
  refine (memByte_zeroRange s _ _ _).trans (if_pos ?_)
  rw [Config.scratchKey]
  omega

theorem blank_clearCore {d : Nat} (h : Blank s d) (c : Nat) : Blank (clearCore f s c) d := by
  by_cases e : d = c
  · exact e ▸ blank_clearCore_self hf s c
  · have hcore : coreOf (clearCore f s c) d = coreOf s d := by rw [clearCore, coreOf_setCore, if_neg e]; rfl
    obtain ⟨hslots, hl1, htlb, hbytes⟩ := h
    refine ⟨hcore ▸ hslots, hcore ▸ hl1, hcore ▸ htlb, fun a ha => ?_⟩
    refine (memByte_zeroRange s _ _ _).trans ?_
    rw [hbytes a ha, ite_self]

theorem blank_foldl_clearCore (cs : List Nat) {d : Nat} (h : d ∈ cs ∨ Blank s d) : Blank (cs.foldl (clearCore f) s) d := by
  induction cs generalizing s with
  | nil => exact h.resolve_left (by simp)
  | cons c cs ih =>
    refine ih ?_
    rcases h with h | h
    · rcases List.mem_cons.1 h with rfl | h
      · exact .inr (blank_clearCore_self hf s _)
      · exact .inl h
    · exact .inr (blank_clearCore hf h c)

end clear

theorem Blank.of_same {c : Nat} (h : Blank s c) (hcores : t.cores = s.cores) (hmem : t.mem = s.mem) : Blank t c := by
  have hcore : coreOf t c = coreOf s c := by unfold coreOf; rw [hcores]
  obtain ⟨hslots, hl1, htlb, hbytes⟩ := h
  exact ⟨hcore ▸ hslots, hcore ▸ hl1, hcore ▸ htlb, fun a ha => by rw [memByte_of_mem hmem]; exact hbytes a ha⟩

theorem dieOf_setDie (s : State) (d : Nat) (x : Die) : dieOf (setDie s d x) d = x := tabGet_put_self

theorem quadOf_setQuad (s : State) (q : Nat) (x : Quad) : quadOf (setQuad s q x) q = x := tabGet_put_self

theorem Blank.setDie {c : Nat} (h : Blank s c) (d : Nat) (x : Die) : Blank (setDie s d x) c := h.of_same rfl rfl

theorem Blank.setQuad {c : Nat} (h : Blank s c) (q : Nat) (x : Quad) : Blank (setQuad s q x) c := h.of_same rfl rfl

/-- A quad whose cores are cleared, and whose TLB is. -/
def clearQuad (f : Core → Core) (s : State) (d q : Nat) : State :=
  setQuad ((quadCores d q).foldl (clearCore f) s) (quadNum d q)
    { quadOf ((quadCores d q).foldl (clearCore f) s) (quadNum d q) with tlb := [] }

theorem blank_clearQuad {f : Core → Core} (hf : ∀ k, Cleared (f k)) (s : State) (d q : Nat) :
    ∀ c ∈ quadCores d q, Blank (clearQuad f s d q) c :=
  fun _ hc => (blank_foldl_clearCore hf _ (.inl hc)).setQuad ..

theorem clearQuad_dies (f : Core → Core) (s : State) (d q : Nat) : (clearQuad f s d q).dies = s.dies :=
  foldl_eq (f := (·.dies)) (clearCore f) (fun _ _ => rfl) _ s

/-- A core that retirement clears: its time and its next operation's number stay. -/
def retiredCore (k : Core) : Core := { Core.reset with tc := k.tc, nextOp := k.nextOp }

theorem zeroQuad_eq (s : State) (d q : Nat) : zeroQuad s d q = clearQuad zeroCore s d q := rfl

theorem replaceQuad_eq (s : State) (d q : Nat) :
    let x := { dieOf s d with retired := (dieOf s d).retired.filter (· != q) }
    replaceQuad s d q = match x.spares with
      | p :: r => setDie (clearQuad retiredCore s d q) d { x with quads := tabPut q p x.quads, spares := r }
      | [] => setQuad (setDie (clearQuad retiredCore s d q) d { x with quads := tabErase q x.quads }) (quadNum d q) Quad.reset := rfl

theorem blank_replaceQuad (s : State) (d q : Nat) : ∀ c ∈ quadCores d q, Blank (replaceQuad s d q) c := fun c hc => by
  have h := blank_clearQuad (f := retiredCore) (fun _ => ⟨rfl, rfl, rfl⟩) s d q c hc
  rw [replaceQuad_eq]
  split
  · exact h.setDie ..
  · exact (h.setDie ..).setQuad ..

/-- A spare takes the number of the quad. -/
theorem replaceQuad_spare {d q p : Nat} {r : List Nat} (h : (dieOf s d).spares = p :: r) :
    tabFind q (dieOf (replaceQuad s d q) d).quads = some p ∧ (dieOf (replaceQuad s d q) d).spares = r
      ∧ q ∉ (dieOf (replaceQuad s d q) d).retired := by
  rw [replaceQuad_eq]
  simp only [h, dieOf_setDie]
  exact ⟨tabFind_put_self, trivial, by simp⟩

theorem dieOf_setQuad (s : State) (q : Nat) (x : Quad) (d : Nat) : dieOf (setQuad s q x) d = dieOf s d := rfl

/-- With no spare left the quad leaves the die and its partition. -/
theorem replaceQuad_noSpare {d q : Nat} (h : (dieOf s d).spares = []) :
    tabFind q (dieOf (replaceQuad s d q) d).quads = none ∧ (quadOf (replaceQuad s d q) (quadNum d q)).owner = none := by
  rw [replaceQuad_eq]
  simp only [h, quadOf_setQuad, dieOf_setQuad, dieOf_setDie]
  exact ⟨tabFind_erase_self, rfl⟩

theorem quadIdle_iff {d q : Nat} : quadIdle s d q = true ↔ ∀ c ∈ quadCores d q, (coreOf s c).slots = [] := by
  simp [quadIdle, List.all_eq_true]

/-- An idle quad is replaced at once. -/
theorem retireQuad_idle {d q : Nat} (hl : (tabFind q (dieOf s d).quads).isSome = true) (hi : ∀ c ∈ quadCores d q, (coreOf s c).slots = []) :
    ∃ u, retireQuad s d q = replaceQuad u d q ∧ (dieOf u d).spares = (dieOf s d).spares := by
  have hidle (u : State) (hu : u.cores = s.cores) : quadIdle u d q = true := by
    refine quadIdle_iff.2 fun c hc => ?_
    rw [← hi c hc, coreOf, hu]
    rfl
  unfold retireQuad
  dsimp only
  rw [hasLogical, hl, if_neg (by simp)]
  split
  · exact ⟨s, if_pos (hidle s rfl), rfl⟩
  · exact ⟨_, if_pos (hidle _ rfl), by rw [dieOf_setDie]⟩

/-- A quad with teams takes no more. -/
theorem retireQuad_busy {d q : Nat} (hl : (tabFind q (dieOf s d).quads).isSome = true) (hi : ∃ c ∈ quadCores d q, (coreOf s c).slots ≠ [])
    (hr : q ∉ (dieOf s d).retired) :
    retireQuad s d q = setDie s d { dieOf s d with retired := (dieOf s d).retired ++ [q] } := by
  have hbusy (u : State) (hu : u.cores = s.cores) : ¬ quadIdle u d q = true := fun h => by
    obtain ⟨c, hc, hne⟩ := hi
    have := quadIdle_iff.1 h c hc
    rw [coreOf, hu] at this
    exact hne this
  unfold retireQuad
  dsimp only
  rw [hasLogical, hl, if_neg (by simp), if_neg fun hc => hr (List.contains_iff_mem.1 hc)]
  exact if_neg (hbusy _ rfl)

/-- An idle quad that another partition takes is cleared (R371). -/
theorem quadReassign_idle {d q p : Nat} (hp : p < 48) (hl : (tabFind q (dieOf s d).quads).isSome = true)
    (hi : ∀ c ∈ quadCores d q, (coreOf s c).slots = []) : exec (.quadReassign d q (some p)) s =
      .next (setQuad (clearQuad zeroCore s d q) (quadNum d q) { quadOf s (quadNum d q) with owner := some p, tlb := [] }) := by
  have hpart : decide (p < Config.parts) = true := decide_eq_true hp
  have hok : (decide (p < Config.parts) && hasLogical s d q && quadIdle s d q) = true := by
    rw [hpart, hasLogical, hl, quadIdle_iff.2 hi]
    rfl
  exact if_pos hok

end Sys2Proof.Proofs.Repair
end

section
/-! PROOFS. What the host, the mailbox, the life cycle and repair do, put together (R123, R138, R153, R162, R187, R363–R367,
R371, R372, R375–R377). -/

namespace Sys2Proof.Proofs.PlatformEvents

open Machine Claims Laws Performed Platform LifeCycle Repair

variable {s : State}

/-! ### The host -/

/-- A word written through BAR2 is in memory, and no buffered line of it is left (R187, R367). -/
theorem hostWrite_memory {fn off loc : Nat} {mt : BitVec 2} {bytes : List Byte} (hr : s.ready = true) (hfn : fn < 48)
    (hoff : off + 8 ≤ 2 ^ 36) (hlen : bytes.length = 8) (hva : ((partOf s fn).hwbase + BitVec.ofNat 64 off).toNat % 8 = 0)
    (hok : vaPlain s fn ((partOf s fn).hwbase + BitVec.ofNat 64 off) true = .ok loc mt) :
    ∃ t, exec (.hostWrite fn off bytes) s = .next t
      ∧ (∀ a, memByte t a = if loc ≤ a ∧ a < loc + 8 then bytes.getD (a - loc) 0 else memByte s a)
      ∧ ∀ y ∈ t.hostBuf, ¬ (y.fn = fn ∧ y.line = loc / 128) := by
  refine ⟨_, hostWrite_word hr hfn hoff hlen hva hok, fun a => ?_, fun y hy => ?_⟩
  · have hbytes := writeBytes_leNat (memByte s) loc bytes
    rw [hlen] at hbytes
    rw [memByte_agentStore]
    change writeBytes (memByte s) loc 8 (leNat bytes) a = _
    rw [hbytes, laidOver, hlen]
  · rw [stable_hostBuf.agentStore] at hy
    simpa [← not_and_or] using (List.mem_filter.1 hy).2

/-- A word read through BAR2 that the function has not buffered is memory's (R187, R367). -/
theorem hostRead_memory {fn off loc : Nat} (keep : Bool) (hr : s.ready = true) (hfn : fn < 48) (hoff : off + 8 ≤ 2 ^ 36)
    (hva : ((partOf s fn).hwbase + BitVec.ofNat 64 off).toNat % 128 ≤ 120)
    (hread : Readable s fn ((partOf s fn).hwbase + BitVec.ofNat 64 off) loc)
    (hbuf : ∀ y ∈ s.hostBuf, ¬ (y.fn = fn ∧ y.line = loc / 128)) :
    ∃ t, exec (.hostRead fn off 8 keep) s = .next t ∧ (∀ a, memByte t a = memByte s a)
      ∧ t.hostOut = s.hostOut ++ [.data ((List.range 8).map fun j => memByte s (loc + j))] := by
  obtain ⟨⟨mt, hok⟩, hsound⟩ := hread
  obtain ⟨hdata, hmem, hout⟩ := lineRead_unbuffered (keep := keep) hbuf
  refine ⟨answer (lineRead s fn loc 8 keep).2 (.data (leBytes 8 (lineRead s fn loc 8 keep).1)), ?_, congrFun hmem, ?_⟩
  · rw [execHostRead_word keep hr hfn hoff, bar2Read_word keep hva, hok]
    dsimp only
    rw [hsound, if_neg (by simp)]
  · rw [answer, hdata, leBytes_memRead, hout]

theorem hostRead_absent {fn off : Nat} (keep : Bool) (hr : s.ready = true) (hfn : fn < 48) (hoff : off + 8 ≤ 2 ^ 36)
    (hva : ((partOf s fn).hwbase + BitVec.ofNat 64 off).toNat % 128 ≤ 120)
    (habs : vaPlain s fn ((partOf s fn).hwbase + BitVec.ofNat 64 off) false = .absent) :
    exec (.hostRead fn off 8 keep) s = .next { s with hostOut := s.hostOut ++ [.abort] } := by
  rw [execHostRead_word keep hr hfn hoff, bar2Read_word keep hva, habs]
  rfl

theorem host_notReady (hr : s.ready = false) (fn off n : Nat) (keep : Bool) (bytes : List Byte) :
    exec (.hostRead fn off n keep) s = .next { s with hostOut := s.hostOut ++ [.retry] } ∧ exec (.hostWrite fn off bytes) s = .next s := by
  change execHostRead fn off n keep s = _ ∧ execHostWrite fn off bytes s = _
  have hnot : (!s.ready) = true := by rw [hr]; rfl
  exact ⟨if_pos hnot, if_pos hnot⟩

/-! ### Housekeeping (R138, R153, R162) -/

theorem housekeepingStore_bytes {pa : Nat} {bytes : List Byte} (hlen : bytes.length = 8) (hreach : houseReach s pa 8 = true) :
    ∃ t, exec (.housekeepingStore pa bytes none) s = .next t
      ∧ ∀ a, memByte t a = if ∃ r ∈ newFutures s (houseStore s pa bytes 9), r.1 ≤ a ∧ a < r.1 + r.2 then 0
        else if pa ≤ a ∧ a < pa + 8 then bytes.getD (a - pa) 0 else memByte s a := by
  refine ⟨emptyNew s (houseStore s pa bytes 9), ?_, fun a => ?_⟩
  · change execHousekeepingStore pa bytes none s = _
    rw [execHousekeepingStore, hlen, hreach]
    rfl
  · rw [memByte_emptyNew, memByte_houseStore _ _ _ _ (by omega), laidOver, hlen]

theorem housekeepingStore_future (pa lo n : Nat) : exec (.housekeepingStore pa [] (some (lo, n))) s = .next (emptyFutures s lo n) := by
  change execHousekeepingStore pa [] (some (lo, n)) s = _
  have hstore : houseStore s pa [] (([] : List Byte).length + 1) = s := rfl
  rw [execHousekeepingStore, hstore, emptyNew_self]
  rfl

/-! ### The mailbox -/

/-- A request is served as its type says, whatever carries it (R365). -/
theorem exec_mailbox {i : Instr} {r : DoeReq} (h : i ∈ [Instr.attest r, .provision r, .deploy r, .rma r]) :
    exec i s = .next (doeRequest s r) := by
  simp only [List.mem_cons, List.not_mem_nil, or_false] at h
  rcases h with rfl | rfl | rfl | rfl <;> rfl

/-! ### Resets -/

/-- The three events that reset the package (R363, R366, R377). -/
theorem exec_reset {i : Instr} (h : i ∈ [Instr.deviceReset, .thermalReset, .lifecycleWipeDone])
    (he : i = .lifecycleWipeDone → s.entering.isSome = true) : exec i s = .next (resetDevice s) := by
  simp only [List.mem_cons, List.not_mem_nil, or_false] at h
  rcases h with rfl | rfl | rfl
  · rfl
  · rfl
  · exact if_pos (he rfl)

/-- What the boot leaves is the wiped state's. -/
theorem reset_keeps {α : Type} (f : State → α)
    (hf : ∀ u, f (unbooted u) = f u) :
    f (resetDevice s) = f (wiped s (s.entering.getD s.life) (keyIn s (s.entering.getD s.life))) :=
  (hf _).symm.trans ((congrArg f (booted_boot _)).trans (hf _))

theorem resetDevice_life : (resetDevice s).life = s.entering.getD s.life := reset_keeps (·.life) fun _ => rfl

/-! ### Live maintenance (R376) -/

theorem liveUpdate_unsigned {img : List Byte} (h : Config.imageSigned img = false) (what : LiveImage) :
    exec (.liveUpdate what img) s = .next s :=
  if_neg (by rw [h, Bool.and_false]; simp)

theorem liveUpdate_signed {img : List Byte} (hr : s.ready = true) (h : Config.imageSigned img = true) (what : LiveImage) :
    exec (.liveUpdate what img) s = .next (match what with
      | .phy => nextPhy (extend s (liveReg what) img) (some 0)
      | _ => extend s (liveReg what) img) :=
  if_pos (by rw [hr, h]; rfl)

/-- An image that replaces the firmware or the microcode is measured, and runs where it is signed. -/
theorem liveUpdate_image (img : List Byte) (hr : s.ready = true) {what : LiveImage} (hw : what ≠ .phy) :
    exec (.liveUpdate what img) s = .next (if Config.imageSigned img = true then extend s (liveReg what) img else s) := by
  split
  · next h =>
    rw [liveUpdate_signed hr h]
    cases what with
    | phy => exact absurd rfl hw
    | firmware | microcode => rfl
  · next h => exact liveUpdate_unsigned (Bool.eq_false_iff.2 h) what

/-! ### Errors in memory (R372) -/

/-- An error in a line of memory. -/
theorem memoryError_line (pa : Nat) (out : ErrOutcome) :
    exec (.memoryErrorRetry (.line pa) out) s = .next (memoryError s (.line pa) pa out) := rfl

/-- An error in a pseudo-channel or an L2 slice: which line it lies in is free. -/
theorem memoryError_unit {u : ErrUnit} (h : (∃ st pc, u = .channel st pc) ∨ (∃ die n, u = .slice die n)) (out : ErrOutcome) :
    exec (.memoryErrorRetry u out) s = .next (memoryError { s with free := s.free + 1 } u (Config.badLine s.free) out) := by
  rcases h with ⟨st, pc, rfl⟩ | ⟨die, n, rfl⟩ <;> rfl

theorem memoryError_lasting (u : ErrUnit) (loc : Nat) (moves : List FrameMove) : memoryError s u loc (.lasting moves) =
    moves.foldl moveFrame { report s (.error u) with
      lostUnits := if u ∈ s.lostUnits then s.lostUnits else s.lostUnits ++ [u] } := by
  unfold memoryError
  dsimp only
  rw [loseUnit_eq]
  rfl

theorem memoryError_uncorrectable (u : ErrUnit) (loc : Nat) : memoryError s u loc .uncorrectable =
    { report s (.error u) with
      lostUnits := if u ∈ s.lostUnits then s.lostUnits else s.lostUnits ++ [u], poison := tabPut (lineKey loc) true s.poison } := by
  unfold memoryError
  dsimp only
  rw [loseUnit_eq]
  rfl

/-- A frame on a lost line is moved where it may be moved now, and is not set afterwards. -/
theorem memoryError_move (pa : Nat) {m : FrameMove} (he : m.entries = []) :
    (canMove s m = false →
      exec (.memoryErrorRetry (.line pa) (.lasting [m])) s = exec (.memoryErrorRetry (.line pa) (.lasting [])) s)
    ∧ (canMove s m = true → ∃ t, exec (.memoryErrorRetry (.line pa) (.lasting [m])) s = .next t
      ∧ (∀ a, memByte t a = if m.dst ≤ a ∧ a < m.dst + m.size then memByte s (m.src + (a - m.dst)) else memByte s a)
      ∧ t.withheld = s.withheld ++ [(m.src, m.size)] ∧ (∀ a, m.src ≤ a → a < m.src + m.size → ¬ Frame t a)
      ∧ quietPart (partOf t m.part) = quietPart { partOf s m.part with
          sdbase := m.base, sdlen := m.len, gen := (partOf s m.part).gen + 1, ack := false }) := by
  rw [memoryError_line, memoryError_line, memoryError_lasting, memoryError_lasting]
  generalize hu : ({ report s (.error (.line pa)) with lostUnits := _ } : State) = u
  have hcan : canMove u m = canMove s m := by rw [← hu]; rfl
  have hmem : memByte u = memByte s := by rw [← hu]; rfl
  have hheld : u.withheld = s.withheld := by rw [← hu]; rfl
  have hpart : partOf u m.part = partOf s m.part := by rw [← hu]; rfl
  refine ⟨fun hm => congrArg _ (if_pos (by rw [hcan, hm]; rfl)), fun hm => ?_⟩
  rw [← hcan] at hm
  have hwithheld := withheld_moveFrame he hm
  refine ⟨_, rfl, fun a => ?_, ?_, fun a hlo hhi => ?_, ?_⟩
  · exact (memByte_moveFrame he hm a).trans (by rw [hmem])
  · exact hwithheld.trans (by rw [hheld])
  · exact not_frame_of_withheld (by rw [List.foldl_cons, List.foldl_nil, hwithheld]; simp) hlo hhi
  · exact (quietPart_moveFrame he hm).trans (by rw [hpart])

/-! ### The statement -/

/-- Settles O59: every clause is what the model's event does; the queries of the mailbox are served by the type that they name. -/
theorem platformEvents : Obligations.PlatformEvents := by
  unfold Obligations.PlatformEvents
  intro s
  refine ⟨?host, ?base, ?read, ?early, ?house, ?discovery, ?mailbox, ?reset, ?measure, ?error, ?quad⟩
  case host =>
    intro fn off loc mt bytes va hr hfn hoff hlen hva hok
    exact hostWrite_memory hr hfn hoff hlen hva hok
  case base =>
    intro fn i bytes hr hfn hi hlen q
    exact hostWrite_base hr hfn hi hlen
  case read =>
    intro fn off loc keep va hr hfn hoff hva
    exact ⟨hostRead_memory keep hr hfn hoff hva, hostRead_absent keep hr hfn hoff hva⟩
  case early => exact host_notReady
  case house =>
    intro pa bytes hlen _ hreach
    exact ⟨housekeepingStore_bytes hlen hreach, fun lo n => ⟨_, housekeepingStore_future pa lo n, memByte_zeroRange s lo n,
      isFull_emptyFutures s lo n⟩⟩
  case discovery => exact fun n => ⟨_, rfl, fun h => discovery_answer n h _⟩
  case mailbox =>
    intro reply head asks gives
    have serves {ty : Nat} {p : List Byte} {t : State} (h : doeRequest s ⟨ty, p⟩ = t) : gives ty p t :=
      fun i hi => (exec_mailbox hi).trans (congrArg _ h)
    refine ⟨fun hb ty p => serves (doeRequest_busy hb _), fun he => ⟨fun ty p hp => serves (doeRequest_badLen he hp), fun nonce hn => ?_,
      fun hl => ?_, fun hl => ?_, fun digest hd => ⟨fun hl => ?_, fun hl => ?_⟩, fun ser sig hser hsig => ?_⟩⟩
    · refine ⟨signatureOf s (reportBody s nonce), ?_, length_signatureOf .., fun hk => by rw [signatureOf, hk]; rfl⟩
      rw [← reportBody_eq]
      exact serves (doeRequest_attest he hn)
    · exact ⟨_, serves ((doeRequest_provision he).trans (if_pos hl)), length_fit ..⟩
    · exact serves ((doeRequest_provision he).trans (if_neg hl))
    · exact serves ((doeRequest_deploy he hd).trans (if_pos hl))
    · exact serves ((doeRequest_deploy he hd).trans (if_neg hl))
    · exact serves (doeRequest_rma he hser hsig)
  case reset =>
    intro i hi he
    refine ⟨_, exec_reset hi he, resetDevice_life, ?_⟩
    refine ⟨reset_keeps (·.entering) fun _ => rfl, reset_keeps (·.mem) fun _ => rfl, reset_keeps (·.cores) fun _ => rfl,
      reset_keeps (·.launches) fun _ => rfl, reset_keeps (·.parts) fun _ => rfl, reset_keeps (·.quads) fun _ => rfl,
      reset_keeps (·.full) fun _ => rfl, reset_keeps (·.poison) fun _ => rfl, reset_keeps (·.queues) fun _ => rfl,
      reset_keeps (·.clock) fun _ => rfl, reset_keeps (·.turn) fun _ => rfl, reset_keeps (·.hot) fun _ => rfl,
      reset_keeps (·.withheld) fun _ => rfl, reset_keeps (·.ownerKey) fun _ => rfl, reset_keeps (·.serial) fun _ => rfl,
      reset_keeps (·.vendorKey) fun _ => rfl, reset_keeps (·.defect) fun _ => rfl, ?_⟩
    exact (reset_keeps (·.attestKey) fun _ => rfl).trans (keyIn_eq ..)
  case measure =>
    intro extended
    refine ⟨fun i img hlo hhi => if_pos ⟨hlo, hhi⟩, fun img hr => ⟨liveUpdate_image img hr (by simp), liveUpdate_image img hr (by simp),
      fun h => liveUpdate_unsigned h _, fun h => ?_⟩⟩
    obtain ⟨hphy, hrest, hlane⟩ := nextPhy_first (extend s 4 img)
    exact ⟨_, liveUpdate_signed hr h .phy, hphy, hrest, hlane⟩
  case error =>
    intro told lost spoiled
    refine ⟨fun pa => ⟨rfl, ?_, ?_⟩, fun u hu => ⟨?_, ?_, ?_⟩, fun pa m _ he => ?_⟩
    · rw [memoryError_line, memoryError_lasting]; rfl
    · rw [memoryError_line, memoryError_uncorrectable]; rfl
    · rw [memoryError_unit hu]; rfl
    · rw [memoryError_unit hu, memoryError_lasting]; rfl
    · rw [memoryError_unit hu, memoryError_uncorrectable]; rfl
    · exact memoryError_move pa he
  case quad =>
    intro d q x cores blank hl
    have blanks {t : State} (h : ∀ c ∈ quadCores d q, Blank t c) : blank t := fun c hc =>
      ⟨(h c hc).slots, (h c hc).l1, (h c hc).tlb, (h c hc).bytes⟩
    refine ⟨fun hb hr => congrArg Host.Outcome.next (retireQuad_busy hl hb hr), fun hi => ?_⟩
    obtain ⟨u, hu, hspares⟩ := retireQuad_idle hl hi
    have hretire : exec (.quadRetire d q) s = .next (replaceQuad u d q) := congrArg Host.Outcome.next hu
    refine ⟨fun p r hs => ?_, fun hs => ?_, fun p hp => ?_⟩
    · exact ⟨_, hretire, blanks (blank_replaceQuad u d q), replaceQuad_spare (hspares.trans hs)⟩
    · exact ⟨_, hretire, blanks (blank_replaceQuad u d q), replaceQuad_noSpare (hspares.trans hs)⟩
    · refine ⟨_, quadReassign_idle hp hl hi, blanks fun c hc => ?_, quadOf_setQuad .., ?_⟩
      · exact (blank_clearQuad (f := zeroCore) (fun _ => ⟨rfl, rfl, rfl⟩) s d q c hc).setQuad ..
      · exact clearQuad_dies zeroCore s d q

end Sys2Proof.Proofs.PlatformEvents
end
